-- ==== Sys2Proof/Word.lean ====
section
/-! DEFINITION. The word types of the block: bytes, the 32-bit words of the control port, 64-bit fields. -/

namespace Sys2Proof

/-- One byte. -/
abbrev Byte := BitVec 8

/-- One register of the control port (R11). -/
abbrev Word := BitVec 32

/-- One 64-bit field, such as the tick counter (R26). -/
abbrev Word64 := BitVec 64

end Sys2Proof
end

