-- ==== Sys2Proof/Syntax.lean ====
section
/-! DEFINITION. The commands of the block: one constructor of `Instr` per row of spec/opcode_table.json, with what the
surroundings supply in that step as operands (which channel, which LUN, what a die, a decoder or the SoC answered). -/

namespace Sys2Proof

abbrev Chan := Fin 32
abbrev Quad := Fin 4
abbrev Glun := Fin 4096
abbrev Ring := Fin 65536
abbrev Zid := Fin 524288
abbrev Port := Fin 8
abbrev Engine := Fin 50
abbrev Target := Fin 16
abbrev Source := Fin 1024
abbrev Domain := Fin 95
abbrev Pool := Fin 8

/-- How a memory-port transfer that the step itself makes ended (R428, R429). -/
inductive PortEnd where
  | ok
  | error (beat : Nat)      -- the beat that failed, counted over the transfer's beats in order
  | timeout (beat : Nat)    -- the beat that did not come
  deriving DecidableEq, Repr

/-- What a poll of a busy LUN found (R141), with the die's status byte in the command. -/
inductive PollResult where
  | busy        -- the operation goes on
  | good        -- ready, FAIL bit clear
  | failed      -- ready, FAIL bit set
  | suspended   -- ready in the suspended state (R158)
  deriving DecidableEq, Repr

/-- What the checks of a program's way met in the codewords of a bus phase (hops 7 and 8 of R264): a detection in staging SRAM or
in the encoder at codeword `cwx` of the word line, found once or found again after the repetition. -/
inductive PathCheck where
  | clean
  | staging (cwx : Byte) (again : Bool)
  | encoder (cwx : Byte) (again : Bool)
  | slot                                -- the check of the parity-accumulator slot that a parity chunk is read from (hop 4, R276)
  deriving DecidableEq, Repr

/-- What the sequencer's own stream of a chunk met (R154, R264, R603): how the port's transfer ended, and the checks. -/
structure PhaseWay where
  mp : PortEnd
  chk : PathCheck
  deriving DecidableEq, Repr

/-- How a decoder takes a codeword: from its pool's soft or hard kind (R242), and whether the staging SRAM's check fails as the codeword
is read (R245). -/
structure DecodeTake where
  soft : Bool
  detect : Bool
  deriving DecidableEq, Repr

/-- What classify (R300) reads of one member's word line. -/
inductive Classify where
  | good | erased | bad
  deriving DecidableEq, Repr

/-- What a training pass measured on one chip enable (R204, R205). -/
structure CeTrain where
  ce       : Nat
  window   : Bool       -- every step found a passing window
  step     : Nat        -- failing step 1 to 7 where none was found
  readEye  : Nat
  writeEye : Nat
  dqsDelay : Nat
  refCode  : Nat
  deskew   : List Byte  -- 16 bytes: read then write deskew of DQ0 to DQ7
  deriving DecidableEq, Repr

/-- What discovery read on one chip enable (R586). -/
structure CeFound where
  ch    : Nat
  ce    : Nat
  id    : List Byte     -- the six Read ID bytes, first returned first
  luns  : Nat           -- LUN count of the parameter page, 0 where no copy is valid
  deriving DecidableEq, Repr

/-- A journal entry as a scan reads it (R278), without its CHECK. -/
structure JEntry where
  seq  : Nat
  typ  : Nat
  pfail : Bool
  fg   : Nat
  zid  : Nat
  wseq : Nat
  row  : Nat
  arg0 : Nat
  arg1 : Nat
  arg2 : Nat
  deriving DecidableEq, Repr

/-- A segment image of a journal page (R281, R282). -/
structure JSegment where
  segSeq : Nat
  kind   : Nat          -- 0 zone table, 1 zone extension table
  index  : Nat
  bytes  : List Byte    -- 4,096 bytes
  deriving DecidableEq, Repr

/-- One page that the scan found valid on some copy (R296). -/
structure JPage where
  pseq     : Nat
  tailPseq : Nat
  copies   : Nat        -- bit c: copy c holds it valid
  entries  : List JEntry
  segs     : List JSegment
  wl       : Nat := 0           -- its word line, the highest where the copies differ
  blocks   : List Nat := []     -- LUN-block of the window in which copy c holds it
  deriving DecidableEq, Repr

/-- What the reads of one row at restart found (R300, R303). -/
structure RowClass where
  zid      : Nat
  row      : Nat
  members  : List Classify
  prev     : List Classify    -- the members of row − 1
  parityOk : Bool             -- P, Q and R recomputed equal the parity members
  deriving DecidableEq, Repr

/-- The header block of a staging extent that a restart reads (R119, R302), with its place. -/
structure StagedHeader where
  set   : Nat
  wl    : Nat
  zid   : Nat
  wseq  : Nat
  row   : Nat
  first : Nat
  count : Nat
  seq   : Nat
  deriving DecidableEq, Repr

/-- The loader's reading of one option-area copy (R589): the window block chosen, the header codeword and the body. -/
structure OaCopy where
  windowBlock : Nat
  headerOk    : Bool        -- some block's header codeword decoded
  header      : List Byte   -- 4,096 bytes
  bodyOk      : Bool        -- every body codeword decoded with the row header of R588
  body        : List Byte
  deriving DecidableEq, Repr

/-- The commands of the block. Each constructor is one row of the table of steps; its docstring names the rule. -/
inductive Instr where
  -- packet commands: `cid` is the number the block gave the fetched command
  | zoneAppend (cid : Nat)            -- R103
  | zoneWrite (cid : Nat)             -- R82
  | zoneRead (cid : Nat)              -- R262
  | zoneReset (cid : Nat)             -- R108
  | zoneOpen (cid : Nat)              -- R101
  | zoneClose (cid : Nat)             -- R84
  | zoneFinish (cid : Nat)            -- R84
  | zoneFlush (cid : Nat)             -- R124
  | zoneQuery (cid : Nat)             -- R64
  -- `mp`: how the fetch of the command's image from SoC memory ended (R428, R429)
  | layoutDefine (cid : Nat) (mp : PortEnd)   -- R93
  | reshapeBegin (cid : Nat) (mp : PortEnd)   -- R338
  | reshapeAbort (cid : Nat)          -- R343
  | memberFail (cid : Nat)            -- R307
  | rebuildStart (cid : Nat)          -- R322
  | rebuildPause (cid : Nat)          -- R332
  | rebuildResume (cid : Nat)         -- R332
  | spareAssign (cid : Nat) (mp : PortEnd)    -- R316
  | scrubRange (cid : Nat)            -- R405
  | scrubInternal (cid : Nat) (detections : List (Nat × Nat × Nat))  -- R412: lines that fail their check (code, instance, line)
  | calibrate (cid : Nat)             -- R401
  | ageingRead (cid : Nat) (mp : PortEnd)     -- R392: how the fetch of the record ended
  | budgetSet (cid : Nat) (mp : PortEnd)      -- R376
  | ringConfigureWrite (cid : Nat) (mp : PortEnd)    -- R65
  | ringConfigureEnable (cid : Nat)   -- R65
  | ringConfigureDisable (cid : Nat)  -- R65
  | ringConfigureUpdate (cid : Nat) (mp : PortEnd)   -- R66
  | configStage (cid : Nat) (mp : PortEnd)   -- R488
  | configCommit (cid : Nat)          -- R493
  | configAudit (cid : Nat)           -- R498
  | measureReport (cid : Nat) (detect : Bool)   -- R504, R514
  | traceControl (cid : Nat)          -- R440
  | rawSequence (cid : Nat) (mp : PortEnd)    -- R184
  | rawRead (cid : Nat)               -- R183
  | rawProgram (cid : Nat)            -- R183
  | rawErase (cid : Nat)              -- R189
  | wpSet (cid : Nat) (mp : PortEnd)          -- R173
  | powerState (cid : Nat)            -- R529
  | echo (cid : Nat)                  -- R64
  -- rings and doorbells
  -- R60: how the packet fetch ended and, packet by packet of the turn, the descriptor walk of R423; a packet that the list
  -- does not reach met no failure
  | packetFetch (q : Quad) (mp : PortEnd) (ends : List PortEnd) (ctxDetect : Bool)
  | doorbellCmdTail (ring : Ring) (value : BitVec 16)          -- R46
  | doorbellCplHead (ring : Ring) (value : BitVec 16)          -- R45
  | doorbellConsume (ring : Ring) (kind : Bool)                -- R47: true is KIND 1
  -- control-port accesses
  | glbTickLoRead                     -- R27
  | jrnSeqLoRead                      -- R305
  | jrnDurableLoRead                  -- R305
  | glbAgeNowLoRead                   -- R415
  | rcCounterRead (addr : Nat) (coincident : Word)             -- R520
  | glbAdvice0Read                    -- R415
  | engCsDataRead (e : Engine)        -- R506
  | registerWrite (addr : Nat) (value : Word) (be : BitVec 4) (coincident : Word)   -- R11, R12
  | ringContextWrite (addr : Nat) (value : Word) (be : BitVec 4)                    -- R49
  | evcClaim (t : Target)             -- R462
  | evcFclaim (t : Target)            -- R462
  | evcComplete (t : Target) (src : Source)    -- R463
  | evcFcomplete (t : Target) (src : Source)   -- R463
  | evcPset (i : Chan) (ones : Word)           -- R454
  | evcFpset (i : Chan) (ones : Word)          -- R454
  | evcPendClear (i : Chan) (ones : Word)      -- R454
  | evcFpendClear (i : Chan) (ones : Word)     -- R454
  | evcSrcWrite (src : Source) (value : Word)  -- R470
  | phyCmdQuickRetrain (c : Chan)     -- R210
  | phyCmdFullTraining (c : Chan)     -- R210
  | phyCmdRaiseAttempt (c : Chan)     -- R215
  | jrnCmdDiscard (fg : BitVec 16)    -- R607
  | glbCfgCmdDiscard                  -- R492
  | glbMeasExt                        -- R503
  | bootCmdLoadOptionArea (copies : List OaCopy)   -- R587, R589
  | bootCmdLoadImage                  -- R590
  | oaUnlockFirstKey (value : Word)   -- R178
  | oaUnlockSecondKey (value : Word)  -- R178
  | oaRelock                          -- R179
  | oaKeyWindowExpiry                 -- R178
  | oaUnlockExpiry                    -- R179
  -- resets, pins, clocks
  | porstNFall                        -- R580
  | porstNRise                        -- R584
  | srstNFall                         -- R557
  | srstNRise                         -- R584
  | pfailNFall                        -- R569
  | powerFailWarning                  -- R291
  | pfailStageByExpiry                -- R291
  | pfailNRise                        -- R293
  | pfailHighFilterExpiry             -- R293
  | trefLost                          -- R31
  | trefReturn                        -- R32
  | trefFreqWindow (disagree : Bool)  -- R33
  | paceWindowEnd (count : BitVec 16) -- R28
  | pllUnlock (c : Chan)              -- R216
  | pllLock (c : Chan)                -- R216
  | tgtSleepChange (t : Target) (level : Bool)   -- R573
  | memHoldRise                       -- R555
  | memHoldFall                       -- R431
  | thermalWord (grp : Fin 8) (readings : List Byte)   -- R570
  -- boundary handshakes
  | bufferPoolResponse (q : Quad) (result : Bool) (gaddr : Word64)   -- R558: true is BPq_RESULT 1
  | mpBurstIssue (n : Port)           -- R418
  | mpResponseBeat (n : Port) (tag : Fin 64) (stat : BitVec 2) (data : List Byte) (crc : BitVec 16)   -- R551
  | mpBurstTimeout (n : Port) (tag : Fin 64)     -- R429
  | domainHandshakeAck (d : Domain) (ret : Bool) (level : Bool)      -- R568
  | domainHandshakeTimeout (d : Domain)          -- R527
  | tracePortRead (k : Fin 5)         -- R576
  -- timers
  | governorRefill                    -- R358
  | coalTicksExpiry (ring : Ring)     -- R80
  | holdoffExpiry (g : Fin 64)        -- R456
  | sourceFilterExpiry (src : Source) -- R452
  | traceTimeout (k : Fin 5)          -- R445
  | statusPoll (glun : Glun) (res : PollResult) (status : Byte) (loops : Byte)   -- R141, R151
  | lunTimeout (glun : Glun)          -- R142
  | holdMaxExpiry (glun : Glun)       -- R149
  | commitTicksExpiry                 -- R288
  | linkCheck (c : Chan) (ce : Fin 16) (pass : Bool)   -- R208
  | quickRetrainPeriod (c : Chan)     -- R210
  | raiseAttempt (c : Chan)           -- R215
  | dieTemperatureRead (glun : Glun) (value : Byte)    -- R355
  | thermalStale (z : Fin 16)         -- R357
  | patrolVisit (q : Quad)            -- R409
  | furlWake                          -- R540
  | ageingWriteBack (bg : Nat)        -- R385
  | predictionRefresh (q : Quad) (bg : Nat)   -- R248
  | poolRetry (q : Quad)              -- R436
  | trimIdleExpiry (d : Domain)       -- R528
  | stageLeadExpiry (zid : Zid)       -- R116
  | strictDeadlineExpiry (cid : Nat)  -- R368
  | ixAliveToggle                     -- R574
  | leaseWaitExpiry (cid : Nat)       -- R401
  | safePointOverrun (e : Engine)     -- R478
  -- flash, decoding, stripes
  | busPhaseIssue (c : Chan) (way : PhaseWay)   -- R154, R264, R603
  | programConfirm (glun : Glun)      -- R148
  | codewordReceived (c : Chan) (raw : List Byte) (detect : Bool)   -- R239, R245
  | decodeStart (p : Pool) (take : DecodeTake)      -- R242, R245
  | decodeDone (p : Pool) (d : Fin 10) (out : List Byte) (iters : Nat) (detect : Bool)   -- R241
  | reconstructionDone (rid : Nat) (detect : Bool)  -- R256
  | operationResume (glun : Glun)     -- R162
  | rowParityStart (ste : Fin 8)      -- R272
  | rowParityDone (ste : Fin 8) (detect : Option (Fin 3))   -- R277, R276: the parity whose slot fails its check
  | foldStart (zid : Zid)             -- R114
  | stagingStart (zid : Zid)          -- R119
  | stagingReclaim (fg : BitVec 16)   -- R123
  -- journal and restart
  | journalPageWrite (copy : Fin 3)   -- R284
  | windowTurn                        -- R285
  | journalScanDone (pages : List JPage)      -- R296
  | failureGroupRestart (fg : BitVec 16) (reads : List RowClass) (staged : List StagedHeader)   -- R299
  -- rebuild, reshape, maintenance, training, raw
  | rebuildUnitEnd (fg : BitVec 16) (zid : Zid)    -- R327
  | reshapeZoneCross (fg : BitVec 16)         -- R340
  -- The `Unit` operands carry no information: the block computes the sweep's and the scrub's results itself.
  | calibrationSweepDone (cid : Nat) (w b l : Unit)   -- R402
  | scrubRangeDone (cid : Nat) (w h f m u l : Unit)   -- R407
  | fullTrainingDone (c : Chan) (zqCodes : Byte × Byte) (zqEnd : Bool) (ces : List CeTrain)   -- R211
  | quickRetrainDone (c : Chan) (zqCodes : Byte × Byte) (zqEnd : Bool) (ces : List CeTrain)   -- R206
  | rawWaitEnd (glun : Glun) (status : Byte) (timedOut : Bool)      -- R187
  -- configuration, power, bring-up
  | configCommitComplete              -- R493
  | drainingSlotFree                  -- R495
  | powerEntryCommit                  -- R530
  | powerEntryEnd                     -- R530
  | powerExitEnd (badUnit : Option (Fin 59)) (copies : List OaCopy)  -- R538, R537
  | memoryFillDone (ctxBad : List Nat) (noticeFails : List Nat)      -- R510, R582
  | bringupPhyUp                      -- R584
  | dieDiscoveryDone (found : List CeFound)   -- R586
  | optionAreaLoadDone                -- R591
  | bringupTrainingDone               -- R584, R592
  | engineRelease                     -- R584
  | readyIndication                   -- R593
  -- microwords: the engine and the fields of R474
  | trap (e : Engine) (safe : Bool)
  | aluAdd (e : Engine) (safe : Bool) (dst a b : Fin 16)
  | aluSub (e : Engine) (safe : Bool) (dst a b : Fin 16)
  | aluAnd (e : Engine) (safe : Bool) (dst a b : Fin 16)
  | aluOr (e : Engine) (safe : Bool) (dst a b : Fin 16)
  | aluXor (e : Engine) (safe : Bool) (dst a b : Fin 16)
  | aluShl (e : Engine) (safe : Bool) (dst a b : Fin 16)
  | aluShr (e : Engine) (safe : Bool) (dst a b : Fin 16)
  | aluGfmul (e : Engine) (safe : Bool) (dst a b : Fin 16)
  | aluCmp (e : Engine) (safe : Bool) (dst a b : Fin 16)
  | aluMov (e : Engine) (safe : Bool) (dst a b : Fin 16)
  | ldi (e : Engine) (safe : Bool) (high : Bool) (dst : Fin 16) (imm : BitVec 16)
  | memLoad (e : Engine) (safe : Bool) (reg base : Fin 16) (off : BitVec 14) (detect : Bool)
  | memStore (e : Engine) (safe : Bool) (reg base : Fin 16) (off : BitVec 14)
  | br (e : Engine) (safe : Bool) (cond : Fin 16) (target : BitVec 14)
  | call (e : Engine) (safe : Bool) (target : BitVec 14)
  | ret (e : Engine) (safe : Bool) (target : BitVec 14)
  | port (e : Engine) (safe : Bool) (portNo : Fin 64) (regA regB : Fin 16) (code : BitVec 13)
  | wait (e : Engine) (safe : Bool) (portNo : Fin 64) (regT : Fin 16)
  | microwordWaitEnd (e : Engine) (reply : Word)   -- R479
  | disp (e : Engine) (safe : Bool) (reg : Fin 16) (parityError : Bool)
  | done (e : Engine) (safe : Bool) (next : Option (Byte × Nat)) (parityError : Bool)   -- the next item: work opcode, and what it works on
  -- test access port
  | extest
  | idcode
  | samplePreload (pins : List Bool) (cells : List Bool)
  | clamp
  | highz
  | extestPulse
  | extestTrain
  | bypass (code : Byte)
  -- rows added last
  | mpRequestAccept (n : Port)        -- R549
  | mpWriteBeatAccept (n : Port)      -- R430
  | furlPatrolHoldExpiry (q : Quad)   -- R411
  | registerRead (addr : Nat) (be : BitVec 4)   -- R25
  deriving DecidableEq, Repr

end Sys2Proof
end

