-- ==== Sys2Proof/Decode.lean ====
section
/-! DEFINITION. The word of a command in the table of steps: the table gives no row any bits, so no word spells a
command. Beside it the 32-bit microwords of the engines (R474), read and written: the fields that a microword holds, as the
rows of the microword operations carry them. -/

namespace Sys2Proof

/-- The command that a word spells by the table's bits. No row of the table has bits: always none. -/
def decodeTableWord (_nbits _w : Nat) : Option Instr := none

/-- The field of a microword from bit `lo`, with as many bits as `n` numbers need. -/
def uwField (w : BitVec 32) (lo n : Nat) (h : 0 < n) : Fin n := ⟨w.toNat / 2 ^ lo % n, Nat.mod_lt _ h⟩

/-- An operation of the ALU by FN; 10 to 15 are the machine check of a TRAP (R474). -/
def decodeAlu (e : Engine) (safe : Bool) (fn dst a b : Fin 16) : Instr :=
  match fn.val with
  | 0 => .aluAdd e safe dst a b
  | 1 => .aluSub e safe dst a b
  | 2 => .aluAnd e safe dst a b
  | 3 => .aluOr e safe dst a b
  | 4 => .aluXor e safe dst a b
  | 5 => .aluShl e safe dst a b
  | 6 => .aluShr e safe dst a b
  | 7 => .aluGfmul e safe dst a b
  | 8 => .aluCmp e safe dst a b
  | 9 => .aluMov e safe dst a b
  | _ => .trap e safe

/-- The operation that a microword holds for an engine (R474). What the engine's surroundings supply in that step (a check
that fails, the next item) is absent. OP 0xA to 0xF are the machine check of a TRAP. -/
def decodeMicroword (e : Engine) (w : BitVec 32) : Instr :=
  let safe := w.getLsbD 31
  let top := w.getLsbD 26
  let r4 (lo : Nat) : Fin 16 := uwField w lo 16 (by decide)
  let target := w.extractLsb' 0 14
  let portNo : Fin 64 := uwField w 21 64 (by decide)
  match (uwField w 27 16 (by decide)).val with
  | 1 => decodeAlu e safe (r4 23) (r4 19) (r4 15) (r4 11)
  | 2 => .ldi e safe top (r4 19) (w.extractLsb' 0 16)
  | 3 => if top then .memStore e safe (r4 19) (r4 15) target else .memLoad e safe (r4 19) (r4 15) target false
  | 4 => .br e safe (r4 23) target
  | 5 => if top then .ret e safe target else .call e safe target
  | 6 => .port e safe portNo (r4 17) (r4 13) (w.extractLsb' 0 13)
  | 7 => .wait e safe portNo (r4 17)
  | 8 => .disp e safe (r4 19) false
  | 9 => .done e safe none false
  | _ => .trap e safe

/-- A microword from SAFE, OP and the bits of [26:0] (R474); bits that no field names are 0. -/
def microword (safe : Bool) (op rest : Nat) : BitVec 32 :=
  BitVec.ofNat 32 ((if safe then 2 ^ 31 else 0) + op * 2 ^ 27 + rest)

/-- The bits of an ALU microword below OP. -/
def aluBits (fn : Nat) (dst a b : Fin 16) : Nat := fn * 2 ^ 23 + dst.val * 2 ^ 19 + a.val * 2 ^ 15 + b.val * 2 ^ 11

/-- The microword of a microword operation (R474); none for every other command. -/
def encodeMicroword : Instr → Option (BitVec 32)
  | .trap _ safe => some (microword safe 0 0)
  | .aluAdd _ safe dst a b => some (microword safe 1 (aluBits 0 dst a b))
  | .aluSub _ safe dst a b => some (microword safe 1 (aluBits 1 dst a b))
  | .aluAnd _ safe dst a b => some (microword safe 1 (aluBits 2 dst a b))
  | .aluOr _ safe dst a b => some (microword safe 1 (aluBits 3 dst a b))
  | .aluXor _ safe dst a b => some (microword safe 1 (aluBits 4 dst a b))
  | .aluShl _ safe dst a b => some (microword safe 1 (aluBits 5 dst a b))
  | .aluShr _ safe dst a b => some (microword safe 1 (aluBits 6 dst a b))
  | .aluGfmul _ safe dst a b => some (microword safe 1 (aluBits 7 dst a b))
  | .aluCmp _ safe dst a b => some (microword safe 1 (aluBits 8 dst a b))
  | .aluMov _ safe dst a b => some (microword safe 1 (aluBits 9 dst a b))
  | .ldi _ safe high dst imm => some (microword safe 2 ((if high then 2 ^ 26 else 0) + dst.val * 2 ^ 19 + imm.toNat))
  | .memLoad _ safe reg base off _ => some (microword safe 3 (reg.val * 2 ^ 19 + base.val * 2 ^ 15 + off.toNat))
  | .memStore _ safe reg base off => some (microword safe 3 (2 ^ 26 + reg.val * 2 ^ 19 + base.val * 2 ^ 15 + off.toNat))
  | .br _ safe cond target => some (microword safe 4 (cond.val * 2 ^ 23 + target.toNat))
  | .call _ safe target => some (microword safe 5 target.toNat)
  | .ret _ safe target => some (microword safe 5 (2 ^ 26 + target.toNat))
  | .port _ safe portNo regA regB code =>
    some (microword safe 6 (portNo.val * 2 ^ 21 + regA.val * 2 ^ 17 + regB.val * 2 ^ 13 + code.toNat))
  | .wait _ safe portNo regT => some (microword safe 7 (portNo.val * 2 ^ 21 + regT.val * 2 ^ 17))
  | .disp _ safe reg _ => some (microword safe 8 (reg.val * 2 ^ 19))
  | .done _ safe _ _ => some (microword safe 9 0)
  | _ => none

end Sys2Proof
end

