-- ==== Sys2Proof/Config.lean ====
section
/-! DEFINITION. What an implementation fixes and the spec leaves open: the free values. They have no body, so no proof
can see them, and a statement about one holds for every value of it. -/

namespace Sys2Proof.Config

/-- The free values of the block, by the counter of `State.free` (log entry 3). -/
opaque freeValue : Nat → BitVec 64

/-- Whether a cyclic shift by SHIFT of R226 moves a one of row i to column i + SHIFT (true) or to column i − SHIFT,
modulo 64: the spec gives no direction (log entry 7). -/
opaque shiftUp : Bool

/-- Has an engine kind (0 CSQ, 1 STE, 2 QSC, 3 MNE, 4 JRE, 5 GOVE) a port of a number? The spec lists only the ports open
to hooks (R487; log entry 9). -/
opaque enginePort : Nat → Nat → Bool

/-- JTAG_MFG[10:0] as the integrator strapped it (R577). -/
opaque jtagMfg : BitVec 11

/-- Feature address of the on-die termination of a die of an IFACE (R201), and the command of the die's own impedance calibration, where
its interface defines one (R203): the spec names neither byte (log entry 75). -/
opaque odtFeature : Bool → BitVec 8
opaque zqCommand : Bool → Option (BitVec 8)

end Sys2Proof.Config
end

