-- ==== Sys2Proof/Machine/Bits.lean ====
section
/-! DEFINITION. Bit fields, byte packing, sparse tables by number, and the check codes of the block: CRC-32 (R10),
CRC-16 of a memory-port beat (R553), the CRC-64 of a guard field, SHA-384, and arithmetic in GF(2^8). -/

namespace Sys2Proof.Machine

/-! ### Fields of numbers -/

/-- Bits `hi` down to `lo` of `w` (R6). -/
def bits (w hi lo : Nat) : Nat := (w >>> lo) % 2 ^ (hi + 1 - lo)

/-- Bit `i` of `w`. -/
def bit (w i : Nat) : Bool := w.testBit i

/-- `true` as 1. -/
def b2n (b : Bool) : Nat := if b then 1 else 0

/-- A 32-bit word of a number; larger numbers are truncated (R16). -/
def w32 (n : Nat) : Word := BitVec.ofNat 32 n

/-- Addition that stops at `max` (the saturating counters of the register tables). -/
def satAdd (max a b : Nat) : Nat := min max (a + b)

/-- The reading of a byte as a signed number. -/
def sbyte (n : Nat) : Int := if n % 256 < 128 then (n % 256 : Int) else (n % 256 : Int) - 256

/-- A signed number as a byte. -/
def ofSbyte (i : Int) : Nat := (i % 256).toNat

/-- Number of 1 bits among the low `n` bits of `w`. -/
def popcount : Nat → Nat → Nat
  | 0, _ => 0
  | n + 1, w => w % 2 + popcount n (w / 2)

/-! ### Sparse tables: lists of number and value with rising numbers -/

/-- The value under `k`, where one stands. -/
def tget? {α : Type} (m : List (Nat × α)) (k : Nat) : Option α :=
  match m with
  | [] => none
  | (a, v) :: r => if a = k then some v else tget? r k

/-- The value under `k`, or `d`. -/
def tget {α : Type} (m : List (Nat × α)) (k : Nat) (d : α) : α := (tget? m k).getD d

/-- The table with `v` under `k`. -/
def tset {α : Type} (m : List (Nat × α)) (k : Nat) (v : α) : List (Nat × α) :=
  match m with
  | [] => [(k, v)]
  | (a, x) :: r =>
    if k < a then (k, v) :: (a, x) :: r
    else if k = a then (k, v) :: r
    else (a, x) :: tset r k v

/-- The table without `k`. -/
def terase {α : Type} (m : List (Nat × α)) (k : Nat) : List (Nat × α) :=
  match m with
  | [] => []
  | (a, x) :: r => if a = k then terase r k else (a, x) :: terase r k

/-- The table with the value under `k` (or `d`) changed by `f`. -/
def tmod {α : Type} (m : List (Nat × α)) (k : Nat) (d : α) (f : α → α) : List (Nat × α) :=
  tset m k (f (tget m k d))

/-- The lowest number below `n` under which nothing stands. -/
def tfree {α : Type} (m : List (Nat × α)) (n : Nat) : Option Nat :=
  (List.range n).find? (fun k => (tget? m k).isNone)

/-- The first element with `p`, changed by `f`. -/
def modFirst {α : Type} (p : α → Bool) (f : α → α) : List α → List α
  | [] => []
  | x :: r => if p x then f x :: r else x :: modFirst p f r

/-- The element of `l` with the least key, the earlier one on equal keys. -/
def minBy {α : Type} (key : α → Nat) : List α → Option α
  | [] => none
  | x :: r =>
    match minBy key r with
    | none => some x
    | some y => if key y < key x then some y else some x

/-- The list without repeats, first occurrences kept. -/
def dedupNat : List Nat → List Nat
  | [] => []
  | x :: r => x :: (dedupNat r).filter (fun y => y ≠ x)

/-! ### Bytes -/

/-- The number that bytes spell, little-endian (R5). -/
def leNat : List Byte → Nat
  | [] => 0
  | b :: r => b.toNat + 256 * leNat r

/-- The low `n` bytes of a number, little-endian (R5). -/
def leBytes : Nat → Nat → List Byte
  | 0, _ => []
  | n + 1, v => BitVec.ofNat 8 v :: leBytes n (v / 256)

/-- `n` bytes of `l` from offset `o`; bytes past the end read as 0. -/
def slice (l : List Byte) (o n : Nat) : List Byte :=
  let s := (l.drop o).take n
  s ++ List.replicate (n - s.length) 0

/-- The little-endian number of `n` bytes at offset `o`. -/
def fieldAt (l : List Byte) (o n : Nat) : Nat := leNat (slice l o n)

/-- `l` with the bytes from offset `o` replaced by `b`. -/
def putBytes (l : List Byte) (o : Nat) (b : List Byte) : List Byte :=
  slice l 0 o ++ b ++ l.drop (o + b.length)

/-- Byte-wise exclusive or, over the length of the longer list. -/
def xorBytes : List Byte → List Byte → List Byte
  | [], b => b
  | a, [] => a
  | a :: r, b :: q => (a ^^^ b) :: xorBytes r q

/-- Zero bytes. -/
def zeros (n : Nat) : List Byte := List.replicate n 0

/-- The number of 0 bits in a list of bytes. -/
def zeroBits (l : List Byte) : Nat := l.foldl (fun a b => a + (8 - popcount 8 b.toNat)) 0

/-- The number of 1 bits in a list of bytes. -/
def oneBits (l : List Byte) : Nat := l.foldl (fun a b => a + popcount 8 b.toNat) 0

/-! ### Check codes -/

/-- One byte into an unreflected CRC of `w` bits, bit 7 first. -/
def crcByte (w poly : Nat) (c : Nat) (b : Byte) : Nat :=
  (List.range 8).foldl (fun c i =>
    let fb := (bit c (w - 1)) != (bit b.toNat (7 - i))
    let c := (c * 2) % 2 ^ w
    if fb then c ^^^ poly else c) c

/-- CRC-32: polynomial 0x04C1_1DB7, initial value 0, no reflection, no final XOR (R10). -/
def crc32 (l : List Byte) : Nat := l.foldl (crcByte 32 0x04C11DB7) 0

/-- CRC-16: polynomial 0x1021, initial value 0xFFFF (R553). -/
def crc16 (l : List Byte) : Nat := l.foldl (crcByte 16 0x1021) 0xFFFF

/-- One byte into a reflected CRC-64. -/
def crc64Byte (c : Nat) (b : Byte) : Nat :=
  (List.range 8).foldl (fun c _ =>
    if c % 2 = 1 then (c / 2) ^^^ 0x9A6C9329AC4BC9B5 else c / 2) (c ^^^ b.toNat)

/-- The 64-bit guard over one block: the CRC-64 of NVM Express (reflected, all ones before and after).
PRESUMED: the spec names it and gives its check value, the parameters are the standard's (log entry 6). -/
def crc64 (l : List Byte) : Nat := (l.foldl crc64Byte 0xFFFFFFFFFFFFFFFF) ^^^ 0xFFFFFFFFFFFFFFFF

/-! ### GF(2^8) -/

/-- `a` times `x` in GF(2^8) with the polynomial `p` (low eight bits). -/
def gfx (p a : Nat) : Nat := if a ≥ 128 then ((a * 2) % 256) ^^^ p else a * 2

/-- Product in GF(2^8) with the polynomial `p`: the sum of the shifts of `a` that bits of `b` select. -/
def gfmul (p a b : Nat) : Nat :=
  ((List.range 8).foldl (fun (acc : Nat × Nat) i =>
    (if bit b i then acc.1 ^^^ acc.2 else acc.1, gfx p acc.2)) (0, a % 256)).1

/-- `g` raised to `n`. -/
def gfpow (p g : Nat) : Nat → Nat
  | 0 => 1
  | n + 1 => gfmul p g (gfpow p g n)

/-! ### SHA-384 (FIPS 180-4; PRESUMED, log entry 6)

Its constants are computed: the first 64 fractional bits of the cube roots of the first 80 primes, and of the square roots of
the 9th to the 16th prime. -/

/-- The primes below `n`, rising. -/
def primesBelow (n : Nat) : List Nat :=
  (List.range n).filter (fun p => decide (2 ≤ p) && ((List.range p).drop 2).all (fun d => decide (p % d ≠ 0)))

/-- The first 64 bits of the fractional part of the `n`-th root of `p`, for a root below 32: bit after bit from the top. -/
def rootBits (n p : Nat) : BitVec 64 :=
  BitVec.ofNat 64 ((List.range 69).foldl (fun x i =>
    let y := x + 2 ^ (68 - i)
    if y ^ n ≤ p * 2 ^ (64 * n) then y else x) 0)

/-- The constants of the 80 steps. -/
def shaSteps : List (BitVec 64) := (primesBelow 410).map (rootBits 3)

/-- Big-endian number of bytes. -/
def beNat (l : List Byte) : Nat := l.foldl (fun a b => a * 256 + b.toNat) 0

/-- The `n` big-endian bytes of a number. -/
def beBytes (n v : Nat) : List Byte := (leBytes n v).reverse

/-- The message padded to whole blocks of 128 bytes. -/
def shaPad (l : List Byte) : List Byte :=
  l ++ [0x80] ++ zeros ((239 - l.length % 128) % 128) ++ beBytes 16 (8 * l.length)

/-- The exclusive or of a word's rotations to the right, with a start value. -/
def turned (start w : BitVec 64) (by_ : List Nat) : BitVec 64 := by_.foldl (fun a n => a ^^^ w.rotateRight n) start

/-- The schedule's words, latest first, with `n` more behind the sixteen of the block. -/
def shaExtend : Nat → List (BitVec 64) → List (BitVec 64)
  | 0, w => w
  | n + 1, w =>
    let far := w.getD 14 0
    let near := w.getD 1 0
    shaExtend n ((w.getD 15 0 + w.getD 6 0 + turned (far >>> 7) far [1, 8] + turned (near >>> 6) near [19, 61]) :: w)

/-- The words of a block's schedule, in order. -/
def shaWords (blk : List Byte) : List (BitVec 64) :=
  (shaExtend 64 ((List.range 16).map (fun i => BitVec.ofNat 64 (beNat (slice blk (8 * (15 - i)) 8))))).reverse

/-- The working words as two histories, latest first: the four of the `a` side and the four of the `e` side. -/
abbrev ShaPair := List (BitVec 64) × List (BitVec 64)

/-- One step: `kw` is its constant and its schedule word, added. -/
def shaStep (v : ShaPair) (kw : BitVec 64) : ShaPair :=
  let a (i : Nat) := v.1.getD i 0
  let e (i : Nat) := v.2.getD i 0
  let mix := e 3 + kw + turned 0 (e 0) [14, 18, 41] + (e 2 ^^^ (e 0 &&& (e 1 ^^^ e 2)))
  ((mix + turned 0 (a 0) [28, 34, 39] + ((a 0 &&& a 1) ||| (a 2 &&& (a 0 ||| a 1)))) :: v.1.take 3,
   (mix + a 3) :: v.2.take 3)

/-- One block into the running value. -/
def shaBlock (v : ShaPair) (blk : List Byte) : ShaPair :=
  let u := (shaSteps.zipWith (fun k w => k + w) (shaWords blk)).foldl shaStep v
  (v.1.zipWith (fun x y => x + y) u.1, v.2.zipWith (fun x y => x + y) u.2)

/-- Whole blocks of a padded message. -/
def shaBlocks : Nat → List Byte → ShaPair → ShaPair
  | 0, _, v => v
  | n + 1, l, v => shaBlocks n (l.drop 128) (shaBlock v (l.take 128))

/-- The running value before the first block. -/
def sha384Start : ShaPair :=
  let h := ((primesBelow 54).drop 8).map (rootBits 2)
  (h.take 4, h.drop 4)

/-- SHA-384 of a message: 48 bytes. -/
def sha384 (l : List Byte) : List Byte :=
  let p := shaPad l
  let v := shaBlocks (p.length / 128) p sha384Start
  (v.1 ++ v.2.take 2).flatMap (fun w => beBytes 8 w.toNat)

/-- A difference kept in a field of `w` bits (R16). -/
def wrapSub (w a b : Nat) : Nat := (a + 2 ^ w - b % 2 ^ w) % 2 ^ w

/-- A signed number kept in a field of `w` bits (R16). -/
def narrow (w : Nat) (i : Int) : Int := (BitVec.ofInt w i).toInt

end Sys2Proof.Machine
end

