-- ==== Sys2Proof/Machine/RegMap.lean ====
section
/-! DEFINITION. The register maps of the control port: every register of the spec's register tables with its offset,
access code (R11), the bits that are not res (R7, R9) and its reset value, and the address of each by name. -/

namespace Sys2Proof.Machine

/-- The access codes of R11. -/
inductive Acc where
  | ro | rw | wo | w1c | w1s | rc | rwl
  deriving DecidableEq, Repr

/-- One row of a register table: offset of its first register, distance and number of its registers, access code,
bits that are not res, reset value. -/
structure RegRow where
  base   : Nat
  stride : Nat
  count  : Nat
  acc    : Acc
  mask   : Nat
  reset  : Nat
  deriving DecidableEq, Repr

/-- Quadrant-common window q (R598). -/
def quadBase (q : Nat) : Nat := 0x80000 + q * 0x20000

/-- Channel window c (R598). -/
def chanBase (c : Nat) : Nat := 0x80000 + (c / 8) * 0x20000 + 0x10000 + (c % 8) * 0x2000

/-- Debug window of engine e (R506). -/
def engBase (e : Nat) : Nat := 0x100000 + 0x4000 * e

/-- Registers of decoder pool p (R267). -/
def poolBase (p : Nat) : Nat := quadBase (p / 2) + 0x800 + 0x80 * (p % 2)

/-- Registers of memory port n (R448). -/
def portBase (n : Nat) : Nat := quadBase (n / 2) + 0xC00 + 0x40 * (n % 2)

/-- Registers of trace FIFO k, 4 being TFG (R449). -/
def traceBase (k : Nat) : Nat := if k < 4 then quadBase k + 0xE00 else 0x30200

/-- GLB_TICK_LO (R30). -/
def regGlbTickLo : Nat := 0x200
/-- GLB_TICK_HI (R30). -/
def regGlbTickHi : Nat := 0x204
/-- GLB_PACE (R30). -/
def regGlbPace : Nat := 0x208
/-- GLB_PACE_FLOOR (R30). -/
def regGlbPaceFloor : Nat := 0x20C
/-- GLB_TB_STATUS (R30). -/
def regGlbTbStatus : Nat := 0x210
/-- GLB_TB_COUNT (R30). -/
def regGlbTbCount : Nat := 0x214
/-- GLB_DOORBELL (R44). -/
def regGlbDoorbell (i : Nat) : Nat := 0x40000 + 4 * i
/-- GLB_RING_FAULT (R54). -/
def regGlbRingFault : Nat := 0x300
/-- GLB_RING_FAULT_COUNT (R54). -/
def regGlbRingFaultCount : Nat := 0x304
/-- GLB_DB_DISCARD_COUNT (R54). -/
def regGlbDbDiscardCount : Nat := 0x308
/-- HOP_ZT_BASE_LO (R132). -/
def regHopZtBaseLo : Nat := 0x400
/-- HOP_ZT_BASE_HI (R132). -/
def regHopZtBaseHi : Nat := 0x404
/-- HOP_ZX_BASE_LO (R132). -/
def regHopZxBaseLo : Nat := 0x408
/-- HOP_ZX_BASE_HI (R132). -/
def regHopZxBaseHi : Nat := 0x40C
/-- HOP_LT_BASE_LO (R132). -/
def regHopLtBaseLo : Nat := 0x410
/-- HOP_LT_BASE_HI (R132). -/
def regHopLtBaseHi : Nat := 0x414
/-- HOP_LT_SIZE (R132). -/
def regHopLtSize : Nat := 0x418
/-- HOP_CTRL (R132). -/
def regHopCtrl : Nat := 0x41C
/-- HOP_STAGE_LEAD (R132). -/
def regHopStageLead : Nat := 0x420
/-- HOP_OZT_USED (R132). -/
def regHopOztUsed : Nat := 0x424
/-- HOP_STATUS (R132). -/
def regHopStatus : Nat := 0x428
/-- HOP_COUNT (R132). -/
def regHopCount : Nat := 0x42C
/-- HOP_LT_USED (R132). -/
def regHopLtUsed : Nat := 0x430
/-- HOP_SLICE_FREE (R133). -/
def regHopSliceFree (q : Nat) : Nat := quadBase q + 0x400
/-- HOP_SLICE_LOW (R133). -/
def regHopSliceLow (q : Nat) : Nat := quadBase q + 0x404
/-- HOP_SLICE_SPILLS (R133). -/
def regHopSliceSpills (q : Nat) : Nat := quadBase q + 0x408
/-- CSQ_CFG (R195). -/
def regCsqCfg (c : Nat) : Nat := chanBase c + 0x0
/-- CSQ_HOLD_MAX (R195). -/
def regCsqHoldMax (c : Nat) : Nat := chanBase c + 0x4
/-- CSQ_BUSY (R195). -/
def regCsqBusy (c : Nat) : Nat := chanBase c + 0x8
/-- CSQ_STATUS (R195). -/
def regCsqStatus (c : Nat) : Nat := chanBase c + 0xC
/-- CSQ_COUNT (R195). -/
def regCsqCount (c : Nat) : Nat := chanBase c + 0x10
/-- CSQ_TIMEOUT_LUN (R195). -/
def regCsqTimeoutLun (c : Nat) : Nat := chanBase c + 0x14
/-- CSQ_SUSPENDS (R195). -/
def regCsqSuspends (c : Nat) : Nat := chanBase c + 0x18
/-- CSQ_SUSP_OVER (R195). -/
def regCsqSuspOver (c : Nat) : Nat := chanBase c + 0x1C
/-- CSQ_LUN_STATE (R195). -/
def regCsqLunState (c : Nat) (i : Nat) : Nat := chanBase c + 0x40 + 4 * i
/-- CSQ_LUN_MODEL (R195). -/
def regCsqLunModel (c : Nat) (i : Nat) : Nat := chanBase c + 0x80 + 4 * i
/-- WP_MASK (R196). -/
def regWpMask (i : Nat) : Nat := 0x1000 + 4 * i
/-- WP_OA_UNLOCK (R196). -/
def regWpOaUnlock : Nat := 0x1200
/-- WP_STATUS (R196). -/
def regWpStatus : Nat := 0x1204
/-- WP_COUNT (R196). -/
def regWpCount : Nat := 0x1208
/-- WP_PROTECTED (R196). -/
def regWpProtected : Nat := 0x120C
/-- PHY_CFG (R224). -/
def regPhyCfg (c : Nat) : Nat := chanBase c + 0x1000
/-- PHY_TERM (R224). -/
def regPhyTerm (c : Nat) : Nat := chanBase c + 0x1004
/-- PHY_TRIG (R224). -/
def regPhyTrig (c : Nat) : Nat := chanBase c + 0x1008
/-- PHY_LINK_IVL (R224). -/
def regPhyLinkIvl (c : Nat) : Nat := chanBase c + 0x100C
/-- PHY_QUICK_IVL (R224). -/
def regPhyQuickIvl (c : Nat) : Nat := chanBase c + 0x1010
/-- PHY_RAISE_MS (R224). -/
def regPhyRaiseMs (c : Nat) : Nat := chanBase c + 0x1014
/-- PHY_MARGIN_MIN (R224). -/
def regPhyMarginMin (c : Nat) : Nat := chanBase c + 0x1018
/-- PHY_CMD (R224). -/
def regPhyCmd (c : Nat) : Nat := chanBase c + 0x101C
/-- PHY_STATE (R224). -/
def regPhyState (c : Nat) : Nat := chanBase c + 0x1020
/-- PHY_STATUS (R224). -/
def regPhyStatus (c : Nat) : Nat := chanBase c + 0x1024
/-- PHY_COUNT0 (R224). -/
def regPhyCount0 (c : Nat) : Nat := chanBase c + 0x1028
/-- PHY_COUNT1 (R224). -/
def regPhyCount1 (c : Nat) : Nat := chanBase c + 0x102C
/-- PHY_TRAIN_LOG (R224). -/
def regPhyTrainLog (c : Nat) : Nat := chanBase c + 0x1030
/-- PHY_RETRAINS (R224). -/
def regPhyRetrains (c : Nat) : Nat := chanBase c + 0x1034
/-- PHY_ZQ (R224). -/
def regPhyZq (c : Nat) : Nat := chanBase c + 0x1038
/-- PHY_CE_TRAIN (R224). -/
def regPhyCeTrain (c : Nat) (i : Nat) : Nat := chanBase c + 0x1040 + 4 * i
/-- PHY_DESKEW (R224). -/
def regPhyDeskew (c : Nat) (i : Nat) : Nat := chanBase c + 0x1100 + 16 * i
/-- DEC_CFG (R266). -/
def regDecCfg : Nat := 0x1400
/-- DEC_ERASED (R266). -/
def regDecErased : Nat := 0x1404
/-- DEC_PI_STATUS (R266). -/
def regDecPiStatus : Nat := 0x1408
/-- DEC_PI_COUNT0 (R266). -/
def regDecPiCount0 : Nat := 0x140C
/-- DEC_PI_COUNT1 (R266). -/
def regDecPiCount1 : Nat := 0x1410
/-- DEC_HDR_LOG0 (R266). -/
def regDecHdrLog0 : Nat := 0x1414
/-- DEC_HDR_LOG1 (R266). -/
def regDecHdrLog1 : Nat := 0x1418
/-- DEC_POOL_STATE (R267). -/
def regDecPoolState (p : Nat) : Nat := poolBase p + 0x0
/-- DEC_POOL_CNT (R267). -/
def regDecPoolCnt (p : Nat) : Nat := poolBase p + 0x4
/-- DEC_STATUS (R267). -/
def regDecStatus (p : Nat) : Nat := poolBase p + 0x8
/-- DEC_COUNT (R267). -/
def regDecCount (p : Nat) : Nat := poolBase p + 0xC
/-- DEC_STEP_CNT (R267). -/
def regDecStepCnt (p : Nat) (i : Nat) : Nat := poolBase p + 0x10 + 4 * i
/-- JRN_CTRL (R305). -/
def regJrnCtrl : Nat := 0x30000
/-- JRN_PFAIL (R305). -/
def regJrnPfail : Nat := 0x30004
/-- JRN_HOLDUP (R305). -/
def regJrnHoldup : Nat := 0x30008
/-- JRN_PLACE (R305). -/
def regJrnPlace (i : Nat) : Nat := 0x30010 + 4 * i
/-- JRN_SPARE (R305). -/
def regJrnSpare (i : Nat) : Nat := 0x30020 + 4 * i
/-- JRN_SEQ_LO (R305). -/
def regJrnSeqLo : Nat := 0x30030
/-- JRN_SEQ_HI (R305). -/
def regJrnSeqHi : Nat := 0x30034
/-- JRN_DURABLE_LO (R305). -/
def regJrnDurableLo : Nat := 0x30038
/-- JRN_DURABLE_HI (R305). -/
def regJrnDurableHi : Nat := 0x3003C
/-- JRN_STATE (R305). -/
def regJrnState : Nat := 0x30040
/-- JRN_STATUS (R305). -/
def regJrnStatus : Nat := 0x30044
/-- JRN_COUNT0 (R305). -/
def regJrnCount0 : Nat := 0x30048
/-- JRN_COUNT1 (R305). -/
def regJrnCount1 : Nat := 0x3004C
/-- JRN_CMD (R305). -/
def regJrnCmd : Nat := 0x30050
/-- JRN_RESTART0 (R305). -/
def regJrnRestart0 : Nat := 0x30054
/-- JRN_RESTART1 (R305). -/
def regJrnRestart1 : Nat := 0x30058
/-- JRN_RESTART2 (R305). -/
def regJrnRestart2 : Nat := 0x3005C
/-- STE_CFG (R306). -/
def regSteCfg (q : Nat) : Nat := quadBase q + 0x600
/-- STE_SLOTS (R306). -/
def regSteSlots (q : Nat) : Nat := quadBase q + 0x604
/-- STE_ROWS (R306). -/
def regSteRows (q : Nat) : Nat := quadBase q + 0x608
/-- STE_STATUS (R306). -/
def regSteStatus (q : Nat) : Nat := quadBase q + 0x60C
/-- STE_COUNT (R306). -/
def regSteCount (q : Nat) : Nat := quadBase q + 0x610
/-- JRN_MAINT_SEL (R345). -/
def regJrnMaintSel : Nat := 0x30100
/-- JRN_LEASE (R345). -/
def regJrnLease : Nat := 0x30104
/-- JRN_REB_INFO (R345). -/
def regJrnRebInfo : Nat := 0x30108
/-- JRN_RSH_BOUND (R345). -/
def regJrnRshBound : Nat := 0x3010C
/-- JRN_RSH_CFG (R345). -/
def regJrnRshCfg : Nat := 0x30110
/-- JRN_REB_ROWS (R345). -/
def regJrnRebRows : Nat := 0x30114
/-- JRN_MAINT_STATUS (R345). -/
def regJrnMaintStatus : Nat := 0x30118
/-- JRN_MAINT_COUNT (R345). -/
def regJrnMaintCount : Nat := 0x3011C
/-- GOV_CFG (R380). -/
def regGovCfg : Nat := 0x20000
/-- GOV_POLICY (R380). -/
def regGovPolicy : Nat := 0x20004
/-- GOV_RA_WORTH (R380). -/
def regGovRaWorth : Nat := 0x20008
/-- GOV_URG (R380). -/
def regGovUrg : Nat := 0x2000C
/-- GOV_LEAD0 (R380). -/
def regGovLead0 : Nat := 0x20010
/-- GOV_LEAD1 (R380). -/
def regGovLead1 : Nat := 0x20014
/-- GOV_LEAD2 (R380). -/
def regGovLead2 : Nat := 0x20018
/-- GOV_POLL (R380). -/
def regGovPoll : Nat := 0x2001C
/-- GOV_THERM_STALE (R380). -/
def regGovThermStale : Nat := 0x20020
/-- GOV_DEC_LIMIT (R380). -/
def regGovDecLimit : Nat := 0x20024
/-- GOV_STATUS (R380). -/
def regGovStatus : Nat := 0x20028
/-- GOV_COUNT (R380). -/
def regGovCount : Nat := 0x2002C
/-- GOV_REFUSALS (R380). -/
def regGovRefusals : Nat := 0x20030
/-- GOV_SUSP_RA (R380). -/
def regGovSuspRa : Nat := 0x20034
/-- GOV_RAIL (R380). -/
def regGovRail (i : Nat) : Nat := 0x20100 + 4 * i
/-- GOV_CHMAP (R380). -/
def regGovChmap (i : Nat) : Nat := 0x20200 + 4 * i
/-- GOV_ZBUDGET (R380). -/
def regGovZbudget (i : Nat) : Nat := 0x20300 + 32 * i
/-- GOV_ZCURVE (R380). -/
def regGovZcurve (i : Nat) : Nat := 0x20304 + 32 * i
/-- GOV_ZSENS_LO (R380). -/
def regGovZsensLo (i : Nat) : Nat := 0x20308 + 32 * i
/-- GOV_ZSENS_HI (R380). -/
def regGovZsensHi (i : Nat) : Nat := 0x2030C + 32 * i
/-- GOV_ZSTATE (R380). -/
def regGovZstate (i : Nat) : Nat := 0x20310 + 32 * i
/-- GOV_ZTOKENS (R380). -/
def regGovZtokens (i : Nat) : Nat := 0x20314 + 32 * i
/-- GOV_SENSOR (R380). -/
def regGovSensor (i : Nat) : Nat := 0x20500 + 4 * i
/-- GLB_AGE_BASE_LO (R415). -/
def regGlbAgeBaseLo : Nat := 0x1600
/-- GLB_AGE_BASE_HI (R415). -/
def regGlbAgeBaseHi : Nat := 0x1604
/-- GLB_AGE_OFFSET_LO (R415). -/
def regGlbAgeOffsetLo : Nat := 0x1608
/-- GLB_AGE_OFFSET_HI (R415). -/
def regGlbAgeOffsetHi : Nat := 0x160C
/-- GLB_AGE_NOW_LO (R415). -/
def regGlbAgeNowLo : Nat := 0x1610
/-- GLB_AGE_NOW_HI (R415). -/
def regGlbAgeNowHi : Nat := 0x1614
/-- GLB_AGE_CTRL (R415). -/
def regGlbAgeCtrl : Nat := 0x1618
/-- GLB_AGE_LOAD (R415). -/
def regGlbAgeLoad : Nat := 0x161C
/-- GLB_AGE_PATROL (R415). -/
def regGlbAgePatrol : Nat := 0x1620
/-- GLB_AGE_FURL (R415). -/
def regGlbAgeFurl : Nat := 0x1624
/-- GLB_WEAR (R415). -/
def regGlbWear (i : Nat) : Nat := 0x1640 + 4 * i
/-- GLB_ADVICE0 (R415). -/
def regGlbAdvice0 : Nat := 0x1680
/-- GLB_ADVICE1 (R415). -/
def regGlbAdvice1 : Nat := 0x1684
/-- GLB_AGE_STATUS (R415). -/
def regGlbAgeStatus : Nat := 0x1688
/-- GLB_AGE_COUNT0 (R415). -/
def regGlbAgeCount0 : Nat := 0x168C
/-- GLB_AGE_COUNT1 (R415). -/
def regGlbAgeCount1 : Nat := 0x1690
/-- QD_MNE_STATE (R416). -/
def regQdMneState (q : Nat) : Nat := quadBase q + 0xA00
/-- QD_MNE_WORK (R416). -/
def regQdMneWork (q : Nat) : Nat := quadBase q + 0xA04
/-- QD_MNE_LOAD (R416). -/
def regQdMneLoad (q : Nat) : Nat := quadBase q + 0xA08
/-- MEM_CFG (R447). -/
def regMemCfg : Nat := 0x1800
/-- MEM_TIMEOUT (R447). -/
def regMemTimeout : Nat := 0x1804
/-- DMA_WEIGHT (R447). -/
def regDmaWeight : Nat := 0x1808
/-- DMA_POOL_CFG (R447). -/
def regDmaPoolCfg : Nat := 0x180C
/-- DMA_STG_CFG (R447). -/
def regDmaStgCfg : Nat := 0x1810
/-- DMA_STATUS (R447). -/
def regDmaStatus : Nat := 0x1814
/-- DMA_COUNT (R447). -/
def regDmaCount : Nat := 0x1818
/-- DMA_FREE_LOG0 (R447). -/
def regDmaFreeLog0 : Nat := 0x181C
/-- DMA_FREE_LOG1 (R447). -/
def regDmaFreeLog1 : Nat := 0x1820
/-- DMA_FREE_LOG2 (R447). -/
def regDmaFreeLog2 : Nat := 0x1824
/-- MEM_PORT_STATE (R448). -/
def regMemPortState (n : Nat) : Nat := portBase n + 0x0
/-- MEM_PORT_BEATS (R448). -/
def regMemPortBeats (n : Nat) : Nat := portBase n + 0x4
/-- MEM_PORT_STATUS (R448). -/
def regMemPortStatus (n : Nat) : Nat := portBase n + 0x8
/-- MEM_PORT_COUNT (R448). -/
def regMemPortCount (n : Nat) : Nat := portBase n + 0xC
/-- MEM_PORT_ERR_LO (R448). -/
def regMemPortErrLo (n : Nat) : Nat := portBase n + 0x10
/-- MEM_PORT_ERR_HI (R448). -/
def regMemPortErrHi (n : Nat) : Nat := portBase n + 0x14
/-- DMA_POOL_STATE (R448). -/
def regDmaPoolState (q : Nat) : Nat := quadBase q + 0xC80
/-- TRC_MASK (R449). -/
def regTrcMask (k : Nat) : Nat := traceBase k + 0x0
/-- TRC_TIMEOUT (R449). -/
def regTrcTimeout (k : Nat) : Nat := traceBase k + 0x4
/-- TRC_LEVEL (R449). -/
def regTrcLevel (k : Nat) : Nat := traceBase k + 0x8
/-- TRC_STATUS (R449). -/
def regTrcStatus (k : Nat) : Nat := traceBase k + 0xC
/-- TRC_COUNT (R449). -/
def regTrcCount (k : Nat) : Nat := traceBase k + 0x10
/-- TRC_DROPS (R449). -/
def regTrcDrops (k : Nat) : Nat := traceBase k + 0x14
/-- EVC_STATUS (R469). -/
def regEvcStatus : Nat := 0x10000
/-- EVC_COUNT (R469). -/
def regEvcCount : Nat := 0x10004
/-- EVC_FAULT_LOG (R469). -/
def regEvcFaultLog : Nat := 0x10008
/-- EVC_WAKE (R469). -/
def regEvcWake : Nat := 0x1000C
/-- EVC_FAULT_PEND (R469). -/
def regEvcFaultPend : Nat := 0x10010
/-- EVC_PEND (R469). -/
def regEvcPend (i : Nat) : Nat := 0x10100 + 4 * i
/-- EVC_PSET (R469). -/
def regEvcPset (i : Nat) : Nat := 0x10180 + 4 * i
/-- EVC_FPEND (R469). -/
def regEvcFpend (i : Nat) : Nat := 0x10200 + 4 * i
/-- EVC_FPSET (R469). -/
def regEvcFpset (i : Nat) : Nat := 0x10280 + 4 * i
/-- EVC_HOLDOFF (R469). -/
def regEvcHoldoff (i : Nat) : Nat := 0x10400 + 4 * i
/-- EVC_HOLD_ACTIVE (R469). -/
def regEvcHoldActive (i : Nat) : Nat := 0x10500 + 4 * i
/-- EVC_CLAIM (R469). -/
def regEvcClaim (i : Nat) : Nat := 0x10800 + 64 * i
/-- EVC_COMPLETE (R469). -/
def regEvcComplete (i : Nat) : Nat := 0x10804 + 64 * i
/-- EVC_MASK (R469). -/
def regEvcMask (i : Nat) : Nat := 0x10808 + 64 * i
/-- EVC_FCLAIM (R469). -/
def regEvcFclaim (i : Nat) : Nat := 0x1080C + 64 * i
/-- EVC_FCOMPLETE (R469). -/
def regEvcFcomplete (i : Nat) : Nat := 0x10810 + 64 * i
/-- EVC_FMASK (R469). -/
def regEvcFmask (i : Nat) : Nat := 0x10814 + 64 * i
/-- EVC_TGT (R469). -/
def regEvcTgt (i : Nat) : Nat := 0x10818 + 64 * i
/-- EVC_STACK (R469). -/
def regEvcStack (i : Nat) : Nat := 0x1081C + 64 * i
/-- EVC_OFFER (R469). -/
def regEvcOffer (i : Nat) : Nat := 0x10820 + 64 * i
/-- EVC_TFAULT (R469). -/
def regEvcTfault (i : Nat) : Nat := 0x10824 + 64 * i
/-- EVC_SRC (R469). -/
def regEvcSrc (i : Nat) : Nat := 0x11000 + 4 * i
/-- EVC_SRC1023 (R469). -/
def regEvcSrc1023 : Nat := 0x11FFC
/-- GLB_CFG_CUR (R505). -/
def regGlbCfgCur : Nat := 0x600
/-- GLB_CFG_NEXT (R505). -/
def regGlbCfgNext : Nat := 0x604
/-- GLB_CFG_PREV (R505). -/
def regGlbCfgPrev : Nat := 0x608
/-- GLB_CFG_STATE (R505). -/
def regGlbCfgState : Nat := 0x60C
/-- GLB_CFG_ERR (R505). -/
def regGlbCfgErr : Nat := 0x610
/-- GLB_CFG_CMD (R505). -/
def regGlbCfgCmd : Nat := 0x614
/-- GLB_CFG_STATUS (R505). -/
def regGlbCfgStatus : Nat := 0x618
/-- GLB_CFG_COUNT0 (R505). -/
def regGlbCfgCount0 : Nat := 0x61C
/-- GLB_CFG_COUNT1 (R505). -/
def regGlbCfgCount1 : Nat := 0x620
/-- GLB_MEAS_COUNT (R505). -/
def regGlbMeasCount : Nat := 0x624
/-- GLB_MEAS_DIG (R505). -/
def regGlbMeasDig (i : Nat) : Nat := 0x630 + 4 * i
/-- GLB_MEAS_EXT (R505). -/
def regGlbMeasExt : Nat := 0x660
/-- GLB_MEAS (R505). -/
def regGlbMeas (i : Nat) : Nat := 0x700 + 48 * i
/-- ENG_STATE (R506). -/
def regEngState (e : Nat) : Nat := engBase e + 0x0
/-- ENG_WORK (R506). -/
def regEngWork (e : Nat) : Nat := engBase e + 0x4
/-- ENG_STEPS (R506). -/
def regEngSteps (e : Nat) : Nat := engBase e + 0x8
/-- ENG_GEN (R506). -/
def regEngGen (e : Nat) : Nat := engBase e + 0xC
/-- ENG_MC_STATUS (R506). -/
def regEngMcStatus (e : Nat) : Nat := engBase e + 0x10
/-- ENG_MC_COUNT0 (R506). -/
def regEngMcCount0 (e : Nat) : Nat := engBase e + 0x14
/-- ENG_MC_COUNT1 (R506). -/
def regEngMcCount1 (e : Nat) : Nat := engBase e + 0x18
/-- ENG_MC_LOG (R506). -/
def regEngMcLog (e : Nat) : Nat := engBase e + 0x1C
/-- ENG_CS_ADDR (R506). -/
def regEngCsAddr (e : Nat) : Nat := engBase e + 0x20
/-- ENG_CS_DATA (R506). -/
def regEngCsData (e : Nat) : Nat := engBase e + 0x24
/-- ENG_CS_PAR (R506). -/
def regEngCsPar (e : Nat) : Nat := engBase e + 0x28
/-- GLB_FAULT_STATUS (R524). -/
def regGlbFaultStatus : Nat := 0x1A00
/-- GLB_FAULT_COUNT0 (R524). -/
def regGlbFaultCount0 : Nat := 0x1A04
/-- GLB_FAULT_COUNT1 (R524). -/
def regGlbFaultCount1 : Nat := 0x1A08
/-- GLB_FAULT_LAST (R524). -/
def regGlbFaultLast : Nat := 0x1A0C
/-- GLB_FAULT_FIRST (R524). -/
def regGlbFaultFirst : Nat := 0x1A10
/-- GLB_FAULT_DET (R524). -/
def regGlbFaultDet : Nat := 0x1A14
/-- GLB_RETIRED0 (R524). -/
def regGlbRetired0 : Nat := 0x1A18
/-- GLB_RETIRED1 (R524). -/
def regGlbRetired1 : Nat := 0x1A1C
/-- GLB_BLOCK_FAULT (R524). -/
def regGlbBlockFault : Nat := 0x1A20
/-- GLB_DEC_OUT (R524). -/
def regGlbDecOut (i : Nat) : Nat := 0x1A24 + 4 * i
/-- PWR_CTRL (R543). -/
def regPwrCtrl : Nat := 0x20800
/-- PWR_STATE (R543). -/
def regPwrState : Nat := 0x20804
/-- PWR_WAKE_IVL (R543). -/
def regPwrWakeIvl : Nat := 0x20808
/-- PWR_IMG_BASE_LO (R543). -/
def regPwrImgBaseLo : Nat := 0x2080C
/-- PWR_IMG_BASE_HI (R543). -/
def regPwrImgBaseHi : Nat := 0x20810
/-- PWR_STATUS (R543). -/
def regPwrStatus : Nat := 0x20814
/-- PWR_COUNT (R543). -/
def regPwrCount : Nat := 0x20818
/-- PWR_TRANS (R543). -/
def regPwrTrans : Nat := 0x2081C
/-- PWR_ON (R543). -/
def regPwrOn (i : Nat) : Nat := 0x20820 + 4 * i
/-- PWR_RET (R543). -/
def regPwrRet (i : Nat) : Nat := 0x20830 + 4 * i
/-- BOOT_STATE (R597). -/
def regBootState : Nat := 0x100
/-- BOOT_CMD (R597). -/
def regBootCmd : Nat := 0x104
/-- BOOT_IMG_BASE_LO (R597). -/
def regBootImgBaseLo : Nat := 0x108
/-- BOOT_IMG_BASE_HI (R597). -/
def regBootImgBaseHi : Nat := 0x10C
/-- BOOT_OA_READ (R597). -/
def regBootOaRead : Nat := 0x110
/-- BOOT_OA_COPY (R597). -/
def regBootOaCopy (i : Nat) : Nat := 0x114 + 4 * i
/-- BOOT_CE_FOUND (R597). -/
def regBootCeFound (i : Nat) : Nat := 0x124 + 4 * i
/-- BOOT_ID_SEL (R597). -/
def regBootIdSel : Nat := 0x1A4
/-- BOOT_ID_LO (R597). -/
def regBootIdLo : Nat := 0x1A8
/-- BOOT_ID_HI (R597). -/
def regBootIdHi : Nat := 0x1AC
/-- BOOT_READY_TICK (R597). -/
def regBootReadyTick : Nat := 0x1B0
/-- BOOT_STATUS (R597). -/
def regBootStatus : Nat := 0x1B4
/-- BOOT_COUNT (R597). -/
def regBootCount : Nat := 0x1B8

/-- The registers of the windows below 0x0008_0000, part 0. -/
def globalRows0 : List RegRow := [
  ⟨0x200, 4, 1, .ro, 0xFFFFFFFF, 0x0⟩,
  ⟨0x204, 4, 1, .ro, 0xFFFFFFFF, 0x0⟩,
  ⟨0x208, 4, 1, .ro, 0x8000FFFF, 0x0⟩,
  ⟨0x20C, 4, 1, .rw, 0xFFFF, 0x2000⟩,
  ⟨0x210, 4, 1, .w1c, 0x3, 0x0⟩,
  ⟨0x214, 4, 1, .rc, 0xFFFF, 0x0⟩,
  ⟨0x40000, 4, 65536, .wo, 0x8000FFFF, 0x0⟩,
  ⟨0x300, 4, 1, .ro, 0x80FFFFFF, 0x0⟩,
  ⟨0x304, 4, 1, .rc, 0xFF, 0x0⟩,
  ⟨0x308, 4, 1, .rc, 0xFFFF, 0x0⟩,
  ⟨0x400, 4, 1, .rwl, 0xFFFFF000, 0x0⟩,
  ⟨0x404, 4, 1, .rwl, 0xFFFFFFFF, 0x0⟩,
  ⟨0x408, 4, 1, .rwl, 0xFFFFF000, 0x0⟩,
  ⟨0x40C, 4, 1, .rwl, 0xFFFFFFFF, 0x0⟩,
  ⟨0x410, 4, 1, .rwl, 0xFFF00000, 0x0⟩,
  ⟨0x414, 4, 1, .rwl, 0xFFFFFFFF, 0x0⟩,
  ⟨0x418, 4, 1, .rwl, 0xFFFF, 0x0⟩,
  ⟨0x41C, 4, 1, .rwl, 0xF0000FFF, 0x80000040⟩,
  ⟨0x420, 4, 1, .rwl, 0xFFFFFFFF, 0x9C40⟩,
  ⟨0x424, 4, 1, .ro, 0x1FFFF, 0x0⟩,
  ⟨0x428, 4, 1, .w1c, 0x7, 0x0⟩,
  ⟨0x42C, 4, 1, .rc, 0xFFFFFF, 0x0⟩,
  ⟨0x430, 4, 1, .ro, 0xFFFFFF, 0x0⟩,
  ⟨0x1000, 4, 128, .rw, 0xFFFFFFFF, 0xFFFFFFFF⟩,
  ⟨0x1200, 4, 1, .rw, 0xC0000003, 0x0⟩,
  ⟨0x1204, 4, 1, .w1c, 0x3, 0x0⟩,
  ⟨0x1208, 4, 1, .rc, 0xFFFF, 0x0⟩,
  ⟨0x120C, 4, 1, .ro, 0x1FFF, 0x1000⟩,
  ⟨0x1400, 4, 1, .rwl, 0xFFFFFE00, 0x14284E00⟩,
  ⟨0x1404, 4, 1, .rwl, 0xFFFF, 0x174⟩]

/-- The registers of the windows below 0x0008_0000, part 1. -/
def globalRows1 : List RegRow := [
  ⟨0x1408, 4, 1, .w1c, 0x3F, 0x0⟩,
  ⟨0x140C, 4, 1, .rc, 0xFFFFFFFF, 0x0⟩,
  ⟨0x1410, 4, 1, .rc, 0xFFFFFFFF, 0x0⟩,
  ⟨0x1414, 4, 1, .ro, 0x8FFF0FFF, 0x0⟩,
  ⟨0x1418, 4, 1, .ro, 0xFF01FF3F, 0x0⟩,
  ⟨0x30000, 4, 1, .rwl, 0xFFFF01FF, 0x13880100⟩,
  ⟨0x30004, 4, 1, .rwl, 0xFFFFFFFF, 0x186A014⟩,
  ⟨0x30008, 4, 1, .rwl, 0xFFFFFFFF, 0x3D090⟩,
  ⟨0x30010, 4, 3, .rwl, 0xFFFFFFFF, 0x0⟩,
  ⟨0x30020, 4, 4, .rwl, 0xFFFFFFFF, 0x0⟩,
  ⟨0x30030, 4, 1, .ro, 0xFFFFFFFF, 0x0⟩,
  ⟨0x30034, 4, 1, .ro, 0xFFFFFFFF, 0x0⟩,
  ⟨0x30038, 4, 1, .ro, 0xFFFFFFFF, 0x0⟩,
  ⟨0x3003C, 4, 1, .ro, 0xFFFFFFFF, 0x0⟩,
  ⟨0x30040, 4, 1, .ro, 0xF0FFFF07, 0x0⟩,
  ⟨0x30044, 4, 1, .w1c, 0xFF, 0x0⟩,
  ⟨0x30048, 4, 1, .rc, 0xFFFFFFFF, 0x0⟩,
  ⟨0x3004C, 4, 1, .rc, 0xFFFFFFFF, 0x0⟩,
  ⟨0x30050, 4, 1, .wo, 0xC000FFFF, 0x0⟩,
  ⟨0x30054, 4, 1, .ro, 0xFFFFFFFF, 0x0⟩,
  ⟨0x30058, 4, 1, .ro, 0xFFFFFFFF, 0x0⟩,
  ⟨0x3005C, 4, 1, .ro, 0xFFFFFFFF, 0x0⟩,
  ⟨0x30100, 4, 1, .rw, 0xFFFF, 0x0⟩,
  ⟨0x30104, 4, 1, .ro, 0xFB0FFFFF, 0x0⟩,
  ⟨0x30108, 4, 1, .ro, 0xFFFFFFFF, 0x0⟩,
  ⟨0x3010C, 4, 1, .ro, 0xC007FFFF, 0x0⟩,
  ⟨0x30110, 4, 1, .rwl, 0xFF, 0x19⟩,
  ⟨0x30114, 4, 1, .rc, 0xFFFFFFFF, 0x0⟩,
  ⟨0x30118, 4, 1, .w1c, 0xF, 0x0⟩,
  ⟨0x3011C, 4, 1, .rc, 0xFFFFFFFF, 0x0⟩]

/-- The registers of the windows below 0x0008_0000, part 2. -/
def globalRows2 : List RegRow := [
  ⟨0x20000, 4, 1, .rwl, 0xFFFFFF01, 0x27100100⟩,
  ⟨0x20004, 4, 1, .ro, 0xFFFFFFFF, 0x14190A0A⟩,
  ⟨0x20008, 4, 1, .ro, 0xFFFF, 0x10⟩,
  ⟨0x2000C, 4, 1, .rwl, 0xFFFFFFFF, 0x4E201388⟩,
  ⟨0x20010, 4, 1, .rwl, 0xFFFFFFFF, 0x3E81388⟩,
  ⟨0x20014, 4, 1, .rwl, 0xFFFFFFFF, 0x7D02710⟩,
  ⟨0x20018, 4, 1, .rwl, 0xFFFFFFFF, 0x3E81388⟩,
  ⟨0x2001C, 4, 1, .rwl, 0xFFFFFFFF, 0x989680⟩,
  ⟨0x20020, 4, 1, .rwl, 0xFFFFFFFF, 0x2FAF080⟩,
  ⟨0x20024, 4, 1, .rwl, 0xFFFFFFFF, 0x4E20⟩,
  ⟨0x20028, 4, 1, .w1c, 0xF, 0x0⟩,
  ⟨0x2002C, 4, 1, .rc, 0xFFFFFFFF, 0x0⟩,
  ⟨0x20030, 4, 1, .rc, 0xFFFFFFFF, 0x0⟩,
  ⟨0x20034, 4, 1, .rc, 0xFFFFFFFF, 0x0⟩,
  ⟨0x20100, 4, 16, .ro, 0xFFFFFFFF, 0x3E8⟩,
  ⟨0x20200, 4, 32, .rwl, 0xF0707, 0x0⟩,
  ⟨0x20300, 32, 16, .ro, 0xFFFFFFF, 0x4000064⟩,
  ⟨0x20304, 32, 16, .rwl, 0xFFFFFFFF, 0x465F6928⟩,
  ⟨0x20308, 32, 16, .rwl, 0xFFFFFFFF, 0x0⟩,
  ⟨0x2030C, 32, 16, .rwl, 0xFFFFFFFF, 0x0⟩,
  ⟨0x20310, 32, 16, .ro, 0xFFFFC000, 0x80640000⟩,
  ⟨0x20314, 32, 16, .ro, 0xFFFFFFFF, 0x0⟩,
  ⟨0x20500, 4, 16, .ro, 0xFFFFFFFF, 0x80808080⟩,
  ⟨0x1600, 4, 1, .rwl, 0xFFF00000, 0x0⟩,
  ⟨0x1604, 4, 1, .rwl, 0xFFFFFFFF, 0x0⟩,
  ⟨0x1608, 4, 1, .rwl, 0xFFFFFFFF, 0x0⟩,
  ⟨0x160C, 4, 1, .rwl, 0xFFFFFFFF, 0x0⟩,
  ⟨0x1610, 4, 1, .ro, 0xFFFFFFFF, 0x0⟩,
  ⟨0x1614, 4, 1, .ro, 0xFFFFFFFF, 0x0⟩,
  ⟨0x1618, 4, 1, .rwl, 0xE0FFFF00, 0x60020200⟩]

/-- The registers of the windows below 0x0008_0000, part 3. -/
def globalRows3 : List RegRow := [
  ⟨0x161C, 4, 1, .rwl, 0xFFFFFFFF, 0x10001000⟩,
  ⟨0x1620, 4, 1, .rwl, 0xFFFF, 0xA8⟩,
  ⟨0x1624, 4, 1, .rwl, 0xFFFFFFFF, 0x402710⟩,
  ⟨0x1640, 4, 16, .rwl, 0xFFFF, 0xE0A⟩,
  ⟨0x1680, 4, 1, .rc, 0xF007FFFF, 0x0⟩,
  ⟨0x1684, 4, 1, .ro, 0xFFFFFF, 0x0⟩,
  ⟨0x1688, 4, 1, .w1c, 0xFF, 0x0⟩,
  ⟨0x168C, 4, 1, .rc, 0xFFFFFFFF, 0x0⟩,
  ⟨0x1690, 4, 1, .rc, 0xFFFFFFFF, 0x0⟩,
  ⟨0x1800, 4, 1, .rwl, 0xF, 0x2⟩,
  ⟨0x1804, 4, 1, .rwl, 0xFFFFFFFF, 0x4E20⟩,
  ⟨0x1808, 4, 1, .rwl, 0xFFFFFFFF, 0x1040408⟩,
  ⟨0x180C, 4, 1, .rwl, 0xFFF0FFFF, 0x8400000⟩,
  ⟨0x1810, 4, 1, .rwl, 0xFF, 0x8⟩,
  ⟨0x1814, 4, 1, .w1c, 0x7, 0x0⟩,
  ⟨0x1818, 4, 1, .rc, 0xFFFFFF, 0x0⟩,
  ⟨0x181C, 4, 1, .ro, 0xFFFFFFFF, 0x0⟩,
  ⟨0x1820, 4, 1, .ro, 0xFFFFFFFF, 0x0⟩,
  ⟨0x1824, 4, 1, .ro, 0xC00000DF, 0x0⟩,
  ⟨0x30200, 4, 1, .ro, 0xFFFFFFFF, 0x0⟩,
  ⟨0x30204, 4, 1, .rwl, 0xFFFFFFFF, 0x2710⟩,
  ⟨0x30208, 4, 1, .ro, 0x7FFF, 0x0⟩,
  ⟨0x3020C, 4, 1, .w1c, 0x3, 0x0⟩,
  ⟨0x30210, 4, 1, .rc, 0xFFFF, 0x0⟩,
  ⟨0x30214, 4, 1, .rc, 0xFFFF, 0x0⟩,
  ⟨0x10000, 4, 1, .w1c, 0xF, 0x0⟩,
  ⟨0x10004, 4, 1, .rc, 0xFFFFFFFF, 0x0⟩,
  ⟨0x10008, 4, 1, .ro, 0x80FFFFFF, 0x0⟩,
  ⟨0x1000C, 4, 1, .ro, 0x8000FFFF, 0x0⟩,
  ⟨0x10010, 4, 1, .ro, 0xFFFF, 0x0⟩]

/-- The registers of the windows below 0x0008_0000, part 4. -/
def globalRows4 : List RegRow := [
  ⟨0x10100, 4, 32, .w1c, 0xFFFFFFFF, 0x0⟩,
  ⟨0x10180, 4, 32, .w1s, 0xFFFFFFFF, 0x0⟩,
  ⟨0x10200, 4, 32, .w1c, 0xFFFFFFFF, 0x0⟩,
  ⟨0x10280, 4, 32, .w1s, 0xFFFFFFFF, 0x0⟩,
  ⟨0x10400, 4, 64, .rw, 0xFFFF, 0x0⟩,
  ⟨0x10500, 4, 2, .ro, 0xFFFFFFFF, 0x0⟩,
  ⟨0x10800, 64, 16, .rc, 0x3FF, 0x0⟩,
  ⟨0x10804, 64, 16, .wo, 0x3FF, 0x0⟩,
  ⟨0x10808, 64, 16, .rw, 0x800003FF, 0x80000000⟩,
  ⟨0x1080C, 64, 16, .rc, 0x3FF, 0x0⟩,
  ⟨0x10810, 64, 16, .wo, 0x3FF, 0x0⟩,
  ⟨0x10814, 64, 16, .rw, 0x800003FF, 0x80000000⟩,
  ⟨0x10818, 64, 16, .rw, 0x1, 0x0⟩,
  ⟨0x1081C, 64, 16, .ro, 0x83FF83FF, 0x0⟩,
  ⟨0x10820, 64, 16, .ro, 0x3FF03FF, 0x0⟩,
  ⟨0x10824, 64, 16, .ro, 0xFFFFFFFF, 0x0⟩,
  ⟨0x11004, 4, 1022, .rw, 0xC0FFFFFF, 0x10000⟩,
  ⟨0x11FFC, 4, 1, .ro, 0xFFFFFFFF, 0xC0010000⟩,
  ⟨0x600, 4, 1, .ro, 0xFFFFFFFF, 0x0⟩,
  ⟨0x604, 4, 1, .ro, 0xFFFFFFFF, 0x0⟩,
  ⟨0x608, 4, 1, .ro, 0xFFFFFFFF, 0x0⟩,
  ⟨0x60C, 4, 1, .ro, 0xF000FFFF, 0x0⟩,
  ⟨0x610, 4, 1, .ro, 0xFFFFFFFF, 0x0⟩,
  ⟨0x614, 4, 1, .wo, 0x1, 0x0⟩,
  ⟨0x618, 4, 1, .w1c, 0x1F, 0x0⟩,
  ⟨0x61C, 4, 1, .rc, 0xFFFFFFFF, 0x0⟩,
  ⟨0x620, 4, 1, .rc, 0xFF, 0x0⟩,
  ⟨0x624, 4, 1, .ro, 0x1FFF, 0x0⟩,
  ⟨0x630, 4, 12, .wo, 0xFFFFFFFF, 0x0⟩,
  ⟨0x660, 4, 1, .wo, 0x1, 0x0⟩]

/-- The registers of the windows below 0x0008_0000, part 5. -/
def globalRows5 : List RegRow := [
  ⟨0x700, 4, 96, .ro, 0xFFFFFFFF, 0x0⟩,
  ⟨0x1A00, 4, 1, .w1c, 0x3F, 0x0⟩,
  ⟨0x1A04, 4, 1, .rc, 0xFFFFFFFF, 0x0⟩,
  ⟨0x1A08, 4, 1, .rc, 0xFFFFFFFF, 0x0⟩,
  ⟨0x1A0C, 4, 1, .ro, 0xFFFDFFFF, 0x0⟩,
  ⟨0x1A10, 4, 1, .ro, 0xFFFDFFFF, 0x0⟩,
  ⟨0x1A14, 4, 1, .rc, 0xFFFFFFFF, 0x0⟩,
  ⟨0x1A18, 4, 1, .ro, 0xFFFFFFFF, 0x0⟩,
  ⟨0x1A1C, 4, 1, .ro, 0xFFFF, 0x0⟩,
  ⟨0x1A20, 4, 1, .ro, 0xF000FFFF, 0x0⟩,
  ⟨0x1A24, 4, 3, .ro, 0xFFFF, 0x0⟩,
  ⟨0x20800, 4, 1, .rwl, 0xFFFF0000, 0x3E80000⟩,
  ⟨0x20804, 4, 1, .ro, 0xF000000F, 0x0⟩,
  ⟨0x20808, 4, 1, .rwl, 0xFFFFFFFF, 0x57E40⟩,
  ⟨0x2080C, 4, 1, .rwl, 0xFF000000, 0x0⟩,
  ⟨0x20810, 4, 1, .rwl, 0xFFFFFFFF, 0x0⟩,
  ⟨0x20814, 4, 1, .w1c, 0xF, 0x0⟩,
  ⟨0x20818, 4, 1, .rc, 0xFFFFFFFF, 0x0⟩,
  ⟨0x2081C, 4, 1, .rc, 0xFFFFFFFF, 0x0⟩,
  ⟨0x20820, 4, 2, .ro, 0x7FFFFFFF, 0xFFFFFFFF⟩,
  ⟨0x20828, 4, 1, .ro, 0x7FFFFFFF, 0x7FFFFFFF⟩,
  ⟨0x20830, 4, 3, .ro, 0x7FFFFFFF, 0x0⟩,
  ⟨0x100, 4, 1, .ro, 0xFF00FFFF, 0x0⟩,
  ⟨0x104, 4, 1, .wo, 0x3, 0x0⟩,
  ⟨0x108, 4, 1, .rw, 0xFFE00000, 0x0⟩,
  ⟨0x10C, 4, 1, .rw, 0xFFFFFFFF, 0x0⟩,
  ⟨0x110, 4, 1, .rw, 0xFFFFFF, 0xDA0030⟩,
  ⟨0x114, 4, 4, .ro, 0xFE00FFFF, 0x0⟩,
  ⟨0x124, 4, 32, .ro, 0xFFFF, 0x0⟩,
  ⟨0x1A4, 4, 1, .rw, 0x1FF, 0x0⟩]

/-- The registers of the windows below 0x0008_0000, part 6. -/
def globalRows6 : List RegRow := [
  ⟨0x1A8, 4, 1, .ro, 0xFFFFFFFF, 0x0⟩,
  ⟨0x1AC, 4, 1, .ro, 0xFFFFF, 0x0⟩,
  ⟨0x1B0, 4, 1, .ro, 0xFFFFFFFF, 0x0⟩,
  ⟨0x1B4, 4, 1, .w1c, 0xF, 0x0⟩,
  ⟨0x1B8, 4, 1, .rc, 0xFFFFFFFF, 0x0⟩]

/-- The registers of the windows below 0x0008_0000. -/
def globalRows : List RegRow := globalRows0 ++ globalRows1 ++ globalRows2 ++ globalRows3 ++ globalRows4 ++ globalRows5 ++ globalRows6

/-- The registers of a quadrant-common window, part 0. -/
def quadRows0 : List RegRow := [
  ⟨0x400, 4, 1, .ro, 0xFFF, 0x800⟩,
  ⟨0x404, 4, 1, .rc, 0xFFF, 0x800⟩,
  ⟨0x408, 4, 1, .rc, 0xFFFF, 0x0⟩,
  ⟨0x800, 4, 1, .ro, 0x3FF030F, 0x0⟩,
  ⟨0x880, 4, 1, .ro, 0x3FF030F, 0x0⟩,
  ⟨0x804, 4, 1, .rc, 0xFFFFFFFF, 0x0⟩,
  ⟨0x884, 4, 1, .rc, 0xFFFFFFFF, 0x0⟩,
  ⟨0x808, 4, 1, .w1c, 0x3, 0x0⟩,
  ⟨0x888, 4, 1, .w1c, 0x3, 0x0⟩,
  ⟨0x80C, 4, 1, .rc, 0xFFFF, 0x0⟩,
  ⟨0x88C, 4, 1, .rc, 0xFFFF, 0x0⟩,
  ⟨0x810, 4, 9, .rc, 0xFFFFFFFF, 0x0⟩,
  ⟨0x890, 4, 9, .rc, 0xFFFFFFFF, 0x0⟩,
  ⟨0x600, 4, 1, .rwl, 0xFF000000, 0x24000000⟩,
  ⟨0x604, 4, 1, .ro, 0x1F1F1F1F, 0x10⟩,
  ⟨0x608, 4, 1, .rc, 0xFFFFFFFF, 0x0⟩,
  ⟨0x60C, 4, 1, .w1c, 0x7, 0x0⟩,
  ⟨0x610, 4, 1, .rc, 0xFFFFFF, 0x0⟩,
  ⟨0xA00, 4, 1, .ro, 0xE01FFFFF, 0x0⟩,
  ⟨0xA04, 4, 1, .rc, 0xFFFFFFFF, 0x0⟩,
  ⟨0xA08, 4, 1, .rc, 0xFFFFFFFF, 0x0⟩,
  ⟨0xC00, 4, 1, .ro, 0x83FF1FFF, 0x0⟩,
  ⟨0xC40, 4, 1, .ro, 0x83FF1FFF, 0x0⟩,
  ⟨0xC04, 4, 1, .rc, 0xFFFFFFFF, 0x0⟩,
  ⟨0xC44, 4, 1, .rc, 0xFFFFFFFF, 0x0⟩,
  ⟨0xC08, 4, 1, .w1c, 0xF, 0x0⟩,
  ⟨0xC48, 4, 1, .w1c, 0xF, 0x0⟩,
  ⟨0xC0C, 4, 1, .rc, 0xFFFFFFFF, 0x0⟩,
  ⟨0xC4C, 4, 1, .rc, 0xFFFFFFFF, 0x0⟩,
  ⟨0xC10, 4, 1, .ro, 0xFFFFFFFF, 0x0⟩]

/-- The registers of a quadrant-common window, part 1. -/
def quadRows1 : List RegRow := [
  ⟨0xC50, 4, 1, .ro, 0xFFFFFFFF, 0x0⟩,
  ⟨0xC14, 4, 1, .ro, 0xFFFFFFFF, 0x0⟩,
  ⟨0xC54, 4, 1, .ro, 0xFFFFFFFF, 0x0⟩,
  ⟨0xC80, 4, 1, .ro, 0xFFFF, 0x0⟩,
  ⟨0xE00, 4, 1, .ro, 0xFFFFFFFF, 0x0⟩,
  ⟨0xE04, 4, 1, .rwl, 0xFFFFFFFF, 0x2710⟩,
  ⟨0xE08, 4, 1, .ro, 0x7FFF, 0x0⟩,
  ⟨0xE0C, 4, 1, .w1c, 0x3, 0x0⟩,
  ⟨0xE10, 4, 1, .rc, 0xFFFF, 0x0⟩,
  ⟨0xE14, 4, 1, .rc, 0xFFFF, 0x0⟩]

/-- The registers of a quadrant-common window. -/
def quadRows : List RegRow := quadRows0 ++ quadRows1

/-- The registers of a channel window, part 0. -/
def chanRows0 : List RegRow := [
  ⟨0x0, 4, 1, .rwl, 0xF, 0x2⟩,
  ⟨0x4, 4, 1, .rwl, 0xFFFFFFFF, 0x4E20⟩,
  ⟨0x8, 4, 1, .ro, 0xFFFFFF, 0x0⟩,
  ⟨0xC, 4, 1, .w1c, 0xF, 0x0⟩,
  ⟨0x10, 4, 1, .rc, 0xFFFFFFFF, 0x0⟩,
  ⟨0x14, 4, 1, .ro, 0x8000037F, 0x0⟩,
  ⟨0x18, 4, 1, .rc, 0xFFFF, 0x0⟩,
  ⟨0x1C, 4, 1, .rc, 0xFFFFFFFF, 0x0⟩,
  ⟨0x40, 4, 16, .ro, 0xFFFFFFFF, 0xFFFFFFFF⟩,
  ⟨0x80, 4, 32, .ro, 0xFFFFFFFF, 0xFFFFFFFF⟩,
  ⟨0x1000, 4, 1, .rwl, 0xFF01F700, 0x32000000⟩,
  ⟨0x1004, 4, 1, .rwl, 0xFFF, 0x212⟩,
  ⟨0x1008, 4, 1, .rwl, 0xFFFFFFFF, 0x3E80814⟩,
  ⟨0x100C, 4, 1, .rwl, 0xFFFFFFFF, 0x989680⟩,
  ⟨0x1010, 4, 1, .rwl, 0xFFFFFFFF, 0x5F5E100⟩,
  ⟨0x1014, 4, 1, .rwl, 0xFFFFFFFF, 0xEA60⟩,
  ⟨0x1018, 4, 1, .rwl, 0xFFFF, 0x1010⟩,
  ⟨0x101C, 4, 1, .wo, 0x3, 0x0⟩,
  ⟨0x1020, 4, 1, .ro, 0xFFFF077F, 0x661⟩,
  ⟨0x1024, 4, 1, .w1c, 0xFF, 0x0⟩,
  ⟨0x1028, 4, 1, .rc, 0xFFFFFFFF, 0x0⟩,
  ⟨0x102C, 4, 1, .rc, 0xFFFFFFFF, 0x0⟩,
  ⟨0x1030, 4, 1, .ro, 0xFFFFFFF0, 0x0⟩,
  ⟨0x1034, 4, 1, .rc, 0xFFFFFFFF, 0x0⟩,
  ⟨0x1038, 4, 1, .ro, 0x8000FFFF, 0x0⟩,
  ⟨0x1040, 4, 16, .ro, 0xFFFFFFFF, 0x0⟩,
  ⟨0x1100, 4, 64, .ro, 0xFFFFFFFF, 0x0⟩]

/-- The registers of a channel window. -/
def chanRows : List RegRow := chanRows0

/-- The registers of an engine window (R506), part 0. -/
def engRows0 : List RegRow := [
  ⟨0x0, 4, 1, .ro, 0xF0003FFF, 0x0⟩,
  ⟨0x4, 4, 1, .ro, 0xFF000000, 0x0⟩,
  ⟨0x8, 4, 1, .rc, 0xFFFFFFFF, 0x0⟩,
  ⟨0xC, 4, 1, .ro, 0xFFFFFFFF, 0x0⟩,
  ⟨0x10, 4, 1, .w1c, 0x3F, 0x0⟩,
  ⟨0x14, 4, 1, .rc, 0xFFFFFFFF, 0x0⟩,
  ⟨0x18, 4, 1, .rc, 0xFFFF, 0x0⟩,
  ⟨0x1C, 4, 1, .ro, 0xFFF03FFF, 0x0⟩,
  ⟨0x20, 4, 1, .rw, 0x7FFF, 0x0⟩,
  ⟨0x24, 4, 1, .ro, 0xFFFFFFFF, 0x0⟩,
  ⟨0x28, 4, 1, .ro, 0xF, 0x0⟩]

/-- The registers of an engine window (R506). -/
def engRows : List RegRow := engRows0

/-- The row of a table that holds offset `o`. -/
def rowAt (t : List RegRow) (o : Nat) : Option RegRow :=
  t.find? (fun r => decide (r.base ≤ o) && decide ((o - r.base) % r.stride = 0) &&
    decide ((o - r.base) / r.stride < r.count))

/-- The reserved sources of R450, whose configuration reads as zero. -/
def srcReserved (s : Nat) : Bool :=
  s == 0 || (768 ≤ s && s ≤ 943) || (946 ≤ s && s ≤ 959) || s == 1022

/-- The register at a control-port address, where one stands: the rules of R598 for the windows. -/
def regRow? (a : Nat) : Option RegRow :=
  if a < 0x80000 then rowAt globalRows a
  else if a < 0x100000 then
    let o := (a - 0x80000) % 0x20000
    if o < 0x10000 then rowAt quadRows o else rowAt chanRows ((o - 0x10000) % 0x2000)
  else if a < 0x200000 then
    if (a - 0x100000) / 0x4000 < 50 then rowAt engRows ((a - 0x100000) % 0x4000) else none
  else none

/-- The reset value of the register at an address. -/
def regReset (a : Nat) : Nat :=
  if 0x11000 ≤ a ∧ a < 0x11FFC ∧ srcReserved ((a - 0x11000) / 4) then 0
  else match regRow? a with
    | some r => r.reset
    | none => 0

end Sys2Proof.Machine
end

