-- ==== Sys2Proof/Machine/State.lean ====
section
/-! DEFINITION. The state of the block as plain data, unit by unit, the reasons a step can stop, and the state after
reset. Every register value that no structure below holds stands in `regs`, by control-port address. -/

namespace Sys2Proof.Machine

/-- A sparse table: numbers rising, the values under them. -/
abbrev Tab (α : Type) := List (Nat × α)

/-! ### Rings (chapter Command Rings, Packets and Completions) -/

/-- What the block keeps of a ring beside its 64-byte context. -/
structure RingRt where
  latTail  : Option Nat := none     -- latched CMD_TAIL (R45)
  latTick  : Nat := 0               -- tick of the earliest unconsumed CMD_TAIL write (R46)
  latHead  : Option Nat := none     -- latched CPL_HEAD (R45)
  bases    : List Nat := []         -- deadline bases of the pending slots, oldest first (R46)
  fetchNo  : Nat := 0               -- packets fetched so far: slot order (R75, R76)
  unsig    : Nat := 0               -- unsignalled completions (R80)
  unsigAt  : Nat := 0               -- tick at which the first of them was written
  unsigEvt : Nat := 0               -- source and time limit of the first of them (R66)
  unsigLim : Nat := 0
  draining : Bool := false          -- ENABLE cleared through the control port, INFLIGHT above 0 (R49)
  muted    : Bool := false          -- a completion write failed (R54)
  deriving DecidableEq, Repr

/-- How far a fetched command has come. -/
inductive CmdStage where
  | ready                     -- passed the checks at fetch
  | fetching                  -- waits for its zone's entries before checks 5 and 6 (R600)
  | waitLease (since : Nat)   -- waits for a maintenance lease from this tick on (R401, R405)
  | waiting                   -- accepted, waits for the hopper, a row limit or a spill (R112, R118)
  | running
  | ending                    -- its result is known, its data transfers are not all answered (R38)
  deriving DecidableEq, Repr

/-- The values of a completion (R64, R73). -/
structure Result where
  status  : Nat := 0
  state   : Nat := 0
  ra      : Nat := 0
  rb      : Nat := 0
  detail  : Nat := 0
  deriving DecidableEq, Repr

/-- How one block of a data command stands. -/
inductive BlkStat where
  | pending
  | good
  | failed (r : Result)
  deriving DecidableEq, Repr

/-- One block of a read in progress. -/
structure RdBlk where
  off    : Nat                -- block offset in the zone
  stat   : BlkStat := .pending
  recon  : Bool := false      -- served by reconstruction
  copy   : Nat := 0           -- staging copy tried (R107)
  firstFail : Option Result := none   -- what the first staging copy met (R107)
  body   : List Byte := []    -- data and PI as delivered, until written
  ch     : Option Nat := none -- channel whose staging SRAM holds them meanwhile (R244, R432); none for a reconstruction
  deriving DecidableEq, Repr

/-- A command in flight: fetched, its completion not yet written. -/
structure Cmd where
  cid      : Nat
  ring     : Nat
  fetchNo  : Nat
  home     : Nat
  pkt      : List Byte            -- the 64-byte packet
  base     : Nat := 0             -- deadline base (R46)
  deadline : Option Nat := none   -- R59
  gen      : Nat := 0             -- R72
  evt      : Nat := 0             -- values the packet was fetched under (R66)
  coalN    : Nat := 0
  coalT    : Nat := 0
  latClass : Nat := 0
  chain    : List (Nat × Nat) := []   -- descriptor record: ADDR and LENGTH (R423)
  stage    : CmdStage := .ready
  issued   : Bool := false        -- its opcode's step has begun
  zone     : Option Nat := none   -- the zone it addresses (R83)
  first    : Nat := 0             -- first block offset assigned (R103)
  left     : Nat := 0             -- blocks, rows, units or erases still to do
  blks     : List RdBlk := []     -- blocks of a read
  ladder   : Nat := 0             -- highest retry-ladder step used
  heavy    : Bool := false
  recons   : Nat := 0             -- blocks served by reconstruction
  badBlks  : List (Nat × Result) := []  -- append blocks that failed (R232, R233, R603)
  half     : Bool := false        -- PROGRESS written with HALF (R426)
  wear     : Bool := false        -- a member crossed WARN (R394)
  mark     : Nat := 0             -- per opcode: blocks below this offset must complete first
  acc      : List Nat := []       -- per opcode: figures gathered on the way
  bytes    : List Byte := []      -- per opcode: bytes gathered on the way
  needSeq  : Nat := 0             -- journal entries below this SEQ must be durable before it completes (R277)
  posted   : Bool := false        -- its completion write is with the port
  res      : Result := {}
  deriving DecidableEq, Repr

/-! ### Buffers in SoC memory (R433) -/

/-- For whom the block takes buffers from the pool manager. -/
inductive BufFor where
  | reserve
  | row (rid : Nat)                     -- the fold of a row (R114)
  | staging (sid : Nat)                 -- a consolidation or a staging-reclaim move (R122, R123, R264)
  | copy (fg : Nat)                     -- the new row of a reshape copy (R264, R340)
  deriving DecidableEq, Repr

/-! ### Memory ports (chapter DMA, Memory Ports and Trace FIFOs) -/

/-- What a memory-port transfer carries and who takes its end. -/
inductive Purpose where
  | completion (ring cid : Nat)
  | cmdOut (cid : Nat)                      -- a summary, record or report of a command
  | readBlock (cid off : Nat) (pi : Bool)   -- one block of a zone read, or its PI
  | progress (cid : Nat)                    -- PROGRESS of descriptor 0
  | rowIn (rid blk : Nat) (pi : Bool)       -- one block that a stripe engine streams
  | bufOut (who : BufFor) (blk : Nat)       -- one block read from flash on its way to a pool buffer
  | image (unit : Nat)                      -- a slot of the FURL image area
  | rawOut (cid idx : Nat)                  -- one codeword of a RAW_READ
  | ageFetch (bg : Nat)                     -- an ageing record, on a miss of the cached predictions (R248)
  | copyIn (fg blk : Nat)                   -- one block of a reshape copy that a stripe engine streams
  | zoneFetch (zid : Nat)                   -- a zone's entries and its layout, before checks 5 and 6 (R600)
  deriving DecidableEq, Repr

/-- How a transfer has ended so far (R428 to R430). -/
inductive XferEnd where
  | ok
  | error (desc : Nat) (addr : Nat) (beat : Nat)
  | timeout (desc : Nat) (addr : Nat) (beat : Nat)
  | lastBeat (desc : Nat) (addr : Nat) (beat : Nat)
  deriving DecidableEq, Repr

/-- A memory-port transfer in progress. -/
structure Xfer where
  xid     : Nat
  port    : Nat
  purpose : Purpose
  left    : Nat                       -- bursts not yet ended
  beats   : Nat := 0                  -- write beats not yet accepted (R430)
  stat    : XferEnd := .ok
  data    : List (Nat × List Byte) := []   -- bytes read so far, by position in the transfer
  deriving DecidableEq, Repr

/-- One burst of a transfer (R427). -/
structure Burst where
  xid     : Nat
  pos     : Nat                 -- position of its first byte in the transfer
  desc    : Nat                 -- descriptor index (R73)
  write   : Bool
  clsA    : Bool
  grp     : Nat                 -- weight group of class B (R417)
  deadline : Option Nat
  real    : Bool                -- a real deadline (R374)
  addr    : Nat                 -- byte address of its first byte
  len     : Nat                 -- bytes of the span it covers
  data    : List Byte           -- the bytes, on writes
  seq     : Nat                 -- age of the request (R419)
  repeats : Nat := 0            -- times issued again (R428)
  deriving DecidableEq, Repr

/-- A burst outstanding on its port (R549). -/
structure OutBurst where
  tag      : Nat
  burst    : Burst
  urg      : Nat                -- R374
  acked    : Bool := false      -- the SoC has accepted the request
  sent     : Nat := 0           -- write beats accepted
  answered : Nat := 0           -- response beats acknowledged
  got      : List Byte := []    -- bytes of the read beats
  bad      : Option (Nat × Bool) := none   -- first erring beat; true: it erred after the final beat was accepted (R430)
  since    : Nat := 0           -- tick of the request or of the last handshake (R429)
  deriving DecidableEq, Repr

/-- One memory port. -/
structure PortSt where
  waiting : List Burst := []
  out     : List OutBurst := []
  raised  : Option Nat := none          -- tag of the request raised, not yet acknowledged
  openA   : Option Nat := none          -- tags of the open write bursts (R418)
  openB   : Option Nat := none
  group   : Nat := 0                    -- weighted round robin: group being served (R419)
  credit  : Nat := 0                    -- bursts issued of it in this round
  quar    : Tab Nat := []               -- quarantined tags: response beats still owed (R429)
  gasket  : List OutBurst := []         -- handshakes that the gasket finishes (R557)
  deriving DecidableEq, Repr

/-- What the block asked the pool manager for on one quadrant's interface (R558). -/
inductive PoolReq where
  | take (who : BufFor)
  | free (addr : Nat)
  | stream (rid blk : Nat)              -- no request of the interface: a fold streams a block again after the wait (R603)
  | copyStream (fg blk : Nat)           -- the same for a reshape copy
  deriving DecidableEq, Repr

/-- A quadrant's share of the buffer pool (R433 to R437). -/
structure PoolSt where
  raised   : Option PoolReq := none
  queue    : List PoolReq := []
  refused  : List PoolReq := []         -- refused, to be tried again (R436)
  reserve  : List Nat := []             -- addresses of the free reserve buffers
  held     : List Nat := []             -- reserve buffers in use
  pooled   : List Nat := []             -- pool buffers outstanding
  filled   : Nat := 0                   -- reserve buffers taken so far
  backoff  : Nat := 0                   -- position in the sequence of waits (R436)
  retryAt  : Option Nat := none         -- tick of the next try
  deriving DecidableEq, Repr

/-- What staging SRAM of a channel keeps beside its codewords, which stand in the items and transfers that use it (R244,
R438). -/
structure StgSlots where
  retired  : Nat := 0                   -- slots withdrawn (R518)
  deriving DecidableEq, Repr

/-- A trace FIFO (R440 to R445). Pointers have 15 bits. -/
structure TraceSt where
  mem      : Tab Nat := []              -- words by address 0 to 16,383
  wr       : Nat := 0
  rd       : Nat := 0
  drops    : Nat := 0                   -- pending drop count
  lastRead : Nat := 0                   -- tick of the last read, or of the first unread word
  out      : Word := 0                  -- TRCk_DATA as last presented (R576)
  deriving DecidableEq, Repr

/-! ### Event controller -/

/-- The event controller (R450 to R470). -/
structure EvcSt where
  lines   : Tab Nat := []               -- asserted lines, with the tick since which they are steady
  pend    : Tab Unit := []              -- pending sources
  offers  : List (Nat × Nat) := []      -- source and target
  normal  : Tab Nat := []               -- normal entry of a target's stack
  fast    : Tab Nat := []               -- fast entry
  rrN     : Nat := 15                   -- round-robin pointers (R467)
  rrF     : Nat := 15
  holds   : Tab Nat := []               -- group to the tick at which its hold-off ends
  oldCls  : Tab Bool := []              -- class kept until a source is idle (R470)
  fault   : Tab Unit := []              -- targets for which source 1,023 is pending (R605)
  sleep   : Tab Unit := []              -- targets whose TGT_SLEEP is high
  deriving DecidableEq, Repr

/-! ### Configuration slots (chapter Engines, Microcode and Measured Configuration) -/

/-- One configuration slot of a unit (R472, R488, R489). -/
structure Slot where
  gen    : Nat := 0
  words  : Tab Word := []              -- control store; unlisted words 0
  disp   : Tab Nat := []               -- dispatch entries of 16 bits; unlisted entries 0, invalid (R473)
  dies   : Tab (List Byte) := []       -- die models by index (R134)
  levels : Tab (List Byte) := []       -- read-level tables by model (R246)
  code   : List Byte := []             -- code table (R227)
  costs  : Tab (List Byte) := []       -- cost tables by model (R349)
  rwl    : Tab Word := []              -- RWL registers that the slot carries, by control-port address
  spans  : List (Nat × Nat × Nat) := []  -- microword spans: first address, words, DRAM address of the image (R490)
  dispAt : Option Nat := none          -- DRAM address of the dispatch table's image (R481)
  digest : Option (List Byte) := none  -- stored audit digest; none: that of the contents as they stand (R491, R591)
  deriving DecidableEq, Repr

/-- A measurement log entry (R502). -/
structure LogEntry where
  seq   : Nat
  reg   : Nat
  kind  : Nat
  unit  : Nat
  gen   : Nat
  len   : Nat
  digest : List Byte
  deriving DecidableEq, Repr

/-- Configuration and measurement. -/
structure CfgSt where
  cur      : Tab Slot := []
  next     : Tab Slot := []
  prev     : Tab Slot := []
  curGen   : Nat := 0
  nextGen  : Nat := 0
  prevGen  : Nat := 0
  staged   : Bool := false
  draining : Bool := false
  commitCid : Option Nat := none       -- the CONFIG_COMMIT in progress
  switched : Tab Unit := []            -- units that have switched in it
  meas     : Tab (List Byte) := []     -- MEAS0 to MEAS7; unlisted 48 zeros (R499)
  log      : List LogEntry := []
  logSeq   : Nat := 0
  deriving DecidableEq, Repr

/-! ### Zones, layouts and the hopper -/

/-- A zone entry (R100), field by field. -/
structure ZoneEntry where
  state    : Nat := 0
  overlay  : Nat := 0
  valid    : Bool := false
  zid      : Nat := 0
  hint     : Nat := 0
  wp       : Nat := 0
  inflight : Nat := 0
  appendPt : Nat := 0
  layout   : Nat := 0
  tv       : Bool := false
  tenant   : Nat := 0
  gv       : Bool := false
  gslot    : Nat := 0
  stgExt   : Nat := 0
  gather   : Nat := 0
  wseq     : Nat := 0
  staged   : Nat := 0
  stgSet   : Nat := 0
  stgWl    : Nat := 0
  jseq     : Nat := 0
  deriving DecidableEq, Repr

/-- A layout (R90 to R92). -/
structure Layout where
  fg         : Nat
  k          : Nat
  m          : Nat
  n          : Nat
  dtRows     : Nat
  c          : Nat
  blockBase  : Nat
  blockCount : Nat
  s          : Nat
  zidBase    : Nat
  zoneCount  : Nat
  dieModel   : Nat
  luns       : List Nat
  dt         : List (List (Nat × Nat))   -- rows of SLOT and POS
  staging    : List (List (Nat × Nat))   -- sets of GLUN and LUN-block
  image      : List Byte                 -- as read, for its digest
  pages      : List Nat := []            -- its pages of the layout store (R96)
  deriving DecidableEq, Repr

/-- A spare entry (R318): 0 free, 1 assigned, 2 dead, 3 withdrawn. -/
structure Spare where
  glun   : Nat
  block  : Nat
  state  : Nat := 0
  erased : Bool := false
  kept   : Bool := false                -- assigned before the reset, with what its LUN-block holds (R334)
  deriving DecidableEq, Repr

/-- A lost-range entry (R335). -/
structure Lost where
  zid   : Nat
  first : Nat
  count : Nat
  cause : Nat
  lost  : Nat := 0
  deriving DecidableEq, Repr

/-- A failure-group lease (R337): rebuild or reshape. -/
inductive Lease where
  | free | rebuild | reshape
  deriving DecidableEq, Repr

/-- One rebuild unit: a zone with the members that are rebuilt, and the next row of each (R323, R330). -/
structure RebUnit where
  zid   : Nat
  rows  : Tab Nat                       -- member to its next row
  gen   : Nat := 0
  alone : Bool := false                 -- runs alone (R312)
  cur   : Option Nat := none            -- row being reconstructed and programmed
  chunks : Tab (Tab (List Byte)) := []  -- its lost members' codeword bodies so far
  left  : List Nat := []                -- members whose program of that row is not yet good
  slots : List (Nat × Nat) := []        -- accumulator slots it holds: quadrant and slot (R274)
  deriving DecidableEq, Repr

/-- A staging extent (R119). -/
structure Extent where
  fg    : Nat
  set   : Nat
  wl    : Nat
  nwl   : Nat
  zid   : Nat
  wseq  : Nat
  row   : Nat
  first : Nat
  count : Nat
  seq   : Nat
  bad   : List Nat := []                -- copies that no longer hold it
  deriving DecidableEq, Repr

/-- A new row that a reshape writes (R340). -/
structure CopyRow where
  row    : Nat
  rid    : Nat := 0                     -- its number, under which a stripe engine streams it
  blks   : Nat := 0                     -- blocks that it takes from below WP
  asked  : Bool := false                -- their reads have begun
  pis    : Tab (List Byte) := []        -- their PI; their data stands in its buffers
  bufs   : List Nat := []               -- its buffers in SoC memory
  ste    : Option Nat := none           -- the stripe engine that streams it
  slots  : Tab Nat := []                -- parity member to its accumulator slot
  poison : List Nat := []               -- blocks that are poisoned where they stand
  gone   : List Nat := []               -- blocks that cannot be read: a whole row becomes pads
  want   : Nat := 0                     -- blocks still to read or to stream
  began  : Bool := false                -- its programs are queued
  parity : Tab (List Byte) := []         -- parity member to the contents of its slot (R273)
  intent : Nat := 0                     -- SEQ below which the journal must be durable first
  left   : List Nat := []               -- members whose program is not yet good
  deriving DecidableEq, Repr

/-- A failure group: its layouts, spares, lost ranges, lease and work. -/
structure Group where
  layout   : Option Nat := none         -- bound layout index
  newIdx   : Option Nat := none         -- second layout of a reshape
  pages    : List Nat := []             -- its fixed allocation in the layout store (R96)
  boundary : Nat := 0                   -- boundary ZID (R339)
  aborted  : Bool := false
  lease    : Lease := .free
  paused   : Bool := false
  coord    : Nat := 0
  share    : Nat := 0                   -- rebuild share of the pass
  lastShare : Nat := 0                  -- of the last pass since the reset (R312), 0 none
  rebCid   : Option Nat := none         -- the REBUILD_START that waits for the pass
  rebRows  : Nat := 0                   -- rows programmed onto spares in the pass
  auto     : Bool := false              -- an automatic rebuild waits for the lease (R214)
  units    : List RebUnit := []
  copied   : Nat := 0                   -- new rows of the boundary zone copied so far (R343)
  cp       : Option CopyRow := none     -- the new row that the reshape is at (R340)
  cpExt    : Option Extent := none      -- the extent of WP's new row (R340)
  cpBad    : List Nat := []             -- new members of the boundary zone that failed a program
  spares   : List Spare := []
  spareAt  : Nat := 0                   -- rotating start (R319)
  lost     : List Lost := []
  await    : Bool := false              -- awaits restart (R298)
  setAt    : Nat := 0                   -- next staging set of the round robin (R123)
  setAtNew : Nat := 0                   -- the same for the second layout of a reshape
  setWl    : Tab Nat := []              -- next free word line of a staging set
  setOut   : Tab Unit := []             -- sets that left the round robin
  setErase : Tab Unit := []             -- sets whose reuse erase is wanted or runs
  unread   : List (Nat × Nat × Nat × Nat) := []  -- codewords found unreadable: zone, row, member, codeword (R326)
  freshen  : Bool := false              -- the new members of the boundary zone are erased before its copy (R342)
  deriving DecidableEq, Repr

/-- A run of one command's blocks within a row. -/
structure Piece where
  cid   : Nat
  cmdBlk : Nat                          -- index of the first block within the command
  first : Nat                           -- index of the first block within the row
  count : Nat
  deriving DecidableEq, Repr

/-- How one member of a row in flight stands (R112, R125, R156). -/
inductive MembStat where
  | idle | queued | program | good | failed | held | pad
  deriving DecidableEq, Repr

/-- How far a row has come. -/
inductive RowPhase where
  | gathering
  | filled                              -- waits for staging, fold and a stripe engine (R114, R272)
  | folding
  | ready                               -- folded, waits for a stripe engine
  | streaming (ste : Nat)
  | parity                              -- parity computed, its INTENT not yet accepted (R285)
  | intent                              -- parity computed, its INTENT not yet durable
  | programming
  | again                               -- programs run; a stripe engine is to stream it once more (R276)
  deriving DecidableEq, Repr

/-- A gathering row, or a row in flight (R111, R112). -/
structure Row where
  rid      : Nat
  quad     : Nat
  slot     : Option Nat                 -- gathering row of the hopper slice
  zid      : Nat
  row      : Nat
  pieces   : List Piece := []
  phase    : RowPhase := .gathering
  lastTick : Nat := 0                   -- last append accepted
  fillTick : Nat := 0
  gen      : Nat := 0                   -- generation at the fill (R494)
  staging  : Option Nat := none         -- staging in progress
  pis      : Tab (List Byte) := []      -- PI of the folded blocks, whose data stands in the buffers
  stream   : Tab (List Byte) := []      -- bodies on their way through the stripe engine, by block of the row (4,112 bytes)
  poison   : List Nat := []             -- blocks streamed poisoned (R603)
  want     : Nat := 0                   -- blocks still to fold or stream
  bufs     : List Nat := []             -- pool buffers of a fold
  parity   : Tab (List Byte) := []      -- parity member to the contents of its accumulator slot (R273)
  slots    : Tab Nat := []              -- parity member to its accumulator slot
  strikes  : Nat := 0                   -- slot check errors (R276)
  checks   : Nat := 0                   -- machine checks of the stripe engine that streams it (R483)
  intent   : Nat := 0                   -- SEQ of its INTENT
  memb     : Tab MembStat := []
  pads     : List Nat := []             -- members padded under R233
  acked    : Nat := 0                   -- staged blocks when it filled
  deriving DecidableEq, Repr

/-- A staging in progress (R119 to R122). -/
structure Staging where
  sid      : Nat
  rid      : Nat
  zid      : Nat
  row      : Nat
  wseq     : Nat
  fg       : Nat
  set      : Nat
  wl       : Nat
  nwl      : Nat
  first    : Nat
  count    : Nat
  consol   : Bool                       -- writes the whole staged prefix again (R122)
  spill    : Bool                       -- started by slot pressure (R117)
  old      : List Nat := []             -- blocks that it reads from earlier extents, in the order of its buffers
  pis      : Tab (List Byte) := []      -- their PI; their data stands in its buffers
  bufs     : List Nat := []             -- its buffers in SoC memory
  poison   : List Nat := []
  want     : Nat := 0                   -- blocks still to read from flash
  done     : List (Nat × Nat) := []     -- copies and word lines with good status
  bad      : List Nat := []             -- copies abandoned
  move     : Option (Nat × Nat) := none -- an extent that reclaim moves: its set and word line (R123)
  deadline : Nat
  real     : Bool
  placed   : Bool                       -- word lines are allocated
  reshape  : Bool := false              -- writes WP's new row of a reshape copy (R340)
  began    : Nat                        -- tick of its start
  deriving DecidableEq, Repr

/-! ### Flash work -/

/-- The kinds of work, in their tie order (R362, R364). -/
inductive Kind where
  | a | j | s | w | e | b | h | m | x
  deriving DecidableEq, Repr

/-- What an array operation does: the cost classes 0 to 3 and 7 of R350. -/
inductive OpType where
  | read | prog | slc | erase | rawSeq
  deriving DecidableEq, Repr

/-- For what an operation that is no read runs (R157). -/
inductive OpUse where
  | items                               -- a read: its codewords say for whom
  | member (rid j : Nat)                -- a member's chunk of a row
  | pad (zid row j : Nat) (void : Bool) -- a pad word line (R156, R323)
  | stage (sid set copy wl : Nat)
  | page (copy pseq : Nat)
  | turnErase (copy : Nat)
  | resetErase (cid zid j glun block : Nat)
  | spareErase (fg idx : Nat)
  | setErase (fg set copy : Nat)
  | rebuild (fg zid row j : Nat)
  | reshape (fg zid row j : Nat)
  | again                               -- an erase interrupted before (R168)
  | oldErase (fg zid j : Nat)
  | raw (cid : Nat)
  deriving DecidableEq, Repr

/-- How far an operation has come. -/
inductive OpPhase where
  | waiting                             -- not admitted; a program may be transferring
  | loaded (at_ : Nat)                  -- transferred, unconfirmed since this tick (R148, R149)
  | granted                             -- admitted by the governor
  | busy                                -- in the array
  | stopping (at_ : Nat)                -- suspend issued at this tick (R158)
  | stopped (at_ : Nat)                 -- suspended
  | dataOut                             -- read ready, codewords leave
  deriving DecidableEq, Repr

/-- An array operation with its bus phases. -/
structure Op where
  id       : Nat
  kind     : Kind
  type     : OpType
  glun     : Nat
  block    : Nat
  wl       : Nat
  slc      : Bool := false
  bitpage  : Nat := 0
  levels   : List Int := []             -- offset set of a read
  cws      : List (Nat × Nat × Nat) := []   -- page, codeword, item
  deadline : Nat
  real     : Bool
  share    : Option Nat := none         -- 0 b, 1 h, 2 m, 3 x, 4 ra
  use      : OpUse := .items
  phase    : OpPhase := .waiting
  pages    : Nat := 0                   -- plane-pages transferred
  confirm  : Nat := 0                   -- tick of the confirm byte
  paused   : Nat := 0                   -- ticks left out of the timeout (R142)
  suspends : Nat := 0
  suspTicks : Nat := 0
  resumeAt : Nat := 0
  polls    : Nat := 0
  lastPoll : Nat := 0
  gen      : Nat := 0
  needSeq  : Nat := 0                   -- journal entries below this SEQ must be durable first (R277)
  hit      : Bool := false              -- waits on write protection (R174)
  peak     : Nat := 0                   -- VCC peak held in its sluice (R352)
  leaving  : Bool := false              -- a data-out phase of it holds the bus
  susp     : Bool := false              -- a suspend of it is ordered, not yet issued (R371)
  capped   : Bool := false              -- a suspend of it was withheld (R159)
  vccq     : Nat := 0                   -- VCCQ peak held while its data-out runs (R353)
  poison   : List Nat := []             -- blocks of its chunk that its sequencer could not fetch (R603)
  deriving DecidableEq, Repr

/-- Who wants a codeword that is read. -/
inductive Use where
  | blk (cid off : Nat)                 -- a block of a zone read, from its member
  | staged (cid off copy : Nat)         -- from a staging copy
  | survivor (rid member : Nat)         -- for a reconstruction
  | fold (rid blk copy : Nat)           -- for the fold of a row
  | restage (sid blk copy : Nat)        -- for a consolidation or a staging-reclaim move
  | copy (fg zid row blk : Nat)         -- for a reshape copy
  | patrol (bg : Nat)
  | scrub (cid : Nat)                   -- for a scrub (R406)
  | sweep (id : Nat)                    -- for a calibration sweep (R402)
  | raw (cid idx mode : Nat)
  deriving DecidableEq, Repr

/-- How far a codeword's attempt has come. -/
inductive ItemStage where
  | predicting                          -- its ageing record is being fetched (R248)
  | reading                             -- its read waits or runs
  | staged                              -- in staging SRAM, waits for a decoder
  | decoding (pool d : Nat)
  | held (iters : Nat)                  -- decoded; waits for its command's first reference tag (R236)
  deriving DecidableEq, Repr

/-- One codeword being read, through its ladder (R250). -/
structure Item where
  id     : Nat
  kind   : Kind
  deadline : Nat
  real   : Bool
  share  : Option Nat := none
  glun   : Nat
  block  : Nat
  wl     : Nat
  page   : Nat
  cw     : Nat
  slc    : Bool
  use    : List Use
  header : Option Nat := none           -- expected row header (R237), POISON and pads apart
  parity : Bool := false                -- a parity codeword: checked by its header alone (R606)
  base   : List Int := []               -- predicted offset set
  wseq   : Option Nat := none           -- WSEQ of the zone whose row is read (R390)
  level  : Option Nat := none           -- LEVELS of a RAW_READ: the ladder step whose set alone is read (R182)
  exact  : Option (List Int) := none    -- offset set of a sweep's read, as it stands (R402)
  step   : Nat := 0
  reads  : Nat := 0                     -- reads of this soft step received
  fails  : List (Nat × Nat) := []       -- failed hard steps and their unsatisfied checks
  raws   : List (List Byte) := []       -- de-randomised reads of the soft steps
  llr    : List Int := []               -- soft input of the step (R251)
  raw    : List Byte := []              -- the codeword in staging SRAM
  readBy : Nat := 0                     -- operation that read it last (R245)
  stage  : ItemStage := .reading
  strikes : Nat := 0                    -- staging-SRAM detections (R245)
  dstrikes : Nat := 0                   -- decoder detections
  queued : Nat := 0                     -- age in the pool's queue
  gen    : Nat := 0
  deriving DecidableEq, Repr

/-- For whom a codeword is reconstructed. -/
inductive ReconUse where
  | blk (cid off : Nat)
  | spare (fg zid row : Nat) (members : List Nat)   -- rebuilt chunks
  | copy (fg zid row blk : Nat)         -- a reshape copy
  | scrub (cid : Nat)                   -- a codeword that a scrub could not read (R406)
  deriving DecidableEq, Repr

/-- A reconstruction in progress (R255 to R261). -/
structure Recon where
  id       : Nat
  use      : ReconUse
  zid      : Nat
  row      : Nat
  member   : Nat
  cwx      : Nat
  kind     : Kind
  deadline : Nat
  real     : Bool
  share    : Option Nat := none
  asked    : List Nat                   -- survivors chosen
  got      : Tab (List Byte) := []      -- bodies that have arrived
  out      : List Nat := []             -- members that cannot serve
  fails    : List Result := []          -- failures met, in order (R257)
  around   : Bool := false              -- granted read-around or early reconstruction (R253, R261)
  back     : Option Nat := none         -- ladder step to go back to when it is abandoned (R253)
  prior    : List (Nat × Nat) := []     -- failed hard steps of the ladder that it interrupts, with their unsatisfied checks
  raws     : List (List Byte) := []     -- the soft reads of that ladder so far
  region   : Bool := false              -- holds a reconstruction region (R255)
  strikes  : Nat := 0                   -- detections in that region (R511)
  gen      : Nat := 0
  deriving DecidableEq, Repr

/-- A decoder pool (R242). Decoders 0 to 7 are hard, 8 and 9 soft. -/
structure PoolDec where
  busy    : Tab Nat := []               -- decoder to the item it decodes
  out     : Tab Unit := []              -- withdrawn decoders (R518)
  deriving DecidableEq, Repr

/-- A stripe engine: the row it streams (R272). -/
structure SteSt where
  rid : Option Nat := none
  deriving DecidableEq, Repr

/-- A parity-accumulator bank: who holds its slots, and the withdrawn ones (R274, R518). -/
structure BankSt where
  held : Tab Nat := []                  -- slot to holder: 1 row parity, 2 reconstruction, 3 rebuild
  out  : Tab Unit := []
  deriving DecidableEq, Repr

/-- A LUN that discovery found (R135, R195). -/
structure Lun where
  state  : Nat := 0                     -- STATE kind 2: 0 GOOD to 4 RETIRED
  model  : Nat := 0
  shadow : Option (List Int) := none    -- offset set last written (R146)
  ran    : Nat := 0                     -- operation that it ran last: what its page register holds (R245)
  odt    : Nat := 0                     -- die termination in force, as DIE_ODT (R201)
  zq     : Bool := false                -- its own impedance calibration has run since the last switch into rungs 0 to 3 (R203)
  deriving DecidableEq, Repr

/-- What the block knows of a LUN-block beyond its ageing record. -/
structure BlkSt where
  erasing     : Bool := false           -- under erase (R166)
  interrupted : Bool := false           -- last erase interrupted (R168)
  retired     : Bool := false
  bad         : Bool := false           -- an erase of it failed: it is never used for data again (R192)
  deriving DecidableEq, Repr

/-- The bus of a channel as last driven. -/
structure BusSt where
  ce     : Option Nat := none           -- chip enable whose CE_N is low (R152)
  volume : Tab Nat := []                -- chip enable to the volume last selected (R140)
  bytes  : List Byte := []              -- bytes of the last phase
  wpn    : Bool := false                -- WP_N (R175)
  deriving DecidableEq, Repr

/-! ### Journal -/

/-- A journal entry as written (R278). -/
structure Entry where
  seq  : Nat
  typ  : Nat
  pfail : Bool := false
  fg   : Nat
  zid  : Nat := 0
  wseq : Nat := 0
  row  : Nat := 0
  arg0 : Nat := 0
  arg1 : Nat := 0
  arg2 : Nat := 0
  deriving DecidableEq, Repr

/-- A page of the journal, open or closed and not yet durable in flash. -/
structure PageSt where
  pseq    : Nat
  entries : List Entry := []
  first   : Nat := 0                    -- tick of its first entry
  closed  : Bool := false
  closeAt : Nat := 0                    -- tick of its close (R362)
  gen     : Nat := 0
  segs    : List (Nat × Nat × List Byte) := []  -- segment images: KIND, INDEX and their 4,096 bytes
  segSeq  : Nat := 0                    -- SEG_SEQ of its images
  tail    : Nat := 0                    -- TAIL_PSEQ when it closed
  good    : List Nat := []              -- copies on which it is good
  deriving DecidableEq, Repr

/-- A copy of the journal (R283 to R287). -/
structure CopySt where
  live   : Bool := false
  glun   : Nat := 0
  first  : Nat := 0
  blocks : Nat := 0
  block  : Nat := 0                     -- block of the window in use
  wl     : Nat := 0                     -- next word line
  busy   : Option Nat := none           -- page in program
  next   : Nat := 0                     -- PSEQ of the next page it writes
  turn   : Bool := false                -- its turn erase runs
  bad    : List Nat := []               -- retired window blocks
  deriving DecidableEq, Repr

/-- The journal engine's state. -/
structure JrnSt where
  seq      : Nat := 0                   -- next SEQ
  durable  : Nat := 0                   -- every entry below this SEQ is durable (R288)
  pseq     : Nat := 0                   -- next PSEQ
  tail     : Nat := 0                   -- oldest page still live in the window
  pages    : List PageSt := []          -- pages held in the millpond, oldest first
  copies   : Tab CopySt := []
  spares   : Tab Nat := []              -- JRN_SPARE locations taken, with the value they held
  mode     : Nat := 1                   -- MODE in force (R290)
  scanned  : Bool := false
  stopped  : Bool := false
  full     : Bool := false              -- no window block can be erased (R285)
  backlog  : List Entry := []           -- entries that wait for a page (R289)
  turnNo   : Nat := 0                   -- window turns so far
  live     : List (Nat × Nat × List Entry) := []  -- pages in the window: turn, PSEQ and entries (R285)
  dirty    : List Nat := []             -- segments changed since their last image (R282)
  images   : Tab Nat := []              -- segment (KIND × 65,536 + INDEX) to its latest SEG_SEQ
  rot      : Nat := 0                   -- rotating order of segments
  found    : List JEntry := []          -- entries the scan found
  segs     : List JSegment := []        -- latest segment images it found
  holes    : List (Nat × Nat) := []     -- runs of PSEQ no copy holds: the first PSEQ, and the first SEQ found after it
  discards : Tab Nat := []              -- group to the SEQ of its latest discard (R607)
  pfActive : Bool := false
  pfHold   : Bool := false              -- PFAIL_N was low at the end of a reset and has not been high for FILTER ticks (R569)
  pfDone   : Bool := false
  pfLow    : Option Nat := none         -- tick at which PFAIL_N fell
  pfHigh   : Option Nat := none         -- tick at which it rose
  pfFlush  : Bool := false              -- step 4 of R291 reached
  pfStg    : List Nat := []             -- stagings of step 3
  pfRows   : List (Nat × Nat) := []     -- zone and row of the rows in program when PFAIL_ACTIVE was set
  pfSleep  : Bool := false              -- both flags were set without waking (R541)
  kept     : List Entry := []           -- entries of the journal buffer kept across SRST_N (R596)
  deriving DecidableEq, Repr

/-! ### Governor and ageing -/

/-- A thermal zone's bucket (R358). -/
structure ZoneTh where
  budget : Nat := 100
  burst  : Nat := 4
  f      : Nat := 100
  tokens : Int := 0
  spent  : List Int := [0, 0, 0, 0, 0]  -- b, h, m, x, ra
  crit   : Bool := false
  stale  : Bool := false
  temp   : Int := -128
  fresh  : Bool := false                -- a refill has set `temp`
  deriving DecidableEq, Repr

/-- The governor (R346 to R379). -/
structure GovSt where
  limit   : Tab Nat := []               -- sluice limits in mA; unlisted 1,000 (R348)
  used    : Tab Nat := []
  zones   : Tab ZoneTh := []
  resPct  : Nat := 20
  raPct   : Nat := 25
  maint   : Nat := 10
  raw     : Nat := 10
  worth   : Nat := 16
  wait    : List (Nat × Nat × List Byte) := []   -- BUDGET_SET images that wait: cid, select, image
  refill  : Nat := 0                    -- first tick of the refill period
  stopped : Bool := false               -- TREF was lost: no admission until the next refill (R31, R32)
  sensors : Tab (Int × Nat) := []       -- THERM readings with their ticks
  before  : Tab (Int × Nat × Nat) := [] -- readings that a thermal word replaced, with the tick of the word (R571)
  dies    : Tab (Int × Nat) := []       -- die readings by GLUN with their ticks
  dieAt   : Tab Nat := []               -- chip enable (ch × 16 + ce) to the tick of its last reading
  deriving DecidableEq, Repr

/-- A predicted set as a quadrant scheduler caches it (R248): the temperature and tick of its computation, the generation of its
table (R249), and whether the record counted as stale (R390). -/
structure Pred where
  set   : List Int
  temp  : Int
  tick  : Nat
  gen   : Nat
  stale : Bool
  deriving DecidableEq, Repr

/-- One finding of a scrub (R407). -/
structure Finding where
  row    : Nat
  member : Nat
  kind   : Nat
  cwx    : Nat
  step   : Nat
  glun   : Nat
  block  : Nat
  detail : Nat
  deriving DecidableEq, Repr

/-- A SCRUB_RANGE that reads its rows (R406). -/
structure Scrub where
  cid       : Nat
  zid       : Nat
  rows      : List Nat := []            -- rows still to scrub, the one under way first
  begun     : Bool := false             -- the first of them is being read
  want      : Nat := 0                  -- codewords of that row still to come
  bodies    : Tab (List Byte) := []     -- 64 × member + codeword to a body that passed
  codewords : Nat := 0
  heavy     : Nat := 0
  failed    : Nat := 0
  mismatch  : Nat := 0
  unrecov   : Nat := 0
  finds     : List Finding := []
  deriving DecidableEq, Repr

/-- A calibration sweep (R402). -/
structure Sweep where
  id    : Nat                           -- holder of the lease: its command, or a number of its own
  bg    : Nat
  mask  : Nat                           -- sub-entries sampled
  wls   : List (Nat × Nat)              -- word lines still to sweep: LUN-block and word line
  count : Nat                           -- word lines sampled
  now   : Option (Nat × Nat) := none    -- the word line under way
  base  : List Int := []                -- its predicted set
  sets  : List (Nat × Int) := []        -- shifts of it still to read: level and shift
  shift : Option (Nat × Int) := none    -- the one being read
  want  : Nat := 0                      -- codewords of it still to come
  sum   : Nat := 0                      -- their weights so far
  base0 : Nat := 0                      -- sum of w0
  sums  : List (Nat × Int × Nat) := []  -- level, shift and weight, word line by word line
  deriving DecidableEq, Repr

/-- Block-group lease: scrub or calibration, and its command (R401, R405). -/
structure AgeSt where
  leases  : Tab (Nat × Nat) := []       -- BG to lease code 3 or 4 and the cid
  dirty   : Tab (List Byte × Nat) := [] -- changed records not yet written, with the tick of the change
  advice  : List (Nat × Nat × Nat × Nat) := []   -- ZID, GLUN, block, cause
  patrol  : Tab Nat := []               -- maintenance engine to its next BG
  patrolAt : Tab Nat := []              -- maintenance engine to the tick of its last visit (R409)
  scrubs  : List Scrub := []
  sweeps  : List Sweep := []
  auto    : Tab Unit := []              -- groups that wait for their automatic calibration
  pred    : Tab Pred := []              -- cached sets by LUN-block (R248)
  deriving DecidableEq, Repr

/-! ### Channel PHY (chapter Channel PHY, Rate Ladder and Training) -/

/-- Which training a channel runs, or runs next. -/
inductive Train where
  | none | quick | full | raise
  deriving DecidableEq, Repr

/-- The data interfaces of the rungs (R197). -/
inductive DataIf where
  | lpddr4Ext | lpddr4 | nvddr3         -- ONFI, IFACE 0
  | toggleExt | toggle                  -- JESD230, IFACE 1
  | sdr
  deriving DecidableEq, Repr

/-- What a channel's PHY keeps beside its registers. -/
structure PhySt where
  iface    : DataIf := .sdr             -- data interface in force (R197)
  train    : Train := .none             -- training in progress
  rung     : Nat := 6                   -- rung on which it runs
  oldRung  : Nat := 6                   -- rung to return to when a raise attempt fails (R215)
  since    : Nat := 0                   -- tick at which RETRAIN was entered
  lastPass : Nat := 0                   -- tick of the last pass (R210)
  passTemp : Int := 0                   -- zone temperature at the last pass (R210)
  raiseAt  : Nat := 0                   -- tick of the last step down or failed attempt (R215)
  kept     : Tab (List CeTrain) := []   -- trained values by rung (R207)
  trained  : List Nat := []             -- chip enables trained on the present rung
  linkAt   : Nat := 0                   -- tick of the last link check
  linkNext : Nat := 0                   -- chip enable to check next (R208)
  fails    : List (Nat × Nat) := []     -- failed first hard decodes in the window: tick and LUN (R209)
  linkAll  : List Nat := []             -- chip enables still to check after an error burst (R209)
  unlocked : Bool := false              -- the PLL is unlocked (R216)
  pend     : Option (Train × Nat) := none   -- the training and its rung that wait for the PLL's lock
  asked    : List Nat := []             -- ACTIONs of PHY_CMD written during RETRAIN, oldest first (R210)
  mixed    : Bool := false              -- dies of both data interfaces (R199)
  deriving DecidableEq, Repr

/-! ### Engines (chapter Engines, Microcode and Measured Configuration) -/

/-- A wait of an engine (R474, R479): the port, the register that takes the reply, and for port 63 the tick at which
it ends. -/
structure EngWait where
  port  : Nat
  reg   : Nat
  until_ : Option Nat := none
  deriving DecidableEq, Repr

/-- One engine (R472, R473, R484). -/
structure EngineSt where
  mode    : Nat := 0                    -- 0 idle, 1 running, 2 recovering, 3 halted
  g       : Tab Word := []              -- G0 to G15; unlisted 0
  pc      : Nat := 0
  stack   : List Nat := []              -- return addresses, last call first
  z       : Bool := false
  c       : Bool := false
  n       : Bool := false
  opcode  : Nat := 0                    -- work opcode of the item in progress
  work    : Option Nat := none          -- command, GLUN or row that the item works on (R483)
  steps   : Nat := 0                    -- steps since the last safe point (R478)
  wait    : Option EngWait := none
  req     : Tab (Nat × Word × Word × Nat) := []   -- port to REGA's number, both values and CODE of its last request
  locals  : Tab Word := []              -- local words by bank × 4,096 + word; unlisted 0
  bank    : Nat := 0                    -- current bank
  checks  : List Nat := []              -- ticks of the machine checks, latest first (R484)
  hook    : Option Nat := none          -- steps of the hook that runs (R487)
  rowCyc  : Nat := 0                    -- row-address cycles of the hook since its last command byte
  deriving DecidableEq, Repr

/-! ### Checked memories (chapter Internal Memory Checks and the Fault Record) -/

/-- One memory instance's tracked and retired lines (R516, R517). -/
structure MemInst where
  tracked : List (Nat × List Nat) := [] -- line and the ticks of its last three recoveries, latest first
  mapped  : List Nat := []              -- retired lines, in the order of their spare lines
  deriving DecidableEq, Repr

/-! ### Power (chapter Power Domains, Furl and the Millpond) -/

/-- A domain's handshake (R527, R567, R568): the request lines, the acknowledges, the state it is taken to (0 on,
1 retention, 2 off), the tick since which an acknowledge is awaited, and the tick since which it has had no work (R528). -/
structure DomSt where
  pwrReq  : Bool := true
  retReq  : Bool := false
  pwrAck  : Bool := true
  retAck  : Bool := false
  goal    : Nat := 0
  since   : Option Nat := none
  idleAt  : Nat := 0
  deriving DecidableEq, Repr

/-- How far an entry to DROWSE or FURL, or an exit, has come (R530, R538). -/
inductive PwrStep where
  | none
  | draining                            -- steps 1 to 4
  | image                               -- past the commit point, image area being written
  | waking                              -- an exit
  | patrol                              -- a patrol wake runs its visits
  deriving DecidableEq, Repr

/-- The power controller's state. -/
structure PwrSt where
  step    : PwrStep := .none
  cid     : Option Nat := none          -- the POWER_STATE in progress
  target  : Nat := 0
  held    : Bool := false               -- a KIND 0 doorbell after the commit point (R532)
  flushed : Bool := false               -- step 4 of R530 has begun
  imgDirty : Bool := true               -- a CONFIG_COMMIT since the image area was last written (R535)
  furlAt  : Nat := 0                    -- tick since which the block has been in FURL (R540)
  visits  : Tab Nat := []               -- maintenance engine to the visits left of this patrol wake (R410)
  heldAt  : Option Nat := none          -- tick since which MEM_HOLD delays the furled patrol (R411)
  deriving DecidableEq, Repr

/-! ### Bring-up and boundary (chapters Reset and Bring-Up, The Block Boundary) -/

/-- What bring-up keeps beside its registers. -/
structure BootSt where
  found    : List CeFound := []         -- chip enables that discovery found
  image    : List Byte := []            -- header and body of the copy being loaded (R589, R591)
  fromDram : Bool := false              -- it came from BOOT_IMG_BASE under ACTION 2
  freqOk   : Bool := false              -- a comparison window has ended without TREF_FREQ (R585)
  released : Bool := false              -- the engines have been released (R584)
  fallback : Bool := false              -- a FURL exit loads generation 0 (R537)
  oaNone   : Bool := false              -- stopped under R590
  key      : Option Nat := none         -- option-area copy whose first key has been written (R178)
  keyAt    : Nat := 0                   -- tick of the first key
  armed    : Bool := false              -- its window is open
  unlock   : Option Nat := none         -- option-area copy that is unlocked (R179)
  openAt   : Nat := 0                   -- tick of the unlock
  deriving DecidableEq, Repr

/-- The test access port and the boundary cells (R577, R578). -/
structure TapSt where
  ir       : Nat := 1                   -- instruction in force; 0x01 is IDCODE
  dr       : List Bool := []            -- selected data register, last captured
  preload  : List Bool := []            -- boundary cells as preloaded
  pulse    : Nat := 0                   -- 1 a pulse, 2 a train of the driven pairs, 0 none
  deriving DecidableEq, Repr

/-- An access of the control port that waits until its domain is on (R25). -/
structure CpAcc where
  write : Bool
  addr  : Nat
  value : Nat := 0
  coin  : Nat := 0                      -- what hardware sets or counts in the same access
  deriving DecidableEq, Repr


/-- The state of the block. -/
structure State where
  pending  : List Instr := []           -- the commands that wait, first in first out (the model's own)
  free     : Nat := 0                   -- counter of the free values (the model's own)
  nextId   : Nat := 0                   -- the next number the model gives (the model's own)
  dram     : List Host.Cell := []       -- SoC memory as the block reads and writes it
  regs     : Tab Word := []             -- registers whose value differs from what the register map resets them to
  tick     : Nat := 0                   -- the tick counter (R26)
  trefStop : Bool := false              -- no TREF edges arrive (R31)
  paceAt   : Nat := 0                   -- first tick of the pace window (R28)
  freqAt   : Nat := 0                   -- first tick of the comparison window (R33)
  committed : Bool := false             -- a CONFIG_COMMIT has fixed the RWL registers (R13)
  cpResp   : Nat := 0                   -- CP_RESP of the last access (R546)
  cpRdata  : Word := 0                  -- CP_RDATA of the last read
  cpWait   : Option CpAcc := none       -- an access that waits for its domain (R25)
  ctx      : Tab (BitVec 512) := []     -- ring contexts
  rings    : Tab RingRt := []
  cmds     : List Cmd := []             -- commands in flight, in fetch order
  ports    : Tab PortSt := []
  xfers    : List Xfer := []
  memHold  : Bool := false
  porstN   : Bool := true               -- pins as the block samples them (R544)
  srstN    : Bool := true
  pfailN   : Bool := true
  filled   : Bool := false              -- the bring-up fill has ended (R510, R546)
  pools    : Tab PoolSt := []
  slots    : Tab StgSlots := []
  traces   : Tab TraceSt := []
  evc      : EvcSt := {}
  cfg      : CfgSt := {}
  ozt      : Tab ZoneEntry := []        -- open zone table (R101)
  layouts  : Tab Layout := []
  groups   : Tab Group := []
  extents  : List Extent := []          -- live staging extents
  rows     : List Row := []             -- gathering rows and rows in flight
  stagings : List Staging := []
  ops      : List Op := []
  items    : List Item := []
  recons   : List Recon := []
  decs     : Tab PoolDec := []
  stes     : Tab SteSt := []
  banks    : Tab BankSt := []
  luns     : Tab Lun := []              -- LUNs present, by GLUN
  blks     : Tab BlkSt := []            -- by GLUN × 4,096 + LUN-block
  buses    : Tab BusSt := []
  jrn      : JrnSt := {}
  gov      : GovSt := {}
  age      : AgeSt := {}
  phys     : Tab PhySt := []            -- by channel
  engines  : Tab EngineSt := []         -- by engine number
  mems     : Tab MemInst := []          -- by memory code × 256 + instance (R508)
  msrBad   : Option Nat := none         -- line of a detection in the measurement log (R514)
  doms     : Tab DomSt := []            -- by domain number
  pwr      : PwrSt := {}
  boot     : BootSt := {}
  tap      : TapSt := {}
  scanEn   : Bool := false              -- SCAN_EN (R544)
  alive    : Bool := false              -- IX_ALIVE
  aliveOn  : Bool := false              -- IX_ALIVE toggles
  aliveAt  : Nat := 0                   -- tick of its last toggle
  blockFault : Bool := false            -- a block fault stops the block (R522)
  deriving DecidableEq, Repr

/-- Why the block stops: no rule of the spec stops it, so this reason is raised by no meaning. -/
inductive Fault where
  /-- Raised by nothing: the spec names no stop of the block itself. Safe. -/
  | never
  deriving DecidableEq, Repr

/-- Why a command has no meaning. -/
inductive Refusal where
  /-- Raised by the arm of a command that is not modelled yet. Safe. -/
  | notModelled (mnemonic : String)
  deriving DecidableEq, Repr

/-- What a step answers. -/
abbrev Out := Host.Outcome State Fault Refusal

/-- The block right after power-on reset. -/
def State.reset : State := {}

end Sys2Proof.Machine
end

