-- ==== Sys2Proof/Machine/Ops.lean ====
section
/-! DEFINITION. The shared operations over SoC memory, registers, sticky bits with their counters, numbers and free
values. Every meaning reads and writes memory and registers through these. -/

namespace Sys2Proof.Machine

/-! ### SoC memory -/

/-- The byte of SoC memory at an address; a byte that nothing has written reads as 0 (DESIGN CHOICE, log entry 2). -/
def memGet (m : List Host.Cell) (a : Nat) : Byte := tget m a 0

/-- SoC memory with one byte written; a 0 removes the entry, so that equal memories are equal lists. -/
def memPut (m : List Host.Cell) (a : Nat) (b : Byte) : List Host.Cell :=
  if b = 0 then terase m a else tset m a b

/-- Every key of a table lies above `lo`, rising. -/
def risingFrom {α : Type} : Nat → List (Nat × α) → Bool
  | _, [] => true
  | lo, (a, _) :: r => decide (lo ≤ a) && risingFrom (a + 1) r

/-- The canonical form of SoC memory: addresses rising, no byte listed that reads as an unlisted one. -/
def Memory.wf (m : List Host.Cell) : Bool := risingFrom 0 m && m.all (fun c => decide (c.2 ≠ 0))

/-- The byte at a 64-bit address. -/
def dramByte (s : State) (a : Nat) : Byte := memGet s.dram (a % 2 ^ 64)

/-- `n` bytes from an address. -/
def dramRead (s : State) (a n : Nat) : List Byte := (List.range n).map (fun i => dramByte s (a + i))

/-- Bytes written from an address upward. -/
def memWrite (m : List Host.Cell) (a : Nat) : List Byte → List Host.Cell
  | [] => m
  | b :: r => memWrite (memPut m (a % 2 ^ 64) b) (a + 1) r

/-- SoC memory with bytes written from an address upward. -/
def dramWrite (s : State) (a : Nat) (l : List Byte) : State := { s with dram := memWrite s.dram a l }

/-! ### Registers -/

/-- The stored value of a register: what was last put there, or its reset value. -/
def rd (s : State) (a : Nat) : Nat :=
  match tget? s.regs a with
  | some w => w.toNat
  | none => regReset a

/-- A register given a value. -/
def wr (s : State) (a v : Nat) : State := { s with regs := tset s.regs a (w32 v) }

/-- Bits `hi` to `lo` of `w` replaced by `v`. -/
def putBits (w hi lo v : Nat) : Nat :=
  w - (bits w hi lo) * 2 ^ lo + (v % 2 ^ (hi + 1 - lo)) * 2 ^ lo

/-- A field of a register. -/
def rdf (s : State) (a hi lo : Nat) : Nat := bits (rd s a) hi lo

/-- A field of a register given a value. -/
def wrf (s : State) (a hi lo v : Nat) : State := wr s a (putBits (rd s a) hi lo v)

/-- A counter field raised by `n`, saturating. -/
def bump (s : State) (a hi lo n : Nat) : State :=
  wrf s a hi lo (satAdd (2 ^ (hi + 1 - lo) - 1) (rdf s a hi lo) n)

/-- Sets bit `b` of a W1C register and raises its saturating 8-bit occurrence counter (R12). In every register table
the counters follow the status register: bit b counts in lane b mod 4 of the (b div 4)-th register after it. -/
def sticky (s : State) (a b : Nat) : State :=
  let s := wrf s a b b 1
  bump s (a + 4 + 4 * (b / 4)) (8 * (b % 4) + 7) (8 * (b % 4)) 1

/-- Two registers as one 64-bit number. -/
def rd64 (s : State) (lo hi : Nat) : Nat := rd s lo + 2 ^ 32 * rd s hi

/-! ### Numbers and free values -/

/-- The next number of the model. -/
def fresh (s : State) : Nat × State := (s.nextId, { s with nextId := s.nextId + 1 })

/-- The next free value: nothing constrains it (log entry 3). -/
def freeVal (s : State) : Nat × State :=
  ((Config.freeValue s.free).toNat, { s with free := s.free + 1 })

/-- Does a number of ticks have passed since a tick? -/
def due (s : State) (since n : Nat) : Bool := decide (since + n ≤ s.tick)

/-! ### Places -/

/-- Channel of a GLUN (R18). -/
def chOf (g : Nat) : Nat := g / 128

/-- Chip enable of a GLUN (R18). -/
def ceOf (g : Nat) : Nat := (g / 8) % 16

/-- Quadrant of a GLUN (R18). -/
def quadOf (g : Nat) : Nat := g / 1024

/-- Home decoder pool of a channel (R21). -/
def poolOf (ch : Nat) : Nat := 2 * (ch / 8) + (ch % 8) / 4

/-- The key of a LUN-block in the tables of LUN-blocks. -/
def lbKey (g b : Nat) : Nat := g * 4096 + b

/-- The LUN at a GLUN, where discovery found one (R19). -/
def lun? (s : State) (g : Nat) : Option Lun := tget? s.luns g

/-- What the block knows of a LUN-block. -/
def blkSt (s : State) (g b : Nat) : BlkSt := tget s.blks (lbKey g b) {}

/-- A LUN-block's record changed. -/
def modBlk (s : State) (g b : Nat) (f : BlkSt → BlkSt) : State :=
  { s with blks := tmod s.blks (lbKey g b) {} f }

/-- A LUN's record changed, where the LUN is present. -/
def modLun (s : State) (g : Nat) (f : Lun → Lun) : State :=
  match tget? s.luns g with
  | some l => { s with luns := tset s.luns g (f l) }
  | none => s

/-! ### Lookup of records -/

/-- The command with a number. -/
def cmd? (s : State) (cid : Nat) : Option Cmd := s.cmds.find? (fun c => c.cid = cid)

/-- The command with a number changed. -/
def modCmd (s : State) (cid : Nat) (f : Cmd → Cmd) : State :=
  { s with cmds := modFirst (fun c => c.cid = cid) f s.cmds }

/-- The operation with a number changed. -/
def modOp (s : State) (id : Nat) (f : Op → Op) : State :=
  { s with ops := modFirst (fun o => o.id = id) f s.ops }

/-- The codeword job with a number changed. -/
def modItem (s : State) (id : Nat) (f : Item → Item) : State :=
  { s with items := modFirst (fun i => i.id = id) f s.items }

/-- The row with a number. -/
def row? (s : State) (rid : Nat) : Option Row := s.rows.find? (fun r => r.rid = rid)

/-- The row with a number changed. -/
def modRow (s : State) (rid : Nat) (f : Row → Row) : State :=
  { s with rows := modFirst (fun r => r.rid = rid) f s.rows }

/-- The staging with a number. -/
def stg? (s : State) (sid : Nat) : Option Staging := s.stagings.find? (fun g => g.sid = sid)

/-- The staging with a number changed. -/
def modStg (s : State) (sid : Nat) (f : Staging → Staging) : State :=
  { s with stagings := modFirst (fun g => g.sid = sid) f s.stagings }

/-- A failure group changed. -/
def modGroup (s : State) (fg : Nat) (f : Group → Group) : State :=
  { s with groups := tmod s.groups fg {} f }

/-- A failure group, an empty one where none stands. -/
def group (s : State) (fg : Nat) : Group := tget s.groups fg {}

/-! ### The control port -/

/-- The control port answers every access with an error: in reset, and before the bring-up fill has ended (R546). -/
def cpDead (s : State) : Bool := !s.porstN || !s.srstN || !s.filled

/-- An error response to a write. -/
def cpErr (s : State) : State := { s with cpResp := 1 }

/-- An error response to a read: CP_RDATA is a free value. -/
def cpErrRead (s : State) : State :=
  let (v, s) := freeVal s
  { s with cpResp := 1, cpRdata := w32 v }

/-- A write access to a register of PD_AO: an error while the port is dead, else OK with its effect. While an earlier access
is held there is none: accesses complete one at a time (R545). -/
def cpWrite (s : State) (f : State → State) : State :=
  if cpDead s then cpErr s else if s.cpWait.isSome then s else f { s with cpResp := 0 }

/-- A read access to a register of PD_AO. -/
def cpRead (s : State) (f : State → State) : State :=
  if cpDead s then cpErrRead s else if s.cpWait.isSome then s else f { s with cpResp := 0 }

/-- Is a domain on (R543)? -/
def domOn (s : State) (d : Nat) : Bool := bit (rd s (regPwrOn (d / 32))) (d % 32)

/-! ### Outcomes -/

/-- The next state. -/
def ok (s : State) : Out := .next s

end Sys2Proof.Machine
end

