-- ==== Sys2Proof/Machine/Events.lean ====
section
/-! DEFINITION. The event controller (chapter Event Controller): lines, pending bits, delivery, claims and completes,
and the commands that reach it. -/

namespace Sys2Proof.Machine

/-! ### Raising and presenting -/

/-- Is the source assigned by R450 to something that can raise it? -/
def srcUsable (src : Nat) : Bool := decide (src < 1023) && !(srcReserved src)

/-- The unit that raises an event asserts its line (R452); a source already pending takes no further effect (R453). -/
def raise (s : State) (src : Nat) : State :=
  if srcUsable src && (tget? s.evc.pend src).isNone && (tget? s.evc.lines src).isNone then
    { s with evc := { s.evc with lines := tset s.evc.lines src s.tick } }
  else s

/-- Configuration of a source (R469). -/
def srcCfg (s : State) (src : Nat) : Nat :=
  if src = 1023 then 0xC0010000 else if srcReserved src then 0 else rd s (regEvcSrc src)

/-- Is the source of the fast class? A change of CLASS waits while the source is pending or in service (R470). -/
def srcFast (s : State) (src : Nat) : Bool :=
  match tget? s.evc.oldCls src with
  | some b => b
  | none => bit (srcCfg s src) 30

/-- Is the source in service on some target? -/
def inService (s : State) (src : Nat) : Bool :=
  s.evc.normal.any (fun p => p.2 = src) || s.evc.fast.any (fun p => p.2 = src)

/-- Is the source pending? -/
def isPend (s : State) (src : Nat) : Bool := (tget? s.evc.pend src).isSome

/-- Does the hold-off of the source's group run, for a normal source (R456)? -/
def heldOff (s : State) (src : Nat) : Bool :=
  !(srcFast s src) && (tget? s.evc.holds (src / 16)).isSome

/-- Pending, enabled, not held off and not in service on any target. -/
def presentable (s : State) (src : Nat) : Bool :=
  isPend s src && bit (srcCfg s src) 31 && !(heldOff s src) && !(inService s src)

/-- The stack entry of target `t` for a class. -/
def stackOf (s : State) (fast : Bool) (t : Nat) : Option Nat :=
  if fast then tget? s.evc.fast t else tget? s.evc.normal t

/-- Enabled and not masking the source in its class: the conditions of R457 that firmware sets. -/
def unmasked (s : State) (src t : Nat) : Bool :=
  let m := if srcFast s src then rd s (regEvcFmask t) else rd s (regEvcMask t)
  bit (srcCfg s src) t && bit (rd s (regEvcTgt t)) 0 && !(bit m 31) && decide (bits m 9 0 < src)

/-- Is target `t` asleep? -/
def asleep (s : State) (t : Nat) : Bool := (tget? s.evc.sleep t).isSome

/-- Eligibility of a target for a source (R457). -/
def eligible (s : State) (src t : Nat) : Bool :=
  unmasked s src t && !(asleep s t) && (stackOf s (srcFast s src) t).isNone

/-- Eligibility of a target for source 1,023, which ignores the mask registers and the TGT mask (R605). -/
def eligibleFault (s : State) (t : Nat) : Bool :=
  (tget? s.evc.fault t).isSome && bit (rd s (regEvcTgt t)) 0 && !(asleep s t) && (tget? s.evc.fast t).isNone

/-- Does an offer stand (R459)? -/
def offerStands (s : State) (o : Nat × Nat) : Bool :=
  if o.1 = 1023 then eligibleFault s o.2 else presentable s o.1 && eligible s o.1 o.2

/-- Is the source offered to some target? -/
def offered (s : State) (src : Nat) : Bool := s.evc.offers.any (fun o => o.1 = src)

/-- One delivery attempt (R458, R460). -/
def attempt (s : State) (src : Nat) : State :=
  if presentable s src && !(offered s src) then
    let ptr := if srcFast s src then s.evc.rrF else s.evc.rrN
    match ((List.range 16).map (fun i => (ptr + 1 + i) % 16)).find? (fun t => eligible s src t) with
    | some t =>
      let e := { s.evc with offers := s.evc.offers ++ [(src, t)] }
      { s with evc := if srcFast s src then { e with rrF := t } else { e with rrN := t } }
    | none =>
      if (List.range 16).any (fun t => unmasked s src t) then s else sticky s regEvcStatus 1
  else s

/-- The offer of source 1,023 to a target for which it is pending (R605). -/
def attemptFault (s : State) (t : Nat) : State :=
  if eligibleFault s t && !(s.evc.offers.any (fun o => o = (1023, t))) then
    { s with evc := { s.evc with offers := s.evc.offers ++ [(1023, t)] } }
  else s

/-- Withdraws the offers that no longer stand (R459) and makes the delivery attempts of R458 in descending source
number: of the withdrawn and the named sources, or (`all`) of every pending source, as after a change of eligibility. -/
def settle (s : State) (all : Bool) (srcs : List Nat) : State :=
  let gone := (s.evc.offers.filter (fun o => !(offerStands s o))).map (fun o => o.1)
  let s1 := { s with evc := { s.evc with offers := s.evc.offers.filter (fun o => offerStands s o) } }
  let want := s1.evc.pend.reverse.map (fun p => p.1)
  let want := if all then want else want.filter (fun x => gone.contains x || srcs.contains x)
  let s2 := (List.range 16).foldl attemptFault s1
  want.foldl attempt s2

/-- A class change that waited takes effect once the source is neither pending nor in service (R470). -/
def releaseClass (s : State) (src : Nat) : State :=
  if isPend s src || inService s src then s
  else { s with evc := { s.evc with oldCls := terase s.evc.oldCls src } }

/-- WAKE_REQ: a presentable source without an offer could go to a target that is enabled, unmasking and asleep (R460). Source
1,023 counts for each sleeping target for which it is pending (DESIGN CHOICE, log entry 79: R605 lets it ignore the masks). -/
def wakeReq (s : State) : Bool :=
  s.evc.pend.any (fun p => presentable s p.1 && !(offered s p.1) &&
    (List.range 16).any (fun t => unmasked s p.1 t && asleep s t)) ||
  s.evc.fault.any (fun p => bit (rd s (regEvcTgt p.1)) 0 && asleep s p.1)

/-- IRQ_N[t] is asserted (R461). -/
def irq (s : State) (t : Nat) : Bool := s.evc.offers.any (fun o => decide (o.2 = t) && !(srcFast s o.1))

/-- FIQ_N[t] is asserted (R461). -/
def fiq (s : State) (t : Nat) : Bool := s.evc.offers.any (fun o => decide (o.2 = t) && srcFast s o.1)

/-! ### Commands -/

/-- The filter of a source's line has passed: the pending bit sets (R452, R453). -/
def filterExpiry (s : State) (src : Nat) : State :=
  match tget? s.evc.lines src with
  | some t0 =>
    if due s t0 (max 1 (bits (srcCfg s src) 23 16)) then
      let s := { s with evc := { s.evc with lines := terase s.evc.lines src, pend := tset s.evc.pend src () } }
      settle s false [src]
    else s
  | none => s

/-- SOURCE_FILTER_EXPIRY (R452). -/
def execSourceFilterExpiry (src : Source) (s : State) : Out := ok (filterExpiry s src.val)

/-- The highest-numbered source of a class offered to a target. -/
def topOffer (s : State) (fast : Bool) (t : Nat) : Option Nat :=
  ((s.evc.offers.filter (fun o => decide (o.2 = t) && (srcFast s o.1 == fast))).map (fun o => o.1)).max?

/-- A claim read of one bank (R462, R605). -/
def claim (s : State) (fast : Bool) (t : Nat) : State :=
  match stackOf s fast t, topOffer s fast t with
  | none, some src =>
    let e := s.evc
    let e := if fast then { e with fast := tset e.fast t src } else { e with normal := tset e.normal t src }
    let e := if src = 1023 then { e with fault := terase e.fault t, offers := e.offers.filter (fun o => o ≠ (1023, t)) }
      else { e with pend := terase e.pend src, offers := e.offers.filter (fun o => o.1 ≠ src) }
    settle { s with evc := e, cpResp := 0, cpRdata := w32 src } true []
  | _, _ => { s with cpResp := 0, cpRdata := 0 }

/-- A read of EVC_CLAIMt. -/
def execEvcClaim (t : Target) (s : State) : Out := ok (cpRead s (fun s => claim s false t.val))

/-- A read of EVC_FCLAIMt. -/
def execEvcFclaim (t : Target) (s : State) : Out := ok (cpRead s (fun s => claim s true t.val))

/-- The fields of EVC_FAULT_LOG. -/
def faultLogWord (t fast normal : Nat) : Nat := 2 ^ 31 + t * 2 ^ 20 + fast * 2 ^ 10 + normal

/-- A stack fault of target `t` whose fast entry holds `f` (R465). -/
def stackFault (s : State) (t f : Nat) : State :=
  let n := tget s.evc.normal t 0
  let w := faultLogWord t f n
  let s := wr (wr s regEvcFaultLog w) (regEvcTfault t) w
  let s := sticky s regEvcStatus 3
  let e := { s.evc with fast := terase s.evc.fast t, normal := terase s.evc.normal t, fault := tset s.evc.fault t () }
  let s := releaseClass (releaseClass { s with evc := e } f) n
  settle s true []

/-- The retirement of a normal source starts its group's hold-off (R456). -/
def startHold (s : State) (src : Nat) : State :=
  let us := rdf s (regEvcHoldoff (src / 16)) 15 0
  if us = 0 then s
  else { s with evc := { s.evc with holds := tset s.evc.holds (src / 16) (s.tick + 100 * us) } }

/-- A write to EVC_COMPLETEt (R463 to R465). -/
def completeNormal (s : State) (t src : Nat) : State :=
  match tget? s.evc.fast t with
  | some f => stackFault s t f
  | none =>
    if tget? s.evc.normal t = some src then
      let s := { s with evc := { s.evc with normal := terase s.evc.normal t } }
      let s := releaseClass (startHold s src) src
      settle s true []
    else sticky s regEvcStatus 2

/-- A write to EVC_FCOMPLETEt (R463). -/
def completeFast (s : State) (t src : Nat) : State :=
  if tget? s.evc.fast t = some src then
    let s := { s with evc := { s.evc with fast := terase s.evc.fast t } }
    settle (releaseClass s src) true []
  else sticky s regEvcStatus 2

/-- EVC_COMPLETE. -/
def execEvcComplete (t : Target) (src : Source) (s : State) : Out :=
  ok (cpWrite s (fun s => completeNormal s t.val src.val))

/-- EVC_FCOMPLETE. -/
def execEvcFcomplete (t : Target) (src : Source) (s : State) : Out :=
  ok (cpWrite s (fun s => completeFast s t.val src.val))

/-- The sources that a write of ones to a pending register of bank `fast` acts on (R454). -/
def bankSources (s : State) (fast : Bool) (i : Nat) (ones : Nat) : List Nat :=
  ((List.range 32).map (fun j => 32 * i + j)).filter (fun src =>
    bit ones (src % 32) && srcUsable src && (srcFast s src == fast))

/-- Firmware sets pending bits (R454). -/
def pendSet (s : State) (fast : Bool) (i ones : Nat) : State :=
  let l := bankSources s fast i ones
  let new := l.filter (fun x => !(isPend s x))
  settle { s with evc := { s.evc with
    pend := l.foldl (fun p x => tset p x ()) s.evc.pend,
                                      lines := l.foldl terase s.evc.lines } } false new

/-- Firmware clears pending bits (R454). -/
def pendClear (s : State) (fast : Bool) (i ones : Nat) : State :=
  let l := bankSources s fast i ones
  let s := { s with evc := { s.evc with pend := l.foldl terase s.evc.pend } }
  settle (l.foldl releaseClass s) false []

/-- EVC_PSET. -/
def execEvcPset (i : Chan) (ones : Word) (s : State) : Out :=
  ok (cpWrite s (fun s => pendSet s false i.val ones.toNat))

/-- EVC_FPSET. -/
def execEvcFpset (i : Chan) (ones : Word) (s : State) : Out :=
  ok (cpWrite s (fun s => pendSet s true i.val ones.toNat))

/-- EVC_PEND_CLEAR. -/
def execEvcPendClear (i : Chan) (ones : Word) (s : State) : Out :=
  ok (cpWrite s (fun s => pendClear s false i.val ones.toNat))

/-- EVC_FPEND_CLEAR. -/
def execEvcFpendClear (i : Chan) (ones : Word) (s : State) : Out :=
  ok (cpWrite s (fun s => pendClear s true i.val ones.toNat))

/-- A write to EVC_SRCs (R455, R470). -/
def srcWrite (s : State) (src v : Nat) : State :=
  if srcUsable src then
    let was := srcFast s src
    let busy := isPend s src || inService s src
    let s := wr s (regEvcSrc src) (v &&& 0xC0FFFFFF)
    let s := if busy && (bit v 30 != was) then
        { s with evc := { s.evc with oldCls := tset s.evc.oldCls src was } }
      else { s with evc := { s.evc with oldCls := terase s.evc.oldCls src } }
    settle s false [src]
  else s

/-- EVC_SRC_WRITE. -/
def execEvcSrcWrite (src : Source) (value : Word) (s : State) : Out :=
  ok (cpWrite s (fun s => srcWrite s src.val value.toNat))

/-- HOLDOFF_EXPIRY (R456): the group's pending sources become presentable together. -/
def holdoffExpiry (s : State) (g : Nat) : State :=
  match tget? s.evc.holds g with
  | some t =>
    if t ≤ s.tick then
      settle { s with evc := { s.evc with holds := terase s.evc.holds g } } false
        ((List.range 16).map (fun i => 16 * g + i))
    else s
  | none => s

/-- HOLDOFF_EXPIRY. -/
def execHoldoffExpiry (g : Fin 64) (s : State) : Out := ok (holdoffExpiry s g.val)

/-- TGT_SLEEP_CHANGE (R457, R459, R460, R573). -/
def tgtSleep (s : State) (t : Nat) (level : Bool) : State :=
  let e := { s.evc with sleep := if level then tset s.evc.sleep t () else terase s.evc.sleep t }
  settle { s with evc := e } true []

/-- TGT_SLEEP_CHANGE. -/
def execTgtSleepChange (t : Target) (level : Bool) (s : State) : Out := ok (tgtSleep s t.val level)

end Sys2Proof.Machine
end

