-- ==== Sys2Proof/Machine/Flags.lean ====
section
/-! DEFINITION. The sticky status registers: each set with its occurrence counter and the event that goes with it. -/

namespace Sys2Proof.Machine

/-- GLB_CFG_STATUS: 0 STAGE_REFUSED, 1 LOG_FULL, 2 RELOAD, 3 AUDIT_MISMATCH, 4 IMAGE_CHANGED (R505). -/
def cfgFlag (s : State) (b : Nat) : State := sticky s regGlbCfgStatus b

/-- GLB_FAULT_STATUS: 0 DETECT, 1 UNRECOV, 2 RETIRE, 3 SPARES_OUT, 4 WITHDRAWN, 5 BLOCK_FAULT; every set of bits 1 to 5
raises source 1,019 (R524). -/
def faultFlag (s : State) (b : Nat) : State :=
  let s := sticky s regGlbFaultStatus b
  if b = 0 then s else raise s 1019

/-- PWR_STATUS: 0 HELD, 1 ABORT, 2 HS_TIMEOUT, 3 IMG_FAIL (R543); bits 1 to 3 raise source 945 (R527, R531, R537). -/
def pwrFlag (s : State) (b : Nat) : State :=
  let s := sticky s regPwrStatus b
  if b = 0 then s else raise s 945

/-- BOOT_STATUS: 0 TIMEBASE, 1 UNMATCHED, 2 OA_NONE, 3 OA_FALLBACK (R597). -/
def bootFlag (s : State) (b : Nat) : State := sticky s regBootStatus b

/-- PHY_STATUS of a channel: 0 LINK_FAIL, 1 ERR_BURST, 2 TRAIN_FAIL, 3 STEP_DOWN, 4 CE_DROPPED, 5 FENCED, 6 ZQ_FAIL,
7 PLL_UNLOCK (R224). -/
def phyFlag (s : State) (c b : Nat) : State := sticky s (regPhyStatus c) b

/-- ENG_MC_STATUS of an engine: 0 PARITY, 1 DISPATCH, 2 OVERRUN, 3 ILLEGAL, 4 STACK, 5 HALTED (R506). -/
def engFlag (s : State) (e b : Nat) : State := sticky s (regEngMcStatus e) b

/-- CSQ_STATUS of a channel: 0 LUN_TIMEOUT, 1 SUSP_CAP, 2 HOLD_ABANDON, 3 RAW_REFUSED (R195). -/
def csqFlag (s : State) (c b : Nat) : State := sticky s (regCsqStatus c) b

/-- WP_STATUS: 0 WP_HIT, 1 OA_KEY (R196). -/
def wpFlag (s : State) (b : Nat) : State := sticky s regWpStatus b

/-- HOP_STATUS: 0 OZT_FULL, 1 SLICE_FULL, 2 STG_WAIT (R132). -/
def hopFlag (s : State) (b : Nat) : State := sticky s regHopStatus b

/-- STE_STATUS of a quadrant: 0 SLOT_WAIT, 1 SLOT_CHECK, 2 SLOT_FAIL (R306). -/
def steFlag (s : State) (q b : Nat) : State := sticky s (regSteStatus q) b

/-- DEC_STATUS of a decoder pool: 0 MEM_CHECK, 1 QUEUE_FULL (R267). -/
def decFlag (s : State) (p b : Nat) : State := sticky s (regDecStatus p) b

/-- DEC_PI_STATUS: 0 WR_PI, 1 BUF_CHANGED, 2 MISCORRECT, 3 HDR_MISMATCH, 4 ENC_CHECK, 5 ERASED_LOW; every set raises the
integrity event (R266, R267). -/
def decPiFlag (s : State) (b : Nat) : State := raise (sticky s regDecPiStatus b) 1014

/-- JRN_STATUS: 0 PFAIL, 1 COPY_DROP, 2 HOLE, 3 WINDOW_FULL, 4 SINGLE_COPY, 5 PLACE_BAD, 6 SPARE_NONE, 7 DISCARD_REFUSED;
bits 1 to 6 raise the journal event (R305, R450). -/
def jrnFlag (s : State) (b : Nat) : State :=
  let s := sticky s regJrnStatus b
  if 1 ≤ b ∧ b ≤ 6 then raise s 1012 else s

/-- JRN_MAINT_STATUS: 0 JOINED, 1 SPARE_SHORT, 2 LOST_RANGE, 3 LOST_FULL; bit 2 raises the lost-range event (R335, R345). -/
def maintFlag (s : State) (b : Nat) : State :=
  let s := sticky s regJrnMaintStatus b
  if b = 2 then raise s 1011 else s

/-- GOV_STATUS: 0 THROTTLE, 1 EXHAUSTED, 2 STALE, 3 CRIT; the last two raise the thermal event (R357, R358, R380). -/
def govFlag (s : State) (b : Nat) : State :=
  let s := sticky s regGovStatus b
  if 2 ≤ b then raise s 1016 else s

/-- GLB_AGE_STATUS: 0 WARN, 1 RETIRED, 2 NO_SPARE, 3 ADVICE, 4 ADVICE_LOST, 5 AR_CHECK, 6 FURL_SKIP, 7 SCRUB_FIND, with the
wear, advice and scrub events (R394, R398, R407, R450). -/
def ageFlag (s : State) (b : Nat) : State :=
  let s := sticky s regGlbAgeStatus b
  if b ≤ 1 then raise s 1008 else if b = 3 then raise s 1007 else if b = 7 then raise s 1006 else s

/-- TREF_LOST is set (R31): the tick counter and the timers stop, the governor admits nothing more, source 1,018 is raised. -/
def trefLost (s : State) : State :=
  raise { sticky s regGlbTbStatus 0 with trefStop := true, gov := { s.gov with stopped := true } } 1018

/-- GLB_PACE.VALID: COUNT holds a complete window, and TREF_LOST is 0 (R30). -/
def paceValid (s : State) : Bool := bit (rd s regGlbPace) 31 && !(bit (rd s regGlbTbStatus) 0)

end Sys2Proof.Machine
end

