-- ==== Sys2Proof/Machine/Ports.lean ====
section
/-! DEFINITION. Memory ports (chapter DMA, Memory Ports and Trace FIFOs): transfers cut into bursts, the order in
which bursts go, beats, repeats and timeouts. Trace FIFOs and buffer pools stand here too. -/

namespace Sys2Proof.Machine

/-! ### Transfers and bursts -/

/-- One memory port. -/
def port (s : State) (n : Nat) : PortSt := tget s.ports n {}

/-- A memory port changed. -/
def modPort (s : State) (n : Nat) (f : PortSt → PortSt) : State := { s with ports := tmod s.ports n {} f }

/-- A span cut at 2,048-byte boundaries (R427): address and bytes of each burst. -/
def cutSpan : Nat → Nat → Nat → List (Nat × Nat)
  | 0, _, _ => []
  | f + 1, a, l =>
    if l = 0 then [] else
      let n := min l (2048 - a % 2048)
      (a, n) :: cutSpan f (a + n) (l - n)

/-- Beats of a burst: from its first address rounded down to its end rounded up (R427). -/
def beatsOf (a l : Nat) : Nat := (a % 64 + l + 63) / 64

/-- Who a transfer serves, and how. -/
structure XferSpec where
  port     : Nat
  write    : Bool
  clsA     : Bool
  grp      : Nat
  deadline : Option Nat
  real     : Bool
  purpose  : Purpose

/-- The bursts of the spans of a transfer; a span is a descriptor index, an address, its length and its bytes. -/
def spanBursts (x : XferSpec) (xid seq : Nat) : Nat → List (Nat × Nat × Nat × List Byte) → List Burst
  | _, [] => []
  | pos, (d, a, l, bs) :: r =>
    ((cutSpan (l / 2048 + 2) a l).map (fun (p : Nat × Nat) =>
      { xid := xid, pos := pos + (p.1 - a), desc := d, write := x.write, clsA := x.clsA, grp := x.grp,
        deadline := x.deadline, real := x.real, addr := p.1, len := p.2,
        data := if x.write then slice bs (p.1 - a) p.2 else [], seq := seq : Burst }))
      ++ spanBursts x xid seq (pos + l) r

/-- A new transfer, its bursts waiting at its port (R417 to R419, R427). -/
def startXfer (s : State) (x : XferSpec) (spans : List (Nat × Nat × Nat × List Byte)) : State :=
  let (xid, s) := fresh s
  let bs := spanBursts x xid xid 0 spans
  let xf : Xfer := { xid := xid, port := x.port, purpose := x.purpose, left := bs.length,
                     beats := if x.write then (bs.map (fun b => beatsOf b.addr b.len)).sum else 0 }
  let s := { s with xfers := s.xfers ++ [xf] }
  modPort s x.port (fun p => { p with waiting := p.waiting ++ bs })

/-- A deadline as an order: none comes last. -/
def dlKey (d : Option Nat) : Nat := match d with | some t => t | none => 2 ^ 64

/-- The weight of group `g` (DMA_WEIGHT; 0 acts as 1). -/
def weight (s : State) (g : Nat) : Nat := max 1 (rdf s regDmaWeight (8 * g + 7) (8 * g))

/-- The elements of a list with the least key. -/
def leastOf {α : Type} (key : α → Nat) (l : List α) : List α :=
  match minBy key l with
  | some m => l.filter (fun x => decide (key x = key m))
  | none => []

/-- The burst of a list that goes first: by deadline, the older request on equal deadlines (R419). -/
def firstBurst (l : List Burst) : Option Burst :=
  minBy (fun b => b.pos) (leastOf (fun b => b.seq) (leastOf (fun b => dlKey b.deadline) l))

/-- Weighted round robin (R419): the group that issues next and the bursts issued of it in this round, that one
included. `n` groups remain to be tried. -/
def pickGroup (s : State) (p : PortSt) : Nat → Nat → Nat → Option (Nat × Nat)
  | 0, _, _ => none
  | n + 1, g, credit =>
    if p.waiting.any (fun b => !b.clsA && decide (b.grp = g)) && decide (credit < weight s g) then some (g, credit + 1)
    else pickGroup s p n ((g + 1) % 4) 0

/-- The burst that a port issues next (R418, R419, R375), with the round-robin position after it. -/
def nextBurst (s : State) (p : PortSt) : Option (Burst × Nat × Nat) :=
  match firstBurst (p.waiting.filter (fun b => b.clsA)) with
  | some b => some (b, p.group, p.credit)
  | none =>
    match pickGroup s p 5 p.group p.credit with
    | some (g, c) => (firstBurst (p.waiting.filter (fun b => !b.clsA && decide (b.grp = g)))).map (fun b => (b, g, c))
    | none => none

/-- The urgency hint (R374). -/
def urgency (s : State) (b : Burst) : Nat :=
  match b.deadline, b.real with
  | some d, true =>
    if d < s.tick + rdf s regGovUrg 15 0 then 3 else if d < s.tick + rdf s regGovUrg 31 16 then 2 else 1
  | _, _ => 0

/-- The lowest tag that is neither outstanding nor quarantined (R429, R549). -/
def freeTag (p : PortSt) : Option Nat :=
  (List.range 64).find? (fun t => !(p.out.any (fun o => o.tag = t)) && (tget? p.quar t).isNone)

/-- Are bursts of a transfer the same burst? -/
def sameBurst (a b : Burst) : Bool := decide (a.xid = b.xid) && decide (a.pos = b.pos) && decide (a.addr = b.addr)

/-- A port raises its next request (R418, R419, R431, R549, R555). -/
def burstIssue (s : State) (n : Nat) : State :=
  let p := port s n
  if s.memHold || p.raised.isSome || decide (63 ≤ p.out.length) || !s.porstN || !s.srstN then s
  else match freeTag p, nextBurst s p with
    | some tag, some (b, g, c) =>
      modPort s n (fun p => { p with
        waiting := p.waiting.filter (fun w => !(sameBurst w b)),
        out := p.out ++ [{ tag := tag, burst := b, urg := urgency s b, since := s.tick }],
        raised := some tag, group := g, credit := c })
    | _, _ => s

/-- An outstanding burst of a port changed. -/
def modOut (s : State) (n tag : Nat) (f : OutBurst → OutBurst) : State :=
  modPort s n (fun p => { p with out := modFirst (fun o => o.tag = tag) f p.out })

/-- The SoC accepts the raised request (R549), or one that the gasket holds (R557). -/
def requestAccept (s : State) (n : Nat) : State :=
  let p := port s n
  match p.raised with
  | some tag =>
    let s := modPort s n (fun p => { p with
      raised := none,
      gasket := modFirst (fun o => o.tag = tag) (fun o => { o with acked := true }) p.gasket })
    modOut s n tag (fun o => { o with acked := true, since := s.tick })
  | none => s

/-- A write burst with beats still to send. -/
def unsent (o : OutBurst) : Bool := o.acked && o.burst.write && decide (o.sent < beatsOf o.burst.addr o.burst.len)

/-- The burst whose write beat goes next (R418): the open class A burst, else the oldest accepted class A burst, and
the same for class B while no class A beat waits. -/
def nextWrite (p : PortSt) : Option OutBurst :=
  match p.out.filter (fun o => unsent o && o.burst.clsA) with
  | a :: r => some (((a :: r).find? (fun o => p.openA = some o.tag)).getD a)
  | [] =>
    match p.out.filter (fun o => unsent o && !o.burst.clsA) with
    | b :: r => some (((b :: r).find? (fun o => p.openB = some o.tag)).getD b)
    | [] => none

/-- A transfer changed. -/
def modXfer (s : State) (xid : Nat) (f : Xfer → Xfer) : State :=
  { s with xfers := modFirst (fun x => x.xid = xid) f s.xfers }

/-- The transfer with a number. -/
def xfer? (s : State) (xid : Nat) : Option Xfer := s.xfers.find? (fun x => x.xid = xid)

/-- The SoC accepts a write beat (R418, R430, R550); in reset the gasket sends it disabled (R557). -/
def writeBeat (s : State) (n : Nat) : State :=
  let p := port s n
  match p.gasket.find? (fun o => unsent o) with
  | some g => modPort s n (fun p => { p with
      gasket := modFirst (fun o => o.tag = g.tag) (fun o => { o with sent := o.sent + 1 }) p.gasket })
  | none =>
    match nextWrite p with
    | some o =>
      let last := decide (o.sent + 1 = beatsOf o.burst.addr o.burst.len)
      let s := modOut s n o.tag (fun o => { o with sent := o.sent + 1, since := s.tick })
      let s := modPort s n (fun p => if o.burst.clsA then { p with openA := if last then none else some o.tag }
        else { p with openB := if last then none else some o.tag })
      let s := modXfer s o.burst.xid (fun x => { x with beats := x.beats - 1 })
      bump s (regMemPortBeats n) 31 0 1
    | none => s

/-- Address of beat `i` of a burst. -/
def beatAddr (b : Burst) (i : Nat) : Nat := b.addr / 64 * 64 + 64 * i

/-- The part of a burst's bytes that beat `i` carries: position within the burst and count. -/
def beatPart (b : Burst) (i : Nat) : Nat × Nat :=
  let lo := max b.addr (beatAddr b i)
  let hi := min (b.addr + b.len) (beatAddr b i + 64)
  (lo - b.addr, hi - lo)

/-- How a transfer ended, and the port that carried it. -/
structure Ended where
  xfer : Xfer
  stat : XferEnd

/-- A transfer leaves the ports with its end; the bursts of it that still wait are dropped. -/
def endXfer (s : State) (xid : Nat) (e : XferEnd) : State × Option Ended :=
  match xfer? s xid with
  | some x =>
    let s := { s with xfers := s.xfers.filter (fun y => y.xid ≠ xid) }
    let s := modPort s x.port (fun p => { p with waiting := p.waiting.filter (fun b => b.xid ≠ xid) })
    let s := if e = .ok then s else raise s (992 + x.port)
    (s, some ⟨x, e⟩)
  | none => (s, none)

/-- Transfers given up: what of them has not been issued leaves the ports; beats already under way end unread. -/
def cancelXfers (s : State) (gone : Xfer → Bool) : State :=
  let ids := (s.xfers.filter gone).map (fun x => x.xid)
  { s with
    xfers := s.xfers.filter (fun x => !(gone x)),
    ports := s.ports.map (fun p => (p.1, { p.2 with waiting := p.2.waiting.filter (fun b => !(ids.contains b.xid)) })) }

/-! ### Trace FIFOs -/

/-- A trace FIFO. -/
def traceSt (s : State) (k : Nat) : TraceSt := tget s.traces k {}

/-- Words in use: the pointers have 15 bits (R443). -/
def traceLevel (t : TraceSt) : Nat := (t.wr + 2 ^ 15 - t.rd) % 2 ^ 15

/-- A word stored with bit 31 set (R441). -/
def traceStore (t : TraceSt) (w : Nat) : TraceSt :=
  { t with mem := tset t.mem (t.wr % 2 ^ 14) (2 ^ 31 + w % 2 ^ 31), wr := (t.wr + 1) % 2 ^ 15 }

/-- A trace packet of source `src`, written where the mask lets it and there is room (R441, R442). -/
def trace (s : State) (k src arg : Nat) (payload : List Nat) : State :=
  if bit (rd s (regTrcMask k)) src then
    let t := traceSt s k
    if 2 ^ 14 - traceLevel t < 17 then
      let s := { s with traces := tset s.traces k { t with drops := min 65535 (t.drops + 1) } }
      bump (sticky s (regTrcStatus k) 0) (regTrcDrops k) 15 0 1
    else
      let empty := decide (traceLevel t = 0)
      let t := if t.drops = 0 then t else { traceStore t (2 ^ 30 + t.drops) with drops := 0 }
      let t := traceStore t (src * 2 ^ 25 + (2 + payload.length) * 2 ^ 20 + arg % 2 ^ 20)
      let t := payload.foldl traceStore (traceStore t s.tick)
      { s with traces := tset s.traces k (if empty then { t with lastRead := s.tick } else t) }
  else s

/-! ### Response beats -/

/-- The erring beat of a burst logged (R599). -/
def logBeat (s : State) (n a : Nat) : State := wr (wr s (regMemPortErrLo n) a) (regMemPortErrHi n) (a / 2 ^ 32)

/-- A burst that erred is traced, once its port's status says how it went on (R440). -/
def traceBurst (s : State) (n a : Nat) : State := trace s (n / 2) 5 n [rd s (regMemPortStatus n), a]

/-- All beats of an outstanding burst are answered: it ends well, is issued again, or ends its transfer (R428, R430). -/
def finishBurst (s : State) (n : Nat) (o : OutBurst) : State × Option Ended :=
  let b := o.burst
  let s := modPort s n (fun p => { p with out := p.out.filter (fun x => x.tag ≠ o.tag) })
  match o.bad with
  | none =>
    match xfer? s b.xid with
    | some x =>
      let s := modXfer s b.xid (fun x => { x with
        left := x.left - 1,
        data := if b.write then x.data else x.data ++ [(b.pos, o.got)] })
      if x.left ≤ 1 then endXfer s b.xid x.stat else (s, none)
    | none => (s, none)
  | some (i, late) =>
    if late then
      let s := traceBurst (sticky s (regMemPortStatus n) 3) n (beatAddr b i)
      match xfer? s b.xid with
      | some x =>
        let e := if x.stat = .ok then XferEnd.lastBeat b.desc (beatAddr b i) i else x.stat
        let s := modXfer s b.xid (fun x => { x with left := x.left - 1, stat := e })
        if x.left ≤ 1 then endXfer s b.xid e else (s, none)
      | none => (s, none)
    else if b.repeats < rdf s regMemCfg 3 0 then
      let s := traceBurst (sticky s (regMemPortStatus n) 0) n (beatAddr b i)
      let s := modXfer s b.xid (fun x => { x with beats := if b.write then x.beats + beatsOf b.addr b.len else x.beats })
      (modPort s n (fun p => { p with waiting := { b with repeats := b.repeats + 1 } :: p.waiting }), none)
    else
      let s := traceBurst (sticky s (regMemPortStatus n) 1) n (beatAddr b i)
      endXfer s b.xid (.error b.desc (beatAddr b i) i)

/-- A response beat arrives (R428, R429, R551 to R553). -/
def responseBeat (s : State) (n tag stat : Nat) (data : List Byte) (crc : Nat) : State × Option Ended :=
  let p := port s n
  match p.gasket.find? (fun o => o.tag = tag) with
  | some o =>
    let o := { o with answered := o.answered + 1 }
    (modPort s n (fun p => { p with
      gasket :=
      if o.answered ≥ beatsOf o.burst.addr o.burst.len then p.gasket.filter (fun x => x.tag ≠ tag)
      else modFirst (fun x => x.tag = tag) (fun _ => o) p.gasket }), none)
  | none =>
  match tget? p.quar tag with
  | some owed =>
    (modPort s n (fun p => { p with quar := if owed ≤ 1 then terase p.quar tag else tset p.quar tag (owed - 1) }), none)
  | none =>
  match p.out.find? (fun o => decide (o.tag = tag) && o.acked) with
  | none => (s, none)
  | some o =>
    let b := o.burst
    let i := o.answered
    let d := slice data 0 64
    let err := decide (stat ≠ 0) || (!b.write && decide (crc16 d ≠ crc))
    let part := beatPart b i
    let s := if err then logBeat s n (beatAddr b i)
      else if b.write then dramWrite s (b.addr + part.1) (slice b.data part.1 part.2) else s
    let s := if b.write then s else bump s (regMemPortBeats n) 31 0 1
    let late := b.write && decide (((xfer? s b.xid).map (fun x => x.beats)).getD 0 = 0)
    let o := { o with
      answered := i + 1, since := s.tick,
                      got := if b.write then o.got else o.got ++ slice d (b.addr + part.1 - beatAddr b i) part.2,
                      bad := if err && o.bad.isNone then some (i, late) else o.bad }
    let s := modOut s n tag (fun _ => o)
    if i + 1 ≥ beatsOf b.addr b.len then finishBurst s n o else (s, none)

/-- No acknowledge or status for MEM_TIMEOUT ticks (R429): the transfer ends, the tag is quarantined. -/
def burstTimeout (s : State) (n tag : Nat) : State × Option Ended :=
  let p := port s n
  match p.out.find? (fun o => o.tag = tag) with
  | none => (s, none)
  | some o =>
    if due s o.since (max 1000 (rd s regMemTimeout)) then
      let b := o.burst
      let i := o.answered
      let s := modPort s n (fun p => { p with
        out := p.out.filter (fun x => x.tag ≠ tag),
        raised := if p.raised = some tag then none else p.raised,
        openA := if p.openA = some tag then none else p.openA,
        openB := if p.openB = some tag then none else p.openB,
        quar := tset p.quar tag (beatsOf b.addr b.len - i) })
      let s := traceBurst (sticky (logBeat s n (beatAddr b i)) (regMemPortStatus n) 2) n (beatAddr b i)
      endXfer s b.xid (.timeout b.desc (beatAddr b i) i)
    else (s, none)

/-- MEM_QUIET: no port has a request raised or a burst outstanding (R556). -/
def memQuiet (s : State) : Bool := s.ports.all (fun p => p.2.raised.isNone && p.2.out.isEmpty && p.2.gasket.isEmpty)

/-- A reset falls (R557): requests raised and bursts accepted go to the gasket, everything else is gone. -/
def gasketPort (p : PortSt) : PortSt := { gasket := p.gasket ++ p.out, raised := p.raised }

/-! ### Buffer pool -/

/-- A quadrant's pool state. -/
def pool (s : State) (q : Nat) : PoolSt := tget s.pools q {}

/-- A quadrant's pool state changed. -/
def modPool (s : State) (q : Nat) (f : PoolSt → PoolSt) : State := { s with pools := tmod s.pools q {} f }

/-- Raises the next pool request of a quadrant where none is raised (R559). -/
def poolRaise (s : State) (q : Nat) : State :=
  modPool s q (fun p =>
    match p.raised, p.queue with
    | none, r :: rest => { p with raised := some r, queue := rest }
    | _, _ => p)

/-- A pool request queued and, where the interface is free, raised (R433, R558). -/
def poolAsk (s : State) (q : Nat) (r : PoolReq) : State :=
  poolRaise (modPool s q (fun p => { p with queue := p.queue ++ [r] })) q

/-- The waits of R436. -/
def backoffTicks (n : Nat) : Nat := min 6400 (100 * 2 ^ n)

/-- A refused request waits its turn in the sequence of R436. -/
def poolWait (s : State) (q : Nat) (r : PoolReq) : State :=
  modPool s q (fun p =>
    match p.retryAt with
    | some _ => { p with refused := p.refused ++ [r] }
    | none => { p with refused := p.refused ++ [r], retryAt := some (s.tick + backoffTicks p.backoff), backoff := p.backoff + 1 })

/-- Bytes of a pool buffer (R433). -/
def bufBytes (s : State) : Nat := 4096 * 2 ^ min 6 (rdf s regDmaPoolCfg 23 20)

/-- Pool buffers that hold `n` blocks. -/
def bufCount (s : State) (n : Nat) : Nat := (4096 * n + bufBytes s - 1) / bufBytes s

/-- Address of the `i`-th block that a list of buffers holds. -/
def bufAddr (s : State) (bufs : List Nat) (i : Nat) : Nat :=
  let per := bufBytes s / 4096
  bufs.getD (i / per) 0 + 4096 * (i % per)

/-- The quadrant that took a buffer. -/
def bufQuad (s : State) (a : Nat) : Nat :=
  ((List.range 4).find? (fun q => (pool s q).held.contains a || (pool s q).pooled.contains a)).getD 0

/-- A buffer goes back: a reserve buffer to the reserve, another to the pool (R434, R437). -/
def returnBuf (s : State) (a : Nat) : State :=
  let q := bufQuad s a
  if (pool s q).held.contains a then
    modPool s q (fun p => { p with held := p.held.erase a, reserve := p.reserve ++ [a] })
  else poolAsk (modPool s q (fun p => { p with pooled := p.pooled.erase a })) q (.free a)

/-- A quadrant asks for the buffers of `n` blocks. -/
def askBufs (s : State) (q n : Nat) (who : BufFor) : State :=
  (List.range (bufCount s n)).foldl (fun s _ => poolAsk s q (.take who)) s

/-- What was on its way into someone's buffers is given up. -/
def dropBufXfers (s : State) (who : BufFor) : State :=
  cancelXfers s (fun x => match x.purpose with
    | .bufOut w _ => decide (w = who)
    | _ => false)

end Sys2Proof.Machine
end

