-- ==== Sys2Proof/Machine/Checks.lean ====
section
/-! DEFINITION. Internal memory checks (chapter Internal Memory Checks and the Fault Record): the check of a byte, the
record of a detection, the retirement of lines and the withdrawal of parts. -/

namespace Sys2Proof.Machine

/-- One bit through the CRC-4 register (R507). -/
def crc4Bit (c : Nat) (b : Bool) : Nat :=
  let d := (2 * c) % 16
  if (bit c 3).xor b then d ^^^ 3 else d

/-- The check of a byte in a line (R507): the byte, bit 7 first, then bits 3 to 0 of the line index. -/
def crc4 (byte line : Nat) : Nat :=
  ([7, 6, 5, 4, 3, 2, 1, 0].map (bit byte) ++ [3, 2, 1, 0].map (bit line)).foldl crc4Bit 0

/-- Lines of an instance of a memory (R508). -/
def memLines (code inst : Nat) : Nat :=
  match code with
  | 1 => 8192
  | 2 => 65792
  | 3 => 131072
  | 4 => 1032
  | 5 => if inst % 10 < 8 then 256 else 1024
  | _ => 256

/-- Spare lines of an instance of a memory (R508). -/
def spareLines (code inst : Nat) : Nat :=
  match code with
  | 1 => 16
  | 2 => 32
  | 3 => 128
  | 4 => 4
  | 5 => if inst % 10 < 8 then 2 else 4
  | _ => 2

/-- The key of a memory instance. -/
def memKey (code inst : Nat) : Nat := code * 256 + inst

/-- A memory instance's tracked and retired lines. -/
def memInst (s : State) (code inst : Nat) : MemInst := tget s.mems (memKey code inst) {}

/-- GLB_FAULT_LAST for a detection (R524). -/
def faultWord (code rec_ inst line : Nat) : Nat := 2 ^ 31 + code * 2 ^ 28 + rec_ * 2 ^ 26 + inst * 2 ^ 18 + line

/-- A part is withdrawn for a line that found no spare (R518). A staging slot is the 4,648-byte slot that holds the
line's first byte (R438), an accumulator slot the 263,168-byte one (R24, R508). -/
def withdraw (s : State) (code inst line : Nat) : State :=
  match code with
  | 1 => faultFlag { s with slots := tmod s.slots inst {} (fun x => { x with retired := x.retired + 1 }) } 4
  | 2 => faultFlag { s with banks := tmod s.banks inst {} (fun b => { b with out := tset b.out (line / 4112) () }) } 4
  | 5 => faultFlag { s with decs := tmod s.decs (inst / 10) {} (fun d => { d with out := tset d.out (inst % 10) () }) } 4
  | _ => s

/-- A line is retired onto a free spare line, or its part is withdrawn (R517, R518). A line already mapped onto a spare
line is not mapped again. -/
def retireLine (s : State) (code inst line : Nat) : State :=
  let m := memInst s code inst
  if m.mapped.length < spareLines code inst then
    faultFlag { s with mems := tset s.mems (memKey code inst) { m with
      mapped := m.mapped ++ [line], tracked := m.tracked.filter (fun p => p.1 ≠ line) } } 2
  else withdraw (faultFlag s 3) code inst line

/-- The tracker after a recovery of a line, and whether the line is to be retired (R516). -/
def track (m : MemInst) (now line : Nat) : MemInst × Bool :=
  match m.tracked.find? (fun p => p.1 = line) with
  | some (_, ts) =>
    ({ m with tracked := m.tracked.map (fun p => if p.1 = line then (line, (now :: ts).take 3) else p) },
     decide (ts.length = 3) && decide (now < ts.getLastD 0 + 2 ^ 32))
  | none =>
    let l := if m.tracked.length < 16 then m.tracked
      else match minBy (fun p => p.2.headD 0) m.tracked with
        | some old => m.tracked.filter (fun p => p.1 ≠ old.1)
        | none => m.tracked
    ({ m with tracked := l ++ [(line, [now])] }, false)

/-- A recovered detection (R511, R516, R524): `rec_` is 0 refetch, 1 recompute. -/
def recovered (s : State) (code inst rec_ line : Nat) : State :=
  let s := wr (faultFlag s 0) regGlbFaultLast (faultWord code rec_ inst line)
  let s := bump s regGlbFaultDet 31 16 1
  let (m, out) := track (memInst s code inst) s.tick line
  let s := { s with mems := tset s.mems (memKey code inst) m }
  if out then retireLine s code inst line else s

/-- A detection that could not be recovered (R511, R524). -/
def unrecovered (s : State) (code inst rec_ line : Nat) : State :=
  let w := faultWord code rec_ inst line
  let s := bump (wr (faultFlag s 1) regGlbFaultLast w) regGlbFaultDet 15 0 1
  if bit (rd s regGlbFaultFirst) 31 then s else wr s regGlbFaultFirst w

/-- A detection in a line that the command does not name: the line is a free value (log entry 8). -/
def recoveredAny (s : State) (code inst rec_ : Nat) : State :=
  let (v, s) := freeVal s
  recovered s code inst rec_ (v % memLines code inst)

/-- The same for a detection that could not be recovered. -/
def unrecoveredAny (s : State) (code inst rec_ : Nat) : State :=
  let (v, s) := freeVal s
  unrecovered s code inst rec_ (v % memLines code inst)

/-- Spare lines in use in the instances of a memory, saturating (R524). -/
def sparesUsed (s : State) (code : Nat) : Nat :=
  min 255 (((s.mems.filter (fun p => p.1 / 256 = code)).map (fun p => p.2.mapped.length)).sum)

end Sys2Proof.Machine
end

