-- ==== Sys2Proof/Machine/Zones.lean ====
section
/-! DEFINITION. Zones and layouts (chapter Zones, Layouts and the Hopper): die-model geometry, zone entries and their
extension entries, where a member lies, the state a zone is in, and the journal's acceptance of entries. -/

namespace Sys2Proof.Machine

/-! ### Configuration tables -/

/-- Has a unit switched in the commit in progress? -/
def unitSwitched (s : State) (u : Nat) : Bool := (tget? s.cfg.switched u).isSome

/-- The slot of a unit that work stamped with a generation runs under (R493, R494). -/
def slotAt (s : State) (unit gen : Nat) : Slot :=
  if s.cfg.commitCid.isSome then
    if gen = s.cfg.nextGen then
      if unitSwitched s unit then tget s.cfg.cur unit {} else tget s.cfg.next unit {}
    else if unitSwitched s unit then tget s.cfg.prev unit {} else tget s.cfg.cur unit {}
  else if s.cfg.draining && decide (gen = s.cfg.prevGen) && decide (gen ≠ s.cfg.curGen) then tget s.cfg.prev unit {}
  else tget s.cfg.cur unit {}

/-- The current generation. -/
def genNow (s : State) : Nat := s.cfg.curGen

/-- The die-model entry `i` of a channel's sequencer (R134). -/
def dieAt (s : State) (ch i : Nat) : List Byte := tget (slotAt s ch (genNow s)).dies i []

/-- The die-model entry of a LUN (R135). -/
def dieOf (s : State) (g : Nat) : List Byte :=
  match lun? s g with
  | some l => dieAt s (chOf g) l.model
  | none => []

/-- Fields of a die model (R134). -/
def dmFlags (d : List Byte) : Nat := fieldAt d 0x06 2
def dmPlanes (d : List Byte) : Nat := max 1 (fieldAt d 0x08 1)
def dmBits (d : List Byte) : Nat := max 1 (fieldAt d 0x09 1)
def dmWlb (d : List Byte) : Nat := max 1 (fieldAt d 0x0A 2)
def dmBpp (d : List Byte) : Nat := fieldAt d 0x0C 2
def dmCwpp (d : List Byte) : Nat := max 1 (fieldAt d 0x0E 1)
def dmByte (d : List Byte) (o : Nat) : Byte := (slice d o 1).headD 0

/-- Typical and greatest array time of an operation type. -/
def dmTime (d : List Byte) (t : OpType) (isMax : Bool) : Nat :=
  let o := match t with
    | .read => 0x30 | .prog => 0x38 | .slc => 0x40 | .erase => 0x48 | .rawSeq => 0x48
  fieldAt d (o + if isMax then 4 else 0) 4

/-! ### Layouts -/

/-- The die model of a layout, as the sequencer of its first LUN holds it. -/
def layDie (s : State) (lt : Layout) : List Byte := dieAt s (chOf (lt.luns.headD 0)) lt.dieModel

/-- CB: blocks in one word line's data (R87). -/
def cbOf (d : List Byte) : Nat := dmPlanes d * dmBits d * dmCwpp d

/-- CBS: blocks in one SLC word line (R87). -/
def cbsOf (d : List Byte) : Nat := dmPlanes d * dmCwpp d

/-- Blocks in one row of a layout. -/
def rowBlks (s : State) (lt : Layout) : Nat := lt.k * cbOf (layDie s lt)

/-- Capacity of a zone in blocks (R87). -/
def capacity (s : State) (lt : Layout) : Nat := rowBlks s lt * dmWlb (layDie s lt)

/-- A block offset's place (R89): row, member, page, codeword. -/
def place (s : State) (lt : Layout) (b : Nat) : Nat × Nat × Nat × Nat :=
  let d := layDie s lt
  let cb := cbOf d
  let w := b % (lt.k * cb)
  (b / (lt.k * cb), w / cb, (w % cb) / dmCwpp d, w % dmCwpp d)

/-- The failure group whose bound layout has a ZID in its range (R601). -/
def groupOf? (s : State) (zid : Nat) : Option (Nat × Group) :=
  s.groups.find? (fun p =>
    match p.2.layout.bind (fun i => tget? s.layouts i) with
    | some lt => decide (lt.zidBase ≤ zid) && decide (zid < lt.zidBase + lt.zoneCount)
    | none => false)

/-- The layout whose staging list has a set: sets from 65,536 on stand for those of the second layout of a reshape. -/
def stgLayout (s : State) (fg set : Nat) : Option Layout :=
  let g := tget s.groups fg {}
  (if set < 65536 then g.layout else g.newIdx).bind (fun i => tget? s.layouts i)

/-- The copies of a staging set (R92). -/
def stgSet (s : State) (fg set : Nat) : List (Nat × Nat) :=
  ((stgLayout s fg set).map (fun lt => lt.staging.getD (set % 65536) [])).getD []

/-! ### The layout store (R96) -/

/-- Address of byte `o` of an allocation of pages of the layout store. -/
def ltAddr (s : State) (pages : List Nat) (o : Nat) : Nat :=
  rd64 s regHopLtBaseLo regHopLtBaseHi + 4096 * pages.getD (o / 4096) 0 + o % 4096

/-- An image stored in its pages. -/
def ltStore (s : State) (pages : List Nat) (image : List Byte) : State :=
  (List.range ((image.length + 4095) / 4096)).foldl (fun s i =>
    dramWrite s (ltAddr s pages (4096 * i)) ((image.drop (4096 * i)).take 4096)) s

/-- A spare entry as 4 bytes of the spare map. DEDUCED: the fields of its TABLE entry (R317; log entry 62). -/
def spareWord (x : Spare) : List Byte := leBytes 4 (x.state * 2 ^ 30 + x.glun * 2 ^ 12 + x.block)

/-- A lost-range entry as 16 bytes (R335). -/
def lostBytes (x : Lost) : List Byte :=
  leBytes 4 x.zid ++ leBytes 4 x.first ++ leBytes 4 x.count ++ leBytes 1 x.cause ++ leBytes 1 x.lost ++ leBytes 2 0

/-- Entry `i` of a group's spare map written to the layout store: the map takes the first 16 KiB of the group's allocation. -/
def storeSpare (s : State) (fg i : Nat) : State :=
  let g := group s fg
  match g.spares[i]? with
  | some x => dramWrite s (ltAddr s g.pages (4 * i)) (spareWord x)
  | none => s

/-- A group's lost-range list written to the layout store behind its spare map, zeros over the `gone` entries that it lost. -/
def storeLost (s : State) (fg gone : Nat) : State :=
  let g := group s fg
  ((g.lost.map lostBytes ++ List.replicate gone (zeros 16)).zipIdx).foldl (fun s p =>
    dramWrite s (ltAddr s g.pages (16384 + 16 * p.2)) p.1) s

/-! ### Zone entries -/

/-- A zone entry as 32 bytes (R100). DESIGN CHOICE: INFLIGHT_ROWS, which one append of many rows can take past 15, shows the low 4 bits
of the count (log entry 69). -/
def packZone (e : ZoneEntry) : List Byte :=
  leBytes 4 (e.state * 2 ^ 28 + e.overlay * 2 ^ 26 + b2n e.valid * 2 ^ 25 + e.zid) ++
  leBytes 4 (e.hint * 2 ^ 24 + e.wp) ++
  leBytes 4 (e.inflight * 2 ^ 28 + e.appendPt) ++
  leBytes 4 (e.layout * 2 ^ 16 + b2n e.tv * 2 ^ 15 + e.tenant) ++
  leBytes 4 (b2n e.gv * 2 ^ 31 + e.gslot * 2 ^ 20 + e.stgExt * 2 ^ 12 + e.gather) ++
  leBytes 4 (e.wseq * 2 ^ 12 + e.staged) ++
  leBytes 4 (e.stgSet % 65536 * 2 ^ 16 + e.stgWl * 2 ^ 7) ++
  leBytes 4 e.jseq

/-- The zone entry that 32 bytes hold (R100). -/
def unpackZone (l : List Byte) : ZoneEntry :=
  let w (i : Nat) : Nat := fieldAt l (4 * i) 4
  { state := bits (w 0) 31 28, overlay := bits (w 0) 27 26, valid := bit (w 0) 25, zid := bits (w 0) 18 0,
    hint := bits (w 1) 31 24, wp := bits (w 1) 23 0, inflight := bits (w 2) 31 28, appendPt := bits (w 2) 23 0,
    layout := bits (w 3) 31 16, tv := bit (w 3) 15, tenant := bits (w 3) 11 0,
    gv := bit (w 4) 31, gslot := bits (w 4) 30 20, stgExt := bits (w 4) 15 12, gather := bits (w 4) 11 0,
    wseq := bits (w 5) 31 12, staged := bits (w 5) 11 0, stgSet := bits (w 6) 31 16, stgWl := bits (w 6) 15 7,
    jseq := w 7 }

/-- Address of a zone-table entry (R132). -/
def ztAddr (s : State) (zid : Nat) : Nat := rd64 s regHopZtBaseLo regHopZtBaseHi + 32 * zid

/-- Address of a zone extension entry (R98). -/
def zxAddr (s : State) (zid : Nat) : Nat := rd64 s regHopZxBaseLo regHopZxBaseHi + 256 * zid

/-- The OZT index of a zone, where it holds one (R101). -/
def oztIdx? (s : State) (zid : Nat) : Option Nat := (s.ozt.find? (fun p => p.2.zid = zid)).map (fun p => p.1)

/-- A zone's entry: live in the OZT, else from the zone table. A zeroed entry is an EMPTY zone (R99). -/
def zone (s : State) (zid : Nat) : ZoneEntry :=
  match s.ozt.find? (fun p => p.2.zid = zid) with
  | some p => p.2
  | none => { unpackZone (dramRead s (ztAddr s zid) 32) with zid := zid }

/-- A journal segment that must be imaged again (R282). -/
def markSeg (s : State) (kind idx : Nat) : State :=
  let k := kind * 65536 + idx
  if s.jrn.dirty.contains k then s else { s with jrn := { s.jrn with dirty := s.jrn.dirty ++ [k] } }

/-- A zone's entry written where it stands: GV and INFLIGHT_ROWS are 0 in the zone table (R100). -/
def setZone (s : State) (e : ZoneEntry) : State :=
  let e := { e with valid := true }
  let s := markSeg s 0 (e.zid / 128)
  match oztIdx? s e.zid with
  | some i => { s with ozt := tset s.ozt i e }
  | none => dramWrite s (ztAddr s e.zid) (packZone { e with gv := false, inflight := 0 })

/-- A zone's entry changed. -/
def modZone (s : State) (zid : Nat) (f : ZoneEntry → ZoneEntry) : State := setZone s (f (zone s zid))

/-- A zone takes the lowest free OZT entry (R101); `none` when all 65,536 are taken. -/
def oztTake (s : State) (e : ZoneEntry) : Option State :=
  match oztIdx? s e.zid with
  | some _ => some (setZone s e)
  | none => (tfree s.ozt 65536).map (fun i => markSeg { s with ozt := tset s.ozt i { e with valid := true } } 0 (e.zid / 128))

/-- A zone's entry goes back to the zone table and its OZT entry is freed (R101). -/
def oztFree (s : State) (zid : Nat) : State :=
  match oztIdx? s zid with
  | some i =>
    let e := zone s zid
    setZone { s with ozt := terase s.ozt i } e
  | none => s

/-- The layout index a zone is under: its entry's, or its group's bound layout while the entry is zeroed (R99). -/
def layoutIdx (s : State) (zid : Nat) : Option Nat :=
  match groupOf? s zid with
  | some (_, g) =>
    let e := zone s zid
    if e.valid && (tget? s.layouts e.layout).isSome then some e.layout else g.layout
  | none => none

/-- The layout a zone is under. -/
def layoutOf? (s : State) (zid : Nat) : Option Layout := (layoutIdx s zid).bind (fun i => tget? s.layouts i)

/-! ### Members -/

/-- The MEMBER word of a zone (R98). -/
def memberWord (s : State) (zid j : Nat) : Nat := leNat (dramRead s (zxAddr s zid + 4 * j) 4)

/-- MSTATE of a member (R98). -/
def mstate (s : State) (zid j : Nat) : Nat := bits (memberWord s zid j) 31 30

/-- A MEMBER word written (R98, R99). -/
def setMember (s : State) (zid j w : Nat) : State :=
  markSeg (dramWrite s (zxAddr s zid + 4 * j) (leBytes 4 w)) 1 (zid / 16)

/-- A MEMBER word (R98). -/
def memberOf (mst g b : Nat) : Nat := mst * 2 ^ 30 + g * 2 ^ 12 + b

/-- Is row `r` of a zone voided (R98)? -/
def voided (s : State) (zid r : Nat) : Bool := bit (leNat (dramRead s (zxAddr s zid + 0xC0) 64)) r

/-- The VOID bits written. -/
def setVoidBits (s : State) (zid v : Nat) : State :=
  markSeg (dramWrite s (zxAddr s zid + 0xC0) (leBytes 64 v)) 1 (zid / 16)

/-- Row `r` marked voided. -/
def setVoid (s : State) (zid r : Nat) : State :=
  setVoidBits s zid (leNat (dramRead s (zxAddr s zid + 0xC0) 64) ||| 2 ^ r)

/-- The location the declustering rule gives (R97). -/
def ruleLoc (lt : Layout) (zid j : Nat) : Nat × Nat :=
  let zl := zid - lt.zidBase
  let e := (lt.dt.getD (zl % max 1 lt.dtRows) []).getD j (0, 0)
  (lt.luns.getD e.2 0, lt.blockBase + zl / max 1 lt.dtRows * lt.c + e.1)

/-- Member `j` of a zone under a layout: GLUN and LUN-block, none for MSTATE 3 (R97). -/
def locIn (s : State) (lt : Layout) (zid j : Nat) : Option (Nat × Nat) :=
  let w := memberWord s zid j
  match bits w 31 30 with
  | 0 => some (ruleLoc lt zid j)
  | 3 => none
  | _ => some (bits w 23 12, bits w 11 0)

/-- Member `j` of a zone. -/
def loc? (s : State) (zid j : Nat) : Option (Nat × Nat) := (layoutOf? s zid).bind (fun lt => locIn s lt zid j)

/-- Members of a layout. -/
def width (lt : Layout) : Nat := lt.k + lt.m

/-- The quadrant that owns a zone's member 0, which holds its gathering row (R23). -/
def zoneQuad (s : State) (zid : Nat) : Nat :=
  match layoutOf? s zid with
  | some lt => quadOf ((loc? s zid 0).getD (ruleLoc lt zid 0)).1
  | none => 0

/-! ### Protection and the state of a zone -/

/-- The write-protect bit of a LUN (R172). -/
def protected? (s : State) (g : Nat) : Bool := bit (rd s (regWpMask (g / 32))) (g % 32)

/-- READ_ONLY: OPEN or CLOSED with a protected member LUN (R129). -/
def readOnly (s : State) (zid : Nat) : Bool :=
  let e := zone s zid
  (decide (e.state = 1) || decide (e.state = 2)) &&
    match layoutOf? s zid with
    | some lt => (List.range (width lt)).any (fun j =>
        match loc? s zid j with
        | some (g, _) => protected? s g
        | none => false)
    | none => false

/-- STATE of a zone-addressing opcode (R71, R86). -/
def zoneCode (s : State) (zid : Nat) : Nat :=
  let e := zone s zid
  if e.overlay = 2 then 6 else if e.overlay = 1 then 5 else if readOnly s zid then 8 else e.state

/-- Is a block offset in the lost-range list of its group (R335)? -/
def inLost (s : State) (zid b : Nat) : Bool :=
  match groupOf? s zid with
  | some (_, g) => g.lost.any (fun l => decide (l.zid = zid) && decide (l.first ≤ b) && decide (b < l.first + l.count))
  | none => false

/-! ### Journal entries -/

/-- Entries a page takes (JRN_CTRL.BATCH; 0 means 256). -/
def jrnBatch (s : State) : Nat := if rdf s regJrnCtrl 7 0 = 0 then 256 else rdf s regJrnCtrl 7 0

/-- Live journal copies. -/
def liveCopies (j : JrnSt) : List Nat := (j.copies.filter (fun p => p.2.live)).map (fun p => p.1)

/-- Is a page durable in flash (R284)? -/
def pageDurable (j : JrnSt) (p : PageSt) : Bool :=
  let l := liveCopies j
  let g := (p.good.filter (fun c => l.contains c)).length
  p.closed && (decide (2 ≤ g) || (decide (l.length = 1) && decide (g = 1)))

/-- Every entry below this SEQ is durable under the mode in force (R288). -/
def durableTo (j : JrnSt) : Nat :=
  let first (l : List Entry) : Option Nat := (l.map (fun e => e.seq)).min?
  if j.mode = 0 then (first j.backlog).getD j.seq
  else
    let open_ := ((j.pages.filter (fun p => !(pageDurable j p))).map (fun p => p.entries)).flatten
    max j.durable ((first (open_ ++ j.backlog)).getD j.seq)

/-- The durable mark brought up to date. -/
def jrnMark (s : State) : State := { s with jrn := { s.jrn with durable := max s.jrn.durable (durableTo s.jrn) } }

/-- Usable blocks of the shortest window among the live copies. -/
def windowLen (s : State) : Nat :=
  (((liveCopies s.jrn).map (fun c => let x := tget s.jrn.copies c {}; x.blocks - x.bad.length)).min?).getD 0

/-- The pages in the window blocks that the next turn erases (R285): turn, PSEQ and entries. -/
def turnPages (s : State) : List (Nat × Nat × List Entry) :=
  s.jrn.live.filter (fun p => decide (p.1 + windowLen s ≤ s.jrn.turnNo + 1))

/-- Does an entry name a zone? -/
def namesZone (e : Entry) : Bool := decide (1 ≤ e.typ) && decide (e.typ ≤ 7) || decide (e.typ = 0x0A)

/-- The segments of a zone: KIND × 65,536 + INDEX. -/
def zoneSegs (zid : Nat) : List Nat := [zid / 128, 65536 + zid / 16]

/-- Segments of zones named in the pages that the next turn erases, with no image above those entries in flash or on its way
(R285). -/
def turnSegs (s : State) : List Nat :=
  let sure (k seq : Nat) : Bool := decide (seq < tget s.jrn.images k 0) ||
    s.jrn.pages.any (fun p => p.closed && decide (seq < p.segSeq) && p.segs.any (fun x => x.1 * 65536 + x.2.1 = k))
  dedupNat ((((turnPages s).flatMap (fun p => p.2.2)).filter namesZone).flatMap (fun e => (zoneSegs e.zid).filter (fun k => !(sure k e.seq))))

/-- The segments that hold the zones of a layout. -/
def layoutSegs (lt : Layout) : List Nat :=
  let run (n : Nat) : List Nat :=
    if lt.zoneCount = 0 then [] else List.range' (lt.zidBase / n) ((lt.zidBase + lt.zoneCount - 1) / n + 1 - lt.zidBase / n)
  run 128 ++ (run 16).map (fun i => 65536 + i)

/-- The segments that a closing page carries: changed ones and those that the next turn needs first, then others of bound groups in
rotation (R282, R285). -/
def pickSegs (s : State) : List Nat × Nat :=
  let d := (dedupNat (s.jrn.dirty ++ turnSegs s)).take 11
  let bound := (s.groups.flatMap (fun p => ((p.2.layout.bind (fun i => tget? s.layouts i)).map layoutSegs).getD [])).filter
    (fun k => !(d.contains k))
  let n := bound.length
  let rot := (List.range (min (11 - d.length) n)).map (fun i => bound.getD ((s.jrn.rot + i) % max 1 n) 0)
  (d ++ dedupNat rot, s.jrn.rot + (11 - d.length))

/-- WP of a zone as the entries about it give it (R279, R282): a ROW_DONE or an EXTENT tells where WP will come. -/
def entryWp (s : State) (e : ZoneEntry) : Nat :=
  let es := s.jrn.live.flatMap (fun p => p.2.2) ++ s.jrn.pages.flatMap (fun p => p.entries) ++ s.jrn.backlog
  (es.filter (fun x => decide (x.zid = e.zid) && decide (x.wseq = e.wseq) && (decide (x.typ = 2) || decide (x.typ = 4)))).foldl
    (fun w x => max w (if x.typ = 2 then x.arg0 else x.arg2)) e.wp

/-- A segment's image (R282): zone-table entries with the live OZT entries in place, or zone extension entries. -/
def segImage (s : State) (kind idx : Nat) : List Byte :=
  if kind = 0 then (List.range 128).flatMap (fun i =>
    match s.ozt.find? (fun p => p.2.zid = 128 * idx + i) with
    | some p => packZone { p.2 with wp := entryWp s p.2 }
    | none => dramRead s (ztAddr s (128 * idx + i)) 32)
  else dramRead s (zxAddr s (16 * idx)) 4096

/-- A page of the journal closed with its segment images. -/
def sealPage (s : State) (segs : List Nat) (p : PageSt) : PageSt :=
  { p with
    closed := true, closeAt := s.tick, gen := genNow s, segSeq := s.jrn.seq, tail := s.jrn.tail,
    segs := segs.map (fun k => (k / 65536, k % 65536, segImage s (k / 65536) (k % 65536))) }

/-- The open page closes and is queued for flash (R288); a change of MODE takes effect (R290). -/
def closePage (s : State) : State :=
  let (segs, rot) := pickSegs s
  if s.jrn.pages.any (fun p => !p.closed) then
    let j := s.jrn
    let pages := j.pages.map (fun p => if p.closed then p else sealPage s segs p)
    jrnMark { s with
      jrn := { j with
        pages := pages, rot := rot, dirty := j.dirty.filter (fun k => !(segs.contains k)),
                      mode := rdf s regJrnCtrl 8 8 } }
  else s

/-- Pages of entries not yet durable in flash (R289). -/
def heldPages (j : JrnSt) : Nat := (j.pages.filter (fun p => !(p.entries.isEmpty) && !(pageDurable j p))).length

/-- One entry into the open page, which closes when it is full (R288); `none` where it must wait (R289). -/
def placeEntry (s : State) (e : Entry) : Option State :=
  let j := s.jrn
  if (tget s.engines 48 {}).mode = 3 then none
  else if j.pages.any (fun p => !p.closed) then
    let pages := j.pages.map (fun p => if p.closed then p else { p with entries := p.entries ++ [e] })
    let s := { s with jrn := { j with pages := pages } }
    some (if pages.any (fun p => !p.closed && decide (jrnBatch s ≤ p.entries.length)) then closePage s else s)
  else if heldPages j < 3 then
    let p : PageSt := { pseq := j.pseq, entries := [e], first := s.tick }
    let s := { s with jrn := { j with pages := j.pages ++ [p], pseq := j.pseq + 1 } }
    some (if jrnBatch s ≤ 1 then closePage s else s)
  else none

/-- Entries that wait move into pages as room allows. -/
def drainBacklog : Nat → State → State
  | 0, s => s
  | n + 1, s =>
    match s.jrn.backlog with
    | [] => s
    | e :: r =>
      match placeEntry s e with
      | some s => drainBacklog n { s with jrn := { s.jrn with backlog := r } }
      | none => s

/-- The JRE accepts an entry under the next SEQ (R277). A stopped journal refuses it (R287). Until the scan has found
the last SEQ in flash, an entry waits. -/
def jrnAppend (s : State) (e : Entry) : State :=
  if s.jrn.stopped then s
  else
    let e := { e with seq := s.jrn.seq, pfail := s.jrn.pfActive }
    let s := { s with jrn := { s.jrn with seq := s.jrn.seq + 1, backlog := s.jrn.backlog ++ [e] } }
    if s.jrn.scanned then jrnMark (drainBacklog 1 s) else s

/-- The failure group of a zone for a journal entry. -/
def fgOf (s : State) (zid : Nat) : Nat := ((groupOf? s zid).map (fun p => p.1)).getD 0

/-- A ZONE entry: base state, overlay, tenant, pointers (R279). -/
def jrnZone (s : State) (zid : Nat) : State :=
  let e := zone s zid
  jrnAppend s {
    seq := 0, typ := 0x05, fg := fgOf s zid, zid := zid, wseq := e.wseq,
    arg0 := e.state * 2 ^ 28 + e.overlay * 2 ^ 26 + b2n e.tv * 2 ^ 15 + e.tenant,
    arg1 := e.appendPt * 2 ^ 24 + e.wp }

/-- A MEMBER entry (R279). -/
def jrnMember (s : State) (zid j : Nat) : State :=
  jrnAppend s {
    seq := 0, typ := 0x06, fg := fgOf s zid, zid := zid, wseq := (zone s zid).wseq,
    arg0 := j * 2 ^ 32 + memberWord s zid j }

/-- An entry about a row: INTENT, ROW_DONE, ROW_VOID or CANCEL. -/
def jrnRow (s : State) (typ zid r arg0 : Nat) : State :=
  jrnAppend s { seq := 0, typ := typ, fg := fgOf s zid, zid := zid, wseq := (zone s zid).wseq, row := r, arg0 := arg0 }

/-- A TABLE entry (R317). -/
def jrnTable (s : State) (fg zid arg0 arg1 : Nat) : State :=
  jrnAppend s { seq := 0, typ := 0x09, fg := fg, zid := zid, arg0 := arg0, arg1 := arg1 }

end Sys2Proof.Machine
end

