-- ==== Sys2Proof/Machine/Operands.lean ====
section
/-! DEFINITION. Codewords (chapters Codewords, Decoding and the Read Path; Channel Sequencers and NAND Operations): the row
header, protection information, pads and poisoned blocks, the LDPC code, the randomiser, and the parity equations. -/

namespace Sys2Proof.Machine

/-! ### Row header (R229) -/

/-- A row header from its fields. -/
def rowHdr (kind member row zid wseq poison void cwx : Nat) : Nat :=
  kind * 2 ^ 62 + member * 2 ^ 56 + row * 2 ^ 47 + zid * 2 ^ 28 + wseq * 2 ^ 8 + poison * 2 ^ 7 + void * 2 ^ 6 + cwx

def hdrKind (h : Nat) : Nat := bits h 63 62
def hdrPoison (h : Nat) : Bool := decide (hdrKind h ≤ 1) && bit h 7
def hdrVoid (h : Nat) : Bool := bit h 6

/-- The comparison of R237, which leaves out POISON (R602). -/
def hdrMatch (want got : Nat) : Bool := decide (want ||| 128 = got ||| 128)

/-- A pad of one member of a live row (R237). -/
def hdrPad (got : Nat) : Bool := decide (hdrKind got = 2) && !(hdrVoid got)

/-! ### Bodies: data and protection information (R225, R230, R231) -/

/-- Data with its PI: guard, application tag, reference tag. -/
def mkBody (data : List Byte) (app ref : Nat) : List Byte :=
  data ++ leBytes 8 (crc64 data) ++ leBytes 2 app ++ leBytes 6 ref

def bodyData (b : List Byte) : List Byte := slice b 0 4096
def bodyPi (b : List Byte) : List Byte := slice b 4096 16
def bodyGuard (b : List Byte) : Nat := fieldAt b 0x1000 8
def bodyRef (b : List Byte) : Nat := fieldAt b 0x100A 6

/-- GUARD matches DATA. -/
def guardOk (b : List Byte) : Bool := decide (bodyGuard b = crc64 (bodyData b))

/-- The reference tag of R231. -/
def refTag (zid b : Nat) : Nat := zid * 2 ^ 24 + b

/-- A pad codeword's body (R230). -/
def padBody : List Byte := mkBody (zeros 4096) 0xFFFF 0xFFFFFFFFFFFF

/-- The inverted guard of zeros. -/
def poisonGuard : Nat := 2 ^ 64 - 1 - crc64 (zeros 4096)

/-- A poisoned block's body (R602). -/
def poisonBody : List Byte :=
  zeros 4096 ++ leBytes 8 poisonGuard ++ leBytes 2 0xFFFF ++ leBytes 6 0xFFFFFFFFFFFF

/-- A reconstructed body that holds a poisoned block (R602). -/
def isPoison (b : List Byte) : Bool := decide (bodyData b = zeros 4096) && decide (bodyGuard b = poisonGuard)

/-! ### The LDPC code (R226, R227) -/

/-- A cyclic shift of 64 bits by the amount of a circulant; its direction is free (log entry 7). -/
def circ (w : BitVec 64) (n : Nat) : BitVec 64 := if Config.shiftUp then w.rotateLeft n else w.rotateRight n

/-- Entry of a code table: PRESENT and SHIFT (R227). -/
def codeEntry (code : List Byte) (r c : Nat) : Bool × Nat :=
  let w := fieldAt code (2 * (581 * r + c)) 2
  (bit w 15, w % 64)

/-- The sum of row `r` of the array over the first `n` block columns of a codeword. -/
def rowSum (code cw : List Byte) (r n : Nat) : BitVec 64 :=
  (List.range n).foldl (fun a c =>
    let e := codeEntry code r c
    if e.1 then a ^^^ circ (BitVec.ofNat 64 (fieldAt cw (8 * c) 8)) e.2 else a) 0

/-- Unsatisfied checks of a codeword. -/
def unsat (code cw : List Byte) : Nat :=
  ((List.range 66).map (fun r => popcount 64 (rowSum code cw r 581).toNat)).sum

/-- The codeword of 4,120 bytes: the parity solved block column by block column (R227). -/
def encodeCw (code info : List Byte) : List Byte :=
  (List.range 66).foldl (fun cw r => cw ++ leBytes 8 (rowSum code cw r (515 + r)).toNat) (slice info 0 4120)

/-! ### The randomiser (R169, R170) -/

/-- One step of the register. -/
def lfsr (s : BitVec 32) : BitVec 32 :=
  let b := ((s.getLsbD 31).xor (s.getLsbD 21)).xor ((s.getLsbD 1).xor (s.getLsbD 0))
  (s <<< 1) ||| (if b then 1 else 0)

/-- The register after eight steps. -/
def lfsr8 (s : BitVec 32) : BitVec 32 := lfsr (lfsr (lfsr (lfsr (lfsr (lfsr (lfsr (lfsr s)))))))

/-- The next keystream byte: bit 0 is the first of its eight keystream bits. -/
def keyByte (s : BitVec 32) : Byte :=
  let e := lfsr8 s
  BitVec.ofNat 8 (((List.range 8).map (fun i => if e.getLsbD (7 - i) then 2 ^ i else 0)).sum)

/-- Bytes with the keystream of a seed applied. -/
def scramble (s : BitVec 32) : List Byte → List Byte
  | [] => []
  | b :: r => (b ^^^ keyByte s) :: scramble (lfsr8 s) r

/-- The seed of a codeword (R170). -/
def seedOf (g block wl page cw : Nat) : BitVec 32 :=
  let a := BitVec.ofNat 64 (g ||| (block <<< 12) ||| (wl <<< 24) ||| (page <<< 33) ||| (cw <<< 37))
  let a := a ^^^ (a >>> 31)
  let a := a * 0x7FB5D329728EA185
  let a := a ^^^ (a >>> 27)
  let s := a.setWidth 32 ^^^ (a >>> 32).setWidth 32
  if s = 0 then 1 else s

/-- The code table of a decoder pool or a channel sequencer under a generation. -/
def codeOf (s : State) (unit gen : Nat) : List Byte := (slotAt s unit gen).code

/-- A codeword as it goes to the cells: body and header encoded and randomised. -/
def cellCw (s : State) (gen g block wl page cw : Nat) (body : List Byte) (hdr : Nat) : List Byte :=
  scramble (seedOf g block wl page cw) (encodeCw (codeOf s (chOf g) gen) (slice body 0 4112 ++ leBytes 8 hdr))

/-! ### Parity (R268 to R271, R321) -/

/-- The field of R268. -/
def gmul (a b : Nat) : Nat := gfmul 0x1D a b

/-- Powers of g = 0x02. -/
def gpow (n : Nat) : Nat := gfpow 0x1D 2 n

/-- Coefficient of data member `j` in parity row `r`: 0 P, 1 Q, 2 R (R269, R270). -/
def coef (r j : Nat) : Nat := gpow (r * j)

/-- A body scaled by a field element. -/
def scale (c : Nat) (b : List Byte) : List Byte := b.map (fun x => BitVec.ofNat 8 (gmul c x.toNat))

/-- Parity `r` of bodies in member order (R269). -/
def parityOf (r : Nat) (ds : List (List Byte)) : List Byte :=
  (ds.zipIdx).foldl (fun a p => xorBytes a (scale (coef r p.2) p.1)) (zeros 4112)

/-- Inverse in the field (R321). -/
def ginv (a : Nat) : Nat := gfpow 0x1D a 254

/-- A row of an equation system over bodies: coefficients of the unknowns, and the right side. -/
abbrev Eqn := List Nat × List Byte

/-- Eliminates unknown `i` from an equation by a row that is 1 there. -/
def elim (i : Nat) (p e : Eqn) : Eqn :=
  let c := e.1.getD i 0
  if c = 0 then e
  else ((List.range e.1.length).map (fun x => e.1.getD x 0 ^^^ gmul c (p.1.getD x 0)), xorBytes e.2 (scale c p.2))

/-- Gaussian elimination over GF(2^8): one solved row for each unknown `i` upward. -/
def gauss : Nat → Nat → List Eqn → List Eqn
  | 0, _, es => es
  | n + 1, i, es =>
    match es.find? (fun e => e.1.getD i 0 ≠ 0 ∧ (List.range i).all (fun x => e.1.getD x 0 = 0)) with
    | none => es
    | some e =>
      let c := ginv (e.1.getD i 0)
      let p : Eqn := (e.1.map (gmul c), scale c e.2)
      gauss n (i + 1) (p :: (es.filter (fun x => x ≠ e)).map (elim i p))

/-- The contents of a parity-accumulator slot that holds the bodies of a chunk's codewords (R273): 262,144 bytes of main area, 4,096 of each
codeword, and 1,024 bytes of tag area, the last 16 of each. -/
def slotImage (bodies : List (List Byte)) : List Byte :=
  let area (n size : Nat) (part : List Byte → List Byte) : List Byte :=
    let l := (bodies.flatMap part).take (n * size)
    l ++ zeros (n * size - l.length)
  area 64 4096 (fun b => slice b 0 4096) ++ area 64 16 (fun b => slice b 4096 16)

/-- The body of codeword `i` as a slot holds it (R273). -/
def slotBody (slot : List Byte) (i : Nat) : List Byte := slice slot (4096 * i) 4096 ++ slice slot (262144 + 16 * i) 16

/-- The bodies of the members of a row from any `k` of them (R321): lost data from the first parity members at hand, lost
parity from the full data. -/
def solveRow (k m : Nat) (got : List (Nat × List Byte)) (want : Nat) : List Byte :=
  let lost := (List.range k).filter (fun j => (tget? got j).isNone)
  let par := ((List.range m).filter (fun r => (tget? got (k + r)).isSome)).take lost.length
  let es : List Eqn := par.map (fun r =>
    (lost.map (coef r),
     (List.range k).foldl (fun a j => match tget? got j with
       | some b => xorBytes a (scale (coef r j) b)
       | none => a) (tget got (k + r) [])))
  let sol := gauss lost.length 0 es
  let val (i : Nat) : List Byte :=
    ((sol.find? (fun e => e.1 = (List.range lost.length).map (fun x => if x = i then 1 else 0))).map (fun e => e.2)).getD []
  let data := (List.range k).map (fun j => match tget? got j with
    | some b => b
    | none => val (lost.idxOf j))
  if want < k then data.getD want [] else parityOf (want - k) data

end Sys2Proof.Machine
end

