-- ==== Sys2Proof/Machine/Rings.lean ====
section
/-! DEFINITION. Command rings (chapter Command Rings, Packets and Completions): contexts, doorbells, faults,
completions and their events, and the checks of a fetched packet. -/

namespace Sys2Proof.Machine

/-! ### Contexts -/

/-- A field of `n` bytes at offset `o` of a ring's context. -/
def cget (s : State) (r o n : Nat) : Nat := bits (tget s.ctx r 0).toNat (8 * (o + n) - 1) (8 * o)

/-- A field of a ring's context given a value. -/
def cset (s : State) (r o n v : Nat) : State :=
  { s with ctx := tset s.ctx r (BitVec.ofNat 512 (putBits (tget s.ctx r 0).toNat (8 * (o + n) - 1) (8 * o) v)) }

/-- Slots of a ring from a nibble of SIZE: 0 encodes 2^16. -/
def slotsOf (nib : Nat) : Nat := if nib = 0 then 65536 else 2 ^ nib

def cmdSize (s : State) (r : Nat) : Nat := slotsOf (cget s r 0x18 1 % 16)
def cplSize (s : State) (r : Nat) : Nat := slotsOf (cget s r 0x18 1 / 16)

/-- ENABLE, PHASE and FAULT of CTRL. -/
def ringEnabled (s : State) (r : Nat) : Bool := bit (cget s r 0x19 1) 0
def ringPhase (s : State) (r : Nat) : Nat := b2n (bit (cget s r 0x19 1) 2)
def ringFaulted (s : State) (r : Nat) : Bool := bit (cget s r 0x19 1) 3

/-- One bit of CTRL given a value. -/
def setCtrl (s : State) (r b v : Nat) : State := cset s r 0x19 1 (putBits (cget s r 0x19 1) b b v)

def inflight (s : State) (r : Nat) : Nat := cget s r 0x38 2

/-- Home quadrant of a ring; ring 0 is at home in quadrant 0 (R52). -/
def homeOf (s : State) (r : Nat) : Nat := if r = 0 then 0 else cget s r 0x22 1 % 4

/-- What the block keeps of a ring. -/
def ringRt (s : State) (r : Nat) : RingRt := tget s.rings r {}

/-- What the block keeps of a ring, changed. -/
def modRing (s : State) (r : Nat) (f : RingRt → RingRt) : State := { s with rings := tmod s.rings r {} f }

/-- Pending packets (R39). -/
def pendingPkts (s : State) (r : Nat) : Nat :=
  (cget s r 0x12 2 + cmdSize s r - cget s r 0x10 2) % cmdSize s r

/-- Free completion slots (R40). -/
def freeSlots (s : State) (r : Nat) : Nat :=
  (cget s r 0x16 2 + 2 * cplSize s r - cget s r 0x14 2 - 1) % cplSize s r

/-- SIZE holds 1 to 3 in a nibble (R51). -/
def badSize (sz : Nat) : Bool :=
  (decide (1 ≤ sz % 16) && decide (sz % 16 ≤ 3)) || (decide (1 ≤ sz / 16) && decide (sz / 16 ≤ 3))

/-- A ring fault with its cause (R53 to R55). -/
def ringFault (s : State) (r cause : Nat) : State :=
  let s := cset (setCtrl s r 3 1) r 0x1A 1 cause
  let s := wr s regGlbRingFault (2 ^ 31 + cause * 2 ^ 16 + r)
  raise (bump s regGlbRingFaultCount 7 0 1) 1015

/-- ENABLE goes from 0 to 1 (R50). -/
def ringEnable (s : State) (r : Nat) : State :=
  let s := cset (cset (cset (cset s r 0x10 2 0) r 0x12 2 0) r 0x14 2 0) r 0x16 2 0
  let s := cset (cset (cset s r 0x38 2 0) r 0x19 1 0b101) r 0x1A 1 0
  { s with rings := tset s.rings r {} }

/-! ### Packets -/

def pktF (c : Cmd) (o n : Nat) : Nat := fieldAt c.pkt o n
def opc (c : Cmd) : Nat := pktF c 0 1
def flagChain (c : Cmd) : Bool := bit (pktF c 1 1) 4
def flagNoEvent (c : Cmd) : Bool := bit (pktF c 1 1) 3
def flagFence (c : Cmd) : Bool := bit (pktF c 1 1) 2
def piMode (c : Cmd) : Nat := pktF c 1 1 % 4
def cmdId (c : Cmd) : Nat := pktF c 2 2
def cGen (c : Cmd) : Nat := pktF c 4 4
def cZid (c : Cmd) : Nat := pktF c 8 4 % 2 ^ 19
def cAppTag (c : Cmd) : Nat := pktF c 0x0E 2
def cOff (c : Cmd) : Nat := pktF c 0x10 4
def cCount (c : Cmd) : Nat := pktF c 0x14 4
def cPtr (c : Cmd) : Nat := pktF c 0x18 8
def cPi (c : Cmd) : Nat := pktF c 0x20 8
def cP0 (c : Cmd) : Nat := pktF c 0x28 8
def cP1 (c : Cmd) : Nat := pktF c 0x30 8

/-- The opcodes of R64. -/
def opcodes : List Nat := [0x01, 0x02, 0x03, 0x04, 0x05, 0x06, 0x07, 0x08, 0x09, 0x10, 0x11, 0x13, 0x18, 0x19, 0x1A,
  0x1B, 0x20, 0x21, 0x22, 0x23, 0x28, 0x29, 0x30, 0x31, 0x32, 0x33, 0x38, 0x40, 0x41, 0x42, 0x43, 0x48, 0x50, 0x7F]

/-- The opcodes permitted only on ring 0 (R56). -/
def adminOpcodes : List Nat := [0x10, 0x1B, 0x28, 0x29, 0x30, 0x31, 0x48, 0x50]

/-- The zone-addressing opcodes (R601). -/
def zoneOpcode (o : Nat) : Bool := (decide (1 ≤ o) && decide (o ≤ 9)) || decide (o = 0x20)

/-! ### Status codes (R74) -/

def stOk : Nat := 0x0000
def stWear : Nat := 0x0101
def stRecon : Nat := 0x0102
def stHeavy : Nat := 0x0103
def stBadOpcode : Nat := 0x1001
def stBadField : Nat := 0x1002
def stNotPermitted : Nat := 0x1003
def stTenant : Nat := 0x1004
def stConflict : Nat := 0x2001
def stGeneration : Nat := 0x2002
def stMaintBusy : Nat := 0x2003
def stProtected : Nat := 0x2004
def stBeyond : Nat := 0x2005
def stNoBuffer : Nat := 0x3001
def stNoSlot : Nat := 0x3002
def stBudget : Nat := 0x3003
def stUncorrectable : Nat := 0x4001
def stErased : Nat := 0x4002
def stProgramFail : Nat := 0x4003
def stEraseFail : Nat := 0x4004
def stErasing : Nat := 0x4005
def stRetired : Nat := 0x4006
def stGuard : Nat := 0x5001
def stReftag : Nat := 0x5002
def stHeader : Nat := 0x5003
def stInternal : Nat := 0x5004
def stPortError : Nat := 0x6001
def stPortTimeout : Nat := 0x6002
def stLoop : Nat := 0x6003
def stLastBeat : Nat := 0x6004
def stRowLost : Nat := 0x7001
def stRowVoid : Nat := 0x7002
def stFenced : Nat := 0x7003
def stMachineCheck : Nat := 0xF001
def stAborted : Nat := 0xF002

/-- A plain status. -/
def res (st : Nat) : Result := { status := st }

/-- BAD_FIELD with the byte offset of the first illegal field (R73). -/
def badField (o : Nat) : Result := { status := stBadField, detail := o }

/-- The block sees success in class 0x00 and 0x01 (R14). -/
def isSuccess (st : Nat) : Bool := decide (st < 0x0200)

/-! ### Completions -/

/-- The event of a ring's completions (R451). -/
def raiseRing (s : State) (evt : Nat) : State :=
  if evt = 0 then s
  else if 16 ≤ evt ∧ evt ≤ 767 then raise s evt
  else sticky s regEvcStatus 0

/-- A completion has been written: the rules for its event (R80). DESIGN CHOICE: where unsignalled completions of a ring were
fetched under different values (R66), the COAL_COUNT of the completing command governs, and the COAL_TICKS and EVT of the first
unsignalled one (log entry 63). -/
def completionEvent (s : State) (c : Cmd) : State :=
  if !(isSuccess c.res.status) then
    raiseRing (modRing s c.ring (fun r => { r with unsig := 0 })) c.evt
  else if flagNoEvent c then s
  else
    let rt := ringRt s c.ring
    if rt.unsig + 1 ≥ c.coalN then raiseRing (modRing s c.ring (fun r => { r with unsig := 0 })) c.evt
    else if rt.unsig = 0 then
      modRing s c.ring (fun r => { r with unsig := 1, unsigAt := s.tick, unsigEvt := c.evt, unsigLim := c.coalT })
    else modRing s c.ring (fun r => { r with unsig := r.unsig + 1 })

/-- The 32 bytes of a completion, for the ring's present indices (R64, R71, R72). -/
def completionBytes (s : State) (c : Cmd) : List Byte :=
  let state := if zoneOpcode (opc c) && (groupOf? s (cZid c)).isSome && decide (c.res.status ≠ stMaintBusy)
    then zoneCode s (cZid c) else c.res.state
  leBytes 2 (cmdId c) ++ leBytes 2 c.res.status ++ leBytes 2 (cget s c.ring 0x10 2) ++
  leBytes 1 (ringPhase s c.ring) ++ leBytes 1 state ++ leBytes 4 c.gen ++ leBytes 4 c.res.ra ++
  leBytes 8 c.res.rb ++ leBytes 4 c.res.detail ++ leBytes 4 s.tick

/-- Takes the completion slot at CPL_TAIL; the phase inverts when the index wraps (R41). -/
def takeSlot (s : State) (r : Nat) : State :=
  let t := cget s r 0x14 2
  if t + 1 = cplSize s r then setCtrl (cset s r 0x14 2 0) r 2 (1 - ringPhase s r)
  else cset s r 0x14 2 (t + 1)

/-- A command leaves: INFLIGHT falls, and a ring disabled through the control port reads ENABLE 0 at 0 (R49). -/
def dropCmd (s : State) (c : Cmd) : State :=
  let s := { s with cmds := s.cmds.filter (fun x => x.cid ≠ c.cid) }
  let s := cset s c.ring 0x38 2 (inflight s c.ring - 1)
  if (ringRt s c.ring).draining && decide (inflight s c.ring = 0) then
    modRing (setCtrl s c.ring 0 0) c.ring (fun r => { r with draining := false })
  else s

/-- Does a transfer carry data of a command? -/
def carries (cid : Nat) (x : Xfer) : Bool :=
  match x.purpose with
  | .cmdOut c => decide (c = cid)
  | .rawOut c _ => decide (c = cid)
  | .readBlock c _ _ => decide (c = cid)
  | .progress c => decide (c = cid)
  | _ => false

/-- Writes the completion of a command whose result is known, once every data transfer of it has been answered (R38)
and its journal entries are durable (R277). A ring that a failed write has silenced takes none (R54). DESIGN CHOICE: of the two
ports of the home quadrant (R22, R79), the even one carries completions (log entry 26). -/
def tryComplete (s : State) (cid : Nat) : State :=
  match cmd? s cid with
  | none => s
  | some c =>
    if decide (c.stage = .ending) && !c.posted && !(s.xfers.any (carries cid)) &&
        decide (c.needSeq ≤ s.jrn.durable) then
      if (ringRt s c.ring).muted then dropCmd s c
      else
        let bytes := completionBytes s c
        let a := cget s c.ring 0x08 8 / 4096 * 4096 + 32 * cget s c.ring 0x14 2
        let s := trace s c.home 1 c.ring [c.res.status + (cmdId c % 2 ^ 15) * 2 ^ 16]
        let s := takeSlot (modCmd s cid (fun c => { c with posted := true })) c.ring
        startXfer s { port := 2 * c.home, write := true, clsA := true, grp := 0, deadline := c.deadline,
                      real := c.deadline.isSome, purpose := .completion c.ring cid } [(0, a, 32, bytes)]
    else s

/-- Commands that wait only for data or journal entries are looked at again. -/
def completeReady (s : State) : State :=
  ((s.cmds.filter (fun c => decide (c.stage = .ending) && !c.posted)).map (fun c => c.cid)).foldl tryComplete s

/-- A command ends with a result; its completion follows under R38. -/
def finish (s : State) (cid : Nat) (r : Result) : State :=
  tryComplete (modCmd s cid (fun c => if c.stage = .ending then c else { c with stage := .ending, res := r })) cid

/-- A command ends with a result once its journal entries so far are durable (R277). -/
def finishDurable (s : State) (cid : Nat) (r : Result) : State :=
  finish (modCmd s cid (fun c => { c with needSeq := s.jrn.seq })) cid r

/-- A summary, record or report of a command goes to SoC memory (R417, class B group 3). -/
def writeOutAt (s : State) (port : Nat) (c : Cmd) (a : Nat) (bytes : List Byte) (grp : Nat) : State :=
  if bytes.isEmpty then s
  else startXfer s { port := port, write := true, clsA := false, grp := grp, deadline := c.deadline,
                     real := c.deadline.isSome, purpose := .cmdOut c.cid } [(0, a, bytes.length, bytes)]

/-- The same through the home quadrant's even port (log entry 26). -/
def writeOut (s : State) (c : Cmd) (a : Nat) (bytes : List Byte) (grp : Nat) : State := writeOutAt s (2 * c.home) c a bytes grp

/-- The failure fields of a port failure (R73, class 0x60). -/
def portResult (st port desc addr beat : Nat) : Result :=
  { status := st, ra := desc, rb := addr, detail := beat * 2 ^ 16 + port }

/-- A transfer's end as a result. -/
def endResult (port : Nat) : XferEnd → Option Result
  | .ok => none
  | .error d a b => some (portResult stPortError port d a b)
  | .timeout d a b => some (portResult stPortTimeout port d a b)
  | .lastBeat d a b => some (portResult stLastBeat port d a b)

/-! ### Order of commands -/

/-- Has every command fetched earlier from the ring written its completion, where FENCE asks it, and does no fence
stand before this one (R75)? -/
def fenceFree (s : State) (c : Cmd) : Bool :=
  let before := s.cmds.filter (fun d => decide (d.ring = c.ring) && decide (d.fetchNo < c.fetchNo))
  if flagFence c then before.isEmpty else !(before.any flagFence)

/-- The command of an opcode that may start now; a block fault lets none start (R522). -/
def startable (s : State) (cid op : Nat) : Option Cmd :=
  match cmd? s cid with
  | some c =>
    if decide (opc c = op) && !s.blockFault && !c.issued && decide (c.stage = .ready) && fenceFree s c then some c else none
  | none => none

/-- The step of a command that may start now. -/
def start (s : State) (cid op : Nat) (f : State → Cmd → State) : State :=
  match startable s cid op with
  | none => s
  | some c => f (modCmd s cid (fun c => { c with issued := true, stage := .running })) c

/-- The bursts of a transfer: descriptor index, address and bytes of each (R427). A span is a descriptor index, an address and a
length. -/
def transferBursts (spans : List (Nat × Nat × Nat)) : List (Nat × Nat × Nat) :=
  spans.flatMap (fun p => (cutSpan (p.2.2 / 2048 + 2) p.2.1 p.2.2).map (fun b => (p.1, b.1, b.2)))

/-- Beat `n` of bursts: its descriptor index, its address and its index in its burst (R73). A number past the last beat stands for
the last. -/
def failPlace : List (Nat × Nat × Nat) → Nat → Nat × Nat × Nat
  | [], _ => (0, 0, 0)
  | (d, a, l) :: r, n =>
    let k := beatsOf a l
    if decide (n < k) || r.isEmpty then
      let i := min n (k - 1)
      (d, a / 64 * 64 + 64 * i, i)
    else failPlace r (n - k)

/-- A transfer that the step itself makes through port `n` is given up at a beat: bit `b` of the port's status, its log, its
trace packet and its event, the result (R73, R428, R429, R440, R599). An error has spent its repeats before. -/
def portFailed (s : State) (n : Nat) (spans : List (Nat × Nat × Nat)) (st b beat : Nat) : State × Option Result :=
  let p := failPlace (transferBursts spans) beat
  let again (s : State) : State := traceBurst (sticky (logBeat s n p.2.1) (regMemPortStatus n) 0) n p.2.1
  let s := (List.range (if b = 1 then rdf s regMemCfg 3 0 else 0)).foldl (fun s _ => again s) s
  let s := traceBurst (sticky (logBeat s n p.2.1) (regMemPortStatus n) b) n p.2.1
  (raise s (992 + n), some (portResult st n p.1 p.2.1 p.2.2))

/-- How a transfer that the step itself makes through port `n` over some spans ended: the result of a failure. -/
def portEnd (s : State) (n : Nat) (spans : List (Nat × Nat × Nat)) (mp : PortEnd) : State × Option Result :=
  match mp with
  | .ok => (s, none)
  | .error i => portFailed s n spans stPortError 1 i
  | .timeout i => portFailed s n spans stPortTimeout 2 i

/-- A command goes on once its image of `len` bytes at DATA_PTR is fetched, through the even port of its home quadrant (R22; which
of the two is the model's choice, log entry 26); a fetch that the port gives up ends it (R73, R428, R429). -/
def imageEnd (s : State) (c : Cmd) (len : Nat) (mp : PortEnd) (f : State → State) : State :=
  match portEnd s (2 * c.home) [(0, cPtr c, len)] mp with
  | (s, some r) => finish s c.cid r
  | (s, none) => f s

/-! ### Checks of a fetched packet (R68) -/

/-- The current generation of a quadrant scheduler: the new one from its switch on during a commit (R493). -/
def qscGen (s : State) (q : Nat) : Nat :=
  if s.cfg.commitCid.isSome && (tget? s.cfg.switched (40 + q)).isSome then s.cfg.nextGen else s.cfg.curGen

/-- Does the opcode take CHAIN 1 (R420)? -/
def chainOpcode (o : Nat) : Bool := [0x01, 0x02, 0x03, 0x41, 0x42].contains o

/-- Does the opcode name a GLUN in PARAM0 (R19)? -/
def glunOpcode (o : Nat) : Bool := [0x18, 0x40, 0x41, 0x42, 0x43].contains o

/-- The block group of an index exists (R381). -/
def bgExists (s : State) (bg : Nat) : Bool :=
  (lun? s (bg / 512)).isSome && decide (bg % 512 * 8 < dmBpp (dieOf s (bg / 512)))

/-- The word lines' codewords that a raw command may name, in QLC or SLC mode (R183). -/
def rawCws (d : List Byte) (slc : Bool) : Nat := if slc then cbsOf d else cbOf d

/-- A flag of the first failing offset, in packet order. -/
def firstBad : List (Bool × Nat) → Option Nat
  | [] => none
  | (b, o) :: r => if b then some o else firstBad r

/-- Check 3: the byte offset of the first illegal field, in packet order (R19, R62, R63, R73, R601 and the chapter of
each opcode). Images behind DATA_PTR are checked by the opcode's own step. -/
def fieldCheck (s : State) (c : Cmd) : Option Nat :=
  let o := opc c
  let data := decide (o = 1) || decide (o = 2) || decide (o = 3)
  let cap := (layoutOf? s (cZid c)).map (fun lt => capacity s lt)
  let g := cP0 c % 4096
  let d := dieOf s g
  let slc := bit (cP1 c) 34
  let n := rawCws d slc
  let at0 := bits (cP1 c) 24 21 * dmCwpp d + bits (cP1 c) 26 25
  let capped := decide (o = 2) || decide (o = 3) || decide (o = 0x20)
  firstBad [
    (decide (2 ≤ piMode c), 0x01),
    (flagChain c && !(chainOpcode o), 0x01),
    (zoneOpcode o && (groupOf? s (cZid c)).isNone, 0x08),
    (capped && decide (cap.getD 0 ≤ cOff c), 0x10),
    (data && (decide (cCount c = 0) || decide (4096 < cCount c)), 0x14),
    (decide (o = 0x20) && decide (cCount c = 0), 0x14),
    (capped && decide (cap.getD 0 < cOff c + cCount c), 0x14),
    (decide (o = 0x30) && (decide (cCount c = 0) || decide (1024 < cCount c)), 0x14),
    (decide (o = 0x40) && (decide (cCount c = 0) || decide (256 < cCount c)), 0x14),
    (decide (o = 0x41) && (lun? s g).isSome && (decide (cCount c = 0) || decide (n < at0 + cCount c)), 0x14),
    (decide (o = 0x42) && (lun? s g).isSome && decide (cCount c ≠ n), 0x14),
    (flagChain c && decide (cPtr c % 32 ≠ 0), 0x18),
    (glunOpcode o && (lun? s g).isNone, 0x28),
    ((decide (o = 0x19) || decide (o = 0x1B)) && ((group s (cP0 c % 65536)).layout).isNone, 0x28),
    ((decide (o = 0x22) || decide (o = 0x23)) && !(bgExists s (cP0 c % 2 ^ 32)), 0x28),
    (decide (o = 0x21) && decide (5 < cP0 c % 256), 0x28),
    (decide (o = 0x28) && decide (2 < cP0 c % 16), 0x28),
    (decide (o = 0x29) && (decide (cP0 c % 65536 = 0)), 0x28),
    (decide (o = 0x38) && decide (4 < bits (cP0 c) 34 32), 0x28),
    (decide (o = 0x19) && (decide (cP1 c % 256 = 0) || decide (100 < cP1 c % 256)), 0x30),
    ((decide (o = 0x41) || decide (o = 0x42)) && decide (bits (cP1 c) 33 32 = 3), 0x30)]

/-- Data bytes of an append, write or raw program. -/
def inBytes (c : Cmd) : Nat :=
  if opc c = 0x42 then cCount c * (if bits (cP1 c) 33 32 = 0 then 4120 else 4648) else cCount c * 4096

/-- The walk of a chain (R421 to R423): ADDR and LENGTH of each descriptor until `n` bytes are covered, or the index
and address of the descriptor that could not be used. -/
def walkChain (s : State) : Nat → Nat → Nat → Nat → Nat → Except (Nat × Nat) (List (Nat × Nat))
  | 0, i, a, _, n => if n = 0 then .ok [] else .error (i, a)
  | f + 1, i, a, stamp, n =>
    if n = 0 then .ok []
    else if a = 0 && decide (0 < i) then .error (i, a)
    else
      let d := dramRead s a 32
      let st := fieldAt d 0x0E 2
      if decide (0 < i) && decide (st ≠ stamp) then .error (i, a)
      else
        let l := min n (fieldAt d 0x08 4 % 2 ^ 24)
        match walkChain s f (i + 1) (fieldAt d 0x10 8 / 32 * 32) (if i = 0 then st else stamp) (n - l) with
        | .ok r => .ok ((fieldAt d 0 8, l) :: r)
        | .error e => .error e

/-- The fetches of a walk: index and address of each descriptor that it reads, 32 bytes. -/
def walkSpans (s : State) : Nat → Nat → Nat → Nat → Nat → List (Nat × Nat × Nat)
  | 0, _, _, _, _ => []
  | f + 1, i, a, stamp, n =>
    if decide (n = 0) || (decide (a = 0) && decide (0 < i)) then []
    else
      let d := dramRead s a 32
      let st := fieldAt d 0x0E 2
      (i, a, 32) :: (if decide (0 < i) && decide (st ≠ stamp) then []
        else walkSpans s f (i + 1) (fieldAt d 0x10 8 / 32 * 32) (if i = 0 then st else stamp) (n - min n (fieldAt d 0x08 4 % 2 ^ 24)))

/-- DESCRIPTOR_LOOP of a chain that a port walked: the descriptor that could not be used (R73, R422). -/
def loopResult (port : Nat) (e : Nat × Nat) : Result := { status := stLoop, ra := e.1, rb := e.2, detail := port }

/-- The spans of `n` data bytes of a command: one contiguous span, or its chain. -/
def dataSpans (s : State) (c : Cmd) (n : Nat) : Except (Nat × Nat) (List (Nat × Nat)) :=
  if flagChain c then walkChain s 4096 0 (cPtr c) 0 n else .ok [(cPtr c, n)]

/-- The legal-state table (R81), with the overlays of R85: the status of a refusal. -/
def stateCheck (s : State) (o zid : Nat) : Option Nat :=
  let e := zone s zid
  if readOnly s zid then
    if [3, 8, 9, 0x20].contains o then none else some stConflict
  else if decide (e.overlay = 2) && [1, 2, 5].contains o then some stConflict
  else
    let pick (l : List Nat) : Option Nat := match l.getD e.state stConflict with | 0 => none | x => some x
    let C := stConflict
    match o with
    | 1 | 2 | 5 => pick [0, 0, 0, C, C, C, C, C]
    | 3 => pick [stBeyond, 0, 0, 0, stErasing, C, C, C]
    | 4 => pick [0, 0, 0, 0, C, C, C, 0]
    | 6 => pick [C, 0, 0, C, C, C, C, C]
    | 7 => pick [0, 0, 0, 0, C, C, C, C]
    | 8 => pick [0, 0, 0, 0, C, C, C, C]
    | 9 => none
    | 0x20 => pick [stBeyond, 0, 0, 0, C, C, C, C]
    | _ => none

/-- Commands that address a zone and have passed check 6, other than one (R83). -/
def zoneCmds (s : State) (zid cid : Nat) : Nat :=
  (s.cmds.filter (fun c => decide (c.zone = some zid) && decide (c.cid ≠ cid))).length

/-- STATE_CONFLICT with the RESULT_A of its opcode: the write pointer for ZONE_WRITE, the commands of R83 for ZONE_RESET
(R73). -/
def zoneConflict (s : State) (c : Cmd) : Result :=
  { status := stConflict,
    ra := if opc c = 2 then (zone s (cZid c)).wp else if opc c = 4 then zoneCmds s (cZid c) c.cid else 0 }

/-- The values that go with a refusal by state (R73). -/
def stateResult (s : State) (c : Cmd) (st : Nat) : Result :=
  if st = stErasing then
    let p := match layoutOf? s (cZid c) with
      | some lt =>
        let p := place s lt (cOff c)
        ((loc? s (cZid c) p.2.1).getD (0, 0), p.1)
      | none => ((0, 0), 0)
    { status := st, ra := cOff c, rb := p.1.2 * 2 ^ 32 + p.2, detail := p.1.1 }
  else if st = stConflict then zoneConflict s c
  else res st

/-- Checks 5 and 6: tenant (R57) and zone state. -/
def zoneCheck (s : State) (c : Cmd) : Option Result :=
  if zoneOpcode (opc c) then
    let e := zone s (cZid c)
    let t := cget s c.ring 0x1C 2 % 4096
    if decide (t ≠ 0) && !(decide (e.state = 0) || (e.tv && decide (e.tenant = t))) then some (res stTenant)
    else (stateCheck s (opc c) (cZid c)).map (stateResult s c)
  else none

/-! ### Doorbells -/

/-- A doorbell to a disabled ring is discarded and counted (R48). -/
def doorbellDiscard (s : State) : State := bump s regGlbDbDiscardCount 15 0 1

/-- COAL_TICKS have passed since the first unsignalled completion of a ring (R80). -/
def coalExpiry (s : State) (r : Nat) : State :=
  let rt := ringRt s r
  if decide (0 < rt.unsig) && decide (0 < rt.unsigLim) && due s rt.unsigAt rt.unsigLim then
    raiseRing (modRing s r (fun r => { r with unsig := 0 })) rt.unsigEvt
  else s

/-- COAL_TICKS_EXPIRY. -/
def execCoalTicksExpiry (ring : Ring) (s : State) : Out := ok (coalExpiry s ring.val)

/-- A KIND 1 value lies from the present CPL_HEAD forward to CPL_TAIL (R47). -/
def headInRange (s : State) (r v : Nat) : Bool :=
  let n := cplSize s r
  decide (v < n) && decide ((v + n - cget s r 0x16 2) % n ≤ (cget s r 0x14 2 + n - cget s r 0x16 2) % n)

/-- Consumes a latched CMD_TAIL (R46, R47). A value that shows fewer packets than were pending breaks R39: the
deadline bases of the ring's packets are then free values. DESIGN CHOICE: the packets fetched from then on, which R46 leaves
undefined, are those that the indices show (log entry 64). -/
def consumeTail (s : State) (r : Nat) : State :=
  let rt := ringRt s r
  match rt.latTail with
  | none => s
  | some v =>
    let s := modRing s r (fun r => { r with latTail := none })
    if cmdSize s r ≤ v then ringFault s r 1
    else
      let s := cset s r 0x12 2 v
      let n := pendingPkts s r
      if rt.bases.length ≤ n then
        modRing s r (fun x => { x with bases := x.bases ++ List.replicate (n - x.bases.length) rt.latTick })
      else
        let (f, s) := freeVal s
        modRing s r (fun x => { x with bases := List.replicate n f })

/-- Consumes a latched CPL_HEAD (R45, R47). -/
def consumeHead (s : State) (r : Nat) : State :=
  match (ringRt s r).latHead with
  | none => s
  | some v =>
    let s := modRing s r (fun r => { r with latHead := none })
    if headInRange s r v then cset s r 0x16 2 v else ringFault s r 1

/-- A quadrant scheduler works: it has been released (R584) and is not halted (R484), and the block is neither at a block
fault (R522) nor past the commit point of an entry, in DROWSE or in FURL (R530, R532). -/
def qscRuns (s : State) (q : Nat) : Bool :=
  s.boot.released && !s.blockFault && decide ((tget s.engines (40 + q) {}).mode ≠ 3) && !(bit (rd s regPwrState) 31) &&
    decide (rdf s regPwrState 1 0 ≤ 1)

/-- DOORBELL_CONSUME (R45 to R47): the ring's home scheduler takes the latched value. -/
def doorbellConsume (s : State) (r : Nat) (kind : Bool) : State :=
  if ringEnabled s r && qscRuns s (homeOf s r) then (if kind then consumeHead s r else consumeTail s r) else s

/-- DOORBELL_CONSUME. -/
def execDoorbellConsume (ring : Ring) (kind : Bool) (s : State) : Out := ok (doorbellConsume s ring.val kind)

/-! ### Writes to a context through the control port -/

/-- One 32-bit word of a context written. -/
def ctxPut (s : State) (r w v : Nat) : State := cset s r (4 * w) 4 v

/-- Words of a context with the bits that are not res, and without the fields that only the block writes: a ring leaves FAULT,
and takes a PHASE, only as R50 and R53 say. -/
def ctxMask (w : Nat) : Nat :=
  [0xFFFFF000, 0xFFFFFFFF, 0xFFFFF000, 0xFFFFFFFF, 0xFFFF0000, 0xFFFF0000, 0x070001FF, 0xFFFF0FFF, 0xFF0303FF,
   0xFFFFFFFF, 0xFFFFFFFF, 0xFFFFFFFF, 0xFFFFFFFF, 0xFFFFFFFF, 0, 0].getD w 0

/-- A control-port write to word `w` of the context of ring `r` (R49 to R51). -/
def ctxWrite (s : State) (r w v : Nat) : State :=
  if ringEnabled s r then
    if (ringRt s r).draining then cpErr s
    else if decide (w = 6) && !(bit v 8) then
      if inflight s r = 0 then setCtrl s r 0 0
      else modRing s r (fun x => { x with draining := true })
    else cpErr s
  else
    let old := bits (tget s.ctx r 0).toNat (32 * w + 31) (32 * w)
    let m := ctxMask w
    let new := (v &&& m) ||| (old &&& (0xFFFFFFFF ^^^ m))
    let s := ctxPut s r w new
    if decide (w = 6) && bit v 8 then
      let s := ringEnable s r
      if badSize (cget s r 0x18 1) then ringFault s r 5 else s
    else s

end Sys2Proof.Machine
end

