-- ==== Sys2Proof/Machine/Slots.lean ====
section
/-! DEFINITION. Configuration slots and measurement (chapter Engines, Microcode and Measured Configuration): what a unit
holds, stage items and their checks, the staged slots, audit digests, measurement registers and their log. -/

namespace Sys2Proof.Machine

/-! ### Units and their windows (R471) -/

/-- The units an item's UNIT names (R488). -/
def unitsOf (u : Nat) : List Nat :=
  if u < 59 then [u]
  else if u = 0xF0 then List.range 32
  else if u = 0xF1 then List.range' 32 8
  else if u = 0xF2 then List.range' 40 4
  else if u = 0xF3 then List.range' 44 4
  else if u = 0xF4 then List.range' 50 8
  else if u = 0xF5 then List.range 32 ++ List.range' 50 8
  else []

/-- The window that holds a unit's RWL registers: base and size (R471, R598). -/
def unitWindow (u : Nat) : Option (Nat × Nat) :=
  if u < 32 then some (chanBase u, 0x2000)
  else if 40 ≤ u ∧ u < 44 then some (quadBase (u - 40), 0x10000)
  else if u = 48 then some (0x30000, 0x10000)
  else if u = 49 then some (0x20000, 0x10000)
  else if u = 58 then some (0, 0x10000)
  else none

/-- Offsets, rising, of the RWL registers of a unit's window. -/
def rwlOffsets (u : Nat) : List Nat :=
  let expand (t : List RegRow) (lo hi : Nat) : List Nat :=
    (t.filter (fun r => decide (r.acc = .rwl))).flatMap (fun r =>
      ((List.range r.count).map (fun i => r.base + r.stride * i)).filterMap (fun a =>
        if lo ≤ a ∧ a < hi then some (a - lo) else none))
  let l := if u < 32 then expand chanRows 0 0x2000
    else match unitWindow u with
      | some (b, n) => if b < 0x80000 then expand globalRows b (b + n) else expand quadRows 0 n
      | none => []
  (l.foldl (fun (t : Tab Unit) o => tset t o ()) []).map (fun p => p.1)

/-- The unit whose window holds a control-port address. -/
def unitAt (a : Nat) : Option Nat :=
  if a < 0x10000 then some 58
  else if 0x20000 ≤ a ∧ a < 0x30000 then some 49
  else if 0x30000 ≤ a ∧ a < 0x40000 then some 48
  else if 0x80000 ≤ a ∧ a < 0x100000 then
    let q := (a - 0x80000) / 0x20000
    let o := (a - 0x80000) % 0x20000
    some (if o < 0x10000 then 40 + q else q * 8 + (o - 0x10000) / 0x2000)
  else none

/-- A unit's RWL registers as they stand, by control-port address. -/
def rwlLive (s : State) (u : Nat) : Tab Word :=
  match unitWindow u with
  | some (b, _) => (rwlOffsets u).map (fun o => (b + o, w32 (rd s (b + o))))
  | none => []

/-- An RWL register as work stamped with a generation sees it (R493, R494): the registers of the window hold the
current slot's values. -/
def rdGen (s : State) (gen a : Nat) : Nat :=
  match unitAt a with
  | none => rd s a
  | some u =>
    let old (t : Tab Slot) : Nat :=
      match tget? (tget t u {}).rwl a with
      | some w => w.toNat
      | none => rd s a
    if s.cfg.commitCid.isSome then
      if gen = s.cfg.nextGen then (if unitSwitched s u then rd s a else old s.cfg.next)
      else if unitSwitched s u then old s.cfg.prev else rd s a
    else if s.cfg.draining && decide (gen = s.cfg.prevGen) && decide (gen ≠ s.cfg.curGen) then old s.cfg.prev
    else rd s a

/-! ### Stage items (R488, R489) -/

def itUnit (b : List Byte) : Nat := fieldAt b 0 1
def itKind (b : List Byte) : Nat := fieldAt b 1 1
def itIndex (b : List Byte) : Nat := fieldAt b 2 2
def itLen (b : List Byte) : Nat := fieldAt b 4 4
def itAddr (b : List Byte) : Nat := fieldAt b 8 8

/-- May an item of the kind name the unit or broadcast code (R489)? -/
def kindUnit (k u : Nat) : Bool :=
  match k with
  | 0 | 1 => decide (u < 50) || (decide (0xF0 ≤ u) && decide (u ≤ 0xF3))
  | 2 | 3 => decide (u < 32) || decide (u = 0xF0)
  | 4 => decide (u = 0xF5)
  | 5 => decide (u = 49)
  | 6 => decide (u < 32) || (decide (40 ≤ u) && decide (u < 44)) || [48, 49, 58, 0xF0, 0xF2].contains u
  | _ => false

/-- Does the item's length fit its kind (R489)? -/
def kindLen (k idx n : Nat) : Bool :=
  match k with
  | 0 => decide (n % 4 = 0) && decide (0 < n) && decide (idx + n / 4 ≤ 16384)
  | 1 => decide (n = 512)
  | 2 => decide (n = 256)
  | 3 => decide (n = 5424)
  | 4 => decide (n = 76692)
  | 5 => decide (n = 272)
  | _ => decide (n % 8 = 0) && decide (n ≤ 2048)

/-- Does the item's INDEX fit its kind, and its address its alignment (R488, R489)? -/
def kindAddr (k idx a : Nat) : Bool :=
  decide (a % 4 = 0) && (match k with
    | 0 => decide (idx < 16384)
    | 2 | 3 | 5 => decide (idx < 16)
    | _ => decide (idx = 0))

/-- The pairs of a register image: window offset and value (R489). -/
def regPairs (b : List Byte) : List (Nat × Nat) :=
  (List.range (b.length / 8)).map (fun i => (fieldAt b (8 * i) 4, fieldAt b (8 * i + 4) 4))

/-- The rule of a code table: columns 515 to 580 lower triangular, a present circulant of shift 0 on the diagonal (R227). -/
def codeRule (code : List Byte) : Bool :=
  (List.range 66).all (fun r =>
    decide (codeEntry code r (515 + r) = (true, 0)) &&
    (List.range 66).all (fun j => decide (j ≤ r) || !(codeEntry code r (515 + j)).1))

/-- The rules of the tables in a register image: T_STOP above T_START of a thermal zone, RETIRE above WARN (R490). -/
def pairRule (u o v : Nat) : Bool :=
  if u = 49 then
    if 0x304 ≤ o ∧ o < 0x504 ∧ (o - 0x304) % 32 = 0 then decide (sbyte (bits v 31 24) < sbyte (bits v 23 16)) else true
  else if u = 58 then
    if 0x1640 ≤ o ∧ o < 0x1680 then decide (bits v 7 0 < bits v 15 8) else true
  else true

/-- Why an item with its image is refused (R490): the REASON of GLB_CFG_ERR. -/
def itemReason (b img : List Byte) : Option Nat :=
  let u := itUnit b
  let k := itKind b
  if !(kindUnit k u) then some 1
  else if !(kindLen k (itIndex b) (itLen b)) then some 2
  else if !(kindAddr k (itIndex b) (itAddr b)) then some 3
  else
    let offs := rwlOffsets ((unitsOf u).headD 0)
    if k = 6 ∧ (regPairs img).any (fun p => !(offs.contains p.1)) then some 4
    else if k = 6 ∧ (regPairs img).any (fun p => !(pairRule u p.1 p.2)) then some 5
    else if k = 4 ∧ !(codeRule img) then some 5
    else none

/-! ### Slots -/

/-- A sparse word written; 0 removes it. -/
def wput (t : Tab Word) (k : Nat) (v : Word) : Tab Word := if v = 0 then terase t k else tset t k v

/-- A sparse number written; 0 removes it. -/
def nput (t : Tab Nat) (k v : Nat) : Tab Nat := if v = 0 then terase t k else tset t k v

/-- The current slot of a unit with its RWL registers as they stand. -/
def curSlot (s : State) (u : Nat) : Slot := { tget s.cfg.cur u {} with rwl := rwlLive s u }

/-- One item written over a slot (R491). A microword image that covers an earlier span whole takes its place. -/
def putItem (sl : Slot) (u : Nat) (b img : List Byte) : Slot :=
  let idx := itIndex b
  match itKind b with
  | 0 =>
    let n := img.length / 4
    let kept := sl.spans.filter (fun p => !(decide (idx ≤ p.1) && decide (p.1 + p.2.1 ≤ idx + n)))
    { sl with
      words := (List.range n).foldl (fun t i => wput t (idx + i) (w32 (fieldAt img (4 * i) 4))) sl.words,
      spans := kept ++ [(idx, n, itAddr b)] }
  | 1 => { sl with
      disp := (List.range 256).foldl (fun t i => nput t i (fieldAt img (2 * i) 2 &&& 0xBFFF)) sl.disp,
      dispAt := some (itAddr b) }
  | 2 => { sl with dies := tset sl.dies idx img }
  | 3 => { sl with levels := tset sl.levels idx img }
  | 4 => { sl with code := img }
  | 5 => { sl with costs := tset sl.costs idx img }
  | _ =>
    let base := ((unitWindow u).getD (0, 0)).1
    { sl with
      rwl := (regPairs img).foldl (fun t p =>
        let m := ((regRow? (base + p.1)).map (fun r => r.mask)).getD 0
        tset t (base + p.1) (w32 (p.2 &&& m))) sl.rwl }

/-- Items written over a set of slots, in item order; the first item that is refused and why (R490, R491). An item comes
with its image. -/
def putItems : List (List Byte × List Byte) → Nat → Tab Slot → Except (Nat × Nat × Nat) (Tab Slot)
  | [], _, t => .ok t
  | (b, img) :: r, i, t =>
    match itemReason b img with
    | some why => .error (why, itUnit b, i)
    | none =>
      let t := (unitsOf (itUnit b)).foldl (fun t u => tset t u (putItem (tget t u {}) u b img)) t
      if t.any (fun p => decide (16 < p.2.spans.length)) then .error (6, itUnit b, i)
      else putItems r (i + 1) t

/-- Every unit's current slot, copied (R491). -/
def copySlots (s : State) : Tab Slot := (List.range 59).map (fun u => (u, { curSlot s u with digest := none }))

/-- GLB_CFG_ERR of a refusal (R505). -/
def cfgErr (s : State) (e : Nat × Nat × Nat) : State :=
  cfgFlag (wr s regGlbCfgErr (2 ^ 31 + e.1 * 2 ^ 24 + e.2.1 * 2 ^ 16 + e.2.2)) 0

/-! ### Audit digests (R497) -/

/-- The bytes that a unit's audit digest covers, in the order of R497. -/
def auditBytes (u : Nat) (sl : Slot) : List Byte :=
  let micro := if u < 50 then
      (List.range 256).flatMap (fun i => leBytes 2 (tget sl.disp i 0)) ++
      (List.range 16384).flatMap (fun i => leBytes 4 (tget sl.words i 0).toNat)
    else []
  let base := ((unitWindow u).getD (0, 0)).1
  micro ++ sl.dies.flatMap (fun p => p.2) ++ sl.levels.flatMap (fun p => p.2) ++ sl.code ++
    sl.costs.flatMap (fun p => p.2) ++
    sl.rwl.flatMap (fun p => leBytes 4 (p.1 - base) ++ leBytes 4 p.2.toNat)

/-- A unit's audit digest: the first 16 bytes of the SHA-384 (R497). -/
def auditDigest (u : Nat) (sl : Slot) : List Byte := (sha384 (auditBytes u sl)).take 16

/-- The digest stored for a slot at its stage (R491, R591). -/
def storedDigest (u : Nat) (sl : Slot) : List Byte := sl.digest.getD (auditDigest u sl)

/-! ### Measurement (R499 to R504) -/

/-- A measurement register. -/
def meas (s : State) (i : Nat) : List Byte := tget s.cfg.meas i (zeros 48)

/-- A measurement register extended by a digest, with its log entry while the log has room (R499, R500). -/
def measExtend (s : State) (reg kind unit gen len : Nat) (d : List Byte) : State :=
  let s := { s with cfg := { s.cfg with meas := tset s.cfg.meas reg (sha384 (meas s reg ++ d)) } }
  if 4096 ≤ s.cfg.log.length then cfgFlag s 1
  else
    let e : LogEntry := { seq := s.cfg.logSeq, reg := reg, kind := kind, unit := unit, gen := gen, len := len, digest := d }
    { s with cfg := { s.cfg with log := s.cfg.log ++ [e], logSeq := s.cfg.logSeq + 1 } }

/-- Room in the measurement log for `n` more entries (R500). -/
def logRoom (s : State) (n : Nat) : Bool := decide (s.cfg.log.length + n ≤ 4096)

/-- The measurements of an item (R501, R502): register and bytes; a kind 0 or 1 item for a CSQ that spans the fixed and
the patch region gives two, the fixed part first (R485). -/
def itemMeas (b img : List Byte) : List (Nat × List Byte) :=
  let csq := decide (itUnit b < 32) || decide (itUnit b = 0xF0)
  let cut := if itKind b = 0 then 4 * (0x3000 - itIndex b) else 2 * 0xC0
  match itKind b with
  | 0 | 1 =>
    if csq then
      (if 0 < cut then [(1, img.take cut)] else []) ++ (if cut < img.length then [(2, img.drop cut)] else [])
    else [(1, img)]
  | 5 => [(4, img)]
  | 6 => [(5, img)]
  | _ => [(3, img)]

/-- Items measured in load order (R501). A broadcast item is measured once. -/
def measItems (s : State) (gen : Nat) (items : List (List Byte × List Byte)) : State :=
  items.foldl (fun s p => (itemMeas p.1 p.2).foldl (fun s m =>
    measExtend s m.1 (itKind p.1) (itUnit p.1) gen m.2.length (sha384 m.2)) s) s

/-- Log entries that items need. -/
def measCount (items : List (List Byte × List Byte)) : Nat := (items.map (fun p => (itemMeas p.1 p.2).length)).sum

/-- A log entry as 64 bytes (R500). -/
def logBytes (e : LogEntry) : List Byte :=
  leBytes 4 e.seq ++ leBytes 1 e.reg ++ leBytes 1 e.kind ++ leBytes 1 e.unit ++ leBytes 1 0 ++ leBytes 4 e.gen ++
  leBytes 4 e.len ++ e.digest

/-! ### Switching slots -/

/-- A unit's registers take the values of a slot. -/
def loadRwl (s : State) (sl : Slot) : State := sl.rwl.foldl (fun s p => wr s p.1 p.2.toNat) s

/-- A unit switches: its next slot becomes current, its former current slot becomes draining; an engine goes on in its
other bank (R472, R493). -/
def switchUnit (s : State) (u : Nat) : State :=
  let s := if u < 50 then { s with engines := tmod s.engines u {} (fun e => { e with bank := 1 - e.bank }) } else s
  match tget? s.cfg.next u with
  | some sl =>
    let old := curSlot s u
    let s := loadRwl s sl
    { s with cfg := { s.cfg with
        cur := tset s.cfg.cur u { sl with rwl := [] }, prev := tset s.cfg.prev u old,
        next := terase s.cfg.next u, switched := tset s.cfg.switched u () } }
  | none => { s with cfg := { s.cfg with switched := tset s.cfg.switched u () } }

/-- A unit reaches a safe point: during a commit it switches there, once (R477, R493). -/
def safePoint (s : State) (u : Nat) : State :=
  if s.cfg.commitCid.isSome && (tget? s.cfg.switched u).isNone then switchUnit s u else s

/-- Does an engine's control-store line, or its dispatch table, still match its DRAM image (R481)? A word that no
image covers is the fill. -/
def imageMatches (s : State) (sl : Slot) (line : Nat) : Bool :=
  if line < 1024 then
    (List.range' (16 * line) 16).all (fun a =>
      match sl.spans.reverse.find? (fun p => decide (p.1 ≤ a) && decide (a < p.1 + p.2.1)) with
      | some p => decide (leNat (dramRead s (p.2.2 + 4 * (a - p.1)) 4) = (tget sl.words a 0).toNat)
      | none => true)
  else
    match sl.dispAt with
    | some a => (List.range 256).all (fun i =>
        decide (leNat (dramRead s (a + 2 * i) 2) &&& 0xBFFF = tget sl.disp i 0))
    | none => true

end Sys2Proof.Machine
end

