-- ==== Sys2Proof/Machine/Flash.lean ====
section
/-! DEFINITION. Flash work: operations and codeword reads as they wait (chapter Channel Sequencers and NAND Operations),
what they cost, the estimates and the eligibility on which the governor rests (chapters The Governor, The Read Path). -/

namespace Sys2Proof.Machine

/-! ### Kinds, leads and shares (R362) -/

/-- Place of a kind in the tie order (R364). -/
def kindRank : Kind → Nat
  | .a => 0 | .j => 1 | .s => 2 | .w => 3 | .e => 4 | .b => 5 | .h => 6 | .m => 7 | .x => 8

/-- Share of a kind: 0 b, 1 h, 2 m, 3 x (R362). -/
def kindShare : Kind → Option Nat
  | .b => some 0 | .h => some 1 | .m => some 2 | .x => some 3 | _ => none

/-- Lead of a kind in ticks (R362). -/
def lead (s : State) : Kind → Nat
  | .a => 1000000
  | .j | .s | .w => 1000 * rdf s regGovLead0 31 16
  | .e => 1000 * rdf s regGovLead0 15 0
  | .b => 1000 * rdf s regGovLead1 31 16
  | .m => 1000 * rdf s regGovLead1 15 0
  | .x => 1000 * rdf s regGovLead2 31 16
  | .h => 1000 * rdf s regGovLead2 15 0

/-- A deadline of a kind: the real one, or now plus the lead; and whether it is real (R362, R374). -/
def kindDeadline (s : State) (k : Kind) (d : Option Nat) : Nat × Bool :=
  match d with
  | some t => (t, true)
  | none => (s.tick + lead s k, false)

/-! ### Cost (R349 to R351) -/

/-- The cost table of a LUN's model. -/
def costOf (s : State) (g : Nat) : List Byte :=
  tget (slotAt s 49 (genNow s)).costs ((lun? s g).map (fun l => l.model) |>.getD 0) []

/-- A field of a cost class. -/
def costF (t : List Byte) (n o w : Nat) : Nat := fieldAt t (0x10 + 16 * n + o) w

/-- Cost class of an operation (R350). -/
def opClass : OpType → Nat
  | .read => 0 | .prog => 1 | .slc => 2 | .erase => 3 | .rawSeq => 7

/-- Planes an operation works on. -/
def opPlanes (s : State) (o : Op) : Nat :=
  let d := dieOf s o.glun
  match o.type with
  | .read => max 1 (dedupNat (o.cws.map (fun c => c.1 % dmPlanes d))).length
  | .rawSeq => 1
  | _ => dmPlanes d

/-- KIND, ROW and VALUE of an entry of a raw sequence (R184). -/
def rsKind (b : List Byte) (i : Nat) : Nat := fieldAt b (8 * i + 7) 1
def rsRow (b : List Byte) (i : Nat) : Bool := bit (fieldAt b (8 * i + 6) 1) 0
def rsValue (b : List Byte) (i : Nat) : Nat := fieldAt b (8 * i) 4

/-- The entries of a sequence that run from entry `i` to the next wait or END, and the KIND of that one. -/
def rsSegment (b : List Byte) (n i : Nat) : List Nat × Nat :=
  let stop (k : Nat) : Bool := decide (k = 0) || decide (k = 5) || decide (k = 6)
  let l := List.range' i (n - i)
  (l.takeWhile (fun k => !(stop (rsKind b k))), ((l.find? (fun k => stop (rsKind b k))).map (rsKind b)).getD 0)

/-- How often an operation is charged its class when it is admitted: a raw sequence only for a part that ends in WAIT_RDY (R351). -/
def charges (s : State) (o : Op) : Nat :=
  match o.type, o.use with
  | .rawSeq, .raw cid => (match cmd? s cid with
    | some c => b2n (decide ((rsSegment c.bytes (cCount c) (c.acc.getD 0 0)).2 = 5))
    | none => 1)
  | _, _ => 1

/-- VCC peak of an operation (R351). -/
def opPeak (s : State) (o : Op) : Nat :=
  let t := costOf s o.glun
  charges s o * (costF t (opClass o.type) 0 2 + (opPlanes s o - 1) * costF t (opClass o.type) 2 2)

/-- Energy of an operation in nJ (R351). -/
def opEnergy (s : State) (o : Op) : Nat :=
  let t := costOf s o.glun
  let d := dieOf s o.glun
  let i := match o.type with | .prog => cbOf d | .slc => cbsOf d | _ => 0
  charges s o * (costF t (opClass o.type) 8 4 + (opPlanes s o - 1) * costF t (opClass o.type) 12 4) + i * costF t 5 8 4 +
    (if o.type = .read then o.cws.length else 0) * costF t 4 8 4

/-- Energy of a suspend and its resume (R350). -/
def suspEnergy (s : State) (g : Nat) : Nat := costF (costOf s g) 6 8 4

/-! ### Estimates (R259, R354) -/

/-- A core time under the latest pace factor (R354). -/
def scaled (s : State) (t : Nat) : Nat :=
  let n := if paceValid s then max 1 (rdf s regGlbPace 15 0) else 9093
  t * 12288 / n

/-- Rates of the rungs in MT/s (R197). -/
def rungRate (r : Nat) : Nat := [4800, 3600, 2400, 1600, 800, 400, 50].getD r 50

/-- Rate at which a LUN runs in MT/s: the lower of its channel's rung and its model's RATE_MAX (R136). A model that states no
RATE_MAX bounds nothing. -/
def lunRate (s : State) (g : Nat) : Nat :=
  let r := rungRate (rdf s (regPhyState (chOf g)) 6 4)
  let m := 100 * (dmByte (dieOf s g) 0x2C).toNat
  if m = 0 then r else min r m

/-- Ticks in which a LUN's channel moves `n` bytes for it. -/
def busTicks (s : State) (g n : Nat) : Nat := (n * 100 + lunRate s g - 1) / lunRate s g

/-- t_read of a read (R259). -/
def tRead (s : State) (o : Op) : Nat :=
  fieldAt (dieOf s o.glun) 0x30 4 + busTicks s o.glun (4648 * o.cws.length) + scaled s 179

/-- t_wait for an operation that runs (R259). -/
def tWait (s : State) (o : Op) : Nat :=
  let d := dieOf s o.glun
  max (fieldAt d 0x2E 2) (dmTime d o.type false + o.suspTicks - (s.tick - o.confirm))

/-- The longest suspend latency of an operation (R158). -/
def suspLatency (s : State) (o : Op) : Nat :=
  let d := dieOf s o.glun
  if o.type = .erase then fieldAt d 0x56 2 else fieldAt d 0x54 2

/-- Bus time of a read's codewords and its greatest array time: what R161 adds to the suspended time. -/
def suspNeed (s : State) (rd_ : Op) : Nat :=
  fieldAt (dieOf s rd_.glun) 0x34 4 + busTicks s rd_.glun (4648 * rd_.cws.length)

/-- R159 still allows a suspend that serves a read. -/
def suspRoom (s : State) (o rd_ : Op) : Bool :=
  decide (o.suspends < 8) && decide (o.suspTicks + suspLatency s o + suspNeed s rd_ ≤ 200000)

/-- t_susp, where a suspend is permitted now (R159, R160, R259). -/
def tSusp (s : State) (o rd_ : Op) : Option Nat :=
  if (decide (o.type = .prog) || decide (o.type = .slc) || decide (o.type = .erase)) && suspRoom s o rd_ &&
      (decide (o.suspends = 0) || decide (o.resumeAt + fieldAt (dieOf s o.glun) 0x50 4 ≤ s.tick)) then
    some (suspLatency s o)
  else none

/-! ### Operations on a LUN -/

/-- Does an operation occupy its LUN: a transfer begun, admitted, in the array or reading out (R148, R153)? -/
def opActive (o : Op) : Bool :=
  match o.phase with
  | .waiting => decide (0 < o.pages)
  | _ => true

/-- In the array or suspended: the intervals of R153 and R352. -/
def opInArray (o : Op) : Bool :=
  match o.phase with
  | .busy | .stopping _ | .stopped _ => true
  | _ => false

/-- A transfer that is not admitted (R369). A raw sequence that waits for the admission of its next part is none: it keeps its LUN until
END (R186). -/
def opUnadmitted (o : Op) : Bool :=
  match o.phase with
  | .waiting => decide (0 < o.pages) && decide (o.type ≠ .rawSeq)
  | .loaded _ => true
  | _ => false

/-- The operations that occupy a LUN, but for one. -/
def lunOps (s : State) (g id : Nat) : List Op := s.ops.filter (fun o => decide (o.glun = g) && opActive o && decide (o.id ≠ id))

/-- The program or erase that runs in a LUN. -/
def runningOn (s : State) (g : Nat) : Option Op :=
  s.ops.find? (fun o => decide (o.glun = g) && decide (o.type ≠ .read) && opInArray o)

/-- A channel in service: UP or DERATED (R217). -/
def chanUp (s : State) (c : Nat) : Bool := decide (rdf s (regPhyState c) 1 0 = 0) || decide (rdf s (regPhyState c) 1 0 = 2)

/-- Plane-pages of a program. -/
def opPages (s : State) (o : Op) : Nat :=
  let d := dieOf s o.glun
  match o.type with
  | .prog => dmPlanes d * dmBits d
  | .slc => dmPlanes d
  | _ => 0

/-- R161 and R163 let a read be issued past an operation that is suspended: the suspended time stays within its limit, and the
read's word line lies below that of a suspended program of the same LUN-block. -/
def readsPast (s : State) (u rd_ : Op) : Bool :=
  match u.phase with
  | .stopped at_ => decide (u.suspTicks + (s.tick - at_) + suspNeed s rd_ ≤ 200000) &&
      !(decide (u.block = rd_.block) && decide (u.wl ≤ rd_.wl) && decide (u.type ≠ .erase))
  | _ => false

/-! ### Queueing -/

/-- An operation queued under the next number, with the current generation. -/
def queueOp (s : State) (o : Op) : State :=
  let (id, s) := fresh s
  { s with ops := s.ops ++ [{ o with id := id, gen := genNow s }] }

/-- A program queued; one on a LUN-block whose last erase was interrupted follows another erase (R168). -/
def queueProg (s : State) (o : Op) : State :=
  let s := if (blkSt s o.glun o.block).interrupted &&
      !(s.ops.any (fun x => decide (x.glun = o.glun) && decide (x.block = o.block) && decide (x.use = .again))) then
      queueOp s { o with type := .erase, use := .again, wl := 0, needSeq := 0 }
    else s
  queueOp s o

/-- The array read that a codeword waits on has a place for it: same LUN-block, word line and bit-page, same offset
set, not yet admitted (R145). -/
def joins (o : Op) (g b wl bp : Nat) (slc : Bool) (lv : List Int) : Bool :=
  decide (o.type = .read) && decide (o.phase = .waiting) && decide (o.glun = g) && decide (o.block = b) &&
  decide (o.wl = wl) && decide (o.bitpage = bp) && decide (o.slc = slc) && decide (o.levels = lv)

/-- A read serves one more codeword's item. DESIGN CHOICE: a read that serves work of different kinds (R145, R243) goes as one
operation of the kind that comes first in the tie order of R364, under its share, with the earlier deadline (log entry 65). -/
def hasten (o : Op) (i : Item) : Op :=
  let first := decide (kindRank i.kind < kindRank o.kind)
  { o with
    kind := if first then i.kind else o.kind, share := if first then i.share else o.share,
    real := if i.deadline < o.deadline then i.real else o.real, deadline := min o.deadline i.deadline }

/-- A read of one codeword queued for an item, joined to a waiting multi-plane read where one fits (R145). -/
def queueRead (s : State) (i : Item) (lv : List Int) : State :=
  let d := dieOf s i.glun
  let bp := i.page / dmPlanes d
  let cw := (i.page, i.cw, i.id)
  let fits (o : Op) : Bool := joins o i.glun i.block i.wl bp i.slc lv && !(o.cws.any (fun x => x.2.2 = i.id))
  if s.ops.any fits then
    { s with ops := modFirst fits (fun o => { hasten o i with cws := o.cws ++ [cw] }) s.ops }
  else
    queueOp s { id := 0, kind := i.kind, type := .read, glun := i.glun, block := i.block, wl := i.wl, slc := i.slc,
                bitpage := bp, levels := lv, cws := [cw], deadline := i.deadline, real := i.real, share := i.share }

/-- Offset sets saturate byte by byte. -/
def sat8 (x : Int) : Int := max (-128) (min 127 x)

/-- Two offset sets added, saturating. -/
def addLevels (a b : List Int) : List Int := (List.range 16).map (fun i => sat8 (a.getD i 0 + b.getD i 0))

/-- The read-level table of a LUN's model, under a generation (R246, R249). -/
def rlOf (s : State) (gen g : Nat) : List Byte :=
  tget (slotAt s (chOf g) gen).levels ((lun? s g).map (fun l => l.model) |>.getD 0) []

/-- A table's offset set of 16 signed bytes. -/
def rlSet (t : List Byte) (o : Nat) : List Int := (List.range 16).map (fun i => sbyte (fieldAt t (o + i) 1))

/-- Retry steps in use (R246). -/
def rlSteps (t : List Byte) : Nat := fieldAt t 1 1 % 16

/-- The offset set of a hard step: the prediction, or it plus DELTA (R250). -/
def hardSet (t : List Byte) (base : List Int) (n : Nat) : List Int :=
  if n = 0 then base else addLevels base (rlSet t (0x1440 + 16 * (n - 1)))

/-- The centre of the soft steps (R250): the set of the hard step with the fewest unsatisfied checks, step 0 on a tie. -/
def centreStep (fails : List (Nat × Nat)) : Nat :=
  match leastOf (fun p => p.2) fails with
  | [p] => p.1
  | _ => 0

/-- The offset set of a RAW_READ with LEVELS `n`: the die defaults, or that of retry step n (R182, R250). DEDUCED: of a soft step, with
no hard decode before it, it is that of the step's first read around the prediction. The spec names no other step: `base` then holds
a free value (log entry 21). -/
def rawLevelSet (t : List Byte) (base : List Int) (n : Nat) : List Int :=
  if n = 0 then List.replicate 16 0
  else if n ≤ 15 then hardSet t base n
  else if n = 0x11 then base.map (fun y => sat8 (y + sbyte (fieldAt t 3 1)))
  else base

/-- The offset sets of the reads of a step (R250). -/
def stepSets (t : List Byte) (i : Item) : List (List Int) :=
  let c := hardSet t i.base (centreStep i.fails)
  let sh (x : Int) : List Int := c.map (fun y => sat8 (y + x))
  let d1 := sbyte (fieldAt t 2 1)
  let d2 := sbyte (fieldAt t 3 1)
  match i.exact, i.level with
  | some l, _ => [l]
  | none, some n => [rawLevelSet t i.base n]
  | none, none =>
    if i.step = 0x10 then [c, sh d1, sh (-d1)]
    else if i.step = 0x11 then [sh d2, sh (-d2)]
    else [hardSet t i.base i.step]

/-- The reads of an item's present step are queued (R250, R251). -/
def queueStep (s : State) (i : Item) : State :=
  (stepSets (rlOf s i.gen i.glun) i).foldl (fun s lv => queueRead s i lv) s

/-! ### Held back -/

/-- Programs and erases are held back: while PFAIL_N has not been high for FILTER ticks since a reset that found it low (R569);
after a power-fail warning, but for staging extents and journal pages before PFAIL_DONE (R291, R292); in a block fault (R522). -/
def flashHeld (s : State) (o : Op) : Bool :=
  if o.type = .read then false
  else if s.jrn.pfHold then true
  else if s.blockFault then !(decide (o.kind = .s) || decide (o.kind = .j)) || s.jrn.pfDone
  else if s.jrn.pfDone then true
  else s.jrn.pfActive && !(decide (o.kind = .s) || decide (o.kind = .j))

/-- Queued codewords of a quadrant's two pools, as decode work in ticks (R363). -/
def decodeWork (s : State) (q : Nat) : Nat :=
  scaled s (((s.items.filter (fun i => decide (i.stage = .staged) && decide (quadOf i.glun = q))).length) * 179) / 16

/-- R113 and R125 allow a member of a row to start its program: the row before has ended, the parity members have started before
any data member, a data member starts after those below it and while fewer than m members are in program. -/
def memberMayStart (s : State) (rid j : Nat) : Bool :=
  match row? s rid with
  | none => true
  | some r =>
    match layoutOf? s r.zid with
    | none => true
    | some lt =>
      let started (i : Nat) : Bool := match tget r.memb i .idle with | .idle | .queued => false | _ => true
      let inProg (i : Nat) : Bool := s.ops.any (fun o => decide (o.use = .member rid i) && opInArray o)
      !(s.rows.any (fun x => decide (x.zid = r.zid) && decide (x.row + 1 = r.row) && decide (x.rid ≠ r.rid))) &&
      (if lt.k ≤ j then decide (r.phase = .programming)
       else (List.range' lt.k lt.m).all started && (List.range j).all started &&
         decide (((List.range (width lt)).filter inProg).length < lt.m))

/-- The operation programs a staging word line. -/
def isStage (o : Op) : Bool := match o.use with | .stage .. => true | _ => false

/-- R120 allows a staging word line of a set to start its program: fewer than m of the set's LUNs in program, and every earlier
staging word line of the LUN done. -/
def stageMayStart (s : State) (o : Op) (sid set : Nat) : Bool :=
  match stg? s sid with
  | none => true
  | some g =>
    let m := ((stgLayout s g.fg set).map (fun lt => lt.m)).getD 1
    let inSet (x : Op) : Bool := isStage x && (stgSet s g.fg set).contains (x.glun, x.block) && decide (x.id ≠ o.id)
    decide ((s.ops.filter (fun x => inSet x && (opInArray x || decide (x.phase = .granted)))).length < m) &&
    !(s.ops.any (fun x => isStage x && decide (x.glun = o.glun) && decide (x.id < o.id)))

/-- A program of a lower word line of the same LUN-block has yet to start (R156). -/
def belowWaits (s : State) (o : Op) : Bool :=
  s.ops.any (fun x => decide (x.id ≠ o.id) && decide (x.glun = o.glun) && decide (x.block = o.block) && decide (x.wl < o.wl) &&
    (decide (x.type = .prog) || decide (x.type = .slc)))

/-- The failure group whose rebuild an operation belongs to: a program on a spare, or a read for rebuilt chunks. -/
def rebuildOf (s : State) (o : Op) : Option Nat :=
  match o.use with
  | .rebuild fg _ _ _ => some fg
  | _ =>
    (o.cws.head?.bind (fun c => s.items.find? (fun i => i.id = c.2.2))).bind (fun i => i.use.findSome? (fun u =>
      match u with
      | .survivor r _ => (s.recons.find? (fun x => x.id = r)).bind (fun x =>
          match x.use with | .spare fg _ _ _ => some fg | _ => none)
      | _ => none))

/-- A pause holds rebuild reads and programs that are not admitted yet (R332). -/
def rebuildHeld (s : State) (o : Op) : Bool :=
  decide (o.kind = .b) && (match rebuildOf s o with | some fg => (group s fg).paused | none => false)

/-- A soft step of a codeword has begun its reads on the LUN, back to back: other operations wait for them (R251). -/
def softHolds (s : State) (o : Op) : Bool :=
  let reads (i : Item) (x : Op) : Bool := decide (x.type = .read) && x.cws.any (fun c => c.2.2 = i.id)
  s.items.any (fun i => decide (i.glun = o.glun) && decide (0x10 ≤ i.step) && decide (i.stage = .reading) && !(reads i o) &&
    (decide (0 < i.reads) || s.ops.any (fun x => reads i x && decide (x.phase ≠ .waiting))))

/-- The rules of R361 for an operation, protection apart. Reads of busy LUNs are decided apart (R370). -/
def mayPropose (s : State) (o : Op) : Bool :=
  let c := chOf o.glun
  let users := (lunOps s o.glun o.id).filter (fun u =>
    !(decide (o.type = .read) && decide (u.type = .erase) && decide (u.phase = .granted) && decide (u.block = o.block)))
  let waits := match o.phase with | .waiting | .loaded _ => true | _ => false
  let free := if o.kind = .a ∧ o.type = .read then
      users.all (fun u => opUnadmitted u || readsPast s u o)
    else users.isEmpty
  waits && free && chanUp s c && !(softHolds s o) && !(flashHeld s o) && !(rebuildHeld s o) && decide (o.needSeq ≤ s.jrn.durable) && !o.hit &&
  (match o.type with
    | .read => decide (o.kind = .a) || decide (o.kind = .s) || decide (decodeWork s (quadOf o.glun) < rdGen s o.gen regGovDecLimit)
    | .erase => !(s.ops.any (fun x => decide (x.type = .read) && decide (x.glun = o.glun) && decide (x.block = o.block)))
    | .rawSeq => true
    | _ => !(belowWaits s o) &&
        !(s.ops.any (fun x => decide (x.use = .again) && decide (x.glun = o.glun) && decide (x.block = o.block)))) &&
  (match o.use with
    | .member rid j => memberMayStart s rid j
    | .stage sid set _ _ => stageMayStart s o sid set
    | _ => true)

/-- A zone or staging program whose LUN is protected is not admitted: it waits under R131. Other work meets protection at its first
setup byte (R174). -/
def waitsOn (s : State) (o : Op) : Bool :=
  (match o.use with | .member .. | .stage .. => true | _ => false) && protected? s o.glun

/-- Is an operation eligible to be proposed (R361)? -/
def eligibleOp (s : State) (o : Op) : Bool := mayPropose s o && !(waitsOn s o)

/-! ### The bus (R139, R140, R149, R152, R153) -/

/-- The row address of a page (R139). -/
def rowAddr (d : List Byte) (g block wl plane bitpage : Nat) : Nat :=
  let pg := wl * dmBits d + bitpage
  let row := pg ||| (plane <<< fieldAt d 0x11 1) ||| (block <<< fieldAt d 0x12 1)
  if bit (dmFlags d) 3 then row else row ||| ((g % 8) <<< fieldAt d 0x13 1)

/-- Row-address cycles. -/
def rowCycles (d : List Byte) (row : Nat) : List Byte := leBytes (fieldAt d 0x0F 1 / 16) row

/-- Column-address cycles. -/
def colCycles (d : List Byte) (cw : Nat) : List Byte := leBytes (fieldAt d 0x0F 1 % 16) (cw * 4648)

/-- Bytes put on a channel's bus for a LUN: its chip enable alone is low (R152), its volume is selected (R140). -/
def busPut (s : State) (g : Nat) (l : List Byte) : State :=
  { s with
    buses := tmod s.buses (chOf g) {} (fun b => { b with
      ce := some (ceOf g), bytes := l,
      volume := if bit (dmFlags (dieOf s g)) 3 then tset b.volume (ceOf g) (g % 8) else b.volume }) }

/-- The op whose data-out holds a channel's bus. -/
def leavingOp (s : State) (c : Nat) : Option Op := s.ops.find? (fun o => decide (chOf o.glun = c) && o.leaving)

/-- What a channel's PHY keeps. -/
def phy (s : State) (c : Nat) : PhySt := tget s.phys c {}

/-- A PHY's record changed. -/
def modPhy (s : State) (c : Nat) (f : PhySt → PhySt) : State := { s with phys := tmod s.phys c {} f }

/-- Polls may cross a channel's bus: no data-out holds it, and the channel is in service, or in RETRAIN with its PLL locked, where the
sequencer still learns which operations end (R204, R216, R218). -/
def busOpen (s : State) (c : Nat) : Bool :=
  (leavingOp s c).isNone && (chanUp s c || (decide (rdf s (regPhyState c) 1 0 = 1) && !(phy s c).unlocked))

/-! ### Release -/

/-- The peaks that an operation holds leave their sluices (R352, R353). -/
def releaseOp (s : State) (o : Op) : State :=
  let r := rdf s (regGovChmap (chOf o.glun)) 2 0
  let v := 8 + rdf s (regGovChmap (chOf o.glun)) 10 8
  let u := tset s.gov.used r (wrapSub 16 (tget s.gov.used r 0) o.peak)
  { s with gov := { s.gov with used := tset u v (wrapSub 16 (tget u v 0) o.vccq) } }

/-- An operation ends: its sluice current is released and it leaves its LUN. -/
def dropOp (s : State) (o : Op) : State :=
  releaseOp { s with ops := s.ops.filter (fun x => x.id ≠ o.id) } o

/-- A command byte with the row-address cycles that select its LUN (R153). DEDUCED: suspends, resumes and RESET_LUN, for which no
phase table stands, carry row-address cycles after their byte as a status poll does (log entry 66). -/
def lunBytes (s : State) (g at_ block wl : Nat) : List Byte :=
  let d := dieOf s g
  dmByte d at_ :: rowCycles d (rowAddr d g block wl 0 0)

/-- RESET_LUN (R149): its byte goes to the LUN, whose read-level shadow is invalid from then on (R146). Where a data-out holds the
bus, it stands for the byte that follows it. -/
def resetLun (s : State) (g : Nat) : State := modLun (busPut s g (lunBytes s g 0x22 0 0)) g (fun l => { l with shadow := none })

/-- An unconfirmed transfer is abandoned with RESET_LUN and made again later (R149). -/
def abandon (s : State) (o : Op) : State :=
  resetLun (modOp s o.id (fun o =>
    if o.phase = .granted then { o with pages := 0 } else { o with pages := 0, phase := .waiting })) o.glun

end Sys2Proof.Machine
end

