-- ==== Sys2Proof/Machine/Ageing.lean ====
section
/-! DEFINITION. The ageing records (chapter Measured Ageing and Maintenance Work): the store, a record's fields, what
erases, programs and decodes change in it, relocation advice, and the offset set predicted from it (R247). -/

namespace Sys2Proof.Machine

/-! ### Temperatures -/

/-- The thermal zone of a channel (R346). -/
def chZone (s : State) (c : Nat) : Nat := rdf s (regGovChmap c) 19 16

/-- A signed byte of a zone's curve: 0 T_START, 1 T_STOP, 2 T_CRIT (R380). -/
def zCurve (s : State) (z i : Nat) : Int := sbyte (rdf s (regGovZcurve z) (31 - 8 * i) (24 - 8 * i))

/-- The THERM sensors in a zone's mask. -/
def zSensors (s : State) (z : Nat) : List Nat :=
  (List.range 64).filter (fun i => bit (rd64 s (regGovZsensLo z) (regGovZsensHi z)) i)

/-- The staleness limit. -/
def staleTicks (s : State) : Nat := rd s regGovThermStale

/-- Die readings of a zone that are not older than the limit. -/
def zDies (s : State) (z : Nat) : List Int :=
  (s.gov.dies.filter (fun p => decide (chZone s (chOf p.1) = z) && decide (s.tick ≤ p.2.2 + staleTicks s))).map (fun p => p.2.1)

/-- A zone is stale (R357). A sensor that has never given a reading has had none since tick 0. -/
def zStale (s : State) (z : Nat) : Bool :=
  let at_ (i : Nat) : Nat := ((tget? s.gov.sensors i).map (fun p => p.2)).getD 0
  let old (i : Nat) : Bool := due s (at_ i) (staleTicks s)
  let some_ (i : Nat) : Bool := decide (((tget? s.gov.sensors i).map (fun p => p.1)).getD (-128) ≠ -128)
  (zSensors s z).any old ||
  ((List.range 32).any (fun c => chZone s c = z) && (zDies s z).isEmpty &&
    !((zSensors s z).any (fun i => some_ i && !(old i))))

/-- A zone's temperature (R356, R357); a zone without a reading that is not stale counts as −128 °C. -/
def zoneTemp (s : State) (z : Nat) : Int :=
  let l := (zSensors s z).map (fun i => ((tget? s.gov.sensors i).map (fun p => p.1)).getD (-128)) ++ zDies s z
  let m := l.foldl max (-128)
  if zStale s z then max m (zCurve s z 1) else m

/-- The temperature of a channel's thermal zone. -/
def chTemp (s : State) (c : Nat) : Int := zoneTemp s (chZone s c)

/-! ### The store -/

/-- GLB_AGE_CTRL.ENABLE (R391). -/
def ageOn (s : State) : Bool := bit (rd s regGlbAgeCtrl) 31

/-- The ageing timeline (R382). -/
def timeline (s : State) : Nat := (s.tick + rd64 s regGlbAgeOffsetLo regGlbAgeOffsetHi) % 2 ^ 64

/-- Block group of a LUN-block (R381). -/
def bgOf (g b : Nat) : Nat := g * 512 + b / 8

/-- Address of a record (R384). -/
def arAddr (s : State) (bg : Nat) : Nat := rd64 s regGlbAgeBaseLo regGlbAgeBaseHi + 256 * bg

/-- A record passes its CHECK (R386). -/
def arGood (r : List Byte) : Bool := decide (fieldAt r 0x3C 4 = crc32 (r.take 0x3C ++ r.drop 0x40))

/-- A record with its CHECK. -/
def arSeal (r : List Byte) : List Byte := putBytes r 0x3C (leBytes 4 (crc32 (r.take 0x3C ++ r.drop 0x40)))

/-- A record as stored: with a change that is not yet written, else from the store. -/
def arRaw (s : State) (bg : Nat) : List Byte :=
  match tget? s.age.dirty bg with
  | some p => p.1
  | none => dramRead s (arAddr s bg) 256

/-- A record as used: all zero while the store is off or where its CHECK fails (R387, R391). -/
def arOf (s : State) (bg : Nat) : List Byte :=
  if ageOn s && arGood (arRaw s bg) then arRaw s bg else zeros 256

/-- A fetch of a record notes a failed CHECK (R387). -/
def arFetch (s : State) (bg : Nat) : State := if ageOn s && !(arGood (arRaw s bg)) then ageFlag s 5 else s

/-- The model index of a LUN. -/
def modelOf (s : State) (g : Nat) : Nat := ((lun? s g).map (fun l => l.model)).getD 0

/-- Offset of a field of a LUN-block's sub-entry. -/
def subOff (b o : Nat) : Nat := 0x40 + 24 * (b % 8) + o

/-- A field of a LUN-block's sub-entry. -/
def subF (s : State) (g b o n : Nat) : Nat := fieldAt (arOf s (bgOf g b)) (subOff b o) n

/-! ### Predicted read levels (R247, R248) -/

/-- Temperature-change bin of a table. -/
def tdBin (rl : List Byte) (td : Int) : Nat :=
  ((List.range 4).filter (fun i => decide (sbyte (fieldAt rl (0x12 + i) 1) ≤ td))).length

/-- A read of a zone row finds its sub-entry stale (R390). -/
def subStale (s : State) (g b wseq : Nat) : Bool :=
  decide (subF s g b 0 8 = 0) || decide (subF s g b 0x10 4 / 2 ^ 12 ≠ wseq)

/-- The sub-entry counts as stale for a read with the WSEQ of a zone row, or none. -/
def staleFor (s : State) (g b : Nat) (wseq : Option Nat) : Bool := match wseq with | some w => subStale s g b w | none => false

/-- The offset set predicted for a LUN-block under a generation (R247, R249), from a record that counts as stale or not. -/
def predict (s : State) (gen g b : Nat) (stale : Bool) : List Int :=
  let rl := rlOf s gen g
  let secs := if stale then 0 else wrapSub 64 (timeline s) (subF s g b 0 8) / 100000000
  let td := if stale then 0 else chTemp s (chOf g) - sbyte (subF s g b 0x0C 1)
  let pe := ((List.range 7).filter (fun i => decide (fieldAt rl (4 + 2 * i) 2 ≤ subF s g b 8 2))).length
  let rt := ((List.range 7).filter (fun i => decide (fieldAt rl (0x20 + 4 * i) 4 ≤ secs))).length
  addLevels (rlSet rl (0x40 + 16 * ((pe * 8 + rt) * 5 + tdBin rl td))) (rlSet (arOf s (bgOf g b)) 0x10)

/-- A prediction computed now, as it is cached. -/
def predNow (s : State) (gen g b : Nat) (stale : Bool) : Pred :=
  { set := predict s gen g b stale, temp := chTemp s (chOf g), tick := s.tick, gen := gen, stale := stale }

/-- A cached prediction computed again from the record as it stands (R248). -/
def predAgain (s : State) (k : Nat) (p : Pred) : Pred := predNow s p.gen (k / 4096) (k % 4096) p.stale

/-- Does a cached prediction still stand (R248)? -/
def predFresh (s : State) (g b : Nat) (p : Pred) : Bool :=
  let rl := rlOf s p.gen g
  let was := sbyte (subF s g b 0x0C 1)
  decide (s.tick < p.tick + 6000000000) && decide (tdBin rl (chTemp s (chOf g) - was) = tdBin rl (p.temp - was))

/-- Block groups whose predictions a quadrant scheduler caches. -/
def predGroups (s : State) (q : Nat) : List Nat :=
  dedupNat ((s.age.pred.filter (fun p => p.1 / 4096 / 1024 = q)).map (fun p => p.1 / 8))

/-- A prediction put into the cache, while it has room for its block group (R248). -/
def predPut (s : State) (g b : Nat) (p : Pred) : State :=
  let l := predGroups s (quadOf g)
  if decide (l.length < 4096) || l.contains (lbKey g b / 8) then { s with age := { s.age with pred := tset s.age.pred (lbKey g b) p } }
  else s

/-- The cached prediction for a read under a generation, made again where it no longer stands; `none` on a miss (R248, R249). With
the store off every record is zero, and none is fetched (R391). -/
def predHit (s : State) (gen g b : Nat) (wseq : Option Nat) : Option (State × List Int) :=
  let stale := staleFor s g b wseq
  match (tget? s.age.pred (lbKey g b)).filter (fun p => decide (p.gen = gen) && p.stale == stale) with
  | some p =>
    if predFresh s g b p then some (s, p.set)
    else some (predPut s g b (predAgain s (lbKey g b) p), (predAgain s (lbKey g b) p).set)
  | none =>
    if ageOn s then none
    else some (predPut s g b (predNow s gen g b stale), predict s gen g b stale)

/-- A record changed (R385): it is written back later; predictions made from it are made again (R248). -/
def arMod (s : State) (bg : Nat) (f : List Byte → List Byte) : State :=
  if ageOn s then
    let r := f (arOf (arFetch s bg) bg)
    let r := putBytes r 0 (leBytes 4 bg ++ leBytes 1 (modelOf s (bg / 512)) ++ leBytes 1 (fieldAt r 5 1 ||| 1))
    let at_ := ((tget? s.age.dirty bg).map (fun p => p.2)).getD s.tick
    let s := arFetch s bg
    let s := { s with age := { s.age with dirty := tset s.age.dirty bg (arSeal r, at_) } }
    { s with age := { s.age with
      pred := s.age.pred.map (fun p => if p.1 / 8 = bg then (p.1, predAgain s p.1 p.2) else p) } }
  else s

/-- A changed record is written to the store (R385). -/
def arFlush (s : State) (bg : Nat) : State :=
  match tget? s.age.dirty bg with
  | some p => { dramWrite s (arAddr s bg) p.1 with age := { s.age with dirty := terase s.age.dirty bg } }
  | none => s

/-- Every changed record is written (step 4 of R530). -/
def ageFlush (s : State) : State := (s.age.dirty.map (fun p => p.1)).foldl arFlush s

/-! ### Sub-entries -/

/-- Flags of a sub-entry: 7 RETIRED, 6 RETIRE_PEND, 5 WARNED, 4 ADVISED, 3 ESTIMATED, 2 SLC (R386). -/
def subFlag (s : State) (g b i : Nat) : Bool := bit (subF s g b 0x0D 1) i

/-- Fields of a sub-entry written: offset, bytes and value. -/
def subPut (b : Nat) (l : List (Nat × Nat × Nat)) (r : List Byte) : List Byte :=
  l.foldl (fun r p => putBytes r (subOff b p.1) (leBytes p.2.1 p.2.2)) r

/-- A flag of a sub-entry set. -/
def subSet (s : State) (g b i : Nat) : State :=
  arMod s (bgOf g b) (fun r => subPut b [(0x0D, 1, fieldAt r (subOff b 0x0D) 1 ||| 2 ^ i)] r)

/-- A good erase (R388); its record is written at once. -/
def ageErase (s : State) (g b loops : Nat) : State :=
  let bg := bgOf g b
  arFlush (arMod s bg (fun r =>
    let f (o n : Nat) : Nat := fieldAt r (subOff b o) n
    subPut b [(0x00, 8, 0), (0x08, 2, satAdd 65535 (f 0x08 2) 1), (0x0A, 1, loops),
      (0x0B, 1, if f 0x0B 1 = 0 then loops else f 0x0B 1), (0x0D, 1, f 0x0D 1 &&& 0xE0), (0x0E, 2, 0), (0x10, 4, 0),
      (0x14, 4, 0)] r)) bg

/-- A program with good status (R389): `wseq` for a zone member. The first after an erase is written at once. -/
def ageProgram (s : State) (g b wl : Nat) (slc : Bool) (wseq : Option Nat) : State :=
  let bg := bgOf g b
  let isFirst := decide (subF s g b 0 8 = 0)
  let s := arMod s bg (fun r =>
    let f (o n : Nat) : Nat := fieldAt r (subOff b o) n
    let r := if isFirst then
        subPut b [(0x00, 8, timeline s), (0x0C, 1, ofSbyte (chTemp s (chOf g))), (0x10, 4, wseq.getD 0 * 2 ^ 12),
          (0x0D, 1, if slc then f 0x0D 1 ||| 4 else f 0x0D 1)] r
      else r
    subPut b [(0x0E, 2, max (f 0x0E 2) wl)] r)
  if isFirst then arFlush s bg else s

/-- Has a LUN-block been retired (R128, R165, R395)? The block itself knows a retirement since the last reset also while
the ageing store is disabled. -/
def retiredBlock (s : State) (g b : Nat) : Bool := subFlag s g b 7 || (blkSt s g b).retired

/-- The retirement of a LUN-block (R165, R395). -/
def retireBlock (s : State) (g b : Nat) : State :=
  ageFlag (modBlk (subSet s g b 7) g b (fun x => { x with retired := true })) 1

/-- A failed erase of the block's own retires the LUN-block, which is never used for data again (R165, R192). -/
def erasedBad (s : State) (g b : Nat) : State :=
  modBlk (retireBlock s g b) g b (fun x => { x with erasing := false, bad := true })

/-- A LUN-block is known to be erased (R109). -/
def knownErased (s : State) (g b : Nat) : Bool :=
  ageOn s && decide (0 < subF s g b 8 2) && decide (subF s g b 0 8 = 0) && !(retiredBlock s g b) &&
    !(blkSt s g b).interrupted

/-! ### Relocation advice (R398, R399) -/

/-- Advice about a zone's member. -/
def advise (s : State) (zid g b cause : Nat) : State :=
  if subFlag s g b 4 then s
  else if s.age.advice.length < 64 then
    let s := subSet s g b 4
    ageFlag { s with age := { s.age with advice := s.age.advice ++ [(zid, g, b, cause)] } } 3
  else ageFlag s 4

/-! ### Correction load (R396, R397) -/

/-- Points of a codeword whose ladder ended at a step. -/
def loadPoints (step iters : Nat) (failed : Bool) : Nat :=
  if failed then 128 else if step = 0 then (if iters ≤ 8 then 0 else 1)
  else if step = 0x10 then 24 else if step = 0x11 then 48 else step

/-- Points added to a LUN-block's sub-entry and its record; a zone member may be advised on (cause 1), the group may ask
for its automatic calibration. -/
def addLoad (s : State) (g b pts : Nat) (zid : Option Nat) : State :=
  if pts = 0 || !(ageOn s) then s
  else
    let bg := bgOf g b
    let s := bump s (regQdMneLoad (quadOf g)) 31 0 pts
    let s := arMod s bg (fun r =>
      let r := putBytes r 0x20 (leBytes 4 (satAdd (2 ^ 32 - 1) (fieldAt r 0x20 4) pts))
      subPut b [(0x14, 4, satAdd (2 ^ 32 - 1) (fieldAt r (subOff b 0x14) 4) pts)] r)
    let cal := rdf s regGlbAgeLoad 31 16
    let s := if decide (cal ≠ 0) && decide (cal ≤ fieldAt (arOf s bg) 0x20 4) && bit (rd s regGlbAgeCtrl) 30 then
        { s with age := { s.age with auto := tset s.age.auto bg () } }
      else s
    let rel := rdf s regGlbAgeLoad 15 0
    match zid with
    | some z => if rel ≠ 0 ∧ 16 * rel ≤ subF s g b 0x14 4 then advise s z g b 1 else s
    | none => s

/-- The stale sub-entry is estimated (R390). -/
def estimate (s : State) (g b wseq : Nat) : State :=
  if ageOn s && subStale s g b wseq then
    arMod s (bgOf g b) (fun r => subPut b [(0x00, 8, timeline s), (0x0C, 1, ofSbyte (chTemp s (chOf g))),
      (0x10, 4, wseq * 2 ^ 12), (0x0D, 1, fieldAt r (subOff b 0x0D) 1 ||| 8)] r)
  else s

/-! ### Commands -/

/-- AGEING_READ (R392): a pending change is written to the store first (R385). -/
def ageingRead (s : State) (cid : Nat) (mp : PortEnd) : State :=
  start s cid 0x23 (fun s c =>
    let bg := cP0 c % 2 ^ 32
    if ageOn s then
      let s := arFlush s bg
      match portEnd s (2 * c.home) [(0, arAddr s bg, 256)] mp with
      | (s, some r) => finish s cid r
      | (s, none) =>
        finish (writeOut s c (cPtr c) (dramRead s (arAddr s bg) 256) 3) cid { status := stOk, ra := bg, rb := 256 }
    else finish s cid (res stConflict))

/-- AGEING_READ. -/
def execAgeingRead (cid : Nat) (mp : PortEnd) (s : State) : Out := ok (ageingRead s cid mp)

/-- PREDICTION_REFRESH (R248): the cached sets of a block group are computed again after 60 s. -/
def predictionRefresh (s : State) (q bg : Nat) : State :=
  let old (p : Nat × Pred) : Bool := decide (p.1 / 8 = bg) && decide (quadOf (bg / 512) = q) && decide (p.2.tick + 6000000000 ≤ s.tick)
  { s with age := { s.age with pred := s.age.pred.map (fun p => if old p then (p.1, predAgain s p.1 p.2) else p) } }

/-- PREDICTION_REFRESH. -/
def execPredictionRefresh (q : Quad) (bg : Nat) (s : State) : Out := ok (predictionRefresh s q.val bg)

end Sys2Proof.Machine
end

