-- ==== Sys2Proof/Machine/Jobs.lean ====
section
/-! DEFINITION. Codeword reads and reconstructions (chapter Codewords, Decoding and the Read Path): a codeword's read queued
for whoever wants it, members that can serve, survivors and the regions they need. -/

namespace Sys2Proof.Machine

/-! ### Busy LUNs and members that can serve -/

/-- A LUN that programs or erases. -/
def lunBusy (s : State) (g : Nat) : Bool := s.ops.any (fun o => decide (o.glun = g) && decide (o.type ≠ .read) && opInArray o)

/-- A LUN with no operation, on a channel in service. -/
def lunIdle (s : State) (g : Nat) : Bool := chanUp s (chOf g) && !(s.ops.any (fun o => decide (o.glun = g) && opActive o))

/-- Is the LUN FAILED (STATE kind 2 code 2)? -/
def lunFailed (s : State) (g : Nat) : Bool := decide (((lun? s g).map (fun l => l.state)) = some 2)

/-- A member that is FAILED or lies on a FENCED channel (R256). -/
def memberOut (s : State) (zid j : Nat) : Bool :=
  decide (2 ≤ mstate s zid j) ||
    (match loc? s zid j with
    | some (g, _) => lunFailed s g || decide (rdf s (regPhyState (chOf g)) 1 0 = 3)
    | none => true)

/-- The LUN-block is under erase (R166). -/
def underErase (s : State) (g b : Nat) : Bool := (blkSt s g b).erasing

/-- Members of a row that cannot serve now under the member test of R260. -/
def unavailable (s : State) (zid j : Nat) : Bool :=
  memberOut s zid j ||
    (match loc? s zid j with
    | some (g, _) => lunBusy s g || !(chanUp s (chOf g))
    | none => true)

/-- Members of a row that the member test of R260 counts, beside member `j`. -/
def lostCount (s : State) (lt : Layout) (zid j : Nat) : Nat :=
  ((List.range (width lt)).filter (fun i => decide (i = j) || unavailable s zid i)).length

/-! ### Codeword reads -/

/-- What every codeword read of a piece of work shares. -/
structure Work where
  kind     : Kind
  deadline : Nat
  real     : Bool
  share    : Option Nat
  gen      : Nat

/-- The codeword `cwx` of member `j` in row `r` of a zone, under a layout. -/
def rowItem (s : State) (w : Work) (lt : Layout) (zid r j cwx g b : Nat) (u : Use) : Item :=
  { id := 0, kind := w.kind, deadline := w.deadline, real := w.real, share := w.share, glun := g, block := b, wl := r,
    page := cwx / dmCwpp (layDie s lt), cw := cwx % dmCwpp (layDie s lt), slc := false, use := [u],
    header := some (rowHdr 0 j r zid (zone s zid).wseq 0 0 cwx), parity := decide (lt.k ≤ j), gen := w.gen }

/-- Same place and manner of reading: one location, one generation (R249), the same step of a RAW_READ (R182). -/
def sameRead (a b : Item) : Bool :=
  decide (a.glun = b.glun) && decide (a.block = b.block) && decide (a.wl = b.wl) && decide (a.page = b.page) &&
  decide (a.cw = b.cw) && decide (a.slc = b.slc) && decide (a.level = b.level) && decide (a.exact = b.exact) && decide (a.level.getD 0 ≤ 0x11) &&
  decide (a.gen = b.gen) && (decide (a.header = b.header) || a.header.isNone || b.header.isNone)

/-- Its first read has not been issued. -/
def notIssued (s : State) (i : Item) : Bool :=
  decide (i.step = 0) && (decide (i.stage = .predicting) || (decide (i.stage = .reading) &&
    s.ops.any (fun o => decide (o.type = .read) && decide (o.phase = .waiting) && o.cws.any (fun c => c.2.2 = i.id))))

/-- A codeword read serves one more request, which brings its uses, its deadline and the header it expects (R243). -/
def joinItem (y i : Item) : Item :=
  let first := decide (kindRank i.kind < kindRank y.kind)
  { y with
    use := y.use ++ i.use, kind := if first then i.kind else y.kind, share := if first then i.share else y.share,
    real := (if i.deadline < y.deadline then i.real else y.real), deadline := min y.deadline i.deadline,
    header := y.header <|> i.header, parity := y.parity || i.parity,
    wseq := y.wseq <|> i.wseq }

/-- A record that a prediction misses is fetched: a class A read through the even port of its quadrant (R22, R248; which of the
two ports is the model's choice, log entry 26). One fetch serves every read that waits for it. -/
def ageWant (s : State) (i : Item) : State :=
  let bg := bgOf i.glun i.block
  if s.xfers.any (fun x => decide (x.purpose = .ageFetch bg)) then s
  else startXfer s { port := 2 * quadOf i.glun, write := false, clsA := true, grp := 0, deadline := some i.deadline, real := i.real,
                     purpose := .ageFetch bg } [(0, arAddr s bg, 256, [])]

/-- Does a read need its prediction? Not at the die defaults, nor at a step that the spec does not name. -/
def wantsPred (i : Item) : Bool := i.exact.isNone && match i.level with | some n => decide (0 < n) && decide (n ≤ 0x11) | none => true

/-- A new codeword read: with its prediction, or waiting for the record it is made from (R248). -/
def addNew (s : State) (i : Item) : State :=
  let (id, s) := fresh s
  let i := { i with id := id }
  if wantsPred i then
    match predHit s i.gen i.glun i.block i.wseq with
    | some (s, base) => let i := { i with base := base }; queueStep { s with items := s.items ++ [i] } i
    | none => ageWant { s with items := s.items ++ [{ i with stage := .predicting }] } i
  else queueStep { s with items := s.items ++ [i] } i

/-- A codeword read is queued; requests for one location that meet before its read is issued share it (R243). -/
def addItem (s : State) (i : Item) : State :=
  match s.items.find? (fun x => sameRead x i && notIssued s x) with
  | some x =>
    let s := modItem s x.id (fun y => joinItem y i)
    { s with ops := s.ops.map (fun o => if o.cws.any (fun c => c.2.2 = x.id) then hasten o i else o) }
  | none => addNew s i

/-- The record of a block group has come: the reads that waited for it go on (R248). A fetch that the port gave up is made again
(DESIGN CHOICE, log entry 68: the spec gives it no other end). -/
def ageFetched (s : State) (bg : Nat) (good : Bool) : State :=
  let l := s.items.filter (fun i => decide (i.stage = .predicting) && decide (bgOf i.glun i.block = bg))
  if good then
    l.foldl (fun s i =>
      let p := predNow s i.gen i.glun i.block (staleFor s i.glun i.block i.wseq)
      let i := { i with base := p.set, stage := .reading }
      queueStep (modItem (predPut s i.glun i.block p) i.id (fun _ => i)) i) (arFetch s bg)
  else match l with
    | i :: _ => ageWant s i
    | [] => s

/-- A codeword of a row read for someone. -/
def addRowItem (s : State) (w : Work) (lt : Layout) (zid r j cwx g b : Nat) (u : Use) : State :=
  addItem s { rowItem s w lt zid r j cwx g b u with wseq := some (zone s zid).wseq }

/-! ### Slots of the parity-accumulator banks (R274) -/

/-- A bank. -/
def bank (s : State) (q : Nat) : BankSt := tget s.banks q {}

/-- Slots that a purpose holds: 1 row parity, 2 reconstruction, 3 rebuild. -/
def held (s : State) (q p : Nat) : Nat := ((bank s q).held.filter (fun h => h.2 = p)).length

/-- A rebuild or reshape lease is held on a group whose work the quadrant's maintenance engine carries (R274, R325). -/
def leaseIn (s : State) (q : Nat) : Bool :=
  s.groups.any (fun p => decide (p.2.lease ≠ .free) && (decide (p.2.coord = q) ||
    p.2.spares.any (fun x => decide (x.state = 1) && decide (quadOf x.glun = q))))

/-- The slots reserved for a purpose. -/
def reserved (s : State) (q p : Nat) : Nat :=
  if p = 2 then min 4 (rdf s (regSteCfg q) 31 28)
  else if p = 3 then (if leaseIn s q then min 8 (rdf s (regSteCfg q) 27 24) else 0)
  else 0

/-- Slots neither held nor withdrawn. -/
def freeSlotList (s : State) (q : Nat) : List Nat :=
  (List.range 16).filter (fun i => (tget? (bank s q).held i).isNone && (tget? (bank s q).out i).isNone)

/-- Free slots that are kept back for the purposes other than `p`. -/
def keptBack (s : State) (q p : Nat) : Nat :=
  (([2, 3].filter (fun x => x ≠ p)).map (fun x => reserved s q x - held s q x)).sum

/-- A slot for a purpose: a reserved one first, else a shared one. -/
def takeSlot? (s : State) (q p : Nat) : Option (Nat × State) :=
  if keptBack s q p < (freeSlotList s q).length then
    (freeSlotList s q).head?.map (fun i =>
      (i, { s with banks := tmod s.banks q {} (fun b => { b with held := tset b.held i p }) }))
  else none

/-- A slot released. -/
def dropSlot (s : State) (q i : Nat) : State :=
  { s with banks := tmod s.banks q {} (fun b => { b with held := terase b.held i }) }

/-- The quadrant whose stripe engines reconstruct for a recon: that of the member (R255), or of the spare (R323). -/
def reconQuad (s : State) (zid j : Nat) : Nat :=
  match loc? s zid j with
  | some (g, _) => quadOf g
  | none => zoneQuad s zid

/-- Regions in use in a quadrant, 63 to a slot (R255). -/
def regions (s : State) (q : Nat) : Nat :=
  (s.recons.filter (fun r => r.region && decide (reconQuad s r.zid r.member = q) &&
    (match r.use with | .spare .. => false | _ => true))).length

/-- A region for a reconstruction, where one can be had (R255, R274). -/
def takeRegion (s : State) (q : Nat) : Option State :=
  if regions s q < 63 * held s q 2 then some s else (takeSlot? s q 2).map (fun p => p.2)

/-- Slots of regions that are no longer needed. -/
def trimRegions (s : State) (q : Nat) : State :=
  if regions s q + 63 ≤ 63 * held s q 2 then
    match (bank s q).held.find? (fun h => h.2 = 2) with
    | some h => dropSlot s q h.1
    | none => s
  else s

/-! ### Reconstructions (R255 to R258) -/

/-- Members that can still be asked: neither unavailable, nor failed for this codeword, nor asked already. -/
def canAsk (s : State) (lt : Layout) (r : Recon) : List Nat :=
  (List.range (width lt)).filter (fun j => decide (j ≠ r.member) && !(r.out.contains j) && !(r.asked.contains j) &&
    !(memberOut s r.zid j) &&
    (match loc? s r.zid j with
    | some (g, b) => !(underErase s g b) && (!r.around || !(lunBusy s g))
    | none => false) &&
    (match r.use with | .spare _ _ _ ms => !(ms.contains j) | _ => true))

/-- The order of R257: idle LUNs, then data members, then the lower index. -/
def askKey (s : State) (lt : Layout) (zid j : Nat) : Nat :=
  let idle := match loc? s zid j with | some (g, _) => lunIdle s g | none => false
  (if idle then 0 else 10000) + (if j < lt.k then 0 else 1000) + j

/-- The next survivors to ask. A rebuild passes over a − k available members from position r mod a on (R324). -/
def askNext (s : State) (lt : Layout) (r : Recon) (n : Nat) : List Nat :=
  let l := canAsk s lt r
  match r.use with
  | .spare .. =>
    if r.asked.isEmpty then
      let a := l.length
      let skip := (List.range (a - lt.k)).map (fun i => (r.row + i) % max 1 a)
      ((l.zipIdx.filter (fun p => !(skip.contains p.2))).map (fun p => p.1)).take n
    else l.take n
  | _ => (l.mergeSort (fun a b => decide (askKey s lt r.zid a ≤ askKey s lt r.zid b))).take n

/-- A reconstruction changed. -/
def modRecon (s : State) (id : Nat) (f : Recon → Recon) : State :=
  { s with recons := modFirst (fun r => r.id = id) f s.recons }

/-- A reconstruction by number. -/
def recon? (s : State) (id : Nat) : Option Recon := s.recons.find? (fun r => r.id = id)

/-- The work that a reconstruction's survivor reads are. -/
def reconWork (r : Recon) : Work := { kind := r.kind, deadline := r.deadline, real := r.real, share := r.share, gen := r.gen }

/-- Survivors asked until `k` have answered or are on their way; `none` where fewer than `k` can serve (R257). -/
def askMore (s : State) (id : Nat) : Option State :=
  match recon? s id with
  | none => some s
  | some r =>
    match layoutOf? s r.zid with
    | none => none
    | some lt =>
      let next := askNext s lt r (lt.k - r.asked.length)
      if r.asked.length + next.length < lt.k then none
      else
        let s := modRecon s id (fun r => { r with asked := r.asked ++ next })
        some (next.foldl (fun s j =>
          match loc? s r.zid j with
          | some (g, b) => addRowItem s (reconWork r) lt r.zid r.row j r.cwx g b (.survivor id j)
          | none => s) s)

/-- Enough members remain for a reconstruction of a codeword. -/
def canRecon (s : State) (lt : Layout) (r : Recon) : Bool := decide (lt.k ≤ r.asked.length + (canAsk s lt r).length)

/-- A reconstruction begins: it takes its region, or waits for one, and asks its survivors. The answer is `none` where
fewer than `k` members can serve. -/
def startRecon (s : State) (r : Recon) : Option State :=
  match layoutOf? s r.zid with
  | none => none
  | some lt =>
    if canRecon s lt r then
      let (id, s) := fresh s
      let s := { s with recons := s.recons ++ [{ r with id := id, asked := [], region := false }] }
      match r.use with
      | .spare .. => askMore (modRecon s id (fun r => { r with region := true })) id
      | _ =>
        match takeRegion s (reconQuad s r.zid r.member) with
        | some s' => askMore (modRecon s' id (fun r => { r with region := true })) id
        | none => some s
    else none

/-- Reads that no codeword is left to: those not yet issued leave, and those between two data-outs. -/
def dropSpent (s : State) : State :=
  (s.ops.filter (fun o => decide (o.type = .read) && o.cws.isEmpty && !o.leaving &&
    (decide (o.phase = .waiting) || decide (o.phase = .granted) || decide (o.phase = .dataOut)))).foldl dropOp s

/-- Someone's uses of codeword reads are given up: an item that no one else wants goes, with its codewords in reads not yet
issued. -/
def dropUses (s : State) (mine : Use → Bool) : State :=
  let gone := (s.items.filter (fun i => i.use.all mine)).map (fun i => i.id)
  let items := (s.items.filter (fun i => !(gone.contains i.id))).map (fun i =>
    { i with use := i.use.filter (fun u => !(mine u)) })
  let ops := s.ops.map (fun o =>
    if decide (o.phase = .waiting) then { o with cws := o.cws.filter (fun c => !(gone.contains c.2.2)) } else o)
  let decs := s.decs.map (fun p => (p.1, { p.2 with busy := p.2.busy.filter (fun d => !(gone.contains d.2)) }))
  dropSpent { s with items := items, ops := ops, decs := decs }

/-- The reads that a reconstruction still waits for are discarded. -/
def dropSurvivors (s : State) (id : Nat) : State := dropUses s (fun u => match u with | .survivor r _ => decide (r = id) | _ => false)

/-- A reconstruction ends, its region is free again. -/
def endRecon (s : State) (id : Nat) : State :=
  match recon? s id with
  | some r =>
    let q := reconQuad s r.zid r.member
    trimRegions { s with recons := s.recons.filter (fun x => x.id ≠ id) } q
  | none => s

end Sys2Proof.Machine
end

