-- ==== Sys2Proof/Machine/Governor.lean ====
section
/-! DEFINITION. The governor's admission (chapter The Governor: Energy, Heat and Deadlines): sluices, buckets and shares,
the order of proposals, reads of busy LUNs, suspends and read-around. -/

namespace Sys2Proof.Machine

/-! ### Limits (R348, R358) -/

/-- The VCC rail of a channel. -/
def chRail (s : State) (c : Nat) : Nat := rdf s (regGovChmap c) 2 0

/-- Limit of a sluice. -/
def railLimit (s : State) (r : Nat) : Nat := tget s.gov.limit r 1000

/-- A thermal zone. -/
def zoneTh (s : State) (z : Nat) : ZoneTh := tget s.gov.zones z {}

/-- A zone's refill, reserve and cap in nJ. -/
def zLimit (s : State) (z : Nat) : Nat := (zoneTh s z).budget * 1000 * (zoneTh s z).f / 100
def zRes (s : State) (z : Nat) : Nat := zLimit s z * s.gov.resPct / 100
def zCap (s : State) (z : Nat) : Nat := zLimit s z * (zoneTh s z).burst / 4

/-- The rebuild share: the highest among the passes, else that of a catch-up (R312, R366). -/
def rebShare (s : State) : Nat :=
  let passes := (s.groups.filter (fun p => p.2.lease = .rebuild)).map (fun p => p.2.share)
  match passes.max? with
  | some x => x
  | none =>
    let l := (s.groups.filter (fun p => p.2.units ≠ [])).map (fun p =>
      if p.2.lastShare = 0 then s.gov.maint else p.2.lastShare)
    (l.max?).getD s.gov.maint

/-- Percentage of a share: 0 b, 1 h, 2 m, 3 x. -/
def sharePct (s : State) (i : Nat) : Nat :=
  match i with
  | 0 => rebShare s
  | 1 => min 100 (max 1 (rdf s regJrnRshCfg 7 0))
  | 2 => s.gov.maint
  | _ => s.gov.raw

/-- A zone's allowance of a share; 4 is read-around (R358). -/
def allow (s : State) (z i : Nat) : Nat :=
  if i = 4 then zLimit s z * s.gov.raPct / 100 else (zLimit s z - zRes s z) * sharePct s i / 100

/-! ### Admission (R359, R367) -/

/-- What admission answers. -/
inductive Adm where
  | yes | noCurrent | noEnergy | noShare
  deriving DecidableEq, Repr

/-- Work that the power-fail handling admits against the sluices only (R367). -/
def pfailWork (s : State) (o : Op) : Bool := s.jrn.pfActive && (decide (o.kind = .s) || decide (o.kind = .j))

/-- The decision for an operation that costs `e` nJ (R359). -/
def admitTest (s : State) (o : Op) (e : Nat) : Adm :=
  let c := chOf o.glun
  let z := zoneTh s (chZone s c)
  let r := chRail s c
  let lim := railLimit s r
  let used := tget s.gov.used r 0
  let pk := opPeak s o
  let free := pfailWork s o
  let isA := decide (o.kind = .a)
  let vroom := if isA || free then lim else lim - lim * s.gov.resPct / 100
  let efloor : Int := if isA then 0 else zRes s (chZone s c)
  let cap : Int := zCap s (chZone s c)
  let spentUp (i : Nat) : Bool := decide ((allow s (chZone s c) i : Int) ≤ z.spent.getD i 0)
  if !isA && !free && z.crit then .noShare
  else if !isA && !free && (match o.share with | some i => spentUp i | none => false) then .noShare
  else if decide (vroom < used + pk) && decide (0 < used) then .noCurrent
  else if !free && decide (z.tokens - e < efloor) && !(decide (z.tokens = cap) && decide (cap - efloor < e)) then .noEnergy
  else .yes

/-- A share's counter charged. -/
def charge (s : State) (z i : Nat) (e : Nat) : State :=
  { s with gov := { s.gov with
    zones := tmod s.gov.zones z {} (fun t =>
      { t with spent := t.spent.set i (t.spent.getD i 0 + e) }) } }

/-- The admission takes effect: current, energy, share (R359). -/
def admitTake (s : State) (o : Op) (e : Nat) : State :=
  let z := chZone s (chOf o.glun)
  let r := chRail s (chOf o.glun)
  let pk := opPeak s o
  let gov := { s.gov with
    used := tset s.gov.used r ((tget s.gov.used r 0 + pk) % 2 ^ 16),
    zones := tmod s.gov.zones z {} (fun t => { t with tokens := narrow 48 (t.tokens - e) }) }
  let s := modOp { s with gov := gov } o.id (fun o => { o with phase := .granted, peak := pk })
  let s := trace s (quadOf o.glun) 2 (chOf o.glun) [kindRank o.kind + 16 * opClass o.type, o.glun]
  match o.kind, o.share with
  | .a, _ => s
  | _, some i => charge s z i e
  | _, none => s

/-- A refusal counted (R380). -/
def countRefusal (s : State) (a : Adm) : State :=
  match a with
  | .noCurrent => bump s regGovRefusals 31 16 1
  | .noEnergy => bump s regGovRefusals 15 0 1
  | _ => s

/-! ### Reads of busy LUNs (R259, R260, R370 to R372) -/

/-- The program or erase that a read waits on. -/
def busyOp (s : State) (o : Op) : Option Op := s.ops.find? (fun u =>
  decide (u.glun = o.glun) && decide (u.type ≠ .read) && decide (u.type ≠ .rawSeq) && decide (u.phase = .busy) && !u.susp)

/-- The zone and place that an item of a zone read names: its expected header (R229). -/
def hdrPlace (h : Nat) : Nat × Nat × Nat × Nat := (bits h 46 28, bits h 55 47, bits h 61 56, bits h 5 0)

/-- The place that a codeword read expects. -/
def itemPlace (i : Item) : Nat × Nat × Nat × Nat := hdrPlace (i.header.getD 0)

/-- The blocks of zone reads that an item serves; none where someone else wants it too. -/
def blkUses (i : Item) : Option (List (Nat × Nat)) :=
  i.use.foldr (fun u r => match u, r with
    | .blk c b, some l => some ((c, b) :: l)
    | _, _ => none) (some [])

/-- A granted read-around is traced for the LUN that it goes around (R440). -/
def traceAround (s : State) (items : List Item) : State :=
  (dedupNat (items.map (fun i => i.glun))).foldl (fun s g => trace s (quadOf g) 3 (chOf g) [1, g]) s

/-- The governor admits nothing: no TREF edges arrive, its next refill after them is still to come (R31, R32), or engine 49 is
halted (R484). -/
def govRests (s : State) : Bool := s.trefStop || s.gov.stopped || decide ((tget s.engines 49 {}).mode = 3)

/-- Grants reconstruction of some items at once (R261, R372, R373): `e1` is the energy of their own reads, `doneAt` the
tick at which they would end otherwise. Every survivor is admitted, all or none; without a timebase none is (R31, R32). -/
def grantAround (s : State) (items : List Item) (e1 doneAt : Nat) (back : Option Nat) : Option State :=
  let base := s.nextId
  let begin_ (acc : Option State) (i : Item) : Option State :=
    match acc, blkUses i with
    | some t, some l =>
      let p := itemPlace i
      l.foldl (fun acc u => acc.bind (fun t =>
        startRecon t { id := 0, use := .blk u.1 u.2, zid := p.1, row := p.2.1, member := p.2.2.1, cwx := p.2.2.2,
                       kind := .a, deadline := i.deadline, real := i.real, share := some 4, asked := [], around := true,
                       back := back, prior := i.fails, raws := i.raws, gen := i.gen })) (some t)
    | _, _ => none
  match (if govRests s then none else items.foldl begin_ (some s)) with
  | none => none
  | some t =>
    if (t.recons.filter (fun r => base ≤ r.id)).all (fun r => r.region) then
      let new := t.ops.filter (fun o => base ≤ o.id)
      let era := (new.map (opEnergy t)).sum
      let late := doneAt - ((items.map (fun i => i.deadline)).min?.getD 0)
      let zs := dedupNat (new.map (fun o => chZone t (chOf o.glun)))
      if (era - e1) * 10 ≤ s.gov.worth * late ∧
          zs.all (fun z => (zoneTh t z).spent.getD 4 0 < (allow t z 4 : Int)) then
        let adm (acc : Option State) (o : Op) : Option State := acc.bind (fun t =>
          if eligibleOp t o && decide (admitTest t o (opEnergy t o) = .yes) then
            some (charge (admitTake t o (opEnergy t o)) (chZone t (chOf o.glun)) 4 (opEnergy t o))
          else none)
        (new.foldl adm (some t)).map (fun t => bump (traceAround t items) regGovSuspRa 31 16 1)
      else none
    else none

/-- The largest t_read among the members that could be asked, plus the crossbar and the stripe engine (R259). -/
def tRa (s : State) (i : Item) : Nat :=
  let p := itemPlace i
  match layoutOf? s p.1 with
  | none => 0
  | some lt =>
    let rc : Recon := { id := 0, use := .blk 0 0, zid := p.1, row := p.2.1, member := p.2.2.1, cwx := p.2.2.2, kind := .a,
                        deadline := 0, real := true, asked := [], around := true }
    let t (j : Nat) : Nat := match loc? s p.1 j with
      | some (g, _) => fieldAt (dieOf s g) 0x30 4 + busTicks s g 4648 + scaled s 179
      | none => 0
    (((askNext s lt rc lt.k).map t).max?).getD 0 + 100

/-- The member test of R260 for an item. -/
def memberTest (s : State) (i : Item) : Bool :=
  let p := itemPlace i
  match layoutOf? s p.1 with
  | some lt => decide (lostCount s lt p.1 p.2.2.1 ≤ lt.m)
  | none => false

/-- The items of a read. -/
def opItems (s : State) (o : Op) : List Item := s.items.filter (fun i => o.cws.any (fun c => c.2.2 = i.id))

/-- t_normal of a read of a busy LUN (R259). -/
def tNormal (s : State) (u o : Op) : Nat :=
  (match tSusp s u o with | some t => min t (tWait s u) | none => tWait s u) + tRead s o

/-- May a read ask for read-around (R260)? -/
def aroundOk (s : State) (u o : Op) : Bool :=
  let l := opItems s o
  bit (rdGen s o.gen regDecCfg) 10 && o.real && decide (o.deadline < s.tick + tNormal s u o) &&
  l.all (fun i => (blkUses i).isSome && decide (i.step = 0) && memberTest s i && decide (tRa s i < tNormal s u o))

/-- A read leaves with its items: they are served otherwise. -/
def dropRead (s : State) (o : Op) : State :=
  let ids := (opItems s o).map (fun i => i.id)
  { s with
    ops := s.ops.filter (fun x => x.id ≠ o.id), items := s.items.filter (fun i => !(ids.contains i.id)) }

/-- The decision about a kind A read of a busy LUN (R370): it waits, has a suspend ordered for it, or goes around. -/
inductive Busy where
  | wait | suspend | around (s : State)

/-- busy_read of R370. -/
def busyRead (s : State) (u o : Op) : Busy :=
  if !o.real then .wait
  else if s.tick + tWait s u + tRead s o ≤ o.deadline then .wait
  else
    let early := match tSusp s u o with | some t => decide (s.tick + t + tRead s o ≤ o.deadline) | none => false
    if early then .suspend
    else
      match (if aroundOk s u o then grantAround (dropRead s o) (opItems s o) (opEnergy s o) (s.tick + tNormal s u o) none
        else none) with
      | some t => .around t
      | none =>
        match tSusp s u o with
        | some t => if t < tWait s u then .suspend else .wait
        | none => .wait

/-- A suspend that R159 withholds sets SUSP_CAP, once for an operation. -/
def capNote (s : State) (u o : Op) : State :=
  if decide (u.type ≠ .rawSeq) && !(suspRoom s u o) && !u.capped && o.real &&
      decide (o.deadline < s.tick + tWait s u + tRead s o) then
    csqFlag (modOp s u.id (fun u => { u with capped := true })) (chOf u.glun) 1
  else s

/-! ### Rounds (R360, R361, R364, R365) -/

/-- Where a round stands. -/
structure Round where
  s     : State
  done  : List Nat := []                -- channels whose proposal was refused
  rails : List (Nat × Nat) := []        -- rails held, with the deadline that holds them
  zones : List (Nat × Nat) := []

/-- A read of a busy LUN that would have a suspend ordered. -/
def wantsSuspend (s : State) (o : Op) : Bool :=
  decide (o.kind = .a) && decide (o.type = .read) && decide (o.phase = .waiting) && chanUp s (chOf o.glun) &&
  decide ((lunOps s o.glun o.id).length = 1) &&
  (match busyOp s o with
  | some u => !(decide (u.block = o.block) && decide (u.type ≠ .erase) && decide (u.wl ≤ o.wl)) &&
      (match busyRead s u o with | .suspend => true | _ => false)
  | none => false)

/-- The proposals: of each channel still in the round, the eligible operation with the earliest deadline (R361). -/
def proposals (r : Round) : List Op :=
  let l := r.s.ops.filter (fun o => !(r.done.contains (chOf o.glun)) && (eligibleOp r.s o || wantsSuspend r.s o))
  l.filter (fun o => !(l.any (fun x => decide (chOf x.glun = chOf o.glun) && (decide (x.deadline < o.deadline) ||
    (decide (x.deadline = o.deadline) && (decide (kindRank x.kind < kindRank o.kind) ||
      (decide (kindRank x.kind = kindRank o.kind) && decide (x.id < o.id))))))))

/-- The order of R364. -/
def proposalKey (o : Op) : Nat := (o.deadline * 16 + kindRank o.kind) * 64 + chOf o.glun

/-- Is a proposal of a kind other than A held by an earlier refusal (R365)? -/
def heldBack (r : Round) (o : Op) : Bool :=
  let c := chOf o.glun
  decide (o.kind ≠ .a) &&
    (r.rails.any (fun p => decide (p.1 = chRail r.s c) && decide (p.2 < o.deadline)) ||
     r.zones.any (fun p => decide (p.1 = chZone r.s c) && decide (p.2 < o.deadline)))

/-- A transfer that is not admitted is abandoned for a kind A read of its LUN (R369). -/
def makeWay (s : State) (o : Op) : State :=
  if o.kind = .a ∧ o.type = .read then
    ((lunOps s o.glun o.id).filter opUnadmitted).foldl abandon s
  else s

/-- One proposal is decided. -/
def decideOne (r : Round) (o : Op) : Round :=
  let c := chOf o.glun
  if heldBack r o then { r with done := c :: r.done }
  else
    let s := makeWay r.s o
    let stop := if wantsSuspend s o then busyOp s o else none
    let e := opEnergy s o + (if stop.isSome then suspEnergy s o.glun else 0)
    match admitTest s o e with
    | .yes =>
      let s := admitTake s o e
      { r with
        s := match stop with
        | some u =>
          let s := trace s (quadOf u.glun) 3 c [0, u.glun]
          bump (modOp s u.id (fun u => { u with susp := true })) regGovSuspRa 15 0 1
        | none => s }
    | a =>
      let holds := decide (o.kind ≠ .a) && (decide (a = .noCurrent) || decide (a = .noEnergy))
      { s := countRefusal s a, done := c :: r.done,
        rails := if holds then (chRail s c, o.deadline) :: r.rails else r.rails,
        zones := if holds then (chZone s c, o.deadline) :: r.zones else r.zones }

/-- Proposals are decided until every channel's is refused or none is left. -/
def decideAll : Nat → Round → Round
  | 0, r => r
  | n + 1, r =>
    match minBy proposalKey (proposals r) with
    | some o => decideAll n (decideOne r o)
    | none => r

/-- Reads of busy LUNs that go around, or whose suspend is withheld, are settled first. -/
def settleBusy (s : State) : State :=
  ((s.ops.filter (fun o => decide (o.kind = .a) && decide (o.type = .read) && decide (o.phase = .waiting))).map
    (fun o => o.id)).foldl (fun s id =>
      match s.ops.find? (fun o => o.id = id) with
      | some o => (match busyOp s o with
        | some u => (match busyRead s u o with
          | .around t => t
          | _ => capNote s u o)
        | none => s)
      | none => s) s

/-- The governor evaluates the waiting proposals (R360); without a timebase it admits nothing (R31, R32). -/
def govEvaluate (s : State) : State :=
  if govRests s then s
  else
    let s := settleBusy s
    (decideAll (2 * s.ops.length + 33) { s := s }).s

end Sys2Proof.Machine
end

