-- ==== Sys2Proof/Machine/Members.lean ====
section
/-! DEFINITION. Member failure (chapter Member Failure, Rebuild and Reshape): the spare map, the failing of a member and of
a LUN, lost ranges, the copies that lie on what has failed. -/

namespace Sys2Proof.Machine

/-! ### Lost ranges (R335, R336) -/

/-- The zone's overlay set, with its ZONE entry, where it changes; LOST_RANGE stands over DEGRADED. -/
def setOverlay (s : State) (zid v : Nat) : State :=
  let e := zone s zid
  if e.overlay = v ∨ (e.overlay = 2 ∧ v = 1) then s else jrnZone (setZone s { e with overlay := v }) zid

/-- A range joins the lost-range list of its group: merged with an entry of the zone that it continues, dropped where the
list is full; the zone turns LOST_RANGE, a TABLE entry is written and the event raised. -/
def addLost (s : State) (fg zid first count cause lost : Nat) : State :=
  let l := (group s fg).lost
  let fits (x : Lost) : Bool := decide (x.zid = zid) && (decide (x.first + x.count = first) || decide (first + count = x.first))
  let s := if l.any fits then
      modGroup s fg (fun g => { g with
        lost := modFirst fits (fun x =>
        { x with first := min x.first first, count := x.count + count, lost := max x.lost lost }) g.lost })
    else if l.length < 4096 then
      modGroup s fg (fun g => { g with
        lost := g.lost ++ [{ zid := zid, first := first, count := count, cause := cause, lost := lost }] })
    else maintFlag s 3
  let s := setOverlay (storeLost s fg 0) zid 2
  maintFlag (jrnTable s fg zid (2 * 2 ^ 62 + first) (cause * 2 ^ 24 + count)) 2

/-- Row `r` of a zone marked lost. -/
def loseRow (s : State) (zid r cause lost : Nat) : State :=
  match layoutOf? s zid with
  | some lt => addLost s (fgOf s zid) zid (r * rowBlks s lt) (rowBlks s lt) cause lost
  | none => s

/-! ### The spare map (R317 to R319) -/

/-- A spare entry's change: its word in the layout store (R96), and its TABLE entry (R317). -/
def jrnSpare (s : State) (fg i : Nat) : State :=
  match (group s fg).spares[i]? with
  | some x => jrnTable (storeSpare s fg i) fg 0 (2 ^ 62 + i * 2 ^ 32 + x.state * 2 ^ 30 + x.glun * 2 ^ 12 + x.block) 0
  | none => s

/-- A spare entry changed, with its TABLE entry. -/
def setSpare (s : State) (fg i : Nat) (f : Spare → Spare) : State :=
  jrnSpare (modGroup s fg (fun g => { g with spares := g.spares.modify i f })) fg i

/-- The locations of the members of a zone other than `j`. -/
def others (s : State) (zid j : Nat) : List (Nat × Nat) :=
  match layoutOf? s zid with
  | some lt => ((List.range (width lt)).filter (fun i => i ≠ j)).filterMap (fun i => loc? s zid i)
  | none => []

/-- Can a spare entry serve member `j` of a zone (R319)? -/
def spareFits (s : State) (zid j : Nat) (x : Spare) : Bool :=
  let l := others s zid j
  let m := ((layoutOf? s zid).map (fun lt => lt.m)).getD 0
  decide (x.state = 0) && [some 0, some 3].contains ((lun? s x.glun).map (fun u => u.state)) &&
  !(l.any (fun p => p.1 = x.glun)) && decide ((l.filter (fun p => chOf p.1 = chOf x.glun)).length < m)

/-- pick_spare of R319: the entry that is assigned, and its index. -/
def chooseSpare (s : State) (fg zid j : Nat) : State × Option (Nat × Spare) :=
  let g := group s fg
  let n := g.spares.length
  let pos := ((List.range n).map (fun i => (g.spareAt + i) % n)).find? (fun i =>
    match g.spares[i]? with | some x => spareFits s zid j x | none => false)
  match pos, pos.bind (fun i => g.spares[i]?) with
  | some i, some x =>
    let s := setSpare s fg i (fun x => { x with state := 1, erased := false })
    (modGroup s fg (fun g => { g with spareAt := (i + 1) % n }), some (i, x))
  | _, _ => (s, none)

/-- The erase of an assigned spare is queued (R318). -/
def spareErase (s : State) (fg i : Nat) (x : Spare) (dl : Option Nat) : State :=
  let d := kindDeadline s .e dl
  queueOp s { id := 0, kind := .e, type := .erase, glun := x.glun, block := x.block, wl := 0, deadline := d.1,
              real := d.2, use := .spareErase fg i }

/-- A spare for a member, its erase queued (R318, R319). -/
def pickSpare (s : State) (fg zid j : Nat) (dl : Option Nat) : State × Option Spare :=
  match chooseSpare s fg zid j with
  | (s, some (i, x)) => (spareErase s fg i x dl, some x)
  | (s, none) => (s, none)

/-! ### Staging copies and journal copies -/

/-- Operations that are withdrawn before they are in the array: their current is released, a transfer begun is abandoned with
RESET_LUN (R149). -/
def withdrawOps (s : State) (p : Op → Bool) : State :=
  (s.ops.filter (fun o => p o && !(opInArray o))).foldl (fun s o =>
    let s := dropOp s o
    if 0 < o.pages then resetLun s o.glun else s) s

/-- Is the operation a staging's? -/
def ofStaging (sid : Nat) (o : Op) : Bool := match o.use with | .stage i _ _ _ => decide (i = sid) | _ => false

/-- A staging whose copy has failed is written again as a whole on another set; no more word lines of its set are used
before reclaim (R121). Programs of the old place that are in the array end there, and count for nothing more. -/
def stagingAgain (s : State) (sid : Nat) : State :=
  match stg? s sid with
  | none => s
  | some g =>
    let wlb := ((stgLayout s g.fg g.set).map (fun lt => dmWlb (layDie s lt))).getD 0
    let s := withdrawOps s (ofStaging sid)
    let s := if g.placed then modGroup s g.fg (fun x => { x with setWl := tset x.setWl g.set wlb }) else s
    modStg s sid (fun g => { g with placed := false, done := [], bad := [] })

/-- A staging leaves: its buffers go back, and what was on its way into them is given up. -/
def dropStg (s : State) (g : Staging) : State :=
  let s := dropBufXfers { s with stagings := s.stagings.filter (fun y => y.sid ≠ g.sid) } (.staging g.sid)
  g.bufs.foldl returnBuf s

/-- A program failed or was interrupted on a word line: what lies on the word line below it in its LUN-block is undefined (R191). An
extent with a copy there keeps only its other copies, also one whose staging is not yet durable on every copy. -/
def damageBelow (s : State) (g b wl : Nat) : State :=
  let on (fg set : Nat) : List Nat := ((stgSet s fg set).zipIdx.filter (fun p => decide (p.1 = (g, b)))).map (fun p => p.2)
  let hit (at_ n : Nat) : Bool := decide (at_ < wl) && decide (wl ≤ at_ + n)
  { s with
    extents := s.extents.map (fun x => if hit x.wl x.nwl then { x with bad := x.bad ++ on x.fg x.set } else x),
    stagings := s.stagings.map (fun x => if x.placed && hit x.wl x.nwl && decide (x.wl + x.nwl ≤ wl) then
      { x with bad := x.bad ++ on x.fg x.set } else x) }

/-- Staging copies on a LUN (and, with a block, on that LUN-block) are lost: extents keep their other copies, stagings in
progress are written again (R121, R307, R308). -/
def dropStaging (s : State) (g : Nat) (b : Option Nat) : State :=
  let hits (fg set : Nat) : List Nat :=
    ((stgSet s fg set).zipIdx.filter (fun p => decide (p.1.1 = g) &&
      (match b with | some x => decide (p.1.2 = x) | none => true))).map (fun p => p.2)
  let ext := s.extents.map (fun e => { e with bad := e.bad ++ hits e.fg e.set })
  let s := { s with extents := ext }
  ((s.stagings.filter (fun x => x.placed && !((hits x.fg x.set).isEmpty))).map (fun x => x.sid)).foldl stagingAgain s

/-- The journal changed. -/
def modJrn (s : State) (f : JrnSt → JrnSt) : State := { s with jrn := f s.jrn }

/-- Live copies after a change: SINGLE_COPY with one, STOPPED with none (R286, R287). -/
def copyCount (s : State) : State :=
  match (liveCopies s.jrn).length with
  | 0 => modJrn s (fun j => { j with stopped := true })
  | 1 => jrnFlag s 4
  | _ => s

/-- A COPY entry (R279): it goes in although the journal may be about to stop. -/
def jrnCopy (s : State) (copy created : Nat) : State :=
  let c := tget s.jrn.copies copy {}
  jrnAppend s { seq := 0, typ := 0x0B, fg := 0xFFFF, arg0 := created * 2 ^ 8 + copy, arg1 := c.glun * 2 ^ 20 + c.first * 2 ^ 8 }

/-- A journal copy is dropped (R286). -/
def dropCopy (s : State) (copy : Nat) : State :=
  if (tget s.jrn.copies copy {}).live then
    let s := withdrawOps s (fun o => match o.use with | .page c _ | .turnErase c => decide (c = copy) | _ => false)
    let s := modJrn s (fun j => { j with copies := tmod j.copies copy {} (fun c => { c with live := false, busy := none, turn := false }) })
    copyCount (jrnMark (jrnFlag (jrnCopy s copy 0) 1))
  else s

/-- Journal copies on a LUN are dropped (R286, R307). -/
def dropJournal (s : State) (g : Nat) : State :=
  ((s.jrn.copies.filter (fun p => p.2.live && decide (p.2.glun = g))).map (fun p => p.1)).foldl dropCopy s

/-! ### Failing a member (R309 to R312) -/

/-- A unit of a zone with a member at row 0, added to the group's work (R323, R330). -/
def addUnit (s : State) (fg zid j : Nat) (alone : Bool) : State :=
  modGroup s fg (fun g => { g with
    units :=
    if g.units.any (fun u => u.zid = zid) then
      modFirst (fun u => u.zid = zid) (fun u => { u with rows := tset u.rows j 0, alone := u.alone && alone }) g.units
    else g.units ++ [{ zid := zid, rows := [(j, 0)], alone := alone }] })

/-- Rows of a zone that wait for a member's new location (R311, R328). -/
def heldRows (s : State) (zid j : Nat) : Bool :=
  s.rows.any (fun r => decide (r.zid = zid) && decide (tget r.memb j .idle = .held))

/-- A member that holds MSTATE 2 gets its unit: in the pass, or alone where rows wait for it (R309, R312). -/
def unitFor (s : State) (fg zid j : Nat) : State :=
  if mstate s zid j = 2 then
    if (group s fg).lease = .rebuild then addUnit s fg zid j false
    else if heldRows s zid j then addUnit s fg zid j true
    else s
  else s

/-- Rows of a zone below WP with more than m members lost are marked lost (R310). -/
def loseRows (s : State) (zid cause : Nat) : State :=
  match layoutOf? s zid with
  | some lt =>
    let n := ((List.range (width lt)).filter (fun j => decide (2 ≤ mstate s zid j))).length
    if lt.m < n then
      ((List.range ((zone s zid).wp / max 1 (rowBlks s lt))).filter (fun r =>
        !(voided s zid r) && !(inLost s zid (r * rowBlks s lt)))).foldl (fun s r => loseRow s zid r cause n) s
    else s
  | none => s

/-- Rows in flight wait for the member's new location; its programs not yet confirmed are withdrawn (R311). -/
def holdRows (s : State) (zid j : Nat) : State :=
  let inFlight (r : Row) : Bool := decide (r.zid = zid) && decide (0 < r.intent) && (match r.phase with
    | .programming | .again | .streaming _ => true
    | _ => false)
  let mine := (s.rows.filter inFlight).map (fun r => r.rid)
  let gone (o : Op) : Bool := match o.use with
    | .member rid i => mine.contains rid && decide (i = j)
    | _ => false
  let rows := s.rows.map (fun r => if inFlight r ∧ tget r.memb j .idle ≠ .failed then
    { r with memb := tset r.memb j .held } else r)
  withdrawOps { s with rows := rows } gone

/-- Codewords of a zone, or of one member of it, are no longer known as unreadable. -/
def forgetUnread (s : State) (fg zid : Nat) (j : Option Nat) : State :=
  modGroup s fg (fun g => { g with
    unread := g.unread.filter (fun p => !(decide (p.1 = zid) && (match j with | some i => decide (p.2.2.1 = i) | none => true))) })

/-- A zone's entries leave the lost-range list of its group (R108, R336). -/
def dropLost (s : State) (fg zid : Nat) : State :=
  let gone := ((group s fg).lost.filter (fun l => l.zid = zid)).length
  storeLost (modGroup s fg (fun g => { g with lost := g.lost.filter (fun l => l.zid ≠ zid) })) fg gone

/-- Member `j` of a zone is failed (R309): a spare is chosen, the MEMBER word written, the zone turns DEGRADED. -/
def failMember (s : State) (zid j : Nat) : State :=
  let fg := fgOf s zid
  let (s, sp) := pickSpare s fg zid j none
  let s := match sp with
    | some x => setMember s zid j (memberOf 2 x.glun x.block)
    | none => maintFlag (setMember s zid j (memberOf 3 0 0)) 1
  let s := setOverlay (jrnMember (forgetUnread s fg zid (some j)) zid j) zid 1
  let s := if (group s fg).lease = .rebuild then maintFlag s 0 else s
  loseRows (unitFor (holdRows s zid j) fg zid j) zid 3

/-- A spare fails: the member that is being rebuilt onto it starts again on a new one (R314). -/
def respare (s : State) (zid j : Nat) : State :=
  let fg := fgOf s zid
  let (s, sp) := pickSpare s fg zid j none
  let s := match sp with
    | some x => setMember s zid j (memberOf 2 x.glun x.block)
    | none => maintFlag (setMember s zid j (memberOf 3 0 0)) 1
  let s := modGroup s fg (fun g => { g with
    units := (g.units.map (fun u =>
    if u.zid = zid then { u with rows := terase u.rows j, left := u.left.filter (fun i => i ≠ j) } else u)).filter
      (fun u => !(u.rows.isEmpty) || u.cur.isSome) })
  unitFor (jrnMember s zid j) fg zid j

/-- Zones of a group. -/
def zidsOf (lt : Layout) : List Nat := (List.range lt.zoneCount).map (fun i => lt.zidBase + i)

/-- The members of a group whose location satisfies a test: zone and index. -/
def membersAt (s : State) (fg : Nat) (p : Nat × Nat → Bool) : List (Nat × Nat) :=
  match (group s fg).layout.bind (fun i => tget? s.layouts i) with
  | some lt => (zidsOf lt).flatMap (fun z => ((List.range (((layoutOf? s z).map width).getD 0)).filter (fun j =>
      match loc? s z j with | some l => p l | none => false)).map (fun j => (z, j)))
  | none => []

/-- Members at a place fail, or look for another spare where that place was their spare (R309, R314). -/
def failAt (s : State) (p : Nat × Nat → Bool) : State :=
  let l := s.groups.flatMap (fun g => membersAt s g.1 p)
  l.foldl (fun s zj => if mstate s zj.1 zj.2 = 2 then respare s zj.1 zj.2 else failMember s zj.1 zj.2) s

/-- Spare entries on a LUN become dead (R307, R318). -/
def killSpares (s : State) (g : Nat) : State :=
  (s.groups.map (fun p => p.1)).foldl (fun s fg =>
    ((group s fg).spares.zipIdx.filter (fun p => decide (p.1.glun = g) && decide (p.1.state ≤ 1))).foldl (fun s p =>
      setSpare s fg p.2 (fun x => { x with state := 2 })) s) s

/-- The state of a LUN, with its TABLE entry (R277, R279, R307). A LUN belongs to no one failure group, and the spec gives such an
entry no FG: it is a free value (log entry 46). -/
def setLunState (s : State) (g st : Nat) : State :=
  let (v, s) := freeVal s
  jrnTable (modLun s g (fun l => { l with state := st })) (v % 2 ^ 16) 0 (st * 2 ^ 16 + g) 0

/-- A whole LUN is declared failed (R307). -/
def lunFail (s : State) (g : Nat) : State :=
  if lunFailed s g || (lun? s g).isNone then s
  else
    let s := setLunState s g 2
    let s := killSpares (dropJournal (dropStaging s g none) g) g
    failAt s (fun l => l.1 = g)

end Sys2Proof.Machine
end

