-- ==== Sys2Proof/Machine/Journal.lean ====
section
/-! DEFINITION. The journal engine (chapter Parity, the Stripe Journal and Restart): placement of the copies, pages on their
way to flash, window turns, and the entries that a scan finds. -/

namespace Sys2Proof.Machine

/-! ### Placement (R283) -/

/-- A JRN_PLACE or JRN_SPARE location: GLUN, first LUN-block, blocks. -/
structure Window where
  glun   : Nat
  first  : Nat
  blocks : Nat
  deriving DecidableEq, Repr

/-- The location that a register value names. -/
def windowOf (w : Nat) : Window := { glun := bits w 31 20, first := bits w 19 8, blocks := bits w 7 0 }

/-- Do two runs of LUN-blocks meet? -/
def runsMeet (a n b m : Nat) : Bool := decide (a < b + m) && decide (b < a + n)

/-- A run of LUN-blocks touches LUN-blocks 0 to 7 of an option-area LUN (R176). -/
def hitsOa (g a n : Nat) : Bool := decide (g % 1024 = 0) && runsMeet a n 0 8

/-- A run of LUN-blocks touches a bound layout's zone range or staging list. -/
def hitsLayouts (s : State) (g a n : Nat) : Bool :=
  s.layouts.any (fun p =>
    (p.2.luns.contains g && runsMeet a n p.2.blockBase p.2.blockCount) ||
    p.2.staging.any (fun set => set.any (fun l => decide (l.1 = g) && runsMeet a n l.2 1)))

/-- A run of LUN-blocks touches a spare map. -/
def hitsSpares (s : State) (g a n : Nat) : Bool :=
  s.groups.any (fun p => p.2.spares.any (fun x => decide (x.glun = g) && decide (x.state ≠ 3) && runsMeet a n x.block 1))

/-- A run of LUN-blocks touches a journal window. -/
def hitsWindows (s : State) (g a n : Nat) : Bool :=
  let hit (w : Window) : Bool := decide (w.blocks ≠ 0) && decide (w.glun = g) && runsMeet a n w.first w.blocks
  (List.range 3).any (fun c => hit (windowOf (rd s (regJrnPlace c)))) ||
  (List.range 4).any (fun i => hit (windowOf (rd s (regJrnSpare i))))

/-- Can a window serve as one (R283)? -/
def windowFits (s : State) (w : Window) : Bool :=
  (lun? s w.glun).isSome && bit (dmFlags (dieOf s w.glun)) 2 && decide (4 ≤ w.blocks) &&
  decide (w.first + w.blocks ≤ dmBpp (dieOf s w.glun)) && !(hitsOa w.glun w.first w.blocks) &&
  !(hitsLayouts s w.glun w.first w.blocks) && !(hitsSpares s w.glun w.first w.blocks)

/-- The placement check of R283. -/
def placeOk (s : State) : Bool :=
  let ws := (List.range 3).map (fun c => windowOf (rd s (regJrnPlace c)))
  ws.all (windowFits s) && decide ((dedupNat (ws.map (fun w => quadOf w.glun))).length = 3)

/-- A copy at a window, its writing to begin with a PSEQ. -/
def newCopy (w : Window) (next : Nat) : CopySt :=
  { live := true, glun := w.glun, first := w.first, blocks := w.blocks, block := w.first, next := next }

/-- The JRE starts on JRN_PLACE0 to 2, or stops (R283). -/
def placeCheck (s : State) : State :=
  if placeOk s then
    if s.jrn.copies.isEmpty then
      modJrn s (fun j => { j with
        stopped := false, mode := rdf s regJrnCtrl 8 8,
        copies := (List.range 3).map (fun c => (c, newCopy (windowOf (rd s (regJrnPlace c))) j.pseq)) })
    else modJrn s (fun j => { j with stopped := (liveCopies j).isEmpty })
  else jrnFlag (modJrn s (fun j => { j with stopped := true })) 5

/-! ### Pages (R280, R281) -/

/-- An entry as 64 bytes (R278). -/
def entryBytes (e : Entry) : List Byte :=
  let b := leBytes 8 e.seq ++ leBytes 1 e.typ ++ leBytes 1 (b2n e.pfail) ++ leBytes 2 e.fg ++ leBytes 4 e.zid ++
    leBytes 4 (e.wseq * 2 ^ 12) ++ leBytes 2 e.row ++ leBytes 2 0 ++ leBytes 8 e.arg0 ++ leBytes 8 e.arg1 ++
    leBytes 8 e.arg2 ++ leBytes 8 0
  b ++ leBytes 4 (crc32 b) ++ leBytes 4 0

/-- DATA of codewords 1 to 15 of a page: entries, FILL in the unused slots, and segment images. -/
def pageData (p : PageSt) : List (List Byte) :=
  let es := (p.entries.map entryBytes).flatten
  (List.range 4).map (fun i => slice (es ++ zeros 16384) (4096 * i) 4096) ++
  (List.range 11).map (fun i => ((p.segs[i]?).map (fun x => x.2.2)).getD (zeros 4096))

/-- DATA of codeword 0 of a page on a copy (R281). -/
def pageHeader (p : PageSt) (copy : Nat) : List Byte :=
  let seg (i : Nat) : List Byte := match p.segs[i]? with
    | some x => leBytes 8 (x.1 * 2 ^ 31 + x.2.1) ++ leBytes 8 p.segSeq
    | none => zeros 16
  let b := leBytes 8 p.pseq ++ leBytes 8 ((p.entries.map (fun e => e.seq)).headD 0) ++ leBytes 2 p.entries.length ++
    leBytes 1 p.segs.length ++ leBytes 1 copy ++ leBytes 4 p.gen ++ leBytes 8 p.tail ++
    (List.range 11).flatMap seg ++ zeros 3884
  b ++ leBytes 4 (crc32 (b ++ (pageData p).flatten))

/-- The codeword bodies of a page on a copy, with their row headers (R280). -/
def pageBodies (p : PageSt) (copy wl : Nat) : List (List Byte × Nat) :=
  ((pageHeader p copy :: pageData p).zipIdx).map (fun d =>
    (mkBody d.1 0xFFFF (p.pseq % 2 ^ 48), rowHdr 3 (0x30 + copy) wl (p.pseq % 2 ^ 19) 0 0 0 d.2))

/-! ### Writing pages (R284) -/

/-- A copy. -/
def copyAt (s : State) (c : Nat) : CopySt := tget s.jrn.copies c {}

/-- A copy changed. -/
def modCopy (s : State) (c : Nat) (f : CopySt → CopySt) : State :=
  modJrn s (fun j => { j with copies := tmod j.copies c {} f })

/-- Entries that are not durable yet. -/
def undurable (s : State) : List Entry :=
  (s.jrn.pages.flatMap (fun p => p.entries) ++ s.jrn.backlog).filter (fun e => decide (s.jrn.durable ≤ e.seq))

/-- The SEQ below which entries must be durable before a program to a member's location: that of its last MEMBER entry (R277). -/
def memberSeq (s : State) (zid j : Nat) : Nat :=
  (((undurable s).filter (fun e => decide (e.typ = 6) && decide (e.zid = zid) && decide (e.arg0 / 2 ^ 32 = j))).map (fun e => e.seq + 1)).foldl max 0

/-- A COPY entry of a copy in an earlier page is not durable yet: its next page waits (R277). -/
def copyWaits (s : State) (c : Nat) (p : PageSt) : Bool :=
  s.jrn.pages.any (fun q => decide (q.pseq < p.pseq) &&
    q.entries.any (fun e => decide (e.typ = 0x0B) && decide (e.arg0 % 4 = c) && decide (s.jrn.durable ≤ e.seq)))

/-- Word lines that a window block gives: those of the smallest model among the live copies. -/
def windowWls (s : State) : Nat :=
  (((liveCopies s.jrn).map (fun c => dmWlb (dieOf s (copyAt s c).glun))).min?).getD 0

/-- Earliest deadline of the work that waits on a page's entries, else the tick of its close + LEAD_W (R362). -/
def pageDeadline (s : State) (p : PageSt) : Nat × Bool :=
  let top := ((p.entries.map (fun e => e.seq)).max?).getD 0
  let dl (c : Cmd) : Option Nat := if top < c.needSeq ∨ c.needSeq = 0 then none else c.deadline
  match (s.cmds.filterMap dl).min? with
  | some t => (t, true)
  | none => (p.closeAt + lead s .j, false)

/-- May a copy start its next page (R277, R284)? -/
def mayWrite (s : State) (c : Nat) : Option PageSt :=
  let j := s.jrn
  let x := copyAt s c
  let l := liveCopies j
  let busy := (l.filter (fun d => (copyAt s d).busy.isSome)).length
  let other := l.any (fun d => decide (d ≠ c) && (copyAt s d).busy.isNone && decide (x.next ≤ (copyAt s d).next))
  if !j.stopped && x.live && x.busy.isNone && !x.turn && decide (x.wl < windowWls s) &&
      decide (busy < max 1 (l.length - 1)) && (decide (l.length = 1) || other) then
    j.pages.find? (fun p => p.closed && decide (p.pseq = x.next) && !(copyWaits s c p))
  else none

/-- A page is queued for a copy. -/
def pageStart (s : State) (c : Nat) : State :=
  match mayWrite s c with
  | some p =>
    let x := copyAt s c
    let d := pageDeadline s p
    let s := trace s 4 8 c [p.pseq]
    queueProg (modCopy s c (fun x => { x with busy := some p.pseq }))
      { id := 0, kind := .j, type := .slc, glun := x.glun, block := x.block, wl := x.wl, slc := true, deadline := d.1,
        real := d.2, use := .page c p.pseq }
  | none => s

/-- Pages that every live copy holds leave the millpond; their entries and images count for the window they lie in. -/
def retirePages (s : State) : State :=
  let l := liveCopies s.jrn
  let done (p : PageSt) : Bool := p.closed && !(l.isEmpty) && pageDurable s.jrn p && l.all (fun c => decide (p.pseq < (copyAt s c).next))
  modJrn s (fun j => { j with
    live := j.live ++ (j.pages.filter done).map (fun p => (j.turnNo, p.pseq, p.entries)),
    images := (j.pages.filter done).foldl (fun t p => p.segs.foldl (fun t x => tset t (x.1 * 65536 + x.2.1) p.segSeq) t) j.images,
    pages := j.pages.filter (fun p => !(done p)) })

/-- Is a LUN-block the window block that a live copy uses? -/
def copyOn (s : State) (c g b : Nat) : Bool :=
  let x := copyAt s c
  x.live && decide (x.glun = g) && decide (x.block = b)

/-- A page program ends well on a copy. -/
def pageGood (s : State) (c pseq g b : Nat) : State :=
  if copyOn s c g b then
    let s := modCopy s c (fun x => { x with busy := none, wl := x.wl + 1, next := pseq + 1 })
    let s := modJrn s (fun j => { j with
      pages := j.pages.map (fun p => if p.pseq = pseq then { p with good := p.good ++ [c] } else p) })
    retirePages (jrnMark s)
  else s

/-- A page program fails on a copy (R286). -/
def pageBad (s : State) (c g b : Nat) : State := if copyOn s c g b then retirePages (dropCopy s c) else s

/-! ### Window turns (R285 to R287) -/

/-- The next window block of a copy, past the retired ones. -/
def nextBlock (x : CopySt) : Option Nat :=
  ((List.range x.blocks).map (fun i => x.first + (x.block - x.first + 1 + i) % max 1 x.blocks)).find? (fun b => !(x.bad.contains b))

/-- A segment of a zone has an image above a SEQ. -/
def imaged (s : State) (zid seq : Nat) : Bool := (zoneSegs zid).all (fun k => decide (seq < tget s.jrn.images k 0))

/-- Is the row of an INTENT settled by a later entry (R285)? -/
def settled (es : List Entry) (e : Entry) : Bool :=
  decide (e.typ ≠ 1) || es.any (fun x => [2, 3, 0x0A].contains x.typ && decide (x.zid = e.zid) && decide (x.row = e.row) &&
    decide (x.wseq = e.wseq) && decide (e.seq < x.seq))

/-- May the window blocks that a turn reuses be erased? -/
def mayErase (s : State) : Bool :=
  let j := s.jrn
  let all_ := j.live.flatMap (fun p => p.2.2) ++ j.pages.flatMap (fun p => p.entries) ++ j.backlog
  let gone := (turnPages s).flatMap (fun p => p.2.2)
  gone.all (fun e => settled all_ e && (!(namesZone e) || imaged s e.zid e.seq))

/-- The first JRN_SPARE location, not yet taken, whose LUN lies in another quadrant than the live copies (R286). -/
def pickWindow (s : State) : Option Nat :=
  let quads := (liveCopies s.jrn).map (fun c => quadOf (copyAt s c).glun)
  (List.range 4).find? (fun i =>
    let v := rd s (regJrnSpare i)
    let w := windowOf v
    decide (w.blocks ≠ 0) && decide (tget? s.jrn.spares i ≠ some v) && windowFits s w && !(lunFailed s w.glun) &&
      !(quads.contains (quadOf w.glun)))

/-- A turn erase of a copy on its next window block is queued. -/
def turnErase (s : State) (c b : Nat) : State :=
  let d := kindDeadline s .e none
  queueOp (modCopy s c (fun x => { x with block := b, wl := 0, turn := true }))
    { id := 0, kind := .e, type := .erase, glun := (copyAt s c).glun, block := b, wl := 0, slc := true, deadline := d.1,
      real := d.2, use := .turnErase c }

/-- A dropped copy is re-created on a spare location; its first window block is erased first (R286, R287). -/
def recreate (s : State) (c : Nat) : State :=
  match pickWindow s with
  | some i =>
    let v := rd s (regJrnSpare i)
    let next := ((s.jrn.pages.map (fun p => p.pseq)).min?).getD s.jrn.pseq
    let s := modCopy (modJrn s (fun j => { j with spares := tset j.spares i v })) c (fun _ => newCopy (windowOf v) next)
    copyCount (jrnCopy (turnErase s c (windowOf v).first) c 1)
  | none => jrnFlag s 6

/-- Every copy that is not live is re-created where it can be. -/
def recreateAll (s : State) : State :=
  ((List.range 3).filter (fun c => (tget? s.jrn.copies c).isSome && !((copyAt s c).live))).foldl recreate s

/-- The head has reached the last word line of the window blocks in use, with no page in program and no turn under way. -/
def headAtEnd (s : State) : Bool :=
  let l := liveCopies s.jrn
  !(l.isEmpty) && l.all (fun c => let x := copyAt s c
    x.busy.isNone && !x.turn && decide (windowWls s ≤ x.wl))

/-- Copies whose window block is retired are dropped at the turn (R395). -/
def dropRetired (s : State) : State :=
  ((liveCopies s.jrn).filter (fun c => (blkSt s (copyAt s c).glun (copyAt s c).block).retired)).foldl dropCopy s

/-- The window turns (R285): live copies go to their next block and erase it, dropped ones are re-created. -/
def windowTurn (s : State) : State :=
  if !s.jrn.stopped && headAtEnd s then
    if mayErase s then
      let len := windowLen s
      let s := dropRetired (retirePages s)
      let s := modJrn s (fun j => { j with
        full := false, turnNo := j.turnNo + 1, live := j.live.filter (fun p => decide (j.turnNo + 1 < p.1 + len)) })
      let s := modJrn s (fun j => { j with
        tail := ((j.live.map (fun p => p.2.1)).min?).getD (((j.pages.map (fun p => p.pseq)).min?).getD j.pseq) })
      let s := (liveCopies s.jrn).foldl (fun s c => match nextBlock (copyAt s c) with
        | some b => turnErase s c b
        | none => dropCopy s c) s
      recreateAll s
    else if s.jrn.full then s else jrnFlag (modJrn s (fun j => { j with full := true })) 3
  else s

/-- A turn erase ends: the copy goes on, or is dropped and re-created at once, its window block retired (R192, R286). -/
def turnEnd (s : State) (c g b : Nat) (good : Bool) : State :=
  if !(copyOn s c g b) then (if good then s else erasedBad s g b)
  else if good then modCopy s c (fun x => { x with turn := false })
  else
    let s := modCopy (erasedBad s g b) c (fun x => { x with bad := x.bad ++ [b], turn := false })
    let s := dropCopy s c
    if s.jrn.stopped then s else recreate s c

/-- Pages that hold the images of some segments. -/
def segPages (s : State) (l : List Nat) : State :=
  let first := s.jrn.pseq
  let pages := (List.range ((l.length + 10) / 11)).map (fun i =>
    sealPage s ((l.drop (11 * i)).take 11) { pseq := first + i, first := s.tick })
  modJrn s (fun j => { j with
    pages := j.pages ++ pages, pseq := first + pages.length,
    dirty := j.dirty.filter (fun k => !(l.contains k)) })

/-- Segments that the next turn still needs are written in pages of their own while the window blocks in use have room for these and
one more page (R285). -/
def turnAhead (s : State) : State :=
  let l := turnSegs s
  let spoken := ((liveCopies s.jrn).map (fun c => (copyAt s c).wl + (s.jrn.pages.filter (fun p => decide ((copyAt s c).next ≤ p.pseq))).length)).foldl max 0
  let room := windowWls s - spoken
  let n := (l.length + 10) / 11
  if decide (0 < n) && !s.jrn.stopped && decide (n ≤ room) && decide (room ≤ n + 1) then segPages s l else s

/-- A stopped journal without a live copy takes JRN_SPARE locations that a CONFIG_COMMIT makes known (R287): copies on up
to three of them, full segment images of the bound groups in their first pages. -/
def restartCopies (s : State) : State :=
  if s.jrn.stopped && !(s.jrn.copies.isEmpty) && (liveCopies s.jrn).isEmpty then
    let s := (List.range 3).foldl (fun s c => if (pickWindow s).isSome then recreate s c else s) s
    if (liveCopies s.jrn).isEmpty then s
    else
      let l := s.groups.flatMap (fun p => ((p.2.layout.bind (fun i => tget? s.layouts i)).map layoutSegs).getD [])
      let s := modJrn (segPages s (dedupNat l)) (fun j => { j with stopped := false })
      (liveCopies s.jrn).foldl (fun s c => jrnCopy s c 1) s
  else s

/-! ### Live views -/

/-- JRN_STATE (R305). -/
def jrnStateWord (s : State) : Nat :=
  let j := s.jrn
  b2n j.pfActive * 2 ^ 31 + b2n j.pfDone * 2 ^ 30 + b2n j.scanned * 2 ^ 29 + b2n j.stopped * 2 ^ 28 +
    (s.groups.filter (fun p => p.2.await)).length * 2 ^ 8 + ((liveCopies j).map (fun c => 2 ^ c)).sum

/-! ### The scan (R296, R297, R596) -/

/-- An entry found by the scan as the JRE keeps it. -/
def ofFound (e : JEntry) : Entry :=
  { seq := e.seq, typ := e.typ, pfail := e.pfail, fg := e.fg, zid := e.zid, wseq := e.wseq, row := e.row, arg0 := e.arg0,
    arg1 := e.arg1, arg2 := e.arg2 }

/-- An entry of the kept buffer as the restart sees it. -/
def toFound (e : Entry) : JEntry :=
  { seq := e.seq, typ := e.typ, pfail := e.pfail, fg := e.fg, zid := e.zid, wseq := e.wseq, row := e.row, arg0 := e.arg0,
    arg1 := e.arg1, arg2 := e.arg2 }

/-- The runs of missing numbers within a rising list. -/
def gaps : Nat → List Nat → List (Nat × Nat)
  | _, [] => []
  | lo, p :: r => (if lo < p then [(lo, p - 1)] else []) ++ gaps (p + 1) r

/-- Entries that a later discard makes void are left out (R607). -/
def notDiscarded (es : List JEntry) (e : JEntry) : Bool :=
  !(es.any (fun d => decide (d.typ = 8) && bit d.arg2 16 && decide (d.fg = e.fg) && decide (e.seq < d.seq))) &&
    !(decide (e.typ = 8) && bit e.arg2 16)

/-- The latest image of each segment. -/
def latestSegs (l : List JSegment) : List JSegment :=
  l.filter (fun x => !(l.any (fun y => decide (y.kind = x.kind) && decide (y.index = x.index) && decide (x.segSeq < y.segSeq))))

/-- LUN states that TABLE entries give (R317); PORST_N returns a SUSPECT LUN to GOOD (R313). -/
def applyLunStates (s : State) (es : List JEntry) : State :=
  let soft := bit (rd s regBootState) 27
  (es.filter (fun e => decide (e.typ = 9) && decide (bits e.arg0 63 62 = 0))).foldl (fun s e =>
    modLun s (e.arg0 % 4096) (fun l => { l with
      state := if decide (bits e.arg0 19 16 = 1) && !soft then 0 else bits e.arg0 19 16 })) s

/-- Does a found entry make its group await restart? COPY entries and LUN states belong to no group. -/
def ofGroup (e : JEntry) : Bool :=
  decide (e.typ ≠ 0) && decide (e.typ ≠ 0x0B) && !(decide (e.typ = 9) && decide (bits e.arg0 63 62 = 0))

/-- Pages in rising order, each with the number of its window block: a page whose word line does not lie above that of the page before
begins the next one. -/
def turnsOf : Nat → Option Nat → List JPage → List (Nat × JPage)
  | _, _, [] => []
  | t, w, p :: r =>
    let t := match w with | some x => if p.wl ≤ x then t + 1 else t | none => t
    (t, p) :: turnsOf t (some p.wl) r

/-- A copy goes on after a scan in the window block of the last page that it holds, above the last word line written on any copy.
DEDUCED: the spec names no other place (log entry 45). -/
def resumeCopy (ps : List JPage) (next : Nat) (c : Nat) (x : CopySt) : CopySt :=
  match (ps.filter (fun p => bit p.copies c)).getLast?, ps.getLast? with
  | some p, some q => { x with next := next, block := p.blocks.getD c x.first, wl := q.wl + 1 }
  | none, some q => { x with next := next, wl := q.wl + 1 }
  | _, none => { x with next := next, wl := 0 }

/-- JOURNAL_SCAN_DONE (R296, R297): the head, the holes, the entries and images; the entries of a kept buffer above the
last one found go into new pages (R596); then SCANNED. -/
def scanDone (s : State) (found : List JPage) : State :=
  if s.jrn.scanned || s.jrn.stopped || !s.boot.released then s
  else
    let valid := (found.filter (fun p => decide (p.copies % 8 ≠ 0))).mergeSort (fun a b => decide (a.pseq ≤ b.pseq))
    let ps := (valid.foldl (fun (t : Tab Unit) p => tset t p.pseq ()) []).map (fun p => p.1)
    let tail := ((valid.map (fun p => p.tailPseq)).max?).getD 0
    let after (p : Nat) : Nat := (((valid.filter (fun x => p < x.pseq)).flatMap (fun x => x.entries)).map (fun e => e.seq)).min?.getD 0
    let holes := (gaps tail (ps.filter (fun p => tail ≤ p))).map (fun h => (h.1, after h.1))
    let es := (valid.flatMap (fun p => p.entries)).mergeSort (fun a b => decide (a.seq ≤ b.seq))
    let last := ((es.map (fun e => e.seq + 1)).max?).getD 0
    let kept := s.jrn.kept.filter (fun e => decide (last ≤ e.seq))
    let all_ := es ++ kept.map toFound
    let next := max (((kept.map (fun e => e.seq + 1)).max?).getD 0)
      (max last (((valid.flatMap (fun p => p.segs)).map (fun x => x.segSeq)).max?.getD 0))
    let waits := (s.jrn.backlog.zipIdx).map (fun p => { p.1 with seq := next + p.2 })
    let pseq := ((ps.max?).map (fun p => p + 1)).getD 0
    let s := holes.foldl (fun s _ => bump (jrnFlag s 2) regJrnRestart2 31 16 1) s
    let s := applyLunStates s all_
    let live := all_.filter (notDiscarded all_)
    let s := (dedupNat ((live.filter ofGroup).map (fun e => e.fg))).foldl (fun s fg =>
      modGroup s fg (fun g => { g with await := true })) s
    let segs := latestSegs (valid.flatMap (fun p => p.segs))
    let turns := turnsOf 0 none valid
    let s := modJrn s (fun j => { j with
      live := (turns.filter (fun p => decide (tail ≤ p.2.pseq))).map (fun p => (p.1, p.2.pseq, p.2.entries.map ofFound)),
      turnNo := ((turns.map (fun p => p.1)).max?).getD 0, images := segs.foldl (fun t x => tset t (x.kind * 65536 + x.index) x.segSeq) [],
      found := live, discards := (all_.filter (fun e => decide (e.typ = 8) && bit e.arg2 16)).foldl (fun t e => tset t e.fg e.seq) [],
      segs := segs, holes := holes, pseq := pseq, tail := tail,
      seq := next + waits.length, backlog := kept ++ waits, kept := [], durable := last, scanned := true,
      copies := j.copies.map (fun p => (p.1, resumeCopy valid pseq p.1 p.2)) })
    jrnMark (drainBacklog (kept.length + waits.length) s)

end Sys2Proof.Machine
end

