-- ==== Sys2Proof/Machine/Hopper.lean ====
section
/-! DEFINITION. The hopper (chapter Zones, Layouts and the Hopper): gathering rows, the acceptance of appends, the order in
which appends complete, the staging of partial rows, and the promises of flush, close and finish. -/

namespace Sys2Proof.Machine

/-! ### Slices and gathering rows (R111, R117, R133) -/

/-- Free gathering rows of a slice. -/
def sliceFree (s : State) (q : Nat) : Nat :=
  2048 - (s.rows.filter (fun r => decide (r.quad = q) && r.slot.isSome)).length

/-- The lowest free gathering row of a slice. -/
def freeRowSlot (s : State) (q : Nat) : Option Nat :=
  (List.range 2048).find? (fun i => !(s.rows.any (fun r => decide (r.quad = q) && decide (r.slot = some i))))

/-- The partial row of a zone, where it holds a gathering row. -/
def partial? (s : State) (zid : Nat) : Option Row :=
  s.rows.find? (fun r => decide (r.zid = zid) && decide (r.phase = .gathering))

/-- HOP_SLICE_LOW follows the fewest free rows. -/
def noteLow (s : State) (q : Nat) : State :=
  wr s (regHopSliceLow q) (min (rdf s (regHopSliceLow q) 11 0) (sliceFree s q))

/-- A partial row holds blocks that are not staged. -/
def unstagedIn (s : State) (r : Row) : Bool :=
  let e := zone s r.zid
  decide (r.phase = .gathering) && decide (e.staged < e.gather)

/-- A zone's partial row takes a gathering row (R111). -/
def newRow (s : State) (zid row : Nat) : State :=
  let q := zoneQuad s zid
  let (rid, s) := fresh s
  let slot := freeRowSlot s q
  let s := { s with rows := s.rows ++ [{ rid := rid, quad := q, slot := slot, zid := zid, row := row }] }
  noteLow (modZone s zid (fun e => { e with gv := true, gslot := slot.getD 0 })) q

/-! ### Commands of a zone -/

/-- A zone is the boundary zone of a reshape that runs (R339). -/
def atBoundary (s : State) (zid : Nat) : Bool :=
  match groupOf? s zid with
  | some (_, g) => decide (g.lease = .reshape) && decide (g.boundary = zid)
  | none => false

/-- Appends, writes, opens, closes, finishes and resets of the boundary zone wait (R339). -/
def boundaryHolds (s : State) (cid op : Nat) : Bool :=
  [1, 2, 4, 5, 6, 7].contains op && ((cmd? s cid).map (fun c => atBoundary s (cZid c))).getD false

/-- The step of a zone command: checks 5 and 6 are made again, since the zone may have changed since the fetch. -/
def zoneStart (s : State) (cid op : Nat) (f : State → Cmd → State) : State :=
  if boundaryHolds s cid op then s
  else start s cid op (fun s c =>
    match zoneCheck s c with
    | some r => finish s cid r
    | none => f s c)

/-- Appends and writes accepted for a zone and not yet complete, in offset order. -/
def zoneAppends (s : State) (zid : Nat) : List Cmd :=
  (s.cmds.filter (fun c => decide (c.zone = some zid) && decide (c.stage = .running) && (decide (opc c = 1) || decide (opc c = 2)))).mergeSort
    (fun a b => decide (a.first ≤ b.first))

/-- The result of an append: its first failing block's, else the offset and the write pointer (R64, R73). -/
def appendResult (c : Cmd) (wp : Nat) : Result :=
  match minBy (fun (p : Nat × Result) => p.1) c.badBlks with
  | some p => p.2
  | none => { status := stOk, ra := c.first, rb := wp }

/-- Completes the appends of a zone in offset order while the lowest is done (R105, R106). -/
def settleAppends : Nat → State → Nat → State
  | 0, s, _ => s
  | n + 1, s, zid =>
    match zoneAppends s zid with
    | c :: _ =>
      if c.left = 0 ∧ c.needSeq ≤ s.jrn.durable then
        let wp := c.first + cCount c
        let s := modZone s zid (fun e => { e with wp := max e.wp wp })
        settleAppends n (finish s c.cid (appendResult c wp)) zid
      else s
    | [] => s

/-- Blocks of a command settled: durable, or failed with a result. -/
def blocksDone (s : State) (cid n : Nat) (needSeq : Nat) (bad : List (Nat × Result)) : State :=
  modCmd s cid (fun c => { c with left := c.left - n, needSeq := max c.needSeq needSeq, badBlks := c.badBlks ++ bad })

/-- The pieces of a row cut to a range of its blocks. -/
def cutPieces (r : Row) (lo hi : Nat) : List Piece :=
  r.pieces.filterMap (fun p =>
    let a := max p.first lo
    let b := min (p.first + p.count) hi
    if a < b then some { p with cmdBlk := p.cmdBlk + (a - p.first), first := a, count := b - a } else none)

/-- The blocks of a row in a range become durable for their commands. -/
def rangeDone (s : State) (r : Row) (lo hi needSeq : Nat) : State :=
  (cutPieces r lo hi).foldl (fun s p => blocksDone s p.cid p.count needSeq []) s

/-! ### Staging (R116 to R122) -/

/-- The bound layout of a failure group. -/
def boundLayout (s : State) (fg : Nat) : Option Layout := (group s fg).layout.bind (fun i => tget? s.layouts i)

/-- Where the staging sets of a zone begin: at 65,536 for a zone under the second layout of a reshape. -/
def setBase (s : State) (zid : Nat) : Nat :=
  let new := (group s (fgOf s zid)).newIdx
  if new.isSome && decide (layoutIdx s zid = new) then 65536 else 0

/-- SLC word lines of an extent of `n` blocks on a set. -/
def extentWls (s : State) (fg set n : Nat) : Nat :=
  let c := ((stgLayout s fg set).map (fun lt => cbsOf (layDie s lt))).getD 1
  (n + 1 + c - 1) / c

/-- Earliest deadline among the commands of pieces. -/
def piecesDeadline (s : State) (ps : List Piece) : Option Nat :=
  (ps.filterMap (fun p => (cmd? s p.cid).bind (fun c => c.deadline))).min?

/-- A staging of the unstaged blocks of a zone's partial row is asked for (R116, R119, R122), where none is in progress. One that
consolidates takes buffers for the staged prefix, which returns through DRAM (R264). -/
def wantStaging (s : State) (zid : Nat) (spill : Bool) (dl : Option Nat) : State :=
  match partial? s zid with
  | none => s
  | some r =>
    let e := zone s zid
    if unstagedIn s r && r.staging.isNone then
      let fg := fgOf s zid
      let consol := decide (8 ≤ e.stgExt)
      let first := if consol then 0 else e.staged
      let d := [dl, piecesDeadline s (cutPieces r e.staged e.gather)].filterMap id
      let k := kindDeadline s .s d.min?
      let (sid, s) := fresh s
      let g : Staging := { sid := sid, rid := r.rid, zid := zid, row := r.row, wseq := e.wseq, fg := fg, set := setBase s zid, wl := 0,
                           nwl := extentWls s fg (setBase s zid) (e.gather - first), first := first, count := e.gather - first,
                           consol := consol, spill := spill, old := List.range' first (e.staged - first), want := e.staged - first,
                           deadline := k.1, real := k.2, placed := false, began := s.tick }
      let s := modRow { s with stagings := s.stagings ++ [g] } r.rid (fun r => { r with staging := some sid })
      askBufs s r.quad g.want (.staging sid)
    else s

/-- Partial rows of a slice that could be a spill's victim (R117). -/
def victims (s : State) (q : Nat) : List Row :=
  s.rows.filter (fun r => decide (r.quad = q) && unstagedIn s r && r.staging.isNone)

/-- Spills in progress in a slice. -/
def spillsIn (s : State) (q : Nat) : Nat :=
  (s.stagings.filter (fun g => g.spill && decide (((row? s g.rid).map (fun r => r.quad)) = some q))).length

/-- One spill starts: its victim has the oldest last append (R117). DESIGN CHOICE: of rows with the same last-append tick, the
earlier one of the list (log entry 69). -/
def startSpill (s : State) (q : Nat) : State :=
  match minBy (fun (r : Row) => r.lastTick) (victims s q) with
  | some r => wantStaging s r.zid true none
  | none => s

/-- Slot pressure keeps one spill running for each slot of shortfall (R117). -/
def runSpills : Nat → State → Nat → State
  | 0, s, _ => s
  | n + 1, s, q =>
    if spillsIn s q < rdf s regHopCtrl 11 0 - sliceFree s q && !((victims s q).isEmpty) then runSpills n (startSpill s q) q
    else s

/-- Slot pressure is served. -/
def servePressure (s : State) (q : Nat) : State := runSpills (rdf s regHopCtrl 11 0 - sliceFree s q) s q

/-! ### Acceptance (R103, R104, R112, R118) -/

/-- One run of blocks of a command goes into its zone's partial row, which fills or not (R111, R112). -/
def gatherRun (s : State) (c : Cmd) (zid rb off cmdBlk n : Nat) : State :=
  let s := if (partial? s zid).isSome then s else newRow s zid (off / rb)
  match partial? s zid with
  | none => s
  | some r =>
    let p : Piece := { cid := c.cid, cmdBlk := cmdBlk, first := off % rb, count := n }
    let e := zone s zid
    let s := modRow s r.rid (fun r => { r with pieces := r.pieces ++ [p], lastTick := s.tick })
    if off % rb + n = rb then
      let s := modRow s r.rid (fun r => { r with phase := .filled, fillTick := s.tick, gen := genNow s, acked := e.staged })
      modZone s zid (fun e => { e with
        gather := 0, staged := 0, stgExt := 0, gv := false, gslot := 0, inflight := e.inflight + 1 })
    else modZone s zid (fun e => { e with gather := e.gather + n })

/-- The blocks of a command go into rows from an offset on. -/
def gatherBlocks : Nat → State → Cmd → Nat → Nat → Nat → Nat → Nat → State
  | 0, s, _, _, _, _, _, _ => s
  | f + 1, s, c, zid, rb, off, cmdBlk, n =>
    if n = 0 then s
    else
      let m := min n (rb - off % rb)
      gatherBlocks f (gatherRun s c zid rb off cmdBlk m) c zid rb (off + m) (cmdBlk + m) (n - m)

/-- A zone enters OPEN (R58, R101): `none` when no OZT entry is free. An EMPTY zone takes its tenant and the bound
layout. -/
def openZone (s : State) (zid tenant : Nat) (hint : Option Nat) : Option State :=
  let e := zone s zid
  if e.state = 1 then some (match hint with | some h => setZone s { e with hint := h } | none => s)
  else
    let lay := (layoutIdx s zid).getD 0
    let e := { e with
      state := 1, zid := zid, hint := hint.getD e.hint,
      tv := if e.state = 0 then true else e.tv, tenant := if e.state = 0 then tenant else e.tenant,
      layout := if e.state = 0 then lay else e.layout }
    (oztTake s e).map (fun s => jrnZone s zid)

/-- Tenant of a ring. -/
def ringTenant (s : State) (r : Nat) : Nat := cget s r 0x1C 2 % 4096

/-- A program or erase of the zone would meet a protected LUN (check 8 of R68). -/
def membersProtected (s : State) (zid : Nat) : Bool :=
  match layoutOf? s zid with
  | some lt => (List.range (width lt)).any (fun j => match loc? s zid j with | some (g, _) => protected? s g | none => false)
  | none => false

/-- What the hopper answers to an append. -/
inductive Accept where
  | refuse (r : Result) (flag : Option Nat)
  | wait
  | take
  deriving DecidableEq, Repr

/-- An append that fills rows waits for the zone's row limit (R112). -/
def rowLimit (s : State) : Nat := max 1 (rdf s regHopCtrl 31 28)

/-- Gathering rows that an append takes beside the zone's partial row. -/
def rowsNeeded (s : State) (c : Cmd) (zid : Nat) (lt : Layout) : Nat :=
  let rb := max 1 (rowBlks s lt)
  ((zone s zid).gather + cCount c + rb - 1) / rb - (if (partial? s zid).isSome then 1 else 0)

/-- The acceptance of an append (R82, R85, R103, R104, R112, R118, checks 8 and 9 of R68). DESIGN CHOICE: an append that needs more
gathering rows than are free is treated as one that finds none: nothing of it is accepted (log entry 69). -/
def acceptTest (s : State) (c : Cmd) (zid : Nat) (lt : Layout) : Accept :=
  let e := zone s zid
  let n := cCount c
  let rb := max 1 (rowBlks s lt)
  let fills := (e.gather + n) / rb
  let q := zoneQuad s zid
  if opc c = 2 ∧ cOff c ≠ e.appendPt then .refuse (zoneConflict s c) none
  else if s.jrn.stopped then .refuse (zoneConflict s c) none
  else if membersProtected s zid then .refuse (res stProtected) none
  else if capacity s lt < e.appendPt + n then .refuse (zoneConflict s c) none
  else if 0 < fills ∧ (List.range (width lt)).any (fun j => decide (mstate s zid j = 3)) then .refuse (zoneConflict s c) none
  else if (oztIdx? s zid).isNone ∧ (tfree s.ozt 65536).isNone then .refuse { status := stNoSlot, detail := 1 } (some 0)
  else if 0 < e.inflight ∧ 0 < fills ∧ rowLimit s < e.inflight + fills then .wait
  else if sliceFree s q < rowsNeeded s c zid lt then
    (if spillsIn s q = 0 ∧ (victims s q).isEmpty then .refuse { status := stNoSlot, detail := 0 } (some 1) else .wait)
  else .take

/-- An append is accepted, refused or left waiting. -/
def tryAppend (s : State) (cid : Nat) : State :=
  match cmd? s cid with
  | none => s
  | some c =>
    let zid := cZid c
    match layoutOf? s zid with
    | none => finish s cid (badField 0x08)
    | some lt =>
      match zoneCheck s c, acceptTest s c zid lt with
      | some r, _ => finish s cid r
      | none, .refuse r flag =>
        let s := match flag with | some b => hopFlag s b | none => s
        finish s cid r
      | none, .wait =>
        let s := modCmd s cid (fun c => { c with stage := .waiting })
        let q := zoneQuad s zid
        if spillsIn s q = 0 ∧ sliceFree s q < rowsNeeded s c zid lt then startSpill s q else s
      | none, .take =>
        match openZone s zid (ringTenant s c.ring) none with
        | none => finish (hopFlag s 0) cid { status := stNoSlot, detail := 1 }
        | some s =>
          let off := (zone s zid).appendPt
          let s := modCmd s cid (fun c => { c with stage := .running, first := off, left := cCount c, needSeq := s.jrn.seq })
          let s := modZone s zid (fun e => { e with appendPt := off + cCount c })
          let s := gatherBlocks (cCount c + 1) s c zid (max 1 (rowBlks s lt)) off 0 (cCount c)
          servePressure s (zoneQuad s zid)

/-- Appends of the zone that wait, and (R77) every append of the ring to the zone fetched before `c` that is not accepted. -/
def appendTurn (s : State) (c : Cmd) : Bool :=
  !(s.cmds.any (fun d => decide (d.zone = c.zone) && (decide (opc d = 1) || decide (opc d = 2)) &&
    ((decide (d.ring = c.ring) && decide (d.fetchNo < c.fetchNo) && decide (d.stage = .ready)) ||
     (decide (d.stage = .waiting) && decide (d.cid < c.cid)))))

/-- ZONE_APPEND and ZONE_WRITE (R82, R103): an append whose turn has not come stays as it is. -/
def zoneAppend (s : State) (cid op : Nat) : State :=
  match (if boundaryHolds s cid op then none else startable s cid op) with
  | none => s
  | some c =>
    let first := !(s.cmds.any (fun d => decide (d.zone = c.zone) && decide (d.ring = c.ring) && decide (d.fetchNo < c.fetchNo) &&
      decide (d.stage = .ready) && (decide (opc d = 1) || decide (opc d = 2))))
    if first then
      let s := modCmd s cid (fun c => { c with issued := true, stage := .running })
      if appendTurn s c then tryAppend s cid else modCmd s cid (fun c => { c with stage := .waiting })
    else s

/-- Appends that wait are tried again in order (R112, R118). -/
def retryAppends (s : State) : State :=
  ((s.cmds.filter (fun c => decide (c.stage = .waiting) && (decide (opc c = 1) || decide (opc c = 2)))).map (fun c => c.cid)).foldl (fun s cid =>
    match cmd? s cid with
    | some c => if appendTurn s c then tryAppend s cid else s
    | none => s) s

/-! ### Rows that end -/

/-- A row leaves: its gathering row is freed (R112), its fold buffers go back (R114), and what it holds of a bank. -/
def dropRow (s : State) (r : Row) : State :=
  let s := cancelXfers { s with rows := s.rows.filter (fun x => x.rid ≠ r.rid) } (fun x => match x.purpose with
    | .rowIn i _ _ => decide (i = r.rid)
    | .bufOut w _ => decide (w = .row r.rid)
    | _ => false)
  let s := { s with stes := s.stes.map (fun p => if p.2.rid = some r.rid then (p.1, {}) else p) }
  let s := r.slots.foldl (fun s p => dropSlot s r.quad p.2) s
  r.bufs.foldl returnBuf s

/-- Staged blocks of a zone's row leave the staging area with their extents. -/
def dropExtents (s : State) (zid row : Nat) : State :=
  { s with extents := s.extents.filter (fun e => !(decide (e.zid = zid) && decide (e.row = row))) }

/-! ### Durable stagings (R117, R121) -/

/-- STG_LAST of an extent (R100). -/
def stgLast (set wl : Nat) : Nat := set % 65536 * 2 ^ 16 + wl * 2 ^ 7

/-- An EXTENT entry (R279). -/
def jrnExtent (s : State) (x : Extent) (ends : Nat) : State :=
  jrnAppend s { seq := 0, typ := 0x04, fg := x.fg, zid := x.zid, wseq := x.wseq, row := x.row, arg0 := stgLast x.set x.wl,
                arg1 := x.seq * 2 ^ 28 + x.count * 2 ^ 16 + x.first, arg2 := ends }

/-- A staging is durable on every copy: its extent lives, the appends it covers are done, and a partial row without an
unstaged block gives up its gathering row. -/
def stagingDurable (s : State) (g : Staging) : State :=
  let rb := ((layoutOf? s g.zid).map (rowBlks s)).getD 0
  let old := s.extents.filter (fun x => decide (x.zid = g.zid) && decide (x.row = g.row))
  let seq := if g.consol then 1 else old.length + 1
  let x : Extent := { fg := g.fg, set := g.set, wl := g.wl, nwl := g.nwl, zid := g.zid, wseq := g.wseq, row := g.row,
                      first := g.first, count := g.count, seq := seq, bad := g.bad }
  let s := dropStg s g
  let s := if g.consol then dropExtents s g.zid g.row else s
  let upto := g.first + g.count
  let open_ := ((row? s g.rid).map (fun r => r.phase)) = some .gathering
  let s := if open_ then modZone s g.zid (fun e => { e with staged := upto, stgExt := seq, stgSet := g.set % 65536, stgWl := g.wl }) else s
  let s := jrnExtent { s with extents := s.extents ++ [x] } x (g.row * rb + upto)
  match row? s g.rid with
  | none => s
  | some r =>
    let was := if g.consol then ((old.map (fun y => y.first + y.count)).max?).getD 0 else g.first
    let s := rangeDone s r was upto s.jrn.seq
    let s := if g.spill then bump s (regHopSliceSpills r.quad) 15 0 1 else s
    if r.phase = .gathering then
      if (zone s g.zid).gather = upto then
        let s := dropRow s r
        modZone s g.zid (fun e => { e with gv := false, gslot := 0 })
      else modRow s r.rid (fun r => { r with staging := none })
    else modRow s r.rid (fun r => { r with staging := none, acked := upto })

/-- A moved extent is durable at its new place (R123). -/
def moveDurable (s : State) (g : Staging) (src : Nat × Nat) : State :=
  let s := dropStg s g
  match s.extents.find? (fun x => decide (x.fg = g.fg) && decide (x.set = src.1) && decide (x.wl = src.2)) with
  | none => s
  | some x =>
    let y := { x with set := g.set, wl := g.wl, nwl := g.nwl, bad := g.bad }
    let s := { s with extents := s.extents.map (fun z => if z = x then y else z) }
    let rb := ((layoutOf? s g.zid).map (rowBlks s)).getD 0
    let e := zone s g.zid
    let s := if e.stgSet = src.1 % 65536 ∧ e.stgWl = src.2 then setZone s { e with stgSet := g.set % 65536, stgWl := g.wl } else s
    jrnExtent s y (x.row * rb + x.first + x.count)

/-- The extent of WP's new row of a reshape copy is durable (R340). -/
def reshapeDurable (s : State) (g : Staging) : State :=
  let s := dropStg s g
  let x : Extent := { fg := g.fg, set := g.set, wl := g.wl, nwl := g.nwl, zid := g.zid, wseq := g.wseq, row := g.row,
                      first := g.first, count := g.count, seq := 1, bad := g.bad }
  modGroup (jrnExtent s x (zone s g.zid).wp) g.fg (fun y => { y with cpExt := some x })

/-! ### Flush, close, finish (R84, R116, R124) -/

/-- Blocks of a zone below an offset stand in its partial row and are not staged: a promise about them needs an EXTENT entry. -/
def unstagedBelow (s : State) (zid mark : Nat) : Bool :=
  match partial? s zid with
  | some r => let e := zone s zid; unstagedIn s r && decide (e.appendPt + e.staged < mark + e.gather)
  | none => false

/-- A promise about the zone's blocks below an offset needs an entry that a stopped journal refuses (R283, R287). -/
def needsExtent (s : State) (zid mark : Nat) : Bool :=
  unstagedBelow s zid mark || s.stagings.any (fun g => decide (g.zid = zid) && g.move.isNone && !g.reshape)

/-- A close or finish changes the zone's state, which needs a ZONE entry. -/
def needsZone (s : State) (op zid : Nat) : Bool :=
  (decide (op = 6) && decide ((zone s zid).state = 1)) || (decide (op = 7) && decide ((zone s zid).state ≠ 3))

/-- The commands that wait for the appends of a zone: their effect once every append below their mark has completed. A
close or finish also waits for appends accepted while it waited. A staging that was in progress when the command came may end
with blocks left to stage: another one follows (R116). -/
def settleWaiter (s : State) (c : Cmd) : State :=
  let zid := cZid c
  let e := zone s zid
  if s.jrn.stopped && (needsZone s (opc c) zid || (decide (e.wp < c.mark) && needsExtent s zid c.mark)) then
    finish s c.cid (res stConflict)
  else if e.wp < c.mark then
    if unstagedBelow s zid c.mark then wantStaging s zid false c.deadline else s
  else if opc c = 8 then finish s c.cid { status := stOk, ra := e.wp }
  else if c.mark < e.appendPt then
    wantStaging (modCmd s c.cid (fun c => { c with mark := e.appendPt })) zid false c.deadline
  else if opc c = 6 then
    let s := if e.state = 1 then oztFree (jrnZone (setZone s { e with state := 2 }) zid) zid else s
    finishDurable s c.cid { status := stOk, ra := e.wp }
  else
    let s := if e.state = 3 then s else jrnZone (setZone s { e with state := 3 }) zid
    let s := if (zone s zid).inflight = 0 then oztFree s zid else s
    finishDurable s c.cid { status := stOk, ra := e.wp }

/-- The commands of a zone that wait for its appends. -/
def settleWaiters (s : State) (zid : Nat) : State :=
  (s.cmds.filter (fun c => decide (c.zone = some zid) && decide (c.stage = .running) && decide (6 ≤ opc c) && decide (opc c ≤ 8))).foldl
    settleWaiter s

/-- The zones that commands address. -/
def busyZones (s : State) : List Nat := dedupNat (s.cmds.filterMap (fun c => c.zone))

/-- What has become complete, zone by zone. -/
def settleZones (s : State) : State :=
  (busyZones s).foldl (fun s z => settleWaiters (settleAppends (s.cmds.length + 1) s z) z) s

/-- ZONE_FLUSH, ZONE_CLOSE and ZONE_FINISH stage the zone's partial row (R116) and wait for its appends (R84). -/
def zoneQuiesce (s : State) (cid op : Nat) : State :=
  zoneStart s cid op (fun s c =>
    let zid := cZid c
    let e := zone s zid
    if s.jrn.stopped && (needsZone s op zid || needsExtent s zid e.appendPt) then finish s cid (res stConflict)
    else if op = 7 ∧ e.state = 0 then
      let e := { e with state := 3, zid := zid, tv := true, tenant := ringTenant s c.ring, layout := (layoutIdx s zid).getD 0 }
      finishDurable (jrnZone (setZone s e) zid) cid { status := stOk, ra := e.wp }
    else
      let s := modCmd s cid (fun c => { c with mark := e.appendPt })
      let s := wantStaging s zid false c.deadline
      match cmd? s cid with
      | some c => settleWaiter s c
      | none => s)

/-- ZONE_OPEN (R58, R81, R101). -/
def zoneOpen (s : State) (cid : Nat) : State :=
  zoneStart s cid 5 (fun s c =>
    let zid := cZid c
    let t := ringTenant s c.ring
    let owner := if t = 0 then bits (cP0 c) 27 16 else t
    if s.jrn.stopped && decide ((zone s zid).state ≠ 1) then finish s cid (res stConflict)
    else match openZone s zid owner (some (bits (cP0 c) 7 0)) with
      | none => finish (hopFlag s 0) cid { status := stNoSlot, detail := 1 }
      | some s => finishDurable s cid { status := stOk, ra := (oztIdx? s zid).getD 0 })

/-- ZONE_QUERY (R64), in the quadrant that owns the zone's member 0, which writes the entry through its own even port (R22, R79; which
of its two is the model's choice, log entry 26). -/
def zoneQuery (s : State) (cid : Nat) : State :=
  zoneStart s cid 9 (fun s c =>
    let e := zone s (cZid c)
    let s := if cPtr c = 0 then s else writeOutAt s (2 * zoneQuad s (cZid c)) c (cPtr c) (packZone e) 3
    finish s cid { status := stOk, ra := e.wp, rb := e.tenant * 2 ^ 32 + e.appendPt })

/-- STAGE_LEAD_EXPIRY (R116): an append of the partial row has a deadline HOP_STAGE_LEAD ticks or fewer away. -/
def stageLead (s : State) (zid : Nat) : State :=
  match partial? s zid with
  | some r =>
    let e := zone s zid
    let lead := rd s regHopStageLead
    match piecesDeadline s (cutPieces r e.staged e.gather) with
    | some d => if 0 < lead ∧ d ≤ s.tick + lead then wantStaging s zid false none else s
    | none => s
  | none => s

end Sys2Proof.Machine
end

