-- ==== Sys2Proof/Machine/Rows.lean ====
section
/-! DEFINITION. Rows and stagings on their way to flash (chapters Zones, Layouts and the Hopper; Parity, the Stripe Journal
and Restart): streaming from the appends' buffers, folds, parity and INTENT, members' programs, completion and voiding. -/

namespace Sys2Proof.Machine

/-! ### Streams (R231, R232, R603) -/

/-- The part of spans that covers `n` bytes from an offset: descriptor index, address, length. -/
def spanCut : Nat → List (Nat × Nat) → Nat → Nat → List (Nat × Nat × Nat)
  | _, [], _, _ => []
  | d, (a, l) :: r, off, n =>
    if n = 0 then []
    else if l ≤ off then spanCut (d + 1) r (off - l) n
    else
      let m := min n (l - off)
      (d, a + off, m) :: spanCut (d + 1) r 0 (n - m)

/-- Where the bytes of a command lie: its one span, or the recorded chain (R420, R423). -/
def cmdSpans (c : Cmd) : List (Nat × Nat) := if flagChain c then c.chain else [(cPtr c, 2 ^ 64)]

/-- A block's command and its index within the command. -/
def blockSource (ps : List Piece) (b : Nat) : Option (Nat × Nat) :=
  (ps.find? (fun p => decide (p.first ≤ b) && decide (b < p.first + p.count))).map (fun p => (p.cid, p.cmdBlk + (b - p.first)))

/-- Blocks of a zone in one of its rows, before row `r`. -/
def rowBase (s : State) (zid r : Nat) : Nat := r * ((layoutOf? s zid).map (rowBlks s)).getD 0

/-- The blocks `bs` of a row are streamed from the appends' buffers through a port (R417: class B, group 0). -/
def streamBlocks (s : State) (port id : Nat) (ps : List Piece) (bs : List Nat) (dl : Nat) (real : Bool) : State :=
  bs.foldl (fun s b =>
    match blockSource ps b with
    | none => s
    | some (cid, i) => match cmd? s cid with
      | none => s
      | some c =>
        let x (pi : Bool) : XferSpec := { port := port, write := false, clsA := false, grp := 0, deadline := some dl,
                                          real := real, purpose := .rowIn id b pi }
        let s := startXfer s (x false) ((spanCut 0 (cmdSpans c) (4096 * i) 4096).map (fun p => (p.1, p.2.1, p.2.2, [])))
        if piMode c = 1 then startXfer s (x true) [(0, cPi c + 16 * i, 16, [])] else s) s

/-- The port through which a quadrant moves read data: the spec leaves open which of its two. -/
def dataPort (g : Nat) : Nat := 2 * quadOf g + poolOf (chOf g) % 2

/-- The transfers that bring a block from its append's buffers: descriptor, address and bytes. -/
def blockSpans (s : State) (ps : List Piece) (b : Nat) : List (Nat × Nat × Nat) :=
  match (blockSource ps b).bind (fun p => (cmd? s p.1).map (fun c => (c, p.2))) with
  | some (c, i) => spanCut 0 (cmdSpans c) (4096 * i) 4096 ++ (if piMode c = 1 then [(0, cPi c + 16 * i, 16)] else [])
  | none => []

/-- The beat at which a port ended a transfer. -/
def failBeat : PortEnd → Nat
  | .ok => 0
  | .error i => i
  | .timeout i => i

/-- The block of a stream in whose transfer a beat lies. -/
def beatBlock (beats : Nat → Nat) : List Nat → Nat → Option Nat
  | [], _ => none
  | [b], _ => some b
  | b :: r, n => if n < beats b then some b else beatBlock beats r (n - beats b)

/-- A sequencer streams blocks from SoC memory into staging SRAM through its quadrant's port (R22): the block at which the port gave
the stream up, and the result. -/
def seqStream (s : State) (g : Nat) (bs : List Nat) (spans : Nat → List (Nat × Nat × Nat)) (mp : PortEnd) :
    State × Option (Nat × Result) :=
  if bs.isEmpty then (s, none)
  else
    let p := portEnd s (dataPort g) (bs.flatMap spans) mp
    (p.1, p.2.bind (fun r =>
      (beatBlock (fun b => ((transferBursts (spans b)).map (fun x => beatsOf x.2.1 x.2.2)).sum) bs (failBeat mp)).map (fun b => (b, r))))

/-- The blocks that a stream given up at block `b` could not fetch: from it on, those of the same append (R603). -/
def unfetched (ps : List Piece) (bs : List Nat) (b : Nat) : List Nat :=
  bs.filter (fun x => decide (b ≤ x) && decide ((blockSource ps x).map (fun p => p.1) = (blockSource ps b).map (fun p => p.1)))

/-- A block of a row as its append's buffer holds it now (R231). -/
def liveBody (s : State) (r : Row) (b : Nat) : Option (Cmd × Nat × List Byte) :=
  (blockSource r.pieces b).bind (fun p => (cmd? s p.1).map (fun c =>
    let data := (spanCut 0 (cmdSpans c) (4096 * p.2) 4096).flatMap (fun x => dramRead s x.2.1 x.2.2)
    (c, p.2, if piMode c = 0 then mkBody data (cAppTag c) (refTag r.zid (rowBase s r.zid r.row + b))
      else data ++ dramRead s (cPi c + 16 * p.2) 16)))

/-- The key under which a block's PI waits for its data. -/
def piKey (b : Nat) : Nat := 2 ^ 20 + b

/-- The check of R232 on a body of the `i`-th block of a command: the failure, with sites 0x10 and 0x11, or 0x20 and 0x21. -/
def writeCheck (s : State) (c : Cmd) (i off site : Nat) (body : List Byte) : Option Result :=
  let want := (fieldAt (dramRead s (cPi c + 10) 6) 0 6 + i) % 2 ^ 48
  if piMode c = 0 then none
  else if !(guardOk body) then some { status := stGuard, ra := off, rb := crc64 (bodyData body), detail := site }
  else if bodyRef body ≠ want then some { status := stReftag, ra := off, rb := want, detail := site + 1 }
  else none

/-- A stream keyed by block with one more transfer of a block arrived: the new stream, and the body once it is whole. -/
def takeBytes (t : Tab (List Byte)) (c : Cmd) (zid b off : Nat) (pi : Bool) (bytes : List Byte) :
    Tab (List Byte) × Option (List Byte) :=
  if piMode c = 0 then (t, some (mkBody bytes (cAppTag c) (refTag zid off)))
  else
    let mine := if pi then piKey b else b
    let other := if pi then b else piKey b
    match tget? t other with
    | some o => (terase t other, some (if pi then o ++ bytes else bytes ++ o))
    | none => (tset t mine bytes, none)

/-- A block of a row or a staging has come from DRAM. -/
def streamOk (s : State) (ps : List Piece) (t : Tab (List Byte)) (zid b off site : Nat) (pi : Bool) (bytes : List Byte) :
    State × Tab (List Byte) × Bool :=
  match (blockSource ps b).bind (fun p => (cmd? s p.1).map (fun c => (c, p.2))) with
  | none => (s, tset t b (mkBody bytes 0 (refTag zid off)), true)
  | some (c, i) =>
    match takeBytes t c zid b off pi bytes with
    | (t, none) => (s, t, false)
    | (t, some body) =>
      let s := match writeCheck s c i off site body with
        | some r => decPiFlag (blocksDone s c.cid 0 0 [(off, r)]) 0
        | none => s
      (s, tset t b body, true)

/-- A block's transfer failed: it is streamed poisoned, its append ends with the port status (R603). The other transfer
of the block is given up. -/
def streamBad (s : State) (ps : List Piece) (id b off : Nat) (r : Result) : State :=
  let s := { s with
    xfers := s.xfers.filter (fun x => match x.purpose with
    | .rowIn i k _ => !(decide (i = id) && decide (k = b))
    | _ => true) }
  match blockSource ps b with
  | some (cid, _) => blocksDone s cid 0 0 [(off, r)]
  | none => s

/-- The body of a block that buffers in SoC memory hold, with its PI. -/
def bufBody (s : State) (bufs : List Nat) (i : Nat) (pi : List Byte) : List Byte := dramRead s (bufAddr s bufs i) 4096 ++ pi

/-- The body of a block of an extent as its sources hold it now: a buffer for an earlier staged block, the append's buffer for
another (R119, R122, R123, R231). -/
def stageBody (s : State) (g : Staging) (b : Nat) : List Byte :=
  if g.old.contains b then bufBody s g.bufs (g.old.idxOf b) (tget g.pis b (zeros 16))
  else (((row? s g.rid).bind (fun r => liveBody s r b)).map (fun x => x.2.2)).getD padBody

/-- EXT_SEQ and PREV of a staging's extent (R119): a moved extent keeps its sequence and follows the present place of the one before
it. -/
def extentChain (s : State) (g : Staging) : Nat × Nat :=
  let l := s.extents.filter (fun x => decide (x.zid = g.zid) && decide (x.row = g.row))
  let placeOf (x : Option Extent) : Nat := (x.map (fun x => stgLast x.set x.wl)).getD 0xFFFFFFFF
  match g.move with
  | some p =>
    let seq := ((l.find? (fun x => decide (x.set = p.1) && decide (x.wl = p.2))).map (fun x => x.seq)).getD 1
    (seq, placeOf (l.find? (fun x => x.seq + 1 = seq)))
  | none => if g.consol || g.reshape then (1, 0xFFFFFFFF) else (l.length + 1, placeOf l.getLast?)

/-- The bodies of an extent, its header first, padded to whole word lines (R119, R230): body and row header. -/
def extentBodies (s : State) (g : Staging) (copy : Nat) : List (List Byte × Nat) :=
  let cbs := ((stgLayout s g.fg g.set).map (fun lt => cbsOf (layDie s lt))).getD 1
  let ch := extentChain s g
  let head := leBytes 4 g.zid ++ leBytes 4 (g.wseq * 2 ^ 12) ++ leBytes 2 g.row ++ leBytes 2 g.first ++ leBytes 2 g.count ++
    leBytes 4 ch.2 ++ leBytes 1 ch.1 ++ zeros 4077
  let hdr (i : Nat) (p : Bool) : Nat := rowHdr 1 copy g.row g.zid g.wseq (b2n p) 0 (i % cbs)
  (mkBody head 0xFFFF 0xFFFFFFFFFFFF, hdr 0 false) ::
  (List.range (g.nwl * cbs - 1)).map (fun i =>
    if i < g.count then
      let b := g.first + i
      if g.poison.contains b then (poisonBody, hdr (i + 1) true) else (stageBody s g b, hdr (i + 1) false)
    else (padBody, rowHdr 2 copy g.row g.zid g.wseq 0 0 ((i + 1) % cbs)))

/-- The programs of a staging that has its place are queued (R119, R120). -/
def stagePrograms (s : State) (g : Staging) : State :=
  let kind := if g.move.isSome then Kind.e else if g.reshape then Kind.h else Kind.s
  (List.range g.nwl).foldl (fun s i => ((stgSet s g.fg g.set).zipIdx).foldl (fun s c =>
    queueProg s { id := 0, kind := kind, type := .slc, glun := c.1.1, block := c.1.2, wl := g.wl + i, slc := true,
                  deadline := g.deadline, real := g.real, share := kindShare kind, use := .stage g.sid g.set c.2 (g.wl + i) }) s) s

/-- Blocks of an extent that lie on one of its word lines, without those that are poisoned already. -/
def stageWl (s : State) (g : Staging) (wl : Nat) : List Nat :=
  let cbs := ((stgLayout s g.fg g.set).map (fun lt => cbsOf (layDie s lt))).getD 1
  ((List.range cbs).filterMap (fun i =>
    let n := (wl - g.wl) * cbs + i
    if 0 < n ∧ n ≤ g.count then some (g.first + (n - 1)) else none)).filter (fun b => !(g.poison.contains b))

/-- A block's failure noted for its command, once. -/
def noteBlock (s : State) (cid off : Nat) (r : Result) : State :=
  modCmd s cid (fun c => if c.badBlks.any (fun p => p.1 = off) then c else { c with badBlks := c.badBlks ++ [(off, r)] })

/-- A staging's sequencer streams the blocks of a word line (R22, R119): it makes the check of R232 on blocks of appends, and poisons
those that it could not fetch (R603); a block of an earlier extent is never poisoned so, its stream is made again. The answer is
whether the word line can be sent. DEDUCED: every copy's sequencer acts as the first (log entry 70). -/
def stageStream (s : State) (o : Op) (sid : Nat) (mp : PortEnd) : State × Bool :=
  match stg? s sid with
  | none => (s, true)
  | some g =>
    let ps := ((row? s g.rid).map (fun r => r.pieces)).getD []
    let bs := stageWl s g o.wl
    let spans (b : Nat) : List (Nat × Nat × Nat) :=
      if g.old.contains b then [(0, bufAddr s g.bufs (g.old.idxOf b), 4096)] else blockSpans s ps b
    let (s, bad) := seqStream s o.glun bs spans mp
    let lost := match bad with | some (b, _) => unfetched ps bs b | none => []
    if (match bad with | some (b, _) => g.old.contains b | none => false) then (s, false)
    else
      let s := bs.foldl (fun s b =>
        if g.old.contains b || lost.contains b then s
        else match (row? s g.rid).bind (fun r => liveBody s r b) with
          | some (c, i, body) =>
            let off := rowBase s g.zid g.row + b
            (match writeCheck s c i off 0x20 body with
            | some r => if c.badBlks.any (fun p => p.1 = off) then s else noteBlock (decPiFlag s 0) c.cid off r
            | none => s)
          | none => s) s
      let s := modStg s sid (fun g => { g with poison := g.poison ++ lost })
      match bad with
      | some (b, r) =>
        (match blockSource ps b with
        | some p => (noteBlock s p.1 (rowBase s g.zid g.row + b) r, true)
        | none => (s, true))
      | none => (s, true)

/-- One more block of a row is there. -/
def rowBlock (s : State) (rid b : Nat) (body : Option (List Byte)) : State :=
  modRow s rid (fun r => { r with
    stream := (match body with | some x => tset r.stream b x | none => r.stream),
    poison := (match body with | some _ => r.poison | none => r.poison ++ [b]), want := r.want - 1 })

/-- Folded blocks of a row are streamed from their buffers through a port (R114). -/
def streamFolded (s : State) (port : Nat) (r : Row) (bs : List Nat) : State :=
  let w := (piecesDeadline s (r.pieces.filter (fun p => decide (r.acked < p.first + p.count))))
  bs.foldl (fun s b => startXfer s { port := port, write := false, clsA := false, grp := 0,
                                     deadline := some (w.getD (r.fillTick + lead s .w)), real := w.isSome,
                                     purpose := .rowIn r.rid b false } [(0, bufAddr s r.bufs b, 4096, [])]) s

/-- A transfer of a row's stream has ended. A block of an append that could not be fetched is poisoned; the stream of a folded one is
made again after the wait of R436 (R603). -/
def rowInEnd (s : State) (port id b : Nat) (pi : Bool) (e : XferEnd) (bytes : List Byte) : State :=
  match row? s id with
  | none => s
  | some r =>
    let off := rowBase s r.zid r.row + b
    match endResult port e with
    | some x =>
      if b < r.acked then poolWait s r.quad (.stream id b)
      else rowBlock (streamBad s r.pieces id b off x) id b none
    | none =>
      if b < r.acked then rowBlock s id b (some (bytes ++ tget r.pis b (zeros 16)))
      else
        let (s, t, whole) := streamOk s r.pieces r.stream r.zid b off 0x10 pi bytes
        let s := modRow s id (fun r => { r with stream := t })
        if whole then modRow s id (fun r => { r with want := r.want - 1 }) else s

/-- The wait of R436 is over for a folded block. -/
def rowInAgain (s : State) (rid b : Nat) : State :=
  match row? s rid with
  | some r => (match r.phase with | .streaming ste => streamFolded s ste r [b] | _ => s)
  | none => s

/-! ### Reads of staged blocks (R107, R114, R122) -/

/-- The extent that holds a staged block of a row: the latest. -/
def extentOf (s : State) (zid row b : Nat) : Option Extent :=
  (s.extents.filter (fun x => decide (x.zid = zid) && decide (x.row = row) && decide (x.first ≤ b) && decide (b < x.first + x.count))).getLast?

/-- The copies of an extent that still hold it, from a copy on. -/
def copiesFrom (s : State) (x : Extent) (c : Nat) : List Nat :=
  let n := (stgSet s x.fg x.set).length
  (List.range' c (n - c)).filter (fun i => !(x.bad.contains i))

/-- A read of one staged block on a copy. -/
def stagedItem (s : State) (w : Work) (x : Extent) (copy b : Nat) (u : Use) : Option Item :=
  (stgLayout s x.fg x.set).bind (fun lt =>
    ((stgSet s x.fg x.set)[copy]?).map (fun l =>
      let d := layDie s lt
      let i := 1 + (b - x.first)
      let cwx := i % cbsOf d
      { id := 0, kind := w.kind, deadline := w.deadline, real := w.real, share := w.share, glun := l.1, block := l.2,
        wl := x.wl + i / cbsOf d, page := cwx / dmCwpp d, cw := cwx % dmCwpp d, slc := true, use := [u],
        header := some (rowHdr 1 copy x.row x.zid x.wseq 0 0 cwx), gen := w.gen }))

/-- A staged block that no copy yields is lost (R604): listed with CAUSE 5. -/
def loseBlock (s : State) (zid row b : Nat) : State := addLost s (fgOf s zid) zid (rowBase s zid row + b) 1 5 0

/-- The next copy of a staged block is read for the block itself, or (no copy left) the block is lost: the answer is
`none`. Copies whose LUN-block is under erase are passed over (R166). -/
def readCopy (s : State) (w : Work) (zid row b from_ : Nat) (use : Nat → Use) : Option State :=
  match extentOf s zid row b with
  | none => none
  | some x =>
    match (copiesFrom s x from_).filterMap (fun c => (stagedItem s w x c b (use c))) |>.find? (fun i => !(underErase s i.glun i.block)) with
    | some i => some (addItem s i)
    | none => none

/-- Work of a row (kind W): the earliest deadline among its unacknowledged appends, else fill tick + LEAD_W (R362). -/
def rowWork (s : State) (r : Row) : Work :=
  match piecesDeadline s (r.pieces.filter (fun p => decide (r.acked < p.first + p.count))) with
  | some d => { kind := .w, deadline := d, real := true, share := none, gen := r.gen }
  | none => { kind := .w, deadline := r.fillTick + lead s .w, real := false, share := none, gen := r.gen }

/-- A fold read of a block, from a copy on; a block that no copy yields is lost and goes on poisoned (R114, R604). -/
def foldRead (s : State) (rid b from_ : Nat) : State :=
  match row? s rid with
  | none => s
  | some r =>
    match readCopy s (rowWork s r) r.zid r.row b from_ (fun c => .fold rid b c) with
    | some s => s
    | none =>
      let s := rowBlock (loseBlock s r.zid r.row b) rid b none
      modRow s rid (fun r => if r.want = 0 then { r with phase := .ready } else r)

/-- A fold with all its buffers reads its staged blocks. -/
def foldReads (s : State) (rid : Nat) : State :=
  match row? s rid with
  | none => s
  | some r =>
    if decide (r.phase = .folding) && decide (bufCount s r.acked ≤ r.bufs.length) && decide (r.want = 0) then
      (List.range r.acked).foldl (fun s b => foldRead s rid b 0) (modRow s rid (fun r => { r with want := r.acked }))
    else s

/-- FOLD_START (R114): a filled row with staged blocks and no staging in progress asks for its buffers. -/
def foldStart (s : State) (zid : Nat) : State :=
  match s.rows.find? (fun r => decide (r.zid = zid) && decide (r.phase = .filled) && decide (0 < r.acked) && r.staging.isNone) with
  | none => s
  | some r => askBufs (modRow s r.rid (fun r => { r with phase := .folding })) r.quad r.acked (.row r.rid)

/-- A block read from flash goes to its place in a buffer, through a port of the LUN's quadrant (R22, R264). -/
def toBuffer (s : State) (w : Work) (g grp : Nat) (who : BufFor) (b a : Nat) (body : List Byte) : State :=
  startXfer s { port := dataPort g, write := true, clsA := false, grp := grp, deadline := some w.deadline, real := w.real,
                purpose := .bufOut who b } [(0, a, 4096, body.take 4096)]

/-- A fold with every block in its buffers is ready for a stripe engine. -/
def foldReady (s : State) (rid : Nat) : State :=
  modRow s rid (fun r => if r.want = 0 ∧ r.phase = .folding then { r with phase := .ready } else r)

/-- The codeword of a fold read has come from LUN `g`: its data goes to the row's buffers, its PI is kept (log entry 70). -/
def foldGot (s : State) (rid b g : Nat) (body : List Byte) (poison : Bool) : State :=
  match row? s rid with
  | none => s
  | some r =>
    if poison then foldReady (rowBlock s rid b none) rid
    else
      let s := modRow s rid (fun r => { r with pis := tset r.pis b (bodyPi body) })
      toBuffer s (rowWork s r) g 0 (.row rid) b (bufAddr s r.bufs b) body

/-- A folded block stands in its buffer; one whose transfer the port gave up is read again (R603). -/
def foldStored (s : State) (rid b : Nat) (good : Bool) : State :=
  if good then foldReady (modRow s rid (fun r => { r with want := r.want - 1 })) rid else foldRead s rid b 0

/-! ### Stagings (R119 to R123) -/

/-- Work of a staging's own reads: kind S, or E for a move (R362). -/
def stageWork (s : State) (g : Staging) : Work :=
  { kind := if g.move.isSome then .e else .s, deadline := g.deadline, real := g.real, share := none, gen := genNow s }

/-- One block of a staging need not be read any more; `poison` where no copy yields it, or its copy is poisoned. -/
def stageGot (s : State) (sid b : Nat) (poison : Bool) : State :=
  modStg s sid (fun g => { g with want := g.want - 1, poison := if poison then g.poison ++ [b] else g.poison })

/-- A re-read of a staged block, for a consolidation or a move, from a copy on (R122, R123). -/
def restageRead (s : State) (sid b from_ : Nat) : State :=
  match stg? s sid with
  | none => s
  | some g =>
    match readCopy s (stageWork s g) g.zid g.row b from_ (fun c => .restage sid b c) with
    | some s => s
    | none => stageGot (loseBlock s g.zid g.row b) sid b true

/-- A staging with all its buffers reads the staged blocks that it writes again. -/
def restageReads (s : State) (sid : Nat) : State :=
  match stg? s sid with
  | none => s
  | some g =>
    if decide (bufCount s g.old.length ≤ g.bufs.length) && decide (g.want = g.old.length) then
      g.old.foldl (fun s b => restageRead s sid b 0) s
    else s

/-- A block of a re-read has come from LUN `l`. -/
def restageGot (s : State) (sid b l : Nat) (body : List Byte) (poison : Bool) : State :=
  match stg? s sid with
  | none => s
  | some g =>
    if poison then stageGot s sid b true
    else
      let s := modStg s sid (fun g => { g with pis := tset g.pis b (bodyPi body) })
      toBuffer s (stageWork s g) l 0 (.staging sid) b (bufAddr s g.bufs (g.old.idxOf b)) body

/-- It stands in its buffer, or is read again. -/
def restageStored (s : State) (sid b : Nat) (good : Bool) : State := if good then stageGot s sid b false else restageRead s sid b 0

/-- Word lines of a staging LUN-block. -/
def setWls (s : State) (fg set : Nat) : Nat := ((stgLayout s fg set).map (fun lt => dmWlb (layDie s lt))).getD 0

/-- Staging sets of the list that a set belongs to. -/
def setList (s : State) (fg base : Nat) : List Nat :=
  let b := base / 65536 * 65536
  (List.range (((stgLayout s fg b).map (fun lt => lt.s)).getD 0)).map (fun i => b + i)

/-- A set takes `n` more word lines. -/
def setRoom (s : State) (fg set n : Nat) : Bool :=
  let g := group s fg
  (tget? g.setOut set).isNone && (tget? g.setErase set).isNone && decide (tget g.setWl set 0 + n ≤ setWls s fg set)

/-- Every LUN of a set is in service: its channel UP or DERATED (R221), its LUN-block not retired (R395). -/
def setUp (s : State) (fg set : Nat) : Bool :=
  (stgSet s fg set).all (fun l =>
    chanUp s (chOf l.1) && !(lunFailed s l.1) && !((blkSt s l.1 l.2).retired))

/-- The set that the round robin gives (R123, R221): for a move not the set that it empties. -/
def pickSet (s : State) (fg base n : Nat) (move : Option (Nat × Nat)) : Option Nat :=
  let l := setList s fg base
  let at_ := (if base < 65536 then (group s fg).setAt else (group s fg).setAtNew) % max 1 l.length
  (l.drop at_ ++ l.take at_).find? (fun set => setRoom s fg set n && setUp s fg set && decide (move.map (fun p => p.1) ≠ some set))

/-- A staging takes word lines, and its programs are queued (R119). One that finds no free word line waits and sets STG_WAIT (R123). -/
def stagePlace (s : State) (g : Staging) : State :=
  match pickSet s g.fg g.set g.nwl g.move with
  | none => hopFlag s 2
  | some set =>
    let wl := tget (group s g.fg).setWl set 0
    let s := modGroup s g.fg (fun x => { x with
      setAt := if set < 65536 then set + 1 else x.setAt, setAtNew := if set < 65536 then x.setAtNew else set % 65536 + 1,
      setWl := tset x.setWl set (wl + g.nwl) })
    let s := modStg s g.sid (fun x => { x with placed := true, set := set, wl := wl, done := [], bad := [] })
    match stg? s g.sid with
    | some g => stagePrograms s g
    | none => s

/-- STAGING_START (R119): the oldest staging of the zone that has no place, and all its earlier blocks in its buffers, gets one. -/
def stagingStart (s : State) (zid : Nat) : State :=
  if s.jrn.stopped then s
  else match s.stagings.find? (fun g => decide (g.zid = zid) && !g.placed && decide (g.want = 0)) with
    | some g => stagePlace s g
    | none => s

/-- A staging with every copy of every word line good is durable; none is while the journal is stopped (R121, R287). -/
def stageSettle (s : State) (sid : Nat) : State :=
  match stg? s sid with
  | none => s
  | some g =>
    let copies := (stgSet s g.fg g.set).length
    if g.placed && !s.jrn.stopped && decide (copies * g.nwl ≤ g.done.length) then
      (match g.move with
      | some src => moveDurable s g src
      | none => if g.reshape then reshapeDurable s g else stagingDurable s g)
    else s

/-- Is a word line of a set one of a staging's present place? -/
def stageAt (g : Staging) (set wl : Nat) : Bool := g.placed && decide (g.set = set) && decide (g.wl ≤ wl) && decide (wl < g.wl + g.nwl)

/-- A staging word line ends well on a copy. -/
def stageGood (s : State) (sid set copy wl : Nat) : State :=
  stageSettle (modStg s sid (fun g => if stageAt g set wl then { g with done := g.done ++ [(copy, wl)] } else g)) sid

/-- A staging word line fails on a copy: the copy is abandoned, the extent is written again on another set (R121). -/
def stageBad (s : State) (sid set wl : Nat) : State :=
  match stg? s sid with
  | some g => if stageAt g set wl then stagingAgain s sid else s
  | none => s

/-- Does a set hold a live extent, or a staging in progress? -/
def setLive (s : State) (fg set : Nat) : Bool :=
  s.extents.any (fun x => decide (x.fg = fg) && decide (x.set = set)) ||
  s.stagings.any (fun g => decide (g.fg = fg) && g.placed && decide (g.set = set)) ||
  s.stagings.any (fun g => decide (g.fg = fg) && (match g.move with | some p => decide (p.1 = set) | none => false))

/-- A set without a live extent is erased for reuse (R123). -/
def setErases (s : State) (fg set : Nat) : State :=
  let s := modGroup s fg (fun g => { g with setErase := tset g.setErase set () })
  let d := kindDeadline s .e none
  ((stgSet s fg set).zipIdx).foldl (fun s c =>
    queueOp s { id := 0, kind := .e, type := .erase, glun := c.1.1, block := c.1.2, wl := 0, slc := true, deadline := d.1,
                real := d.2, use := .setErase fg set c.2 }) s

/-- The erases of a set end (R123): with the last good one its word lines are free again; a failed one retires its
LUN-block and takes the set out of the round robin for good. -/
def setEraseEnd (s : State) (fg set copy : Nat) (good : Bool) : State :=
  let s := if good then s
    else
      let l := (stgSet s fg set).getD copy (0, 0)
      modGroup (erasedBad s l.1 l.2) fg (fun g => { g with setOut := tset g.setOut set () })
  if s.ops.any (fun o => match o.use with | .setErase f x _ => decide (f = fg) && decide (x = set) | _ => false) then s
  else modGroup s fg (fun g => { g with
    setErase := terase g.setErase set,
    setWl := if (tget? g.setOut set).isSome then g.setWl else tset g.setWl set 0 })

/-- The sets of a staging list that make up its area: those that have not left the round robin (R123), and hold no retired LUN-block
(R395). -/
def areaSets (s : State) (fg base : Nat) : List Nat :=
  (setList s fg base).filter (fun i => (tget? (group s fg).setOut i).isNone &&
    (stgSet s fg i).all (fun l => !((blkSt s l.1 l.2).retired)))

/-- Free staging word lines of a group. -/
def freeWls (s : State) (fg base : Nat) : Nat :=
  ((areaSets s fg base).map (fun i => if setRoom s fg i 0 then setWls s fg i - tget (group s fg).setWl i 0 else 0)).sum

/-- A live extent is moved into free space (R123), through buffers in SoC memory (R264). -/
def moveExtent (s : State) (x : Extent) : State :=
  let (sid, s) := fresh s
  let d := kindDeadline s .e none
  let g : Staging := { sid := sid, rid := 0, zid := x.zid, row := x.row, wseq := x.wseq, fg := x.fg, set := x.set, wl := 0, nwl := x.nwl,
                       first := x.first, count := x.count, consol := false, spill := false, old := List.range' x.first x.count,
                       want := x.count, move := some (x.set, x.wl), deadline := d.1, real := d.2, placed := false, began := s.tick }
  askBufs { s with stagings := s.stagings ++ [g] } (zoneQuad s x.zid) x.count (.staging sid)

/-- Reclaim of one staging list: used sets without a live extent are erased; when free space has fallen below one eighth of the
area, the live extents of the set with the fewest of them move. DESIGN CHOICE: of sets with equally few, the first of the list
(log entry 69). -/
def reclaimList (s : State) (fg base : Nat) : State :=
  let sets := (setList s fg base).filter (fun i =>
    (tget? (group s fg).setOut i).isNone && (tget? (group s fg).setErase i).isNone && decide (0 < tget (group s fg).setWl i 0))
  let dead := sets.filter (fun i => !(setLive s fg i))
  let low := decide (8 * freeWls s fg base < (areaSets s fg base).length * setWls s fg base)
  let s := dead.foldl (fun s i => setErases s fg i) s
  let live (i : Nat) : List Extent := s.extents.filter (fun x => decide (x.fg = fg) && decide (x.set = i))
  let busy := s.stagings.any (fun g => decide (g.fg = fg) && g.move.isSome)
  if low && !busy then
    (match minBy (fun i => (live i).length) (sets.filter (fun i => !(live i).isEmpty)) with
    | some i => (live i).foldl moveExtent s
    | none => s)
  else s

/-- STAGING_RECLAIM (R123), for the staging list of each layout of the group. -/
def stagingReclaim (s : State) (fg : Nat) : State :=
  let s := reclaimList s fg 0
  if (group s fg).newIdx.isSome then reclaimList s fg 65536 else s

/-! ### Parity (R272 to R277) -/

/-- May a row go to a stripe engine? One that is to be streamed once more may as well (R276). -/
def rowReady (r : Row) : Bool :=
  decide (r.phase = .ready) || decide (r.phase = .again) || (decide (r.phase = .filled) && decide (r.acked = 0) && r.staging.isNone)

/-- Accumulator slots for the parity members of a row, all or none (R274). -/
def takeParitySlots (q : Nat) : List Nat → State × Tab Nat → Option (State × Tab Nat)
  | [], p => some p
  | j :: l, p => (takeSlot? p.1 q 1).bind (fun x => takeParitySlots q l (x.2, tset p.2 j x.1))

/-- The parity members of a row that need a slot and hold none. -/
def slotless (r : Row) (lt : Layout) : List Nat :=
  (List.range' lt.k lt.m).filter (fun j => (tget? r.slots j).isNone &&
    (match tget r.memb j .idle with | .good | .pad | .failed => false | _ => true))

/-- A row's data is streamed by a stripe engine through its own port (R272): the folded blocks from their buffers, the others from
the appends'. Poisoned blocks need no transfer. -/
def rowStream (s : State) (ste : Nat) (r : Row) : State :=
  let n := ((layoutOf? s r.zid).map (rowBlks s)).getD 0
  let bs := (List.range n).filter (fun b => !(r.poison.contains b))
  let w := rowWork s r
  let s := modRow s r.rid (fun r => { r with phase := .streaming ste, stream := [], want := bs.length })
  let s := streamFolded s ste r (bs.filter (fun b => decide (b < r.acked)))
  streamBlocks s ste r.rid r.pieces (bs.filter (fun b => decide (r.acked ≤ b))) w.deadline w.real

/-- ROW_PARITY_START (R272, R274): the first idle stripe engine of the quadrant takes the oldest filled row once its
parity slots are free. -/
def rowParityStart (s : State) (ste : Nat) : State :=
  let q := ste / 2
  let idle (e : Nat) : Bool := ((tget s.stes e {}).rid).isNone && decide ((tget s.engines (32 + e) {}).mode ≠ 3)
  if idle ste && (decide (ste % 2 = 0) || !(idle (ste - 1))) && domOn s (72 + ste) && domOn s (88 + q) then
    match minBy (fun (r : Row) => r.rid)
        (leastOf (fun (r : Row) => r.fillTick) (s.rows.filter (fun r => decide (r.quad = q) && rowReady r))) with
    | none => s
    | some r =>
      match layoutOf? s r.zid with
      | none => s
      | some lt =>
        match takeParitySlots q (slotless r lt) (s, r.slots) with
        | none => steFlag s q 0
        | some (s, sl) =>
          rowStream { modRow s r.rid (fun r => { r with slots := sl }) with stes := tset s.stes ste { rid := some r.rid } } ste r
  else s

/-- What the parity slots of a row hold after its stream (R269, R273). -/
def rowParity (s : State) (r : Row) (lt : Layout) : Tab (List Byte) :=
  let cb := cbOf (layDie s lt)
  let body (b : Nat) : List Byte := if r.poison.contains b then poisonBody else tget r.stream b padBody
  (List.range lt.m).map (fun p => (lt.k + p, slotImage ((List.range cb).map (fun i =>
    parityOf p ((List.range lt.k).map (fun j => body (j * cb + i)))))))

/-- Programs of members whose word lines they are due: on their location, or held for a member that waits for its new one
(R85, R311). A parity chunk whose slot has been released is computed again by a stripe engine from the row's buffers (R312). -/
def queueMember (s : State) (r : Row) (j : Nat) : State :=
  match loc? s r.zid j with
  | some (g, b) =>
    if mstate s r.zid j ≤ 1 then
      let w := rowWork s r
      let gone := decide (((layoutOf? s r.zid).map (fun lt => lt.k)).getD 64 ≤ j) && (tget? r.slots j).isNone
      queueProg (modRow s r.rid (fun r => { r with
          memb := tset r.memb j .queued, phase := if gone ∧ r.phase = .programming then .again else r.phase }))
        { id := 0, kind := .w, type := .prog, glun := g, block := b, wl := r.row, deadline := w.deadline, real := w.real,
          use := .member r.rid j, needSeq := max r.intent (memberSeq s r.zid j) }
    else modRow s r.rid (fun r => { r with memb := tset r.memb j .held })
  | none => modRow s r.rid (fun r => { r with memb := tset r.memb j .held })

/-- A row whose parity is computed writes its INTENT, unless the window has no room for it (R277, R285). -/
def rowIntent (s : State) (rid : Nat) : State :=
  match row? s rid with
  | none => s
  | some r =>
    if s.jrn.full || s.jrn.stopped then s
    else
      let s := modZone s r.zid (fun e => { e with jseq := s.jrn.seq % 2 ^ 32 })
      let s := jrnRow s 0x01 r.zid r.row ((zone s r.zid).layout * 2 ^ 16 + r.acked)
      modRow s rid (fun r => { r with phase := .intent, intent := max r.intent s.jrn.seq })

/-- Rows whose INTENT is durable start their programs (R277). -/
def rowsProgram (s : State) : State :=
  (s.rows.filter (fun r => decide (r.phase = .intent) && decide (r.intent ≤ s.jrn.durable))).foldl (fun s r =>
    let s := modRow s r.rid (fun r => { r with phase := .programming })
    let n := ((layoutOf? s r.zid).map width).getD 0
    (List.range n).foldl (fun s j => match row? s r.rid with | some r => queueMember s r j | none => s) s) s

/-- Rows that wait for the journal's window get their INTENT. -/
def rowsIntent (s : State) : State :=
  ((s.rows.filter (fun r => decide (r.phase = .parity))).map (fun r => r.rid)).foldl rowIntent s

/-- A parity member's slot is released (R275). -/
def releaseParity (s : State) (r : Row) (j : Nat) : State :=
  match tget? r.slots j with
  | some i => dropSlot (modRow s r.rid (fun r => { r with slots := terase r.slots j })) r.quad i
  | none => s

/-- The body of a data block of a row as its buffers hold it now. -/
def rowBody (s : State) (r : Row) (b : Nat) : List Byte :=
  if r.poison.contains b then poisonBody
  else if b < r.acked then bufBody s r.bufs b (tget r.pis b (zeros 16))
  else ((liveBody s r b).map (fun x => x.2.2)).getD padBody

/-! ### Outcomes of members (R124, R127, R128) -/

/-- The row completes on every member: ROW_DONE, its commands' blocks done, its extents dead (R107, R124). -/
def rowComplete (s : State) (r : Row) (lt : Layout) : State :=
  let n := rowBlks s lt
  let s := jrnRow s 0x02 r.zid r.row ((r.row + 1) * n)
  let s := rangeDone s r r.acked n 0
  let s := dropExtents (dropRow s r) r.zid r.row
  let s := modZone s r.zid (fun e => { e with inflight := e.inflight - 1 })
  let last := decide (capacity s lt ≤ (r.row + 1) * n)
  let e := zone s r.zid
  let s := if last && decide (e.state = 1) then jrnZone (setZone s { e with state := 3 }) r.zid else s
  let e := zone s r.zid
  let s := if e.state = 3 ∧ e.inflight = 0 then oztFree s r.zid else s
  servePressure s r.quad

/-- All members of a row are good, or padded under R233. -/
def rowAllGood (r : Row) (n : Nat) : Bool :=
  (List.range n).all (fun j => match tget r.memb j .idle with | .good | .pad => true | _ => false)

/-- A row is looked at after an outcome. -/
def rowSettle (s : State) (rid : Nat) : State :=
  match row? s rid with
  | none => s
  | some r =>
    match layoutOf? s r.zid with
    | some lt => if rowAllGood r (width lt) then rowComplete s r lt else s
    | none => s

/-- A member reports good status. -/
def memberGood (s : State) (rid j : Nat) : State :=
  match row? s rid with
  | none => s
  | some r =>
    if tget r.memb j .idle = .program then
      let s := modRow s rid (fun r => { r with memb := tset r.memb j (if r.pads.contains j then .pad else .good) })
      let s := match row? s rid with | some r => releaseParity s r j | none => s
      rowSettle s rid
    else s

/-- The row is voided (R127): its blocks fail, members not yet confirmed receive a pad, the next row waits for ROW_VOID. -/
def rowVoid (s : State) (r : Row) (lt : Layout) (fail : Nat → Result) : State :=
  let n := rowBlks s lt
  let base := rowBase s r.zid r.row
  let s := jrnRow (setVoid s r.zid r.row) 0x03 r.zid r.row 0
  let seq := s.jrn.seq
  let s := r.pieces.foldl (fun s p => blocksDone s p.cid p.count 0
    [(base + p.first, fail (base + p.first))]) s
  let pad (j : Nat) : Bool := match tget r.memb j .idle with | .idle | .queued => true | _ => false
  let mine (o : Op) : Bool := match o.use with
    | .member i j => decide (i = r.rid) && pad j
    | _ => false
  let s := withdrawOps s mine
  let w := rowWork s r
  let s := ((List.range (width lt)).filter pad).foldl (fun s j =>
    match loc? s r.zid j with
    | some (g, bl) =>
      if mstate s r.zid j ≤ 1 then
        queueProg s { id := 0, kind := .w, type := .prog, glun := g, block := bl, wl := r.row, deadline := w.deadline,
                      real := w.real, use := .pad r.zid r.row j true }
      else s
    | none => s) s
  let rows := s.rows.map (fun x => if x.zid = r.zid then { x with intent := max x.intent seq } else x)
  let ops := s.ops.map (fun o => match o.use with
    | .member i _ => if rows.any (fun x => decide (x.rid = i) && decide (x.zid = r.zid)) then { o with needSeq := max o.needSeq seq } else o
    | _ => o)
  let s := dropRow { s with rows := rows, ops := ops } r
  let s := modZone s r.zid (fun e => { e with inflight := e.inflight - 1 })
  let last := decide (capacity s lt ≤ (r.row + 1) * n)
  let e := zone s r.zid
  let s := if last && decide (e.state = 1) then jrnZone (setZone s { e with state := 3 }) r.zid else s
  let e := zone s r.zid
  let s := if e.state = 3 ∧ e.inflight = 0 then oztFree s r.zid else s
  servePressure s r.quad

/-- A command's data fails its check at a site, for the block at offset `off` (R265). -/
def siteFail (site off : Nat) : Result := { status := stInternal, ra := off, detail := site }

/-- A member of a row fails its program (`site` none), or what it is to write fails its check at a site for the second time (R127,
R128, R264, R276): the member is failed; the row is voided, or keeps its staged blocks and waits for the member's new location. -/
def memberBad (s : State) (rid j : Nat) (why : Option (Nat → Result)) : State :=
  match row? s rid with
  | none => s
  | some r =>
    match layoutOf? s r.zid, loc? s r.zid j with
    | some lt, some (g, b) =>
      let fail (off : Nat) : Result := match why with
        | some w => w off
        | none => { status := if retiredBlock s g b then stRetired else stProgramFail, ra := off, rb := b * 2 ^ 32 + r.row, detail := g }
      let mark (v : MembStat) (s : State) : State := modRow s rid (fun r => { r with memb := tset r.memb j v })
      if r.acked = 0 then
        let s := failMember (mark .failed s) r.zid j
        (match row? s rid with
        | some r => rowVoid s { r with memb := tset r.memb j .failed } lt fail
        | none => s)
      else
        let s := failMember (mark .held s) r.zid j
        (match row? s rid with
        | some r => releaseParity s r j
        | none => s)
    | _, _ => s

/-- A row goes back to its stripe engine to be streamed again from DRAM into the same slots (R276). -/
def rowRestream (s : State) (rid : Nat) : State :=
  match row? s rid with
  | none => s
  | some r =>
    match r.phase with
    | .streaming ste =>
      rowStream (cancelXfers s (fun x => match x.purpose with | .rowIn i _ _ => decide (i = rid) | _ => false)) ste r
    | _ => s

/-- The second detection in the slot of parity `p` fails the parity member (R276). -/
def slotFail (s : State) (r : Row) (lt : Layout) (p : Nat) : State :=
  memberBad (unrecoveredAny (steFlag s r.quad 2) 2 r.quad 1) r.rid (lt.k + p) (some (siteFail 0x41))

/-- ROW_PARITY_DONE (R276, R277): the stripe engine has streamed the whole row. A slot's check error streams it again; the
second one fails the parity member. A row that was streamed once more goes on with its programs. -/
def rowParityDone (s : State) (ste : Nat) (detect : Option Nat) : State :=
  match (tget s.stes ste {}).rid.bind (row? s) with
  | none => s
  | some r =>
    match layoutOf? s r.zid with
    | none => s
    | some lt =>
      let p := detect.filter (fun p => decide (p < lt.m))
      if decide (r.phase = .streaming ste) && decide (r.want = 0) then
        if p.isSome && decide (r.strikes = 0) then
          let s := modRow (recoveredAny (steFlag s (ste / 2) 1) 2 (ste / 2) 1) r.rid (fun r => { r with strikes := 1 })
          rowRestream s r.rid
        else
          let s := { s with stes := tset s.stes ste {} }
          let s := bump s (regSteRows (ste / 2)) (16 * (ste % 2) + 15) (16 * (ste % 2)) 1
          let s := modRow s r.rid (fun x => { x with
            phase := if 0 < r.intent then .programming else .parity, parity := rowParity s r lt, stream := [] })
          let s := match p with | some p => slotFail s r lt p | none => s
          if 0 < r.intent then s else rowIntent s r.rid
      else s

/-- A machine check of the stripe engine that streams a row (R483): the row is streamed again; at the second one a parity member fails as
it would at the second detection in a slot, with the result given. Which parity member is open: a free value (log entry 80). -/
def rowChecked (s : State) (rid : Nat) (result : Result) : State :=
  match row? s rid with
  | none => s
  | some r =>
    match layoutOf? s r.zid, r.phase with
    | some lt, .streaming _ =>
      if r.checks = 0 then rowRestream (modRow s rid (fun r => { r with checks := 1 })) rid
      else
        let (v, s) := freeVal s
        rowRestream (memberBad (steFlag s r.quad 2) rid (lt.k + v % max 1 lt.m) (some (fun _ => result))) rid
    | _, _ => s

/-- The slot of parity member `j` fails its check while its chunk goes to the LUN (R276): the row is streamed once more, and the
transfer begun is repeated; the second time the member fails. -/
def slotDetected (s : State) (o : Op) (rid j : Nat) : State :=
  match row? s rid with
  | none => s
  | some r =>
    match layoutOf? s r.zid with
    | none => s
    | some lt =>
      if r.strikes = 0 then
        let s := recoveredAny (steFlag s r.quad 1) 2 r.quad 1
        abandon (modRow s rid (fun r => { r with strikes := 1, phase := .again })) o
      else slotFail (withdrawOps s (fun x => x.id = o.id)) r lt (j - lt.k)

end Sys2Proof.Machine
end

