-- ==== Sys2Proof/Machine/Domains.lean ====
section
/-! DEFINITION. The power domains and their handshakes (chapters Power Domains, Furl and the Millpond; The Block Boundary):
how a domain is raised and lowered, and which domains TRIM gates. -/

namespace Sys2Proof.Machine

/-! ### Domains and their handshakes -/

/-- At least one PHY domain is on. -/
def somePhyOn (s : State) : Bool := decide (rd s (regPwrOn 1) ≠ 0)

/-- A domain's bits in PWR_ON and PWR_RET: 0 on, 1 in retention, 2 off (R543). A comparison window starts with the
first PHY domain that comes on (R33). -/
def setDom (s : State) (d st : Nat) : State :=
  let s := if decide (st = 0) && decide (32 ≤ d) && decide (d < 64) && !(somePhyOn s) then { s with freqAt := s.tick } else s
  let s := wrf s (regPwrOn (d / 32)) (d % 32) (d % 32) (b2n (decide (st = 0)))
  wrf s (regPwrRet (d / 32)) (d % 32) (d % 32) (b2n (decide (st = 1)))

/-- A domain. -/
def dom (s : State) (d : Nat) : DomSt := tget s.doms d {}

/-- A domain changed. -/
def modDom (s : State) (d : Nat) (f : DomSt → DomSt) : State := { s with doms := tmod s.doms d {} f }

/-- Has the domain retention lines (R567)? -/
def hasRet (d : Nat) : Bool := decide (d < 32) || (decide (64 ≤ d) && decide (d ≤ 91)) || decide (d = 93)

/-- No acknowledge is owed: the lines stand as the acknowledges do. -/
def domStable (m : DomSt) : Bool := decide (m.pwrReq = m.pwrAck) && decide (m.retReq = m.retAck)

/-- The next line movement of a domain toward its goal, or its arrival there (R568). -/
def domAdvance (s : State) (d : Nat) : State :=
  let m := dom s d
  if !(domStable m) then s
  else match m.goal with
    | 0 =>
      if !m.pwrReq then modDom s d (fun m => { m with pwrReq := true, since := some s.tick })
      else if m.retReq then modDom s d (fun m => { m with retReq := false, since := some s.tick })
      else setDom (modDom s d (fun m => { m with since := none, idleAt := s.tick })) d 0
    | 1 =>
      if m.pwrReq && !m.retReq then modDom s d (fun m => { m with retReq := true, since := some s.tick })
      else if m.pwrReq then modDom s d (fun m => { m with pwrReq := false, since := some s.tick })
      else setDom (modDom s d (fun m => { m with since := none })) d 1
    | _ =>
      if m.pwrReq then modDom s d (fun m => { m with pwrReq := false, since := some s.tick })
      else setDom (modDom s d (fun m => { m with since := none })) d 2

/-- A domain is raised (R527). PD_AO is always on. -/
def raiseDom (s : State) (d : Nat) : State :=
  if domOn s d || decide (94 ≤ d) || decide ((dom s d).goal = 0 ∧ (dom s d).since.isSome) then s
  else domAdvance (modDom s d (fun m => { m with goal := 0 })) d

/-- A domain is lowered to retention (1) or off (2): it is isolated before its first step down (R527, R568). -/
def lowerDom (s : State) (d st : Nat) : State :=
  if 94 ≤ d then s
  else
    let st := if st = 1 ∧ !(hasRet d) then 2 else st
    let s := wrf s (regPwrOn (d / 32)) (d % 32) (d % 32) 0
    domAdvance (modDom s d (fun m => { m with goal := st })) d

/-- The state of a domain in DROWSE (`furl` false) and FURL (R525). -/
def domGoal (d : Nat) (furl : Bool) : Nat :=
  if furl then (if d = 94 then 0 else if d = 93 then 1 else 2)
  else if d < 32 then 1
  else if d < 64 then 2
  else if d < 80 then 1
  else if d < 84 then 0
  else if d < 92 then 1
  else 0

/-- Work is given to a domain, or ends there (R528). -/
def domUse (s : State) (d : Nat) : State := raiseDom (modDom s d (fun m => { m with idleAt := s.tick })) d

/-! ### TRIM (R528) -/

/-- The domains that TRIM gates (R525). -/
def autoDom (d : Nat) : Bool := (decide (64 ≤ d) && decide (d < 80)) || (decide (84 ≤ d) && decide (d < 92))

/-- Rows whose parity a quadrant's stripe engines are to compute (R272). -/
def rowsWaiting (s : State) (q : Nat) : Bool := s.rows.any (fun r => decide (r.quad = q) && rowReady r)

/-- Reconstructions of a quadrant (R255). -/
def reconsIn (s : State) (q : Nat) : Bool := s.recons.any (fun r => decide (reconQuad s r.zid r.member = q))

/-- Has an auto domain work queued or in progress (R528)? Of a quadrant's two stripe engines, rows that wait and
reconstructions count for the first that is idle, and reconstructions for the even one (DESIGN CHOICE, log entry 61). -/
def domBusy (s : State) (d : Nat) : Bool :=
  if d < 72 then
    !((tget s.decs (d - 64) {}).busy.isEmpty) ||
      s.items.any (fun i => decide (i.stage = .staged) && decide (poolOf (chOf i.glun) = d - 64))
  else if d < 80 then
    let e := d - 72
    (tget s.stes e {}).rid.isSome || (decide (e % 2 = 0) && reconsIn s (e / 2)) ||
      ((decide (e % 2 = 0) || (tget s.stes (e - 1) {}).rid.isSome) && rowsWaiting s (e / 2))
  else if d < 88 then
    s.age.leases.any (fun p => quadOf (p.1 / 512) = d - 84) || s.ops.any (fun o => [.b, .h, .m, .x].contains o.kind && decide (quadOf o.glun = d - 84)) ||
      s.groups.any (fun p => decide (p.2.lease ≠ .free) && decide (p.2.coord = d - 84))
  else !((tget s.banks (d - 88) {}).held.isEmpty) || rowsWaiting s (d - 88) || reconsIn s (d - 88)

/-- The auto domains that have work are raised, and have been idle since no earlier tick than this (R528). -/
def pumpDomains (s : State) : State :=
  if 2 ≤ rdf s regPwrState 1 0 then s
  else ((List.range' 64 28).filter (fun d => autoDom d && domBusy s d)).foldl domUse s

end Sys2Proof.Machine
end

