-- ==== Sys2Proof/Machine/Reads.lean ====
section
/-! DEFINITION. Zone reads (chapter Codewords, Decoding and the Read Path): which blocks meet a rule ahead of flash, where
each block is read, its delivery to SoC memory, its failures, and reconstruction for it. -/

namespace Sys2Proof.Machine

/-! ### Channels and error bursts -/

/-- A codeword of a LUN fails its first hard decode: an error burst link-checks every trained chip enable (R209). -/
def errBurst (s : State) (g : Nat) : State :=
  let c := chOf g
  let w := rdf s (regPhyTrig c) 31 16 * 1000
  if w = 0 then s
  else
    let l := ((phy s c).fails ++ [(s.tick, g)]).filter (fun p => decide (s.tick < p.1 + w))
    if max 1 (rdf s (regPhyTrig c) 15 8) ≤ l.length ∧ 3 ≤ (dedupNat (l.map (fun p => p.2))).length then
      modPhy (phyFlag s c 1) c (fun p => { p with fails := [], linkAll := p.trained })
    else modPhy s c (fun p => { p with fails := l })

/-! ### Results -/

/-- The result of a read that met a failure, with the place where it was met (R73, R107). -/
def placeFail (st off g b wl : Nat) : Result := { status := st, ra := off, rb := b * 2 ^ 32 + wl, detail := g }

/-- The result of a read that met a failure at a place (R73, R265): the site and the expected value for class 0x50. -/
def readFail (st off g b wl site want : Nat) : Result :=
  if 0x5000 ≤ st then { status := st, ra := off, rb := want, detail := site } else placeFail st off g b wl

/-- The block of a read, changed. -/
def modRd (s : State) (cid off : Nat) (f : RdBlk → RdBlk) : State :=
  modCmd s cid (fun c => { c with blks := modFirst (fun b => b.off = off) f c.blks })

/-- The block of a read. -/
def rdBlk? (s : State) (cid off : Nat) : Option RdBlk := (cmd? s cid).bind (fun c => c.blks.find? (fun b => b.off = off))

/-- A ladder step from which on a codeword counts as heavy: DEC_CFG.HEAVY_STEP, 0 acting as 1, or a soft step. -/
def heavyStep (s : State) (gen step : Nat) : Bool :=
  decide (0x10 ≤ step) || decide (max 1 (rdGen s gen regDecCfg / 2 ^ 12 % 16) ≤ step)

/-- The status of a read that no block failed (R262). -/
def readStatus (s : State) (c : Cmd) : Result :=
  let heavy := heavyStep s c.gen c.ladder
  { status := if 0 < c.recons then stRecon else if heavy then stHeavy else stOk, ra := c.recons, rb := c.ladder }

/-- A read ends when every block of it has ended: with its first failing block in offset order, or well (R262). -/
def readSettle (s : State) (cid : Nat) : State :=
  match cmd? s cid with
  | none => s
  | some c =>
    if decide (opc c = 3) && decide (c.stage = .running) && !(c.blks.any (fun b => b.stat = .pending)) then
      let bad := c.blks.findSome? (fun b => match b.stat with | .failed r => some r | _ => none)
      finish s cid (bad.getD (readStatus s c))
    else s

/-- A block of a read fails. -/
def blkFail (s : State) (cid off : Nat) (r : Result) : State :=
  readSettle (modRd s cid off (fun b => { b with stat := .failed r, body := [] })) cid

/-! ### Delivery (R236, R417, R426) -/

/-- Bytes delivered of a chained read, and its descriptor's event flags. -/
def chainFlags (s : State) (c : Cmd) : Nat := if flagChain c then fieldAt (dramRead s (cPtr c + 0x0C) 2) 0 2 else 0

/-- PROGRESS of a chained command (R426): HALF once every byte below half the count is good, DONE once all are. -/
def progress (s : State) (c : Cmd) (isDone : Bool) (n : Nat) : State :=
  let w := n * 2 ^ 32 + b2n isDone * 2 + 1
  let s := startXfer s { port := 2 * c.home, write := true, clsA := true, grp := 0, deadline := c.deadline,
                         real := c.deadline.isSome, purpose := .progress c.cid } [(0, cPtr c + 0x18, 8, leBytes 8 w)]
  raiseRing s c.evt

/-- The progress events due after a block of a command has got good status; `good` tells which data bytes have it. -/
def noteProgress (s : State) (cid total : Nat) (good : Nat → Bool) (units size : Nat) : State :=
  match cmd? s cid with
  | none => s
  | some c =>
    let f := chainFlags s c
    let half := (total / 2 + size - 1) / size
    let n := ((List.range units).filter good).length * size
    let s := if bit f 1 && !c.half && (List.range half).all good then
        progress (modCmd s cid (fun c => { c with half := true })) c false n
      else s
    if bit f 2 && (List.range units).all good then progress s c true total else s

/-- A block's data, and its PI under mode 0b01, go to SoC memory (class A). A chain that cannot be walked that far ends the
command (R422, R424). -/
def deliver (s : State) (cid off g : Nat) (body : List Byte) (isRecon : Bool) : State :=
  match cmd? s cid with
  | none => s
  | some c =>
    let i := off - cOff c
    match dataSpans s c ((i + 1) * 4096) with
    | .error e => blkFail s cid off (loopResult (dataPort g) e)
    | .ok spans =>
      let x (pi : Bool) : XferSpec := { port := dataPort g, write := true, clsA := true, grp := 0, deadline := some (c.deadline.getD (c.base + 1000000)),
                                        real := c.deadline.isSome, purpose := .readBlock cid off pi }
      let cuts := spanCut 0 spans (4096 * i) 4096
      let withData := (cuts.foldl (fun (p : List (Nat × Nat × Nat × List Byte) × Nat) q =>
        (p.1 ++ [(q.1, q.2.1, q.2.2, slice body p.2 q.2.2)], p.2 + q.2.2)) ([], 0)).1
      let s := modCmd s cid (fun c => { c with recons := if isRecon then c.recons + 1 else c.recons })
      let s := modRd s cid off (fun b => { b with recon := isRecon, body := body, ch := if isRecon then none else some (chOf g) })
      let s := startXfer s (x false) withData
      if piMode c = 1 then startXfer s (x true) [(0, cPi c + 16 * i, 16, bodyPi body)] else s

/-- The reference tag that a block of a command must carry: none while it is not known (R236). -/
def wantRef (c : Cmd) (off : Nat) : Option Nat :=
  if piMode c = 0 then some (refTag (cZid c) off % 2 ^ 48)
  else c.acc.head?.map (fun r => (r + (off - cOff c)) % 2 ^ 48)

/-- The checks of R236 on a body for a block: the failure (status, site offset 0 guard or 1 tag, expected value). -/
def outCheck (c : Cmd) (off : Nat) (body : List Byte) : Option (Nat × Nat × Nat) :=
  if !(guardOk body) then some (stGuard, 0, crc64 (bodyData body))
  else match wantRef c off with
    | some w => if bodyRef body = w then none else some (stReftag, 1, w)
    | none => none

/-! ### Reconstruction for a block (R256, R257) -/

/-- The member, word line and place of a block of a read. -/
def blkPlace (s : State) (zid off : Nat) : Nat × Nat × Nat × Nat × Nat :=
  match layoutOf? s zid with
  | some lt =>
    let p := place s lt off
    let l := (loc? s zid p.2.1).getD (ruleLoc lt zid p.2.1)
    (p.1, p.2.1, p.2.2.1 * dmCwpp (layDie s lt) + p.2.2.2, l.1, l.2)
  | none => (0, 0, 0, 0, 0)

/-- The work of a zone read (R362). -/
def readWork (c : Cmd) : Work :=
  { kind := .a, deadline := c.deadline.getD (c.base + 1000000), real := c.deadline.isSome, share := none, gen := c.gen }

/-- The failures of its reads with which a block can end that cannot be served (R107, R257). -/
def countsAsFail (r : Result) : Bool := [stUncorrectable, stErased, stGuard, stReftag, stHeader].contains r.status

/-- The block cannot be served: the first of those failures that its own reads met, then the survivors', or ROW_LOST where no read
met one (R107, R257). -/
def blkLost (s : State) (cid off : Nat) (fails : List Result) : State :=
  match cmd? s cid, rdBlk? s cid off with
  | some c, some b =>
    let p := blkPlace s (cZid c) off
    let r := ((b.firstFail.toList ++ fails).find? countsAsFail).getD (placeFail stRowLost off p.2.2.2.1 p.2.2.2.2 0)
    blkFail s cid off { r with ra := off }
  | _, _ => s

/-- A block of a read is reconstructed; `none` where fewer than k members can serve. -/
def blkRecon (s : State) (cid off : Nat) : Option State :=
  match cmd? s cid with
  | none => some s
  | some c =>
    let p := blkPlace s (cZid c) off
    let w := readWork c
    startRecon s { id := 0, use := .blk cid off, zid := cZid c, row := p.1, member := p.2.1, cwx := p.2.2.1, kind := .a,
                   deadline := w.deadline, real := w.real, asked := [], gen := w.gen }

/-- Reconstruction of a block, or its failure. -/
def blkReconOrFail (s : State) (cid off : Nat) : State := (blkRecon s cid off).getD (blkLost s cid off [])

/-- A block's first failure is kept (R107, R257). -/
def noteFail (s : State) (cid off : Nat) (r : Result) : State :=
  if countsAsFail r then modRd s cid off (fun b => { b with firstFail := some (b.firstFail.getD r) }) else s

/-- How a good body fares for a block: it is delivered, it waits for its command's first reference tag, or a check of it has failed. -/
inductive Took where
  | done | hold
  | failed (st site want : Nat)
  deriving DecidableEq, Repr

/-- The first reference tag of a read under PI_MODE 0b01 is still to come: that of its first block (R236). -/
def tagAwaited (s : State) (c : Cmd) (off : Nat) : Bool :=
  decide (piMode c = 1) && c.acc.isEmpty && decide (off ≠ cOff c) &&
  decide (((rdBlk? s c.cid (cOff c)).map (fun b => b.stat)) = some .pending)

/-- A good body for a block: checked, then delivered, or held until the command's first tag is known (R236). A reconstructed body
waits here, the codeword of a read in its staging SRAM (R244). -/
def blkBody (s : State) (cid off g : Nat) (body : List Byte) (isRecon : Bool) : State × Took :=
  match cmd? s cid with
  | none => (s, .done)
  | some c =>
    match outCheck c off body with
    | some f => (s, .failed f.1 f.2.1 f.2.2)
    | none =>
      if tagAwaited s c off then
        (if isRecon then modRd s cid off (fun b => { b with body := body, recon := true }) else s, .hold)
      else
        let s := if decide (piMode c = 1) && decide (off = cOff c) then modCmd s cid (fun c => { c with acc := [bodyRef body] }) else s
        (deliver s cid off g body isRecon, .done)

/-- Blocks of a read whose reconstructed bodies wait for the first tag. -/
def heldBlks (s : State) (c : Cmd) : List RdBlk :=
  c.blks.filter (fun b => decide (b.stat = .pending) && !(b.body.isEmpty) && !(s.xfers.any (fun x => match x.purpose with
    | .readBlock i o _ => decide (i = c.cid) && decide (o = b.off)
    | _ => false)))

/-- A transfer of a read block has ended (R70, R428). -/
def readBlockEnd (s : State) (port cid off : Nat) (e : XferEnd) : State :=
  match endResult port e with
  | some r =>
    blkFail (cancelXfers s (fun x => match x.purpose with
      | .readBlock i o _ => decide (i = cid) && decide (o = off)
      | _ => false)) cid off r
  | none =>
    if s.xfers.any (fun x => match x.purpose with | .readBlock i o _ => decide (i = cid) && decide (o = off) | _ => false) then s
    else
      let s := modRd s cid off (fun b => match b.stat with | .pending => { b with stat := .good, body := [] } | _ => b)
      match cmd? s cid with
      | some c =>
        let good (i : Nat) : Bool := ((c.blks[i]?).map (fun b => decide (b.stat = .good))).getD false
        readSettle (noteProgress s cid (4096 * cCount c) good (cCount c) 4096) cid
      | none => s

/-! ### Starting a read (R78, R107, R166, R262) -/

/-- A rule ahead of flash that a block meets (R78, R85, R107, R166). -/
def aheadOf (s : State) (zid off : Nat) : Option Result :=
  let p := blkPlace s zid off
  if inLost s zid off then some (placeFail stRowLost off p.2.2.2.1 p.2.2.2.2 0)
  else if voided s zid p.1 then some (placeFail stRowVoid p.1 p.2.2.2.1 p.2.2.2.2 p.1)
  else if (extentOf s zid p.1 (off - rowBase s zid p.1)).isNone && !(memberOut s zid p.2.1) && underErase s p.2.2.2.1 p.2.2.2.2 then
    some (placeFail stErasing off p.2.2.2.1 p.2.2.2.2 p.1)
  else none

/-- A staged block is read from its copies in order (R107); with no copy left it fails as its first copy did. -/
def stagedRead (s : State) (cid off copy : Nat) : State :=
  match cmd? s cid with
  | none => s
  | some c =>
    let p := blkPlace s (cZid c) off
    match readCopy s (readWork c) (cZid c) p.1 (off - rowBase s (cZid c) p.1) copy (fun k => .staged cid off k) with
    | some s => s
    | none => blkLost s cid off []

/-- A block's read begins: from staging, from its member, or by reconstruction where the member cannot serve (R85, R107,
R220, R258). -/
def blkStart (s : State) (cid off : Nat) : State :=
  match cmd? s cid with
  | none => s
  | some c =>
    let zid := cZid c
    let p := blkPlace s zid off
    match layoutOf? s zid with
    | none => s
    | some lt =>
      if (extentOf s zid p.1 (off - rowBase s zid p.1)).isSome then stagedRead s cid off 0
      else if memberOut s zid p.2.1 then blkReconOrFail s cid off
      else
        let direct := addRowItem s (readWork c) lt zid p.1 p.2.1 p.2.2.1 p.2.2.2.1 p.2.2.2.2 (.blk cid off)
        if chanUp s (chOf p.2.2.2.1) || !(decide (lostCount s lt zid p.2.1 ≤ lt.m)) then direct
        else (blkRecon s cid off).getD direct

/-- ZONE_READ. One that meets a rule ahead of flash returns without flash access (R262). -/
def zoneRead (s : State) (cid : Nat) : State :=
  zoneStart s cid 3 (fun s c =>
    let zid := cZid c
    let offs := List.range' (cOff c) (cCount c)
    if (zone s zid).wp < cOff c + cCount c then finish s cid (res stBeyond)
    else
      match offs.findSome? (aheadOf s zid) with
      | some r => finish s cid r
      | none =>
        let s := modCmd s cid (fun c => { c with blks := offs.map (fun b => { off := b }) })
        readSettle (offs.foldl (fun s b => blkStart s cid b) s) cid)

/-! ### Strict deadlines (R368) -/

/-- Does an item serve a command? -/
def serves (cid : Nat) (s : State) (i : Item) : Bool :=
  i.use.any (fun u => match u with
    | .blk c _ | .staged c _ _ | .raw c _ _ => decide (c = cid)
    | .survivor r _ => (match recon? s r with
      | some x => (match x.use with | .blk c _ => decide (c = cid) | _ => false)
      | none => false)
    | _ => false)

/-- None of a read's flash operations has been admitted. -/
def untouched (s : State) (c : Cmd) : Bool :=
  let items := s.items.filter (serves c.cid s)
  c.blks.all (fun b => decide (b.stat = .pending) && b.body.isEmpty && b.firstFail.isNone) && c.bytes.isEmpty &&
  items.all (notIssued s) &&
  s.recons.all (fun r => (match r.use with | .blk x _ => !(decide (x = c.cid)) | _ => true) ||
    (r.got.isEmpty && r.out.isEmpty && r.fails.isEmpty))

/-- A command's reads are withdrawn. -/
def withdraw_ (s : State) (cid : Nat) : State :=
  let recs := (s.recons.filter (fun r => match r.use with | .blk c _ => decide (c = cid) | _ => false)).map (fun r => r.id)
  let s := recs.foldl (fun s r => endRecon (dropSurvivors s r) r) s
  dropUses s (fun u => match u with
    | .blk c _ | .staged c _ _ | .raw c _ _ => decide (c = cid)
    | _ => false)

/-- STRICT_DEADLINE_EXPIRY (R368). -/
def strictExpiry (s : State) (cid : Nat) : State :=
  match cmd? s cid with
  | none => s
  | some c =>
    if bit (rd s regGovCfg) 0 && (decide (opc c = 3) || decide (opc c = 0x41)) && decide (c.stage = .running) &&
        (match c.deadline with | some d => decide (d ≤ s.tick) | none => false) && untouched s c then
      finish (govFlag (withdraw_ s cid) 1) cid (res stBudget)
    else s

end Sys2Proof.Machine
end

