-- ==== Sys2Proof/Machine/Layouts.lean ====
section
/-! DEFINITION. Layouts (chapter Zones, Layouts and the Hopper): the layout image and its rules, the layout store, and
LAYOUT_DEFINE. -/

namespace Sys2Proof.Machine

/-! ### The image (R90 to R92) -/

def lhK (h : List Byte) : Nat := fieldAt h 0x02 1
def lhM (h : List Byte) : Nat := fieldAt h 0x03 1
def lhN (h : List Byte) : Nat := fieldAt h 0x04 2
def lhDt (h : List Byte) : Nat := fieldAt h 0x06 2
def lhC (h : List Byte) : Nat := fieldAt h 0x08 2
def lhS (h : List Byte) : Nat := fieldAt h 0x0E 2

/-- Bytes of an image, from its header (R96). -/
def layBytes (h : List Byte) : Nat := 64 + 2 * lhN h + 4 * lhDt h * (lhK h + lhM h) + 4 * lhS h * (lhM h + 1)

/-- The header's figures lie in their ranges (R90, R93). -/
def layRanges (h : List Byte) : Bool :=
  decide (2 ≤ lhK h) && decide (lhK h ≤ 32) && decide (1 ≤ lhM h) && decide (lhM h ≤ 3) &&
  decide (lhK h + lhM h ≤ lhN h) && decide (lhN h ≤ 256) && decide (1 ≤ lhDt h) && decide (lhDt h ≤ 4096) &&
  decide (1 ≤ lhC h) && decide (lhC h ≤ 4096) && decide (1 ≤ lhS h)

/-- The layout that an image describes. -/
def parseLayout (l : List Byte) : Layout :=
  let w := lhK l + lhM l
  let dtAt := 64 + 2 * lhN l
  let stAt := dtAt + 4 * lhDt l * w
  { fg := fieldAt l 0 2, k := lhK l, m := lhM l, n := lhN l, dtRows := lhDt l, c := lhC l,
    blockBase := fieldAt l 0x0A 2 % 4096, blockCount := fieldAt l 0x0C 2 % 4096, s := lhS l,
    zidBase := fieldAt l 0x10 4 % 2 ^ 19, zoneCount := fieldAt l 0x14 4 % 2 ^ 20, dieModel := fieldAt l 0x18 1,
    luns := (List.range (lhN l)).map (fun i => fieldAt l (64 + 2 * i) 2 % 4096),
    dt := (List.range (lhDt l)).map (fun r => (List.range w).map (fun j =>
      let e := fieldAt l (dtAt + 4 * (w * r + j)) 4
      (bits e 27 16, bits e 7 0))),
    staging := (List.range (lhS l)).map (fun i => (List.range (lhM l + 1)).map (fun c =>
      let e := fieldAt l (stAt + 4 * ((lhM l + 1) * i + c)) 4
      (bits e 23 12, bits e 11 0))),
    image := l }

/-- No number stands twice. -/
def distinct (l : List Nat) : Bool := decide l.Nodup

/-- At most `m` of some LUNs lie on one channel. -/
def channelLimit (m : Nat) (gs : List Nat) : Bool :=
  gs.all (fun g => decide ((gs.filter (fun h => decide (chOf h = chOf g))).length ≤ m))

/-- The declustering table keeps R93. -/
def dtRules (lt : Layout) : Bool :=
  decide (lt.dtRows * width lt = lt.n * lt.c) &&
  lt.dt.all (fun r => r.all (fun e => decide (e.1 < lt.c) && decide (e.2 < lt.n)) && distinct (r.map (fun e => e.2)) &&
    channelLimit lt.m (r.map (fun e => lt.luns.getD e.2 0))) &&
  distinct (lt.dt.flatMap (fun r => r.map (fun e => e.2 * 4096 + e.1)))

/-- The staging list keeps R93. -/
def stagingRules (lt : Layout) (bpp : Nat) : Bool :=
  lt.staging.all (fun set =>
    set.all (fun l => lt.luns.contains l.1 && decide (l.2 < bpp) && !(runsMeet l.2 1 lt.blockBase lt.blockCount)) &&
    distinct (set.map (fun l => chOf l.1))) &&
  distinct (lt.staging.flatMap (fun set => set.map (fun l => lbKey l.1 l.2)))

/-- Is a layout index named by a group? -/
def layoutInUse (s : State) (i : Nat) : Bool :=
  s.groups.any (fun p => decide (p.2.layout = some i) || decide (p.2.newIdx = some i))

/-- The ZID range meets that of a bound layout of another group. -/
def zidsTaken (s : State) (lt : Layout) : Bool :=
  s.groups.any (fun p => decide (p.1 ≠ lt.fg) && (match p.2.layout.bind (fun i => tget? s.layouts i) with
    | some o => runsMeet lt.zidBase lt.zoneCount o.zidBase o.zoneCount
    | none => false))

/-- The rules of R93 and R94. -/
def layoutRules (s : State) (lt : Layout) : Bool :=
  let d := layDie s lt
  let bpp := dmBpp d
  lt.luns.all (fun g => match lun? s g with | some l => decide (l.model = lt.dieModel) | none => false) &&
  distinct lt.luns && decide (dmWlb d ≤ 512) && dtRules lt && decide (lt.blockBase + lt.blockCount ≤ bpp) &&
  decide (lt.zoneCount ≤ lt.blockCount / lt.c * lt.dtRows) && !(zidsTaken s lt) && stagingRules lt bpp &&
  decide (lt.zoneCount * (lt.k * cbOf d + 128) * 5 / 4 ≤ lt.s * dmWlb d * cbsOf d)

/-- The layout behind DATA_PTR of a command, where it keeps R93. -/
def readLayout (s : State) (a : Nat) : Option Layout :=
  let h := dramRead s a 64
  if layRanges h then
    let lt := parseLayout (dramRead s a (layBytes h))
    if layoutRules s lt then some lt else none
  else none

/-! ### The layout store (R96) -/

/-- Pages of 4 KiB that bytes take. -/
def pagesOf (n : Nat) : Nat := (n + 4095) / 4096

/-- The pages in use: those of the stored layouts, and the fixed allocations of the groups. -/
def ltTaken (s : State) : List Nat := s.layouts.flatMap (fun p => p.2.pages) ++ s.groups.flatMap (fun p => p.2.pages)

/-- Number of pages in use (HOP_LT_USED). -/
def ltUsed (s : State) : Nat := (ltTaken s).length

/-- The lowest `n` free pages of the store. DESIGN CHOICE: R96 leaves open which free pages an allocation takes (log entry 62). -/
def ltFree (s : State) (n : Nat) : List Nat :=
  let used := ltTaken s
  ((List.range (used.length + n)).filter (fun p => !(used.contains p))).take n

/-- Pages of the fixed allocation that a group has yet to get: 80 KiB with its first layout. -/
def fixedPages (s : State) (fg : Nat) : Nat := if (group s fg).pages.isEmpty then 20 else 0

/-- The store has room for a layout; the fixed allocation of a group that has none counts with it. -/
def ltRoom (s : State) (lt : Layout) : Bool :=
  decide (ltUsed s + pagesOf lt.image.length + fixedPages s lt.fg ≤ 256 * rd s regHopLtSize)

/-- A layout taken into the store under an index: its pages, the group's fixed allocation where that is still to be made, and its
image in SoC memory. -/
def storeLayout (s : State) (idx : Nat) (lt : Layout) : State :=
  let n := pagesOf lt.image.length
  let l := ltFree s (n + fixedPages s lt.fg)
  let s := { s with layouts := tset s.layouts idx { lt with pages := l.take n } }
  let s := if (l.drop n).isEmpty then s else modGroup s lt.fg (fun g => { g with pages := l.drop n })
  ltStore s (l.take n) lt.image

/-! ### LAYOUT_DEFINE (R93 to R96, R298, R595) -/

/-- The LAYOUT entry of a layout (R279). -/
def jrnLayout (s : State) (fg zid idx : Nat) (image : List Byte) : State :=
  let d := sha384 image
  jrnAppend s { seq := 0, typ := 0x08, fg := fg, zid := zid, arg0 := fieldAt d 0 8, arg1 := fieldAt d 8 8, arg2 := idx }

/-- The digest of the group's last LAYOUT entry that the scan found differs from an image's (R298). -/
def digestWrong (s : State) (fg : Nat) (image : List Byte) : Bool :=
  let d := sha384 image
  match (s.jrn.found.filter (fun e => decide (e.typ = 8) && decide (e.fg = fg))).getLast? with
  | some e => decide ((e.arg0, e.arg1) ≠ (fieldAt d 0 8, fieldAt d 8 8))
  | none => false

/-- A layout bound to its group. The staging sets of a group that comes back from a reset are full until they are
erased for reuse. -/
def bindLayout (s : State) (idx : Nat) (lt : Layout) : State :=
  let s := storeLayout s idx lt
  let full := (group s lt.fg).await
  let wlb := dmWlb (layDie s lt)
  modGroup s lt.fg (fun g => { g with
    layout := some idx,
    setWl := if full then (List.range lt.s).map (fun i => (i, wlb)) else g.setWl })

/-- LAYOUT_DEFINE once its image is at hand. -/
def layoutBind (s : State) (c : Cmd) (idx : Nat) (lt : Layout) : State :=
  if layoutInUse s idx || (group s lt.fg).layout.isSome || s.jrn.stopped then finish s c.cid (res stConflict)
  else if !(ltRoom s lt) then finish s c.cid (res stNoBuffer)
  else if !s.jrn.scanned then modCmd s c.cid (fun c => { c with stage := .waiting })
  else if (group s lt.fg).await then
    if digestWrong s lt.fg lt.image then finish s c.cid (res stConflict)
    else
      jrnLayout (bindLayout (modCmd s c.cid (fun c => { c with stage := .running, acc := [lt.fg] })) idx lt) lt.fg 0 idx lt.image
  else
    let s := modCmd s c.cid (fun c => { c with stage := .running })
    finishDurable (jrnLayout (bindLayout s idx lt) lt.fg 0 idx lt.image) c.cid { status := stOk, ra := idx }

/-- LAYOUT_DEFINE reads its image. -/
def layoutTry (s : State) (c : Cmd) : State :=
  match readLayout s (cPtr c) with
  | some lt => layoutBind s c (cP0 c % 65536) lt
  | none => finish s c.cid (badField 0x18)

/-- Bytes of a layout image that are fetched: the whole of it, where its header's figures lie in their ranges. -/
def layFetch (s : State) (a : Nat) : Nat :=
  let h := dramRead s a 64
  if layRanges h then layBytes h else 64

/-- LAYOUT_DEFINE. -/
def layoutDefine (s : State) (cid : Nat) (mp : PortEnd) : State :=
  start s cid 0x10 (fun s c => imageEnd s c (layFetch s (cPtr c)) mp (fun s => layoutTry s c))

/-- LAYOUT_DEFINEs that waited for the scan go on (R595). -/
def layoutsAfterScan (s : State) : State :=
  (s.cmds.filter (fun c => decide (c.stage = .waiting) && decide (opc c = 0x10))).foldl layoutTry s

end Sys2Proof.Machine
end

