-- ==== Sys2Proof/Machine/ZoneReset.lean ====
section
/-! DEFINITION. ZONE_RESET (chapters Zones, Layouts and the Hopper; Channel Sequencers and NAND Operations; Measured Ageing
and Maintenance Work): the erases of a zone's members, and members re-formed on spares. -/

namespace Sys2Proof.Machine

/-! ### Wear (R388, R394, R395) -/

/-- The wear thresholds of a LUN's model: WARN and RETIRE (R393). -/
def wearOf (s : State) (g : Nat) : Nat × Nat :=
  let w := rd s (regGlbWear (modelOf s g % 16))
  (bits w 7 0, bits w 15 8)

/-- A good erase: the record, the warning, and whether the LUN-block is retired (R388, R394, R395). -/
def erasedGood (s : State) (g b loops : Nat) : State × Bool :=
  let s := ageErase (modBlk s g b (fun x => { x with erasing := false, interrupted := false })) g b loops
  let s := if (wearOf s g).1 ≤ loops then ageFlag (subSet s g b 5) 0 else s
  if (wearOf s g).2 ≤ loops then (retireBlock s g b, true) else (s, false)

/-- A spare entry that names a LUN-block: group and index. -/
def spareAt? (s : State) (g b : Nat) : Option (Nat × Nat) :=
  s.groups.findSome? (fun p => (p.2.spares.findIdx? (fun x =>
    decide (x.glun = g) && decide (x.block = b) && decide (x.state ≤ 1))).map (fun i => (p.1, i)))

/-- A spare entry dies with its LUN-block (R318, R395). -/
def killSpareAt (s : State) (g b : Nat) : State :=
  match spareAt? s g b with
  | some (fg, i) => setSpare s fg i (fun x => { x with state := 2 })
  | none => s

/-! ### The erases of a reset (R108, R109, R164) -/

/-- An erase of a reset is queued; it waits for the ZONE entry. -/
def resetErase (s : State) (c : Cmd) (zid j g b : Nat) : State :=
  let d := kindDeadline s .e c.deadline
  queueOp (modCmd s c.cid (fun c => { c with left := c.left + 1 }))
    { id := 0, kind := .e, type := .erase, glun := g, block := b, wl := 0, deadline := d.1, real := d.2,
      use := .resetErase c.cid zid j g b, needSeq := s.jrn.seq }

/-- The member stands on the location that has been erased for it (R85, R165, R333, R395). -/
def placeMember (s : State) (zid j g b : Nat) : State :=
  let w := memberWord s zid j
  if loc? s zid j = some (g, b) ∧ bits w 31 30 < 2 then s
  else
    let s := jrnMember (setMember s zid j (memberOf 1 g b)) zid j
    match spareAt? s g b with
    | some (fg, i) => modGroup s fg (fun x => { x with spares := x.spares.modify i (fun y => { y with erased := true }) })
    | none => s

/-- Why a member under reset is re-formed on a spare: `first`: it needs its first spare; `failed`: an erase of this reset failed
for it (R165); `worn`: its erase was good and retired its LUN-block (R395); `before`: its LUN-block was retired before, with that
erase still to be tried where no spare serves (R395). -/
inductive Reform where
  | first | failed | worn | before
  deriving DecidableEq, Repr

/-- How `acc` of the command keeps it, with the member: 4 × member + this. -/
def reformCode : Reform → Nat
  | .first => 0 | .failed => 1 | .worn => 2 | .before => 3

/-- What `acc` holds of a member. -/
def reformOf (c : Cmd) (j : Nat) : Reform :=
  match ((c.acc.find? (fun a => a / 4 = j)).map (fun a => a % 4)).getD 0 with
  | 0 => .first | 1 => .failed | 2 => .worn | _ => .before

/-- The reset fails for a member with ERASE_FAIL at a place (R165). -/
def resetFails (s : State) (c : Cmd) (j : Nat) (place : Nat × Nat) : State :=
  modCmd s c.cid (fun c => { c with
    badBlks := c.badBlks ++ [(j, { status := stEraseFail, rb := place.2 * 2 ^ 32, detail := place.1 })] })

/-- No spare serves a member: it stays on its worn LUN-block (R395), or the reset fails for it (R165). An erase of a LUN-block that was
retired before is tried again; one whose erase has failed is never used again (R192). -/
def noSpareFor (s : State) (c : Cmd) (zid j : Nat) (why : Reform) (place : Nat × Nat) : State :=
  let own := (loc? s zid j).getD place
  let stays (s : State) : State := ageFlag (subSet s own.1 own.2 6) 2
  match why with
  | .worn => stays s
  | .before =>
    if (blkSt s own.1 own.2).bad then resetFails s c j own
    else resetErase (stays (modCmd s c.cid (fun c => { c with acc := c.acc.filter (fun a => a / 4 ≠ j) }))) c zid j own.1 own.2
  | _ => resetFails s c j place

/-- A member of a zone under reset is to be re-formed on a spare: the spare is erased first (R165, R318, R395). -/
def reform (s : State) (c : Cmd) (zid j : Nat) (why : Reform) (place : Nat × Nat) : State :=
  match chooseSpare s (fgOf s zid) zid j with
  | (s, some (_, x)) =>
    resetErase (modCmd s c.cid (fun c => { c with acc := c.acc.filter (fun a => a / 4 ≠ j) ++ [4 * j + reformCode why] })) c zid j x.glun x.block
  | (s, none) => noSpareFor s c zid j why place

/-- The erase that one member gets; of an EMPTY zone none where its LUN-block is known to be erased (R109). A failed member comes to
stand on the spare named for it (R85). -/
def resetMember (s : State) (c : Cmd) (zid : Nat) (empty : Bool) (j : Nat) : State :=
  match mstate s zid j, loc? s zid j with
  | 3, l => reform s c zid j .first (l.getD (((layoutOf? s zid).map (fun lt => ruleLoc lt zid j)).getD (0, 0)))
  | _, none => s
  | v, some (g, b) =>
    if empty && knownErased s g b then placeMember s zid j g b
    else if decide (v ≤ 1) && retiredBlock s g b then reform s c zid j .before (g, b)
    else resetErase s c zid j g b

/-- The zone is EMPTY, or OFFLINE after a failure (R108, R165). -/
def resetEnd (s : State) (cid zid : Nat) : State :=
  match cmd? s cid with
  | none => s
  | some c =>
    let failed := minBy (fun (p : Nat × Result) => p.1) c.badBlks
    let e := zone s zid
    let s := setZone s { e with
      state := if failed.isSome then 7 else 0, tv := false, tenant := 0, wp := 0, appendPt := 0, overlay := 0 }
    let s := modGroup s (fgOf s zid) (fun g => { g with units := g.units.filter (fun u => u.zid ≠ zid) })
    let s := oztFree (jrnZone s zid) zid
    match failed with
    | some p => finishDurable s cid p.2
    | none => finishDurable s cid { status := if c.wear then stWear else stOk, ra := c.first, rb := c.mark }

/-- Every erase has ended: the reset is over, unless a member failed meanwhile, which then gets its spare (R85). -/
def resetSettle (s : State) (cid zid : Nat) : State :=
  match cmd? s cid with
  | none => s
  | some c =>
    if c.left ≠ 0 then s
    else
      let lost := (List.range (((layoutOf? s zid).map width).getD 0)).filter (fun j => decide (2 ≤ mstate s zid j))
      if lost.isEmpty || !(c.badBlks.isEmpty) then resetEnd s cid zid
      else
        let s := lost.foldl (fun s j => resetMember s c zid false j) s
        if ((cmd? s cid).map (fun c => c.left)) = some 0 then resetEnd s cid zid else s

/-- Stagings of a zone end with its extents (R108). -/
def dropZoneStagings (s : State) (zid : Nat) : State :=
  (s.stagings.filter (fun g => g.zid = zid)).foldl (fun s g => dropStg (withdrawOps s (ofStaging g.sid)) g) s

/-- The reset takes effect: what the zone held is gone, its erases are queued (R108, R333). `mark` of the command holds the state that
the zone left. -/
def resetGo (s : State) (c : Cmd) : State :=
  let zid := cZid c
  let fg := fgOf s zid
  let e := zone s zid
  let n := ((layoutOf? s zid).map width).getD 0
  let s := dropZoneStagings ((s.rows.filter (fun r => r.zid = zid)).foldl dropRow s) zid
  let s := { s with extents := s.extents.filter (fun x => x.zid ≠ zid) }
  let s := dropLost (modGroup s fg (fun g => { g with units := g.units.filter (fun u => u.zid ≠ zid) })) fg zid
  let s := setVoidBits (forgetUnread s fg zid none) zid 0
  let s := setZone s { e with
    overlay := 0, wseq := (e.wseq + 1) % 2 ^ 20, layout := (layoutIdx s zid).getD 0, gather := 0, staged := 0, stgExt := 0, stgSet := 0,
    stgWl := 0, gv := false, gslot := 0, inflight := 0 }
  let s := jrnZone s zid
  let s := modCmd s c.cid (fun c => { c with stage := .running, left := 0, first := 0, mark := 0 })
  resetSettle ((List.range n).foldl (fun s j => resetMember s c zid (decide (c.mark = 0)) j) s) c.cid zid

/-- A unit of the zone has a row in progress (R333). -/
def unitBusy (s : State) (zid : Nat) : Bool := s.groups.any (fun p => p.2.units.any (fun u => decide (u.zid = zid) && u.cur.isSome))

/-- The zone's unit starts no further row (R333). -/
def stopUnit (s : State) (zid : Nat) : State :=
  modGroup s (fgOf s zid) (fun g => { g with units := g.units.map (fun u => if u.zid = zid then { u with rows := [] } else u) })

/-- The zone turns RESETTING in its OZT entry (R101, R108): from then on no command of the zone starts (R81). The reset goes on at once,
or when a row that the zone's rebuild unit is at has ended (R333). -/
def resetBegin (s : State) (c : Cmd) : State :=
  let zid := cZid c
  let e := zone s zid
  match oztTake s { e with zid := zid } with
  | none => finish (hopFlag s 0) c.cid { status := stNoSlot, detail := 1 }
  | some s =>
    let s := modCmd (setZone s { e with zid := zid, state := 4, overlay := 0 }) c.cid (fun c => { c with mark := e.state })
    if unitBusy s zid then stopUnit (modCmd s c.cid (fun c => { c with stage := .waiting })) zid
    else resetGo s { c with mark := e.state }

/-- ZONE_RESET (R83, R85, R108, R333). -/
def zoneReset (s : State) (cid : Nat) : State :=
  zoneStart s cid 4 (fun s c =>
    let zid := cZid c
    if decide (0 < zoneCmds s zid cid) || s.jrn.stopped then finish s cid (zoneConflict s c)
    else if membersProtected s zid then finish s cid (res stProtected)
    else resetBegin s c)

/-- Resets that waited for a row of a unit go on. -/
def retryResets (s : State) : State :=
  (s.cmds.filter (fun c => decide (opc c = 4) && decide (c.stage = .waiting))).foldl (fun s c =>
    if unitBusy s (cZid c) then s else resetGo s c) s

/-! ### The end of an erase -/

/-- One erase of a reset has ended (R165, R394, R395). -/
def resetErased (s : State) (cid zid j g b : Nat) (good : Bool) (loops : Nat) : State :=
  match cmd? s cid with
  | none => s
  | some c =>
    let why := reformOf c j
    let s := modCmd s cid (fun c => { c with left := c.left - 1 })
    let s :=
      if good then
        let (s, out) := erasedGood s g b loops
        let s := modCmd s cid (fun c => { c with
          wear := c.wear || decide ((wearOf s g).1 ≤ loops), first := if c.mark < loops then g else c.first,
          mark := max c.mark loops })
        if !out then placeMember s zid j g b
        else if decide (why = .first) && decide (mstate s zid j ≤ 1) then reform s c zid j .worn (g, b)
        else reform (killSpareAt s g b) c zid j (if why = .first then .failed else why) (g, b)
      else
        let s := killSpareAt (erasedBad s g b) g b
        match why with
        | .first => reform s c zid j .failed (g, b)
        | .failed => resetFails s c j (g, b)
        | why => reform s c zid j why (g, b)
    resetSettle s cid zid

end Sys2Proof.Machine
end

