-- ==== Sys2Proof/Machine/Rebuild.lean ====
section
/-! DEFINITION. Rebuild (chapter Member Failure, Rebuild and Reshape): MEMBER_FAIL, spare assignment, passes and their
units, catch-ups. -/

namespace Sys2Proof.Machine

/-! ### Units (R323 to R330) -/

/-- A unit of a group changed. -/
def modUnit (s : State) (fg zid : Nat) (f : RebUnit → RebUnit) : State :=
  modGroup s fg (fun g => { g with units := modFirst (fun u => u.zid = zid) f g.units })

/-- A unit of a group. -/
def unit? (s : State) (fg zid : Nat) : Option RebUnit := (group s fg).units.find? (fun u => u.zid = zid)

/-- The first row that a unit need not write: the zone's lowest row in flight, else WP's row (R327). -/
def unitBound (s : State) (zid : Nat) : Nat :=
  let rb := max 1 (((layoutOf? s zid).map (rowBlks s)).getD 1)
  (((s.rows.filter (fun r => decide (r.zid = zid) && decide (r.phase ≠ .gathering))).map (fun r => r.row)).min?).getD
    ((zone s zid).wp / rb)

/-- Members lost in a zone. -/
def lostMembers (s : State) (zid : Nat) : Nat :=
  match layoutOf? s zid with
  | some lt => ((List.range (width lt)).filter (fun j => 2 ≤ mstate s zid j)).length
  | none => 0

/-- Rows of a zone wait for a member's new location (R311, R328). -/
def zoneWaits (s : State) (zid : Nat) : Bool := s.rows.any (fun r => decide (r.zid = zid) && r.memb.any (fun p => p.2 = .held))

/-- The most members lost at any codeword position of a zone's rows from `r` on: failed ones, and those whose codeword there has been
found unreadable (R326, R329). -/
def lostFrom (s : State) (zid r : Nat) : Nat :=
  let here := (group s (fgOf s zid)).unread.filter (fun p => decide (p.1 = zid) && decide (r ≤ p.2.1) && decide (mstate s zid p.2.2.1 ≤ 1))
  let at_ (p : Nat × Nat × Nat × Nat) : Nat := (here.filter (fun x => decide (x.2.1 = p.2.1) && decide (x.2.2.2 = p.2.2.2))).length
  lostMembers s zid + ((here.map at_).max?).getD 0

/-- The order of R326: margin, waiting rows first, ZID. -/
def unitKey (s : State) (u : RebUnit) : Nat :=
  let m := ((layoutOf? s u.zid).map (fun lt => lt.m)).getD 0
  (m - lostFrom s u.zid (((u.rows.map (fun p => p.2)).min?).getD 0)) * 2 ^ 20 + (if zoneWaits s u.zid then 0 else 2 ^ 19) + u.zid

/-- The members of a unit at its lowest next row, and that row. -/
def unitNext (u : RebUnit) : Nat × List Nat :=
  let r := ((u.rows.map (fun p => p.2)).min?).getD 0
  (r, (u.rows.filter (fun p => p.2 = r)).map (fun p => p.1))

/-- The spare of a member has been erased (R318). -/
def spareErased (s : State) (zid j : Nat) : Bool :=
  match (loc? s zid j).bind (fun l => spareAt? s l.1 l.2) with
  | some (fg, i) => (((group s fg).spares[i]?).map (fun x => x.erased)).getD true
  | none => true

/-- The erase of a member's spare is asked for where none is queued. -/
def wantSpareErase (s : State) (zid j : Nat) : State :=
  match (loc? s zid j).bind (fun l => spareAt? s l.1 l.2) with
  | some (fg, i) =>
    match (group s fg).spares[i]? with
    | some x => if x.erased || s.ops.any (fun o => o.use = .spareErase fg i) then s else spareErase s fg i x none
    | none => s
  | none => s

/-- Work of a rebuild: kind B (R362). -/
def rebWork (s : State) : Work :=
  let d := kindDeadline s .b none
  { kind := .b, deadline := d.1, real := d.2, share := some 0, gen := genNow s }

/-- A chunk or a pad goes onto a spare, once the MEMBER entry of the spare's location is durable (R277). -/
def rebProgram (s : State) (fg zid r j : Nat) : State :=
  match loc? s zid j with
  | some (g, b) =>
    let w := rebWork s
    queueProg s { id := 0, kind := .b, type := .prog, glun := g, block := b, wl := r, deadline := w.deadline, real := w.real,
                  share := w.share, use := .rebuild fg zid r j, needSeq := memberSeq s zid j }
  | none => s

/-- Rebuild slots in the banks of the spares' quadrants, all or none (R274). -/
def takeRebSlots (s : State) : List Nat → Option (State × List (Nat × Nat))
  | [] => some (s, [])
  | q :: r => (takeSlot? s q 3).bind (fun p => (takeRebSlots p.2 r).map (fun x => (x.1, (q, p.1) :: x.2)))

/-- The slots of a unit are released. -/
def dropRebSlots (s : State) (fg zid : Nat) : State :=
  match unit? s fg zid with
  | some u => modUnit (u.slots.foldl (fun s p => dropSlot s p.1 p.2) s) fg zid (fun u => { u with slots := [] })
  | none => s

/-- The transfer of a rebuilt chunk to its spare has ended: one slot of the spare's quadrant is released (R275). DESIGN CHOICE: a transfer
that is made again after that takes its bytes as they were computed (log entry 72). -/
def chunkSent (s : State) (fg zid q : Nat) : State :=
  match (unit? s fg zid).bind (fun u => u.slots.find? (fun p => p.1 = q)) with
  | some p => modUnit (dropSlot s p.1 p.2) fg zid (fun u => { u with slots := u.slots.erase p })
  | none => s

/-- The reconstructions of a unit's row are given up. -/
def dropRebRecons (s : State) (fg zid : Nat) : State :=
  ((s.recons.filter (fun r => match r.use with
    | .spare f z _ _ => decide (f = fg) && decide (z = zid)
    | _ => false)).map (fun r => r.id)).foldl (fun s i => endRecon (dropSurvivors s i) i) s

/-- The row of a unit that is being reconstructed is done again (R483, R511). -/
def unitAgain (s : State) (fg zid : Nat) : State :=
  modUnit (dropRebSlots (dropRebRecons s fg zid) fg zid) fg zid (fun u => { u with cur := none, chunks := [], left := [] })

/-- More than m members of a unit's row are lost at a codeword position: the row is lost and written as pads (R323,
R329). -/
def unitRowLost (s : State) (fg zid r lost : Nat) : State :=
  let s := dropRebRecons s fg zid
  let s := if inLost s zid (rowBase s zid r) then s else loseRow s zid r 1 lost
  match unit? s fg zid with
  | some u => u.left.foldl (fun s j => rebProgram s fg zid r j) (modUnit s fg zid (fun u => { u with chunks := [] }))
  | none => s

/-- A unit begins a row: pads for a voided or lost row, else a reconstruction of every codeword of it (R323). -/
def unitRow (s : State) (fg zid : Nat) (lt : Layout) (r : Nat) (ms : List Nat) : State :=
  let begun (s : State) : State := modUnit s fg zid (fun u => { u with cur := some r, chunks := [], left := ms, gen := genNow s })
  if voided s zid r || inLost s zid (rowBase s zid r) then ms.foldl (fun s j => rebProgram s fg zid r j) (begun s)
  else
    match takeRebSlots s (ms.map (reconQuad s zid)) with
    | none => s
    | some (s, sl) =>
      let s := modUnit (begun s) fg zid (fun u => { u with slots := sl })
      let w := rebWork s
      let go (acc : Option State) (cwx : Nat) : Option State := acc.bind (fun s =>
        startRecon s { id := 0, use := .spare fg zid r ms, zid := zid, row := r, member := ms.headD 0, cwx := cwx, kind := .b,
                       deadline := w.deadline, real := w.real, share := w.share, asked := [], gen := w.gen })
      match (List.range (cbOf (layDie s lt))).foldl go (some s) with
      | some t => t
      | none => unitRowLost s fg zid r (lostMembers s zid)

/-- A unit goes on to its next row where its spares are erased. -/
def unitStep (s : State) (fg : Nat) (u : RebUnit) : State :=
  let (r, ms) := unitNext u
  match layoutOf? s u.zid with
  | none => s
  | some lt =>
    if ms.isEmpty || decide (unitBound s u.zid ≤ r) then s
    else if ms.all (spareErased s u.zid) then unitRow s fg u.zid lt r ms
    else ms.foldl (fun s j => wantSpareErase s u.zid j) s

/-- Members of a group with an MSTATE, by zone and index. -/
def membersIn (s : State) (fg st : Nat) : List (Nat × Nat) :=
  match boundLayout s fg with
  | some lt => (zidsOf lt).flatMap (fun z =>
      ((List.range (((layoutOf? s z).map width).getD 0)).filter (fun j => mstate s z j = st)).map (fun j => (z, j)))
  | none => []

/-- A pass ends: its lease is free, its event raised, its command completes with the lost-range list (R331). -/
def passEnd (s : State) (fg : Nat) : State :=
  let g := group s fg
  let s := if (membersIn s fg 3).isEmpty then s else maintFlag s 1
  let s := raise (modGroup s fg (fun g => { g with lease := .free, paused := false, rebCid := none })) 1009
  match g.rebCid.bind (cmd? s) with
  | some c =>
    let n := min (cCount c) g.lost.length
    finishDurable (writeOut s c (cPtr c) ((g.lost.take n).flatMap lostBytes) 3) c.cid
      { status := stOk, ra := g.rebRows, rb := g.lost.length * 2 ^ 32 + n }
  | none => s

/-- A unit whose row in progress has lost its last member gives that row up (R314). -/
def settleUnits (s : State) (fg : Nat) : State :=
  ((group s fg).units.filter (fun u => u.cur.isSome && u.left.isEmpty)).foldl (fun s u =>
    let s := modUnit (dropRebSlots (dropRebRecons s fg u.zid) fg u.zid) fg u.zid (fun u => { u with cur := none, chunks := [] })
    if u.rows.isEmpty then modGroup s fg (fun g => { g with units := g.units.filter (fun x => x.zid ≠ u.zid) }) else s) s

/-- The work of a group's units goes on, one row at a time, in the order of R326; a paused pass starts nothing (R332), and
with no member left in MSTATE 2 the pass is over (R331). -/
def kickUnits (s : State) (fg : Nat) : State :=
  let s := settleUnits s fg
  let g := group s fg
  let open_ (u : RebUnit) : Bool := !(u.rows.isEmpty) && decide ((unitNext u).1 < unitBound s u.zid) &&
    (decide (g.lease = .rebuild) || u.alone) && decide ((zone s u.zid).state ≠ 4)
  if decide (g.lease = .rebuild) && g.units.isEmpty && (membersIn s fg 2).isEmpty then passEnd s fg
  else if g.paused || g.units.any (fun u => u.cur.isSome) then s
  else match minBy (unitKey s) (g.units.filter open_) with
    | some u => unitStep s fg u
    | none => s

/-- Every group's. -/
def kickRebuilds (s : State) : State := (s.groups.map (fun p => p.1)).foldl kickUnits s

/-- The bodies of one codeword of a unit's row are reconstructed; with the last, its chunks are programmed (R323). -/
def unitChunk (s : State) (fg zid r cwx : Nat) (bodies : Tab (List Byte)) : State :=
  match unit? s fg zid, layoutOf? s zid with
  | some u, some lt =>
    if u.cur = some r then
      let chunks := bodies.foldl (fun t p => tmod t p.1 [] (fun x => tset x cwx p.2)) u.chunks
      let s := modUnit s fg zid (fun u => { u with chunks := chunks })
      let cb := cbOf (layDie s lt)
      if u.left.all (fun j => decide (cb ≤ (tget chunks j []).length)) then u.left.foldl (fun s j => rebProgram s fg zid r j) s
      else s
    else s
  | _, _ => s

/-- A program of a unit has ended (R314, R318, R323). -/
def unitProgrammed (s : State) (fg zid r j g b : Nat) (good : Bool) : State :=
  match unit? s fg zid with
  | none => s
  | some u =>
    if decide (u.cur = some r) && u.left.contains j && decide (loc? s zid j = some (g, b)) then
      if good then
        let s := bump s regJrnRebRows 31 0 1
        let s := modGroup s fg (fun g => { g with rebRows := g.rebRows + 1 })
        let s := modUnit s fg zid (fun u => { u with
          left := u.left.filter (fun i => i ≠ j), rows := if u.rows.isEmpty then [] else tset u.rows j (r + 1) })
        match unit? s fg zid with
        | some u =>
          if u.left.isEmpty then
            let s := modUnit (dropRebSlots s fg zid) fg zid (fun u => { u with cur := none, chunks := [] })
            if u.rows.isEmpty then modGroup s fg (fun g => { g with units := g.units.filter (fun u => u.zid ≠ zid) }) else s
          else s
        | none => s
      else
        let s := if u.left = [j] then dropRebSlots (dropRebRecons s fg zid) fg zid else s
        let s := respare (killSpareAt s g b) zid j
        modUnit s fg zid (fun u => if u.left.isEmpty then { u with cur := none, chunks := [] } else u)
    else s

/-! ### Passes (R322, R331, R337) -/

/-- The row at which the rebuild of a member goes on after a reset (R334): the lowest word line of its spare that reads
erased, or row 0 after an erase where that one or the one below fails. What the LUN-block holds is a free value. -/
def resumeRow (s : State) (zid j : Nat) : State × Nat :=
  match (loc? s zid j).bind (fun l => spareAt? s l.1 l.2) with
  | some (fg, i) =>
    if (((group s fg).spares[i]?).map (fun x => x.kept)).getD false then
      let (v, s) := freeVal s
      let good := decide (v % 2 = 1)
      (modGroup s fg (fun g => { g with spares := g.spares.modify i (fun x => { x with kept := false, erased := good }) }),
       if good then v / 2 % (unitBound s zid + 1) else 0)
    else (s, 0)
  | none => (s, 0)

/-- A member joins the pass at the row at which its rebuild goes on. -/
def resumeUnit (s : State) (fg zid j : Nat) : State :=
  let (s, r) := resumeRow s zid j
  modUnit (addUnit s fg zid j false) fg zid (fun u => { u with rows := tset u.rows j r })

/-- A pass starts: every member with MSTATE 2 has its unit, one in progress goes on where it stands (R322, R323, R325). -/
def startPass (s : State) (fg share : Nat) (cid : Option Nat) : State :=
  let l := membersIn s fg 2
  let first := ((s.luns.filter (fun p => decide (p.2.state = 2) &&
    ((boundLayout s fg).map (fun lt => lt.luns.contains p.1)).getD false)).map (fun p => quadOf p.1)).headD 0
  let s := modGroup s fg (fun g => { g with
    lease := .rebuild, paused := false, share := share, lastShare := share, rebCid := cid, rebRows := 0, coord := first,
    auto := false, units := g.units.map (fun u => { u with alone := false }) })
  let s := l.foldl (fun s zj =>
    match unit? s fg zj.1 with
    | some u => if (tget? u.rows zj.2).isSome then s else resumeUnit s fg zj.1 zj.2
    | none => resumeUnit s fg zj.1 zj.2) s
  if l.isEmpty then passEnd s fg else s

/-- A lease has become free: an automatic rebuild that waited for it starts (R214, R337). -/
def autoPass (s : State) (fg : Nat) : State :=
  let g := group s fg
  if g.auto && decide (g.lease = .free) && !s.jrn.stopped then startPass s fg g.share none else s

/-- A failure group with a LUN on a fenced channel starts a rebuild as REBUILD_START would, which a stopped journal refuses (R214, R287,
R322). -/
def fenceRebuild (s : State) (fg share : Nat) : State :=
  match (group s fg).lease with
  | .free => if s.jrn.stopped && !((membersIn s fg 2).isEmpty) then s else startPass s fg share none
  | .rebuild => s
  | .reshape => modGroup s fg (fun g => { g with auto := true, share := share })

/-- The refusal of a lease (R337). -/
def leaseBusy (s : State) (fg : Nat) : Result :=
  { status := stMaintBusy, state := if (group s fg).lease = .rebuild then 0x51 else 0x52, ra := fg }

/-- REBUILD_START (R322). -/
def rebuildStart (s : State) (cid : Nat) : State :=
  start s cid 0x19 (fun s c =>
    let fg := cP0 c % 65536
    if (group s fg).lease ≠ .free then finish s cid (leaseBusy s fg)
    else if s.jrn.stopped && !((membersIn s fg 2).isEmpty) then finish s cid (res stConflict)
    else startPass s fg (cP1 c % 256) (some cid))

/-- REBUILD_PAUSE and REBUILD_RESUME (R332). -/
def rebuildPause (s : State) (cid : Nat) (pause : Bool) : State :=
  match startable s cid 0x1A with
  | none => s
  | some c =>
    if bit (cP1 c) 0 != pause then s
    else
      let s := modCmd s cid (fun c => { c with issued := true, stage := .running })
      let fg := cP0 c % 65536
      if (group s fg).lease = .rebuild then
        finish (modGroup s fg (fun g => { g with paused := pause })) cid { status := stOk, ra := fg }
      else finish s cid (res stConflict)

/-- REBUILD_UNIT_END (R327, R328, R331). -/
def unitEnd (s : State) (fg zid : Nat) : State :=
  match unit? s fg zid with
  | none => s
  | some u =>
    if u.cur.isNone && !(u.rows.isEmpty) && u.rows.all (fun p => decide (unitBound s zid ≤ p.2)) then
      let ms := u.rows.map (fun p => p.1)
      let s := ms.foldl (fun s j =>
        match loc? s zid j with
        | some (g, b) => jrnMember (setMember s zid j (memberOf 1 g b)) zid j
        | none => s) s
      let s := if lostMembers s zid = 0 ∧ (zone s zid).overlay = 1 then setOverlay s zid 0 else s
      let s := modGroup s fg (fun g => { g with units := g.units.filter (fun u => u.zid ≠ zid) })
      let rows := (s.rows.filter (fun r => decide (r.zid = zid) && r.memb.any (fun p => p.2 = .held))).mergeSort
        (fun a b => decide (a.row ≤ b.row))
      let s := rows.foldl (fun s r =>
        (ms.filter (fun j => tget r.memb j .idle = .held)).foldl (fun s j =>
          match row? s r.rid with
          | some r => queueMember s r j
          | none => s) s) s
      let s := trace s 4 9 fg [zid]
      if (group s fg).lease = .rebuild ∧ (membersIn s fg 2).isEmpty then passEnd s fg else s
    else s

/-! ### MEMBER_FAIL (R307, R308) -/

/-- Overlays of zones. -/
def overlays (s : State) (zs : List Nat) : List Nat := zs.map (fun z => (zone s z).overlay)

/-- The locations that a MEMBER_FAIL names. -/
def failAtCmd (c : Cmd) (l : Nat × Nat) : Bool :=
  decide (l.1 = cP0 c % 4096) && (decide (bits (cP0 c) 27 16 = 4095) || decide (l.2 = bits (cP0 c) 27 16))

/-- The zones with a member at such a location. -/
def failZones (s : State) (c : Cmd) : List Nat :=
  dedupNat ((s.groups.flatMap (fun x => membersAt s x.1 (failAtCmd c))).map (fun x => x.1))

/-- MEMBER_FAIL names a LUN-block that holds neither a member nor a staging copy (R308). -/
def failNames (s : State) (c : Cmd) : Bool :=
  decide (bits (cP0 c) 27 16 ≠ 4095) && (failZones s c).isEmpty &&
    !(s.groups.any (fun x => [0, 65536].any (fun base => (setList s x.1 base).any (fun i => (stgSet s x.1 i).any (failAtCmd c)))))

/-- MEMBER_FAIL. -/
def memberFail (s : State) (cid : Nat) : State :=
  start s cid 0x18 (fun s c =>
    let g := cP0 c % 4096
    let b := bits (cP0 c) 27 16
    let hit := failZones s c
    if failNames s c then finish s cid (badField 0x28)
    else if s.jrn.stopped then finish s cid (res stConflict)
    else
      let before := overlays s hit
      let s := if b = 4095 then lunFail s g else failAt (dropStaging s g (some b)) (failAtCmd c)
      let n := ((before.zip (overlays s hit)).filter (fun q => q.1 ≠ q.2)).length
      finishDurable s cid { status := stOk, ra := n })

/-! ### SPARE_ASSIGN (R315 to R320) -/

/-- A run of LUN-blocks stands in some spare map, withdrawn entries apart: `hitsSpares`. An entry that may be added (R316). -/
def spareAddOk (s : State) (lt : Layout) (g b : Nat) : Bool :=
  (match lun? s g with | some l => decide (l.model = lt.dieModel) && (decide (l.state = 0) || decide (l.state = 3)) | none => false) &&
  decide (b < dmBpp (dieOf s g)) && !(hitsLayouts s g b 1) && !(hitsWindows s g b 1) && !(hitsOa g b 1) && !(hitsSpares s g b 1)

/-- A LUN that holds an accepted spare and lies in no bound layout's LUN list takes state SPARE (R317). -/
def spareLun (s : State) (g : Nat) : State :=
  if ((lun? s g).map (fun l => l.state)) = some 0 ∧ !(s.layouts.any (fun p => layoutInUse s p.1 && p.2.luns.contains g)) then
    setLunState s g 3
  else s

/-- One entry is added: at the lowest withdrawn index, else above the highest. -/
def spareAdd (s : State) (fg : Nat) (lt : Layout) (g b : Nat) : Option State :=
  if spareAddOk s lt g b then
    let l := (group s fg).spares
    let new : Spare := { glun := g, block := b }
    match l.findIdx? (fun x => x.state = 3) with
    | some i => some (spareLun (setSpare s fg i (fun _ => new)) g)
    | none => some (spareLun (jrnSpare (modGroup s fg (fun x => { x with spares := l ++ [new] })) fg l.length) g)
  else none

/-- One free entry is withdrawn. -/
def spareWithdraw (s : State) (fg g b : Nat) : Option State :=
  ((group s fg).spares.findIdx? (fun x => decide (x.glun = g) && decide (x.block = b) && decide (x.state = 0))).map
    (fun i => setSpare s fg i (fun x => { x with state := 3 }))

/-- New spares are offered to the members without one, in ZID order (R320). -/
def spareOffer (s : State) (fg : Nat) : State :=
  (membersIn s fg 3).foldl (fun s zj =>
    match pickSpare s fg zj.1 zj.2 none with
    | (s, some x) => unitFor (jrnMember (setMember s zj.1 zj.2 (memberOf 2 x.glun x.block)) zj.1 zj.2) fg zj.1 zj.2
    | (s, none) => s) s

/-- Action and entries of a SPARE_ASSIGN's image (R315). -/
def spareAct (s : State) (c : Cmd) : Nat := fieldAt (dramRead s (cPtr c) 16) 4 1
def spareCount (s : State) (c : Cmd) : Nat := fieldAt (dramRead s (cPtr c) 16) 2 2

/-- The spare map with a SPARE_ASSIGN's entries added or withdrawn, its LUN states and TABLE entries with it; `none` where the image
or one of its entries is refused (R315, R316). -/
def spareApply (s : State) (c : Cmd) (lt : Layout) : Option State :=
  let fg := cP0 c % 65536
  let n := spareCount s c
  let es := (List.range n).map (fun i => leNat (dramRead s (cPtr c + 16 + 4 * i) 4))
  let one (acc : Option State) (e : Nat) : Option State := acc.bind (fun t =>
    if spareAct s c = 0 then spareAdd t fg lt (bits e 23 12) (bits e 11 0) else spareWithdraw t fg (bits e 23 12) (bits e 11 0))
  if fieldAt (dramRead s (cPtr c) 16) 0 2 ≠ fg ∨ n = 0 ∨ 4096 < n ∨ 1 < spareAct s c then none else es.foldl one (some s)

/-- A SPARE_ASSIGN whose image is refused. -/
def spareBad (s : State) (c : Cmd) : Bool := ((boundLayout s (cP0 c % 65536)).bind (spareApply s c)).isNone

/-- SPARE_ASSIGN. -/
def spareAssign (s : State) (cid : Nat) (mp : PortEnd) : State :=
  start s cid 0x1B (fun s c =>
    let fg := cP0 c % 65536
    match boundLayout s fg with
    | none => finish s cid (badField 0x28)
    | some lt => imageEnd s c (16 + 4 * min 4096 (spareCount s c)) mp (fun s =>
      match spareApply s c lt with
      | none => finish s cid (badField 0x18)
      | some t =>
        if s.jrn.stopped then finish s cid (res stConflict)
        else if 4096 < ((group t fg).spares.filter (fun x => x.state ≠ 3)).length then finish s cid (res stNoBuffer)
        else finishDurable (if spareAct s c = 0 then spareOffer t fg else t) cid { status := stOk, ra := spareCount s c }))

/-- The erase of an assigned spare has ended (R318, R395). -/
def spareErasedEnd (s : State) (fg i : Nat) (good : Bool) (loops : Nat) : State :=
  match (group s fg).spares[i]? with
  | none => s
  | some x =>
    let (s, out) := if good then erasedGood s x.glun x.block loops else (erasedBad s x.glun x.block, true)
    if out then
      let l := membersAt s fg (fun p => p = (x.glun, x.block))
      let s := setSpare s fg i (fun x => { x with state := 2 })
      l.foldl (fun s zj => if mstate s zj.1 zj.2 = 2 then respare s zj.1 zj.2 else s) s
    else modGroup s fg (fun g => { g with spares := g.spares.modify i (fun x => { x with erased := true }) })

end Sys2Proof.Machine
end

