-- ==== Sys2Proof/Machine/Reshape.lean ====
section
/-! DEFINITION. Reshape (chapter Member Failure, Rebuild and Reshape): the second layout of a group, the copy of the
boundary zone, its crossing, completion and abort. -/

namespace Sys2Proof.Machine

/-! ### RESHAPE_BEGIN (R338, R343) -/

/-- The conditions that a zone range, staging lists and write pointers put on the new layout (R338). -/
def reshapeFits (s : State) (old new : Layout) : Bool :=
  !(new.luns.any (fun g => old.luns.contains g && runsMeet new.blockBase new.blockCount old.blockBase old.blockCount)) &&
  new.staging.all (fun set => set.all (fun l =>
    !(old.luns.contains l.1 && runsMeet l.2 1 old.blockBase old.blockCount) && !(old.staging.any (fun x => x.contains l)))) &&
  (zidsOf old).all (fun z => decide ((zone s z).wp ≤ capacity s new))

/-- A staging set's number changes its list. -/
def swapSet (i : Nat) : Nat := if i < 65536 then i + 65536 else i - 65536

/-- A table of staging sets with its keys moved. -/
def mapSets {α : Type} (f : Nat → Nat) (t : Tab α) : Tab α := t.foldl (fun r p => tset r (f p.1) p.2) []

/-- The sets of a group's extents and stagings under a new numbering. -/
def renumber (s : State) (fg : Nat) (f : Nat → Nat) : State :=
  let s := modGroup s fg (fun g => { g with
    setWl := mapSets f g.setWl, setOut := mapSets f g.setOut, setErase := mapSets f g.setErase })
  { s with
    extents := s.extents.map (fun x => if x.fg = fg then { x with set := f x.set } else x),
    stagings := s.stagings.map (fun x => if x.fg = fg then
      { x with set := f x.set, move := x.move.map (fun p => (f p.1, p.2)) } else x),
    ops := s.ops.map (fun o => match o.use with
      | .setErase a i c => if a = fg then { o with use := .setErase a (f i) c } else o
      | _ => o) }

/-- The two layouts of an aborted reshape change places: the crossed zones are to move back (R343). -/
def swapLayouts (s : State) (fg : Nat) : State :=
  let s := renumber s fg swapSet
  modGroup s fg (fun g => { g with layout := g.newIdx, newIdx := g.layout, setAt := g.setAtNew, setAtNew := g.setAt })

/-- The reshape lease is taken with the boundary at a zone. -/
def reshapeLease (s : State) (fg idx at_ : Nat) : State :=
  modGroup s fg (fun g => { g with
    newIdx := some idx, boundary := at_, aborted := false, lease := .reshape, copied := 0, cp := none, cpExt := none, cpBad := [] })

/-- RESHAPE_BEGIN names the second layout of an aborted reshape again, with its image (R343). -/
def reshapeAgain (s : State) (fg idx : Nat) (lt : Layout) : Bool :=
  decide ((group s fg).newIdx = some idx) && decide (((tget? s.layouts idx).map (fun x => x.image)) = some lt.image)

/-- It names the old layout of an aborted reshape: the crossed zones move back (R343). -/
def reshapeBack (s : State) (fg idx : Nat) (old lt : Layout) : Bool :=
  (group s fg).newIdx.isSome && decide ((group s fg).layout = some idx) && decide (old.image = lt.image)

/-- A RESHAPE_BEGIN whose image or index is refused (R93, R338). -/
def reshapeBad (s : State) (c : Cmd) : Bool :=
  let fg := cP0 c % 65536
  let idx := cP1 c % 65536
  match boundLayout s fg, readLayout s (cPtr c) with
  | some old, some lt =>
    decide (lt.fg ≠ fg) || decide (lt.zidBase ≠ old.zidBase) || decide (lt.zoneCount ≠ old.zoneCount) ||
    (!(reshapeAgain s fg idx lt) && !(reshapeBack s fg idx old lt) && layoutInUse s idx)
  | _, _ => true

/-- RESHAPE_BEGIN. -/
def reshapeBegin (s : State) (cid : Nat) (mp : PortEnd) : State :=
  start s cid 0x11 (fun s c => imageEnd s c (layFetch s (cPtr c)) mp (fun s =>
    let fg := cP0 c % 65536
    let idx := cP1 c % 65536
    let g := group s fg
    match boundLayout s fg, readLayout s (cPtr c) with
    | some old, some lt =>
      if reshapeBad s c then finish s cid (badField 0x18)
      else if g.lease ≠ .free then finish s cid (leaseBusy s fg)
      else if s.jrn.stopped || g.await then finish s cid (res stConflict)
      else if reshapeAgain s fg idx lt then finish (reshapeLease s fg idx g.boundary) cid { status := stOk, ra := fg }
      else if reshapeBack s fg idx old lt then
        finish (reshapeLease (swapLayouts s fg) fg idx old.zidBase) cid { status := stOk, ra := fg }
      else if g.newIdx.isSome || !(reshapeFits s old lt) then finish s cid (res stConflict)
      else if !(ltRoom s lt) then finish s cid (res stNoBuffer)
      else finish (reshapeLease (storeLayout s idx lt) fg idx lt.zidBase) cid { status := stOk, ra := fg }
    | _, _ => finish s cid (badField 0x18)))

/-! ### The copy of the boundary zone (R339, R340) -/

/-- The layouts of a reshape that runs: the one that is left and the one that is gone to. -/
def reshapeLayouts (s : State) (fg : Nat) : Option (Layout × Layout) :=
  (boundLayout s fg).bind (fun old => ((group s fg).newIdx.bind (fun i => tget? s.layouts i)).map (fun new => (old, new)))

/-- The zone is under the new layout already. -/
def hasCrossed (s : State) (fg zid : Nat) : Bool :=
  decide ((zone s zid).valid) && decide (some (zone s zid).layout = (group s fg).newIdx)

/-- Work of a reshape: kind H (R362). -/
def rshWork (s : State) : Work :=
  let d := kindDeadline s .h none
  { kind := .h, deadline := d.1, real := d.2, share := some 1, gen := genNow s }

/-- The quadrant whose stripe engines, accumulator bank and buffers carry the copy of a zone: the one that owns the zone. DEDUCED: the spec
names none (log entry 51). -/
def copyQuad (s : State) (zid : Nat) : Nat := zoneQuad s zid

/-- The copy row of a group changed. -/
def modCp (s : State) (fg : Nat) (f : CopyRow → CopyRow) : State := modGroup s fg (fun g => { g with cp := g.cp.map f })

/-- Nothing of the zone is in flight, its partial row is staged, it is not under reset (R339). -/
def copyReady (s : State) (zid : Nat) : Bool :=
  let e := zone s zid
  decide (e.inflight = 0) && decide (e.state ≠ 4) && decide (e.staged = e.gather) && !(s.stagings.any (fun g => g.zid = zid)) &&
  !(s.cmds.any (fun c => decide (c.zone = some zid) && decide (opc c = 4) && c.issued))

/-- A zone that crosses without a copy. -/
def noCopy (s : State) (zid : Nat) : Bool := let e := zone s zid; decide (e.state = 0) || decide (e.state = 7) || decide (e.wp = 0)

/-- New rows of the zone: whole ones below WP, and blocks of WP's row. -/
def copyRows (s : State) (zid : Nat) (new : Layout) : Nat × Nat :=
  let rb := max 1 (rowBlks s new)
  ((zone s zid).wp / rb, (zone s zid).wp % rb)

/-- A block of the copy cannot be read: its new row becomes pads, or its staged block poisoned, and is reported with CAUSE 4. -/
def copyLost (s : State) (fg blk : Nat) : State := modCp s fg (fun c => { c with gone := c.gone ++ [blk], want := c.want - 1 })

/-- One block of the copy is read under the old layout: from staging, from its member, or by reconstruction. -/
def copyRead (s : State) (fg zid : Nat) (rb blk from_ : Nat) : State :=
  match (group s fg).cp, boundLayout s fg with
  | some cp, some old =>
    let off := cp.row * rb + blk
    let p := place s old off
    let w := rshWork s
    let cwx := p.2.2.1 * dmCwpp (layDie s old) + p.2.2.2
    let inRow := off - rowBase s zid p.1
    if inLost s zid off || voided s zid p.1 then copyLost s fg blk
    else if (extentOf s zid p.1 inRow).isSome then
      (readCopy s w zid p.1 inRow from_ (fun _ => .copy fg zid cp.row blk)).getD (copyLost s fg blk)
    else
      let recon := startRecon s { id := 0, use := .copy fg zid cp.row blk, zid := zid, row := p.1, member := p.2.1, cwx := cwx,
                                  kind := .h, deadline := w.deadline, real := w.real, share := w.share, asked := [], gen := w.gen }
      if memberOut s zid p.2.1 then recon.getD (copyLost s fg blk)
      else
        let l := (loc? s zid p.2.1).getD (0, 0)
        addRowItem s w old zid p.1 p.2.1 cwx l.1 l.2 (.copy fg zid cp.row blk)
  | _, _ => s

/-- The next new row of the copy begins: it asks for buffers, since the copy returns through DRAM (R264). -/
def copyBegin (s : State) (fg zid : Nat) (new : Layout) : State :=
  let rb := max 1 (rowBlks s new)
  let (full, rest) := copyRows s zid new
  let r := (group s fg).copied
  let n := if r < full then rb else rest
  let (id, s) := fresh s
  let s := modGroup s fg (fun g => { g with cp := some { row := r, rid := id, blks := n, want := n } })
  askBufs s (copyQuad s zid) n (.copy fg)

/-- A copy with all its buffers reads its blocks. -/
def copyReads (s : State) (fg : Nat) : State :=
  match (group s fg).cp, reshapeLayouts s fg with
  | some cp, some (_, new) =>
    if !cp.asked && decide (bufCount s cp.blks ≤ cp.bufs.length) then
      (List.range cp.blks).foldl (fun s b => copyRead s fg (group s fg).boundary (max 1 (rowBlks s new)) b 0)
        (modCp s fg (fun c => { c with asked := true }))
    else s
  | _, _ => s

/-- A block of the copy is to be read again. -/
def copyAgain (s : State) (fg blk : Nat) : State :=
  match reshapeLayouts s fg with
  | some (_, new) => copyRead s fg (group s fg).boundary (max 1 (rowBlks s new)) blk 0
  | none => s

/-- A block of the copy has come from LUN `l`: its data goes to its buffer, its PI is kept. -/
def copyGot (s : State) (fg zid row blk l : Nat) (body : List Byte) (poison : Bool) : State :=
  match (group s fg).cp with
  | some cp =>
    if decide (cp.row = row) && decide ((group s fg).boundary = zid) && cp.asked then
      if poison then modCp s fg (fun c => { c with poison := c.poison ++ [blk], want := c.want - 1 })
      else toBuffer (modCp s fg (fun c => { c with pis := tset c.pis blk (bodyPi body) })) (rshWork s) l 2 (.copy fg) blk
        (bufAddr s cp.bufs blk) body
    else s
  | none => s

/-- It stands in its buffer, or is read again. -/
def copyStored (s : State) (fg blk : Nat) (good : Bool) : State :=
  if good then modCp s fg (fun c => { c with want := c.want - 1 }) else copyAgain s fg blk

/-- The body of a data block of a new row as its buffers hold it. -/
def copyBody (s : State) (cp : CopyRow) (b : Nat) : List Byte :=
  if cp.poison.contains b || cp.gone.contains b then poisonBody else bufBody s cp.bufs b (tget cp.pis b (zeros 16))

/-- What the parity slots of a new row hold after its stream (R269, R273). -/
def copyParity (s : State) (cp : CopyRow) (new : Layout) : Tab (List Byte) :=
  let cb := cbOf (layDie s new)
  (List.range new.m).map (fun p => (new.k + p, slotImage ((List.range cb).map (fun i =>
    parityOf p ((List.range new.k).map (fun j => copyBody s cp (j * cb + i)))))))

/-- One block of a new row is streamed from its buffer through the port of the stripe engine (R272, R417: class B, group 2). -/
def copyStream (s : State) (fg blk : Nat) : State :=
  match (group s fg).cp with
  | some cp => (match cp.ste with
    | some ste =>
      let w := rshWork s
      startXfer s { port := ste, write := false, clsA := false, grp := 2, deadline := some w.deadline, real := w.real,
                    purpose := .copyIn fg blk } [(0, bufAddr s cp.bufs blk, 4096, [])]
    | none => s)
  | none => s

/-- Every block of a new row is streamed, from the first again where it had begun. -/
def copyStreams (s : State) (fg : Nat) : State :=
  match (group s fg).cp with
  | some cp =>
    let bs := (List.range cp.blks).filter (fun b => !(cp.poison.contains b))
    let s := cancelXfers s (fun x => match x.purpose with | .copyIn f _ => decide (f = fg) | _ => false)
    bs.foldl (fun s b => copyStream s fg b) (modCp s fg (fun c => { c with want := bs.length }))
  | none => s

/-- A new row whose blocks stand in its buffers goes to an idle stripe engine once it has its parity slots, those of rebuild and reshape
(R264, R274). -/
def copyToEngine (s : State) (fg zid : Nat) (cp : CopyRow) (new : Layout) : State :=
  let q := copyQuad s zid
  let idle (e : Nat) : Bool := ((tget s.stes e {}).rid).isNone && decide ((tget s.engines (32 + e) {}).mode ≠ 3) && domOn s (72 + e)
  let slots : Option (State × Tab Nat) := (List.range new.m).foldl (fun acc p =>
    acc.bind (fun t => (takeSlot? t.1 q 3).map (fun x => (x.2, tset t.2 (new.k + p) x.1)))) (some (s, []))
  match [2 * q, 2 * q + 1].find? idle, (if domOn s (88 + q) then slots else none) with
  | some e, some (s, sl) =>
    let s := { s with stes := tset s.stes e { rid := some cp.rid } }
    copyStreams (modCp s fg (fun c => { c with ste := some e, slots := sl })) fg
  | _, _ => s

/-- The stream of a new row is over: its parity stands in the slots. -/
def copyStreamed (s : State) (fg : Nat) (cp : CopyRow) (new : Layout) : State :=
  match cp.ste with
  | some e => modCp { s with stes := tset s.stes e {} } fg (fun c => { c with ste := none, parity := copyParity s c new })
  | none => s

/-- A block of a new row has been streamed; one that the port gave up is streamed again after the wait of R436 (R603). -/
def copyInEnd (s : State) (fg blk : Nat) (good : Bool) : State :=
  if good then modCp s fg (fun c => { c with want := c.want - 1 })
  else poolWait s (copyQuad s (group s fg).boundary) (.copyStream fg blk)

/-- A new row leaves: its buffers go back, its slots and its stripe engine are free, its reads are given up. -/
def dropCp (s : State) (fg : Nat) : State :=
  match (group s fg).cp with
  | none => s
  | some cp =>
    let s := modGroup s fg (fun g => { g with cp := none })
    let s := dropUses s (fun u => match u with | .copy f _ _ _ => decide (f = fg) | _ => false)
    let s := cancelXfers (dropBufXfers s (.copy fg)) (fun x => match x.purpose with | .copyIn f _ => decide (f = fg) | _ => false)
    let s := { s with stes := s.stes.map (fun p => if p.2.rid = some cp.rid then (p.1, {}) else p) }
    let s := cp.slots.foldl (fun s p => dropSlot s (copyQuad s (group s fg).boundary) p.2) s
    cp.bufs.foldl returnBuf s

/-- A new row is complete. -/
def copyRowDone (s : State) (fg : Nat) : State := dropCp (modGroup s fg (fun g => { g with copied := g.copied + 1 })) fg

/-- Programs of a new row go to the members of the new layout, past those on which a program of this copy or an erase has failed (R192). -/
def copyProgram (s : State) (fg zid : Nat) (cp : CopyRow) (new : Layout) : State :=
  let w := rshWork s
  let bad := (List.range (width new)).filter (fun j =>
    (group s fg).cpBad.contains j || (blkSt s (ruleLoc new zid j).1 (ruleLoc new zid j).2).bad)
  let go := (List.range (width new)).filter (fun j => !(bad.contains j))
  let s := modCp (modGroup s fg (fun g => { g with cpBad := bad })) fg (fun c => { c with began := true, left := go })
  if go.isEmpty then copyRowDone s fg
  else go.foldl (fun s j =>
    let l := ruleLoc new zid j
    queueProg s { id := 0, kind := .h, type := .prog, glun := l.1, block := l.2, wl := cp.row, deadline := w.deadline,
                  real := w.real, share := w.share, use := .reshape fg zid cp.row j, needSeq := cp.intent }) s

/-- The blocks of WP's new row go to staging as one extent, with the buffers that hold them. -/
def copyStage (s : State) (fg zid : Nat) (cp : CopyRow) (n : Nat) : State :=
  let (sid, s) := fresh s
  let w := rshWork s
  let g : Staging := { sid := sid, rid := 0, zid := zid, row := cp.row, wseq := (zone s zid).wseq, fg := fg, set := 65536, wl := 0,
                       nwl := extentWls s fg 65536 n, first := 0, count := n, consol := false, spill := false, old := List.range n,
                       pis := cp.pis, bufs := cp.bufs, poison := cp.poison ++ cp.gone, deadline := w.deadline, real := w.real,
                       placed := false, reshape := true, began := s.tick }
  modCp { s with stagings := s.stagings ++ [g] } fg (fun c => { c with began := true, bufs := [] })

/-- A new row with all its blocks is reported where it is lost, streamed by a stripe engine, journalled and programmed, or staged. -/
def copyWrite (s : State) (fg zid : Nat) (new : Layout) : State :=
  match (group s fg).cp with
  | none => s
  | some cp =>
    let rb := max 1 (rowBlks s new)
    let (full, rest) := copyRows s zid new
    if cp.began || decide (0 < cp.want) then s
    else if cp.row < full then
      if cp.gone.isEmpty && cp.parity.isEmpty then
        if cp.ste.isSome then copyStreamed s fg cp new else copyToEngine s fg zid cp new
      else if cp.intent = 0 then
        if s.jrn.full || s.jrn.stopped then s
        else
          let s := if cp.gone.isEmpty then s else addLost s fg zid (cp.row * rb) rb 4 (lostMembers s zid)
          let s := jrnRow s 0x01 zid cp.row ((group s fg).newIdx.getD 0 * 2 ^ 16)
          modCp s fg (fun c => { c with intent := s.jrn.seq })
      else if cp.intent ≤ s.jrn.durable then copyProgram s fg zid cp new
      else s
    else
      let s := cp.gone.foldl (fun s b => if inLost s zid (cp.row * rb + b) then s else addLost s fg zid (cp.row * rb + b) 1 4 0) s
      copyStage s fg zid cp rest

/-- The slot of a parity member of a new row is released with its good status (R275). -/
def copySlot (s : State) (fg zid : Nat) (cp : CopyRow) (j : Nat) : State :=
  match tget? cp.slots j with
  | some i => modCp (dropSlot s (copyQuad s zid) i) fg (fun c => { c with slots := terase c.slots j })
  | none => s

/-- A program of a new row has ended: a failed one fails its member once the zone has crossed. -/
def copyProgrammed (s : State) (fg zid row j : Nat) (good : Bool) : State :=
  match (group s fg).cp, reshapeLayouts s fg with
  | some cp, some (_, new) =>
    if cp.row = row ∧ (group s fg).boundary = zid ∧ cp.left.contains j then
      let s := if good then s else modGroup s fg (fun g => { g with cpBad := dedupNat (g.cpBad ++ [j]) })
      let s := copySlot s fg zid cp j
      let s := modCp s fg (fun c => { c with left := c.left.filter (fun i => i ≠ j) })
      if cp.left = [j] then copyRowDone (jrnRow s 0x02 zid row ((row + 1) * rowBlks s new)) fg else s
    else s
  | _, _ => s

/-- The whole copy of the boundary zone is durable. -/
def copyEnded (s : State) (fg zid : Nat) (new : Layout) : Bool :=
  let (full, rest) := copyRows s zid new
  let g := group s fg
  noCopy s zid || (g.cp.isNone && decide (full ≤ g.copied) && (decide (rest = 0) || g.cpExt.isSome))

/-- Members of a zone under one of the two layouts are erased: the old ones of a zone that has crossed (R340), the new ones of the
boundary zone after a restart or an abort (R342, R343). -/
def eraseOld (s : State) (fg zid : Nat) (l : List (Nat × (Nat × Nat))) : State :=
  let w := rshWork s
  l.foldl (fun s p => queueOp s { id := 0, kind := .h, type := .erase, glun := p.2.1, block := p.2.2, wl := 0, deadline := w.deadline,
                                  real := w.real, share := w.share, use := .oldErase fg zid p.1, needSeq := s.jrn.seq }) s

/-- An erase of members of the boundary zone under the new layout is under way. -/
def newErasing (s : State) (fg zid : Nat) : Bool :=
  s.ops.any (fun o => match o.use with | .oldErase f z _ => decide (f = fg) && decide (z = zid) | _ => false)

/-- The work of a reshape goes on. -/
def kickReshape (s : State) (fg : Nat) : State :=
  let g := group s fg
  match g.lease, reshapeLayouts s fg with
  | .reshape, some (old, new) =>
    let zid := g.boundary
    if old.zidBase + old.zoneCount ≤ zid || hasCrossed s fg zid then s
    else if g.cp.isSome then
      (match g.cp, g.cpExt with
      | some cp, some _ => if (copyRows s zid new).1 ≤ cp.row then copyRowDone s fg else copyWrite s fg zid new
      | _, _ => copyWrite s fg zid new)
    else if unstagedZone s zid then wantStaging s zid false none
    else if copyReady s zid && !(copyEnded s fg zid new) && !(newErasing s fg zid) then
      if g.freshen then
        eraseOld (modGroup s fg (fun g => { g with freshen := false })) fg zid
          ((List.range (width new)).map (fun j => (j, ruleLoc new zid j)))
      else copyWrite (copyBegin s fg zid new) fg zid new
    else s
  | _, _ => s
where
  unstagedZone (s : State) (zid : Nat) : Bool := ((partial? s zid).map (unstagedIn s)).getD false

/-- Every group's. -/
def kickReshapes (s : State) : State := (s.groups.map (fun p => p.1)).foldl kickReshape s

/-! ### Crossing and the end (R340, R341) -/

/-- The boundary zone crosses: checkpoint, layout and members, erase of the old members. -/
def crossZone (s : State) (fg zid : Nat) (old new : Layout) : State :=
  let g := group s fg
  let idx := g.newIdx.getD 0
  let e := zone s zid
  let olds := (List.range (width old)).filterMap (fun j => (locIn s old zid j).map (fun l => (j, l)))
  let s := jrnLayout s fg zid idx new.image
  let s := (List.range 35).foldl (fun s j => setMember s zid j 0) s
  let s := setVoidBits { forgetUnread s fg zid none with extents := s.extents.filter (fun x => x.zid ≠ zid) ++ g.cpExt.toList } zid 0
  let (_, rest) := if noCopy s zid then (0, 0) else copyRows s zid new
  let s := setZone s { e with
    zid := zid, layout := idx, state := if e.state = 7 then 0 else e.state, tv := e.tv && decide (e.state ≠ 7),
    tenant := if e.state = 7 then 0 else e.tenant, wp := if e.state = 7 then 0 else e.wp,
    appendPt := if e.state = 7 then 0 else e.wp, gather := rest, staged := rest,
    stgExt := b2n g.cpExt.isSome, stgSet := ((g.cpExt.map (fun x => x.set % 65536)).getD 0), stgWl := ((g.cpExt.map (fun x => x.wl)).getD 0) }
  let s := if e.overlay = 1 then setOverlay s zid 0 else s
  let s := modGroup s fg (fun g => { g with
    boundary := zid + 1, copied := 0, cp := none, cpExt := none, cpBad := [], units := g.units.filter (fun u => u.zid ≠ zid) })
  let s := g.cpBad.foldl (fun s j => failMember s zid j) s
  if e.state = 0 ∧ !e.valid then s else eraseOld s fg zid olds

/-- The last zone has crossed (R341). -/
def reshapeEnd (s : State) (fg : Nat) (new : Layout) : State :=
  let g := group s fg
  let idx := g.newIdx.getD 0
  let s := jrnLayout s fg 0 idx new.image
  let s := { s with layouts := (match g.layout with | some i => terase s.layouts i | none => s.layouts) }
  let s := modGroup s fg (fun g => { g with
    setWl := g.setWl.filter (fun p => 65536 ≤ p.1), setOut := g.setOut.filter (fun p => 65536 ≤ p.1),
    setErase := g.setErase.filter (fun p => 65536 ≤ p.1) })
  let s := renumber s fg (fun i => i % 65536)
  let s := modGroup s fg (fun g => { g with
    layout := some idx, newIdx := none, lease := .free, setAt := g.setAtNew, setAtNew := 0, boundary := 0 })
  autoPass (raise s 1010) fg

/-- RESHAPE_ZONE_CROSS (R340, R341). -/
def reshapeCross (s : State) (fg : Nat) : State :=
  let g := group s fg
  match g.lease, reshapeLayouts s fg with
  | .reshape, some (old, new) =>
    let zid := g.boundary
    let last (s : State) : State := if old.zidBase + old.zoneCount ≤ (group s fg).boundary then reshapeEnd s fg new else s
    if hasCrossed s fg zid then last (modGroup s fg (fun g => { g with boundary := zid + 1, copied := 0 }))
    else if copyReady s zid && copyEnded s fg zid new then last (crossZone s fg zid old new)
    else s
  | _, _ => s

/-- RESHAPE_ABORT (R343). -/
def reshapeAbort (s : State) (cid : Nat) : State :=
  start s cid 0x13 (fun s c =>
    let fg := cP0 c % 65536
    let g := group s fg
    match g.lease, reshapeLayouts s fg with
    | .reshape, some (_, new) =>
      let zid := g.boundary
      let mine (r : Recon) : Bool := match r.use with | .copy f _ _ _ => decide (f = fg) | _ => false
      let s := ((s.recons.filter mine).map (fun r => r.id)).foldl (fun s i => endRecon (dropSurvivors s i) i) s
      let gone (o : Op) : Bool := match o.use with
        | .reshape f _ _ _ => decide (f = fg)
        | .stage i _ _ _ => ((stg? s i).map (fun x => x.reshape && decide (x.fg = fg))).getD false
        | _ => false
      let began := decide (0 < g.copied) || ((g.cp.map (fun x => x.began)).getD false)
      let s := withdrawOps s gone
      let s := (s.stagings.filter (fun x => x.reshape && decide (x.fg = fg))).foldl dropStg (dropCp s fg)
      let s := if began then eraseOld s fg zid ((List.range (width new)).map (fun j => (j, ruleLoc new zid j))) else s
      let s := modGroup s fg (fun g => { g with
        lease := .free, aborted := true, copied := 0, cp := none, cpExt := none, cpBad := [] })
      finish (autoPass s fg) cid { status := stOk, ra := fg, rb := zid * 2 ^ 32 + g.copied }
    | _, _ => finish s cid (res stConflict))

end Sys2Proof.Machine
end

