-- ==== Sys2Proof/Machine/Maint.lean ====
section
/-! DEFINITION. Maintenance work (chapter Measured Ageing and Maintenance Work): block-group leases, calibration sweeps,
flash scrub and patrol. -/

namespace Sys2Proof.Machine

/-! ### Block-group leases (R401, R405) -/

/-- The lease on a block group: code 3 scrub or 4 calibration, and its holder. -/
def bgLease (s : State) (bg : Nat) : Option (Nat × Nat) := tget? s.age.leases bg

/-- Leases of a holder released; what it has under way is given up. -/
def freeLeases (s : State) (cid : Nat) : State :=
  let s := { s with age := { s.age with
    leases := s.age.leases.filter (fun p => p.2.2 ≠ cid), scrubs := s.age.scrubs.filter (fun x => x.cid ≠ cid),
    sweeps := s.age.sweeps.filter (fun x => x.id ≠ cid) } }
  let gone := (s.recons.filter (fun r => r.use = .scrub cid)).map (fun r => r.id)
  gone.foldl (fun s i => endRecon (dropSurvivors s i) i)
    (dropUses s (fun u => decide (u = .scrub cid) || decide (u = .sweep cid)))

/-- Leases on groups taken, all or none. -/
def takeLeases (s : State) (bgs : List Nat) (code cid : Nat) : Option State :=
  if bgs.any (fun b => (bgLease s b).isSome) then none
  else some { s with age := { s.age with leases := bgs.foldl (fun t b => tset t b (code, cid)) s.age.leases } }

/-- The groups that a command needs: the one it names, or those of its zone's member locations. -/
def leaseGroups (s : State) (c : Cmd) : List Nat :=
  if opc c = 0x22 then [cP0 c % 2 ^ 32]
  else
    let n := ((layoutOf? s (cZid c)).map width).getD 0
    dedupNat ((List.range n).filterMap (fun j => (loc? s (cZid c) j).map (fun l => bgOf l.1 l.2)))

/-! ### Calibration sweeps (R401 to R403) -/

/-- A LUN-block that a sweep may sample (R401). -/
def sampleOk (s : State) (g b : Nat) : Bool :=
  decide (subF s g b 0 8 ≠ 0) && !(retiredBlock s g b) && !(underErase s g b) && !(lunFailed s g) && chanUp s (chOf g)

/-- The LUN-blocks of a group that a sweep samples: those with the highest LOAD_LIFE first. -/
def sampled (s : State) (bg : Nat) : List Nat :=
  let g := bg / 512
  let n := min 8 (max 1 (rdf s regGlbAgeCtrl 15 8))
  let l := ((List.range 8).map (fun i => bg % 512 * 8 + i)).filter (sampleOk s g)
  (l.mergeSort (fun a b => decide (subF s g b 0x14 4 ≤ subF s g a 0x14 4))).take n

/-- A sweep by the holder of its lease. -/
def sweep? (s : State) (id : Nat) : Option Sweep := s.age.sweeps.find? (fun x => x.id = id)

/-- A sweep changed. -/
def modSweep (s : State) (id : Nat) (f : Sweep → Sweep) : State :=
  { s with age := { s.age with sweeps := s.age.sweeps.map (fun x => if x.id = id then f x else x) } }

/-- GLB_AGE_CTRL.CAL_STEP; 0 acts as 1. -/
def sweepShift (s : State) : Nat := max 1 (rdf s regGlbAgeCtrl 23 16)

/-- Every word line of a sweep has been read. -/
def sweepOver (w : Sweep) : Bool := w.wls.isEmpty && w.now.isNone

/-- The sweep of a group begins: the word lines 0 and LAST_WL of the LUN-blocks that it samples (R401). -/
def sweepBegin (s : State) (id bg : Nat) : State :=
  let bs := sampled s bg
  let wls := bs.flatMap (fun b => (dedupNat [0, subF s (bg / 512) b 0x0E 2]).map (fun wl => (b, wl)))
  { s with age := { s.age with
    sweeps := s.age.sweeps ++
    [{ id := id, bg := bg, mask := (bs.map (fun b => 2 ^ (b % 8))).sum, wls := wls, count := wls.length }] } }

/-- The shifts read on a word line: none first, then four of every level: byte 15 for SLC, bytes 0 to 14 otherwise. -/
def sweepSets (slc : Bool) (st : Nat) : List (Nat × Int) :=
  (15, 0) :: (if slc then [15] else List.range 15).flatMap (fun i =>
    [(i, -(2 * st : Int)), (i, -(st : Int)), (i, (st : Int)), (i, (2 * st : Int))])

/-- The whole word line is read under one shift, every codeword as kind M (R402, R403). -/
def sweepRead (s : State) (w : Sweep) (b wl : Nat) (x : Nat × Int) : State :=
  let g := w.bg / 512
  let d := dieOf s g
  let slc := subFlag s g b 2
  let n := if slc then cbsOf d else cbOf d
  let due_ := kindDeadline s .m none
  let set := (w.base.zipIdx).map (fun p => if p.2 = x.1 then sat8 (p.1 + x.2) else p.1)
  (List.range n).foldl (fun s i => addItem s {
    id := 0, kind := .m, deadline := due_.1, real := due_.2, share := some 2, glun := g, block := b, wl := wl, page := i / dmCwpp d,
    cw := i % dmCwpp d, slc := slc, use := [.sweep w.id], exact := some set, gen := genNow s })
    (modSweep s w.id (fun w => { w with sets := w.sets.drop 1, shift := some x, want := n, sum := 0 }))

/-- The weights of a word line under one shift are complete; w0 counts for every level of the word line. -/
def sweepNote (s : State) (w : Sweep) : State :=
  match w.shift, w.now with
  | some x, some p =>
    let slc := subFlag s (w.bg / 512) p.1 2
    modSweep s w.id (fun w => { w with
      shift := none,
      base0 := if x.2 = 0 then w.base0 + w.sum else w.base0,
      sums := w.sums ++ (if x.2 = 0 then (if slc then [15] else List.range 15).map (fun i => (i, 0, w.sum)) else [(x.1, x.2, w.sum)]) })
  | _, _ => s

/-- A sweep goes on: to the next shift, to the next word line, or to its end. One whose LUN has failed reads no more. -/
def sweepStep (s : State) (id : Nat) : State :=
  match (sweep? s id).filter (fun w => w.want = 0) with
  | none => s
  | some w =>
    let s := sweepNote s w
    if lunFailed s (w.bg / 512) then modSweep s id (fun w => { w with sets := [], wls := [], now := none })
    else
      match w.now, w.sets, w.wls with
      | some p, x :: _, _ => sweepRead s w p.1 p.2 x
      | _, _, p :: rest =>
        let w := { w with
          wls := rest, now := some p, base := predict s (genNow s) (w.bg / 512) p.1 false,
          sets := sweepSets (subFlag s (w.bg / 512) p.1 2) (sweepShift s) }
        let sums := ((sweep? s id).map (fun x => (x.base0, x.sums))).getD (0, [])
        let w := { w with base0 := sums.1, sums := sums.2 }
        (match w.sets with
        | x :: _ => sweepRead (modSweep s id (fun _ => w)) w p.1 p.2 x
        | [] => s)
      | _, _, [] => modSweep s id (fun w => { w with now := none })

/-- Every sweep goes on. -/
def kickSweeps (s : State) : State := (s.age.sweeps.map (fun w => w.id)).foldl sweepStep s

/-- The syndrome weight of one codeword of a sweep. -/
def sweepGot (s : State) (id weight : Nat) : State := modSweep s id (fun w => { w with want := w.want - 1, sum := w.sum + weight })

/-! ### Scrubs (R405, R406) -/

/-- The rows of a scrub: first, last, and whether the range ended early (R405). -/
def scrubRows (s : State) (c : Cmd) : Nat × Nat × Bool :=
  let rb := max 1 (((layoutOf? s (cZid c)).map (rowBlks s)).getD 1)
  let want := (cOff c + cCount c - 1) / rb
  let bound := unitBound s (cZid c)
  (cOff c / rb, min (want + 1) bound - 1, decide (bound ≤ want))

/-- The rows that a scrub reads: neither voided nor lost. -/
def scrubbed (s : State) (c : Cmd) : List Nat :=
  let r := scrubRows s c
  if unitBound s (cZid c) ≤ r.1 then []
  else (List.range' r.1 (r.2.1 + 1 - r.1)).filter (fun x => !(voided s (cZid c) x) && !(inLost s (cZid c) (rowBase s (cZid c) x)))

/-- A scrub by its command. -/
def scrub? (s : State) (cid : Nat) : Option Scrub := s.age.scrubs.find? (fun x => x.cid = cid)

/-- A scrub changed. -/
def modScrub (s : State) (cid : Nat) (f : Scrub → Scrub) : State :=
  { s with age := { s.age with scrubs := s.age.scrubs.map (fun x => if x.cid = cid then f x else x) } }

/-- A scrub begins with the rows of its range. -/
def scrubBegin (s : State) (c : Cmd) : State :=
  { s with age := { s.age with scrubs := s.age.scrubs ++ [{ cid := c.cid, zid := cZid c, rows := scrubbed s c }] } }

/-- Every codeword of every available member of a row is read, as kind M, with its full ladder (R406). -/
def scrubRow (s : State) (x : Scrub) (r : Nat) : State :=
  match layoutOf? s x.zid with
  | none => modScrub s x.cid (fun x => { x with begun := true, want := 0, bodies := [] })
  | some lt =>
    let d := kindDeadline s .m none
    let w : Work := { kind := .m, deadline := d.1, real := d.2, share := some 2, gen := genNow s }
    let cb := cbOf (layDie s lt)
    let l := (List.range (width lt)).filterMap (fun j => if memberOut s x.zid j then none else (loc? s x.zid j).map (fun p => (j, p)))
    let n := l.length * cb
    let s := modScrub s x.cid (fun x => { x with begun := true, want := n, bodies := [], codewords := x.codewords + n })
    l.foldl (fun s p => (List.range cb).foldl (fun s i =>
      addRowItem s w lt x.zid r p.1 i p.2.1 p.2.2 (.scrub x.cid)) s) s

/-- A codeword of the row is settled, with its body where it passed. -/
def scrubTake (s : State) (cid j cwx : Nat) (body : Option (List Byte)) : State :=
  modScrub s cid (fun x => { x with
    want := x.want - 1, bodies := match body with | some b => tset x.bodies (64 * j + cwx) b | none => x.bodies })

/-- A finding about one codeword (R407). -/
def scrubFind (s : State) (cid : Nat) (i : Item) (kind detail : Nat) : State :=
  let p := itemPlace i
  modScrub s cid (fun x => { x with finds := x.finds ++ [{ row := p.2.1, member := p.2.2.1, kind := kind, cwx := p.2.2.2, step := i.step,
                                                           glun := i.glun, block := i.block, detail := detail }] })

/-- A codeword that passed its ladder and its checks (R406, R407). -/
def scrubGot (s : State) (cid : Nat) (i : Item) (body : List Byte) : State :=
  let p := itemPlace i
  let s := if heavyStep s i.gen i.step then
      modScrub (scrubFind s cid i 1 0) cid (fun x => { x with heavy := x.heavy + 1 })
    else s
  scrubTake s cid p.2.2.1 p.2.2.2 (some body)

/-- A codeword that failed its ladder (kind 2) or its checks (kind 4): it is reconstructed where its position allows it (R406). -/
def scrubFailed (s : State) (cid : Nat) (i : Item) (kind detail : Nat) : State :=
  let p := itemPlace i
  let s := modScrub (scrubFind s cid i kind detail) cid (fun x => { x with failed := x.failed + 1 })
  let s := if kind = 2 then advise s p.1 i.glun i.block 2 else s
  let d := kindDeadline s .m none
  (startRecon s { id := 0, use := .scrub cid, zid := p.1, row := p.2.1, member := p.2.2.1, cwx := p.2.2.2, kind := .m, deadline := d.1,
                  real := d.2, share := some 2, asked := [], gen := i.gen }).getD (scrubTake s cid p.2.2.1 p.2.2.2 none)

/-- The first byte at which a parity member of a row disagrees with the parity recomputed from the data: parity, codeword and
offset; the lowest offset of all (R406, R407). -/
def parityOff (lt : Layout) (cb : Nat) (bodies : Tab (List Byte)) : Option (Nat × Nat × Nat) :=
  let body (j i : Nat) : List Byte := tget bodies (64 * j + i) []
  let off (p i : Nat) : Option (Nat × Nat × Nat) :=
    let want := parityOf p ((List.range lt.k).map (fun j => body j i))
    ((want.zip (body (lt.k + p) i)).findIdx? (fun q => q.1 ≠ q.2)).map (fun o => (p, i, o))
  minBy (fun q => q.2.2) ((List.range lt.m).flatMap (fun p => (List.range cb).filterMap (off p)))

/-- The codewords of a row are all there: kind 6 where more than m members are unavailable at a position, else the parity of a row
whose members all passed is compared (R406, R407). The GLUN and BLOCK of a whole-row finding are left open: free values. DESIGN
CHOICE: the advice of a disagreeing parity names that parity member (log entry 78). -/
def scrubRowEnd (s : State) (x : Scrub) (r : Nat) : State :=
  let next (s : State) : State := modScrub s x.cid (fun x => { x with rows := x.rows.drop 1, begun := false, bodies := [] })
  let whole (s : State) (kind detail : Nat) : State :=
    let (v, s) := freeVal s
    modScrub s x.cid (fun x => { x with finds := x.finds ++ [{ row := r, member := 0xFF, kind := kind, cwx := 0xFF, step := 0,
                                                               glun := v % 4096, block := v / 4096 % 4096, detail := detail }] })
  match layoutOf? s x.zid with
  | none => next s
  | some lt =>
    let cb := cbOf (layDie s lt)
    let gone (i : Nat) : Nat := ((List.range (width lt)).filter (fun j => (tget? x.bodies (64 * j + i)).isNone)).length
    if (List.range cb).any (fun i => decide (lt.m < gone i)) then
      next (modScrub (whole s 6 0) x.cid (fun x => { x with unrecov := x.unrecov + 1 }))
    else if (List.range cb).all (fun i => decide (gone i = 0)) then
      match parityOff lt cb x.bodies with
      | some (p, _, o) =>
        let s := modScrub (whole s 5 o) x.cid (fun x => { x with mismatch := x.mismatch + 1 })
        next (match loc? s x.zid (lt.k + p) with
          | some l => advise s x.zid l.1 l.2 3
          | none => s)
      | none => next s
    else next s

/-- A scrub goes on: a row ends, the next begins. -/
def scrubStep (s : State) (cid : Nat) : State :=
  let s := match scrub? s cid with
    | some x => (match x.rows with
      | r :: _ => if x.begun && decide (x.want = 0) then scrubRowEnd s x r else s
      | [] => s)
    | none => s
  match scrub? s cid with
  | some x => (match x.rows with
    | r :: _ => if x.begun then s else scrubRow s x r
    | [] => s)
  | none => s

/-- Every scrub goes on. -/
def kickScrubs (s : State) : State := (s.age.scrubs.map (fun x => x.cid)).foldl scrubStep s

/-! ### Waiting for leases -/

/-- Lease code of an opcode, and the ticks that a command waits for its leases. -/
def leaseCode (c : Cmd) : Nat := if opc c = 0x22 then 4 else 3
def leaseWait (c : Cmd) : Nat := (if opc c = 0x22 then cP1 c else cP0 c) % 2 ^ 32

/-- A command asks for its leases, or goes on waiting for them. -/
def askLeases (s : State) (c : Cmd) : State :=
  match takeLeases s (leaseGroups s c) (leaseCode c) c.cid with
  | some s =>
    let q := quadOf ((leaseGroups s c).headD 0 / 512)
    let s := if opc c = 0x22 then sweepBegin (bump s (regQdMneWork q) 15 0 1) c.cid ((leaseGroups s c).headD 0) else scrubBegin s c
    modCmd s c.cid (fun c => { c with stage := .running })
  | none => modCmd s c.cid (fun c => match c.stage with
    | .waitLease _ => c
    | _ => { c with stage := .waitLease s.tick })

/-- Commands that wait for leases ask again, in the order of their fetch. -/
def retryLeases (s : State) : State :=
  (s.cmds.filter (fun c => match c.stage with | .waitLease _ => true | _ => false)).foldl askLeases s

/-- LEASE_WAIT_EXPIRY (R401, R405): the wait has passed; the command ends with MAINT_BUSY, the first held group and its
lease code. -/
def leaseExpiry (s : State) (cid : Nat) : State :=
  match cmd? s cid with
  | none => s
  | some c =>
    match c.stage with
    | .waitLease since =>
      if due s since (leaseWait c) then
        match (leaseGroups s c).find? (fun b => (bgLease s b).isSome) with
        | some b => finish s cid { status := stMaintBusy, state := 0x50 + ((bgLease s b).getD (0, 0)).1, ra := b }
        | none => askLeases s c
      else s
    | _ => s

/-! ### Calibration (R397, R401 to R404) -/

/-- CALIBRATE. -/
def calibrate (s : State) (cid : Nat) : State :=
  start s cid 0x22 (fun s c => if ageOn s then askLeases s c else finish s cid (res stConflict))

/-- The groups that wait for their automatic calibration take their lease; one whose lease is held waits for the next
patrol visit (R397). -/
def kickAuto (s : State) : State :=
  (s.age.auto.map (fun p => p.1)).foldl (fun s bg =>
    let (id, s) := fresh { s with age := { s.age with auto := terase s.age.auto bg } }
    match takeLeases s [bg] 4 id with
    | some s => sweepBegin (bump s (regQdMneWork (quadOf (bg / 512))) 15 0 1) id bg
    | none => s) s

/-- The summed weight of level `i` under shift `d`. -/
def sweepSum (ws : List (Nat × Int × Nat)) (i : Nat) (d : Int) : Nat :=
  ((ws.filter (fun w => decide (w.1 = i) && decide (w.2.1 = d))).map (fun w => w.2.2)).sum

/-- best[i] of R402: the lowest sum, the smaller |d| and then the negative d on a tie; 0 for a level that was not swept. -/
def sweepBest (ws : List (Nat × Int × Nat)) (st i : Nat) : Int :=
  if ws.any (fun w => w.1 = i) then
    ([-(st : Int), st, -(2 * st : Int), 2 * st].foldl (fun (acc : Int × Nat) d =>
      let x := sweepSum ws i d; if x < acc.2 then (d, x) else acc) (0, sweepSum ws i 0)).1
  else 0

/-- The 80-byte summary of R404. -/
def calSummary (bg mask wls st base : Nat) (old new : List Byte) (gains : List Nat) : List Byte :=
  leBytes 4 bg ++ leBytes 1 mask ++ leBytes 1 wls ++ leBytes 1 st ++ zeros 1 ++ leBytes 4 (min (2 ^ 32 - 1) base) ++ zeros 4 ++
  old ++ new ++ gains.flatMap (leBytes 2)

/-- CALIBRATION_SWEEP_DONE: with its last word line read, the sweep of a group ends: CORR, LOAD and CAL_TICK in its record, the summary,
the lease (R402, R404). -/
def sweepDone (s : State) (cid : Nat) : State :=
  match (sweep? s cid).filter sweepOver with
  | none => s
  | some w =>
    let st := sweepShift s
    let none_ := decide (w.count = 0)
    let best (i : Nat) : Int := sweepBest w.sums st i
    let old := slice (arOf s w.bg) 0x10 16
    let new := (List.range 16).map (fun i => BitVec.ofNat 8 (ofSbyte (sat8 (sbyte (old.getD i 0).toNat + best i))))
    let gains := (List.range 16).map (fun i => min 65535 (sweepSum w.sums i 0 - sweepSum w.sums i (best i)))
    let s := if none_ then s else
      arFlush (arMod s w.bg (fun r =>
        putBytes (putBytes (putBytes (putBytes r 0x10 new) 0x20 (leBytes 4 0)) 0x08 (leBytes 8 (timeline s))) 0x06
          (leBytes 2 (satAdd 65535 (fieldAt r 0x06 2) 1)))) w.bg
    let s := freeLeases s cid
    match cmd? s cid with
    | some c =>
      finish (writeOut s c (cPtr c) (calSummary w.bg w.mask w.count st w.base0 old new gains) 3) cid { status := stOk, ra := w.bg, rb := 80 }
    | none => s

/-! ### Scrub (R405 to R408) -/

/-- SCRUB_RANGE. -/
def scrubRange (s : State) (cid : Nat) : State :=
  zoneStart s cid 0x20 (fun s c =>
    if (zone s (cZid c)).wp ≤ cOff c then finish s cid (res stBeyond)
    else
      let r := scrubRows s c
      askLeases (modCmd s cid (fun c => { c with acc := [r.1, r.2.1, b2n r.2.2, (scrubbed s c).length] })) c)

/-- A finding as 16 bytes. -/
def findingBytes (f : Finding) : List Byte :=
  leBytes 2 f.row ++ leBytes 1 f.member ++ leBytes 1 f.kind ++ leBytes 1 f.cwx ++ leBytes 1 f.step ++ leBytes 2 0 ++
  leBytes 2 f.glun ++ leBytes 2 f.block ++ leBytes 4 f.detail

/-- SCRUB_RANGE_DONE (R407): with its last row read, the summary and the findings go to SoC memory. LAST_ROW of a scrub without a row
is a free value. -/
def scrubDone (s : State) (cid : Nat) : State :=
  match cmd? s cid, (scrub? s cid).filter (fun x => x.rows.isEmpty) with
  | some c, some x =>
    let n := c.acc.getD 3 0
    let (v, s) := freeVal s
    let last := if c.acc.getD 1 0 < c.acc.getD 0 0 ∨ n = 0 then v % 65536 else c.acc.getD 1 0
    let w := x.finds.take 256
    let flags := 2 * c.acc.getD 2 0 + b2n (decide (256 < x.finds.length))
    let s := if x.finds.any (fun f => decide (f.kind = 5) || decide (f.kind = 6)) then ageFlag s 7 else s
    let bytes := leBytes 4 x.zid ++ leBytes 2 (c.acc.getD 0 0) ++ leBytes 2 last ++ leBytes 4 x.codewords ++ leBytes 4 x.heavy ++
      leBytes 4 x.failed ++ leBytes 2 x.mismatch ++ leBytes 2 x.unrecov ++ leBytes 2 w.length ++ leBytes 1 flags ++ zeros 5 ++
      w.flatMap findingBytes
    finish (writeOut (freeLeases s cid) c (cPtr c) bytes 3) cid { status := stOk, ra := n, rb := 32 + 16 * w.length }
  | _, _ => s

/-! ### Patrol (R409 to R411) -/

/-- A block group holds a programmed LUN-block. -/
def bgProgrammed (s : State) (bg : Nat) : Bool := (List.range 8).any (fun i => decide (subF s (bg / 512) (bg % 512 * 8 + i) 0 8 ≠ 0))

/-- The next block group of a quadrant that patrol comes to, from a BG on; it wraps at the end. -/
def nextPatrol (s : State) (q from_ : Nat) : Option Nat :=
  let luns := (s.luns.map (fun p => p.1)).filter (fun g => quadOf g = q)
  let groups (g : Nat) : List Nat := (List.range ((dmBpp (dieOf s g) + 7) / 8)).map (fun i => g * 512 + i)
  let ahead := luns.findSome? (fun g => (groups g).find? (fun b => decide (from_ ≤ b) && bgProgrammed s b))
  match ahead with
  | some b => some b
  | none => luns.findSome? (fun g => (groups g).find? (bgProgrammed s))

/-- The zone whose member lies at a LUN-block. -/
def zoneAt? (s : State) (g b : Nat) : Option Nat :=
  s.groups.findSome? (fun p => ((membersAt s p.1 (fun l => l = (g, b))).head?).map (fun x => x.1))

/-- The row header that codeword 0 of a word line must carry, where the block knows what stands there: a member's chunk, or a live
extent; 0 where it does not. With it, whether the codeword is one of a parity member (R237, R606). -/
def headerAt (s : State) (g b wl : Nat) : Option Nat × Bool :=
  let member := s.groups.findSome? (fun p => (membersAt s p.1 (fun l => l = (g, b))).head?)
  match member with
  | some (z, j) => (some (rowHdr 0 j wl z (zone s z).wseq 0 0 0), ((layoutOf? s z).map (fun lt => decide (lt.k ≤ j))).getD false)
  | none =>
    ((s.extents.findSome? (fun x =>
      let cbs := ((stgLayout s x.fg x.set).map (fun lt => cbsOf (layDie s lt))).getD 1
      ((stgSet s x.fg x.set).findIdx? (fun l => l = (g, b))).bind (fun copy =>
        if x.wl ≤ wl ∧ wl < x.wl + x.nwl ∧ (wl - x.wl) * cbs ≤ x.count then some (rowHdr 1 copy x.row x.zid x.wseq 0 0 0) else none))), false)

/-- The reads of a visit: codeword 0 of word line 0 and of LAST_WL of every programmed LUN-block that is not retired. -/
def patrolReads (s : State) (bg : Nat) : State :=
  let g := bg / 512
  let d := kindDeadline s .m none
  let bs := ((List.range 8).map (fun i => bg % 512 * 8 + i)).filter (fun b => decide (subF s g b 0 8 ≠ 0) && !(retiredBlock s g b) && !(underErase s g b))
  bs.foldl (fun s b =>
    (dedupNat [0, subF s g b 0x0E 2]).foldl (fun s wl =>
      let h := headerAt s g b wl
      addItem s { id := 0, kind := .m, deadline := d.1, real := d.2, share := some 2, glun := g, block := b, wl := wl, page := 0, cw := 0,
                  slc := subFlag s g b 2, use := [.patrol bg], header := h.1, parity := h.2, gen := genNow s }) s) s

/-- Ticks between the visits of a maintenance engine that bring it to each of its groups once in GLB_AGE_PATROL.PERIOD hours (R409). -/
def patrolEvery (s : State) (q : Nat) : Nat :=
  let groups := ((s.luns.map (fun p => p.1)).filter (fun g => quadOf g = q)).map (fun g =>
    ((List.range ((dmBpp (dieOf s g) + 7) / 8)).filter (fun i => bgProgrammed s (g * 512 + i))).length)
  max 1 (rdf s regGlbAgePatrol 15 0) * 360000000000 / max 1 groups.sum

/-- The next visit of a maintenance engine has come. -/
def patrolDue (s : State) (q : Nat) : Bool :=
  match tget? s.age.patrolAt q with | some t => due s t (patrolEvery s q) | none => true

/-- PATROL_VISIT (R397, R409, R410): the next block group is visited, or skipped. -/
def patrolVisit (s : State) (q : Nat) : State :=
  let furl := decide (s.pwr.step = .patrol)
  let left := tget s.pwr.visits q 0
  if ageOn s && bit (rd s regGlbAgeCtrl) 29 && (if furl then decide (0 < left) && !s.memHold else decide (rdf s regPwrState 1 0 ≤ 1) && patrolDue s q) then
    match nextPatrol s q (tget s.age.patrol q 0) with
    | none => { s with pwr := { s.pwr with visits := tset s.pwr.visits q 0 } }
    | some bg =>
      let s := { s with
        age := { s.age with patrol := tset s.age.patrol q (bg + 1), patrolAt := tset s.age.patrolAt q s.tick },
        pwr := { s.pwr with visits := if furl then tset s.pwr.visits q (left - 1) else s.pwr.visits } }
      let g := bg / 512
      if lunFailed s g || !(chanUp s (chOf g)) || (bgLease s bg).isSome then s
      else
        let cal := rdf s regGlbAgeLoad 31 16
        let s := if decide (cal ≠ 0) && decide (cal ≤ fieldAt (arOf s bg) 0x20 4) && bit (rd s regGlbAgeCtrl) 30 then
            { s with age := { s.age with auto := tset s.age.auto bg () } }
          else s
        patrolReads (bump s (regQdMneWork q) 31 16 1) bg
  else if furl ∧ left ≠ 0 ∧ !(ageOn s && bit (rd s regGlbAgeCtrl) 29) then
    { s with pwr := { s.pwr with visits := tset s.pwr.visits q 0 } }
  else s

/-- FURL_PATROL_HOLD_EXPIRY (R411). -/
def patrolHold (s : State) (q : Nat) : State :=
  match s.pwr.heldAt with
  | none => s
  | some t =>
    if decide (s.pwr.step = .patrol) && s.memHold && due s t (1000 * rdf s regGlbAgeFurl 15 0) &&
        decide (0 < tget s.pwr.visits q 0 ∨ s.items.any (fun i => quadOf i.glun = q)) then
      let mine (i : Item) : Bool := decide (quadOf i.glun = q) && i.use.all (fun u => match u with | .patrol _ => true | _ => false)
      let gone := (s.items.filter mine).map (fun i => i.id)
      let strip (o : Op) : Op := if o.phase = .waiting then { o with cws := o.cws.filter (fun x => !(gone.contains x.2.2)) } else o
      let ops := (s.ops.map strip).filter (fun o => !(decide (o.type = .read) && decide (o.phase = .waiting) && o.cws.isEmpty))
      ageFlag { s with
        items := s.items.filter (fun i => !(mine i)), ops := ops,
        pwr := { s.pwr with visits := tset s.pwr.visits q 0 } } 6
    else s

/-- QD_MNE_STATE (R416). -/
def mneState (s : State) (q : Nat) : Nat :=
  let has (code : Nat) : Bool := s.age.leases.any (fun p => decide (p.2.1 = code) && decide (quadOf (p.1 / 512) = q))
  let pat := s.items.any (fun i => decide (quadOf i.glun = q) && i.use.any (fun u => match u with | .patrol _ => true | _ => false))
  b2n pat * 2 ^ 31 + b2n (has 4) * 2 ^ 30 + b2n (has 3) * 2 ^ 29 + tget s.age.patrol q 0 % 2 ^ 21

end Sys2Proof.Machine
end

