-- ==== Sys2Proof/Machine/Raw.lean ====
section
/-! DEFINITION. Raw passthrough, write protection and the option-area key (chapter Channel Sequencers and NAND Operations,
R172 to R189). -/

namespace Sys2Proof.Machine

/-! ### Write protection (R172 to R175) -/

/-- WP_SET: the 128 registers change at once (R173). -/
def wpSet (s : State) (cid : Nat) (mp : PortEnd) : State :=
  start s cid 0x48 (fun s c => imageEnd s c 512 mp (fun s =>
    let img := dramRead s (cPtr c) 512
    let s := (List.range 128).foldl (fun s i => wr s (regWpMask i) (fieldAt img (4 * i) 4)) s
    finish s cid { status := stOk, ra := oneBits img }))

/-- LUN-blocks 0 to 7 of an option-area LUN (R176). -/
def inOa (g b : Nat) : Bool := decide (g % 1024 = 0) && decide (b < 8)

/-- WP_N of a channel stands high: one of its 128 LUNs has its bit clear, or an unlocked copy lies on it (R172, R175). -/
def wpHigh (s : State) (c : Nat) : Bool :=
  (List.range 4).any (fun i => decide (rd s (regWpMask (4 * c + i)) ≠ 2 ^ 32 - 1)) ||
  decide (s.boot.unlock.map (fun n => 8 * n) = some c)

/-- The pin of a channel follows its rule: a required fall waits while a program or erase of the channel is busy or
suspended (R175). -/
def wpPin (s : State) (c : Nat) : State :=
  let high := wpHigh s c
  let busy := s.ops.any (fun o => decide (chOf o.glun = c) && decide (o.type ≠ .read) && opInArray o)
  if high || !busy then { s with buses := tmod s.buses c {} (fun b => { b with wpn := high }) } else s

/-! ### The option-area key (R178, R179) -/

/-- A first key value arms the unlock of its copy. -/
def oaFirst (s : State) (v : Nat) : State :=
  if v / 4 = 0x0A5E0000 / 4 then { s with boot := { s.boot with key := some (v % 4), keyAt := s.tick, armed := true } } else s

/-- The second write: the right key of the same copy, in time, unlocks the copy and relocks any other; a wrong or a late one
leaves the area locked. -/
def oaSecond (s : State) (n v : Nat) : State :=
  let good := s.boot.armed && decide (v = 0xF5A10000 + n) && decide (s.tick < s.boot.keyAt + 1000)
  let s := { s with boot := { s.boot with key := none, armed := false } }
  if good then { s with boot := { s.boot with unlock := some n, openAt := s.tick } } else wpFlag s 1

/-- The key window of 1,000 ticks ends without a second write: a second write that still comes is late. -/
def oaWindow (s : State) : State :=
  if s.boot.armed && due s s.boot.keyAt 1000 then { s with boot := { s.boot with armed := false } } else s

/-- The area is relocked. -/
def oaRelock (s : State) : State := { s with boot := { s.boot with key := none, armed := false, unlock := none } }

/-- An unlocked copy relocks after a second. -/
def oaExpire (s : State) : State :=
  if s.boot.unlock.isSome && due s s.boot.openAt 100000000 then { s with boot := { s.boot with unlock := none } } else s

/-- A write to WP_OA_UNLOCK: relock, or a key. A relock that stands in the place of a second key is a wrong one (R178, R179). -/
def oaWrite (s : State) (v : Nat) : State :=
  if v = 0 then oaRelock (if s.boot.key.isSome then wpFlag s 1 else s)
  else match s.boot.key with
    | some n => if !(s.boot.armed) && decide (v / 4 = 0x0A5E0000 / 4) then oaFirst s v else oaSecond s n v
    | none => oaFirst s v

/-! ### Refusals (R189) -/

/-- A run of LUN-blocks holds something of the block's: zones, staging, spares or the journal. -/
def rawHeld (s : State) (g a n : Nat) : Bool :=
  (hitsLayouts s g a n || hitsSpares s g a n || hitsWindows s g a n) && !(lunFailed s g)

/-- May a raw program or erase of a ring touch a LUN-block of the option area (R177, R180)? -/
def oaOpen (s : State) (c : Cmd) (g : Nat) : Bool := decide (s.boot.unlock = some (g / 1024)) && decide (c.ring = 0)

/-- A raw command is refused without flash access. -/
def rawRefuse (s : State) (cid g : Nat) (r : Result) : State := finish (csqFlag s (chOf g) 3) cid r

/-- A raw command to a LUN on a FENCED channel (R222). DEDUCED: it comes before the refusals of R189 (log entry 73). -/
def rawFenced (s : State) (g : Nat) : Bool := decide (rdf s (regPhyState (chOf g)) 1 0 = 3)

/-- Its result: no flash access has been made. -/
def fencedResult (g b : Nat) : Result := placeFail stFenced 0 g b 0

/-- BLOCK, WL, PAGE, CW, MODE, SLC and LEVELS of PARAM1 (R182). DESIGN CHOICE: a BLOCK or WL beyond the LUN's model is refused by no rule:
the command runs with the address that it names (log entry 73). -/
def rawBlock (c : Cmd) : Nat := bits (cP1 c) 11 0
def rawWl (c : Cmd) : Nat := bits (cP1 c) 20 12
def rawPage (c : Cmd) : Nat := bits (cP1 c) 24 21
def rawCw (c : Cmd) : Nat := bits (cP1 c) 26 25
def rawMode (c : Cmd) : Nat := bits (cP1 c) 33 32
def rawSlc (c : Cmd) : Bool := bit (cP1 c) 34
def rawLevels (c : Cmd) : Nat := bits (cP1 c) 47 40
def rawGlun (c : Cmd) : Nat := cP0 c % 4096

/-- Deadline and share of raw work: kind X (R362). -/
def rawWork (s : State) (c : Cmd) : Work :=
  let d := kindDeadline s .x c.deadline
  { kind := .x, deadline := d.1, real := d.2, share := some 3, gen := c.gen }

/-! ### RAW_READ (R183) -/

/-- Bytes that one codeword of a raw command takes in DRAM. -/
def rawBytes (c : Cmd) : Nat := if rawMode c = 0 then 4120 else 4648

/-- Free values in place of the offset set of a step that the spec does not name (R182, log entry 21). -/
def freeSet : Nat → State → State × List Int
  | 0, s => (s, [])
  | n + 1, s =>
    let (v, s) := freeVal s
    let (s, l) := freeSet n s
    (s, sbyte (v % 256) :: l)

/-- RAW_READ: its codewords are read as others are, at the one step that LEVELS names. -/
def rawRead (s : State) (cid : Nat) : State :=
  start s cid 0x41 (fun s c =>
    let g := rawGlun c
    let n := rawLevels c
    if rawFenced s g then finish s cid (fencedResult g (rawBlock c))
    else if underErase s g (rawBlock c) then rawRefuse s cid g (placeFail stErasing 0 g (rawBlock c) (rawWl c))
    else
      let d := dieOf s g
      let at0 := rawPage c * dmCwpp d + rawCw c
      let (s, base) := if 0x11 < n then freeSet 16 s else (s, [])
      let w := rawWork s c
      let s := modCmd s cid (fun c => { c with left := cCount c })
      (List.range (cCount c)).foldl (fun s i =>
        addItem s { id := 0, kind := .x, deadline := w.deadline, real := w.real, share := w.share, glun := g, block := rawBlock c,
                    wl := rawWl c, page := (at0 + i) / dmCwpp d, cw := (at0 + i) % dmCwpp d, slc := rawSlc c,
                    use := [.raw cid i (rawMode c)], base := base, level := some n, gen := c.gen }) s)

/-- A RAW_READ with every codeword answered ends. -/
def rawReadSettle (s : State) (cid : Nat) : State :=
  match cmd? s cid with
  | some c =>
    if decide (c.left = 0) && decide (c.stage = .running) then
      match minBy (fun (p : Nat × Result) => p.1) c.badBlks with
      | some p => finish s cid p.2
      | none => finish s cid { status := stOk, ra := rawGlun c, rb := cCount c * rawBytes c }
    else s
  | none => s

/-- A codeword of a RAW_READ goes to SoC memory. -/
def rawGot (s : State) (cid idx g : Nat) (bytes : List Byte) : State :=
  match cmd? s cid with
  | none => s
  | some c =>
    let n := rawBytes c
    let s := modCmd s cid (fun c => { c with left := c.left - 1, mark := c.mark + n })
    match dataSpans s c ((idx + 1) * n) with
    | .error e => rawReadSettle (modCmd s cid (fun c => { c with badBlks := c.badBlks ++ [(idx, loopResult (dataPort g) e)] })) cid
    | .ok spans =>
      let cuts := spanCut 0 spans (n * idx) n
      let withData := (cuts.foldl (fun (p : List (Nat × Nat × Nat × List Byte) × Nat) q =>
        (p.1 ++ [(q.1, q.2.1, q.2.2, slice bytes p.2 q.2.2)], p.2 + q.2.2)) ([], 0)).1
      let w := rawWork s c
      rawReadSettle (startXfer s { port := dataPort g, write := true, clsA := false, grp := 3, deadline := some w.deadline,
                                   real := w.real, purpose := .rawOut cid idx } withData) cid

/-- A codeword of a RAW_READ cannot be delivered (R73, R265). -/
def rawReadFail (s : State) (cid idx st site want : Nat) : State :=
  match cmd? s cid with
  | none => s
  | some c =>
    let r := if st = stFenced then fencedResult (rawGlun c) (rawBlock c)
      else readFail st idx (rawGlun c) (rawBlock c) (rawWl c) site want
    rawReadSettle (modCmd s cid (fun c => { c with left := c.left - 1, badBlks := c.badBlks ++ [(idx, r)] })) cid

/-! ### RAW_PROGRAM and RAW_ERASE -/

/-- A raw program or erase, past its refusals. A program on a LUN-block whose last erase was interrupted follows another erase (R168). -/
def rawOp (s : State) (cid op : Nat) (type : Cmd → OpType) : State :=
  start s cid op (fun s c =>
    let g := rawGlun c
    let b := rawBlock c
    if rawFenced s g then finish s cid (fencedResult g b)
    else if inOa g b && !(oaOpen s c g) then rawRefuse (wpFlag s 0) cid g (res stProtected)
    else if rawHeld s g b 1 then rawRefuse s cid g (res stConflict)
    else if protected? s g then rawRefuse (wpFlag s 0) cid g (res stProtected)
    else
      let w := rawWork s c
      let o : Op := { id := 0, kind := .x, type := type c, glun := g, block := b, wl := if op = 0x42 then rawWl c else 0, slc := rawSlc c,
                      deadline := w.deadline, real := w.real, share := w.share, use := .raw cid }
      if op = 0x42 then queueProg s o else queueOp s o)

/-- RAW_PROGRAM. -/
def rawProgram (s : State) (cid : Nat) : State := rawOp s cid 0x42 (fun c => if rawSlc c then .slc else .prog)

/-- RAW_ERASE. -/
def rawErase (s : State) (cid : Nat) : State := rawOp s cid 0x43 (fun _ => .erase)

/-- A raw program or erase has ended (R188), or its LUN has timed out (R142). -/
def rawEnd (s : State) (cid : Nat) (o : Op) (status : Nat) (timedOut : Bool) : State :=
  if timedOut then
    finish s cid { status := if o.type = .erase then stEraseFail else stProgramFail,
                   rb := o.block * 2 ^ 32 + (if o.type = .erase then 0 else o.wl), detail := o.glun }
  else finish s cid { status := stOk, ra := o.glun, rb := status }

/-! ### RAW_SEQUENCE (R184 to R187) -/

/-- The data counts of the entries of a sequence, cut at its waits and at END. -/
def rsRuns (b : List Byte) (n : Nat) : List Nat :=
  (List.range n).foldl (fun (p : List Nat) i =>
    match rsKind b i with
    | 3 | 4 => p.modifyHead (· + rsValue b i)
    | 0 | 5 | 6 => 0 :: p
    | _ => p) [0]

/-- A sequence keeps R185 with all its COUNT entries. -/
def rsOk (b : List Byte) (n : Nat) : Bool :=
  (List.range n).any (fun i => rsKind b i = 0) && (List.range n).all (fun i => rsKind b i ≤ 6) &&
    decide ((rsRuns b n).sum ≤ 524288) && (rsRuns b n).all (fun x => decide (x ≤ 65536))

/-- A CMD byte that programs, erases or sets a feature stands in the sequence (R189). -/
def rsWrites (b : List Byte) (n : Nat) (d : List Byte) : Bool :=
  (List.range n).any (fun i => decide (rsKind b i = 1) &&
    ([0x1C, 0x20, 0x23].map (fun o => fieldAt d o 1)).contains (rsValue b i % 256))

/-- RAW_SEQUENCE. -/
def rawSequence (s : State) (cid : Nat) (mp : PortEnd) : State :=
  start s cid 0x40 (fun s c => imageEnd s c (8 * cCount c) mp (fun s =>
    let g := rawGlun c
    let b := dramRead s (cPtr c) (8 * cCount c)
    if !(rsOk b (cCount c)) then finish s cid (badField 0x18)
    else if rawFenced s g then finish s cid (fencedResult g 0)
    else if g % 1024 = 0 then rawRefuse s cid g (res stProtected)
    else if rawHeld s g 0 4096 then rawRefuse s cid g (res stConflict)
    else if protected? s g && rsWrites b (cCount c) (dieOf s g) then rawRefuse (wpFlag s 0) cid g (res stProtected)
    else
      let w := rawWork s c
      let (v, s) := freeVal s
      let s := modCmd s cid (fun c => { c with bytes := b, acc := [0, 0, 0], first := v % 256 })
      queueOp s { id := 0, kind := .x, type := .rawSeq, glun := g, block := 0, wl := 0, deadline := w.deadline, real := w.real,
                  share := w.share, use := .raw cid }))

/-- Where the data area of a sequence begins. -/
def rsData (c : Cmd) : Nat := (cPtr c + 8 * cCount c + 63) / 64 * 64

/-- A row-address cycle with the LUN field of the GLUN (R186): cycle `n` carries bits 8n to 8n + 7 of the row address. -/
def lunCycle (d : List Byte) (g n v : Nat) : Nat :=
  let sh := fieldAt d 0x13 1
  (List.range 8).foldl (fun v i =>
    let p := 8 * n + i
    if sh ≤ p ∧ p < sh + 3 then putBits v i i (b2n (bit (g % 8) (p - sh))) else v) (v % 256)

/-- `n` bytes from a die: free values, since what a die answers a sequence is no operand of the command. -/
def freeBytes : Nat → State → State × List Byte
  | 0, s => (s, [])
  | n + 1, s =>
    let (v, s) := freeVal s
    let (s, l) := freeBytes n s
    (s, BitVec.ofNat 8 v :: l)

/-- The sequence ends (R187, R188). -/
def rsEnd (s : State) (o : Op) (c : Cmd) (idx : Nat) (timedOut : Bool) : State :=
  let s := dropOp s o
  let s := if timedOut then resetLun s o.glun else s
  finish s c.cid { status := stOk, ra := o.glun, rb := idx * 2 ^ 16 + b2n timedOut * 2 ^ 8 + c.first }

/-- Where a sequence stands, in `acc` of its command: the next entry, the place in the data area, the row-address cycles since the last
command byte; after them the bytes of the last row address sent. -/
structure RsAt where
  next : Nat
  pos  : Nat
  cyc  : Nat
  row  : List Nat

/-- As `acc` holds it. -/
def rsAt (c : Cmd) : RsAt := { next := c.acc.getD 0 0, pos := c.acc.getD 1 0, cyc := c.acc.getD 2 0, row := c.acc.drop 3 }
def rsKeep (s : State) (cid : Nat) (a : RsAt) : State := modCmd s cid (fun c => { c with acc := a.next :: a.pos :: a.cyc :: a.row })

/-- Entries run up to the next wait or END. -/
def rsRun : Nat → State → Op → Nat → State
  | 0, s, _, _ => s
  | f + 1, s, o, cid =>
    match cmd? s cid with
    | none => s
    | some c =>
      let a := rsAt c
      let i := a.next
      let v := rsValue c.bytes i
      let put (s : State) (l : List Byte) : State := { s with buses := tmod s.buses (chOf o.glun) {} (fun b => { b with bytes := b.bytes ++ l }) }
      let goOn (s : State) (a : RsAt) : State := rsRun f (rsKeep s cid { a with next := i + 1 }) o cid
      match rsKind c.bytes i with
      | 1 => goOn (put s [BitVec.ofNat 8 v]) { a with cyc := 0 }
      | 2 =>
        if rsRow c.bytes i then
          let x := lunCycle (dieOf s o.glun) o.glun a.cyc v
          goOn (put s [BitVec.ofNat 8 x]) { a with cyc := a.cyc + 1, row := (if a.cyc = 0 then [] else a.row) ++ [x] }
        else goOn (put s [BitVec.ofNat 8 v]) a
      | 3 => goOn (put s (dramRead s (rsData c + a.pos) v)) { a with pos := a.pos + v }
      | 4 =>
        let (s, l) := freeBytes v s
        goOn (writeOutAt s (dataPort o.glun) c (rsData c + a.pos) l 3) { a with pos := a.pos + v }
      | 0 => rsEnd (modLun s o.glun (fun l => { l with ran := o.id })) o c i false
      | _ => modOp (rsKeep (modLun s o.glun (fun l => { l with ran := o.id })) cid { a with next := i + 1 }) o.id
          (fun o => { o with phase := .busy, confirm := s.tick })

/-- The spans of data that a part of a sequence takes from its data area. -/
def rsSpans (c : Cmd) : List (Nat × Nat × Nat) :=
  let a := rsAt c
  ((rsSegment c.bytes (cCount c) a.next).1.foldl (fun (p : List (Nat × Nat × Nat) × Nat) i =>
    match rsKind c.bytes i with
    | 3 => (p.1 ++ [(0, rsData c + p.2, rsValue c.bytes i)], p.2 + rsValue c.bytes i)
    | 4 => (p.1, p.2 + rsValue c.bytes i)
    | _ => p) ([], a.pos)).1

/-- A bus phase of a sequence: its LUN's chip enable and volume, then its entries (R186). A failed stream of its data ends it with the
port's status. -/
def rsPhase (s : State) (o : Op) (cid : Nat) (mp : PortEnd) : State :=
  match cmd? s cid with
  | none => s
  | some c =>
    match portEnd (busPut s o.glun []) (dataPort o.glun) (rsSpans c) (if (rsSpans c).isEmpty then .ok else mp) with
    | (s, some r) => finish (resetLun (dropOp s o) o.glun) cid r
    | (s, none) => rsRun 257 s o cid

/-- RAW_WAIT_END (R187): the wait that the sequence stands at ends. WAIT_RDY polls with STATUS and the last row address sent; it times
out once VALUE ticks have passed. The next part of the sequence is admitted on its own (R351). -/
def rawWaitEnd (s : State) (g : Nat) (status : Nat) (timedOut : Bool) : State :=
  match s.ops.find? (fun o => decide (o.glun = g) && decide (o.type = .rawSeq) && decide (o.phase = .busy)) with
  | none => s
  | some o =>
    match o.use with
    | .raw cid =>
      match cmd? s cid with
      | none => s
      | some c =>
        let a := rsAt c
        let i := a.next - 1
        let late := due s o.confirm (rsValue c.bytes i)
        let goOn (s : State) : State :=
          modOp (releaseOp s o) o.id (fun o => { o with phase := .waiting, pages := 1, peak := 0 })
        if rsKind c.bytes i = 5 then
          if (timedOut && !late) || !(busOpen s (chOf g)) then s
          else
            let s := busPut s g (dmByte (dieOf s g) 0x21 :: a.row.map (BitVec.ofNat 8))
            let c := { c with first := status % 256 }
            let s := modCmd s cid (fun _ => c)
            if timedOut then rsEnd s o c i true else goOn s
        else if late then goOn s
        else s
    | _ => s

end Sys2Proof.Machine
end

