-- ==== Sys2Proof/Machine/Codewords.lean ====
section
/-! DEFINITION. Codewords in staging SRAM and in the decoders (chapter Codewords, Decoding and the Read Path): reception, the
erased-page test, the decoder pools, the checks of a decoded codeword, the retry ladder, reconstruction. -/

namespace Sys2Proof.Machine

/-! ### Items -/

/-- An item by number. -/
def item? (s : State) (id : Nat) : Option Item := s.items.find? (fun i => i.id = id)

/-- CWX: the codeword's index within its word line (R229). -/
def cwxOf (s : State) (i : Item) : Nat := i.page * dmCwpp (dieOf s i.glun) + i.cw

/-- An item leaves, with its codewords in reads and its place in a decoder. -/
def dropItem (s : State) (id : Nat) : State :=
  dropSpent { s with
    items := s.items.filter (fun i => i.id ≠ id),
    ops := s.ops.map (fun o => { o with cws := o.cws.filter (fun c => c.2.2 ≠ id) }),
    decs := s.decs.map (fun p => (p.1, { p.2 with busy := p.2.busy.filter (fun d => d.2 ≠ id) })) }

/-- An item expects the codeword of a zone row. -/
def ofRow (i : Item) : Bool := decide (i.header.map hdrKind = some 0)

/-- The zone whose row an item reads. -/
def itemZone (s : State) (i : Item) : Option Nat :=
  if i.use.any (fun u => match u with | .patrol _ => true | _ => false) then zoneAt? s i.glun i.block
  else if ofRow i then some (itemPlace i).1 else none

/-- A step reached is one of the command's (R254). -/
def useSteps (s : State) (uses : List Use) (step : Nat) : State :=
  uses.foldl (fun s u => match u with
    | .blk c _ | .staged c _ _ => modCmd s c (fun c => { c with ladder := max c.ladder step })
    | _ => s) s

/-- The ladder of a codeword has ended at a step (R254, R390, R396): counters of its channel's home pool, load, the
command's highest step. -/
def ladderEnd (s : State) (i : Item) (iters : Nat) (failed : Bool) : State :=
  let p := poolOf (chOf i.glun)
  let n := if i.step < 0x10 then i.step else i.step - 0x10 + 16
  let s := bump s (regDecStepCnt p (n / 2)) (16 * (n % 2) + 15) (16 * (n % 2)) 1
  if i.use.all (fun u => match u with | .raw .. => true | _ => false) then s
  else
    let s := if ofRow i then
        (match itemZone s i with
        | some z => estimate s i.glun i.block (zone s z).wseq
        | none => s)
      else s
    useSteps (addLoad s i.glun i.block (loadPoints i.step iters failed) (itemZone s i)) i.use i.step

/-! ### Reconstruction: survivors that fail (R255 to R261) -/

/-- A codeword's ladder goes on at a step after a reconstruction that was granted is abandoned (R253, R261); a member that has
become unavailable since is not read (R258). -/
def resumeLadder (s : State) (r : Recon) (cid off step : Nat) : State :=
  match layoutOf? s r.zid, loc? s r.zid r.member with
  | some lt, some (g, b) =>
    let w : Work := { kind := .a, deadline := r.deadline, real := r.real, share := none, gen := r.gen }
    if memberOut s r.zid r.member then blkReconOrFail s cid off
    else addNew s { rowItem s w lt r.zid r.row r.member r.cwx g b (.blk cid off) with
      step := step, fails := r.prior, raws := r.raws, wseq := some (zone s r.zid).wseq }
  | _, _ => s

/-- Fewer than k members can serve a reconstruction: a granted one is abandoned, the block fails, the rebuilt row is lost,
or the block of a reshape copy is lost. -/
def reconFails (s : State) (r : Recon) : State :=
  let s := endRecon (dropSurvivors s r.id) r.id
  match r.use with
  | .blk cid off =>
    if r.around then
      resumeLadder s r cid off (r.back.getD 0)
    else blkLost s cid off r.fails
  | .spare fg zid row _ => unitRowLost s fg zid row (lostMembers s zid + r.out.length)
  | .copy fg _ _ blk => copyLost s fg blk
  | .scrub cid => scrubTake s cid r.member r.cwx none

/-- A survivor cannot serve (R257): the next available member replaces it. -/
def survivorOut (s : State) (rid m : Nat) (why : Option Result) : State :=
  match recon? s rid with
  | none => s
  | some r =>
    if r.asked.contains m then
      let s := modRecon s rid (fun r => { r with
        asked := r.asked.filter (fun j => j ≠ m), out := r.out ++ [m], fails := r.fails ++ why.toList })
      match askMore s rid, recon? s rid with
      | some t, _ => t
      | none, some r => reconFails s r
      | none, none => s
    else s

/-- Could another member replace a survivor? -/
def replaceable (s : State) (rid m : Nat) : Bool :=
  match recon? s rid with
  | none => false
  | some r =>
    match layoutOf? s r.zid with
    | some lt => canRecon s lt { r with asked := r.asked.filter (fun j => j ≠ m), out := r.out ++ [m] }
    | none => false

/-- A survivor's codeword is there. -/
def survivorGot (s : State) (rid m : Nat) (body : List Byte) : State :=
  modRecon s rid (fun r => if r.asked.contains m then { r with got := tset r.got m body } else r)

/-! ### A codeword that cannot be used -/

/-- The reconstruction of a row's codeword for a reshape copy; `none` where fewer than k members can serve. -/
def copyRecon (s : State) (i : Item) (fg zid row blk : Nat) : Option State :=
  let p := itemPlace i
  let w := rshWork s
  startRecon s { id := 0, use := .copy fg zid row blk, zid := zid, row := p.2.1, member := p.2.2.1, cwx := p.2.2.2, kind := .h,
                 deadline := w.deadline, real := w.real, share := w.share, asked := [], gen := w.gen }

/-- A copy of a staged block, or a member, does not yield a block of a reshape copy: the next copy, or reconstruction. -/
def copyFail (s : State) (i : Item) (fg zid row blk : Nat) : State :=
  match reshapeLayouts s fg with
  | none => s
  | some (_, new) =>
    if ofRow i then (copyRecon s i fg zid row blk).getD (copyLost s fg blk)
    else copyRead s fg zid (rowBlks s new) blk (bits (i.header.getD 0) 61 56 + 1)

/-- What befalls whoever wants a codeword that has ended with a failure: status, site, expected value (R107, R166, R238, R240, R245,
R257, R265). INTERNAL_CHECK and TARGET_ERASING end a block of a read; a copy of a staged block gives way to the next. -/
def useFail (s : State) (i : Item) (u : Use) (st site want : Nat) : State :=
  let r (off : Nat) : Result := readFail st off i.glun i.block i.wl site want
  match u with
  | .blk cid off =>
    if st = stInternal ∨ st = stErasing then blkFail s cid off (r off)
    else blkReconOrFail (noteFail s cid off (r off)) cid off
  | .staged cid off copy =>
    if st = stInternal then blkFail s cid off (r off)
    else stagedRead (noteFail s cid off (placeFail st off i.glun i.block i.wl)) cid off (copy + 1)
  | .survivor rid m => survivorOut s rid m (some (r 0))
  | .fold rid b copy => foldRead s rid b (copy + 1)
  | .restage sid b copy => restageRead s sid b (copy + 1)
  | .copy fg zid row blk => copyFail s i fg zid row blk
  | .patrol _ =>
    if decide (st ≠ stErased) && countsAsFail (r 0) then
      (match zoneAt? s i.glun i.block with
      | some z => advise s z i.glun i.block 2
      | none => s)
    else s
  | .scrub cid =>
    let p := itemPlace i
    if memberOut s p.1 p.2.2.1 || decide (st = stErasing) || decide (st = stFenced) then scrubTake s cid p.2.2.1 p.2.2.2 none
    else if st = stErased then scrubTake (scrubFind s cid i 3 0) cid p.2.2.1 p.2.2.2 none
    else if st = stUncorrectable then scrubFailed s cid i 2 0
    else scrubFailed s cid i 4 site
  | .sweep id => let (v, s) := freeVal s; sweepGot s id (v % 2 ^ 16)
  | .raw cid idx _ => rawReadFail s cid idx st site want

/-- A codeword of a row whose ladder has failed counts among the losses of its position (R256, R326). -/
def noteUnread (s : State) (i : Item) : State :=
  let p := itemPlace i
  if ofRow i && decide (i.use.any (fun u => match u with | .raw .. => true | _ => false) = false) then
    modGroup s (fgOf s p.1) (fun g => { g with unread := if g.unread.contains p then g.unread else g.unread ++ [p] })
  else s

/-- A codeword's ladder ends with a failure for everyone who wants it. The item stands in no list. -/
def failAll (s : State) (i : Item) (iters st site want : Nat) (failed : Bool) : State :=
  i.use.foldl (fun s u => useFail s i u st site want) (ladderEnd (if failed then noteUnread s i else s) i iters failed)

/-- An item ends where it stands, its ladder neither good nor failed. -/
def itemFail (s : State) (i : Item) (st site want : Nat) : State := failAll (dropItem s i.id) i 0 st site want false

/-! ### The ladder (R250 to R253) -/

/-- The step after a step of the ladder. -/
def stepAfter (rl : List Byte) (step : Nat) : Option Nat :=
  if step < 0x10 then (if step < rlSteps rl then some (step + 1) else some 0x10)
  else if step = 0x10 then some 0x11 else none

/-- Ticks of a failed hard or soft decode (R241). -/
def failTicks (s : State) (gen : Nat) (soft : Bool) : Nat :=
  let c := rdGen s gen regDecCfg
  if soft then scaled s (775 + 60 * (max 1 (bits c 23 16) - 10)) else scaled s (179 + 20 * (max 1 (bits c 31 24) - 8))

/-- Estimated time of the rest of a codeword's ladder, from a step through 0x11 (R253). -/
def restTicks (s : State) (i : Item) (step : Nat) : Nat :=
  let d := dieOf s i.glun
  let rd_ := fieldAt d 0x30 4 + busTicks s i.glun 4648 + (dmByte d 0x2A).toNat * fieldAt d 0x58 2
  let hard := if step < 0x10 then rlSteps (rlOf s i.gen i.glun) + 1 - step else 0
  let soft1 := if step ≤ 0x10 then 3 * rd_ + failTicks s i.gen true else 0
  hard * (rd_ + failTicks s i.gen false) + soft1 + 2 * rd_ + failTicks s i.gen true

/-- Early reconstruction before a step, where it is asked for and granted (R253, R373). -/
def earlyRecon (s : State) (i : Item) (step : Nat) : Option State :=
  let rest := s.tick + restTicks s i step
  if bit (rdGen s i.gen regDecCfg) 11 && i.real && (blkUses i).isSome && decide (i.deadline < rest) &&
      decide (s.tick + tRa s i ≤ i.deadline) && memberTest s i then
    let t := costOf s i.glun
    grantAround s [i] (costF t 0 8 4 + costF t 4 8 4) rest (some step)
  else none

/-- A use for which a codeword does not climb: a survivor of a granted read-around, read with step 0 only (R253, R261); a block whose
member is out of service, or whose channel is not UP or DERATED while the row passes the member test (R220, R258, R263). -/
def leaves (s : State) (i : Item) (u : Use) : Bool :=
  match u with
  | .survivor rid _ => ((recon? s rid).map (fun r => r.around)).getD false
  | .blk cid off =>
    memberOut s (itemPlace i).1 (itemPlace i).2.2.1 ||
      (!(chanUp s (chOf i.glun)) && memberTest s i && (blkRecon s cid off).isSome)
  | .scrub _ => memberOut s (itemPlace i).1 (itemPlace i).2.2.1
  | _ => false

/-- What it does instead. -/
def leave (s : State) (i : Item) (st site want : Nat) (u : Use) : State :=
  match u with
  | .blk cid off => blkReconOrFail s cid off
  | u => useFail s i u st site want

/-- A codeword's next step: early reconstruction where it is granted, else the step's reads. -/
def nextStep (s : State) (i : Item) (n : Nat) : State :=
  match earlyRecon s i n with
  | some t => t
  | none =>
    let j := { i with step := n, reads := 0, raws := if n = 0x11 then i.raws else [], llr := [], stage := .reading, raw := [] }
    let s := trace s (quadOf i.glun) 4 (chOf i.glun) [n, i.glun + 2 ^ 12 * i.wl]
    queueStep { s with items := s.items ++ [j] } j

/-- A codeword climbs to its next step, or its ladder has failed (R250, R252); it cannot climb while its LUN-block is under
erase (R166) or its channel FENCED (R222), and a RAW_READ has its one step (R182). The item stands in no list. -/
def climb (s : State) (i : Item) (iters st site want : Nat) : State :=
  if underErase s i.glun i.block then failAll s i iters stErasing 0 0 false
  else if rawFenced s i.glun then failAll s i iters stFenced 0 0 false
  else if i.level.isSome then failAll s i iters st site want true
  else
    let out := i.use.filter (leaves s i)
    let stay := i.use.filter (fun u => !(leaves s i u))
    let s := out.foldl (leave · i st site want) (if stay.isEmpty then ladderEnd s i iters false else useSteps s out i.step)
    if stay.isEmpty then s
    else
      let i := { i with use := stay }
      match stepAfter (rlOf s i.gen i.glun) i.step with
      | none => failAll s i iters st site want true
      | some n => nextStep s i n

/-! ### Reception (R239, R240, R244, R245) -/

/-- A codeword of a calibration sweep: a hard decoder reports its syndrome weight, and no more is done with it (R402, R403). -/
def sweepOf (i : Item) : Option Nat := i.use.findSome? (fun u => match u with | .sweep id => some id | _ => none)

/-- The erased-page test applies to hard steps and to the centre read of a soft step; a sweep's reads skip it. -/
def erasedTest (i : Item) : Bool := (sweepOf i).isNone && (decide (i.step < 0x10) || (decide (i.step = 0x10) && decide (i.reads = 0)))

/-- RAW_READ under MODE 1 and 2 takes the codeword as it is received, past the test and the decoder (R182, R240). -/
def takesRaw (u : Use) : Bool := match u with | .raw _ _ m => decide (m ≠ 0) | _ => false

/-- An erased codeword (R240). -/
def itemErased (s : State) (i : Item) : State :=
  let low := i.use.any (fun u => match u with | .blk .. => true | _ => false)
  itemFail (if low then decPiFlag s 5 else s) i stErased 0 0

/-- Codewords of a quadrant's pools that wait for a decoder. -/
def waitingDec (s : State) (q : Nat) : List Item := s.items.filter (fun i => decide (i.stage = .staged) && decide (quadOf i.glun = q))

/-- A codeword waits for a decoder; with both pools full its sequencer holds it (R242). -/
def itemStaged (s : State) (i : Item) (raw : List Byte) : State :=
  let (n, s) := fresh s
  let s := if 1024 ≤ (waitingDec s (quadOf i.glun)).length then decFlag s (poolOf (chOf i.glun)) 1 else s
  modItem s i.id (fun i => { i with stage := .staged, raw := raw, queued := n })

/-- The soft input of a step: for each code bit the entry of LLR2 or LLR3 at the number of the reads in which it read 1 (R251). -/
def softInput (t : List Byte) (step : Nat) (reads : List (List Byte)) : List Int :=
  let at_ := if step = 0x10 then 0x16 else 0x1A
  (List.range 37184).map (fun b =>
    sbyte (fieldAt t (at_ + (reads.filter (fun r => bit (r.getD (b / 8) 0).toNat (b % 8))).length) 1))

/-- A codeword of an item that no read of its codeword wants otherwise: the erased-page test, then a place before the decoders, for a
soft step once all its reads are there. -/
def itemTaken (s : State) (i : Item) (raw clear : List Byte) : State :=
  if erasedTest i && decide (zeroBits raw ≤ rdGen s i.gen regDecErased % 65536) then itemErased s i
  else if i.step < 0x10 then itemStaged s i clear
  else
    let raws := i.raws ++ [clear]
    let all := decide ((if i.step = 0x10 then 3 else 5) ≤ raws.length)
    let s := modItem s i.id (fun i => { i with
      reads := i.reads + 1, raws := raws, llr := if all then softInput (rlOf s i.gen i.glun) i.step raws else [] })
    if all then itemStaged s i clear else s

/-- A codeword has arrived in staging SRAM and passed its check. -/
def itemReceived (s : State) (i : Item) (raw : List Byte) : State :=
  let clear := scramble (seedOf i.glun i.block i.wl i.page i.cw) raw
  let s := (i.use.filter takesRaw).foldl (fun s u => match u with
    | .raw cid idx m => rawGot s cid idx i.glun (if m = 2 then raw else clear)
    | _ => s) s
  let i := { i with use := i.use.filter (fun u => !(takesRaw u)) }
  if i.use.isEmpty then dropItem s i.id else itemTaken (modItem s i.id (fun _ => i)) i raw clear

/-- A read with no codeword left leaves its LUN. -/
def endRead (s : State) (id : Nat) : State :=
  match s.ops.find? (fun o => o.id = id) with
  | some o => if o.cws.isEmpty && decide (o.phase = .dataOut) then dropOp s o else s
  | none => s

/-- CODEWORD_RECEIVED (R239): the data-out on a channel ends. A staging-SRAM detection repeats it, the third on one
codeword ends that with INTERNAL_CHECK at site 0x40 (R245). -/
def codewordReceived (s : State) (c : Nat) (raw : List Byte) (detect : Bool) : State :=
  match leavingOp s c with
  | none => s
  | some o =>
    let s := modOp (releaseOp s { o with peak := 0 }) o.id (fun o => { o with leaving := false, vccq := 0 })
    match o.cws with
    | [] => endRead s o.id
    | (_, _, id) :: rest =>
      match item? s id with
      | none => endRead (modOp s o.id (fun o => { o with cws := rest })) o.id
      | some i =>
        if detect && decide (i.strikes < 2) then
          modItem (recoveredAny s 1 c 0) id (fun i => { i with strikes := i.strikes + 1 })
        else
          let s := modOp s o.id (fun o => { o with cws := rest })
          let i := { i with readBy := ((lun? s i.glun).map (fun l => l.ran)).getD 0 }
          let s := if detect then itemFail (unrecoveredAny s 1 c 0) i stInternal 0x40 0
            else itemReceived (modItem s id (fun _ => i)) i (slice raw 0 4648)
          endRead s o.id

/-! ### Decoders (R241, R242) -/

/-- A decoder pool. -/
def decPool (s : State) (p : Nat) : PoolDec := tget s.decs p {}

/-- Decoders of a kind that a pool still has. -/
def decodersOf (s : State) (p : Nat) (soft : Bool) : List Nat :=
  (if soft then [8, 9] else List.range 8).filter (fun d => (tget? (decPool s p).out d).isNone)

/-- Is the item class A (R242)? -/
def classA (i : Item) : Bool := decide (i.kind = .a)

/-- The codewords queued for a kind of decoder in a quadrant, oldest first; at most 1,024 are in its two queues. -/
def decQueue (s : State) (q : Nat) (soft : Bool) : List Item :=
  (((waitingDec s q).mergeSort (fun a b => decide (a.queued ≤ b.queued))).take 1024).filter (fun i => decide (0x10 ≤ i.step) == soft)

/-- Order within a class: deadline, own pool first, older first. -/
def decKey (p : Nat) (i : Item) : Nat := (i.deadline * 2 + (if poolOf (chOf i.glun) = p then 0 else 1)) * 2 ^ 64 + i.queued

/-- Decoders of a kind in a pool that decode class A codewords. -/
def busyA (s : State) (p : Nat) (soft : Bool) : Nat :=
  ((decPool s p).busy.filter (fun b => (decide (8 ≤ b.1) == soft) && ((item? s b.2).map classA).getD false)).length

/-- A pool has an idle decoder of a kind (R21). -/
def idleDec (s : State) (p : Nat) (soft : Bool) : Bool :=
  (decodersOf s p soft).any (fun d => (tget? (decPool s p).busy d).isNone)

/-- A codeword is fetched again after a check failure of the staging SRAM (R245): its data-out is repeated where the LUN has run no
operation since, else the step's reads are made again. -/
def refetch (s : State) (i : Item) : State :=
  let ran := ((lun? s i.glun).map (fun l => l.ran)).getD 0
  let j := { i with stage := .reading, raw := [], reads := 0, llr := [],
                    raws := if i.step = 0x11 then i.raws.take 3 else [] }
  let s := modItem s i.id (fun _ => j)
  if decide (i.step < 0x10) && decide (ran = i.readBy) && lunIdle s i.glun then
    queueOp s { id := 0, kind := i.kind, type := .read, glun := i.glun, block := i.block, wl := i.wl, slc := i.slc,
                bitpage := i.page / dmPlanes (dieOf s i.glun), cws := [(i.page, i.cw, i.id)], deadline := i.deadline, real := i.real,
                share := i.share, phase := .dataOut }
  else queueStep s j

/-- A staging-SRAM detection as a codeword goes to a decoder: the third on one codeword ends it (R245). -/
def stagingCheck (s : State) (i : Item) : State :=
  if i.strikes < 2 then refetch (recoveredAny s 1 (chOf i.glun) 0) { i with strikes := i.strikes + 1 }
  else itemFail (unrecoveredAny s 1 (chOf i.glun) 0) i stInternal 0x40 0

/-- The codeword that an idle decoder of a pool takes next (R21, R242): one of the sister channels only while their home pool has none
idle; class B keeps two hard decoders and one soft decoder of each pool while class B work is queued. -/
def nextDecode (s : State) (p : Nat) (soft : Bool) (n : Nat) : Option Item :=
  let l := (decQueue s (p / 2) soft).filter (fun i => decide (poolOf (chOf i.glun) = p) || !(idleDec s (poolOf (chOf i.glun)) soft))
  let a := minBy (decKey p) (l.filter classA)
  let b := minBy (decKey p) (l.filter (fun i => !(classA i)))
  match a, b with
  | some x, some y => if busyA s p soft + (if soft then 1 else 2) < n then some x else some y
  | some x, none => some x
  | none, y => y

/-- DECODE_START (R21, R242): a free decoder of the pool takes the codeword that comes next. A pool whose domain is gated takes none
(R528). -/
def decodeStart (s : State) (p : Nat) (soft detect : Bool) : State :=
  let ds := if domOn s (64 + p) then decodersOf s p soft else []
  match ds.find? (fun d => (tget? (decPool s p).busy d).isNone), nextDecode s p soft ds.length with
  | some d, some i =>
    if detect then stagingCheck s i
    else
      let s := modItem s i.id (fun i => { i with stage := .decoding p d })
      { s with decs := tmod s.decs p {} (fun x => { x with busy := tset x.busy d i.id }) }
  | _, _ => s

/-! ### The checks of a decoded codeword (R236 to R238, R602, R606) -/

/-- DEC_HDR_LOG of a failed check. -/
def hdrLog (s : State) (i : Item) (site : Nat) : State :=
  wr (wr s regDecHdrLog0 (2 ^ 31 + i.block * 2 ^ 16 + i.glun)) regDecHdrLog1 (site * 2 ^ 24 + i.wl * 2 ^ 8 + cwxOf s i)

/-- A failed check noted: MISCORRECT or HDR_MISMATCH, and the log. -/
def noteCheck (s : State) (i : Item) (site : Nat) : State := hdrLog (decPiFlag s (if site = 0x32 then 3 else 2)) i site

/-- The row header of a decoded codeword is not the one expected (R237). -/
def badHeader (i : Item) (hdr : Nat) : Bool := match i.header with | some w => !(hdrMatch w hdr) | none => false

/-- The checks of a read of the block's own (R606), or of a reconstruction's survivor: status, site, expected value. -/
def ownCheck (i : Item) (body : List Byte) (hdr : Nat) : Option (Nat × Nat × Nat) :=
  if !(i.parity) && !(hdrPoison hdr) && !(guardOk body) then some (stGuard, 0x30, crc64 (bodyData body))
  else if badHeader i hdr then some (stHeader, 0x32, i.header.getD 0)
  else none

/-- The checks of a read for a command (R236, R237). -/
def cmdCheck (s : State) (i : Item) (cid off : Nat) (body : List Byte) (hdr : Nat) : Option (Nat × Nat × Nat) :=
  match (cmd? s cid).bind (fun c => outCheck c off body) with
  | some f => some (f.1, 0x30 + f.2.1, f.2.2)
  | none => if badHeader i hdr then some (stHeader, 0x32, i.header.getD 0) else none

/-- A body with the content of a poisoned block where its header says so. -/
def ownBody (body : List Byte) (hdr : Nat) : List Byte := if hdrPoison hdr then poisonBody else body

/-- A pad on a row read is an erasure without a failed check (R237, R256, R258). -/
def usePad (s : State) (i : Item) (u : Use) : State :=
  match u with
  | .blk cid off => blkReconOrFail s cid off
  | .survivor rid m => survivorOut s rid m none
  | .scrub cid => scrubTake s cid (itemPlace i).2.2.1 (itemPlace i).2.2.2 none
  | u => useFail s i u stUncorrectable 0 0

/-- A decoded codeword for a block of a read, from its member or from a copy in staging. A member's failed check goes to reconstruction
and climbs the ladder where none serves it (R238, R250); a copy has its full ladder before the next (R107). -/
def blkGot (s : State) (i : Item) (cid off : Nat) (staged : Bool) (body : List Byte) (hdr : Nat) : State × Took :=
  let r (st site want : Nat) : Result :=
    if staged then placeFail st off i.glun i.block i.wl else readFail st off i.glun i.block i.wl site want
  if hdrPoison hdr then (blkFail s cid off (readFail stGuard off i.glun i.block i.wl 0x33 (crc64 (bodyData body))), .done)
  else
    match cmdCheck s i cid off body hdr with
    | none => blkBody s cid off i.glun body false
    | some f =>
      let s := noteFail (noteCheck s i f.2.1) cid off (r f.1 f.2.1 f.2.2)
      match (if staged then none else blkRecon s cid off) with
      | some t => (t, .done)
      | none => (s, .failed f.1 f.2.1 f.2.2)

/-- A decoded codeword for a read of the block's own: what it does with a good one, and what serves a bad one in its place; with
nothing to serve it, it climbs its ladder (R250, R606). -/
def ownGot (s : State) (i : Item) (body : List Byte) (hdr : Nat) (good : State → State) (bad : State → Option State) : State × Took :=
  match ownCheck i body hdr with
  | none => (good s, .done)
  | some f =>
    let s := noteCheck s i f.2.1
    match bad s with
    | some t => (t, .done)
    | none => (s, .failed f.1 f.2.1 f.2.2)

/-- A decoded codeword for one of those who want it: it is used, it waits for the first tag of its command, or its check failed and no
reconstruction serves it, so that it climbs the ladder for this one. -/
def useGot (s : State) (i : Item) (u : Use) (body : List Byte) (hdr : Nat) : State × Took :=
  if ofRow i && hdrPad hdr && (match u with | .raw .. | .patrol _ => false | _ => true) then (usePad s i u, .done)
  else
    match u with
    | .blk cid off => blkGot s i cid off false body hdr
    | .staged cid off _ => blkGot s i cid off true body hdr
    | .survivor rid m => ownGot s i body hdr (fun s => survivorGot s rid m (ownBody body hdr)) (fun s =>
        if leaves s i u || replaceable s rid m then
          (ownCheck i body hdr).map (fun f => survivorOut s rid m (some (readFail f.1 0 i.glun i.block i.wl f.2.1 f.2.2)))
        else none)
    | .fold rid b _ => ownGot s i body hdr (fun s => foldGot s rid b i.glun body (hdrPoison hdr)) (fun _ => none)
    | .restage sid b _ => ownGot s i body hdr (fun s => restageGot s sid b i.glun body (hdrPoison hdr)) (fun _ => none)
    | .copy fg zid r blk => ownGot s i body hdr (fun s => copyGot s fg zid r blk i.glun body (hdrPoison hdr))
        (fun s => if ofRow i then copyRecon s i fg zid r blk else none)
    | .patrol _ => ownGot s i body hdr (fun s => s) (fun _ => none)
    | .scrub cid => ownGot s i body hdr (fun s => scrubGot s cid i body)
        (fun s => (ownCheck i body hdr).map (fun f => scrubFailed s cid i 4 f.2.1))
    | .sweep _ => (s, .done)
    | .raw cid idx _ => (rawGot s cid idx i.glun (body ++ leBytes 8 hdr), .done)

/-- How those who want a decoded codeword have taken it: who still waits for a tag, and for whom it climbs. -/
structure Taken where
  s     : State
  hold  : List Use := []
  climb : List (Use × (Nat × Nat × Nat)) := []

/-- The next of them takes it. -/
def takeNext (i : Item) (body : List Byte) (hdr : Nat) (t : Taken) (u : Use) : Taken :=
  match useGot t.s i u body hdr with
  | (s, .done) => { t with s := s }
  | (s, .hold) => { t with s := s, hold := t.hold ++ [u] }
  | (s, .failed st site want) => { t with s := s, climb := t.climb ++ [(u, (st, site, want))] }

/-- A decoded codeword: those who want it take it in turn. Where some wait for the first tag of their command, it stays in staging SRAM
for them (R244); where some cannot use it, it climbs the ladder for them. -/
def decoded (s : State) (i : Item) (out : List Byte) (iters : Nat) : State :=
  let s := useSteps (dropItem s i.id) i.use i.step
  let t := i.use.foldl (takeNext i (slice out 0 4112) (fieldAt out 4112 8)) { s := s }
  let s := if t.hold.isEmpty then t.s
    else { t.s with items := t.s.items ++ [{ i with use := t.hold, stage := .held iters, raw := out }] }
  match t.climb with
  | [] => if t.hold.isEmpty then ladderEnd s i iters false else s
  | (_, f) :: _ =>
    let (id, s) := if t.hold.isEmpty then (i.id, s) else fresh s
    climb s { i with id := id, use := t.climb.map (fun p => p.1) } iters f.1 f.2.1 f.2.2

/-- A use waits for the first tag of its command. -/
def stillHeld (s : State) (u : Use) : Bool :=
  match u with
  | .blk cid off | .staged cid off _ => ((cmd? s cid).map (fun c => tagAwaited s c off)).getD false
  | _ => false

/-- Codewords that waited for the first tag of their command go on once it is known (R236), and reconstructed bodies with them. -/
def releaseHeld (s : State) : State :=
  let s := s.items.foldl (fun s i =>
    match i.stage with
    | .held iters => if i.use.all (stillHeld s) then s else decoded s i i.raw iters
    | _ => s) s
  s.cmds.foldl (fun s c => (heldBlks s c).foldl (fun s b =>
    match blkBody s c.cid b.off (blkPlace s (cZid c) b.off).2.2.2.1 b.body true with
    | (s, .failed st site want) =>
      let p := blkPlace s (cZid c) b.off
      blkFail s c.cid b.off (readFail st b.off p.2.2.2.1 p.2.2.2.2 p.1 (0x38 + site) want)
    | (s, _) => s) s) s

/-- Iterations of a hard or a soft decode before it fails: DEC_CFG.HARD_ITER or SOFT_ITER, 0 acting as 1 (R241). -/
def iterLimit (s : State) (gen : Nat) (soft : Bool) : Nat :=
  let c := rdGen s gen regDecCfg
  max 1 (if soft then bits c 23 16 else bits c 31 24)

/-- DECODE_DONE (R241): the decoder's result is a codeword exactly when no check is unsatisfied. Of a sweep's codeword the weight before
the first iteration is taken (R402). -/
def decodeDone (s : State) (p d : Nat) (out : List Byte) (iters : Nat) (detect : Bool) : State :=
  match (tget? (decPool s p).busy d).bind (item? s) with
  | none => s
  | some i =>
    let s := { s with decs := tmod s.decs p {} (fun x => { x with busy := terase x.busy d }) }
    let soft := decide (0x10 ≤ i.step)
    let iters := min iters (iterLimit s i.gen soft)
    if detect then
      if i.dstrikes = 0 then
        modItem (recoveredAny (decFlag s p 0) 5 (p * 10 + d) 0) i.id (fun i => { i with stage := .staged, dstrikes := 1 })
      else itemFail (unrecoveredAny s 5 (p * 10 + d) 0) i stInternal 0x42 0
    else if let some id := sweepOf i then sweepGot (dropItem s i.id) id (unsat (codeOf s (50 + p) i.gen) i.raw)
    else
      let n := unsat (codeOf s (50 + p) i.gen) (slice out 0 4648)
      if n = 0 then decoded s i (slice out 0 4648) iters
      else
        let s := bump s (regDecPoolCnt p) (if soft then 15 else 31) (if soft then 0 else 16) 1
        let s := if i.step = 0 then errBurst s i.glun else s
        let i := { i with fails := if soft then i.fails else i.fails ++ [(i.step, n)] }
        climb (dropItem s i.id) i iters stUncorrectable 0 0

/-! ### Reconstructed codewords (R256, R321, R602) -/

/-- The last step that the ladder of an early reconstruction had reached. -/
def priorStep (r : Recon) (n : Nat) : Nat :=
  if n = 0x11 then 0x10 else ((r.prior.map (fun p => p.1)).max?).getD 0

/-- The ladder of a codeword served by early reconstruction ends where it stopped (R254). -/
def priorEnd (s : State) (r : Recon) (cid off : Nat) : State :=
  match r.back, loc? s r.zid r.member, layoutOf? s r.zid with
  | some n, some (g, b), some lt =>
    let i := rowItem s (reconWork r) lt r.zid r.row r.member r.cwx g b (.blk cid off)
    ladderEnd s { i with step := priorStep r n } 255 false
  | _, _, _ => s

/-- The second detection in a reconstruction's region (R511): the codeword is unavailable; a command that no other reading of it serves
fails at site 0x41, a rebuild does the row again. -/
def reconLost (s : State) (r : Recon) : State :=
  let s := unrecoveredAny s 2 (reconQuad s r.zid r.member) 1
  let s := endRecon (dropSurvivors s r.id) r.id
  match r.use with
  | .blk cid off =>
    if r.around then resumeLadder s r cid off (r.back.getD 0) else blkFail s cid off (siteFail 0x41 off)
  | .spare fg zid _ _ => unitAgain s fg zid
  | .copy fg _ _ blk => copyLost s fg blk
  | .scrub cid => scrubTake s cid r.member r.cwx none

/-- A reconstruction is streamed again from its start (R483): its survivors are read once more. -/
def reconAgain (s : State) (r : Recon) : State :=
  let s := modRecon (dropSurvivors s r.id) r.id (fun x => { x with asked := [], got := [] })
  if r.region then (askMore s r.id).getD (reconFails s r) else s

/-- RECONSTRUCTION_DONE (R256): the stripe engine has the codeword of the lost member from k survivors. A detection in the
slot has it computed again. -/
def reconDone (s : State) (rid : Nat) (detect : Bool) : State :=
  match recon? s rid with
  | none => s
  | some r =>
    match layoutOf? s r.zid with
    | none => s
    | some lt =>
      if decide (lt.k ≤ r.got.length) && r.region && domOn s (72 + reconQuad s r.zid r.member * 2) && domOn s (88 + reconQuad s r.zid r.member) then
        if detect then
          if r.strikes = 0 then
            modRecon (recoveredAny s 2 (reconQuad s r.zid r.member) 1) rid (fun r => { r with strikes := 1 })
          else reconLost s r
        else
          let solve (j : Nat) : List Byte := solveRow lt.k lt.m r.got j
          let s := endRecon (dropSurvivors s rid) rid
          match r.use with
          | .blk cid off =>
            let s := priorEnd s r cid off
            let body := solve r.member
            let l := (loc? s r.zid r.member).getD (ruleLoc lt r.zid r.member)
            (match blkBody s cid off l.1 body true with
            | (s, .failed st site want) => blkFail s cid off (readFail st off l.1 l.2 r.row (0x38 + site) want)
            | (s, _) => s)
          | .spare fg zid row ms => unitChunk s fg zid row r.cwx (ms.map (fun j => (j, solve j)))
          | .copy fg zid row blk =>
            let g := ((loc? s r.zid r.member).getD (ruleLoc lt r.zid r.member)).1
            copyGot s fg zid row blk g (solve r.member) (isPoison (solve r.member))
          | .scrub cid =>
            let body := solve r.member
            let l := (loc? s r.zid r.member).getD (ruleLoc lt r.zid r.member)
            let good := decide (lt.k ≤ r.member) || isPoison body || guardOk body
            let i := rowItem s (reconWork r) lt r.zid r.row r.member r.cwx l.1 l.2 (.scrub cid)
            scrubTake (if good then s else scrubFind s cid i 4 0x38) cid r.member r.cwx none
      else s

/-! ### Reads of channels that leave service (R220 to R222), regions that become free -/

/-- Those blocks of a read whose codeword waits on a channel that has entered RETRAIN go to reconstruction where their row allows it; a
codeword that no one waits for any longer leaves the queue. -/
def retrainItem (s : State) (i : Item) : State :=
  let go (u : Use) : Bool := match u with
    | .blk cid off => memberTest s i && (blkRecon s cid off).isSome
    | _ => false
  let out := i.use.filter go
  let stay := i.use.filter (fun u => !(go u))
  if out.isEmpty then s
  else
    let s := if stay.isEmpty then dropItem s i.id else modItem s i.id (fun i => { i with use := stay })
    let s := if stay.isEmpty && decide (0 < i.step) then ladderEnd s i 0 false else useSteps s out i.step
    out.foldl (leave · i 0 0 0) s

/-- An item whose codeword is still to be read. -/
def unread (i : Item) : Bool := decide (i.stage = .reading) || decide (i.stage = .predicting)

/-- A channel has entered RETRAIN. -/
def retrainReads (s : State) (c : Nat) : State :=
  (s.items.filter (fun i => decide (chOf i.glun = c) && unread i)).foldl retrainItem s

/-- A channel has become FENCED: no codeword is read on it (R222). -/
def fenceReads (s : State) (c : Nat) : State :=
  (s.items.filter (fun i => decide (chOf i.glun = c) && unread i)).foldl (fun s i =>
    if i.step = 0 then i.use.foldl (fun s u => useFail s i u stFenced 0 0) (dropItem s i.id)
    else failAll (dropItem s i.id) i 0 stFenced 0 0 false) s

/-- Reconstructions that wait for a region get one where one is free; one with fewer than k members left ends (R257). -/
def kickRecons (s : State) : State :=
  (s.recons.filter (fun r => !r.region && (match r.use with | .spare .. => false | _ => true))).foldl (fun s r =>
    match takeRegion s (reconQuad s r.zid r.member) with
    | some s' =>
      let s' := modRecon s' r.id (fun r => { r with region := true })
      (askMore s' r.id).getD (reconFails s' r)
    | none => s) s

end Sys2Proof.Machine
end

