-- ==== Sys2Proof/Machine/Poll.lean ====
section
/-! DEFINITION. The bus of a channel (chapter Channel Sequencers and NAND Operations): the phases it carries, the programs'
data, protection at the first setup byte, confirm, polls, timeouts, suspends and resumes. -/

namespace Sys2Proof.Machine

/-! ### Addresses and bytes of a phase (R134, R139, R140, R144 to R151) -/

/-- The feature writes of an offset set (R146). -/
def featBytes (d : List Byte) (g : Nat) (levels : List Int) : List Byte :=
  (List.range (fieldAt d 0x2A 1)).flatMap (fun i =>
    [dmByte d 0x23, BitVec.ofNat 8 (g % 8), dmByte d 0x29 + BitVec.ofNat 8 i] ++
    (List.range 4).map (fun j => BitVec.ofNat 8 (ofSbyte (levels.getD (4 * i + j) 0))))

/-- The command phase of a read: one plane, or several planes of one bit-page (R144, R145). -/
def readBytes (d : List Byte) (o : Op) : List Byte :=
  let planes := (dedupNat (o.cws.map (fun c => c.1 % dmPlanes d))).mergeSort (fun a b => decide (a ≤ b))
  let one (q : Nat) : List Byte :=
    let cw := ((o.cws.find? (fun c => c.1 % dmPlanes d = q)).map (fun c => c.2.1)).getD 0
    [dmByte d 0x14] ++ colCycles d cw ++ rowCycles d (rowAddr d o.glun o.block o.wl q o.bitpage)
  (planes.dropLast.flatMap (fun q => one q ++ [dmByte d 0x16])) ++ (planes.getLast?.map (fun q => one q ++ [dmByte d 0x15])).getD []

/-- The column change ahead of a codeword's data-out (R144). -/
def columnBytes (d : List Byte) (o : Op) (page cw : Nat) : List Byte :=
  [dmByte d 0x17] ++ colCycles d cw ++ rowCycles d (rowAddr d o.glun o.block o.wl (page % dmPlanes d) o.bitpage) ++ [dmByte d 0x18]

/-- An erase (R151). -/
def eraseBytes (d : List Byte) (o : Op) : List Byte :=
  let n := dmPlanes d
  let one (q : Nat) : List Byte :=
    (if o.slc && bit (dmFlags d) 2 then [dmByte d 0x1D] else []) ++ [dmByte d 0x1E] ++
    rowCycles d (rowAddr d o.glun o.block 0 q 0)
  (List.range (n - 1)).flatMap (fun q => one q ++ [dmByte d 0x1F]) ++ one (n - 1) ++ [dmByte d 0x20]

/-! ### What a program writes (R229 to R233, R237, R602, R603) -/

/-- A data or parity codeword of a row with its header; that of a poisoned block where it is one. -/
def rowCw (s : State) (zid row j cwx : Nat) (poison : Bool) (body : List Byte) : List Byte × Nat :=
  (if poison then poisonBody else body, rowHdr 0 j row zid (zone s zid).wseq (b2n poison) 0 cwx)

/-- A pad codeword with its header. -/
def padCw (s : State) (zid row j cwx : Nat) (void : Bool) : List Byte × Nat :=
  (padBody, rowHdr 2 j row zid (zone s zid).wseq 0 (b2n void) cwx)

/-- Body and header of codeword `cwx` of a program. A reconstructed data block that is that of a poisoned one is written with POISON 1;
one that an append has as its data is not (R232, R602). -/
def progCw (s : State) (o : Op) (cwx : Nat) : List Byte × Nat :=
  match o.use with
  | .member rid j =>
    (match row? s rid with
    | none => (padBody, 0)
    | some r =>
      let k := ((layoutOf? s r.zid).map (fun lt => lt.k)).getD 0
      let b := j * cbOf (dieOf s o.glun) + cwx
      if r.pads.contains j then padCw s r.zid r.row j cwx false
      else if k ≤ j then rowCw s r.zid r.row j cwx false (slotBody (tget r.parity j []) cwx)
      else rowCw s r.zid r.row j cwx (r.poison.contains b || o.poison.contains b) (rowBody s r b))
  | .pad zid row j void => padCw s zid row j cwx void
  | .stage sid _ copy wl =>
    (match stg? s sid with
    | some g => (extentBodies s g copy).getD ((wl - g.wl) * cbsOf (dieOf s o.glun) + cwx) (padBody, 0)
    | none => (padBody, 0))
  | .page c pseq =>
    (match s.jrn.pages.find? (fun p => p.pseq = pseq) with
    | some p => (pageBodies p c o.wl).getD cwx (padBody, 0)
    | none => (padBody, 0))
  | .rebuild fg zid row j =>
    (match (unit? s fg zid).bind (fun u => tget? u.chunks j) with
    | some ch =>
      let body := tget ch cwx []
      rowCw s zid row j cwx (decide (j < ((layoutOf? s zid).map (fun lt => lt.k)).getD 0) && isPoison body) body
    | none => padCw s zid row j cwx (voided s zid row))
  | .reshape fg zid row j =>
    (match (group s fg).cp, reshapeLayouts s fg with
    | some cp, some (_, new) =>
      let b := j * cbOf (layDie s new) + cwx
      if !(cp.gone.isEmpty) then padCw s zid row j cwx false
      else if j < new.k then rowCw s zid row j cwx (cp.poison.contains b) (copyBody s cp b)
      else rowCw s zid row j cwx false (slotBody (tget cp.parity j []) cwx)
    | _, _ => (padBody, 0))
  | _ => (padBody, 0)

/-- A codeword of RAW_PROGRAM under its MODE (R183). -/
def rawCwBytes (s : State) (c : Cmd) (o : Op) (cwx page cw : Nat) : List Byte :=
  let n := rawBytes c
  let l := (spanCut 0 (cmdSpans c) (n * cwx) n).flatMap (fun x => dramRead s x.2.1 x.2.2)
  match rawMode c with
  | 0 => cellCw s o.gen o.glun o.block o.wl page cw (l.take 4112) (leNat (l.drop 4112))
  | 1 => scramble (seedOf o.glun o.block o.wl page cw) l
  | _ => l

/-- The bytes of a codeword of a program as they cross the bus. -/
def progBytes (s : State) (o : Op) (cwx page cw : Nat) : List Byte :=
  let own : List Byte := let p := progCw s o cwx; cellCw s o.gen o.glun o.block o.wl page cw p.1 p.2
  match o.use with
  | .raw cid => (match cmd? s cid with | some c => rawCwBytes s c o cwx page cw | none => own)
  | _ => own

/-- One plane-page of a program (R147, R150). -/
def pageBytes (s : State) (o : Op) (n : Nat) : List Byte :=
  let d := dieOf s o.glun
  let q := n % dmPlanes d
  let last := decide (q + 1 = dmPlanes d)
  (if o.slc then [dmByte d 0x1D] else []) ++ [dmByte d 0x19] ++ colCycles d 0 ++
  rowCycles d (rowAddr d o.glun o.block o.wl q (if o.slc then 0 else n / dmPlanes d)) ++
  (List.range (dmCwpp d)).flatMap (fun c => progBytes s o (n * dmCwpp d + c) n c) ++
  (if !last then [dmByte d 0x1A] else if n + 1 < opPages s o then [dmByte d 0x1B] else [])

/-! ### The sequencer's own stream of a chunk (R22, R233, R264, R603) -/

/-- A block that the stripe engine passed and the sequencer fails: its command, and the failure. -/
def changedBlock (s : State) (r : Row) (b : Nat) : Option (Nat × Nat × Result) :=
  (liveBody s r b).bind (fun x =>
    let off := rowBase s r.zid r.row + b
    if x.1.badBlks.any (fun p => p.1 = off) then none
    else (writeCheck s x.1 x.2.1 off 0x20 x.2.2).map (fun f => (x.1.cid, off, f)))

/-- May the member be padded: PAD_ON_CHANGE, and fewer than m members padded or failed? -/
def mayPad (s : State) (r : Row) (lt : Layout) : Bool :=
  let failed := ((List.range (width lt)).filter (fun j => decide (2 ≤ mstate s r.zid j) && !(r.pads.contains j))).length
  bit (rdGen s r.gen regDecCfg) 9 && decide (r.pads.length + failed < lt.m)

/-- What the sequencer does about blocks of a chunk that have changed, and about those that it could not fetch: a pad, or the chunk as
read with the commands' failures, and poisoned blocks (R233, R603). -/
def chunkChanged (s : State) (o : Op) (r : Row) (lt : Layout) (j : Nat) (changed : List (Nat × Nat × Result)) (lost : List Nat)
    (bad : Option (Nat × Result)) : State :=
  let s := changed.foldl (fun s _ => decPiFlag s 1) s
  if changed.isEmpty && bad.isNone then s
  else if mayPad s r lt then modRow s r.rid (fun r => { r with pads := r.pads ++ [j] })
  else
    let s := changed.foldl (fun s x => noteBlock s x.1 x.2.1 x.2.2) s
    match bad with
    | none => s
    | some (b, res) =>
      let s := modOp s o.id (fun o => { o with poison := lost })
      match blockSource r.pieces b with
      | some p => noteBlock s p.1 (rowBase s r.zid r.row + b) res
      | none => s

/-- The sequencer streams a data chunk of a row into staging SRAM: the folded blocks from the row's buffers, the others from their
appends'. The answer is whether it stands there: a stream of folded blocks that the port gives up is made again, since they are
acknowledged (R603). -/
def chunkStream (s : State) (o : Op) (rid j : Nat) (mp : PortEnd) : State × Bool :=
  match row? s rid with
  | none => (s, true)
  | some r =>
    match layoutOf? s r.zid with
    | none => (s, true)
    | some lt =>
      let cb := cbOf (dieOf s o.glun)
      let bs := (List.range' (j * cb) cb).filter (fun b => !(r.poison.contains b))
      if lt.k ≤ j || r.pads.contains j then (s, true)
      else
        let spans (b : Nat) : List (Nat × Nat × Nat) :=
          if b < r.acked then [(0, bufAddr s r.bufs b, 4096)] else blockSpans s r.pieces b
        let (s, bad) := seqStream (modOp s o.id (fun o => { o with poison := [] })) o.glun bs spans mp
        if (match bad with | some (b, _) => decide (b < r.acked) | none => false) then (s, false)
        else
          let lost := match bad with | some (b, _) => unfetched r.pieces bs b | none => []
          let changed := (bs.filter (fun b => decide (r.acked ≤ b) && !(lost.contains b))).filterMap (changedBlock s r)
          (chunkChanged s o r lt j changed lost bad, true)

/-- The sequencer streams a data chunk of a reshape copy from the copy's buffers; a stream that the port gives up is made again. -/
def copySend (s : State) (o : Op) (fg j : Nat) (mp : PortEnd) : State × Bool :=
  match (group s fg).cp, reshapeLayouts s fg with
  | some cp, some (_, new) =>
    let cb := cbOf (layDie s new)
    if new.k ≤ j || !(cp.gone.isEmpty) then (s, true)
    else
      let bs := (List.range' (j * cb) cb).filter (fun b => !(cp.poison.contains b))
      let p := seqStream s o.glun bs (fun b => [(0, bufAddr s cp.bufs b, 4096)]) mp
      (p.1, p.2.isNone)
  | _, _ => (s, true)

/-- The data of a program comes to staging SRAM before its first plane-page; the answer is whether the page can go. A raw program whose
data the port gives up ends. -/
def openStream (s : State) (o : Op) (mp : PortEnd) : State × Bool :=
  match o.use with
  | .raw cid =>
    (match cmd? s cid with
    | none => (s, true)
    | some c =>
      let n := rawBytes c * dmCwpp (dieOf s o.glun) * opPages s o
      match portEnd s (dataPort o.glun) (spanCut 0 (cmdSpans c) 0 n) mp with
      | (s, some r) => (finish (dropOp s o) cid r, false)
      | (s, none) => (s, true))
  | .member rid j => chunkStream s o rid j mp
  | .stage sid _ _ _ => stageStream s o sid mp
  | .reshape fg _ _ j => copySend s o fg j mp
  | _ => (s, true)

/-! ### Programs that end badly (R127, R141, R142, R191, R264, R286) -/

/-- What a program was for has failed: its status was bad or its LUN timed out (`site` none), or a check on its way failed. One on a
member's earlier location is disregarded (R311). -/
def progBad (s : State) (o : Op) (site : Option Nat) : State :=
  let place (s : State) : State := failAt s (fun l => l = (o.glun, o.block))
  match o.use with
  | .member rid j =>
    (match row? s rid with
    | some r => if loc? s r.zid j = some (o.glun, o.block) then memberBad s rid j (site.map siteFail) else s
    | none => place s)
  | .pad .. => place s
  | .stage sid set _ wl => stageBad s sid set wl
  | .page c _ => pageBad s c o.glun o.block
  | .rebuild fg zid row j => unitProgrammed s fg zid row j o.glun o.block false
  | .reshape fg zid row j => copyProgrammed s fg zid row j false
  | .raw cid =>
    (match site with
    | some x => finish s cid { status := stInternal, detail := x }
    | none => rawEnd s cid o 0 true)
  | _ => s

/-- A codeword of a program has failed its check on the way for the second time, at a site: a block of an append is poisoned and its
command ends with INTERNAL_CHECK, and the page goes on; else what the program was for has failed, and it leaves its LUN. DEDUCED from
the hops' table (log entry 71). -/
def pathBad (s : State) (o : Op) (cwx site : Nat) : State × Bool :=
  let quit (_ : Unit) : State × Bool :=
    let s := dropOp s o
    (progBad (if 0 < o.pages then resetLun s o.glun else s) o (some site), false)
  match o.use with
  | .member rid j =>
    (match row? s rid with
    | some r =>
      let b := j * cbOf (dieOf s o.glun) + cwx
      match (if r.acked ≤ b ∧ !(r.pads.contains j) then blockSource r.pieces b else none) with
      | some p =>
        let off := rowBase s r.zid r.row + b
        (modOp (noteBlock s p.1 off { status := stInternal, ra := off, detail := site }) o.id
          (fun o => { o with poison := o.poison ++ [b] }), true)
      | none => quit ()
    | none => quit ())
  | _ => quit ()

/-- The checks of a program's way met in the plane-page that is to go: hop 7 refetches, hop 8 encodes once more (R264), hop 4 has the
row streamed again (R276). The answer is whether the page goes. -/
def pathCheck (s : State) (o : Op) (chk : PathCheck) : State × Bool :=
  let here (cwx : Byte) : Bool := decide (cwx.toNat / max 1 (dmCwpp (dieOf s o.glun)) = o.pages)
  match chk with
  | .clean => (s, true)
  | .staging cwx again =>
    if !(here cwx) then (s, true)
    else if again then pathBad (unrecoveredAny s 1 (chOf o.glun) 0) o cwx.toNat 0x40
    else (recoveredAny s 1 (chOf o.glun) 0, true)
  | .encoder cwx again =>
    if !(here cwx) then (s, true)
    else
      let s := decPiFlag s 4
      if again then pathBad s o cwx.toNat 0x22 else (s, true)
  | .slot =>
    match o.use with
    | .member rid j =>
      if ((row? s rid).bind (fun r => tget? r.slots j)).isSome then (slotDetected s o rid j, false) else (s, true)
    | _ => (s, true)

/-! ### Protection at the first setup byte (R174, R177) -/

/-- The target of a program or erase is protected, or lies in a locked option area. A zone or staging program that the governor has
admitted completes all the same (R131). -/
def setupBlocked (s : State) (o : Op) : Bool :=
  (protected? s o.glun && !(decide (o.phase = .granted) && (match o.use with | .member .. | .stage .. => true | _ => false))) || (inOa o.glun o.block && (match o.use with
    | .raw cid => !(((cmd? s cid).map (fun c => oaOpen s c o.glun)).getD false)
    | _ => true))

/-- A program or erase that meets protection: a raw one is refused, any other waits until the bit clears. -/
def setupStop (s : State) (o : Op) : State :=
  let s := wpFlag s 0
  match o.use with
  | .raw cid => rawRefuse (dropOp s o) cid o.glun (res stProtected)
  | _ => modOp (releaseOp s o) o.id (fun o => { o with phase := .waiting, peak := 0, vccq := 0, hit := true })

/-- Operations whose LUN is no longer protected wait on it no more. -/
def clearHits (s : State) : State :=
  { s with ops := s.ops.map (fun o => if o.hit && !(protected? s o.glun) then { o with hit := false } else o) }

/-! ### Phases (R152 to R155, R353) -/

/-- What a bus carries next. -/
inductive Phase where
  | suspend | command | dataOut | page | erase | raw
  deriving DecidableEq, Repr

/-- The VCCQ sluice of a channel has room for a phase of a class (R353). -/
def vccqRoom (s : State) (o : Op) (cls : Nat) : Bool :=
  let r := 8 + rdf s (regGovChmap (chOf o.glun)) 10 8
  let lim := railLimit s r
  let room := if o.kind = .a then lim else lim - lim * s.gov.resPct / 100
  let used := tget s.gov.used r 0
  decide (used = 0) || decide (used + costF (costOf s o.glun) cls 4 2 ≤ room)

/-- The order in which programs and erases of a rail would be admitted. -/
def nextOnRail (s : State) (o : Op) : Bool :=
  let c := chRail s (chOf o.glun)
  let l := s.ops.filter (fun x => decide (x.type ≠ .read) && decide (chRail s (chOf x.glun) = c) &&
    (match x.phase with | .waiting | .loaded _ => true | _ => false) && mayPropose s x)
  (minBy proposalKey l).any (fun x => decide (x.id = o.id))

/-- Part of a program's data stands in its LUN. -/
def midTransfer (s : State) (o : Op) : Bool := decide (0 < o.pages) && decide (o.pages < opPages s o)

/-- A parity chunk is sent from its slot while the row's programs run, not while a stripe engine fills the slot again (R276). -/
def slotReady (s : State) (o : Op) : Bool :=
  match o.use with
  | .member rid j => ((row? s rid).map (fun r =>
      decide (j < ((layoutOf? s r.zid).map (fun lt => lt.k)).getD 64) || decide (r.phase = .programming))).getD true
  | _ => true

/-- May a program send its next plane-page (R148, R149, R155)? -/
def mayTransfer (s : State) (o : Op) : Bool :=
  (decide (o.type = .prog) || decide (o.type = .slc)) && decide (o.pages < opPages s o) && vccqRoom s o 5 && slotReady s o &&
  !(s.ops.any (fun x => decide (x.id ≠ o.id) && decide (chOf x.glun = chOf o.glun) && midTransfer s x)) &&
  (match o.phase with
    | .granted => (lunOps s o.glun o.id).isEmpty
    | .waiting => midTransfer s o || (!(flashHeld s o) && nextOnRail s o)
    | _ => false)

/-! ### Staging slots (R244, R432, R438) -/

/-- Slots of staging SRAM that a codeword holds: one, or those of all reads of a soft step once the first has arrived. -/
def slotsHeld (i : Item) : Nat :=
  if i.step < 0x10 then (match i.stage with | .reading | .predicting => 0 | _ => 1)
  else if i.raws.isEmpty then 0 else if i.step = 0x10 then 3 else 5

/-- Slots that the first data-out of a codeword's step takes. -/
def slotsWanted (i : Item) : Nat := if i.step < 0x10 then 1 else if i.step = 0x10 then 3 else 5

/-- Does a transfer still move a codeword out of a channel's staging SRAM? -/
def movesFrom (s : State) (c : Nat) (x : Xfer) : Bool :=
  match x.purpose with
  | .readBlock cid off false => decide ((rdBlk? s cid off).bind (fun b => b.ch) = some c)
  | .rawOut cid _ => decide ((cmd? s cid).map (fun d => chOf (rawGlun d)) = some c)
  | _ => false

/-- Slots of a channel in use. -/
def slotsUsed (s : State) (c : Nat) : Nat :=
  ((s.items.filter (fun i => chOf i.glun = c)).map slotsHeld).sum + (s.xfers.filter (movesFrom s c)).length

/-- A flow that may draw on the reserved slots (R435). -/
def reservedFlow (i : Item) : Bool :=
  match i.kind with
  | .j | .b | .h => true
  | _ => i.use.any (fun u => match u with | .fold .. => true | _ => false)

/-- The slots of a channel that a codeword may take: all 112 but the withdrawn, and but the reserved for flows that are not. -/
def slotsFor (s : State) (c : Nat) (i : Item) : Nat :=
  112 - (tget s.slots c {}).retired - (if reservedFlow i then 0 else min 32 (rd s regDmaStgCfg % 256))

/-- Room in staging SRAM for the next codeword of an operation (R432). -/
def stagingRoom (s : State) (o : Op) : Bool :=
  match o.cws.head?.bind (fun x => item? s x.2.2) with
  | some i => decide (slotsHeld i ≠ 0) || decide (slotsUsed s (chOf o.glun) + slotsWanted i ≤ slotsFor s (chOf o.glun) i)
  | none => true

/-- The next poll of an operation is due (R141). -/
def pollDue (s : State) (o : Op) : Bool :=
  let d := dieOf s o.glun
  if o.polls = 0 then due s o.confirm (fieldAt d 0x2D 1 * dmTime d o.type false / 16) else due s o.lastPoll (fieldAt d 0x2E 2)

/-- The phase that an operation has ready for the bus, with the deadline it goes by. A read in a suspension is issued only within its
limit (R161). -/
def readyPhase (s : State) (o : Op) : Option (Nat × Phase) :=
  let others := lunOps s o.glun o.id
  let on (p : Phase) (b : Bool) : Option (Nat × Phase) := if b then some (o.deadline, p) else none
  if o.susp && decide (o.phase = .busy) then
    some ((((s.ops.filter (fun x => decide (x.glun = o.glun) && decide (x.type = .read))).map (fun x => x.deadline)).min?).getD o.deadline, .suspend)
  else match o.type, o.phase with
    | .read, .granted => on .command (others.all (fun u => readsPast s u o || (decide (u.type = .erase) && decide (u.phase = .granted))))
    | .read, .dataOut => on .dataOut (!(o.cws.isEmpty) && vccqRoom s o 4 && stagingRoom s o)
    | .erase, .granted =>
      on .erase (others.isEmpty && !(s.ops.any (fun x => decide (x.type = .read) && decide (x.glun = o.glun) && decide (x.block = o.block))))
    | .rawSeq, .granted => on .raw others.isEmpty
    | _, _ => on .page (mayTransfer s o)

/-- A program whose data stands in its LUN can be confirmed: it is admitted, and R125 allows its start (R148, R361). -/
def mayConfirm (s : State) (o : Op) : Bool :=
  (decide (o.type = .prog) || decide (o.type = .slc)) && decide (o.phase = .granted) && decide (opPages s o ≤ o.pages) &&
  (match o.use with | .member rid j => memberMayStart s rid j | _ => true)

/-- Every read of a suspension has delivered and none joins (R162). -/
def mayResume (s : State) (o : Op) : Bool :=
  (match o.phase with | .stopped _ => true | _ => false) &&
  !(s.ops.any (fun x => decide (x.glun = o.glun) && decide (x.type = .read) && decide (x.phase ≠ .waiting) &&
    !(decide (x.phase = .granted) && !(readsPast s o x))))

/-- A poll of the operation is due. The first poll of a suspend comes at once and later ones every POLL_IVL ticks, so that the bus serves
other LUNs between them (R141, R158). -/
def mayPoll (s : State) (o : Op) : Bool :=
  decide (o.type ≠ .rawSeq) && (match o.phase with
    | .busy => pollDue s o
    | .stopping _ => decide (o.polls = 0) || due s o.lastPoll (fieldAt (dieOf s o.glun) 0x2E 2)
    | _ => false)

/-- What an operation next needs the bus for, with the deadline it goes by (R154, R155). -/
inductive BusNeed where
  | phase (p : Phase)
  | poll | confirm | resume
  deriving DecidableEq, Repr

/-- Its need. -/
def busNeed (s : State) (o : Op) : Option (Nat × BusNeed) :=
  match readyPhase s o with
  | some (d, p) => some (d, .phase p)
  | none =>
    if mayConfirm s o then some (o.deadline, .confirm)
    else if mayResume s o then some (o.deadline, .resume)
    else if mayPoll s o then some (o.deadline, .poll)
    else none

/-- A need that the bus can serve while the channel is in RETRAIN: polls alone (R218). -/
def servedIn (up : Bool) : BusNeed → Bool
  | .poll => true
  | _ => up

/-- The operation whose need a channel's bus serves next, in deadline order (R154); none while a data-out holds it or the channel is out
of service. -/
def busTurn (s : State) (c : Nat) : Option (Op × BusNeed) :=
  if !(busOpen s c) then none
  else
    let l := (s.ops.filter (fun o => chOf o.glun = c)).filterMap (fun o =>
      ((busNeed s o).filter (fun p => servedIn (chanUp s c) p.2)).map (fun p => (p.1, o, p.2)))
    (minBy (fun (p : Nat × Op × BusNeed) => (p.1 * 16 + kindRank p.2.1.kind) * 2 ^ 64 + p.2.1.id) l).map (fun p => p.2)

/-- The read command phase, with the feature writes where the LUN's shadow holds another set (R144 to R146). -/
def phaseCommand (s : State) (o : Op) : State :=
  let d := dieOf s o.glun
  let fed := decide (((lun? s o.glun).bind (fun l => l.shadow)) = some o.levels)
  let s := busPut s o.glun ((if fed then [] else featBytes d o.glun o.levels) ++ readBytes d o)
  let s := modLun s o.glun (fun l => { l with shadow := some o.levels, ran := o.id })
  modOp s o.id (fun o => { o with phase := .busy, confirm := s.tick, polls := 0 })

/-- A data-out begins; CODEWORD_RECEIVED ends it. -/
def phaseDataOut (s : State) (o : Op) : State :=
  match o.cws with
  | [] => s
  | (page, cw, _) :: _ =>
    let r := 8 + rdf s (regGovChmap (chOf o.glun)) 10 8
    let pk := costF (costOf s o.glun) 4 4 2
    let s := { s with gov := { s.gov with used := tset s.gov.used r ((tget s.gov.used r 0 + pk) % 2 ^ 16) } }
    modOp (busPut s o.glun (columnBytes (dieOf s o.glun) o page cw)) o.id (fun o => { o with leaving := true, vccq := pk })

/-- A plane-page goes to its LUN. With the last of a program that is not admitted, its hold begins (R148, R149); with the last of a
rebuilt chunk, the chunk's slot is free (R275). -/
def sendPage (s : State) (o : Op) : State :=
  let s := modLun (busPut s o.glun (pageBytes s o o.pages)) o.glun (fun l => { l with ran := o.id })
  let full := decide (opPages s o ≤ o.pages + 1)
  let s := modOp s o.id (fun o => { o with
    pages := o.pages + 1, phase := if o.phase = .waiting ∧ full then .loaded s.tick else o.phase })
  match o.use with
  | .rebuild fg zid _ _ => if full then chunkSent s fg zid (quadOf o.glun) else s
  | _ => s

/-- A plane-page of a program: at the first, protection and the sequencer's stream of the data; at each, the checks on its way. -/
def phasePage (s : State) (o : Op) (mp : PortEnd) (chk : PathCheck) : State :=
  if o.pages = 0 && setupBlocked s o then setupStop s o
  else
    match (if o.pages = 0 then openStream s o mp else (s, true)) with
    | (s, false) => s
    | (s, true) =>
      match pathCheck s o chk with
      | (s, false) => s
      | (s, true) => ((s.ops.find? (fun x => x.id = o.id)).map (sendPage s)).getD s

/-- An erase goes to its LUN: its LUN-block is under erase from now on (R151, R166). -/
def phaseErase (s : State) (o : Op) : State :=
  if setupBlocked s o then setupStop s o
  else
    let s := modBlk (busPut s o.glun (eraseBytes (dieOf s o.glun) o)) o.glun o.block (fun b => { b with erasing := true })
    modOp (modLun s o.glun (fun l => { l with ran := o.id })) o.id (fun o => { o with phase := .busy, confirm := s.tick, polls := 0 })

/-- A suspend command (R158, R159). -/
def phaseSuspend (s : State) (o : Op) : State :=
  let s := busPut s o.glun (lunBytes s o.glun (if o.type = .erase then 0x27 else 0x25) o.block o.wl)
  bump (modOp s o.id (fun o => { o with susp := false, phase := .stopping s.tick, suspends := o.suspends + 1, polls := 0 }))
    (regCsqSuspends (chOf o.glun)) 15 0 1

/-- BUS_PHASE_ISSUE (R154): a channel in service whose bus is free takes its next phase, where a phase comes next. -/
def busPhase (s : State) (c : Nat) (mp : PortEnd) (chk : PathCheck) : State :=
  match busTurn s c with
  | some (o, .phase p) =>
    (match p with
    | .suspend => phaseSuspend s o
    | .command => phaseCommand s o
    | .dataOut => phaseDataOut s o
    | .page => phasePage s o mp chk
    | .erase => phaseErase s o
    | .raw => (match o.use with | .raw cid => rsPhase s o cid mp | _ => s))
  | _ => s

/-- The operation of a LUN that comes next on its channel's bus, with its need. -/
def turnOf (s : State) (g : Nat) : Option (Op × BusNeed) := (busTurn s (chOf g)).filter (fun p => decide (p.1.glun = g))

/-- PROGRAM_CONFIRM (R125, R148): the confirm byte of an admitted program whose data stands in its LUN. -/
def progConfirm (s : State) (g : Nat) : State :=
  match turnOf s g with
  | some (o, .confirm) =>
    let s := modLun (busPut s g [dmByte (dieOf s g) 0x1C]) g (fun l => { l with ran := o.id })
    let s := modOp s o.id (fun o => { o with phase := .busy, confirm := s.tick, polls := 0 })
    (match o.use with
    | .member rid j => modRow s rid (fun r => { r with memb := tset r.memb j .program })
    | _ => s)
  | _ => s

/-- HOLD_MAX_EXPIRY (R149). -/
def holdMax (s : State) (g : Nat) : State :=
  match s.ops.find? (fun o => decide (o.glun = g) && (match o.phase with
      | .loaded at_ => due s at_ (rd s (regCsqHoldMax (chOf g)))
      | _ => false)) with
  | some o => csqFlag (abandon s o) (chOf g) 2
  | none => s

/-- The resume byte of an operation (R162). -/
def resumeByte (s : State) (o : Op) : State := busPut s o.glun (lunBytes s o.glun (if o.type = .erase then 0x28 else 0x26) o.block o.wl)

/-- OPERATION_RESUME (R162): every read of the suspension has delivered and none joins. -/
def opResume (s : State) (g : Nat) : State :=
  match turnOf s g with
  | some (o, .resume) =>
    modOp (resumeByte s o) o.id (fun o => { o with
      phase := .busy, resumeAt := s.tick,
      suspTicks := o.suspTicks + (match o.phase with | .stopped at_ => s.tick - at_ | _ => 0) })
  | _ => s

/-! ### Outcomes (R141, R142, R188, R190 to R192) -/

/-- WSEQ of the zone whose row a program writes. -/
def progWseq (s : State) (o : Op) : Option Nat :=
  match o.use with
  | .member rid _ => (row? s rid).map (fun r => (zone s r.zid).wseq)
  | .pad zid _ _ _ => some (zone s zid).wseq
  | .rebuild _ zid _ _ => some (zone s zid).wseq
  | .reshape _ zid _ _ => some (zone s zid).wseq
  | _ => none

/-- A program has ended well. -/
def progGood (s : State) (o : Op) : State :=
  match o.use with
  | .member rid j => memberGood s rid j
  | .stage sid set copy wl => stageGood s sid set copy wl
  | .page c pseq => pageGood s c pseq o.glun o.block
  | .rebuild fg zid row j => unitProgrammed s fg zid row j o.glun o.block true
  | .reshape fg zid row j => copyProgrammed s fg zid row j true
  | _ => s

/-- A program has ended: one that failed leaves its word line and the one below it undefined (R191). The status of a raw one is not
interpreted (R188). -/
def progEnd (s : State) (o : Op) (good : Bool) (status : Nat) : State :=
  match o.use with
  | .raw cid => rawEnd s cid o status false
  | _ =>
    if good then progGood (ageProgram s o.glun o.block o.wl o.slc (progWseq s o)) o
    else progBad (damageBelow s o.glun o.block o.wl) o none

/-- An erase has ended. -/
def eraseEnd (s : State) (o : Op) (good : Bool) (status loops : Nat) : State :=
  let s := modBlk s o.glun o.block (fun b => { b with erasing := false })
  match o.use with
  | .resetErase cid zid j g b => resetErased s cid zid j g b good loops
  | .spareErase fg i => spareErasedEnd s fg i good loops
  | .turnErase c => turnEnd (if good then (erasedGood s o.glun o.block loops).1 else s) c o.glun o.block good
  | .setErase fg set copy =>
    if good then
      let (s, out) := erasedGood s o.glun o.block loops
      setEraseEnd (if out then modGroup s fg (fun g => { g with setOut := tset g.setOut set () }) else s) fg set copy true
    else setEraseEnd s fg set copy false
  | .again =>
    if good then (erasedGood s o.glun o.block loops).1
    else
      let s := modBlk (erasedBad s o.glun o.block) o.glun o.block (fun b => { b with interrupted := false })
      let l := s.ops.filter (fun x => decide (x.glun = o.glun) && decide (x.block = o.block) && decide (x.type ≠ .read) && decide (x.phase = .waiting))
      l.foldl (fun s x => progBad (dropOp s x) x none) s
  | .oldErase .. => if good then (erasedGood s o.glun o.block loops).1 else erasedBad s o.glun o.block
  | .raw cid => rawEnd s cid o status false
  | _ => s

/-- After good status the erase-loop count is read with FEAT_GET at FEAT_LOOPS (R151). -/
def readLoops (s : State) (g : Nat) : State :=
  busPut s g [dmByte (dieOf s g) 0x24, BitVec.ofNat 8 (g % 8), dmByte (dieOf s g) 0x2B]

/-- An operation has reported its final status: its sluice current is released (R352). -/
def opEnded (s : State) (o : Op) (good : Bool) (status loops : Nat) : State :=
  match o.type with
  | .read => endRead (modOp (releaseOp s o) o.id (fun o => { o with phase := .dataOut, peak := 0 })) o.id
  | .erase =>
    let s := modBlk (if good then readLoops s o.glun else s) o.glun o.block (fun b => { b with interrupted := false })
    eraseEnd (dropOp s o) o good status loops
  | .rawSeq => s
  | _ => progEnd (dropOp s o) o good status

/-- The row address that a status poll carries (R141): that of the page of a single-plane read. DESIGN CHOICE (log entry 66): the rule
does not say which plane and bit-page stand for a multi-plane read, a program or an erase; the model sends plane 0. -/
def pollAddr (s : State) (o : Op) : List Byte :=
  let d := dieOf s o.glun
  let plane := match dedupNat (o.cws.map (fun c => c.1 % dmPlanes d)) with | [q] => q | _ => 0
  rowCycles d (rowAddr d o.glun o.block o.wl plane o.bitpage)

/-- A LUN that still reports suspended after a retraining is resumed then; the time beyond the limit is counted apart
(R219). Its part within the RETRAIN counts as suspended, no longer as paused (R142). -/
def lateResume (s : State) (o : Op) : State :=
  if o.suspends = 0 then s
  else
    let n := o.suspTicks + (s.tick - o.resumeAt)
    let p := phy s (chOf o.glun)
    let twice := p.lastPass - max p.since o.resumeAt
    let s := bump s (regCsqSuspOver (chOf o.glun)) 31 0 (n - max 200000 o.suspTicks)
    modOp (resumeByte s o) o.id (fun o => { o with suspTicks := n, resumeAt := s.tick, paused := o.paused - twice })

/-- STATUS_POLL (R141, R154): the status of the operation that runs in a LUN, when its poll comes next on the bus. -/
def statusPoll (s : State) (g : Nat) (r : PollResult) (status loops : Nat) : State :=
  match turnOf s g with
  | some (o, .poll) =>
    let s := busPut s g (dmByte (dieOf s g) 0x21 :: pollAddr s o)
    let s := modOp s o.id (fun o => { o with polls := o.polls + 1, lastPoll := s.tick })
    (match r with
    | .busy => s
    | .good => opEnded s o true status loops
    | .failed => opEnded s o (decide (o.type = .read)) status loops
    | .suspended =>
      match o.phase with
      | .stopping at_ => modOp s o.id (fun o => { o with phase := .stopped at_ })
      | _ => if chanUp s (chOf g) then lateResume s o else s)
  | _ => s

/-- The operation that a timeout ends is treated as interrupted (R142, R190): a program fails, an erase fails and leaves its
LUN-block to be erased again, every codeword of a read climbs its ladder. A read that was leaving its LUN has lost the page register: it is read again. -/
def opCut (s : State) (o : Op) : State :=
  match o.type with
  | .read =>
    let ids := dedupNat (o.cws.map (fun c => c.2.2))
    let s := dropOp s o
    if o.phase = .dataOut then ids.foldl (fun s id => ((item? s id).map (queueStep s)).getD s) s
    else ids.foldl (fun s id => match item? s id with
      | some i => climb (dropItem s id) i 255 stUncorrectable 0 0
      | none => s) s
  | .erase =>
    let s := modBlk (dropOp s o) o.glun o.block (fun b => { b with interrupted := true })
    (match o.use with
    | .raw cid => rawEnd (modBlk s o.glun o.block (fun b => { b with erasing := false })) cid o 0 true
    | _ => eraseEnd s o false 0 0)
  | .rawSeq => (match o.use with
    | .raw cid => (match cmd? s cid with | some c => rsEnd s o c (c.acc.getD 0 1 - 1) true | none => dropOp s o)
    | _ => dropOp s o)
  | _ => (match o.use with
    | .raw cid => rawEnd (dropOp s o) cid o 0 true
    | _ => progEnd (dropOp s o) o false 0)

/-- RESET_LUN cuts an operation that is in the array or suspended, a read that leaves and a sequence (R190). -/
def resetCuts (o : Op) : Bool := opInArray o || decide (o.phase = .dataOut) || (decide (o.type = .rawSeq) && opActive o)

/-- RESET_LUN to a LUN: what is in the array is interrupted (R190), a transfer that is not confirmed is made again later; what is
admitted and not yet issued stays. -/
def lunReset (s : State) (g : Nat) : State :=
  let l := s.ops.filter (fun o => decide (o.glun = g))
  let s := (l.filter (fun o => !(resetCuts o) && decide (0 < o.pages))).foldl abandon (resetLun s g)
  (l.filter resetCuts).foldl opCut s

/-- OP of CSQ_TIMEOUT_LUN. -/
def timeoutOp : OpType → Nat
  | .read => 0 | .prog => 1 | .slc => 1 | .erase => 2 | .rawSeq => 3

/-- A LUN has timed out (R142). -/
def opTimedOut (s : State) (o : Op) : State :=
  let c := chOf o.glun
  let op := match o.use with | .raw _ => 3 | _ => timeoutOp o.type
  let s := wr (csqFlag s c 0) (regCsqTimeoutLun c) (2 ^ 31 + op * 2 ^ 8 + o.glun % 128)
  let st : Nat := ((lun? s o.glun).map (fun l => l.state)).getD 2
  let s := if st = 0 ∨ st = 3 then setLunState s o.glun 1 else s
  lunReset s o.glun

/-- LUN_TIMEOUT (R142, R158): the operation of a LUN has run too long, or does not reach its suspended state. -/
def lunTimeout (s : State) (g : Nat) : State :=
  match s.ops.find? (fun o => decide (o.glun = g) && decide (o.type ≠ .rawSeq) &&
      (match o.phase with | .busy | .stopping _ => true | _ => false)) with
  | none => s
  | some o =>
    let late := match o.phase with
      | .stopping at_ => due s at_ (suspLatency s o)
      | _ => due s (o.confirm + o.suspTicks + o.paused)
          (max 1 (rdf s (regCsqCfg (chOf g)) 3 0) * dmTime (dieOf s g) o.type true)
    if late && decide (rdf s (regPhyState (chOf g)) 1 0 ≠ 1) then opTimedOut s o else s

end Sys2Proof.Machine
end

