-- ==== Sys2Proof/Machine/PowerFail.lean ====
section
/-! DEFINITION. The power-fail handling (chapter Parity, the Stripe Journal and Restart, R291 to R293), the staging of every
partial row, and what a CONFIG_COMMIT makes known to the journal and the buffer pools. -/

namespace Sys2Proof.Machine

/-! ### Partial rows -/

/-- Partial rows with unstaged blocks, the oldest last append first. -/
def partialRows (s : State) : List Row :=
  (s.rows.filter (fun r => unstagedIn s r && r.staging.isNone)).mergeSort (fun a b => decide (a.lastTick ≤ b.lastTick))

/-- Every partial row is staged (R116, R530). -/
def stagePartials (s : State) : State := (partialRows s).foldl (fun s r => wantStaging s r.zid false none) s

/-! ### The reserves of the buffer pool (R434) -/

/-- The reserve of a quadrant is taken. -/
def poolReserve (s : State) (q : Nat) : State :=
  (List.range (min 64 (rdf s regDmaPoolCfg 31 24) - ((pool s q).reserve.length + (pool s q).held.length))).foldl
    (fun s _ => poolAsk s q (.take .reserve)) s

/-- Every quadrant's reserve. -/
def poolReserves (s : State) : State := (List.range 4).foldl poolReserve s

/-- A CONFIG_COMMIT has completed: placement (R283), JRN_SPARE locations (R287). -/
def commitHooks (s : State) : State := restartCopies (placeCheck s)

/-! ### The steps of R291 -/

/-- JRN_PFAIL.FILTER; 0 acts as 1. -/
def pfFilter (s : State) : Nat := max 1 (rdf s regJrnPfail 7 0)

/-- Estimated ticks of a staging of `n` blocks on a set: rounds of one transfer and one SLC program, at most m of the m + 1
copies at once (R120). -/
def stageTicks (s : State) (fg set n : Nat) : Nat :=
  match stgLayout s fg set with
  | none => 0
  | some lt =>
    let d := layDie s lt
    let g := ((stgSet s fg set).headD (0, 0)).1
    let w := extentWls s fg set n
    (w * (lt.m + 1) + lt.m - 1) / max 1 lt.m * (busTicks s g (cbsOf d * 4648) + fieldAt d 0x40 4)

/-- Step 2: program transfers that are not confirmed are abandoned with RESET_LUN (R149). -/
def pfAbandon (s : State) : State :=
  let gone (o : Op) : Bool := (decide (o.type = .prog) || decide (o.type = .slc)) && !(opInArray o) &&
    (decide (0 < o.pages) || decide (o.phase = .granted))
  (s.ops.filter gone).foldl (fun s o =>
    let s := if o.phase = .granted then releaseOp s o else s
    let s := if 0 < o.pages then resetLun s o.glun else s
    modOp s o.id (fun o => { o with phase := .waiting, pages := 0, peak := 0, vccq := 0, leaving := false })) s

/-- Step 3: the partial rows are staged whose staging can end by STAGE_BY ticks after `low`. -/
def pfStage (s : State) (low : Nat) : State :=
  (partialRows s).foldl (fun s r =>
    let e := zone s r.zid
    let n := if 8 ≤ e.stgExt then e.gather else e.gather - e.staged
    let t := stageTicks s (fgOf s r.zid) (setBase s r.zid) n
    if s.tick + t ≤ low + rdf s regJrnPfail 31 8 then wantStaging s r.zid false none else s) s

/-- Rows with a member program confirmed and not yet reported. -/
def rowsInProgram (s : State) : List (Nat × Nat) :=
  (s.rows.filter (fun r => r.memb.any (fun p => p.2 = .program))).map (fun r => (r.zid, r.row))

/-- Steps 1 to 3: what is in program is noted, unconfirmed transfers are abandoned, partial rows are staged. -/
def pfailSteps (s : State) : State :=
  let low := s.jrn.pfLow.getD s.tick
  let s := modJrn s (fun j => { j with pfLow := some low, pfRows := rowsInProgram s, pfFlush := false })
  pfStage (pfAbandon s) low

/-- The handling runs: after a power-fail warning, or in a block fault (R522). -/
def pfRuns (s : State) : Bool := (s.jrn.pfActive && !s.jrn.pfSleep) || s.blockFault

/-- A staging that the handling waits for. -/
def pfWaits (g : Staging) : Bool := g.move.isNone && !g.reshape

/-- The PROGRESS entry of a row (R279): members in program, members that reported good status. -/
def jrnProgress (s : State) (zid row : Nat) : State :=
  let n := ((layoutOf? s zid).map width).getD 0
  let mask (f : MembStat → Bool) : Nat := match s.rows.find? (fun r => decide (r.zid = zid) && decide (r.row = row)) with
    | some r => (((List.range n).filter (fun j => f (tget r.memb j .idle))).map (fun j => 2 ^ j)).sum
    | none => if f .good then 2 ^ n - 1 else 0
  jrnAppend s {
    seq := 0, typ := 0x07, fg := fgOf s zid, zid := zid, wseq := (zone s zid).wseq, row := row,
    arg0 := mask (fun m => m = .program), arg1 := mask (fun m => m = .good || m = .pad) }

/-- Step 4: the PROGRESS entries, and the page closes without waiting for COMMIT_TICKS. -/
def pfFlushNow (s : State) : State :=
  let s := s.jrn.pfRows.foldl (fun s p => jrnProgress s p.1 p.2) s
  modJrn (closePage s) (fun j => { j with pfFlush := true, pfRows := [] })

/-- The flags clear and the block resumes (R293). -/
def pfClear (s : State) : State :=
  modJrn s (fun j => { j with pfActive := false, pfDone := false, pfFlush := false, pfStg := [], pfRows := [], pfLow := none, pfSleep := false })

/-- PFAIL_N has been high for FILTER ticks. -/
def pfRestored (s : State) : Bool :=
  s.pfailN && (match s.jrn.pfHigh with | some t => due s t (pfFilter s) | none => false)

/-- What of the handling has become possible: step 3 for blocks that a staging in progress left over, step 4 once no staging is left, step 5 once no page is left (R291), the end
(R293). -/
def pfailProgress (s : State) : State :=
  let s := if pfRuns s && !s.jrn.pfFlush then pfStage s (s.jrn.pfLow.getD s.tick) else s
  let s := if pfRuns s && !s.jrn.pfFlush && !(s.stagings.any pfWaits) then pfFlushNow s else s
  let s := if pfRuns s && s.jrn.pfFlush && s.jrn.pages.any (fun p => !p.closed) then closePage s else s
  let still := !s.jrn.stopped && (!(s.jrn.backlog.isEmpty) || s.jrn.pages.any (fun p => !(pageDurable s.jrn p)))
  let s := if s.jrn.pfActive && s.jrn.pfFlush && !s.jrn.pfDone && !still then
      raise (modJrn s (fun j => { j with pfDone := true })) 1021
    else s
  if s.jrn.pfDone && pfRestored s then pfClear s else s

/-- PFAIL_STAGE_BY_EXPIRY (R291): stagings that are not durable are abandoned; their appends do not complete. -/
def stageByExpiry (s : State) : State :=
  let due_ := match s.jrn.pfLow with | some t => due s t (rdf s regJrnPfail 31 8) | none => false
  if pfRuns s && !s.jrn.pfFlush && due_ then
    let gone := s.stagings.filter pfWaits
    let s := gone.foldl (fun s g =>
      dropStg (dropUses (withdrawOps s (ofStaging g.sid)) (fun u => match u with | .restage i _ _ => decide (i = g.sid) | _ => false)) g) s
    { s with
      rows := s.rows.map (fun r => if (r.staging.map (fun i => gone.any (fun g => g.sid = i))).getD false then
        { r with staging := none } else r) }
  else s

end Sys2Proof.Machine
end

