-- ==== Sys2Proof/Machine/Restart.lean ====
section
/-! DEFINITION. The restart of a failure group (chapter Parity, the Stripe Journal and Restart, R298 to R304) and the discard
of its records (R607). -/

namespace Sys2Proof.Machine

/-! ### What the journal found of a group -/

/-- The entries of a group, in the order of their SEQ, that no later discard makes void (R607). -/
def groupEntries (s : State) (fg : Nat) : List JEntry :=
  s.jrn.found.filter (fun e => decide (e.fg = fg) && ofGroup e)

/-- The latest image found of a segment, above the group's last discard. -/
def groupSeg? (s : State) (fg kind idx : Nat) : Option JSegment :=
  s.jrn.segs.find? (fun x => decide (x.kind = kind) && decide (x.index = idx) && decide (tget s.jrn.discards fg 0 ≤ x.segSeq))

/-- SEG_SEQ of a segment image; 0 without one. -/
def segSeq (s : State) (fg kind idx : Nat) : Nat := ((groupSeg? s fg kind idx).map (fun x => x.segSeq)).getD 0

/-- The tables of one zone from its segment images (R282): GV and INFLIGHT_ROWS do not survive. -/
def loadZone (s : State) (fg zid : Nat) : State :=
  let s := match groupSeg? s fg 0 (zid / 128) with
    | some x =>
      let e := unpackZone (slice x.bytes (32 * (zid % 128)) 32)
      dramWrite s (ztAddr s zid) (packZone { e with gv := false, gslot := 0, inflight := 0 })
    | none => s
  match groupSeg? s fg 1 (zid / 16) with
  | some x => dramWrite s (zxAddr s zid) (slice x.bytes (256 * (zid % 16)) 256)
  | none => s

/-! ### Replay -/

/-- STG_LAST as an entry gives it: set and word line. -/
def stgOf (v : Nat) : Nat × Nat := (bits v 31 16, bits v 15 7)

/-- An extent joins its zone's chain: one with sequence 1 and another length begins the chain anew (R122), one with the
sequence of a living extent has moved (R123). -/
def addExtent (s : State) (x : Extent) : State :=
  let same (y : Extent) : Bool := decide (y.zid = x.zid) && decide (y.row = x.row) && decide (y.wseq = x.wseq)
  let moved := s.extents.any (fun y => same y && decide (y.seq = x.seq) && decide (y.count = x.count) && decide (y.first = x.first))
  let keep (y : Extent) : Bool := !(same y) || (if moved then decide (y.seq ≠ x.seq) else decide (y.seq < x.seq))
  { s with extents := s.extents.filter keep ++ [x] }

/-- The block offset one above a row's last block. -/
def rowEnd (s : State) (zid r : Nat) : Nat := (r + 1) * ((layoutOf? s zid).map (rowBlks s)).getD 0

/-- WP raised (R279). -/
def raiseWp (s : State) (zid wp : Nat) : State := modZone s zid (fun e => { e with wp := max e.wp wp })

/-- A ZONE entry (R279): a new write sequence leaves nothing of the earlier one. -/
def applyZone (s : State) (e : JEntry) : State :=
  let old := zone s e.zid
  let again := decide (old.wseq ≠ e.wseq) || decide (bits e.arg0 31 28 = 0)
  let s : State := if again then dropLost (setVoidBits ({ s with extents := s.extents.filter (fun x => x.zid ≠ e.zid) } : State) e.zid 0) e.fg e.zid else s
  let idx := (group s e.fg).layout.getD 0
  setZone s { old with
    state := bits e.arg0 31 28, overlay := bits e.arg0 27 26, tv := bit e.arg0 15, tenant := bits e.arg0 11 0,
    appendPt := bits e.arg1 47 24, wp := if again then bits e.arg1 23 0 else max old.wp (bits e.arg1 23 0), wseq := e.wseq,
    layout := if old.valid && decide (old.state ≠ 0) then old.layout else idx, zid := e.zid, gv := false, gslot := 0, inflight := 0 }

/-- A TABLE entry (R317): a spare entry or a lost range, in the group's tables and in the layout store (R96). -/
def applyTable (s : State) (e : JEntry) : State :=
  if bits e.arg0 63 62 = 1 then
    let i := bits e.arg0 43 32
    let x : Spare := { glun := bits e.arg0 23 12, block := bits e.arg0 11 0, state := bits e.arg0 31 30, kept := true }
    let s := modGroup s e.fg (fun g => { g with
      spares := (g.spares ++ List.replicate (i + 1 - g.spares.length) ({ glun := 0, block := 0, state := 3 } : Spare)).set i x })
    storeSpare s e.fg i
  else
    let first := bits e.arg0 23 0
    let count := bits e.arg1 23 0
    let fits (x : Lost) : Bool := decide (x.zid = e.zid) && (decide (x.first + x.count = first) || decide (first + count = x.first))
    let s := modGroup s e.fg (fun g => { g with
      lost :=
      if g.lost.any fits then
        modFirst fits (fun x => { x with first := min x.first first, count := x.count + count }) g.lost
      else if g.lost.length < 4096 then g.lost ++ [{ zid := e.zid, first := first, count := count, cause := bits e.arg1 31 24 }]
      else g.lost })
    storeLost s e.fg 0

/-- A zone's checkpoint of a reshape (R340, R342): the zone is under the layout that the entry names. -/
def applyCheckpoint (s : State) (e : JEntry) : State :=
  let s := modZone s e.zid (fun z => { z with layout := bits e.arg2 15 0, overlay := if z.overlay = 1 then 0 else z.overlay })
  (List.range 35).foldl (fun s j => setMember s e.zid j 0) s

/-- One entry applied to the tables, where no segment image reflects it (R299); `prev` is the LAYOUT entry before it. -/
def applyEntry (s : State) (prev : Option JEntry) (e : JEntry) : State :=
  let zt := decide (segSeq s e.fg 0 (e.zid / 128) ≤ e.seq)
  let zx := decide (segSeq s e.fg 1 (e.zid / 16) ≤ e.seq)
  let now := decide ((zone s e.zid).wseq = e.wseq)
  match e.typ with
  | 0x02 => if now then
      raiseWp { s with extents := s.extents.filter (fun x => !(decide (x.zid = e.zid) && decide (x.row = e.row))) } e.zid (bits e.arg0 23 0)
    else s
  | 0x03 => if now then
      let s := if zx then setVoid s e.zid e.row else s
      raiseWp s e.zid (rowEnd s e.zid e.row)
    else s
  | 0x04 => if now then
      let p := stgOf e.arg0
      raiseWp (addExtent s { fg := e.fg, set := p.1, wl := p.2, nwl := extentWls s e.fg p.1 (bits e.arg1 27 16), zid := e.zid,
                             wseq := e.wseq, row := e.row, first := bits e.arg1 11 0, count := bits e.arg1 27 16,
                             seq := bits e.arg1 35 28 }) e.zid (bits e.arg2 23 0)
    else s
  | 0x05 => if zt then applyZone s e else s
  | 0x06 => if zx then setMember s e.zid (bits e.arg0 37 32) (bits e.arg0 31 0) else s
  | 0x08 => match prev with
    | some p => if e.zid ≠ 0 ∨ (p.arg0, p.arg1) ≠ (e.arg0, e.arg1) then applyCheckpoint s e else s
    | none => s
  | 0x09 => applyTable s e
  | _ => s

/-- Every entry applied in the order of SEQ. -/
def replay (s : State) (es : List JEntry) : State :=
  (es.foldl (fun (p : State × Option JEntry) e => (applyEntry p.1 p.2 e, if e.typ = 8 then some e else p.2)) (s, none)).1

/-! ### Rows with an intent -/

/-- Rows of a zone with an INTENT and nothing that settles it, rising, with the layout index of the INTENT. -/
def openIntents (s : State) (es : List JEntry) (zid : Nat) : List (Nat × Nat) :=
  let mine := es.filter (fun e => decide (e.zid = zid) && decide (e.wseq = (zone s zid).wseq))
  let open_ := mine.filter (fun e => decide (e.typ = 1) &&
    !(mine.any (fun x => [2, 3, 0x0A].contains x.typ && decide (x.row = e.row) && decide (e.seq < x.seq))))
  open_.foldl (fun t e => tset t e.row (bits e.arg0 31 16)) []

/-- What the PROGRESS entry of a row says: none without one, else the members in program and those done (R300). -/
def progressOf (s : State) (es : List JEntry) (zid r : Nat) : Option (Nat × Nat) :=
  ((es.filter (fun e => decide (e.typ = 7) && decide (e.zid = zid) && decide (e.row = r) &&
    decide (e.wseq = (zone s zid).wseq))).getLast?).map (fun e => (e.arg0, e.arg1))

/-- The reads of a row; one that they do not mention reads as erased. -/
def readsOf (reads : List RowClass) (zid r n : Nat) : RowClass :=
  (reads.find? (fun x => decide (x.zid = zid) && decide (x.row = r))).getD
    { zid := zid, row := r, members := List.replicate n .erased, prev := List.replicate n .erased, parityOk := false }

/-- Member `j` of a list of classes. -/
def classAt (l : List Classify) (j : Nat) : Classify := l.getD j .erased

/-- The order in which the members of a row are committed (R125): parity members, then data members. -/
def commitOrder (lt : Layout) : List Nat := (List.range lt.m).map (fun i => lt.k + i) ++ List.range lt.k

/-- suspects of R300. -/
def suspects (lt : Layout) (st : List Classify) : List Nat :=
  let order := (commitOrder lt).zipIdx
  let n := ((order.filter (fun p => classAt st p.1 ≠ .erased)).map (fun p => p.2 + 1)).max?.getD 0
  ((order.filter (fun p => decide (p.2 + 1 ≤ n + lt.m))).map (fun p => p.1)).filter (fun j => classAt st j ≠ .good)

/-- fail_member_for_zone of R300, counted. -/
def restartFail (s : State) (zid j : Nat) : State :=
  if 2 ≤ mstate s zid j then s else bump (failMember s zid j) regJrnRestart1 31 16 1

/-- keep_unstarted of R300. -/
def keepUnstarted (s : State) (zid r : Nat) : State :=
  let s := jrnRow s 0x0A zid r 0
  let base := rowBase s zid r
  let staged : Nat := ((s.extents.filter (fun x => decide (x.zid = zid) && decide (x.row = r))).map (fun x => x.first + x.count)).max?.getD 0
  let wp := (zone s zid).wp
  if decide (0 < staged) && !(decide (base ≤ wp) && decide (wp ≤ base + staged)) then dropExtents s zid r else s

/-- void_row of R300. -/
def voidTorn (s : State) (lt : Layout) (zid r : Nat) (st : List Classify) (sus : List Nat) : State :=
  let s := bump (jrnRow (setVoid s zid r) 0x03 zid r 1) regJrnRestart0 31 16 1
  let d := kindDeadline s .w none
  ((List.range (width lt)).filter (fun j => classAt st j = .erased && !(sus.contains j))).foldl (fun s j =>
    match loc? s zid j with
    | some (g, b) =>
      if mstate s zid j ≤ 1 then
        queueProg s { id := 0, kind := .w, type := .prog, glun := g, block := b, wl := r, deadline := d.1, real := d.2,
                      use := .pad zid r j true }
      else s
    | none => s) s

/-- refold of R300: the failed members of a row get its chunks, behind those of the rows below, from their catch-up unit, which needs no
lease (R127, R312). DEDUCED: the row counts as done at once, since k of its members are good (log entry 74). -/
def refold (s : State) (zid : Nat) (js : List Nat) : State :=
  js.foldl (fun s j => if mstate s zid j = 2 then addUnit s (fgOf s zid) zid j true else s) s

/-- settle_torn of R299: `true` where the row ends complete; `none` where no further row of the zone is settled. -/
def settleTorn (s : State) (lt : Layout) (zid r : Nat) (c : RowClass) (prog : Option (Nat × Nat)) : State × Option Bool :=
  let n := width lt
  let st := (List.range n).map (classAt c.members)
  let good := (st.filter (fun x => x = .good)).length
  let bad := (List.range n).filter (fun j => classAt st j ≠ .good)
  let done_ (s : State) : State :=
    raiseWp (bump (jrnRow s 0x02 zid r (rowEnd s zid r)) regJrnRestart0 15 0 1) zid (rowEnd s zid r)
  if good = n then (dropExtents (done_ s) zid r, some true)
  else
    let sus := suspects lt st
    let ms := match prog with
      | some p => (List.range n).filter (fun j => bit p.1 j || sus.contains j)
      | none => sus
    let s := if decide (0 < r) && !(voided s zid (r - 1)) then
        (ms.filter (fun j => classAt c.prev j ≠ .good)).foldl (fun s j => restartFail s zid j) s
      else s
    if s.extents.any (fun x => decide (x.zid = zid) && decide (x.row = r)) then
      if lt.k ≤ good then
        let s := bad.foldl (fun s j => restartFail s zid j) s
        (dropExtents (done_ (refold s zid bad)) zid r, some true)
      else
        let s := modZone s zid (fun e => { e with state := 3 })
        (bump (jrnZone s zid) regJrnRestart1 15 0 1, none)
    else (raiseWp (voidTorn s lt zid r st sus) zid (rowEnd s zid r), some false)

/-- The rows of a zone with an open intent, in turn (R299). -/
def settleRows (s : State) (lt : Layout) (es : List JEntry) (reads : List RowClass) (zid : Nat) :
    List (Nat × Nat) → Bool → State
  | [], _ => s
  | (r, idx) :: rest, may =>
    let prog := progressOf s es zid r
    if layoutIdx s zid ≠ some idx then settleRows (jrnRow s 0x0A zid r 0) lt es reads zid rest may
    else if !may || decide (prog = some (0, 0)) then settleRows (keepUnstarted s zid r) lt es reads zid rest false
    else match settleTorn s lt zid r (readsOf reads zid r (width lt)) prog with
      | (s, some ok_) => settleRows s lt es reads zid rest ok_
      | (s, none) => s

/-- A zone that was resetting: its LUN-blocks are erased again before their next use (R168), and it ends EMPTY. -/
def finishReset (s : State) (lt : Layout) (zid : Nat) : State :=
  let s := (List.range (width lt)).foldl (fun s j => match loc? s zid j with
    | some (g, b) => modBlk s g b (fun x => { x with interrupted := true })
    | none => s) s
  let e := zone s zid
  jrnZone (setZone s { e with state := 0, tv := false, tenant := 0, wp := 0, appendPt := 0, overlay := 0 }) zid

/-- The partial row of a zone from its extents; WP and the append point; OPEN becomes CLOSED (R299, R301). -/
def restZone (s : State) (lt : Layout) (zid : Nat) : State :=
  let e := zone s zid
  let rb := max 1 (rowBlks s lt)
  let mine := s.extents.filter (fun x => decide (x.zid = zid) && decide (x.row = e.wp / rb))
  let staged : Nat := (mine.map (fun x => x.first + x.count)).max?.getD 0
  let last := mine.find? (fun x => x.first + x.count = staged)
  let wp := if e.state = 3 ∨ e.state = 0 then e.wp else max e.wp (e.wp / rb * rb + staged)
  let part := if e.state = 3 ∨ wp % rb = 0 then 0 else staged
  let st := if e.state = 1 then 2 else e.state
  let t := setZone s { e with
    wp := wp, appendPt := wp, state := st, gather := part, staged := part, stgExt := if part = 0 then 0 else mine.length,
    stgSet := (last.map (fun x => x.set)).getD 0, stgWl := (last.map (fun x => x.wl)).getD 0, gv := false, gslot := 0, inflight := 0 }
  if !e.valid then s else if st = e.state then t else jrnZone t zid

/-- One zone restarted. -/
def restartZone (s : State) (lt : Layout) (es : List JEntry) (reads : List RowClass) (zid : Nat) : State :=
  let s := if (zone s zid).state = 4 then finishReset s lt zid else s
  restZone (settleRows s lt es reads zid (openIntents s es zid) true) lt zid

/-! ### The sweep of a hole (R302, R303) -/

/-- A row of a zone visited: confirmed, or marked lost. -/
def sweepRow (s : State) (lt : Layout) (zid r : Nat) (c : RowClass) : State :=
  let st := (List.range (width lt)).map (classAt c.members)
  if st.all (fun x => x = .good) && c.parityOk then raiseWp (jrnRow s 0x02 zid r (rowEnd s zid r)) zid (rowEnd s zid r)
  else bump (loseRow s zid r 2 (st.filter (fun x => x ≠ .good)).length) regJrnRestart2 15 0 1

/-- The rows of a zone from `r` on, up to one that reads erased or that holds an intent later than the hole. -/
def sweepRows (s : State) (lt : Layout) (es : List JEntry) (reads : List RowClass) (zid seq : Nat) : Nat → Nat → State
  | 0, _ => s
  | f + 1, r =>
    let c := readsOf reads zid r (width lt)
    if (List.range (width lt)).all (fun j => classAt c.members j = .erased) ||
        es.any (fun e => decide (e.typ = 1) && decide (e.zid = zid) && decide (e.row = r) && decide (seq ≤ e.seq)) then s
    else sweepRows (sweepRow s lt zid r c) lt es reads zid seq f (r + 1)

/-- One hole: the extents that staging word lines name, then the rows above WP of every zone that is not FULL. -/
def sweepHole (s : State) (lt : Layout) (fg : Nat) (es : List JEntry) (reads : List RowClass) (staged : List StagedHeader)
    (seq : Nat) : State :=
  let rb := max 1 (rowBlks s lt)
  let s := staged.foldl (fun s h =>
    let e := zone s h.zid
    if (zidsOf lt).contains h.zid && decide (e.wseq = h.wseq) && decide (e.wp / rb ≤ h.row) then
      addExtent s { fg := fg, set := h.set, wl := h.wl, nwl := extentWls s fg h.set h.count, zid := h.zid, wseq := h.wseq, row := h.row,
                    first := h.first, count := h.count, seq := h.seq }
    else s) s
  (zidsOf lt).foldl (fun s z =>
    if (zone s z).state = 3 then s
    else restZone (sweepRows s lt es reads z seq (dmWlb (layDie s lt)) ((zone s z).wp / rb)) lt z) s

/-! ### The whole restart -/

/-- The extents of a zone's partial row that its segment image names but no entry gives, from their headers' chain (R119). -/
def chainExtents (s : State) (fg : Nat) (staged : List StagedHeader) (zid : Nat) : State :=
  let e := zone s zid
  if e.staged = 0 ∨ s.extents.any (fun x => x.zid = zid) then s
  else
    (staged.filter (fun h => decide (h.zid = zid) && decide (h.wseq = e.wseq) && decide (h.seq ≤ e.stgExt))).foldl (fun s h =>
      addExtent s { fg := fg, set := h.set, wl := h.wl, nwl := extentWls s fg h.set h.count, zid := h.zid, wseq := h.wseq, row := h.row,
                    first := h.first, count := h.count, seq := h.seq }) s

/-- FAILURE_GROUP_RESTART (R299): a group that awaits restart and to which LAYOUT_DEFINE has bound a layout. The command
completes once what the restart wrote is durable. -/
def groupRestart (s : State) (fg : Nat) (reads : List RowClass) (staged : List StagedHeader) : State :=
  match boundLayout s fg with
  | none => s
  | some lt =>
    if !((group s fg).await) || !s.jrn.scanned || s.jrn.stopped then s
    else
      let es := groupEntries s fg
      let s := (zidsOf lt).foldl (fun s z => loadZone s fg z) s
      let s := (zidsOf lt).foldl (fun s z => chainExtents s fg staged z) (replay s es)
      let s := (zidsOf lt).foldl (fun s z => restartZone s lt es reads z) s
      let s := s.jrn.holes.foldl (fun s h => sweepHole s lt fg es reads staged h.2) s
      let s := segPages s s.jrn.dirty
      let bound := (zidsOf lt).find? (fun z => (zone s z).valid && decide ((group s fg).layout ≠ some (zone s z).layout))
      let foreign := es.any (fun e => decide (e.typ = 1) && decide ((group s fg).layout ≠ some (bits e.arg0 31 16)))
      let s := modGroup s fg (fun g => { g with await := false, boundary := bound.getD g.boundary, freshen := bound.isSome || foreign })
      let s := modJrn s (fun j => { j with found := j.found.filter (fun e => !(decide (e.fg = fg) && ofGroup e)) })
      let s := raise s 1013
      match s.cmds.find? (fun c => decide (opc c = 0x10) && decide (c.stage = .running) && decide (c.acc = [fg])) with
      | some c => finishDurable s c.cid { status := stOk, ra := cP0 c % 65536 }
      | none => s

/-- JRN_CMD action 1 (R607): the records of a group that awaits restart are discarded. -/
def jrnDiscard (s : State) (fg : Nat) : State :=
  if (group s fg).await && ((group s fg).layout).isNone then
    if s.jrn.stopped then s
    else
      let seq := s.jrn.seq
      let s := jrnAppend s { seq := 0, typ := 0x08, fg := fg, arg2 := 2 ^ 16 }
      modJrn s (fun j => { j with
        found := j.found.filter (fun e => !(decide (e.fg = fg) && ofGroup e)), discards := tset j.discards fg seq })
  else jrnFlag s 7

/-- Groups whose discard is durable await restart no more (R607). -/
def discardsDone (s : State) : State :=
  { s with
    groups := s.groups.map (fun p =>
      if p.2.await && p.2.layout.isNone && !(s.jrn.found.any (fun e => decide (e.fg = p.1) && ofGroup e)) &&
          decide (tget s.jrn.discards p.1 0 < s.jrn.durable) then (p.1, { p.2 with await := false })
      else p) }

end Sys2Proof.Machine
end

