-- ==== Sys2Proof/Machine/Rungs.lean ====
section
/-! DEFINITION. The state of a channel's PHY (chapter Channel PHY, Rate Ladder and Training): its rung and what the rung sets, its
effective top rung, its state and the event of a change. -/

namespace Sys2Proof.Machine

/-- STATE of PHY_STATE: 0 UP, 1 RETRAIN, 2 DERATED, 3 FENCED (R217). -/
def chanState (s : State) (c : Nat) : Nat := rdf s (regPhyState c) 1 0

/-- Every change of state raises the channel's event (R217). -/
def setChanState (s : State) (c v : Nat) : State :=
  if chanState s c = v then s
  else
    let s := raise (wrf s (regPhyState c) 1 0 v) (960 + c)
    trace s (c / 8) 6 c [rd s (regPhyState c)]

/-- The rung a channel runs on. -/
def chanRung (s : State) (c : Nat) : Nat := rdf s (regPhyState c) 6 4

/-- The present LUNs of a channel. -/
def chanLuns (s : State) (c : Nat) : List Nat := (s.luns.filter (fun p => decide (chOf p.1 = c))).map (fun p => p.1)

/-- Those that are not FAILED (STATE kind 2 code 2). -/
def goodLuns (s : State) (c : Nat) : List Nat :=
  (s.luns.filter (fun p => decide (chOf p.1 = c) && decide (p.2.state ≠ 2))).map (fun p => p.1)

/-- The highest rung that a channel may use (R198). -/
def topRung (s : State) (c : Nat) : Nat :=
  let dies := (goodLuns s c).map (dieOf s)
  let fits (r : Nat) : Bool :=
    dies.all (fun d => decide (rungRate r ≤ 100 * fieldAt d 0x2C 1) && (decide (r ≠ 0) || bit (dmFlags d) 1))
  ((List.range 7).find? (fun r => decide (min 6 (rdf s (regPhyCfg c) 10 8) ≤ r) && fits r)).getD 6

/-- The rung on which a full training from the top begins: rung 6 where the dies have both interfaces (R199). -/
def firstRung (s : State) (c : Nat) : Nat := if (phy s c).mixed then 6 else topRung s c

/-- IFACE of a channel's dies. -/
def chanIface (s : State) (c : Nat) : Bool := (((chanLuns s c).head?).map (fun g => bit (dmFlags (dieOf s g)) 0)).getD false

/-- The data interface of a rung (R197). -/
def dataIf (iface : Bool) (rung : Nat) : DataIf :=
  if 6 ≤ rung then .sdr
  else if iface then (if rung = 0 then .toggleExt else .toggle)
  else if rung = 0 then .lpddr4Ext else if rung ≤ 3 then .lpddr4 else .nvddr3

/-- A termination value in force on a rung: on for rungs 0 to 3, codes 5 to 15 acting as 4, else off (R197, R201, R224). -/
def termOn (rung code : Nat) : Nat := if rung ≤ 3 then min 4 code else 0

/-- The PHY's own termination while it receives (R201). -/
def hostTerm (s : State) (c : Nat) : Nat := termOn (chanRung s c) (rdf s (regPhyTerm c) 3 0)

/-- The strength with which it drives, on every rung (R201). -/
def driveOf (s : State) (c : Nat) : Nat := min 2 (rdf s (regPhyTerm c) 7 4)

/-- On-die termination and the die's own impedance calibration of one LUN after a switch into rungs 0 to 3 (R143, R201, R203). -/
def termLun (s : State) (c g : Nat) : State :=
  let d := dieOf s g
  let odt := termOn 0 (rdf s (regPhyTerm c) 11 8)
  let i := bit (dmFlags d) 0
  let s := modLun (busPut s g [dmByte d 0x23, BitVec.ofNat 8 (g % 8), Config.odtFeature i, BitVec.ofNat 8 odt, 0, 0, 0]) g
    (fun l => { l with odt := odt })
  match Config.zqCommand i with
  | some b => modLun (busPut s g [b, BitVec.ofNat 8 (g % 8)]) g (fun l => { l with zq := true })
  | none => s

/-- A channel switches to a rung: no chip enable has passed on it yet (R224). Into rungs 0 to 3 every present LUN gets its termination and
its own calibration, before training; on rungs 4 to 6 termination is off on both sides. -/
def switchRung (s : State) (c rung : Nat) : State :=
  if chanRung s c = rung then s
  else
    let s := wrf (wrf s (regPhyState c) 6 4 rung) (regPhyState c) 31 16 0
    let s := modPhy s c (fun p => { p with iface := dataIf (chanIface s c) rung })
    if rung ≤ 3 then (chanLuns s c).foldl (fun s g => termLun s c g) s
    else (chanLuns s c).foldl (fun s g => modLun s g (fun l => { l with odt := 0, zq := false })) s

/-- A trained channel's effective top rung, and its state, follow PHY_CFG.TOP and its LUNs (R198, R199, R217). One that runs above its top
stays as it is until it trains again: no trigger of R210 names that (DEDUCED, log entry 75). -/
def retop (s : State) (c : Nat) : State :=
  if (phy s c).kept = [] then s
  else
    let top := topRung s c
    let s := if rdf s (regPhyState c) 10 8 = top then s else wrf s (regPhyState c) 10 8 top
    let rung := chanRung s c
    if decide (chanState s c = 0) || decide (chanState s c = 2) then
      if rung < top then s else setChanState s c (if decide (rung = top) && !(phy s c).mixed then 0 else 2)
    else s

end Sys2Proof.Machine
end

