-- ==== Sys2Proof/Machine/Pump.lean ====
section
/-! DEFINITION. What follows of itself from a change of state: entries move into pages, rows go on once their entries are
durable, work that waited for a resource takes it, commands complete, the governor evaluates. -/

namespace Sys2Proof.Machine

/-- The journal's part: waiting entries move into pages, durability is taken over, pages that are held everywhere leave. -/
def pumpJournal (s : State) : State :=
  let s := if s.jrn.scanned && !s.jrn.stopped then drainBacklog s.jrn.backlog.length s else s
  let s := if s.jrn.scanned then turnAhead s else s
  discardsDone (retirePages (jrnMark s))

/-- The rows' part. -/
def pumpRows (s : State) : State := rowsProgram (rowsIntent s)

/-- Stagings with every copy good become durable once the journal takes entries. -/
def pumpStagings (s : State) : State := (s.stagings.map (fun g => g.sid)).foldl stageSettle s

/-- An entry to DROWSE or FURL stages what its last commands leave unstaged, too (R530). -/
def drainStage (s : State) : State := if s.pwr.step = .draining then stagePartials s else s

/-- Work that waited for a region, a slot, a lease, a zone or the hopper. -/
def pumpWork (s : State) : State :=
  let s := kickReshapes (kickRebuilds (kickRecons s))
  let s := kickSweeps (kickScrubs (retryResets (retryLeases (kickAuto s))))
  let s := retryAppends (settleZones s)
  drainStage ((List.range 4).foldl servePressure s)

/-- The channels' top rungs (R198, R217). -/
def pumpRungs (s : State) : State := (s.phys.map (fun p => p.1)).foldl retop s

/-- The WP_N pins that must move. -/
def pumpPins (s : State) : State :=
  if s.boot.released then
    ((List.range 32).filter (fun c => wpHigh s c != (tget s.buses c {}).wpn)).foldl wpPin s
  else s

/-- A RING_CONFIGURE with action 2 completes once its target has nothing in flight (R65). -/
def pumpDisables (s : State) : State :=
  ((s.cmds.filter (fun c => decide (opc c = 0x29) && c.stage == .waiting)).foldl (fun s c =>
    let r := cP0 c % 65536
    if inflight s r = 0 then finish s c.cid { ra := r, rb := 0 } else s)) s

/-- The governor evaluates, unless its engine is halted (R484). -/
def pumpGovern (s : State) : State := govEvaluate s

/-- Everything that follows of itself. -/
def pump (s : State) : State :=
  pumpGovern (pumpDomains (pumpPins (pumpRungs (clearHits (completeReady (pumpDisables (pfailProgress (releaseHeld (pumpWork (pumpStagings (pumpRows (pumpJournal s))))))))))))

end Sys2Proof.Machine
end

