-- ==== Sys2Proof/Machine/Phy.lean ====
section
/-! DEFINITION. Channel PHYs (chapter Channel PHY, Rate Ladder and Training): the rate ladder, training and its ends,
link checks, retrain triggers and fencing. -/

namespace Sys2Proof.Machine

/-! ### Chip enables and their training LUNs -/

/-- Chip enables to train: those with a LUN that is not FAILED (R204). -/
def trainCes (s : State) (c : Nat) : List Nat :=
  (List.range 16).filter (fun e => (goodLuns s c).any (fun g => ceOf g = e))

/-- The training LUN of a chip enable: the lowest-numbered that is not FAILED and has no array operation, no pending data-out and no
unconfirmed transfer (R204). -/
def trainLun (s : State) (c e : Nat) : Option Nat :=
  (goodLuns s c).find? (fun g => decide (ceOf g = e) && !(s.ops.any (fun o => decide (o.glun = g) &&
    (opInArray o || decide (o.phase = .dataOut) || decide (0 < o.pages)))))

/-- Every chip enable of a list has one. -/
def canTrain (s : State) (c : Nat) (ces : List Nat) : Bool := ces.all (fun e => (trainLun s c e).isSome)

/-! ### Entering and leaving RETRAIN -/

/-- Is the operation on a LUN of the channel? -/
def opOn (c : Nat) (o : Op) : Bool := decide (chOf o.glun = c)

/-- The channel enters RETRAIN: data-outs stop, reads of its LUNs go to reconstruction (R218, R220). -/
def enterRetrain (s : State) (c : Nat) : State :=
  if chanState s c = 1 then s
  else
    let s := setChanState s c 1
    let s := modPhy s c (fun p => { p with since := s.tick })
    let s := (s.ops.filter (fun o => opOn c o && o.leaving)).foldl (fun s o =>
      modOp (releaseOp s { o with peak := 0 }) o.id (fun o => { o with leaving := false, vccq := 0 })) s
    retrainReads s c

/-- A suspended operation, or one that is being suspended, is resumed. A read of its LUN that has yet to leave is issued again, since the
LUN goes on with another operation (R218, R219). -/
def retrainResume (s : State) (o : Op) : State :=
  let at_ := match o.phase with | .stopped t | .stopping t => t | _ => s.tick
  let s := modOp (resumeByte s o) o.id (fun o => { o with phase := .busy, resumeAt := s.tick, suspTicks := o.suspTicks + (s.tick - at_) })
  let s := modLun s o.glun (fun l => { l with ran := o.id })
  { s with
    ops := s.ops.map (fun x => if x.glun = o.glun ∧ x.type = .read ∧ x.phase = .dataOut then { x with phase := .waiting } else x) }

/-- Before the first training step unconfirmed program transfers are abandoned, to be made again after the retraining, and every suspended
operation is resumed (R218). -/
def settleBus (s : State) (c : Nat) : State :=
  let l := s.ops.filter (opOn c)
  let s := (l.filter (fun o => decide (o.type ≠ .rawSeq) && decide (0 < o.pages) && !(opInArray o))).foldl abandon s
  (l.filter (fun o => match o.phase with | .stopped _ | .stopping _ => true | _ => false)).foldl retrainResume s

/-- The channel leaves RETRAIN: the time spent there does not count in LUN timeouts (R218), nor twice where the operation was suspended for
a part of it (R142); its LUNs are polled (R219). -/
def leaveRetrain (s : State) (c : Nat) : State :=
  let since := (phy s c).since
  { s with
    ops := s.ops.map (fun o => if opOn c o && decide (o.phase = .busy) then
      { o with paused := o.paused + (s.tick - (if o.suspends = 0 then since else max since o.resumeAt)) } else o) }

/-- A retraining of a kind starts on a rung (R210); while the PLL is unlocked it waits for the lock (R216). -/
def startTrain (s : State) (c : Nat) (t : Train) (rung : Nat) : State :=
  let s := enterRetrain s c
  if (phy s c).unlocked then modPhy s c (fun p => { p with pend := some (t, rung) })
  else modPhy (switchRung (settleBus s c) c rung) c (fun p => { p with train := t, rung := rung, pend := none })

/-- A trigger of a quick retrain: it starts one on a channel that is in service (R210). -/
def quickTrigger (s : State) (c : Nat) : State :=
  if chanState s c = 0 ∨ chanState s c = 2 then startTrain s c .quick (chanRung s c) else s

/-- Temperature differs by TEMP_DELTA or more from the last pass (R210). -/
def tempTrigger (s : State) (c : Nat) : State :=
  let d := rdf s (regPhyTrig c) 7 0
  if decide (d ≠ 0) && decide (d ≤ (chTemp s c - (phy s c).passTemp).natAbs) && decide ((phy s c).train = .none)
  then quickTrigger s c else s

/-! ### Results of training -/

/-- Does a chip enable's training pass (R205)? On rung 6 the link check stands in for it (R211). -/
def cePasses (s : State) (c rung : Nat) (r : CeTrain) : Bool :=
  let m := rd s (regPhyMarginMin c)
  r.window && (decide (rung = 6) || (decide (bits m 7 0 ≤ r.readEye) && decide (bits m 15 8 ≤ r.writeEye)))

/-- The values that a training finds on a chip enable, kept in its registers (R204, R205, R206): the receive reference only where step 5
runs, which is in a full training on rungs 0 to 3. -/
def keepCe (s : State) (c rung : Nat) (quick : Bool) (r : CeTrain) : State :=
  let ref_ := if rung ≤ 3 && !quick then r.refCode % 256 else rd s (regPhyCeTrain c r.ce) % 256
  let s := wr s (regPhyCeTrain c r.ce)
    (r.readEye % 256 * 2 ^ 24 + r.writeEye % 256 * 2 ^ 16 + r.dqsDelay % 256 * 2 ^ 8 + ref_)
  (List.range 4).foldl (fun s i => wr s (regPhyDeskew c r.ce + 4 * i) (fieldAt r.deskew (4 * i) 4)) s

/-- The last attempt in PHY_TRAIN_LOG. The failing step of the rung-6 check, which is no step of the table, is a free value. -/
def logCe (s : State) (c rung : Nat) (quick : Bool) (r : CeTrain) : State :=
  let good := cePasses s c rung r
  let head := 2 ^ 31 + rung * 2 ^ 28 + r.ce % 16 * 2 ^ 24
  if rung = 6 then
    let (v, s) := freeVal s
    wr s (regPhyTrainLog c) (head + (if good then 0 else v % 16 * 2 ^ 4))
  else
    let step := if !r.window then r.step % 16 else if good then 0 else 8
    wr (keepCe s c rung quick r) (regPhyTrainLog c) (head + r.readEye % 256 * 2 ^ 16 + r.writeEye % 256 * 2 ^ 8 + step * 2 ^ 4)

/-- The results of the chip enables that a training covers, CE0 first (R204). -/
def trainGot (want : List Nat) (ces : List CeTrain) : List CeTrain := want.filterMap (fun e => ces.find? (fun r => r.ce = e))

/-- The chip enables that passed. -/
def passedCes (s : State) (c rung : Nat) (got : List CeTrain) : List Nat := (got.filter (cePasses s c rung)).map (fun r => r.ce)

/-- Impedance calibration ends (R202). -/
def zqDone (s : State) (c : Nat) (codes : Byte × Byte) (atEnd : Bool) : State :=
  let s := wr s (regPhyZq c) (2 ^ 31 + codes.1.toNat * 2 ^ 8 + codes.2.toNat)
  if atEnd then phyFlag s c 6 else s

/-- Two tap counts lie at most 8 apart. -/
def near8 (a b : Nat) : Bool := decide (a ≤ b + 8) && decide (b ≤ a + 8)

/-- A quick retrain searches at most 8 taps either side of the stored values (R206): a result farther off is no passing window. -/
def within8 (s : State) (c : Nat) (r : CeTrain) : CeTrain :=
  let near := near8 (r.dqsDelay % 256) (rd s (regPhyCeTrain c r.ce) / 2 ^ 8 % 256) &&
    (List.range 16).all (fun i => near8 (fieldAt r.deskew i 1) (rd s (regPhyDeskew c r.ce + 4 * (i / 4)) / 2 ^ (8 * (i % 4)) % 256))
  { r with window := r.window && near }

/-- A pass: the channel is UP on its effective top rung, DERATED below it or with mixed dies (R199, R217). An ACTION that PHY_CMD got
meanwhile comes next. -/
def trainPass (s : State) (c rung : Nat) (got : List CeTrain) : State :=
  let ok_ := passedCes s c rung got
  let top := topRung s c
  let s := wrf (wrf s (regPhyState c) 31 16 ((ok_.map (fun e => 2 ^ e)).sum)) (regPhyState c) 10 8 top
  let s := modPhy s c (fun p => { p with
    train := .none, rung := rung, lastPass := s.tick, passTemp := chTemp s c, trained := ok_, linkAt := s.tick,
    linkNext := 0, linkAll := [], kept := tset p.kept rung (got.filter (cePasses s c rung)) })
  govEvaluate (setChanState (leaveRetrain s c) c (if decide (rung = top) && !(phy s c).mixed then 0 else 2))

/-- Failure groups that hold a LUN of a channel, in the layout bound or in the one that a reshape goes to. -/
def chanGroups (s : State) (c : Nat) : List Nat :=
  (s.groups.filter (fun p => (p.2.layout.toList ++ p.2.newIdx.toList).any (fun i =>
    ((tget? s.layouts i).map (fun lt => lt.luns.any (fun g => chOf g = c))).getD false))).map (fun p => p.1)

/-- Raw commands whose operation has not begun on a FENCED channel end with CHANNEL_FENCED (R222). -/
def fenceRaw (s : State) (c : Nat) : State :=
  (s.ops.filter (fun o => opOn c o && decide (o.phase = .waiting) && decide (o.pages = 0))).foldl (fun s o =>
    match o.use with
    | .raw cid => finish (dropOp s o) cid (fencedResult o.glun o.block)
    | _ => s) s

/-- Rung 6 fails: the channel is FENCED and its LUNs become FAILED (R213), what runs in them is interrupted by RESET_LUN (R190), reads
and raw commands end (R222); each group with a LUN on it starts a rebuild at FENCE_SHARE (R214). -/
def fence (s : State) (c : Nat) : State :=
  let s := phyFlag s c 5
  let s := modPhy s c (fun p => { p with train := .none, asked := [] })
  let s := setChanState (leaveRetrain s c) c 3
  let s := (goodLuns s c).foldl lunFail s
  let s := fenceRaw (fenceReads ((chanLuns s c).foldl lunReset s) c) c
  let share := min 100 (rdf s (regPhyCfg c) 31 24)
  let s := if share = 0 then s else (chanGroups s c).foldl (fun s fg => fenceRebuild s fg share) s
  govEvaluate s

/-- Full training fails on a rung: the next lower one, or FENCED (R211, R213). -/
def stepDown (s : State) (c rung : Nat) (got : List CeTrain) : State :=
  let s := wrf (phyFlag s c 2) (regPhyState c) 31 16 (((passedCes s c rung got).map (fun e => 2 ^ e)).sum)
  if rung < 6 then
    let s := modPhy (phyFlag s c 3) c (fun p => { p with raiseAt := s.tick })
    startTrain s c .full (rung + 1)
  else fence s c

/-- Full training ends on a rung (R211, R212, R213, R215). A calibration at a range end, with the rest good, asks for another full
training on the rung (R210). -/
def fullDone (s : State) (c : Nat) (codes : Byte × Byte) (atEnd : Bool) (ces : List CeTrain) : State :=
  let p := phy s c
  let rung := p.rung
  let want := trainCes s c
  let got := trainGot want ces
  let s := zqDone (bump s (regPhyRetrains c) 31 16 1) c codes atEnd
  let s := got.foldl (fun s r => logCe s c rung false r) s
  let bad := want.filter (fun e => !((passedCes s c rung got).contains e))
  let good (s : State) : State :=
    let s := trainPass s c rung got
    if atEnd then startTrain s c .full rung else s
  if bad.isEmpty then good (if p.train = .raise then wrf s (regPhyState c) 3 2 0 else s)
  else if p.train = .raise then
    let s := wrf (phyFlag s c 2) (regPhyState c) 3 2 (min 3 (rdf s (regPhyState c) 3 2 + 1))
    startTrain (modPhy s c (fun p => { p with raiseAt := s.tick })) c .quick p.oldRung
  else if bad.length ≤ rdf s (regPhyCfg c) 15 12 ∧ bad.length < want.length then
    let s := phyFlag s c 4
    good (((goodLuns s c).filter (fun g => bad.contains (ceOf g))).foldl lunFail s)
  else stepDown s c rung got

/-- A quick retrain ends (R206, R210): it passes when every trained chip enable does; without any it has failed. -/
def quickDone (s : State) (c : Nat) (codes : Byte × Byte) (atEnd : Bool) (ces : List CeTrain) : State :=
  let p := phy s c
  let want := p.trained.filter (fun e => (trainCes s c).contains e)
  let got := (trainGot want ces).map (within8 s c)
  let s := zqDone (bump s (regPhyRetrains c) 15 0 1) c codes atEnd
  let s := got.foldl (fun s r => logCe s c p.rung true r) s
  if !atEnd && !(want.isEmpty) && want.all (fun e => (passedCes s c p.rung got).contains e) then trainPass s c p.rung got
  else startTrain s c .full p.rung

/-! ### Commands -/

/-- A raise attempt starts one rung up (R215). -/
def raiseStart (s : State) (c : Nat) : State :=
  let r := chanRung s c
  if decide (chanState s c = 2) && !(phy s c).mixed && decide (topRung s c < r) then
    startTrain (modPhy s c (fun p => { p with oldRung := r })) c .raise (r - 1)
  else s

/-- A channel on which PHY_CMD may start a training: none runs, its PLL is locked. -/
def phyFree (s : State) (c : Nat) : Bool :=
  decide (chanState s c ≠ 1) && decide ((phy s c).train = .none) && !(phy s c).unlocked

/-- An ACTION of PHY_CMD on a channel that is free (R210, R224). -/
def phyAct (s : State) (c act : Nat) : State :=
  match act with
  | 1 => startTrain s c .quick (chanRung s c)
  | 2 => startTrain s c .full (firstRung s c)
  | 3 => raiseStart s c
  | _ => s

/-- PHY_CMD by its ACTION. DEDUCED: one written while the channel is in RETRAIN acts once the training has ended (log entry 75). -/
def phyCmd (s : State) (c act : Nat) : State :=
  let s := if act = 3 then wrf s (regPhyState c) 3 2 0 else s
  if phyFree s c then phyAct s c act
  else if decide (1 ≤ act) && decide (act ≤ 3) then modPhy s c (fun p => { p with asked := p.asked ++ [act] })
  else s

/-- The next ACTION that waits. -/
def phyAsked (s : State) (c : Nat) : State :=
  match (phy s c).asked with
  | a :: r => if phyFree s c then phyAct (modPhy s c (fun p => { p with asked := r })) c a else s
  | [] => s

/-- FULL_TRAINING_DONE (R211), once every chip enable has had its training LUN (R204). -/
def execFullTrainingDone (c : Chan) (zqCodes : Byte × Byte) (zqEnd : Bool) (ces : List CeTrain) (s : State) : Out :=
  ok (pump (if decide ((phy s c).train = .full ∨ (phy s c).train = .raise) && canTrain s c (trainCes s c) then
    phyAsked (fullDone s c zqCodes zqEnd ces) c else s))

/-- QUICK_RETRAIN_DONE (R206). -/
def execQuickRetrainDone (c : Chan) (zqCodes : Byte × Byte) (zqEnd : Bool) (ces : List CeTrain) (s : State) : Out :=
  ok (pump (if decide ((phy s c).train = .quick) && canTrain s c ((trainCes s c).filter (fun e => (phy s c).trained.contains e)) then
    phyAsked (quickDone s c zqCodes zqEnd ces) c else s))

/-- A failed link check sets LINK_FAIL and starts a quick retrain (R210). -/
def linkFail (s : State) (c : Nat) : State := quickTrigger (phyFlag s c 0) c

/-- The parameter page of a training LUN is read on the present rung (R143, R208): its page register holds that now. -/
def linkRead (s : State) (g : Nat) : State :=
  let (id, s) := fresh s
  modLun (busPut s g [0xEC]) g (fun l => { l with ran := id })

/-- A link check of a chip enable ends (R208): the next in turn when its share of the period has passed, or one that an
error burst asks for (R209). It needs the chip enable's training LUN and the bus. -/
def linkCheck (s : State) (c ce : Nat) (pass : Bool) : State :=
  let p := phy s c
  let n := max 1 p.trained.length
  let turn := decide (p.trained.getD p.linkNext 16 = ce) && due s p.linkAt (rd s (regPhyLinkIvl c) / n)
  match trainLun s c ce with
  | none => s
  | some g =>
    if chanUp s c && domOn s (32 + c) && (leavingOp s c).isNone && (turn || p.linkAll.contains ce) then
      let s := if p.linkAll.contains ce then modPhy s c (fun p => { p with linkAll := p.linkAll.filter (fun e => e ≠ ce) })
        else modPhy s c (fun p => { p with linkAt := s.tick, linkNext := (p.linkNext + 1) % n })
      let s := linkRead s g
      if pass then s else linkFail s c
    else s

/-- LINK_CHECK (R208). -/
def execLinkCheck (c : Chan) (ce : Fin 16) (pass : Bool) (s : State) : Out := ok (pump (linkCheck s c ce pass))

/-- QUICK_RETRAIN_PERIOD (R210). -/
def execQuickRetrainPeriod (c : Chan) (s : State) : Out :=
  ok (pump (if due s (phy s c).lastPass (rd s (regPhyQuickIvl c)) then quickTrigger s c else s))

/-- RAISE_ATTEMPT (R215). -/
def execRaiseAttempt (c : Chan) (s : State) : Out :=
  ok (pump (if due s (phy s c).raiseAt (rd s (regPhyRaiseMs c) * 100000) && !(bit (rd s (regPhyCfg c)) 16) &&
        decide (rdf s (regPhyState c) 3 2 < 3) then raiseStart s c else s))

/-- The PLL loses lock: the channel moves nothing until it locks again (R216). A fenced channel stays FENCED. -/
def pllUnlock (s : State) (c : Nat) : State :=
  let s := phyFlag s c 7
  if chanState s c = 3 then modPhy s c (fun p => { p with unlocked := true })
  else modPhy (enterRetrain s c) c (fun p => { p with
    unlocked := true, train := .none, pend := if p.train = .none then p.pend else some (p.train, p.rung) })

/-- PLL_UNLOCK (R216). -/
def execPllUnlock (c : Chan) (s : State) : Out := ok (pump (pllUnlock s c))

/-- PLL_LOCK: the channel runs a quick retrain; one that has never passed goes on with the training that it lost or has yet to start
(R216). -/
def pllLock (s : State) (c : Nat) : State :=
  if (phy s c).unlocked then
    let p := phy s c
    let s := modPhy s c (fun p => { p with unlocked := false, pend := none })
    if decide (chanState s c = 1) && !((trainCes s c).isEmpty) then
      match p.pend, decide (p.kept = []) with
      | some (t, r), true => startTrain s c t r
      | _, _ => startTrain s c .quick (chanRung s c)
    else s
  else s

/-- PLL_LOCK. -/
def execPllLock (c : Chan) (s : State) : Out := ok (pump (pllLock s c))

end Sys2Proof.Machine
end

