-- ==== Sys2Proof/Machine/Engine.lean ====
section
/-! DEFINITION. The engine machine (chapter Engines, Microcode and Measured Configuration): microwords, dispatch, safe
points, machine checks, halts and the block fault. -/

namespace Sys2Proof.Machine

/-! ### State of an engine -/

/-- An engine. -/
def eng (s : State) (e : Nat) : EngineSt := tget s.engines e {}

/-- An engine changed. -/
def modEng (s : State) (e : Nat) (f : EngineSt → EngineSt) : State := { s with engines := tmod s.engines e {} f }

/-- A general register. -/
def greg (en : EngineSt) (i : Nat) : Word := tget en.g i 0

/-- A general register written. -/
def setG (en : EngineSt) (i : Nat) (v : Word) : EngineSt := { en with g := wput en.g i v }

/-- The next microword address. -/
def pcNext (en : EngineSt) : EngineSt := { en with pc := (en.pc + 1) % 2 ^ 14 }

/-- The kind of an engine (R471). -/
def engKind (e : Nat) : Nat :=
  if e < 32 then 0 else if e < 40 then 1 else if e < 44 then 2 else if e < 48 then 3 else if e = 48 then 4 else 5

/-- A dispatch entry of an engine's current slot (R476). -/
def dispEntry (s : State) (e i : Nat) : Nat := tget (tget s.cfg.cur e {}).disp i 0

/-! ### Halts and the block fault -/

/-- A block fault (R522): recorded, source 1,019 raised, the power-fail steps 1 to 4 run, IX_ALIVE stops. -/
def blockFaultAt (s : State) (cause e second : Nat) : State :=
  if s.blockFault then s
  else
    let s := wr (faultFlag s 5) regGlbBlockFault (2 ^ 31 + cause * 2 ^ 28 + second * 2 ^ 8 + e)
    pfailSteps { s with blockFault := true, aliveOn := false }

/-- An engine is halted (R484). -/
def haltEngine (s : State) (e : Nat) : State :=
  let s := modEng (engFlag s e 5) e (fun en => { en with mode := 3, wait := none })
  if e < 32 then fence s e
  else if e < 40 then
    let other := 32 + 2 * ((e - 32) / 2) + (1 - (e - 32) % 2)
    if (eng s other).mode = 3 then blockFaultAt s 2 other e else s
  else blockFaultAt s 1 e 0

/-! ### Machine checks -/

/-- A staging slot of a channel is freed a second time: the free is ignored and recorded (R439). -/
def slotFreedAgain (s : State) (c slot : Nat) : State :=
  wr (wr (wr (sticky s regDmaStatus 1) regDmaFreeLog0 (slot % 128)) regDmaFreeLog1 0) regDmaFreeLog2 (3 * 2 ^ 30 + c % 32 / 8 * 64 + c % 32)

/-- A data-out that a machine check ends: its read is issued again (R483). Whether the sequencer had freed the codeword's staging
slot before its recovery frees it is open: a free value says it (log entry 41). -/
def dataOutAgain (s : State) (e : Nat) (o : Op) : State :=
  let (v, s) := freeVal s
  let s := if bit v 0 then slotFreedAgain s e (v / 2 % 112) else s
  modOp s o.id (fun o => { o with phase := .granted })

/-- The failure group whose reshape copies a new row with this number. -/
def copyOf? (s : State) (rid : Nat) : Option (Nat × CopyRow) :=
  s.groups.findSome? (fun g => (g.2.cp.filter (fun c => c.rid = rid)).map (fun c => (g.1, c)))

/-- A stripe engine's item, which a row, a reconstruction or a new row of a reshape names: it is streamed again from its start (R483). -/
def steOutcome (s : State) (w : Nat) (r : Result) : State :=
  match row? s w, recon? s w, copyOf? s w with
  | some _, _, _ => rowChecked s w r
  | _, some x, _ => reconAgain s x
  | _, _, some g => if g.2.ste.isSome && g.2.parity.isEmpty then copyStreams s g.1 else s
  | _, _, _ => s

/-- A maintenance engine's item (R483): a patrol visit, named by one of its reads, is skipped until the next pass; a row of a rebuild,
named by one of its reconstructions, and a new row of a reshape are done again; a command completes and frees its leases. -/
def mneOutcome (s : State) (w : Nat) (r : Result) : State :=
  let visit := (s.items.find? (fun i => i.id = w)).bind (fun i =>
    i.use.find? (fun u => match u with | .patrol _ => true | _ => false))
  let unit := (recon? s w).bind (fun x => match x.use with | .spare fg zid _ _ => some (fg, zid) | _ => none)
  match visit, unit, copyOf? s w with
  | some u, _, _ => dropUses s (fun x => decide (x = u))
  | _, some x, _ => unitAgain s x.1 x.2
  | _, _, some g => if g.2.began then s else dropCp s g.1
  | _, _, _ => freeLeases (finish s w r) w

/-- What becomes of the item in progress (R483); a command ends with the result given. -/
def itemOutcome (s : State) (e : Nat) (r : Result) : State :=
  match (eng s e).work with
  | none => s
  | some w =>
    match engKind e with
    | 0 =>
      match s.ops.find? (fun o => o.glun = w) with
      | some o =>
        if o.phase = .dataOut then dataOutAgain s e o
        else if o.phase = .busy ∨ 0 < o.pages then opTimedOut s o else s
      | none => s
    | 1 => steOutcome s w r
    | 2 => finish s w r
    | 3 => mneOutcome s w r
    | _ => s

/-- Records a machine check (R480): the cause bit, the log and source 1,020. -/
def logCheck (s : State) (e cause : Nat) : State :=
  let en := eng s e
  let s := wr (engFlag s e (cause - 1)) (regEngMcLog e) (2 ^ 31 + cause * 2 ^ 28 + en.opcode % 256 * 2 ^ 20 + en.pc)
  raise s 1020

/-- The engine runs its recovery routine at dispatch entry 0x00 of its current slot (R483). An invalid entry there is a
machine check met in recovery, and halts it (R484). -/
def recover (s : State) (e : Nat) : State :=
  let d := dispEntry s e 0
  if bit d 15 then
    modEng s e (fun en => { en with
      mode := 2, pc := d % 2 ^ 14, stack := [], steps := 0, wait := none, work := none, hook := none, opcode := 0 })
  else haltEngine (logCheck s e 2) e

/-- A machine check (R480, R483, R484). -/
def machineCheck (s : State) (e cause : Nat) : State :=
  let en := eng s e
  let s := itemOutcome (logCheck s e cause) e { status := stMachineCheck, ra := e, detail := en.pc }
  let cs := (s.tick :: en.checks).take 3
  let s := modEng s e (fun en => { en with checks := cs, work := none })
  if en.mode = 2 ∨ (cs.length = 3 ∧ s.tick ≤ cs.getLastD 0 + 100000000) then haltEngine s e
  else recover s e

/-- A parity error on a control-store or dispatch fetch (R481): the line is reloaded from the DRAM image of the slot. -/
def parityError (s : State) (e line : Nat) : State :=
  let inst := 2 * e + (eng s e).bank
  if imageMatches s (tget s.cfg.cur e {}) line then
    machineCheck (cfgFlag (recovered s 4 inst 0 line) 2) e 1
  else
    let s := cfgFlag (unrecovered s 4 inst 0 line) 4
    let s := itemOutcome (logCheck s e 1) e { status := stMachineCheck, ra := e, detail := (eng s e).pc }
    haltEngine (modEng s e (fun en => { en with work := none })) e

/-! ### One microword -/

/-- A microword executes where the engine is not halted, not in a WAIT and has not overrun (R472, R477, R478): the
step is counted, a safe point is taken before a microword with SAFE 1. A hook that exceeds 4,096 steps is a machine
check with cause 3 (R487). -/
def micro (s : State) (e : Nat) (safe : Bool) (f : State → State) : State :=
  let en := eng s e
  if decide (en.mode = 3) || en.wait.isSome || decide (256 ≤ en.steps) then s
  else
    let s := if safe then safePoint s e else s
    let s := bump s (regEngSteps e) 31 0 1
    let s := modEng s e (fun en => { en with
      mode := if en.mode = 2 then 2 else 1, steps := if safe then 0 else en.steps + 1, hook := en.hook.map (· + 1) })
    if decide (4096 < (eng s e).hook.getD 0) then machineCheck s e 3 else f s

/-- Z and N of a result, and C. The spec does not say how C is formed but for what ADD's name gives: it is a free value
for every other function (log entry 10). -/
def setFlags (s : State) (e : Nat) (r : Word) (carry : Option Bool) : State :=
  let (c, s) := match carry with
    | some b => (b, s)
    | none => let (v, s) := freeVal s; (bit v 0, s)
  modEng s e (fun en => { en with z := decide (r = 0), n := r.getLsbD 31, c := c })

/-- An ALU microword: flags, and DST but for CMP (R474). -/
def alu (s : State) (e : Nat) (safe : Bool) (dst : Option Nat) (a b : Nat) (fn : Word → Word → Word)
    (carry : Word → Word → Option Bool) : State :=
  micro s e safe (fun s =>
    let en := eng s e
    let r := fn (greg en a) (greg en b)
    let s := setFlags s e r (carry (greg en a) (greg en b))
    modEng s e (fun en => pcNext (match dst with | some d => setG en d r | none => en)))

/-- No carry rule is given. -/
def noCarry (_ _ : Word) : Option Bool := none

/-- Multiplication per byte under R268. -/
def gfmulWord (a b : Word) : Word :=
  w32 (((List.range 4).map (fun i => gfmul 0x1D (bits a.toNat (8 * i + 7) (8 * i)) (bits b.toNat (8 * i + 7) (8 * i)) *
    2 ^ (8 * i))).sum)

/-- TRAP, and the illegal operations (R474): machine check with cause 4. -/
def execTrap (e : Engine) (safe : Bool) (s : State) : Out := ok (micro s e.val safe (fun s => machineCheck s e.val 4))

/-- ALU ADD. -/
def execAluAdd (e : Engine) (safe : Bool) (dst a b : Fin 16) (s : State) : Out :=
  ok (alu s e.val safe (some dst.val) a.val b.val (· + ·) (fun x y => some (decide (2 ^ 32 ≤ x.toNat + y.toNat))))

/-- ALU SUB. -/
def execAluSub (e : Engine) (safe : Bool) (dst a b : Fin 16) (s : State) : Out :=
  ok (alu s e.val safe (some dst.val) a.val b.val (· - ·) noCarry)

/-- ALU AND. -/
def execAluAnd (e : Engine) (safe : Bool) (dst a b : Fin 16) (s : State) : Out :=
  ok (alu s e.val safe (some dst.val) a.val b.val (· &&& ·) noCarry)

/-- ALU OR. -/
def execAluOr (e : Engine) (safe : Bool) (dst a b : Fin 16) (s : State) : Out :=
  ok (alu s e.val safe (some dst.val) a.val b.val (· ||| ·) noCarry)

/-- ALU XOR. -/
def execAluXor (e : Engine) (safe : Bool) (dst a b : Fin 16) (s : State) : Out :=
  ok (alu s e.val safe (some dst.val) a.val b.val (· ^^^ ·) noCarry)

/-- A shift by the value of SRCB; by 32 or more the spec states no result: a free value (log entry 10). -/
def shift (s : State) (e : Nat) (safe : Bool) (dst a b : Nat) (fn : Word → Nat → Word) : State :=
  let n := (greg (eng s e) b).toNat
  if n < 32 then alu s e safe (some dst) a b (fun x y => fn x y.toNat) noCarry
  else
    let (v, s') := freeVal s
    alu s' e safe (some dst) a b (fun _ _ => w32 v) noCarry

/-- ALU SHL. -/
def execAluShl (e : Engine) (safe : Bool) (dst a b : Fin 16) (s : State) : Out :=
  ok (shift s e.val safe dst.val a.val b.val (fun x n => x <<< n))

/-- ALU SHR. -/
def execAluShr (e : Engine) (safe : Bool) (dst a b : Fin 16) (s : State) : Out :=
  ok (shift s e.val safe dst.val a.val b.val (fun x n => x >>> n))

/-- ALU GFMUL. -/
def execAluGfmul (e : Engine) (safe : Bool) (dst a b : Fin 16) (s : State) : Out :=
  ok (alu s e.val safe (some dst.val) a.val b.val gfmulWord noCarry)

/-- ALU CMP: the flags of SUB only. -/
def execAluCmp (e : Engine) (safe : Bool) (_dst a b : Fin 16) (s : State) : Out :=
  ok (alu s e.val safe none a.val b.val (· - ·) noCarry)

/-- ALU MOV: DST := SRCA. -/
def execAluMov (e : Engine) (safe : Bool) (dst a b : Fin 16) (s : State) : Out :=
  ok (alu s e.val safe (some dst.val) a.val b.val (fun x _ => x) noCarry)

/-- LDI: one half of DST loaded, the other unchanged. -/
def ldiWord (old : Word) (high : Bool) (imm : Nat) : Word :=
  if high then w32 (putBits old.toNat 31 16 imm) else w32 (putBits old.toNat 15 0 imm)

/-- LDI (R474). -/
def execLdi (e : Engine) (safe : Bool) (high : Bool) (dst : Fin 16) (imm : BitVec 16) (s : State) : Out :=
  ok (micro s e.val safe (fun s => modEng s e.val (fun en =>
    pcNext (setG en dst.val (ldiWord (greg en dst.val) high imm.toNat)))))

/-- The local word that a MEM microword names (R474), in the current bank. -/
def localIdx (en : EngineSt) (base off : Nat) : Nat := en.bank * 4096 + ((greg en base).toNat + off) % 4096

/-- A detection in local data memory: nothing recovers it; the item ends as R483 gives, a command with INTERNAL_CHECK at
site 0x44 (R511, R515). -/
def localDetect (s : State) (e line : Nat) : State :=
  let s := unrecovered s 6 (2 * e + (eng s e).bank) 2 line
  recover (itemOutcome s e { status := stInternal, ra := e, rb := line, detail := 0x44 }) e

/-- MEM load (R474). -/
def execMemLoad (e : Engine) (safe : Bool) (reg base : Fin 16) (off : BitVec 14) (detect : Bool) (s : State) : Out :=
  ok (micro s e.val safe (fun s =>
    let i := localIdx (eng s e.val) base.val off.toNat
    if detect then localDetect s e.val (i % 4096 / 16)
    else modEng s e.val (fun en => pcNext (setG en reg.val (tget en.locals i 0)))))

/-- MEM store (R474). -/
def execMemStore (e : Engine) (safe : Bool) (reg base : Fin 16) (off : BitVec 14) (s : State) : Out :=
  ok (micro s e.val safe (fun s => modEng s e.val (fun en =>
    pcNext { en with locals := wput en.locals (localIdx en base.val off.toNat) (greg en reg.val) })))

/-- The condition of a BR; none for the illegal codes. -/
def brCond (en : EngineSt) (cond : Nat) : Option Bool :=
  match cond with
  | 0 => some true
  | 1 => some en.z
  | 2 => some !en.z
  | 3 => some en.c
  | 4 => some !en.c
  | 5 => some en.n
  | _ => none

/-- BR (R474). -/
def execBr (e : Engine) (safe : Bool) (cond : Fin 16) (target : BitVec 14) (s : State) : Out :=
  ok (micro s e.val safe (fun s =>
    match brCond (eng s e.val) cond.val with
    | some true => modEng s e.val (fun en => { en with pc := target.toNat })
    | some false => modEng s e.val pcNext
    | none => machineCheck s e.val 4))

/-- CALL (R474, R475). -/
def execCall (e : Engine) (safe : Bool) (target : BitVec 14) (s : State) : Out :=
  ok (micro s e.val safe (fun s =>
    if 8 ≤ (eng s e.val).stack.length then machineCheck s e.val 5
    else modEng s e.val (fun en => { en with stack := (en.pc + 1) % 2 ^ 14 :: en.stack, pc := target.toNat })))

/-- CALL with RET 1: a return (R474, R475). -/
def execRet (e : Engine) (safe : Bool) (_target : BitVec 14) (s : State) : Out :=
  ok (micro s e.val safe (fun s =>
    match (eng s e.val).stack with
    | [] => machineCheck s e.val 5
    | a :: r => modEng s e.val (fun en => { en with stack := r, pc := a })))

/-! ### Ports -/

/-- The die-model bytes that a hook may not send (R487). -/
def hookForbidden (d : List Byte) : List Byte :=
  [0x15, 0x16, 0x1C, 0x20, 0x25, 0x26, 0x27, 0x28].map (dmByte d)

/-- The hook buffer's bytes: local words 3,840 upward (R487). -/
def hookBytes (en : EngineSt) (n : Nat) : List Byte :=
  slice ((List.range ((n + 3) / 4)).flatMap (fun i => leBytes 4 (tget en.locals (en.bank * 4096 + 3840 + i) 0).toNat)) 0 n

/-- A phase that a hook puts on its channel's bus. -/
def hookBus (s : State) (c : Nat) (b : List Byte) : State :=
  { s with buses := tmod s.buses c {} (fun u => { u with bytes := b }) }

/-- Data that a die returns into the hook buffer: free values (the command does not carry them, log entry 9). -/
def hookFill (e : Nat) : Nat → State → State
  | 0, s => s
  | n + 1, s =>
    let (v, s) := freeVal s
    hookFill e n (modEng s e (fun en => { en with locals := wput en.locals (en.bank * 4096 + 3840 + n) (w32 v) }))

/-- A request on a hook's port (R487); none where the byte is one that a hook may not send. -/
def hookPort (s : State) (e glun portNo a b : Nat) : Option State :=
  match portNo with
  | 0 =>
    if (hookForbidden (dieOf s glun)).contains (BitVec.ofNat 8 a) then none
    else some (hookBus (modEng s e (fun en => { en with rowCyc := 0 })) e [BitVec.ofNat 8 a])
  | 1 =>
    let k := (eng s e).rowCyc
    let d := dieOf s glun
    let sh := fieldAt d 0x13 1
    if bit b 0 then
      let row := if bit (dmFlags d) 3 then a % 256 * 2 ^ (8 * k) else putBits (a % 256 * 2 ^ (8 * k)) (sh + 2) sh (glun % 8)
      some (hookBus (modEng s e (fun en => { en with rowCyc := k + 1 })) e [BitVec.ofNat 8 (row / 2 ^ (8 * k))])
    else some (hookBus s e [BitVec.ofNat 8 a])
  | 2 => some (hookBus s e (hookBytes (eng s e) (min 256 a)))
  | 3 => some (hookFill e ((min 256 a + 3) / 4) s)
  | 6 =>
    let l := (hookBytes (eng s e) 16).map (fun x => sbyte x.toNat)
    let mine (o : Op) : Bool := decide (o.glun = glun) && decide (o.type = .read)
    some { s with ops := modFirst mine (fun o => { o with levels := l }) s.ops }
  | _ => some s

/-- PORT (R474, R475): the request stands with its registers and CODE until a WAIT takes its reply. -/
def execPort (e : Engine) (safe : Bool) (portNo : Fin 64) (regA regB : Fin 16) (code : BitVec 13) (s : State) : Out :=
  ok (micro s e.val safe (fun s =>
    let en := eng s e.val
    let p := portNo.val
    let a := greg en regA.val
    let b := greg en regB.val
    let hook := en.hook.isSome && decide (p < 7)
    if !hook && !(Config.enginePort (engKind e.val) p) then machineCheck s e.val 4
    else
      let go (s : State) : State := modEng s e.val (fun en =>
        pcNext { en with req := tset en.req p (regA.val, a, b, code.toNat) })
      if hook then
        match hookPort s e.val (en.work.getD 0) p a.toNat b.toNat with
        | some s => go s
        | none => machineCheck s e.val 4
      else go s))

/-- WAIT (R474, R477, R479): a safe point; port 63 waits for REGT ticks, any other for the port's acknowledge. -/
def execWait (e : Engine) (safe : Bool) (portNo : Fin 64) (regT : Fin 16) (s : State) : Out :=
  ok (micro s e.val (safe || true) (fun s =>
    let en := eng s e.val
    let w : EngWait :=
      if portNo.val = 63 then { port := 63, reg := 0, until_ := some (s.tick + (greg en regT.val).toNat) }
      else { port := portNo.val, reg := ((tget? en.req portNo.val).map (fun r => r.1)).getD 0 }
    modEng s e.val (fun en => { en with wait := some w })))

/-- A WAIT ends (R479): the reply goes to REGA of the request, none on port 63. -/
def waitEnd (s : State) (e : Nat) (reply : Word) : State :=
  let en := eng s e
  match en.wait with
  | none => s
  | some w =>
    match w.until_ with
    | some t => if t ≤ s.tick then modEng s e (fun en => pcNext { en with wait := none }) else s
    | none => modEng s e (fun en => pcNext (setG { en with wait := none, req := terase en.req w.port } w.reg reply))

/-- MICROWORD_WAIT_END (R479). -/
def execMicrowordWaitEnd (e : Engine) (reply : Word) (s : State) : Out := ok (waitEnd s e.val reply)

/-! ### Dispatch -/

/-- A jump through a dispatch entry (R476); `skip` where a hook's entry is invalid (R486). -/
def dispatch (s : State) (e i : Nat) (skip : State → State) : State :=
  let d := dispEntry s e i
  let hook := decide (e < 32) && decide (0xC0 ≤ i)
  if bit d 15 then
    modEng s e (fun en => { en with pc := d % 2 ^ 14, hook := if hook then some 0 else en.hook })
  else if hook then skip s
  else machineCheck s e 2

/-- DISP (R474, R476, R481). -/
def execDisp (e : Engine) (safe : Bool) (reg : Fin 16) (parityErr : Bool) (s : State) : Out :=
  ok (micro s e.val safe (fun s =>
    let i := (greg (eng s e.val) reg.val).toNat % 256
    if parityErr then parityError s e.val (1024 + i / 32)
    else dispatch s e.val i (fun s => modEng s e.val pcNext)))

/-- An engine takes its next item, or none waits (R476); `perr` is a parity error on the fetch (R481). -/
def takeItem (s : State) (e : Nat) (next : Option (Byte × Nat)) (perr : Bool) : State :=
  let line := (eng s e).pc / 16
  let s := modEng s e (fun en => { en with work := none, hook := none, opcode := 0, stack := [] })
  match next with
  | none =>
    if perr then parityError s e line else modEng s e (fun en => { en with mode := 0 })
  | some (op, w) =>
    let s := modEng s e (fun en => { en with mode := 1, opcode := op.toNat, work := some w })
    if perr then parityError s e (1024 + op.toNat / 32)
    else dispatch s e op.toNat (fun s => modEng s e (fun en => { en with mode := 0, work := none, opcode := 0 }))

/-- DONE (R474, R476, R477): a safe point; the item ends and the next is dispatched. -/
def execDone (e : Engine) (safe : Bool) (next : Option (Byte × Nat)) (parityErr : Bool) (s : State) : Out :=
  ok (micro s e.val (safe || true) (fun s => takeItem s e.val next parityErr))

/-- SAFE_POINT_OVERRUN (R478). -/
def execSafePointOverrun (e : Engine) (s : State) : Out :=
  ok (if decide (256 ≤ (eng s e.val).steps) && decide ((eng s e.val).mode ≠ 3) then machineCheck s e.val 3 else s)

end Sys2Proof.Machine
end

