-- ==== Sys2Proof/Machine/Trust.lean ====
section
/-! DEFINITION. Measured configuration (chapter Engines, Microcode and Measured Configuration): staging, commit and
drain, audit, measurement reports. -/

namespace Sys2Proof.Machine

/-- The stage items at an address of SoC memory, each with its image; an image is read only where the item's unit,
kind, length and address are legal. -/
def readItems (s : State) (at_ n off : Nat) : List (List Byte × List Byte) :=
  (List.range n).map (fun i =>
    let b := dramRead s (at_ + 32 * i) 32
    let ok_ := kindUnit (itKind b) (itUnit b) && kindLen (itKind b) (itIndex b) (itLen b) &&
      kindAddr (itKind b) (itIndex b) (itAddr b)
    (b, if ok_ then dramRead s (off + itAddr b) (itLen b) else []))

/-- What a CONFIG_STAGE reads: its items, and the images of those that may be read. -/
def stageSpans (c : Cmd) (items : List (List Byte × List Byte)) : List (Nat × Nat × Nat) :=
  (0, cPtr c, 32 * cCount c) :: items.map (fun p => (0, itAddr p.1, p.2.length))

/-- CONFIG_STAGE (R488 to R491): the global unit reads through MP0 (R22). -/
def configStage (s : State) (cid : Nat) (mp : PortEnd) : State :=
  start s cid 0x30 (fun s c =>
    let gen := cP0 c % 2 ^ 32
    let items := readItems s (cPtr c) (cCount c) 0
    if gen = 0 ∨ gen = s.cfg.curGen then finish s cid (badField 0x28)
    else
      match portEnd s 0 (stageSpans c items) mp with
      | (s, some r) => finish s cid r
      | (s, none) =>
        match putItems items 0 (copySlots s) with
        | .error e => finish (cfgErr s e) cid (badField 0x18)
        | .ok t =>
          if s.cfg.staged || s.cfg.commitCid.isSome || s.cfg.draining then finish s cid (res stConflict)
          else if logRoom s (measCount items) then
            let s := measItems s gen items
            let s := { s with cfg := { s.cfg with next := t, nextGen := gen, staged := true } }
            finish s cid { status := stOk, ra := 59 }
          else finish (cfgFlag s 1) cid (res stNoBuffer))

/-- CONFIG_STAGE. -/
def execConfigStage (cid : Nat) (mp : PortEnd) (s : State) : Out := ok (configStage s cid mp)

/-- The domain of a unit (R543); the global unit, the JRE and the governor are never gated while commands run. -/
def unitDomain (u : Nat) : Option Nat :=
  if u < 32 then some u
  else if u < 40 then some (72 + (u - 32))
  else if u < 44 then some (80 + (u - 40))
  else if u < 48 then some (84 + (u - 44))
  else if 50 ≤ u ∧ u < 58 then some (64 + (u - 50))
  else none

/-- A unit that stands at a safe point: no engine, an idle, waiting or halted engine, or one in a gated domain (R493). -/
def atSafePoint (s : State) (u : Nat) : Bool :=
  decide (50 ≤ u) || (eng s u).wait.isSome || decide ((eng s u).mode = 0) || decide ((eng s u).mode = 3) ||
    !(((unitDomain u).map (domOn s)).getD true)

/-- CONFIG_COMMIT (R493): the schedulers apply check 4 against the new generation, and every unit that stands at a safe
point switches. -/
def configCommit (s : State) (cid : Nat) : State :=
  start s cid 0x31 (fun s c =>
    if !s.cfg.staged || s.cfg.commitCid.isSome then finish s cid (res stConflict)
    else if cP0 c % 2 ^ 32 ≠ s.cfg.nextGen then finish s cid (badField 0x28)
    else if !(logRoom s 1) then finish (cfgFlag s 1) cid (res stNoBuffer)
    else
      let s := { s with cfg := { s.cfg with commitCid := some cid, switched := [], prevGen := s.cfg.curGen } }
      ((List.range 59).filter (atSafePoint s)).foldl safePoint s)

/-- CONFIG_COMMIT. -/
def execConfigCommit (cid : Nat) (s : State) : Out := ok (configCommit s cid)

/-- Every unit has switched: the COMMIT entry, the completion and source 944 (R493). -/
def commitComplete (s : State) : State :=
  match s.cfg.commitCid with
  | none => s
  | some cid =>
    if (List.range 59).all (fun u => unitSwitched s u || atSafePoint s u) then
      let s := (List.range 59).foldl safePoint s
      let gen := s.cfg.nextGen
      let s := measExtend s 6 10 0xFF gen 4 (sha384 (leBytes 4 gen))
      let s := { s with
        committed := true, pwr := { s.pwr with imgDirty := true },
        cfg := { s.cfg with
          curGen := gen, nextGen := 0, staged := false, draining := true, commitCid := none, switched := [],
          next := [] } }
      let s := trace s 4 10 0 [gen]
      finish (raise (commitHooks s) 944) cid { status := stOk, ra := gen, rb := 59 }
    else s

/-- CONFIG_COMMIT_COMPLETE. -/
def execConfigCommitComplete (s : State) : Out := ok (pump (commitComplete s))

/-- Commands stamped with a generation. -/
def stamped (s : State) (gen : Nat) : Nat := (s.cmds.filter (fun c => decide (c.gen = gen))).length

/-- Does work stamped with a generation remain anywhere in the block (R494, R495)? -/
def workLeft (s : State) (gen : Nat) : Bool :=
  decide (0 < stamped s gen) || s.rows.any (fun r => decide (r.phase ≠ .gathering) && decide (r.gen = gen)) ||
    s.ops.any (fun o => decide (o.gen = gen)) || s.items.any (fun i => decide (i.gen = gen)) ||
    s.recons.any (fun r => decide (r.gen = gen)) ||
    s.jrn.pages.any (fun p => p.closed && !(pageDurable s.jrn p) && decide (p.gen = gen)) ||
    s.groups.any (fun g => g.2.units.any (fun u => decide (u.gen = gen)))

/-- The draining slots are freed, in every unit together (R495). -/
def drainFree (s : State) : State :=
  if s.cfg.draining && !(workLeft s s.cfg.prevGen) then
    raise { s with cfg := { s.cfg with draining := false, prevGen := 0, prev := [] } } 944
  else s

/-- DRAINING_SLOT_FREE (R495). -/
def execDrainingSlotFree (s : State) : Out := ok (drainFree s)

/-- One audit entry, and whether its digests differ (R498). -/
def auditEntry (s : State) (u : Nat) : List Byte × Bool :=
  let sl := curSlot s u
  let live := auditDigest u sl
  let bad := decide (storedDigest u sl ≠ live)
  let nxt := tget? s.cfg.next u
  let sw := s.cfg.commitCid.isSome && unitSwitched s u
  (leBytes 2 u ++ leBytes 1 (4 * b2n bad + 2 * b2n (s.cfg.draining || sw) + b2n nxt.isSome) ++ leBytes 1 0 ++
   leBytes 4 (if sw then s.cfg.nextGen else s.cfg.curGen) ++
   leBytes 4 (if nxt.isSome then s.cfg.nextGen else 0) ++
   leBytes 4 (if s.cfg.draining || sw then s.cfg.prevGen else 0) ++ live ++
   (match nxt with | some n => storedDigest u n | none => zeros 16), bad)

/-- CONFIG_AUDIT (R498). -/
def configAudit (s : State) (cid : Nat) : State :=
  start s cid 0x32 (fun s c =>
    let n := min (cCount c) 59
    let es := (List.range n).map (auditEntry s)
    let s := es.foldl (fun s e => if e.2 then cfgFlag s 3 else s) s
    finish (writeOut s c (cPtr c) (es.flatMap (fun e => e.1)) 3) cid { status := stOk, ra := n })

/-- CONFIG_AUDIT. -/
def execConfigAudit (cid : Nat) (s : State) : Out := ok (configAudit s cid)

/-- A detection in the measurement log (R514). -/
def msrDetect (s : State) : State :=
  let (v, s) := freeVal s
  let l := v % 131072
  { unrecovered s 3 0 2 l with msrBad := some l }

/-- MEASURE_REPORT (R504, R514). -/
def measureReport (s : State) (cid : Nat) (detect : Bool) : State :=
  start s cid 0x33 (fun s c =>
    let s := if detect then msrDetect s else s
    match s.msrBad with
    | some l => finish s cid { status := stInternal, ra := 40 + c.home, rb := l, detail := 0x43 }
    | none =>
      let n := min (cCount c) s.cfg.log.length
      let head := leBytes 4 s.cfg.log.length ++ zeros 12 ++ (List.range 8).flatMap (meas s)
      let body := (s.cfg.log.take n).flatMap logBytes
      finish (writeOut s c (cPtr c) (head ++ body) 3) cid { status := stOk, ra := n })

/-- MEASURE_REPORT. -/
def execMeasureReport (cid : Nat) (detect : Bool) (s : State) : Out := ok (measureReport s cid detect)

/-- DISCARD of GLB_CFG_CMD (R492, R500). -/
def cfgDiscard (s : State) : State :=
  if s.cfg.staged && s.cfg.commitCid.isNone then
    if logRoom s 1 then
      let gen := s.cfg.nextGen
      let s := { s with cfg := { s.cfg with next := [], staged := false, nextGen := 0 } }
      measExtend s 6 9 0xFF gen 4 (sha384 (leBytes 4 gen))
    else cfgFlag s 1
  else s

/-- GLB_CFG_CMD_DISCARD. -/
def execGlbCfgCmdDiscard (s : State) : Out := ok (cpWrite s cfgDiscard)

/-- A firmware extension of MEAS7 (R503). GENERATION and LENGTH of its log entry are free values: the spec gives none
(log entry 12). -/
def measExt (s : State) : State :=
  if logRoom s 1 then
    let (g, s) := freeVal s
    let (n, s) := freeVal s
    measExtend s 7 8 0xFF (g % 2 ^ 32) (n % 2 ^ 32) ((List.range 12).flatMap (fun i => leBytes 4 (rd s (regGlbMeasDig i))))
  else cfgFlag s 1

/-- GLB_MEAS_EXT. -/
def execGlbMeasExt (s : State) : Out := ok (cpWrite s measExt)

end Sys2Proof.Machine
end

