-- ==== Sys2Proof/Machine/Boot.lean ====
section
/-! DEFINITION. Resets, timebase and bring-up (chapters Reset and Bring-Up, Block Overview): what each reset leaves, the
bring-up sequence and its steps, the load of generation 0. -/

namespace Sys2Proof.Machine

/-! ### The bring-up phase -/

/-- PHASE of BOOT_STATE: 0 FILL to 8 READY, 15 stopped (R584, R597). -/
def phase (s : State) : Nat := rdf s regBootState 31 28

/-- The phase changed. -/
def setPhase (s : State) (p : Nat) : State := wrf s regBootState 31 28 p

/-- Bring-up moves on where the fill and the timebase check have ended; TREF_FREQ stops it (R584, R585). -/
def bringupAdvance (s : State) : State :=
  if phase s ≤ 1 then
    if bit (rd s regGlbTbStatus) 1 then bootFlag (setPhase s 15) 0
    else
      let s := if phase s = 0 ∧ s.filled then setPhase s 1 else s
      if decide (phase s = 1) && paceValid s && s.boot.freqOk && !(bit (rd s regGlbTbStatus) 0) then
        setPhase s 2
      else s
  else s

/-! ### Resets -/

/-- What lasts of the LUN-blocks: an erase that failed (R192), and an erase that was interrupted, as those in the array now are
by the Reset of the bring-up (R168, R190). -/
def blksKept (s : State) : Tab BlkSt :=
  let s := (s.ops.filter (fun o => decide (o.type = .erase) && opInArray o)).foldl (fun s o =>
    modBlk s o.glun o.block (fun b => { b with interrupted := true })) s
  (s.blks.filter (fun p => p.2.interrupted || p.2.bad)).map (fun p =>
    (p.1, { interrupted := p.2.interrupted, bad := p.2.bad }))

/-- The block with every register and record at its reset value; what lies outside it, its pins and the model's own
counters stay (R580). Requests raised and bursts accepted go to the gasket (R557). -/
def resetBase (s : State) : State :=
  { State.reset with
    pending := s.pending, free := s.free, nextId := s.nextId, dram := s.dram, trefStop := s.trefStop,
    ports := s.ports.map (fun p => (p.1, gasketPort p.2)), memHold := s.memHold, blks := blksKept s,
    porstN := s.porstN, srstN := s.srstN, pfailN := s.pfailN, scanEn := s.scanEn, tap := s.tap,
    evc := { sleep := s.evc.sleep } }

/-- PORST_N falls (R580, R557). R26 leaves open whether the tick counter is held at zero while PORST_N is low: it is cleared at
the fall and goes on (DESIGN CHOICE, log entry 61). -/
def porstFall (s : State) : State := { resetBase s with porstN := false }

/-- PORST_N_FALL. -/
def execPorstNFall (s : State) : Out := ok (porstFall s)

/-- The journal entries that the journal buffer in the millpond holds (R580, R596). -/
def journalKept (j : JrnSt) : List Entry :=
  j.kept ++ (j.pages.filter (fun p => !(pageDurable j p))).flatMap (fun p => p.entries)

/-- The BOOT_ registers marked kept (R597). -/
def keptRegs : List Nat := [regBootImgBaseLo, regBootImgBaseHi, regBootOaRead]

/-- SRST_N falls (R580, R557): the tick counter, the retirement mappings, the withdrawn parts, the kept registers, what is
known of the image area (R535) and the journal buffer stay; the ring contexts stay until the notices of R582 are written. -/
def srstFall (s : State) : State :=
  let t := resetBase s
  { t with
    srstN := false, tick := s.tick, paceAt := s.tick, freqAt := s.tick, ctx := s.ctx,
    regs := tset (s.regs.filter (fun p => keptRegs.contains p.1)) regBootState (w32 (2 ^ 27)),
    mems := s.mems.map (fun p => (p.1, { p.2 with tracked := [] })),
    pwr := { imgDirty := s.pwr.imgDirty },
    slots := s.slots.map (fun p => (p.1, { retired := p.2.retired })),
    banks := s.banks.map (fun p => (p.1, { out := p.2.out })),
    decs := s.decs.map (fun p => (p.1, { out := p.2.out })),
    jrn := { t.jrn with kept := journalKept s.jrn } }

/-- SRST_N_FALL. -/
def execSrstNFall (s : State) : Out := ok (srstFall s)

/-- PORST_N_RISE (R584): bring-up begins when neither reset is held. -/
def execPorstNRise (s : State) : Out :=
  ok { s with porstN := true, paceAt := s.tick, freqAt := s.tick, jrn := { s.jrn with pfHold := !s.pfailN } }

/-- SRST_N_RISE (R584). -/
def execSrstNRise (s : State) : Out :=
  ok { s with srstN := true, paceAt := s.tick, freqAt := s.tick, jrn := { s.jrn with pfHold := !s.pfailN } }

/-! ### The fill and the notices -/

/-- The notice of a ring whose commands were in flight at SRST_N (R582). -/
def notice (s : State) (r : Nat) : State :=
  let bytes := leBytes 2 0xFFFF ++ leBytes 2 stAborted ++ leBytes 2 (cget s r 0x10 2) ++ leBytes 1 (ringPhase s r) ++
    zeros 5 ++ leBytes 4 (inflight s r) ++ zeros 12 ++ leBytes 4 s.tick
  let s := dramWrite s (cget s r 0x08 8 / 4096 * 4096 + 32 * cget s r 0x14 2) bytes
  wrf s regBootState 15 0 (satAdd 65535 (rdf s regBootState 15 0) 1)

/-- Does the ring get a notice (R582)? -/
def noticeDue (s : State) (ctxBad : List Nat) (r : Nat) : Bool :=
  ringEnabled s r && decide (0 < inflight s r) && !([3, 4].contains (cget s r 0x1A 1)) && !(ctxBad.contains r)

/-- The fill ends (R510, R582, R583): after SRST_N the notices, those whose write fails excepted, and then every part of
the millpond but the journal buffer reads as zeros. -/
def fillDone (s : State) (ctxBad noticeFails : List Nat) : State :=
  if s.filled || !s.porstN || !s.srstN then s
  else
    let s := ctxBad.foldl (fun s r =>
      if (tget? s.ctx r).isSome then unrecoveredAny s 3 0 2 else s) s
    let s := ((s.ctx.map (fun p => p.1)).filter (fun r => noticeDue s ctxBad r && !(noticeFails.contains r))).foldl notice s
    bringupAdvance { s with filled := true, ctx := [] }

/-- MEMORY_FILL_DONE. -/
def execMemoryFillDone (ctxBad noticeFails : List Nat) (s : State) : Out := ok (fillDone s ctxBad noticeFails)

/-! ### Timebase and pace -/

/-- TREF_LOST. -/
def execTrefLost (s : State) : Out := ok (trefLost s)

/-- TREF_RETURN (R32): the counters go on; admission waits for the next refill. -/
def execTrefReturn (s : State) : Out := ok { s with trefStop := false }

/-- A comparison window of 65,536 ticks ends, while a PHY domain is on (R33, R585). -/
def freqWindow (s : State) (disagree : Bool) : State :=
  if due s s.freqAt 65536 && !s.trefStop && somePhyOn s then
    let s := { s with freqAt := s.tick }
    bringupAdvance (if disagree then sticky s regGlbTbStatus 1
      else { s with boot := { s.boot with freqOk := true } })
  else s

/-- TREF_FREQ_WINDOW. -/
def execTrefFreqWindow (disagree : Bool) (s : State) : Out := ok (freqWindow s disagree)

/-- A pace window of 1,024 ticks ends (R28, R29). -/
def paceWindow (s : State) (count : Nat) : State :=
  if due s s.paceAt 1024 && !s.trefStop then
    let s := wr { s with paceAt := s.tick } regGlbPace (2 ^ 31 + count)
    let s := if count < rdf s regGlbPaceFloor 15 0 then raise s 1017 else s
    bringupAdvance s
  else s

/-- PACE_WINDOW_END. -/
def execPaceWindowEnd (count : BitVec 16) (s : State) : Out := ok (paceWindow s count.toNat)

/-! ### PHYs and discovery -/

/-- Step 3 on one channel: rung 6, calibrated; the codes are free values, and so is whether one lies at an end of its range (R202). -/
def phyUp (s : State) (c : Nat) : State :=
  let (v, s) := freeVal s
  let s := wr s (regPhyZq c) (2 ^ 31 + v % 2 ^ 16)
  if bit v 16 then phyFlag s c 6 else s

/-- BRINGUP_PHY_UP (R584). -/
def execBringupPhyUp (s : State) : Out :=
  ok (if phase s = 2 then setPhase ((List.range 32).foldl phyUp s) 3 else s)

/-- Discovery found LUNs behind a channel. -/
def chanFound (s : State) (c : Nat) : Bool := s.boot.found.any (fun f => decide (f.ch = c) && decide (0 < f.luns))

/-- A chip enable has up to 8 LUNs (R586). -/
def clampLuns (f : CeFound) : CeFound := { f with luns := min 8 f.luns, ch := f.ch % 32, ce := f.ce % 16 }

/-- Discovery ends (R586): the chip enables found are recorded, the domains of channels without a LUN stay off (R525). -/
def discovered (s : State) (found : List CeFound) : State :=
  let s := { s with boot := { s.boot with found := found.map clampLuns } }
  let s := (s.boot.found.filter (fun f => decide (0 < f.luns))).foldl (fun s f =>
    wrf s (regBootCeFound f.ch) (f.ce % 16) (f.ce % 16) 1) s
  let s := ((List.range 32).filter (fun c => !(chanFound s c))).foldl (fun s c => setDom (setDom s c 2) (32 + c) 2) s
  setPhase s 4

/-- DIE_DISCOVERY_DONE (R586). -/
def execDieDiscoveryDone (found : List CeFound) (s : State) : Out := ok (if phase s = 3 then discovered s found else s)

/-! ### The option-area copy (R588 to R591) -/

def oaItems (h : List Byte) : Nat := fieldAt h 0x04 2
def oaSeq (h : List Byte) : Nat := fieldAt h 0x08 8
def oaLen (h : List Byte) : Nat := fieldAt h 0x10 4

/-- A header passes its CHECK (R588). -/
def oaHeaderOk (h : List Byte) : Bool := decide (h.length = 4096) && decide (fieldAt h 0xFFC 4 = crc32 (h.take 0xFFC))

/-- A body matches BODY_DIGEST (R588). -/
def oaBodyOk (h body : List Byte) : Bool := decide (body.length = oaLen h) && decide (sha384 body = slice h 0x20 48)

/-- BOOT_IMG_BASE (R597). -/
def imgBase (s : State) : Nat := rd64 s regBootImgBaseLo regBootImgBaseHi

/-- The stage items at the start of a body with their images; ADDR, an offset within the body, is read as a DRAM address
from the place where the image stands (R588, R591). -/
def oaStage (s : State) (h body : List Byte) : List (List Byte × List Byte) :=
  (List.range (oaItems h)).map (fun i =>
    let b := slice body (32 * i) 32
    let b' := putBytes b 8 (leBytes 8 (imgBase s + 4096 + itAddr b))
    (b', slice body (itAddr b) (itLen b)))

/-- Every unit's slot as generation 0 finds it: no tables, the RWL registers as they stand (log entry 13). -/
def emptySlots (s : State) : Tab Slot := (List.range 59).map (fun u => (u, { rwl := rwlLive s u }))

/-- Do a copy's items pass R490? -/
def oaItemsOk (s : State) (h body : List Byte) : Bool :=
  decide (1 ≤ oaItems h) && decide (oaItems h ≤ 1024) &&
  (match putItems (oaStage s h body) 0 (emptySlots s) with
    | .ok _ => true
    | .error _ => false)

/-- The copies whose headers are good, in the order in which they are tried: OSEQ falling, the lower number first. -/
def oaOrder (copies : List OaCopy) : List (Nat × OaCopy) :=
  let good := (copies.take 4).zipIdx.map (fun p => (p.2, p.1)) |>.filter (fun p => p.2.headerOk && oaHeaderOk p.2.header)
  good.mergeSort (fun a b => decide (oaSeq b.2.header < oaSeq a.2.header) ||
    (decide (oaSeq b.2.header = oaSeq a.2.header) && decide (a.1 ≤ b.1)))

/-- Tries copies in order (R589): the record of each, and the one that is loaded. -/
def oaTry (s : State) : List (Nat × OaCopy) → State × Option (Nat × OaCopy)
  | [] => (s, none)
  | (n, c) :: r =>
    let bodyOk := c.bodyOk && oaBodyOk c.header c.body
    let itemsOk := bodyOk && oaItemsOk s c.header c.body
    let s := wrf s (regBootOaCopy n) 30 28 (4 * b2n bodyOk + 3 * b2n itemsOk)
    if itemsOk then (s, some (n, c)) else oaTry s r

/-- A stop of bring-up because no copy can be loaded (R590). -/
def oaStop (s : State) : State :=
  let s := bootFlag (setPhase s 15) 2
  { s with boot := { s.boot with oaNone := true } }

/-- The option area is read and a copy chosen (R589, R590). -/
def oaSelect (s : State) (copies : List OaCopy) : State :=
  let order := oaOrder copies
  let s := order.foldl (fun s p =>
    wr s (regBootOaCopy p.1) (2 ^ 31 + p.2.windowBlock % 8 * 2 ^ 25 + oaSeq p.2.header % 2 ^ 16)) s
  match oaTry s order with
  | (s, none) => oaStop s
  | (s, some (n, c)) =>
    let s := if (order.head?.map (fun p => p.1)) = some n then s else bootFlag s 3
    let s := wrf s regBootState 26 24 n
    { setPhase s 5 with boot := { s.boot with image := c.header ++ c.body, fromDram := false } }

/-- BOOT_CMD with ACTION 1 (R587). -/
def bootLoadArea (s : State) (copies : List OaCopy) : State := if phase s = 4 then oaSelect s copies else s

/-- BOOT_CMD_LOAD_OPTION_AREA. -/
def execBootCmdLoadOptionArea (copies : List OaCopy) (s : State) : Out := ok (cpWrite s (fun s => bootLoadArea s copies))

/-- BOOT_CMD with ACTION 2 (R587, R590). -/
def bootLoadImage (s : State) : State :=
  if phase s = 4 ∨ (phase s = 15 ∧ s.boot.oaNone) then
    let h := dramRead s (imgBase s) 4096
    let body := if oaLen h ≤ 1048576 then dramRead s (imgBase s + 4096) (oaLen h) else []
    if oaHeaderOk h && oaBodyOk h body && oaItemsOk s h body then
      let s := wrf s regBootState 26 24 (4 + fieldAt h 0x02 1 % 4)
      { setPhase s 5 with boot := { s.boot with image := h ++ body, fromDram := true, oaNone := false } }
    else if phase s = 4 then oaStop s
    else s
  else s

/-- BOOT_CMD_LOAD_IMAGE. -/
def execBootCmdLoadImage (s : State) : Out := ok (cpWrite s bootLoadImage)

/-- The model of a LUN whose Read ID bytes are `id`: the lowest index that matches in all six bytes (R135). -/
def matchModel (s : State) (c : Nat) (id : List Byte) : Option Nat :=
  ((tget s.cfg.cur c {}).dies.find? (fun p => decide (slice p.2 0 6 = slice id 0 6))).map (fun p => p.1)

/-- The LUNs of one chip enable matched to models; one that matches none is absent (R135, R592). -/
def matchCe (s : State) (f : CeFound) : State :=
  match matchModel s f.ch f.id with
  | some m =>
    (List.range f.luns).foldl (fun s i =>
      { s with luns := tset s.luns (f.ch * 128 + f.ce % 16 * 8 + i) { model := m } }) s
  | none => (List.range f.luns).foldl (fun s _ => bootFlag s 1) s

/-- Does a channel hold dies of both data interfaces (R199)? -/
def mixedChan (s : State) (c : Nat) : Bool :=
  let ifs := ((s.luns.filter (fun p => chOf p.1 = c)).map (fun p => bit (dmFlags (dieOf s p.1)) 0))
  ifs.any id && ifs.any (!·)

/-- Training of a channel begins: full, from its effective top rung, or on rung 6 only with mixed dies (R198, R199). -/
def trainStart (s : State) (c : Nat) : State :=
  if (goodLuns s c).isEmpty then s
  else if mixedChan s c then
    startTrain (modPhy (phyFlag s c 2) c (fun p => { p with mixed := true })) c .full 6
  else startTrain s c .full (firstRung s c)

/-- Generation 0 is loaded (R591): the image goes to BOOT_IMG_BASE, is measured, staged and switched to. -/
def loadGen0 (s : State) : State :=
  let img := s.boot.image
  let h := img.take 4096
  let body := img.drop 4096
  let s := if s.boot.fromDram then s else dramWrite s (imgBase s) img
  let s := measExtend s 0 7 0xFF 0 img.length (sha384 img)
  let items := oaStage s h body
  match putItems items 0 (emptySlots s) with
  | .error _ => s
  | .ok t =>
    let s := measItems s 0 items
    let s := { s with cfg := { s.cfg with next := t, commitCid := none, switched := [] } }
    let s := (List.range 59).foldl switchUnit s
    let s := { s with cfg := { s.cfg with prev := [], next := [], switched := [], curGen := 0 } }
    measExtend s 6 10 0xFF 0 4 (sha384 (leBytes 4 0))

/-- Step 6 ends (R591): generation 0 is loaded, the reserves are asked for; step 7 begins, LUNs matched to models and
training started on every channel (R135, R592). -/
def loadDone (s : State) : State :=
  if phase s = 5 then
    let s := poolReserves (loadGen0 s)
    let s := { s with boot := { s.boot with image := [] } }
    let s := s.boot.found.foldl matchCe { s with luns := [] }
    setPhase ((List.range 32).foldl trainStart s) 6
  else s

/-- OPTION_AREA_LOAD_DONE. -/
def execOptionAreaLoadDone (s : State) : Out := ok (loadDone s)

/-- No channel is in training. -/
def trainingEnded (s : State) : Bool :=
  s.phys.all (fun p => decide (p.2.train = .none) && p.2.pend.isNone && !(p.2.unlocked && !((goodLuns s p.1).isEmpty) && decide (chanState s p.1 = 1)))

/-- BRINGUP_TRAINING_DONE (R584): step 7 ends when every channel's training has ended. -/
def execBringupTrainingDone (s : State) : Out := ok (if phase s = 6 ∧ trainingEnded s then setPhase s 7 else s)

/-- Step 8 (R584): the engines are released, the JRE checks its placement and, unless it is stopped, starts its scan. -/
def releaseEngines (s : State) : State :=
  if phase s = 7 ∧ !s.boot.released then
    placeCheck { s with boot := { s.boot with released := true } }
  else s

/-- ENGINE_RELEASE. -/
def execEngineRelease (s : State) : Out := ok (releaseEngines s)

/-- The ready indication (R593). -/
def ready (s : State) : State :=
  if phase s = 7 ∧ s.boot.released then
    let s := wr (setPhase s 8) regBootReadyTick s.tick
    { s with aliveOn := true, aliveAt := s.tick }
  else s

/-- READY_INDICATION. -/
def execReadyIndication (s : State) : Out := ok (ready s)

end Sys2Proof.Machine
end

