-- ==== Sys2Proof/Machine/Power.lean ====
section
/-! DEFINITION. Power states (chapter Power Domains, Furl and the Millpond): domain handshakes, TRIM, the entries to
DROWSE and FURL, the exits from them and the furl wake. -/

namespace Sys2Proof.Machine

/-! ### Domains -/

/-- The domain belongs to a channel that has no LUN (R525). -/
def absentChan (s : State) (d : Nat) : Bool := decide (d < 64) && decide (4 ≤ phase s) && !(chanFound s (d % 32))

/-- The domains that RUN has on (R525). -/
def wantedDoms (s : State) : List Nat := (List.range 94).filter (fun d => !(absentChan s d))

/-! ### The power state -/

/-- STATE of PWR_STATE: 0 RUN, 1 TRIM, 2 DROWSE, 3 FURL. -/
def pwrState (s : State) : Nat := rdf s regPwrState 1 0

def pwrEntering (s : State) : Bool := bit (rd s regPwrState) 30
def pwrCommit (s : State) : Bool := bit (rd s regPwrState) 31
def pwrWaking (s : State) : Bool := bit (rd s regPwrState) 29
def pwrPatrol (s : State) : Bool := bit (rd s regPwrState) 28

/-- One bit of PWR_STATE given a value. -/
def setPwr (s : State) (b v : Nat) : State := wrf s regPwrState b b v

/-- The power state entered, with its trace packet (R440). -/
def setPower (s : State) (t : Nat) : State := trace (wrf s regPwrState 1 0 t) 4 11 t [0]

/-- An exit starts (R538): every domain that RUN has on is raised; `patrol` for a patrol wake (R540). -/
def startExit (s : State) (patrol : Bool) : State :=
  let s := setPwr (setPwr s 29 1) 28 (b2n patrol)
  let s := { s with pwr := { s.pwr with step := .waking, held := false, cid := none } }
  (wantedDoms s).foldl raiseDom s

/-- An entry is aborted before its commit point (R531, R532): its POWER_STATE completes with STATE_CONFLICT. -/
def abortEntry (s : State) : State :=
  let s := setPwr (setPwr s 30 0) 28 0
  let s := bump (pwrFlag s 1) regPwrTrans 15 0 1
  let cid := s.pwr.cid
  let s := { s with pwr := { s.pwr with step := .none, cid := none, flushed := false } }
  match cid with
  | some cid => finish s cid { status := stConflict, state := 0x40 + rdf s regPwrState 3 2 }
  | none => s

/-- What a KIND 0 doorbell to an enabled ring does to the power state (R531, R532, R538, R540). -/
def powerDoorbell (s : State) : State :=
  if pwrEntering s && !(pwrCommit s) then abortEntry s
  else if pwrCommit s then pwrFlag { s with pwr := { s.pwr with held := true } } 0
  else if pwrPatrol s then
    if pwrWaking s then setPwr s 28 0
    else if s.pwr.visits.all (fun p => p.2 = 0) then abortEntry s
    else
      let s := setPwr s 28 0
      { s with pwr := { s.pwr with step := .none, visits := [] } }
  else if 2 ≤ pwrState s ∧ s.pwr.step = .none then startExit s false
  else s

/-- POWER_STATE between RUN and TRIM, in force at once (R529). In RUN every domain is on. -/
def runTrim (s : State) (t : Nat) : State :=
  let s := setPower s t
  if t = 0 then ((wantedDoms s).filter autoDom).foldl raiseDom s else s

/-- The first lease held, by its STATE code and the index of its group (R529, R71). -/
def leaseHeld (s : State) : Option (Nat × Nat) :=
  match s.groups.find? (fun p => decide (p.2.lease ≠ .free)) with
  | some p => some (if p.2.lease = .rebuild then 0x51 else 0x52, p.1)
  | none => (s.age.leases.head?).map (fun p => (0x50 + p.2.1, p.1))

/-- POWER_STATE (R529, R530). -/
def powerState (s : State) (cid : Nat) : State :=
  start s cid 0x50 (fun s c =>
    let t := cP0 c % 4
    if t = pwrState s then finish s cid { status := stOk, ra := t }
    else if t < 2 then finish (runTrim s t) cid { status := stOk, ra := t }
    else match leaseHeld s with
      | some (code, g) => finish s cid { status := stMaintBusy, state := code, ra := g }
      | none =>
        if s.jrn.pfActive || s.cfg.staged || s.cfg.commitCid.isSome || s.cfg.draining then finish s cid (res stConflict)
        else
          let s := setPwr (wrf s regPwrState 3 2 (pwrState s)) 30 1
          stagePartials { s with pwr := { s.pwr with
            step := .draining, cid := some cid, target := t, flushed := false, held := false } })

/-- POWER_STATE. -/
def execPowerState (cid : Nat) (s : State) : Out := ok (pump (powerState s cid))

/-- Step 3 of R530: the rings are empty, no other command is in flight, no flash operation is in progress. -/
def drained (s : State) : Bool :=
  (s.ctx.map (fun p => p.1)).all (fun r => !(ringEnabled s r) || ringFaulted s r || decide (pendingPkts s r = 0)) &&
  s.cmds.all (fun c => decide (s.pwr.cid = some c.cid)) && s.ops.isEmpty && s.items.isEmpty && s.recons.isEmpty &&
  s.stagings.isEmpty

/-- Every page and record is durable (step 4 of R530). -/
def flushedAll (s : State) : Bool :=
  s.jrn.backlog.isEmpty && s.jrn.pages.all (fun p => pageDurable s.jrn p) && s.age.dirty.isEmpty

/-- Address of a unit's slot within the image area; its format is the block's own: the bytes its audit digest covers
(R535; log entry 14). -/
def imageAt (s : State) (u : Nat) : Nat := rd64 s regPwrImgBaseLo regPwrImgBaseHi + u * 2 ^ 18

/-- The memory port that moves a unit's slot (R22). -/
def imagePort (u : Nat) : Nat :=
  if u < 32 then 2 * (u / 8) else if u < 40 then u - 32 else if u < 44 then 2 * (u - 40) else if u < 48 then 2 * (u - 44)
  else if 50 ≤ u ∧ u < 58 then u - 50 else 0

/-- The current slot of every unit but GOVE is written to the image area (R535), of each unit whose slot is at hand. -/
def imageWrite (s : State) : State :=
  let us := (List.range 59).filter (fun u => u ≠ 49)
  let s := { s with pwr := { s.pwr with imgDirty := false } }
  us.foldl (fun s u =>
    let b := auditBytes u (curSlot s u)
    startXfer s { port := imagePort u, write := true, clsA := false, grp := 3, deadline := none, real := false,
                  purpose := .image u } [(0, imageAt s u, b.length, b)]) s

/-- WP_N low and every CE_N high on a channel (step 6 of R530). -/
def busRest (p : Nat × BusSt) : Nat × BusSt := (p.1, { p.2 with ce := none, wpn := false })

/-- The commit point (steps 5 to 7 of R530). -/
def pwrCommitPoint (s : State) : State :=
  let s := setPwr (setPwr s 30 1) 31 1
  let s := match s.pwr.cid with
    | some cid => finish s cid { status := stOk, ra := s.pwr.target }
    | none => s
  let s := { s with buses := s.buses.map busRest }
  let s := { s with pwr := { s.pwr with step := .image } }
  if s.pwr.target = 3 ∧ s.pwr.imgDirty then imageWrite s else s

/-- POWER_ENTRY_COMMIT (R530, R540): while steps 3 and 4 have not ended, the journal page is closed and the ageing
records are written once the drain allows it; when both have ended, the commit point. -/
def entryCommit (s : State) : State :=
  let mine := decide (s.pwr.step = .draining) || (decide (s.pwr.step = .patrol) && s.pwr.visits.all (fun p => p.2 = 0))
  if mine && drained s then
    if flushedAll s then pwrCommitPoint s
    else if s.pwr.flushed then s
    else ageFlush (closePage { s with pwr := { s.pwr with flushed := true } })
  else s

/-- POWER_ENTRY_COMMIT. -/
def execPowerEntryCommit (s : State) : Out := ok (pump (entryCommit s))

/-- Step 8 of R530: the domains are lowered, the state is set, source 945 is raised; an access of the control port that still
waits gets the error response of R25; a held doorbell starts the exit at once (R532). -/
def entryEnd (s : State) : State :=
  let busy := s.xfers.any (fun x => match x.purpose with | .image _ => true | _ => false)
  if decide (s.pwr.step = .image) && !busy && s.cmds.isEmpty then
    let t := s.pwr.target
    let s := (List.range 94).foldl (fun s d =>
      let g := domGoal d (decide (t = 3))
      if g = 0 ∨ absentChan s d then s else lowerDom s d g) s
    let s := setPwr (setPwr (setPwr s 30 0) 31 0) 28 0
    let s := bump (setPower s t) regPwrTrans 31 16 1
    let s := if t = 3 then { s with traces := [] } else s
    let held := s.pwr.held
    let s := raise { s with pwr := { s.pwr with
      step := .none, cid := none, flushed := false, furlAt := s.tick, heldAt := none } } 945
    let s := if s.cpWait.isSome then { s with cpWait := none, cpResp := 1 } else s
    if held then startExit s false else s
  else s

/-- POWER_ENTRY_END. -/
def execPowerEntryEnd (s : State) : Out := ok (entryEnd s)

/-! ### Acknowledges and timeouts -/

/-- The domains of a waking block are all on: every channel in service starts with a quick retrain from its retained
values (R207, R538), and the read-level shadows are invalid (R146). -/
def retrainAll (s : State) : State :=
  let s := { s with luns := s.luns.map (fun p => (p.1, { p.2 with shadow := none })) }
  (List.range 32).foldl (fun s c =>
    if (goodLuns s c).isEmpty || decide (chanState s c = 3) then s else startTrain s c .quick (chanRung s c)) s

/-- An acknowledge moves (R568). -/
def domAck (s : State) (d : Nat) (ret level : Bool) : State :=
  let m := dom s d
  let owed := if ret then hasRet d && decide (m.retAck ≠ level) && decide (m.retReq = level)
    else decide (m.pwrAck ≠ level) && decide (m.pwrReq = level)
  if owed && decide (d < 94) then
    let before := (wantedDoms s).all (domOn s)
    let s := modDom s d (fun m => if ret then { m with retAck := level } else { m with pwrAck := level })
    let s := domAdvance s d
    if pwrWaking s && !before && (wantedDoms s).all (domOn s) then retrainAll s else s
  else s

/-- No acknowledge within 10,000 ticks (R527): a raise is requested again, a lowering counts as done. -/
def domTimeout (s : State) (d : Nat) : State :=
  match (dom s d).since with
  | none => s
  | some t =>
    if due s t 10000 then
      let s := pwrFlag s 2
      if (dom s d).goal = 0 then modDom s d (fun m => { m with since := some s.tick })
      else setDom (modDom s d (fun m => { m with since := none })) d (dom s d).goal
    else s

/-- DOMAIN_HANDSHAKE_TIMEOUT (R527). -/
def execDomainHandshakeTimeout (d : Domain) (s : State) : Out := ok (domTimeout s d.val)

/-- TRIM_IDLE has passed without work in an auto domain (R528). -/
def trimIdle (s : State) (d : Nat) : State :=
  if decide (pwrState s = 1) && autoDom d && domOn s d && !(domBusy s d) &&
      due s (dom s d).idleAt (max 1 (rdf s regPwrCtrl 31 16)) then lowerDom s d 1
  else s

/-- TRIM_IDLE_EXPIRY (R528). -/
def execTrimIdleExpiry (d : Domain) (s : State) : Out := ok (trimIdle s d.val)

/-! ### Leaving DROWSE and FURL -/

/-- Some unit's slot in the image area does not match the audit digest that the millpond retains: the stored one, or that of
the slot as it stood (R534, R537). A slot that matches is loaded as it was. -/
def imageBad (s : State) : Bool :=
  ((List.range 59).filter (fun u => u ≠ 49)).any (fun u =>
    let b := auditBytes u (curSlot s u)
    let x := dramRead s (imageAt s u) b.length
    match (tget s.cfg.cur u {}).digest with
    | some d => decide (sha384 x ≠ d)
    | none => decide (x ≠ b))

/-- The image of some unit does not match its digest: generation 0 is loaded from the option area, the LUNs are matched
to its models (R537, R584). -/
def imageFallback (s : State) (copies : List OaCopy) : State :=
  let s := pwrFlag s 3
  let p := phase s
  match oaTry s (oaOrder copies) with
  | (s, none) => oaStop s
  | (s, some (_, c)) =>
    let s := loadGen0 { s with
      boot := { s.boot with image := c.header ++ c.body, fromDram := false },
      cfg := { s.cfg with cur := [], curGen := 0 } }
    let old := s.luns
    let s := s.boot.found.foldl matchCe { s with luns := [], boot := { s.boot with image := [] } }
    setPhase { s with luns := s.luns.map (fun q => (q.1, { q.2 with state := (tget old q.1 {}).state })) } p

/-- The exit ends (R537, R538, R540); `bad` tells that the port gave up the reload of some unit. -/
def exitEnd (s : State) (bad : Bool) (copies : List OaCopy) : State :=
  if decide (s.pwr.step = .waking) && (wantedDoms s).all (domOn s) && trainingEnded s then
    let s := if pwrState s = 3 then (if bad || imageBad s then imageFallback s copies else s) else s
    let s := setPwr (setPower s (rdf s regPwrState 3 2)) 29 0
    let patrol := pwrPatrol s
    let visits := if patrol && !s.jrn.pfActive then (List.range 4).map (fun q => (q, rdf s regGlbAgeFurl 31 16)) else []
    raise { s with pwr := { s.pwr with
      step := if patrol then .patrol else .none, target := if patrol then 3 else s.pwr.target, visits := visits,
      heldAt := if patrol && s.memHold then some s.tick else none, flushed := false, cid := none } } 945
  else s

/-- POWER_EXIT_END. -/
def execPowerExitEnd (badUnit : Option (Fin 59)) (copies : List OaCopy) (s : State) : Out :=
  ok (exitEnd s badUnit.isSome copies)

/-- The furl wake timer (R540). -/
def furlWake (s : State) : State :=
  let ivl := rd s regPwrWakeIvl
  if decide (pwrState s = 3) && decide (s.pwr.step = .none) && decide (ivl ≠ 0) && !s.trefStop &&
      due s s.pwr.furlAt (ivl * 1000000) then startExit s true
  else s

/-- FURL_WAKE. -/
def execFurlWake (s : State) : Out := ok (furlWake s)

end Sys2Proof.Machine
end

