-- ==== Sys2Proof/Machine/Thermal.lean ====
section
/-! DEFINITION. Temperatures and budgets (chapter The Governor: Energy, Heat and Deadlines): thermal words, die
temperature reads, stale zones, the refill and BUDGET_SET. -/

namespace Sys2Proof.Machine

/-- Channels whose zone temperature has moved far enough retrain (R210). -/
def tempTriggers (s : State) : State := (List.range 32).foldl tempTrigger s

/-! ### Readings (R355, R570, R571) -/

/-- One reading stored; 0x80 is no reading, and keeps the tick of the last one (R571). -/
def storeReading (s : State) (i : Nat) (b : Byte) : State :=
  let old := (tget? s.gov.sensors i).getD (-128, 0)
  let before := match tget? s.gov.before i with
    | some (v, t, at_) => if at_ = s.tick then (v, t, at_) else (old.1, old.2, s.tick)
    | none => (old.1, old.2, s.tick)
  let new : Int × Nat := if b = 0x80 then (-128, old.2) else (sbyte b.toNat, s.tick)
  { s with gov := { s.gov with sensors := tset s.gov.sensors i new, before := tset s.gov.before i before } }

/-- A thermal word (R570): eight readings are stored; in reset the word is discarded. -/
def thermalWord (s : State) (g : Nat) (l : List Byte) : State :=
  if s.porstN && s.srstN then
    let s := (List.range 8).foldl (fun s j => storeReading s (8 * g + j) (l.getD j 0x80)) s
    pump (tempTriggers s)
  else s

/-- THERMAL_WORD. -/
def execThermalWord (grp : Fin 8) (readings : List Byte) (s : State) : Out := ok (thermalWord s grp readings)

/-- A LUN that a sequencer may read: no operation, transfer or data-out, and a sensor (R355). -/
def tempReadable (s : State) (g : Nat) : Bool :=
  (lun? s g).isSome && lunIdle s g && decide (fieldAt (costOf s g) 1 1 ≠ 0)

/-- Tick of a LUN's last temperature reading, plus one; 0 for none. -/
def lastTemp (s : State) (g : Nat) : Nat := ((tget? s.gov.dies g).map (fun p => p.2 + 1)).getD 0

/-- The LUN whose turn it is behind the chip enable of `g`: of those that can be read, the one read longest ago. -/
def tempTurn (s : State) (g : Nat) : Option Nat :=
  minBy (lastTemp s) ((List.range 8).filterMap (fun l =>
    let x := g / 8 * 8 + l
    if tempReadable s x then some x else none))

/-- DIE_TEMPERATURE_READ (R355): the period of the chip enable has ended, it is the LUN's turn, its PHY is on and no data-out holds the bus. -/
def dieTemperature (s : State) (g v : Nat) : State :=
  let ce := g / 8
  let ivl := rd s regGovPoll
  if decide (ivl ≠ 0) && s.boot.released && !s.blockFault && !s.trefStop && (match tget? s.gov.dieAt ce with | some at_ => due s at_ ivl | none => true) &&
      decide (tempTurn s g = some g) && (leavingOp s (chOf g)).isNone && domOn s (32 + chOf g) then
    let t : Int := (v : Int) - fieldAt (costOf s g) 2 1
    let s := busPut s g [dmByte (dieOf s g) 0x24, BitVec.ofNat 8 (g % 8), BitVec.ofNat 8 (fieldAt (costOf s g) 1 1)]
    let s := { s with gov := { s.gov with
      dies := tset s.gov.dies g (t, s.tick), dieAt := tset s.gov.dieAt ce s.tick } }
    pump (tempTriggers s)
  else s

/-- DIE_TEMPERATURE_READ. -/
def execDieTemperatureRead (glun : Glun) (value : Byte) (s : State) : Out := ok (dieTemperature s glun value.toNat)

/-- THERMAL_STALE (R357): entry into the stale state. -/
def thermalStale (s : State) (z : Nat) : State :=
  if zStale s z && !(zoneTh s z).stale && s.porstN && s.srstN then
    let gov := { s.gov with zones := tmod s.gov.zones z {} (fun t => { t with stale := true }) }
    pump (tempTriggers (govFlag { s with gov := gov } 2))
  else s

/-- THERMAL_STALE. -/
def execThermalStale (z : Fin 16) (s : State) : Out := ok (thermalStale s z)

/-! ### BUDGET_SET (R376 to R379) -/

/-- Entry `i` of an image of 4-byte entries. -/
def budEntry (img : List Byte) (i : Nat) : Nat := fieldAt img (4 * i) 4

/-- Bytes of a BUDGET_SET image. -/
def budLen (sel : Nat) : Nat := if sel = 2 then 8 else 64

/-- Every VALID value lies in its range (R376, R377). -/
def budOk (sel : Nat) (img : List Byte) : Bool :=
  let v (i : Nat) : Bool := bit (fieldAt img 6 1) i
  let b (i : Nat) : Nat := fieldAt img i 1
  match sel with
  | 0 => (List.range 16).all (fun i => let e := budEntry img i; !(bit e 31) || decide (1 ≤ bits e 15 0))
  | 1 => (List.range 16).all (fun i => let e := budEntry img i; !(bit e 31) || (decide (4 ≤ bits e 27 24) && decide (1 ≤ bits e 23 0)))
  | _ => (!(v 0) || decide (b 0 ≤ 50)) && (!(v 1) || decide (b 1 ≤ 100)) &&
      (!(v 2) || (decide (1 ≤ b 2) && decide (b 2 ≤ 100))) && (!(v 3) || (decide (1 ≤ b 3) && decide (b 3 ≤ 100)))

/-- The image's VALID entries taken over. -/
def budApply (g : GovSt) (sel : Nat) (img : List Byte) : GovSt :=
  match sel with
  | 0 => (List.range 16).foldl (fun g i => let e := budEntry img i
      if bit e 31 then { g with limit := tset g.limit i (bits e 15 0) } else g) g
  | 1 => (List.range 16).foldl (fun g i => let e := budEntry img i
      if bit e 31 then { g with zones := tmod g.zones i {} (fun z => { z with burst := bits e 27 24, budget := bits e 23 0 }) }
      else g) g
  | _ =>
    let v (i : Nat) : Bool := bit (fieldAt img 6 1) i
    { g with
      resPct := if v 0 then fieldAt img 0 1 else g.resPct
      raPct := if v 1 then fieldAt img 1 1 else g.raPct
      maint := if v 2 then fieldAt img 2 1 else g.maint
      raw := if v 3 then fieldAt img 3 1 else g.raw
      worth := if v 4 then fieldAt img 4 2 else g.worth }

/-- BUDGET_SET: the image waits for the next refill. -/
def budgetSet (s : State) (cid : Nat) (mp : PortEnd) : State :=
  start s cid 0x28 (fun s c => imageEnd s c (budLen (cP0 c % 16)) mp (fun s =>
    let sel := cP0 c % 16
    let img := dramRead s (cPtr c) (budLen sel)
    if budOk sel img then { s with gov := { s.gov with wait := s.gov.wait ++ [(cid, sel, img)] } }
    else finish s cid (badField 0x18)))

/-- BUDGET_SET. -/
def execBudgetSet (cid : Nat) (mp : PortEnd) (s : State) : Out := ok (pump (budgetSet s cid mp))

/-! ### The refill (R358) -/

/-- The readings stored before this tick (R571). -/
def earlier (s : State) : State :=
  { s with gov := { s.gov with
    sensors := s.gov.sensors.map (fun p =>
      match tget? s.gov.before p.1 with
      | some (v, t, at_) => (p.1, if at_ = s.tick then (v, t) else p.2)
      | none => p) } }

/-- Factor at a temperature (R358); a FLOOR of 0 acts as 1. -/
def zTarget (s : State) (z : Nat) (t : Int) : Nat :=
  let floor := max 1 (rdf s (regGovZcurve z) 7 0)
  let lo := zCurve s z 0
  let hi := zCurve s z 1
  if t ≤ lo then 100
  else if hi ≤ t then floor
  else 100 - (100 - floor) * (t - lo).toNat / (hi - lo).toNat

/-- One zone at a refill; `past` holds the readings from before this tick. -/
def refillZone (past : State) (s : State) (z : Nat) : State :=
  let t := zoneTemp past z
  let stale := zStale past z
  let old := zoneTh s z
  let target := zTarget s z t
  let rise := max 1 (rdf s regGovCfg 15 8)
  let f := if target < old.f then target else min target (old.f + rise)
  let crit := decide (zCurve s z 2 ≤ t)
  let s := { s with gov := { s.gov with
    zones := tmod s.gov.zones z {} (fun x =>
    { x with f := f, crit := crit, stale := stale, temp := t, fresh := true }) } }
  let s := { s with gov := { s.gov with
    zones := tmod s.gov.zones z {} (fun x =>
    { x with
      tokens := narrow 48 (min (x.tokens + (zLimit s z : Int)) (zCap s z : Int))
      spent := (List.range 5).map (fun i => max 0 (x.spent.getD i 0 - (allow s z i : Int))) }) } }
  let s := if f < 100 ∧ old.f = 100 then govFlag s 0 else s
  let s := if crit && !old.crit then govFlag s 3 else s
  if stale && !old.stale then govFlag s 2 else s

/-- The images that wait take effect, and their commands complete (R378). -/
def budTake (s : State) : State :=
  let w := s.gov.wait
  let s := { s with gov := { w.foldl (fun g p => budApply g p.2.1 p.2.2) s.gov with wait := [] } }
  w.foldl (fun s p => finish s p.1 { status := stOk, ra := p.2.1 }) s

/-- GOVERNOR_REFILL (R358, R360): a period has ended. -/
def governorRefill (s : State) : State :=
  if s.porstN && s.srstN && !s.trefStop && !s.blockFault && due s s.gov.refill (max 1000 (rdf s regGovCfg 31 16)) then
    let past := earlier s
    let s := budTake s
    let s := (List.range 16).foldl (refillZone past) s
    pump (tempTriggers { s with gov := { s.gov with refill := s.tick, stopped := false } })
  else s

/-- GOVERNOR_REFILL. -/
def execGovernorRefill (s : State) : Out := ok (governorRefill s)

end Sys2Proof.Machine
end

