-- ==== Sys2Proof/Machine/Warn.lean ====
section
/-! DEFINITION. Pins and their filters (chapters Parity, the Stripe Journal and Restart; The Block Boundary): PFAIL_N and
the power-fail warning, MEM_HOLD, IX_ALIVE, the trace ports. -/

namespace Sys2Proof.Machine

/-- No reset is low. -/
def outOfReset (s : State) : Bool := s.porstN && s.srstN

/-! ### PFAIL_N (R291, R293, R541, R569) -/

/-- PFAIL_N falls. -/
def pfailFall (s : State) : State :=
  modJrn { s with pfailN := false } (fun j => { j with
    pfLow := if j.pfActive then j.pfLow else some s.tick, pfHigh := none })

/-- PFAIL_N_FALL. -/
def execPfailNFall (s : State) : Out := ok (if s.pfailN then pfailFall s else s)

/-- PFAIL_N rises. -/
def pfailRise (s : State) : State :=
  modJrn { s with pfailN := true } (fun j => { j with pfLow := if j.pfActive then j.pfLow else none, pfHigh := some s.tick })

/-- PFAIL_N_RISE. -/
def execPfailNRise (s : State) : Out := ok (if s.pfailN then s else pfailRise s)

/-- The patrol of a patrol wake gives up its flash visits (R541). -/
def patrolStop (s : State) : State :=
  let mine (i : Item) : Bool := i.use.all (fun u => match u with | .patrol _ => true | _ => false)
  let none_ : Tab Nat := s.pwr.visits.map (fun p => (p.1, 0))
  let s : State := { s with pwr := { s.pwr with visits := none_ } }
  ((s.items.filter mine).map (fun i => i.id)).foldl dropItem s

/-- The flags are set at once, without waking (R541). -/
def pfailAsleep (s : State) : State :=
  raise (modJrn s (fun j => { j with pfActive := true, pfDone := true, pfSleep := true })) 1021

/-- The warning, once PFAIL_N has been low for FILTER ticks (R291, R532, R541). -/
def pfailWarning (s : State) : State :=
  let due_ := match s.jrn.pfLow with | some t => due s t (pfFilter s) | none => false
  if !s.pfailN && due_ && !s.jrn.pfActive && outOfReset s then
    let s := if pwrEntering s && !(pwrCommit s) && decide (s.pwr.step ≠ .patrol) then abortEntry s else s
    let asleep := (pwrCommit s || decide (2 ≤ pwrState s)) && decide (s.pwr.step ≠ .patrol)
    if asleep then pump (pfailAsleep s)
    else
      let s := if s.pwr.step = .patrol then patrolStop s else s
      let s := jrnFlag (modJrn s (fun j => { j with pfActive := true, pfSleep := false })) 0
      pump (pfailSteps (raise s 1021))
  else s

/-- POWER_FAIL_WARNING. -/
def execPowerFailWarning (s : State) : Out := ok (pfailWarning s)

/-- PFAIL_STAGE_BY_EXPIRY. -/
def execPfailStageByExpiry (s : State) : Out := ok (pump (stageByExpiry s))

/-- PFAIL_N has been high for FILTER ticks (R293, R569). -/
def pfailHigh (s : State) : State :=
  if pfRestored s && outOfReset s then
    let s := modJrn s (fun j => { j with pfHold := false })
    pump (if s.jrn.pfDone then pfClear s else s)
  else s

/-- PFAIL_HIGH_FILTER_EXPIRY. -/
def execPfailHighFilterExpiry (s : State) : Out := ok (pfailHigh s)

/-! ### MEM_HOLD (R411, R431, R555) -/

/-- MEM_HOLD_RISE: the ports raise no new request. -/
def execMemHoldRise (s : State) : Out :=
  ok (if s.memHold then s
    else
      let held := if s.pwr.step = .patrol then some s.tick else none
      { s with memHold := true, pwr := { s.pwr with heldAt := held } })

/-- MEM_HOLD_FALL: waiting requests may be raised again. -/
def execMemHoldFall (s : State) : Out :=
  ok (if s.memHold then { s with memHold := false, pwr := { s.pwr with heldAt := none } } else s)

/-- FURL_PATROL_HOLD_EXPIRY (R411). -/
def execFurlPatrolHoldExpiry (q : Quad) (s : State) : Out := ok (pump (patrolHold s q))

/-! ### IX_ALIVE (R574) -/

/-- IX_ALIVE_TOGGLE: the tick count is a multiple of 1,024 and the block is serviceable. -/
def execIxAliveToggle (s : State) : Out :=
  ok (if s.aliveOn && !s.trefStop && !s.blockFault && decide (s.tick % 1024 = 0) && decide (s.aliveAt ≠ s.tick) then
    { s with alive := !s.alive, aliveAt := s.tick }
  else s)

/-! ### Trace ports (R444, R445, R576) -/

/-- The domain of a trace FIFO. -/
def traceDom (k : Nat) : Nat := if k < 4 then 80 + k else 92

/-- TRCk_RD sampled high: the oldest committed word, or 0 where there is none or the domain is off. -/
def tracePortRead (s : State) (k : Nat) : State :=
  let t := traceSt s k
  if !(domOn s (traceDom k)) || decide (traceLevel t = 0) || !(outOfReset s) then
    { s with traces := tset s.traces k { t with out := 0 } }
  else
    { s with traces := tset s.traces k { t with
        out := w32 (tget t.mem (t.rd % 2 ^ 14) 0), rd := (t.rd + 1) % 2 ^ 15, lastRead := s.tick } }

/-- TRCk_NE. -/
def traceNotEmpty (s : State) (k : Nat) : Bool := domOn s (traceDom k) && decide (traceLevel (traceSt s k) ≠ 0)

/-- TRACE_PORT_READ. -/
def execTracePortRead (k : Fin 5) (s : State) : Out := ok (tracePortRead s k)

/-- TRACE_TIMEOUT: committed words have gone unread for TRC_TIMEOUT ticks. -/
def traceTimeout (s : State) (k : Nat) : State :=
  let t := traceSt s k
  let n := rd s (regTrcTimeout k)
  if decide (n ≠ 0) && decide (traceLevel t ≠ 0) && domOn s (traceDom k) && due s t.lastRead n then
    let s := { s with traces := tset s.traces k { t with lastRead := s.tick } }
    raise (sticky s (regTrcStatus k) 1) (1001 + k)
  else s

/-- TRACE_TIMEOUT. -/
def execTraceTimeout (k : Fin 5) (s : State) : Out := ok (traceTimeout s k)

/-- TRACE_CONTROL (R440). -/
def traceControl (s : State) (cid : Nat) : State :=
  start s cid 0x38 (fun s c =>
    let k := bits (cP0 c) 34 32
    finish (wr s (regTrcMask k) (cP0 c % 2 ^ 32)) cid { status := stOk, ra := k })

/-- TRACE_CONTROL. -/
def execTraceControl (cid : Nat) (s : State) : Out := ok (pump (traceControl s cid))

/-- ECHO (R64). -/
def echo (s : State) (cid : Nat) : State :=
  start s cid 0x7F (fun s c => finish s cid { status := stOk, ra := cP0 c % 2 ^ 32, rb := cP1 c })

/-- ECHO. -/
def execEcho (cid : Nat) (s : State) : Out := ok (pump (echo s cid))

end Sys2Proof.Machine
end

