-- ==== Sys2Proof/Machine/Views.lean ====
section
/-! DEFINITION. What the registers read that show state held elsewhere (the register tables of every chapter). -/

namespace Sys2Proof.Machine

/-- The number `n` kept within a field of `w` bits. -/
def sat (w n : Nat) : Nat := min n (2 ^ w - 1)

/-- The numbers below `n` that a property holds of, as bits. -/
def bitsOf (n : Nat) (p : Nat → Bool) : Nat := (((List.range n).filter p).map (fun i => 2 ^ i)).sum

/-- Is any bit of a value set at a place? The low 32 bits of a number. -/
def low32 (n : Nat) : Nat := n % 2 ^ 32

/-! ### Global window -/

/-- GLB_CFG_STATE (R505). -/
def cfgStateWord (s : State) : Nat :=
  b2n s.cfg.staged * 2 ^ 31 + b2n s.cfg.commitCid.isSome * 2 ^ 30 + b2n s.cfg.draining * 2 ^ 29 + b2n s.committed * 2 ^ 28 +
    (if s.cfg.draining then sat 16 (stamped s s.cfg.prevGen) else 0)

/-- GLB_RETIRED0 and GLB_RETIRED1 (R524). -/
def retired0Word (s : State) : Nat :=
  sat 8 (sparesUsed s 1) * 2 ^ 24 + sat 8 (sparesUsed s 2) * 2 ^ 16 + sat 8 (sparesUsed s 3) * 2 ^ 8 + sat 8 (sparesUsed s 4)
def retired1Word (s : State) : Nat := sat 8 (sparesUsed s 5) * 2 ^ 8 + sat 8 (sparesUsed s 6)

/-- GLB_DEC_OUTi (R518, R524). -/
def decOutWord (s : State) (i : Nat) : Nat :=
  bitsOf 32 (fun j =>
    let n := 32 * i + j
    decide (n < 80) && (tget? (tget s.decs (n / 10) {}).out (n % 10)).isSome)

/-- WP_PROTECTED (R196). -/
def protectedWord (s : State) : Nat := ((List.range 128).map (fun i => popcount 32 (rd s (regWpMask i)))).sum

/-- WP_OA_UNLOCK as it reads (R196). -/
def oaUnlockWord (s : State) : Nat :=
  b2n s.boot.unlock.isSome * 2 ^ 31 + b2n s.boot.armed * 2 ^ 30 +
    (match s.boot.unlock, s.boot.armed, s.boot.key with
    | some n, _, _ => n
    | none, true, some n => n
    | _, _, _ => 0)

/-- The chip enable that BOOT_ID_SEL names, where discovery found it (R597). -/
def idSel (s : State) : Option CeFound :=
  let v := rd s regBootIdSel
  s.boot.found.find? (fun f => decide (f.ch = bits v 8 4) && decide (f.ce = bits v 3 0))

/-- BOOT_ID_LO and BOOT_ID_HI. -/
def idLoWord (s : State) : Nat := ((idSel s).map (fun f => fieldAt f.id 0 4)).getD 0
def idHiWord (s : State) : Nat := ((idSel s).map (fun f => min 8 f.luns * 2 ^ 16 + fieldAt f.id 4 2)).getD 0

/-- The registers of the global window that show state held elsewhere. -/
def globalView (s : State) (a : Nat) : Option Nat :=
  if a = regHopOztUsed then some s.ozt.length
  else if a = regGlbPace then some (b2n (paceValid s) * 2 ^ 31 + rdf s regGlbPace 15 0)
  else if a = regHopLtUsed then some (sat 24 (ltUsed s))
  else if a = regWpOaUnlock then some (oaUnlockWord s)
  else if a = regWpProtected then some (protectedWord s)
  else if a = regGlbCfgCur then some (low32 s.cfg.curGen)
  else if a = regGlbCfgNext then some (if s.cfg.staged then low32 s.cfg.nextGen else 0)
  else if a = regGlbCfgPrev then some (if s.cfg.draining then low32 s.cfg.prevGen else 0)
  else if a = regGlbCfgState then some (cfgStateWord s)
  else if a = regGlbMeasCount then some s.cfg.log.length
  else if regGlbMeas 0 ≤ a ∧ a < regGlbMeas 0 + 384 then
    some (fieldAt (meas s ((a - regGlbMeas 0) / 48)) ((a - regGlbMeas 0) % 48) 4)
  else if a = regGlbRetired0 then some (retired0Word s)
  else if a = regGlbRetired1 then some (retired1Word s)
  else if regGlbDecOut 0 ≤ a ∧ a < regGlbDecOut 3 then some (decOutWord s ((a - regGlbDecOut 0) / 4))
  else if a = regBootIdLo then some (idLoWord s)
  else if a = regBootIdHi then some (idHiWord s)
  else none

/-! ### Event-controller window (R469) -/

/-- EVC_PENDi or EVC_FPENDi; bit 31 of EVC_FPEND31 stands for source 1,023 (R605). -/
def pendWord (s : State) (fast : Bool) (i : Nat) : Nat :=
  bitsOf 32 (fun j =>
    let src := 32 * i + j
    if src = 1023 then fast && !(s.evc.fault.isEmpty) else isPend s src && (srcFast s src == fast))

/-- EVC_STACKt. -/
def stackWord (s : State) (t : Nat) : Nat :=
  let w (o : Option Nat) : Nat := match o with | some n => 2 ^ 15 + n | none => 0
  w (stackOf s false t) * 2 ^ 16 + w (stackOf s true t)

/-- EVC_OFFERt. -/
def offerWord (s : State) (t : Nat) : Nat := (topOffer s true t).getD 0 * 2 ^ 16 + (topOffer s false t).getD 0

/-- The registers of the event-controller window that show state held elsewhere. -/
def evcView (s : State) (a : Nat) : Option Nat :=
  if a = regEvcWake then some (b2n (wakeReq s) * 2 ^ 31 + bitsOf 16 (fun t => (tget? s.evc.sleep t).isSome))
  else if a = regEvcFaultPend then some (bitsOf 16 (fun t => (tget? s.evc.fault t).isSome))
  else if regEvcPend 0 ≤ a ∧ a < regEvcPend 32 then some (pendWord s false ((a - regEvcPend 0) / 4))
  else if regEvcPset 0 ≤ a ∧ a < regEvcPset 32 then some (pendWord s false ((a - regEvcPset 0) / 4))
  else if regEvcFpend 0 ≤ a ∧ a < regEvcFpend 32 then some (pendWord s true ((a - regEvcFpend 0) / 4))
  else if regEvcFpset 0 ≤ a ∧ a < regEvcFpset 32 then some (pendWord s true ((a - regEvcFpset 0) / 4))
  else if regEvcHoldActive 0 ≤ a ∧ a < regEvcHoldActive 2 then
    let i := (a - regEvcHoldActive 0) / 4
    some (bitsOf 32 (fun j => (tget? s.evc.holds (32 * i + j)).isSome))
  else if 0x10800 ≤ a ∧ a < 0x10C00 then
    let t := (a - 0x10800) / 64
    if a = regEvcStack t then some (stackWord s t)
    else if a = regEvcOffer t then some (offerWord s t)
    else none
  else none

/-! ### Governor and power window (R380) -/

/-- GOV_ZSTATEz. -/
def zstateWord (s : State) (z : Nat) : Nat :=
  let t := zoneTh s z
  (if t.fresh then ofSbyte t.temp else 0x80) * 2 ^ 24 + t.f % 256 * 2 ^ 16 + b2n t.crit * 2 ^ 15 + b2n t.stale * 2 ^ 14

/-- GOV_SENSORi. -/
def sensorWord (s : State) (i : Nat) : Nat :=
  ((List.range 4).map (fun n =>
    ofSbyte (((tget? s.gov.sensors (4 * i + n)).map (fun p => p.1)).getD (-128)) * 2 ^ (8 * n))).sum

/-- The registers of the governor window that show state held elsewhere. -/
def govView (s : State) (a : Nat) : Option Nat :=
  if a = regGovPolicy then some (s.gov.resPct * 2 ^ 24 + s.gov.raPct * 2 ^ 16 + s.gov.maint * 2 ^ 8 + s.gov.raw)
  else if a = regGovRaWorth then some s.gov.worth
  else if regGovRail 0 ≤ a ∧ a < regGovRail 16 then
    let r := (a - regGovRail 0) / 4
    some (tget s.gov.used r 0 % 2 ^ 16 * 2 ^ 16 + railLimit s r)
  else if 0x20300 ≤ a ∧ a < 0x20500 then
    let z := (a - 0x20300) / 32
    if a = regGovZbudget z then some ((zoneTh s z).burst * 2 ^ 24 + (zoneTh s z).budget)
    else if a = regGovZstate z then some (zstateWord s z)
    else if a = regGovZtokens z then some ((BitVec.ofInt 32 ((zoneTh s z).tokens.tdiv 1000)).toNat)
    else none
  else if regGovSensor 0 ≤ a ∧ a < regGovSensor 16 then some (sensorWord s ((a - regGovSensor 0) / 4))
  else none

/-! ### Journal window (R305, R345, R449) -/

/-- The group that JRN_MAINT_SEL names. -/
def maintSel (s : State) : Nat := rdf s regJrnMaintSel 15 0

/-- Units that a lease has still to do: rebuild units, or zones not yet crossed. -/
def unitsLeft (s : State) (fg : Nat) : Nat :=
  let g := group s fg
  match g.lease with
  | .free => 0
  | .rebuild => g.units.length
  | .reshape =>
    match boundLayout s fg with
    | some lt => ((zidsOf lt).filter (fun z => decide (g.boundary ≤ z))).length
    | none => 0

/-- JRN_LEASE. -/
def leaseWord (s : State) : Nat :=
  let g := group s (maintSel s)
  let kind := match g.lease with | .free => 0 | .rebuild => 1 | .reshape => 2
  if kind = 0 then 0
  else kind * 2 ^ 28 + b2n g.paused * 2 ^ 27 + g.coord * 2 ^ 24 + sat 20 (unitsLeft s (maintSel s))

/-- JRN_REB_INFO. -/
def rebInfoWord (s : State) : Nat :=
  let fg := maintSel s
  sat 16 (group s fg).lost.length * 2 ^ 16 + sat 16 (membersIn s fg 3).length

/-- JRN_RSH_BOUND. -/
def rshBoundWord (s : State) : Nat :=
  let g := group s (maintSel s)
  if g.newIdx.isSome then b2n (decide (g.lease = .reshape)) * 2 ^ 31 + b2n g.aborted * 2 ^ 30 + g.boundary % 2 ^ 19 else 0

/-- The registers of the journal window that show state held elsewhere. -/
def jrnView (s : State) (a : Nat) : Option Nat :=
  if a = regJrnState then some (jrnStateWord s)
  else if a = regJrnLease then some (leaseWord s)
  else if a = regJrnRebInfo then some (rebInfoWord s)
  else if a = regJrnRshBound then some (rshBoundWord s)
  else if a = regTrcLevel 4 then some (traceLevel (traceSt s 4))
  else none

/-! ### Quadrant windows -/

/-- DEC_POOL_STATE of pool `p` (R267): the codewords of its own quadrant half that wait, its busy decoders. -/
def poolStateWord (s : State) (p : Nat) : Nat :=
  let busy := (decPool s p).busy
  let n := ((waitingDec s (p / 2)).filter (fun i => decide (poolOf (chOf i.glun) = p))).length
  min 512 n * 2 ^ 16 + (busy.filter (fun d => 8 ≤ d.1)).length * 2 ^ 8 + (busy.filter (fun d => d.1 < 8)).length

/-- STE_SLOTS (R306). -/
def steSlotsWord (s : State) (q : Nat) : Nat :=
  held s q 3 * 2 ^ 24 + held s q 2 * 2 ^ 16 + held s q 1 * 2 ^ 8 + (freeSlotList s q).length

/-- MEM_PORT_STATE (R448). -/
def portStateWord (s : State) (n : Nat) : Nat :=
  let p := port s n
  b2n s.memHold * 2 ^ 31 + sat 10 p.waiting.length * 2 ^ 16 + p.quar.length * 2 ^ 6 + p.out.length

/-- DMA_POOL_STATE (R448). -/
def dmaPoolWord (s : State) (q : Nat) : Nat :=
  let p := pool s q
  sat 8 p.reserve.length * 2 ^ 24 + sat 8 p.held.length * 2 ^ 16 + sat 16 p.pooled.length

/-- The registers of a quadrant-common window that show state held elsewhere. -/
def quadView (s : State) (a : Nat) : Option Nat :=
  let q := (a - 0x80000) / 0x20000
  if a = regHopSliceFree q then some (sliceFree s q)
  else if a = regDecPoolState (2 * q) then some (poolStateWord s (2 * q))
  else if a = regDecPoolState (2 * q + 1) then some (poolStateWord s (2 * q + 1))
  else if a = regSteSlots q then some (steSlotsWord s q)
  else if a = regQdMneState q then some (mneState s q)
  else if a = regMemPortState (2 * q) then some (portStateWord s (2 * q))
  else if a = regMemPortState (2 * q + 1) then some (portStateWord s (2 * q + 1))
  else if a = regDmaPoolState q then some (dmaPoolWord s q)
  else if a = regTrcLevel q then some (traceLevel (traceSt s q))
  else none

/-- CSQ_BUSY (R195). -/
def csqBusyWord (s : State) (c : Nat) : Nat :=
  let luns (p : Op → Bool) : Nat :=
    (dedupNat ((s.ops.filter (fun o => decide (chOf o.glun = c) && p o)).map (fun o => o.glun))).length
  let stopped (o : Op) : Bool := match o.phase with | .stopped _ => true | _ => false
  let loaded (o : Op) : Bool := opUnadmitted o || (decide (o.phase = .granted) && decide (0 < o.pages))
  luns (fun o => opInArray o && !(stopped o)) * 2 ^ 16 + luns stopped * 2 ^ 8 + luns (fun o => decide (o.type ≠ .read) && loaded o)

/-- CSQ_LUN_STATEe of a channel (R195). -/
def lunStateWord (s : State) (c e : Nat) : Nat :=
  ((List.range 8).map (fun l => (((lun? s (c * 128 + e * 8 + l)).map (fun x => x.state)).getD 15) % 16 * 2 ^ (4 * l))).sum

/-- CSQ_LUN_MODELi of a channel (R195). -/
def lunModelWord (s : State) (c i : Nat) : Nat :=
  ((List.range 4).map (fun n => (((lun? s (c * 128 + 4 * i + n)).map (fun x => x.model)).getD 255) % 256 * 2 ^ (8 * n))).sum

/-- The registers of a channel window that show state held elsewhere. -/
def chanView (s : State) (a : Nat) : Option Nat :=
  let q := (a - 0x80000) / 0x20000
  let c := 8 * q + ((a - 0x80000) % 0x20000 - 0x10000) / 0x2000
  if a = regCsqBusy c then some (csqBusyWord s c)
  else if regCsqLunState c 0 ≤ a ∧ a < regCsqLunState c 16 then some (lunStateWord s c ((a - regCsqLunState c 0) / 4))
  else if regCsqLunModel c 0 ≤ a ∧ a < regCsqLunModel c 32 then some (lunModelWord s c ((a - regCsqLunModel c 0) / 4))
  else none

/-! ### Engine windows (R506) -/

/-- The contents of an engine's other bank: the next slot where one is staged for it, else the draining one (R472). -/
def otherSlot (s : State) (e : Nat) : Slot :=
  match tget? s.cfg.next e with
  | some sl => sl
  | none => tget s.cfg.prev e {}

/-- The four parity bits of a microword: odd parity over each byte (R472). -/
def csParity (w : Nat) : Nat := bitsOf 4 (fun i => decide (popcount 8 (bits w (8 * i + 7) (8 * i)) % 2 = 0))

/-- The registers of an engine window that show state held elsewhere. -/
def engView (s : State) (a : Nat) : Option Nat :=
  let e := (a - 0x100000) / 0x4000
  let en := eng s e
  if a = regEngState e then
    some (en.mode * 2 ^ 30 + en.bank % 2 * 2 ^ 29 + b2n (s.cfg.draining && (tget? s.cfg.prev e).isSome) * 2 ^ 28 + en.pc % 2 ^ 14)
  else if a = regEngWork e then some (en.opcode % 256 * 2 ^ 24)
  else if a = regEngGen e then
    some (low32 (if s.cfg.commitCid.isSome && unitSwitched s e then s.cfg.nextGen else s.cfg.curGen))
  else none

/-! ### All of them -/

/-- What a register shows where it shows state held elsewhere. -/
def viewReg (s : State) (a : Nat) : Option Nat :=
  if a < 0x10000 then globalView s a
  else if a < 0x20000 then evcView s a
  else if a < 0x30000 then govView s a
  else if a < 0x40000 then jrnView s a
  else if a < 0x80000 then none
  else if a < 0x100000 then (if (a - 0x80000) % 0x20000 < 0x10000 then quadView s a else chanView s a)
  else if a < 0x200000 then engView s a
  else none

/-- A word of the OZT window (R102): entry by entry, 32 bytes each. What an entry not in use reads after it has been freed the
rule leaves open: it reads zeros (DESIGN CHOICE, log entry 76). -/
def oztWord (s : State) (a : Nat) : Nat :=
  let i := (a - 0x200000) / 32
  match tget? s.ozt i with
  | some e => fieldAt (packZone e) (a % 32) 4
  | none => 0

/-- A word of a ring context. -/
def ctxWord (s : State) (a : Nat) : Nat := cget s ((a - 0x400000) / 64) (a % 64) 4

end Sys2Proof.Machine
end

