-- ==== Sys2Proof/Machine/Control.lean ====
section
/-! DEFINITION. The control port (chapters Scope, The Four Levels and the Three Paths, The Block Boundary): accesses to
gated domains, reads and writes by access code, and the registers with an effect of their own. -/

namespace Sys2Proof.Machine

/-! ### Access (R25, R546) -/

/-- The domains whose registers stand at an address; none for PD_AO and for an offset that no register occupies. -/
def regDoms (a : Nat) : List Nat :=
  if a < 0x30000 then []
  else if a < 0x40000 then (if (regRow? a).isSome then [92] else [])
  else if a < 0x80000 then []
  else if 0x200000 ≤ a then [93]
  else if (regRow? a).isNone then []
  else if a < 0x100000 then
    let q := (a - 0x80000) / 0x20000
    let o := (a - 0x80000) % 0x20000
    if o < 0x10000 then
      if 0x600 ≤ o ∧ o < 0x700 then [72 + 2 * q, 73 + 2 * q]
      else if 0x800 ≤ o ∧ o < 0x900 then [64 + 2 * q + (o - 0x800) / 0x80]
      else if 0xA00 ≤ o ∧ o < 0xB00 then [84 + q]
      else [80 + q]
    else
      let c := 8 * q + (o - 0x10000) / 0x2000
      if (o - 0x10000) % 0x2000 < 0x1000 then [c] else [32 + c]
  else
    let e := (a - 0x100000) / 0x4000
    if e < 32 then [e] else if e < 40 then [72 + (e - 32)] else if e < 44 then [80 + (e - 40)]
    else if e < 48 then [84 + (e - 44)] else if e = 48 then [92] else []

/-- How an access to the registers of some domains fares (R25, R545, R546). -/
inductive CpTurn where
  | busy                                -- an earlier access is held: there is no new one
  | refuse
  | takes (s : State)
  | waits (s : State)                   -- its domains are being raised

/-- The domains of an access that are to be raised. Those of a channel without LUNs stay off (R525); their registers, kept
under R526, still answer. -/
def gatedDoms (s : State) (ds : List Nat) : List Nat := ds.filter (fun d => !(domOn s d) && !(absentChan s d))

/-- The turn that an access takes: gated domains are powered up in RUN and TRIM, and it completes once they are on. -/
def cpGate (s : State) (ds : List Nat) (be : BitVec 4) : CpTurn :=
  if cpDead s || decide (be ≠ 15) then .refuse
  else if s.cpWait.isSome then .busy
  else if 2 ≤ pwrState s ∧ ds.any (fun d => !(domOn s d)) then .refuse
  else
    let off := gatedDoms s ds
    if off.isEmpty then .takes { s with cpResp := 0 } else .waits (off.foldl domUse s)

/-- A write access of a value, with what hardware sets in it. -/
def cpPut (s : State) (a : Nat) (be : BitVec 4) (v coin : Nat) (f : State → State) : State :=
  match cpGate s (regDoms a) be with
  | .busy => s
  | .refuse => cpErr s
  | .takes t => f t
  | .waits t => { t with cpWait := some { write := true, addr := a, value := v, coin := coin } }

/-- A read access. -/
def cpGet (s : State) (a : Nat) (be : BitVec 4) (coin : Nat) (f : State → State × Nat) : State :=
  match cpGate s (regDoms a) be with
  | .busy => s
  | .refuse => cpErrRead s
  | .takes t =>
    let (t, v) := f t
    { t with cpRdata := w32 v }
  | .waits t => { t with cpWait := some { write := false, addr := a, coin := coin } }

/-! ### Reads with an effect of their own -/

/-- GLB_TICK_LO (R27). -/
def tickRead (s : State) : State × Nat := (wr s regGlbTickHi (s.tick / 2 ^ 32), low32 s.tick)

/-- JRN_SEQ_LO (R305). -/
def seqRead (s : State) : State × Nat := (wr s regJrnSeqHi (s.jrn.seq / 2 ^ 32), low32 s.jrn.seq)

/-- JRN_DURABLE_LO (R305): the highest durable SEQ. -/
def durableRead (s : State) : State × Nat :=
  let n := s.jrn.durable - 1
  (wr s regJrnDurableHi (n / 2 ^ 32), low32 n)

/-- GLB_AGE_NOW_LO (R415). -/
def ageNowRead (s : State) : State × Nat := (wr s regGlbAgeNowHi (timeline s / 2 ^ 32), low32 (timeline s))

/-- GLB_ADVICE0 (R399, R415): the oldest advice leaves the FIFO. -/
def adviceRead (s : State) : State × Nat :=
  match s.age.advice with
  | [] => (s, 0)
  | (zid, g, b, cause) :: r =>
    (wr { s with age := { s.age with advice := r } } regGlbAdvice1 (g * 2 ^ 12 + b), 2 ^ 31 + cause * 2 ^ 28 + zid % 2 ^ 19)

/-- ENG_CS_DATA (R506). -/
def csRead (s : State) (e : Nat) : State × Nat :=
  let a := rd s (regEngCsAddr e)
  let sl := if bit a 14 then otherSlot s e else tget s.cfg.cur e {}
  let w := (tget sl.words (a % 2 ^ 14) 0).toNat
  let s := wr s (regEngCsPar e) (csParity w)
  (wrf s (regEngCsAddr e) 13 0 (a + 1), w)

/-- An RC register: it reads and clears, keeping what hardware counts in the same access (R11, R12), its "res" bits 0 (R7);
HOP_SLICE_LOW reloads from HOP_SLICE_FREE (R132). -/
def rcRead (s : State) (a coin mask : Nat) : State × Nat :=
  let v := rd s a
  let q := (a - 0x80000) / 0x20000
  if a = regHopSliceLow q then (wr s a (sliceFree s q), v) else (wr s a (coin &&& mask), v)

/-- What a read of a register returns, and does. -/
def readReg (s : State) (a coin : Nat) : State × Nat :=
  if 0x400000 ≤ a then (s, ctxWord s a)
  else if 0x200000 ≤ a then (s, oztWord s a)
  else match regRow? a with
    | none => (s, 0)
    | some r =>
      if a = regGlbTickLo then tickRead s
      else if a = regJrnSeqLo then seqRead s
      else if a = regJrnDurableLo then durableRead s
      else if a = regGlbAgeNowLo then ageNowRead s
      else if a = regGlbAdvice0 then adviceRead s
      else if decide (0x100000 ≤ a) && decide ((a - 0x100000) % 0x4000 = 0x24) then csRead s ((a - 0x100000) / 0x4000)
      else match r.acc with
        | .wo => (s, 0)
        | .rc =>
          if decide (0x10800 ≤ a) && decide (a < 0x10C00) then
            let s := claim s (decide ((a - 0x10800) % 64 = 12)) ((a - 0x10800) / 64)
            (s, s.cpRdata.toNat)
          else rcRead s a coin r.mask
        | _ => (s, (viewReg s a).getD (rd s a))

/-- REGISTER_READ (R11, R25, R546). -/
def registerRead (s : State) (a : Nat) (be : BitVec 4) : State :=
  let a := a % 2 ^ 23 / 4 * 4
  cpGet s a be 0 (fun s => readReg s a 0)

/-- REGISTER_READ. -/
def execRegisterRead (addr : Nat) (be : BitVec 4) (s : State) : Out := ok (registerRead s addr be)

/-- GLB_TICK_LO_READ. -/
def execGlbTickLoRead (s : State) : Out := ok (cpGet s regGlbTickLo 15 0 tickRead)

/-- JRN_SEQ_LO_READ. -/
def execJrnSeqLoRead (s : State) : Out := ok (cpGet s regJrnSeqLo 15 0 seqRead)

/-- JRN_DURABLE_LO_READ. -/
def execJrnDurableLoRead (s : State) : Out := ok (cpGet s regJrnDurableLo 15 0 durableRead)

/-- GLB_AGE_NOW_LO_READ. -/
def execGlbAgeNowLoRead (s : State) : Out := ok (cpGet s regGlbAgeNowLo 15 0 ageNowRead)

/-- GLB_ADVICE0_READ. -/
def execGlbAdvice0Read (s : State) : Out := ok (cpGet s regGlbAdvice0 15 0 adviceRead)

/-- ENG_CS_DATA_READ. -/
def execEngCsDataRead (e : Engine) (s : State) : Out := ok (cpGet s (regEngCsData e) 15 0 (fun s => csRead s e))

/-- RC_COUNTER_READ (R11, R12, R520). -/
def execRcCounterRead (addr : Nat) (coincident : Word) (s : State) : Out :=
  let a := addr % 2 ^ 23 / 4 * 4
  ok (cpGet s a 15 coincident.toNat (fun s => readReg s a coincident.toNat))

/-! ### Writes with an effect of their own -/

/-- GLB_DOORBELL with KIND 0 (R45, R46, R48, R531, R532, R538). -/
def tailDoorbell (s : State) (r v : Nat) : State :=
  if ringEnabled s r then
    powerDoorbell (modRing s r (fun x => { x with
      latTail := some v, latTick := if x.latTail.isSome then x.latTick else s.tick }))
  else doorbellDiscard s

/-- GLB_DOORBELL with KIND 1 (R45, R48); past the commit point it is held too, and starts no exit (R532, R538). -/
def headDoorbell (s : State) (r v : Nat) : State :=
  if ringEnabled s r then
    let s := modRing s r (fun x => { x with latHead := some v })
    if pwrCommit s then pwrFlag s 0 else s
  else doorbellDiscard s

/-- DOORBELL_CMD_TAIL. -/
def execDoorbellCmdTail (ring : Ring) (value : BitVec 16) (s : State) : Out :=
  ok (cpWrite s (fun s => tailDoorbell s ring value.toNat))

/-- DOORBELL_CPL_HEAD. -/
def execDoorbellCplHead (ring : Ring) (value : BitVec 16) (s : State) : Out :=
  ok (cpWrite s (fun s => headDoorbell s ring value.toNat))

/-- PHY_CMD_QUICK_RETRAIN. -/
def execPhyCmdQuickRetrain (c : Chan) (s : State) : Out := ok (pump (cpPut s (regPhyCmd c) 15 1 0 (fun s => phyCmd s c 1)))

/-- PHY_CMD_FULL_TRAINING. -/
def execPhyCmdFullTraining (c : Chan) (s : State) : Out := ok (pump (cpPut s (regPhyCmd c) 15 2 0 (fun s => phyCmd s c 2)))

/-- PHY_CMD_RAISE_ATTEMPT. -/
def execPhyCmdRaiseAttempt (c : Chan) (s : State) : Out := ok (pump (cpPut s (regPhyCmd c) 15 3 0 (fun s => phyCmd s c 3)))

/-- JRN_CMD_DISCARD (R607). -/
def execJrnCmdDiscard (fg : BitVec 16) (s : State) : Out :=
  ok (pump (cpPut s regJrnCmd 15 (2 ^ 30 + fg.toNat) 0 (fun s => jrnDiscard s fg.toNat)))

/-- OA_UNLOCK_FIRST_KEY (R178). -/
def execOaUnlockFirstKey (value : Word) (s : State) : Out := ok (pump (cpWrite s (fun s => oaWrite s value.toNat)))

/-- OA_UNLOCK_SECOND_KEY (R178). -/
def execOaUnlockSecondKey (value : Word) (s : State) : Out := ok (pump (cpWrite s (fun s => oaWrite s value.toNat)))

/-- OA_RELOCK (R179). -/
def execOaRelock (s : State) : Out := ok (pump (cpWrite s (fun s => oaWrite s 0)))

/-- OA_KEY_WINDOW_EXPIRY (R178). -/
def execOaKeyWindowExpiry (s : State) : Out := ok (oaWindow s)

/-- OA_UNLOCK_EXPIRY (R179). -/
def execOaUnlockExpiry (s : State) : Out := ok (pump (oaExpire s))

/-- RING_CONTEXT_WRITE (R49 to R51). -/
def execRingContextWrite (addr : Nat) (value : Word) (be : BitVec 4) (s : State) : Out :=
  let o := addr % 2 ^ 22
  ok (cpPut s (0x400000 + o) be value.toNat 0 (fun s => ctxWrite s (o / 64) (o % 64 / 4) value.toNat))

/-! ### Writes by access code (R11 to R13) -/

/-- A bit of a W1C register that hardware sets, with the event that goes with it (R12). -/
def hwSet (s : State) (a b : Nat) : State :=
  if a = regGlbCfgStatus then cfgFlag s b
  else if a = regGlbFaultStatus then faultFlag s b
  else if a = regPwrStatus then pwrFlag s b
  else if a = regJrnStatus then jrnFlag s b
  else if a = regJrnMaintStatus then maintFlag s b
  else if a = regGovStatus then govFlag s b
  else if a = regGlbAgeStatus then ageFlag s b
  else if a = regDecPiStatus then decPiFlag s b
  else if a = regGlbTbStatus ∧ b = 0 then trefLost s
  else sticky s a b

/-- A W1C register: ones clear, and what hardware sets in the same access stands (R12). -/
def w1cWrite (s : State) (a v coin mask : Nat) : State :=
  let s := wr s a (rd s a &&& (0xFFFFFFFF ^^^ v))
  ((List.range 32).filter (fun b => bit coin b && bit mask b)).foldl (fun s b => hwSet s a b) s

/-- The registers of the event controller with an effect of their own; `coin` are the pending bits that hardware sets in the
same access, which stand (R12, R454). -/
def evcWrite (s : State) (a v coin : Nat) : Option State :=
  if 0x10100 ≤ a ∧ a < 0x10180 then some (pendSet (pendClear s false ((a - 0x10100) / 4) (v &&& (0xFFFFFFFF ^^^ coin))) false ((a - 0x10100) / 4) coin)
  else if 0x10180 ≤ a ∧ a < 0x10200 then some (pendSet s false ((a - 0x10180) / 4) v)
  else if 0x10200 ≤ a ∧ a < 0x10280 then some (pendSet (pendClear s true ((a - 0x10200) / 4) (v &&& (0xFFFFFFFF ^^^ coin))) true ((a - 0x10200) / 4) coin)
  else if 0x10280 ≤ a ∧ a < 0x10300 then some (pendSet s true ((a - 0x10280) / 4) v)
  else if 0x10800 ≤ a ∧ a < 0x10C00 then
    let t := (a - 0x10800) / 64
    if a = regEvcComplete t then some (completeNormal s t (v % 1024))
    else if a = regEvcFcomplete t then some (completeFast s t (v % 1024))
    else if a = regEvcMask t ∨ a = regEvcFmask t then some (settle (wr s a (v &&& 0x800003FF)) true [])
    else if a = regEvcTgt t then some (settle (wr s a (v % 2)) true [])
    else none
  else if 0x11000 ≤ a ∧ a < 0x11FFC then some (srcWrite s ((a - 0x11000) / 4) v)
  else none

/-- The other registers with an effect of their own. -/
def cmdWrite (s : State) (a v coin : Nat) : Option State :=
  if 0x40000 ≤ a ∧ a < 0x80000 then
    let r := (a - 0x40000) / 4
    some (if bit v 31 then headDoorbell s r (v % 2 ^ 16) else tailDoorbell s r (v % 2 ^ 16))
  else if a = regJrnCmd then some (if bits v 31 30 = 1 then jrnDiscard s (v % 2 ^ 16) else s)
  else if a = regGlbCfgCmd then some (if bit v 0 then cfgDiscard s else s)
  else if a = regGlbMeasExt then some (if bit v 0 then measExt s else s)
  else if a = regBootCmd then
    some (if v % 4 = 1 then bootLoadArea s [] else if v % 4 = 2 then bootLoadImage s else s)
  else if a = regWpOaUnlock then some (oaWrite s v)
  else if 0x80000 ≤ a ∧ a < 0x100000 ∧ (a - 0x80000) % 0x20000 ≥ 0x10000 ∧ ((a - 0x80000) % 0x20000) % 0x2000 = 0x101C then
    some (phyCmd s (8 * ((a - 0x80000) / 0x20000) + ((a - 0x80000) % 0x20000 - 0x10000) / 0x2000) (v % 4))
  else evcWrite s a v coin

/-- A write by the register's access code. -/
def codeWrite (s : State) (r : RegRow) (a v coin : Nat) : State :=
  match r.acc with
  | .ro | .rc => s
  | .rw | .wo | .w1s => wr s a (v &&& r.mask)
  | .w1c => w1cWrite s a v coin r.mask
  | .rwl => if s.committed then cpErr s else wr s a (v &&& r.mask)

/-- What a write to an address does. -/
def writeReg (s : State) (a v coin : Nat) : State :=
  if 0x400000 ≤ a then ctxWrite s ((a - 0x400000) / 64) (a % 64 / 4) v
  else if 0x200000 ≤ a then cpErr s
  else match regRow? a with
    | none => s
    | some r =>
      match cmdWrite s a v coin with
      | some t => t
      | none => codeWrite s r a v coin

/-- REGISTER_WRITE (R11 to R13, R25, R102, R546). -/
def registerWrite (s : State) (a v : Nat) (be : BitVec 4) (coin : Nat) : State :=
  let a := a % 2 ^ 23 / 4 * 4
  cpPut s a be v coin (fun s => writeReg s a v coin)

/-- REGISTER_WRITE. -/
def execRegisterWrite (addr : Nat) (value : Word) (be : BitVec 4) (coincident : Word) (s : State) : Out :=
  ok (pump (registerWrite s addr value.toNat be coincident.toNat))

/-! ### Accesses that waited for their domain (R25) -/

/-- The access that waits completes once its domains are on. -/
def cpResume (s : State) : State :=
  match s.cpWait with
  | some x =>
    if (gatedDoms s (regDoms x.addr)).isEmpty then
      let s := { s with cpWait := none, cpResp := 0 }
      if x.write then pump (writeReg s x.addr x.value x.coin)
      else
        let (t, v) := readReg s x.addr x.coin
        { t with cpRdata := w32 v }
    else s
  | none => s

/-- DOMAIN_HANDSHAKE_ACK (R568): an access that waited for the domain completes (R25). -/
def execDomainHandshakeAck (d : Domain) (ret level : Bool) (s : State) : Out := ok (pump (cpResume (domAck s d.val ret level)))

end Sys2Proof.Machine
end

