-- ==== Sys2Proof/Machine/Fetch.lean ====
section
/-! DEFINITION. Fetching packets and their checks, and RING_CONFIGURE (chapter Command Rings, Packets and
Completions). -/

namespace Sys2Proof.Machine

/-! ### PACKET_FETCH (R40, R59 to R61, R68) -/

/-- A home scheduler fetches: it works, no reset is low, memory is not held, no warning stops it (R291), and the block is
in RUN or TRIM or enters DROWSE or FURL before its commit point (R530). -/
def fetchOpen (s : State) (q : Nat) : Bool :=
  outOfReset s && !s.memHold && (!s.jrn.pfActive || s.jrn.pfSleep) && qscRuns s q &&
    (decide (s.pwr.step = .none) || decide (s.pwr.step = .draining))

/-- A ring with a packet that may be fetched (R40, R49, R53). -/
def mayFetch (s : State) (q r : Nat) : Bool :=
  decide (homeOf s r = q) && ringEnabled s r && !(ringRt s r).draining && !(ringFaulted s r) &&
    decide (0 < pendingPkts s r) && decide (inflight s r < freeSlots s r)

/-- A ring's order among those with pending packets: its fetch deadline, its class, its number (R60). -/
def fetchKey (s : State) (r : Nat) : Nat :=
  let t := cget s r 0x1E 2
  (((ringRt s r).bases.headD 0 + (if t = 0 then 1000000 else 100 * t)) * 8 + (7 - cget s r 0x1B 1 % 8)) * 65536 + r

/-- The ring of this turn: ring 0 first (R60). -/
def fetchRing (s : State) (q : Nat) : Option Nat :=
  if mayFetch s q 0 then some 0
  else minBy (fetchKey s) ((s.ctx.map (fun p => p.1)).filter (mayFetch s q))

/-- Room for one more command in a quadrant (R61). -/
def quadRoom (s : State) (q : Nat) : Bool := decide ((s.cmds.filter (fun c => c.home = q)).length < 16384)

/-- A command's deadline (R59). -/
def deadlineOf (base ringUs pktUs : Nat) : Option Nat :=
  let t := if pktUs = 0 then ringUs else if ringUs = 0 then pktUs else min ringUs pktUs
  if t = 0 then none else some (base + 100 * t)

/-- One packet of a ring enters the block: the ring's head moves on, and the command stands with the values that the ring
holds now (R40, R46, R66). -/
def takePacket (s : State) (q r : Nat) : State × Cmd :=
  let h := cget s r 0x10 2
  let pkt := dramRead s (cget s r 0x00 8 / 4096 * 4096 + 64 * h) 64
  let rt := ringRt s r
  let (cid, s) := fresh s
  let c : Cmd := {
    cid := cid, ring := r, fetchNo := rt.fetchNo, home := q, pkt := pkt, base := rt.bases.headD 0,
    deadline := deadlineOf (rt.bases.headD 0) (cget s r 0x1E 2) (fieldAt pkt 0x0C 2),
    gen := qscGen s q, evt := cget s r 0x20 2 % 1024, coalN := cget s r 0x23 1, coalT := cget s r 0x24 4,
    latClass := cget s r 0x1B 1 % 8 }
  let s := cset (cset s r 0x10 2 ((h + 1) % cmdSize s r)) r 0x38 2 (inflight s r + 1)
  let s := modRing s r (fun x => { x with fetchNo := x.fetchNo + 1, bases := x.bases.drop 1 })
  let s : State := { s with cmds := s.cmds ++ [c] }
  (trace s q 0 r [opc c + 256 * cmdId c, pktF c 8 4], c)

/-- Check 2 (R56). -/
def permitted (s : State) (c : Cmd) : Bool :=
  bit (cget s c.ring 0x28 16) (opc c) && (decide (c.ring = 0) || !(adminOpcodes.contains (opc c)))

/-- Does check 3 walk the command's chain (R423)? -/
def walks (c : Cmd) : Bool := flagChain c && [0x01, 0x02, 0x42].contains (opc c)

/-- Checks 5 and 6 of a command. -/
def checkRest (s : State) (c : Cmd) : State :=
  match zoneCheck s c with
    | some r => finish s c.cid r
    | none => if zoneOpcode (opc c) then modCmd s c.cid (fun c => { c with zone := some (cZid c) }) else s

/-- Does the command fetch the entries of its zone before checks 5 and 6 (R600)? -/
def fetchesZone (s : State) (c : Cmd) : Bool := zoneOpcode (opc c) && (oztIdx? s (cZid c)).isNone

/-- What the fetch of R600 reads: the zone-table entry, the extension entry (every zone opcode needs the location of member 0,
R79), the zone's layout. -/
def zoneSpans (s : State) (zid : Nat) : List (Nat × Nat × Nat × List Byte) :=
  let lay := match layoutOf? s zid with
    | some lt => (List.range lt.pages.length).map (fun i =>
        (0, ltAddr s lt.pages (4096 * i), min 4096 (lt.image.length - 4096 * i), []))
    | none => []
  [(0, ztAddr s zid, 32, []), (0, zxAddr s zid, 256, [])] ++ lay

/-- A command waits for the entries of its zone; one that finds their fetch on its way shares it (R417, R600). -/
def zoneFetch (s : State) (c : Cmd) : State :=
  let zid := cZid c
  let s := modCmd s c.cid (fun c => { c with stage := .fetching })
  if s.xfers.any (fun x => decide (x.purpose = .zoneFetch zid)) then s
  else
    startXfer s { port := 2 * c.home, write := false, clsA := decide (opc c = 3) || decide (opc c = 9), grp := 1,
                  deadline := c.deadline, real := c.deadline.isSome, purpose := .zoneFetch zid } (zoneSpans s zid)

/-- The fetch of a zone's entries has ended: checks 5 and 6 of the commands that waited for it, or the port's failure. -/
def zoneFetched (s : State) (port zid : Nat) (e : XferEnd) : State :=
  (s.cmds.filter (fun c => decide (c.stage = .fetching) && decide (cZid c = zid))).foldl (fun s c =>
    let s := modCmd s c.cid (fun c => { c with stage := .ready })
    match endResult port e with
    | some r => finish s c.cid r
    | none => checkRest s { c with stage := .ready }) s

/-- The image's EVT.SOURCE may stand in a ring (R451). -/
def evtOk (img : List Byte) : Bool :=
  let e := fieldAt img 0x20 2 % 1024
  decide (e = 0) || (decide (16 ≤ e) && decide (e ≤ 767))

/-- The target ring of a RING_CONFIGURE. -/
def rcRing (c : Cmd) : Nat := cP0 c % 65536

/-- The field of a RING_CONFIGURE that is illegal: the image under action 0 or 3, the context's SIZE under action 1 (R51, R65,
R451). -/
def rcField (s : State) (c : Cmd) : Option Nat :=
  let img := dramRead s (cPtr c) 64
  match bits (cP0 c) 17 16 with
  | 0 => if badSize (fieldAt img 0x18 1) || !(evtOk img) then some 0x18 else none
  | 1 => if badSize (cget s (rcRing c) 0x18 1) then some 0x28 else none
  | 3 => if evtOk img then none else some 0x18
  | _ => none

/-- What check 3 finds illegal in a command's image, or by the tables that its fields name: the byte offset. The refusal of a
stage item is noted in GLB_CFG_ERR (R505). -/
def lateField (s : State) (c : Cmd) : Option (State × Nat) :=
  let bad (b : Bool) (o : Nat) : Option (State × Nat) := if b then some (s, o) else none
  match opc c with
  | 0x10 => bad (readLayout s (cPtr c)).isNone 0x18
  | 0x11 => bad (reshapeBad s c) 0x18
  | 0x18 => bad (failNames s c) 0x28
  | 0x1B => bad (spareBad s c) 0x18
  | 0x28 => bad (!(budOk (cP0 c % 16) (dramRead s (cPtr c) (budLen (cP0 c % 16))))) 0x18
  | 0x29 => (rcField s c).map (fun o => (s, o))
  | 0x30 =>
    (match putItems (readItems s (cPtr c) (cCount c) 0) 0 (copySlots s) with
    | .error e => some (cfgErr s e, 0x18)
    | .ok _ => none)
  | 0x31 => bad (s.cfg.staged && decide (cP0 c % 2 ^ 32 ≠ s.cfg.nextGen)) 0x28
  | 0x40 => bad (!(rsOk (dramRead s (cPtr c) (8 * cCount c)) (cCount c))) 0x18
  | _ => none

/-- Checks 4 to 6 (R68). What check 3 asks of an image is judged here where check 4 fails, else by the command's step. -/
def checkZone (s : State) (c : Cmd) : State :=
  if decide (cGen c ≠ 0) && decide (cGen c ≠ qscGen s c.home) then
    match lateField s c with
    | some (s, o) => finish s c.cid (badField o)
    | none => finish s c.cid { status := stGeneration, ra := cGen c }
  else if fetchesZone s c then zoneFetch s c
  else checkRest s c

/-- The ordered checks of a fetched packet (R68); `walk` is how its descriptor fetches ended. -/
def packetCheck (s : State) (c : Cmd) (walk : PortEnd) : State :=
  if !(opcodes.contains (opc c)) then finish s c.cid (res stBadOpcode)
  else if !(permitted s c) then finish s c.cid (res stNotPermitted)
  else match fieldCheck s c with
    | some o => finish s c.cid (badField o)
    | none =>
      if walks c then
        match portEnd s (2 * c.home) (walkSpans s 4096 0 (cPtr c) 0 (inBytes c)) walk with
        | (s, some r) => finish s c.cid r
        | (s, none) =>
          match walkChain s 4096 0 (cPtr c) 0 (inBytes c) with
          | .ok l => checkZone (modCmd s c.cid (fun c => { c with chain := l })) c
          | .error e => finish s c.cid (loopResult (2 * c.home) e)
      else checkZone s c

/-- Up to `n` packets of a ring in one turn (R60). -/
def fetchTurn (q r : Nat) : Nat → List PortEnd → State → State
  | 0, _, s => s
  | n + 1, ends, s =>
    if mayFetch s q r && quadRoom s q then
      let (s, c) := takePacket s q r
      fetchTurn q r n ends.tail (packetCheck s c (ends.headD .ok))
    else s

/-- A detection in a ring's context (R513): the ring faults, and its completions are discarded. -/
def ctxDetected (s : State) (r : Nat) : State :=
  modRing (ringFault (unrecoveredAny s 3 0 2) r 4) r (fun x => { x with muted := true })

/-- PACKET_FETCH: one turn of a home scheduler. A fetch that the memory port gives up faults the ring (R53, R599). -/
def packetFetch (s : State) (q : Nat) (mp : PortEnd) (ends : List PortEnd) (ctxDetect : Bool) : State :=
  if fetchOpen s q && quadRoom s q then
    match fetchRing s q with
    | none => s
    | some r =>
      if ctxDetect then pump (ctxDetected s r)
      else match portEnd s (2 * q) [(0, cget s r 0x00 8 / 4096 * 4096 + 64 * cget s r 0x10 2, 64)] mp with
        | (s, some _) => pump (ringFault s r 2)
        | (s, none) => pump (fetchTurn q r 8 ends s)
  else s

/-- PACKET_FETCH. -/
def execPacketFetch (q : Quad) (mp : PortEnd) (ends : List PortEnd) (ctxDetect : Bool) (s : State) : Out :=
  ok (packetFetch s q.val mp ends ctxDetect)

/-! ### RING_CONFIGURE (R51, R65 to R67, R451) -/

/-- The bits of each context word that an action takes from the image: action 0, and the fields of action 3. -/
def rcMask (action w : Nat) : Nat :=
  if action = 0 then
    [0xFFFFF000, 0xFFFFFFFF, 0xFFFFF000, 0xFFFFFFFF, 0, 0, 0x070000FF, 0xFFFF0FFF, 0xFF0303FF,
     0xFFFFFFFF, 0xFFFFFFFF, 0xFFFFFFFF, 0xFFFFFFFF, 0xFFFFFFFF, 0, 0].getD w 0
  else
    [0, 0, 0, 0, 0, 0, 0x07000000, 0xFFFF0000, 0xFF0003FF,
     0xFFFFFFFF, 0xFFFFFFFF, 0xFFFFFFFF, 0xFFFFFFFF, 0xFFFFFFFF, 0, 0].getD w 0

/-- The image's bits taken into a context. -/
def rcPut (s : State) (r action : Nat) (img : List Byte) : State :=
  (List.range 16).foldl (fun s w =>
    let m := rcMask action w
    cset s r (4 * w) 4 ((fieldAt img (4 * w) 4 &&& m) ||| (cget s r (4 * w) 4 &&& (0xFFFFFFFF ^^^ m)))) s

/-- A RING_CONFIGURE completes with the target's INFLIGHT (R64). -/
def rcDone (s : State) (c : Cmd) : State :=
  finish s c.cid { ra := rcRing c, rb := inflight s (rcRing c) }

/-- A RING_CONFIGURE whose fields and image are legal takes its effect. -/
def rcGo (f : State → Cmd → State) (s : State) (c : Cmd) : State :=
  match rcField s c with
  | some o => finish s c.cid (badField o)
  | none => f s c

/-- A RING_CONFIGURE of one action that may start. -/
def rcStart (s : State) (cid action : Nat) (f : State → Cmd → State) : State :=
  match startable s cid 0x29 with
  | some c => if bits (cP0 c) 17 16 = action then pump (start s cid 0x29 f) else s
  | none => s

/-- Action 0 (R65). -/
def rcWrite (s : State) (c : Cmd) : State :=
  if ringEnabled s (rcRing c) then finish s c.cid (res stConflict)
  else rcDone (rcPut s (rcRing c) 0 (dramRead s (cPtr c) 64)) c

/-- Action 1 (R50, R51, R65). -/
def rcEnable (s : State) (c : Cmd) : State :=
  if ringEnabled s (rcRing c) then finish s c.cid (res stConflict)
  else rcDone (ringEnable s (rcRing c)) c

/-- Action 2 (R65): it completes once the ring has nothing in flight. -/
def rcDisable (s : State) (c : Cmd) : State :=
  let s := modRing (setCtrl s (rcRing c) 0 0) (rcRing c) (fun x => { x with draining := false })
  if inflight s (rcRing c) = 0 then rcDone s c else modCmd s c.cid (fun c => { c with stage := .waiting })

/-- Action 3 (R65, R66). -/
def rcUpdate (s : State) (c : Cmd) : State :=
  rcDone (rcPut s (rcRing c) 3 (dramRead s (cPtr c) 64)) c

/-- RING_CONFIGURE, action 0. -/
def execRingConfigureWrite (cid : Nat) (mp : PortEnd) (s : State) : Out :=
  ok (rcStart s cid 0 (fun s c => imageEnd s c 64 mp (fun s => rcGo rcWrite s c)))

/-- RING_CONFIGURE, action 1. -/
def execRingConfigureEnable (cid : Nat) (s : State) : Out := ok (rcStart s cid 1 (rcGo rcEnable))

/-- RING_CONFIGURE, action 2. -/
def execRingConfigureDisable (cid : Nat) (s : State) : Out := ok (rcStart s cid 2 rcDisable)

/-- RING_CONFIGURE, action 3. -/
def execRingConfigureUpdate (cid : Nat) (mp : PortEnd) (s : State) : Out :=
  ok (rcStart s cid 3 (fun s c => imageEnd s c 64 mp (fun s => rcGo rcUpdate s c)))

end Sys2Proof.Machine
end

