-- ==== Sys2Proof/Machine/Scrub.lean ====
section
/-! DEFINITION. SCRUB_INTERNAL (chapter Measured Ageing and Maintenance Work; chapter Internal Memory Checks and the Fault
Record): every line of the selected memories is read, and a line that fails its check is handled as for its owner. -/

namespace Sys2Proof.Machine

/-- The domain of an instance of a memory (R525): a gated one is skipped (R412). -/
def memDomain (code inst : Nat) : Option Nat :=
  match code with
  | 1 => some inst
  | 2 => some (88 + inst)
  | 3 => some 93
  | 5 => some (64 + inst / 10)
  | _ => unitDomain (inst / 2)

/-- Instances of a memory (R508). -/
def memCount (code : Nat) : Nat :=
  match code with
  | 1 => 32
  | 2 => 4
  | 3 => 1
  | 5 => 80
  | _ => 100

/-- An instance that the scrub can read. -/
def memOpen (s : State) (code inst : Nat) : Bool :=
  decide (inst < memCount code) && ((memDomain code inst).map (domOn s)).getD true

/-- The memories that a select of the summary names: the local data memories go with the control stores (R509). -/
def selCodes (sel : Nat) : List Nat := if sel = 4 then [4, 6] else [sel]

/-- Lines checked of a memory (R508, R412). -/
def scrubLines (s : State) (sel : Nat) : Nat :=
  ((selCodes sel).map (fun code =>
    (((List.range (memCount code)).filter (memOpen s code)).map (memLines code)).sum)).sum

/-- Lines retired so far of a memory. -/
def linesRetired (s : State) (sel : Nat) : Nat :=
  ((s.mems.filter (fun p => (selCodes sel).contains (p.1 / 256))).map (fun p => p.2.mapped.length)).sum

/-- A zone whose entry of the open zone table cannot be computed again, because a journal page that it needs is unreadable
(R512): its commands in flight end INTERNAL_CHECK at site 0x43, and the entry is written back OFFLINE with the other fields of
the last entry written back (R101). Each names the zone's quadrant scheduler and the line (R515). -/
def oztLost (s : State) (zid line : Nat) : State :=
  let mine := s.cmds.filter (fun c => decide (c.zone = some zid))
  let s := dropZoneStagings ((s.rows.filter (fun r => r.zid = zid)).foldl dropRow s) zid
  let s := dropUses s (fun u => match u with | .blk cid _ => mine.any (fun c => decide (c.cid = cid)) | _ => false)
  let s := oztFree (setZone s { unpackZone (dramRead s (ztAddr s zid) 32) with zid := zid, state := 7 }) zid
  let s := jrnZone s zid
  mine.foldl (fun s c => finish s c.cid { status := stInternal, ra := 40 + zoneQuad s zid, rb := line, detail := 0x43 }) s

/-- The state of an engine that the millpond kept for it: an engine that sleeps starts at its recovery routine, and its item ends as R483
gives (R511). -/
def engineLost (s : State) (e : Nat) : State :=
  if decide (rdf s regPwrState 1 0 = 2) && decide ((eng s e).mode ≠ 3) then
    recover (itemOutcome s e { status := stMachineCheck, ra := e, detail := (eng s e).pc }) e
  else s

/-- A line of the millpond fails its check (R511 to R514). What the line holds is open, so a free value says it: 0 what can
be fetched again, 1 an entry of the open zone table, 2 a ring context, 3 the measurement log, 4 trained values, 5 the state
of a sleeping engine, 6 an entry of the open zone table for which a journal page is unreadable. -/
def millDetected (s : State) (line : Nat) : State × Nat :=
  let (v, s) := freeVal s
  match v % 7 with
  | 0 => (recovered s 3 0 0 line, 0)
  | 1 => (recovered s 3 0 1 line, 1)
  | 2 =>
    let r := line % 65536
    let s := unrecovered s 3 0 2 line
    (if ringEnabled s r then modRing (ringFault s r 4) r (fun x => { x with muted := true }) else s, 2)
  | 3 => ({ unrecovered s 3 0 2 line with msrBad := some line }, 2)
  | 4 => (modPhy (unrecovered s 3 0 2 line) (line % 32) (fun p => { p with kept := [] }), 2)
  | 5 => (engineLost (unrecovered s 3 0 2 line) (v / 7 % 50), 2)
  | _ => match s.ozt[v / 7 % s.ozt.length]? with
    | some p => (oztLost (unrecovered s 3 0 2 line) p.2.zid line, 2)
    | none => (recovered s 3 0 1 line, 1)

/-- A line of a control store fails its check (R481). -/
def storeDetected (s : State) (inst line : Nat) : State × Nat :=
  let e := inst / 2
  let mine := decide (inst % 2 = (eng s e).bank)
  let sl := if mine then tget s.cfg.cur e {} else otherSlot s e
  if imageMatches s sl line then (cfgFlag (recovered s 4 inst 0 line) 2, 0)
  else
    let s := cfgFlag (unrecovered s 4 inst 2 line) 4
    (if mine && decide ((eng s e).mode ≠ 3) then haltEngine s e else s, 2)

/-- A line of an engine's local data memory fails its check: the item in progress ends where the bank is the current one
(R483, R511). -/
def dataDetected (s : State) (inst line : Nat) : State × Nat :=
  let e := inst / 2
  if decide (inst % 2 = (eng s e).bank) && decide ((eng s e).mode ≠ 3) then (localDetect s e line, 2)
  else (unrecovered s 6 inst 2 line, 2)

/-- A line that fails its check, and how it was settled: 0 by refetch, 1 by recomputation, 2 by neither. -/
def lineDetected (s : State) (code inst line : Nat) : State × Nat :=
  match code with
  | 2 => (recovered s 2 inst 1 line, 1)
  | 3 => millDetected s line
  | 4 => storeDetected s inst line
  | 6 => dataDetected s inst line
  | _ => (recovered s code inst 0 line, 0)

/-- The failing lines of one memory of the summary, with how many were settled in each way. -/
def scrubMemory (s : State) (sel : Nat) (ds : List (Nat × Nat × Nat)) : State × List Nat :=
  let here := ds.filter (fun d => (selCodes sel).contains d.1 && memOpen s d.1 d.2.1 && decide (d.2.2 < memLines d.1 d.2.1))
  here.foldl (fun (p : State × List Nat) d =>
    let (s, k) := lineDetected p.1 d.1 d.2.1 d.2.2
    (s, (List.range 3).map (fun i => p.2.getD i 0 + b2n (decide (i = k))))) (s, [0, 0, 0])

/-- One entry of the summary (R414). -/
def scrubEntry (sel retired lines : Nat) (n : List Nat) : List Byte :=
  leBytes 1 sel ++ zeros 1 ++ leBytes 2 (min 65535 retired) ++ leBytes 4 lines ++ leBytes 2 (min 65535 n.sum) ++
    leBytes 2 (min 65535 (n.getD 0 0)) ++ leBytes 2 (min 65535 (n.getD 1 0)) ++ leBytes 2 (min 65535 (n.getD 2 0))

/-- The memories of a select, one after the other: the state, the entries and the lines checked. -/
def scrubAll (ds : List (Nat × Nat × Nat)) : List Nat → State → State × List Byte × Nat
  | [], s => (s, [], 0)
  | sel :: r, s =>
    let lines := scrubLines s sel
    let before := linesRetired s sel
    let (s, n) := scrubMemory s sel ds
    let entry := scrubEntry sel (linesRetired s sel - before) lines n
    let (s, es, total) := scrubAll ds r s
    (s, entry ++ es, lines + total)

/-- SCRUB_INTERNAL (R412 to R414). -/
def scrubInternal (s : State) (cid : Nat) (ds : List (Nat × Nat × Nat)) : State :=
  start s cid 0x21 (fun s c =>
    let sel := cP0 c % 256
    let sels := if sel = 0 then [1, 2, 3, 4, 5] else [sel]
    let (s, es, total) := scrubAll ds sels s
    let bytes := leBytes 1 sel ++ leBytes 1 sels.length ++ zeros 14 ++ es
    finish (writeOut s c (cPtr c) bytes 3) cid { ra := total, rb := bytes.length })

/-- SCRUB_INTERNAL. -/
def execScrubInternal (cid : Nat) (detections : List (Nat × Nat × Nat)) (s : State) : Out :=
  ok (pump (scrubInternal s cid detections))

end Sys2Proof.Machine
end

