-- ==== Sys2Proof/Machine/Transfers.lean ====
section
/-! DEFINITION. What the SoC answers at the memory ports and the pool interfaces, and what then becomes of the transfers
(chapters DMA, Memory Ports and Trace FIFOs; The Block Boundary). -/

namespace Sys2Proof.Machine

/-! ### Transfers that end -/

/-- Is a transfer a completion of a ring? -/
def completionOf (r : Nat) (x : Xfer) : Bool :=
  match x.purpose with
  | .completion q _ => decide (q = r)
  | _ => false

/-- A completion write failed (R53, R54): the ring faults and is silent, what was on its way to it is discarded. -/
def completionBad (s : State) (r : Nat) : State :=
  let s := cancelXfers (modRing (ringFault s r 3) r (fun x => { x with muted := true })) (completionOf r)
  (s.cmds.filter (fun c => decide (c.ring = r) && c.posted)).foldl dropCmd s

/-- The write of a completion has ended (R38, R54, R80). -/
def completionEnd (s : State) (r cid : Nat) (e : XferEnd) : State :=
  match cmd? s cid with
  | none => s
  | some c => if e = .ok then completionEvent (dropCmd s c) c else completionBad s r

/-- A command whose data could not be written ends with the port's failure, unless it has failed already (R70, R73). -/
def outputBad (s : State) (cid : Nat) (r : Result) : State :=
  modCmd s cid (fun c =>
    if decide (c.stage = .ending) && !(isSuccess c.res.status) then c else { c with stage := .ending, res := r })

/-- A summary, record or report of a command has been written, or could not be. -/
def outputEnd (s : State) (port cid : Nat) (e : XferEnd) : State :=
  match endResult port e with
  | some r => tryComplete (outputBad s cid r) cid
  | none => tryComplete s cid

/-- One codeword of a RAW_READ has been written, or could not be (R183, R426). -/
def rawOutEnd (s : State) (port cid idx : Nat) (e : XferEnd) : State :=
  match endResult port e with
  | some r => tryComplete (outputBad s cid r) cid
  | none =>
    let s := modCmd s cid (fun c => { c with acc := c.acc ++ [idx] })
    match cmd? s cid with
    | some c =>
      let fails := decide (c.stage = .ending) && !(isSuccess c.res.status)
      let s := if fails || !(c.badBlks.isEmpty) then s
        else noteProgress s cid (cCount c * rawBytes c) (fun i => c.acc.contains i) (cCount c) (rawBytes c)
      tryComplete s cid
    | none => s

/-- A block of a buffer's owner stands in it, or must be read again. -/
def bufStored (s : State) (who : BufFor) (b : Nat) (good : Bool) : State :=
  match who with
  | .reserve => s
  | .row rid => foldStored s rid b good
  | .staging sid => restageStored s sid b good
  | .copy fg => copyStored s fg b good

/-- What the end of a transfer brings. -/
def transferEnd (s : State) (e : Option Ended) : State :=
  match e with
  | none => s
  | some x =>
    match x.xfer.purpose with
    | .completion r cid => completionEnd s r cid x.stat
    | .cmdOut cid => outputEnd s x.xfer.port cid x.stat
    | .progress cid => outputEnd s x.xfer.port cid x.stat
    | .zoneFetch zid => zoneFetched s x.xfer.port zid x.stat
    | .rawOut cid idx => rawOutEnd s x.xfer.port cid idx x.stat
    | .readBlock cid off _ => readBlockEnd s x.xfer.port cid off x.stat
    | .rowIn rid b pi => rowInEnd s x.xfer.port rid b pi x.stat ((x.xfer.data.mergeSort (fun a b => decide (a.1 ≤ b.1))).flatMap (fun p => p.2))
    | .image _ => s
    | .bufOut who b => bufStored s who b (decide (x.stat = .ok))
    | .copyIn fg b => copyInEnd s fg b (decide (x.stat = .ok))
    | .ageFetch bg => ageFetched s bg (decide (x.stat = .ok))

/-! ### MPn rows (R418, R429, R430, R549 to R553) -/

/-- MP_BURST_ISSUE. -/
def execMpBurstIssue (n : Port) (s : State) : Out := ok (burstIssue s n.val)

/-- MP_REQUEST_ACCEPT. -/
def execMpRequestAccept (n : Port) (s : State) : Out := ok (requestAccept s n.val)

/-- MP_WRITE_BEAT_ACCEPT. -/
def execMpWriteBeatAccept (n : Port) (s : State) : Out := ok (writeBeat s n.val)

/-- A response beat and what it ends. -/
def mpResponse (s : State) (n tag stat : Nat) (data : List Byte) (crc : Nat) : State :=
  let (s, e) := responseBeat s n tag stat data crc
  pump (transferEnd s e)

/-- MP_RESPONSE_BEAT. -/
def execMpResponseBeat (n : Port) (tag : Fin 64) (stat : BitVec 2) (data : List Byte) (crc : BitVec 16) (s : State) : Out :=
  ok (mpResponse s n.val tag.val stat.toNat data crc.toNat)

/-- A burst times out, and its transfer with it. -/
def mpTimeout (s : State) (n tag : Nat) : State :=
  let (s, e) := burstTimeout s n tag
  pump (transferEnd s e)

/-- MP_BURST_TIMEOUT. -/
def execMpBurstTimeout (n : Port) (tag : Fin 64) (s : State) : Out := ok (mpTimeout s n.val tag.val)

/-! ### Buffer pool (R433 to R437, R558 to R560) -/

/-- The buffers that someone needs and holds; none where it wants no more. -/
def bufNeed (s : State) (who : BufFor) : Option (Nat × Nat) :=
  match who with
  | .reserve => none
  | .row rid => (row? s rid).bind (fun r => if r.phase = .folding then some (bufCount s r.acked, r.bufs.length) else none)
  | .staging sid => (stg? s sid).map (fun g => (bufCount s g.old.length, g.bufs.length))
  | .copy fg => (group s fg).cp.bind (fun c => if c.began then none else some (bufCount s c.blks, c.bufs.length))

/-- Does it still want a buffer? -/
def wantsBuffer (s : State) (who : BufFor) : Bool := (bufNeed s who).any (fun p => decide (p.2 < p.1))

/-- It gets a buffer; with the last its reads begin. -/
def bufferFor (s : State) (who : BufFor) (a : Nat) : State :=
  let last := (bufNeed s who).any (fun p => decide (p.2 + 1 = p.1))
  match who with
  | .reserve => s
  | .row rid =>
    let s := modRow s rid (fun r => { r with bufs := r.bufs ++ [a] })
    if last then foldReads s rid else s
  | .staging sid =>
    let s := modStg s sid (fun g => { g with bufs := g.bufs ++ [a] })
    if last then restageReads s sid else s
  | .copy fg =>
    let s := modCp s fg (fun c => { c with bufs := c.bufs ++ [a] })
    if last then copyReads s fg else s

/-- A buffer is granted; the sequence of waits starts afresh (R436). One that no one wants any more goes back. -/
def poolGranted (s : State) (q a : Nat) (who : BufFor) : State :=
  let s := modPool s q (fun p => { p with backoff := 0 })
  match who with
  | .reserve => modPool s q (fun p => { p with reserve := p.reserve ++ [a], filled := p.filled + 1 })
  | who =>
    if wantsBuffer s who then bufferFor (modPool s q (fun p => { p with pooled := p.pooled ++ [a] })) who a
    else poolAsk s q (.free a)

/-- A flow that may draw on the reserve, whatever else waits: folds and reshape copies (R434, R435). -/
def drawsReserve : BufFor → Bool
  | .row _ | .copy _ => true
  | _ => false

/-- A take is refused: a flow of R435 draws on the reserve, any other request is made again (R434 to R436). -/
def poolRefused (s : State) (q : Nat) (who : BufFor) : State :=
  match who with
  | .reserve => poolWait (sticky s regDmaStatus 2) q (.take .reserve)
  | who =>
    if wantsBuffer s who then
      (match (pool s q).reserve with
      | a :: rest =>
        if drawsReserve who then bufferFor (modPool s q (fun p => { p with reserve := rest, held := p.held ++ [a] })) who a
        else poolWait s q (.take who)
      | [] => poolWait s q (.take who))
    else s

/-- A free is rejected (R437). -/
def freeRejected (s : State) (q a : Nat) : State :=
  let s := wr (wr (wr (sticky s regDmaStatus 0) regDmaFreeLog0 a) regDmaFreeLog1 (a / 2 ^ 32)) regDmaFreeLog2 (2 ^ 31 + q * 64)
  raise s 1000

/-- The pool manager answers the request that a quadrant has raised. -/
def poolAnswer (s : State) (q : Nat) (refused : Bool) (a : Nat) : State :=
  match (pool s q).raised with
  | none => s
  | some r =>
    let s := modPool s q (fun p => { p with raised := none })
    let s := match r with
      | .take who => if refused then poolRefused s q who else poolGranted s q a who
      | .free b => if refused then freeRejected s q b else s
      | .stream .. | .copyStream .. => s
    pump (poolRaise s q)

/-- BUFFER_POOL_RESPONSE. -/
def execBufferPoolResponse (q : Quad) (result : Bool) (gaddr : Word64) (s : State) : Out :=
  ok (poolAnswer s q.val result gaddr.toNat)

/-- A fold's or a copy's stream of a block is made again (R603). -/
def streamAgain (s : State) (r : PoolReq) : State :=
  match r with
  | .stream rid b => rowInAgain s rid b
  | .copyStream fg b => copyStream s fg b
  | _ => s

/-- Does a request go to the pool manager? -/
def isRequest (r : PoolReq) : Bool := match r with | .take _ | .free _ => true | _ => false

/-- The wait of R436 is over: the refused requests go again, before newer ones, and the streams that waited with them. -/
def poolRetry (s : State) (q : Nat) : State :=
  match (pool s q).retryAt with
  | none => s
  | some t =>
    if t ≤ s.tick then
      let l := (pool s q).refused
      let s := poolRaise (modPool s q (fun p =>
        { p with retryAt := none, queue := l.filter isRequest ++ p.queue, refused := [] })) q
      l.foldl streamAgain s
    else s

/-- POOL_RETRY. -/
def execPoolRetry (q : Quad) (s : State) : Out := ok (poolRetry s q.val)

end Sys2Proof.Machine
end

