-- ==== Sys2Proof/Machine/ZoneRows.lean ====
section
/-! DEFINITION. The zone opcodes and the rows of gathering, folding and staging (chapter Zones, Layouts and the Hopper). -/

namespace Sys2Proof.Machine

/-- ZONE_APPEND (R103, R104, R112). -/
def execZoneAppend (cid : Nat) (s : State) : Out := ok (pump (zoneAppend s cid 1))

/-- ZONE_WRITE (R82, R103). -/
def execZoneWrite (cid : Nat) (s : State) : Out := ok (pump (zoneAppend s cid 2))

/-- ZONE_READ (R262). -/
def execZoneRead (cid : Nat) (s : State) : Out := ok (pump (zoneRead s cid))

/-- ZONE_RESET (R83, R108, R109). -/
def execZoneReset (cid : Nat) (s : State) : Out := ok (pump (zoneReset s cid))

/-- ZONE_OPEN (R101). -/
def execZoneOpen (cid : Nat) (s : State) : Out := ok (pump (zoneOpen s cid))

/-- ZONE_CLOSE (R84). -/
def execZoneClose (cid : Nat) (s : State) : Out := ok (pump (zoneQuiesce s cid 6))

/-- ZONE_FINISH (R84). -/
def execZoneFinish (cid : Nat) (s : State) : Out := ok (pump (zoneQuiesce s cid 7))

/-- ZONE_FLUSH (R124). -/
def execZoneFlush (cid : Nat) (s : State) : Out := ok (pump (zoneQuiesce s cid 8))

/-- ZONE_QUERY (R64). -/
def execZoneQuery (cid : Nat) (s : State) : Out := ok (pump (zoneQuery s cid))

/-- STAGE_LEAD_EXPIRY (R116). -/
def execStageLeadExpiry (zid : Zid) (s : State) : Out := ok (pump (stageLead s zid.val))

/-- FOLD_START (R114). -/
def execFoldStart (zid : Zid) (s : State) : Out := ok (pump (foldStart s zid.val))

/-- STAGING_START (R119). -/
def execStagingStart (zid : Zid) (s : State) : Out := ok (pump (stagingStart s zid.val))

/-- STAGING_RECLAIM (R123). -/
def execStagingReclaim (fg : BitVec 16) (s : State) : Out := ok (pump (stagingReclaim s fg.toNat))

end Sys2Proof.Machine
end

