-- ==== Sys2Proof/Machine/GroupRows.lean ====
section
/-! DEFINITION. The opcodes and rows of layouts, failure groups and maintenance (chapters Zones, Layouts and the Hopper;
Member Failure, Rebuild and Reshape; Measured Ageing and Maintenance Work). -/

namespace Sys2Proof.Machine

/-- LAYOUT_DEFINE (R93). -/
def execLayoutDefine (cid : Nat) (mp : PortEnd) (s : State) : Out := ok (pump (layoutDefine s cid mp))

/-- RESHAPE_BEGIN (R338). -/
def execReshapeBegin (cid : Nat) (mp : PortEnd) (s : State) : Out := ok (pump (reshapeBegin s cid mp))

/-- RESHAPE_ABORT (R343). -/
def execReshapeAbort (cid : Nat) (s : State) : Out := ok (pump (reshapeAbort s cid))

/-- RESHAPE_ZONE_CROSS (R340, R341). -/
def execReshapeZoneCross (fg : BitVec 16) (s : State) : Out := ok (pump (reshapeCross s fg.toNat))

/-- MEMBER_FAIL (R307). -/
def execMemberFail (cid : Nat) (s : State) : Out := ok (pump (memberFail s cid))

/-- REBUILD_START (R322). -/
def execRebuildStart (cid : Nat) (s : State) : Out := ok (pump (rebuildStart s cid))

/-- REBUILD_PAUSE with PARAM1 1 (R332). -/
def execRebuildPause (cid : Nat) (s : State) : Out := ok (pump (rebuildPause s cid true))

/-- REBUILD_PAUSE with PARAM1 0 (R332). -/
def execRebuildResume (cid : Nat) (s : State) : Out := ok (pump (rebuildPause s cid false))

/-- REBUILD_UNIT_END (R327, R328, R331). -/
def execRebuildUnitEnd (fg : BitVec 16) (zid : Zid) (s : State) : Out := ok (pump (unitEnd s fg.toNat zid.val))

/-- SPARE_ASSIGN (R316). -/
def execSpareAssign (cid : Nat) (mp : PortEnd) (s : State) : Out := ok (pump (spareAssign s cid mp))

/-- SCRUB_RANGE (R405). -/
def execScrubRange (cid : Nat) (s : State) : Out := ok (pump (scrubRange s cid))

/-- SCRUB_RANGE_DONE (R407). The block has the scrub's results itself. -/
def execScrubRangeDone (cid : Nat) (_w _h _f _m _u _l : Unit) (s : State) : Out := ok (pump (scrubDone s cid))

/-- CALIBRATE (R401). -/
def execCalibrate (cid : Nat) (s : State) : Out := ok (pump (calibrate s cid))

/-- CALIBRATION_SWEEP_DONE (R402). The block has the sweep's results itself. -/
def execCalibrationSweepDone (cid : Nat) (_w _b _l : Unit) (s : State) : Out := ok (pump (sweepDone s cid))

/-- LEASE_WAIT_EXPIRY (R401, R405). -/
def execLeaseWaitExpiry (cid : Nat) (s : State) : Out := ok (pump (leaseExpiry s cid))

/-- A maintenance engine works: it has been released (R584) and is not halted (R484), with no block fault (R522). -/
def mneRuns (s : State) (q : Nat) : Bool :=
  s.boot.released && !s.blockFault && decide ((eng s (44 + q)).mode ≠ 3)

/-- Work for a gated domain raises it, and waits (R528). -/
def needsDom (s : State) (d : Nat) (f : State → State) : State := if domOn s d then f (domUse s d) else domUse s d

/-- AGEING_WRITE_BACK (R385): a second has passed since the change, or the block writes the record earlier. -/
def execAgeingWriteBack (bg : Nat) (s : State) : Out := ok (needsDom s (84 + quadOf (bg / 512)) (fun s => arFlush s bg))

/-- PATROL_VISIT (R409, R410). -/
def execPatrolVisit (q : Quad) (s : State) : Out := ok (if mneRuns s q.val then needsDom s (84 + q.val) (fun s => pump (patrolVisit s q.val)) else s)

end Sys2Proof.Machine
end

