-- ==== Sys2Proof/Machine/FlashRows.lean ====
section
/-! DEFINITION. The raw opcodes, WP_SET, and the rows of channels, LUNs, decoders and reconstruction (chapters Channel
Sequencers and NAND Operations; Codewords, Decoding and the Read Path). -/

namespace Sys2Proof.Machine

/-- RAW_SEQUENCE (R184). -/
def execRawSequence (cid : Nat) (mp : PortEnd) (s : State) : Out := ok (pump (rawSequence s cid mp))

/-- RAW_READ (R183). -/
def execRawRead (cid : Nat) (s : State) : Out := ok (pump (rawRead s cid))

/-- RAW_PROGRAM (R183). -/
def execRawProgram (cid : Nat) (s : State) : Out := ok (pump (rawProgram s cid))

/-- RAW_ERASE (R189). -/
def execRawErase (cid : Nat) (s : State) : Out := ok (pump (rawErase s cid))

/-- RAW_WAIT_END (R187). -/
def execRawWaitEnd (glun : Glun) (status : Byte) (timedOut : Bool) (s : State) : Out :=
  ok (pump (rawWaitEnd s glun.val status.toNat timedOut))

/-- WP_SET (R173). -/
def execWpSet (cid : Nat) (mp : PortEnd) (s : State) : Out := ok (pump (wpSet s cid mp))

/-- BUS_PHASE_ISSUE (R154, R264, R603). -/
def execBusPhaseIssue (c : Chan) (way : PhaseWay) (s : State) : Out := ok (pump (busPhase s c.val way.mp way.chk))

/-- PROGRAM_CONFIRM (R148). -/
def execProgramConfirm (glun : Glun) (s : State) : Out := ok (pump (progConfirm s glun.val))

/-- HOLD_MAX_EXPIRY (R149). -/
def execHoldMaxExpiry (glun : Glun) (s : State) : Out := ok (pump (holdMax s glun.val))

/-- OPERATION_RESUME (R162). -/
def execOperationResume (glun : Glun) (s : State) : Out := ok (pump (opResume s glun.val))

/-- STATUS_POLL (R141, R151). -/
def execStatusPoll (glun : Glun) (res : PollResult) (status loops : Byte) (s : State) : Out :=
  ok (pump (statusPoll s glun.val res status.toNat loops.toNat))

/-- LUN_TIMEOUT (R142). -/
def execLunTimeout (glun : Glun) (s : State) : Out := ok (pump (lunTimeout s glun.val))

/-- CODEWORD_RECEIVED (R239, R245). -/
def execCodewordReceived (c : Chan) (raw : List Byte) (detect : Bool) (s : State) : Out :=
  ok (pump (codewordReceived s c.val raw detect))

/-- DECODE_START (R242, R245). -/
def execDecodeStart (p : Pool) (take : DecodeTake) (s : State) : Out := ok (pump (decodeStart s p.val take.soft take.detect))

/-- DECODE_DONE (R241). -/
def execDecodeDone (p : Pool) (d : Fin 10) (out : List Byte) (iters : Nat) (detect : Bool) (s : State) : Out :=
  ok (pump (decodeDone s p.val d.val out iters detect))

/-- RECONSTRUCTION_DONE (R256). -/
def execReconstructionDone (rid : Nat) (detect : Bool) (s : State) : Out := ok (pump (reconDone s rid detect))

/-- STRICT_DEADLINE_EXPIRY (R368). -/
def execStrictDeadlineExpiry (cid : Nat) (s : State) : Out := ok (pump (strictExpiry s cid))

end Sys2Proof.Machine
end

