-- ==== Sys2Proof/Machine/StripeRows.lean ====
section
/-! DEFINITION. The rows of the stripe engines, the journal and the restart (chapter Parity, the Stripe Journal and
Restart). -/

namespace Sys2Proof.Machine

/-- ROW_PARITY_START (R272). -/
def execRowParityStart (ste : Fin 8) (s : State) : Out := ok (pump (rowParityStart s ste.val))

/-- ROW_PARITY_DONE (R277, R276). -/
def execRowParityDone (ste : Fin 8) (detect : Option (Fin 3)) (s : State) : Out :=
  ok (pump (rowParityDone s ste.val (detect.map (fun p => p.val))))

/-- The journal engine is not halted (R484). -/
def jreRuns (s : State) : Bool := decide ((eng s 48).mode ≠ 3)

/-- The open page closes COMMIT_TICKS ticks after its first entry; 0 acts as 1 (R288). -/
def commitTicks (s : State) : State :=
  match s.jrn.pages.find? (fun p => !p.closed) with
  | some p => if jreRuns s && due s p.first (max 1 (rdf s regJrnCtrl 31 16)) then closePage s else s
  | none => s

/-- COMMIT_TICKS_EXPIRY. -/
def execCommitTicksExpiry (s : State) : Out := ok (pump (commitTicks s))

/-- JOURNAL_PAGE_WRITE (R284). -/
def execJournalPageWrite (copy : Fin 3) (s : State) : Out :=
  ok (if jreRuns s then pump (pageStart s copy.val) else s)

/-- WINDOW_TURN (R285). -/
def execWindowTurn (s : State) : Out := ok (if jreRuns s then pump (windowTurn s) else s)

/-- JOURNAL_SCAN_DONE (R296): layouts that waited for the scan are then bound (R595). -/
def execJournalScanDone (pages : List JPage) (s : State) : Out :=
  ok (if jreRuns s then pump (layoutsAfterScan (scanDone s pages)) else s)

/-- FAILURE_GROUP_RESTART (R299). -/
def execFailureGroupRestart (fg : BitVec 16) (reads : List RowClass) (staged : List StagedHeader) (s : State) : Out :=
  ok (if jreRuns s then pump (groupRestart s fg.toNat reads staged) else s)

end Sys2Proof.Machine
end

