-- ==== Sys2Proof/Machine/Tap.lean ====
section
/-! DEFINITION. The test access port (chapter The Block Boundary, R577 to R579). -/

namespace Sys2Proof.Machine

/-- Boundary-scan cells (R578). -/
def scanCells : Nat := 1664

/-- The IDCODE (R577). -/
def idcodeWord : Nat := 1 * 2 ^ 28 + 0x1D32 * 2 ^ 12 + Config.jtagMfg.toNat * 2 + 1

/-- May the port drive the flash pins (R579)? -/
def scanMayDrive (s : State) : Bool := s.scanEn && (!s.porstN || !s.srstN)

/-- The TAP instructions that take control of the flash pins: EXTEST, CLAMP, HIGHZ, EXTEST_PULSE, EXTEST_TRAIN. -/
def drivingCodes : List Nat := [0x00, 0x04, 0x05, 0x08, 0x09]

/-- The instruction in force acts as BYPASS (R577, R579). -/
def actsAsBypass (s : State) : Bool :=
  if drivingCodes.contains s.tap.ir then !(scanMayDrive s) else !([0x01, 0x02].contains s.tap.ir)

/-- What the port drives onto the flash pins: the cells of the boundary register, nothing where the block drives them
itself, and nothing under HIGHZ, which floats them. -/
def padCells (s : State) : Option (List Bool) :=
  if [0x00, 0x04, 0x08, 0x09].contains s.tap.ir && scanMayDrive s then some s.tap.preload else none

/-- HIGHZ floats the flash pins. -/
def padsFloat (s : State) : Bool := decide (s.tap.ir = 0x05) && scanMayDrive s

/-- An instruction that selects the boundary register while it may drive the pins, the bypass register else. -/
def tapDriving (s : State) (code pulse : Nat) (boundary : Bool) : State :=
  if scanMayDrive s then
    { s with tap := { s.tap with ir := code, dr := if boundary then s.tap.preload else [false], pulse := pulse } }
  else { s with tap := { s.tap with ir := code, dr := [false], pulse := 0 } }

/-- EXTEST (R579). -/
def execExtest (s : State) : Out := ok (tapDriving s 0x00 0 true)

/-- IDCODE (R577). -/
def execIdcode (s : State) : Out :=
  ok { s with tap := { s.tap with ir := 0x01, dr := (List.range 32).map (bit idcodeWord), pulse := 0 } }

/-- SAMPLE/PRELOAD (R577): the pins are captured, the cells preloaded. -/
def execSamplePreload (pins cells : List Bool) (s : State) : Out :=
  ok { s with tap := { s.tap with ir := 0x02, dr := pins.take scanCells, preload := cells.take scanCells, pulse := 0 } }

/-- CLAMP (R579): the preloaded cells stay on the pins, the bypass register is selected. -/
def execClamp (s : State) : Out := ok (tapDriving s 0x04 0 false)

/-- HIGHZ (R579): the pins float, the bypass register is selected. -/
def execHighz (s : State) : Out := ok (tapDriving s 0x05 0 false)

/-- EXTEST_PULSE (R578, R579). -/
def execExtestPulse (s : State) : Out := ok (tapDriving s 0x08 1 true)

/-- EXTEST_TRAIN (R578, R579). -/
def execExtestTrain (s : State) : Out := ok (tapDriving s 0x09 2 true)

/-- BYPASS, and every unlisted code (R577). -/
def execBypass (code : Byte) (s : State) : Out :=
  let listed := drivingCodes.contains code.toNat || [0x01, 0x02].contains code.toNat
  ok { s with tap := { s.tap with
    ir := if listed then 0xFF else code.toNat, dr := [false], pulse := 0 } }

end Sys2Proof.Machine
end

