-- ==== Sys2Proof/Machine/Dispatch.lean ====
section
/-! DEFINITION. The dispatch: one arm per command, each a direct call of that command's meaning. -/

namespace Sys2Proof.Machine

/-- The effect of a command on everything but the queue. -/
def exec (i : Instr) (s : State) : Host.Outcome State Fault Refusal :=
  match i with
  | .zoneAppend cid => Sys2Proof.Machine.execZoneAppend cid s
  | .zoneWrite cid => Sys2Proof.Machine.execZoneWrite cid s
  | .zoneRead cid => Sys2Proof.Machine.execZoneRead cid s
  | .zoneReset cid => Sys2Proof.Machine.execZoneReset cid s
  | .zoneOpen cid => Sys2Proof.Machine.execZoneOpen cid s
  | .zoneClose cid => Sys2Proof.Machine.execZoneClose cid s
  | .zoneFinish cid => Sys2Proof.Machine.execZoneFinish cid s
  | .zoneFlush cid => Sys2Proof.Machine.execZoneFlush cid s
  | .zoneQuery cid => Sys2Proof.Machine.execZoneQuery cid s
  | .layoutDefine cid mp => Sys2Proof.Machine.execLayoutDefine cid mp s
  | .reshapeBegin cid mp => Sys2Proof.Machine.execReshapeBegin cid mp s
  | .reshapeAbort cid => Sys2Proof.Machine.execReshapeAbort cid s
  | .memberFail cid => Sys2Proof.Machine.execMemberFail cid s
  | .rebuildStart cid => Sys2Proof.Machine.execRebuildStart cid s
  | .rebuildPause cid => Sys2Proof.Machine.execRebuildPause cid s
  | .rebuildResume cid => Sys2Proof.Machine.execRebuildResume cid s
  | .spareAssign cid mp => Sys2Proof.Machine.execSpareAssign cid mp s
  | .scrubRange cid => Sys2Proof.Machine.execScrubRange cid s
  | .scrubInternal cid detections => Sys2Proof.Machine.execScrubInternal cid detections s
  | .calibrate cid => Sys2Proof.Machine.execCalibrate cid s
  | .ageingRead cid mp => Sys2Proof.Machine.execAgeingRead cid mp s
  | .budgetSet cid mp => Sys2Proof.Machine.execBudgetSet cid mp s
  | .ringConfigureWrite cid mp => Sys2Proof.Machine.execRingConfigureWrite cid mp s
  | .ringConfigureEnable cid => Sys2Proof.Machine.execRingConfigureEnable cid s
  | .ringConfigureDisable cid => Sys2Proof.Machine.execRingConfigureDisable cid s
  | .ringConfigureUpdate cid mp => Sys2Proof.Machine.execRingConfigureUpdate cid mp s
  | .configStage cid mp => Sys2Proof.Machine.execConfigStage cid mp s
  | .configCommit cid => Sys2Proof.Machine.execConfigCommit cid s
  | .configAudit cid => Sys2Proof.Machine.execConfigAudit cid s
  | .measureReport cid detect => Sys2Proof.Machine.execMeasureReport cid detect s
  | .traceControl cid => Sys2Proof.Machine.execTraceControl cid s
  | .rawSequence cid mp => Sys2Proof.Machine.execRawSequence cid mp s
  | .rawRead cid => Sys2Proof.Machine.execRawRead cid s
  | .rawProgram cid => Sys2Proof.Machine.execRawProgram cid s
  | .rawErase cid => Sys2Proof.Machine.execRawErase cid s
  | .wpSet cid mp => Sys2Proof.Machine.execWpSet cid mp s
  | .powerState cid => Sys2Proof.Machine.execPowerState cid s
  | .echo cid => Sys2Proof.Machine.execEcho cid s
  | .packetFetch q mp ends ctxDetect => Sys2Proof.Machine.execPacketFetch q mp ends ctxDetect s
  | .doorbellCmdTail ring value => Sys2Proof.Machine.execDoorbellCmdTail ring value s
  | .doorbellCplHead ring value => Sys2Proof.Machine.execDoorbellCplHead ring value s
  | .doorbellConsume ring kind => Sys2Proof.Machine.execDoorbellConsume ring kind s
  | .glbTickLoRead => Sys2Proof.Machine.execGlbTickLoRead s
  | .jrnSeqLoRead => Sys2Proof.Machine.execJrnSeqLoRead s
  | .jrnDurableLoRead => Sys2Proof.Machine.execJrnDurableLoRead s
  | .glbAgeNowLoRead => Sys2Proof.Machine.execGlbAgeNowLoRead s
  | .rcCounterRead addr coincident => Sys2Proof.Machine.execRcCounterRead addr coincident s
  | .glbAdvice0Read => Sys2Proof.Machine.execGlbAdvice0Read s
  | .engCsDataRead e => Sys2Proof.Machine.execEngCsDataRead e s
  | .registerWrite addr value be coincident => Sys2Proof.Machine.execRegisterWrite addr value be coincident s
  | .ringContextWrite addr value be => Sys2Proof.Machine.execRingContextWrite addr value be s
  | .evcClaim t => Sys2Proof.Machine.execEvcClaim t s
  | .evcFclaim t => Sys2Proof.Machine.execEvcFclaim t s
  | .evcComplete t src => Sys2Proof.Machine.execEvcComplete t src s
  | .evcFcomplete t src => Sys2Proof.Machine.execEvcFcomplete t src s
  | .evcPset n ones => Sys2Proof.Machine.execEvcPset n ones s
  | .evcFpset n ones => Sys2Proof.Machine.execEvcFpset n ones s
  | .evcPendClear n ones => Sys2Proof.Machine.execEvcPendClear n ones s
  | .evcFpendClear n ones => Sys2Proof.Machine.execEvcFpendClear n ones s
  | .evcSrcWrite src value => Sys2Proof.Machine.execEvcSrcWrite src value s
  | .phyCmdQuickRetrain c => Sys2Proof.Machine.execPhyCmdQuickRetrain c s
  | .phyCmdFullTraining c => Sys2Proof.Machine.execPhyCmdFullTraining c s
  | .phyCmdRaiseAttempt c => Sys2Proof.Machine.execPhyCmdRaiseAttempt c s
  | .jrnCmdDiscard fg => Sys2Proof.Machine.execJrnCmdDiscard fg s
  | .glbCfgCmdDiscard => Sys2Proof.Machine.execGlbCfgCmdDiscard s
  | .glbMeasExt => Sys2Proof.Machine.execGlbMeasExt s
  | .bootCmdLoadOptionArea copies => Sys2Proof.Machine.execBootCmdLoadOptionArea copies s
  | .bootCmdLoadImage => Sys2Proof.Machine.execBootCmdLoadImage s
  | .oaUnlockFirstKey value => Sys2Proof.Machine.execOaUnlockFirstKey value s
  | .oaUnlockSecondKey value => Sys2Proof.Machine.execOaUnlockSecondKey value s
  | .oaRelock => Sys2Proof.Machine.execOaRelock s
  | .oaKeyWindowExpiry => Sys2Proof.Machine.execOaKeyWindowExpiry s
  | .oaUnlockExpiry => Sys2Proof.Machine.execOaUnlockExpiry s
  | .porstNFall => Sys2Proof.Machine.execPorstNFall s
  | .porstNRise => Sys2Proof.Machine.execPorstNRise s
  | .srstNFall => Sys2Proof.Machine.execSrstNFall s
  | .srstNRise => Sys2Proof.Machine.execSrstNRise s
  | .pfailNFall => Sys2Proof.Machine.execPfailNFall s
  | .powerFailWarning => Sys2Proof.Machine.execPowerFailWarning s
  | .pfailStageByExpiry => Sys2Proof.Machine.execPfailStageByExpiry s
  | .pfailNRise => Sys2Proof.Machine.execPfailNRise s
  | .pfailHighFilterExpiry => Sys2Proof.Machine.execPfailHighFilterExpiry s
  | .trefLost => Sys2Proof.Machine.execTrefLost s
  | .trefReturn => Sys2Proof.Machine.execTrefReturn s
  | .trefFreqWindow disagree => Sys2Proof.Machine.execTrefFreqWindow disagree s
  | .paceWindowEnd count => Sys2Proof.Machine.execPaceWindowEnd count s
  | .pllUnlock c => Sys2Proof.Machine.execPllUnlock c s
  | .pllLock c => Sys2Proof.Machine.execPllLock c s
  | .tgtSleepChange t level => Sys2Proof.Machine.execTgtSleepChange t level s
  | .memHoldRise => Sys2Proof.Machine.execMemHoldRise s
  | .memHoldFall => Sys2Proof.Machine.execMemHoldFall s
  | .thermalWord grp readings => Sys2Proof.Machine.execThermalWord grp readings s
  | .bufferPoolResponse q result gaddr => Sys2Proof.Machine.execBufferPoolResponse q result gaddr s
  | .mpBurstIssue n => Sys2Proof.Machine.execMpBurstIssue n s
  | .mpResponseBeat n tag stat data crc => Sys2Proof.Machine.execMpResponseBeat n tag stat data crc s
  | .mpBurstTimeout n tag => Sys2Proof.Machine.execMpBurstTimeout n tag s
  | .domainHandshakeAck d ret level => Sys2Proof.Machine.execDomainHandshakeAck d ret level s
  | .domainHandshakeTimeout d => Sys2Proof.Machine.execDomainHandshakeTimeout d s
  | .tracePortRead k => Sys2Proof.Machine.execTracePortRead k s
  | .governorRefill => Sys2Proof.Machine.execGovernorRefill s
  | .coalTicksExpiry ring => Sys2Proof.Machine.execCoalTicksExpiry ring s
  | .holdoffExpiry g => Sys2Proof.Machine.execHoldoffExpiry g s
  | .sourceFilterExpiry src => Sys2Proof.Machine.execSourceFilterExpiry src s
  | .traceTimeout k => Sys2Proof.Machine.execTraceTimeout k s
  | .statusPoll glun res status loops => Sys2Proof.Machine.execStatusPoll glun res status loops s
  | .lunTimeout glun => Sys2Proof.Machine.execLunTimeout glun s
  | .holdMaxExpiry glun => Sys2Proof.Machine.execHoldMaxExpiry glun s
  | .commitTicksExpiry => Sys2Proof.Machine.execCommitTicksExpiry s
  | .linkCheck c ce pass => Sys2Proof.Machine.execLinkCheck c ce pass s
  | .quickRetrainPeriod c => Sys2Proof.Machine.execQuickRetrainPeriod c s
  | .raiseAttempt c => Sys2Proof.Machine.execRaiseAttempt c s
  | .dieTemperatureRead glun value => Sys2Proof.Machine.execDieTemperatureRead glun value s
  | .thermalStale z => Sys2Proof.Machine.execThermalStale z s
  | .patrolVisit q => Sys2Proof.Machine.execPatrolVisit q s
  | .furlWake => Sys2Proof.Machine.execFurlWake s
  | .ageingWriteBack bg => Sys2Proof.Machine.execAgeingWriteBack bg s
  | .predictionRefresh q bg => Sys2Proof.Machine.execPredictionRefresh q bg s
  | .poolRetry q => Sys2Proof.Machine.execPoolRetry q s
  | .trimIdleExpiry d => Sys2Proof.Machine.execTrimIdleExpiry d s
  | .stageLeadExpiry zid => Sys2Proof.Machine.execStageLeadExpiry zid s
  | .strictDeadlineExpiry cid => Sys2Proof.Machine.execStrictDeadlineExpiry cid s
  | .ixAliveToggle => Sys2Proof.Machine.execIxAliveToggle s
  | .leaseWaitExpiry cid => Sys2Proof.Machine.execLeaseWaitExpiry cid s
  | .safePointOverrun e => Sys2Proof.Machine.execSafePointOverrun e s
  | .busPhaseIssue c way => Sys2Proof.Machine.execBusPhaseIssue c way s
  | .programConfirm glun => Sys2Proof.Machine.execProgramConfirm glun s
  | .codewordReceived c raw detect => Sys2Proof.Machine.execCodewordReceived c raw detect s
  | .decodeStart p take => Sys2Proof.Machine.execDecodeStart p take s
  | .decodeDone p d out iters detect => Sys2Proof.Machine.execDecodeDone p d out iters detect s
  | .reconstructionDone rid detect => Sys2Proof.Machine.execReconstructionDone rid detect s
  | .operationResume glun => Sys2Proof.Machine.execOperationResume glun s
  | .rowParityStart ste => Sys2Proof.Machine.execRowParityStart ste s
  | .rowParityDone ste detect => Sys2Proof.Machine.execRowParityDone ste detect s
  | .foldStart zid => Sys2Proof.Machine.execFoldStart zid s
  | .stagingStart zid => Sys2Proof.Machine.execStagingStart zid s
  | .stagingReclaim fg => Sys2Proof.Machine.execStagingReclaim fg s
  | .journalPageWrite copy => Sys2Proof.Machine.execJournalPageWrite copy s
  | .windowTurn => Sys2Proof.Machine.execWindowTurn s
  | .journalScanDone pages => Sys2Proof.Machine.execJournalScanDone pages s
  | .failureGroupRestart fg reads staged => Sys2Proof.Machine.execFailureGroupRestart fg reads staged s
  | .rebuildUnitEnd fg zid => Sys2Proof.Machine.execRebuildUnitEnd fg zid s
  | .reshapeZoneCross fg => Sys2Proof.Machine.execReshapeZoneCross fg s
  | .calibrationSweepDone cid w b l => Sys2Proof.Machine.execCalibrationSweepDone cid w b l s
  | .scrubRangeDone cid w h f m u l => Sys2Proof.Machine.execScrubRangeDone cid w h f m u l s
  | .fullTrainingDone c zqCodes zqEnd ces => Sys2Proof.Machine.execFullTrainingDone c zqCodes zqEnd ces s
  | .quickRetrainDone c zqCodes zqEnd ces => Sys2Proof.Machine.execQuickRetrainDone c zqCodes zqEnd ces s
  | .rawWaitEnd glun status timedOut => Sys2Proof.Machine.execRawWaitEnd glun status timedOut s
  | .configCommitComplete => Sys2Proof.Machine.execConfigCommitComplete s
  | .drainingSlotFree => Sys2Proof.Machine.execDrainingSlotFree s
  | .powerEntryCommit => Sys2Proof.Machine.execPowerEntryCommit s
  | .powerEntryEnd => Sys2Proof.Machine.execPowerEntryEnd s
  | .powerExitEnd badUnit copies => Sys2Proof.Machine.execPowerExitEnd badUnit copies s
  | .memoryFillDone ctxBad noticeFails => Sys2Proof.Machine.execMemoryFillDone ctxBad noticeFails s
  | .bringupPhyUp => Sys2Proof.Machine.execBringupPhyUp s
  | .dieDiscoveryDone found => Sys2Proof.Machine.execDieDiscoveryDone found s
  | .optionAreaLoadDone => Sys2Proof.Machine.execOptionAreaLoadDone s
  | .bringupTrainingDone => Sys2Proof.Machine.execBringupTrainingDone s
  | .engineRelease => Sys2Proof.Machine.execEngineRelease s
  | .readyIndication => Sys2Proof.Machine.execReadyIndication s
  | .trap e safe => Sys2Proof.Machine.execTrap e safe s
  | .aluAdd e safe dst a b => Sys2Proof.Machine.execAluAdd e safe dst a b s
  | .aluSub e safe dst a b => Sys2Proof.Machine.execAluSub e safe dst a b s
  | .aluAnd e safe dst a b => Sys2Proof.Machine.execAluAnd e safe dst a b s
  | .aluOr e safe dst a b => Sys2Proof.Machine.execAluOr e safe dst a b s
  | .aluXor e safe dst a b => Sys2Proof.Machine.execAluXor e safe dst a b s
  | .aluShl e safe dst a b => Sys2Proof.Machine.execAluShl e safe dst a b s
  | .aluShr e safe dst a b => Sys2Proof.Machine.execAluShr e safe dst a b s
  | .aluGfmul e safe dst a b => Sys2Proof.Machine.execAluGfmul e safe dst a b s
  | .aluCmp e safe dst a b => Sys2Proof.Machine.execAluCmp e safe dst a b s
  | .aluMov e safe dst a b => Sys2Proof.Machine.execAluMov e safe dst a b s
  | .ldi e safe high dst imm => Sys2Proof.Machine.execLdi e safe high dst imm s
  | .memLoad e safe reg base off detect => Sys2Proof.Machine.execMemLoad e safe reg base off detect s
  | .memStore e safe reg base off => Sys2Proof.Machine.execMemStore e safe reg base off s
  | .br e safe cond target => Sys2Proof.Machine.execBr e safe cond target s
  | .call e safe target => Sys2Proof.Machine.execCall e safe target s
  | .ret e safe target => Sys2Proof.Machine.execRet e safe target s
  | .port e safe portNo regA regB code => Sys2Proof.Machine.execPort e safe portNo regA regB code s
  | .wait e safe portNo regT => Sys2Proof.Machine.execWait e safe portNo regT s
  | .microwordWaitEnd e reply => Sys2Proof.Machine.execMicrowordWaitEnd e reply s
  | .disp e safe reg parityError => Sys2Proof.Machine.execDisp e safe reg parityError s
  | .done e safe next parityError => Sys2Proof.Machine.execDone e safe next parityError s
  | .extest => Sys2Proof.Machine.execExtest s
  | .idcode => Sys2Proof.Machine.execIdcode s
  | .samplePreload pins cells => Sys2Proof.Machine.execSamplePreload pins cells s
  | .clamp => Sys2Proof.Machine.execClamp s
  | .highz => Sys2Proof.Machine.execHighz s
  | .extestPulse => Sys2Proof.Machine.execExtestPulse s
  | .extestTrain => Sys2Proof.Machine.execExtestTrain s
  | .bypass code => Sys2Proof.Machine.execBypass code s
  | .mpRequestAccept n => Sys2Proof.Machine.execMpRequestAccept n s
  | .mpWriteBeatAccept n => Sys2Proof.Machine.execMpWriteBeatAccept n s
  | .furlPatrolHoldExpiry q => Sys2Proof.Machine.execFurlPatrolHoldExpiry q s
  | .registerRead addr be => Sys2Proof.Machine.execRegisterRead addr be s

end Sys2Proof.Machine
end

