-- ==== Sys2Proof/Machine/Step.lean ====
section
/-! DEFINITION. One step of the block: the command at the front of the queue, or, when none waits, one tick of TREF. -/

namespace Sys2Proof.Machine

/-- The tick counter advances by one TREF edge, modulo 2^64, unless no edges arrive (R26, R31; DESIGN CHOICE that an
empty queue lets a tick pass, log entry 1). -/
def tickOnce (s : State) : State :=
  if s.trefStop then s else { s with tick := (s.tick + 1) % 2 ^ 64 }

/-- One step. -/
def step (s : State) : Host.Outcome State Fault Refusal :=
  match s.pending with
  | [] => .next (tickOnce s)
  | c :: rest => exec c { s with pending := rest }

/-- The state with the command that a word spells in front of its queue. No word spells one. -/
def State.withFetchWord (s : State) (nbits w : Nat) : State :=
  match decodeTableWord nbits w with
  | some c => { s with pending := c :: s.pending }
  | none => s

end Sys2Proof.Machine
end

