-- ==== Sys2Proof/Safety.lean ====
section
/-! DEFINITION. What counts as a safe run, and the words in which the statements are written: what a step leaves alone, when
a command may start, how a command ends. -/

namespace Sys2Proof

open Sys2Proof.Machine

/-- The outcome is a next state. -/
def Completes (o : Out) : Prop := ∃ t, o = .next t

/-- A step of the state goes on. -/
def SafeStep (s : State) : Prop := Completes (step s)

/-- Every byte of SoC memory reads as before. -/
def SameMemory (s t : State) : Prop := ∀ a, dramByte t a = dramByte s a

/-! ### Microwords (R472 to R479) -/

/-- The engine takes its next microword: it is not halted, not in a WAIT, has no overrun pending, runs no hook, and no
generation switch falls on it. -/
def MicroReady (s : State) (e : Nat) : Prop :=
  (eng s e).mode ≠ 3 ∧ (eng s e).wait = none ∧ (eng s e).steps < 256 ∧ (eng s e).hook = none ∧ s.cfg.commitCid = none

/-- The engine with a step counted, from 0 after a safe point. -/
def stepped (en : EngineSt) (safe : Bool) : EngineSt :=
  { en with mode := if en.mode = 2 then 2 else 1, steps := if safe then 0 else en.steps + 1 }

/-- Only this engine, its count of steps and the counter of free values differ. -/
def OnlyEngine (s t : State) (e : Nat) : Prop :=
  t = { s with engines := t.engines, regs := t.regs, free := t.free } ∧
  (∀ f, f ≠ e → eng t f = eng s f) ∧ (∀ a, a ≠ regEngSteps e → rd t a = rd s a)

/-- The outcome is a next state in which the engine is `en`, and nothing else differs but its count of steps. -/
def EngineBecomes (o : Out) (s : State) (e : Nat) (en : EngineSt) : Prop :=
  ∃ t, o = .next t ∧ eng t e = en ∧ OnlyEngine s t e

/-- The next microword address of an engine. -/
def nextPc (en : EngineSt) : Nat := (en.pc + 1) % 2 ^ 14

/-- An ALU microword: DST (none for CMP) and the flags take the result `r`; C is `carry` where the spec gives it. -/
def AluEffect (o : Out) (s : State) (e : Nat) (safe : Bool) (dst : Option Nat) (r : Word) (carry : Option Bool) : Prop :=
  ∃ c, (∀ b, carry = some b → c = b) ∧
    EngineBecomes o s e { stepped (eng s e) safe with
      g := (match dst with | some d => wput (eng s e).g d r | none => (eng s e).g),
      z := decide (r = 0), n := r.getLsbD 31, c := c, pc := nextPc (eng s e) }

/-! ### Event controller -/

/-- Only the event controller, its registers and the answer of the control port differ. -/
def OnlyEvents (s t : State) : Prop :=
  t = { s with evc := t.evc, regs := t.regs, cpResp := t.cpResp, cpRdata := t.cpRdata } ∧
  ∀ a, a < 0x10000 ∨ 0x12000 ≤ a → rd t a = rd s a

/-! ### Registers -/

/-- Only these registers differ. -/
def OnlyRegs (s t : State) (as : List Nat) : Prop := t = { s with regs := t.regs } ∧ ∀ a, a ∉ as → rd t a = rd s a

/-- The control port takes accesses: it is not dead, and no access waits for its domain. -/
def PortFree (s : State) : Prop := cpDead s = false ∧ s.cpWait = none

/-- The control port takes accesses to a register: it is free, and the register's domains are on. -/
def PortTakes (s : State) (a : Nat) : Prop := PortFree s ∧ ∀ d ∈ regDoms a, domOn s d = true

/-- The read of a word answers its low 32 bits and latches the upper ones in a second register; nothing else changes. -/
def Latches (i : Instr) (s : State) (hi v : Nat) : Prop :=
  ∃ t, exec i s = .next t ∧ t.cpResp = 0 ∧ t.cpRdata.toNat = v % 2 ^ 32 ∧ rd t hi = v / 2 ^ 32 % 2 ^ 32 ∧
    OnlyRegs { s with cpResp := t.cpResp, cpRdata := t.cpRdata } t [hi]

/-! ### Packet commands -/

/-- The state in which a command runs that has just started. -/
def running (s : State) (cid : Nat) : State := modCmd s cid (fun c => { c with issued := true, stage := .running })

/-- The step leaves the state `u` with the command ended by a result, and what follows of itself. -/
def EndsWith (o : Out) (u : State) (cid : Nat) (r : Result) : Prop := o = .next (pump (finish u cid r))

/-- A fetch of `spans` of SoC memory that its port gives up ends the command: MEMPORT_ERROR or MEMPORT_TIMEOUT with the failed beat's
descriptor, its address, and its index within its burst beside the port. The port's sticky bit stands, and but for registers, trace
packets and the event nothing differs from `u`. -/
def PortGaveUp (spans : List (Nat × Nat × Nat)) (mp : PortEnd) (u v : State) (port : Nat) (r : Result) : Prop :=
  ∃ st b i, ((mp = .error i ∧ st = 0x6001 ∧ b = 1) ∨ (mp = .timeout i ∧ st = 0x6002 ∧ b = 2)) ∧
    (let p := failPlace (transferBursts spans) i
     r = { status := st, ra := p.1, rb := p.2.1, detail := p.2.2 * 2 ^ 16 + port }) ∧
    (port < 8 → bit (rd v (regMemPortStatus port)) b = true) ∧
    v = { u with regs := v.regs, evc := v.evc, traces := v.traces }

/-- The command ends so for either end of its image's fetch that is not good; the image is `len` bytes at DATA_PTR. -/
def EndsOnPort (o : PortEnd → Out) (u : State) (c : Cmd) (len : Nat) : Prop :=
  ∀ mp, mp ≠ .ok → ∃ v r, EndsWith (o mp) v c.cid r ∧ PortGaveUp [(0, cPtr c, len)] mp u v (2 * c.home) r

/-- In a ring's context, the bits that lie in one of the fields (first bit, count) are those of an image, the others stay. -/
def CtxTakes (s t : State) (r : Nat) (fields : List (Nat × Nat)) (img : List Byte) : Prop :=
  ∀ b, b < 512 → (tget t.ctx r 0).getLsbD b =
    if fields.any (fun f => decide (f.1 ≤ b) && decide (b < f.1 + f.2)) then (img.getD (b / 8) 0).getLsbD (b % 8)
    else (tget s.ctx r 0).getLsbD b

/-- Only one ring's context and what the block keeps of it differ. -/
def OnlyRing (s t : State) (r : Nat) : Prop :=
  t = { s with ctx := t.ctx, rings := t.rings } ∧ (∀ k, k ≠ r → tget t.ctx k 0 = tget s.ctx k 0 ∧ ringRt t k = ringRt s k)

end Sys2Proof
end

