-- ==== Sys2Proof/Certificates/Slice0/Obligations.lean ====
section
/-! DEFINITION. The statements for the provers. Each says what a rule of spec/ says of a command, of a unit or of the whole
block; where a command's effect is followed by what follows of itself, the statement gives the state that `pump` is
applied to. -/

open Sys2Proof Sys2Proof.Machine

/-- A step takes the command at the front of the queue and is exec of it with the queue's rest. -/
def Obligations.StepExecutesTheFrontCommand : Prop :=
  ∀ (s : State) (c : Instr) (rest : List Instr), s.pending = c :: rest →
    Machine.step s = exec c { s with pending := rest }

/-- No command stops the block: every command answers a next state in every state. An empty queue lets one edge of TREF pass, which nothing
but the tick counter shows; without edges nothing changes. The model's choice (log entry 1). -/
def Obligations.EveryStepAnswersANextState : Prop :=
  (∀ (c : Instr) (s : State), Completes (exec c s)) ∧
  (∀ s : State, s.pending = [] →
     (s.trefStop = false → Machine.step s = .next { s with tick := (s.tick + 1) % 2 ^ 64 }) ∧
     (s.trefStop = true → Machine.step s = .next s))

/-- After power-on reset every register reads its reset value, the tick counter is zero, no ring is enabled, nothing waits, nothing is in
flight, no event is pending, every target's stack is empty, both round-robin pointers stand at target 15. -/
def Obligations.ResetState : Prop :=
  let s := State.reset
  (∀ a, rd s a = regReset a) ∧ s.tick = 0 ∧ s.pending = [] ∧ s.dram = [] ∧ Memory.wf s.dram = true ∧ s.cmds = [] ∧ s.xfers = [] ∧ s.ops = [] ∧
  s.items = [] ∧ s.rows = [] ∧ s.ozt = [] ∧ s.cfg.curGen = 0 ∧ s.cfg.log = [] ∧
  (∀ r, r < 65536 → ringEnabled s r = false) ∧
  (∀ src, isPend s src = false) ∧ (∀ fast t, stackOf s fast t = none) ∧ s.evc.offers = [] ∧ s.evc.rrN = 15 ∧ s.evc.rrF = 15 ∧
  (∀ k, traceLevel (traceSt s k) = 0) ∧ (∀ i, i < 8 → tget s.cfg.meas i (zeros 48) = zeros 48)

/-- Every microword operation, written as its microword, reads back as itself: every engine, register, address, condition, port and code. What
the surroundings supply in that step (a check that fails, the next item) stands in no microword. -/
def Obligations.MicrowordReadsBackAsWritten : Prop :=
  ∀ (e : Sys2Proof.Engine) (safe : Bool),
    (∀ i ∈ [Instr.trap e safe, .done e safe none false], (encodeMicroword i).map (decodeMicroword e) = some i) ∧
    (∀ (d a b : Fin 16), ∀ i ∈ [Instr.aluAdd e safe d a b, .aluSub e safe d a b, .aluAnd e safe d a b, .aluOr e safe d a b,
        .aluXor e safe d a b, .aluShl e safe d a b, .aluShr e safe d a b, .aluGfmul e safe d a b, .aluCmp e safe d a b,
        .aluMov e safe d a b], (encodeMicroword i).map (decodeMicroword e) = some i) ∧
    (∀ (h : Bool) (d : Fin 16) (imm : BitVec 16),
      (encodeMicroword (.ldi e safe h d imm)).map (decodeMicroword e) = some (.ldi e safe h d imm)) ∧
    (∀ (r b : Fin 16) (o : BitVec 14), ∀ i ∈ [Instr.memLoad e safe r b o false, .memStore e safe r b o],
      (encodeMicroword i).map (decodeMicroword e) = some i) ∧
    (∀ (c : Fin 16) (t : BitVec 14), ∀ i ∈ [Instr.br e safe c t, .call e safe t, .ret e safe t],
      (encodeMicroword i).map (decodeMicroword e) = some i) ∧
    (∀ (p : Fin 64) (a b : Fin 16) (c : BitVec 13),
      (encodeMicroword (.port e safe p a b c)).map (decodeMicroword e) = some (.port e safe p a b c)) ∧
    (∀ (p : Fin 64) (t : Fin 16), ∀ i ∈ [Instr.wait e safe p t, .disp e safe t false],
      (encodeMicroword i).map (decodeMicroword e) = some i)

/-- A microword with OP 0xA to 0xF, or an ALU microword with FN 10 to 15, is the machine check of a TRAP, and so is a zero microword. Words
written out from the table of microword operations: ADD G1 := G2 + G3, a safe LDI of 0x1234 into G5[31:16], a store of G1 to local word
(G2 + 9), BR NOT Z to 0x40, a return, PORT 3 with G4, G5 and CODE 7, WAIT on port 63 for G6 ticks, DISP by G7, DONE, and the zero word. -/
def Obligations.IllegalMicrowordsAreTraps : Prop :=
  (∀ (e : Sys2Proof.Engine) (w : BitVec 32),
     (10 ≤ (w.extractLsb' 27 4).toNat ∨ w.extractLsb' 27 4 = 0 ∨
       (w.extractLsb' 27 4 = 1 ∧ 10 ≤ (w.extractLsb' 23 4).toNat)) →
     decodeMicroword e w = .trap e (w.getLsbD 31)) ∧
  (∀ e : Sys2Proof.Engine,
     decodeMicroword e 0b0_0001_0000_0001_0010_0011_00000000000 = .aluAdd e false 1 2 3 ∧
     decodeMicroword e 0b1_0010_1_000_0101_000_0001001000110100 = .ldi e true true 5 0x1234 ∧
     decodeMicroword e 0b0_0011_1_000_0001_0010_0_00000000001001 = .memStore e false 1 2 9 ∧
     decodeMicroword e 0b0_0100_0010_000000000_00000001000000 = .br e false 2 0x40 ∧
     decodeMicroword e 0b0_0101_1_000000000000_00000000000000 = .ret e false 0 ∧
     decodeMicroword e 0b0_0110_000011_0100_0101_0000000000111 = .port e false 3 4 5 7 ∧
     decodeMicroword e 0b0_0111_111111_0110_00000000000000000 = .wait e false 63 6 ∧
     decodeMicroword e 0b0_1000_0000_0111_0000000000000000000 = .disp e false 7 false ∧
     decodeMicroword e 0b0_1001_000000000000000000000000000 = .done e false none false ∧
     decodeMicroword e 0 = .trap e false)

/-- Every ALU microword of an engine that takes its next microword answers a next state: DST takes SRCA fn SRCB (CMP writes flags only, MOV
copies SRCA), Z and N follow the result, the program counter advances. C is ADD's carry, and for every other function a free value, since
the spec does not form it (log entry 10); so is the result of a shift by 32 or more. GFMUL multiplies byte by byte under R268. LDI loads
IMM into one half of DST and leaves the other half. -/
def Obligations.AluMicrowordsComputeTheirResults : Prop :=
  (∀ (s : State) (e : Sys2Proof.Engine) (safe : Bool) (d a b : Fin 16), MicroReady s e →
     let x := greg (eng s e) a
     let y := greg (eng s e) b
     AluEffect (exec (.aluAdd e safe d a b) s) s e safe (some d) (x + y) (some (decide (2 ^ 32 ≤ x.toNat + y.toNat))) ∧
     AluEffect (exec (.aluSub e safe d a b) s) s e safe (some d) (x - y) none ∧
     AluEffect (exec (.aluAnd e safe d a b) s) s e safe (some d) (x &&& y) none ∧
     AluEffect (exec (.aluOr e safe d a b) s) s e safe (some d) (x ||| y) none ∧
     AluEffect (exec (.aluXor e safe d a b) s) s e safe (some d) (x ^^^ y) none ∧
     (∃ r, (y.toNat < 32 → r = x <<< y.toNat) ∧ AluEffect (exec (.aluShl e safe d a b) s) s e safe (some d) r none) ∧
     (∃ r, (y.toNat < 32 → r = x >>> y.toNat) ∧ AluEffect (exec (.aluShr e safe d a b) s) s e safe (some d) r none) ∧
     AluEffect (exec (.aluCmp e safe d a b) s) s e safe none (x - y) none ∧
     AluEffect (exec (.aluMov e safe d a b) s) s e safe (some d) x none) ∧
  (∀ (s : State) (e : Sys2Proof.Engine) (safe : Bool) (d a b : Fin 16), MicroReady s e →
     ∃ r : Word, (∀ i, i < 4 → (r.extractLsb' (8 * i) 8).toNat =
         gfmul 0x1D ((greg (eng s e) a).extractLsb' (8 * i) 8).toNat ((greg (eng s e) b).extractLsb' (8 * i) 8).toNat) ∧
       AluEffect (exec (.aluGfmul e safe d a b) s) s e safe (some d) r none) ∧
  (∀ (s : State) (e : Sys2Proof.Engine) (safe high : Bool) (d : Fin 16) (imm : BitVec 16), MicroReady s e →
     ∃ v : Word, v.extractLsb' (if high then 16 else 0) 16 = imm ∧
       v.extractLsb' (if high then 0 else 16) 16 = (greg (eng s e) d).extractLsb' (if high then 0 else 16) 16 ∧
       EngineBecomes (exec (.ldi e safe high d imm) s) s e
         { stepped (eng s e) safe with g := wput (eng s e).g d v, pc := nextPc (eng s e) })

/-- MEM loads REG from, or stores REG to, local word (BASE + OFF) mod 4,096 of the current bank; SoC memory stays. BR jumps to TARGET where
its condition holds and goes on where it does not; CALL pushes the next address, up to eight, and a return pops it; DISP jumps through a
valid entry indexed by REG[7:0]. PORT issues its request where the engine has the port and is a machine check with cause 4 where it has
not; WAIT waits for the port's acknowledge, or on port 63 for REGT ticks, at a safe point; DONE ends the item and dispatches the next
through the entry of its opcode, or leaves the engine idle; the reply to a WAIT goes to REGA of the request. Which ports an engine kind
has beyond those of a hook is open (log entry 9). MICROWORD_WAIT_END: an engine in WAIT goes on: the reply goes to REGA of the request,
and on port 63 the wait ends, without a reply, once its ticks have passed and not before. -/
def Obligations.MicrowordsThatMoveAndBranch : Prop :=
  (∀ (s : State) (e : Sys2Proof.Engine) (safe : Bool) (r b : Fin 16) (o : BitVec 14), MicroReady s e →
     let en := eng s e
     let w := en.bank * 4096 + ((greg en b).toNat + o.toNat) % 4096
     EngineBecomes (exec (.memLoad e safe r b o false) s) s e
       { stepped en safe with g := wput en.g r (tget en.locals w 0), pc := nextPc en } ∧
     EngineBecomes (exec (.memStore e safe r b o) s) s e
       { stepped en safe with locals := wput en.locals w (greg en r), pc := nextPc en }) ∧
  (∀ (s : State) (e : Sys2Proof.Engine) (safe : Bool) (t : BitVec 14), MicroReady s e →
     let en := eng s e
     (∀ (c : Fin 16) (take : Bool),
       (c.val, take) ∈ [(0, true), (1, en.z), (2, !en.z), (3, en.c), (4, !en.c), (5, en.n)] →
       EngineBecomes (exec (.br e safe c t) s) s e { stepped en safe with pc := if take then t.toNat else nextPc en }) ∧
     (en.stack.length < 8 →
       EngineBecomes (exec (.call e safe t) s) s e { stepped en safe with stack := nextPc en :: en.stack, pc := t.toNat }) ∧
     (∀ a rest, en.stack = a :: rest →
       EngineBecomes (exec (.ret e safe t) s) s e { stepped en safe with stack := rest, pc := a }) ∧
     (∀ r : Fin 16, bit (dispEntry s e ((greg en r).toNat % 256)) 15 = true → (greg en r).toNat % 256 < 0xC0 →
       EngineBecomes (exec (.disp e safe r false) s) s e
         { stepped en safe with pc := dispEntry s e ((greg en r).toNat % 256) % 2 ^ 14 })) ∧
  (∀ (s : State) (e : Sys2Proof.Engine) (safe : Bool), MicroReady s e →
     let en := eng s e
     (∀ (p : Fin 64) (a b : Fin 16) (c : BitVec 13),
       if Config.enginePort (engKind e) p = true then
         EngineBecomes (exec (.port e safe p a b c) s) s e
           { stepped en safe with req := tset en.req p (a.val, greg en a, greg en b, c.toNat), pc := nextPc en }
       else ∃ u, exec (.port e safe p a b c) s = .next (machineCheck u e 4) ∧ eng u e = stepped en safe ∧ OnlyEngine s u e) ∧
     (∀ t : Fin 16, EngineBecomes (exec (.wait e safe 63 t) s) s e
       { stepped en true with wait := some { port := 63, reg := 0, until_ := some (s.tick + (greg en t).toNat) } }) ∧
     (∀ (p : Fin 64) (t : Fin 16), p ≠ 63 → EngineBecomes (exec (.wait e safe p t) s) s e
       { stepped en true with wait := some { port := p.val, reg := ((tget? en.req p).map (fun r => r.1)).getD 0 } }) ∧
     EngineBecomes (exec (.done e safe none false) s) s e
       { stepped en true with work := none, opcode := 0, stack := [], mode := 0 } ∧
     (∀ (op : Byte) (w : Nat), bit (dispEntry s e op.toNat) 15 = true → op.toNat < 0xC0 →
       EngineBecomes (exec (.done e safe (some (op, w)) false) s) s e
         { stepped en true with work := some w, opcode := op.toNat, stack := [], mode := 1, pc := dispEntry s e op.toNat % 2 ^ 14 })) ∧
  (∀ (s : State) (e : Sys2Proof.Engine) (reply : Word) (w : EngWait), (eng s e).wait = some w →
     (w.until_ = none → EngineBecomes (exec (.microwordWaitEnd e reply) s) s e
       { eng s e with wait := none, req := terase (eng s e).req w.port, g := wput (eng s e).g w.reg reply, pc := nextPc (eng s e) }) ∧
     (∀ t, w.until_ = some t → t ≤ s.tick →
       EngineBecomes (exec (.microwordWaitEnd e reply) s) s e { eng s e with wait := none, pc := nextPc (eng s e) }) ∧
     (∀ t, w.until_ = some t → s.tick < t → exec (.microwordWaitEnd e reply) s = .next s))

/-- A machine check: TRAP and BR's illegal conditions record cause 4, a CALL beyond eight levels and a return from an empty stack cause 5, a
dispatch through an invalid entry cause 2, a count of 256 steps cause 3. A machine check of a running engine that works on nothing sets
the bit of its cause and ENG_MC_LOG, raises source 1,020, and starts the recovery routine at dispatch entry 0x00, unless it is the third
within one second or strikes in recovery: then the engine is halted. -/
def Obligations.MachineChecksStartRecovery : Prop :=
  (∀ (s : State) (e : Sys2Proof.Engine) (safe : Bool) (t : BitVec 14),
     let en := eng s e
     (MicroReady s e →
       ∃ u, eng u e = stepped en safe ∧ OnlyEngine s u e ∧
         exec (.trap e safe) s = .next (machineCheck u e 4) ∧
         (∀ c : Fin 16, 6 ≤ c.val → exec (.br e safe c t) s = .next (machineCheck u e 4)) ∧
         (8 ≤ en.stack.length → exec (.call e safe t) s = .next (machineCheck u e 5)) ∧
         (en.stack = [] → exec (.ret e safe t) s = .next (machineCheck u e 5)) ∧
         (∀ r : Fin 16, bit (dispEntry s e ((greg en r).toNat % 256)) 15 = false → (greg en r).toNat % 256 < 0xC0 →
           exec (.disp e safe r false) s = .next (machineCheck u e 2))) ∧
     (en.mode ≠ 3 → 256 ≤ en.steps → exec (.safePointOverrun e) s = .next (machineCheck s e 3))) ∧
  (∀ (s : State) (e cause : Nat), e < 50 → 1 ≤ cause → cause ≤ 5 →
     let en := eng s e
     let t := machineCheck s e cause
     en.work = none → en.mode ≠ 2 → en.checks.length < 2 → bit (dispEntry s e 0) 15 = true →
     eng t e = { en with mode := 2, pc := dispEntry s e 0 % 2 ^ 14, stack := [], steps := 0, wait := none, work := none,
                         hook := none, opcode := 0, checks := s.tick :: en.checks } ∧
     rd t (regEngMcLog e) % 2 ^ 32 = (2 ^ 31 + cause * 2 ^ 28 + en.opcode % 256 * 2 ^ 20 + en.pc) % 2 ^ 32 ∧
     bit (rd t (regEngMcStatus e)) (cause - 1) = true ∧
     (isPend s 1020 = false → (tget? t.evc.lines 1020).isSome = true) ∧
     t.dram = s.dram ∧ t.cmds = s.cmds ∧ t.ctx = s.ctx ∧ (∀ f, f ≠ e → eng t f = eng s f))

/-- The TAP instructions. IDCODE shifts out the design version, the part number, the integrator's identity and a 1; SAMPLE/PRELOAD captures
the pins and loads the cells; EXTEST, EXTEST_PULSE, EXTEST_TRAIN select the boundary register, CLAMP and HIGHZ the bypass register, and
all five take the flash pins only while SCAN_EN is high and PORST_N or SRST_N is low, and act as BYPASS at any other time; every other
code acts as BYPASS. Nothing but the port changes. -/
def Obligations.TapInstructions : Prop :=
  ∀ s : State,
    let drives := s.scanEn = true ∧ (s.porstN = false ∨ s.srstN = false)
    (∃ t, exec .idcode s = .next t ∧ t = { s with tap := t.tap } ∧ t.tap.ir = 0x01 ∧
      t.tap.dr = (List.range 32).map (fun i => (1 * 2 ^ 28 + 0x1D32 * 2 ^ 12 + Config.jtagMfg.toNat * 2 ^ 1 + 1).testBit i)) ∧
    (∀ pins cells : List Bool, pins.length = 1664 → cells.length = 1664 →
      ∃ t, exec (.samplePreload pins cells) s = .next t ∧ t = { s with tap := t.tap } ∧ t.tap.ir = 0x02 ∧ t.tap.dr = pins ∧
        t.tap.preload = cells) ∧
    (∀ p ∈ [(Instr.extest, 0x00, 0), (.extestPulse, 0x08, 1), (.extestTrain, 0x09, 2)],
      ∃ t, exec p.1 s = .next t ∧ t = { s with tap := t.tap } ∧ t.tap.ir = p.2.1 ∧ t.tap.preload = s.tap.preload ∧
        (drives → t.tap.dr = s.tap.preload ∧ t.tap.pulse = p.2.2 ∧ actsAsBypass t = false ∧ padCells t = some s.tap.preload) ∧
        (¬drives → t.tap.dr = [false] ∧ actsAsBypass t = true ∧ padCells t = none)) ∧
    (∀ p ∈ [(Instr.clamp, 0x04), (.highz, 0x05)],
      ∃ t, exec p.1 s = .next t ∧ t = { s with tap := t.tap } ∧ t.tap.ir = p.2 ∧ t.tap.dr = [false] ∧
        t.tap.preload = s.tap.preload ∧
        (drives → actsAsBypass t = false ∧ (padsFloat t = true ↔ p.2 = 0x05) ∧ (padCells t = some s.tap.preload ↔ p.2 = 0x04)) ∧
        (¬drives → actsAsBypass t = true ∧ padsFloat t = false ∧ padCells t = none)) ∧
    (∀ code : Byte, code.toNat ∉ [0x00, 0x01, 0x02, 0x04, 0x05, 0x08, 0x09] →
      ∃ t, exec (.bypass code) s = .next t ∧ t = { s with tap := t.tap } ∧ t.tap.ir = code.toNat ∧ t.tap.dr = [false] ∧
        actsAsBypass t = true)

/-- A claim read returns the highest-numbered source of its class offered to the target: it leaves pending (source 1,023 clears the target's
own fault bit) and becomes in service in the entry of its class, and no offer of that class to the target is left. A read with the entry
occupied, or with nothing offered, returns 0 and changes nothing. A write to the fast complete register retires the fast entry that holds
the source; a write to the normal one retires the normal entry that holds the source while the fast entry is empty, and starts the group's
hold-off of 100 × US ticks where US is not 0; any other source sets BAD_COMPLETE; a normal complete under an occupied fast entry is a
stack fault, which retires both entries, starts no hold-off, is logged, and makes source 1,023 pending for the target. -/
def Obligations.ClaimAndCompleteMoveTheHighestEntry : Prop :=
  (∀ (s : State) (t : Target) (fast : Bool), PortFree s →
     let i := if fast then Instr.evcFclaim t else .evcClaim t
     (∀ src, stackOf s fast t = none → topOffer s fast t = some src →
       (∀ o ∈ s.evc.offers, o.2 = t.val → srcFast s o.1 = fast → o.1 ≤ src) ∧
       ∃ u, exec i s = .next u ∧ OnlyEvents s u ∧ u.cpResp = 0 ∧ u.cpRdata = w32 src ∧
         stackOf u fast t = some src ∧ stackOf u (!fast) t = stackOf s (!fast) t ∧
         (src ≠ 1023 → u.evc.pend = terase s.evc.pend src ∧ u.evc.fault = s.evc.fault) ∧
         (src = 1023 → u.evc.pend = s.evc.pend ∧ u.evc.fault = terase s.evc.fault t)) ∧
     (stackOf s fast t ≠ none ∨ topOffer s fast t = none → exec i s = .next { s with cpResp := 0, cpRdata := 0 })) ∧
  (∀ (s : State) (t : Target) (src : Source), PortFree s →
     (tget? s.evc.fast t = some src.val → ∃ u, exec (.evcFcomplete t src) s = .next u ∧ OnlyEvents s u ∧ u.cpResp = 0 ∧
       u.evc.fast = terase s.evc.fast t ∧ u.evc.normal = s.evc.normal ∧ u.evc.pend = s.evc.pend ∧ u.evc.holds = s.evc.holds) ∧
     (tget? s.evc.fast t ≠ some src.val →
       exec (.evcFcomplete t src) s = .next (sticky { s with cpResp := 0 } regEvcStatus 2)) ∧
     (tget? s.evc.fast t = none → tget? s.evc.normal t = some src.val →
       let us := rdf s (regEvcHoldoff (src.val / 16)) 15 0
       ∃ u, exec (.evcComplete t src) s = .next u ∧ OnlyEvents s u ∧ u.cpResp = 0 ∧ u.evc.normal = terase s.evc.normal t ∧
         u.evc.fast = s.evc.fast ∧ u.evc.pend = s.evc.pend ∧
         u.evc.holds = if us = 0 then s.evc.holds else tset s.evc.holds (src.val / 16) (s.tick + 100 * us)) ∧
     (tget? s.evc.fast t = none → tget? s.evc.normal t ≠ some src.val →
       exec (.evcComplete t src) s = .next (sticky { s with cpResp := 0 } regEvcStatus 2)) ∧
     (∀ f, tget? s.evc.fast t = some f → ∃ u, exec (.evcComplete t src) s = .next u ∧ OnlyEvents s u ∧ u.cpResp = 0 ∧
       u.evc.fast = terase s.evc.fast t ∧ u.evc.normal = terase s.evc.normal t ∧ u.evc.holds = s.evc.holds ∧
       u.evc.pend = s.evc.pend ∧ u.evc.fault = tset s.evc.fault t () ∧
       rd u regEvcFaultLog = (2 ^ 31 + t.val * 2 ^ 20 + f * 2 ^ 10 + tget s.evc.normal t 0) % 2 ^ 32 ∧
       rd u (regEvcTfault t) = rd u regEvcFaultLog))

/-- An offer stands only while its source is presentable and its target eligible: after every change of the event controller no other offer is
left. -/
def Obligations.NoOfferOutlivesEligibility : Prop :=
  ∀ (s : State) (all : Bool) (srcs : List Nat),
    ∀ o ∈ (settle s all srcs).evc.offers, offerStands (settle s all srcs) o = true

/-- Writes of ones to the pending registers act on the usable sources of the register's own class and on no other: PSET and FPSET make them
pending, PEND and FPEND clear them. Reserved sources and source 1,023 are ignored. A source's line that has stayed asserted for FILTER
ticks (0 acts as 1) sets its pending bit; a hold-off that has run its ticks ends; TGT_SLEEP is taken over; a write to EVC_SRC configures a
usable source, leaves its pending bit, and lets a change of CLASS wait while the source is pending or in service; reserved sources ignore
it. -/
def Obligations.EventRegistersActOnTheirBank : Prop :=
  (∀ (s : State) (n : Chan) (ones : Word) (fast : Bool), PortFree s →
     let mine (src : Nat) : Prop :=
       src / 32 = n.val ∧ ones.toNat.testBit (src % 32) = true ∧ srcUsable src = true ∧ srcFast s src = fast
     (∃ u, exec (if fast then .evcFpset n ones else .evcPset n ones) s = .next u ∧ OnlyEvents s u ∧ u.cpResp = 0 ∧
       ∀ src, isPend u src = true ↔ (isPend s src = true ∨ mine src)) ∧
     (∃ u, ∃ l : List Nat, exec (if fast then .evcFpendClear n ones else .evcPendClear n ones) s = .next u ∧ OnlyEvents s u ∧ u.cpResp = 0 ∧
       (∀ src, src ∈ l ↔ mine src) ∧ u.evc.pend = l.foldl terase s.evc.pend)) ∧
  (∀ (s : State) (src : Source) (g : Fin 64) (t : Target) (level : Bool) (v : Word),
     (∀ t0, tget? s.evc.lines src = some t0 → t0 + max 1 (bits (srcCfg s src) 23 16) ≤ s.tick →
       ∃ u, exec (.sourceFilterExpiry src) s = .next u ∧ OnlyEvents s u ∧ isPend u src = true ∧
         u.evc.lines = terase s.evc.lines src) ∧
     (∀ t0, tget? s.evc.lines src = some t0 → s.tick < t0 + max 1 (bits (srcCfg s src) 23 16) →
       exec (.sourceFilterExpiry src) s = .next s) ∧
     (∀ t1, tget? s.evc.holds g = some t1 → t1 ≤ s.tick →
       ∃ u, exec (.holdoffExpiry g) s = .next u ∧ OnlyEvents s u ∧ u.evc.holds = terase s.evc.holds g ∧ u.evc.pend = s.evc.pend) ∧
     (∃ u, exec (.tgtSleepChange t level) s = .next u ∧ OnlyEvents s u ∧ u.evc.pend = s.evc.pend ∧
       u.evc.sleep = if level then tset s.evc.sleep t () else terase s.evc.sleep t) ∧
     (PortFree s → srcUsable src = true →
       ∃ u, exec (.evcSrcWrite src v) s = .next u ∧ OnlyEvents s u ∧ u.cpResp = 0 ∧ u.evc.pend = s.evc.pend ∧
         rd u (regEvcSrc src) = v.toNat &&& 0xC0FFFFFF ∧
         (isPend s src = true ∨ inService s src = true → v.getLsbD 30 ≠ srcFast s src → srcFast u src = srcFast s src)) ∧
     (PortFree s → srcUsable src = false → exec (.evcSrcWrite src v) s = .next { s with cpResp := 0 }))

/-- A packet command starts only while it waits for its start, with no block fault, and in the order of FENCE: a fenced one after every
earlier command of its ring, any other while no earlier fenced one of its ring stands. One that may not start stays as it is. -/
def Obligations.CommandsStartInFenceOrder : Prop :=
  ∀ (s : State) (c : Cmd) (op : Nat), cmd? s c.cid = some c →
    (startable s c.cid op = some c ↔ fieldAt c.pkt 0 1 = op ∧ s.blockFault = false ∧ c.issued = false ∧ c.stage = .ready ∧
      (bit (fieldAt c.pkt 1 1) 2 = true → ∀ d ∈ s.cmds, d.ring = c.ring → c.fetchNo ≤ d.fetchNo) ∧
      (bit (fieldAt c.pkt 1 1) 2 = false →
        ∀ d ∈ s.cmds, d.ring = c.ring → d.fetchNo < c.fetchNo → bit (fieldAt d.pkt 1 1) 2 = false)) ∧
    (∀ p ∈ [(0x01, Instr.zoneAppend c.cid), (0x02, .zoneWrite c.cid), (0x03, .zoneRead c.cid), (0x04, .zoneReset c.cid),
        (0x05, .zoneOpen c.cid), (0x06, .zoneClose c.cid), (0x07, .zoneFinish c.cid), (0x08, .zoneFlush c.cid),
        (0x09, .zoneQuery c.cid), (0x10, .layoutDefine c.cid .ok), (0x11, .reshapeBegin c.cid .ok), (0x13, .reshapeAbort c.cid),
        (0x18, .memberFail c.cid), (0x19, .rebuildStart c.cid), (0x1A, .rebuildPause c.cid), (0x1A, .rebuildResume c.cid),
        (0x1B, .spareAssign c.cid .ok), (0x20, .scrubRange c.cid), (0x22, .calibrate c.cid), (0x28, .budgetSet c.cid .ok),
        (0x38, .traceControl c.cid), (0x40, .rawSequence c.cid .ok), (0x41, .rawRead c.cid), (0x42, .rawProgram c.cid),
        (0x43, .rawErase c.cid), (0x48, .wpSet c.cid .ok), (0x50, .powerState c.cid), (0x7F, .echo c.cid)],
      startable s c.cid p.1 = none → exec p.2 s = .next (pump s)) ∧
    (∀ p ∈ [(0x23, Instr.ageingRead c.cid .ok), (0x29, .ringConfigureWrite c.cid .ok), (0x29, .ringConfigureEnable c.cid),
        (0x29, .ringConfigureDisable c.cid), (0x29, .ringConfigureUpdate c.cid .ok), (0x30, .configStage c.cid .ok),
        (0x31, .configCommit c.cid), (0x32, .configAudit c.cid), (0x33, .measureReport c.cid false)],
      startable s c.cid p.1 = none → exec p.2 s = .next s)

/-- PACKET_FETCH takes one turn of the ring whose turn it is: ring 0 first, else the earliest fetch deadline. A packet enters as the 64 bytes
of slot CMD_HEAD, with the deadline of R59 over its base; CMD_HEAD moves on and INFLIGHT rises. A memory-port failure faults the ring with
cause 2, a detection in its context with cause 4. The checks of a fetched packet stop at the first that fails: BAD_OPCODE outside the
opcode table, OPCODE_NOT_PERMITTED without the ring's OPC_MASK bit or for an admin opcode off ring 0, BAD_FIELD with the offset of the
first illegal field, GENERATION_MISMATCH for a GENERATION other than 0 and the scheduler's unless the command's image is illegal,
TENANT_MISMATCH for another tenant's zone. A command for a zone without an OZT entry waits for a fetch of the zone's entries; its end with
the port's failure ends the command, its good end brings the checks of tenant and state. -/
def Obligations.PacketsAreFetchedAndChecked : Prop :=
  (∀ (s : State) (q : Quad) (r : Nat), fetchOpen s q = true → quadRoom s q = true → fetchRing s q = some r →
     (∀ ends, exec (.packetFetch q .ok ends false) s = .next (pump (fetchTurn q r 8 ends s))) ∧
     (∀ mp ends, mp ≠ .ok → ∃ u x, exec (.packetFetch q mp ends false) s = .next (pump (ringFault u r 2)) ∧
       PortGaveUp [(0, cget s r 0 8 / 4096 * 4096 + 64 * cget s r 0x10 2, 64)] mp s u (2 * q) x) ∧
     (∀ mp ends, ∃ u, exec (.packetFetch q mp ends true) s = .next (pump u) ∧ u.cmds = s.cmds ∧ ringFaulted u r = true ∧
       cget u r 0x1A 1 = 4 ∧ (ringRt u r).muted = true) ∧
     (mayFetch s q 0 = true → r = 0) ∧ (mayFetch s q 0 = false → ∀ k ∈ s.ctx.map (fun p => p.1), mayFetch s q k = true →
       fetchKey s r ≤ fetchKey s k) ∧
     (let p := takePacket s q r
      let t := p.1
      let c := p.2
      let h := cget s r 0x10 2
      let us := fieldAt c.pkt 0x0C 2
      let tgt := if us = 0 then cget s r 0x1E 2 else if cget s r 0x1E 2 = 0 then us else min us (cget s r 0x1E 2)
      t.cmds = s.cmds ++ [c] ∧ c.cid = s.nextId ∧ c.ring = r ∧ c.home = q.val ∧ c.stage = .ready ∧ c.issued = false ∧
      c.pkt = dramRead s (cget s r 0 8 / 4096 * 4096 + 64 * h) 64 ∧
      c.base = (ringRt s r).bases.headD 0 ∧ c.deadline = (if tgt = 0 then none else some (c.base + 100 * tgt)) ∧
      cget t r 0x10 2 = (h + 1) % cmdSize s r % 2 ^ 16 ∧ inflight t r = (inflight s r + 1) % 2 ^ 16 ∧ t.dram = s.dram)) ∧
  (∀ (s : State) (c : Cmd), flagChain c = false →
     let t := packetCheck s c .ok
     let op := fieldAt c.pkt 0 1
     let zid := fieldAt c.pkt 8 4 % 2 ^ 19
     let known := op ∈ opcodes
     let allowed := bit (cget s c.ring 0x28 16) op = true ∧
       (c.ring = 0 ∨ op ∉ [0x10, 0x1B, 0x28, 0x29, 0x30, 0x31, 0x48, 0x50])
     let gen := fieldAt c.pkt 4 4
     let tenantBad : Prop :=
       let e := zone s zid
       let ten := cget s c.ring 0x1C 2 % 4096
       ten ≠ 0 ∧ e.state ≠ 0 ∧ ¬(e.tv = true ∧ e.tenant = ten)
     (¬known → t = finish s c.cid { status := 0x1001 }) ∧
     (known → ¬allowed → t = finish s c.cid { status := 0x1003 }) ∧
     (known → allowed →
       (∀ o, fieldCheck s c = some o → t = finish s c.cid { status := 0x1002, detail := o }) ∧
       (fieldCheck s c = none →
         (gen ≠ 0 → gen ≠ qscGen s c.home →
           (lateField s c = none → t = finish s c.cid { status := 0x2002, ra := gen }) ∧
           (∀ u o, lateField s c = some (u, o) → t = finish u c.cid { status := 0x1002, detail := o })) ∧
         (gen = 0 ∨ gen = qscGen s c.home →
           (zoneOpcode op = true → oztIdx? s zid = none → cmd? s c.cid = some c →
             cmd? t c.cid = some { c with stage := .fetching } ∧ (∃ x ∈ t.xfers, x.purpose = .zoneFetch zid) ∧ t.dram = s.dram) ∧
           (zoneOpcode op = true → oztIdx? s zid ≠ none → tenantBad → t = finish s c.cid { status := 0x1004 }) ∧
           (zoneOpcode op = false → t = s) ∧
           (zoneOpcode op = true → oztIdx? s zid ≠ none → zoneCheck s c = none →
             t = modCmd s c.cid (fun c => { c with zone := some zid }))))) ∧
     (∀ port e, s.cmds = [{ c with stage := .fetching }] →
       let u := modCmd s c.cid (fun c => { c with stage := .ready })
       (∀ d a i, e = .error d a i →
         zoneFetched s port zid e = finish u c.cid { status := 0x6001, ra := d, rb := a, detail := i * 2 ^ 16 + port }) ∧
       (∀ d a i, e = .timeout d a i →
         zoneFetched s port zid e = finish u c.cid { status := 0x6002, ra := d, rb := a, detail := i * 2 ^ 16 + port }) ∧
       (e = .ok → zoneOpcode op = true →
         (tenantBad → zoneFetched s port zid e = finish u c.cid { status := 0x1004 }) ∧
         (zoneCheck u c = none → zoneFetched s port zid e = modCmd u c.cid (fun c => { c with zone := some zid })))))

/-- A command whose result is known, whose data transfers have all been answered and whose journal entries are durable writes its completion:
32 bytes in one beat to slot CPL_TAIL of its ring's completion ring, through the even port of its home quadrant, with the ring's phase;
CPL_TAIL moves on and the phase inverts where it wraps. Until then nothing is written. The event of a completion: a failure raises it at
once; a success under NO_EVENT raises none; another success raises it when COAL_COUNT unsignalled completions have accumulated, 0 and 1
meaning every completion; COAL_TICKS after the first of them raises it too, unless it is 0. -/
def Obligations.CompletionsArePostedAndCoalesced : Prop :=
  (∀ (s : State) (c : Cmd), cmd? s c.cid = some c → c.stage = .ending → c.posted = false →
     let t := tryComplete s c.cid
     let slot := cget s c.ring 0x14 2
     (s.xfers.any (carries c.cid) = false → c.needSeq ≤ s.jrn.durable → (ringRt s c.ring).muted = false → slot < cplSize s c.ring →
       ∃ b : Burst, (port t (2 * c.home)).waiting = (port s (2 * c.home)).waiting ++ [b] ∧ b.write = true ∧ b.clsA = true ∧
         b.addr = cget s c.ring 0x08 8 / 4096 * 4096 + 32 * slot ∧ b.len = 32 ∧ beatsOf b.addr b.len = 1 ∧
         b.data.length = 32 ∧ fieldAt b.data 0x00 2 = fieldAt c.pkt 2 2 % 2 ^ 16 ∧ fieldAt b.data 0x02 2 = c.res.status % 2 ^ 16 ∧
         fieldAt b.data 0x04 2 = cget s c.ring 0x10 2 ∧ fieldAt b.data 0x06 1 = ringPhase s c.ring ∧
         fieldAt b.data 0x08 4 = c.gen % 2 ^ 32 ∧ fieldAt b.data 0x0C 4 = c.res.ra % 2 ^ 32 ∧ fieldAt b.data 0x10 8 = c.res.rb % 2 ^ 64 ∧
         fieldAt b.data 0x18 4 = c.res.detail % 2 ^ 32 ∧ fieldAt b.data 0x1C 4 = s.tick % 2 ^ 32 ∧
         cget t c.ring 0x14 2 = (if slot + 1 = cplSize s c.ring then 0 else slot + 1) ∧
         ringPhase t c.ring = (if slot + 1 = cplSize s c.ring then 1 - ringPhase s c.ring else ringPhase s c.ring) ∧
         t.dram = s.dram) ∧
     (s.xfers.any (carries c.cid) = true ∨ s.jrn.durable < c.needSeq → t = s)) ∧
  (∀ (s : State) (c : Cmd),
     let rt := ringRt s c.ring
     let clear := modRing s c.ring (fun r => { r with unsig := 0 })
     (0x0200 ≤ c.res.status → completionEvent s c = raiseRing clear c.evt) ∧
     (c.res.status < 0x0200 → bit (fieldAt c.pkt 1 1) 3 = true → completionEvent s c = s) ∧
     (c.res.status < 0x0200 → bit (fieldAt c.pkt 1 1) 3 = false → c.coalN ≤ rt.unsig + 1 → completionEvent s c = raiseRing clear c.evt) ∧
     (c.res.status < 0x0200 → bit (fieldAt c.pkt 1 1) 3 = false → rt.unsig + 1 < c.coalN →
       OnlyRing s (completionEvent s c) c.ring ∧ (ringRt (completionEvent s c) c.ring).unsig = rt.unsig + 1) ∧
     (16 ≤ c.evt → c.evt ≤ 767 → raiseRing clear c.evt = raise clear c.evt) ∧
     (∀ r : Ring,
       (0 < (ringRt s r).unsig → 0 < (ringRt s r).unsigLim → (ringRt s r).unsigAt + (ringRt s r).unsigLim ≤ s.tick →
         exec (.coalTicksExpiry r) s = .next (raiseRing (modRing s r (fun x => { x with unsig := 0 })) (ringRt s r).unsigEvt)) ∧
       ((ringRt s r).unsigLim = 0 → exec (.coalTicksExpiry r) s = .next s)))

/-- A doorbell to an enabled ring is latched, the latest value of each kind, with the tick of the earliest CMD_TAIL not yet consumed; in RUN
and TRIM nothing else changes. A doorbell to a ring whose ENABLE is 0 is discarded and counted. The home scheduler takes a latched
CMD_TAIL below the ring's size, and a latched CPL_HEAD that lies from CPL_HEAD forward to CPL_TAIL; any other value is not taken, and the
ring faults with cause 1: FAULT and FAULT_CAUSE are set, GLB_RING_FAULT names the ring, the fault is counted, no other bit of the context
changes, and the ring fetches nothing. -/
def Obligations.DoorbellsAreLatchedAndConsumed : Prop :=
  (∀ (s : State) (r : Ring) (v : BitVec 16), PortFree s →
     (ringEnabled s r = true → rdf s regPwrState 1 0 ≤ 1 → rdf s regPwrState 31 28 = 0 →
       (∃ t, exec (.doorbellCmdTail r v) s = .next { t with cpResp := 0 } ∧ OnlyRing s t r ∧ t.ctx = s.ctx ∧
         ringRt t r = { ringRt s r with
           latTail := some v.toNat,
           latTick := if (ringRt s r).latTail.isSome then (ringRt s r).latTick else s.tick }) ∧
       (∃ t, exec (.doorbellCplHead r v) s = .next { t with cpResp := 0 } ∧ OnlyRing s t r ∧ t.ctx = s.ctx ∧
         ringRt t r = { ringRt s r with latHead := some v.toNat })) ∧
     (ringEnabled s r = false → ∀ i ∈ [Instr.doorbellCmdTail r v, .doorbellCplHead r v],
       ∃ t, exec i s = .next t ∧ t = { s with regs := t.regs, cpResp := 0 } ∧
         rdf t regGlbDbDiscardCount 15 0 = min 65535 (rdf s regGlbDbDiscardCount 15 0 + 1) ∧
         ∀ a, a ≠ regGlbDbDiscardCount → rd t a = rd s a)) ∧
  (∀ (s : State) (r : Ring) (v : Nat), ringEnabled s r = true → qscRuns s (homeOf s r) = true →
     let faulted (u : State) (t : State) : Prop := t = ringFault u r 1 ∧ ringFaulted t r = true ∧ cget t r 0x1A 1 = 1 ∧
       rd t regGlbRingFault = 2 ^ 31 + 2 ^ 16 + r.val ∧
       rdf t regGlbRingFaultCount 7 0 = min 255 (rdf s regGlbRingFaultCount 7 0 + 1) ∧ (∀ q, mayFetch t q r = false) ∧
       (∀ b, b < 512 → b ≠ 0x19 * 8 + 3 → ¬(0x1A * 8 ≤ b ∧ b < 0x1B * 8) → (tget t.ctx r 0).getLsbD b = (tget s.ctx r 0).getLsbD b)
     ((ringRt s r).latTail = some v →
       let u := modRing s r (fun x => { x with latTail := none })
       if v < cmdSize s r then ∃ t, exec (.doorbellConsume r false) s = .next t ∧ cget t r 0x12 2 = v % 2 ^ 16 ∧
         t = { s with ctx := t.ctx, rings := t.rings, free := t.free } ∧ (ringRt t r).latTail = none ∧
         (∀ o n, 0 < n → o + n ≤ 0x12 ∨ 0x14 ≤ o → o + n ≤ 64 → cget t r o n = cget s r o n)
       else ∃ t, exec (.doorbellConsume r false) s = .next t ∧ faulted u t) ∧
     ((ringRt s r).latHead = some v →
       let n := cplSize s r
       let u := modRing s r (fun x => { x with latHead := none })
       if v < n ∧ (v + n - cget s r 0x16 2) % n ≤ (cget s r 0x14 2 + n - cget s r 0x16 2) % n then
         exec (.doorbellConsume r true) s = .next (cset u r 0x16 2 v) ∧ cget (cset u r 0x16 2 v) r 0x16 2 = v % 2 ^ 16
       else ∃ t, exec (.doorbellConsume r true) s = .next t ∧ faulted u t))

/-- A control-port write to the context of a disabled ring takes the writable bits of its word; one that sets ENABLE puts CMD_HEAD, CMD_TAIL,
CPL_TAIL, CPL_HEAD and INFLIGHT to 0, PHASE to 1, FAULT and FAULT_CAUSE to 0, and discards latched doorbells. On an enabled ring the word
at 0x18 with ENABLE 0 disables it, at once where nothing is in flight; any other write is an error. RING_CONFIGURE. Action 0 takes the
image into the context of a disabled ring, but for the fields that only the block writes, with BAD_FIELD for a SIZE of 1 to 3 or an event
source outside 16 to 767 other than 0, and STATE_CONFLICT on an enabled ring; action 1 enables a disabled ring, is BAD_FIELD where its
context holds a SIZE of 1 to 3, and else a STATE_CONFLICT on an enabled one; action 2 clears ENABLE and completes at INFLIGHT 0; action 3
takes LAT_CLASS, TARGET_US, EVT, COAL_COUNT, COAL_TICKS and OPC_MASK. Each completes with the ring and its INFLIGHT; an image that the
memory port could not fetch ends the command with the port's status. -/
def Obligations.RingContextsAreConfigured : Prop :=
  (∀ (s : State) (addr : Nat) (v : Word), addr < 2 ^ 22 → PortFree s → domOn s 93 = true →
     let r := addr / 64
     let w := addr % 64 / 4
     let x := { s with cpResp := 0 }
     (ringEnabled s r = false → (w ≠ 6 ∨ v.getLsbD 8 = false) →
       ∃ t, exec (.ringContextWrite addr v 15) s = .next t ∧ OnlyRing x t r ∧
         ∀ b, b < 512 → (tget t.ctx r 0).getLsbD b =
           if b / 32 = w ∧ bit (ctxMask w) (b % 32) then v.getLsbD (b % 32) else (tget s.ctx r 0).getLsbD b) ∧
     (ringEnabled s r = false → w = 6 → v.getLsbD 8 = true → badSize (v.toNat % 256) = false →
       ∃ t, exec (.ringContextWrite addr v 15) s = .next t ∧ OnlyRing x t r ∧ ringRt t r = {} ∧
         cget t r 0x10 2 = 0 ∧ cget t r 0x12 2 = 0 ∧ cget t r 0x14 2 = 0 ∧ cget t r 0x16 2 = 0 ∧ cget t r 0x38 2 = 0 ∧
         ringEnabled t r = true ∧ ringPhase t r = 1 ∧ ringFaulted t r = false ∧ cget t r 0x1A 1 = 0 ∧ cget t r 0x18 1 = v.toNat % 256) ∧
     (ringEnabled s r = true → (ringRt s r).draining = false → w = 6 → v.getLsbD 8 = false →
       ∃ t, exec (.ringContextWrite addr v 15) s = .next t ∧ OnlyRing x t r ∧
         (inflight s r = 0 → ringEnabled t r = false) ∧
         (inflight s r ≠ 0 → t.ctx = s.ctx ∧ ringRt t r = { ringRt s r with draining := true })) ∧
     (ringEnabled s r = true → ((ringRt s r).draining = true ∨ w ≠ 6 ∨ v.getLsbD 8 = true) →
       exec (.ringContextWrite addr v 15) s = .next { s with cpResp := 1 })) ∧
  (∀ (s : State) (cid : Nat) (c : Cmd), startable s cid 0x29 = some c →
     let r := fieldAt c.pkt 0x28 2
     let act := bits (fieldAt c.pkt 0x28 8) 17 16
     let img := dramRead s (fieldAt c.pkt 0x18 8) 64
     let u := running s cid
     let done (t : State) : Result := { ra := r, rb := inflight t r }
     (act = 0 →
       EndsOnPort (fun mp => exec (.ringConfigureWrite cid mp) s) u c 64 ∧
       (badSize (fieldAt img 0x18 1) = true ∨ evtOk img = false →
         EndsWith (exec (.ringConfigureWrite cid .ok) s) u cid { status := 0x1002, detail := 0x18 }) ∧
       (badSize (fieldAt img 0x18 1) = false → evtOk img = true → ringEnabled s r = true →
         EndsWith (exec (.ringConfigureWrite cid .ok) s) u cid { status := 0x2001 }) ∧
       (badSize (fieldAt img 0x18 1) = false → evtOk img = true → ringEnabled s r = false →
         ∃ t, EndsWith (exec (.ringConfigureWrite cid .ok) s) t cid (done t) ∧ OnlyRing u t r ∧
           CtxTakes u t r [(12, 52), (76, 52), (0x18 * 8, 8), (0x1B * 8, 3), (0x1C * 8, 12), (0x1E * 8, 16), (0x20 * 8, 10),
             (0x22 * 8, 2), (0x23 * 8, 8), (0x24 * 8, 32), (0x28 * 8, 128)] img)) ∧
     (act = 1 →
       (badSize (cget s r 0x18 1) = true →
         EndsWith (exec (.ringConfigureEnable cid) s) u cid { status := 0x1002, detail := 0x28 }) ∧
       (badSize (cget s r 0x18 1) = false → ringEnabled s r = true →
         EndsWith (exec (.ringConfigureEnable cid) s) u cid { status := 0x2001 }) ∧
       (ringEnabled s r = false → badSize (cget s r 0x18 1) = false →
         EndsWith (exec (.ringConfigureEnable cid) s) (ringEnable u r) cid (done (ringEnable u r)) ∧
         ringEnabled (ringEnable u r) r = true ∧ inflight (ringEnable u r) r = 0 ∧ OnlyRing u (ringEnable u r) r)) ∧
     (act = 2 → ∃ t, OnlyRing u t r ∧ ringEnabled t r = false ∧ (∀ q, mayFetch t q r = false) ∧
       (inflight s r = 0 → EndsWith (exec (.ringConfigureDisable cid) s) t cid (done t)) ∧
       (inflight s r ≠ 0 → exec (.ringConfigureDisable cid) s = .next (pump (modCmd t c.cid (fun c => { c with stage := .waiting }))))) ∧
     (act = 3 →
       EndsOnPort (fun mp => exec (.ringConfigureUpdate cid mp) s) u c 64 ∧
       (evtOk img = false → EndsWith (exec (.ringConfigureUpdate cid .ok) s) u cid { status := 0x1002, detail := 0x18 }) ∧
       (evtOk img = true → ∃ t, EndsWith (exec (.ringConfigureUpdate cid .ok) s) t cid (done t) ∧ OnlyRing u t r ∧
         CtxTakes u t r [(0x1B * 8, 3), (0x1E * 8, 16), (0x20 * 8, 10), (0x23 * 8, 8), (0x24 * 8, 32), (0x28 * 8, 128)] img)))

/-- ECHO returns its parameters. TRACE_CONTROL writes the mask of the trace FIFO it selects and nothing else. WP_SET copies its 512-byte image
into all 128 WP_MASK registers and returns the LUNs it protects. ZONE_QUERY returns the zone's write pointer, tenant and append point, and
writes the zone's entry where DATA_PTR is not 0, through a port of the quadrant that owns the zone's member 0 (its even one: the model's
choice, log entry 26); a zone its checks refuse ends it with their result. A write of 1 to GLB_MEAS_EXT extends MEAS7 with the 48 bytes of
GLB_MEAS_DIG0 to 11 and appends one log entry, whose generation and length fields the manual leaves open; with the log full it only sets
LOG_FULL. JRN_CMD action 1 on a failure group that awaits restart with no layout bound writes a LAYOUT entry with DISCARD 1, after which
the records found for the group are gone; the group awaits restart no more once that entry is durable. On any other group it only sets
DISCARD_REFUSED. -/
def Obligations.CommandsThatEndAtOnce : Prop :=
  (∀ (s : State) (cid : Nat) (c : Cmd),
     let u := running s cid
     (startable s cid 0x7F = some c →
       EndsWith (exec (.echo cid) s) u cid { ra := fieldAt c.pkt 0x28 4, rb := fieldAt c.pkt 0x30 8 }) ∧
     (startable s cid 0x38 = some c →
       let k := bits (fieldAt c.pkt 0x28 8) 34 32
       ∃ t, EndsWith (exec (.traceControl cid) s) t cid { ra := k } ∧ rd t (regTrcMask k) = fieldAt c.pkt 0x28 4 ∧
         OnlyRegs u t [regTrcMask k]) ∧
     (startable s cid 0x48 = some c →
       let img := dramRead s (fieldAt c.pkt 0x18 8) 512
       let prot (n : Nat) : Bool := (img.getD (n / 8) 0).getLsbD (n % 8)
       EndsOnPort (fun mp => exec (.wpSet cid mp) s) u c 512 ∧
       ∃ t, EndsWith (exec (.wpSet cid .ok) s) t cid { ra := ((List.range 4096).filter prot).length } ∧
         (∀ n, n < 4096 → bit (rd t (regWpMask (n / 32))) (n % 32) = prot n) ∧ OnlyRegs u t ((List.range 128).map regWpMask)) ∧
     (startable s cid 0x09 = some c →
       let zid := fieldAt c.pkt 8 4 % 2 ^ 19
       let e := zone s zid
       let d := fieldAt c.pkt 0x18 8
       (∀ r, zoneCheck u c = some r → EndsWith (exec (.zoneQuery cid) s) u cid r) ∧
       (zoneCheck u c = none →
         EndsWith (exec (.zoneQuery cid) s) (if d = 0 then u else writeOutAt u (2 * zoneQuad u zid) c d (packZone e) 3) cid
           { ra := e.wp, rb := e.tenant * 2 ^ 32 + e.appendPt }))) ∧
  (∀ s : State, PortFree s →
     let x := { s with cpResp := 0 }
     let d := (List.range 12).flatMap (fun i => leBytes 4 (rd s (regGlbMeasDig i)))
     (s.cfg.log.length < 4096 →
       ∃ (t : State) (e : LogEntry), exec .glbMeasExt s = .next t ∧ t = { x with cfg := t.cfg, free := t.free } ∧
         t.cfg = { s.cfg with log := s.cfg.log ++ [e], logSeq := s.cfg.logSeq + 1, meas := t.cfg.meas } ∧
         e.reg = 7 ∧ e.kind = 8 ∧ e.seq = s.cfg.logSeq ∧ e.digest = d ∧ d.length = 48 ∧
         meas t 7 = sha384 (meas s 7 ++ d) ∧ ∀ k, k ≠ 7 → meas t k = meas s k) ∧
     (4096 ≤ s.cfg.log.length → exec .glbMeasExt s = .next (cfgFlag x 1))) ∧
  (∀ (s : State) (fg : BitVec 16), PortTakes s regJrnCmd →
     let g := group s fg.toNat
     let x := { s with cpResp := 0 }
     (g.await = true → g.layout = none → s.jrn.stopped = false →
       let u := jrnAppend x { seq := 0, typ := 0x08, fg := fg.toNat, arg2 := 2 ^ 16 }
       ∃ t, exec (.jrnCmdDiscard fg) s = .next (pump t) ∧ t = { u with jrn := t.jrn } ∧
         t.jrn = { u.jrn with
           found := u.jrn.found.filter (fun e => !(decide (e.fg = fg.toNat) && ofGroup e)),
           discards := tset u.jrn.discards fg.toNat s.jrn.seq } ∧
         (s.jrn.scanned = false → u.jrn.seq = s.jrn.seq + 1 ∧ u.jrn.backlog = s.jrn.backlog ++
           [{ seq := s.jrn.seq, typ := 0x08, fg := fg.toNat, arg2 := 2 ^ 16, pfail := s.jrn.pfActive }])) ∧
     (g.await = false ∨ g.layout ≠ none → exec (.jrnCmdDiscard fg) s = .next (pump (jrnFlag x 7))) ∧
     (∀ t : State, (group t fg.toNat).await = true → (group t fg.toNat).layout = none →
       (∀ e ∈ t.jrn.found, e.fg = fg.toNat → ofGroup e = false) → tget t.jrn.discards fg.toNat 0 < t.jrn.durable →
       (group (discardsDone t) fg.toNat).await = false))

/-- Registers act by their access codes: RO and RC ignore a write, RW takes the bits that are not reserved, RWL takes them until CONFIG_COMMIT
and answers an error after it, a one clears its bit of a W1C register; WO reads zero, and so does an address with no register. Before the
memory fill, in a reset, or with byte enables other than all ones the port answers an error. A read of GLB_TICK_LO, JRN_SEQ_LO,
JRN_DURABLE_LO or GLB_AGE_NOW_LO answers the low half and latches the upper half in the same access, so that the two halves give one
value: the tick counter, the next SEQ, the highest durable SEQ, the timeline. A read of GLB_ADVICE0 removes the oldest advice and latches
its location in GLB_ADVICE1; with none it reads 0. A read of ENG_CS_DATA answers the microword at ENG_CS_ADDR of the bank it selects,
latches its parity, and advances the address modulo 16,384. A read of an RC counter answers its value and leaves the increment of the same
access, if any, its reserved bits 0. An access to a register of a domain that is not on. In RUN and TRIM the access first raises the
domain: it is held, and when the domain's last acknowledge brings it on, the access acts as on a register whose domain was on. In DROWSE
and FURL it answers an error and the domain stays as it is. -/
def Obligations.RegistersActByAccessCode : Prop :=
  (∀ (s : State) (a : Nat) (v : Word), a % 4 = 0 → a < 0x200000 →
     let x := { s with cpResp := 0 }
     let m (r : RegRow) : Nat := v.toNat &&& r.mask
     let write : Out := exec (.registerWrite a v 15 0) s
     (PortTakes s a → ∀ r : RegRow, regRow? a = some r → cmdWrite x a v.toNat 0 = none →
       (r.acc = .ro ∨ r.acc = .rc → write = .next (pump x)) ∧
       (r.acc = .rw ∨ r.acc = .rwl ∧ s.committed = false →
         ∃ t, write = .next (pump t) ∧ OnlyRegs x t [a] ∧ rd t a = m r % 2 ^ 32) ∧
       (r.acc = .rwl → s.committed = true → write = .next (pump { s with cpResp := 1 })) ∧
       (r.acc = .w1c → ∃ t, write = .next (pump t) ∧ OnlyRegs x t [a] ∧
         ∀ b, b < 32 → bit (rd t a) b = (bit (rd s a) b && !(v.getLsbD b)))) ∧
     (PortTakes s a → (∀ r, regRow? a = some r → r.acc = .wo) → a ∉ [regGlbTickLo, regJrnSeqLo, regJrnDurableLo, regGlbAgeNowLo, regGlbAdvice0] →
       (0x100000 ≤ a → a % 0x4000 ≠ 0x24) → exec (.registerRead a 15) s = .next { x with cpRdata := 0 }) ∧
     (PortTakes s a → ∀ r, regRow? a = some r → r.acc = .rw ∨ r.acc = .w1c ∨ r.acc = .rwl → viewReg x a = none →
       exec (.registerRead a 15) s = .next { x with cpRdata := w32 (rd s a) }) ∧
     (∀ be : BitVec 4, cpDead s = true ∨ be ≠ 15 → exec (.registerWrite a v be 0) s = .next (pump { s with cpResp := 1 }) ∧
       ∃ t, exec (.registerRead a be) s = .next t ∧ t = { s with cpResp := 1, cpRdata := t.cpRdata, free := t.free })) ∧
  ((∀ s : State, PortFree s →
     Latches .glbTickLoRead s regGlbTickHi s.tick ∧
     Latches .glbAgeNowLoRead s regGlbAgeNowHi ((s.tick + (rd s regGlbAgeOffsetHi * 2 ^ 32 + rd s regGlbAgeOffsetLo)) % 2 ^ 64) ∧
     (domOn s 92 = true → Latches .jrnSeqLoRead s regJrnSeqHi s.jrn.seq ∧ Latches .jrnDurableLoRead s regJrnDurableHi (s.jrn.durable - 1))) ∧
   (∀ v : Nat, v < 2 ^ 64 → v / 2 ^ 32 % 2 ^ 32 * 2 ^ 32 + v % 2 ^ 32 = v)) ∧
  (∀ s : State, PortFree s →
     (∀ (zid g b cause : Nat) (r : List (Nat × Nat × Nat × Nat)), s.age.advice = (zid, g, b, cause) :: r →
       ∃ t, exec .glbAdvice0Read s = .next t ∧ t.age = { s.age with advice := r } ∧
         t.cpRdata = w32 (2 ^ 31 + cause * 2 ^ 28 + zid % 2 ^ 19) ∧ rd t regGlbAdvice1 = (g * 2 ^ 12 + b) % 2 ^ 32 ∧
         OnlyRegs { s with cpResp := 0, cpRdata := t.cpRdata, age := t.age } t [regGlbAdvice1]) ∧
     (s.age.advice = [] → exec .glbAdvice0Read s = .next { s with cpResp := 0, cpRdata := 0 }) ∧
     (∀ e : Engine, PortTakes s (regEngCsData e) →
       let a := rd s (regEngCsAddr e)
       let bank := if bit a 14 then otherSlot s e else tget s.cfg.cur e {}
       let w := tget bank.words (a % 2 ^ 14) 0
       ∃ t, exec (.engCsDataRead e) s = .next t ∧ t.cpRdata = w ∧ rdf t (regEngCsAddr e) 13 0 = (a + 1) % 2 ^ 14 ∧
         rdf t (regEngCsAddr e) 31 14 = rdf s (regEngCsAddr e) 31 14 ∧
         (∀ i, i < 4 → bit (rd t (regEngCsPar e)) i = (popcount 8 (bits w.toNat (8 * i + 7) (8 * i)) % 2 == 0)) ∧
         OnlyRegs { s with cpResp := 0, cpRdata := w } t [regEngCsAddr e, regEngCsPar e]) ∧
     (∀ (a : Nat) (coin : Word) (row : RegRow), a % 4 = 0 → a < 0x200000 → PortTakes s a → regRow? a = some row → row.acc = .rc →
       a ≠ regGlbAdvice0 → (a < 0x10800 ∨ 0x10C00 ≤ a) → (∀ q : Quad, a ≠ regHopSliceLow q) →
       ∃ t, exec (.rcCounterRead a coin) s = .next t ∧ t.cpRdata = w32 (rd s a) ∧ rd t a = coin.toNat &&& row.mask ∧
         OnlyRegs { s with cpResp := 0, cpRdata := t.cpRdata } t [a])) ∧
  (∀ (s : State) (a : Nat) (v : Word) (d : Nat), a % 4 = 0 → a < 0x200000 → regDoms a = [d] → domOn s d = false → absentChan s d = false →
     let held (w : Bool) (n : Nat) : CpAcc := { write := w, addr := a, value := n, coin := 0 }
     (PortFree s → rdf s regPwrState 1 0 ≤ 1 →
       exec (.registerWrite a v 15 0) s = .next (pump { domUse s d with cpWait := some (held true v.toNat) }) ∧
       exec (.registerRead a 15) s = .next { domUse s d with cpWait := some (held false 0) } ∧
       (dom (domUse s d) d).goal = 0 ∧ (dom (domUse s d) d).idleAt = s.tick) ∧
     (∀ (n : Domain) (ret level : Bool) (h : CpAcc), s.cpWait = some h → h.addr = a →
       let u := domAck s n.val ret level
       (domOn u d = false → absentChan u d = false → exec (.domainHandshakeAck n ret level) s = .next (pump u)) ∧
       (domOn u d = true → u.cpWait = some h →
         let x := { u with cpWait := none, cpResp := 0 }
         (∀ w, h = held true w → exec (.domainHandshakeAck n ret level) s = .next (pump (pump (writeReg x a w 0)))) ∧
         (h = held false 0 →
           let y := readReg x a 0
           exec (.domainHandshakeAck n ret level) s = .next (pump { y.1 with cpRdata := w32 y.2 })))) ∧
     (PortFree s → 1 < rdf s regPwrState 1 0 → exec (.registerWrite a v 15 0) s = .next (pump { s with cpResp := 1 }) ∧
       ∃ t, exec (.registerRead a 15) s = .next t ∧ t = { s with cpResp := 1, cpRdata := t.cpRdata, free := t.free }))

/-- A write of 1 to GLB_CFG_CMD.DISCARD while STAGED is 1 and no commit is in progress empties every next slot, clears STAGED and logs a
DISCARD entry; at any other time it is ignored, and with the log full it only sets LOG_FULL. -/
def Obligations.DiscardEmptiesTheNextSlots : Prop :=
  ∀ s : State, PortFree s →
    let x := { s with cpResp := 0 }
    (s.cfg.staged = true → s.cfg.commitCid = none → s.cfg.log.length < 4096 →
      ∃ (t : State) (e : LogEntry), exec .glbCfgCmdDiscard s = .next t ∧ t = { x with cfg := t.cfg } ∧
        t.cfg = { s.cfg with next := [], staged := false, nextGen := 0, log := s.cfg.log ++ [e], logSeq := s.cfg.logSeq + 1, meas := t.cfg.meas } ∧
        e.reg = 6 ∧ e.kind = 9 ∧ e.gen = s.cfg.nextGen ∧ e.seq = s.cfg.logSeq ∧ e.digest = sha384 (leBytes 4 s.cfg.nextGen) ∧
        meas t 6 = sha384 (meas s 6 ++ e.digest) ∧ ∀ k, k ≠ 6 → meas t k = meas s k) ∧
    (s.cfg.staged = true → s.cfg.commitCid = none → 4096 ≤ s.cfg.log.length → exec .glbCfgCmdDiscard s = .next (cfgFlag x 1)) ∧
    (s.cfg.staged = false ∨ s.cfg.commitCid ≠ none → exec .glbCfgCmdDiscard s = .next x)

/-- PHY_CMD actions 1 to 3 on a channel with no training and its PLL locked: a quick retrain on the present rung, full training on the top
rung (rung 6 where dies of both interfaces are mixed), and, RAISE_FAILS cleared, a raise attempt one rung up on a DERATED channel below
its top rung. On any other channel they act once its training has ended (the model's choice, log entry 75). A channel that enters RETRAIN
raises its event, ends the data-out in progress and hands its waiting reads to reconstruction. A training starts on the rung and of the
kind given, before it abandoning unconfirmed transfers by RESET_LUN and resuming suspended operations; while the PLL is unlocked it waits
for the lock. -/
def Obligations.CommandsStartTraining : Prop :=
  (∀ (s : State) (c : Chan), PortTakes s (regPhyCmd c) →
     let x := { s with cpResp := 0 }
     let y := wrf x (regPhyState c) 3 2 0
     let free : Prop := chanState s c ≠ 1 ∧ (phy s c).train = .none ∧ (phy s c).unlocked = false
     (free →
       exec (.phyCmdQuickRetrain c) s = .next (pump (startTrain x c .quick (chanRung s c))) ∧
       exec (.phyCmdFullTraining c) s = .next (pump (startTrain x c .full (if (phy s c).mixed then 6 else topRung x c))) ∧
       (chanState s c = 2 → (phy s c).mixed = false → topRung y c < chanRung s c →
         exec (.phyCmdRaiseAttempt c) s =
           .next (pump (startTrain (modPhy y c (fun p => { p with oldRung := chanRung s c })) c .raise (chanRung s c - 1)))) ∧
       (chanState s c ≠ 2 ∨ (phy s c).mixed = true ∨ chanRung s c ≤ topRung y c →
         exec (.phyCmdRaiseAttempt c) s = .next (pump y))) ∧
     (¬free →
       let later (u : State) (n : Nat) : Out := .next (pump (modPhy u c (fun p => { p with asked := p.asked ++ [n] })))
       exec (.phyCmdQuickRetrain c) s = later x 1 ∧ exec (.phyCmdFullTraining c) s = later x 2 ∧
       exec (.phyCmdRaiseAttempt c) s = later y 3)) ∧
  (∀ (s : State) (c : Chan) (kind : Train) (rung : Nat), rung < 8 →
     let e := enterRetrain s c
     let t := startTrain s c kind rung
     (chanState s c = 1 → e = s) ∧
     (chanState s c ≠ 1 → ∃ u, e = retrainReads u c ∧ chanState u c = 1 ∧ (phy u c).since = s.tick ∧
       (∀ d, d ≠ c.val → phy u d = phy s d) ∧ u.dram = s.dram ∧ u.cmds = s.cmds ∧ u.items = s.items ∧ u.luns = s.luns ∧
       u.ops.map (fun o => o.phase) = s.ops.map (fun o => o.phase)) ∧
     ((phy e c).unlocked = false → (phy t c).train = kind ∧ (phy t c).rung = rung ∧ (phy t c).pend = none ∧
       t = modPhy (switchRung (settleBus e c) c rung) c (fun p => { p with train := kind, rung := rung, pend := none })) ∧
     ((phy e c).unlocked = true → t = modPhy e c (fun p => { p with pend := some (kind, rung) })) ∧
     (∀ o ∈ s.ops,
       (∃ p ∈ (abandon s o).ops, p.id = o.id ∧ p.pages = 0 ∧ (p.phase = .waiting ∨ p.phase = .granted)) ∧
       (∀ at_, o.phase = .stopped at_ ∨ o.phase = .stopping at_ →
         ∃ p ∈ (retrainResume s o).ops, p.id = o.id ∧ p.phase = .busy ∧ p.resumeAt = s.tick)) ∧
     (∀ g, (tget? s.luns g).isSome = true → (tget (resetLun s g).luns g {}).shadow = none ∧
       (tget (resetLun s g).buses (chOf g) {}).bytes = lunBytes s g 0x22 0 0))

/-- What starts a quick retrain of a channel in service: a link check that fails, PHY_QUICK_IVL ticks since the last pass, and the lock of a
PLL that had lost it (a channel never trained goes on with the training that waited). A link check reads the parameter page of the chip
enable's training LUN; without one it does nothing. A loss of lock only sets PLL_UNLOCK and holds the channel in RETRAIN; it never changes
the rung nor fences it. A raise attempt runs one rung up, unless NO_RAISE is set or three attempts in a row have failed. -/
def Obligations.TriggersOfTraining : Prop :=
  ∀ (s : State) (c : Chan),
    let up : Prop := chanState s c = 0 ∨ chanState s c = 2
    let ready : Prop := up ∧ domOn s (32 + c.val) = true ∧ (leavingOp s c).isNone = true
    (∀ (ce : Fin 16) (rest : List Nat) (g : Nat), ready → trainLun s c ce = some g →
      (phy s c).linkAll = ce.val :: rest → ce.val ∉ rest →
      let u := linkRead (modPhy s c (fun p => { p with linkAll := rest })) g
      exec (.linkCheck c ce true) s = .next (pump u) ∧
      ∃ v, exec (.linkCheck c ce false) s = .next (pump (startTrain v c .quick (chanRung s c))) ∧
        v = { u with regs := v.regs } ∧ bit (rd v (regPhyStatus c)) 0 = true) ∧
    (let n := max 1 (phy s c).trained.length
     ready → (phy s c).linkAll = [] → (phy s c).linkAt + rd s (regPhyLinkIvl c) / n ≤ s.tick →
      ∀ (ce : Fin 16) (g : Nat), (phy s c).trained.getD (phy s c).linkNext 16 = ce.val → trainLun s c ce = some g →
        exec (.linkCheck c ce true) s =
          .next (pump (linkRead (modPhy s c (fun p => { p with linkAt := s.tick, linkNext := ((phy s c).linkNext + 1) % n })) g))) ∧
    (∀ (ce : Fin 16) (pass : Bool), trainLun s c ce = none → exec (.linkCheck c ce pass) s = .next (pump s)) ∧
    ((phy s c).lastPass + rd s (regPhyQuickIvl c) ≤ s.tick →
      (up → exec (.quickRetrainPeriod c) s = .next (pump (startTrain s c .quick (chanRung s c)))) ∧
      (¬up → exec (.quickRetrainPeriod c) s = .next (pump s))) ∧
    (chanState s c ≠ 3 → ∃ u v, exec (.pllUnlock c) s = .next (pump v) ∧ u = { s with regs := u.regs } ∧
      bit (rd u (regPhyStatus c)) 7 = true ∧ (∀ a, a ≠ regPhyStatus c → a ≠ regPhyCount1 c → rd u a = rd s a) ∧
      v = modPhy (enterRetrain u c) c (fun p => { p with
        unlocked := true, train := .none, pend := if p.train = .none then p.pend else some (p.train, p.rung) })) ∧
    (chanState s c = 3 → ∃ v, exec (.pllUnlock c) s = .next (pump v) ∧ chanState v c = 3 ∧ chanRung v c = chanRung s c ∧
      (phy v c).unlocked = true) ∧
    ((phy s c).unlocked = true →
      let u := modPhy s c (fun p => { p with unlocked := false, pend := none })
      (chanState s c = 1 → trainCes s c ≠ [] →
        ((phy s c).kept ≠ [] ∨ (phy s c).pend = none → exec (.pllLock c) s = .next (pump (startTrain u c .quick (chanRung s c)))) ∧
        (∀ k n, (phy s c).kept = [] → (phy s c).pend = some (k, n) → exec (.pllLock c) s = .next (pump (startTrain u c k n)))) ∧
      (chanState s c ≠ 1 ∨ trainCes s c = [] → exec (.pllLock c) s = .next (pump u))) ∧
    (chanState s c = 2 → (phy s c).mixed = false → topRung s c < chanRung s c →
      (phy s c).raiseAt + rd s (regPhyRaiseMs c) * 100000 ≤ s.tick → bit (rd s (regPhyCfg c)) 16 = false →
      rdf s (regPhyState c) 3 2 < 3 →
      exec (.raiseAttempt c) s =
        .next (pump (startTrain (modPhy s c (fun p => { p with oldRung := chanRung s c })) c .raise (chanRung s c - 1)))) ∧
    (bit (rd s (regPhyCfg c)) 16 = true ∨ rdf s (regPhyState c) 3 2 = 3 → exec (.raiseAttempt c) s = .next (pump s))

/-- A quick retrain passes when there are trained chip enables, each passes within 8 taps of its stored values, and the impedance calibration
did not end at a limit; else full training follows on the rung. Full training passes when every chip enable does, and follows again when
its calibration ended at a limit; a failed raise attempt counts and returns to the old rung by a quick retrain; up to CE_DROP failing chip
enables are dropped, their LUNs FAILED; else the channel steps down a rung, and on rung 6 it is fenced. Without a training LUN for each
chip enable nothing ends. What PHY_CMD asked for meanwhile follows. A chip enable passes when every step found a window and, above rung 6,
both eyes reach PHY_MARGIN_MIN. A training that passes leaves the channel on its rung with the values kept: UP on its effective top rung,
DERATED below it or with dies of both interfaces; PHY_STATE shows that top rung and the chip enables that passed. -/
def Obligations.TrainingEnds : Prop :=
  (∀ (s : State) (c : Chan) (zq : Byte × Byte) (zqEnd : Bool) (ces : List CeTrain),
     let p := phy s c
     let bad (l : List Nat) (got : List CeTrain) : List Nat := l.filter (fun e => !((passedCes s c p.rung got).contains e))
     let logged (x : State) (hi lo : Nat) : Prop := x = { s with regs := x.regs, free := x.free } ∧
       rdf x (regPhyRetrains c) hi lo = min 65535 (rdf s (regPhyRetrains c) hi lo + 1) ∧
       rd x (regPhyZq c) = 2 ^ 31 + zq.1.toNat * 2 ^ 8 + zq.2.toNat ∧ (zqEnd = true → bit (rd x (regPhyStatus c)) 6 = true) ∧
       ∀ a, a < chanBase c + 0x1024 ∨ chanBase c + 0x1200 ≤ a → rd x a = rd s a
     let then_ (t : State) : Out := .next (pump (phyAsked t c))
     (∀ t, (phy t c).asked = [] → phyAsked t c = t) ∧
     (let l := p.trained.filter (fun e => (trainCes s c).contains e)
      let got := (trainGot l ces).map (within8 s c)
      let o := exec (.quickRetrainDone c zq zqEnd ces) s
      p.train = .quick →
       (canTrain s c ((trainCes s c).filter (fun e => p.trained.contains e)) = false → o = .next (pump s)) ∧
       (canTrain s c ((trainCes s c).filter (fun e => p.trained.contains e)) = true → ∃ x, logged x 15 0 ∧
         (bad l got = [] → l ≠ [] → zqEnd = false → o = then_ (trainPass x c p.rung got)) ∧
         (bad l got ≠ [] ∨ l = [] ∨ zqEnd = true → o = then_ (startTrain x c .full p.rung)))) ∧
     (let l := trainCes s c
      let got := trainGot l ces
      let drop := rdf s (regPhyCfg c) 15 12
      let o := exec (.fullTrainingDone c zq zqEnd ces) s
      let good (x : State) : State :=
        if zqEnd then startTrain (trainPass x c p.rung got) c .full p.rung else trainPass x c p.rung got
      let sum := ((passedCes s c p.rung got).map (fun e => 2 ^ e)).sum % 2 ^ 16
      (p.train = .full ∨ p.train = .raise → canTrain s c l = false → o = .next (pump s)) ∧
      (p.train = .full → canTrain s c l = true →
        ∃ x, logged x 31 16 ∧
          (bad l got = [] → o = then_ (good x)) ∧
          (bad l got ≠ [] → (bad l got).length ≤ drop → (bad l got).length < l.length →
            o = then_ (good (((goodLuns s c).filter (fun g => (bad l got).contains (ceOf g))).foldl lunFail (phyFlag x c 4)))) ∧
          (bad l got ≠ [] → drop < (bad l got).length ∨ l.length ≤ (bad l got).length →
            ∃ y, y = { x with regs := y.regs, phys := y.phys } ∧ bit (rd y (regPhyStatus c)) 2 = true ∧
              rdf y (regPhyState c) 31 16 = sum ∧
              (p.rung < 6 → o = then_ (startTrain y c .full (p.rung + 1)) ∧ (phy y c).raiseAt = s.tick ∧
                bit (rd y (regPhyStatus c)) 3 = true) ∧
              (6 ≤ p.rung → o = then_ (fence y c)))) ∧
      (p.train = .raise → canTrain s c l = true →
        ∃ x, logged x 31 16 ∧
          (bad l got = [] → o = then_ (good (wrf x (regPhyState c) 3 2 0))) ∧
          (bad l got ≠ [] → ∃ y, o = then_ (startTrain y c .quick p.oldRung) ∧ (phy y c).raiseAt = s.tick ∧
            y = { x with regs := y.regs, phys := y.phys } ∧ bit (rd y (regPhyStatus c)) 2 = true ∧
            rdf y (regPhyState c) 3 2 = min 3 (rdf s (regPhyState c) 3 2 + 1))))) ∧
  (∀ (s : State) (c : Chan) (rung : Nat) (ces : List CeTrain),
     (∀ r : CeTrain, cePasses s c rung r = true ↔ r.window = true ∧ (rung = 6 ∨
       rdf s (regPhyMarginMin c) 7 0 ≤ r.readEye ∧ rdf s (regPhyMarginMin c) 15 8 ≤ r.writeEye)) ∧
     ∃ u, trainPass s c rung ces = govEvaluate u ∧
       chanState u c = (if rung = topRung s c ∧ (phy s c).mixed = false then 0 else 2) ∧ chanRung u c = chanRung s c ∧
       rdf u (regPhyState c) 10 8 = topRung s c ∧
       rdf u (regPhyState c) 31 16 = ((passedCes s c rung ces).map (fun e => 2 ^ e)).sum % 2 ^ 16 ∧
       (phy u c).train = .none ∧ (phy u c).rung = rung ∧ (phy u c).lastPass = s.tick ∧ (phy u c).passTemp = chTemp s c ∧
       (phy u c).trained = passedCes s c rung ces ∧ tget (phy u c).kept rung [] = ces.filter (cePasses s c rung) ∧
       (∀ d, d ≠ c.val → phy u d = phy s d) ∧ u.dram = s.dram ∧ u.cmds = s.cmds)

/-- A copy of the option area is unlocked by its two keys, the second within 1,000 ticks of the first; any other second write leaves it locked
and sets OA_KEY, a 0 too. Unlocking relocks any other copy; a write of 0 and 100,000,000 ticks relock. -/
def Obligations.OptionAreaNeedsBothKeys : Prop :=
  ∀ (s : State) (v : Word) (n : Nat), PortFree s → n < 4 →
    let x := { s with cpResp := 0 }
    let shut := { x with boot := { s.boot with key := none, armed := false } }
    (s.boot.key = none → v.toNat = 0x0A5E0000 + n →
      exec (.oaUnlockFirstKey v) s =
        .next (pump { x with boot := { s.boot with key := some n, keyAt := s.tick, armed := true } })) ∧
    (s.boot.key = some n → s.boot.armed = true → v.toNat = 0xF5A10000 + n → s.tick < s.boot.keyAt + 1000 →
      exec (.oaUnlockSecondKey v) s =
        .next (pump { shut with boot := { shut.boot with unlock := some n, openAt := s.tick } })) ∧
    (s.boot.key = some n → s.boot.armed = true → v.toNat ≠ 0 → v.toNat ≠ 0xF5A10000 + n ∨ s.boot.keyAt + 1000 ≤ s.tick →
      exec (.oaUnlockSecondKey v) s = .next (pump (wpFlag shut 1))) ∧
    (s.boot.key = none → exec .oaRelock s = .next (pump { x with boot := { s.boot with armed := false, unlock := none } })) ∧
    (s.boot.key = some n →
      exec .oaRelock s = .next (pump { wpFlag x 1 with boot := { s.boot with key := none, armed := false, unlock := none } })) ∧
    (s.boot.armed = true → s.boot.keyAt + 1000 ≤ s.tick →
      exec .oaKeyWindowExpiry s = .next { s with boot := { s.boot with armed := false } }) ∧
    (s.boot.key = some n → s.boot.armed = false → v.toNat = 0xF5A10000 + n → exec (.oaUnlockSecondKey v) s = .next (pump (wpFlag shut 1))) ∧
    (s.boot.unlock = some n → s.boot.openAt + 100000000 ≤ s.tick →
      exec .oaUnlockExpiry s = .next (pump { s with boot := { s.boot with unlock := none } })) ∧
    (s.tick < s.boot.openAt + 100000000 → exec .oaUnlockExpiry s = .next (pump s))

/-- What the resets leave. PORST_N: the tick counter at 0, every register at its reset value, no command, context, journal or configuration.
SRST_N: the tick counter, the BOOT_ registers marked kept, the retirement mappings and the journal buffer stay as well, and the contexts
until the notices are written. SoC memory, the pins and requests already raised are outside both. -/
def Obligations.ResetsLeaveWhatTheTableSays : Prop :=
  ∀ s : State,
    let alike (t : State) : Prop := t.cmds = [] ∧ t.rings = [] ∧ t.ozt = [] ∧ t.cfg = {} ∧ t.engines = State.reset.engines ∧ t.traces = [] ∧
      t.groups = [] ∧ t.luns = [] ∧ t.rows = [] ∧ t.ops = [] ∧ t.evc = { sleep := s.evc.sleep } ∧ t.committed = false ∧ t.filled = false ∧ t.aliveOn = false ∧
      t.alive = false ∧ t.blockFault = false ∧ t.boot = {} ∧ t.dram = s.dram ∧ t.pending = s.pending ∧ t.tap = s.tap ∧ t.pfailN = s.pfailN ∧
      (∀ p ∈ t.ports, ∃ q ∈ s.ports, p.2.gasket = q.2.gasket ++ q.2.out ∧ p.2.out = [] ∧ p.2.waiting = [])
    (∃ t, exec .porstNFall s = .next t ∧ alike t ∧ t.porstN = false ∧ t.srstN = s.srstN ∧ t.tick = 0 ∧ t.ctx = [] ∧
      t.regs = State.reset.regs ∧ t.slots = [] ∧ t.jrn.kept = []) ∧
    (∃ t, exec .srstNFall s = .next t ∧ alike t ∧ t.srstN = false ∧ t.porstN = s.porstN ∧ t.tick = s.tick ∧ t.ctx = s.ctx ∧
      (∀ a ∈ [regBootImgBaseLo, regBootImgBaseHi, regBootOaRead], rd t a = rd s a) ∧
      (∀ a, a ∉ [regBootImgBaseLo, regBootImgBaseHi, regBootOaRead, regBootState] → rd t a = rd State.reset a) ∧ phase t = 0 ∧
      (∀ p ∈ t.slots, ∃ q ∈ s.slots, p = (q.1, { retired := q.2.retired })) ∧
      t.jrn.kept = s.jrn.kept ++ (s.jrn.pages.filter (fun p => !(pageDurable s.jrn p))).flatMap (fun p => p.entries)) ∧
    (let rise (p r : Bool) : State := { s with
       porstN := p, srstN := r, paceAt := s.tick, freqAt := s.tick, jrn := { s.jrn with pfHold := !s.pfailN } }
     exec .porstNRise s = .next (rise true s.srstN) ∧ exec .srstNRise s = .next (rise s.porstN true))

/-- The timebase: bring-up leaves step 2 once GLB_PACE.VALID is 1 and a comparison window has ended without TREF_FREQ; TREF_FREQ stops it with
PHASE 15 and TIMEBASE set. A pace window writes the count and raises the pace event below the floor; with every PHY domain off no
comparison runs. The loss of TREF stops counters and admission and raises the timebase event; its return lets the counters go on. -/
def Obligations.TimebaseAndPace : Prop :=
  ∀ s : State,
    (∃ t, exec .trefLost s = .next (raise t 1018) ∧ t.trefStop = true ∧ t.gov = { s.gov with stopped := true } ∧
      bit (rd t regGlbTbStatus) 0 = true ∧ paceValid t = false ∧ viewReg t regGlbPace = some (rdf s regGlbPace 15 0) ∧
      t = { s with regs := t.regs, trefStop := true, gov := t.gov }) ∧
    exec .trefReturn s = .next { s with trefStop := false } ∧
    (s.freqAt + 65536 ≤ s.tick → s.trefStop = false → rd s (regPwrOn 1) ≠ 0 →
      exec (.trefFreqWindow true) s = .next (bringupAdvance (sticky { s with freqAt := s.tick } regGlbTbStatus 1)) ∧
      exec (.trefFreqWindow false) s =
        .next (bringupAdvance { s with freqAt := s.tick, boot := { s.boot with freqOk := true } })) ∧
    (rd s (regPwrOn 1) = 0 → ∀ d, exec (.trefFreqWindow d) s = .next s) ∧
    (∀ n : BitVec 16, s.paceAt + 1024 ≤ s.tick → s.trefStop = false →
      ∃ t, rdf t regGlbPace 15 0 = n.toNat ∧ (bit (rd s regGlbTbStatus) 0 = false → paceValid t = true) ∧
        OnlyRegs { s with paceAt := s.tick } t [regGlbPace] ∧
        (n.toNat < rdf s regGlbPaceFloor 15 0 → exec (.paceWindowEnd n) s = .next (bringupAdvance (raise t 1017))) ∧
        (rdf s regGlbPaceFloor 15 0 ≤ n.toNat → exec (.paceWindowEnd n) s = .next (bringupAdvance t))) ∧
    (phase s ≤ 1 →
      (bit (rd s regGlbTbStatus) 1 = true → phase (bringupAdvance s) = 15 ∧ bit (rd (bringupAdvance s) regBootStatus) 0 = true) ∧
      (bit (rd s regGlbTbStatus) 1 = false → s.filled = true → paceValid s = true → s.boot.freqOk = true →
        phase (bringupAdvance s) = 2) ∧
      (bit (rd s regGlbTbStatus) 1 = false → s.boot.freqOk = false → phase (bringupAdvance s) ≤ 1))

/-- The steps of bring-up that end at a command, each in its phase only: PHYs up on rung 6 with their calibration valid, discovery with its
chip enables recorded and the domains of empty channels off, training, the release of the engines with the journal's placement check, and
the ready indication with its tick and IX_ALIVE. The end of the memory fill writes a notice to each enabled ring that had commands in
flight and no fault of cause 3 or 4, with COMMAND_ID 0xFFFF, ABORTED_BY_RESET, INFLIGHT in RESULT_A and the ring's phase, and then clears
the millpond; a ring whose kept context was found damaged gets none, and is recorded as not recovered; the port answers from then on. A
reset held, or a fill already ended, and nothing happens. The load of generation 0. BOOT_CMD action 1 in PHASE 4 takes the good copy of
the highest OSEQ, falling back to the next where its body or items fail; with none, bring-up stops in PHASE 15 with OA_NONE. Action 2
takes the image at BOOT_IMG_BASE, in PHASE 4 or after such a stop; a bad image leaves it stopped. At any other phase a write is ignored.
The end of the load measures the image into MEAS0, makes generation 0 current and starts training on every channel with LUNs. -/
def Obligations.BringupRunsInOrder : Prop :=
  (∀ (s : State) (found : List CeFound),
     (phase s = 2 → ∃ t, exec .bringupPhyUp s = .next t ∧ phase t = 3 ∧ t = { s with regs := t.regs, free := t.free } ∧
       (∀ c, c < 32 → bit (rd t (regPhyZq c)) 31 = true) ∧
       ∀ a, a ≠ regBootState → (∀ c, c < 32 → a ≠ regPhyZq c ∧ a ≠ regPhyStatus c ∧ a ≠ regPhyCount1 c) → rd t a = rd s a) ∧
     (phase s = 3 → ∃ t, exec (.dieDiscoveryDone found) s = .next t ∧ phase t = 4 ∧ t.boot.found = found.map clampLuns ∧
       t = { s with regs := t.regs, boot := t.boot } ∧
       (∀ f ∈ found, 0 < f.luns → bit (rd t (regBootCeFound (f.ch % 32))) (f.ce % 16) = true) ∧
       (∀ c, c < 32 → (∀ f ∈ found, f.ch % 32 = c → f.luns = 0) → domOn t c = false ∧ domOn t (32 + c) = false)) ∧
     (phase s = 6 → (∀ p ∈ s.phys, p.2.train = .none ∧ p.2.pend = none ∧
         (p.2.unlocked = true → goodLuns s p.1 = [] ∨ chanState s p.1 ≠ 1)) → ∃ t, exec .bringupTrainingDone s = .next t ∧ phase t = 7 ∧ OnlyRegs s t [regBootState]) ∧
     (phase s = 7 → s.boot.released = false →
       let u := { s with boot := { s.boot with released := true } }
       (placeOk u = false → ∃ t, exec .engineRelease s = .next t ∧ t.jrn = { s.jrn with stopped := true } ∧
         bit (rd t regJrnStatus) 5 = true ∧ t.boot = u.boot) ∧
       (placeOk u = true → s.jrn.copies = [] → ∃ t, exec .engineRelease s = .next t ∧ t = { u with jrn := t.jrn } ∧ t.jrn.stopped = false ∧
         t.jrn.mode = rdf s regJrnCtrl 8 8 ∧ t.jrn.copies.map (fun p => p.1) = [0, 1, 2])) ∧
     (phase s = 7 → s.boot.released = true →
       ∃ t, exec .readyIndication s = .next t ∧ phase t = 8 ∧ rd t regBootReadyTick = s.tick % 2 ^ 32 ∧
         OnlyRegs { s with aliveOn := true, aliveAt := s.tick } t [regBootState, regBootReadyTick]) ∧
     (phase s ≠ 2 → exec .bringupPhyUp s = .next s) ∧ (phase s ≠ 3 → exec (.dieDiscoveryDone found) s = .next s) ∧
     (phase s ≠ 6 → exec .bringupTrainingDone s = .next s) ∧
     (phase s ≠ 7 → exec .engineRelease s = .next s ∧ exec .readyIndication s = .next s)) ∧
  (∀ (s : State) (bad fails : List Nat),
     (s.filled = false → s.porstN = true → s.srstN = true →
       let v := bad.foldl (fun s r => if (tget? s.ctx r).isSome then unrecoveredAny s 3 0 2 else s) s
       ∃ u, exec (.memoryFillDone bad fails) s = .next (bringupAdvance { u with filled := true, ctx := [] }) ∧
         u = ((v.ctx.map (fun p => p.1)).filter (fun r => ringEnabled v r && decide (0 < inflight v r) &&
           !([3, 4].contains (cget v r 0x1A 1)) && !(bad.contains r) && !(fails.contains r))).foldl notice v) ∧
     (s.filled = true ∨ s.porstN = false ∨ s.srstN = false → exec (.memoryFillDone bad fails) s = .next s) ∧
     (∀ r : Nat, 
       let t := notice s r
       let a := cget s r 0x08 8 / 4096 * 4096 + 32 * cget s r 0x14 2
       let b := dramRead t a 32
       fieldAt b 0 2 = 0xFFFF ∧ fieldAt b 2 2 = 0xF002 ∧ fieldAt b 4 2 = cget s r 0x10 2 ∧ fieldAt b 6 1 = ringPhase s r ∧ fieldAt b 7 1 = 0 ∧
       fieldAt b 8 4 = 0 ∧ fieldAt b 0x0C 4 = inflight s r ∧
       rdf t regBootState 15 0 = min 65535 (rdf s regBootState 15 0 + 1) ∧ t.ctx = s.ctx ∧ t.evc = s.evc ∧
       ∀ x, x < 2 ^ 64 → (∀ i, i < 32 → x ≠ (a + i) % 2 ^ 64) → dramByte t x = dramByte s x)) ∧
  (∀ (s : State) (copies : List OaCopy), PortFree s →
     let x := { s with cpResp := 0 }
     let stopped (t : State) : Prop := phase t = 15 ∧ bit (rd t regBootStatus) 2 = true ∧ t.boot = { s.boot with oaNone := true }
     (phase s = 4 →
       (oaOrder copies = [] → ∃ t, exec (.bootCmdLoadOptionArea copies) s = .next t ∧ stopped t) ∧
       (∀ (n : Nat) (c : OaCopy) (rest : List (Nat × OaCopy)), oaOrder copies = (n, c) :: rest → c.bodyOk = true →
         oaBodyOk c.header c.body = true → oaItemsOk s c.header c.body = true →
         ∃ t, exec (.bootCmdLoadOptionArea copies) s = .next t ∧ phase t = 5 ∧ rdf t regBootState 26 24 = n % 8 ∧
           t = { x with regs := t.regs, boot := { s.boot with image := c.header ++ c.body, fromDram := false } } ∧
           rd t regBootStatus = rd s regBootStatus)) ∧
     (phase s ≠ 4 → exec (.bootCmdLoadOptionArea copies) s = .next x) ∧
     (let h := dramRead s (imgBase s) 4096
      let body := if oaLen h ≤ 1048576 then dramRead s (imgBase s + 4096) (oaLen h) else []
      let good := oaHeaderOk h && oaBodyOk h body && oaItemsOk x h body
      (phase s = 4 ∨ phase s = 15 ∧ s.boot.oaNone = true → good = true →
        ∃ t, exec .bootCmdLoadImage s = .next t ∧ phase t = 5 ∧ OnlyRegs { x with boot := t.boot } t [regBootState] ∧
          t.boot = { s.boot with image := h ++ body, fromDram := true, oaNone := false }) ∧
      (phase s = 4 → good = false → ∃ t, exec .bootCmdLoadImage s = .next t ∧ stopped t) ∧
      (phase s = 15 → good = false → exec .bootCmdLoadImage s = .next x)) ∧
     (phase s ≠ 4 → phase s ≠ 15 → exec .bootCmdLoadImage s = .next x) ∧
     (phase s = 5 →
       let g := loadGen0 s
       let p := poolReserves g
       let u := s.boot.found.foldl matchCe { p with boot := { p.boot with image := [] }, luns := [] }
       exec .optionAreaLoadDone s = .next (setPhase ((List.range 32).foldl trainStart u) 6) ∧
       (s.cfg.log.length < 4096 → ∃ (e : LogEntry) (rest : List LogEntry), g.cfg.log = s.cfg.log ++ e :: rest ∧
         e.reg = 0 ∧ e.kind = 7 ∧ e.gen = 0 ∧ e.digest = sha384 s.boot.image) ∧
       g.dram = (if s.boot.fromDram then s else dramWrite s (imgBase s) s.boot.image).dram ∧
       (oaItemsOk s (s.boot.image.take 4096) (s.boot.image.drop 4096) = true → s.cfg.log.length < 4096 →
         g.cfg.curGen = 0 ∧ g.cfg.prev = [])) ∧
     (phase s ≠ 5 → exec .optionAreaLoadDone s = .next s))

/-- PFAIL_N low for FILTER ticks starts the handling: PFAIL_ACTIVE and JRN_STATUS.PFAIL set, the power-fail event raised, then the steps of
the handling; a shorter pulse has no effect. STAGE_BY ticks after the fall the stagings not yet durable are abandoned. PFAIL_N high for
FILTER ticks ends a handling that has reached its last step, and ends the hold after a reset. While MEM_HOLD is high no port raises a
request, and every other handshake of the ports goes on; when it falls the requests that wait are issued in their order. A furled patrol
that it has held for HOLD_MAX abandons the visits of its quadrant and sets FURL_SKIP. IX_ALIVE inverts at a tick whose count is a multiple
of 1,024 from the ready indication on, but not while TREF is lost or after a block fault. A trace port presents the oldest unread word of
its FIFO and moves on, and 0 where there is none or its domain is off; a FIFO with words that none has read for TRC_TIMEOUT ticks sets
TIMEOUT and raises its event. -/
def Obligations.PinsActOnTheBlock : Prop :=
  (∀ (s : State) (t : Nat),
     let filter := max 1 (rdf s regJrnPfail 7 0)
     (s.pfailN = true → exec .pfailNFall s = .next { s with pfailN := false, jrn := { s.jrn with
       pfLow := if s.jrn.pfActive then s.jrn.pfLow else some s.tick, pfHigh := none } }) ∧
     (s.pfailN = false → s.jrn.pfLow = some t → s.jrn.pfActive = false → s.porstN = true → s.srstN = true →
       rdf s regPwrState 31 30 = 0 → rdf s regPwrState 1 0 ≤ 1 → s.pwr.step ≠ .patrol →
       (s.tick < t + filter → exec .powerFailWarning s = .next s) ∧
       (t + filter ≤ s.tick → ∃ u, exec .powerFailWarning s = .next (pump (pfailSteps (raise u 1021))) ∧
         u = { s with regs := u.regs, jrn := { s.jrn with pfActive := true, pfSleep := false } } ∧ bit (rd u regJrnStatus) 0 = true ∧
         ∀ a, a ≠ regJrnStatus → a ≠ regJrnCount0 → rd u a = rd s a)) ∧
     (s.jrn.pfActive = true → s.jrn.pfSleep = false → s.jrn.pfFlush = false → s.jrn.pfLow = some t →
       t + rdf s regJrnPfail 31 8 ≤ s.tick →
       ∃ u, exec .pfailStageByExpiry s = .next (pump u) ∧
         u.stagings = s.stagings.filter (fun g => !(s.stagings.any (fun h => decide (h.sid = g.sid) && h.move.isNone && !h.reshape))) ∧
         (∀ r ∈ u.rows, ∀ sid, r.staging = some sid → ∀ g ∈ s.stagings, g.sid = sid → g.move.isSome = true ∨ g.reshape = true) ∧
         u.jrn = s.jrn ∧ u.cmds = s.cmds) ∧
     (s.pfailN = false → exec .pfailNRise s = .next { s with pfailN := true, jrn := { s.jrn with
       pfLow := if s.jrn.pfActive then s.jrn.pfLow else none, pfHigh := some s.tick } }) ∧
     (s.pfailN = true → s.jrn.pfHigh = some t → s.porstN = true → s.srstN = true →
       (s.tick < t + filter → exec .pfailHighFilterExpiry s = .next s) ∧
       (t + filter ≤ s.tick →
         (s.jrn.pfDone = true → ∃ u, exec .pfailHighFilterExpiry s = .next (pump u) ∧ u = { s with jrn := u.jrn } ∧
           u.jrn.pfActive = false ∧ u.jrn.pfDone = false ∧ u.jrn.pfHold = false ∧ u.jrn.pfLow = none) ∧
         (s.jrn.pfDone = false → exec .pfailHighFilterExpiry s = .next (pump { s with jrn := { s.jrn with pfHold := false } })))) ∧
     (s.jrn.pfActive = true → s.jrn.pfSleep = false → ∀ q : Quad, fetchOpen s q = false)) ∧
  (∀ (s : State),
     (s.memHold = true → ∀ n : Port, exec (.mpBurstIssue n) s = .next s) ∧
     (s.memHold = false → s.pwr.step ≠ .patrol → exec .memHoldRise s = .next { s with memHold := true, pwr := { s.pwr with heldAt := none } }) ∧
     (s.memHold = false → s.pwr.step = .patrol →
       exec .memHoldRise s = .next { s with memHold := true, pwr := { s.pwr with heldAt := some s.tick } }) ∧
     (s.memHold = true → exec .memHoldFall s = .next { s with memHold := false, pwr := { s.pwr with heldAt := none } }) ∧
     (∀ (q : Quad) (t : Nat), s.pwr.step = .patrol → s.memHold = true → s.pwr.heldAt = some t → 0 < tget s.pwr.visits q 0 →
       t + 1000 * rdf s regGlbAgeFurl 15 0 ≤ s.tick →
       ∃ u, exec (.furlPatrolHoldExpiry q) s = .next (pump u) ∧ bit (rd u regGlbAgeStatus) 6 = true ∧ tget u.pwr.visits q 0 = 0 ∧
         (∀ k : Quad, k ≠ q → tget u.pwr.visits k 0 = tget s.pwr.visits k 0) ∧
         u.items = s.items.filter (fun i => !(decide (quadOf i.glun = q.val) &&
           i.use.all (fun u => match u with | .patrol _ => true | _ => false))) ∧ u.cmds = s.cmds ∧ u.dram = s.dram)) ∧
  (∀ (s : State) (k : Fin 5),
     let f := traceSt s k
     let fill := (f.wr + 2 ^ 15 - f.rd) % 2 ^ 15
     (s.aliveOn = true → s.trefStop = false → s.blockFault = false → s.tick % 1024 = 0 → s.aliveAt ≠ s.tick →
       exec .ixAliveToggle s = .next { s with alive := !s.alive, aliveAt := s.tick }) ∧
     (s.aliveOn = false ∨ s.trefStop = true ∨ s.blockFault = true ∨ s.tick % 1024 ≠ 0 → exec .ixAliveToggle s = .next s) ∧
     (domOn s (traceDom k) = true → fill ≠ 0 → s.porstN = true → s.srstN = true →
       exec (.tracePortRead k) s = .next { s with traces := tset s.traces k { f with
         out := w32 (tget f.mem (f.rd % 2 ^ 14) 0), rd := (f.rd + 1) % 2 ^ 15, lastRead := s.tick } }) ∧
     (domOn s (traceDom k) = false ∨ fill = 0 ∨ s.porstN = false ∨ s.srstN = false →
       exec (.tracePortRead k) s = .next { s with traces := tset s.traces k { f with out := 0 } }) ∧
     (rd s (regTrcTimeout k) ≠ 0 → fill ≠ 0 → domOn s (traceDom k) = true → f.lastRead + rd s (regTrcTimeout k) ≤ s.tick →
       ∃ u, exec (.traceTimeout k) s = .next (raise u (1001 + k)) ∧ bit (rd u (regTrcStatus k)) 1 = true ∧
         u = { s with regs := u.regs, traces := tset s.traces k { f with lastRead := s.tick } }) ∧
     (rd s (regTrcTimeout k) = 0 ∨ fill = 0 → exec (.traceTimeout k) s = .next s))

/-- A port issues the next burst where it has a free tag and fewer than 63 bursts outstanding, with the hint of its slack: class A goes before
class B, and class A in deadline order. The acknowledge of the request lets its beats follow; a write beat of class A goes before any of
class B; nothing else of the port changes. A response beat to an outstanding burst counts; a read beat with a good CRC and status adds its
bytes, a write beat with a good status is a write to SoC memory, an erring beat is logged with its address. A burst with no erring beat
ends; one with an erring beat is issued again up to RETRY times and then ends its transfer with MEMPORT_ERROR. A burst with no acknowledge
or status for MEM_TIMEOUT ticks ends its transfer with MEMPORT_TIMEOUT, sets TIMEOUT and quarantines its tag for the beats still owed;
before that nothing happens. -/
def Obligations.BurstsAreIssuedAndEnded : Prop :=
  (∀ (s : State) (n : Port),
     let p := port s n
     (∀ (tag : Nat) (b : Burst) (g c : Nat), s.memHold = false → s.porstN = true → s.srstN = true → p.raised = none → p.out.length < 63 →
       freeTag p = some tag → nextBurst s p = some (b, g, c) →
       ∃ t, exec (.mpBurstIssue n) s = .next t ∧ t = { s with ports := t.ports } ∧ (∀ k, k ≠ n.val → port t k = port s k) ∧
         port t n = { p with
           waiting := p.waiting.filter (fun w => !(sameBurst w b)), raised := some tag, group := g, credit := c,
           out := p.out ++ [{ tag := tag, burst := b, urg := urgency s b, since := s.tick }] } ∧
         b ∈ p.waiting ∧ tag < 64 ∧ (∀ o ∈ p.out, o.tag ≠ tag) ∧ tget? p.quar tag = none ∧
         (b.clsA = false → ∀ w ∈ p.waiting, w.clsA = false) ∧
         (∀ d, b.clsA = true → b.deadline = some d → ∀ w ∈ p.waiting, w.clsA = true → ∀ e, w.deadline = some e → d ≤ e) ∧
         (b.real = false → urgency s b = 0) ∧
         (∀ d, b.real = true → b.deadline = some d → d < s.tick + rdf s regGovUrg 15 0 → urgency s b = 3)) ∧
     (p.raised ≠ none ∨ 63 ≤ p.out.length → exec (.mpBurstIssue n) s = .next s) ∧
     (∀ tag, p.raised = some tag → p.gasket = [] →
       ∃ t, exec (.mpRequestAccept n) s = .next t ∧ t = { s with ports := t.ports } ∧ (port t n).raised = none ∧
         (port t n).waiting = p.waiting ∧ (port t n).out.map (fun o => (o.tag, o.burst)) = p.out.map (fun o => (o.tag, o.burst)) ∧
         (∀ o, (port t n).out.find? (fun o => o.tag = tag) = some o → o.acked = true ∧ o.since = s.tick)) ∧
     (p.raised = none → exec (.mpRequestAccept n) s = .next s) ∧
     (∀ o : OutBurst, p.gasket = [] → nextWrite p = some o →
       ∃ t, exec (.mpWriteBeatAccept n) s = .next t ∧ t = { s with ports := t.ports, xfers := t.xfers, regs := t.regs } ∧
         o.acked = true ∧ o.burst.write = true ∧ (o.burst.clsA = false → ∀ w ∈ p.out, unsent w = true → w.burst.clsA = false) ∧
         rd t (regMemPortBeats n) = min (2 ^ 32 - 1) (rd s (regMemPortBeats n) + 1) ∧
         (∀ w, (port t n).out.find? (fun w => w.tag = o.tag) = some w → ∃ v ∈ p.out, v.tag = o.tag ∧ w.sent = v.sent + 1))) ∧
  (∀ (s : State) (n : Port) (tag : Fin 64) (stat : BitVec 2) (data : List Byte) (crc : BitVec 16) (o : OutBurst),
     let p := port s n
     let b := o.burst
     let i := o.answered
     let last := beatsOf b.addr b.len ≤ i + 1
     let part := beatPart b i
     let good := stat = 0 ∧ (b.write = false → crc16 (slice data 0 64) = crc.toNat)
     let step : Out := exec (.mpResponseBeat n tag stat data crc) s
     (p.gasket.find? (fun x => x.tag = tag.val) = none → tget? p.quar tag = none →
       p.out.find? (fun x => decide (x.tag = tag.val) && x.acked) = some o →
       (¬last → good → ∃ t, step = .next (pump t) ∧
         (b.write = true → t.dram = memWrite s.dram (b.addr + part.1) (slice b.data part.1 part.2)) ∧ (b.write = false → t.dram = s.dram) ∧
         t = { s with dram := t.dram, ports := t.ports, regs := t.regs } ∧
         (port t n).out.map (fun x => x.tag) = p.out.map (fun x => x.tag) ∧ (port t n).waiting = p.waiting) ∧
       (last → good → o.bad = none → ∃ t u, step = .next (pump (transferEnd t u)) ∧
         (port t n).out = p.out.filter (fun x => x.tag ≠ tag.val) ∧
         (∀ x, xfer? s b.xid = some x → x.left ≤ 1 → x.stat = .ok → (u.map (fun v => v.stat)) = some .ok ∧ xfer? t b.xid = none)) ∧
       (¬good → last → o.bad = none → b.write = false →
         (b.repeats < rdf s regMemCfg 3 0 → ∃ t, step = .next (pump t) ∧ bit (rd t (regMemPortStatus n)) 0 = true ∧
           (port t n).out = p.out.filter (fun x => x.tag ≠ tag.val) ∧ (port t n).waiting = { b with repeats := b.repeats + 1 } :: p.waiting ∧
           t.dram = s.dram ∧ t.xfers = s.xfers) ∧
         (rdf s regMemCfg 3 0 ≤ b.repeats → ∃ t u, step = .next (pump (transferEnd t u)) ∧ bit (rd t (regMemPortStatus n)) 1 = true ∧
           rd t (regMemPortErrLo n) = beatAddr b i % 2 ^ 32 ∧ t.dram = s.dram ∧
           (∀ x, xfer? s b.xid = some x → (u.map (fun v => v.stat)) = some (.error b.desc (beatAddr b i) i))))) ∧
     (∀ owed, p.gasket.find? (fun x => x.tag = tag.val) = none → tget? p.quar tag = some owed →
       ∃ t, step = .next (pump t) ∧ t = { s with ports := t.ports } ∧
         tget? (port t n).quar tag = (if owed ≤ 1 then none else some (owed - 1)))) ∧
  (∀ (s : State) (n : Port) (tag : Fin 64) (o : OutBurst), (port s n).out.find? (fun x => x.tag = tag.val) = some o →
     let b := o.burst
     (s.tick < o.since + max 1000 (rd s regMemTimeout) → exec (.mpBurstTimeout n tag) s = .next (pump s)) ∧
     (o.since + max 1000 (rd s regMemTimeout) ≤ s.tick →
       ∃ t u, exec (.mpBurstTimeout n tag) s = .next (pump (transferEnd t u)) ∧
         (port t n).out = (port s n).out.filter (fun x => x.tag ≠ tag.val) ∧
         tget? (port t n).quar tag = some (beatsOf b.addr b.len - o.answered) ∧ bit (rd t (regMemPortStatus n)) 2 = true ∧ t.dram = s.dram ∧
         (∀ x, xfer? s b.xid = some x → (u.map (fun v => v.stat)) = some (.timeout b.desc (beatAddr b o.answered) o.answered) ∧
           xfer? t b.xid = none)))

/-- The pool manager's answers. A grant joins the reserve or goes to the fold, restaging or copy that asked, and restarts the sequence of
waits; one that none wants any more goes back. A refused request waits 100, 200, 400 to 6,400 ticks, unless it is a fold's or a copy's and
the reserve has a buffer; a rejected free is logged and raises the pool event. After the wait the refused requests go again before newer
ones, and the streams that waited with them. One request of a quadrant is raised at a time. -/
def Obligations.PoolRequestsWaitAndRetry : Prop :=
  ∀ (s : State) (q : Quad) (a : Word64),
    let p := pool s q
    let taken (s : State) (l : List Nat) := modPool s q (fun p => { p with raised := none, backoff := 0, pooled := p.pooled ++ l })
    let free (s : State) := modPool s q (fun p => { p with raised := none })
    let waits (u : State) (who : BufFor) : Prop :=
      (pool u q).refused = p.refused ++ [.take who] ∧ u = { s with regs := u.regs, pools := u.pools } ∧
      (p.retryAt = none → (pool u q).retryAt = some (s.tick + min 6400 (100 * 2 ^ p.backoff)) ∧ (pool u q).backoff = p.backoff + 1)
    (p.raised = some (.take .reserve) →
      (exec (.bufferPoolResponse q false a) s = .next (pump (poolRaise (modPool s q (fun p => { p with
        raised := none, backoff := 0, reserve := p.reserve ++ [a.toNat], filled := p.filled + 1 })) q))) ∧
      (∃ u, exec (.bufferPoolResponse q true a) s = .next (pump (poolRaise u q)) ∧ bit (rd u regDmaStatus) 2 = true ∧ waits u .reserve)) ∧
    (∀ who : BufFor, who ≠ .reserve → p.raised = some (.take who) →
      (wantsBuffer s who = true →
        exec (.bufferPoolResponse q false a) s = .next (pump (poolRaise (bufferFor (taken s [a.toNat]) who a.toNat) q)) ∧
        (∀ b rest, p.reserve = b :: rest → drawsReserve who = true →
          exec (.bufferPoolResponse q true a) s = .next (pump (poolRaise (bufferFor (modPool s q (fun p => { p with
            raised := none, reserve := rest, held := p.held ++ [b] })) who b) q))) ∧
        (p.reserve = [] ∨ drawsReserve who = false →
          ∃ u, exec (.bufferPoolResponse q true a) s = .next (pump (poolRaise u q)) ∧ waits u who)) ∧
      (wantsBuffer s who = false →
        exec (.bufferPoolResponse q false a) s = .next (pump (poolRaise (poolAsk (taken s []) q (.free a.toNat)) q)) ∧
        exec (.bufferPoolResponse q true a) s = .next (pump (poolRaise (free s) q)))) ∧
    (∀ b, p.raised = some (.free b) →
      exec (.bufferPoolResponse q false a) s = .next (pump (poolRaise (free s) q)) ∧
      (∃ u, exec (.bufferPoolResponse q true a) s = .next (pump (poolRaise (raise u 1000) q)) ∧ bit (rd u regDmaStatus) 0 = true ∧
        rd u regDmaFreeLog0 = b % 2 ^ 32 ∧ rd u regDmaFreeLog1 = b / 2 ^ 32 % 2 ^ 32)) ∧
    (p.raised = none → exec (.bufferPoolResponse q true a) s = .next s) ∧
    (∀ t, p.retryAt = some t →
      (t ≤ s.tick → exec (.poolRetry q) s = .next (p.refused.foldl streamAgain (poolRaise (modPool s q (fun p => { p with
        retryAt := none, queue := p.refused.filter isRequest ++ p.queue, refused := [] })) q))) ∧
      (s.tick < t → exec (.poolRetry q) s = .next s)) ∧
    (∀ r rest, p.raised = none → p.queue = r :: rest →
      (pool (poolRaise s q) q).raised = some r ∧ (pool (poolRaise s q) q).queue = rest) ∧
    (p.raised ≠ none → pool (poolRaise s q) q = p)

/-- A thermal word stores its eight readings, each with the tick; 0x80 is no reading and keeps the tick of the last one. A die temperature
read stores the value less the model's offset. In reset a word is discarded, and with GOV_POLL 0 no die is read. Changes of temperature
retrain channels. Entry of a zone into the stale state sets STALE and raises the thermal event. -/
def Obligations.TemperaturesAreStored : Prop :=
  ∀ s : State,
    (∀ (g : Fin 8) (l : List Byte), s.porstN = true → s.srstN = true → l.length = 8 →
      ∃ u, exec (.thermalWord g l) s = .next (pump (tempTriggers u)) ∧ u = { s with gov := u.gov } ∧
        u.gov = { s.gov with sensors := u.gov.sensors, before := u.gov.before } ∧
        (∀ j, j < 8 → tget? u.gov.sensors (8 * g.val + j) =
          some (if l.getD j 0 = 0x80 then (-128, ((tget? s.gov.sensors (8 * g.val + j)).getD (-128, 0)).2)
            else ((l.getD j 0).toInt, s.tick))) ∧
        ∀ i, i / 8 ≠ g.val → tget? u.gov.sensors i = tget? s.gov.sensors i) ∧
    (∀ (g : Fin 8) (l : List Byte), s.porstN = false ∨ s.srstN = false → exec (.thermalWord g l) s = .next s) ∧
    (∀ (g : Glun) (v : Byte), rd s regGovPoll ≠ 0 → s.boot.released = true → s.blockFault = false → s.trefStop = false →
      (∀ t, tget? s.gov.dieAt (g.val / 8) = some t → t + rd s regGovPoll ≤ s.tick) → tempTurn s g = some g.val →
      (leavingOp s (chOf g)).isNone = true → domOn s (32 + chOf g) = true →
      ∃ u, exec (.dieTemperatureRead g v) s = .next (pump (tempTriggers u)) ∧
        tget? u.gov.dies g = some ((v.toNat : Int) - fieldAt (costOf s g) 2 1, s.tick) ∧ tget? u.gov.dieAt (g.val / 8) = some s.tick ∧
        (∀ k, k ≠ g.val → tget? u.gov.dies k = tget? s.gov.dies k) ∧ u = { s with gov := u.gov, buses := u.buses }) ∧
    (∀ (g : Glun) (v : Byte), rd s regGovPoll = 0 → exec (.dieTemperatureRead g v) s = .next s) ∧
    (∀ z : Fin 16, s.porstN = true → s.srstN = true → zStale s z = true → (zoneTh s z).stale = false →
      ∃ u, exec (.thermalStale z) s = .next (pump (tempTriggers (raise u 1016))) ∧ (zoneTh u z).stale = true ∧
        bit (rd u regGovStatus) 2 = true ∧ (∀ y, y ≠ z.val → zoneTh u y = zoneTh s y)) ∧
    (∀ z : Fin 16, zStale s z = false ∨ (zoneTh s z).stale = true → exec (.thermalStale z) s = .next s)

/-- At the end of a refill period, and at no other time, each zone takes the factor its temperature gives, falling at once and rising by
RISE_PCT, its limit, read reserve and cap, and its bucket and shares are refilled. The budgets that wait take effect before. BUDGET_SET
takes its image at the next refill: only entries and fields marked VALID change, and the command completes with the table select. An image
with a VALID value outside its range is refused with BAD_FIELD at 0x18. -/
def Obligations.RefillsTakeTemperatureAndBudgets : Prop :=
  ((∀ s : State,
     (s.porstN = true → s.srstN = true → s.trefStop = false → s.blockFault = false →
       s.gov.refill + max 1000 (rdf s regGovCfg 31 16) ≤ s.tick →
       ∃ u, u = (List.range 16).foldl (refillZone (earlier s)) (budTake s) ∧
         exec .governorRefill s = .next (pump (tempTriggers { u with gov := { u.gov with refill := s.tick, stopped := false } }))) ∧
     (s.trefStop = true ∨ s.blockFault = true ∨ s.tick < s.gov.refill + max 1000 (rdf s regGovCfg 31 16) →
       exec .governorRefill s = .next s)) ∧
   (∀ (past s : State) (z : Nat), z < 16 →
     let old := zoneTh s z
     let t := zoneTemp past z
     let start := zCurve s z 0
     let stop := zCurve s z 1
     let floor := max 1 (rdf s (regGovZcurve z) 7 0)
     let target := if t ≤ start then 100 else if stop ≤ t then floor
       else 100 - (100 - floor) * (t - start).toNat / (stop - start).toNat
     let f := if target < old.f then target else min target (old.f + max 1 (rdf s regGovCfg 15 8))
     let limit := old.budget * 1000 * f / 100
     let res := limit * s.gov.resPct / 100
     let pct (i : Nat) : Nat := match i with | 0 => rebShare s | 1 => min 100 (max 1 (rdf s regJrnRshCfg 7 0)) | 2 => s.gov.maint | _ => s.gov.raw
     let u := refillZone past s z
     (zoneTh u z).f = f ∧ (zoneTh u z).temp = t ∧ (zoneTh u z).crit = decide (zCurve s z 2 ≤ t) ∧ (zoneTh u z).stale = zStale past z ∧
       (zoneTh u z).tokens = narrow 48 (min (old.tokens + limit) (limit * old.burst / 4 : Nat)) ∧
       (∀ i, i < 4 → (zoneTh u z).spent.getD i 0 = max 0 (old.spent.getD i 0 - ((limit - res) * pct i / 100 : Nat))) ∧
       (zoneTh u z).spent.getD 4 0 = max 0 (old.spent.getD 4 0 - (limit * s.gov.raPct / 100 : Nat)) ∧
       (zoneTh u z).budget = old.budget ∧ (zoneTh u z).burst = old.burst ∧
       (f < 100 → old.f = 100 → bit (rd u regGovStatus) 0 = true) ∧
       (zCurve s z 2 ≤ t → old.crit = false → bit (rd u regGovStatus) 3 = true) ∧ (∀ y, y ≠ z → zoneTh u y = zoneTh s y) ∧
       u = { s with gov := u.gov, regs := u.regs, evc := u.evc })) ∧
  ((∀ (s : State) (cid : Nat) (c : Cmd), startable s cid 0x28 = some c →
     let u := running s cid
     let sel := fieldAt c.pkt 0x28 8 % 16
     let img := dramRead s (fieldAt c.pkt 0x18 8) (if sel = 2 then 8 else 64)
     EndsOnPort (fun mp => exec (.budgetSet cid mp) s) u c (if sel = 2 then 8 else 64) ∧
     (budOk sel img = true → exec (.budgetSet cid .ok) s = .next (pump { u with gov := { s.gov with wait := s.gov.wait ++ [(cid, sel, img)] } })) ∧
     (budOk sel img = false → EndsWith (exec (.budgetSet cid .ok) s) u cid { status := 0x1002, detail := 0x18 })) ∧
   (∀ (s : State) (cid sel : Nat) (img : List Byte), s.gov.wait = [(cid, sel, img)] →
     budTake s = finish { s with gov := { budApply s.gov sel img with wait := [] } } cid { ra := sel }) ∧
   (∀ (g : GovSt) (img : List Byte),
     let v (i : Nat) : Bool := bit (fieldAt img 6 1) i
     let w (i : Nat) : Nat := fieldAt img (4 * i) 4
     (∀ i, i < 16 → (bit (w i) 31 = true → tget? (budApply g 0 img).limit i = some (w i % 2 ^ 16)) ∧
       (bit (w i) 31 = false → tget? (budApply g 0 img).limit i = tget? g.limit i)) ∧
     (∀ i, i < 16 → (bit (w i) 31 = true → tget (budApply g 1 img).zones i {} =
         { tget g.zones i {} with burst := w i / 2 ^ 24 % 16, budget := w i % 2 ^ 24 }) ∧
       (bit (w i) 31 = false → tget (budApply g 1 img).zones i {} = tget g.zones i {})) ∧
     budApply g 2 img = { g with
       resPct := if v 0 then fieldAt img 0 1 else g.resPct, raPct := if v 1 then fieldAt img 1 1 else g.raPct,
       maint := if v 2 then fieldAt img 2 1 else g.maint, raw := if v 3 then fieldAt img 3 1 else g.raw,
       worth := if v 4 then fieldAt img 4 2 else g.worth } ∧
     (∀ sel, sel ≤ 2 → (budApply g sel img).used = g.used ∧ (budApply g sel img).sensors = g.sensors ∧ (budApply g sel img).refill = g.refill)))

/-- The handshakes of a domain: a raise raises PWR_REQ and then lowers RET_REQ, a move to retention raises RET_REQ and then lowers PWR_REQ,
off lowers PWR_REQ, each step after the acknowledge of the one before; the domain reads as on only at the end of a raise. A request
unanswered for 10,000 ticks sets HS_TIMEOUT; a raise is requested again, a lowering counts as done. In TRIM an auto domain without work
for TRIM_IDLE ticks is isolated and goes to retention; in any other state, or with work, it stays. -/
def Obligations.DomainsAreGatedAndRaised : Prop :=
  (∀ (s : State) (d : Domain), d.val < 94 →
     let m := dom s d
     let stable := m.pwrReq = m.pwrAck ∧ m.retReq = m.retAck
     let becomes (x t : State) (n : DomSt) : Prop := dom t d = n ∧ t = { x with doms := t.doms } ∧ ∀ k, k ≠ d.val → dom t k = dom x k
     (pwrWaking s = false →
       (∀ level, m.pwrAck ≠ level → m.pwrReq = level →
         ∃ u, becomes s u { m with pwrAck := level } ∧ exec (.domainHandshakeAck d false level) s = .next (pump (cpResume (domAdvance u d)))) ∧
       (∀ level, hasRet d = true → m.retAck ≠ level → m.retReq = level →
         ∃ u, becomes s u { m with retAck := level } ∧ exec (.domainHandshakeAck d true level) s = .next (pump (cpResume (domAdvance u d)))) ∧
       (stable → ∀ ret level, exec (.domainHandshakeAck d ret level) s = .next (pump (cpResume s)))) ∧
     (s.cpWait = none → cpResume s = s) ∧
     (¬stable → domAdvance s d = s) ∧
     (stable → m.goal = 0 →
       (m.pwrReq = false → becomes s (domAdvance s d) { m with pwrReq := true, since := some s.tick }) ∧
       (m.pwrReq = true → m.retReq = true → becomes s (domAdvance s d) { m with retReq := false, since := some s.tick }) ∧
       (m.pwrReq = true → m.retReq = false → domOn (domAdvance s d) d = true ∧ (dom (domAdvance s d) d).since = none)) ∧
     (stable → m.goal = 1 →
       (m.pwrReq = true → m.retReq = false → becomes s (domAdvance s d) { m with retReq := true, since := some s.tick }) ∧
       (m.pwrReq = true → m.retReq = true → becomes s (domAdvance s d) { m with pwrReq := false, since := some s.tick }) ∧
       (m.pwrReq = false → domOn (domAdvance s d) d = false ∧ bit (rd (domAdvance s d) (regPwrRet (d.val / 32))) (d.val % 32) = true)) ∧
     (∀ t, m.since = some t →
       (s.tick < t + 10000 → exec (.domainHandshakeTimeout d) s = .next s) ∧
       (t + 10000 ≤ s.tick → m.goal = 0 → ∃ u, exec (.domainHandshakeTimeout d) s = .next u ∧ bit (rd u regPwrStatus) 2 = true ∧
         dom u d = { m with since := some s.tick }) ∧
       (t + 10000 ≤ s.tick → m.goal = 1 → ∃ u, exec (.domainHandshakeTimeout d) s = .next u ∧ bit (rd u regPwrStatus) 2 = true ∧
         dom u d = { m with since := none } ∧ domOn u d = false ∧ bit (rd u (regPwrRet (d.val / 32))) (d.val % 32) = true)) ∧
     (m.since = none → exec (.domainHandshakeTimeout d) s = .next s)) ∧
  (∀ (s : State) (d : Domain),
     let auto := 64 ≤ d.val ∧ d.val < 80 ∨ 84 ≤ d.val ∧ d.val < 92
     let idle := domOn s d = true ∧ domBusy s d = false ∧ (dom s d).idleAt + max 1 (rdf s regPwrCtrl 31 16) ≤ s.tick
     (auto → rdf s regPwrState 1 0 = 1 → idle → domStable (dom s d) = true → (dom s d).pwrReq = true → (dom s d).retReq = false →
       ∃ t, exec (.trimIdleExpiry d) s = .next t ∧ domOn t d = false ∧
         dom t d = { dom s d with goal := 1, retReq := true, since := some s.tick } ∧
         t = { s with regs := t.regs, doms := t.doms } ∧ (∀ k, k ≠ d.val → dom t k = dom s k) ∧ ∀ k, k ≠ d.val → domOn t k = domOn s k) ∧
     (¬auto ∨ rdf s regPwrState 1 0 ≠ 1 ∨ domBusy s d = true → exec (.trimIdleExpiry d) s = .next s))

/-- POWER_STATE: naming the present state, or one of RUN and TRIM, completes at once. DROWSE and FURL are MAINT_BUSY while a lease is held and
a STATE_CONFLICT in a power failure or a configuration change; else the entry starts, the present state is SAVED, and the partial rows are
staged. Once all is drained and durable the entry commits: COMMIT is set, the command completes, the channels rest; at its end the state
is set and source 945 raised, and FURL empties the trace FIFOs. An access of the control port that still waits is answered with an error;
a doorbell held since the commit point starts the exit. A doorbell of KIND 0 to an enabled ring in DROWSE or FURL starts the exit; the
furl wake timer starts one for a patrol, every PWR_WAKE_IVL × 1,000,000 ticks, unless that is 0. The exit ends when every domain is on and
every channel trained: the saved state is entered, source 945 raised. From FURL each unit's slot is as the image area gives it again;
where one does not match its digest the option area is loaded instead, and without a good copy bring-up stops. -/
def Obligations.PowerStatesAreEnteredAndLeft : Prop :=
  ((∀ (s : State) (cid : Nat) (c : Cmd), startable s cid 0x50 = some c →
     let u := running s cid
     let t := fieldAt c.pkt 0x28 8 % 4
     let now := rdf s regPwrState 1 0
     (t = now → EndsWith (exec (.powerState cid) s) u cid { ra := t }) ∧
     (t ≠ now → t < 2 → EndsWith (exec (.powerState cid) s) (runTrim u t) cid { ra := t } ∧ rdf (runTrim u t) regPwrState 1 0 = t) ∧
     (t ≠ now → 2 ≤ t →
       (∀ code g, leaseHeld s = some (code, g) → EndsWith (exec (.powerState cid) s) u cid { status := 0x2003, state := code, ra := g }) ∧
       (leaseHeld s = none →
         (s.jrn.pfActive = true ∨ s.cfg.staged = true ∨ s.cfg.commitCid ≠ none ∨ s.cfg.draining = true →
           EndsWith (exec (.powerState cid) s) u cid { status := 0x2001 }) ∧
         (s.jrn.pfActive = false → s.cfg.staged = false → s.cfg.commitCid = none → s.cfg.draining = false →
           ∃ v, exec (.powerState cid) s = .next (pump (stagePartials v)) ∧ v = { u with regs := v.regs, pwr := v.pwr } ∧
             v.pwr = { s.pwr with step := .draining, cid := some cid, target := t, flushed := false, held := false } ∧
             bit (rd v regPwrState) 30 = true ∧ rdf v regPwrState 3 2 = now ∧ rdf v regPwrState 1 0 = now)))) ∧
   (∀ s : State,
     (s.pwr.step = .draining → drained s = true → flushedAll s = true →
       exec .powerEntryCommit s = .next (pump (pwrCommitPoint s)) ∧
       (pwrCommitPoint s).pwr.step = .image ∧ bit (rd (pwrCommitPoint s) regPwrState) 31 = true ∧
       (pwrCommitPoint s).buses = s.buses.map (fun p => (p.1, { p.2 with ce := none, wpn := false }))) ∧
     (s.pwr.step = .draining → drained s = true → flushedAll s = false → s.pwr.flushed = false →
       exec .powerEntryCommit s = .next (pump (ageFlush (closePage { s with pwr := { s.pwr with flushed := true } })))) ∧
     (s.pwr.step = .draining → drained s = false → exec .powerEntryCommit s = .next (pump s)) ∧
     (s.pwr.step = .image → (∀ x ∈ s.xfers, ∀ n, x.purpose ≠ .image n) → s.cmds = [] →
       ∃ u, (let e := if s.cpWait = none then raise u 945 else { raise u 945 with cpWait := none, cpResp := 1 }
           exec .powerEntryEnd s = .next (if s.pwr.held then startExit e false else e)) ∧
         rdf u regPwrState 1 0 = s.pwr.target % 4 ∧ rdf u regPwrState 31 28 = rdf s regPwrState 29 29 * 2 ∧
         u.pwr = { s.pwr with step := .none, cid := none, flushed := false, furlAt := s.tick, heldAt := none } ∧
         (s.pwr.target = 3 → u.traces = []) ∧ u.dram = s.dram ∧ u.jrn = s.jrn) ∧
     (s.pwr.step ≠ .image → exec .powerEntryEnd s = .next s))) ∧
  (∀ s : State,
     let u := { s with pwr := { s.pwr with step := PwrStep.waking, held := false, cid := none } }
     let begun (t x : State) (patrol : Bool) : Prop := t = (wantedDoms x).foldl raiseDom x ∧ x = { u with regs := x.regs } ∧
       bit (rd x regPwrState) 29 = true ∧ bit (rd x regPwrState) 28 = patrol ∧ rdf x regPwrState 3 0 = rdf s regPwrState 3 0
     (2 ≤ rdf s regPwrState 1 0 → rdf s regPwrState 31 28 = 0 → s.pwr.step = .none → ∃ x, begun (powerDoorbell s) x false) ∧
     (rdf s regPwrState 1 0 = 3 → s.pwr.step = .none → rd s regPwrWakeIvl ≠ 0 → s.trefStop = false →
       s.pwr.furlAt + rd s regPwrWakeIvl * 1000000 ≤ s.tick → ∃ t x, exec .furlWake s = .next t ∧ begun t x true) ∧
     (rd s regPwrWakeIvl = 0 ∨ s.trefStop = true ∨ rdf s regPwrState 1 0 ≠ 3 → exec .furlWake s = .next s) ∧
     (∀ (b : Option (Fin 59)) (copies : List OaCopy), s.pwr.step = .waking → (∀ d ∈ wantedDoms s, domOn s d = true) → trainingEnded s = true →
       let bad : Prop := rdf s regPwrState 1 0 = 3 ∧ (b.isSome = true ∨ imageBad s = true)
       (¬bad → bit (rd s regPwrState) 28 = false →
         ∃ v, exec (.powerExitEnd b copies) s = .next (raise v 945) ∧ rdf v regPwrState 1 0 = rdf s regPwrState 3 2 ∧
           bit (rd v regPwrState) 29 = false ∧
           v.pwr = { s.pwr with step := .none, visits := [], heldAt := none, flushed := false, cid := none } ∧
           v.cfg = s.cfg ∧ v.dram = s.dram ∧ v.jrn = s.jrn) ∧
       (bad → (∀ c ∈ copies, c.headerOk = false) →
         ∃ v, exec (.powerExitEnd b copies) s = .next (raise v 945) ∧ bit (rd v regPwrStatus) 3 = true ∧ phase v = 15 ∧
           bit (rd v regBootStatus) 2 = true ∧ v.cfg = s.cfg)) ∧
     (s.pwr.step ≠ .waking → ∀ b copies, exec (.powerExitEnd b copies) s = .next s))

/-- CONFIG_STAGE refuses, in this order, a generation of 0 or the current one, a bad item, whose reason it records with STAGE_REFUSED, a
conflict with a staged, committing or draining generation, and a log without room; a port failure changes no slot. A stage that passes
writes its items over copies of the current slots, is measured, and answers 59 units; the current slots do not change. CONFIG_AUDIT writes
one entry for each unit in order, at most COUNT of them, each with the live digest of the current slot; one that differs from the digest
of the stage sets MISMATCH and AUDIT_MISMATCH. MEASURE_REPORT writes the count of log entries, MEAS0 to MEAS7 and at most COUNT log
entries; with a lost line of the log it ends with INTERNAL_CHECK. -/
def Obligations.StagesAndAuditsOfTheConfiguration : Prop :=
  (∀ (s : State) (cid : Nat) (c : Cmd), startable s cid 0x30 = some c →
     let u := running s cid
     let gen := fieldAt c.pkt 0x28 4
     let items := readItems u (fieldAt c.pkt 0x18 8) (fieldAt c.pkt 0x14 4) 0
     let o (mp : PortEnd) : Out := exec (.configStage cid mp) s
     (gen = 0 ∨ gen = s.cfg.curGen → ∀ mp, o mp = .next (finish u cid { status := 0x1002, detail := 0x28 })) ∧
     (gen ≠ 0 → gen ≠ s.cfg.curGen →
       (∀ e, putItems items 0 (copySlots u) = .error e →
         ∃ v, o .ok = .next (finish v cid { status := 0x1002, detail := 0x18 }) ∧ OnlyRegs u v [regGlbCfgErr, regGlbCfgStatus, regGlbCfgCount0] ∧
           bit (rd v regGlbCfgStatus) 0 = true ∧ rd v regGlbCfgErr = (2 ^ 31 + e.1 * 2 ^ 24 + e.2.1 * 2 ^ 16 + e.2.2) % 2 ^ 32) ∧
       (∀ t, putItems items 0 (copySlots u) = .ok t →
         (s.cfg.staged = true ∨ s.cfg.commitCid ≠ none ∨ s.cfg.draining = true → o .ok = .next (finish u cid { status := 0x2001 })) ∧
         (s.cfg.staged = false → s.cfg.commitCid = none → s.cfg.draining = false →
           (s.cfg.log.length + measCount items ≤ 4096 →
             ∃ v, o .ok = .next (finish v cid { ra := 59 }) ∧ v = { u with cfg := v.cfg } ∧ v.cfg.next = t ∧ v.cfg.nextGen = gen ∧
               v.cfg.staged = true ∧ v.cfg.cur = s.cfg.cur ∧ v.cfg.curGen = s.cfg.curGen ∧ v.cfg.prev = s.cfg.prev ∧
               v.cfg.log.length = s.cfg.log.length + measCount items ∧ v.cfg.log.take s.cfg.log.length = s.cfg.log) ∧
           (4096 < s.cfg.log.length + measCount items → o .ok = .next (finish (cfgFlag u 1) cid { status := 0x3001 })))) ∧
       (∀ mp, mp ≠ .ok → ∃ v r, o mp = .next (finish v cid r) ∧ PortGaveUp (stageSpans c items) mp u v 0 r))) ∧
  (∀ (s : State) (cid : Nat) (c : Cmd),
     let u := running s cid
     let d := fieldAt c.pkt 0x18 8
     (startable s cid 0x32 = some c →
       let n := min (fieldAt c.pkt 0x14 4) 59
       ∃ v, exec (.configAudit cid) s =
           .next (finish (writeOut v c d (((List.range n).map (auditEntry u)).flatMap (fun e => e.1)) 3) cid { ra := n }) ∧
         v = { u with regs := v.regs } ∧
         ((∃ k, k < n ∧ storedDigest k (curSlot u k) ≠ auditDigest k (curSlot u k)) → bit (rd v regGlbCfgStatus) 3 = true)) ∧
     (∀ k, k < 59 →
       let e := (auditEntry s k).1
       let sl := curSlot s k
       fieldAt e 0 2 = k ∧ bit (fieldAt e 2 1) 2 = decide (storedDigest k sl ≠ auditDigest k sl) ∧
       bit (fieldAt e 2 1) 0 = (tget? s.cfg.next k).isSome ∧ (s.cfg.commitCid = none → bit (fieldAt e 2 1) 1 = s.cfg.draining ∧
         fieldAt e 4 4 = s.cfg.curGen % 2 ^ 32 ∧ fieldAt e 0x0C 4 = (if s.cfg.draining then s.cfg.prevGen % 2 ^ 32 else 0)) ∧
       fieldAt e 8 4 = (if (tget? s.cfg.next k).isSome then s.cfg.nextGen % 2 ^ 32 else 0) ∧
       ∃ rest, e.drop 0x10 = auditDigest k sl ++ rest) ∧
     (startable s cid 0x33 = some c →
       let n := min (fieldAt c.pkt 0x14 4) s.cfg.log.length
       (s.msrBad = none → exec (.measureReport cid false) s =
         .next (finish (writeOut u c d (leBytes 4 s.cfg.log.length ++ zeros 12 ++ (List.range 8).flatMap (meas s) ++
           (s.cfg.log.take n).flatMap logBytes) 3) cid { ra := n })) ∧
       (∀ l, s.msrBad = some l → exec (.measureReport cid false) s =
         .next (finish u cid { status := 0x5004, ra := 40 + c.home, rb := l, detail := 0x43 })) ∧
       ∃ v l, exec (.measureReport cid true) s = .next (finish v cid { status := 0x5004, ra := 40 + c.home, rb := l, detail := 0x43 }) ∧
         l < 131072 ∧ v.msrBad = some l ∧ v.cfg = s.cfg))

/-- CONFIG_COMMIT of the staged generation switches every unit that stands at a safe point: its next slot becomes current and its former
current one draining. When all have switched, a COMMIT entry is logged and the completion and source 944 follow. The draining slots are
freed once no work of their generation remains, and 944 is raised again. -/
def Obligations.CommitsSwitchEveryUnit : Prop :=
  (∀ (s : State) (cid : Nat) (c : Cmd), startable s cid 0x31 = some c →
    let u := running s cid
    let o := exec (.configCommit cid) s
    (s.cfg.staged = false ∨ s.cfg.commitCid ≠ none → o = .next (finish u cid { status := 0x2001 })) ∧
    (s.cfg.staged = true → s.cfg.commitCid = none →
      (fieldAt c.pkt 0x28 4 ≠ s.cfg.nextGen → o = .next (finish u cid { status := 0x1002, detail := 0x28 })) ∧
      (fieldAt c.pkt 0x28 4 = s.cfg.nextGen → s.cfg.log.length < 4096 →
        let w := { u with cfg := { s.cfg with commitCid := some cid, switched := [], prevGen := s.cfg.curGen } }
        o = .next (((List.range 59).filter (atSafePoint w)).foldl safePoint w)) ∧
      (fieldAt c.pkt 0x28 4 = s.cfg.nextGen → 4096 ≤ s.cfg.log.length →
        o = .next (finish (cfgFlag u 1) cid { status := 0x3001 })))) ∧
  (∀ (w : State) (k : Nat) (sl : Slot), w.cfg.commitCid ≠ none → tget? w.cfg.switched k = none → tget? w.cfg.next k = some sl →
    let t := safePoint w k
    tget? t.cfg.cur k = some { sl with rwl := [] } ∧ tget? t.cfg.prev k = some (curSlot w k) ∧ tget? t.cfg.next k = none ∧
      unitSwitched t k = true ∧ safePoint t k = t ∧
      ∀ j, j ≠ k → tget? t.cfg.cur j = tget? w.cfg.cur j ∧ tget? t.cfg.prev j = tget? w.cfg.prev j) ∧
  (∀ (s : State) (cid : Nat), s.cfg.commitCid = some cid →
    ((∀ k, k < 59 → unitSwitched s k = true) → s.cfg.log.length < 4096 →
      ∃ (v : State) (e : LogEntry), exec .configCommitComplete s = .next (pump (finish (raise (commitHooks v) 944) cid
          { ra := s.cfg.nextGen, rb := 59 })) ∧
        v.committed = true ∧ v.cfg.curGen = s.cfg.nextGen ∧ v.cfg.nextGen = 0 ∧ v.cfg.staged = false ∧ v.cfg.draining = true ∧
        v.cfg.commitCid = none ∧ v.cfg.next = [] ∧ v.cfg.cur = s.cfg.cur ∧ v.cfg.prev = s.cfg.prev ∧ v.cfg.prevGen = s.cfg.prevGen ∧
        v.cfg.log = s.cfg.log ++ [e] ∧ e.reg = 6 ∧ e.kind = 10 ∧ e.gen = s.cfg.nextGen ∧ meas v 6 = sha384 (meas s 6 ++ e.digest)) ∧
    (∀ k, k < 59 → unitSwitched s k = false → atSafePoint s k = false → exec .configCommitComplete s = .next (pump s))) ∧
  (∀ s : State,
    (s.cfg.commitCid = none → exec .configCommitComplete s = .next (pump s)) ∧
    (s.cfg.draining = true → workLeft s s.cfg.prevGen = false →
      exec .drainingSlotFree s = .next (raise { s with cfg := { s.cfg with draining := false, prevGen := 0, prev := [] } } 944)) ∧
    (s.cfg.draining = false ∨ workLeft s s.cfg.prevGen = true → exec .drainingSlotFree s = .next s))

/-- An accepted ZONE_APPEND takes the block offsets from APPEND_PT on, and a ZONE_WRITE is accepted only at OFFSET equal to it: APPEND_PT
moves by COUNT, the zone is OPEN, the write pointer stays. A run of blocks joins the zone's partial row; the row that it fills counts in
INFLIGHT_ROWS. An append that may not fill another row now waits, and so does one for which too few gathering rows are free, which starts
a spill where none runs; one that the checks refuse ends with their result. -/
def Obligations.AppendsTakeOffsetsInOrder : Prop :=
  (∀ (s : State) (cid op : Nat) (i : Instr) (c : Cmd) (lt : Layout), (op = 1 ∧ i = .zoneAppend cid) ∨ (op = 2 ∧ i = .zoneWrite cid) →
    startable s cid op = some c → boundaryHolds s cid op = false →
    (∀ d ∈ s.cmds, d ≠ c → d.zone = c.zone → d.stage = .running ∨ d.stage = .ending) →
    let u := running s cid
    let d := { c with issued := true, stage := .running }
    let zid := fieldAt c.pkt 8 4 % 2 ^ 19
    let e := zone s zid
    let n := fieldAt c.pkt 0x14 4
    layoutOf? u zid = some lt → (e.state = 1 → oztIdx? s zid ≠ none) →
      (∀ r, zoneCheck u d = some r → EndsWith (exec i s) u cid r) ∧
      (zoneCheck u d = none →
        (∀ r, acceptTest u d zid lt = .refuse r none → EndsWith (exec i s) u cid r) ∧
        (∀ r b, acceptTest u d zid lt = .refuse r (some b) → EndsWith (exec i s) (hopFlag u b) cid r) ∧
        (∀ v, acceptTest u d zid lt = .take → openZone u zid (cget s c.ring 0x1C 2 % 4096) none = some v →
          ∃ w, exec i s = .next (pump (servePressure w (zoneQuad w zid))) ∧ (zone w zid).state = 1 ∧
            (zone w zid).appendPt = e.appendPt + n ∧ (zone w zid).wp = e.wp ∧
            ∃ f, cmd? w cid = some f ∧ f.first = e.appendPt ∧ f.left = n ∧ f.stage = .running) ∧
        (acceptTest u d zid lt = .wait →
          let x := modCmd u cid (fun c => { c with stage := .waiting })
          let q := zoneQuad u zid
          let needs := (e.gather + n + max 1 (rowBlks s lt) - 1) / max 1 (rowBlks s lt) - (if (partial? s zid).isSome then 1 else 0)
          (spillsIn u q = 0 → sliceFree u q < needs → exec i s = .next (pump (startSpill x q))) ∧
          (spillsIn u q ≠ 0 ∨ needs ≤ sliceFree u q → exec i s = .next (pump x))) ∧
        (op = 2 → fieldAt c.pkt 0x10 4 ≠ e.appendPt → acceptTest u d zid lt = .refuse { status := 0x2001, ra := e.wp } none) ∧
        (capacity s lt < e.appendPt + n → ∃ r f, acceptTest u d zid lt = .refuse r f ∧ r.status ∈ [0x2001, 0x2004]) ∧
        (e.inflight = 0 → (e.gather + n + max 1 (rowBlks s lt) - 1) / max 1 (rowBlks s lt) ≤ sliceFree u (zoneQuad u zid) →
          acceptTest u d zid lt ≠ .wait))) ∧
  (∀ (s : State) (c : Cmd) (r : Row) (rb off blk n : Nat), partial? s r.zid = some r → row? s r.rid = some r → oztIdx? s r.zid ≠ none →
    let e := zone s r.zid
    let t := gatherRun s c r.zid rb off blk n
    let z := zone t r.zid
    z.appendPt = e.appendPt ∧ z.wp = e.wp ∧ z.state = e.state ∧
    (∃ q, row? t r.rid = some q ∧ q.pieces = r.pieces ++ [{ cid := c.cid, cmdBlk := blk, first := off % rb, count := n }] ∧
      q.lastTick = s.tick ∧
      (off % rb + n = rb → q.phase = .filled ∧ q.fillTick = s.tick ∧ q.acked = e.staged ∧ z.gather = 0 ∧ z.inflight = e.inflight + 1 ∧
        z.gv = false) ∧
      (off % rb + n ≠ rb → q.phase = .gathering ∧ z.gather = e.gather + n ∧ z.inflight = e.inflight ∧ z.gv = e.gv)))

/-- ZONE_OPEN puts a zone in OPEN with the hint it names, and an EMPTY one under its ring's tenant, or the one it names on a ring of no
tenant; with the table of open zones full it is NO_GATHER_SLOT with DETAIL 1. ZONE_FLUSH, ZONE_CLOSE and ZONE_FINISH stage the partial row
and wait for every append accepted before them; then the close leaves the zone CLOSED, the finish FULL, and each answers the write
pointer. Blocks that a staging left over are staged again. ZONE_FINISH of an EMPTY zone makes it FULL at once. With the journal stopped,
what needs an entry is a STATE_CONFLICT. -/
def Obligations.ZonesOpenCloseAndFinish : Prop :=
  ∀ (s : State) (cid : Nat) (c : Cmd),
    let u := running s cid
    let zid := fieldAt c.pkt 8 4 % 2 ^ 19
    let e := zone s zid
    let ten := cget s c.ring 0x1C 2 % 4096
    let owner := if ten = 0 then bits (fieldAt c.pkt 0x28 8) 27 16 else ten
    let d (mark : Nat) : Cmd := { c with issued := true, stage := .running, mark := mark }
    zoneCheck u c = none → (e.state = 1 → oztIdx? s zid ≠ none) →
    (startable s cid 5 = some c → boundaryHolds s cid 5 = false → s.jrn.stopped = true → e.state ≠ 1 →
      EndsWith (exec (.zoneOpen cid) s) u cid { status := 0x2001 }) ∧
    (startable s cid 5 = some c → boundaryHolds s cid 5 = false → s.jrn.stopped = false ∨ e.state = 1 →
      (openZone u zid owner (some (bits (fieldAt c.pkt 0x28 8) 7 0)) = none →
        EndsWith (exec (.zoneOpen cid) s) (hopFlag u 0) cid { status := 0x3002, detail := 1 }) ∧
      (∀ v, openZone u zid owner (some (bits (fieldAt c.pkt 0x28 8) 7 0)) = some v →
        exec (.zoneOpen cid) s = .next (pump (finishDurable v cid { ra := (oztIdx? v zid).getD 0 })) ∧
        (zone v zid).state = 1 ∧ (zone v zid).hint = bits (fieldAt c.pkt 0x28 8) 7 0 ∧ (zone v zid).wp = e.wp ∧
        (e.state = 0 → (zone v zid).tenant = owner ∧ (zone v zid).tv = true) ∧ (e.state ≠ 0 → (zone v zid).tenant = e.tenant))) ∧
    (∀ p ∈ [(6, Instr.zoneClose cid), (7, .zoneFinish cid), (8, .zoneFlush cid)],
      startable s cid p.1 = some c → boundaryHolds s cid p.1 = false →
      let stop := s.jrn.stopped && (needsZone u p.1 zid || needsExtent u zid e.appendPt)
      (stop = true → EndsWith (exec p.2 s) u cid { status := 0x2001 }) ∧
      (stop = false → p.1 = 7 ∧ e.state = 0 → ∃ v, exec p.2 s = .next (pump (finishDurable (jrnZone v zid) cid { ra := e.wp })) ∧ (zone v zid).state = 3 ∧
        (zone v zid).wp = e.wp) ∧
      (stop = false → ¬(p.1 = 7 ∧ e.state = 0) →
        exec p.2 s = .next (pump (settleWaiter (wantStaging (modCmd u cid (fun c => { c with mark := e.appendPt })) zid false c.deadline)
          (d e.appendPt))))) ∧
    (∀ (t : State) (m : Nat),
      let z := zone t zid
      (t.jrn.stopped = true → (needsZone t (fieldAt c.pkt 0 1) zid || (decide (z.wp < m) && needsExtent t zid m)) = true →
        settleWaiter t (d m) = finish t c.cid { status := 0x2001 }) ∧
      (t.jrn.stopped = false →
        (z.wp < m → settleWaiter t (d m) = (if unstagedBelow t zid m then wantStaging t zid false c.deadline else t)) ∧
        (m ≤ z.wp → fieldAt c.pkt 0 1 = 8 → settleWaiter t (d m) = finish t c.cid { ra := z.wp }) ∧
        (m ≤ z.wp → fieldAt c.pkt 0 1 = 6 ∨ fieldAt c.pkt 0 1 = 7 → m < z.appendPt →
          settleWaiter t (d m) = wantStaging (modCmd t c.cid (fun c => { c with mark := z.appendPt })) zid false c.deadline) ∧
        (z.appendPt ≤ m → m ≤ z.wp → fieldAt c.pkt 0 1 = 6 → z.state = 1 →
          ∃ v, settleWaiter t (d m) = finishDurable (oztFree (jrnZone v zid) zid) c.cid { ra := z.wp } ∧ v = setZone t { z with state := 2 } ∧
            (zone v zid).state = 2) ∧
        (z.appendPt ≤ m → m ≤ z.wp → fieldAt c.pkt 0 1 = 7 → z.state ≠ 3 →
          ∃ v, settleWaiter t (d m) = (if (zone (jrnZone v zid) zid).inflight = 0 then finishDurable (oztFree (jrnZone v zid) zid) c.cid { ra := z.wp }
              else finishDurable (jrnZone v zid) c.cid { ra := z.wp }) ∧ v = setZone t { z with state := 3 } ∧
            (zone v zid).state = 3)))

/-- ZONE_READ past the write pointer is BEYOND_WRITE_POINTER; one with a block that meets a rule ahead of flash returns with that block's
result without flash access; else each block gets its read, and with all blocks settled the command ends with its first failing block's
result, or well. ZONE_RESET with other commands on the zone, or with the journal stopped, is a STATE_CONFLICT, and on protected members
PROTECTED; else it runs. A reset turns the zone RESETTING in its OZT entry, or is NO_GATHER_SLOT with the table full; it goes on at once,
or once a row that the zone's rebuild unit is at has ended. Then WSEQ is one higher, the staging extents and the gathering row are gone,
and each member of the layout is given its erase, but for a member of an EMPTY zone known to be erased; a retired LUN-block gives way to a
spare. With the last erase good the zone is EMPTY with TV 0, WP 0 and APPEND_PT 0, and with a failed one OFFLINE with the failure's
result. -/
def Obligations.ZonesAreReadAndReset : Prop :=
  (∀ (s : State) (cid : Nat) (c : Cmd),
     let u := running s cid
     let zid := fieldAt c.pkt 8 4 % 2 ^ 19
     let off := fieldAt c.pkt 0x10 4
     let n := fieldAt c.pkt 0x14 4
     let offs := List.range' off n
     zoneCheck u c = none →
     (startable s cid 3 = some c →
       ((zone s zid).wp < off + n → EndsWith (exec (.zoneRead cid) s) u cid { status := 0x2005 }) ∧
       (off + n ≤ (zone s zid).wp → (∀ b ∈ offs, aheadOf u zid b = none) →
         let v := modCmd u cid (fun c => { c with blks := offs.map (fun b => { off := b }) })
         exec (.zoneRead cid) s = .next (pump (readSettle (offs.foldl (fun s b => blkStart s cid b) v) cid))) ∧
       (off + n ≤ (zone s zid).wp → ∀ r, offs.findSome? (aheadOf u zid) = some r → EndsWith (exec (.zoneRead cid) s) u cid r)) ∧
     (∀ (t : State) (f : Cmd), cmd? t cid = some f → fieldAt f.pkt 0 1 = 3 → f.stage = .running →
       ((∃ b ∈ f.blks, b.stat = .pending) → readSettle t cid = t) ∧
       (∀ b rest r, f.blks = b :: rest → b.stat = .failed r → (∀ x ∈ f.blks, x.stat ≠ .pending) → readSettle t cid = finish t cid r) ∧
       ((∀ x ∈ f.blks, x.stat = .good) → readSettle t cid = finish t cid (readStatus t f))) ∧
     (startable s cid 4 = some c → boundaryHolds s cid 4 = false →
       let others := (s.cmds.filter (fun d => decide (d.zone = some zid) && decide (d.cid ≠ cid))).length
       (0 < others ∨ s.jrn.stopped = true → EndsWith (exec (.zoneReset cid) s) u cid { status := 0x2001, ra := others }) ∧
       (others = 0 → s.jrn.stopped = false →
         (membersProtected u zid = true → EndsWith (exec (.zoneReset cid) s) u cid { status := 0x2004 }) ∧
         (membersProtected u zid = false → exec (.zoneReset cid) s = .next (pump (resetBegin u c)))))) ∧
  ((∀ (s : State) (c : Cmd),
     let zid := fieldAt c.pkt 8 4 % 2 ^ 19
     let e := zone s zid
     let n := ((layoutOf? s zid).map width).getD 0
     (oztTake s e = none → resetBegin s c = finish (hopFlag s 0) c.cid { status := 0x3002, detail := 1 }) ∧
     (∀ t, oztTake s e = some t → ∃ v,
       v = modCmd (setZone t { e with state := 4, overlay := 0 }) c.cid (fun c => { c with mark := e.state }) ∧ (zone v zid).state = 4 ∧
       (unitBusy v zid = false → resetBegin s c = resetGo v { c with mark := e.state }) ∧
       (unitBusy v zid = true → resetBegin s c = stopUnit (modCmd v c.cid (fun c => { c with stage := .waiting })) zid)) ∧
     (∃ v, (zone v zid).wseq = (e.wseq + 1) % 2 ^ 20 ∧ (zone v zid).gather = 0 ∧ (zone v zid).staged = 0 ∧
       (zone v zid).inflight = 0 ∧ (zone v zid).gv = false ∧ (∀ x ∈ v.extents, x.zid ≠ zid) ∧ (∀ r ∈ v.rows, r.zid ≠ zid) ∧
       resetGo s c = resetSettle ((List.range n).foldl (fun s j => resetMember s c zid (decide (c.mark = 0)) j)
         (modCmd (jrnZone v zid) c.cid (fun c => { c with stage := .running, left := 0, first := 0, mark := 0 }))) c.cid zid)) ∧
   (∀ (s : State) (c : Cmd) (zid j g b : Nat) (empty : Bool), loc? s zid j = some (g, b) → mstate s zid j ≠ 3 →
     (empty = true → knownErased s g b = true → resetMember s c zid empty j = placeMember s zid j g b ∧
       (mstate s zid j ≤ 1 → placeMember s zid j g b = s)) ∧
     (empty = false ∨ knownErased s g b = false →
       (mstate s zid j = 2 ∨ retiredBlock s g b = false → resetMember s c zid empty j = resetErase s c zid j g b) ∧
       (mstate s zid j ≤ 1 → retiredBlock s g b = true → resetMember s c zid empty j = reform s c zid j .before (g, b)))) ∧
   (∀ (s : State) (cid zid : Nat) (c : Cmd), cmd? s cid = some c →
     let e := zone s zid
     let ends (st : Nat) (r : Result) : Prop := ∃ v, (zone v zid).state = st ∧ (zone v zid).wp = 0 ∧ (zone v zid).appendPt = 0 ∧
       (zone v zid).tv = false ∧ v = setZone s { e with state := st, tv := false, tenant := 0, wp := 0, appendPt := 0, overlay := 0 } ∧
       let w := modGroup v (fgOf v zid) (fun g => { g with units := g.units.filter (fun u => u.zid ≠ zid) })
       resetEnd s cid zid = finishDurable (oztFree (jrnZone w zid) zid) cid r
     (c.badBlks = [] → c.wear = false → ends 0 { ra := c.first, rb := c.mark }) ∧
     (c.badBlks = [] → c.wear = true → ends 0 { status := 0x0101, ra := c.first, rb := c.mark }) ∧
     (∀ p, c.badBlks = [p] → ends 7 p.2)))

/-- The staging of a partial row: asked for when an append's deadline comes within HOP_STAGE_LEAD, placed on the next set of the round robin
that has room and is in service, or left waiting with STG_WAIT; past 8 extents it consolidates them, through buffers of the pool. A filled
row with staged blocks is folded: it asks the pool for buffers enough for them and takes nothing else. A set without a live extent is
erased for reuse. -/
def Obligations.StagingAndFolding : Prop :=
  ∀ (s : State) (zid : Zid) (fg : BitVec 16),
    (∀ (r : Row) (d : Nat), partial? s zid = some r →
      piecesDeadline s (cutPieces r (zone s zid).staged (zone s zid).gather) = some d →
      let lead := rd s regHopStageLead
      (0 < lead → d ≤ s.tick + lead → exec (.stageLeadExpiry zid) s = .next (pump (wantStaging s zid false none))) ∧
      (lead = 0 ∨ s.tick + lead < d → exec (.stageLeadExpiry zid) s = .next (pump s)) ∧
      (unstagedIn s r = true → r.staging = none → (zone s zid).stgExt < 8 →
        ∃ (t : State) (g : Staging), wantStaging s zid false none = t ∧ t.stagings = s.stagings ++ [g] ∧ g.rid = r.rid ∧ g.zid = zid.val ∧
          g.row = r.row ∧ g.first = (zone s zid).staged ∧ g.count = (zone s zid).gather - (zone s zid).staged ∧ g.placed = false ∧
          g.want = 0 ∧ t.dram = s.dram ∧ t.cmds = s.cmds) ∧
      (unstagedIn s r = true → r.staging = none → 8 ≤ (zone s zid).stgExt →
        ∃ (u : State) (g : Staging), u.stagings = s.stagings ++ [g] ∧ g.rid = r.rid ∧ g.zid = zid.val ∧ g.row = r.row ∧ g.first = 0 ∧
          g.count = (zone s zid).gather ∧ g.consol = true ∧ g.want = (zone s zid).staged ∧ g.placed = false ∧
          wantStaging s zid false none = askBufs u r.quad g.want (.staging g.sid))) ∧
    (partial? s zid = none → exec (.stageLeadExpiry zid) s = .next (pump s)) ∧
    (∀ r : Row, s.rows.find? (fun r => decide (r.zid = zid.val) && decide (r.phase = .filled) && decide (0 < r.acked) && r.staging.isNone) = some r →
      ∃ v, exec (.foldStart zid) s = .next (pump (askBufs v r.quad r.acked (.row r.rid))) ∧
        v = modRow s r.rid (fun r => { r with phase := .folding }) ∧
        bufCount v r.acked = (4096 * r.acked + bufBytes s - 1) / bufBytes s) ∧
    ((∀ r ∈ s.rows, r.zid = zid.val → r.phase ≠ .filled ∨ r.acked = 0 ∨ r.staging ≠ none) → exec (.foldStart zid) s = .next (pump s)) ∧
    (let next := s.stagings.find? (fun g => decide (g.zid = zid.val) && !g.placed && decide (g.want = 0))
     (∀ g : Staging, s.jrn.stopped = false → next = some g →
      let set? := pickSet s g.fg g.set g.nwl g.move
      (set? = none → exec (.stagingStart zid) s = .next (pump (hopFlag s 2))) ∧
      exec (.stagingStart zid) s = .next (pump (stagePlace s g)) ∧
      (∀ set, set? = some set → set ∈ setList s g.fg g.set ∧
        tget (group s g.fg).setWl set 0 + g.nwl ≤ setWls s g.fg set ∧ setUp s g.fg set = true ∧
        ∀ p, g.move = some p → p.1 ≠ set)) ∧
     (next = none ∨ s.jrn.stopped = true → exec (.stagingStart zid) s = .next (pump s))) ∧
    ((group s fg.toNat).newIdx = none → exec (.stagingReclaim fg) s = .next (pump (reclaimList s fg.toNat 0))) ∧
    (∀ i : Nat, setList s fg.toNat 0 = [i] → (group s fg.toNat).setOut = [] → (group s fg.toNat).setErase = [] →
      0 < tget (group s fg.toNat).setWl i 0 → (∀ x ∈ s.extents, x.fg ≠ fg.toNat) → (∀ g ∈ s.stagings, g.fg ≠ fg.toNat) →
      reclaimList s fg.toNat 0 = setErases s fg.toNat i)

/-- Parity member k + p of a row holds, byte by byte, the sum of g^(p j) times the byte of data member j, in GF(2^8) with g = 0x02: P, Q and R
for p = 0, 1, 2, as far as m reaches, in its accumulator slot; a row has no other parity member. -/
def Obligations.ParityIsTheWeightedSum : Prop :=
  ∀ (s : State) (r : Row) (lt : Layout),
    let cb := cbOf (layDie s lt)
    let body (b : Nat) : List Byte := if r.poison.contains b then poisonBody else tget r.stream b padBody
    (∀ p i t, p < lt.m → i < cb → cb ≤ 64 → t < 4112 → (∀ b, b < lt.k * cb → (body b).length = 4112) →
      ((slotBody (tget (rowParity s r lt) (lt.k + p) []) i).getD t 0).toNat =
        (List.range lt.k).foldl (fun a j => a ^^^ gfmul 0x1D (gfpow 0x1D 2 (p * j)) ((body (j * cb + i)).getD t 0).toNat) 0) ∧
    ∀ j, j < lt.k ∨ lt.k + lt.m ≤ j → tget? (rowParity s r lt) j = none

/-- A filled row goes to the first idle stripe engine of its quadrant that is on, the even one before the odd one, which takes a parity slot
per parity member still to write and streams the row's data; with too few slots free the row waits and SLOT_WAIT is set. A row whose
stream has ended has its parity and its INTENT; the first check of a slot streams the row again, the second fails that slot's parity
member. -/
def Obligations.RowsGoToTheFirstIdleEngine : Prop :=
  ∀ (s : State) (e : Fin 8),
    let q := e.val / 2
    let idle (n : Nat) : Prop := (tget s.stes n {}).rid = none ∧ (tget s.engines (32 + n) {}).mode ≠ 3
    let lit : Prop := domOn s (72 + e.val) = true ∧ domOn s (88 + q) = true
    let ready (r : Row) : Prop := r.quad = q ∧
      (r.phase = .ready ∨ r.phase = .again ∨ (r.phase = .filled ∧ r.acked = 0 ∧ r.staging = none))
    (¬idle e ∨ (e.val % 2 = 1 ∧ idle (e - 1)) ∨ ¬lit ∨ (∀ r ∈ s.rows, ¬ready r) → exec (.rowParityStart e) s = .next (pump s)) ∧
    (idle e → (e.val % 2 = 1 → ¬idle (e.val - 1)) → lit → ∀ (r : Row) (lt : Layout), r ∈ s.rows → ready r → layoutOf? s r.zid = some lt →
      (∀ x ∈ s.rows, ready x → x = r ∨ r.fillTick < x.fillTick ∨ (r.fillTick = x.fillTick ∧ r.rid < x.rid)) →
      (∀ j, j ∈ slotless r lt ↔ lt.k ≤ j ∧ j < lt.k + lt.m ∧ tget? r.slots j = none ∧ tget r.memb j .idle ∉ [.good, .pad, .failed]) ∧
      (takeParitySlots q (slotless r lt) (s, r.slots) = none → exec (.rowParityStart e) s = .next (pump (steFlag s q 0))) ∧
      (∀ u sl, takeParitySlots q (slotless r lt) (s, r.slots) = some (u, sl) →
        (∀ j ∈ slotless r lt, (tget? sl j).isSome = true) ∧
        exec (.rowParityStart e) s = .next (pump (rowStream
          { modRow u r.rid (fun r => { r with slots := sl }) with stes := tset s.stes e { rid := some r.rid } } e r)))) ∧
    (∀ (r : Row) (lt : Layout) (det : Option (Fin 3)), (tget s.stes e {}).rid = some r.rid → row? s r.rid = some r → layoutOf? s r.zid = some lt →
      let o := exec (.rowParityDone e det) s
      let hit (p : Fin 3) : Prop := det = some p ∧ p.val < lt.m
      let summed (x v : State) : Prop := ∃ u, u = { x with regs := u.regs, stes := u.stes } ∧ (∀ a, a ≠ regSteRows q → rd u a = rd x a) ∧
        (tget u.stes e {}).rid = none ∧ v = modRow u r.rid (fun x => { x with
          phase := if 0 < r.intent then .programming else .parity, parity := rowParity u r lt, stream := [] })
      let after (v : State) : State := if 0 < r.intent then v else rowIntent v r.rid
      (r.phase ≠ .streaming e ∨ r.want ≠ 0 → o = .next (pump s)) ∧
      (r.phase = .streaming e → r.want = 0 →
        ((∀ p, ¬hit p) → ∃ v, summed s v ∧ o = .next (pump (after v))) ∧
        (∀ p, hit p → r.strikes = 0 → o = .next (pump (rowRestream (modRow (recoveredAny (steFlag s q 1) 2 q 1) r.rid
          (fun r => { r with strikes := 1 })) r.rid))) ∧
        (∀ p, hit p → r.strikes ≠ 0 → ∃ v, summed s v ∧
          o = .next (pump (after (memberBad (unrecoveredAny (steFlag v r.quad 2) 2 r.quad 1) r.rid (lt.k + p.val) (some (siteFail 0x41)))))))) ∧
    (∀ (rid : Nat) (r : Row), row? s rid = some r → s.jrn.full = false → s.jrn.stopped = false →
      ∃ v, rowIntent s rid = v ∧ v.jrn.seq = s.jrn.seq + 1 ∧ (∃ x, row? v rid = some x ∧ x.phase = .intent ∧ x.intent = max r.intent (s.jrn.seq + 1)))

/-- What a channel's bus carries comes in deadline order over its operations: a suspend, a read's command, a data-out, a plane-page, an erase,
a poll, a confirm, a resume. A channel out of service carries none but polls, one whose bus carries a data-out none at all. A data-out
waits for room in staging SRAM. A program is confirmed only when it is admitted and its data stands in its LUN. The phases that
BUS_PHASE_ISSUE puts on the bus, with the chip enable of the LUN's own group low. A program or erase that meets protection waits and sets
WP_HIT, a raw one is refused. A first check on a page's way is corrected, and the page goes; a raw program whose data the port gives up
ends with the port's failure. -/
def Obligations.TheBusTakesPhasesInDeadlineOrder : Prop :=
  (∀ (s : State) (c : Chan),
     (∀ (o : Op) (n : BusNeed), busTurn s c = some (o, n) → o ∈ s.ops ∧ chOf o.glun = c.val ∧ (∀ x ∈ s.ops, chOf x.glun = c.val → x.leaving = false) ∧
       (chanUp s c = false → n = .poll) ∧
       ∃ d, busNeed s o = some (d, n) ∧ ((∀ x ∈ s.ops, x.id < 2 ^ 64) → ∀ x ∈ s.ops, chOf x.glun = c.val →
         ∀ e m, busNeed s x = some (e, m) → servedIn (chanUp s c) m = true → d ≤ e)) ∧
     ((∃ o ∈ s.ops, chOf o.glun = c.val ∧ o.leaving = true) ∨ (∀ o ∈ s.ops, chOf o.glun = c.val → busNeed s o = none) → busTurn s c = none) ∧
     (∀ o : Op, busNeed s o = some (o.deadline, .confirm) → (o.type = .prog ∨ o.type = .slc) ∧ o.phase = .granted ∧ opPages s o ≤ o.pages ∧
       ∀ rid j, o.use = .member rid j → memberMayStart s rid j = true) ∧
     (∀ (o : Op) (i : Item) (x : Nat × Nat × Nat) (rest : List (Nat × Nat × Nat)), o.type = .read → o.phase = .dataOut → o.susp = false →
       o.cws = x :: rest → item? s x.2.2 = some i → i.step < 0x10 → i.stage = .reading →
       slotsFor s (chOf o.glun) i ≤ slotsUsed s (chOf o.glun) → readyPhase s o = none)) ∧
  (∀ (s : State) (c : Chan) (mp : PortEnd) (chk : PathCheck),
     let out := exec (.busPhaseIssue c ⟨mp, chk⟩) s
     ((∀ o p, busTurn s c ≠ some (o, .phase p)) → out = .next (pump s)) ∧
     (∀ (o : Op) (p : Phase), busTurn s c = some (o, .phase p) → s.ops.find? (fun x => x.id = o.id) = some o →
       let die := dieOf s o.glun
       let sends (bytes : List Byte) (o' : Op) : Prop :=
         ∃ v, out = .next (pump v) ∧ v.ops.find? (fun x => x.id = o.id) = some o' ∧
           (∀ x ∈ s.ops, x.id ≠ o.id → x ∈ v.ops) ∧ v.dram = s.dram ∧ v.cmds = s.cmds ∧
           (tget v.buses c {}).bytes = bytes ∧ (tget v.buses c {}).ce = some (ceOf o.glun)
       (p = .suspend → sends (dmByte die (if o.type = .erase then 0x27 else 0x25) :: rowCycles die (rowAddr die o.glun o.block o.wl 0 0))
         { o with susp := false, phase := .stopping s.tick, suspends := o.suspends + 1, polls := 0 }) ∧
       (p = .command → sends ((if (lun? s o.glun).bind (fun l => l.shadow) = some o.levels then [] else featBytes die o.glun o.levels) ++
         readBytes die o) { o with phase := .busy, confirm := s.tick, polls := 0 }) ∧
       (p = .dataOut → ∀ page cw id rest, o.cws = (page, cw, id) :: rest → sends (columnBytes die o page cw)
         { o with leaving := true, vccq := costF (costOf s o.glun) 4 4 2 }) ∧
       (p = .erase → setupBlocked s o = false → sends (eraseBytes die o) { o with phase := .busy, confirm := s.tick, polls := 0 }) ∧
       (p = .page → (o.pages = 0 → setupBlocked s o = false) →
         let op := if o.pages = 0 then openStream s o mp else (s, true)
         let way := pathCheck op.1 o chk
         (op.2 = false → out = .next (pump op.1)) ∧ (op.2 = true → way.2 = false → out = .next (pump way.1)) ∧
         (op.2 = true → way.2 = true → ∀ o1, way.1.ops.find? (fun x => x.id = o.id) = some o1 → o1.glun = o.glun → ∃ v, out = .next (pump v) ∧
           v.ops.find? (fun x => x.id = o.id) = some { o1 with
             pages := o1.pages + 1, phase := if o1.phase = .waiting ∧ opPages way.1 o1 ≤ o1.pages + 1 then .loaded way.1.tick else o1.phase } ∧
           (tget v.buses c {}).bytes = pageBytes way.1 o1 o1.pages ∧ (tget v.buses c {}).ce = some (ceOf o1.glun))) ∧
       (p = .page → o.pages = 0 → setupBlocked s o = false → ∀ cid d, o.use = .raw cid → cmd? s cid = some d →
         let n := rawBytes d * dmCwpp die * opPages s o
         (mp = .ok → openStream s o mp = (s, true)) ∧
         (mp ≠ .ok → ∃ v r, PortGaveUp (spanCut 0 (cmdSpans d) 0 n) mp s v (dataPort o.glun) r ∧ out = .next (pump (finish (dropOp v o) cid r)))) ∧
       (p = .raw → ∀ cid, o.use = .raw cid → out = .next (pump (rsPhase s o cid mp))) ∧
       ((p = .page ∧ o.pages = 0 ∨ p = .erase) → setupBlocked s o = true →
         ((∀ cid, o.use ≠ .raw cid) → ∃ v, out = .next (pump v) ∧
           v.ops.find? (fun x => x.id = o.id) = some { o with phase := .waiting, peak := 0, vccq := 0, hit := true } ∧
           v.buses = s.buses ∧ v.dram = s.dram ∧ v.cmds = s.cmds) ∧
         (∀ cid, o.use = .raw cid → ∃ v, out = .next (pump (rawRefuse v cid o.glun { status := 0x2004 })) ∧
           v.ops = s.ops.filter (fun x => x.id ≠ o.id) ∧ v.cmds = s.cmds ∧ v.buses = s.buses))) ∧
     (∀ (x : State) (o : Op) (cwx : Byte), pathCheck x o .clean = (x, true) ∧
       (cwx.toNat / max 1 (dmCwpp (dieOf x o.glun)) = o.pages →
         pathCheck x o (.staging cwx false) = (recoveredAny x 1 (chOf o.glun) 0, true) ∧
         pathCheck x o (.encoder cwx false) = (decPiFlag x 4, true))))

/-- PG_CONF goes to a program whose turn it is; the LUN is busy from then on. A transfer without admission CSQ_HOLD_MAX ticks after its end is
abandoned by RESET_LUN and made again, with HOLD_ABANDON. A suspended operation whose turn it is is resumed, once every read of the
suspension has delivered and none joins; the time of the suspension is counted. A poll comes POLL_FIRST sixteenths of the typical time
after the confirm, and then every POLL_IVL ticks. Busy leaves the operation; a read that is done reads out; a program or erase takes its
status and leaves its LUN, an erase with good status after its loops are read; a suspend that took effect stops it. A LUN busy longer than
TO_MULT times the maximum, suspensions and RETRAIN left out, is recorded, made SUSPECT and reset. Which row address a poll carries after
anything but a single-plane read is the model's choice (log entry 66). -/
def Obligations.OperationsRunInTheirLun : Prop :=
  (∀ (s : State) (g : Glun) (o : Op), s.ops.find? (fun x => x.id = o.id) = some o →
     let c := chOf g
     let becomes (i : Instr) (bytes : List Byte) (o' : Op) : Prop :=
       ∃ v, exec i s = .next (pump v) ∧ v.ops.find? (fun x => x.id = o.id) = some o' ∧ (∀ x ∈ s.ops, x.id ≠ o.id → x ∈ v.ops) ∧
         v.dram = s.dram ∧ v.cmds = s.cmds ∧ (tget v.buses c {}).bytes = bytes
     (turnOf s g = some (o, .confirm) →
       becomes (.programConfirm g) [dmByte (dieOf s g) 0x1C] { o with phase := .busy, confirm := s.tick, polls := 0 } ∧
       ∀ rid j r, o.use = .member rid j → row? s rid = some r → ∃ v x, exec (.programConfirm g) s = .next (pump v) ∧ row? v rid = some x ∧
         tget x.memb j .idle = .program) ∧
     ((∀ x, turnOf s g ≠ some (x, .confirm)) → exec (.programConfirm g) s = .next (pump s)) ∧
     (∀ at_, o.glun = g.val → o.phase = .loaded at_ → (∀ x ∈ s.ops, x.glun = g.val → (∃ n, x.phase = .loaded n) → x = o) →
       (at_ + rd s (regCsqHoldMax c) ≤ s.tick →
         ∃ v, exec (.holdMaxExpiry g) s = .next (pump v) ∧ bit (rd v (regCsqStatus c)) 2 = true ∧
           v.ops.find? (fun x => x.id = o.id) = some { o with pages := 0, phase := .waiting } ∧
           (∀ l, lun? s g = some l → lun? v g = some { l with shadow := none }) ∧ v.dram = s.dram ∧ v.cmds = s.cmds ∧
           (tget v.buses c {}).bytes = lunBytes s g 0x22 0 0) ∧
       (s.tick < at_ + rd s (regCsqHoldMax c) → exec (.holdMaxExpiry g) s = .next (pump s))) ∧
     (turnOf s g = some (o, .resume) → ∃ at_, o.phase = .stopped at_ ∧
       becomes (.operationResume g) (lunBytes s g (if o.type = .erase then 0x28 else 0x26) o.block o.wl)
         { o with phase := .busy, resumeAt := s.tick, suspTicks := o.suspTicks + (s.tick - at_) } ∧
       ∀ x ∈ s.ops, x.glun = g.val → x.type = .read → x.phase = .waiting ∨ (x.phase = .granted ∧ readsPast s o x = false)) ∧
     ((∀ x, turnOf s g ≠ some (x, .resume)) → exec (.operationResume g) s = .next (pump s))) ∧
  (∀ (s : State) (g : Glun) (o : Op) (status loops : Byte), s.ops.find? (fun x => x.id = o.id) = some o →
     let c := chOf g
     let die := dieOf s g
     let inArray (x : Op) : Prop := x.phase = .busy ∨ ∃ n, x.phase = .stopping n
     let dueAt : Nat := if o.polls = 0 then o.confirm + fieldAt die 0x2D 1 * dmTime die o.type false / 16 else o.lastPoll + fieldAt die 0x2E 2
     ((∀ x, turnOf s g ≠ some (x, .poll)) → ∀ r, exec (.statusPoll g r status loops) s = .next (pump s)) ∧
     (turnOf s g = some (o, .poll) → o.glun = g.val ∧ ((∃ n, o.phase = .stopping n ∧ (o.polls = 0 ∨ o.lastPoll + fieldAt die 0x2E 2 ≤ s.tick)) ∨ (o.phase = .busy ∧ dueAt ≤ s.tick)) ∧
       ∃ u, u.ops.find? (fun x => x.id = o.id) = some { o with polls := o.polls + 1, lastPoll := s.tick } ∧
         u = { s with ops := u.ops, buses := u.buses } ∧
         (tget u.buses c {}).bytes = dmByte die 0x21 :: pollAddr s o ∧
         (∀ q, dedupNat (o.cws.map (fun x => x.1 % dmPlanes die)) = [q] → pollAddr s o = rowCycles die (rowAddr die g o.block o.wl q o.bitpage)) ∧
         let p : Op := { o with polls := o.polls + 1, lastPoll := s.tick }
         exec (.statusPoll g .busy status loops) s = .next (pump u) ∧
         (o.type = .read → o.cws ≠ [] → ∃ v, exec (.statusPoll g .good status loops) s = .next (pump v) ∧
           exec (.statusPoll g .failed status loops) s = .next (pump v) ∧
           v.ops.find? (fun x => x.id = o.id) = some { p with phase := .dataOut, peak := 0 }) ∧
         (o.type = .prog ∨ o.type = .slc →
           exec (.statusPoll g .good status loops) s = .next (pump (progEnd (dropOp u o) o true status.toNat)) ∧
           exec (.statusPoll g .failed status loops) s = .next (pump (progEnd (dropOp u o) o false status.toNat))) ∧
         (o.type = .erase →
           let whole (x : State) : State := modBlk x g o.block (fun b => { b with interrupted := false })
           let get := busPut u g [dmByte die 0x24, BitVec.ofNat 8 (g % 8), dmByte die 0x2B]
           exec (.statusPoll g .good status loops) s = .next (pump (eraseEnd (dropOp (whole get) o) o true status.toNat loops.toNat)) ∧
           exec (.statusPoll g .failed status loops) s = .next (pump (eraseEnd (dropOp (whole u) o) o false status.toNat loops.toNat))) ∧
         (∀ at_, o.phase = .stopping at_ → ∃ v, exec (.statusPoll g .suspended status loops) s = .next (pump v) ∧
           v.ops.find? (fun x => x.id = o.id) = some { p with phase := .stopped at_ })) ∧
     (∀ cid, o.use = .raw cid → (o.type = .prog ∨ o.type = .slc) → ∀ (u : State) (good : Bool),
       progEnd u o good status.toNat = finish u cid { status := 0, ra := o.glun, rb := status.toNat }) ∧
     (o.glun = g.val → o.type ≠ .rawSeq → (∀ x ∈ s.ops, x.glun = g.val → x.type ≠ .rawSeq → inArray x → x = o) → o.phase = .busy →
       let lim := o.confirm + o.suspTicks + o.paused + max 1 (rdf s (regCsqCfg c) 3 0) * dmTime die o.type true
       (s.tick < lim ∨ rdf s (regPhyState c) 1 0 = 1 → exec (.lunTimeout g) s = .next (pump s)) ∧
       (lim ≤ s.tick → rdf s (regPhyState c) 1 0 ≠ 1 → ∃ u v, exec (.lunTimeout g) s = .next (pump (lunReset u g)) ∧
         bit (rd v (regCsqStatus c)) 0 = true ∧ v = { s with regs := v.regs, evc := v.evc } ∧
         rd v (regCsqTimeoutLun c) = (2 ^ 31 + (match o.use, o.type with | .raw _, _ => 3 | _, .read => 0 | _, .erase => 2 | _, _ => 1) * 2 ^ 8 +
           g % 128) % 2 ^ 32 ∧
         (∀ l, lun? s g = some l → (l.state = 0 ∨ l.state = 3 → u = setLunState v g 1) ∧ (l.state = 1 ∨ l.state = 2 → u = v)))) ∧
     ((∀ x ∈ s.ops, x.glun = g.val → x.type ≠ .rawSeq → ¬inArray x) → exec (.lunTimeout g) s = .next (pump s)))

/-- Any k members of a row, data or parity, give every other member of it (R271): the solution that a stripe engine computes from at least k
of the codewords of one row, for up to 32 data and 3 parity members, is the wanted member's codeword. -/
def Obligations.AnyKMembersGiveTheOthers : Prop :=
  ∀ (k m want : Nat) (data : List (List Byte)) (got : Tab (List Byte)), k ≤ 32 → m ≤ 3 → data.length = k → (∀ d ∈ data, d.length = 4112) →
    want < k + m →
    let member (j : Nat) : List Byte := if j < k then data.getD j [] else parityOf (j - k) data
    (∀ p ∈ got, p.1 < k + m ∧ p.2 = member p.1) → (got.map (fun p => p.1)).Nodup → k ≤ got.length →
    solveRow k m got want = member want

/-- A codeword whose data-out ends is tested before anything else: with at most DEC_ERASED.THRESH zero bits it is erased, else it is
de-randomised and waits for a decoder, a raw one of MODE 1 or 2 goes out, and a sweep's skips the test. A detection in staging SRAM has
the data-out repeated, the third ends the codeword with INTERNAL_CHECK. A free decoder of a pool that is on serves both queues of its
quadrant as one, codewords of the sister pool's channels only while that pool has none idle: the class A codeword with the earliest
deadline while one waits, but for the decoders kept for class B work that waits, and else the earliest of class B. A detection in staging
SRAM on the way has the codeword read again. The decode of a codeword ends. With no check of the code unsatisfied its 4,120 bytes go to
all that want it; else the failed decode is counted and the codeword climbs its ladder, unless its LUN-block is under erase or its member
or channel has left service. Of a sweep's codeword the weight is taken. A detection in the decoder decodes it once more, the second ends
it with INTERNAL_CHECK. -/
def Obligations.CodewordsAreTestedAndDecoded : Prop :=
  (∀ (s : State) (c : Chan) (raw : List Byte),
     ((∀ o ∈ s.ops, chOf o.glun = c.val → o.leaving = false) → ∀ det, exec (.codewordReceived c raw det) s = .next (pump s)) ∧
     (∀ (o : Op) (page cw id : Nat) (rest : List (Nat × Nat × Nat)) (i : Item), s.ops.find? (fun x => x.id = o.id) = some o →
       chOf o.glun = c.val → o.leaving = true → (∀ x ∈ s.ops, chOf x.glun = c.val → x.leaving = true → x = o) →
       o.cws = (page, cw, id) :: rest → item? s id = some i → raw.length = 4648 →
       ∃ u, u = { s with ops := u.ops, gov := u.gov } ∧
         u.ops.find? (fun x => x.id = o.id) = some { o with leaving := false, vccq := 0 } ∧
         (i.strikes < 2 → exec (.codewordReceived c raw true) s =
           .next (pump (modItem (recoveredAny u 1 c 0) id (fun i => { i with strikes := i.strikes + 1 })))) ∧
         ∃ w, w = { u with ops := w.ops } ∧ w.ops.find? (fun x => x.id = o.id) = some { o with leaving := false, vccq := 0, cws := rest } ∧
           let j : Item := { i with readBy := ((lun? s i.glun).map (fun l => l.ran)).getD 0 }
           (2 ≤ i.strikes → exec (.codewordReceived c raw true) s =
             .next (pump (endRead (itemFail (unrecoveredAny w 1 c 0) j 0x5004 0x40 0) o.id))) ∧
           exec (.codewordReceived c raw false) s = .next (pump (endRead (itemReceived (modItem w id (fun _ => j)) j raw) o.id))) ∧
     (∀ (i : Item), raw.length = 4648 →
       let clear := scramble (seedOf i.glun i.block i.wl i.page i.cw) raw
       let x := modItem s i.id (fun _ => i)
       let erased : Prop := zeroBits raw ≤ rdGen s i.gen regDecErased % 65536
       (i.step < 0x10 → i.use ≠ [] → (∀ u ∈ i.use, ∀ cid idx md, u = .raw cid idx md → md = 0) → (∀ u ∈ i.use, ∀ n, u ≠ .sweep n) →
         (erased → itemReceived s i raw = itemErased x i) ∧
         (¬erased → itemReceived s i raw = itemStaged x i clear)) ∧
       (∀ n, i.step < 0x10 → i.use = [.sweep n] → itemReceived s i raw = itemStaged x i clear) ∧
       (∀ cid idx, i.use = [.raw cid idx 1] → itemReceived s i raw = dropItem (rawGot s cid idx i.glun clear) i.id) ∧
       (∀ cid idx, i.use = [.raw cid idx 2] → itemReceived s i raw = dropItem (rawGot s cid idx i.glun raw) i.id)) ∧
     (∀ (i : Item), item? s i.id = some i → (waitingDec s (quadOf i.glun)).length < 1024 →
       ∃ v, itemStaged s i raw = v ∧ item? v i.id = some { i with stage := .staged, raw := raw, queued := s.nextId } ∧
         v = { s with items := v.items, nextId := s.nextId + 1 })) ∧
  (∀ (s : State) (p : Pool) (soft : Bool),
     let ds := decodersOf s p soft
     let home (i : Item) : Bool := decide (poolOf (chOf i.glun) = p.val)
     let l := (decQueue s (p / 2) soft).filter (fun i => home i || !(idleDec s (poolOf (chOf i.glun)) soft))
     let before (x y : Item) : Prop := x.deadline < y.deadline ∨ (x.deadline = y.deadline ∧
       (home x = true ∧ home y = false ∨ home x = home y ∧ x.queued < y.queued))
     (domOn s (64 + p) = false ∨ (∀ d ∈ ds, (tget? (decPool s p).busy d).isSome = true) ∨ l = [] →
       ∀ det, exec (.decodeStart p ⟨soft, det⟩) s = .next (pump s)) ∧
     (∀ (d : Nat) (i : Item), domOn s (64 + p) = true → ds.find? (fun d => (tget? (decPool s p).busy d).isNone) = some d →
       i ∈ l → item? s i.id = some i →
       (∀ x ∈ s.items, x.queued < 2 ^ 64) → (∀ x ∈ l, classA x = classA i → x = i ∨ before i x) →
       let takes : Prop := exec (.decodeStart p ⟨soft, true⟩) s = .next (pump (stagingCheck s i)) ∧
         ∃ v, exec (.decodeStart p ⟨soft, false⟩) s = .next (pump v) ∧ item? v i.id = some { i with stage := .decoding p d } ∧
           tget? (decPool v p).busy d = some i.id ∧ (∀ x ∈ s.items, x.id ≠ i.id → x ∈ v.items) ∧
           v = { s with items := v.items, decs := v.decs }
       let keep := if soft then 1 else 2
       ((∀ x ∈ l, classA x = classA i) → takes) ∧
       ((∃ x ∈ l, classA x ≠ classA i) →
         (classA i = true → busyA s p soft + keep < ds.length → takes) ∧
         (classA i = false → ds.length ≤ busyA s p soft + keep → takes)))) ∧
  (∀ (s : State) (p : Pool) (d : Fin 10) (out : List Byte) (iters : Nat),
     (tget? (decPool s p).busy d = none → ∀ det, exec (.decodeDone p d out iters det) s = .next (pump s)) ∧
     (∀ (i : Item), tget? (decPool s p).busy d = some i.id → item? s i.id = some i → out.length = 4648 →
       let soft := decide (0x10 ≤ i.step)
       let n := unsat (codeOf s (50 + p) i.gen) out
       let it := min iters (iterLimit s i.gen soft)
       ∃ u, u = { s with decs := u.decs } ∧ tget? (decPool u p).busy d = none ∧
         (∀ e, e ≠ d.val → tget? (decPool u p).busy e = tget? (decPool s p).busy e) ∧
         (∀ id, sweepOf i = some id → exec (.decodeDone p d out iters false) s =
           .next (pump (sweepGot (dropItem u i.id) id (unsat (codeOf s (50 + p) i.gen) i.raw)))) ∧
         (sweepOf i = none → n = 0 → exec (.decodeDone p d out iters false) s = .next (pump (decoded u i out it))) ∧
         (sweepOf i = none → n ≠ 0 → ∃ w v, w = { u with regs := w.regs } ∧ v = (if i.step = 0 then errBurst w i.glun else w) ∧
           exec (.decodeDone p d out iters false) s = .next (pump (climb (dropItem v i.id)
             { i with fails := if soft then i.fails else i.fails ++ [(i.step, n)] } it 0x4001 0 0)) ∧
           (∀ a, a ≠ regDecPoolCnt p → rd w a = rd s a) ∧
           (if soft then rdf w (regDecPoolCnt p) 15 0 else rdf w (regDecPoolCnt p) 31 16) =
             min 65535 ((if soft then rdf s (regDecPoolCnt p) 15 0 else rdf s (regDecPoolCnt p) 31 16) + 1)) ∧
         (i.dstrikes = 0 → exec (.decodeDone p d out iters true) s = .next (pump (modItem (recoveredAny (decFlag u p 0) 5 (p * 10 + d) 0) i.id
           (fun i => { i with stage := .staged, dstrikes := 1 })))) ∧
         (i.dstrikes ≠ 0 → exec (.decodeDone p d out iters true) s =
           .next (pump (itemFail (unrecoveredAny u 5 (p * 10 + d) 0) i 0x5004 0x42 0)))) ∧
     (∀ (i : Item), let climbs := climb s i iters 0x4001 0 0
       (underErase s i.glun i.block = true → climbs = i.use.foldl (fun s u => useFail s i u 0x4005 0 0) (ladderEnd s i iters false)) ∧
       (underErase s i.glun i.block = false → rawFenced s i.glun = false → i.level = none →
         (i.use ≠ [] → (∀ u ∈ i.use, leaves s i u = false) →
           (∀ n, stepAfter (rlOf s i.gen i.glun) i.step = some n → earlyRecon s i n = none →
             let j : Item := { i with step := n, reads := 0, raws := (if n = 0x11 then i.raws else []), llr := [], stage := .reading, raw := [] }
             climbs = queueStep { trace s (quadOf i.glun) 4 (chOf i.glun) [n, i.glun + 2 ^ 12 * i.wl] with items := s.items ++ [j] } j) ∧
           (i.step = 0x11 → climbs = i.use.foldl (fun s u => useFail s i u 0x4001 0 0) (ladderEnd (noteUnread s i) i iters true))) ∧
         (∀ cid off, i.use = [.blk cid off] → leaves s i (.blk cid off) = true →
           climbs = blkReconOrFail (ladderEnd s i iters false) cid off)) ∧
       (∀ rl : List Byte, (i.step < rlSteps rl → i.step < 0x10 → stepAfter rl i.step = some (i.step + 1)) ∧
         (i.step < 0x10 → rlSteps rl ≤ i.step → stepAfter rl i.step = some 0x10) ∧ (i.step = 0x10 → stepAfter rl i.step = some 0x11))))

/-- With k survivors there and its region held, a reconstruction gives the lost codeword to what it was made for: a zone read's block, which
checks it, a rebuild's spare chunk, a reshape copy or a scrub. A detection in the slot has it computed again, the second ends it; without
the survivors, or with its engine off, nothing happens. Under STRICT a zone or raw read past its deadline with nothing admitted ends with
BUDGET_EXHAUSTED. -/
def Obligations.ReconstructionsAndStrictReads : Prop :=
  (∀ (s : State) (rid : Nat) (r : Recon) (lt : Layout), recon? s rid = some r → layoutOf? s r.zid = some lt →
    let u := endRecon (dropSurvivors s rid) rid
    let q := reconQuad s r.zid r.member
    let lit : Prop := domOn s (72 + q * 2) = true ∧ domOn s (88 + q) = true
    (r.region = false ∨ r.got.length < lt.k ∨ ¬lit → ∀ det, exec (.reconstructionDone rid det) s = .next (pump s)) ∧
    (r.region = true → lt.k ≤ r.got.length → lit →
      (r.strikes = 0 → exec (.reconstructionDone rid true) s =
        .next (pump (modRecon (recoveredAny s 2 q 1) rid (fun r => { r with strikes := 1 })))) ∧
      (r.strikes ≠ 0 → exec (.reconstructionDone rid true) s = .next (pump (reconLost s r))) ∧
      (∀ fg zid row ms, r.use = .spare fg zid row ms → exec (.reconstructionDone rid false) s =
        .next (pump (unitChunk u fg zid row r.cwx (ms.map (fun j => (j, solveRow lt.k lt.m r.got j)))))) ∧
      (∀ (g b : Nat), loc? u r.zid r.member = some (g, b) →
        let body := solveRow lt.k lt.m r.got r.member
        (∀ fg zid row blk, r.use = .copy fg zid row blk → exec (.reconstructionDone rid false) s =
          .next (pump (copyGot u fg zid row blk g body (isPoison body)))) ∧
        (∀ cid, r.use = .scrub cid → lt.k ≤ r.member ∨ guardOk body = true → exec (.reconstructionDone rid false) s =
          .next (pump (scrubTake u cid r.member r.cwx none))) ∧
        (∀ cid off, r.use = .blk cid off → r.back = none → ∀ c : Cmd, cmd? u cid = some c →
          (∀ f, outCheck c off body = some f → exec (.reconstructionDone rid false) s =
            .next (pump (blkFail u cid off (readFail f.1 off g b r.row (0x38 + f.2.1) f.2.2)))) ∧
          (outCheck c off body = none → piMode c = 0 →
            exec (.reconstructionDone rid false) s = .next (pump (deliver u cid off g body true))))))) ∧
  (∀ (c : Cmd) (off : Nat) (body : List Byte),
    (guardOk body = false → outCheck c off body = some (0x5001, 0, crc64 (bodyData body))) ∧
    (∀ w, guardOk body = true → wantRef c off = some w → bodyRef body ≠ w → outCheck c off body = some (0x5002, 1, w))) ∧
  (∀ (s : State) (c : Cmd) (d : Nat), cmd? s c.cid = some c → fieldAt c.pkt 0 1 = 3 ∨ fieldAt c.pkt 0 1 = 0x41 → c.stage = .running →
    c.deadline = some d →
    (bit (rd s regGovCfg) 0 = true → d ≤ s.tick → untouched s c = true →
      exec (.strictDeadlineExpiry c.cid) s = .next (pump (finish (govFlag (withdraw_ s c.cid) 1) c.cid { status := 0x3003 }))) ∧
    (bit (rd s regGovCfg) 0 = false ∨ s.tick < d ∨ untouched s c = false → exec (.strictDeadlineExpiry c.cid) s = .next (pump s)))

/-- RAW_PROGRAM and RAW_ERASE are refused with RAW_REFUSED set: on a locked option-area block and on a protected LUN WRITE_PROTECTED, on a
LUN-block held by the block's own structures STATE_CONFLICT unless the LUN is FAILED. RAW_READ of a LUN-block under erase is
TARGET_ERASING, and all three are CHANNEL_FENCED on a fenced channel. Else a program or erase is queued as one operation, a program behind
an erase where the last erase of its LUN-block was interrupted, and a read as one codeword each, which a waiting codeword of the same
place serves too. -/
def Obligations.RawAccessesAreRefusedOrQueued : Prop :=
  ∀ (s : State) (cid : Nat) (c : Cmd),
    let u := running s cid
    let g := fieldAt c.pkt 0x28 8 % 4096
    let b := bits (fieldAt c.pkt 0x30 8) 11 0
    let slc := bit (fieldAt c.pkt 0x30 8) 34
    let refused (i : Instr) (wp : Bool) (st : Nat) : Prop :=
      ∃ v, exec i s = .next (pump (finish v cid { status := st })) ∧ v = { u with regs := v.regs } ∧
        bit (rd v (regCsqStatus (chOf g))) 3 = true ∧ (wp = true → bit (rd v regWpStatus) 0 = true)
    (∀ p ∈ [(0x41, Instr.rawRead cid), (0x42, .rawProgram cid), (0x43, .rawErase cid)], startable s cid p.1 = some c →
      rdf u (regPhyState (chOf g)) 1 0 = 3 → EndsWith (exec p.2 s) u cid { status := 0x7003, ra := 0, rb := b * 2 ^ 32, detail := g }) ∧
    (∀ p ∈ [(0x42, Instr.rawProgram cid), (0x43, .rawErase cid)], startable s cid p.1 = some c →
      rdf u (regPhyState (chOf g)) 1 0 ≠ 3 →
      (inOa g b = true → oaOpen u c g = false → refused p.2 true 0x2004) ∧
      (inOa g b = false ∨ oaOpen u c g = true →
        (rawHeld u g b 1 = true → refused p.2 false 0x2001) ∧
        (rawHeld u g b 1 = false → protected? u g = true → refused p.2 true 0x2004) ∧
        (rawHeld u g b 1 = false → protected? u g = false →
          let again := p.1 = 0x42 ∧ (blkSt u g b).interrupted = true ∧ (∀ x ∈ u.ops, x.glun = g → x.block = b → x.use ≠ .again)
          ∃ v o e, exec p.2 s = .next (pump v) ∧ v = { u with ops := v.ops, nextId := v.nextId } ∧
            (again → v.ops = u.ops ++ [e, o] ∧ e.use = .again ∧ e.type = .erase ∧ e.glun = g ∧ e.block = b) ∧
            (¬again → v.ops = u.ops ++ [o]) ∧ o.glun = g ∧
            o.block = b ∧ o.use = .raw cid ∧ o.kind = .x ∧ o.phase = .waiting ∧ o.slc = slc ∧
            o.type = (if p.1 = 0x43 then .erase else if slc then .slc else .prog) ∧
            o.wl = (if p.1 = 0x42 then bits (fieldAt c.pkt 0x30 8) 20 12 else 0) ∧
            (∀ d, c.deadline = some d → o.deadline = d ∧ o.real = true) ∧ (c.deadline = none → o.deadline = s.tick + lead s .x)))) ∧
    (lunFailed u g = true → rawHeld u g b 1 = false) ∧
    (startable s cid 0x41 = some c → rdf u (regPhyState (chOf g)) 1 0 ≠ 3 →
      (underErase u g b = true → ∃ v, exec (.rawRead cid) s = .next (pump (finish v cid
          { status := 0x4005, ra := 0, rb := b * 2 ^ 32 + bits (fieldAt c.pkt 0x30 8) 20 12, detail := g })) ∧
        v = { u with regs := v.regs } ∧ bit (rd v (regCsqStatus (chOf g))) 3 = true) ∧
      (underErase u g b = false → ∃ v, exec (.rawRead cid) s = .next (pump v) ∧ v.dram = s.dram ∧
        (∃ d, cmd? v cid = some d ∧ d.left = fieldAt c.pkt 0x14 4 ∧ d.stage = .running) ∧
        (∀ n, n < fieldAt c.pkt 0x14 4 → ∃ x ∈ v.items, .raw cid n (bits (fieldAt c.pkt 0x30 8) 33 32) ∈ x.use ∧ x.glun = g ∧ x.block = b ∧
          x.page * dmCwpp (dieOf s g) + x.cw =
            bits (fieldAt c.pkt 0x30 8) 24 21 * dmCwpp (dieOf s g) + bits (fieldAt c.pkt 0x30 8) 26 25 + n))) ∧
    (∀ (t : State) (d : Cmd), cmd? t cid = some d → d.stage = .running → d.left = 0 → d.badBlks = [] → fieldAt d.pkt 0x28 8 = fieldAt c.pkt 0x28 8 →
      rawReadSettle t cid = finish t cid { status := 0, ra := g, rb := fieldAt d.pkt 0x14 4 * (if rawMode d = 0 then 4120 else 4648) })

/-- RAW_SEQUENCE checks its entries (R185), its channel, the option-area LUNs, what its LUN holds, and protection, and then stands as one
operation on its LUN. A WAIT_RDY polls with STATUS and the last row address; with the LUN ready the sequence goes on as a new operation,
and once its ticks have passed the poll that finds the LUN busy ends it after RESET_LUN, with the last status byte, the timeout mark and
the entry's index. A WAIT_TICKS lasts its ticks. -/
def Obligations.RawSequencesRunAndWait : Prop :=
  (∀ (s : State) (cid : Nat) (c : Cmd), startable s cid 0x40 = some c →
    let u := running s cid
    let g := fieldAt c.pkt 0x28 8 % 4096
    let n := fieldAt c.pkt 0x14 4
    let b := dramRead u (fieldAt c.pkt 0x18 8) (8 * n)
    let refused (st : Nat) (wp : Bool) : Prop :=
      ∃ v, exec (.rawSequence cid .ok) s = .next (pump (finish v cid { status := st })) ∧ v = { u with regs := v.regs } ∧
        bit (rd v (regCsqStatus (chOf g))) 3 = true ∧ (wp = true → bit (rd v regWpStatus) 0 = true)
    EndsOnPort (fun mp => exec (.rawSequence cid mp) s) u c (8 * n) ∧
    (rsOk b n = false → EndsWith (exec (.rawSequence cid .ok) s) u cid { status := 0x1002, detail := 0x18 }) ∧
    (rsOk b n = true → rdf u (regPhyState (chOf g)) 1 0 = 3 →
      EndsWith (exec (.rawSequence cid .ok) s) u cid { status := 0x7003, ra := 0, rb := 0, detail := g }) ∧
    (rsOk b n = true → rdf u (regPhyState (chOf g)) 1 0 ≠ 3 →
      (g % 1024 = 0 → refused 0x2004 false) ∧
      (g % 1024 ≠ 0 →
        (rawHeld u g 0 4096 = true → refused 0x2001 false) ∧
        (rawHeld u g 0 4096 = false →
          (protected? u g = true → rsWrites b n (dieOf u g) = true → refused 0x2004 true) ∧
          (protected? u g = false ∨ rsWrites b n (dieOf u g) = false →
            ∃ v o, exec (.rawSequence cid .ok) s = .next (pump v) ∧ v.ops = s.ops ++ [o] ∧ o.type = .rawSeq ∧ o.glun = g ∧ o.use = .raw cid ∧
              o.phase = .waiting ∧ v.dram = s.dram ∧ v.items = s.items))))) ∧
  (∀ (b : List Byte) (n : Nat),
    (rsOk b n = true ↔ (∃ e, e < n ∧ rsKind b e = 0) ∧ (∀ i, i < n → rsKind b i ≤ 6) ∧
      (rsRuns b n).sum ≤ 524288 ∧ ∀ x ∈ rsRuns b n, x ≤ 65536)) ∧
  (∀ (s : State) (g : Glun) (status : Byte) (late : Bool),
    ((∀ o ∈ s.ops, o.glun = g.val → o.type ≠ .rawSeq ∨ o.phase ≠ .busy) → exec (.rawWaitEnd g status late) s = .next (pump s)) ∧
    (∀ (o : Op) (cid : Nat) (c : Cmd) (i : Nat), s.ops.find? (fun x => x.id = o.id) = some o → o.glun = g.val → o.type = .rawSeq →
      o.phase = .busy → o.use = .raw cid → (∀ x ∈ s.ops, x.glun = g.val → x.type = .rawSeq → x = o) →
      cmd? s cid = some c → c.cid = cid → c.acc.getD 0 0 = i + 1 →
      let due := o.confirm + rsValue c.bytes i ≤ s.tick
      let goesOn (v : State) : Prop := ∃ w, exec (.rawWaitEnd g status late) s = .next (pump w) ∧ w = { v with ops := w.ops, gov := w.gov } ∧
        w.ops.find? (fun x => x.id = o.id) = some { o with phase := .waiting, pages := 1, peak := 0 }
      (rsKind c.bytes i = 5 →
        let d := dieOf s g.val
        let v := modCmd (busPut s g.val (BitVec.ofNat 8 (fieldAt d 0x21 1) :: (c.acc.drop 3).map (BitVec.ofNat 8))) cid
          (fun _ => { c with first := status.toNat })
        (busOpen s (chOf g.val) = false ∨ (late = true ∧ ¬due) → exec (.rawWaitEnd g status late) s = .next (pump s)) ∧
        (busOpen s (chOf g.val) = true → late = false → goesOn v) ∧
        (busOpen s (chOf g.val) = true → late = true → due → exec (.rawWaitEnd g status late) s = .next (pump (finish (resetLun (dropOp v o) g) cid
          { status := 0, ra := g, rb := i * 2 ^ 16 + 2 ^ 8 + status.toNat })))) ∧
      (rsKind c.bytes i = 6 → (due → goesOn s) ∧ (¬due → exec (.rawWaitEnd g status late) s = .next (pump s)))))

/-- LAYOUT_DEFINE of an image against the rules is BAD_FIELD with DETAIL 0x18; of an index in use, of a group with a layout or with the
journal stopped STATE_CONFLICT; without room in the layout store NO_BUFFER; before the journal scan it waits. Else the layout is bound to
its group under free pages of the store, which take its image, and on a fresh group the command ends once its LAYOUT entry is durable. A
layout that passes the checks keeps R93 and R94: the declustering table fills every POS with each SLOT once, no row of it names a POS
twice or more than m members on one channel, the LUNs are distinct, present and of the model, the zone range and the staging sets lie
where they may, and the staging list holds every zone's partial row. -/
def Obligations.LayoutsAreCheckedAndBound : Prop :=
  (∀ (s : State) (cid : Nat) (c : Cmd), startable s cid 0x10 = some c →
     let u := running s cid
     let o := exec (.layoutDefine cid .ok) s
     let idx := fieldAt c.pkt 0x28 8 % 65536
     EndsOnPort (fun mp => exec (.layoutDefine cid mp) s) u c (layFetch u (fieldAt c.pkt 0x18 8)) ∧
     (readLayout u (fieldAt c.pkt 0x18 8) = none → EndsWith o u cid { status := 0x1002, detail := 0x18 }) ∧
     (∀ lt, readLayout u (fieldAt c.pkt 0x18 8) = some lt →
       let g := group s lt.fg
       (layoutInUse s idx = true ∨ g.layout ≠ none ∨ s.jrn.stopped = true → EndsWith o u cid { status := 0x2001 }) ∧
       (layoutInUse s idx = false → g.layout = none → s.jrn.stopped = false →
         (256 * rd s regHopLtSize < ltUsed s + pagesOf lt.image.length + fixedPages s lt.fg → EndsWith o u cid { status := 0x3001 }) ∧
         (ltUsed s + pagesOf lt.image.length + fixedPages s lt.fg ≤ 256 * rd s regHopLtSize →
           (s.jrn.scanned = false → o = .next (pump (modCmd u cid (fun c => { c with stage := .waiting })))) ∧
           (s.jrn.scanned = true →
             let bound (v : State) : Prop :=
               (∃ ps, tget? v.layouts idx = some { lt with pages := ps } ∧ ps.length = pagesOf lt.image.length ∧ ps.Nodup ∧
                 (∀ p ∈ ps, p ∉ ltTaken s) ∧ v.dram = (ltStore s ps lt.image).dram) ∧
               (group v lt.fg).layout = some idx ∧ (g.pages = [] → (group v lt.fg).pages.length = 20) ∧
               (∀ k, k ≠ idx → tget? v.layouts k = tget? s.layouts k) ∧ (∀ k, k ≠ lt.fg → group v k = group s k)
             (g.await = false → ∃ v, bound v ∧ o = .next (pump (finishDurable (jrnLayout v lt.fg 0 idx lt.image) cid { ra := idx }))) ∧
             (g.await = true → digestWrong s lt.fg lt.image = true → EndsWith o u cid { status := 0x2001 }) ∧
             (g.await = true → digestWrong s lt.fg lt.image = false →
               ∃ v, bound v ∧ o = .next (pump (jrnLayout v lt.fg 0 idx lt.image)))))))) ∧
  (∀ (s : State) (lt : Layout), layoutRules s lt = true → lt.dt.length = lt.dtRows → (∀ r ∈ lt.dt, r.length = lt.k + lt.m) →
     let d := layDie s lt
     (∀ slot pos, slot < lt.c → pos < lt.n → (slot, pos) ∈ lt.dt.flatten) ∧ lt.dt.flatten.Nodup ∧
     (∀ r ∈ lt.dt, (r.map (fun e => e.2)).Nodup ∧
       ∀ ch, (r.filter (fun e => chOf (lt.luns.getD e.2 0) = ch)).length ≤ lt.m) ∧
     lt.luns.Nodup ∧ (∀ g ∈ lt.luns, ∃ l, lun? s g = some l ∧ l.model = lt.dieModel) ∧ dmWlb d ≤ 512 ∧
     lt.blockBase + lt.blockCount ≤ dmBpp d ∧ lt.zoneCount ≤ lt.blockCount / lt.c * lt.dtRows ∧
     (∀ f i o, f ≠ lt.fg → tget? s.groups f = some o → o.layout = some i → ∀ x, tget? s.layouts i = some x →
       ∀ z, ¬(lt.zidBase ≤ z ∧ z < lt.zidBase + lt.zoneCount ∧ x.zidBase ≤ z ∧ z < x.zidBase + x.zoneCount)) ∧
     (∀ set ∈ lt.staging, (set.map (fun l => chOf l.1)).Nodup ∧ ∀ l ∈ set, l.1 ∈ lt.luns ∧ l.2 < dmBpp d ∧
       (l.2 < lt.blockBase ∨ lt.blockBase + lt.blockCount ≤ l.2)) ∧
     lt.zoneCount * (lt.k * cbOf d + 128) * 5 / 4 ≤ lt.s * dmWlb d * cbsOf d)

/-- RESHAPE_BEGIN needs a layout image that passes the rules with the group, ZID_BASE and ZONE_COUNT of the bound one under a free index,
disjoint ranges and lists, and room; then it takes the lease with the boundary at ZID_BASE. Naming the aborted one again resumes at the
boundary. RESHAPE_ABORT frees the lease, drops the copy and answers the boundary and the rows copied. The boundary zone crosses once
nothing of it is in flight and its copy is durable: it takes the new layout and no member exception, loses DEGRADED, keeps WP, and the
boundary moves on; an OFFLINE zone crosses as EMPTY with WP 0. A zone that a restart finds across moves the boundary alone. With the last
zone across, the new layout is the group's only one, the lease is free and source 1010 is raised. -/
def Obligations.ReshapesMoveTheZones : Prop :=
  (∀ (s : State) (cid : Nat) (c : Cmd) (old : Layout),
     let u := running s cid
     let fg := fieldAt c.pkt 0x28 8 % 65536
     let idx := fieldAt c.pkt 0x30 8 % 65536
     let g := group s fg
     boundLayout s fg = some old →
     (startable s cid 0x11 = some c →
       let o := exec (.reshapeBegin cid .ok) s
       let began (v : State) (under : Option Nat) (at_ : Nat) : Prop := o = .next (pump (finish v cid { ra := fg })) ∧ (group v fg).lease = .reshape ∧
         (group v fg).newIdx = some idx ∧ (group v fg).boundary = at_ ∧ (group v fg).copied = 0 ∧ (group v fg).cp = none ∧
         (group v fg).layout = under ∧ (∀ k, k ≠ fg → group v k = group s k)
       EndsOnPort (fun mp => exec (.reshapeBegin cid mp) s) u c (layFetch u (fieldAt c.pkt 0x18 8)) ∧
       (readLayout u (fieldAt c.pkt 0x18 8) = none → EndsWith o u cid { status := 0x1002, detail := 0x18 }) ∧
       (∀ lt, readLayout u (fieldAt c.pkt 0x18 8) = some lt →
         (lt.fg ≠ fg ∨ lt.zidBase ≠ old.zidBase ∨ lt.zoneCount ≠ old.zoneCount → EndsWith o u cid { status := 0x1002, detail := 0x18 }) ∧
         (lt.fg = fg → lt.zidBase = old.zidBase → lt.zoneCount = old.zoneCount →
           (g.lease ≠ .free → EndsWith o u cid (leaseBusy s fg)) ∧
           (g.lease = .free → s.jrn.stopped = false → g.await = false →
             (g.newIdx = some idx → (∃ x, tget? s.layouts idx = some x ∧ x.image = lt.image) → ∃ v, began v g.layout g.boundary ∧ v.dram = s.dram) ∧
             (∀ k, g.newIdx = some k → k ≠ idx → g.layout = some idx → old.image = lt.image → ∃ v, began v (some k) old.zidBase ∧ v.dram = s.dram) ∧
             (g.newIdx = none →
               (layoutInUse s idx = true → EndsWith o u cid { status := 0x1002, detail := 0x18 }) ∧
               (layoutInUse s idx = false → reshapeFits s old lt = false → EndsWith o u cid { status := 0x2001 }) ∧
               (layoutInUse s idx = false → reshapeFits s old lt = true → ltRoom s lt = false → EndsWith o u cid { status := 0x3001 }) ∧
               (layoutInUse s idx = false → reshapeFits s old lt = true → ltRoom s lt = true →
                 ∃ v ps, began v g.layout lt.zidBase ∧ tget? v.layouts idx = some { lt with pages := ps } ∧
                   v.dram = (ltStore s ps lt.image).dram)))))) ∧
     (startable s cid 0x13 = some c →
       let o := exec (.reshapeAbort cid) s
       (g.lease ≠ .reshape → EndsWith o u cid { status := 0x2001 }) ∧
       (∀ p, g.lease = .reshape → reshapeLayouts s fg = some p →
         ∃ v, o = .next (pump (finish (autoPass v fg) cid { ra := fg, rb := g.boundary * 2 ^ 32 + g.copied })) ∧
           (group v fg).lease = .free ∧ (group v fg).cp = none ∧ (group v fg).boundary = g.boundary ∧ (group v fg).layout = g.layout ∧
           (group v fg).newIdx = g.newIdx ∧ v.layouts = s.layouts ∧ (∀ x ∈ v.stagings, x.reshape = true → x.fg ≠ fg) ∧
           (zone v g.boundary).layout = (zone s g.boundary).layout))) ∧
  ((∀ (s : State) (fg : BitVec 16),
     ((group s fg.toNat).lease ≠ .reshape → exec (.reshapeZoneCross fg) s = .next (pump s)) ∧
     (∀ old new, (group s fg.toNat).lease = .reshape → reshapeLayouts s fg.toNat = some (old, new) →
       let zid := (group s fg.toNat).boundary
       let last (t : State) : State := if old.zidBase + old.zoneCount ≤ (group t fg.toNat).boundary then reshapeEnd t fg.toNat new else t
       (hasCrossed s fg.toNat zid = true → exec (.reshapeZoneCross fg) s =
         .next (pump (last (modGroup s fg.toNat (fun g => { g with boundary := zid + 1, copied := 0 }))))) ∧
       (hasCrossed s fg.toNat zid = false → copyReady s zid = true → copyEnded s fg.toNat zid new = true →
         exec (.reshapeZoneCross fg) s = .next (pump (last (crossZone s fg.toNat zid old new)))) ∧
       (hasCrossed s fg.toNat zid = false → copyReady s zid = false ∨ copyEnded s fg.toNat zid new = false →
         exec (.reshapeZoneCross fg) s = .next (pump s)))) ∧
   (∀ (s : State) (fg zid : Nat) (old new : Layout), (group s fg).cpBad = [] →
     (∀ i, (group s fg).newIdx = some i → i < 2 ^ 16) →
     let e := zone s zid
     let v := crossZone s fg zid old new
     let z := zone v zid
     z.layout = (group s fg).newIdx.getD 0 ∧ z.state = (if e.state = 7 then 0 else e.state) ∧ z.wp = (if e.state = 7 then 0 else e.wp) ∧ z.appendPt = z.wp ∧
       (e.overlay = 1 → z.overlay = 0) ∧ (group v fg).boundary = zid + 1 ∧ (∀ x ∈ v.extents, x.zid = zid → (group s fg).cpExt = some x)) ∧
   (∀ (s : State) (fg i j : Nat) (new : Layout), (group s fg).layout = some i → (group s fg).newIdx = some j → i ≠ j →
     ∃ t, reshapeEnd s fg new = autoPass (raise t 1010) fg ∧ (group t fg).layout = some j ∧ (group t fg).newIdx = none ∧
       (group t fg).lease = .free ∧ tget? t.layouts i = none ∧ tget? t.layouts j = tget? s.layouts j))

/-- REBUILD_START and RESHAPE_BEGIN on a held group are MAINT_BUSY with the lease's code. A free group's rebuild takes the lease with its
share, gives every member with MSTATE 2 a unit, and ends at once where there is none; a pass that ends frees the lease, raises 1009 and
answers the lost-range list. Pause and resume act on a rebuild alone. A unit ends when its spares are programmed up to the zone's lowest
row in flight, or WP's row: each of its members takes MSTATE 1 at its spare and a MEMBER entry, DEGRADED clears with no member lost, and
the rows that waited program their chunks there. A unit with a row in progress or rows to go does not end. -/
def Obligations.RebuildsRunUnderTheLease : Prop :=
  (∀ (s : State) (cid : Nat) (c : Cmd),
     let u := running s cid
     let fg := fieldAt c.pkt 0x28 8 % 65536
     let g := group s fg
     let share := fieldAt c.pkt 0x30 8 % 256
     (startable s cid 0x19 = some c →
       let o := exec (.rebuildStart cid) s
       (g.lease = .rebuild → EndsWith o u cid { status := 0x2003, state := 0x51, ra := fg }) ∧
       (g.lease = .reshape → EndsWith o u cid { status := 0x2003, state := 0x52, ra := fg }) ∧
       (g.lease = .free → s.jrn.stopped = true → membersIn s fg 2 ≠ [] → EndsWith o u cid { status := 0x2001 }) ∧
       (g.lease = .free → s.jrn.stopped = false ∨ membersIn s fg 2 = [] →
         ∃ v, (group v fg).lease = .rebuild ∧ (group v fg).paused = false ∧ (group v fg).share = share ∧ (group v fg).rebCid = some cid ∧
           (group v fg).rebRows = 0 ∧ (∀ p ∈ membersIn s fg 2, ∃ x, unit? v fg p.1 = some x ∧ (tget? x.rows p.2).isSome = true) ∧
           v.dram = s.dram ∧
           (membersIn s fg 2 ≠ [] → o = .next (pump v)) ∧ (membersIn s fg 2 = [] → o = .next (pump (passEnd v fg))))) ∧
     (∀ (t : State) (d : Cmd), (group t fg).rebCid = some cid → cmd? t cid = some d → d.cid = cid →
       let l := (group t fg).lost
       let n := min (fieldAt d.pkt 0x14 4) l.length
       ∃ v, passEnd t fg = finishDurable (writeOut (raise v 1009) d (fieldAt d.pkt 0x18 8) ((l.take n).flatMap lostBytes) 3) cid
           { ra := (group t fg).rebRows, rb := l.length * 2 ^ 32 + n } ∧
         (group v fg).lease = .free ∧ (group v fg).rebCid = none ∧
         (membersIn t fg 3 ≠ [] → bit (rd v regJrnMaintStatus) 1 = true) ∧ v = { t with regs := v.regs, groups := v.groups }) ∧
     (startable s cid 0x1A = some c → ∀ pause : Bool, bit (fieldAt c.pkt 0x30 8) 0 = pause →
       let o := exec (if pause then .rebuildPause cid else .rebuildResume cid) s
       (g.lease = .rebuild → ∃ v, EndsWith o v cid { ra := fg } ∧ (group v fg).paused = pause ∧ (group v fg).lease = .rebuild ∧
         (∀ k, k ≠ fg → group v k = group s k) ∧ v = { u with groups := v.groups }) ∧
       (g.lease ≠ .rebuild → EndsWith o u cid { status := 0x2001 }))) ∧
  ((∀ (s : State) (fg : BitVec 16) (zid : Zid),
     (unit? s fg.toNat zid = none → exec (.rebuildUnitEnd fg zid) s = .next (pump s)) ∧
     (∀ u, unit? s fg.toNat zid = some u →
       (u.cur ≠ none ∨ u.rows = [] ∨ (∃ p ∈ u.rows, p.2 < unitBound s zid) → exec (.rebuildUnitEnd fg zid) s = .next (pump s)) ∧
       (u.cur = none → u.rows ≠ [] → (∀ p ∈ u.rows, unitBound s zid ≤ p.2) →
         let ms := u.rows.map (fun p => p.1)
         let w := ms.foldl (fun s j => match loc? s zid j with
           | some (g, b) => jrnMember (setMember s zid j (memberOf 1 g b)) zid j
           | none => s) s
         ∀ rows : List Row, rows.Perm (s.rows.filter (fun r => decide (r.zid = zid.val) && r.memb.any (fun p => p.2 = .held))) →
           rows.Pairwise (fun a b => a.row < b.row) →
           ∃ v, v = rows.foldl (fun s r => (ms.filter (fun j => tget r.memb j .idle = .held)).foldl (fun s j =>
               match row? s r.rid with
               | some r => queueMember s r j
               | none => s) s)
             (modGroup (if lostMembers w zid = 0 ∧ (zone w zid).overlay = 1 then setOverlay w zid 0 else w) fg.toNat
               (fun g => { g with units := g.units.filter (fun u => u.zid ≠ zid.val) })) ∧
             ((group s fg.toNat).lease = .rebuild → membersIn v fg.toNat 2 = [] →
               exec (.rebuildUnitEnd fg zid) s = .next (pump (passEnd (trace v 4 9 fg.toNat [zid.val]) fg.toNat))) ∧
             ((group s fg.toNat).lease ≠ .rebuild ∨ membersIn v fg.toNat 2 ≠ [] →
               exec (.rebuildUnitEnd fg zid) s = .next (pump (trace v 4 9 fg.toNat [zid.val])))))) ∧
   (∀ (s : State) (zid j g b : Nat), g < 4096 → b < 4096 →
     let t := setMember s zid j (memberOf 1 g b)
     mstate t zid j = 1 ∧ ∀ lt, layoutOf? t zid = some lt → loc? t zid j = some (g, b)) ∧
   (∀ (s : State) (zid : Nat), (zone s zid).overlay = 1 → 
     (zone (setOverlay s zid 0) zid).overlay = 0))

/-- MEMBER_FAIL of a LUN-block that holds no member and no staging copy is BAD_FIELD with DETAIL 0x28; of a LUN it makes it FAILED. It ends
with the count of zones whose overlay changed. SPARE_ASSIGN adds all its entries, at withdrawn indices first, or withdraws free ones, or
has no effect and is BAD_FIELD with DETAIL 0x18; above 4,096 entries it is NO_BUFFER. -/
def Obligations.MembersFailAndSparesAreAssigned : Prop :=
  ∀ (s : State) (cid : Nat) (c : Cmd),
    let u := running s cid
    let p0 := fieldAt c.pkt 0x28 8
    (startable s cid 0x18 = some c →
      let o := exec (.memberFail cid) s
      let g := p0 % 4096
      let b := bits p0 27 16
      let at_ (l : Nat × Nat) : Bool := decide (l.1 = g) && (decide (b = 4095) || decide (l.2 = b))
      let hit := dedupNat ((s.groups.flatMap (fun x => membersAt s x.1 at_)).map (fun x => x.1))
      let staged : Prop := ∃ x ∈ s.groups, ∃ base ∈ [0, 65536], ∃ i ∈ setList s x.1 base, ∃ l ∈ stgSet s x.1 i, at_ l = true
      (s.jrn.stopped = true → b = 4095 ∨ hit ≠ [] ∨ staged → EndsWith o u cid { status := 0x2001 }) ∧
      (b ≠ 4095 → hit = [] → ¬staged → EndsWith o u cid { status := 0x1002, detail := 0x28 }) ∧
      (s.jrn.stopped = false → b = 4095 ∨ hit ≠ [] ∨ staged →
        let v := if b = 4095 then lunFail u g else failAt (dropStaging u g (some b)) at_
        o = .next (pump (finishDurable v cid
          { ra := (hit.filter (fun z => decide ((zone s z).overlay ≠ (zone v z).overlay))).length }))) ∧
      (∀ l, lun? s g = some l → l.state = 2 → lunFail u g = u)) ∧
    (startable s cid 0x1B = some c →
      let o := exec (.spareAssign cid .ok) s
      let fg := p0 % 65536
      let a := fieldAt c.pkt 0x18 8
      let h := dramRead s a 16
      let n := fieldAt h 2 2
      let act := fieldAt h 4 1
      let es := (List.range n).map (fun i => leNat (dramRead s (a + 16 + 4 * i) 4))
      (boundLayout s fg = none → EndsWith o u cid { status := 0x1002, detail := 0x28 }) ∧
      (∀ lt, boundLayout s fg = some lt → EndsOnPort (fun mp => exec (.spareAssign cid mp) s) u c (16 + 4 * min 4096 n) ∧
        let one (acc : Option State) (e : Nat) : Option State := acc.bind (fun s =>
          if act = 0 then spareAdd s fg lt (bits e 23 12) (bits e 11 0) else spareWithdraw s fg (bits e 23 12) (bits e 11 0))
        (fieldAt h 0 2 ≠ fg ∨ n = 0 ∨ 4096 < n ∨ 1 < act → EndsWith o u cid { status := 0x1002, detail := 0x18 }) ∧
        (fieldAt h 0 2 = fg → 0 < n → n ≤ 4096 → act ≤ 1 →
          (es.foldl one (some u) = none → EndsWith o u cid { status := 0x1002, detail := 0x18 }) ∧
          (∀ t, es.foldl one (some u) = some t →
            (s.jrn.stopped = true → EndsWith o u cid { status := 0x2001 }) ∧
            (s.jrn.stopped = false → 4096 < ((group t fg).spares.filter (fun x => x.state ≠ 3)).length → EndsWith o u cid { status := 0x3001 }) ∧
            (s.jrn.stopped = false → ((group t fg).spares.filter (fun x => x.state ≠ 3)).length ≤ 4096 →
              o = .next (pump (finishDurable (if act = 0 then spareOffer t fg else t) cid { ra := n }))))))) ∧
    (∀ (fg g b : Nat) (lt : Layout), spareAddOk s lt g b = true → ∃ t, spareAdd s fg lt g b = some t ∧
      let l := (group s fg).spares
      (∀ i, l.findIdx? (fun x => x.state = 3) = some i → (group t fg).spares = l.set i { glun := g, block := b }) ∧
      ((∀ x ∈ l, x.state ≠ 3) → (group t fg).spares = l ++ [{ glun := g, block := b }])) ∧
    (∀ (fg g b i : Nat) (x : Spare), (group s fg).spares[i]? = some x → x.glun = g → x.block = b → x.state = 0 →
      ∃ t k, spareWithdraw s fg g b = some t ∧ k ≤ i ∧ (((group t fg).spares[k]?).map (fun x => x.state)) = some 3)

/-- SCRUB_RANGE and CALIBRATE take the leases of all the block groups they need or none and wait for them; SCRUB_RANGE at or above the write
pointer is BEYOND_WRITE_POINTER. A wait of the command's ticks ends with MAINT_BUSY, the first held group and its lease code. A
calibration sweep whose word lines have been read takes for each level the shift with the lowest summed weight, the smaller and then the
negative one on a tie, adds it to CORR, clears LOAD, counts itself and dates it, writes the record at once, frees the lease, and ends with
the summary; one that sampled nothing leaves the record. A scrub whose rows have been read ends with its summary and at most 256 findings;
parity or row findings set SCRUB_FIND. -/
def Obligations.MaintenanceTakesLeasesAndReports : Prop :=
  (∀ (s : State) (cid : Nat) (c : Cmd), c.cid = cid →
     let u := running s cid
     let rows := scrubRows s c
     let n := (scrubbed s c).length
     (startable s cid 0x20 = some c → (∀ r, zoneCheck u c = some r → EndsWith (exec (.scrubRange cid) s) u cid r) ∧
       (zoneCheck u c = none →
         ((zone s (fieldAt c.pkt 8 4 % 2 ^ 19)).wp ≤ fieldAt c.pkt 0x10 4 → EndsWith (exec (.scrubRange cid) s) u cid { status := 0x2005 }) ∧
         (fieldAt c.pkt 0x10 4 < (zone s (fieldAt c.pkt 8 4 % 2 ^ 19)).wp → exec (.scrubRange cid) s =
           .next (pump (askLeases (modCmd u cid (fun c => { c with acc := [rows.1, rows.2.1, b2n rows.2.2, n] })) c))))) ∧
     (startable s cid 0x22 = some c →
       (ageOn s = true → exec (.calibrate cid) s = .next (pump (askLeases u c))) ∧
       (ageOn s = false → EndsWith (exec (.calibrate cid) s) u cid { status := 0x2001 })) ∧
     (∀ t : State, cmd? t cid = some c →
       ((∃ b ∈ leaseGroups t c, bgLease t b ≠ none) → (∀ since, c.stage ≠ .waitLease since) →
         ∃ v, askLeases t c = v ∧ cmd? v cid = some { c with stage := .waitLease t.tick } ∧ v.age = t.age) ∧
       ((∀ b ∈ leaseGroups t c, bgLease t b = none) →
         ∃ v, askLeases t c = v ∧ cmd? v cid = some { c with stage := .running } ∧
           (∀ b, bgLease v b = if b ∈ leaseGroups t c then some ((if fieldAt c.pkt 0 1 = 0x22 then 4 else 3), cid) else bgLease t b) ∧
           (fieldAt c.pkt 0 1 ≠ 0x22 → v.age.scrubs = t.age.scrubs ++ [{ cid := cid, zid := fieldAt c.pkt 8 4 % 2 ^ 19, rows := scrubbed t c }]) ∧
           (fieldAt c.pkt 0 1 = 0x22 → ∃ w, v.age.sweeps = t.age.sweeps ++ [w] ∧ w.id = cid ∧ w.bg = fieldAt c.pkt 0x28 8 % 2 ^ 32 ∧
             w.sums = [] ∧ w.now = none ∧ ∀ p, p ∈ w.wls ↔ p.1 ∈ sampled t w.bg ∧ (p.2 = 0 ∨ p.2 = subF t (w.bg / 512) p.1 0x0E 2)))) ∧
     (cmd? s cid = some c → ∀ since, c.stage = .waitLease since →
       let wait := (if fieldAt c.pkt 0 1 = 0x22 then fieldAt c.pkt 0x30 8 else fieldAt c.pkt 0x28 8) % 2 ^ 32
       (s.tick < since + wait → exec (.leaseWaitExpiry cid) s = .next (pump s)) ∧
       (since + wait ≤ s.tick → ∀ (pre : List Nat) (b : Nat) (rest : List Nat) (code holder : Nat), leaseGroups s c = pre ++ b :: rest →
         (∀ x ∈ pre, bgLease s x = none) → bgLease s b = some (code, holder) →
         EndsWith (exec (.leaseWaitExpiry cid) s) s cid { status := 0x2003, state := 0x50 + code, ra := b }))) ∧
  ((∀ (s : State) (cid : Nat) (x : Sweep) (c : Cmd), sweep? s cid = some x → x.wls = [] → x.now = none → cmd? s cid = some c → c.cid = cid →
     ageOn s = true → (∀ p, tget? s.age.dirty x.bg = some p → p.1.length = 256) →
     let best (i : Nat) := sweepBest x.sums (max 1 (rdf s regGlbAgeCtrl 23 16)) i
     let a := arAddr s x.bg
     ∃ v w, exec (.calibrationSweepDone cid () () ()) s = .next (pump (finish w cid { ra := x.bg, rb := 80 })) ∧
       (∃ bytes, w = writeOut v c (fieldAt c.pkt 0x18 8) bytes 3 ∧ bytes.length = 80 ∧ bytes.take 4 = leBytes 4 x.bg) ∧
       (∀ p ∈ v.age.leases, p.2.2 ≠ cid) ∧ (∀ y ∈ v.age.sweeps, y.id ≠ cid) ∧
       (x.count = 0 → v.dram = s.dram ∧ v.age.dirty = s.age.dirty) ∧
       (x.count ≠ 0 → tget? v.age.dirty x.bg = none ∧
         (∀ i, i < 16 → fieldAt (dramRead v a 256) (0x10 + i) 1 =
           ofSbyte (sat8 (sbyte (fieldAt (arOf s x.bg) (0x10 + i) 1) + best i)) % 256) ∧
         fieldAt (dramRead v a 256) 0x20 4 = 0 ∧ fieldAt (dramRead v a 256) 0x08 8 = timeline s ∧
         fieldAt (dramRead v a 256) 0x06 2 = min 65535 (fieldAt (arOf s x.bg) 0x06 2 + 1) ∧ arGood (dramRead v a 256) = true)) ∧
   (∀ (s : State) (cid : Nat), (∀ x, sweep? s cid = some x → x.wls ≠ [] ∨ x.now ≠ none) →
     exec (.calibrationSweepDone cid () () ()) s = .next (pump s)) ∧
   (∀ (ws : List (Nat × Int × Nat)) (st i : Nat), 0 < st →
     let ds : List Int := [0, -(st : Int), st, -(2 * st : Int), 2 * st]
     let sum := sweepSum ws i
     let d := sweepBest ws st i
     d ∈ ds ∧ ∀ e ∈ ds, sum d < sum e ∨ (sum d = sum e ∧ (d.natAbs < e.natAbs ∨ (d.natAbs = e.natAbs ∧ d ≤ e)))) ∧
   (∀ (s : State) (cid : Nat), (∀ x, scrub? s cid = some x → x.rows ≠ []) → exec (.scrubRangeDone cid () () () () () ()) s = .next (pump s)) ∧
   (∀ (s : State) (cid : Nat) (x : Scrub) (c : Cmd), cmd? s cid = some c → c.cid = cid → scrub? s cid = some x → x.rows = [] →
     let n := c.acc.getD 3 0
     let w := min 256 x.finds.length
     ∃ v bytes, exec (.scrubRangeDone cid () () () () () ()) s = .next (pump (finish
         (writeOut v c (fieldAt c.pkt 0x18 8) bytes 3) cid { ra := n, rb := 32 + 16 * w })) ∧
       bytes.length = 32 + 16 * w ∧ fieldAt bytes 0 4 = x.zid % 2 ^ 32 ∧ fieldAt bytes 4 2 = c.acc.getD 0 0 % 65536 ∧
       (0 < n → c.acc.getD 0 0 ≤ c.acc.getD 1 0 → fieldAt bytes 6 2 = c.acc.getD 1 0 % 65536) ∧
       fieldAt bytes 8 4 = x.codewords % 2 ^ 32 ∧ fieldAt bytes 0x0C 4 = x.heavy % 2 ^ 32 ∧ fieldAt bytes 0x10 4 = x.failed % 2 ^ 32 ∧
       fieldAt bytes 0x14 2 = x.mismatch % 65536 ∧ fieldAt bytes 0x16 2 = x.unrecov % 65536 ∧ fieldAt bytes 0x18 2 = w ∧
       bit (fieldAt bytes 0x1A 1) 0 = decide (256 < x.finds.length) ∧
       (c.acc.getD 2 0 ≤ 1 → bit (fieldAt bytes 0x1A 1) 1 = decide (c.acc.getD 2 0 = 1)) ∧
       (∀ i f, i < 256 → x.finds[i]? = some f → slice bytes (32 + 16 * i) 16 = findingBytes f) ∧
       (∀ p ∈ v.age.leases, p.2.2 ≠ cid) ∧ (∀ y ∈ v.age.scrubs, y.cid ≠ cid) ∧ v.dram = s.dram ∧
       ((∃ f ∈ x.finds, f.kind = 5 ∨ f.kind = 6) → bit (rd v regGlbAgeStatus) 7 = true)))

/-- SCRUB_INTERNAL reports each selected memory's lines, those of gated domains left out, with how the failing ones were settled, and ends
with the lines checked. AGEING_READ writes a pending change to the store first and then gives the record of 256 bytes. A write back
empties the change; a prediction is computed again after 60 s. -/
def Obligations.MemoriesAndRecordsAreRead : Prop :=
  (∀ (s : State) (cid : Nat) (c : Cmd), startable s cid 0x21 = some c →
    let u := running s cid
    let sel := fieldAt c.pkt 0x28 8 % 256
    let sels := if sel = 0 then [1, 2, 3, 4, 5] else [sel]
    ∀ ds, let r := scrubAll ds sels u
      exec (.scrubInternal cid ds) s = .next (pump (finish (writeOut r.1 c (fieldAt c.pkt 0x18 8)
        (leBytes 1 sel ++ leBytes 1 sels.length ++ zeros 14 ++ r.2.1) 3) cid { ra := r.2.2, rb := 16 + 16 * sels.length })) ∧
      (ds = [] → r.1 = u ∧ r.2.2 = (sels.map (scrubLines u)).sum ∧
        ∀ i k, sels[i]? = some k → slice r.2.1 (16 * i) 16 = leBytes 1 k ++ zeros 1 ++ zeros 2 ++ leBytes 4 (scrubLines u k) ++ zeros 8)) ∧
  (∀ (s : State) (cid : Nat) (c : Cmd), startable s cid 0x23 = some c →
    let u := running s cid
    let bg := fieldAt c.pkt 0x28 8 % 2 ^ 32
    (ageOn s = false → exec (.ageingRead cid .ok) s = .next (finish u cid { status := 0x2001 })) ∧
    (ageOn s = true → ∃ v, v = arFlush u bg ∧ exec (.ageingRead cid .ok) s =
        .next (finish (writeOut v c (fieldAt c.pkt 0x18 8) (dramRead v (arAddr s bg) 256) 3) cid { ra := bg, rb := 256 }) ∧
      (∀ p, tget? s.age.dirty bg = some p → p.1.length = 256 → dramRead v (arAddr s bg) 256 = p.1) ∧
      (tget? s.age.dirty bg = none → v = u) ∧
      (∀ mp, mp ≠ .ok → ∃ w r, exec (.ageingRead cid mp) s = .next (finish w cid r) ∧
        PortGaveUp [(0, arAddr s bg, 256)] mp v w (2 * c.home) r))) ∧
  (∀ (s : State) (bg : Nat),
    (domOn s (84 + quadOf (bg / 512)) = true → exec (.ageingWriteBack bg) s =
      .next (arFlush (domUse s (84 + quadOf (bg / 512))) bg)) ∧
    (domOn s (84 + quadOf (bg / 512)) = false → exec (.ageingWriteBack bg) s = .next (domUse s (84 + quadOf (bg / 512)))) ∧
    tget? (arFlush s bg).age.dirty bg = none ∧
    (∀ k, k ≠ bg → tget? (arFlush s bg).age.dirty k = tget? s.age.dirty k) ∧
    (∀ p, tget? s.age.dirty bg = some p → ∀ a, (∀ i, i < p.1.length → a % 2 ^ 64 ≠ (arAddr s bg + i) % 2 ^ 64) →
      dramByte (arFlush s bg) a = dramByte s a)) ∧
  (∀ (s : State) (q : Quad) (bg : Nat), ∃ v, exec (.predictionRefresh q bg) s = .next v ∧
    v = { s with age := { s.age with pred := v.age.pred } } ∧
    ∀ k p, tget? s.age.pred k = some p →
      let old : Prop := k / 8 = bg ∧ quadOf (bg / 512) = q.val ∧ p.tick + 6000000000 ≤ s.tick
      (¬old → tget? v.age.pred k = some p) ∧
      (old → tget? v.age.pred k = some { set := predict s p.gen (k / 4096) (k % 4096) p.stale, temp := chTemp s (chOf (k / 4096)),
                                         tick := s.tick, gen := p.gen, stale := p.stale }))

/-- A patrol visit reads codeword 0 of word line 0 and of the last word line of every programmed block of the next group that holds one, and
asks for its calibration where its load is due; a group on a FAILED LUN, a channel out of service or under a lease is skipped. Without
patrol, before the next visit is due, or on an engine that does not run, nothing happens, and a visit to a gated engine powers it up
first. -/
def Obligations.PatrolVisitsTheNextGroup : Prop :=
  (∀ (s : State) (q : Quad),
    (mneRuns s q = false → exec (.patrolVisit q) s = .next s) ∧
    (mneRuns s q = true → domOn s (84 + q) = false → exec (.patrolVisit q) s = .next (domUse s (84 + q))) ∧
    (mneRuns s q = true → domOn s (84 + q) = true → s.pwr.step ≠ .patrol →
      let u := domUse s (84 + q)
      u = { s with doms := u.doms } ∧
      (ageOn s = false ∨ bit (rd s regGlbAgeCtrl) 29 = false ∨ patrolDue s q = false → exec (.patrolVisit q) s = .next (pump u)) ∧
      (ageOn s = true → bit (rd s regGlbAgeCtrl) 29 = true → patrolDue s q = true → rdf s regPwrState 1 0 ≤ 1 →
      ∀ bg, nextPatrol s q (tget s.age.patrol q 0) = some bg →
        ∃ v, v = { u with age := { s.age with patrol := tset s.age.patrol q (bg + 1), patrolAt := tset s.age.patrolAt q s.tick } } ∧
          (lunFailed s (bg / 512) = true ∨ chanUp s (chOf (bg / 512)) = false ∨ bgLease s bg ≠ none →
            exec (.patrolVisit q) s = .next (pump v)) ∧
          (lunFailed s (bg / 512) = false → chanUp s (chOf (bg / 512)) = true → bgLease s bg = none →
            ∃ w, exec (.patrolVisit q) s = .next (pump (patrolReads w bg)) ∧ w = { v with age := w.age, regs := w.regs } ∧
              rdf w (regQdMneWork q) 31 16 = min 65535 (rdf s (regQdMneWork q) 31 16 + 1) ∧
              (tget? w.age.auto bg ≠ tget? s.age.auto bg →
                bit (rd s regGlbAgeCtrl) 30 = true ∧ rdf s regGlbAgeLoad 31 16 ≠ 0 ∧
                  rdf s regGlbAgeLoad 31 16 ≤ fieldAt (arOf s bg) 0x20 4))))) ∧
  (∀ (s : State) (q : Nat), (∀ t, tget? s.age.patrolAt q = some t → s.tick < t + patrolEvery s q) → tget? s.age.patrolAt q ≠ none →
    patrolDue s q = false) ∧
  (∀ (s : State) (q from_ bg : Nat), (∀ p ∈ s.luns, dmBpp (dieOf s p.1) ≤ 4096) → nextPatrol s q from_ = some bg → bgProgrammed s bg = true ∧ quadOf (bg / 512) = q) ∧
  (∀ (s : State) (bg : Nat),
    (∀ b, b / 8 = bg % 512 → subF s (bg / 512) b 0 8 = 0) → patrolReads s bg = s)

/-- A journal page closes COMMIT_TICKS after its first entry, with at most 11 segment images, and keeps its entries. A copy writes the next
page in PSEQ order only where fewer than L - 1 of the L live copies are in program and another live copy, not in program, holds the page
before it; the page is durable when it is good on two live copies, or on the only one. The window turns when the head is at the last word
line of every live copy: each live copy takes its next block and erases it. It turns only if each INTENT of the block to be reused is
settled and each zone named there has later segment images; else WINDOW_FULL is set and new INTENTs wait. -/
def Obligations.JournalPagesAndWindows : Prop :=
  ((∀ s : State,
     (∀ p, (eng s 48).mode ≠ 3 → s.jrn.pages.find? (fun p => !p.closed) = some p →
       (p.first + max 1 (rdf s regJrnCtrl 31 16) ≤ s.tick → exec .commitTicksExpiry s = .next (pump (closePage s)) ∧
         (closePage s).jrn.pages.map (fun p => p.entries) = s.jrn.pages.map (fun p => p.entries) ∧
         (∀ q ∈ (closePage s).jrn.pages, q.closed = true) ∧ (pickSegs s).1.length ≤ 11) ∧
       (s.tick < p.first + max 1 (rdf s regJrnCtrl 31 16) → exec .commitTicksExpiry s = .next (pump s))) ∧
     ((eng s 48).mode = 3 ∨ s.jrn.pages.find? (fun p => !p.closed) = none → exec .commitTicksExpiry s = .next (pump s))) ∧
   (∀ (s : State) (c : Fin 3),
     ((eng s 48).mode = 3 → exec (.journalPageWrite c) s = .next s) ∧
     ((eng s 48).mode ≠ 3 → mayWrite s c = none → exec (.journalPageWrite c) s = .next (pump s)) ∧
     (∀ p, (eng s 48).mode ≠ 3 → mayWrite s c = some p →
       (∃ v, exec (.journalPageWrite c) s = .next (pump v) ∧ (copyAt v c).busy = some p.pseq ∧ v.jrn.pages = s.jrn.pages ∧
         (∀ d, d ≠ c.val → copyAt v d = copyAt s d) ∧ v.dram = s.dram ∧
         ∃ o ∈ v.ops, o.use = .page c p.pseq ∧ o.type = .slc ∧ o.glun = (copyAt s c).glun ∧ o.block = (copyAt s c).block ∧
           o.wl = (copyAt s c).wl ∧ o.kind = .j) ∧
       let l := liveCopies s.jrn
       p ∈ s.jrn.pages ∧ p.closed = true ∧ p.pseq = (copyAt s c).next ∧ (copyAt s c).busy = none ∧ (copyAt s c).wl < windowWls s ∧
       (l.filter (fun d => (copyAt s d).busy.isSome)).length < max 1 (l.length - 1) ∧
       (l.length ≠ 1 → ∃ d ∈ l, d ≠ c.val ∧ (copyAt s d).busy = none ∧ p.pseq ≤ (copyAt s d).next))) ∧
   (∀ (j : JrnSt) (p : PageSt), pageDurable j p = true ↔ p.closed = true ∧
     (2 ≤ (p.good.filter (fun c => (liveCopies j).contains c)).length ∨
       ((liveCopies j).length = 1 ∧ (p.good.filter (fun c => (liveCopies j).contains c)).length = 1)))) ∧
  ((∀ s : State,
     ((eng s 48).mode = 3 → exec .windowTurn s = .next s) ∧
     ((eng s 48).mode ≠ 3 → s.jrn.stopped = true ∨ headAtEnd s = false → exec .windowTurn s = .next (pump s)) ∧
     ((eng s 48).mode ≠ 3 → s.jrn.stopped = false → headAtEnd s = true → mayErase s = false →
       (s.jrn.full = true → exec .windowTurn s = .next (pump s)) ∧
       (s.jrn.full = false → ∃ v, exec .windowTurn s = .next (pump v) ∧ v.jrn = { s.jrn with full := true } ∧
         bit (rd v regJrnStatus) 3 = true ∧ (∀ rid, rowIntent v rid = v))) ∧
     ((eng s 48).mode ≠ 3 → s.jrn.stopped = false → headAtEnd s = true → mayErase s = true →
       (∀ c ∈ liveCopies s.jrn, (blkSt s (copyAt s c).glun (copyAt s c).block).retired = false ∧ nextBlock (copyAt s c) ≠ none) →
       (liveCopies s.jrn).Nodup →
       ∃ u, exec .windowTurn s = .next (pump (recreateAll u)) ∧ u.jrn.full = false ∧ u.jrn.turnNo = s.jrn.turnNo + 1 ∧
         ∀ c ∈ liveCopies s.jrn, ∀ b, nextBlock (copyAt s c) = some b → (copyAt u c).block = b ∧ (copyAt u c).wl = 0 ∧
           (copyAt u c).turn = true ∧ ∃ o ∈ u.ops, o.use = .turnErase c ∧ o.type = .erase ∧ o.glun = (copyAt s c).glun ∧ o.block = b)) ∧
   (∀ s : State, mayErase s = true → ∀ p ∈ s.jrn.live, p.1 + windowLen s ≤ s.jrn.turnNo + 1 → ∀ e ∈ p.2.2,
     (e.typ = 1 → ∃ x : Entry, (x.typ = 2 ∨ x.typ = 3 ∨ x.typ = 0x0A) ∧ x.zid = e.zid ∧ x.row = e.row ∧ x.wseq = e.wseq ∧ e.seq < x.seq) ∧
     ((1 ≤ e.typ ∧ e.typ ≤ 7) ∨ e.typ = 0x0A → e.seq < tget s.jrn.images (e.zid / 128) 0 ∧ e.seq < tget s.jrn.images (65536 + e.zid / 16) 0)))

/-- The scan of the journal finds the head, one above the highest valid PSEQ, and the holes below it, and counts on from the highest SEQ; each
group that an entry names then awaits its restart, and layouts that waited are bound. A second scan, or one before release, finds nothing.
A group that awaits its restart and has a layout is restarted once the scan is done: it then awaits no more, source 1013 is raised, and
its LAYOUT_DEFINE ends once all that was written is durable. A torn row with all members good is confirmed, one with staged blocks and at
least k good members is folded again, with fewer its zone is FULL, and one without is voided. -/
def Obligations.ScanAndRestart : Prop :=
  (∀ (s : State) (found : List JPage),
     ((eng s 48).mode = 3 → exec (.journalScanDone found) s = .next s) ∧
     ((eng s 48).mode ≠ 3 → s.jrn.scanned = true ∨ s.jrn.stopped = true ∨ s.boot.released = false →
       exec (.journalScanDone found) s = .next (pump (layoutsAfterScan s))) ∧
     ((eng s 48).mode ≠ 3 → s.jrn.scanned = false → s.jrn.stopped = false → s.boot.released = true → s.jrn.kept = [] → s.jrn.backlog = [] →
       let valid (p : JPage) : Prop := p ∈ found ∧ p.copies % 8 ≠ 0
       ∃ v, exec (.journalScanDone found) s = .next (pump (layoutsAfterScan v)) ∧ v.jrn.scanned = true ∧ v.dram = s.dram ∧
         (∀ p, valid p → p.pseq < v.jrn.pseq ∧ p.tailPseq ≤ v.jrn.tail ∧ ∀ e ∈ p.entries, e.seq < v.jrn.seq) ∧
         ((∃ p, valid p) → ∃ p, valid p ∧ v.jrn.pseq = p.pseq + 1) ∧ ((∀ p, ¬valid p) → v.jrn.pseq = 0 ∧ v.jrn.holes = []) ∧
         (∀ n, (∃ h ∈ v.jrn.holes, h.1 = n) ↔ v.jrn.tail ≤ n ∧ n < v.jrn.pseq ∧ (∀ p, valid p → p.pseq ≠ n) ∧
           (n = v.jrn.tail ∨ ∃ p, valid p ∧ p.pseq + 1 = n)) ∧
         (∀ e ∈ v.jrn.found, ofGroup e = true → (group v e.fg).await = true) ∧
         (v.jrn.holes ≠ [] → bit (rd v regJrnStatus) 2 = true))) ∧
  ((∀ (s : State) (fg : BitVec 16) (reads : List RowClass) (staged : List StagedHeader),
     let f := fg.toNat
     let o := exec (.failureGroupRestart fg reads staged) s
     ((eng s 48).mode = 3 → o = .next s) ∧
     ((eng s 48).mode ≠ 3 → boundLayout s f = none ∨ (group s f).await = false ∨ s.jrn.scanned = false ∨ s.jrn.stopped = true →
       o = .next (pump s)) ∧
     ((eng s 48).mode ≠ 3 → ∀ lt, boundLayout s f = some lt → (group s f).await = true → s.jrn.scanned = true → s.jrn.stopped = false →
       ∃ v, (group v f).await = false ∧ (∀ e ∈ v.jrn.found, e.fg = f → ofGroup e = false) ∧
         (∀ c, v.cmds.find? (fun c => decide (opc c = 0x10) && decide (c.stage = .running) && decide (c.acc = [f])) = some c →
           o = .next (pump (finishDurable (raise v 1013) c.cid { ra := fieldAt c.pkt 0x28 8 % 65536 }))) ∧
         (v.cmds.find? (fun c => decide (opc c = 0x10) && decide (c.stage = .running) && decide (c.acc = [f])) = none →
           o = .next (pump (raise v 1013))))) ∧
   (∀ (s : State) (lt : Layout) (zid r : Nat) (c : RowClass) (prog : Option (Nat × Nat)),
     let good := ((List.range (width lt)).filter (fun j => classAt c.members j = .good)).length
     let staged : Prop := ∃ x ∈ s.extents, x.zid = zid ∧ x.row = r
     let out := settleTorn s lt zid r c prog
     (good = width lt → out.2 = some true ∧ (∀ x ∈ out.1.extents, ¬(x.zid = zid ∧ x.row = r)) ∧
       rdf out.1 regJrnRestart0 15 0 = min 65535 (rdf s regJrnRestart0 15 0 + 1)) ∧
     (good ≠ width lt → staged → lt.k ≤ good → out.2 = some true ∧ ∀ x ∈ out.1.extents, ¬(x.zid = zid ∧ x.row = r)) ∧
     (good ≠ width lt → staged → good < lt.k → out.2 = none) ∧
     (good ≠ width lt → ¬staged → out.2 = some false ∧
       rdf out.1 regJrnRestart0 31 16 = min 65535 (rdf s regJrnRestart0 31 16 + 1))) ∧
   (∀ (lt : Layout) (st : List Classify) (j : Nat), j ∈ suspects lt st → j < lt.k + lt.m ∧ classAt st j ≠ .good) ∧
   (∀ (s : State) (lt : Layout) (zid : Nat), (zone s zid).valid = true →
     let z := zone (restZone s lt zid) zid
     z.appendPt = z.wp ∧ z.state = (if (zone s zid).state = 1 then 2 else (zone s zid).state)))

/-- Every step keeps the canonical form of SoC memory: addresses strictly rising, no zero byte listed. -/
def Obligations.MemoryStaysCanonical : Prop :=
  ∀ s t : State, Memory.wf s.dram = true → step s = .next t → Memory.wf t.dram = true
end

