-- ==== Sys2Proof/Laws/Tables.lean ====
section
/-! SUPPORT. Sparse tables: what a read gives after a write, an erase, a change; the canonical form of SoC memory and that
every memory operation keeps it; what a byte reads as after a write. -/

namespace Sys2Proof.Machine

/-! ### Tables -/

@[simp] theorem tget?_nil {α : Type} (k : Nat) : tget? ([] : List (Nat × α)) k = none := rfl

/-- A table reads what was last put under the number. -/
@[simp] theorem tget?_tset_same {α : Type} (m : List (Nat × α)) (k : Nat) (v : α) : tget? (tset m k v) k = some v := by
  induction m with
  | nil => simp [tset, tget?]
  | cons p r ih =>
    obtain ⟨a, x⟩ := p
    simp only [tset]
    split
    · simp [tget?]
    · split
      · simp [tget?]
      · rename_i h; simp [tget?, ih, Ne.symm h]

/-- A write leaves every other number's value. -/
theorem tget?_tset_ne {α : Type} (m : List (Nat × α)) {k j : Nat} (v : α) (h : j ≠ k) :
    tget? (tset m k v) j = tget? m j := by
  induction m with
  | nil => simp [tset, tget?, Ne.symm h]
  | cons p r ih =>
    obtain ⟨a, x⟩ := p
    simp only [tset]
    split
    · simp [tget?, Ne.symm h]
    · split
      · rename_i e; subst e; simp [tget?, Ne.symm h]
      · simp [tget?, ih]

/-- A read after a write, in one equation. -/
theorem tget?_tset {α : Type} (m : List (Nat × α)) (k j : Nat) (v : α) :
    tget? (tset m k v) j = if j = k then some v else tget? m j := by
  split
  · rename_i h; subst h; simp
  · rename_i h; exact tget?_tset_ne m v h

@[simp] theorem tget_tset_same {α : Type} (m : List (Nat × α)) (k : Nat) (v d : α) : tget (tset m k v) k d = v := by
  simp [tget]

theorem tget_tset {α : Type} (m : List (Nat × α)) (k j : Nat) (v d : α) :
    tget (tset m k v) j d = if j = k then v else tget m j d := by
  simp only [tget, tget?_tset]; split <;> rfl

@[simp] theorem tget_tmod_same {α : Type} (m : List (Nat × α)) (k : Nat) (d : α) (f : α → α) :
    tget (tmod m k d f) k d = f (tget m k d) := by simp [tmod]

theorem tget_tmod_ne {α : Type} (m : List (Nat × α)) {k j : Nat} (d e : α) (f : α → α) (h : j ≠ k) :
    tget (tmod m k d f) j e = tget m j e := by simp [tmod, tget_tset, h]

/-- An erase leaves every other number's value. -/
theorem tget?_terase_ne {α : Type} (m : List (Nat × α)) {k j : Nat} (h : j ≠ k) : tget? (terase m k) j = tget? m j := by
  induction m with
  | nil => rfl
  | cons p r ih =>
    obtain ⟨a, x⟩ := p
    simp only [terase]
    split
    · rename_i e; subst e; simp [tget?, Ne.symm h, ih]
    · simp [tget?, ih]

/-! ### Rising lists -/

theorem risingFrom_mono {α : Type} {m : List (Nat × α)} {lo hi : Nat} (h : lo ≤ hi) (w : risingFrom hi m = true) :
    risingFrom lo m = true := by
  cases m with
  | nil => rfl
  | cons p r =>
    obtain ⟨a, x⟩ := p
    simp only [risingFrom, Bool.and_eq_true, decide_eq_true_eq] at w ⊢
    exact ⟨by omega, w.2⟩

theorem risingFrom_tset {α : Type} {m : List (Nat × α)} {lo k : Nat} (v : α) (h : lo ≤ k) (w : risingFrom lo m = true) :
    risingFrom lo (tset m k v) = true := by
  induction m generalizing lo with
  | nil => simp [tset, risingFrom, h]
  | cons p r ih =>
    obtain ⟨a, x⟩ := p
    simp only [risingFrom, Bool.and_eq_true, decide_eq_true_eq] at w
    simp only [tset]
    split
    · simp only [risingFrom, Bool.and_eq_true, decide_eq_true_eq]; exact ⟨h, by omega, w.2⟩
    · split
      · rename_i e; subst e; simp only [risingFrom, Bool.and_eq_true, decide_eq_true_eq]; exact ⟨h, w.2⟩
      · simp only [risingFrom, Bool.and_eq_true, decide_eq_true_eq]; exact ⟨w.1, ih (by omega) w.2⟩

theorem risingFrom_terase {α : Type} {m : List (Nat × α)} {lo : Nat} (k : Nat) (w : risingFrom lo m = true) :
    risingFrom lo (terase m k) = true := by
  induction m generalizing lo with
  | nil => rfl
  | cons p r ih =>
    obtain ⟨a, x⟩ := p
    simp only [risingFrom, Bool.and_eq_true, decide_eq_true_eq] at w
    simp only [terase]
    split
    · exact risingFrom_mono (by omega) (ih w.2)
    · simp only [risingFrom, Bool.and_eq_true, decide_eq_true_eq]; exact ⟨w.1, ih w.2⟩

/-- A number below the first one of a rising list stands nowhere in it. -/
theorem tget?_below {α : Type} {m : List (Nat × α)} {lo k : Nat} (w : risingFrom lo m = true) (h : k < lo) :
    tget? m k = none := by
  induction m generalizing lo with
  | nil => rfl
  | cons p r ih =>
    obtain ⟨a, x⟩ := p
    simp only [risingFrom, Bool.and_eq_true, decide_eq_true_eq] at w
    simp only [tget?]
    rw [if_neg (by omega)]
    exact ih w.2 (by omega)

/-- An erased number stands nowhere. -/
@[simp] theorem tget?_terase_same {α : Type} (m : List (Nat × α)) (k : Nat) : tget? (terase m k) k = none := by
  induction m with
  | nil => rfl
  | cons p r ih =>
    obtain ⟨a, x⟩ := p
    simp only [terase]
    split
    · exact ih
    · rename_i e; simp [tget?, e, ih]

/-! ### SoC memory -/

theorem all_tset {m : List Host.Cell} {k : Nat} {b : Byte} (hb : b ≠ 0) (w : m.all (fun c => decide (c.2 ≠ 0)) = true) :
    (tset m k b).all (fun c => decide (c.2 ≠ 0)) = true := by
  induction m with
  | nil => simpa [tset] using hb
  | cons p r ih =>
    obtain ⟨a, x⟩ := p
    simp only [List.all_cons, Bool.and_eq_true, decide_eq_true_eq] at w
    simp only [tset]
    split
    · simp only [List.all_cons, Bool.and_eq_true, decide_eq_true_eq]; exact ⟨hb, w⟩
    · split
      · simp only [List.all_cons, Bool.and_eq_true, decide_eq_true_eq]; exact ⟨hb, w.2⟩
      · simp only [List.all_cons, Bool.and_eq_true, decide_eq_true_eq]; exact ⟨w.1, ih w.2⟩

theorem all_terase {m : List Host.Cell} {k : Nat} (w : m.all (fun c => decide (c.2 ≠ 0)) = true) :
    (terase m k).all (fun c => decide (c.2 ≠ 0)) = true := by
  induction m with
  | nil => rfl
  | cons p r ih =>
    obtain ⟨a, x⟩ := p
    simp only [List.all_cons, Bool.and_eq_true, decide_eq_true_eq] at w
    simp only [terase]
    split
    · exact ih w.2
    · simp only [List.all_cons, Bool.and_eq_true, decide_eq_true_eq]; exact ⟨w.1, ih w.2⟩

/-- One byte written keeps the canonical form. -/
theorem memPut_wf {m : List Host.Cell} (a : Nat) (b : Byte) (w : Memory.wf m = true) : Memory.wf (memPut m a b) = true := by
  simp only [Memory.wf, Bool.and_eq_true] at w ⊢
  simp only [memPut]
  split
  · exact ⟨risingFrom_terase a w.1, all_terase w.2⟩
  · rename_i h; exact ⟨risingFrom_tset b (Nat.zero_le _) w.1, all_tset h w.2⟩

/-- Bytes written keep the canonical form. -/
theorem memWrite_wf {m : List Host.Cell} (a : Nat) (l : List Byte) (w : Memory.wf m = true) :
    Memory.wf (memWrite m a l) = true := by
  induction l generalizing m a with
  | nil => exact w
  | cons b r ih => exact ih (a + 1) (memPut_wf (a % 2 ^ 64) b w)

/-- A write to SoC memory keeps the canonical form. -/
theorem dramWrite_wf {s : State} (a : Nat) (l : List Byte) (w : Memory.wf s.dram = true) :
    Memory.wf (dramWrite s a l).dram = true := memWrite_wf a l w

/-- The memory of the reset state has the canonical form. -/
theorem reset_wf : Memory.wf State.reset.dram = true := rfl

/-- A byte reads as it was written; every other byte reads as before. -/
theorem memGet_memPut (m : List Host.Cell) (a j : Nat) (b : Byte) :
    memGet (memPut m a b) j = if j = a then b else memGet m j := by
  simp only [memGet, memPut, tget]
  split
  · rename_i h; subst h
    split
    · rename_i e; subst e; simp
    · rename_i e; rw [tget?_terase_ne m e]
  · rw [tget?_tset]; split <;> rfl

/-- Bytes outside a write read as before. -/
theorem memGet_memWrite_off (m : List Host.Cell) (a j : Nat) (l : List Byte)
    (h : ∀ i, i < l.length → j ≠ (a + i) % 2 ^ 64) : memGet (memWrite m a l) j = memGet m j := by
  induction l generalizing m a with
  | nil => rfl
  | cons b r ih =>
    simp only [memWrite]
    rw [ih (memPut m (a % 2 ^ 64) b) (a + 1) (fun i hi => by
      have := h (i + 1) (by simp only [List.length_cons]; omega)
      rwa [show a + 1 + i = a + (i + 1) by omega])]
    rw [memGet_memPut, if_neg]
    simpa using h 0 (by simp)

/-- A byte within a write that does not wrap onto itself reads as written. -/
theorem memGet_memWrite_on (m : List Host.Cell) (a : Nat) (l : List Byte) (hl : l.length ≤ 2 ^ 64)
    (i : Nat) (hi : i < l.length) : memGet (memWrite m a l) ((a + i) % 2 ^ 64) = l[i] := by
  induction l generalizing m a i with
  | nil => simp at hi
  | cons b r ih =>
    simp only [memWrite]
    simp only [List.length_cons] at hl hi
    cases i with
    | zero =>
      rw [memGet_memWrite_off, memGet_memPut]
      · simp
      · intro k hk; simp only [Nat.add_zero]; omega
    | succ n =>
      have := ih (memPut m (a % 2 ^ 64) b) (a + 1) (by omega) n (by omega)
      rw [show a + (n + 1) = a + 1 + n by omega, this]; simp

end Sys2Proof.Machine
end

