-- ==== Sys2Proof/Laws/Events.lean ====
section
/-! SUPPORT. What a settling of the event controller can do: it changes the offers, the round-robin pointers and EVC_STATUS
with its counters, and nothing else. -/

namespace Sys2Proof.Machine

/-- All that a settling may change is given here: the offers, the two pointers, the registers. -/
def SettleFrame (s t : State) : Prop :=
  ∃ offers rrN rrF regs, t = { s with regs := regs, evc := { s.evc with offers := offers, rrN := rrN, rrF := rrF } }

theorem SettleFrame.refl (s : State) : SettleFrame s s := ⟨_, _, _, _, rfl⟩

theorem SettleFrame.trans {s t u : State} (h : SettleFrame s t) (g : SettleFrame t u) : SettleFrame s u := by
  obtain ⟨a, b, c, d, rfl⟩ := h
  obtain ⟨a', b', c', d', rfl⟩ := g
  exact ⟨a', b', c', d', rfl⟩

theorem attempt_frame (s : State) (src : Nat) : SettleFrame s (attempt s src) := by
  unfold attempt
  split
  · simp only []
    split
    · split <;> exact ⟨_, _, _, _, rfl⟩
    · split
      · exact SettleFrame.refl s
      · exact ⟨_, _, _, _, rfl⟩
  · exact SettleFrame.refl s

theorem attemptFault_frame (s : State) (t : Nat) : SettleFrame s (attemptFault s t) := by
  unfold attemptFault
  split
  · exact ⟨_, _, _, _, rfl⟩
  · exact SettleFrame.refl s

theorem foldl_frame {α : Type} (f : State → α → State) (h : ∀ s a, SettleFrame s (f s a)) (l : List α) (s : State) :
    SettleFrame s (l.foldl f s) := by
  induction l generalizing s with
  | nil => exact SettleFrame.refl s
  | cons a r ih => exact (h s a).trans (ih (f s a))

/-- A settling changes the offers, the pointers and registers only. -/
theorem settle_frame (s : State) (all : Bool) (srcs : List Nat) : SettleFrame s (settle s all srcs) := by
  unfold settle
  refine SettleFrame.trans ?_ (foldl_frame attempt attempt_frame _ _)
  refine SettleFrame.trans ?_ (foldl_frame attemptFault attemptFault_frame _ _)
  exact ⟨_, _, _, _, rfl⟩

end Sys2Proof.Machine
end

