-- ==== Sys2Proof/Laws/State.lean ====
section
/-! SUPPORT. What the named updates of the state leave: one lemma per field and update, so that no proof unfolds a record
update. The field that an update changes has its own lemma in Laws/Ops.lean. -/

namespace Sys2Proof.Machine

/-! ### wr -/

@[simp] theorem wr_pending (s : State) (a v : Nat) : (wr s a v).pending = s.pending := rfl
@[simp] theorem wr_free (s : State) (a v : Nat) : (wr s a v).free = s.free := rfl
@[simp] theorem wr_nextId (s : State) (a v : Nat) : (wr s a v).nextId = s.nextId := rfl
@[simp] theorem wr_dram (s : State) (a v : Nat) : (wr s a v).dram = s.dram := rfl
@[simp] theorem wr_tick (s : State) (a v : Nat) : (wr s a v).tick = s.tick := rfl
@[simp] theorem wr_trefStop (s : State) (a v : Nat) : (wr s a v).trefStop = s.trefStop := rfl
@[simp] theorem wr_paceAt (s : State) (a v : Nat) : (wr s a v).paceAt = s.paceAt := rfl
@[simp] theorem wr_freqAt (s : State) (a v : Nat) : (wr s a v).freqAt = s.freqAt := rfl
@[simp] theorem wr_committed (s : State) (a v : Nat) : (wr s a v).committed = s.committed := rfl
@[simp] theorem wr_cpResp (s : State) (a v : Nat) : (wr s a v).cpResp = s.cpResp := rfl
@[simp] theorem wr_cpRdata (s : State) (a v : Nat) : (wr s a v).cpRdata = s.cpRdata := rfl
@[simp] theorem wr_cpWait (s : State) (a v : Nat) : (wr s a v).cpWait = s.cpWait := rfl
@[simp] theorem wr_ctx (s : State) (a v : Nat) : (wr s a v).ctx = s.ctx := rfl
@[simp] theorem wr_rings (s : State) (a v : Nat) : (wr s a v).rings = s.rings := rfl
@[simp] theorem wr_cmds (s : State) (a v : Nat) : (wr s a v).cmds = s.cmds := rfl
@[simp] theorem wr_ports (s : State) (a v : Nat) : (wr s a v).ports = s.ports := rfl
@[simp] theorem wr_xfers (s : State) (a v : Nat) : (wr s a v).xfers = s.xfers := rfl
@[simp] theorem wr_memHold (s : State) (a v : Nat) : (wr s a v).memHold = s.memHold := rfl
@[simp] theorem wr_porstN (s : State) (a v : Nat) : (wr s a v).porstN = s.porstN := rfl
@[simp] theorem wr_srstN (s : State) (a v : Nat) : (wr s a v).srstN = s.srstN := rfl
@[simp] theorem wr_pfailN (s : State) (a v : Nat) : (wr s a v).pfailN = s.pfailN := rfl
@[simp] theorem wr_filled (s : State) (a v : Nat) : (wr s a v).filled = s.filled := rfl
@[simp] theorem wr_pools (s : State) (a v : Nat) : (wr s a v).pools = s.pools := rfl
@[simp] theorem wr_slots (s : State) (a v : Nat) : (wr s a v).slots = s.slots := rfl
@[simp] theorem wr_traces (s : State) (a v : Nat) : (wr s a v).traces = s.traces := rfl
@[simp] theorem wr_evc (s : State) (a v : Nat) : (wr s a v).evc = s.evc := rfl
@[simp] theorem wr_cfg (s : State) (a v : Nat) : (wr s a v).cfg = s.cfg := rfl
@[simp] theorem wr_ozt (s : State) (a v : Nat) : (wr s a v).ozt = s.ozt := rfl
@[simp] theorem wr_layouts (s : State) (a v : Nat) : (wr s a v).layouts = s.layouts := rfl
@[simp] theorem wr_groups (s : State) (a v : Nat) : (wr s a v).groups = s.groups := rfl
@[simp] theorem wr_extents (s : State) (a v : Nat) : (wr s a v).extents = s.extents := rfl
@[simp] theorem wr_rows (s : State) (a v : Nat) : (wr s a v).rows = s.rows := rfl
@[simp] theorem wr_stagings (s : State) (a v : Nat) : (wr s a v).stagings = s.stagings := rfl
@[simp] theorem wr_ops (s : State) (a v : Nat) : (wr s a v).ops = s.ops := rfl
@[simp] theorem wr_items (s : State) (a v : Nat) : (wr s a v).items = s.items := rfl
@[simp] theorem wr_recons (s : State) (a v : Nat) : (wr s a v).recons = s.recons := rfl
@[simp] theorem wr_decs (s : State) (a v : Nat) : (wr s a v).decs = s.decs := rfl
@[simp] theorem wr_stes (s : State) (a v : Nat) : (wr s a v).stes = s.stes := rfl
@[simp] theorem wr_banks (s : State) (a v : Nat) : (wr s a v).banks = s.banks := rfl
@[simp] theorem wr_luns (s : State) (a v : Nat) : (wr s a v).luns = s.luns := rfl
@[simp] theorem wr_blks (s : State) (a v : Nat) : (wr s a v).blks = s.blks := rfl
@[simp] theorem wr_buses (s : State) (a v : Nat) : (wr s a v).buses = s.buses := rfl
@[simp] theorem wr_jrn (s : State) (a v : Nat) : (wr s a v).jrn = s.jrn := rfl
@[simp] theorem wr_gov (s : State) (a v : Nat) : (wr s a v).gov = s.gov := rfl
@[simp] theorem wr_age (s : State) (a v : Nat) : (wr s a v).age = s.age := rfl
@[simp] theorem wr_phys (s : State) (a v : Nat) : (wr s a v).phys = s.phys := rfl
@[simp] theorem wr_engines (s : State) (a v : Nat) : (wr s a v).engines = s.engines := rfl
@[simp] theorem wr_mems (s : State) (a v : Nat) : (wr s a v).mems = s.mems := rfl
@[simp] theorem wr_msrBad (s : State) (a v : Nat) : (wr s a v).msrBad = s.msrBad := rfl
@[simp] theorem wr_doms (s : State) (a v : Nat) : (wr s a v).doms = s.doms := rfl
@[simp] theorem wr_pwr (s : State) (a v : Nat) : (wr s a v).pwr = s.pwr := rfl
@[simp] theorem wr_boot (s : State) (a v : Nat) : (wr s a v).boot = s.boot := rfl
@[simp] theorem wr_tap (s : State) (a v : Nat) : (wr s a v).tap = s.tap := rfl
@[simp] theorem wr_scanEn (s : State) (a v : Nat) : (wr s a v).scanEn = s.scanEn := rfl
@[simp] theorem wr_alive (s : State) (a v : Nat) : (wr s a v).alive = s.alive := rfl
@[simp] theorem wr_aliveOn (s : State) (a v : Nat) : (wr s a v).aliveOn = s.aliveOn := rfl
@[simp] theorem wr_aliveAt (s : State) (a v : Nat) : (wr s a v).aliveAt = s.aliveAt := rfl
@[simp] theorem wr_blockFault (s : State) (a v : Nat) : (wr s a v).blockFault = s.blockFault := rfl

/-! ### wrf -/

@[simp] theorem wrf_pending (s : State) (a hi lo v : Nat) : (wrf s a hi lo v).pending = s.pending := rfl
@[simp] theorem wrf_free (s : State) (a hi lo v : Nat) : (wrf s a hi lo v).free = s.free := rfl
@[simp] theorem wrf_nextId (s : State) (a hi lo v : Nat) : (wrf s a hi lo v).nextId = s.nextId := rfl
@[simp] theorem wrf_dram (s : State) (a hi lo v : Nat) : (wrf s a hi lo v).dram = s.dram := rfl
@[simp] theorem wrf_tick (s : State) (a hi lo v : Nat) : (wrf s a hi lo v).tick = s.tick := rfl
@[simp] theorem wrf_trefStop (s : State) (a hi lo v : Nat) : (wrf s a hi lo v).trefStop = s.trefStop := rfl
@[simp] theorem wrf_paceAt (s : State) (a hi lo v : Nat) : (wrf s a hi lo v).paceAt = s.paceAt := rfl
@[simp] theorem wrf_freqAt (s : State) (a hi lo v : Nat) : (wrf s a hi lo v).freqAt = s.freqAt := rfl
@[simp] theorem wrf_committed (s : State) (a hi lo v : Nat) : (wrf s a hi lo v).committed = s.committed := rfl
@[simp] theorem wrf_cpResp (s : State) (a hi lo v : Nat) : (wrf s a hi lo v).cpResp = s.cpResp := rfl
@[simp] theorem wrf_cpRdata (s : State) (a hi lo v : Nat) : (wrf s a hi lo v).cpRdata = s.cpRdata := rfl
@[simp] theorem wrf_cpWait (s : State) (a hi lo v : Nat) : (wrf s a hi lo v).cpWait = s.cpWait := rfl
@[simp] theorem wrf_ctx (s : State) (a hi lo v : Nat) : (wrf s a hi lo v).ctx = s.ctx := rfl
@[simp] theorem wrf_rings (s : State) (a hi lo v : Nat) : (wrf s a hi lo v).rings = s.rings := rfl
@[simp] theorem wrf_cmds (s : State) (a hi lo v : Nat) : (wrf s a hi lo v).cmds = s.cmds := rfl
@[simp] theorem wrf_ports (s : State) (a hi lo v : Nat) : (wrf s a hi lo v).ports = s.ports := rfl
@[simp] theorem wrf_xfers (s : State) (a hi lo v : Nat) : (wrf s a hi lo v).xfers = s.xfers := rfl
@[simp] theorem wrf_memHold (s : State) (a hi lo v : Nat) : (wrf s a hi lo v).memHold = s.memHold := rfl
@[simp] theorem wrf_porstN (s : State) (a hi lo v : Nat) : (wrf s a hi lo v).porstN = s.porstN := rfl
@[simp] theorem wrf_srstN (s : State) (a hi lo v : Nat) : (wrf s a hi lo v).srstN = s.srstN := rfl
@[simp] theorem wrf_pfailN (s : State) (a hi lo v : Nat) : (wrf s a hi lo v).pfailN = s.pfailN := rfl
@[simp] theorem wrf_filled (s : State) (a hi lo v : Nat) : (wrf s a hi lo v).filled = s.filled := rfl
@[simp] theorem wrf_pools (s : State) (a hi lo v : Nat) : (wrf s a hi lo v).pools = s.pools := rfl
@[simp] theorem wrf_slots (s : State) (a hi lo v : Nat) : (wrf s a hi lo v).slots = s.slots := rfl
@[simp] theorem wrf_traces (s : State) (a hi lo v : Nat) : (wrf s a hi lo v).traces = s.traces := rfl
@[simp] theorem wrf_evc (s : State) (a hi lo v : Nat) : (wrf s a hi lo v).evc = s.evc := rfl
@[simp] theorem wrf_cfg (s : State) (a hi lo v : Nat) : (wrf s a hi lo v).cfg = s.cfg := rfl
@[simp] theorem wrf_ozt (s : State) (a hi lo v : Nat) : (wrf s a hi lo v).ozt = s.ozt := rfl
@[simp] theorem wrf_layouts (s : State) (a hi lo v : Nat) : (wrf s a hi lo v).layouts = s.layouts := rfl
@[simp] theorem wrf_groups (s : State) (a hi lo v : Nat) : (wrf s a hi lo v).groups = s.groups := rfl
@[simp] theorem wrf_extents (s : State) (a hi lo v : Nat) : (wrf s a hi lo v).extents = s.extents := rfl
@[simp] theorem wrf_rows (s : State) (a hi lo v : Nat) : (wrf s a hi lo v).rows = s.rows := rfl
@[simp] theorem wrf_stagings (s : State) (a hi lo v : Nat) : (wrf s a hi lo v).stagings = s.stagings := rfl
@[simp] theorem wrf_ops (s : State) (a hi lo v : Nat) : (wrf s a hi lo v).ops = s.ops := rfl
@[simp] theorem wrf_items (s : State) (a hi lo v : Nat) : (wrf s a hi lo v).items = s.items := rfl
@[simp] theorem wrf_recons (s : State) (a hi lo v : Nat) : (wrf s a hi lo v).recons = s.recons := rfl
@[simp] theorem wrf_decs (s : State) (a hi lo v : Nat) : (wrf s a hi lo v).decs = s.decs := rfl
@[simp] theorem wrf_stes (s : State) (a hi lo v : Nat) : (wrf s a hi lo v).stes = s.stes := rfl
@[simp] theorem wrf_banks (s : State) (a hi lo v : Nat) : (wrf s a hi lo v).banks = s.banks := rfl
@[simp] theorem wrf_luns (s : State) (a hi lo v : Nat) : (wrf s a hi lo v).luns = s.luns := rfl
@[simp] theorem wrf_blks (s : State) (a hi lo v : Nat) : (wrf s a hi lo v).blks = s.blks := rfl
@[simp] theorem wrf_buses (s : State) (a hi lo v : Nat) : (wrf s a hi lo v).buses = s.buses := rfl
@[simp] theorem wrf_jrn (s : State) (a hi lo v : Nat) : (wrf s a hi lo v).jrn = s.jrn := rfl
@[simp] theorem wrf_gov (s : State) (a hi lo v : Nat) : (wrf s a hi lo v).gov = s.gov := rfl
@[simp] theorem wrf_age (s : State) (a hi lo v : Nat) : (wrf s a hi lo v).age = s.age := rfl
@[simp] theorem wrf_phys (s : State) (a hi lo v : Nat) : (wrf s a hi lo v).phys = s.phys := rfl
@[simp] theorem wrf_engines (s : State) (a hi lo v : Nat) : (wrf s a hi lo v).engines = s.engines := rfl
@[simp] theorem wrf_mems (s : State) (a hi lo v : Nat) : (wrf s a hi lo v).mems = s.mems := rfl
@[simp] theorem wrf_msrBad (s : State) (a hi lo v : Nat) : (wrf s a hi lo v).msrBad = s.msrBad := rfl
@[simp] theorem wrf_doms (s : State) (a hi lo v : Nat) : (wrf s a hi lo v).doms = s.doms := rfl
@[simp] theorem wrf_pwr (s : State) (a hi lo v : Nat) : (wrf s a hi lo v).pwr = s.pwr := rfl
@[simp] theorem wrf_boot (s : State) (a hi lo v : Nat) : (wrf s a hi lo v).boot = s.boot := rfl
@[simp] theorem wrf_tap (s : State) (a hi lo v : Nat) : (wrf s a hi lo v).tap = s.tap := rfl
@[simp] theorem wrf_scanEn (s : State) (a hi lo v : Nat) : (wrf s a hi lo v).scanEn = s.scanEn := rfl
@[simp] theorem wrf_alive (s : State) (a hi lo v : Nat) : (wrf s a hi lo v).alive = s.alive := rfl
@[simp] theorem wrf_aliveOn (s : State) (a hi lo v : Nat) : (wrf s a hi lo v).aliveOn = s.aliveOn := rfl
@[simp] theorem wrf_aliveAt (s : State) (a hi lo v : Nat) : (wrf s a hi lo v).aliveAt = s.aliveAt := rfl
@[simp] theorem wrf_blockFault (s : State) (a hi lo v : Nat) : (wrf s a hi lo v).blockFault = s.blockFault := rfl

/-! ### bump -/

@[simp] theorem bump_pending (s : State) (a hi lo n : Nat) : (bump s a hi lo n).pending = s.pending := rfl
@[simp] theorem bump_free (s : State) (a hi lo n : Nat) : (bump s a hi lo n).free = s.free := rfl
@[simp] theorem bump_nextId (s : State) (a hi lo n : Nat) : (bump s a hi lo n).nextId = s.nextId := rfl
@[simp] theorem bump_dram (s : State) (a hi lo n : Nat) : (bump s a hi lo n).dram = s.dram := rfl
@[simp] theorem bump_tick (s : State) (a hi lo n : Nat) : (bump s a hi lo n).tick = s.tick := rfl
@[simp] theorem bump_trefStop (s : State) (a hi lo n : Nat) : (bump s a hi lo n).trefStop = s.trefStop := rfl
@[simp] theorem bump_paceAt (s : State) (a hi lo n : Nat) : (bump s a hi lo n).paceAt = s.paceAt := rfl
@[simp] theorem bump_freqAt (s : State) (a hi lo n : Nat) : (bump s a hi lo n).freqAt = s.freqAt := rfl
@[simp] theorem bump_committed (s : State) (a hi lo n : Nat) : (bump s a hi lo n).committed = s.committed := rfl
@[simp] theorem bump_cpResp (s : State) (a hi lo n : Nat) : (bump s a hi lo n).cpResp = s.cpResp := rfl
@[simp] theorem bump_cpRdata (s : State) (a hi lo n : Nat) : (bump s a hi lo n).cpRdata = s.cpRdata := rfl
@[simp] theorem bump_cpWait (s : State) (a hi lo n : Nat) : (bump s a hi lo n).cpWait = s.cpWait := rfl
@[simp] theorem bump_ctx (s : State) (a hi lo n : Nat) : (bump s a hi lo n).ctx = s.ctx := rfl
@[simp] theorem bump_rings (s : State) (a hi lo n : Nat) : (bump s a hi lo n).rings = s.rings := rfl
@[simp] theorem bump_cmds (s : State) (a hi lo n : Nat) : (bump s a hi lo n).cmds = s.cmds := rfl
@[simp] theorem bump_ports (s : State) (a hi lo n : Nat) : (bump s a hi lo n).ports = s.ports := rfl
@[simp] theorem bump_xfers (s : State) (a hi lo n : Nat) : (bump s a hi lo n).xfers = s.xfers := rfl
@[simp] theorem bump_memHold (s : State) (a hi lo n : Nat) : (bump s a hi lo n).memHold = s.memHold := rfl
@[simp] theorem bump_porstN (s : State) (a hi lo n : Nat) : (bump s a hi lo n).porstN = s.porstN := rfl
@[simp] theorem bump_srstN (s : State) (a hi lo n : Nat) : (bump s a hi lo n).srstN = s.srstN := rfl
@[simp] theorem bump_pfailN (s : State) (a hi lo n : Nat) : (bump s a hi lo n).pfailN = s.pfailN := rfl
@[simp] theorem bump_filled (s : State) (a hi lo n : Nat) : (bump s a hi lo n).filled = s.filled := rfl
@[simp] theorem bump_pools (s : State) (a hi lo n : Nat) : (bump s a hi lo n).pools = s.pools := rfl
@[simp] theorem bump_slots (s : State) (a hi lo n : Nat) : (bump s a hi lo n).slots = s.slots := rfl
@[simp] theorem bump_traces (s : State) (a hi lo n : Nat) : (bump s a hi lo n).traces = s.traces := rfl
@[simp] theorem bump_evc (s : State) (a hi lo n : Nat) : (bump s a hi lo n).evc = s.evc := rfl
@[simp] theorem bump_cfg (s : State) (a hi lo n : Nat) : (bump s a hi lo n).cfg = s.cfg := rfl
@[simp] theorem bump_ozt (s : State) (a hi lo n : Nat) : (bump s a hi lo n).ozt = s.ozt := rfl
@[simp] theorem bump_layouts (s : State) (a hi lo n : Nat) : (bump s a hi lo n).layouts = s.layouts := rfl
@[simp] theorem bump_groups (s : State) (a hi lo n : Nat) : (bump s a hi lo n).groups = s.groups := rfl
@[simp] theorem bump_extents (s : State) (a hi lo n : Nat) : (bump s a hi lo n).extents = s.extents := rfl
@[simp] theorem bump_rows (s : State) (a hi lo n : Nat) : (bump s a hi lo n).rows = s.rows := rfl
@[simp] theorem bump_stagings (s : State) (a hi lo n : Nat) : (bump s a hi lo n).stagings = s.stagings := rfl
@[simp] theorem bump_ops (s : State) (a hi lo n : Nat) : (bump s a hi lo n).ops = s.ops := rfl
@[simp] theorem bump_items (s : State) (a hi lo n : Nat) : (bump s a hi lo n).items = s.items := rfl
@[simp] theorem bump_recons (s : State) (a hi lo n : Nat) : (bump s a hi lo n).recons = s.recons := rfl
@[simp] theorem bump_decs (s : State) (a hi lo n : Nat) : (bump s a hi lo n).decs = s.decs := rfl
@[simp] theorem bump_stes (s : State) (a hi lo n : Nat) : (bump s a hi lo n).stes = s.stes := rfl
@[simp] theorem bump_banks (s : State) (a hi lo n : Nat) : (bump s a hi lo n).banks = s.banks := rfl
@[simp] theorem bump_luns (s : State) (a hi lo n : Nat) : (bump s a hi lo n).luns = s.luns := rfl
@[simp] theorem bump_blks (s : State) (a hi lo n : Nat) : (bump s a hi lo n).blks = s.blks := rfl
@[simp] theorem bump_buses (s : State) (a hi lo n : Nat) : (bump s a hi lo n).buses = s.buses := rfl
@[simp] theorem bump_jrn (s : State) (a hi lo n : Nat) : (bump s a hi lo n).jrn = s.jrn := rfl
@[simp] theorem bump_gov (s : State) (a hi lo n : Nat) : (bump s a hi lo n).gov = s.gov := rfl
@[simp] theorem bump_age (s : State) (a hi lo n : Nat) : (bump s a hi lo n).age = s.age := rfl
@[simp] theorem bump_phys (s : State) (a hi lo n : Nat) : (bump s a hi lo n).phys = s.phys := rfl
@[simp] theorem bump_engines (s : State) (a hi lo n : Nat) : (bump s a hi lo n).engines = s.engines := rfl
@[simp] theorem bump_mems (s : State) (a hi lo n : Nat) : (bump s a hi lo n).mems = s.mems := rfl
@[simp] theorem bump_msrBad (s : State) (a hi lo n : Nat) : (bump s a hi lo n).msrBad = s.msrBad := rfl
@[simp] theorem bump_doms (s : State) (a hi lo n : Nat) : (bump s a hi lo n).doms = s.doms := rfl
@[simp] theorem bump_pwr (s : State) (a hi lo n : Nat) : (bump s a hi lo n).pwr = s.pwr := rfl
@[simp] theorem bump_boot (s : State) (a hi lo n : Nat) : (bump s a hi lo n).boot = s.boot := rfl
@[simp] theorem bump_tap (s : State) (a hi lo n : Nat) : (bump s a hi lo n).tap = s.tap := rfl
@[simp] theorem bump_scanEn (s : State) (a hi lo n : Nat) : (bump s a hi lo n).scanEn = s.scanEn := rfl
@[simp] theorem bump_alive (s : State) (a hi lo n : Nat) : (bump s a hi lo n).alive = s.alive := rfl
@[simp] theorem bump_aliveOn (s : State) (a hi lo n : Nat) : (bump s a hi lo n).aliveOn = s.aliveOn := rfl
@[simp] theorem bump_aliveAt (s : State) (a hi lo n : Nat) : (bump s a hi lo n).aliveAt = s.aliveAt := rfl
@[simp] theorem bump_blockFault (s : State) (a hi lo n : Nat) : (bump s a hi lo n).blockFault = s.blockFault := rfl

/-! ### sticky -/

@[simp] theorem sticky_pending (s : State) (a b : Nat) : (sticky s a b).pending = s.pending := rfl
@[simp] theorem sticky_free (s : State) (a b : Nat) : (sticky s a b).free = s.free := rfl
@[simp] theorem sticky_nextId (s : State) (a b : Nat) : (sticky s a b).nextId = s.nextId := rfl
@[simp] theorem sticky_dram (s : State) (a b : Nat) : (sticky s a b).dram = s.dram := rfl
@[simp] theorem sticky_tick (s : State) (a b : Nat) : (sticky s a b).tick = s.tick := rfl
@[simp] theorem sticky_trefStop (s : State) (a b : Nat) : (sticky s a b).trefStop = s.trefStop := rfl
@[simp] theorem sticky_paceAt (s : State) (a b : Nat) : (sticky s a b).paceAt = s.paceAt := rfl
@[simp] theorem sticky_freqAt (s : State) (a b : Nat) : (sticky s a b).freqAt = s.freqAt := rfl
@[simp] theorem sticky_committed (s : State) (a b : Nat) : (sticky s a b).committed = s.committed := rfl
@[simp] theorem sticky_cpResp (s : State) (a b : Nat) : (sticky s a b).cpResp = s.cpResp := rfl
@[simp] theorem sticky_cpRdata (s : State) (a b : Nat) : (sticky s a b).cpRdata = s.cpRdata := rfl
@[simp] theorem sticky_cpWait (s : State) (a b : Nat) : (sticky s a b).cpWait = s.cpWait := rfl
@[simp] theorem sticky_ctx (s : State) (a b : Nat) : (sticky s a b).ctx = s.ctx := rfl
@[simp] theorem sticky_rings (s : State) (a b : Nat) : (sticky s a b).rings = s.rings := rfl
@[simp] theorem sticky_cmds (s : State) (a b : Nat) : (sticky s a b).cmds = s.cmds := rfl
@[simp] theorem sticky_ports (s : State) (a b : Nat) : (sticky s a b).ports = s.ports := rfl
@[simp] theorem sticky_xfers (s : State) (a b : Nat) : (sticky s a b).xfers = s.xfers := rfl
@[simp] theorem sticky_memHold (s : State) (a b : Nat) : (sticky s a b).memHold = s.memHold := rfl
@[simp] theorem sticky_porstN (s : State) (a b : Nat) : (sticky s a b).porstN = s.porstN := rfl
@[simp] theorem sticky_srstN (s : State) (a b : Nat) : (sticky s a b).srstN = s.srstN := rfl
@[simp] theorem sticky_pfailN (s : State) (a b : Nat) : (sticky s a b).pfailN = s.pfailN := rfl
@[simp] theorem sticky_filled (s : State) (a b : Nat) : (sticky s a b).filled = s.filled := rfl
@[simp] theorem sticky_pools (s : State) (a b : Nat) : (sticky s a b).pools = s.pools := rfl
@[simp] theorem sticky_slots (s : State) (a b : Nat) : (sticky s a b).slots = s.slots := rfl
@[simp] theorem sticky_traces (s : State) (a b : Nat) : (sticky s a b).traces = s.traces := rfl
@[simp] theorem sticky_evc (s : State) (a b : Nat) : (sticky s a b).evc = s.evc := rfl
@[simp] theorem sticky_cfg (s : State) (a b : Nat) : (sticky s a b).cfg = s.cfg := rfl
@[simp] theorem sticky_ozt (s : State) (a b : Nat) : (sticky s a b).ozt = s.ozt := rfl
@[simp] theorem sticky_layouts (s : State) (a b : Nat) : (sticky s a b).layouts = s.layouts := rfl
@[simp] theorem sticky_groups (s : State) (a b : Nat) : (sticky s a b).groups = s.groups := rfl
@[simp] theorem sticky_extents (s : State) (a b : Nat) : (sticky s a b).extents = s.extents := rfl
@[simp] theorem sticky_rows (s : State) (a b : Nat) : (sticky s a b).rows = s.rows := rfl
@[simp] theorem sticky_stagings (s : State) (a b : Nat) : (sticky s a b).stagings = s.stagings := rfl
@[simp] theorem sticky_ops (s : State) (a b : Nat) : (sticky s a b).ops = s.ops := rfl
@[simp] theorem sticky_items (s : State) (a b : Nat) : (sticky s a b).items = s.items := rfl
@[simp] theorem sticky_recons (s : State) (a b : Nat) : (sticky s a b).recons = s.recons := rfl
@[simp] theorem sticky_decs (s : State) (a b : Nat) : (sticky s a b).decs = s.decs := rfl
@[simp] theorem sticky_stes (s : State) (a b : Nat) : (sticky s a b).stes = s.stes := rfl
@[simp] theorem sticky_banks (s : State) (a b : Nat) : (sticky s a b).banks = s.banks := rfl
@[simp] theorem sticky_luns (s : State) (a b : Nat) : (sticky s a b).luns = s.luns := rfl
@[simp] theorem sticky_blks (s : State) (a b : Nat) : (sticky s a b).blks = s.blks := rfl
@[simp] theorem sticky_buses (s : State) (a b : Nat) : (sticky s a b).buses = s.buses := rfl
@[simp] theorem sticky_jrn (s : State) (a b : Nat) : (sticky s a b).jrn = s.jrn := rfl
@[simp] theorem sticky_gov (s : State) (a b : Nat) : (sticky s a b).gov = s.gov := rfl
@[simp] theorem sticky_age (s : State) (a b : Nat) : (sticky s a b).age = s.age := rfl
@[simp] theorem sticky_phys (s : State) (a b : Nat) : (sticky s a b).phys = s.phys := rfl
@[simp] theorem sticky_engines (s : State) (a b : Nat) : (sticky s a b).engines = s.engines := rfl
@[simp] theorem sticky_mems (s : State) (a b : Nat) : (sticky s a b).mems = s.mems := rfl
@[simp] theorem sticky_msrBad (s : State) (a b : Nat) : (sticky s a b).msrBad = s.msrBad := rfl
@[simp] theorem sticky_doms (s : State) (a b : Nat) : (sticky s a b).doms = s.doms := rfl
@[simp] theorem sticky_pwr (s : State) (a b : Nat) : (sticky s a b).pwr = s.pwr := rfl
@[simp] theorem sticky_boot (s : State) (a b : Nat) : (sticky s a b).boot = s.boot := rfl
@[simp] theorem sticky_tap (s : State) (a b : Nat) : (sticky s a b).tap = s.tap := rfl
@[simp] theorem sticky_scanEn (s : State) (a b : Nat) : (sticky s a b).scanEn = s.scanEn := rfl
@[simp] theorem sticky_alive (s : State) (a b : Nat) : (sticky s a b).alive = s.alive := rfl
@[simp] theorem sticky_aliveOn (s : State) (a b : Nat) : (sticky s a b).aliveOn = s.aliveOn := rfl
@[simp] theorem sticky_aliveAt (s : State) (a b : Nat) : (sticky s a b).aliveAt = s.aliveAt := rfl
@[simp] theorem sticky_blockFault (s : State) (a b : Nat) : (sticky s a b).blockFault = s.blockFault := rfl

/-! ### dramWrite -/

@[simp] theorem dramWrite_pending (s : State) (a : Nat) (l : List Byte) : (dramWrite s a l).pending = s.pending := rfl
@[simp] theorem dramWrite_free (s : State) (a : Nat) (l : List Byte) : (dramWrite s a l).free = s.free := rfl
@[simp] theorem dramWrite_nextId (s : State) (a : Nat) (l : List Byte) : (dramWrite s a l).nextId = s.nextId := rfl
@[simp] theorem dramWrite_regs (s : State) (a : Nat) (l : List Byte) : (dramWrite s a l).regs = s.regs := rfl
@[simp] theorem dramWrite_tick (s : State) (a : Nat) (l : List Byte) : (dramWrite s a l).tick = s.tick := rfl
@[simp] theorem dramWrite_trefStop (s : State) (a : Nat) (l : List Byte) : (dramWrite s a l).trefStop = s.trefStop := rfl
@[simp] theorem dramWrite_paceAt (s : State) (a : Nat) (l : List Byte) : (dramWrite s a l).paceAt = s.paceAt := rfl
@[simp] theorem dramWrite_freqAt (s : State) (a : Nat) (l : List Byte) : (dramWrite s a l).freqAt = s.freqAt := rfl
@[simp] theorem dramWrite_committed (s : State) (a : Nat) (l : List Byte) : (dramWrite s a l).committed = s.committed := rfl
@[simp] theorem dramWrite_cpResp (s : State) (a : Nat) (l : List Byte) : (dramWrite s a l).cpResp = s.cpResp := rfl
@[simp] theorem dramWrite_cpRdata (s : State) (a : Nat) (l : List Byte) : (dramWrite s a l).cpRdata = s.cpRdata := rfl
@[simp] theorem dramWrite_cpWait (s : State) (a : Nat) (l : List Byte) : (dramWrite s a l).cpWait = s.cpWait := rfl
@[simp] theorem dramWrite_ctx (s : State) (a : Nat) (l : List Byte) : (dramWrite s a l).ctx = s.ctx := rfl
@[simp] theorem dramWrite_rings (s : State) (a : Nat) (l : List Byte) : (dramWrite s a l).rings = s.rings := rfl
@[simp] theorem dramWrite_cmds (s : State) (a : Nat) (l : List Byte) : (dramWrite s a l).cmds = s.cmds := rfl
@[simp] theorem dramWrite_ports (s : State) (a : Nat) (l : List Byte) : (dramWrite s a l).ports = s.ports := rfl
@[simp] theorem dramWrite_xfers (s : State) (a : Nat) (l : List Byte) : (dramWrite s a l).xfers = s.xfers := rfl
@[simp] theorem dramWrite_memHold (s : State) (a : Nat) (l : List Byte) : (dramWrite s a l).memHold = s.memHold := rfl
@[simp] theorem dramWrite_porstN (s : State) (a : Nat) (l : List Byte) : (dramWrite s a l).porstN = s.porstN := rfl
@[simp] theorem dramWrite_srstN (s : State) (a : Nat) (l : List Byte) : (dramWrite s a l).srstN = s.srstN := rfl
@[simp] theorem dramWrite_pfailN (s : State) (a : Nat) (l : List Byte) : (dramWrite s a l).pfailN = s.pfailN := rfl
@[simp] theorem dramWrite_filled (s : State) (a : Nat) (l : List Byte) : (dramWrite s a l).filled = s.filled := rfl
@[simp] theorem dramWrite_pools (s : State) (a : Nat) (l : List Byte) : (dramWrite s a l).pools = s.pools := rfl
@[simp] theorem dramWrite_slots (s : State) (a : Nat) (l : List Byte) : (dramWrite s a l).slots = s.slots := rfl
@[simp] theorem dramWrite_traces (s : State) (a : Nat) (l : List Byte) : (dramWrite s a l).traces = s.traces := rfl
@[simp] theorem dramWrite_evc (s : State) (a : Nat) (l : List Byte) : (dramWrite s a l).evc = s.evc := rfl
@[simp] theorem dramWrite_cfg (s : State) (a : Nat) (l : List Byte) : (dramWrite s a l).cfg = s.cfg := rfl
@[simp] theorem dramWrite_ozt (s : State) (a : Nat) (l : List Byte) : (dramWrite s a l).ozt = s.ozt := rfl
@[simp] theorem dramWrite_layouts (s : State) (a : Nat) (l : List Byte) : (dramWrite s a l).layouts = s.layouts := rfl
@[simp] theorem dramWrite_groups (s : State) (a : Nat) (l : List Byte) : (dramWrite s a l).groups = s.groups := rfl
@[simp] theorem dramWrite_extents (s : State) (a : Nat) (l : List Byte) : (dramWrite s a l).extents = s.extents := rfl
@[simp] theorem dramWrite_rows (s : State) (a : Nat) (l : List Byte) : (dramWrite s a l).rows = s.rows := rfl
@[simp] theorem dramWrite_stagings (s : State) (a : Nat) (l : List Byte) : (dramWrite s a l).stagings = s.stagings := rfl
@[simp] theorem dramWrite_ops (s : State) (a : Nat) (l : List Byte) : (dramWrite s a l).ops = s.ops := rfl
@[simp] theorem dramWrite_items (s : State) (a : Nat) (l : List Byte) : (dramWrite s a l).items = s.items := rfl
@[simp] theorem dramWrite_recons (s : State) (a : Nat) (l : List Byte) : (dramWrite s a l).recons = s.recons := rfl
@[simp] theorem dramWrite_decs (s : State) (a : Nat) (l : List Byte) : (dramWrite s a l).decs = s.decs := rfl
@[simp] theorem dramWrite_stes (s : State) (a : Nat) (l : List Byte) : (dramWrite s a l).stes = s.stes := rfl
@[simp] theorem dramWrite_banks (s : State) (a : Nat) (l : List Byte) : (dramWrite s a l).banks = s.banks := rfl
@[simp] theorem dramWrite_luns (s : State) (a : Nat) (l : List Byte) : (dramWrite s a l).luns = s.luns := rfl
@[simp] theorem dramWrite_blks (s : State) (a : Nat) (l : List Byte) : (dramWrite s a l).blks = s.blks := rfl
@[simp] theorem dramWrite_buses (s : State) (a : Nat) (l : List Byte) : (dramWrite s a l).buses = s.buses := rfl
@[simp] theorem dramWrite_jrn (s : State) (a : Nat) (l : List Byte) : (dramWrite s a l).jrn = s.jrn := rfl
@[simp] theorem dramWrite_gov (s : State) (a : Nat) (l : List Byte) : (dramWrite s a l).gov = s.gov := rfl
@[simp] theorem dramWrite_age (s : State) (a : Nat) (l : List Byte) : (dramWrite s a l).age = s.age := rfl
@[simp] theorem dramWrite_phys (s : State) (a : Nat) (l : List Byte) : (dramWrite s a l).phys = s.phys := rfl
@[simp] theorem dramWrite_engines (s : State) (a : Nat) (l : List Byte) : (dramWrite s a l).engines = s.engines := rfl
@[simp] theorem dramWrite_mems (s : State) (a : Nat) (l : List Byte) : (dramWrite s a l).mems = s.mems := rfl
@[simp] theorem dramWrite_msrBad (s : State) (a : Nat) (l : List Byte) : (dramWrite s a l).msrBad = s.msrBad := rfl
@[simp] theorem dramWrite_doms (s : State) (a : Nat) (l : List Byte) : (dramWrite s a l).doms = s.doms := rfl
@[simp] theorem dramWrite_pwr (s : State) (a : Nat) (l : List Byte) : (dramWrite s a l).pwr = s.pwr := rfl
@[simp] theorem dramWrite_boot (s : State) (a : Nat) (l : List Byte) : (dramWrite s a l).boot = s.boot := rfl
@[simp] theorem dramWrite_tap (s : State) (a : Nat) (l : List Byte) : (dramWrite s a l).tap = s.tap := rfl
@[simp] theorem dramWrite_scanEn (s : State) (a : Nat) (l : List Byte) : (dramWrite s a l).scanEn = s.scanEn := rfl
@[simp] theorem dramWrite_alive (s : State) (a : Nat) (l : List Byte) : (dramWrite s a l).alive = s.alive := rfl
@[simp] theorem dramWrite_aliveOn (s : State) (a : Nat) (l : List Byte) : (dramWrite s a l).aliveOn = s.aliveOn := rfl
@[simp] theorem dramWrite_aliveAt (s : State) (a : Nat) (l : List Byte) : (dramWrite s a l).aliveAt = s.aliveAt := rfl
@[simp] theorem dramWrite_blockFault (s : State) (a : Nat) (l : List Byte) : (dramWrite s a l).blockFault = s.blockFault := rfl

/-! ### cset -/

@[simp] theorem cset_pending (s : State) (r o n v : Nat) : (cset s r o n v).pending = s.pending := rfl
@[simp] theorem cset_free (s : State) (r o n v : Nat) : (cset s r o n v).free = s.free := rfl
@[simp] theorem cset_nextId (s : State) (r o n v : Nat) : (cset s r o n v).nextId = s.nextId := rfl
@[simp] theorem cset_dram (s : State) (r o n v : Nat) : (cset s r o n v).dram = s.dram := rfl
@[simp] theorem cset_regs (s : State) (r o n v : Nat) : (cset s r o n v).regs = s.regs := rfl
@[simp] theorem cset_tick (s : State) (r o n v : Nat) : (cset s r o n v).tick = s.tick := rfl
@[simp] theorem cset_trefStop (s : State) (r o n v : Nat) : (cset s r o n v).trefStop = s.trefStop := rfl
@[simp] theorem cset_paceAt (s : State) (r o n v : Nat) : (cset s r o n v).paceAt = s.paceAt := rfl
@[simp] theorem cset_freqAt (s : State) (r o n v : Nat) : (cset s r o n v).freqAt = s.freqAt := rfl
@[simp] theorem cset_committed (s : State) (r o n v : Nat) : (cset s r o n v).committed = s.committed := rfl
@[simp] theorem cset_cpResp (s : State) (r o n v : Nat) : (cset s r o n v).cpResp = s.cpResp := rfl
@[simp] theorem cset_cpRdata (s : State) (r o n v : Nat) : (cset s r o n v).cpRdata = s.cpRdata := rfl
@[simp] theorem cset_cpWait (s : State) (r o n v : Nat) : (cset s r o n v).cpWait = s.cpWait := rfl
@[simp] theorem cset_rings (s : State) (r o n v : Nat) : (cset s r o n v).rings = s.rings := rfl
@[simp] theorem cset_cmds (s : State) (r o n v : Nat) : (cset s r o n v).cmds = s.cmds := rfl
@[simp] theorem cset_ports (s : State) (r o n v : Nat) : (cset s r o n v).ports = s.ports := rfl
@[simp] theorem cset_xfers (s : State) (r o n v : Nat) : (cset s r o n v).xfers = s.xfers := rfl
@[simp] theorem cset_memHold (s : State) (r o n v : Nat) : (cset s r o n v).memHold = s.memHold := rfl
@[simp] theorem cset_porstN (s : State) (r o n v : Nat) : (cset s r o n v).porstN = s.porstN := rfl
@[simp] theorem cset_srstN (s : State) (r o n v : Nat) : (cset s r o n v).srstN = s.srstN := rfl
@[simp] theorem cset_pfailN (s : State) (r o n v : Nat) : (cset s r o n v).pfailN = s.pfailN := rfl
@[simp] theorem cset_filled (s : State) (r o n v : Nat) : (cset s r o n v).filled = s.filled := rfl
@[simp] theorem cset_pools (s : State) (r o n v : Nat) : (cset s r o n v).pools = s.pools := rfl
@[simp] theorem cset_slots (s : State) (r o n v : Nat) : (cset s r o n v).slots = s.slots := rfl
@[simp] theorem cset_traces (s : State) (r o n v : Nat) : (cset s r o n v).traces = s.traces := rfl
@[simp] theorem cset_evc (s : State) (r o n v : Nat) : (cset s r o n v).evc = s.evc := rfl
@[simp] theorem cset_cfg (s : State) (r o n v : Nat) : (cset s r o n v).cfg = s.cfg := rfl
@[simp] theorem cset_ozt (s : State) (r o n v : Nat) : (cset s r o n v).ozt = s.ozt := rfl
@[simp] theorem cset_layouts (s : State) (r o n v : Nat) : (cset s r o n v).layouts = s.layouts := rfl
@[simp] theorem cset_groups (s : State) (r o n v : Nat) : (cset s r o n v).groups = s.groups := rfl
@[simp] theorem cset_extents (s : State) (r o n v : Nat) : (cset s r o n v).extents = s.extents := rfl
@[simp] theorem cset_rows (s : State) (r o n v : Nat) : (cset s r o n v).rows = s.rows := rfl
@[simp] theorem cset_stagings (s : State) (r o n v : Nat) : (cset s r o n v).stagings = s.stagings := rfl
@[simp] theorem cset_ops (s : State) (r o n v : Nat) : (cset s r o n v).ops = s.ops := rfl
@[simp] theorem cset_items (s : State) (r o n v : Nat) : (cset s r o n v).items = s.items := rfl
@[simp] theorem cset_recons (s : State) (r o n v : Nat) : (cset s r o n v).recons = s.recons := rfl
@[simp] theorem cset_decs (s : State) (r o n v : Nat) : (cset s r o n v).decs = s.decs := rfl
@[simp] theorem cset_stes (s : State) (r o n v : Nat) : (cset s r o n v).stes = s.stes := rfl
@[simp] theorem cset_banks (s : State) (r o n v : Nat) : (cset s r o n v).banks = s.banks := rfl
@[simp] theorem cset_luns (s : State) (r o n v : Nat) : (cset s r o n v).luns = s.luns := rfl
@[simp] theorem cset_blks (s : State) (r o n v : Nat) : (cset s r o n v).blks = s.blks := rfl
@[simp] theorem cset_buses (s : State) (r o n v : Nat) : (cset s r o n v).buses = s.buses := rfl
@[simp] theorem cset_jrn (s : State) (r o n v : Nat) : (cset s r o n v).jrn = s.jrn := rfl
@[simp] theorem cset_gov (s : State) (r o n v : Nat) : (cset s r o n v).gov = s.gov := rfl
@[simp] theorem cset_age (s : State) (r o n v : Nat) : (cset s r o n v).age = s.age := rfl
@[simp] theorem cset_phys (s : State) (r o n v : Nat) : (cset s r o n v).phys = s.phys := rfl
@[simp] theorem cset_engines (s : State) (r o n v : Nat) : (cset s r o n v).engines = s.engines := rfl
@[simp] theorem cset_mems (s : State) (r o n v : Nat) : (cset s r o n v).mems = s.mems := rfl
@[simp] theorem cset_msrBad (s : State) (r o n v : Nat) : (cset s r o n v).msrBad = s.msrBad := rfl
@[simp] theorem cset_doms (s : State) (r o n v : Nat) : (cset s r o n v).doms = s.doms := rfl
@[simp] theorem cset_pwr (s : State) (r o n v : Nat) : (cset s r o n v).pwr = s.pwr := rfl
@[simp] theorem cset_boot (s : State) (r o n v : Nat) : (cset s r o n v).boot = s.boot := rfl
@[simp] theorem cset_tap (s : State) (r o n v : Nat) : (cset s r o n v).tap = s.tap := rfl
@[simp] theorem cset_scanEn (s : State) (r o n v : Nat) : (cset s r o n v).scanEn = s.scanEn := rfl
@[simp] theorem cset_alive (s : State) (r o n v : Nat) : (cset s r o n v).alive = s.alive := rfl
@[simp] theorem cset_aliveOn (s : State) (r o n v : Nat) : (cset s r o n v).aliveOn = s.aliveOn := rfl
@[simp] theorem cset_aliveAt (s : State) (r o n v : Nat) : (cset s r o n v).aliveAt = s.aliveAt := rfl
@[simp] theorem cset_blockFault (s : State) (r o n v : Nat) : (cset s r o n v).blockFault = s.blockFault := rfl

/-! ### modRing -/

@[simp] theorem modRing_pending (s : State) (r : Nat) (f : RingRt → RingRt) : (modRing s r f).pending = s.pending := rfl
@[simp] theorem modRing_free (s : State) (r : Nat) (f : RingRt → RingRt) : (modRing s r f).free = s.free := rfl
@[simp] theorem modRing_nextId (s : State) (r : Nat) (f : RingRt → RingRt) : (modRing s r f).nextId = s.nextId := rfl
@[simp] theorem modRing_dram (s : State) (r : Nat) (f : RingRt → RingRt) : (modRing s r f).dram = s.dram := rfl
@[simp] theorem modRing_regs (s : State) (r : Nat) (f : RingRt → RingRt) : (modRing s r f).regs = s.regs := rfl
@[simp] theorem modRing_tick (s : State) (r : Nat) (f : RingRt → RingRt) : (modRing s r f).tick = s.tick := rfl
@[simp] theorem modRing_trefStop (s : State) (r : Nat) (f : RingRt → RingRt) : (modRing s r f).trefStop = s.trefStop := rfl
@[simp] theorem modRing_paceAt (s : State) (r : Nat) (f : RingRt → RingRt) : (modRing s r f).paceAt = s.paceAt := rfl
@[simp] theorem modRing_freqAt (s : State) (r : Nat) (f : RingRt → RingRt) : (modRing s r f).freqAt = s.freqAt := rfl
@[simp] theorem modRing_committed (s : State) (r : Nat) (f : RingRt → RingRt) : (modRing s r f).committed = s.committed := rfl
@[simp] theorem modRing_cpResp (s : State) (r : Nat) (f : RingRt → RingRt) : (modRing s r f).cpResp = s.cpResp := rfl
@[simp] theorem modRing_cpRdata (s : State) (r : Nat) (f : RingRt → RingRt) : (modRing s r f).cpRdata = s.cpRdata := rfl
@[simp] theorem modRing_cpWait (s : State) (r : Nat) (f : RingRt → RingRt) : (modRing s r f).cpWait = s.cpWait := rfl
@[simp] theorem modRing_ctx (s : State) (r : Nat) (f : RingRt → RingRt) : (modRing s r f).ctx = s.ctx := rfl
@[simp] theorem modRing_cmds (s : State) (r : Nat) (f : RingRt → RingRt) : (modRing s r f).cmds = s.cmds := rfl
@[simp] theorem modRing_ports (s : State) (r : Nat) (f : RingRt → RingRt) : (modRing s r f).ports = s.ports := rfl
@[simp] theorem modRing_xfers (s : State) (r : Nat) (f : RingRt → RingRt) : (modRing s r f).xfers = s.xfers := rfl
@[simp] theorem modRing_memHold (s : State) (r : Nat) (f : RingRt → RingRt) : (modRing s r f).memHold = s.memHold := rfl
@[simp] theorem modRing_porstN (s : State) (r : Nat) (f : RingRt → RingRt) : (modRing s r f).porstN = s.porstN := rfl
@[simp] theorem modRing_srstN (s : State) (r : Nat) (f : RingRt → RingRt) : (modRing s r f).srstN = s.srstN := rfl
@[simp] theorem modRing_pfailN (s : State) (r : Nat) (f : RingRt → RingRt) : (modRing s r f).pfailN = s.pfailN := rfl
@[simp] theorem modRing_filled (s : State) (r : Nat) (f : RingRt → RingRt) : (modRing s r f).filled = s.filled := rfl
@[simp] theorem modRing_pools (s : State) (r : Nat) (f : RingRt → RingRt) : (modRing s r f).pools = s.pools := rfl
@[simp] theorem modRing_slots (s : State) (r : Nat) (f : RingRt → RingRt) : (modRing s r f).slots = s.slots := rfl
@[simp] theorem modRing_traces (s : State) (r : Nat) (f : RingRt → RingRt) : (modRing s r f).traces = s.traces := rfl
@[simp] theorem modRing_evc (s : State) (r : Nat) (f : RingRt → RingRt) : (modRing s r f).evc = s.evc := rfl
@[simp] theorem modRing_cfg (s : State) (r : Nat) (f : RingRt → RingRt) : (modRing s r f).cfg = s.cfg := rfl
@[simp] theorem modRing_ozt (s : State) (r : Nat) (f : RingRt → RingRt) : (modRing s r f).ozt = s.ozt := rfl
@[simp] theorem modRing_layouts (s : State) (r : Nat) (f : RingRt → RingRt) : (modRing s r f).layouts = s.layouts := rfl
@[simp] theorem modRing_groups (s : State) (r : Nat) (f : RingRt → RingRt) : (modRing s r f).groups = s.groups := rfl
@[simp] theorem modRing_extents (s : State) (r : Nat) (f : RingRt → RingRt) : (modRing s r f).extents = s.extents := rfl
@[simp] theorem modRing_rows (s : State) (r : Nat) (f : RingRt → RingRt) : (modRing s r f).rows = s.rows := rfl
@[simp] theorem modRing_stagings (s : State) (r : Nat) (f : RingRt → RingRt) : (modRing s r f).stagings = s.stagings := rfl
@[simp] theorem modRing_ops (s : State) (r : Nat) (f : RingRt → RingRt) : (modRing s r f).ops = s.ops := rfl
@[simp] theorem modRing_items (s : State) (r : Nat) (f : RingRt → RingRt) : (modRing s r f).items = s.items := rfl
@[simp] theorem modRing_recons (s : State) (r : Nat) (f : RingRt → RingRt) : (modRing s r f).recons = s.recons := rfl
@[simp] theorem modRing_decs (s : State) (r : Nat) (f : RingRt → RingRt) : (modRing s r f).decs = s.decs := rfl
@[simp] theorem modRing_stes (s : State) (r : Nat) (f : RingRt → RingRt) : (modRing s r f).stes = s.stes := rfl
@[simp] theorem modRing_banks (s : State) (r : Nat) (f : RingRt → RingRt) : (modRing s r f).banks = s.banks := rfl
@[simp] theorem modRing_luns (s : State) (r : Nat) (f : RingRt → RingRt) : (modRing s r f).luns = s.luns := rfl
@[simp] theorem modRing_blks (s : State) (r : Nat) (f : RingRt → RingRt) : (modRing s r f).blks = s.blks := rfl
@[simp] theorem modRing_buses (s : State) (r : Nat) (f : RingRt → RingRt) : (modRing s r f).buses = s.buses := rfl
@[simp] theorem modRing_jrn (s : State) (r : Nat) (f : RingRt → RingRt) : (modRing s r f).jrn = s.jrn := rfl
@[simp] theorem modRing_gov (s : State) (r : Nat) (f : RingRt → RingRt) : (modRing s r f).gov = s.gov := rfl
@[simp] theorem modRing_age (s : State) (r : Nat) (f : RingRt → RingRt) : (modRing s r f).age = s.age := rfl
@[simp] theorem modRing_phys (s : State) (r : Nat) (f : RingRt → RingRt) : (modRing s r f).phys = s.phys := rfl
@[simp] theorem modRing_engines (s : State) (r : Nat) (f : RingRt → RingRt) : (modRing s r f).engines = s.engines := rfl
@[simp] theorem modRing_mems (s : State) (r : Nat) (f : RingRt → RingRt) : (modRing s r f).mems = s.mems := rfl
@[simp] theorem modRing_msrBad (s : State) (r : Nat) (f : RingRt → RingRt) : (modRing s r f).msrBad = s.msrBad := rfl
@[simp] theorem modRing_doms (s : State) (r : Nat) (f : RingRt → RingRt) : (modRing s r f).doms = s.doms := rfl
@[simp] theorem modRing_pwr (s : State) (r : Nat) (f : RingRt → RingRt) : (modRing s r f).pwr = s.pwr := rfl
@[simp] theorem modRing_boot (s : State) (r : Nat) (f : RingRt → RingRt) : (modRing s r f).boot = s.boot := rfl
@[simp] theorem modRing_tap (s : State) (r : Nat) (f : RingRt → RingRt) : (modRing s r f).tap = s.tap := rfl
@[simp] theorem modRing_scanEn (s : State) (r : Nat) (f : RingRt → RingRt) : (modRing s r f).scanEn = s.scanEn := rfl
@[simp] theorem modRing_alive (s : State) (r : Nat) (f : RingRt → RingRt) : (modRing s r f).alive = s.alive := rfl
@[simp] theorem modRing_aliveOn (s : State) (r : Nat) (f : RingRt → RingRt) : (modRing s r f).aliveOn = s.aliveOn := rfl
@[simp] theorem modRing_aliveAt (s : State) (r : Nat) (f : RingRt → RingRt) : (modRing s r f).aliveAt = s.aliveAt := rfl
@[simp] theorem modRing_blockFault (s : State) (r : Nat) (f : RingRt → RingRt) : (modRing s r f).blockFault = s.blockFault := rfl

/-! ### modCmd -/

@[simp] theorem modCmd_pending (s : State) (cid : Nat) (f : Cmd → Cmd) : (modCmd s cid f).pending = s.pending := rfl
@[simp] theorem modCmd_free (s : State) (cid : Nat) (f : Cmd → Cmd) : (modCmd s cid f).free = s.free := rfl
@[simp] theorem modCmd_nextId (s : State) (cid : Nat) (f : Cmd → Cmd) : (modCmd s cid f).nextId = s.nextId := rfl
@[simp] theorem modCmd_dram (s : State) (cid : Nat) (f : Cmd → Cmd) : (modCmd s cid f).dram = s.dram := rfl
@[simp] theorem modCmd_regs (s : State) (cid : Nat) (f : Cmd → Cmd) : (modCmd s cid f).regs = s.regs := rfl
@[simp] theorem modCmd_tick (s : State) (cid : Nat) (f : Cmd → Cmd) : (modCmd s cid f).tick = s.tick := rfl
@[simp] theorem modCmd_trefStop (s : State) (cid : Nat) (f : Cmd → Cmd) : (modCmd s cid f).trefStop = s.trefStop := rfl
@[simp] theorem modCmd_paceAt (s : State) (cid : Nat) (f : Cmd → Cmd) : (modCmd s cid f).paceAt = s.paceAt := rfl
@[simp] theorem modCmd_freqAt (s : State) (cid : Nat) (f : Cmd → Cmd) : (modCmd s cid f).freqAt = s.freqAt := rfl
@[simp] theorem modCmd_committed (s : State) (cid : Nat) (f : Cmd → Cmd) : (modCmd s cid f).committed = s.committed := rfl
@[simp] theorem modCmd_cpResp (s : State) (cid : Nat) (f : Cmd → Cmd) : (modCmd s cid f).cpResp = s.cpResp := rfl
@[simp] theorem modCmd_cpRdata (s : State) (cid : Nat) (f : Cmd → Cmd) : (modCmd s cid f).cpRdata = s.cpRdata := rfl
@[simp] theorem modCmd_cpWait (s : State) (cid : Nat) (f : Cmd → Cmd) : (modCmd s cid f).cpWait = s.cpWait := rfl
@[simp] theorem modCmd_ctx (s : State) (cid : Nat) (f : Cmd → Cmd) : (modCmd s cid f).ctx = s.ctx := rfl
@[simp] theorem modCmd_rings (s : State) (cid : Nat) (f : Cmd → Cmd) : (modCmd s cid f).rings = s.rings := rfl
@[simp] theorem modCmd_ports (s : State) (cid : Nat) (f : Cmd → Cmd) : (modCmd s cid f).ports = s.ports := rfl
@[simp] theorem modCmd_xfers (s : State) (cid : Nat) (f : Cmd → Cmd) : (modCmd s cid f).xfers = s.xfers := rfl
@[simp] theorem modCmd_memHold (s : State) (cid : Nat) (f : Cmd → Cmd) : (modCmd s cid f).memHold = s.memHold := rfl
@[simp] theorem modCmd_porstN (s : State) (cid : Nat) (f : Cmd → Cmd) : (modCmd s cid f).porstN = s.porstN := rfl
@[simp] theorem modCmd_srstN (s : State) (cid : Nat) (f : Cmd → Cmd) : (modCmd s cid f).srstN = s.srstN := rfl
@[simp] theorem modCmd_pfailN (s : State) (cid : Nat) (f : Cmd → Cmd) : (modCmd s cid f).pfailN = s.pfailN := rfl
@[simp] theorem modCmd_filled (s : State) (cid : Nat) (f : Cmd → Cmd) : (modCmd s cid f).filled = s.filled := rfl
@[simp] theorem modCmd_pools (s : State) (cid : Nat) (f : Cmd → Cmd) : (modCmd s cid f).pools = s.pools := rfl
@[simp] theorem modCmd_slots (s : State) (cid : Nat) (f : Cmd → Cmd) : (modCmd s cid f).slots = s.slots := rfl
@[simp] theorem modCmd_traces (s : State) (cid : Nat) (f : Cmd → Cmd) : (modCmd s cid f).traces = s.traces := rfl
@[simp] theorem modCmd_evc (s : State) (cid : Nat) (f : Cmd → Cmd) : (modCmd s cid f).evc = s.evc := rfl
@[simp] theorem modCmd_cfg (s : State) (cid : Nat) (f : Cmd → Cmd) : (modCmd s cid f).cfg = s.cfg := rfl
@[simp] theorem modCmd_ozt (s : State) (cid : Nat) (f : Cmd → Cmd) : (modCmd s cid f).ozt = s.ozt := rfl
@[simp] theorem modCmd_layouts (s : State) (cid : Nat) (f : Cmd → Cmd) : (modCmd s cid f).layouts = s.layouts := rfl
@[simp] theorem modCmd_groups (s : State) (cid : Nat) (f : Cmd → Cmd) : (modCmd s cid f).groups = s.groups := rfl
@[simp] theorem modCmd_extents (s : State) (cid : Nat) (f : Cmd → Cmd) : (modCmd s cid f).extents = s.extents := rfl
@[simp] theorem modCmd_rows (s : State) (cid : Nat) (f : Cmd → Cmd) : (modCmd s cid f).rows = s.rows := rfl
@[simp] theorem modCmd_stagings (s : State) (cid : Nat) (f : Cmd → Cmd) : (modCmd s cid f).stagings = s.stagings := rfl
@[simp] theorem modCmd_ops (s : State) (cid : Nat) (f : Cmd → Cmd) : (modCmd s cid f).ops = s.ops := rfl
@[simp] theorem modCmd_items (s : State) (cid : Nat) (f : Cmd → Cmd) : (modCmd s cid f).items = s.items := rfl
@[simp] theorem modCmd_recons (s : State) (cid : Nat) (f : Cmd → Cmd) : (modCmd s cid f).recons = s.recons := rfl
@[simp] theorem modCmd_decs (s : State) (cid : Nat) (f : Cmd → Cmd) : (modCmd s cid f).decs = s.decs := rfl
@[simp] theorem modCmd_stes (s : State) (cid : Nat) (f : Cmd → Cmd) : (modCmd s cid f).stes = s.stes := rfl
@[simp] theorem modCmd_banks (s : State) (cid : Nat) (f : Cmd → Cmd) : (modCmd s cid f).banks = s.banks := rfl
@[simp] theorem modCmd_luns (s : State) (cid : Nat) (f : Cmd → Cmd) : (modCmd s cid f).luns = s.luns := rfl
@[simp] theorem modCmd_blks (s : State) (cid : Nat) (f : Cmd → Cmd) : (modCmd s cid f).blks = s.blks := rfl
@[simp] theorem modCmd_buses (s : State) (cid : Nat) (f : Cmd → Cmd) : (modCmd s cid f).buses = s.buses := rfl
@[simp] theorem modCmd_jrn (s : State) (cid : Nat) (f : Cmd → Cmd) : (modCmd s cid f).jrn = s.jrn := rfl
@[simp] theorem modCmd_gov (s : State) (cid : Nat) (f : Cmd → Cmd) : (modCmd s cid f).gov = s.gov := rfl
@[simp] theorem modCmd_age (s : State) (cid : Nat) (f : Cmd → Cmd) : (modCmd s cid f).age = s.age := rfl
@[simp] theorem modCmd_phys (s : State) (cid : Nat) (f : Cmd → Cmd) : (modCmd s cid f).phys = s.phys := rfl
@[simp] theorem modCmd_engines (s : State) (cid : Nat) (f : Cmd → Cmd) : (modCmd s cid f).engines = s.engines := rfl
@[simp] theorem modCmd_mems (s : State) (cid : Nat) (f : Cmd → Cmd) : (modCmd s cid f).mems = s.mems := rfl
@[simp] theorem modCmd_msrBad (s : State) (cid : Nat) (f : Cmd → Cmd) : (modCmd s cid f).msrBad = s.msrBad := rfl
@[simp] theorem modCmd_doms (s : State) (cid : Nat) (f : Cmd → Cmd) : (modCmd s cid f).doms = s.doms := rfl
@[simp] theorem modCmd_pwr (s : State) (cid : Nat) (f : Cmd → Cmd) : (modCmd s cid f).pwr = s.pwr := rfl
@[simp] theorem modCmd_boot (s : State) (cid : Nat) (f : Cmd → Cmd) : (modCmd s cid f).boot = s.boot := rfl
@[simp] theorem modCmd_tap (s : State) (cid : Nat) (f : Cmd → Cmd) : (modCmd s cid f).tap = s.tap := rfl
@[simp] theorem modCmd_scanEn (s : State) (cid : Nat) (f : Cmd → Cmd) : (modCmd s cid f).scanEn = s.scanEn := rfl
@[simp] theorem modCmd_alive (s : State) (cid : Nat) (f : Cmd → Cmd) : (modCmd s cid f).alive = s.alive := rfl
@[simp] theorem modCmd_aliveOn (s : State) (cid : Nat) (f : Cmd → Cmd) : (modCmd s cid f).aliveOn = s.aliveOn := rfl
@[simp] theorem modCmd_aliveAt (s : State) (cid : Nat) (f : Cmd → Cmd) : (modCmd s cid f).aliveAt = s.aliveAt := rfl
@[simp] theorem modCmd_blockFault (s : State) (cid : Nat) (f : Cmd → Cmd) : (modCmd s cid f).blockFault = s.blockFault := rfl

/-! ### modOp -/

@[simp] theorem modOp_pending (s : State) (id : Nat) (f : Op → Op) : (modOp s id f).pending = s.pending := rfl
@[simp] theorem modOp_free (s : State) (id : Nat) (f : Op → Op) : (modOp s id f).free = s.free := rfl
@[simp] theorem modOp_nextId (s : State) (id : Nat) (f : Op → Op) : (modOp s id f).nextId = s.nextId := rfl
@[simp] theorem modOp_dram (s : State) (id : Nat) (f : Op → Op) : (modOp s id f).dram = s.dram := rfl
@[simp] theorem modOp_regs (s : State) (id : Nat) (f : Op → Op) : (modOp s id f).regs = s.regs := rfl
@[simp] theorem modOp_tick (s : State) (id : Nat) (f : Op → Op) : (modOp s id f).tick = s.tick := rfl
@[simp] theorem modOp_trefStop (s : State) (id : Nat) (f : Op → Op) : (modOp s id f).trefStop = s.trefStop := rfl
@[simp] theorem modOp_paceAt (s : State) (id : Nat) (f : Op → Op) : (modOp s id f).paceAt = s.paceAt := rfl
@[simp] theorem modOp_freqAt (s : State) (id : Nat) (f : Op → Op) : (modOp s id f).freqAt = s.freqAt := rfl
@[simp] theorem modOp_committed (s : State) (id : Nat) (f : Op → Op) : (modOp s id f).committed = s.committed := rfl
@[simp] theorem modOp_cpResp (s : State) (id : Nat) (f : Op → Op) : (modOp s id f).cpResp = s.cpResp := rfl
@[simp] theorem modOp_cpRdata (s : State) (id : Nat) (f : Op → Op) : (modOp s id f).cpRdata = s.cpRdata := rfl
@[simp] theorem modOp_cpWait (s : State) (id : Nat) (f : Op → Op) : (modOp s id f).cpWait = s.cpWait := rfl
@[simp] theorem modOp_ctx (s : State) (id : Nat) (f : Op → Op) : (modOp s id f).ctx = s.ctx := rfl
@[simp] theorem modOp_rings (s : State) (id : Nat) (f : Op → Op) : (modOp s id f).rings = s.rings := rfl
@[simp] theorem modOp_cmds (s : State) (id : Nat) (f : Op → Op) : (modOp s id f).cmds = s.cmds := rfl
@[simp] theorem modOp_ports (s : State) (id : Nat) (f : Op → Op) : (modOp s id f).ports = s.ports := rfl
@[simp] theorem modOp_xfers (s : State) (id : Nat) (f : Op → Op) : (modOp s id f).xfers = s.xfers := rfl
@[simp] theorem modOp_memHold (s : State) (id : Nat) (f : Op → Op) : (modOp s id f).memHold = s.memHold := rfl
@[simp] theorem modOp_porstN (s : State) (id : Nat) (f : Op → Op) : (modOp s id f).porstN = s.porstN := rfl
@[simp] theorem modOp_srstN (s : State) (id : Nat) (f : Op → Op) : (modOp s id f).srstN = s.srstN := rfl
@[simp] theorem modOp_pfailN (s : State) (id : Nat) (f : Op → Op) : (modOp s id f).pfailN = s.pfailN := rfl
@[simp] theorem modOp_filled (s : State) (id : Nat) (f : Op → Op) : (modOp s id f).filled = s.filled := rfl
@[simp] theorem modOp_pools (s : State) (id : Nat) (f : Op → Op) : (modOp s id f).pools = s.pools := rfl
@[simp] theorem modOp_slots (s : State) (id : Nat) (f : Op → Op) : (modOp s id f).slots = s.slots := rfl
@[simp] theorem modOp_traces (s : State) (id : Nat) (f : Op → Op) : (modOp s id f).traces = s.traces := rfl
@[simp] theorem modOp_evc (s : State) (id : Nat) (f : Op → Op) : (modOp s id f).evc = s.evc := rfl
@[simp] theorem modOp_cfg (s : State) (id : Nat) (f : Op → Op) : (modOp s id f).cfg = s.cfg := rfl
@[simp] theorem modOp_ozt (s : State) (id : Nat) (f : Op → Op) : (modOp s id f).ozt = s.ozt := rfl
@[simp] theorem modOp_layouts (s : State) (id : Nat) (f : Op → Op) : (modOp s id f).layouts = s.layouts := rfl
@[simp] theorem modOp_groups (s : State) (id : Nat) (f : Op → Op) : (modOp s id f).groups = s.groups := rfl
@[simp] theorem modOp_extents (s : State) (id : Nat) (f : Op → Op) : (modOp s id f).extents = s.extents := rfl
@[simp] theorem modOp_rows (s : State) (id : Nat) (f : Op → Op) : (modOp s id f).rows = s.rows := rfl
@[simp] theorem modOp_stagings (s : State) (id : Nat) (f : Op → Op) : (modOp s id f).stagings = s.stagings := rfl
@[simp] theorem modOp_items (s : State) (id : Nat) (f : Op → Op) : (modOp s id f).items = s.items := rfl
@[simp] theorem modOp_recons (s : State) (id : Nat) (f : Op → Op) : (modOp s id f).recons = s.recons := rfl
@[simp] theorem modOp_decs (s : State) (id : Nat) (f : Op → Op) : (modOp s id f).decs = s.decs := rfl
@[simp] theorem modOp_stes (s : State) (id : Nat) (f : Op → Op) : (modOp s id f).stes = s.stes := rfl
@[simp] theorem modOp_banks (s : State) (id : Nat) (f : Op → Op) : (modOp s id f).banks = s.banks := rfl
@[simp] theorem modOp_luns (s : State) (id : Nat) (f : Op → Op) : (modOp s id f).luns = s.luns := rfl
@[simp] theorem modOp_blks (s : State) (id : Nat) (f : Op → Op) : (modOp s id f).blks = s.blks := rfl
@[simp] theorem modOp_buses (s : State) (id : Nat) (f : Op → Op) : (modOp s id f).buses = s.buses := rfl
@[simp] theorem modOp_jrn (s : State) (id : Nat) (f : Op → Op) : (modOp s id f).jrn = s.jrn := rfl
@[simp] theorem modOp_gov (s : State) (id : Nat) (f : Op → Op) : (modOp s id f).gov = s.gov := rfl
@[simp] theorem modOp_age (s : State) (id : Nat) (f : Op → Op) : (modOp s id f).age = s.age := rfl
@[simp] theorem modOp_phys (s : State) (id : Nat) (f : Op → Op) : (modOp s id f).phys = s.phys := rfl
@[simp] theorem modOp_engines (s : State) (id : Nat) (f : Op → Op) : (modOp s id f).engines = s.engines := rfl
@[simp] theorem modOp_mems (s : State) (id : Nat) (f : Op → Op) : (modOp s id f).mems = s.mems := rfl
@[simp] theorem modOp_msrBad (s : State) (id : Nat) (f : Op → Op) : (modOp s id f).msrBad = s.msrBad := rfl
@[simp] theorem modOp_doms (s : State) (id : Nat) (f : Op → Op) : (modOp s id f).doms = s.doms := rfl
@[simp] theorem modOp_pwr (s : State) (id : Nat) (f : Op → Op) : (modOp s id f).pwr = s.pwr := rfl
@[simp] theorem modOp_boot (s : State) (id : Nat) (f : Op → Op) : (modOp s id f).boot = s.boot := rfl
@[simp] theorem modOp_tap (s : State) (id : Nat) (f : Op → Op) : (modOp s id f).tap = s.tap := rfl
@[simp] theorem modOp_scanEn (s : State) (id : Nat) (f : Op → Op) : (modOp s id f).scanEn = s.scanEn := rfl
@[simp] theorem modOp_alive (s : State) (id : Nat) (f : Op → Op) : (modOp s id f).alive = s.alive := rfl
@[simp] theorem modOp_aliveOn (s : State) (id : Nat) (f : Op → Op) : (modOp s id f).aliveOn = s.aliveOn := rfl
@[simp] theorem modOp_aliveAt (s : State) (id : Nat) (f : Op → Op) : (modOp s id f).aliveAt = s.aliveAt := rfl
@[simp] theorem modOp_blockFault (s : State) (id : Nat) (f : Op → Op) : (modOp s id f).blockFault = s.blockFault := rfl

/-! ### modItem -/

@[simp] theorem modItem_pending (s : State) (id : Nat) (f : Item → Item) : (modItem s id f).pending = s.pending := rfl
@[simp] theorem modItem_free (s : State) (id : Nat) (f : Item → Item) : (modItem s id f).free = s.free := rfl
@[simp] theorem modItem_nextId (s : State) (id : Nat) (f : Item → Item) : (modItem s id f).nextId = s.nextId := rfl
@[simp] theorem modItem_dram (s : State) (id : Nat) (f : Item → Item) : (modItem s id f).dram = s.dram := rfl
@[simp] theorem modItem_regs (s : State) (id : Nat) (f : Item → Item) : (modItem s id f).regs = s.regs := rfl
@[simp] theorem modItem_tick (s : State) (id : Nat) (f : Item → Item) : (modItem s id f).tick = s.tick := rfl
@[simp] theorem modItem_trefStop (s : State) (id : Nat) (f : Item → Item) : (modItem s id f).trefStop = s.trefStop := rfl
@[simp] theorem modItem_paceAt (s : State) (id : Nat) (f : Item → Item) : (modItem s id f).paceAt = s.paceAt := rfl
@[simp] theorem modItem_freqAt (s : State) (id : Nat) (f : Item → Item) : (modItem s id f).freqAt = s.freqAt := rfl
@[simp] theorem modItem_committed (s : State) (id : Nat) (f : Item → Item) : (modItem s id f).committed = s.committed := rfl
@[simp] theorem modItem_cpResp (s : State) (id : Nat) (f : Item → Item) : (modItem s id f).cpResp = s.cpResp := rfl
@[simp] theorem modItem_cpRdata (s : State) (id : Nat) (f : Item → Item) : (modItem s id f).cpRdata = s.cpRdata := rfl
@[simp] theorem modItem_cpWait (s : State) (id : Nat) (f : Item → Item) : (modItem s id f).cpWait = s.cpWait := rfl
@[simp] theorem modItem_ctx (s : State) (id : Nat) (f : Item → Item) : (modItem s id f).ctx = s.ctx := rfl
@[simp] theorem modItem_rings (s : State) (id : Nat) (f : Item → Item) : (modItem s id f).rings = s.rings := rfl
@[simp] theorem modItem_cmds (s : State) (id : Nat) (f : Item → Item) : (modItem s id f).cmds = s.cmds := rfl
@[simp] theorem modItem_ports (s : State) (id : Nat) (f : Item → Item) : (modItem s id f).ports = s.ports := rfl
@[simp] theorem modItem_xfers (s : State) (id : Nat) (f : Item → Item) : (modItem s id f).xfers = s.xfers := rfl
@[simp] theorem modItem_memHold (s : State) (id : Nat) (f : Item → Item) : (modItem s id f).memHold = s.memHold := rfl
@[simp] theorem modItem_porstN (s : State) (id : Nat) (f : Item → Item) : (modItem s id f).porstN = s.porstN := rfl
@[simp] theorem modItem_srstN (s : State) (id : Nat) (f : Item → Item) : (modItem s id f).srstN = s.srstN := rfl
@[simp] theorem modItem_pfailN (s : State) (id : Nat) (f : Item → Item) : (modItem s id f).pfailN = s.pfailN := rfl
@[simp] theorem modItem_filled (s : State) (id : Nat) (f : Item → Item) : (modItem s id f).filled = s.filled := rfl
@[simp] theorem modItem_pools (s : State) (id : Nat) (f : Item → Item) : (modItem s id f).pools = s.pools := rfl
@[simp] theorem modItem_slots (s : State) (id : Nat) (f : Item → Item) : (modItem s id f).slots = s.slots := rfl
@[simp] theorem modItem_traces (s : State) (id : Nat) (f : Item → Item) : (modItem s id f).traces = s.traces := rfl
@[simp] theorem modItem_evc (s : State) (id : Nat) (f : Item → Item) : (modItem s id f).evc = s.evc := rfl
@[simp] theorem modItem_cfg (s : State) (id : Nat) (f : Item → Item) : (modItem s id f).cfg = s.cfg := rfl
@[simp] theorem modItem_ozt (s : State) (id : Nat) (f : Item → Item) : (modItem s id f).ozt = s.ozt := rfl
@[simp] theorem modItem_layouts (s : State) (id : Nat) (f : Item → Item) : (modItem s id f).layouts = s.layouts := rfl
@[simp] theorem modItem_groups (s : State) (id : Nat) (f : Item → Item) : (modItem s id f).groups = s.groups := rfl
@[simp] theorem modItem_extents (s : State) (id : Nat) (f : Item → Item) : (modItem s id f).extents = s.extents := rfl
@[simp] theorem modItem_rows (s : State) (id : Nat) (f : Item → Item) : (modItem s id f).rows = s.rows := rfl
@[simp] theorem modItem_stagings (s : State) (id : Nat) (f : Item → Item) : (modItem s id f).stagings = s.stagings := rfl
@[simp] theorem modItem_ops (s : State) (id : Nat) (f : Item → Item) : (modItem s id f).ops = s.ops := rfl
@[simp] theorem modItem_recons (s : State) (id : Nat) (f : Item → Item) : (modItem s id f).recons = s.recons := rfl
@[simp] theorem modItem_decs (s : State) (id : Nat) (f : Item → Item) : (modItem s id f).decs = s.decs := rfl
@[simp] theorem modItem_stes (s : State) (id : Nat) (f : Item → Item) : (modItem s id f).stes = s.stes := rfl
@[simp] theorem modItem_banks (s : State) (id : Nat) (f : Item → Item) : (modItem s id f).banks = s.banks := rfl
@[simp] theorem modItem_luns (s : State) (id : Nat) (f : Item → Item) : (modItem s id f).luns = s.luns := rfl
@[simp] theorem modItem_blks (s : State) (id : Nat) (f : Item → Item) : (modItem s id f).blks = s.blks := rfl
@[simp] theorem modItem_buses (s : State) (id : Nat) (f : Item → Item) : (modItem s id f).buses = s.buses := rfl
@[simp] theorem modItem_jrn (s : State) (id : Nat) (f : Item → Item) : (modItem s id f).jrn = s.jrn := rfl
@[simp] theorem modItem_gov (s : State) (id : Nat) (f : Item → Item) : (modItem s id f).gov = s.gov := rfl
@[simp] theorem modItem_age (s : State) (id : Nat) (f : Item → Item) : (modItem s id f).age = s.age := rfl
@[simp] theorem modItem_phys (s : State) (id : Nat) (f : Item → Item) : (modItem s id f).phys = s.phys := rfl
@[simp] theorem modItem_engines (s : State) (id : Nat) (f : Item → Item) : (modItem s id f).engines = s.engines := rfl
@[simp] theorem modItem_mems (s : State) (id : Nat) (f : Item → Item) : (modItem s id f).mems = s.mems := rfl
@[simp] theorem modItem_msrBad (s : State) (id : Nat) (f : Item → Item) : (modItem s id f).msrBad = s.msrBad := rfl
@[simp] theorem modItem_doms (s : State) (id : Nat) (f : Item → Item) : (modItem s id f).doms = s.doms := rfl
@[simp] theorem modItem_pwr (s : State) (id : Nat) (f : Item → Item) : (modItem s id f).pwr = s.pwr := rfl
@[simp] theorem modItem_boot (s : State) (id : Nat) (f : Item → Item) : (modItem s id f).boot = s.boot := rfl
@[simp] theorem modItem_tap (s : State) (id : Nat) (f : Item → Item) : (modItem s id f).tap = s.tap := rfl
@[simp] theorem modItem_scanEn (s : State) (id : Nat) (f : Item → Item) : (modItem s id f).scanEn = s.scanEn := rfl
@[simp] theorem modItem_alive (s : State) (id : Nat) (f : Item → Item) : (modItem s id f).alive = s.alive := rfl
@[simp] theorem modItem_aliveOn (s : State) (id : Nat) (f : Item → Item) : (modItem s id f).aliveOn = s.aliveOn := rfl
@[simp] theorem modItem_aliveAt (s : State) (id : Nat) (f : Item → Item) : (modItem s id f).aliveAt = s.aliveAt := rfl
@[simp] theorem modItem_blockFault (s : State) (id : Nat) (f : Item → Item) : (modItem s id f).blockFault = s.blockFault := rfl

/-! ### modRow -/

@[simp] theorem modRow_pending (s : State) (rid : Nat) (f : Row → Row) : (modRow s rid f).pending = s.pending := rfl
@[simp] theorem modRow_free (s : State) (rid : Nat) (f : Row → Row) : (modRow s rid f).free = s.free := rfl
@[simp] theorem modRow_nextId (s : State) (rid : Nat) (f : Row → Row) : (modRow s rid f).nextId = s.nextId := rfl
@[simp] theorem modRow_dram (s : State) (rid : Nat) (f : Row → Row) : (modRow s rid f).dram = s.dram := rfl
@[simp] theorem modRow_regs (s : State) (rid : Nat) (f : Row → Row) : (modRow s rid f).regs = s.regs := rfl
@[simp] theorem modRow_tick (s : State) (rid : Nat) (f : Row → Row) : (modRow s rid f).tick = s.tick := rfl
@[simp] theorem modRow_trefStop (s : State) (rid : Nat) (f : Row → Row) : (modRow s rid f).trefStop = s.trefStop := rfl
@[simp] theorem modRow_paceAt (s : State) (rid : Nat) (f : Row → Row) : (modRow s rid f).paceAt = s.paceAt := rfl
@[simp] theorem modRow_freqAt (s : State) (rid : Nat) (f : Row → Row) : (modRow s rid f).freqAt = s.freqAt := rfl
@[simp] theorem modRow_committed (s : State) (rid : Nat) (f : Row → Row) : (modRow s rid f).committed = s.committed := rfl
@[simp] theorem modRow_cpResp (s : State) (rid : Nat) (f : Row → Row) : (modRow s rid f).cpResp = s.cpResp := rfl
@[simp] theorem modRow_cpRdata (s : State) (rid : Nat) (f : Row → Row) : (modRow s rid f).cpRdata = s.cpRdata := rfl
@[simp] theorem modRow_cpWait (s : State) (rid : Nat) (f : Row → Row) : (modRow s rid f).cpWait = s.cpWait := rfl
@[simp] theorem modRow_ctx (s : State) (rid : Nat) (f : Row → Row) : (modRow s rid f).ctx = s.ctx := rfl
@[simp] theorem modRow_rings (s : State) (rid : Nat) (f : Row → Row) : (modRow s rid f).rings = s.rings := rfl
@[simp] theorem modRow_cmds (s : State) (rid : Nat) (f : Row → Row) : (modRow s rid f).cmds = s.cmds := rfl
@[simp] theorem modRow_ports (s : State) (rid : Nat) (f : Row → Row) : (modRow s rid f).ports = s.ports := rfl
@[simp] theorem modRow_xfers (s : State) (rid : Nat) (f : Row → Row) : (modRow s rid f).xfers = s.xfers := rfl
@[simp] theorem modRow_memHold (s : State) (rid : Nat) (f : Row → Row) : (modRow s rid f).memHold = s.memHold := rfl
@[simp] theorem modRow_porstN (s : State) (rid : Nat) (f : Row → Row) : (modRow s rid f).porstN = s.porstN := rfl
@[simp] theorem modRow_srstN (s : State) (rid : Nat) (f : Row → Row) : (modRow s rid f).srstN = s.srstN := rfl
@[simp] theorem modRow_pfailN (s : State) (rid : Nat) (f : Row → Row) : (modRow s rid f).pfailN = s.pfailN := rfl
@[simp] theorem modRow_filled (s : State) (rid : Nat) (f : Row → Row) : (modRow s rid f).filled = s.filled := rfl
@[simp] theorem modRow_pools (s : State) (rid : Nat) (f : Row → Row) : (modRow s rid f).pools = s.pools := rfl
@[simp] theorem modRow_slots (s : State) (rid : Nat) (f : Row → Row) : (modRow s rid f).slots = s.slots := rfl
@[simp] theorem modRow_traces (s : State) (rid : Nat) (f : Row → Row) : (modRow s rid f).traces = s.traces := rfl
@[simp] theorem modRow_evc (s : State) (rid : Nat) (f : Row → Row) : (modRow s rid f).evc = s.evc := rfl
@[simp] theorem modRow_cfg (s : State) (rid : Nat) (f : Row → Row) : (modRow s rid f).cfg = s.cfg := rfl
@[simp] theorem modRow_ozt (s : State) (rid : Nat) (f : Row → Row) : (modRow s rid f).ozt = s.ozt := rfl
@[simp] theorem modRow_layouts (s : State) (rid : Nat) (f : Row → Row) : (modRow s rid f).layouts = s.layouts := rfl
@[simp] theorem modRow_groups (s : State) (rid : Nat) (f : Row → Row) : (modRow s rid f).groups = s.groups := rfl
@[simp] theorem modRow_extents (s : State) (rid : Nat) (f : Row → Row) : (modRow s rid f).extents = s.extents := rfl
@[simp] theorem modRow_stagings (s : State) (rid : Nat) (f : Row → Row) : (modRow s rid f).stagings = s.stagings := rfl
@[simp] theorem modRow_ops (s : State) (rid : Nat) (f : Row → Row) : (modRow s rid f).ops = s.ops := rfl
@[simp] theorem modRow_items (s : State) (rid : Nat) (f : Row → Row) : (modRow s rid f).items = s.items := rfl
@[simp] theorem modRow_recons (s : State) (rid : Nat) (f : Row → Row) : (modRow s rid f).recons = s.recons := rfl
@[simp] theorem modRow_decs (s : State) (rid : Nat) (f : Row → Row) : (modRow s rid f).decs = s.decs := rfl
@[simp] theorem modRow_stes (s : State) (rid : Nat) (f : Row → Row) : (modRow s rid f).stes = s.stes := rfl
@[simp] theorem modRow_banks (s : State) (rid : Nat) (f : Row → Row) : (modRow s rid f).banks = s.banks := rfl
@[simp] theorem modRow_luns (s : State) (rid : Nat) (f : Row → Row) : (modRow s rid f).luns = s.luns := rfl
@[simp] theorem modRow_blks (s : State) (rid : Nat) (f : Row → Row) : (modRow s rid f).blks = s.blks := rfl
@[simp] theorem modRow_buses (s : State) (rid : Nat) (f : Row → Row) : (modRow s rid f).buses = s.buses := rfl
@[simp] theorem modRow_jrn (s : State) (rid : Nat) (f : Row → Row) : (modRow s rid f).jrn = s.jrn := rfl
@[simp] theorem modRow_gov (s : State) (rid : Nat) (f : Row → Row) : (modRow s rid f).gov = s.gov := rfl
@[simp] theorem modRow_age (s : State) (rid : Nat) (f : Row → Row) : (modRow s rid f).age = s.age := rfl
@[simp] theorem modRow_phys (s : State) (rid : Nat) (f : Row → Row) : (modRow s rid f).phys = s.phys := rfl
@[simp] theorem modRow_engines (s : State) (rid : Nat) (f : Row → Row) : (modRow s rid f).engines = s.engines := rfl
@[simp] theorem modRow_mems (s : State) (rid : Nat) (f : Row → Row) : (modRow s rid f).mems = s.mems := rfl
@[simp] theorem modRow_msrBad (s : State) (rid : Nat) (f : Row → Row) : (modRow s rid f).msrBad = s.msrBad := rfl
@[simp] theorem modRow_doms (s : State) (rid : Nat) (f : Row → Row) : (modRow s rid f).doms = s.doms := rfl
@[simp] theorem modRow_pwr (s : State) (rid : Nat) (f : Row → Row) : (modRow s rid f).pwr = s.pwr := rfl
@[simp] theorem modRow_boot (s : State) (rid : Nat) (f : Row → Row) : (modRow s rid f).boot = s.boot := rfl
@[simp] theorem modRow_tap (s : State) (rid : Nat) (f : Row → Row) : (modRow s rid f).tap = s.tap := rfl
@[simp] theorem modRow_scanEn (s : State) (rid : Nat) (f : Row → Row) : (modRow s rid f).scanEn = s.scanEn := rfl
@[simp] theorem modRow_alive (s : State) (rid : Nat) (f : Row → Row) : (modRow s rid f).alive = s.alive := rfl
@[simp] theorem modRow_aliveOn (s : State) (rid : Nat) (f : Row → Row) : (modRow s rid f).aliveOn = s.aliveOn := rfl
@[simp] theorem modRow_aliveAt (s : State) (rid : Nat) (f : Row → Row) : (modRow s rid f).aliveAt = s.aliveAt := rfl
@[simp] theorem modRow_blockFault (s : State) (rid : Nat) (f : Row → Row) : (modRow s rid f).blockFault = s.blockFault := rfl

/-! ### modStg -/

@[simp] theorem modStg_pending (s : State) (sid : Nat) (f : Staging → Staging) : (modStg s sid f).pending = s.pending := rfl
@[simp] theorem modStg_free (s : State) (sid : Nat) (f : Staging → Staging) : (modStg s sid f).free = s.free := rfl
@[simp] theorem modStg_nextId (s : State) (sid : Nat) (f : Staging → Staging) : (modStg s sid f).nextId = s.nextId := rfl
@[simp] theorem modStg_dram (s : State) (sid : Nat) (f : Staging → Staging) : (modStg s sid f).dram = s.dram := rfl
@[simp] theorem modStg_regs (s : State) (sid : Nat) (f : Staging → Staging) : (modStg s sid f).regs = s.regs := rfl
@[simp] theorem modStg_tick (s : State) (sid : Nat) (f : Staging → Staging) : (modStg s sid f).tick = s.tick := rfl
@[simp] theorem modStg_trefStop (s : State) (sid : Nat) (f : Staging → Staging) : (modStg s sid f).trefStop = s.trefStop := rfl
@[simp] theorem modStg_paceAt (s : State) (sid : Nat) (f : Staging → Staging) : (modStg s sid f).paceAt = s.paceAt := rfl
@[simp] theorem modStg_freqAt (s : State) (sid : Nat) (f : Staging → Staging) : (modStg s sid f).freqAt = s.freqAt := rfl
@[simp] theorem modStg_committed (s : State) (sid : Nat) (f : Staging → Staging) : (modStg s sid f).committed = s.committed := rfl
@[simp] theorem modStg_cpResp (s : State) (sid : Nat) (f : Staging → Staging) : (modStg s sid f).cpResp = s.cpResp := rfl
@[simp] theorem modStg_cpRdata (s : State) (sid : Nat) (f : Staging → Staging) : (modStg s sid f).cpRdata = s.cpRdata := rfl
@[simp] theorem modStg_cpWait (s : State) (sid : Nat) (f : Staging → Staging) : (modStg s sid f).cpWait = s.cpWait := rfl
@[simp] theorem modStg_ctx (s : State) (sid : Nat) (f : Staging → Staging) : (modStg s sid f).ctx = s.ctx := rfl
@[simp] theorem modStg_rings (s : State) (sid : Nat) (f : Staging → Staging) : (modStg s sid f).rings = s.rings := rfl
@[simp] theorem modStg_cmds (s : State) (sid : Nat) (f : Staging → Staging) : (modStg s sid f).cmds = s.cmds := rfl
@[simp] theorem modStg_ports (s : State) (sid : Nat) (f : Staging → Staging) : (modStg s sid f).ports = s.ports := rfl
@[simp] theorem modStg_xfers (s : State) (sid : Nat) (f : Staging → Staging) : (modStg s sid f).xfers = s.xfers := rfl
@[simp] theorem modStg_memHold (s : State) (sid : Nat) (f : Staging → Staging) : (modStg s sid f).memHold = s.memHold := rfl
@[simp] theorem modStg_porstN (s : State) (sid : Nat) (f : Staging → Staging) : (modStg s sid f).porstN = s.porstN := rfl
@[simp] theorem modStg_srstN (s : State) (sid : Nat) (f : Staging → Staging) : (modStg s sid f).srstN = s.srstN := rfl
@[simp] theorem modStg_pfailN (s : State) (sid : Nat) (f : Staging → Staging) : (modStg s sid f).pfailN = s.pfailN := rfl
@[simp] theorem modStg_filled (s : State) (sid : Nat) (f : Staging → Staging) : (modStg s sid f).filled = s.filled := rfl
@[simp] theorem modStg_pools (s : State) (sid : Nat) (f : Staging → Staging) : (modStg s sid f).pools = s.pools := rfl
@[simp] theorem modStg_slots (s : State) (sid : Nat) (f : Staging → Staging) : (modStg s sid f).slots = s.slots := rfl
@[simp] theorem modStg_traces (s : State) (sid : Nat) (f : Staging → Staging) : (modStg s sid f).traces = s.traces := rfl
@[simp] theorem modStg_evc (s : State) (sid : Nat) (f : Staging → Staging) : (modStg s sid f).evc = s.evc := rfl
@[simp] theorem modStg_cfg (s : State) (sid : Nat) (f : Staging → Staging) : (modStg s sid f).cfg = s.cfg := rfl
@[simp] theorem modStg_ozt (s : State) (sid : Nat) (f : Staging → Staging) : (modStg s sid f).ozt = s.ozt := rfl
@[simp] theorem modStg_layouts (s : State) (sid : Nat) (f : Staging → Staging) : (modStg s sid f).layouts = s.layouts := rfl
@[simp] theorem modStg_groups (s : State) (sid : Nat) (f : Staging → Staging) : (modStg s sid f).groups = s.groups := rfl
@[simp] theorem modStg_extents (s : State) (sid : Nat) (f : Staging → Staging) : (modStg s sid f).extents = s.extents := rfl
@[simp] theorem modStg_rows (s : State) (sid : Nat) (f : Staging → Staging) : (modStg s sid f).rows = s.rows := rfl
@[simp] theorem modStg_ops (s : State) (sid : Nat) (f : Staging → Staging) : (modStg s sid f).ops = s.ops := rfl
@[simp] theorem modStg_items (s : State) (sid : Nat) (f : Staging → Staging) : (modStg s sid f).items = s.items := rfl
@[simp] theorem modStg_recons (s : State) (sid : Nat) (f : Staging → Staging) : (modStg s sid f).recons = s.recons := rfl
@[simp] theorem modStg_decs (s : State) (sid : Nat) (f : Staging → Staging) : (modStg s sid f).decs = s.decs := rfl
@[simp] theorem modStg_stes (s : State) (sid : Nat) (f : Staging → Staging) : (modStg s sid f).stes = s.stes := rfl
@[simp] theorem modStg_banks (s : State) (sid : Nat) (f : Staging → Staging) : (modStg s sid f).banks = s.banks := rfl
@[simp] theorem modStg_luns (s : State) (sid : Nat) (f : Staging → Staging) : (modStg s sid f).luns = s.luns := rfl
@[simp] theorem modStg_blks (s : State) (sid : Nat) (f : Staging → Staging) : (modStg s sid f).blks = s.blks := rfl
@[simp] theorem modStg_buses (s : State) (sid : Nat) (f : Staging → Staging) : (modStg s sid f).buses = s.buses := rfl
@[simp] theorem modStg_jrn (s : State) (sid : Nat) (f : Staging → Staging) : (modStg s sid f).jrn = s.jrn := rfl
@[simp] theorem modStg_gov (s : State) (sid : Nat) (f : Staging → Staging) : (modStg s sid f).gov = s.gov := rfl
@[simp] theorem modStg_age (s : State) (sid : Nat) (f : Staging → Staging) : (modStg s sid f).age = s.age := rfl
@[simp] theorem modStg_phys (s : State) (sid : Nat) (f : Staging → Staging) : (modStg s sid f).phys = s.phys := rfl
@[simp] theorem modStg_engines (s : State) (sid : Nat) (f : Staging → Staging) : (modStg s sid f).engines = s.engines := rfl
@[simp] theorem modStg_mems (s : State) (sid : Nat) (f : Staging → Staging) : (modStg s sid f).mems = s.mems := rfl
@[simp] theorem modStg_msrBad (s : State) (sid : Nat) (f : Staging → Staging) : (modStg s sid f).msrBad = s.msrBad := rfl
@[simp] theorem modStg_doms (s : State) (sid : Nat) (f : Staging → Staging) : (modStg s sid f).doms = s.doms := rfl
@[simp] theorem modStg_pwr (s : State) (sid : Nat) (f : Staging → Staging) : (modStg s sid f).pwr = s.pwr := rfl
@[simp] theorem modStg_boot (s : State) (sid : Nat) (f : Staging → Staging) : (modStg s sid f).boot = s.boot := rfl
@[simp] theorem modStg_tap (s : State) (sid : Nat) (f : Staging → Staging) : (modStg s sid f).tap = s.tap := rfl
@[simp] theorem modStg_scanEn (s : State) (sid : Nat) (f : Staging → Staging) : (modStg s sid f).scanEn = s.scanEn := rfl
@[simp] theorem modStg_alive (s : State) (sid : Nat) (f : Staging → Staging) : (modStg s sid f).alive = s.alive := rfl
@[simp] theorem modStg_aliveOn (s : State) (sid : Nat) (f : Staging → Staging) : (modStg s sid f).aliveOn = s.aliveOn := rfl
@[simp] theorem modStg_aliveAt (s : State) (sid : Nat) (f : Staging → Staging) : (modStg s sid f).aliveAt = s.aliveAt := rfl
@[simp] theorem modStg_blockFault (s : State) (sid : Nat) (f : Staging → Staging) : (modStg s sid f).blockFault = s.blockFault := rfl

/-! ### modGroup -/

@[simp] theorem modGroup_pending (s : State) (fg : Nat) (f : Group → Group) : (modGroup s fg f).pending = s.pending := rfl
@[simp] theorem modGroup_free (s : State) (fg : Nat) (f : Group → Group) : (modGroup s fg f).free = s.free := rfl
@[simp] theorem modGroup_nextId (s : State) (fg : Nat) (f : Group → Group) : (modGroup s fg f).nextId = s.nextId := rfl
@[simp] theorem modGroup_dram (s : State) (fg : Nat) (f : Group → Group) : (modGroup s fg f).dram = s.dram := rfl
@[simp] theorem modGroup_regs (s : State) (fg : Nat) (f : Group → Group) : (modGroup s fg f).regs = s.regs := rfl
@[simp] theorem modGroup_tick (s : State) (fg : Nat) (f : Group → Group) : (modGroup s fg f).tick = s.tick := rfl
@[simp] theorem modGroup_trefStop (s : State) (fg : Nat) (f : Group → Group) : (modGroup s fg f).trefStop = s.trefStop := rfl
@[simp] theorem modGroup_paceAt (s : State) (fg : Nat) (f : Group → Group) : (modGroup s fg f).paceAt = s.paceAt := rfl
@[simp] theorem modGroup_freqAt (s : State) (fg : Nat) (f : Group → Group) : (modGroup s fg f).freqAt = s.freqAt := rfl
@[simp] theorem modGroup_committed (s : State) (fg : Nat) (f : Group → Group) : (modGroup s fg f).committed = s.committed := rfl
@[simp] theorem modGroup_cpResp (s : State) (fg : Nat) (f : Group → Group) : (modGroup s fg f).cpResp = s.cpResp := rfl
@[simp] theorem modGroup_cpRdata (s : State) (fg : Nat) (f : Group → Group) : (modGroup s fg f).cpRdata = s.cpRdata := rfl
@[simp] theorem modGroup_cpWait (s : State) (fg : Nat) (f : Group → Group) : (modGroup s fg f).cpWait = s.cpWait := rfl
@[simp] theorem modGroup_ctx (s : State) (fg : Nat) (f : Group → Group) : (modGroup s fg f).ctx = s.ctx := rfl
@[simp] theorem modGroup_rings (s : State) (fg : Nat) (f : Group → Group) : (modGroup s fg f).rings = s.rings := rfl
@[simp] theorem modGroup_cmds (s : State) (fg : Nat) (f : Group → Group) : (modGroup s fg f).cmds = s.cmds := rfl
@[simp] theorem modGroup_ports (s : State) (fg : Nat) (f : Group → Group) : (modGroup s fg f).ports = s.ports := rfl
@[simp] theorem modGroup_xfers (s : State) (fg : Nat) (f : Group → Group) : (modGroup s fg f).xfers = s.xfers := rfl
@[simp] theorem modGroup_memHold (s : State) (fg : Nat) (f : Group → Group) : (modGroup s fg f).memHold = s.memHold := rfl
@[simp] theorem modGroup_porstN (s : State) (fg : Nat) (f : Group → Group) : (modGroup s fg f).porstN = s.porstN := rfl
@[simp] theorem modGroup_srstN (s : State) (fg : Nat) (f : Group → Group) : (modGroup s fg f).srstN = s.srstN := rfl
@[simp] theorem modGroup_pfailN (s : State) (fg : Nat) (f : Group → Group) : (modGroup s fg f).pfailN = s.pfailN := rfl
@[simp] theorem modGroup_filled (s : State) (fg : Nat) (f : Group → Group) : (modGroup s fg f).filled = s.filled := rfl
@[simp] theorem modGroup_pools (s : State) (fg : Nat) (f : Group → Group) : (modGroup s fg f).pools = s.pools := rfl
@[simp] theorem modGroup_slots (s : State) (fg : Nat) (f : Group → Group) : (modGroup s fg f).slots = s.slots := rfl
@[simp] theorem modGroup_traces (s : State) (fg : Nat) (f : Group → Group) : (modGroup s fg f).traces = s.traces := rfl
@[simp] theorem modGroup_evc (s : State) (fg : Nat) (f : Group → Group) : (modGroup s fg f).evc = s.evc := rfl
@[simp] theorem modGroup_cfg (s : State) (fg : Nat) (f : Group → Group) : (modGroup s fg f).cfg = s.cfg := rfl
@[simp] theorem modGroup_ozt (s : State) (fg : Nat) (f : Group → Group) : (modGroup s fg f).ozt = s.ozt := rfl
@[simp] theorem modGroup_layouts (s : State) (fg : Nat) (f : Group → Group) : (modGroup s fg f).layouts = s.layouts := rfl
@[simp] theorem modGroup_extents (s : State) (fg : Nat) (f : Group → Group) : (modGroup s fg f).extents = s.extents := rfl
@[simp] theorem modGroup_rows (s : State) (fg : Nat) (f : Group → Group) : (modGroup s fg f).rows = s.rows := rfl
@[simp] theorem modGroup_stagings (s : State) (fg : Nat) (f : Group → Group) : (modGroup s fg f).stagings = s.stagings := rfl
@[simp] theorem modGroup_ops (s : State) (fg : Nat) (f : Group → Group) : (modGroup s fg f).ops = s.ops := rfl
@[simp] theorem modGroup_items (s : State) (fg : Nat) (f : Group → Group) : (modGroup s fg f).items = s.items := rfl
@[simp] theorem modGroup_recons (s : State) (fg : Nat) (f : Group → Group) : (modGroup s fg f).recons = s.recons := rfl
@[simp] theorem modGroup_decs (s : State) (fg : Nat) (f : Group → Group) : (modGroup s fg f).decs = s.decs := rfl
@[simp] theorem modGroup_stes (s : State) (fg : Nat) (f : Group → Group) : (modGroup s fg f).stes = s.stes := rfl
@[simp] theorem modGroup_banks (s : State) (fg : Nat) (f : Group → Group) : (modGroup s fg f).banks = s.banks := rfl
@[simp] theorem modGroup_luns (s : State) (fg : Nat) (f : Group → Group) : (modGroup s fg f).luns = s.luns := rfl
@[simp] theorem modGroup_blks (s : State) (fg : Nat) (f : Group → Group) : (modGroup s fg f).blks = s.blks := rfl
@[simp] theorem modGroup_buses (s : State) (fg : Nat) (f : Group → Group) : (modGroup s fg f).buses = s.buses := rfl
@[simp] theorem modGroup_jrn (s : State) (fg : Nat) (f : Group → Group) : (modGroup s fg f).jrn = s.jrn := rfl
@[simp] theorem modGroup_gov (s : State) (fg : Nat) (f : Group → Group) : (modGroup s fg f).gov = s.gov := rfl
@[simp] theorem modGroup_age (s : State) (fg : Nat) (f : Group → Group) : (modGroup s fg f).age = s.age := rfl
@[simp] theorem modGroup_phys (s : State) (fg : Nat) (f : Group → Group) : (modGroup s fg f).phys = s.phys := rfl
@[simp] theorem modGroup_engines (s : State) (fg : Nat) (f : Group → Group) : (modGroup s fg f).engines = s.engines := rfl
@[simp] theorem modGroup_mems (s : State) (fg : Nat) (f : Group → Group) : (modGroup s fg f).mems = s.mems := rfl
@[simp] theorem modGroup_msrBad (s : State) (fg : Nat) (f : Group → Group) : (modGroup s fg f).msrBad = s.msrBad := rfl
@[simp] theorem modGroup_doms (s : State) (fg : Nat) (f : Group → Group) : (modGroup s fg f).doms = s.doms := rfl
@[simp] theorem modGroup_pwr (s : State) (fg : Nat) (f : Group → Group) : (modGroup s fg f).pwr = s.pwr := rfl
@[simp] theorem modGroup_boot (s : State) (fg : Nat) (f : Group → Group) : (modGroup s fg f).boot = s.boot := rfl
@[simp] theorem modGroup_tap (s : State) (fg : Nat) (f : Group → Group) : (modGroup s fg f).tap = s.tap := rfl
@[simp] theorem modGroup_scanEn (s : State) (fg : Nat) (f : Group → Group) : (modGroup s fg f).scanEn = s.scanEn := rfl
@[simp] theorem modGroup_alive (s : State) (fg : Nat) (f : Group → Group) : (modGroup s fg f).alive = s.alive := rfl
@[simp] theorem modGroup_aliveOn (s : State) (fg : Nat) (f : Group → Group) : (modGroup s fg f).aliveOn = s.aliveOn := rfl
@[simp] theorem modGroup_aliveAt (s : State) (fg : Nat) (f : Group → Group) : (modGroup s fg f).aliveAt = s.aliveAt := rfl
@[simp] theorem modGroup_blockFault (s : State) (fg : Nat) (f : Group → Group) : (modGroup s fg f).blockFault = s.blockFault := rfl

/-! ### modBlk -/

@[simp] theorem modBlk_pending (s : State) (g b : Nat) (f : BlkSt → BlkSt) : (modBlk s g b f).pending = s.pending := rfl
@[simp] theorem modBlk_free (s : State) (g b : Nat) (f : BlkSt → BlkSt) : (modBlk s g b f).free = s.free := rfl
@[simp] theorem modBlk_nextId (s : State) (g b : Nat) (f : BlkSt → BlkSt) : (modBlk s g b f).nextId = s.nextId := rfl
@[simp] theorem modBlk_dram (s : State) (g b : Nat) (f : BlkSt → BlkSt) : (modBlk s g b f).dram = s.dram := rfl
@[simp] theorem modBlk_regs (s : State) (g b : Nat) (f : BlkSt → BlkSt) : (modBlk s g b f).regs = s.regs := rfl
@[simp] theorem modBlk_tick (s : State) (g b : Nat) (f : BlkSt → BlkSt) : (modBlk s g b f).tick = s.tick := rfl
@[simp] theorem modBlk_trefStop (s : State) (g b : Nat) (f : BlkSt → BlkSt) : (modBlk s g b f).trefStop = s.trefStop := rfl
@[simp] theorem modBlk_paceAt (s : State) (g b : Nat) (f : BlkSt → BlkSt) : (modBlk s g b f).paceAt = s.paceAt := rfl
@[simp] theorem modBlk_freqAt (s : State) (g b : Nat) (f : BlkSt → BlkSt) : (modBlk s g b f).freqAt = s.freqAt := rfl
@[simp] theorem modBlk_committed (s : State) (g b : Nat) (f : BlkSt → BlkSt) : (modBlk s g b f).committed = s.committed := rfl
@[simp] theorem modBlk_cpResp (s : State) (g b : Nat) (f : BlkSt → BlkSt) : (modBlk s g b f).cpResp = s.cpResp := rfl
@[simp] theorem modBlk_cpRdata (s : State) (g b : Nat) (f : BlkSt → BlkSt) : (modBlk s g b f).cpRdata = s.cpRdata := rfl
@[simp] theorem modBlk_cpWait (s : State) (g b : Nat) (f : BlkSt → BlkSt) : (modBlk s g b f).cpWait = s.cpWait := rfl
@[simp] theorem modBlk_ctx (s : State) (g b : Nat) (f : BlkSt → BlkSt) : (modBlk s g b f).ctx = s.ctx := rfl
@[simp] theorem modBlk_rings (s : State) (g b : Nat) (f : BlkSt → BlkSt) : (modBlk s g b f).rings = s.rings := rfl
@[simp] theorem modBlk_cmds (s : State) (g b : Nat) (f : BlkSt → BlkSt) : (modBlk s g b f).cmds = s.cmds := rfl
@[simp] theorem modBlk_ports (s : State) (g b : Nat) (f : BlkSt → BlkSt) : (modBlk s g b f).ports = s.ports := rfl
@[simp] theorem modBlk_xfers (s : State) (g b : Nat) (f : BlkSt → BlkSt) : (modBlk s g b f).xfers = s.xfers := rfl
@[simp] theorem modBlk_memHold (s : State) (g b : Nat) (f : BlkSt → BlkSt) : (modBlk s g b f).memHold = s.memHold := rfl
@[simp] theorem modBlk_porstN (s : State) (g b : Nat) (f : BlkSt → BlkSt) : (modBlk s g b f).porstN = s.porstN := rfl
@[simp] theorem modBlk_srstN (s : State) (g b : Nat) (f : BlkSt → BlkSt) : (modBlk s g b f).srstN = s.srstN := rfl
@[simp] theorem modBlk_pfailN (s : State) (g b : Nat) (f : BlkSt → BlkSt) : (modBlk s g b f).pfailN = s.pfailN := rfl
@[simp] theorem modBlk_filled (s : State) (g b : Nat) (f : BlkSt → BlkSt) : (modBlk s g b f).filled = s.filled := rfl
@[simp] theorem modBlk_pools (s : State) (g b : Nat) (f : BlkSt → BlkSt) : (modBlk s g b f).pools = s.pools := rfl
@[simp] theorem modBlk_slots (s : State) (g b : Nat) (f : BlkSt → BlkSt) : (modBlk s g b f).slots = s.slots := rfl
@[simp] theorem modBlk_traces (s : State) (g b : Nat) (f : BlkSt → BlkSt) : (modBlk s g b f).traces = s.traces := rfl
@[simp] theorem modBlk_evc (s : State) (g b : Nat) (f : BlkSt → BlkSt) : (modBlk s g b f).evc = s.evc := rfl
@[simp] theorem modBlk_cfg (s : State) (g b : Nat) (f : BlkSt → BlkSt) : (modBlk s g b f).cfg = s.cfg := rfl
@[simp] theorem modBlk_ozt (s : State) (g b : Nat) (f : BlkSt → BlkSt) : (modBlk s g b f).ozt = s.ozt := rfl
@[simp] theorem modBlk_layouts (s : State) (g b : Nat) (f : BlkSt → BlkSt) : (modBlk s g b f).layouts = s.layouts := rfl
@[simp] theorem modBlk_groups (s : State) (g b : Nat) (f : BlkSt → BlkSt) : (modBlk s g b f).groups = s.groups := rfl
@[simp] theorem modBlk_extents (s : State) (g b : Nat) (f : BlkSt → BlkSt) : (modBlk s g b f).extents = s.extents := rfl
@[simp] theorem modBlk_rows (s : State) (g b : Nat) (f : BlkSt → BlkSt) : (modBlk s g b f).rows = s.rows := rfl
@[simp] theorem modBlk_stagings (s : State) (g b : Nat) (f : BlkSt → BlkSt) : (modBlk s g b f).stagings = s.stagings := rfl
@[simp] theorem modBlk_ops (s : State) (g b : Nat) (f : BlkSt → BlkSt) : (modBlk s g b f).ops = s.ops := rfl
@[simp] theorem modBlk_items (s : State) (g b : Nat) (f : BlkSt → BlkSt) : (modBlk s g b f).items = s.items := rfl
@[simp] theorem modBlk_recons (s : State) (g b : Nat) (f : BlkSt → BlkSt) : (modBlk s g b f).recons = s.recons := rfl
@[simp] theorem modBlk_decs (s : State) (g b : Nat) (f : BlkSt → BlkSt) : (modBlk s g b f).decs = s.decs := rfl
@[simp] theorem modBlk_stes (s : State) (g b : Nat) (f : BlkSt → BlkSt) : (modBlk s g b f).stes = s.stes := rfl
@[simp] theorem modBlk_banks (s : State) (g b : Nat) (f : BlkSt → BlkSt) : (modBlk s g b f).banks = s.banks := rfl
@[simp] theorem modBlk_luns (s : State) (g b : Nat) (f : BlkSt → BlkSt) : (modBlk s g b f).luns = s.luns := rfl
@[simp] theorem modBlk_buses (s : State) (g b : Nat) (f : BlkSt → BlkSt) : (modBlk s g b f).buses = s.buses := rfl
@[simp] theorem modBlk_jrn (s : State) (g b : Nat) (f : BlkSt → BlkSt) : (modBlk s g b f).jrn = s.jrn := rfl
@[simp] theorem modBlk_gov (s : State) (g b : Nat) (f : BlkSt → BlkSt) : (modBlk s g b f).gov = s.gov := rfl
@[simp] theorem modBlk_age (s : State) (g b : Nat) (f : BlkSt → BlkSt) : (modBlk s g b f).age = s.age := rfl
@[simp] theorem modBlk_phys (s : State) (g b : Nat) (f : BlkSt → BlkSt) : (modBlk s g b f).phys = s.phys := rfl
@[simp] theorem modBlk_engines (s : State) (g b : Nat) (f : BlkSt → BlkSt) : (modBlk s g b f).engines = s.engines := rfl
@[simp] theorem modBlk_mems (s : State) (g b : Nat) (f : BlkSt → BlkSt) : (modBlk s g b f).mems = s.mems := rfl
@[simp] theorem modBlk_msrBad (s : State) (g b : Nat) (f : BlkSt → BlkSt) : (modBlk s g b f).msrBad = s.msrBad := rfl
@[simp] theorem modBlk_doms (s : State) (g b : Nat) (f : BlkSt → BlkSt) : (modBlk s g b f).doms = s.doms := rfl
@[simp] theorem modBlk_pwr (s : State) (g b : Nat) (f : BlkSt → BlkSt) : (modBlk s g b f).pwr = s.pwr := rfl
@[simp] theorem modBlk_boot (s : State) (g b : Nat) (f : BlkSt → BlkSt) : (modBlk s g b f).boot = s.boot := rfl
@[simp] theorem modBlk_tap (s : State) (g b : Nat) (f : BlkSt → BlkSt) : (modBlk s g b f).tap = s.tap := rfl
@[simp] theorem modBlk_scanEn (s : State) (g b : Nat) (f : BlkSt → BlkSt) : (modBlk s g b f).scanEn = s.scanEn := rfl
@[simp] theorem modBlk_alive (s : State) (g b : Nat) (f : BlkSt → BlkSt) : (modBlk s g b f).alive = s.alive := rfl
@[simp] theorem modBlk_aliveOn (s : State) (g b : Nat) (f : BlkSt → BlkSt) : (modBlk s g b f).aliveOn = s.aliveOn := rfl
@[simp] theorem modBlk_aliveAt (s : State) (g b : Nat) (f : BlkSt → BlkSt) : (modBlk s g b f).aliveAt = s.aliveAt := rfl
@[simp] theorem modBlk_blockFault (s : State) (g b : Nat) (f : BlkSt → BlkSt) : (modBlk s g b f).blockFault = s.blockFault := rfl

/-! ### modPort -/

@[simp] theorem modPort_pending (s : State) (n : Nat) (f : PortSt → PortSt) : (modPort s n f).pending = s.pending := rfl
@[simp] theorem modPort_free (s : State) (n : Nat) (f : PortSt → PortSt) : (modPort s n f).free = s.free := rfl
@[simp] theorem modPort_nextId (s : State) (n : Nat) (f : PortSt → PortSt) : (modPort s n f).nextId = s.nextId := rfl
@[simp] theorem modPort_dram (s : State) (n : Nat) (f : PortSt → PortSt) : (modPort s n f).dram = s.dram := rfl
@[simp] theorem modPort_regs (s : State) (n : Nat) (f : PortSt → PortSt) : (modPort s n f).regs = s.regs := rfl
@[simp] theorem modPort_tick (s : State) (n : Nat) (f : PortSt → PortSt) : (modPort s n f).tick = s.tick := rfl
@[simp] theorem modPort_trefStop (s : State) (n : Nat) (f : PortSt → PortSt) : (modPort s n f).trefStop = s.trefStop := rfl
@[simp] theorem modPort_paceAt (s : State) (n : Nat) (f : PortSt → PortSt) : (modPort s n f).paceAt = s.paceAt := rfl
@[simp] theorem modPort_freqAt (s : State) (n : Nat) (f : PortSt → PortSt) : (modPort s n f).freqAt = s.freqAt := rfl
@[simp] theorem modPort_committed (s : State) (n : Nat) (f : PortSt → PortSt) : (modPort s n f).committed = s.committed := rfl
@[simp] theorem modPort_cpResp (s : State) (n : Nat) (f : PortSt → PortSt) : (modPort s n f).cpResp = s.cpResp := rfl
@[simp] theorem modPort_cpRdata (s : State) (n : Nat) (f : PortSt → PortSt) : (modPort s n f).cpRdata = s.cpRdata := rfl
@[simp] theorem modPort_cpWait (s : State) (n : Nat) (f : PortSt → PortSt) : (modPort s n f).cpWait = s.cpWait := rfl
@[simp] theorem modPort_ctx (s : State) (n : Nat) (f : PortSt → PortSt) : (modPort s n f).ctx = s.ctx := rfl
@[simp] theorem modPort_rings (s : State) (n : Nat) (f : PortSt → PortSt) : (modPort s n f).rings = s.rings := rfl
@[simp] theorem modPort_cmds (s : State) (n : Nat) (f : PortSt → PortSt) : (modPort s n f).cmds = s.cmds := rfl
@[simp] theorem modPort_xfers (s : State) (n : Nat) (f : PortSt → PortSt) : (modPort s n f).xfers = s.xfers := rfl
@[simp] theorem modPort_memHold (s : State) (n : Nat) (f : PortSt → PortSt) : (modPort s n f).memHold = s.memHold := rfl
@[simp] theorem modPort_porstN (s : State) (n : Nat) (f : PortSt → PortSt) : (modPort s n f).porstN = s.porstN := rfl
@[simp] theorem modPort_srstN (s : State) (n : Nat) (f : PortSt → PortSt) : (modPort s n f).srstN = s.srstN := rfl
@[simp] theorem modPort_pfailN (s : State) (n : Nat) (f : PortSt → PortSt) : (modPort s n f).pfailN = s.pfailN := rfl
@[simp] theorem modPort_filled (s : State) (n : Nat) (f : PortSt → PortSt) : (modPort s n f).filled = s.filled := rfl
@[simp] theorem modPort_pools (s : State) (n : Nat) (f : PortSt → PortSt) : (modPort s n f).pools = s.pools := rfl
@[simp] theorem modPort_slots (s : State) (n : Nat) (f : PortSt → PortSt) : (modPort s n f).slots = s.slots := rfl
@[simp] theorem modPort_traces (s : State) (n : Nat) (f : PortSt → PortSt) : (modPort s n f).traces = s.traces := rfl
@[simp] theorem modPort_evc (s : State) (n : Nat) (f : PortSt → PortSt) : (modPort s n f).evc = s.evc := rfl
@[simp] theorem modPort_cfg (s : State) (n : Nat) (f : PortSt → PortSt) : (modPort s n f).cfg = s.cfg := rfl
@[simp] theorem modPort_ozt (s : State) (n : Nat) (f : PortSt → PortSt) : (modPort s n f).ozt = s.ozt := rfl
@[simp] theorem modPort_layouts (s : State) (n : Nat) (f : PortSt → PortSt) : (modPort s n f).layouts = s.layouts := rfl
@[simp] theorem modPort_groups (s : State) (n : Nat) (f : PortSt → PortSt) : (modPort s n f).groups = s.groups := rfl
@[simp] theorem modPort_extents (s : State) (n : Nat) (f : PortSt → PortSt) : (modPort s n f).extents = s.extents := rfl
@[simp] theorem modPort_rows (s : State) (n : Nat) (f : PortSt → PortSt) : (modPort s n f).rows = s.rows := rfl
@[simp] theorem modPort_stagings (s : State) (n : Nat) (f : PortSt → PortSt) : (modPort s n f).stagings = s.stagings := rfl
@[simp] theorem modPort_ops (s : State) (n : Nat) (f : PortSt → PortSt) : (modPort s n f).ops = s.ops := rfl
@[simp] theorem modPort_items (s : State) (n : Nat) (f : PortSt → PortSt) : (modPort s n f).items = s.items := rfl
@[simp] theorem modPort_recons (s : State) (n : Nat) (f : PortSt → PortSt) : (modPort s n f).recons = s.recons := rfl
@[simp] theorem modPort_decs (s : State) (n : Nat) (f : PortSt → PortSt) : (modPort s n f).decs = s.decs := rfl
@[simp] theorem modPort_stes (s : State) (n : Nat) (f : PortSt → PortSt) : (modPort s n f).stes = s.stes := rfl
@[simp] theorem modPort_banks (s : State) (n : Nat) (f : PortSt → PortSt) : (modPort s n f).banks = s.banks := rfl
@[simp] theorem modPort_luns (s : State) (n : Nat) (f : PortSt → PortSt) : (modPort s n f).luns = s.luns := rfl
@[simp] theorem modPort_blks (s : State) (n : Nat) (f : PortSt → PortSt) : (modPort s n f).blks = s.blks := rfl
@[simp] theorem modPort_buses (s : State) (n : Nat) (f : PortSt → PortSt) : (modPort s n f).buses = s.buses := rfl
@[simp] theorem modPort_jrn (s : State) (n : Nat) (f : PortSt → PortSt) : (modPort s n f).jrn = s.jrn := rfl
@[simp] theorem modPort_gov (s : State) (n : Nat) (f : PortSt → PortSt) : (modPort s n f).gov = s.gov := rfl
@[simp] theorem modPort_age (s : State) (n : Nat) (f : PortSt → PortSt) : (modPort s n f).age = s.age := rfl
@[simp] theorem modPort_phys (s : State) (n : Nat) (f : PortSt → PortSt) : (modPort s n f).phys = s.phys := rfl
@[simp] theorem modPort_engines (s : State) (n : Nat) (f : PortSt → PortSt) : (modPort s n f).engines = s.engines := rfl
@[simp] theorem modPort_mems (s : State) (n : Nat) (f : PortSt → PortSt) : (modPort s n f).mems = s.mems := rfl
@[simp] theorem modPort_msrBad (s : State) (n : Nat) (f : PortSt → PortSt) : (modPort s n f).msrBad = s.msrBad := rfl
@[simp] theorem modPort_doms (s : State) (n : Nat) (f : PortSt → PortSt) : (modPort s n f).doms = s.doms := rfl
@[simp] theorem modPort_pwr (s : State) (n : Nat) (f : PortSt → PortSt) : (modPort s n f).pwr = s.pwr := rfl
@[simp] theorem modPort_boot (s : State) (n : Nat) (f : PortSt → PortSt) : (modPort s n f).boot = s.boot := rfl
@[simp] theorem modPort_tap (s : State) (n : Nat) (f : PortSt → PortSt) : (modPort s n f).tap = s.tap := rfl
@[simp] theorem modPort_scanEn (s : State) (n : Nat) (f : PortSt → PortSt) : (modPort s n f).scanEn = s.scanEn := rfl
@[simp] theorem modPort_alive (s : State) (n : Nat) (f : PortSt → PortSt) : (modPort s n f).alive = s.alive := rfl
@[simp] theorem modPort_aliveOn (s : State) (n : Nat) (f : PortSt → PortSt) : (modPort s n f).aliveOn = s.aliveOn := rfl
@[simp] theorem modPort_aliveAt (s : State) (n : Nat) (f : PortSt → PortSt) : (modPort s n f).aliveAt = s.aliveAt := rfl
@[simp] theorem modPort_blockFault (s : State) (n : Nat) (f : PortSt → PortSt) : (modPort s n f).blockFault = s.blockFault := rfl

/-! ### modXfer -/

@[simp] theorem modXfer_pending (s : State) (x : Nat) (f : Xfer → Xfer) : (modXfer s x f).pending = s.pending := rfl
@[simp] theorem modXfer_free (s : State) (x : Nat) (f : Xfer → Xfer) : (modXfer s x f).free = s.free := rfl
@[simp] theorem modXfer_nextId (s : State) (x : Nat) (f : Xfer → Xfer) : (modXfer s x f).nextId = s.nextId := rfl
@[simp] theorem modXfer_dram (s : State) (x : Nat) (f : Xfer → Xfer) : (modXfer s x f).dram = s.dram := rfl
@[simp] theorem modXfer_regs (s : State) (x : Nat) (f : Xfer → Xfer) : (modXfer s x f).regs = s.regs := rfl
@[simp] theorem modXfer_tick (s : State) (x : Nat) (f : Xfer → Xfer) : (modXfer s x f).tick = s.tick := rfl
@[simp] theorem modXfer_trefStop (s : State) (x : Nat) (f : Xfer → Xfer) : (modXfer s x f).trefStop = s.trefStop := rfl
@[simp] theorem modXfer_paceAt (s : State) (x : Nat) (f : Xfer → Xfer) : (modXfer s x f).paceAt = s.paceAt := rfl
@[simp] theorem modXfer_freqAt (s : State) (x : Nat) (f : Xfer → Xfer) : (modXfer s x f).freqAt = s.freqAt := rfl
@[simp] theorem modXfer_committed (s : State) (x : Nat) (f : Xfer → Xfer) : (modXfer s x f).committed = s.committed := rfl
@[simp] theorem modXfer_cpResp (s : State) (x : Nat) (f : Xfer → Xfer) : (modXfer s x f).cpResp = s.cpResp := rfl
@[simp] theorem modXfer_cpRdata (s : State) (x : Nat) (f : Xfer → Xfer) : (modXfer s x f).cpRdata = s.cpRdata := rfl
@[simp] theorem modXfer_cpWait (s : State) (x : Nat) (f : Xfer → Xfer) : (modXfer s x f).cpWait = s.cpWait := rfl
@[simp] theorem modXfer_ctx (s : State) (x : Nat) (f : Xfer → Xfer) : (modXfer s x f).ctx = s.ctx := rfl
@[simp] theorem modXfer_rings (s : State) (x : Nat) (f : Xfer → Xfer) : (modXfer s x f).rings = s.rings := rfl
@[simp] theorem modXfer_cmds (s : State) (x : Nat) (f : Xfer → Xfer) : (modXfer s x f).cmds = s.cmds := rfl
@[simp] theorem modXfer_ports (s : State) (x : Nat) (f : Xfer → Xfer) : (modXfer s x f).ports = s.ports := rfl
@[simp] theorem modXfer_memHold (s : State) (x : Nat) (f : Xfer → Xfer) : (modXfer s x f).memHold = s.memHold := rfl
@[simp] theorem modXfer_porstN (s : State) (x : Nat) (f : Xfer → Xfer) : (modXfer s x f).porstN = s.porstN := rfl
@[simp] theorem modXfer_srstN (s : State) (x : Nat) (f : Xfer → Xfer) : (modXfer s x f).srstN = s.srstN := rfl
@[simp] theorem modXfer_pfailN (s : State) (x : Nat) (f : Xfer → Xfer) : (modXfer s x f).pfailN = s.pfailN := rfl
@[simp] theorem modXfer_filled (s : State) (x : Nat) (f : Xfer → Xfer) : (modXfer s x f).filled = s.filled := rfl
@[simp] theorem modXfer_pools (s : State) (x : Nat) (f : Xfer → Xfer) : (modXfer s x f).pools = s.pools := rfl
@[simp] theorem modXfer_slots (s : State) (x : Nat) (f : Xfer → Xfer) : (modXfer s x f).slots = s.slots := rfl
@[simp] theorem modXfer_traces (s : State) (x : Nat) (f : Xfer → Xfer) : (modXfer s x f).traces = s.traces := rfl
@[simp] theorem modXfer_evc (s : State) (x : Nat) (f : Xfer → Xfer) : (modXfer s x f).evc = s.evc := rfl
@[simp] theorem modXfer_cfg (s : State) (x : Nat) (f : Xfer → Xfer) : (modXfer s x f).cfg = s.cfg := rfl
@[simp] theorem modXfer_ozt (s : State) (x : Nat) (f : Xfer → Xfer) : (modXfer s x f).ozt = s.ozt := rfl
@[simp] theorem modXfer_layouts (s : State) (x : Nat) (f : Xfer → Xfer) : (modXfer s x f).layouts = s.layouts := rfl
@[simp] theorem modXfer_groups (s : State) (x : Nat) (f : Xfer → Xfer) : (modXfer s x f).groups = s.groups := rfl
@[simp] theorem modXfer_extents (s : State) (x : Nat) (f : Xfer → Xfer) : (modXfer s x f).extents = s.extents := rfl
@[simp] theorem modXfer_rows (s : State) (x : Nat) (f : Xfer → Xfer) : (modXfer s x f).rows = s.rows := rfl
@[simp] theorem modXfer_stagings (s : State) (x : Nat) (f : Xfer → Xfer) : (modXfer s x f).stagings = s.stagings := rfl
@[simp] theorem modXfer_ops (s : State) (x : Nat) (f : Xfer → Xfer) : (modXfer s x f).ops = s.ops := rfl
@[simp] theorem modXfer_items (s : State) (x : Nat) (f : Xfer → Xfer) : (modXfer s x f).items = s.items := rfl
@[simp] theorem modXfer_recons (s : State) (x : Nat) (f : Xfer → Xfer) : (modXfer s x f).recons = s.recons := rfl
@[simp] theorem modXfer_decs (s : State) (x : Nat) (f : Xfer → Xfer) : (modXfer s x f).decs = s.decs := rfl
@[simp] theorem modXfer_stes (s : State) (x : Nat) (f : Xfer → Xfer) : (modXfer s x f).stes = s.stes := rfl
@[simp] theorem modXfer_banks (s : State) (x : Nat) (f : Xfer → Xfer) : (modXfer s x f).banks = s.banks := rfl
@[simp] theorem modXfer_luns (s : State) (x : Nat) (f : Xfer → Xfer) : (modXfer s x f).luns = s.luns := rfl
@[simp] theorem modXfer_blks (s : State) (x : Nat) (f : Xfer → Xfer) : (modXfer s x f).blks = s.blks := rfl
@[simp] theorem modXfer_buses (s : State) (x : Nat) (f : Xfer → Xfer) : (modXfer s x f).buses = s.buses := rfl
@[simp] theorem modXfer_jrn (s : State) (x : Nat) (f : Xfer → Xfer) : (modXfer s x f).jrn = s.jrn := rfl
@[simp] theorem modXfer_gov (s : State) (x : Nat) (f : Xfer → Xfer) : (modXfer s x f).gov = s.gov := rfl
@[simp] theorem modXfer_age (s : State) (x : Nat) (f : Xfer → Xfer) : (modXfer s x f).age = s.age := rfl
@[simp] theorem modXfer_phys (s : State) (x : Nat) (f : Xfer → Xfer) : (modXfer s x f).phys = s.phys := rfl
@[simp] theorem modXfer_engines (s : State) (x : Nat) (f : Xfer → Xfer) : (modXfer s x f).engines = s.engines := rfl
@[simp] theorem modXfer_mems (s : State) (x : Nat) (f : Xfer → Xfer) : (modXfer s x f).mems = s.mems := rfl
@[simp] theorem modXfer_msrBad (s : State) (x : Nat) (f : Xfer → Xfer) : (modXfer s x f).msrBad = s.msrBad := rfl
@[simp] theorem modXfer_doms (s : State) (x : Nat) (f : Xfer → Xfer) : (modXfer s x f).doms = s.doms := rfl
@[simp] theorem modXfer_pwr (s : State) (x : Nat) (f : Xfer → Xfer) : (modXfer s x f).pwr = s.pwr := rfl
@[simp] theorem modXfer_boot (s : State) (x : Nat) (f : Xfer → Xfer) : (modXfer s x f).boot = s.boot := rfl
@[simp] theorem modXfer_tap (s : State) (x : Nat) (f : Xfer → Xfer) : (modXfer s x f).tap = s.tap := rfl
@[simp] theorem modXfer_scanEn (s : State) (x : Nat) (f : Xfer → Xfer) : (modXfer s x f).scanEn = s.scanEn := rfl
@[simp] theorem modXfer_alive (s : State) (x : Nat) (f : Xfer → Xfer) : (modXfer s x f).alive = s.alive := rfl
@[simp] theorem modXfer_aliveOn (s : State) (x : Nat) (f : Xfer → Xfer) : (modXfer s x f).aliveOn = s.aliveOn := rfl
@[simp] theorem modXfer_aliveAt (s : State) (x : Nat) (f : Xfer → Xfer) : (modXfer s x f).aliveAt = s.aliveAt := rfl
@[simp] theorem modXfer_blockFault (s : State) (x : Nat) (f : Xfer → Xfer) : (modXfer s x f).blockFault = s.blockFault := rfl

/-! ### modEng -/

@[simp] theorem modEng_pending (s : State) (e : Nat) (f : EngineSt → EngineSt) : (modEng s e f).pending = s.pending := rfl
@[simp] theorem modEng_free (s : State) (e : Nat) (f : EngineSt → EngineSt) : (modEng s e f).free = s.free := rfl
@[simp] theorem modEng_nextId (s : State) (e : Nat) (f : EngineSt → EngineSt) : (modEng s e f).nextId = s.nextId := rfl
@[simp] theorem modEng_dram (s : State) (e : Nat) (f : EngineSt → EngineSt) : (modEng s e f).dram = s.dram := rfl
@[simp] theorem modEng_regs (s : State) (e : Nat) (f : EngineSt → EngineSt) : (modEng s e f).regs = s.regs := rfl
@[simp] theorem modEng_tick (s : State) (e : Nat) (f : EngineSt → EngineSt) : (modEng s e f).tick = s.tick := rfl
@[simp] theorem modEng_trefStop (s : State) (e : Nat) (f : EngineSt → EngineSt) : (modEng s e f).trefStop = s.trefStop := rfl
@[simp] theorem modEng_paceAt (s : State) (e : Nat) (f : EngineSt → EngineSt) : (modEng s e f).paceAt = s.paceAt := rfl
@[simp] theorem modEng_freqAt (s : State) (e : Nat) (f : EngineSt → EngineSt) : (modEng s e f).freqAt = s.freqAt := rfl
@[simp] theorem modEng_committed (s : State) (e : Nat) (f : EngineSt → EngineSt) : (modEng s e f).committed = s.committed := rfl
@[simp] theorem modEng_cpResp (s : State) (e : Nat) (f : EngineSt → EngineSt) : (modEng s e f).cpResp = s.cpResp := rfl
@[simp] theorem modEng_cpRdata (s : State) (e : Nat) (f : EngineSt → EngineSt) : (modEng s e f).cpRdata = s.cpRdata := rfl
@[simp] theorem modEng_cpWait (s : State) (e : Nat) (f : EngineSt → EngineSt) : (modEng s e f).cpWait = s.cpWait := rfl
@[simp] theorem modEng_ctx (s : State) (e : Nat) (f : EngineSt → EngineSt) : (modEng s e f).ctx = s.ctx := rfl
@[simp] theorem modEng_rings (s : State) (e : Nat) (f : EngineSt → EngineSt) : (modEng s e f).rings = s.rings := rfl
@[simp] theorem modEng_cmds (s : State) (e : Nat) (f : EngineSt → EngineSt) : (modEng s e f).cmds = s.cmds := rfl
@[simp] theorem modEng_ports (s : State) (e : Nat) (f : EngineSt → EngineSt) : (modEng s e f).ports = s.ports := rfl
@[simp] theorem modEng_xfers (s : State) (e : Nat) (f : EngineSt → EngineSt) : (modEng s e f).xfers = s.xfers := rfl
@[simp] theorem modEng_memHold (s : State) (e : Nat) (f : EngineSt → EngineSt) : (modEng s e f).memHold = s.memHold := rfl
@[simp] theorem modEng_porstN (s : State) (e : Nat) (f : EngineSt → EngineSt) : (modEng s e f).porstN = s.porstN := rfl
@[simp] theorem modEng_srstN (s : State) (e : Nat) (f : EngineSt → EngineSt) : (modEng s e f).srstN = s.srstN := rfl
@[simp] theorem modEng_pfailN (s : State) (e : Nat) (f : EngineSt → EngineSt) : (modEng s e f).pfailN = s.pfailN := rfl
@[simp] theorem modEng_filled (s : State) (e : Nat) (f : EngineSt → EngineSt) : (modEng s e f).filled = s.filled := rfl
@[simp] theorem modEng_pools (s : State) (e : Nat) (f : EngineSt → EngineSt) : (modEng s e f).pools = s.pools := rfl
@[simp] theorem modEng_slots (s : State) (e : Nat) (f : EngineSt → EngineSt) : (modEng s e f).slots = s.slots := rfl
@[simp] theorem modEng_traces (s : State) (e : Nat) (f : EngineSt → EngineSt) : (modEng s e f).traces = s.traces := rfl
@[simp] theorem modEng_evc (s : State) (e : Nat) (f : EngineSt → EngineSt) : (modEng s e f).evc = s.evc := rfl
@[simp] theorem modEng_cfg (s : State) (e : Nat) (f : EngineSt → EngineSt) : (modEng s e f).cfg = s.cfg := rfl
@[simp] theorem modEng_ozt (s : State) (e : Nat) (f : EngineSt → EngineSt) : (modEng s e f).ozt = s.ozt := rfl
@[simp] theorem modEng_layouts (s : State) (e : Nat) (f : EngineSt → EngineSt) : (modEng s e f).layouts = s.layouts := rfl
@[simp] theorem modEng_groups (s : State) (e : Nat) (f : EngineSt → EngineSt) : (modEng s e f).groups = s.groups := rfl
@[simp] theorem modEng_extents (s : State) (e : Nat) (f : EngineSt → EngineSt) : (modEng s e f).extents = s.extents := rfl
@[simp] theorem modEng_rows (s : State) (e : Nat) (f : EngineSt → EngineSt) : (modEng s e f).rows = s.rows := rfl
@[simp] theorem modEng_stagings (s : State) (e : Nat) (f : EngineSt → EngineSt) : (modEng s e f).stagings = s.stagings := rfl
@[simp] theorem modEng_ops (s : State) (e : Nat) (f : EngineSt → EngineSt) : (modEng s e f).ops = s.ops := rfl
@[simp] theorem modEng_items (s : State) (e : Nat) (f : EngineSt → EngineSt) : (modEng s e f).items = s.items := rfl
@[simp] theorem modEng_recons (s : State) (e : Nat) (f : EngineSt → EngineSt) : (modEng s e f).recons = s.recons := rfl
@[simp] theorem modEng_decs (s : State) (e : Nat) (f : EngineSt → EngineSt) : (modEng s e f).decs = s.decs := rfl
@[simp] theorem modEng_stes (s : State) (e : Nat) (f : EngineSt → EngineSt) : (modEng s e f).stes = s.stes := rfl
@[simp] theorem modEng_banks (s : State) (e : Nat) (f : EngineSt → EngineSt) : (modEng s e f).banks = s.banks := rfl
@[simp] theorem modEng_luns (s : State) (e : Nat) (f : EngineSt → EngineSt) : (modEng s e f).luns = s.luns := rfl
@[simp] theorem modEng_blks (s : State) (e : Nat) (f : EngineSt → EngineSt) : (modEng s e f).blks = s.blks := rfl
@[simp] theorem modEng_buses (s : State) (e : Nat) (f : EngineSt → EngineSt) : (modEng s e f).buses = s.buses := rfl
@[simp] theorem modEng_jrn (s : State) (e : Nat) (f : EngineSt → EngineSt) : (modEng s e f).jrn = s.jrn := rfl
@[simp] theorem modEng_gov (s : State) (e : Nat) (f : EngineSt → EngineSt) : (modEng s e f).gov = s.gov := rfl
@[simp] theorem modEng_age (s : State) (e : Nat) (f : EngineSt → EngineSt) : (modEng s e f).age = s.age := rfl
@[simp] theorem modEng_phys (s : State) (e : Nat) (f : EngineSt → EngineSt) : (modEng s e f).phys = s.phys := rfl
@[simp] theorem modEng_mems (s : State) (e : Nat) (f : EngineSt → EngineSt) : (modEng s e f).mems = s.mems := rfl
@[simp] theorem modEng_msrBad (s : State) (e : Nat) (f : EngineSt → EngineSt) : (modEng s e f).msrBad = s.msrBad := rfl
@[simp] theorem modEng_doms (s : State) (e : Nat) (f : EngineSt → EngineSt) : (modEng s e f).doms = s.doms := rfl
@[simp] theorem modEng_pwr (s : State) (e : Nat) (f : EngineSt → EngineSt) : (modEng s e f).pwr = s.pwr := rfl
@[simp] theorem modEng_boot (s : State) (e : Nat) (f : EngineSt → EngineSt) : (modEng s e f).boot = s.boot := rfl
@[simp] theorem modEng_tap (s : State) (e : Nat) (f : EngineSt → EngineSt) : (modEng s e f).tap = s.tap := rfl
@[simp] theorem modEng_scanEn (s : State) (e : Nat) (f : EngineSt → EngineSt) : (modEng s e f).scanEn = s.scanEn := rfl
@[simp] theorem modEng_alive (s : State) (e : Nat) (f : EngineSt → EngineSt) : (modEng s e f).alive = s.alive := rfl
@[simp] theorem modEng_aliveOn (s : State) (e : Nat) (f : EngineSt → EngineSt) : (modEng s e f).aliveOn = s.aliveOn := rfl
@[simp] theorem modEng_aliveAt (s : State) (e : Nat) (f : EngineSt → EngineSt) : (modEng s e f).aliveAt = s.aliveAt := rfl
@[simp] theorem modEng_blockFault (s : State) (e : Nat) (f : EngineSt → EngineSt) : (modEng s e f).blockFault = s.blockFault := rfl

end Sys2Proof.Machine
end

