-- ==== Sys2Proof/Laws/Ops.lean ====
section
/-! SUPPORT. What the shared operations over registers, ring contexts and engines do, said once: the value that a register, a
field or a bit reads as after a write, and what stays. -/

namespace Sys2Proof.Machine

/-! ### Fields of a number -/

theorem bits_testBit (w hi lo i : Nat) : (bits w hi lo).testBit i = (decide (i < hi + 1 - lo) && w.testBit (lo + i)) := by
  simp [bits, Nat.testBit_mod_two_pow, Nat.testBit_shiftRight]

theorem bits_lt (w hi lo : Nat) : bits w hi lo < 2 ^ (hi + 1 - lo) := Nat.mod_lt _ (Nat.two_pow_pos _)

theorem putBits_eq (w hi lo v : Nat) (h : lo ≤ hi) :
    putBits w hi lo v = 2 ^ lo * (2 ^ (hi + 1 - lo) * (w / 2 ^ (hi + 1)) + v % 2 ^ (hi + 1 - lo)) + w % 2 ^ lo := by
  have e : 2 ^ (hi + 1) = 2 ^ lo * 2 ^ (hi + 1 - lo) := by rw [← Nat.pow_add]; congr 1; omega
  unfold putBits bits
  rw [Nat.shiftRight_eq_div_pow, e, ← Nat.div_div_eq_div_mul]
  generalize hA : 2 ^ lo = A
  generalize hB : 2 ^ (hi + 1 - lo) = B
  have h1 := Nat.div_add_mod w A
  have h2 := Nat.div_add_mod (w / A) B
  generalize w / A / B = q at *
  generalize w / A % B = r at *
  generalize w / A = d at *
  generalize w % A = m at *
  generalize v % B = x
  subst h2; subst h1
  have : A * (B * q + r) + m - r * A = A * (B * q) + m := by
    rw [Nat.mul_add, Nat.mul_comm r A]; omega
  rw [this, Nat.mul_add, Nat.mul_comm x A]; omega

/-- A bit after a field has been written: the new value's within the field, the old one elsewhere. -/
theorem putBits_testBit (w hi lo v i : Nat) (h : lo ≤ hi) :
    (putBits w hi lo v).testBit i = if lo ≤ i ∧ i ≤ hi then v.testBit (i - lo) else w.testBit i := by
  rw [putBits_eq w hi lo v h, Nat.testBit_two_pow_mul_add _ (Nat.mod_lt _ (Nat.two_pow_pos _)),
    Nat.testBit_two_pow_mul_add _ (Nat.mod_lt _ (Nat.two_pow_pos _))]
  by_cases h1 : i < lo
  · simp only [h1, if_true]; rw [if_neg (by omega), Nat.testBit_mod_two_pow]; simp [h1]
  · simp only [h1, if_false]
    by_cases h2 : i ≤ hi
    · rw [if_pos (by omega), if_pos (by omega), Nat.testBit_mod_two_pow]; simp; omega
    · rw [if_neg (by omega), if_neg (by omega), Nat.testBit_div_two_pow]; congr 1; omega

theorem bits_putBits_same (w hi lo v : Nat) (h : lo ≤ hi) : bits (putBits w hi lo v) hi lo = v % 2 ^ (hi + 1 - lo) := by
  apply Nat.eq_of_testBit_eq; intro i
  rw [bits_testBit, putBits_testBit _ _ _ _ _ h, Nat.testBit_mod_two_pow]
  by_cases hi' : i < hi + 1 - lo
  · simp [hi', show lo + i ≤ hi by omega]
  · simp [hi']

theorem bits_putBits_ne (w hi lo v hi' lo' : Nat) (h : lo ≤ hi) (d : hi' < lo ∨ hi < lo') :
    bits (putBits w hi lo v) hi' lo' = bits w hi' lo' := by
  apply Nat.eq_of_testBit_eq; intro i
  rw [bits_testBit, bits_testBit, putBits_testBit _ _ _ _ _ h]
  by_cases hl : i < hi' + 1 - lo'
  · rw [if_neg (by omega)]
  · simp [hl]

theorem putBits_lt (w hi lo v n : Nat) (h : lo ≤ hi) (hn : hi < n) (hw : w < 2 ^ n) : putBits w hi lo v < 2 ^ n := by
  apply Nat.lt_pow_two_of_testBit
  intro i hi'
  rw [putBits_testBit _ _ _ _ _ h, if_neg (by omega)]
  exact Nat.testBit_eq_false_of_lt (Nat.lt_of_lt_of_le hw (Nat.pow_le_pow_right (by decide) hi'))

/-! ### Registers -/

theorem rd_wr (s : State) (a b v : Nat) : rd (wr s a v) b = if b = a then v % 2 ^ 32 else rd s b := by
  simp only [rd, wr, tget?_tset]
  by_cases h : b = a
  · simp [h, w32]
  · simp [h]

@[simp] theorem rd_wr_same (s : State) (a v : Nat) : rd (wr s a v) a = v % 2 ^ 32 := by simp [rd_wr]

theorem rd_wr_ne (s : State) {a b v : Nat} (h : b ≠ a) : rd (wr s a v) b = rd s b := by simp [rd_wr, h]

theorem rd_wrf_ne (s : State) {a b hi lo v : Nat} (h : b ≠ a) : rd (wrf s a hi lo v) b = rd s b := rd_wr_ne s h

/-- The written field of a register. -/
theorem rdf_wrf_same (s : State) (a hi lo v : Nat) (h : lo ≤ hi) (h32 : hi < 32) :
    rdf (wrf s a hi lo v) a hi lo = v % 2 ^ (hi + 1 - lo) := by
  unfold rdf wrf; rw [rd_wr_same]
  apply Nat.eq_of_testBit_eq; intro i
  rw [bits_testBit, Nat.testBit_mod_two_pow, putBits_testBit _ _ _ _ _ h, Nat.testBit_mod_two_pow]
  by_cases hi' : i < hi + 1 - lo
  · simp [hi', show lo + i ≤ hi by omega]; omega
  · simp [hi']

/-- Another field of the same register. -/
theorem rdf_wrf_ne (s : State) (a hi lo v hi' lo' : Nat) (h : lo ≤ hi) (h32 : hi' < 32) (d : hi' < lo ∨ hi < lo') :
    rdf (wrf s a hi lo v) a hi' lo' = rdf s a hi' lo' := by
  unfold rdf wrf; rw [rd_wr_same]
  apply Nat.eq_of_testBit_eq; intro i
  rw [bits_testBit, bits_testBit, Nat.testBit_mod_two_pow, putBits_testBit _ _ _ _ _ h]
  by_cases hl : i < hi' + 1 - lo'
  · simp [hl, show lo' + i < 32 by omega]; omega
  · simp [hl]

theorem rd_bump_ne (s : State) {a b hi lo n : Nat} (h : b ≠ a) : rd (bump s a hi lo n) b = rd s b := rd_wr_ne s h

/-- A saturating counter after an occurrence. -/
theorem rdf_bump (s : State) (a hi lo n : Nat) (h : lo ≤ hi) (h32 : hi < 32) :
    rdf (bump s a hi lo n) a hi lo = satAdd (2 ^ (hi + 1 - lo) - 1) (rdf s a hi lo) n := by
  unfold bump; rw [rdf_wrf_same _ _ _ _ _ h h32]
  apply Nat.mod_eq_of_lt
  have := Nat.two_pow_pos (hi + 1 - lo)
  unfold satAdd; omega

theorem rd_sticky_ne (s : State) {a b c : Nat} (h : c ≠ a) (h2 : c ≠ a + 4 + 4 * (b / 4)) : rd (sticky s a b) c = rd s c := by
  unfold sticky; rw [rd_bump_ne _ h2, rd_wrf_ne _ h]

/-- The bit of a W1C register that has been set. -/
theorem sticky_bit (s : State) (a b : Nat) (hb : b < 32) : bit (rd (sticky s a b) a) b = true := by
  unfold sticky; rw [rd_bump_ne _ (by omega)]
  unfold wrf bit; rw [rd_wr_same, Nat.testBit_mod_two_pow, putBits_testBit _ _ _ _ _ (Nat.le_refl b)]
  simp [hb]

/-! ### Ring contexts -/

/-- A bit of a ring's context after a field has been written. -/
theorem ctx_cset (s : State) (r o n v i : Nat) (hn : 0 < n) (ho : o + n ≤ 64) :
    (tget (cset s r o n v).ctx r 0).getLsbD i =
      if 8 * o ≤ i ∧ i < 8 * (o + n) then v.testBit (i - 8 * o) else (tget s.ctx r 0).getLsbD i := by
  have e : ∀ x : BitVec 512, x.getLsbD i = x.toNat.testBit i := fun _ => rfl
  rw [e, e]
  simp only [cset, tget_tset_same, BitVec.toNat_ofNat, Nat.testBit_mod_two_pow, putBits_testBit _ _ _ _ _ (show 8 * o ≤ 8 * (o + n) - 1 by omega)]
  by_cases h : i < 512
  · simp only [h, decide_true, Bool.true_and]
    by_cases h2 : 8 * o ≤ i ∧ i < 8 * (o + n)
    · rw [if_pos h2, if_pos (by omega)]
    · rw [if_neg h2, if_neg (by omega)]
  · have h3 : (tget s.ctx r 0).toNat.testBit i = false :=
      Nat.testBit_eq_false_of_lt (Nat.lt_of_lt_of_le (tget s.ctx r 0).isLt (Nat.pow_le_pow_right (by decide) (by omega)))
    rw [h3]; simp [h]; omega

theorem ctx_cset_ne (s : State) (r o n v k : Nat) (h : k ≠ r) : tget (cset s r o n v).ctx k 0 = tget s.ctx k 0 := by
  simp [cset, tget_tset, h]

theorem cget_testBit (s : State) (r o n i : Nat) (hn : 0 < n) :
    (cget s r o n).testBit i = (decide (i < 8 * n) && (tget s.ctx r 0).getLsbD (8 * o + i)) := by
  unfold cget; rw [bits_testBit]
  have e : (tget s.ctx r 0).getLsbD (8 * o + i) = (tget s.ctx r 0).toNat.testBit (8 * o + i) := rfl
  rw [e]; congr 1; simp; omega

/-- The written field of a context. -/
theorem cget_cset_same (s : State) (r o n v : Nat) (hn : 0 < n) (ho : o + n ≤ 64) : cget (cset s r o n v) r o n = v % 2 ^ (8 * n) := by
  apply Nat.eq_of_testBit_eq; intro i
  rw [cget_testBit _ _ _ _ _ hn, ctx_cset _ _ _ _ _ _ hn ho, Nat.testBit_mod_two_pow]
  by_cases h : i < 8 * n
  · rw [if_pos (by omega)]; simp [h]
  · simp [h]

/-- Another field of the context. -/
theorem cget_cset_ne (s : State) (r o n v o' n' : Nat) (hn : 0 < n) (ho : o + n ≤ 64) (hn' : 0 < n') (d : o' + n' ≤ o ∨ o + n ≤ o') :
    cget (cset s r o n v) r o' n' = cget s r o' n' := by
  apply Nat.eq_of_testBit_eq; intro i
  rw [cget_testBit _ _ _ _ _ hn', cget_testBit _ _ _ _ _ hn', ctx_cset _ _ _ _ _ _ hn ho]
  by_cases h : i < 8 * n'
  · rw [if_neg (by omega)]
  · simp [h]

theorem cget_cset_ring (s : State) (r o n v k o' n' : Nat) (h : k ≠ r) : cget (cset s r o n v) k o' n' = cget s k o' n' := by
  unfold cget; rw [ctx_cset_ne _ _ _ _ _ _ h]

/-! ### Records by number -/

theorem ringRt_modRing_same (s : State) (r : Nat) (f : RingRt → RingRt) : ringRt (modRing s r f) r = f (ringRt s r) := by
  simp [ringRt, modRing]

theorem ringRt_modRing_ne (s : State) (r k : Nat) (f : RingRt → RingRt) (h : k ≠ r) : ringRt (modRing s r f) k = ringRt s k := by
  simp [ringRt, modRing, tget_tmod_ne _ _ _ _ h]

@[simp] theorem group_modGroup_same (s : State) (fg : Nat) (f : Group → Group) : group (modGroup s fg f) fg = f (group s fg) := by
  simp [group, modGroup]

theorem group_modGroup_ne (s : State) (fg k : Nat) (f : Group → Group) (h : k ≠ fg) : group (modGroup s fg f) k = group s k := by
  simp [group, modGroup, tget_tmod_ne _ _ _ _ h]

@[simp] theorem port_modPort_same (s : State) (n : Nat) (f : PortSt → PortSt) : port (modPort s n f) n = f (port s n) := by
  simp [port, modPort]

theorem port_modPort_ne (s : State) (n k : Nat) (f : PortSt → PortSt) (h : k ≠ n) : port (modPort s n f) k = port s k := by
  simp [port, modPort, tget_tmod_ne _ _ _ _ h]

@[simp] theorem eng_modEng_same (s : State) (e : Nat) (f : EngineSt → EngineSt) : eng (modEng s e f) e = f (eng s e) := by
  simp [eng, modEng]

theorem eng_modEng_ne (s : State) (e k : Nat) (f : EngineSt → EngineSt) (h : k ≠ e) : eng (modEng s e f) k = eng s k := by
  simp [eng, modEng, tget_tmod_ne _ _ _ _ h]

@[simp] theorem blkSt_modBlk_same (s : State) (g b : Nat) (f : BlkSt → BlkSt) : blkSt (modBlk s g b f) g b = f (blkSt s g b) := by
  simp [blkSt, modBlk]

/-- The first element of a list with a property, changed in a way that keeps the property. -/
theorem find?_modFirst {α : Type} (p : α → Bool) (f : α → α) (hf : ∀ x, p x = true → p (f x) = true) (l : List α) :
    (modFirst p f l).find? p = (l.find? p).map f := by
  induction l with
  | nil => rfl
  | cons x r ih =>
    by_cases h : p x = true
    · simp [modFirst, h, hf x h]
    · simp [modFirst, h, ih]

/-- A command changed under its own number is found again. -/
theorem cmd?_modCmd (s : State) (cid : Nat) (f : Cmd → Cmd) (hf : ∀ c, (f c).cid = c.cid) :
    cmd? (modCmd s cid f) cid = (cmd? s cid).map f := by
  unfold cmd? modCmd
  exact find?_modFirst _ f (fun x h => by simpa [hf x] using h) s.cmds

/-! ### Events -/

/-- Raising an event changes the lines of the event controller and nothing else. -/
theorem raise_frame (s : State) (src : Nat) : raise s src = { s with evc := { s.evc with lines := (raise s src).evc.lines } } := by
  unfold raise; split <;> rfl

/-- The raised line of a usable source that is not pending stands. -/
theorem raise_line (s : State) (src : Nat) (hu : srcUsable src = true) (h : isPend s src = false) :
    (tget? (raise s src).evc.lines src).isSome = true := by
  have hp : (tget? s.evc.pend src).isNone = true := by
    unfold isPend at h; cases hq : tget? s.evc.pend src <;> simp_all
  unfold raise
  by_cases hl : (tget? s.evc.lines src).isNone = true
  · simp [hu, hp, hl]
  · have : (tget? s.evc.lines src).isSome = true := by cases hq : tget? s.evc.lines src <;> simp_all
    simp [hl, this]

/-- A trace packet changes its FIFO and its counters and nothing else. -/
theorem trace_frame (s : State) (k src arg : Nat) (l : List Nat) :
    trace s k src arg l = { s with traces := (trace s k src arg l).traces, regs := (trace s k src arg l).regs } := by
  unfold trace; dsimp only
  split
  · split <;> rfl
  · rfl

/-- A ring fault changes the ring's context, the ring-fault registers and the event lines. -/
theorem ringFault_frame (s : State) (r cause : Nat) :
    ringFault s r cause = { s with
      ctx := (ringFault s r cause).ctx, regs := (ringFault s r cause).regs, evc := (ringFault s r cause).evc } := by
  unfold ringFault; dsimp only; rw [raise_frame]; rfl

/-! ### Little-endian bytes -/

@[simp] theorem leBytes_length (n v : Nat) : (leBytes n v).length = n := by
  induction n generalizing v with
  | zero => rfl
  | succ n ih => simp [leBytes, ih]

theorem leNat_leBytes (n v : Nat) : leNat (leBytes n v) = v % 256 ^ n := by
  induction n generalizing v with
  | zero => simp [leBytes, leNat, Nat.mod_one]
  | succ n ih =>
    simp only [leBytes, leNat, ih, BitVec.toNat_ofNat]
    have e : 256 ^ (n + 1) = 256 * 256 ^ n := by rw [Nat.pow_succ, Nat.mul_comm]
    rw [e, Nat.mod_mul]

theorem fieldAt_append_right (a b : List Byte) (o n : Nat) (h : a.length ≤ o) : fieldAt (a ++ b) o n = fieldAt b (o - a.length) n := by
  simp only [fieldAt, slice, List.drop_append, List.drop_eq_nil_of_le h, List.nil_append]

/-- A field that was written where it is read. -/
theorem fieldAt_leBytes (n v : Nat) (b : List Byte) : fieldAt (leBytes n v ++ b) 0 n = v % 256 ^ n := by
  simp [fieldAt, slice, ← leNat_leBytes]

theorem fieldAt_leBytes_last (n v : Nat) : fieldAt (leBytes n v) 0 n = v % 256 ^ n := by
  have := fieldAt_leBytes n v []; simpa using this

/-! ### Completions -/

/-- A plane step of a command that may start: it runs. -/
theorem start_some {s : State} {cid op : Nat} {c : Cmd} (h : startable s cid op = some c) (f : State → Cmd → State) :
    start s cid op f = f (modCmd s cid (fun c => { c with issued := true, stage := .running })) c := by
  unfold start; rw [h]

theorem start_none {s : State} {cid op : Nat} (h : startable s cid op = none) (f : State → Cmd → State) :
    start s cid op f = s := by
  unfold start; rw [h]

end Sys2Proof.Machine
end

