-- ==== Sys2Proof/Laws/Frames.lean ====
section
/-! SUPPORT. What raised events, trace packets and the sticky status registers leave: one lemma per field, so that no proof
unfolds them. -/

namespace Sys2Proof.Machine

/-! ### raise -/

@[simp] theorem raise_pending (s : State) (src : Nat) : (raise s src).pending = s.pending := by rw [raise_frame]
@[simp] theorem raise_free (s : State) (src : Nat) : (raise s src).free = s.free := by rw [raise_frame]
@[simp] theorem raise_nextId (s : State) (src : Nat) : (raise s src).nextId = s.nextId := by rw [raise_frame]
@[simp] theorem raise_dram (s : State) (src : Nat) : (raise s src).dram = s.dram := by rw [raise_frame]
@[simp] theorem raise_regs (s : State) (src : Nat) : (raise s src).regs = s.regs := by rw [raise_frame]
@[simp] theorem raise_tick (s : State) (src : Nat) : (raise s src).tick = s.tick := by rw [raise_frame]
@[simp] theorem raise_trefStop (s : State) (src : Nat) : (raise s src).trefStop = s.trefStop := by rw [raise_frame]
@[simp] theorem raise_paceAt (s : State) (src : Nat) : (raise s src).paceAt = s.paceAt := by rw [raise_frame]
@[simp] theorem raise_freqAt (s : State) (src : Nat) : (raise s src).freqAt = s.freqAt := by rw [raise_frame]
@[simp] theorem raise_committed (s : State) (src : Nat) : (raise s src).committed = s.committed := by rw [raise_frame]
@[simp] theorem raise_cpResp (s : State) (src : Nat) : (raise s src).cpResp = s.cpResp := by rw [raise_frame]
@[simp] theorem raise_cpRdata (s : State) (src : Nat) : (raise s src).cpRdata = s.cpRdata := by rw [raise_frame]
@[simp] theorem raise_cpWait (s : State) (src : Nat) : (raise s src).cpWait = s.cpWait := by rw [raise_frame]
@[simp] theorem raise_ctx (s : State) (src : Nat) : (raise s src).ctx = s.ctx := by rw [raise_frame]
@[simp] theorem raise_rings (s : State) (src : Nat) : (raise s src).rings = s.rings := by rw [raise_frame]
@[simp] theorem raise_cmds (s : State) (src : Nat) : (raise s src).cmds = s.cmds := by rw [raise_frame]
@[simp] theorem raise_ports (s : State) (src : Nat) : (raise s src).ports = s.ports := by rw [raise_frame]
@[simp] theorem raise_xfers (s : State) (src : Nat) : (raise s src).xfers = s.xfers := by rw [raise_frame]
@[simp] theorem raise_memHold (s : State) (src : Nat) : (raise s src).memHold = s.memHold := by rw [raise_frame]
@[simp] theorem raise_porstN (s : State) (src : Nat) : (raise s src).porstN = s.porstN := by rw [raise_frame]
@[simp] theorem raise_srstN (s : State) (src : Nat) : (raise s src).srstN = s.srstN := by rw [raise_frame]
@[simp] theorem raise_pfailN (s : State) (src : Nat) : (raise s src).pfailN = s.pfailN := by rw [raise_frame]
@[simp] theorem raise_filled (s : State) (src : Nat) : (raise s src).filled = s.filled := by rw [raise_frame]
@[simp] theorem raise_pools (s : State) (src : Nat) : (raise s src).pools = s.pools := by rw [raise_frame]
@[simp] theorem raise_slots (s : State) (src : Nat) : (raise s src).slots = s.slots := by rw [raise_frame]
@[simp] theorem raise_traces (s : State) (src : Nat) : (raise s src).traces = s.traces := by rw [raise_frame]
@[simp] theorem raise_cfg (s : State) (src : Nat) : (raise s src).cfg = s.cfg := by rw [raise_frame]
@[simp] theorem raise_ozt (s : State) (src : Nat) : (raise s src).ozt = s.ozt := by rw [raise_frame]
@[simp] theorem raise_layouts (s : State) (src : Nat) : (raise s src).layouts = s.layouts := by rw [raise_frame]
@[simp] theorem raise_groups (s : State) (src : Nat) : (raise s src).groups = s.groups := by rw [raise_frame]
@[simp] theorem raise_extents (s : State) (src : Nat) : (raise s src).extents = s.extents := by rw [raise_frame]
@[simp] theorem raise_rows (s : State) (src : Nat) : (raise s src).rows = s.rows := by rw [raise_frame]
@[simp] theorem raise_stagings (s : State) (src : Nat) : (raise s src).stagings = s.stagings := by rw [raise_frame]
@[simp] theorem raise_ops (s : State) (src : Nat) : (raise s src).ops = s.ops := by rw [raise_frame]
@[simp] theorem raise_items (s : State) (src : Nat) : (raise s src).items = s.items := by rw [raise_frame]
@[simp] theorem raise_recons (s : State) (src : Nat) : (raise s src).recons = s.recons := by rw [raise_frame]
@[simp] theorem raise_decs (s : State) (src : Nat) : (raise s src).decs = s.decs := by rw [raise_frame]
@[simp] theorem raise_stes (s : State) (src : Nat) : (raise s src).stes = s.stes := by rw [raise_frame]
@[simp] theorem raise_banks (s : State) (src : Nat) : (raise s src).banks = s.banks := by rw [raise_frame]
@[simp] theorem raise_luns (s : State) (src : Nat) : (raise s src).luns = s.luns := by rw [raise_frame]
@[simp] theorem raise_blks (s : State) (src : Nat) : (raise s src).blks = s.blks := by rw [raise_frame]
@[simp] theorem raise_buses (s : State) (src : Nat) : (raise s src).buses = s.buses := by rw [raise_frame]
@[simp] theorem raise_jrn (s : State) (src : Nat) : (raise s src).jrn = s.jrn := by rw [raise_frame]
@[simp] theorem raise_gov (s : State) (src : Nat) : (raise s src).gov = s.gov := by rw [raise_frame]
@[simp] theorem raise_age (s : State) (src : Nat) : (raise s src).age = s.age := by rw [raise_frame]
@[simp] theorem raise_phys (s : State) (src : Nat) : (raise s src).phys = s.phys := by rw [raise_frame]
@[simp] theorem raise_engines (s : State) (src : Nat) : (raise s src).engines = s.engines := by rw [raise_frame]
@[simp] theorem raise_mems (s : State) (src : Nat) : (raise s src).mems = s.mems := by rw [raise_frame]
@[simp] theorem raise_msrBad (s : State) (src : Nat) : (raise s src).msrBad = s.msrBad := by rw [raise_frame]
@[simp] theorem raise_doms (s : State) (src : Nat) : (raise s src).doms = s.doms := by rw [raise_frame]
@[simp] theorem raise_pwr (s : State) (src : Nat) : (raise s src).pwr = s.pwr := by rw [raise_frame]
@[simp] theorem raise_boot (s : State) (src : Nat) : (raise s src).boot = s.boot := by rw [raise_frame]
@[simp] theorem raise_tap (s : State) (src : Nat) : (raise s src).tap = s.tap := by rw [raise_frame]
@[simp] theorem raise_scanEn (s : State) (src : Nat) : (raise s src).scanEn = s.scanEn := by rw [raise_frame]
@[simp] theorem raise_alive (s : State) (src : Nat) : (raise s src).alive = s.alive := by rw [raise_frame]
@[simp] theorem raise_aliveOn (s : State) (src : Nat) : (raise s src).aliveOn = s.aliveOn := by rw [raise_frame]
@[simp] theorem raise_aliveAt (s : State) (src : Nat) : (raise s src).aliveAt = s.aliveAt := by rw [raise_frame]
@[simp] theorem raise_blockFault (s : State) (src : Nat) : (raise s src).blockFault = s.blockFault := by rw [raise_frame]

/-! ### trace -/

@[simp] theorem trace_pending (s : State) (k src arg : Nat) (l : List Nat) : (trace s k src arg l).pending = s.pending := by rw [trace_frame]
@[simp] theorem trace_free (s : State) (k src arg : Nat) (l : List Nat) : (trace s k src arg l).free = s.free := by rw [trace_frame]
@[simp] theorem trace_nextId (s : State) (k src arg : Nat) (l : List Nat) : (trace s k src arg l).nextId = s.nextId := by rw [trace_frame]
@[simp] theorem trace_dram (s : State) (k src arg : Nat) (l : List Nat) : (trace s k src arg l).dram = s.dram := by rw [trace_frame]
@[simp] theorem trace_tick (s : State) (k src arg : Nat) (l : List Nat) : (trace s k src arg l).tick = s.tick := by rw [trace_frame]
@[simp] theorem trace_trefStop (s : State) (k src arg : Nat) (l : List Nat) : (trace s k src arg l).trefStop = s.trefStop := by rw [trace_frame]
@[simp] theorem trace_paceAt (s : State) (k src arg : Nat) (l : List Nat) : (trace s k src arg l).paceAt = s.paceAt := by rw [trace_frame]
@[simp] theorem trace_freqAt (s : State) (k src arg : Nat) (l : List Nat) : (trace s k src arg l).freqAt = s.freqAt := by rw [trace_frame]
@[simp] theorem trace_committed (s : State) (k src arg : Nat) (l : List Nat) : (trace s k src arg l).committed = s.committed := by rw [trace_frame]
@[simp] theorem trace_cpResp (s : State) (k src arg : Nat) (l : List Nat) : (trace s k src arg l).cpResp = s.cpResp := by rw [trace_frame]
@[simp] theorem trace_cpRdata (s : State) (k src arg : Nat) (l : List Nat) : (trace s k src arg l).cpRdata = s.cpRdata := by rw [trace_frame]
@[simp] theorem trace_cpWait (s : State) (k src arg : Nat) (l : List Nat) : (trace s k src arg l).cpWait = s.cpWait := by rw [trace_frame]
@[simp] theorem trace_ctx (s : State) (k src arg : Nat) (l : List Nat) : (trace s k src arg l).ctx = s.ctx := by rw [trace_frame]
@[simp] theorem trace_rings (s : State) (k src arg : Nat) (l : List Nat) : (trace s k src arg l).rings = s.rings := by rw [trace_frame]
@[simp] theorem trace_cmds (s : State) (k src arg : Nat) (l : List Nat) : (trace s k src arg l).cmds = s.cmds := by rw [trace_frame]
@[simp] theorem trace_ports (s : State) (k src arg : Nat) (l : List Nat) : (trace s k src arg l).ports = s.ports := by rw [trace_frame]
@[simp] theorem trace_xfers (s : State) (k src arg : Nat) (l : List Nat) : (trace s k src arg l).xfers = s.xfers := by rw [trace_frame]
@[simp] theorem trace_memHold (s : State) (k src arg : Nat) (l : List Nat) : (trace s k src arg l).memHold = s.memHold := by rw [trace_frame]
@[simp] theorem trace_porstN (s : State) (k src arg : Nat) (l : List Nat) : (trace s k src arg l).porstN = s.porstN := by rw [trace_frame]
@[simp] theorem trace_srstN (s : State) (k src arg : Nat) (l : List Nat) : (trace s k src arg l).srstN = s.srstN := by rw [trace_frame]
@[simp] theorem trace_pfailN (s : State) (k src arg : Nat) (l : List Nat) : (trace s k src arg l).pfailN = s.pfailN := by rw [trace_frame]
@[simp] theorem trace_filled (s : State) (k src arg : Nat) (l : List Nat) : (trace s k src arg l).filled = s.filled := by rw [trace_frame]
@[simp] theorem trace_pools (s : State) (k src arg : Nat) (l : List Nat) : (trace s k src arg l).pools = s.pools := by rw [trace_frame]
@[simp] theorem trace_slots (s : State) (k src arg : Nat) (l : List Nat) : (trace s k src arg l).slots = s.slots := by rw [trace_frame]
@[simp] theorem trace_evc (s : State) (k src arg : Nat) (l : List Nat) : (trace s k src arg l).evc = s.evc := by rw [trace_frame]
@[simp] theorem trace_cfg (s : State) (k src arg : Nat) (l : List Nat) : (trace s k src arg l).cfg = s.cfg := by rw [trace_frame]
@[simp] theorem trace_ozt (s : State) (k src arg : Nat) (l : List Nat) : (trace s k src arg l).ozt = s.ozt := by rw [trace_frame]
@[simp] theorem trace_layouts (s : State) (k src arg : Nat) (l : List Nat) : (trace s k src arg l).layouts = s.layouts := by rw [trace_frame]
@[simp] theorem trace_groups (s : State) (k src arg : Nat) (l : List Nat) : (trace s k src arg l).groups = s.groups := by rw [trace_frame]
@[simp] theorem trace_extents (s : State) (k src arg : Nat) (l : List Nat) : (trace s k src arg l).extents = s.extents := by rw [trace_frame]
@[simp] theorem trace_rows (s : State) (k src arg : Nat) (l : List Nat) : (trace s k src arg l).rows = s.rows := by rw [trace_frame]
@[simp] theorem trace_stagings (s : State) (k src arg : Nat) (l : List Nat) : (trace s k src arg l).stagings = s.stagings := by rw [trace_frame]
@[simp] theorem trace_ops (s : State) (k src arg : Nat) (l : List Nat) : (trace s k src arg l).ops = s.ops := by rw [trace_frame]
@[simp] theorem trace_items (s : State) (k src arg : Nat) (l : List Nat) : (trace s k src arg l).items = s.items := by rw [trace_frame]
@[simp] theorem trace_recons (s : State) (k src arg : Nat) (l : List Nat) : (trace s k src arg l).recons = s.recons := by rw [trace_frame]
@[simp] theorem trace_decs (s : State) (k src arg : Nat) (l : List Nat) : (trace s k src arg l).decs = s.decs := by rw [trace_frame]
@[simp] theorem trace_stes (s : State) (k src arg : Nat) (l : List Nat) : (trace s k src arg l).stes = s.stes := by rw [trace_frame]
@[simp] theorem trace_banks (s : State) (k src arg : Nat) (l : List Nat) : (trace s k src arg l).banks = s.banks := by rw [trace_frame]
@[simp] theorem trace_luns (s : State) (k src arg : Nat) (l : List Nat) : (trace s k src arg l).luns = s.luns := by rw [trace_frame]
@[simp] theorem trace_blks (s : State) (k src arg : Nat) (l : List Nat) : (trace s k src arg l).blks = s.blks := by rw [trace_frame]
@[simp] theorem trace_buses (s : State) (k src arg : Nat) (l : List Nat) : (trace s k src arg l).buses = s.buses := by rw [trace_frame]
@[simp] theorem trace_jrn (s : State) (k src arg : Nat) (l : List Nat) : (trace s k src arg l).jrn = s.jrn := by rw [trace_frame]
@[simp] theorem trace_gov (s : State) (k src arg : Nat) (l : List Nat) : (trace s k src arg l).gov = s.gov := by rw [trace_frame]
@[simp] theorem trace_age (s : State) (k src arg : Nat) (l : List Nat) : (trace s k src arg l).age = s.age := by rw [trace_frame]
@[simp] theorem trace_phys (s : State) (k src arg : Nat) (l : List Nat) : (trace s k src arg l).phys = s.phys := by rw [trace_frame]
@[simp] theorem trace_engines (s : State) (k src arg : Nat) (l : List Nat) : (trace s k src arg l).engines = s.engines := by rw [trace_frame]
@[simp] theorem trace_mems (s : State) (k src arg : Nat) (l : List Nat) : (trace s k src arg l).mems = s.mems := by rw [trace_frame]
@[simp] theorem trace_msrBad (s : State) (k src arg : Nat) (l : List Nat) : (trace s k src arg l).msrBad = s.msrBad := by rw [trace_frame]
@[simp] theorem trace_doms (s : State) (k src arg : Nat) (l : List Nat) : (trace s k src arg l).doms = s.doms := by rw [trace_frame]
@[simp] theorem trace_pwr (s : State) (k src arg : Nat) (l : List Nat) : (trace s k src arg l).pwr = s.pwr := by rw [trace_frame]
@[simp] theorem trace_boot (s : State) (k src arg : Nat) (l : List Nat) : (trace s k src arg l).boot = s.boot := by rw [trace_frame]
@[simp] theorem trace_tap (s : State) (k src arg : Nat) (l : List Nat) : (trace s k src arg l).tap = s.tap := by rw [trace_frame]
@[simp] theorem trace_scanEn (s : State) (k src arg : Nat) (l : List Nat) : (trace s k src arg l).scanEn = s.scanEn := by rw [trace_frame]
@[simp] theorem trace_alive (s : State) (k src arg : Nat) (l : List Nat) : (trace s k src arg l).alive = s.alive := by rw [trace_frame]
@[simp] theorem trace_aliveOn (s : State) (k src arg : Nat) (l : List Nat) : (trace s k src arg l).aliveOn = s.aliveOn := by rw [trace_frame]
@[simp] theorem trace_aliveAt (s : State) (k src arg : Nat) (l : List Nat) : (trace s k src arg l).aliveAt = s.aliveAt := by rw [trace_frame]
@[simp] theorem trace_blockFault (s : State) (k src arg : Nat) (l : List Nat) : (trace s k src arg l).blockFault = s.blockFault := by rw [trace_frame]

/-! ### cfgFlag -/

@[simp] theorem cfgFlag_pending (s : State) (b : Nat) : (cfgFlag s b).pending = s.pending := rfl
@[simp] theorem cfgFlag_free (s : State) (b : Nat) : (cfgFlag s b).free = s.free := rfl
@[simp] theorem cfgFlag_nextId (s : State) (b : Nat) : (cfgFlag s b).nextId = s.nextId := rfl
@[simp] theorem cfgFlag_dram (s : State) (b : Nat) : (cfgFlag s b).dram = s.dram := rfl
@[simp] theorem cfgFlag_tick (s : State) (b : Nat) : (cfgFlag s b).tick = s.tick := rfl
@[simp] theorem cfgFlag_trefStop (s : State) (b : Nat) : (cfgFlag s b).trefStop = s.trefStop := rfl
@[simp] theorem cfgFlag_paceAt (s : State) (b : Nat) : (cfgFlag s b).paceAt = s.paceAt := rfl
@[simp] theorem cfgFlag_freqAt (s : State) (b : Nat) : (cfgFlag s b).freqAt = s.freqAt := rfl
@[simp] theorem cfgFlag_committed (s : State) (b : Nat) : (cfgFlag s b).committed = s.committed := rfl
@[simp] theorem cfgFlag_cpResp (s : State) (b : Nat) : (cfgFlag s b).cpResp = s.cpResp := rfl
@[simp] theorem cfgFlag_cpRdata (s : State) (b : Nat) : (cfgFlag s b).cpRdata = s.cpRdata := rfl
@[simp] theorem cfgFlag_cpWait (s : State) (b : Nat) : (cfgFlag s b).cpWait = s.cpWait := rfl
@[simp] theorem cfgFlag_ctx (s : State) (b : Nat) : (cfgFlag s b).ctx = s.ctx := rfl
@[simp] theorem cfgFlag_rings (s : State) (b : Nat) : (cfgFlag s b).rings = s.rings := rfl
@[simp] theorem cfgFlag_cmds (s : State) (b : Nat) : (cfgFlag s b).cmds = s.cmds := rfl
@[simp] theorem cfgFlag_ports (s : State) (b : Nat) : (cfgFlag s b).ports = s.ports := rfl
@[simp] theorem cfgFlag_xfers (s : State) (b : Nat) : (cfgFlag s b).xfers = s.xfers := rfl
@[simp] theorem cfgFlag_memHold (s : State) (b : Nat) : (cfgFlag s b).memHold = s.memHold := rfl
@[simp] theorem cfgFlag_porstN (s : State) (b : Nat) : (cfgFlag s b).porstN = s.porstN := rfl
@[simp] theorem cfgFlag_srstN (s : State) (b : Nat) : (cfgFlag s b).srstN = s.srstN := rfl
@[simp] theorem cfgFlag_pfailN (s : State) (b : Nat) : (cfgFlag s b).pfailN = s.pfailN := rfl
@[simp] theorem cfgFlag_filled (s : State) (b : Nat) : (cfgFlag s b).filled = s.filled := rfl
@[simp] theorem cfgFlag_pools (s : State) (b : Nat) : (cfgFlag s b).pools = s.pools := rfl
@[simp] theorem cfgFlag_slots (s : State) (b : Nat) : (cfgFlag s b).slots = s.slots := rfl
@[simp] theorem cfgFlag_traces (s : State) (b : Nat) : (cfgFlag s b).traces = s.traces := rfl
@[simp] theorem cfgFlag_evc (s : State) (b : Nat) : (cfgFlag s b).evc = s.evc := rfl
@[simp] theorem cfgFlag_cfg (s : State) (b : Nat) : (cfgFlag s b).cfg = s.cfg := rfl
@[simp] theorem cfgFlag_ozt (s : State) (b : Nat) : (cfgFlag s b).ozt = s.ozt := rfl
@[simp] theorem cfgFlag_layouts (s : State) (b : Nat) : (cfgFlag s b).layouts = s.layouts := rfl
@[simp] theorem cfgFlag_groups (s : State) (b : Nat) : (cfgFlag s b).groups = s.groups := rfl
@[simp] theorem cfgFlag_extents (s : State) (b : Nat) : (cfgFlag s b).extents = s.extents := rfl
@[simp] theorem cfgFlag_rows (s : State) (b : Nat) : (cfgFlag s b).rows = s.rows := rfl
@[simp] theorem cfgFlag_stagings (s : State) (b : Nat) : (cfgFlag s b).stagings = s.stagings := rfl
@[simp] theorem cfgFlag_ops (s : State) (b : Nat) : (cfgFlag s b).ops = s.ops := rfl
@[simp] theorem cfgFlag_items (s : State) (b : Nat) : (cfgFlag s b).items = s.items := rfl
@[simp] theorem cfgFlag_recons (s : State) (b : Nat) : (cfgFlag s b).recons = s.recons := rfl
@[simp] theorem cfgFlag_decs (s : State) (b : Nat) : (cfgFlag s b).decs = s.decs := rfl
@[simp] theorem cfgFlag_stes (s : State) (b : Nat) : (cfgFlag s b).stes = s.stes := rfl
@[simp] theorem cfgFlag_banks (s : State) (b : Nat) : (cfgFlag s b).banks = s.banks := rfl
@[simp] theorem cfgFlag_luns (s : State) (b : Nat) : (cfgFlag s b).luns = s.luns := rfl
@[simp] theorem cfgFlag_blks (s : State) (b : Nat) : (cfgFlag s b).blks = s.blks := rfl
@[simp] theorem cfgFlag_buses (s : State) (b : Nat) : (cfgFlag s b).buses = s.buses := rfl
@[simp] theorem cfgFlag_jrn (s : State) (b : Nat) : (cfgFlag s b).jrn = s.jrn := rfl
@[simp] theorem cfgFlag_gov (s : State) (b : Nat) : (cfgFlag s b).gov = s.gov := rfl
@[simp] theorem cfgFlag_age (s : State) (b : Nat) : (cfgFlag s b).age = s.age := rfl
@[simp] theorem cfgFlag_phys (s : State) (b : Nat) : (cfgFlag s b).phys = s.phys := rfl
@[simp] theorem cfgFlag_engines (s : State) (b : Nat) : (cfgFlag s b).engines = s.engines := rfl
@[simp] theorem cfgFlag_mems (s : State) (b : Nat) : (cfgFlag s b).mems = s.mems := rfl
@[simp] theorem cfgFlag_msrBad (s : State) (b : Nat) : (cfgFlag s b).msrBad = s.msrBad := rfl
@[simp] theorem cfgFlag_doms (s : State) (b : Nat) : (cfgFlag s b).doms = s.doms := rfl
@[simp] theorem cfgFlag_pwr (s : State) (b : Nat) : (cfgFlag s b).pwr = s.pwr := rfl
@[simp] theorem cfgFlag_boot (s : State) (b : Nat) : (cfgFlag s b).boot = s.boot := rfl
@[simp] theorem cfgFlag_tap (s : State) (b : Nat) : (cfgFlag s b).tap = s.tap := rfl
@[simp] theorem cfgFlag_scanEn (s : State) (b : Nat) : (cfgFlag s b).scanEn = s.scanEn := rfl
@[simp] theorem cfgFlag_alive (s : State) (b : Nat) : (cfgFlag s b).alive = s.alive := rfl
@[simp] theorem cfgFlag_aliveOn (s : State) (b : Nat) : (cfgFlag s b).aliveOn = s.aliveOn := rfl
@[simp] theorem cfgFlag_aliveAt (s : State) (b : Nat) : (cfgFlag s b).aliveAt = s.aliveAt := rfl
@[simp] theorem cfgFlag_blockFault (s : State) (b : Nat) : (cfgFlag s b).blockFault = s.blockFault := rfl

/-! ### bootFlag -/

@[simp] theorem bootFlag_pending (s : State) (b : Nat) : (bootFlag s b).pending = s.pending := rfl
@[simp] theorem bootFlag_free (s : State) (b : Nat) : (bootFlag s b).free = s.free := rfl
@[simp] theorem bootFlag_nextId (s : State) (b : Nat) : (bootFlag s b).nextId = s.nextId := rfl
@[simp] theorem bootFlag_dram (s : State) (b : Nat) : (bootFlag s b).dram = s.dram := rfl
@[simp] theorem bootFlag_tick (s : State) (b : Nat) : (bootFlag s b).tick = s.tick := rfl
@[simp] theorem bootFlag_trefStop (s : State) (b : Nat) : (bootFlag s b).trefStop = s.trefStop := rfl
@[simp] theorem bootFlag_paceAt (s : State) (b : Nat) : (bootFlag s b).paceAt = s.paceAt := rfl
@[simp] theorem bootFlag_freqAt (s : State) (b : Nat) : (bootFlag s b).freqAt = s.freqAt := rfl
@[simp] theorem bootFlag_committed (s : State) (b : Nat) : (bootFlag s b).committed = s.committed := rfl
@[simp] theorem bootFlag_cpResp (s : State) (b : Nat) : (bootFlag s b).cpResp = s.cpResp := rfl
@[simp] theorem bootFlag_cpRdata (s : State) (b : Nat) : (bootFlag s b).cpRdata = s.cpRdata := rfl
@[simp] theorem bootFlag_cpWait (s : State) (b : Nat) : (bootFlag s b).cpWait = s.cpWait := rfl
@[simp] theorem bootFlag_ctx (s : State) (b : Nat) : (bootFlag s b).ctx = s.ctx := rfl
@[simp] theorem bootFlag_rings (s : State) (b : Nat) : (bootFlag s b).rings = s.rings := rfl
@[simp] theorem bootFlag_cmds (s : State) (b : Nat) : (bootFlag s b).cmds = s.cmds := rfl
@[simp] theorem bootFlag_ports (s : State) (b : Nat) : (bootFlag s b).ports = s.ports := rfl
@[simp] theorem bootFlag_xfers (s : State) (b : Nat) : (bootFlag s b).xfers = s.xfers := rfl
@[simp] theorem bootFlag_memHold (s : State) (b : Nat) : (bootFlag s b).memHold = s.memHold := rfl
@[simp] theorem bootFlag_porstN (s : State) (b : Nat) : (bootFlag s b).porstN = s.porstN := rfl
@[simp] theorem bootFlag_srstN (s : State) (b : Nat) : (bootFlag s b).srstN = s.srstN := rfl
@[simp] theorem bootFlag_pfailN (s : State) (b : Nat) : (bootFlag s b).pfailN = s.pfailN := rfl
@[simp] theorem bootFlag_filled (s : State) (b : Nat) : (bootFlag s b).filled = s.filled := rfl
@[simp] theorem bootFlag_pools (s : State) (b : Nat) : (bootFlag s b).pools = s.pools := rfl
@[simp] theorem bootFlag_slots (s : State) (b : Nat) : (bootFlag s b).slots = s.slots := rfl
@[simp] theorem bootFlag_traces (s : State) (b : Nat) : (bootFlag s b).traces = s.traces := rfl
@[simp] theorem bootFlag_evc (s : State) (b : Nat) : (bootFlag s b).evc = s.evc := rfl
@[simp] theorem bootFlag_cfg (s : State) (b : Nat) : (bootFlag s b).cfg = s.cfg := rfl
@[simp] theorem bootFlag_ozt (s : State) (b : Nat) : (bootFlag s b).ozt = s.ozt := rfl
@[simp] theorem bootFlag_layouts (s : State) (b : Nat) : (bootFlag s b).layouts = s.layouts := rfl
@[simp] theorem bootFlag_groups (s : State) (b : Nat) : (bootFlag s b).groups = s.groups := rfl
@[simp] theorem bootFlag_extents (s : State) (b : Nat) : (bootFlag s b).extents = s.extents := rfl
@[simp] theorem bootFlag_rows (s : State) (b : Nat) : (bootFlag s b).rows = s.rows := rfl
@[simp] theorem bootFlag_stagings (s : State) (b : Nat) : (bootFlag s b).stagings = s.stagings := rfl
@[simp] theorem bootFlag_ops (s : State) (b : Nat) : (bootFlag s b).ops = s.ops := rfl
@[simp] theorem bootFlag_items (s : State) (b : Nat) : (bootFlag s b).items = s.items := rfl
@[simp] theorem bootFlag_recons (s : State) (b : Nat) : (bootFlag s b).recons = s.recons := rfl
@[simp] theorem bootFlag_decs (s : State) (b : Nat) : (bootFlag s b).decs = s.decs := rfl
@[simp] theorem bootFlag_stes (s : State) (b : Nat) : (bootFlag s b).stes = s.stes := rfl
@[simp] theorem bootFlag_banks (s : State) (b : Nat) : (bootFlag s b).banks = s.banks := rfl
@[simp] theorem bootFlag_luns (s : State) (b : Nat) : (bootFlag s b).luns = s.luns := rfl
@[simp] theorem bootFlag_blks (s : State) (b : Nat) : (bootFlag s b).blks = s.blks := rfl
@[simp] theorem bootFlag_buses (s : State) (b : Nat) : (bootFlag s b).buses = s.buses := rfl
@[simp] theorem bootFlag_jrn (s : State) (b : Nat) : (bootFlag s b).jrn = s.jrn := rfl
@[simp] theorem bootFlag_gov (s : State) (b : Nat) : (bootFlag s b).gov = s.gov := rfl
@[simp] theorem bootFlag_age (s : State) (b : Nat) : (bootFlag s b).age = s.age := rfl
@[simp] theorem bootFlag_phys (s : State) (b : Nat) : (bootFlag s b).phys = s.phys := rfl
@[simp] theorem bootFlag_engines (s : State) (b : Nat) : (bootFlag s b).engines = s.engines := rfl
@[simp] theorem bootFlag_mems (s : State) (b : Nat) : (bootFlag s b).mems = s.mems := rfl
@[simp] theorem bootFlag_msrBad (s : State) (b : Nat) : (bootFlag s b).msrBad = s.msrBad := rfl
@[simp] theorem bootFlag_doms (s : State) (b : Nat) : (bootFlag s b).doms = s.doms := rfl
@[simp] theorem bootFlag_pwr (s : State) (b : Nat) : (bootFlag s b).pwr = s.pwr := rfl
@[simp] theorem bootFlag_boot (s : State) (b : Nat) : (bootFlag s b).boot = s.boot := rfl
@[simp] theorem bootFlag_tap (s : State) (b : Nat) : (bootFlag s b).tap = s.tap := rfl
@[simp] theorem bootFlag_scanEn (s : State) (b : Nat) : (bootFlag s b).scanEn = s.scanEn := rfl
@[simp] theorem bootFlag_alive (s : State) (b : Nat) : (bootFlag s b).alive = s.alive := rfl
@[simp] theorem bootFlag_aliveOn (s : State) (b : Nat) : (bootFlag s b).aliveOn = s.aliveOn := rfl
@[simp] theorem bootFlag_aliveAt (s : State) (b : Nat) : (bootFlag s b).aliveAt = s.aliveAt := rfl
@[simp] theorem bootFlag_blockFault (s : State) (b : Nat) : (bootFlag s b).blockFault = s.blockFault := rfl

/-! ### wpFlag -/

@[simp] theorem wpFlag_pending (s : State) (b : Nat) : (wpFlag s b).pending = s.pending := rfl
@[simp] theorem wpFlag_free (s : State) (b : Nat) : (wpFlag s b).free = s.free := rfl
@[simp] theorem wpFlag_nextId (s : State) (b : Nat) : (wpFlag s b).nextId = s.nextId := rfl
@[simp] theorem wpFlag_dram (s : State) (b : Nat) : (wpFlag s b).dram = s.dram := rfl
@[simp] theorem wpFlag_tick (s : State) (b : Nat) : (wpFlag s b).tick = s.tick := rfl
@[simp] theorem wpFlag_trefStop (s : State) (b : Nat) : (wpFlag s b).trefStop = s.trefStop := rfl
@[simp] theorem wpFlag_paceAt (s : State) (b : Nat) : (wpFlag s b).paceAt = s.paceAt := rfl
@[simp] theorem wpFlag_freqAt (s : State) (b : Nat) : (wpFlag s b).freqAt = s.freqAt := rfl
@[simp] theorem wpFlag_committed (s : State) (b : Nat) : (wpFlag s b).committed = s.committed := rfl
@[simp] theorem wpFlag_cpResp (s : State) (b : Nat) : (wpFlag s b).cpResp = s.cpResp := rfl
@[simp] theorem wpFlag_cpRdata (s : State) (b : Nat) : (wpFlag s b).cpRdata = s.cpRdata := rfl
@[simp] theorem wpFlag_cpWait (s : State) (b : Nat) : (wpFlag s b).cpWait = s.cpWait := rfl
@[simp] theorem wpFlag_ctx (s : State) (b : Nat) : (wpFlag s b).ctx = s.ctx := rfl
@[simp] theorem wpFlag_rings (s : State) (b : Nat) : (wpFlag s b).rings = s.rings := rfl
@[simp] theorem wpFlag_cmds (s : State) (b : Nat) : (wpFlag s b).cmds = s.cmds := rfl
@[simp] theorem wpFlag_ports (s : State) (b : Nat) : (wpFlag s b).ports = s.ports := rfl
@[simp] theorem wpFlag_xfers (s : State) (b : Nat) : (wpFlag s b).xfers = s.xfers := rfl
@[simp] theorem wpFlag_memHold (s : State) (b : Nat) : (wpFlag s b).memHold = s.memHold := rfl
@[simp] theorem wpFlag_porstN (s : State) (b : Nat) : (wpFlag s b).porstN = s.porstN := rfl
@[simp] theorem wpFlag_srstN (s : State) (b : Nat) : (wpFlag s b).srstN = s.srstN := rfl
@[simp] theorem wpFlag_pfailN (s : State) (b : Nat) : (wpFlag s b).pfailN = s.pfailN := rfl
@[simp] theorem wpFlag_filled (s : State) (b : Nat) : (wpFlag s b).filled = s.filled := rfl
@[simp] theorem wpFlag_pools (s : State) (b : Nat) : (wpFlag s b).pools = s.pools := rfl
@[simp] theorem wpFlag_slots (s : State) (b : Nat) : (wpFlag s b).slots = s.slots := rfl
@[simp] theorem wpFlag_traces (s : State) (b : Nat) : (wpFlag s b).traces = s.traces := rfl
@[simp] theorem wpFlag_evc (s : State) (b : Nat) : (wpFlag s b).evc = s.evc := rfl
@[simp] theorem wpFlag_cfg (s : State) (b : Nat) : (wpFlag s b).cfg = s.cfg := rfl
@[simp] theorem wpFlag_ozt (s : State) (b : Nat) : (wpFlag s b).ozt = s.ozt := rfl
@[simp] theorem wpFlag_layouts (s : State) (b : Nat) : (wpFlag s b).layouts = s.layouts := rfl
@[simp] theorem wpFlag_groups (s : State) (b : Nat) : (wpFlag s b).groups = s.groups := rfl
@[simp] theorem wpFlag_extents (s : State) (b : Nat) : (wpFlag s b).extents = s.extents := rfl
@[simp] theorem wpFlag_rows (s : State) (b : Nat) : (wpFlag s b).rows = s.rows := rfl
@[simp] theorem wpFlag_stagings (s : State) (b : Nat) : (wpFlag s b).stagings = s.stagings := rfl
@[simp] theorem wpFlag_ops (s : State) (b : Nat) : (wpFlag s b).ops = s.ops := rfl
@[simp] theorem wpFlag_items (s : State) (b : Nat) : (wpFlag s b).items = s.items := rfl
@[simp] theorem wpFlag_recons (s : State) (b : Nat) : (wpFlag s b).recons = s.recons := rfl
@[simp] theorem wpFlag_decs (s : State) (b : Nat) : (wpFlag s b).decs = s.decs := rfl
@[simp] theorem wpFlag_stes (s : State) (b : Nat) : (wpFlag s b).stes = s.stes := rfl
@[simp] theorem wpFlag_banks (s : State) (b : Nat) : (wpFlag s b).banks = s.banks := rfl
@[simp] theorem wpFlag_luns (s : State) (b : Nat) : (wpFlag s b).luns = s.luns := rfl
@[simp] theorem wpFlag_blks (s : State) (b : Nat) : (wpFlag s b).blks = s.blks := rfl
@[simp] theorem wpFlag_buses (s : State) (b : Nat) : (wpFlag s b).buses = s.buses := rfl
@[simp] theorem wpFlag_jrn (s : State) (b : Nat) : (wpFlag s b).jrn = s.jrn := rfl
@[simp] theorem wpFlag_gov (s : State) (b : Nat) : (wpFlag s b).gov = s.gov := rfl
@[simp] theorem wpFlag_age (s : State) (b : Nat) : (wpFlag s b).age = s.age := rfl
@[simp] theorem wpFlag_phys (s : State) (b : Nat) : (wpFlag s b).phys = s.phys := rfl
@[simp] theorem wpFlag_engines (s : State) (b : Nat) : (wpFlag s b).engines = s.engines := rfl
@[simp] theorem wpFlag_mems (s : State) (b : Nat) : (wpFlag s b).mems = s.mems := rfl
@[simp] theorem wpFlag_msrBad (s : State) (b : Nat) : (wpFlag s b).msrBad = s.msrBad := rfl
@[simp] theorem wpFlag_doms (s : State) (b : Nat) : (wpFlag s b).doms = s.doms := rfl
@[simp] theorem wpFlag_pwr (s : State) (b : Nat) : (wpFlag s b).pwr = s.pwr := rfl
@[simp] theorem wpFlag_boot (s : State) (b : Nat) : (wpFlag s b).boot = s.boot := rfl
@[simp] theorem wpFlag_tap (s : State) (b : Nat) : (wpFlag s b).tap = s.tap := rfl
@[simp] theorem wpFlag_scanEn (s : State) (b : Nat) : (wpFlag s b).scanEn = s.scanEn := rfl
@[simp] theorem wpFlag_alive (s : State) (b : Nat) : (wpFlag s b).alive = s.alive := rfl
@[simp] theorem wpFlag_aliveOn (s : State) (b : Nat) : (wpFlag s b).aliveOn = s.aliveOn := rfl
@[simp] theorem wpFlag_aliveAt (s : State) (b : Nat) : (wpFlag s b).aliveAt = s.aliveAt := rfl
@[simp] theorem wpFlag_blockFault (s : State) (b : Nat) : (wpFlag s b).blockFault = s.blockFault := rfl

/-! ### hopFlag -/

@[simp] theorem hopFlag_pending (s : State) (b : Nat) : (hopFlag s b).pending = s.pending := rfl
@[simp] theorem hopFlag_free (s : State) (b : Nat) : (hopFlag s b).free = s.free := rfl
@[simp] theorem hopFlag_nextId (s : State) (b : Nat) : (hopFlag s b).nextId = s.nextId := rfl
@[simp] theorem hopFlag_dram (s : State) (b : Nat) : (hopFlag s b).dram = s.dram := rfl
@[simp] theorem hopFlag_tick (s : State) (b : Nat) : (hopFlag s b).tick = s.tick := rfl
@[simp] theorem hopFlag_trefStop (s : State) (b : Nat) : (hopFlag s b).trefStop = s.trefStop := rfl
@[simp] theorem hopFlag_paceAt (s : State) (b : Nat) : (hopFlag s b).paceAt = s.paceAt := rfl
@[simp] theorem hopFlag_freqAt (s : State) (b : Nat) : (hopFlag s b).freqAt = s.freqAt := rfl
@[simp] theorem hopFlag_committed (s : State) (b : Nat) : (hopFlag s b).committed = s.committed := rfl
@[simp] theorem hopFlag_cpResp (s : State) (b : Nat) : (hopFlag s b).cpResp = s.cpResp := rfl
@[simp] theorem hopFlag_cpRdata (s : State) (b : Nat) : (hopFlag s b).cpRdata = s.cpRdata := rfl
@[simp] theorem hopFlag_cpWait (s : State) (b : Nat) : (hopFlag s b).cpWait = s.cpWait := rfl
@[simp] theorem hopFlag_ctx (s : State) (b : Nat) : (hopFlag s b).ctx = s.ctx := rfl
@[simp] theorem hopFlag_rings (s : State) (b : Nat) : (hopFlag s b).rings = s.rings := rfl
@[simp] theorem hopFlag_cmds (s : State) (b : Nat) : (hopFlag s b).cmds = s.cmds := rfl
@[simp] theorem hopFlag_ports (s : State) (b : Nat) : (hopFlag s b).ports = s.ports := rfl
@[simp] theorem hopFlag_xfers (s : State) (b : Nat) : (hopFlag s b).xfers = s.xfers := rfl
@[simp] theorem hopFlag_memHold (s : State) (b : Nat) : (hopFlag s b).memHold = s.memHold := rfl
@[simp] theorem hopFlag_porstN (s : State) (b : Nat) : (hopFlag s b).porstN = s.porstN := rfl
@[simp] theorem hopFlag_srstN (s : State) (b : Nat) : (hopFlag s b).srstN = s.srstN := rfl
@[simp] theorem hopFlag_pfailN (s : State) (b : Nat) : (hopFlag s b).pfailN = s.pfailN := rfl
@[simp] theorem hopFlag_filled (s : State) (b : Nat) : (hopFlag s b).filled = s.filled := rfl
@[simp] theorem hopFlag_pools (s : State) (b : Nat) : (hopFlag s b).pools = s.pools := rfl
@[simp] theorem hopFlag_slots (s : State) (b : Nat) : (hopFlag s b).slots = s.slots := rfl
@[simp] theorem hopFlag_traces (s : State) (b : Nat) : (hopFlag s b).traces = s.traces := rfl
@[simp] theorem hopFlag_evc (s : State) (b : Nat) : (hopFlag s b).evc = s.evc := rfl
@[simp] theorem hopFlag_cfg (s : State) (b : Nat) : (hopFlag s b).cfg = s.cfg := rfl
@[simp] theorem hopFlag_ozt (s : State) (b : Nat) : (hopFlag s b).ozt = s.ozt := rfl
@[simp] theorem hopFlag_layouts (s : State) (b : Nat) : (hopFlag s b).layouts = s.layouts := rfl
@[simp] theorem hopFlag_groups (s : State) (b : Nat) : (hopFlag s b).groups = s.groups := rfl
@[simp] theorem hopFlag_extents (s : State) (b : Nat) : (hopFlag s b).extents = s.extents := rfl
@[simp] theorem hopFlag_rows (s : State) (b : Nat) : (hopFlag s b).rows = s.rows := rfl
@[simp] theorem hopFlag_stagings (s : State) (b : Nat) : (hopFlag s b).stagings = s.stagings := rfl
@[simp] theorem hopFlag_ops (s : State) (b : Nat) : (hopFlag s b).ops = s.ops := rfl
@[simp] theorem hopFlag_items (s : State) (b : Nat) : (hopFlag s b).items = s.items := rfl
@[simp] theorem hopFlag_recons (s : State) (b : Nat) : (hopFlag s b).recons = s.recons := rfl
@[simp] theorem hopFlag_decs (s : State) (b : Nat) : (hopFlag s b).decs = s.decs := rfl
@[simp] theorem hopFlag_stes (s : State) (b : Nat) : (hopFlag s b).stes = s.stes := rfl
@[simp] theorem hopFlag_banks (s : State) (b : Nat) : (hopFlag s b).banks = s.banks := rfl
@[simp] theorem hopFlag_luns (s : State) (b : Nat) : (hopFlag s b).luns = s.luns := rfl
@[simp] theorem hopFlag_blks (s : State) (b : Nat) : (hopFlag s b).blks = s.blks := rfl
@[simp] theorem hopFlag_buses (s : State) (b : Nat) : (hopFlag s b).buses = s.buses := rfl
@[simp] theorem hopFlag_jrn (s : State) (b : Nat) : (hopFlag s b).jrn = s.jrn := rfl
@[simp] theorem hopFlag_gov (s : State) (b : Nat) : (hopFlag s b).gov = s.gov := rfl
@[simp] theorem hopFlag_age (s : State) (b : Nat) : (hopFlag s b).age = s.age := rfl
@[simp] theorem hopFlag_phys (s : State) (b : Nat) : (hopFlag s b).phys = s.phys := rfl
@[simp] theorem hopFlag_engines (s : State) (b : Nat) : (hopFlag s b).engines = s.engines := rfl
@[simp] theorem hopFlag_mems (s : State) (b : Nat) : (hopFlag s b).mems = s.mems := rfl
@[simp] theorem hopFlag_msrBad (s : State) (b : Nat) : (hopFlag s b).msrBad = s.msrBad := rfl
@[simp] theorem hopFlag_doms (s : State) (b : Nat) : (hopFlag s b).doms = s.doms := rfl
@[simp] theorem hopFlag_pwr (s : State) (b : Nat) : (hopFlag s b).pwr = s.pwr := rfl
@[simp] theorem hopFlag_boot (s : State) (b : Nat) : (hopFlag s b).boot = s.boot := rfl
@[simp] theorem hopFlag_tap (s : State) (b : Nat) : (hopFlag s b).tap = s.tap := rfl
@[simp] theorem hopFlag_scanEn (s : State) (b : Nat) : (hopFlag s b).scanEn = s.scanEn := rfl
@[simp] theorem hopFlag_alive (s : State) (b : Nat) : (hopFlag s b).alive = s.alive := rfl
@[simp] theorem hopFlag_aliveOn (s : State) (b : Nat) : (hopFlag s b).aliveOn = s.aliveOn := rfl
@[simp] theorem hopFlag_aliveAt (s : State) (b : Nat) : (hopFlag s b).aliveAt = s.aliveAt := rfl
@[simp] theorem hopFlag_blockFault (s : State) (b : Nat) : (hopFlag s b).blockFault = s.blockFault := rfl

/-! ### phyFlag -/

@[simp] theorem phyFlag_pending (s : State) (c b : Nat) : (phyFlag s c b).pending = s.pending := rfl
@[simp] theorem phyFlag_free (s : State) (c b : Nat) : (phyFlag s c b).free = s.free := rfl
@[simp] theorem phyFlag_nextId (s : State) (c b : Nat) : (phyFlag s c b).nextId = s.nextId := rfl
@[simp] theorem phyFlag_dram (s : State) (c b : Nat) : (phyFlag s c b).dram = s.dram := rfl
@[simp] theorem phyFlag_tick (s : State) (c b : Nat) : (phyFlag s c b).tick = s.tick := rfl
@[simp] theorem phyFlag_trefStop (s : State) (c b : Nat) : (phyFlag s c b).trefStop = s.trefStop := rfl
@[simp] theorem phyFlag_paceAt (s : State) (c b : Nat) : (phyFlag s c b).paceAt = s.paceAt := rfl
@[simp] theorem phyFlag_freqAt (s : State) (c b : Nat) : (phyFlag s c b).freqAt = s.freqAt := rfl
@[simp] theorem phyFlag_committed (s : State) (c b : Nat) : (phyFlag s c b).committed = s.committed := rfl
@[simp] theorem phyFlag_cpResp (s : State) (c b : Nat) : (phyFlag s c b).cpResp = s.cpResp := rfl
@[simp] theorem phyFlag_cpRdata (s : State) (c b : Nat) : (phyFlag s c b).cpRdata = s.cpRdata := rfl
@[simp] theorem phyFlag_cpWait (s : State) (c b : Nat) : (phyFlag s c b).cpWait = s.cpWait := rfl
@[simp] theorem phyFlag_ctx (s : State) (c b : Nat) : (phyFlag s c b).ctx = s.ctx := rfl
@[simp] theorem phyFlag_rings (s : State) (c b : Nat) : (phyFlag s c b).rings = s.rings := rfl
@[simp] theorem phyFlag_cmds (s : State) (c b : Nat) : (phyFlag s c b).cmds = s.cmds := rfl
@[simp] theorem phyFlag_ports (s : State) (c b : Nat) : (phyFlag s c b).ports = s.ports := rfl
@[simp] theorem phyFlag_xfers (s : State) (c b : Nat) : (phyFlag s c b).xfers = s.xfers := rfl
@[simp] theorem phyFlag_memHold (s : State) (c b : Nat) : (phyFlag s c b).memHold = s.memHold := rfl
@[simp] theorem phyFlag_porstN (s : State) (c b : Nat) : (phyFlag s c b).porstN = s.porstN := rfl
@[simp] theorem phyFlag_srstN (s : State) (c b : Nat) : (phyFlag s c b).srstN = s.srstN := rfl
@[simp] theorem phyFlag_pfailN (s : State) (c b : Nat) : (phyFlag s c b).pfailN = s.pfailN := rfl
@[simp] theorem phyFlag_filled (s : State) (c b : Nat) : (phyFlag s c b).filled = s.filled := rfl
@[simp] theorem phyFlag_pools (s : State) (c b : Nat) : (phyFlag s c b).pools = s.pools := rfl
@[simp] theorem phyFlag_slots (s : State) (c b : Nat) : (phyFlag s c b).slots = s.slots := rfl
@[simp] theorem phyFlag_traces (s : State) (c b : Nat) : (phyFlag s c b).traces = s.traces := rfl
@[simp] theorem phyFlag_evc (s : State) (c b : Nat) : (phyFlag s c b).evc = s.evc := rfl
@[simp] theorem phyFlag_cfg (s : State) (c b : Nat) : (phyFlag s c b).cfg = s.cfg := rfl
@[simp] theorem phyFlag_ozt (s : State) (c b : Nat) : (phyFlag s c b).ozt = s.ozt := rfl
@[simp] theorem phyFlag_layouts (s : State) (c b : Nat) : (phyFlag s c b).layouts = s.layouts := rfl
@[simp] theorem phyFlag_groups (s : State) (c b : Nat) : (phyFlag s c b).groups = s.groups := rfl
@[simp] theorem phyFlag_extents (s : State) (c b : Nat) : (phyFlag s c b).extents = s.extents := rfl
@[simp] theorem phyFlag_rows (s : State) (c b : Nat) : (phyFlag s c b).rows = s.rows := rfl
@[simp] theorem phyFlag_stagings (s : State) (c b : Nat) : (phyFlag s c b).stagings = s.stagings := rfl
@[simp] theorem phyFlag_ops (s : State) (c b : Nat) : (phyFlag s c b).ops = s.ops := rfl
@[simp] theorem phyFlag_items (s : State) (c b : Nat) : (phyFlag s c b).items = s.items := rfl
@[simp] theorem phyFlag_recons (s : State) (c b : Nat) : (phyFlag s c b).recons = s.recons := rfl
@[simp] theorem phyFlag_decs (s : State) (c b : Nat) : (phyFlag s c b).decs = s.decs := rfl
@[simp] theorem phyFlag_stes (s : State) (c b : Nat) : (phyFlag s c b).stes = s.stes := rfl
@[simp] theorem phyFlag_banks (s : State) (c b : Nat) : (phyFlag s c b).banks = s.banks := rfl
@[simp] theorem phyFlag_luns (s : State) (c b : Nat) : (phyFlag s c b).luns = s.luns := rfl
@[simp] theorem phyFlag_blks (s : State) (c b : Nat) : (phyFlag s c b).blks = s.blks := rfl
@[simp] theorem phyFlag_buses (s : State) (c b : Nat) : (phyFlag s c b).buses = s.buses := rfl
@[simp] theorem phyFlag_jrn (s : State) (c b : Nat) : (phyFlag s c b).jrn = s.jrn := rfl
@[simp] theorem phyFlag_gov (s : State) (c b : Nat) : (phyFlag s c b).gov = s.gov := rfl
@[simp] theorem phyFlag_age (s : State) (c b : Nat) : (phyFlag s c b).age = s.age := rfl
@[simp] theorem phyFlag_phys (s : State) (c b : Nat) : (phyFlag s c b).phys = s.phys := rfl
@[simp] theorem phyFlag_engines (s : State) (c b : Nat) : (phyFlag s c b).engines = s.engines := rfl
@[simp] theorem phyFlag_mems (s : State) (c b : Nat) : (phyFlag s c b).mems = s.mems := rfl
@[simp] theorem phyFlag_msrBad (s : State) (c b : Nat) : (phyFlag s c b).msrBad = s.msrBad := rfl
@[simp] theorem phyFlag_doms (s : State) (c b : Nat) : (phyFlag s c b).doms = s.doms := rfl
@[simp] theorem phyFlag_pwr (s : State) (c b : Nat) : (phyFlag s c b).pwr = s.pwr := rfl
@[simp] theorem phyFlag_boot (s : State) (c b : Nat) : (phyFlag s c b).boot = s.boot := rfl
@[simp] theorem phyFlag_tap (s : State) (c b : Nat) : (phyFlag s c b).tap = s.tap := rfl
@[simp] theorem phyFlag_scanEn (s : State) (c b : Nat) : (phyFlag s c b).scanEn = s.scanEn := rfl
@[simp] theorem phyFlag_alive (s : State) (c b : Nat) : (phyFlag s c b).alive = s.alive := rfl
@[simp] theorem phyFlag_aliveOn (s : State) (c b : Nat) : (phyFlag s c b).aliveOn = s.aliveOn := rfl
@[simp] theorem phyFlag_aliveAt (s : State) (c b : Nat) : (phyFlag s c b).aliveAt = s.aliveAt := rfl
@[simp] theorem phyFlag_blockFault (s : State) (c b : Nat) : (phyFlag s c b).blockFault = s.blockFault := rfl

/-! ### engFlag -/

@[simp] theorem engFlag_pending (s : State) (c b : Nat) : (engFlag s c b).pending = s.pending := rfl
@[simp] theorem engFlag_free (s : State) (c b : Nat) : (engFlag s c b).free = s.free := rfl
@[simp] theorem engFlag_nextId (s : State) (c b : Nat) : (engFlag s c b).nextId = s.nextId := rfl
@[simp] theorem engFlag_dram (s : State) (c b : Nat) : (engFlag s c b).dram = s.dram := rfl
@[simp] theorem engFlag_tick (s : State) (c b : Nat) : (engFlag s c b).tick = s.tick := rfl
@[simp] theorem engFlag_trefStop (s : State) (c b : Nat) : (engFlag s c b).trefStop = s.trefStop := rfl
@[simp] theorem engFlag_paceAt (s : State) (c b : Nat) : (engFlag s c b).paceAt = s.paceAt := rfl
@[simp] theorem engFlag_freqAt (s : State) (c b : Nat) : (engFlag s c b).freqAt = s.freqAt := rfl
@[simp] theorem engFlag_committed (s : State) (c b : Nat) : (engFlag s c b).committed = s.committed := rfl
@[simp] theorem engFlag_cpResp (s : State) (c b : Nat) : (engFlag s c b).cpResp = s.cpResp := rfl
@[simp] theorem engFlag_cpRdata (s : State) (c b : Nat) : (engFlag s c b).cpRdata = s.cpRdata := rfl
@[simp] theorem engFlag_cpWait (s : State) (c b : Nat) : (engFlag s c b).cpWait = s.cpWait := rfl
@[simp] theorem engFlag_ctx (s : State) (c b : Nat) : (engFlag s c b).ctx = s.ctx := rfl
@[simp] theorem engFlag_rings (s : State) (c b : Nat) : (engFlag s c b).rings = s.rings := rfl
@[simp] theorem engFlag_cmds (s : State) (c b : Nat) : (engFlag s c b).cmds = s.cmds := rfl
@[simp] theorem engFlag_ports (s : State) (c b : Nat) : (engFlag s c b).ports = s.ports := rfl
@[simp] theorem engFlag_xfers (s : State) (c b : Nat) : (engFlag s c b).xfers = s.xfers := rfl
@[simp] theorem engFlag_memHold (s : State) (c b : Nat) : (engFlag s c b).memHold = s.memHold := rfl
@[simp] theorem engFlag_porstN (s : State) (c b : Nat) : (engFlag s c b).porstN = s.porstN := rfl
@[simp] theorem engFlag_srstN (s : State) (c b : Nat) : (engFlag s c b).srstN = s.srstN := rfl
@[simp] theorem engFlag_pfailN (s : State) (c b : Nat) : (engFlag s c b).pfailN = s.pfailN := rfl
@[simp] theorem engFlag_filled (s : State) (c b : Nat) : (engFlag s c b).filled = s.filled := rfl
@[simp] theorem engFlag_pools (s : State) (c b : Nat) : (engFlag s c b).pools = s.pools := rfl
@[simp] theorem engFlag_slots (s : State) (c b : Nat) : (engFlag s c b).slots = s.slots := rfl
@[simp] theorem engFlag_traces (s : State) (c b : Nat) : (engFlag s c b).traces = s.traces := rfl
@[simp] theorem engFlag_evc (s : State) (c b : Nat) : (engFlag s c b).evc = s.evc := rfl
@[simp] theorem engFlag_cfg (s : State) (c b : Nat) : (engFlag s c b).cfg = s.cfg := rfl
@[simp] theorem engFlag_ozt (s : State) (c b : Nat) : (engFlag s c b).ozt = s.ozt := rfl
@[simp] theorem engFlag_layouts (s : State) (c b : Nat) : (engFlag s c b).layouts = s.layouts := rfl
@[simp] theorem engFlag_groups (s : State) (c b : Nat) : (engFlag s c b).groups = s.groups := rfl
@[simp] theorem engFlag_extents (s : State) (c b : Nat) : (engFlag s c b).extents = s.extents := rfl
@[simp] theorem engFlag_rows (s : State) (c b : Nat) : (engFlag s c b).rows = s.rows := rfl
@[simp] theorem engFlag_stagings (s : State) (c b : Nat) : (engFlag s c b).stagings = s.stagings := rfl
@[simp] theorem engFlag_ops (s : State) (c b : Nat) : (engFlag s c b).ops = s.ops := rfl
@[simp] theorem engFlag_items (s : State) (c b : Nat) : (engFlag s c b).items = s.items := rfl
@[simp] theorem engFlag_recons (s : State) (c b : Nat) : (engFlag s c b).recons = s.recons := rfl
@[simp] theorem engFlag_decs (s : State) (c b : Nat) : (engFlag s c b).decs = s.decs := rfl
@[simp] theorem engFlag_stes (s : State) (c b : Nat) : (engFlag s c b).stes = s.stes := rfl
@[simp] theorem engFlag_banks (s : State) (c b : Nat) : (engFlag s c b).banks = s.banks := rfl
@[simp] theorem engFlag_luns (s : State) (c b : Nat) : (engFlag s c b).luns = s.luns := rfl
@[simp] theorem engFlag_blks (s : State) (c b : Nat) : (engFlag s c b).blks = s.blks := rfl
@[simp] theorem engFlag_buses (s : State) (c b : Nat) : (engFlag s c b).buses = s.buses := rfl
@[simp] theorem engFlag_jrn (s : State) (c b : Nat) : (engFlag s c b).jrn = s.jrn := rfl
@[simp] theorem engFlag_gov (s : State) (c b : Nat) : (engFlag s c b).gov = s.gov := rfl
@[simp] theorem engFlag_age (s : State) (c b : Nat) : (engFlag s c b).age = s.age := rfl
@[simp] theorem engFlag_phys (s : State) (c b : Nat) : (engFlag s c b).phys = s.phys := rfl
@[simp] theorem engFlag_engines (s : State) (c b : Nat) : (engFlag s c b).engines = s.engines := rfl
@[simp] theorem engFlag_mems (s : State) (c b : Nat) : (engFlag s c b).mems = s.mems := rfl
@[simp] theorem engFlag_msrBad (s : State) (c b : Nat) : (engFlag s c b).msrBad = s.msrBad := rfl
@[simp] theorem engFlag_doms (s : State) (c b : Nat) : (engFlag s c b).doms = s.doms := rfl
@[simp] theorem engFlag_pwr (s : State) (c b : Nat) : (engFlag s c b).pwr = s.pwr := rfl
@[simp] theorem engFlag_boot (s : State) (c b : Nat) : (engFlag s c b).boot = s.boot := rfl
@[simp] theorem engFlag_tap (s : State) (c b : Nat) : (engFlag s c b).tap = s.tap := rfl
@[simp] theorem engFlag_scanEn (s : State) (c b : Nat) : (engFlag s c b).scanEn = s.scanEn := rfl
@[simp] theorem engFlag_alive (s : State) (c b : Nat) : (engFlag s c b).alive = s.alive := rfl
@[simp] theorem engFlag_aliveOn (s : State) (c b : Nat) : (engFlag s c b).aliveOn = s.aliveOn := rfl
@[simp] theorem engFlag_aliveAt (s : State) (c b : Nat) : (engFlag s c b).aliveAt = s.aliveAt := rfl
@[simp] theorem engFlag_blockFault (s : State) (c b : Nat) : (engFlag s c b).blockFault = s.blockFault := rfl

/-! ### csqFlag -/

@[simp] theorem csqFlag_pending (s : State) (c b : Nat) : (csqFlag s c b).pending = s.pending := rfl
@[simp] theorem csqFlag_free (s : State) (c b : Nat) : (csqFlag s c b).free = s.free := rfl
@[simp] theorem csqFlag_nextId (s : State) (c b : Nat) : (csqFlag s c b).nextId = s.nextId := rfl
@[simp] theorem csqFlag_dram (s : State) (c b : Nat) : (csqFlag s c b).dram = s.dram := rfl
@[simp] theorem csqFlag_tick (s : State) (c b : Nat) : (csqFlag s c b).tick = s.tick := rfl
@[simp] theorem csqFlag_trefStop (s : State) (c b : Nat) : (csqFlag s c b).trefStop = s.trefStop := rfl
@[simp] theorem csqFlag_paceAt (s : State) (c b : Nat) : (csqFlag s c b).paceAt = s.paceAt := rfl
@[simp] theorem csqFlag_freqAt (s : State) (c b : Nat) : (csqFlag s c b).freqAt = s.freqAt := rfl
@[simp] theorem csqFlag_committed (s : State) (c b : Nat) : (csqFlag s c b).committed = s.committed := rfl
@[simp] theorem csqFlag_cpResp (s : State) (c b : Nat) : (csqFlag s c b).cpResp = s.cpResp := rfl
@[simp] theorem csqFlag_cpRdata (s : State) (c b : Nat) : (csqFlag s c b).cpRdata = s.cpRdata := rfl
@[simp] theorem csqFlag_cpWait (s : State) (c b : Nat) : (csqFlag s c b).cpWait = s.cpWait := rfl
@[simp] theorem csqFlag_ctx (s : State) (c b : Nat) : (csqFlag s c b).ctx = s.ctx := rfl
@[simp] theorem csqFlag_rings (s : State) (c b : Nat) : (csqFlag s c b).rings = s.rings := rfl
@[simp] theorem csqFlag_cmds (s : State) (c b : Nat) : (csqFlag s c b).cmds = s.cmds := rfl
@[simp] theorem csqFlag_ports (s : State) (c b : Nat) : (csqFlag s c b).ports = s.ports := rfl
@[simp] theorem csqFlag_xfers (s : State) (c b : Nat) : (csqFlag s c b).xfers = s.xfers := rfl
@[simp] theorem csqFlag_memHold (s : State) (c b : Nat) : (csqFlag s c b).memHold = s.memHold := rfl
@[simp] theorem csqFlag_porstN (s : State) (c b : Nat) : (csqFlag s c b).porstN = s.porstN := rfl
@[simp] theorem csqFlag_srstN (s : State) (c b : Nat) : (csqFlag s c b).srstN = s.srstN := rfl
@[simp] theorem csqFlag_pfailN (s : State) (c b : Nat) : (csqFlag s c b).pfailN = s.pfailN := rfl
@[simp] theorem csqFlag_filled (s : State) (c b : Nat) : (csqFlag s c b).filled = s.filled := rfl
@[simp] theorem csqFlag_pools (s : State) (c b : Nat) : (csqFlag s c b).pools = s.pools := rfl
@[simp] theorem csqFlag_slots (s : State) (c b : Nat) : (csqFlag s c b).slots = s.slots := rfl
@[simp] theorem csqFlag_traces (s : State) (c b : Nat) : (csqFlag s c b).traces = s.traces := rfl
@[simp] theorem csqFlag_evc (s : State) (c b : Nat) : (csqFlag s c b).evc = s.evc := rfl
@[simp] theorem csqFlag_cfg (s : State) (c b : Nat) : (csqFlag s c b).cfg = s.cfg := rfl
@[simp] theorem csqFlag_ozt (s : State) (c b : Nat) : (csqFlag s c b).ozt = s.ozt := rfl
@[simp] theorem csqFlag_layouts (s : State) (c b : Nat) : (csqFlag s c b).layouts = s.layouts := rfl
@[simp] theorem csqFlag_groups (s : State) (c b : Nat) : (csqFlag s c b).groups = s.groups := rfl
@[simp] theorem csqFlag_extents (s : State) (c b : Nat) : (csqFlag s c b).extents = s.extents := rfl
@[simp] theorem csqFlag_rows (s : State) (c b : Nat) : (csqFlag s c b).rows = s.rows := rfl
@[simp] theorem csqFlag_stagings (s : State) (c b : Nat) : (csqFlag s c b).stagings = s.stagings := rfl
@[simp] theorem csqFlag_ops (s : State) (c b : Nat) : (csqFlag s c b).ops = s.ops := rfl
@[simp] theorem csqFlag_items (s : State) (c b : Nat) : (csqFlag s c b).items = s.items := rfl
@[simp] theorem csqFlag_recons (s : State) (c b : Nat) : (csqFlag s c b).recons = s.recons := rfl
@[simp] theorem csqFlag_decs (s : State) (c b : Nat) : (csqFlag s c b).decs = s.decs := rfl
@[simp] theorem csqFlag_stes (s : State) (c b : Nat) : (csqFlag s c b).stes = s.stes := rfl
@[simp] theorem csqFlag_banks (s : State) (c b : Nat) : (csqFlag s c b).banks = s.banks := rfl
@[simp] theorem csqFlag_luns (s : State) (c b : Nat) : (csqFlag s c b).luns = s.luns := rfl
@[simp] theorem csqFlag_blks (s : State) (c b : Nat) : (csqFlag s c b).blks = s.blks := rfl
@[simp] theorem csqFlag_buses (s : State) (c b : Nat) : (csqFlag s c b).buses = s.buses := rfl
@[simp] theorem csqFlag_jrn (s : State) (c b : Nat) : (csqFlag s c b).jrn = s.jrn := rfl
@[simp] theorem csqFlag_gov (s : State) (c b : Nat) : (csqFlag s c b).gov = s.gov := rfl
@[simp] theorem csqFlag_age (s : State) (c b : Nat) : (csqFlag s c b).age = s.age := rfl
@[simp] theorem csqFlag_phys (s : State) (c b : Nat) : (csqFlag s c b).phys = s.phys := rfl
@[simp] theorem csqFlag_engines (s : State) (c b : Nat) : (csqFlag s c b).engines = s.engines := rfl
@[simp] theorem csqFlag_mems (s : State) (c b : Nat) : (csqFlag s c b).mems = s.mems := rfl
@[simp] theorem csqFlag_msrBad (s : State) (c b : Nat) : (csqFlag s c b).msrBad = s.msrBad := rfl
@[simp] theorem csqFlag_doms (s : State) (c b : Nat) : (csqFlag s c b).doms = s.doms := rfl
@[simp] theorem csqFlag_pwr (s : State) (c b : Nat) : (csqFlag s c b).pwr = s.pwr := rfl
@[simp] theorem csqFlag_boot (s : State) (c b : Nat) : (csqFlag s c b).boot = s.boot := rfl
@[simp] theorem csqFlag_tap (s : State) (c b : Nat) : (csqFlag s c b).tap = s.tap := rfl
@[simp] theorem csqFlag_scanEn (s : State) (c b : Nat) : (csqFlag s c b).scanEn = s.scanEn := rfl
@[simp] theorem csqFlag_alive (s : State) (c b : Nat) : (csqFlag s c b).alive = s.alive := rfl
@[simp] theorem csqFlag_aliveOn (s : State) (c b : Nat) : (csqFlag s c b).aliveOn = s.aliveOn := rfl
@[simp] theorem csqFlag_aliveAt (s : State) (c b : Nat) : (csqFlag s c b).aliveAt = s.aliveAt := rfl
@[simp] theorem csqFlag_blockFault (s : State) (c b : Nat) : (csqFlag s c b).blockFault = s.blockFault := rfl

/-! ### steFlag -/

@[simp] theorem steFlag_pending (s : State) (c b : Nat) : (steFlag s c b).pending = s.pending := rfl
@[simp] theorem steFlag_free (s : State) (c b : Nat) : (steFlag s c b).free = s.free := rfl
@[simp] theorem steFlag_nextId (s : State) (c b : Nat) : (steFlag s c b).nextId = s.nextId := rfl
@[simp] theorem steFlag_dram (s : State) (c b : Nat) : (steFlag s c b).dram = s.dram := rfl
@[simp] theorem steFlag_tick (s : State) (c b : Nat) : (steFlag s c b).tick = s.tick := rfl
@[simp] theorem steFlag_trefStop (s : State) (c b : Nat) : (steFlag s c b).trefStop = s.trefStop := rfl
@[simp] theorem steFlag_paceAt (s : State) (c b : Nat) : (steFlag s c b).paceAt = s.paceAt := rfl
@[simp] theorem steFlag_freqAt (s : State) (c b : Nat) : (steFlag s c b).freqAt = s.freqAt := rfl
@[simp] theorem steFlag_committed (s : State) (c b : Nat) : (steFlag s c b).committed = s.committed := rfl
@[simp] theorem steFlag_cpResp (s : State) (c b : Nat) : (steFlag s c b).cpResp = s.cpResp := rfl
@[simp] theorem steFlag_cpRdata (s : State) (c b : Nat) : (steFlag s c b).cpRdata = s.cpRdata := rfl
@[simp] theorem steFlag_cpWait (s : State) (c b : Nat) : (steFlag s c b).cpWait = s.cpWait := rfl
@[simp] theorem steFlag_ctx (s : State) (c b : Nat) : (steFlag s c b).ctx = s.ctx := rfl
@[simp] theorem steFlag_rings (s : State) (c b : Nat) : (steFlag s c b).rings = s.rings := rfl
@[simp] theorem steFlag_cmds (s : State) (c b : Nat) : (steFlag s c b).cmds = s.cmds := rfl
@[simp] theorem steFlag_ports (s : State) (c b : Nat) : (steFlag s c b).ports = s.ports := rfl
@[simp] theorem steFlag_xfers (s : State) (c b : Nat) : (steFlag s c b).xfers = s.xfers := rfl
@[simp] theorem steFlag_memHold (s : State) (c b : Nat) : (steFlag s c b).memHold = s.memHold := rfl
@[simp] theorem steFlag_porstN (s : State) (c b : Nat) : (steFlag s c b).porstN = s.porstN := rfl
@[simp] theorem steFlag_srstN (s : State) (c b : Nat) : (steFlag s c b).srstN = s.srstN := rfl
@[simp] theorem steFlag_pfailN (s : State) (c b : Nat) : (steFlag s c b).pfailN = s.pfailN := rfl
@[simp] theorem steFlag_filled (s : State) (c b : Nat) : (steFlag s c b).filled = s.filled := rfl
@[simp] theorem steFlag_pools (s : State) (c b : Nat) : (steFlag s c b).pools = s.pools := rfl
@[simp] theorem steFlag_slots (s : State) (c b : Nat) : (steFlag s c b).slots = s.slots := rfl
@[simp] theorem steFlag_traces (s : State) (c b : Nat) : (steFlag s c b).traces = s.traces := rfl
@[simp] theorem steFlag_evc (s : State) (c b : Nat) : (steFlag s c b).evc = s.evc := rfl
@[simp] theorem steFlag_cfg (s : State) (c b : Nat) : (steFlag s c b).cfg = s.cfg := rfl
@[simp] theorem steFlag_ozt (s : State) (c b : Nat) : (steFlag s c b).ozt = s.ozt := rfl
@[simp] theorem steFlag_layouts (s : State) (c b : Nat) : (steFlag s c b).layouts = s.layouts := rfl
@[simp] theorem steFlag_groups (s : State) (c b : Nat) : (steFlag s c b).groups = s.groups := rfl
@[simp] theorem steFlag_extents (s : State) (c b : Nat) : (steFlag s c b).extents = s.extents := rfl
@[simp] theorem steFlag_rows (s : State) (c b : Nat) : (steFlag s c b).rows = s.rows := rfl
@[simp] theorem steFlag_stagings (s : State) (c b : Nat) : (steFlag s c b).stagings = s.stagings := rfl
@[simp] theorem steFlag_ops (s : State) (c b : Nat) : (steFlag s c b).ops = s.ops := rfl
@[simp] theorem steFlag_items (s : State) (c b : Nat) : (steFlag s c b).items = s.items := rfl
@[simp] theorem steFlag_recons (s : State) (c b : Nat) : (steFlag s c b).recons = s.recons := rfl
@[simp] theorem steFlag_decs (s : State) (c b : Nat) : (steFlag s c b).decs = s.decs := rfl
@[simp] theorem steFlag_stes (s : State) (c b : Nat) : (steFlag s c b).stes = s.stes := rfl
@[simp] theorem steFlag_banks (s : State) (c b : Nat) : (steFlag s c b).banks = s.banks := rfl
@[simp] theorem steFlag_luns (s : State) (c b : Nat) : (steFlag s c b).luns = s.luns := rfl
@[simp] theorem steFlag_blks (s : State) (c b : Nat) : (steFlag s c b).blks = s.blks := rfl
@[simp] theorem steFlag_buses (s : State) (c b : Nat) : (steFlag s c b).buses = s.buses := rfl
@[simp] theorem steFlag_jrn (s : State) (c b : Nat) : (steFlag s c b).jrn = s.jrn := rfl
@[simp] theorem steFlag_gov (s : State) (c b : Nat) : (steFlag s c b).gov = s.gov := rfl
@[simp] theorem steFlag_age (s : State) (c b : Nat) : (steFlag s c b).age = s.age := rfl
@[simp] theorem steFlag_phys (s : State) (c b : Nat) : (steFlag s c b).phys = s.phys := rfl
@[simp] theorem steFlag_engines (s : State) (c b : Nat) : (steFlag s c b).engines = s.engines := rfl
@[simp] theorem steFlag_mems (s : State) (c b : Nat) : (steFlag s c b).mems = s.mems := rfl
@[simp] theorem steFlag_msrBad (s : State) (c b : Nat) : (steFlag s c b).msrBad = s.msrBad := rfl
@[simp] theorem steFlag_doms (s : State) (c b : Nat) : (steFlag s c b).doms = s.doms := rfl
@[simp] theorem steFlag_pwr (s : State) (c b : Nat) : (steFlag s c b).pwr = s.pwr := rfl
@[simp] theorem steFlag_boot (s : State) (c b : Nat) : (steFlag s c b).boot = s.boot := rfl
@[simp] theorem steFlag_tap (s : State) (c b : Nat) : (steFlag s c b).tap = s.tap := rfl
@[simp] theorem steFlag_scanEn (s : State) (c b : Nat) : (steFlag s c b).scanEn = s.scanEn := rfl
@[simp] theorem steFlag_alive (s : State) (c b : Nat) : (steFlag s c b).alive = s.alive := rfl
@[simp] theorem steFlag_aliveOn (s : State) (c b : Nat) : (steFlag s c b).aliveOn = s.aliveOn := rfl
@[simp] theorem steFlag_aliveAt (s : State) (c b : Nat) : (steFlag s c b).aliveAt = s.aliveAt := rfl
@[simp] theorem steFlag_blockFault (s : State) (c b : Nat) : (steFlag s c b).blockFault = s.blockFault := rfl

/-! ### decFlag -/

@[simp] theorem decFlag_pending (s : State) (c b : Nat) : (decFlag s c b).pending = s.pending := rfl
@[simp] theorem decFlag_free (s : State) (c b : Nat) : (decFlag s c b).free = s.free := rfl
@[simp] theorem decFlag_nextId (s : State) (c b : Nat) : (decFlag s c b).nextId = s.nextId := rfl
@[simp] theorem decFlag_dram (s : State) (c b : Nat) : (decFlag s c b).dram = s.dram := rfl
@[simp] theorem decFlag_tick (s : State) (c b : Nat) : (decFlag s c b).tick = s.tick := rfl
@[simp] theorem decFlag_trefStop (s : State) (c b : Nat) : (decFlag s c b).trefStop = s.trefStop := rfl
@[simp] theorem decFlag_paceAt (s : State) (c b : Nat) : (decFlag s c b).paceAt = s.paceAt := rfl
@[simp] theorem decFlag_freqAt (s : State) (c b : Nat) : (decFlag s c b).freqAt = s.freqAt := rfl
@[simp] theorem decFlag_committed (s : State) (c b : Nat) : (decFlag s c b).committed = s.committed := rfl
@[simp] theorem decFlag_cpResp (s : State) (c b : Nat) : (decFlag s c b).cpResp = s.cpResp := rfl
@[simp] theorem decFlag_cpRdata (s : State) (c b : Nat) : (decFlag s c b).cpRdata = s.cpRdata := rfl
@[simp] theorem decFlag_cpWait (s : State) (c b : Nat) : (decFlag s c b).cpWait = s.cpWait := rfl
@[simp] theorem decFlag_ctx (s : State) (c b : Nat) : (decFlag s c b).ctx = s.ctx := rfl
@[simp] theorem decFlag_rings (s : State) (c b : Nat) : (decFlag s c b).rings = s.rings := rfl
@[simp] theorem decFlag_cmds (s : State) (c b : Nat) : (decFlag s c b).cmds = s.cmds := rfl
@[simp] theorem decFlag_ports (s : State) (c b : Nat) : (decFlag s c b).ports = s.ports := rfl
@[simp] theorem decFlag_xfers (s : State) (c b : Nat) : (decFlag s c b).xfers = s.xfers := rfl
@[simp] theorem decFlag_memHold (s : State) (c b : Nat) : (decFlag s c b).memHold = s.memHold := rfl
@[simp] theorem decFlag_porstN (s : State) (c b : Nat) : (decFlag s c b).porstN = s.porstN := rfl
@[simp] theorem decFlag_srstN (s : State) (c b : Nat) : (decFlag s c b).srstN = s.srstN := rfl
@[simp] theorem decFlag_pfailN (s : State) (c b : Nat) : (decFlag s c b).pfailN = s.pfailN := rfl
@[simp] theorem decFlag_filled (s : State) (c b : Nat) : (decFlag s c b).filled = s.filled := rfl
@[simp] theorem decFlag_pools (s : State) (c b : Nat) : (decFlag s c b).pools = s.pools := rfl
@[simp] theorem decFlag_slots (s : State) (c b : Nat) : (decFlag s c b).slots = s.slots := rfl
@[simp] theorem decFlag_traces (s : State) (c b : Nat) : (decFlag s c b).traces = s.traces := rfl
@[simp] theorem decFlag_evc (s : State) (c b : Nat) : (decFlag s c b).evc = s.evc := rfl
@[simp] theorem decFlag_cfg (s : State) (c b : Nat) : (decFlag s c b).cfg = s.cfg := rfl
@[simp] theorem decFlag_ozt (s : State) (c b : Nat) : (decFlag s c b).ozt = s.ozt := rfl
@[simp] theorem decFlag_layouts (s : State) (c b : Nat) : (decFlag s c b).layouts = s.layouts := rfl
@[simp] theorem decFlag_groups (s : State) (c b : Nat) : (decFlag s c b).groups = s.groups := rfl
@[simp] theorem decFlag_extents (s : State) (c b : Nat) : (decFlag s c b).extents = s.extents := rfl
@[simp] theorem decFlag_rows (s : State) (c b : Nat) : (decFlag s c b).rows = s.rows := rfl
@[simp] theorem decFlag_stagings (s : State) (c b : Nat) : (decFlag s c b).stagings = s.stagings := rfl
@[simp] theorem decFlag_ops (s : State) (c b : Nat) : (decFlag s c b).ops = s.ops := rfl
@[simp] theorem decFlag_items (s : State) (c b : Nat) : (decFlag s c b).items = s.items := rfl
@[simp] theorem decFlag_recons (s : State) (c b : Nat) : (decFlag s c b).recons = s.recons := rfl
@[simp] theorem decFlag_decs (s : State) (c b : Nat) : (decFlag s c b).decs = s.decs := rfl
@[simp] theorem decFlag_stes (s : State) (c b : Nat) : (decFlag s c b).stes = s.stes := rfl
@[simp] theorem decFlag_banks (s : State) (c b : Nat) : (decFlag s c b).banks = s.banks := rfl
@[simp] theorem decFlag_luns (s : State) (c b : Nat) : (decFlag s c b).luns = s.luns := rfl
@[simp] theorem decFlag_blks (s : State) (c b : Nat) : (decFlag s c b).blks = s.blks := rfl
@[simp] theorem decFlag_buses (s : State) (c b : Nat) : (decFlag s c b).buses = s.buses := rfl
@[simp] theorem decFlag_jrn (s : State) (c b : Nat) : (decFlag s c b).jrn = s.jrn := rfl
@[simp] theorem decFlag_gov (s : State) (c b : Nat) : (decFlag s c b).gov = s.gov := rfl
@[simp] theorem decFlag_age (s : State) (c b : Nat) : (decFlag s c b).age = s.age := rfl
@[simp] theorem decFlag_phys (s : State) (c b : Nat) : (decFlag s c b).phys = s.phys := rfl
@[simp] theorem decFlag_engines (s : State) (c b : Nat) : (decFlag s c b).engines = s.engines := rfl
@[simp] theorem decFlag_mems (s : State) (c b : Nat) : (decFlag s c b).mems = s.mems := rfl
@[simp] theorem decFlag_msrBad (s : State) (c b : Nat) : (decFlag s c b).msrBad = s.msrBad := rfl
@[simp] theorem decFlag_doms (s : State) (c b : Nat) : (decFlag s c b).doms = s.doms := rfl
@[simp] theorem decFlag_pwr (s : State) (c b : Nat) : (decFlag s c b).pwr = s.pwr := rfl
@[simp] theorem decFlag_boot (s : State) (c b : Nat) : (decFlag s c b).boot = s.boot := rfl
@[simp] theorem decFlag_tap (s : State) (c b : Nat) : (decFlag s c b).tap = s.tap := rfl
@[simp] theorem decFlag_scanEn (s : State) (c b : Nat) : (decFlag s c b).scanEn = s.scanEn := rfl
@[simp] theorem decFlag_alive (s : State) (c b : Nat) : (decFlag s c b).alive = s.alive := rfl
@[simp] theorem decFlag_aliveOn (s : State) (c b : Nat) : (decFlag s c b).aliveOn = s.aliveOn := rfl
@[simp] theorem decFlag_aliveAt (s : State) (c b : Nat) : (decFlag s c b).aliveAt = s.aliveAt := rfl
@[simp] theorem decFlag_blockFault (s : State) (c b : Nat) : (decFlag s c b).blockFault = s.blockFault := rfl

theorem faultFlag_frame (s : State) (b : Nat) :
    faultFlag s b = { s with regs := (faultFlag s b).regs, evc := (faultFlag s b).evc } := by
  unfold faultFlag; dsimp only; (repeat' split) <;> first | rfl | (rw [raise_frame]; rfl)

/-! ### faultFlag -/

@[simp] theorem faultFlag_pending (s : State) (b : Nat) : (faultFlag s b).pending = s.pending := by rw [faultFlag_frame]
@[simp] theorem faultFlag_free (s : State) (b : Nat) : (faultFlag s b).free = s.free := by rw [faultFlag_frame]
@[simp] theorem faultFlag_nextId (s : State) (b : Nat) : (faultFlag s b).nextId = s.nextId := by rw [faultFlag_frame]
@[simp] theorem faultFlag_dram (s : State) (b : Nat) : (faultFlag s b).dram = s.dram := by rw [faultFlag_frame]
@[simp] theorem faultFlag_tick (s : State) (b : Nat) : (faultFlag s b).tick = s.tick := by rw [faultFlag_frame]
@[simp] theorem faultFlag_trefStop (s : State) (b : Nat) : (faultFlag s b).trefStop = s.trefStop := by rw [faultFlag_frame]
@[simp] theorem faultFlag_paceAt (s : State) (b : Nat) : (faultFlag s b).paceAt = s.paceAt := by rw [faultFlag_frame]
@[simp] theorem faultFlag_freqAt (s : State) (b : Nat) : (faultFlag s b).freqAt = s.freqAt := by rw [faultFlag_frame]
@[simp] theorem faultFlag_committed (s : State) (b : Nat) : (faultFlag s b).committed = s.committed := by rw [faultFlag_frame]
@[simp] theorem faultFlag_cpResp (s : State) (b : Nat) : (faultFlag s b).cpResp = s.cpResp := by rw [faultFlag_frame]
@[simp] theorem faultFlag_cpRdata (s : State) (b : Nat) : (faultFlag s b).cpRdata = s.cpRdata := by rw [faultFlag_frame]
@[simp] theorem faultFlag_cpWait (s : State) (b : Nat) : (faultFlag s b).cpWait = s.cpWait := by rw [faultFlag_frame]
@[simp] theorem faultFlag_ctx (s : State) (b : Nat) : (faultFlag s b).ctx = s.ctx := by rw [faultFlag_frame]
@[simp] theorem faultFlag_rings (s : State) (b : Nat) : (faultFlag s b).rings = s.rings := by rw [faultFlag_frame]
@[simp] theorem faultFlag_cmds (s : State) (b : Nat) : (faultFlag s b).cmds = s.cmds := by rw [faultFlag_frame]
@[simp] theorem faultFlag_ports (s : State) (b : Nat) : (faultFlag s b).ports = s.ports := by rw [faultFlag_frame]
@[simp] theorem faultFlag_xfers (s : State) (b : Nat) : (faultFlag s b).xfers = s.xfers := by rw [faultFlag_frame]
@[simp] theorem faultFlag_memHold (s : State) (b : Nat) : (faultFlag s b).memHold = s.memHold := by rw [faultFlag_frame]
@[simp] theorem faultFlag_porstN (s : State) (b : Nat) : (faultFlag s b).porstN = s.porstN := by rw [faultFlag_frame]
@[simp] theorem faultFlag_srstN (s : State) (b : Nat) : (faultFlag s b).srstN = s.srstN := by rw [faultFlag_frame]
@[simp] theorem faultFlag_pfailN (s : State) (b : Nat) : (faultFlag s b).pfailN = s.pfailN := by rw [faultFlag_frame]
@[simp] theorem faultFlag_filled (s : State) (b : Nat) : (faultFlag s b).filled = s.filled := by rw [faultFlag_frame]
@[simp] theorem faultFlag_pools (s : State) (b : Nat) : (faultFlag s b).pools = s.pools := by rw [faultFlag_frame]
@[simp] theorem faultFlag_slots (s : State) (b : Nat) : (faultFlag s b).slots = s.slots := by rw [faultFlag_frame]
@[simp] theorem faultFlag_traces (s : State) (b : Nat) : (faultFlag s b).traces = s.traces := by rw [faultFlag_frame]
@[simp] theorem faultFlag_cfg (s : State) (b : Nat) : (faultFlag s b).cfg = s.cfg := by rw [faultFlag_frame]
@[simp] theorem faultFlag_ozt (s : State) (b : Nat) : (faultFlag s b).ozt = s.ozt := by rw [faultFlag_frame]
@[simp] theorem faultFlag_layouts (s : State) (b : Nat) : (faultFlag s b).layouts = s.layouts := by rw [faultFlag_frame]
@[simp] theorem faultFlag_groups (s : State) (b : Nat) : (faultFlag s b).groups = s.groups := by rw [faultFlag_frame]
@[simp] theorem faultFlag_extents (s : State) (b : Nat) : (faultFlag s b).extents = s.extents := by rw [faultFlag_frame]
@[simp] theorem faultFlag_rows (s : State) (b : Nat) : (faultFlag s b).rows = s.rows := by rw [faultFlag_frame]
@[simp] theorem faultFlag_stagings (s : State) (b : Nat) : (faultFlag s b).stagings = s.stagings := by rw [faultFlag_frame]
@[simp] theorem faultFlag_ops (s : State) (b : Nat) : (faultFlag s b).ops = s.ops := by rw [faultFlag_frame]
@[simp] theorem faultFlag_items (s : State) (b : Nat) : (faultFlag s b).items = s.items := by rw [faultFlag_frame]
@[simp] theorem faultFlag_recons (s : State) (b : Nat) : (faultFlag s b).recons = s.recons := by rw [faultFlag_frame]
@[simp] theorem faultFlag_decs (s : State) (b : Nat) : (faultFlag s b).decs = s.decs := by rw [faultFlag_frame]
@[simp] theorem faultFlag_stes (s : State) (b : Nat) : (faultFlag s b).stes = s.stes := by rw [faultFlag_frame]
@[simp] theorem faultFlag_banks (s : State) (b : Nat) : (faultFlag s b).banks = s.banks := by rw [faultFlag_frame]
@[simp] theorem faultFlag_luns (s : State) (b : Nat) : (faultFlag s b).luns = s.luns := by rw [faultFlag_frame]
@[simp] theorem faultFlag_blks (s : State) (b : Nat) : (faultFlag s b).blks = s.blks := by rw [faultFlag_frame]
@[simp] theorem faultFlag_buses (s : State) (b : Nat) : (faultFlag s b).buses = s.buses := by rw [faultFlag_frame]
@[simp] theorem faultFlag_jrn (s : State) (b : Nat) : (faultFlag s b).jrn = s.jrn := by rw [faultFlag_frame]
@[simp] theorem faultFlag_gov (s : State) (b : Nat) : (faultFlag s b).gov = s.gov := by rw [faultFlag_frame]
@[simp] theorem faultFlag_age (s : State) (b : Nat) : (faultFlag s b).age = s.age := by rw [faultFlag_frame]
@[simp] theorem faultFlag_phys (s : State) (b : Nat) : (faultFlag s b).phys = s.phys := by rw [faultFlag_frame]
@[simp] theorem faultFlag_engines (s : State) (b : Nat) : (faultFlag s b).engines = s.engines := by rw [faultFlag_frame]
@[simp] theorem faultFlag_mems (s : State) (b : Nat) : (faultFlag s b).mems = s.mems := by rw [faultFlag_frame]
@[simp] theorem faultFlag_msrBad (s : State) (b : Nat) : (faultFlag s b).msrBad = s.msrBad := by rw [faultFlag_frame]
@[simp] theorem faultFlag_doms (s : State) (b : Nat) : (faultFlag s b).doms = s.doms := by rw [faultFlag_frame]
@[simp] theorem faultFlag_pwr (s : State) (b : Nat) : (faultFlag s b).pwr = s.pwr := by rw [faultFlag_frame]
@[simp] theorem faultFlag_boot (s : State) (b : Nat) : (faultFlag s b).boot = s.boot := by rw [faultFlag_frame]
@[simp] theorem faultFlag_tap (s : State) (b : Nat) : (faultFlag s b).tap = s.tap := by rw [faultFlag_frame]
@[simp] theorem faultFlag_scanEn (s : State) (b : Nat) : (faultFlag s b).scanEn = s.scanEn := by rw [faultFlag_frame]
@[simp] theorem faultFlag_alive (s : State) (b : Nat) : (faultFlag s b).alive = s.alive := by rw [faultFlag_frame]
@[simp] theorem faultFlag_aliveOn (s : State) (b : Nat) : (faultFlag s b).aliveOn = s.aliveOn := by rw [faultFlag_frame]
@[simp] theorem faultFlag_aliveAt (s : State) (b : Nat) : (faultFlag s b).aliveAt = s.aliveAt := by rw [faultFlag_frame]
@[simp] theorem faultFlag_blockFault (s : State) (b : Nat) : (faultFlag s b).blockFault = s.blockFault := by rw [faultFlag_frame]

theorem pwrFlag_frame (s : State) (b : Nat) :
    pwrFlag s b = { s with regs := (pwrFlag s b).regs, evc := (pwrFlag s b).evc } := by
  unfold pwrFlag; dsimp only; (repeat' split) <;> first | rfl | (rw [raise_frame]; rfl)

/-! ### pwrFlag -/

@[simp] theorem pwrFlag_pending (s : State) (b : Nat) : (pwrFlag s b).pending = s.pending := by rw [pwrFlag_frame]
@[simp] theorem pwrFlag_free (s : State) (b : Nat) : (pwrFlag s b).free = s.free := by rw [pwrFlag_frame]
@[simp] theorem pwrFlag_nextId (s : State) (b : Nat) : (pwrFlag s b).nextId = s.nextId := by rw [pwrFlag_frame]
@[simp] theorem pwrFlag_dram (s : State) (b : Nat) : (pwrFlag s b).dram = s.dram := by rw [pwrFlag_frame]
@[simp] theorem pwrFlag_tick (s : State) (b : Nat) : (pwrFlag s b).tick = s.tick := by rw [pwrFlag_frame]
@[simp] theorem pwrFlag_trefStop (s : State) (b : Nat) : (pwrFlag s b).trefStop = s.trefStop := by rw [pwrFlag_frame]
@[simp] theorem pwrFlag_paceAt (s : State) (b : Nat) : (pwrFlag s b).paceAt = s.paceAt := by rw [pwrFlag_frame]
@[simp] theorem pwrFlag_freqAt (s : State) (b : Nat) : (pwrFlag s b).freqAt = s.freqAt := by rw [pwrFlag_frame]
@[simp] theorem pwrFlag_committed (s : State) (b : Nat) : (pwrFlag s b).committed = s.committed := by rw [pwrFlag_frame]
@[simp] theorem pwrFlag_cpResp (s : State) (b : Nat) : (pwrFlag s b).cpResp = s.cpResp := by rw [pwrFlag_frame]
@[simp] theorem pwrFlag_cpRdata (s : State) (b : Nat) : (pwrFlag s b).cpRdata = s.cpRdata := by rw [pwrFlag_frame]
@[simp] theorem pwrFlag_cpWait (s : State) (b : Nat) : (pwrFlag s b).cpWait = s.cpWait := by rw [pwrFlag_frame]
@[simp] theorem pwrFlag_ctx (s : State) (b : Nat) : (pwrFlag s b).ctx = s.ctx := by rw [pwrFlag_frame]
@[simp] theorem pwrFlag_rings (s : State) (b : Nat) : (pwrFlag s b).rings = s.rings := by rw [pwrFlag_frame]
@[simp] theorem pwrFlag_cmds (s : State) (b : Nat) : (pwrFlag s b).cmds = s.cmds := by rw [pwrFlag_frame]
@[simp] theorem pwrFlag_ports (s : State) (b : Nat) : (pwrFlag s b).ports = s.ports := by rw [pwrFlag_frame]
@[simp] theorem pwrFlag_xfers (s : State) (b : Nat) : (pwrFlag s b).xfers = s.xfers := by rw [pwrFlag_frame]
@[simp] theorem pwrFlag_memHold (s : State) (b : Nat) : (pwrFlag s b).memHold = s.memHold := by rw [pwrFlag_frame]
@[simp] theorem pwrFlag_porstN (s : State) (b : Nat) : (pwrFlag s b).porstN = s.porstN := by rw [pwrFlag_frame]
@[simp] theorem pwrFlag_srstN (s : State) (b : Nat) : (pwrFlag s b).srstN = s.srstN := by rw [pwrFlag_frame]
@[simp] theorem pwrFlag_pfailN (s : State) (b : Nat) : (pwrFlag s b).pfailN = s.pfailN := by rw [pwrFlag_frame]
@[simp] theorem pwrFlag_filled (s : State) (b : Nat) : (pwrFlag s b).filled = s.filled := by rw [pwrFlag_frame]
@[simp] theorem pwrFlag_pools (s : State) (b : Nat) : (pwrFlag s b).pools = s.pools := by rw [pwrFlag_frame]
@[simp] theorem pwrFlag_slots (s : State) (b : Nat) : (pwrFlag s b).slots = s.slots := by rw [pwrFlag_frame]
@[simp] theorem pwrFlag_traces (s : State) (b : Nat) : (pwrFlag s b).traces = s.traces := by rw [pwrFlag_frame]
@[simp] theorem pwrFlag_cfg (s : State) (b : Nat) : (pwrFlag s b).cfg = s.cfg := by rw [pwrFlag_frame]
@[simp] theorem pwrFlag_ozt (s : State) (b : Nat) : (pwrFlag s b).ozt = s.ozt := by rw [pwrFlag_frame]
@[simp] theorem pwrFlag_layouts (s : State) (b : Nat) : (pwrFlag s b).layouts = s.layouts := by rw [pwrFlag_frame]
@[simp] theorem pwrFlag_groups (s : State) (b : Nat) : (pwrFlag s b).groups = s.groups := by rw [pwrFlag_frame]
@[simp] theorem pwrFlag_extents (s : State) (b : Nat) : (pwrFlag s b).extents = s.extents := by rw [pwrFlag_frame]
@[simp] theorem pwrFlag_rows (s : State) (b : Nat) : (pwrFlag s b).rows = s.rows := by rw [pwrFlag_frame]
@[simp] theorem pwrFlag_stagings (s : State) (b : Nat) : (pwrFlag s b).stagings = s.stagings := by rw [pwrFlag_frame]
@[simp] theorem pwrFlag_ops (s : State) (b : Nat) : (pwrFlag s b).ops = s.ops := by rw [pwrFlag_frame]
@[simp] theorem pwrFlag_items (s : State) (b : Nat) : (pwrFlag s b).items = s.items := by rw [pwrFlag_frame]
@[simp] theorem pwrFlag_recons (s : State) (b : Nat) : (pwrFlag s b).recons = s.recons := by rw [pwrFlag_frame]
@[simp] theorem pwrFlag_decs (s : State) (b : Nat) : (pwrFlag s b).decs = s.decs := by rw [pwrFlag_frame]
@[simp] theorem pwrFlag_stes (s : State) (b : Nat) : (pwrFlag s b).stes = s.stes := by rw [pwrFlag_frame]
@[simp] theorem pwrFlag_banks (s : State) (b : Nat) : (pwrFlag s b).banks = s.banks := by rw [pwrFlag_frame]
@[simp] theorem pwrFlag_luns (s : State) (b : Nat) : (pwrFlag s b).luns = s.luns := by rw [pwrFlag_frame]
@[simp] theorem pwrFlag_blks (s : State) (b : Nat) : (pwrFlag s b).blks = s.blks := by rw [pwrFlag_frame]
@[simp] theorem pwrFlag_buses (s : State) (b : Nat) : (pwrFlag s b).buses = s.buses := by rw [pwrFlag_frame]
@[simp] theorem pwrFlag_jrn (s : State) (b : Nat) : (pwrFlag s b).jrn = s.jrn := by rw [pwrFlag_frame]
@[simp] theorem pwrFlag_gov (s : State) (b : Nat) : (pwrFlag s b).gov = s.gov := by rw [pwrFlag_frame]
@[simp] theorem pwrFlag_age (s : State) (b : Nat) : (pwrFlag s b).age = s.age := by rw [pwrFlag_frame]
@[simp] theorem pwrFlag_phys (s : State) (b : Nat) : (pwrFlag s b).phys = s.phys := by rw [pwrFlag_frame]
@[simp] theorem pwrFlag_engines (s : State) (b : Nat) : (pwrFlag s b).engines = s.engines := by rw [pwrFlag_frame]
@[simp] theorem pwrFlag_mems (s : State) (b : Nat) : (pwrFlag s b).mems = s.mems := by rw [pwrFlag_frame]
@[simp] theorem pwrFlag_msrBad (s : State) (b : Nat) : (pwrFlag s b).msrBad = s.msrBad := by rw [pwrFlag_frame]
@[simp] theorem pwrFlag_doms (s : State) (b : Nat) : (pwrFlag s b).doms = s.doms := by rw [pwrFlag_frame]
@[simp] theorem pwrFlag_pwr (s : State) (b : Nat) : (pwrFlag s b).pwr = s.pwr := by rw [pwrFlag_frame]
@[simp] theorem pwrFlag_boot (s : State) (b : Nat) : (pwrFlag s b).boot = s.boot := by rw [pwrFlag_frame]
@[simp] theorem pwrFlag_tap (s : State) (b : Nat) : (pwrFlag s b).tap = s.tap := by rw [pwrFlag_frame]
@[simp] theorem pwrFlag_scanEn (s : State) (b : Nat) : (pwrFlag s b).scanEn = s.scanEn := by rw [pwrFlag_frame]
@[simp] theorem pwrFlag_alive (s : State) (b : Nat) : (pwrFlag s b).alive = s.alive := by rw [pwrFlag_frame]
@[simp] theorem pwrFlag_aliveOn (s : State) (b : Nat) : (pwrFlag s b).aliveOn = s.aliveOn := by rw [pwrFlag_frame]
@[simp] theorem pwrFlag_aliveAt (s : State) (b : Nat) : (pwrFlag s b).aliveAt = s.aliveAt := by rw [pwrFlag_frame]
@[simp] theorem pwrFlag_blockFault (s : State) (b : Nat) : (pwrFlag s b).blockFault = s.blockFault := by rw [pwrFlag_frame]

theorem decPiFlag_frame (s : State) (b : Nat) :
    decPiFlag s b = { s with regs := (decPiFlag s b).regs, evc := (decPiFlag s b).evc } := by
  unfold decPiFlag; rw [raise_frame]; rfl

/-! ### decPiFlag -/

@[simp] theorem decPiFlag_pending (s : State) (b : Nat) : (decPiFlag s b).pending = s.pending := by rw [decPiFlag_frame]
@[simp] theorem decPiFlag_free (s : State) (b : Nat) : (decPiFlag s b).free = s.free := by rw [decPiFlag_frame]
@[simp] theorem decPiFlag_nextId (s : State) (b : Nat) : (decPiFlag s b).nextId = s.nextId := by rw [decPiFlag_frame]
@[simp] theorem decPiFlag_dram (s : State) (b : Nat) : (decPiFlag s b).dram = s.dram := by rw [decPiFlag_frame]
@[simp] theorem decPiFlag_tick (s : State) (b : Nat) : (decPiFlag s b).tick = s.tick := by rw [decPiFlag_frame]
@[simp] theorem decPiFlag_trefStop (s : State) (b : Nat) : (decPiFlag s b).trefStop = s.trefStop := by rw [decPiFlag_frame]
@[simp] theorem decPiFlag_paceAt (s : State) (b : Nat) : (decPiFlag s b).paceAt = s.paceAt := by rw [decPiFlag_frame]
@[simp] theorem decPiFlag_freqAt (s : State) (b : Nat) : (decPiFlag s b).freqAt = s.freqAt := by rw [decPiFlag_frame]
@[simp] theorem decPiFlag_committed (s : State) (b : Nat) : (decPiFlag s b).committed = s.committed := by rw [decPiFlag_frame]
@[simp] theorem decPiFlag_cpResp (s : State) (b : Nat) : (decPiFlag s b).cpResp = s.cpResp := by rw [decPiFlag_frame]
@[simp] theorem decPiFlag_cpRdata (s : State) (b : Nat) : (decPiFlag s b).cpRdata = s.cpRdata := by rw [decPiFlag_frame]
@[simp] theorem decPiFlag_cpWait (s : State) (b : Nat) : (decPiFlag s b).cpWait = s.cpWait := by rw [decPiFlag_frame]
@[simp] theorem decPiFlag_ctx (s : State) (b : Nat) : (decPiFlag s b).ctx = s.ctx := by rw [decPiFlag_frame]
@[simp] theorem decPiFlag_rings (s : State) (b : Nat) : (decPiFlag s b).rings = s.rings := by rw [decPiFlag_frame]
@[simp] theorem decPiFlag_cmds (s : State) (b : Nat) : (decPiFlag s b).cmds = s.cmds := by rw [decPiFlag_frame]
@[simp] theorem decPiFlag_ports (s : State) (b : Nat) : (decPiFlag s b).ports = s.ports := by rw [decPiFlag_frame]
@[simp] theorem decPiFlag_xfers (s : State) (b : Nat) : (decPiFlag s b).xfers = s.xfers := by rw [decPiFlag_frame]
@[simp] theorem decPiFlag_memHold (s : State) (b : Nat) : (decPiFlag s b).memHold = s.memHold := by rw [decPiFlag_frame]
@[simp] theorem decPiFlag_porstN (s : State) (b : Nat) : (decPiFlag s b).porstN = s.porstN := by rw [decPiFlag_frame]
@[simp] theorem decPiFlag_srstN (s : State) (b : Nat) : (decPiFlag s b).srstN = s.srstN := by rw [decPiFlag_frame]
@[simp] theorem decPiFlag_pfailN (s : State) (b : Nat) : (decPiFlag s b).pfailN = s.pfailN := by rw [decPiFlag_frame]
@[simp] theorem decPiFlag_filled (s : State) (b : Nat) : (decPiFlag s b).filled = s.filled := by rw [decPiFlag_frame]
@[simp] theorem decPiFlag_pools (s : State) (b : Nat) : (decPiFlag s b).pools = s.pools := by rw [decPiFlag_frame]
@[simp] theorem decPiFlag_slots (s : State) (b : Nat) : (decPiFlag s b).slots = s.slots := by rw [decPiFlag_frame]
@[simp] theorem decPiFlag_traces (s : State) (b : Nat) : (decPiFlag s b).traces = s.traces := by rw [decPiFlag_frame]
@[simp] theorem decPiFlag_cfg (s : State) (b : Nat) : (decPiFlag s b).cfg = s.cfg := by rw [decPiFlag_frame]
@[simp] theorem decPiFlag_ozt (s : State) (b : Nat) : (decPiFlag s b).ozt = s.ozt := by rw [decPiFlag_frame]
@[simp] theorem decPiFlag_layouts (s : State) (b : Nat) : (decPiFlag s b).layouts = s.layouts := by rw [decPiFlag_frame]
@[simp] theorem decPiFlag_groups (s : State) (b : Nat) : (decPiFlag s b).groups = s.groups := by rw [decPiFlag_frame]
@[simp] theorem decPiFlag_extents (s : State) (b : Nat) : (decPiFlag s b).extents = s.extents := by rw [decPiFlag_frame]
@[simp] theorem decPiFlag_rows (s : State) (b : Nat) : (decPiFlag s b).rows = s.rows := by rw [decPiFlag_frame]
@[simp] theorem decPiFlag_stagings (s : State) (b : Nat) : (decPiFlag s b).stagings = s.stagings := by rw [decPiFlag_frame]
@[simp] theorem decPiFlag_ops (s : State) (b : Nat) : (decPiFlag s b).ops = s.ops := by rw [decPiFlag_frame]
@[simp] theorem decPiFlag_items (s : State) (b : Nat) : (decPiFlag s b).items = s.items := by rw [decPiFlag_frame]
@[simp] theorem decPiFlag_recons (s : State) (b : Nat) : (decPiFlag s b).recons = s.recons := by rw [decPiFlag_frame]
@[simp] theorem decPiFlag_decs (s : State) (b : Nat) : (decPiFlag s b).decs = s.decs := by rw [decPiFlag_frame]
@[simp] theorem decPiFlag_stes (s : State) (b : Nat) : (decPiFlag s b).stes = s.stes := by rw [decPiFlag_frame]
@[simp] theorem decPiFlag_banks (s : State) (b : Nat) : (decPiFlag s b).banks = s.banks := by rw [decPiFlag_frame]
@[simp] theorem decPiFlag_luns (s : State) (b : Nat) : (decPiFlag s b).luns = s.luns := by rw [decPiFlag_frame]
@[simp] theorem decPiFlag_blks (s : State) (b : Nat) : (decPiFlag s b).blks = s.blks := by rw [decPiFlag_frame]
@[simp] theorem decPiFlag_buses (s : State) (b : Nat) : (decPiFlag s b).buses = s.buses := by rw [decPiFlag_frame]
@[simp] theorem decPiFlag_jrn (s : State) (b : Nat) : (decPiFlag s b).jrn = s.jrn := by rw [decPiFlag_frame]
@[simp] theorem decPiFlag_gov (s : State) (b : Nat) : (decPiFlag s b).gov = s.gov := by rw [decPiFlag_frame]
@[simp] theorem decPiFlag_age (s : State) (b : Nat) : (decPiFlag s b).age = s.age := by rw [decPiFlag_frame]
@[simp] theorem decPiFlag_phys (s : State) (b : Nat) : (decPiFlag s b).phys = s.phys := by rw [decPiFlag_frame]
@[simp] theorem decPiFlag_engines (s : State) (b : Nat) : (decPiFlag s b).engines = s.engines := by rw [decPiFlag_frame]
@[simp] theorem decPiFlag_mems (s : State) (b : Nat) : (decPiFlag s b).mems = s.mems := by rw [decPiFlag_frame]
@[simp] theorem decPiFlag_msrBad (s : State) (b : Nat) : (decPiFlag s b).msrBad = s.msrBad := by rw [decPiFlag_frame]
@[simp] theorem decPiFlag_doms (s : State) (b : Nat) : (decPiFlag s b).doms = s.doms := by rw [decPiFlag_frame]
@[simp] theorem decPiFlag_pwr (s : State) (b : Nat) : (decPiFlag s b).pwr = s.pwr := by rw [decPiFlag_frame]
@[simp] theorem decPiFlag_boot (s : State) (b : Nat) : (decPiFlag s b).boot = s.boot := by rw [decPiFlag_frame]
@[simp] theorem decPiFlag_tap (s : State) (b : Nat) : (decPiFlag s b).tap = s.tap := by rw [decPiFlag_frame]
@[simp] theorem decPiFlag_scanEn (s : State) (b : Nat) : (decPiFlag s b).scanEn = s.scanEn := by rw [decPiFlag_frame]
@[simp] theorem decPiFlag_alive (s : State) (b : Nat) : (decPiFlag s b).alive = s.alive := by rw [decPiFlag_frame]
@[simp] theorem decPiFlag_aliveOn (s : State) (b : Nat) : (decPiFlag s b).aliveOn = s.aliveOn := by rw [decPiFlag_frame]
@[simp] theorem decPiFlag_aliveAt (s : State) (b : Nat) : (decPiFlag s b).aliveAt = s.aliveAt := by rw [decPiFlag_frame]
@[simp] theorem decPiFlag_blockFault (s : State) (b : Nat) : (decPiFlag s b).blockFault = s.blockFault := by rw [decPiFlag_frame]

theorem jrnFlag_frame (s : State) (b : Nat) :
    jrnFlag s b = { s with regs := (jrnFlag s b).regs, evc := (jrnFlag s b).evc } := by
  unfold jrnFlag; dsimp only; (repeat' split) <;> first | rfl | (rw [raise_frame]; rfl)

/-! ### jrnFlag -/

@[simp] theorem jrnFlag_pending (s : State) (b : Nat) : (jrnFlag s b).pending = s.pending := by rw [jrnFlag_frame]
@[simp] theorem jrnFlag_free (s : State) (b : Nat) : (jrnFlag s b).free = s.free := by rw [jrnFlag_frame]
@[simp] theorem jrnFlag_nextId (s : State) (b : Nat) : (jrnFlag s b).nextId = s.nextId := by rw [jrnFlag_frame]
@[simp] theorem jrnFlag_dram (s : State) (b : Nat) : (jrnFlag s b).dram = s.dram := by rw [jrnFlag_frame]
@[simp] theorem jrnFlag_tick (s : State) (b : Nat) : (jrnFlag s b).tick = s.tick := by rw [jrnFlag_frame]
@[simp] theorem jrnFlag_trefStop (s : State) (b : Nat) : (jrnFlag s b).trefStop = s.trefStop := by rw [jrnFlag_frame]
@[simp] theorem jrnFlag_paceAt (s : State) (b : Nat) : (jrnFlag s b).paceAt = s.paceAt := by rw [jrnFlag_frame]
@[simp] theorem jrnFlag_freqAt (s : State) (b : Nat) : (jrnFlag s b).freqAt = s.freqAt := by rw [jrnFlag_frame]
@[simp] theorem jrnFlag_committed (s : State) (b : Nat) : (jrnFlag s b).committed = s.committed := by rw [jrnFlag_frame]
@[simp] theorem jrnFlag_cpResp (s : State) (b : Nat) : (jrnFlag s b).cpResp = s.cpResp := by rw [jrnFlag_frame]
@[simp] theorem jrnFlag_cpRdata (s : State) (b : Nat) : (jrnFlag s b).cpRdata = s.cpRdata := by rw [jrnFlag_frame]
@[simp] theorem jrnFlag_cpWait (s : State) (b : Nat) : (jrnFlag s b).cpWait = s.cpWait := by rw [jrnFlag_frame]
@[simp] theorem jrnFlag_ctx (s : State) (b : Nat) : (jrnFlag s b).ctx = s.ctx := by rw [jrnFlag_frame]
@[simp] theorem jrnFlag_rings (s : State) (b : Nat) : (jrnFlag s b).rings = s.rings := by rw [jrnFlag_frame]
@[simp] theorem jrnFlag_cmds (s : State) (b : Nat) : (jrnFlag s b).cmds = s.cmds := by rw [jrnFlag_frame]
@[simp] theorem jrnFlag_ports (s : State) (b : Nat) : (jrnFlag s b).ports = s.ports := by rw [jrnFlag_frame]
@[simp] theorem jrnFlag_xfers (s : State) (b : Nat) : (jrnFlag s b).xfers = s.xfers := by rw [jrnFlag_frame]
@[simp] theorem jrnFlag_memHold (s : State) (b : Nat) : (jrnFlag s b).memHold = s.memHold := by rw [jrnFlag_frame]
@[simp] theorem jrnFlag_porstN (s : State) (b : Nat) : (jrnFlag s b).porstN = s.porstN := by rw [jrnFlag_frame]
@[simp] theorem jrnFlag_srstN (s : State) (b : Nat) : (jrnFlag s b).srstN = s.srstN := by rw [jrnFlag_frame]
@[simp] theorem jrnFlag_pfailN (s : State) (b : Nat) : (jrnFlag s b).pfailN = s.pfailN := by rw [jrnFlag_frame]
@[simp] theorem jrnFlag_filled (s : State) (b : Nat) : (jrnFlag s b).filled = s.filled := by rw [jrnFlag_frame]
@[simp] theorem jrnFlag_pools (s : State) (b : Nat) : (jrnFlag s b).pools = s.pools := by rw [jrnFlag_frame]
@[simp] theorem jrnFlag_slots (s : State) (b : Nat) : (jrnFlag s b).slots = s.slots := by rw [jrnFlag_frame]
@[simp] theorem jrnFlag_traces (s : State) (b : Nat) : (jrnFlag s b).traces = s.traces := by rw [jrnFlag_frame]
@[simp] theorem jrnFlag_cfg (s : State) (b : Nat) : (jrnFlag s b).cfg = s.cfg := by rw [jrnFlag_frame]
@[simp] theorem jrnFlag_ozt (s : State) (b : Nat) : (jrnFlag s b).ozt = s.ozt := by rw [jrnFlag_frame]
@[simp] theorem jrnFlag_layouts (s : State) (b : Nat) : (jrnFlag s b).layouts = s.layouts := by rw [jrnFlag_frame]
@[simp] theorem jrnFlag_groups (s : State) (b : Nat) : (jrnFlag s b).groups = s.groups := by rw [jrnFlag_frame]
@[simp] theorem jrnFlag_extents (s : State) (b : Nat) : (jrnFlag s b).extents = s.extents := by rw [jrnFlag_frame]
@[simp] theorem jrnFlag_rows (s : State) (b : Nat) : (jrnFlag s b).rows = s.rows := by rw [jrnFlag_frame]
@[simp] theorem jrnFlag_stagings (s : State) (b : Nat) : (jrnFlag s b).stagings = s.stagings := by rw [jrnFlag_frame]
@[simp] theorem jrnFlag_ops (s : State) (b : Nat) : (jrnFlag s b).ops = s.ops := by rw [jrnFlag_frame]
@[simp] theorem jrnFlag_items (s : State) (b : Nat) : (jrnFlag s b).items = s.items := by rw [jrnFlag_frame]
@[simp] theorem jrnFlag_recons (s : State) (b : Nat) : (jrnFlag s b).recons = s.recons := by rw [jrnFlag_frame]
@[simp] theorem jrnFlag_decs (s : State) (b : Nat) : (jrnFlag s b).decs = s.decs := by rw [jrnFlag_frame]
@[simp] theorem jrnFlag_stes (s : State) (b : Nat) : (jrnFlag s b).stes = s.stes := by rw [jrnFlag_frame]
@[simp] theorem jrnFlag_banks (s : State) (b : Nat) : (jrnFlag s b).banks = s.banks := by rw [jrnFlag_frame]
@[simp] theorem jrnFlag_luns (s : State) (b : Nat) : (jrnFlag s b).luns = s.luns := by rw [jrnFlag_frame]
@[simp] theorem jrnFlag_blks (s : State) (b : Nat) : (jrnFlag s b).blks = s.blks := by rw [jrnFlag_frame]
@[simp] theorem jrnFlag_buses (s : State) (b : Nat) : (jrnFlag s b).buses = s.buses := by rw [jrnFlag_frame]
@[simp] theorem jrnFlag_jrn (s : State) (b : Nat) : (jrnFlag s b).jrn = s.jrn := by rw [jrnFlag_frame]
@[simp] theorem jrnFlag_gov (s : State) (b : Nat) : (jrnFlag s b).gov = s.gov := by rw [jrnFlag_frame]
@[simp] theorem jrnFlag_age (s : State) (b : Nat) : (jrnFlag s b).age = s.age := by rw [jrnFlag_frame]
@[simp] theorem jrnFlag_phys (s : State) (b : Nat) : (jrnFlag s b).phys = s.phys := by rw [jrnFlag_frame]
@[simp] theorem jrnFlag_engines (s : State) (b : Nat) : (jrnFlag s b).engines = s.engines := by rw [jrnFlag_frame]
@[simp] theorem jrnFlag_mems (s : State) (b : Nat) : (jrnFlag s b).mems = s.mems := by rw [jrnFlag_frame]
@[simp] theorem jrnFlag_msrBad (s : State) (b : Nat) : (jrnFlag s b).msrBad = s.msrBad := by rw [jrnFlag_frame]
@[simp] theorem jrnFlag_doms (s : State) (b : Nat) : (jrnFlag s b).doms = s.doms := by rw [jrnFlag_frame]
@[simp] theorem jrnFlag_pwr (s : State) (b : Nat) : (jrnFlag s b).pwr = s.pwr := by rw [jrnFlag_frame]
@[simp] theorem jrnFlag_boot (s : State) (b : Nat) : (jrnFlag s b).boot = s.boot := by rw [jrnFlag_frame]
@[simp] theorem jrnFlag_tap (s : State) (b : Nat) : (jrnFlag s b).tap = s.tap := by rw [jrnFlag_frame]
@[simp] theorem jrnFlag_scanEn (s : State) (b : Nat) : (jrnFlag s b).scanEn = s.scanEn := by rw [jrnFlag_frame]
@[simp] theorem jrnFlag_alive (s : State) (b : Nat) : (jrnFlag s b).alive = s.alive := by rw [jrnFlag_frame]
@[simp] theorem jrnFlag_aliveOn (s : State) (b : Nat) : (jrnFlag s b).aliveOn = s.aliveOn := by rw [jrnFlag_frame]
@[simp] theorem jrnFlag_aliveAt (s : State) (b : Nat) : (jrnFlag s b).aliveAt = s.aliveAt := by rw [jrnFlag_frame]
@[simp] theorem jrnFlag_blockFault (s : State) (b : Nat) : (jrnFlag s b).blockFault = s.blockFault := by rw [jrnFlag_frame]

theorem maintFlag_frame (s : State) (b : Nat) :
    maintFlag s b = { s with regs := (maintFlag s b).regs, evc := (maintFlag s b).evc } := by
  unfold maintFlag; dsimp only; (repeat' split) <;> first | rfl | (rw [raise_frame]; rfl)

/-! ### maintFlag -/

@[simp] theorem maintFlag_pending (s : State) (b : Nat) : (maintFlag s b).pending = s.pending := by rw [maintFlag_frame]
@[simp] theorem maintFlag_free (s : State) (b : Nat) : (maintFlag s b).free = s.free := by rw [maintFlag_frame]
@[simp] theorem maintFlag_nextId (s : State) (b : Nat) : (maintFlag s b).nextId = s.nextId := by rw [maintFlag_frame]
@[simp] theorem maintFlag_dram (s : State) (b : Nat) : (maintFlag s b).dram = s.dram := by rw [maintFlag_frame]
@[simp] theorem maintFlag_tick (s : State) (b : Nat) : (maintFlag s b).tick = s.tick := by rw [maintFlag_frame]
@[simp] theorem maintFlag_trefStop (s : State) (b : Nat) : (maintFlag s b).trefStop = s.trefStop := by rw [maintFlag_frame]
@[simp] theorem maintFlag_paceAt (s : State) (b : Nat) : (maintFlag s b).paceAt = s.paceAt := by rw [maintFlag_frame]
@[simp] theorem maintFlag_freqAt (s : State) (b : Nat) : (maintFlag s b).freqAt = s.freqAt := by rw [maintFlag_frame]
@[simp] theorem maintFlag_committed (s : State) (b : Nat) : (maintFlag s b).committed = s.committed := by rw [maintFlag_frame]
@[simp] theorem maintFlag_cpResp (s : State) (b : Nat) : (maintFlag s b).cpResp = s.cpResp := by rw [maintFlag_frame]
@[simp] theorem maintFlag_cpRdata (s : State) (b : Nat) : (maintFlag s b).cpRdata = s.cpRdata := by rw [maintFlag_frame]
@[simp] theorem maintFlag_cpWait (s : State) (b : Nat) : (maintFlag s b).cpWait = s.cpWait := by rw [maintFlag_frame]
@[simp] theorem maintFlag_ctx (s : State) (b : Nat) : (maintFlag s b).ctx = s.ctx := by rw [maintFlag_frame]
@[simp] theorem maintFlag_rings (s : State) (b : Nat) : (maintFlag s b).rings = s.rings := by rw [maintFlag_frame]
@[simp] theorem maintFlag_cmds (s : State) (b : Nat) : (maintFlag s b).cmds = s.cmds := by rw [maintFlag_frame]
@[simp] theorem maintFlag_ports (s : State) (b : Nat) : (maintFlag s b).ports = s.ports := by rw [maintFlag_frame]
@[simp] theorem maintFlag_xfers (s : State) (b : Nat) : (maintFlag s b).xfers = s.xfers := by rw [maintFlag_frame]
@[simp] theorem maintFlag_memHold (s : State) (b : Nat) : (maintFlag s b).memHold = s.memHold := by rw [maintFlag_frame]
@[simp] theorem maintFlag_porstN (s : State) (b : Nat) : (maintFlag s b).porstN = s.porstN := by rw [maintFlag_frame]
@[simp] theorem maintFlag_srstN (s : State) (b : Nat) : (maintFlag s b).srstN = s.srstN := by rw [maintFlag_frame]
@[simp] theorem maintFlag_pfailN (s : State) (b : Nat) : (maintFlag s b).pfailN = s.pfailN := by rw [maintFlag_frame]
@[simp] theorem maintFlag_filled (s : State) (b : Nat) : (maintFlag s b).filled = s.filled := by rw [maintFlag_frame]
@[simp] theorem maintFlag_pools (s : State) (b : Nat) : (maintFlag s b).pools = s.pools := by rw [maintFlag_frame]
@[simp] theorem maintFlag_slots (s : State) (b : Nat) : (maintFlag s b).slots = s.slots := by rw [maintFlag_frame]
@[simp] theorem maintFlag_traces (s : State) (b : Nat) : (maintFlag s b).traces = s.traces := by rw [maintFlag_frame]
@[simp] theorem maintFlag_cfg (s : State) (b : Nat) : (maintFlag s b).cfg = s.cfg := by rw [maintFlag_frame]
@[simp] theorem maintFlag_ozt (s : State) (b : Nat) : (maintFlag s b).ozt = s.ozt := by rw [maintFlag_frame]
@[simp] theorem maintFlag_layouts (s : State) (b : Nat) : (maintFlag s b).layouts = s.layouts := by rw [maintFlag_frame]
@[simp] theorem maintFlag_groups (s : State) (b : Nat) : (maintFlag s b).groups = s.groups := by rw [maintFlag_frame]
@[simp] theorem maintFlag_extents (s : State) (b : Nat) : (maintFlag s b).extents = s.extents := by rw [maintFlag_frame]
@[simp] theorem maintFlag_rows (s : State) (b : Nat) : (maintFlag s b).rows = s.rows := by rw [maintFlag_frame]
@[simp] theorem maintFlag_stagings (s : State) (b : Nat) : (maintFlag s b).stagings = s.stagings := by rw [maintFlag_frame]
@[simp] theorem maintFlag_ops (s : State) (b : Nat) : (maintFlag s b).ops = s.ops := by rw [maintFlag_frame]
@[simp] theorem maintFlag_items (s : State) (b : Nat) : (maintFlag s b).items = s.items := by rw [maintFlag_frame]
@[simp] theorem maintFlag_recons (s : State) (b : Nat) : (maintFlag s b).recons = s.recons := by rw [maintFlag_frame]
@[simp] theorem maintFlag_decs (s : State) (b : Nat) : (maintFlag s b).decs = s.decs := by rw [maintFlag_frame]
@[simp] theorem maintFlag_stes (s : State) (b : Nat) : (maintFlag s b).stes = s.stes := by rw [maintFlag_frame]
@[simp] theorem maintFlag_banks (s : State) (b : Nat) : (maintFlag s b).banks = s.banks := by rw [maintFlag_frame]
@[simp] theorem maintFlag_luns (s : State) (b : Nat) : (maintFlag s b).luns = s.luns := by rw [maintFlag_frame]
@[simp] theorem maintFlag_blks (s : State) (b : Nat) : (maintFlag s b).blks = s.blks := by rw [maintFlag_frame]
@[simp] theorem maintFlag_buses (s : State) (b : Nat) : (maintFlag s b).buses = s.buses := by rw [maintFlag_frame]
@[simp] theorem maintFlag_jrn (s : State) (b : Nat) : (maintFlag s b).jrn = s.jrn := by rw [maintFlag_frame]
@[simp] theorem maintFlag_gov (s : State) (b : Nat) : (maintFlag s b).gov = s.gov := by rw [maintFlag_frame]
@[simp] theorem maintFlag_age (s : State) (b : Nat) : (maintFlag s b).age = s.age := by rw [maintFlag_frame]
@[simp] theorem maintFlag_phys (s : State) (b : Nat) : (maintFlag s b).phys = s.phys := by rw [maintFlag_frame]
@[simp] theorem maintFlag_engines (s : State) (b : Nat) : (maintFlag s b).engines = s.engines := by rw [maintFlag_frame]
@[simp] theorem maintFlag_mems (s : State) (b : Nat) : (maintFlag s b).mems = s.mems := by rw [maintFlag_frame]
@[simp] theorem maintFlag_msrBad (s : State) (b : Nat) : (maintFlag s b).msrBad = s.msrBad := by rw [maintFlag_frame]
@[simp] theorem maintFlag_doms (s : State) (b : Nat) : (maintFlag s b).doms = s.doms := by rw [maintFlag_frame]
@[simp] theorem maintFlag_pwr (s : State) (b : Nat) : (maintFlag s b).pwr = s.pwr := by rw [maintFlag_frame]
@[simp] theorem maintFlag_boot (s : State) (b : Nat) : (maintFlag s b).boot = s.boot := by rw [maintFlag_frame]
@[simp] theorem maintFlag_tap (s : State) (b : Nat) : (maintFlag s b).tap = s.tap := by rw [maintFlag_frame]
@[simp] theorem maintFlag_scanEn (s : State) (b : Nat) : (maintFlag s b).scanEn = s.scanEn := by rw [maintFlag_frame]
@[simp] theorem maintFlag_alive (s : State) (b : Nat) : (maintFlag s b).alive = s.alive := by rw [maintFlag_frame]
@[simp] theorem maintFlag_aliveOn (s : State) (b : Nat) : (maintFlag s b).aliveOn = s.aliveOn := by rw [maintFlag_frame]
@[simp] theorem maintFlag_aliveAt (s : State) (b : Nat) : (maintFlag s b).aliveAt = s.aliveAt := by rw [maintFlag_frame]
@[simp] theorem maintFlag_blockFault (s : State) (b : Nat) : (maintFlag s b).blockFault = s.blockFault := by rw [maintFlag_frame]

theorem govFlag_frame (s : State) (b : Nat) :
    govFlag s b = { s with regs := (govFlag s b).regs, evc := (govFlag s b).evc } := by
  unfold govFlag; dsimp only; (repeat' split) <;> first | rfl | (rw [raise_frame]; rfl)

/-! ### govFlag -/

@[simp] theorem govFlag_pending (s : State) (b : Nat) : (govFlag s b).pending = s.pending := by rw [govFlag_frame]
@[simp] theorem govFlag_free (s : State) (b : Nat) : (govFlag s b).free = s.free := by rw [govFlag_frame]
@[simp] theorem govFlag_nextId (s : State) (b : Nat) : (govFlag s b).nextId = s.nextId := by rw [govFlag_frame]
@[simp] theorem govFlag_dram (s : State) (b : Nat) : (govFlag s b).dram = s.dram := by rw [govFlag_frame]
@[simp] theorem govFlag_tick (s : State) (b : Nat) : (govFlag s b).tick = s.tick := by rw [govFlag_frame]
@[simp] theorem govFlag_trefStop (s : State) (b : Nat) : (govFlag s b).trefStop = s.trefStop := by rw [govFlag_frame]
@[simp] theorem govFlag_paceAt (s : State) (b : Nat) : (govFlag s b).paceAt = s.paceAt := by rw [govFlag_frame]
@[simp] theorem govFlag_freqAt (s : State) (b : Nat) : (govFlag s b).freqAt = s.freqAt := by rw [govFlag_frame]
@[simp] theorem govFlag_committed (s : State) (b : Nat) : (govFlag s b).committed = s.committed := by rw [govFlag_frame]
@[simp] theorem govFlag_cpResp (s : State) (b : Nat) : (govFlag s b).cpResp = s.cpResp := by rw [govFlag_frame]
@[simp] theorem govFlag_cpRdata (s : State) (b : Nat) : (govFlag s b).cpRdata = s.cpRdata := by rw [govFlag_frame]
@[simp] theorem govFlag_cpWait (s : State) (b : Nat) : (govFlag s b).cpWait = s.cpWait := by rw [govFlag_frame]
@[simp] theorem govFlag_ctx (s : State) (b : Nat) : (govFlag s b).ctx = s.ctx := by rw [govFlag_frame]
@[simp] theorem govFlag_rings (s : State) (b : Nat) : (govFlag s b).rings = s.rings := by rw [govFlag_frame]
@[simp] theorem govFlag_cmds (s : State) (b : Nat) : (govFlag s b).cmds = s.cmds := by rw [govFlag_frame]
@[simp] theorem govFlag_ports (s : State) (b : Nat) : (govFlag s b).ports = s.ports := by rw [govFlag_frame]
@[simp] theorem govFlag_xfers (s : State) (b : Nat) : (govFlag s b).xfers = s.xfers := by rw [govFlag_frame]
@[simp] theorem govFlag_memHold (s : State) (b : Nat) : (govFlag s b).memHold = s.memHold := by rw [govFlag_frame]
@[simp] theorem govFlag_porstN (s : State) (b : Nat) : (govFlag s b).porstN = s.porstN := by rw [govFlag_frame]
@[simp] theorem govFlag_srstN (s : State) (b : Nat) : (govFlag s b).srstN = s.srstN := by rw [govFlag_frame]
@[simp] theorem govFlag_pfailN (s : State) (b : Nat) : (govFlag s b).pfailN = s.pfailN := by rw [govFlag_frame]
@[simp] theorem govFlag_filled (s : State) (b : Nat) : (govFlag s b).filled = s.filled := by rw [govFlag_frame]
@[simp] theorem govFlag_pools (s : State) (b : Nat) : (govFlag s b).pools = s.pools := by rw [govFlag_frame]
@[simp] theorem govFlag_slots (s : State) (b : Nat) : (govFlag s b).slots = s.slots := by rw [govFlag_frame]
@[simp] theorem govFlag_traces (s : State) (b : Nat) : (govFlag s b).traces = s.traces := by rw [govFlag_frame]
@[simp] theorem govFlag_cfg (s : State) (b : Nat) : (govFlag s b).cfg = s.cfg := by rw [govFlag_frame]
@[simp] theorem govFlag_ozt (s : State) (b : Nat) : (govFlag s b).ozt = s.ozt := by rw [govFlag_frame]
@[simp] theorem govFlag_layouts (s : State) (b : Nat) : (govFlag s b).layouts = s.layouts := by rw [govFlag_frame]
@[simp] theorem govFlag_groups (s : State) (b : Nat) : (govFlag s b).groups = s.groups := by rw [govFlag_frame]
@[simp] theorem govFlag_extents (s : State) (b : Nat) : (govFlag s b).extents = s.extents := by rw [govFlag_frame]
@[simp] theorem govFlag_rows (s : State) (b : Nat) : (govFlag s b).rows = s.rows := by rw [govFlag_frame]
@[simp] theorem govFlag_stagings (s : State) (b : Nat) : (govFlag s b).stagings = s.stagings := by rw [govFlag_frame]
@[simp] theorem govFlag_ops (s : State) (b : Nat) : (govFlag s b).ops = s.ops := by rw [govFlag_frame]
@[simp] theorem govFlag_items (s : State) (b : Nat) : (govFlag s b).items = s.items := by rw [govFlag_frame]
@[simp] theorem govFlag_recons (s : State) (b : Nat) : (govFlag s b).recons = s.recons := by rw [govFlag_frame]
@[simp] theorem govFlag_decs (s : State) (b : Nat) : (govFlag s b).decs = s.decs := by rw [govFlag_frame]
@[simp] theorem govFlag_stes (s : State) (b : Nat) : (govFlag s b).stes = s.stes := by rw [govFlag_frame]
@[simp] theorem govFlag_banks (s : State) (b : Nat) : (govFlag s b).banks = s.banks := by rw [govFlag_frame]
@[simp] theorem govFlag_luns (s : State) (b : Nat) : (govFlag s b).luns = s.luns := by rw [govFlag_frame]
@[simp] theorem govFlag_blks (s : State) (b : Nat) : (govFlag s b).blks = s.blks := by rw [govFlag_frame]
@[simp] theorem govFlag_buses (s : State) (b : Nat) : (govFlag s b).buses = s.buses := by rw [govFlag_frame]
@[simp] theorem govFlag_jrn (s : State) (b : Nat) : (govFlag s b).jrn = s.jrn := by rw [govFlag_frame]
@[simp] theorem govFlag_gov (s : State) (b : Nat) : (govFlag s b).gov = s.gov := by rw [govFlag_frame]
@[simp] theorem govFlag_age (s : State) (b : Nat) : (govFlag s b).age = s.age := by rw [govFlag_frame]
@[simp] theorem govFlag_phys (s : State) (b : Nat) : (govFlag s b).phys = s.phys := by rw [govFlag_frame]
@[simp] theorem govFlag_engines (s : State) (b : Nat) : (govFlag s b).engines = s.engines := by rw [govFlag_frame]
@[simp] theorem govFlag_mems (s : State) (b : Nat) : (govFlag s b).mems = s.mems := by rw [govFlag_frame]
@[simp] theorem govFlag_msrBad (s : State) (b : Nat) : (govFlag s b).msrBad = s.msrBad := by rw [govFlag_frame]
@[simp] theorem govFlag_doms (s : State) (b : Nat) : (govFlag s b).doms = s.doms := by rw [govFlag_frame]
@[simp] theorem govFlag_pwr (s : State) (b : Nat) : (govFlag s b).pwr = s.pwr := by rw [govFlag_frame]
@[simp] theorem govFlag_boot (s : State) (b : Nat) : (govFlag s b).boot = s.boot := by rw [govFlag_frame]
@[simp] theorem govFlag_tap (s : State) (b : Nat) : (govFlag s b).tap = s.tap := by rw [govFlag_frame]
@[simp] theorem govFlag_scanEn (s : State) (b : Nat) : (govFlag s b).scanEn = s.scanEn := by rw [govFlag_frame]
@[simp] theorem govFlag_alive (s : State) (b : Nat) : (govFlag s b).alive = s.alive := by rw [govFlag_frame]
@[simp] theorem govFlag_aliveOn (s : State) (b : Nat) : (govFlag s b).aliveOn = s.aliveOn := by rw [govFlag_frame]
@[simp] theorem govFlag_aliveAt (s : State) (b : Nat) : (govFlag s b).aliveAt = s.aliveAt := by rw [govFlag_frame]
@[simp] theorem govFlag_blockFault (s : State) (b : Nat) : (govFlag s b).blockFault = s.blockFault := by rw [govFlag_frame]

theorem ageFlag_frame (s : State) (b : Nat) :
    ageFlag s b = { s with regs := (ageFlag s b).regs, evc := (ageFlag s b).evc } := by
  unfold ageFlag; dsimp only; (repeat' split) <;> first | rfl | (rw [raise_frame]; rfl)

/-! ### ageFlag -/

@[simp] theorem ageFlag_pending (s : State) (b : Nat) : (ageFlag s b).pending = s.pending := by rw [ageFlag_frame]
@[simp] theorem ageFlag_free (s : State) (b : Nat) : (ageFlag s b).free = s.free := by rw [ageFlag_frame]
@[simp] theorem ageFlag_nextId (s : State) (b : Nat) : (ageFlag s b).nextId = s.nextId := by rw [ageFlag_frame]
@[simp] theorem ageFlag_dram (s : State) (b : Nat) : (ageFlag s b).dram = s.dram := by rw [ageFlag_frame]
@[simp] theorem ageFlag_tick (s : State) (b : Nat) : (ageFlag s b).tick = s.tick := by rw [ageFlag_frame]
@[simp] theorem ageFlag_trefStop (s : State) (b : Nat) : (ageFlag s b).trefStop = s.trefStop := by rw [ageFlag_frame]
@[simp] theorem ageFlag_paceAt (s : State) (b : Nat) : (ageFlag s b).paceAt = s.paceAt := by rw [ageFlag_frame]
@[simp] theorem ageFlag_freqAt (s : State) (b : Nat) : (ageFlag s b).freqAt = s.freqAt := by rw [ageFlag_frame]
@[simp] theorem ageFlag_committed (s : State) (b : Nat) : (ageFlag s b).committed = s.committed := by rw [ageFlag_frame]
@[simp] theorem ageFlag_cpResp (s : State) (b : Nat) : (ageFlag s b).cpResp = s.cpResp := by rw [ageFlag_frame]
@[simp] theorem ageFlag_cpRdata (s : State) (b : Nat) : (ageFlag s b).cpRdata = s.cpRdata := by rw [ageFlag_frame]
@[simp] theorem ageFlag_cpWait (s : State) (b : Nat) : (ageFlag s b).cpWait = s.cpWait := by rw [ageFlag_frame]
@[simp] theorem ageFlag_ctx (s : State) (b : Nat) : (ageFlag s b).ctx = s.ctx := by rw [ageFlag_frame]
@[simp] theorem ageFlag_rings (s : State) (b : Nat) : (ageFlag s b).rings = s.rings := by rw [ageFlag_frame]
@[simp] theorem ageFlag_cmds (s : State) (b : Nat) : (ageFlag s b).cmds = s.cmds := by rw [ageFlag_frame]
@[simp] theorem ageFlag_ports (s : State) (b : Nat) : (ageFlag s b).ports = s.ports := by rw [ageFlag_frame]
@[simp] theorem ageFlag_xfers (s : State) (b : Nat) : (ageFlag s b).xfers = s.xfers := by rw [ageFlag_frame]
@[simp] theorem ageFlag_memHold (s : State) (b : Nat) : (ageFlag s b).memHold = s.memHold := by rw [ageFlag_frame]
@[simp] theorem ageFlag_porstN (s : State) (b : Nat) : (ageFlag s b).porstN = s.porstN := by rw [ageFlag_frame]
@[simp] theorem ageFlag_srstN (s : State) (b : Nat) : (ageFlag s b).srstN = s.srstN := by rw [ageFlag_frame]
@[simp] theorem ageFlag_pfailN (s : State) (b : Nat) : (ageFlag s b).pfailN = s.pfailN := by rw [ageFlag_frame]
@[simp] theorem ageFlag_filled (s : State) (b : Nat) : (ageFlag s b).filled = s.filled := by rw [ageFlag_frame]
@[simp] theorem ageFlag_pools (s : State) (b : Nat) : (ageFlag s b).pools = s.pools := by rw [ageFlag_frame]
@[simp] theorem ageFlag_slots (s : State) (b : Nat) : (ageFlag s b).slots = s.slots := by rw [ageFlag_frame]
@[simp] theorem ageFlag_traces (s : State) (b : Nat) : (ageFlag s b).traces = s.traces := by rw [ageFlag_frame]
@[simp] theorem ageFlag_cfg (s : State) (b : Nat) : (ageFlag s b).cfg = s.cfg := by rw [ageFlag_frame]
@[simp] theorem ageFlag_ozt (s : State) (b : Nat) : (ageFlag s b).ozt = s.ozt := by rw [ageFlag_frame]
@[simp] theorem ageFlag_layouts (s : State) (b : Nat) : (ageFlag s b).layouts = s.layouts := by rw [ageFlag_frame]
@[simp] theorem ageFlag_groups (s : State) (b : Nat) : (ageFlag s b).groups = s.groups := by rw [ageFlag_frame]
@[simp] theorem ageFlag_extents (s : State) (b : Nat) : (ageFlag s b).extents = s.extents := by rw [ageFlag_frame]
@[simp] theorem ageFlag_rows (s : State) (b : Nat) : (ageFlag s b).rows = s.rows := by rw [ageFlag_frame]
@[simp] theorem ageFlag_stagings (s : State) (b : Nat) : (ageFlag s b).stagings = s.stagings := by rw [ageFlag_frame]
@[simp] theorem ageFlag_ops (s : State) (b : Nat) : (ageFlag s b).ops = s.ops := by rw [ageFlag_frame]
@[simp] theorem ageFlag_items (s : State) (b : Nat) : (ageFlag s b).items = s.items := by rw [ageFlag_frame]
@[simp] theorem ageFlag_recons (s : State) (b : Nat) : (ageFlag s b).recons = s.recons := by rw [ageFlag_frame]
@[simp] theorem ageFlag_decs (s : State) (b : Nat) : (ageFlag s b).decs = s.decs := by rw [ageFlag_frame]
@[simp] theorem ageFlag_stes (s : State) (b : Nat) : (ageFlag s b).stes = s.stes := by rw [ageFlag_frame]
@[simp] theorem ageFlag_banks (s : State) (b : Nat) : (ageFlag s b).banks = s.banks := by rw [ageFlag_frame]
@[simp] theorem ageFlag_luns (s : State) (b : Nat) : (ageFlag s b).luns = s.luns := by rw [ageFlag_frame]
@[simp] theorem ageFlag_blks (s : State) (b : Nat) : (ageFlag s b).blks = s.blks := by rw [ageFlag_frame]
@[simp] theorem ageFlag_buses (s : State) (b : Nat) : (ageFlag s b).buses = s.buses := by rw [ageFlag_frame]
@[simp] theorem ageFlag_jrn (s : State) (b : Nat) : (ageFlag s b).jrn = s.jrn := by rw [ageFlag_frame]
@[simp] theorem ageFlag_gov (s : State) (b : Nat) : (ageFlag s b).gov = s.gov := by rw [ageFlag_frame]
@[simp] theorem ageFlag_age (s : State) (b : Nat) : (ageFlag s b).age = s.age := by rw [ageFlag_frame]
@[simp] theorem ageFlag_phys (s : State) (b : Nat) : (ageFlag s b).phys = s.phys := by rw [ageFlag_frame]
@[simp] theorem ageFlag_engines (s : State) (b : Nat) : (ageFlag s b).engines = s.engines := by rw [ageFlag_frame]
@[simp] theorem ageFlag_mems (s : State) (b : Nat) : (ageFlag s b).mems = s.mems := by rw [ageFlag_frame]
@[simp] theorem ageFlag_msrBad (s : State) (b : Nat) : (ageFlag s b).msrBad = s.msrBad := by rw [ageFlag_frame]
@[simp] theorem ageFlag_doms (s : State) (b : Nat) : (ageFlag s b).doms = s.doms := by rw [ageFlag_frame]
@[simp] theorem ageFlag_pwr (s : State) (b : Nat) : (ageFlag s b).pwr = s.pwr := by rw [ageFlag_frame]
@[simp] theorem ageFlag_boot (s : State) (b : Nat) : (ageFlag s b).boot = s.boot := by rw [ageFlag_frame]
@[simp] theorem ageFlag_tap (s : State) (b : Nat) : (ageFlag s b).tap = s.tap := by rw [ageFlag_frame]
@[simp] theorem ageFlag_scanEn (s : State) (b : Nat) : (ageFlag s b).scanEn = s.scanEn := by rw [ageFlag_frame]
@[simp] theorem ageFlag_alive (s : State) (b : Nat) : (ageFlag s b).alive = s.alive := by rw [ageFlag_frame]
@[simp] theorem ageFlag_aliveOn (s : State) (b : Nat) : (ageFlag s b).aliveOn = s.aliveOn := by rw [ageFlag_frame]
@[simp] theorem ageFlag_aliveAt (s : State) (b : Nat) : (ageFlag s b).aliveAt = s.aliveAt := by rw [ageFlag_frame]
@[simp] theorem ageFlag_blockFault (s : State) (b : Nat) : (ageFlag s b).blockFault = s.blockFault := by rw [ageFlag_frame]

/-! ### ringFault -/

@[simp] theorem ringFault_pending (s : State) (r cause : Nat) : (ringFault s r cause).pending = s.pending := by rw [ringFault_frame]
@[simp] theorem ringFault_free (s : State) (r cause : Nat) : (ringFault s r cause).free = s.free := by rw [ringFault_frame]
@[simp] theorem ringFault_nextId (s : State) (r cause : Nat) : (ringFault s r cause).nextId = s.nextId := by rw [ringFault_frame]
@[simp] theorem ringFault_dram (s : State) (r cause : Nat) : (ringFault s r cause).dram = s.dram := by rw [ringFault_frame]
@[simp] theorem ringFault_tick (s : State) (r cause : Nat) : (ringFault s r cause).tick = s.tick := by rw [ringFault_frame]
@[simp] theorem ringFault_trefStop (s : State) (r cause : Nat) : (ringFault s r cause).trefStop = s.trefStop := by rw [ringFault_frame]
@[simp] theorem ringFault_paceAt (s : State) (r cause : Nat) : (ringFault s r cause).paceAt = s.paceAt := by rw [ringFault_frame]
@[simp] theorem ringFault_freqAt (s : State) (r cause : Nat) : (ringFault s r cause).freqAt = s.freqAt := by rw [ringFault_frame]
@[simp] theorem ringFault_committed (s : State) (r cause : Nat) : (ringFault s r cause).committed = s.committed := by rw [ringFault_frame]
@[simp] theorem ringFault_cpResp (s : State) (r cause : Nat) : (ringFault s r cause).cpResp = s.cpResp := by rw [ringFault_frame]
@[simp] theorem ringFault_cpRdata (s : State) (r cause : Nat) : (ringFault s r cause).cpRdata = s.cpRdata := by rw [ringFault_frame]
@[simp] theorem ringFault_cpWait (s : State) (r cause : Nat) : (ringFault s r cause).cpWait = s.cpWait := by rw [ringFault_frame]
@[simp] theorem ringFault_rings (s : State) (r cause : Nat) : (ringFault s r cause).rings = s.rings := by rw [ringFault_frame]
@[simp] theorem ringFault_cmds (s : State) (r cause : Nat) : (ringFault s r cause).cmds = s.cmds := by rw [ringFault_frame]
@[simp] theorem ringFault_ports (s : State) (r cause : Nat) : (ringFault s r cause).ports = s.ports := by rw [ringFault_frame]
@[simp] theorem ringFault_xfers (s : State) (r cause : Nat) : (ringFault s r cause).xfers = s.xfers := by rw [ringFault_frame]
@[simp] theorem ringFault_memHold (s : State) (r cause : Nat) : (ringFault s r cause).memHold = s.memHold := by rw [ringFault_frame]
@[simp] theorem ringFault_porstN (s : State) (r cause : Nat) : (ringFault s r cause).porstN = s.porstN := by rw [ringFault_frame]
@[simp] theorem ringFault_srstN (s : State) (r cause : Nat) : (ringFault s r cause).srstN = s.srstN := by rw [ringFault_frame]
@[simp] theorem ringFault_pfailN (s : State) (r cause : Nat) : (ringFault s r cause).pfailN = s.pfailN := by rw [ringFault_frame]
@[simp] theorem ringFault_filled (s : State) (r cause : Nat) : (ringFault s r cause).filled = s.filled := by rw [ringFault_frame]
@[simp] theorem ringFault_pools (s : State) (r cause : Nat) : (ringFault s r cause).pools = s.pools := by rw [ringFault_frame]
@[simp] theorem ringFault_slots (s : State) (r cause : Nat) : (ringFault s r cause).slots = s.slots := by rw [ringFault_frame]
@[simp] theorem ringFault_traces (s : State) (r cause : Nat) : (ringFault s r cause).traces = s.traces := by rw [ringFault_frame]
@[simp] theorem ringFault_cfg (s : State) (r cause : Nat) : (ringFault s r cause).cfg = s.cfg := by rw [ringFault_frame]
@[simp] theorem ringFault_ozt (s : State) (r cause : Nat) : (ringFault s r cause).ozt = s.ozt := by rw [ringFault_frame]
@[simp] theorem ringFault_layouts (s : State) (r cause : Nat) : (ringFault s r cause).layouts = s.layouts := by rw [ringFault_frame]
@[simp] theorem ringFault_groups (s : State) (r cause : Nat) : (ringFault s r cause).groups = s.groups := by rw [ringFault_frame]
@[simp] theorem ringFault_extents (s : State) (r cause : Nat) : (ringFault s r cause).extents = s.extents := by rw [ringFault_frame]
@[simp] theorem ringFault_rows (s : State) (r cause : Nat) : (ringFault s r cause).rows = s.rows := by rw [ringFault_frame]
@[simp] theorem ringFault_stagings (s : State) (r cause : Nat) : (ringFault s r cause).stagings = s.stagings := by rw [ringFault_frame]
@[simp] theorem ringFault_ops (s : State) (r cause : Nat) : (ringFault s r cause).ops = s.ops := by rw [ringFault_frame]
@[simp] theorem ringFault_items (s : State) (r cause : Nat) : (ringFault s r cause).items = s.items := by rw [ringFault_frame]
@[simp] theorem ringFault_recons (s : State) (r cause : Nat) : (ringFault s r cause).recons = s.recons := by rw [ringFault_frame]
@[simp] theorem ringFault_decs (s : State) (r cause : Nat) : (ringFault s r cause).decs = s.decs := by rw [ringFault_frame]
@[simp] theorem ringFault_stes (s : State) (r cause : Nat) : (ringFault s r cause).stes = s.stes := by rw [ringFault_frame]
@[simp] theorem ringFault_banks (s : State) (r cause : Nat) : (ringFault s r cause).banks = s.banks := by rw [ringFault_frame]
@[simp] theorem ringFault_luns (s : State) (r cause : Nat) : (ringFault s r cause).luns = s.luns := by rw [ringFault_frame]
@[simp] theorem ringFault_blks (s : State) (r cause : Nat) : (ringFault s r cause).blks = s.blks := by rw [ringFault_frame]
@[simp] theorem ringFault_buses (s : State) (r cause : Nat) : (ringFault s r cause).buses = s.buses := by rw [ringFault_frame]
@[simp] theorem ringFault_jrn (s : State) (r cause : Nat) : (ringFault s r cause).jrn = s.jrn := by rw [ringFault_frame]
@[simp] theorem ringFault_gov (s : State) (r cause : Nat) : (ringFault s r cause).gov = s.gov := by rw [ringFault_frame]
@[simp] theorem ringFault_age (s : State) (r cause : Nat) : (ringFault s r cause).age = s.age := by rw [ringFault_frame]
@[simp] theorem ringFault_phys (s : State) (r cause : Nat) : (ringFault s r cause).phys = s.phys := by rw [ringFault_frame]
@[simp] theorem ringFault_engines (s : State) (r cause : Nat) : (ringFault s r cause).engines = s.engines := by rw [ringFault_frame]
@[simp] theorem ringFault_mems (s : State) (r cause : Nat) : (ringFault s r cause).mems = s.mems := by rw [ringFault_frame]
@[simp] theorem ringFault_msrBad (s : State) (r cause : Nat) : (ringFault s r cause).msrBad = s.msrBad := by rw [ringFault_frame]
@[simp] theorem ringFault_doms (s : State) (r cause : Nat) : (ringFault s r cause).doms = s.doms := by rw [ringFault_frame]
@[simp] theorem ringFault_pwr (s : State) (r cause : Nat) : (ringFault s r cause).pwr = s.pwr := by rw [ringFault_frame]
@[simp] theorem ringFault_boot (s : State) (r cause : Nat) : (ringFault s r cause).boot = s.boot := by rw [ringFault_frame]
@[simp] theorem ringFault_tap (s : State) (r cause : Nat) : (ringFault s r cause).tap = s.tap := by rw [ringFault_frame]
@[simp] theorem ringFault_scanEn (s : State) (r cause : Nat) : (ringFault s r cause).scanEn = s.scanEn := by rw [ringFault_frame]
@[simp] theorem ringFault_alive (s : State) (r cause : Nat) : (ringFault s r cause).alive = s.alive := by rw [ringFault_frame]
@[simp] theorem ringFault_aliveOn (s : State) (r cause : Nat) : (ringFault s r cause).aliveOn = s.aliveOn := by rw [ringFault_frame]
@[simp] theorem ringFault_aliveAt (s : State) (r cause : Nat) : (ringFault s r cause).aliveAt = s.aliveAt := by rw [ringFault_frame]
@[simp] theorem ringFault_blockFault (s : State) (r cause : Nat) : (ringFault s r cause).blockFault = s.blockFault := by rw [ringFault_frame]

end Sys2Proof.Machine
end

