-- ==== Sys2Proof/Laws/Words.lean ====
section
/-! SUPPORT. The words of Safety.lean at work: what keeps OnlyRegs, OnlyRing, OnlyEvents and OnlyEngine, what an access that the
control port takes does, how a settled event controller differs, how a ready microword acts, and how a port gives up. -/

namespace Sys2Proof

open Sys2Proof.Machine

/-! ### Registers and the control port -/

theorem onlyRegs_wr {s t : State} {as : List Nat} (h : OnlyRegs s t as) (a v : Nat) : OnlyRegs s (wr t a v) (a :: as) := by
  obtain ⟨h1, h2⟩ := h
  refine ⟨?_, fun b hb => ?_⟩
  · have : wr t a v = { t with regs := (wr t a v).regs } := rfl
    rw [this]; generalize (wr t a v).regs = x; rw [h1]
  · rw [rd_wr_ne _ (fun e => hb (by simp [e]))]; exact h2 b (fun e => hb (List.mem_cons_of_mem _ e))

theorem onlyRegs_refl (s : State) : OnlyRegs s s [] := ⟨rfl, fun _ _ => rfl⟩

theorem cpGate_ok (s : State) (a : Nat) (h : PortTakes s a) : cpGate s (regDoms a) 15 = .takes { s with cpResp := 0 } := by
  have on : ∀ d ∈ regDoms a, domOn s d = true := h.2
  have e : gatedDoms s (regDoms a) = [] := by
    unfold gatedDoms; rw [List.filter_eq_nil_iff]; intro d hd; simp [on d hd]
  have n : ¬(2 ≤ pwrState s ∧ (regDoms a).any (fun d => !(domOn s d)) = true) := by
    rintro ⟨-, hn⟩
    rw [List.any_eq_true] at hn
    obtain ⟨d, hd, x⟩ := hn
    simp [on d hd] at x
  unfold cpGate
  rw [if_neg (by simp [h.1.1]), if_neg (by simp [h.1.2]), if_neg n]
  simp [e]

theorem cpGet_ok (s : State) (a c : Nat) (h : PortTakes s a) (f) : cpGet s a 15 c f = { (f { s with cpResp := 0 }).1 with cpRdata := w32 (f { s with cpResp := 0 }).2 } := by
  unfold cpGet; rw [cpGate_ok s a h]

theorem cpPut_ok (s : State) (a v c : Nat) (h : PortTakes s a) (f) : cpPut s a 15 v c f = f { s with cpResp := 0 } := by
  unfold cpPut; rw [cpGate_ok s a h]

theorem latches_of (s : State) (i : Instr) (hi v : Nat) (h : exec i s = .next { (wr { s with cpResp := 0 } hi (v / 2 ^ 32)) with cpRdata := w32 (v % 2^32) }) : Latches i s hi v := by
  refine ⟨_, h, rfl, ?_, ?_, rfl, ?_⟩
  · simp [w32]
  · exact rd_wr_same _ _ _
  · intro a ha; exact rd_wr_ne _ (fun e => ha (by simp [e]))

/-! ### Rings -/

theorem onlyRing_cset {s t : State} {r : Nat} (o n v : Nat) (h : OnlyRing s t r) : OnlyRing s (cset t r o n v) r := by
  obtain ⟨h1, h2⟩ := h
  refine ⟨?_, fun k hk => ⟨?_, ?_⟩⟩
  · have : cset t r o n v = { t with ctx := (cset t r o n v).ctx } := rfl
    rw [this]; generalize (cset t r o n v).ctx = x; rw [h1]
  · rw [ctx_cset_ne _ _ _ _ _ _ hk]; exact (h2 k hk).1
  · exact (h2 k hk).2

theorem onlyRing_refl (s : State) (r) : OnlyRing s s r := ⟨rfl, fun _ _ => ⟨rfl, rfl⟩⟩

theorem onlyRing_setRings {s t : State} {r : Nat} (x) (h : OnlyRing s t r) : OnlyRing s { t with rings := tset t.rings r x } r := by
  obtain ⟨h1, h2⟩ := h
  refine ⟨?_, fun k hk => ⟨(h2 k hk).1, ?_⟩⟩
  · generalize tset t.rings r x = y; rw [h1]
  · have := (h2 k hk).2
    unfold ringRt at *; dsimp only; rw [tget_tset, if_neg hk]; exact this

theorem onlyRing_enable {s t : State} {r : Nat} (h : OnlyRing s t r) : OnlyRing s (ringEnable t r) r := by
  unfold ringEnable; dsimp only
  exact onlyRing_setRings _ (onlyRing_cset _ _ _ (onlyRing_cset _ _ _ (onlyRing_cset _ _ _ (onlyRing_cset _ _ _ (onlyRing_cset _ _ _ (onlyRing_cset _ _ _ (onlyRing_cset _ _ _ h)))))))

/-- A word of a context after a masked write. -/
theorem ctx_cset_masked (s : State) (r w m v b : Nat) (hw : w < 16) (old : Nat) (ho : old = bits (tget s.ctx r 0).toNat (32 * w + 31) (32 * w)) :
    (tget (cset s r (4 * w) 4 ((v &&& m) ||| (old &&& (0xFFFFFFFF ^^^ m)))).ctx r 0).getLsbD b =
      if b / 32 = w ∧ bit m (b % 32) = true then v.testBit (b % 32) else (tget s.ctx r 0).getLsbD b := by
  rw [ctx_cset _ _ _ _ _ _ (by omega) (by omega)]
  have hb : 8 * (4 * w) ≤ b ∧ b < 8 * (4 * w + 4) ↔ b / 32 = w := by omega
  by_cases h : b / 32 = w
  · rw [if_pos (hb.mpr h)]
    have hk : b - 8 * (4 * w) = b % 32 := by omega
    have ho2 : old.testBit (b % 32) = (tget s.ctx r 0).getLsbD b := by
      rw [ho, bits_testBit]
      have : b % 32 < 32 * w + 31 + 1 - 32 * w := by omega
      simp only [this, decide_true, Bool.true_and]
      rw [show 32 * w + b % 32 = b by omega]; rfl
    have hall : (0xFFFFFFFF : Nat).testBit (b % 32) = true := by
      rw [show (0xFFFFFFFF : Nat) = 2 ^ 32 - 1 by rfl, Nat.testBit_two_pow_sub_one]; simp; omega
    rw [hk, Nat.testBit_or, Nat.testBit_and, Nat.testBit_and, Nat.testBit_xor, ho2, hall]
    unfold bit
    by_cases g : m.testBit (b % 32) = true
    · rw [if_pos ⟨h, g⟩]; simp [g]
    · rw [if_neg (fun x => g x.2)]; simp [g]
  · rw [if_neg (fun x => h (hb.mp x)), if_neg (fun x => h x.1)]

/-! ### Event controller -/

/-- Nothing differs but the offers, the round-robin pointers, EVC_STATUS and its counter: what settling the controller does. -/
def EvcKept (s t : State) : Prop :=
  t = { s with regs := t.regs, evc := { s.evc with offers := t.evc.offers, rrN := t.evc.rrN, rrF := t.evc.rrF } } ∧
  ∀ a, a ≠ 0x10000 → a ≠ 0x10004 → rd t a = rd s a

theorem EvcKept.refl (s) : EvcKept s s := ⟨rfl, fun _ _ _ => rfl⟩
theorem EvcKept.trans {s t u} (h : EvcKept s t) (g : EvcKept t u) : EvcKept s u := by
  obtain ⟨h1, h2⟩ := h; obtain ⟨g1, g2⟩ := g
  refine ⟨?_, fun a x y => (g2 a x y).trans (h2 a x y)⟩
  rw [g1, h1]
theorem sticky_evcKept (s : State) (b : Nat) (hb : b < 4) : EvcKept s (sticky s regEvcStatus b) := by
  refine ⟨rfl, fun a x y => ?_⟩
  simp only [sticky, bump, wrf]
  have : b / 4 = 0 := by omega
  rw [rd_wr_ne _ (by simp [regEvcStatus, this]; omega), rd_wr_ne _ (by simp [regEvcStatus]; omega)]

theorem offers_evcKept (s : State) (o rn rf) : EvcKept s { s with evc := { s.evc with offers := o, rrN := rn, rrF := rf } } :=
  ⟨rfl, fun _ _ _ => rfl⟩

theorem attempt_evcKept (s : State) (src : Nat) : EvcKept s (attempt s src) := by
  unfold attempt
  split
  · simp only []
    split
    · split
      · exact offers_evcKept s _ _ _
      · exact offers_evcKept s _ _ _
    · split
      · exact EvcKept.refl s
      · exact sticky_evcKept s 1 (by omega)
  · exact EvcKept.refl s

theorem attemptFault_evcKept (s : State) (t : Nat) : EvcKept s (attemptFault s t) := by
  unfold attemptFault
  split
  · exact offers_evcKept s _ s.evc.rrN s.evc.rrF
  · exact EvcKept.refl s

theorem foldl_evcKept {α : Type} (f : State → α → State) (h : ∀ s a, EvcKept s (f s a)) (l : List α) (s : State) :
    EvcKept s (l.foldl f s) := by
  induction l generalizing s with
  | nil => exact EvcKept.refl s
  | cons a r ih => exact (h s a).trans (ih (f s a))

theorem settle_evcKept (s all l) : EvcKept s (settle s all l) := by
  unfold settle
  refine EvcKept.trans ?_ (foldl_evcKept attempt attempt_evcKept _ _)
  refine EvcKept.trans ?_ (foldl_evcKept attemptFault attemptFault_evcKept _ _)
  exact offers_evcKept s _ s.evc.rrN s.evc.rrF

theorem EvcKept.onlyEvents {s t : State} (h : EvcKept s t) : OnlyEvents s t := by
  obtain ⟨h1, h2⟩ := h
  refine ⟨?_, fun a ha => h2 a (by omega) (by omega)⟩
  rw [h1]

theorem EvcKept.onlyEvents_step {s u t : State} (g : u = { s with evc := u.evc, regs := u.regs, cpResp := u.cpResp, cpRdata := u.cpRdata })
  (g2 : ∀ a, a < 0x10000 ∨ 0x12000 ≤ a → rd u a = rd s a) (h : EvcKept u t) : OnlyEvents s t := by
  obtain ⟨h1, h2⟩ := h
  refine ⟨?_, fun a ha => (h2 a (by omega) (by omega)).trans (g2 a ha)⟩
  rw [h1, g]

theorem EvcKept.fields {s t : State} (h : EvcKept s t) : t.evc.pend = s.evc.pend ∧ t.evc.normal = s.evc.normal ∧ t.evc.fast = s.evc.fast ∧ t.evc.fault = s.evc.fault ∧ 
   t.evc.holds = s.evc.holds ∧ t.evc.sleep = s.evc.sleep ∧ t.evc.lines = s.evc.lines ∧ t.evc.oldCls = s.evc.oldCls ∧ t.cpResp = s.cpResp ∧ t.cpRdata = s.cpRdata := by
  obtain ⟨h1, -⟩ := h
  refine ⟨?_, ?_, ?_, ?_, ?_, ?_, ?_, ?_, ?_, ?_⟩ <;> rw [h1]

theorem releaseClass_frame (s : State) (src) : (releaseClass s src) = { s with evc := { s.evc with oldCls := (releaseClass s src).evc.oldCls } } := by
  unfold releaseClass; split <;> rfl

theorem foldl_tset_isSome (l : List Nat) (p : Tab Unit) (x : Nat) : (tget? (l.foldl (fun p x => tset p x ()) p) x).isSome = true ↔ ((tget? p x).isSome = true ∨ x ∈ l) := by
  induction l generalizing p with
  | nil => simp
  | cons a r ih =>
    rw [List.foldl_cons, ih, tget?_tset]
    by_cases h : x = a <;> simp [h]

theorem foldl_releaseClass_frame (l : List Nat) (s : State) : ∃ oc, l.foldl releaseClass s = { s with evc := { s.evc with oldCls := oc } } := by
  induction l generalizing s with
  | nil => exact ⟨s.evc.oldCls, rfl⟩
  | cons a r ih =>
    rw [List.foldl_cons]
    obtain ⟨oc, h⟩ := ih (releaseClass s a)
    refine ⟨oc, h.trans ?_⟩
    rw [releaseClass_frame s a]

/-! ### Engines -/

/-- The state in which a ready microword acts: its step is counted. -/
def counted (s : State) (e : Nat) (safe : Bool) : State :=
  modEng (bump s (regEngSteps e) 31 0 1) e (fun en => stepped en safe)

theorem counted_eng (s : State) (e : Nat) (safe : Bool) : eng (counted s e safe) e = stepped (eng s e) safe :=
  eng_modEng_same (bump s (regEngSteps e) 31 0 1) e _

theorem micro_of_ready {s : State} {e : Nat} (safe : Bool) (f : State → State) (h : MicroReady s e) :
    micro s e safe f = f (counted s e safe) := by
  obtain ⟨h1, h2, h3, h4, h5⟩ := h
  have hm : modEng (bump s (regEngSteps e) 31 0 1) e (fun en => { en with
      mode := if en.mode = 2 then 2 else 1, steps := if safe then 0 else en.steps + 1, hook := en.hook.map (· + 1) }) = counted s e safe := by
    simp only [counted, modEng, stepped]
    congr 1
    simp only [tmod]; congr 1
    have h4' : (tget s.engines e {}).hook = none := h4
    simp [h4']
  have hk : (eng (counted s e safe) e).hook = none := by rw [counted_eng]; exact h4
  unfold micro
  simp only [h1, h2, decide_false, Bool.false_or, Option.isSome_none, safePoint, h5, Bool.false_and, Bool.false_eq_true, if_false, ite_self]
  rw [if_neg (by simp; omega), hm, if_neg (by rw [hk]; decide)]

theorem onlyEngine_counted (s : State) (e : Nat) (safe) : OnlyEngine s (counted s e safe) e := by
  refine ⟨rfl, fun f hf => ?_, fun a ha => ?_⟩
  · rw [counted, eng_modEng_ne _ _ _ _ hf]; rfl
  · simp only [counted, rd, modEng_regs]; exact rd_wr_ne s ha

theorem onlyEngine_modEng {s t : State} {e : Nat} (f) (h : OnlyEngine s t e) : OnlyEngine s (modEng t e f) e := by
  obtain ⟨h1, h2, h3⟩ := h
  refine ⟨?_, fun g hg => by rw [eng_modEng_ne _ _ _ _ hg]; exact h2 g hg, fun a ha => h3 a ha⟩
  rw [h1]; rfl

theorem onlyEngine_free {s t : State} {e n : Nat} (h : OnlyEngine s t e) : OnlyEngine s {t with free := n} e := by
  obtain ⟨h1, h2, h3⟩ := h
  refine ⟨?_, h2, h3⟩
  rw [h1]

theorem onlyEngine_of_free {s t : State} {e n : Nat} (h : OnlyEngine {s with free := n} t e) : OnlyEngine s t e := by
  obtain ⟨h1, h2, h3⟩ := h
  refine ⟨?_, h2, h3⟩
  rw [h1]

theorem engineBecomes_micro {s : State} {e : Nat} {safe} {f} (h : MicroReady s e) : EngineBecomes (ok (micro s e safe (fun s => modEng s e f))) s e (f (stepped (eng s e) safe)) := by
  rw [micro_of_ready _ _ h]
  exact ⟨_, rfl, by simp [counted_eng], onlyEngine_modEng _ (onlyEngine_counted _ _ _)⟩

theorem onlyEngine_refl (s e) : OnlyEngine s s e := ⟨rfl, fun _ _ => rfl, fun _ _ => rfl⟩

/-! ### Memory ports -/

/-- A trace packet leaves every register that is not one of its FIFO's. -/
theorem rd_trace_ne (s : State) (k src arg : Nat) (l : List Nat) (a : Nat) (h : a < traceBase k ∨ traceBase k + 0x18 ≤ a) :
    rd (trace s k src arg l) a = rd s a := by
  unfold trace; dsimp only
  split
  · split
    · rw [rd_bump_ne _ (by unfold regTrcDrops; omega), rd_sticky_ne _ (by unfold regTrcStatus; omega) (by unfold regTrcStatus; omega)]; rfl
    · rfl
  · rfl

/-- What a port's failures leave: every state but registers, events and trace packets. -/
def PortKept (s t : State) : Prop := t = { s with regs := t.regs, evc := t.evc, traces := t.traces }

theorem PortKept.trans {s t u : State} (h : PortKept s t) (g : PortKept t u) : PortKept s u := by
  unfold PortKept at *
  rw [g, h]

theorem traceBurst_kept (s : State) (n a : Nat) : PortKept s (traceBurst s n a) := by
  unfold PortKept traceBurst; rw [trace_frame]

theorem portTry_kept (s : State) (n a b : Nat) : PortKept s (traceBurst (sticky (logBeat s n a) (regMemPortStatus n) b) n a) :=
  PortKept.trans (rfl : PortKept s (sticky (logBeat s n a) (regMemPortStatus n) b)) (traceBurst_kept _ _ _)

theorem foldl_kept (f : State → State) (h : ∀ s, PortKept s (f s)) (l : List Nat) (s : State) : PortKept s (l.foldl (fun s _ => f s) s) := by
  induction l generalizing s with
  | nil => exact rfl
  | cons _ r ih => exact (h s).trans (ih (f s))

theorem portTry_bit (s : State) (n a b : Nat) (hn : n < 8) (hb : b < 4) :
    bit (rd (traceBurst (sticky (logBeat s n a) (regMemPortStatus n) b) n a) (regMemPortStatus n)) b = true := by
  unfold traceBurst
  rw [rd_trace_ne _ _ _ _ _ _ (by unfold regMemPortStatus portBase traceBase quadBase; split <;> omega)]
  exact sticky_bit _ _ _ (by omega)

/-- A port that gave up: its result and all that it changes (R73, R428, R429, R599). -/
theorem portEnd_gaveUp (s : State) (n : Nat) (spans : List (Nat × Nat × Nat)) (mp : PortEnd) (h : mp ≠ .ok) :
    ∃ v r, portEnd s n spans mp = (v, some r) ∧ PortGaveUp spans mp s v n r := by
  have key : ∀ (st b i : Nat), b < 4 →
      ∃ v, portFailed s n spans st b i = (v, some (portResult st n (failPlace (transferBursts spans) i).1
        (failPlace (transferBursts spans) i).2.1 (failPlace (transferBursts spans) i).2.2)) ∧
        (n < 8 → bit (rd v (regMemPortStatus n)) b = true) ∧ PortKept s v := by
    intro st b i hb
    refine ⟨_, rfl, fun hn => ?_, ?_⟩
    · rw [raise_frame]; exact portTry_bit _ _ _ _ hn hb
    · refine PortKept.trans ?_ (by unfold PortKept; rw [raise_frame])
      exact PortKept.trans (foldl_kept _ (fun s => portTry_kept s _ _ _) _ _) (portTry_kept _ _ _ _)
  cases mp with
  | ok => exact absurd rfl h
  | error i =>
    obtain ⟨v, e, hb, hk⟩ := key stPortError 1 i (by omega)
    exact ⟨v, _, e, 0x6001, 1, i, .inl ⟨rfl, rfl, rfl⟩, rfl, hb, hk⟩
  | timeout i =>
    obtain ⟨v, e, hb, hk⟩ := key stPortTimeout 2 i (by omega)
    exact ⟨v, _, e, 0x6002, 2, i, .inr ⟨rfl, rfl, rfl⟩, rfl, hb, hk⟩

/-- A command whose image a port gave up on ends so, whatever it would have done with the image. -/
theorem imageEnd_gaveUp (s : State) (c : Cmd) (len : Nat) (mp : PortEnd) (f : State → State) (h : mp ≠ .ok) :
    ∃ v r, imageEnd s c len mp f = finish v c.cid r ∧ PortGaveUp [(0, cPtr c, len)] mp s v (2 * c.home) r := by
  obtain ⟨v, r, e, g⟩ := portEnd_gaveUp s (2 * c.home) [(0, cPtr c, len)] mp h
  exact ⟨v, r, by unfold imageEnd; rw [e], g⟩

@[simp] theorem imageEnd_ok (s : State) (c : Cmd) (len : Nat) (f : State → State) : imageEnd s c len .ok f = f s := rfl

end Sys2Proof
end

