-- ==== Sys2Proof/WellFormed.lean ====
section
/-! DEFINITION. Well-formed commands: what the surroundings supply has the shape that the spec gives it (a beat of 64 bytes,
a thermal word of eight readings, an address on a word of the control port, ...). -/

namespace Sys2Proof

/-- An address of the control-port window on a 32-bit word (R11). -/
def addrOk (a : Nat) : Bool := decide (a % 4 = 0) && decide (a < 2 ^ 23)

/-- A training result (R204, R205). -/
def CeTrain.wf (r : CeTrain) : Bool :=
  decide (r.ce < 16) && (r.window || (decide (1 ≤ r.step) && decide (r.step ≤ 7))) && decide (r.deskew.length = 16)

/-- A chip enable that discovery read (R586). -/
def CeFound.wf (f : CeFound) : Bool := decide (f.ch < 32) && decide (f.ce < 16) && decide (f.id.length = 6)

/-- A segment image (R281). -/
def JSegment.wf (g : JSegment) : Bool := decide (g.kind < 2) && decide (g.bytes.length = 4096)

/-- A journal entry's fields (R278). -/
def JEntry.wf (e : JEntry) : Bool :=
  decide (e.typ < 256) && decide (e.fg < 2 ^ 16) && decide (e.zid < 2 ^ 19) && decide (e.row < 2 ^ 16)

/-- A page that the scan found: at least one of the three copies holds it (R296). -/
def JPage.wf (p : JPage) : Bool :=
  decide (0 < p.copies) && decide (p.copies < 8) && p.entries.all JEntry.wf && p.segs.all JSegment.wf

/-- The reads of a row at restart: one verdict per member, of the row and of the row before it (R300). -/
def RowClass.wf (r : RowClass) : Bool :=
  decide (r.zid < 2 ^ 19) && (r.prev.isEmpty || decide (r.prev.length = r.members.length))

/-- A staged header block (R119). -/
def StagedHeader.wf (h : StagedHeader) : Bool := decide (h.zid < 2 ^ 19) && decide (0 < h.count)

/-- A reading of an option-area copy (R588, R589). -/
def OaCopy.wf (c : OaCopy) : Bool := decide (c.windowBlock < 8) && decide (c.header.length = 4096)

/-- A line of a checked memory: its code and instance (R508). -/
def lineOk (d : Nat × Nat × Nat) : Bool := decide (1 ≤ d.1) && decide (d.1 ≤ 6) && decide (d.2.1 < 256)

/-- The command's operands have the shape of the spec. -/
def Instr.wf : Instr → Bool
  | .zoneAppend .. => true
  | .zoneWrite .. => true
  | .zoneRead .. => true
  | .zoneReset .. => true
  | .zoneOpen .. => true
  | .zoneClose .. => true
  | .zoneFinish .. => true
  | .zoneFlush .. => true
  | .zoneQuery .. => true
  | .layoutDefine .. => true
  | .reshapeBegin .. => true
  | .reshapeAbort .. => true
  | .memberFail .. => true
  | .rebuildStart .. => true
  | .rebuildPause .. => true
  | .rebuildResume .. => true
  | .spareAssign .. => true
  | .scrubRange .. => true
  | .scrubInternal _ detections => detections.all lineOk
  | .calibrate .. => true
  | .ageingRead .. => true
  | .budgetSet .. => true
  | .ringConfigureWrite .. => true
  | .ringConfigureEnable .. => true
  | .ringConfigureDisable .. => true
  | .ringConfigureUpdate .. => true
  | .configStage .. => true
  | .configCommit .. => true
  | .configAudit .. => true
  | .measureReport .. => true
  | .traceControl .. => true
  | .rawSequence .. => true
  | .rawRead .. => true
  | .rawProgram .. => true
  | .rawErase .. => true
  | .wpSet .. => true
  | .powerState .. => true
  | .echo .. => true
  | .packetFetch _ _ ends _ => decide (ends.length ≤ 8)
  | .doorbellCmdTail .. => true
  | .doorbellCplHead .. => true
  | .doorbellConsume .. => true
  | .glbTickLoRead => true
  | .jrnSeqLoRead => true
  | .jrnDurableLoRead => true
  | .glbAgeNowLoRead => true
  | .rcCounterRead addr _ => addrOk addr
  | .glbAdvice0Read => true
  | .engCsDataRead .. => true
  | .registerWrite addr _ _ _ => addrOk addr
  | .ringContextWrite addr _ _ => addrOk addr && decide (0x400000 ≤ addr) && decide (addr < 0x800000)
  | .evcClaim .. => true
  | .evcFclaim .. => true
  | .evcComplete .. => true
  | .evcFcomplete .. => true
  | .evcPset .. => true
  | .evcFpset .. => true
  | .evcPendClear .. => true
  | .evcFpendClear .. => true
  | .evcSrcWrite .. => true
  | .phyCmdQuickRetrain .. => true
  | .phyCmdFullTraining .. => true
  | .phyCmdRaiseAttempt .. => true
  | .jrnCmdDiscard .. => true
  | .glbCfgCmdDiscard => true
  | .glbMeasExt => true
  | .bootCmdLoadOptionArea copies => decide (copies.length ≤ 4) && copies.all OaCopy.wf
  | .bootCmdLoadImage => true
  | .oaUnlockFirstKey .. => true
  | .oaUnlockSecondKey .. => true
  | .oaRelock => true
  | .oaKeyWindowExpiry => true
  | .oaUnlockExpiry => true
  | .porstNFall => true
  | .porstNRise => true
  | .srstNFall => true
  | .srstNRise => true
  | .pfailNFall => true
  | .powerFailWarning => true
  | .pfailStageByExpiry => true
  | .pfailNRise => true
  | .pfailHighFilterExpiry => true
  | .trefLost => true
  | .trefReturn => true
  | .trefFreqWindow .. => true
  | .paceWindowEnd .. => true
  | .pllUnlock .. => true
  | .pllLock .. => true
  | .tgtSleepChange .. => true
  | .memHoldRise => true
  | .memHoldFall => true
  | .thermalWord _ readings => decide (readings.length = 8)
  | .bufferPoolResponse .. => true
  | .mpBurstIssue .. => true
  | .mpResponseBeat _ _ _ data _ => decide (data.length = 64)
  | .mpBurstTimeout .. => true
  | .domainHandshakeAck .. => true
  | .domainHandshakeTimeout .. => true
  | .tracePortRead .. => true
  | .governorRefill => true
  | .coalTicksExpiry .. => true
  | .holdoffExpiry .. => true
  | .sourceFilterExpiry .. => true
  | .traceTimeout .. => true
  | .statusPoll .. => true
  | .lunTimeout .. => true
  | .holdMaxExpiry .. => true
  | .commitTicksExpiry => true
  | .linkCheck .. => true
  | .quickRetrainPeriod .. => true
  | .raiseAttempt .. => true
  | .dieTemperatureRead .. => true
  | .thermalStale .. => true
  | .patrolVisit .. => true
  | .furlWake => true
  | .ageingWriteBack .. => true
  | .predictionRefresh .. => true
  | .poolRetry .. => true
  | .trimIdleExpiry .. => true
  | .stageLeadExpiry .. => true
  | .strictDeadlineExpiry .. => true
  | .ixAliveToggle => true
  | .leaseWaitExpiry .. => true
  | .safePointOverrun .. => true
  | .busPhaseIssue .. => true
  | .programConfirm .. => true
  | .codewordReceived _ raw _ => decide (raw.length = 4648)
  | .decodeStart .. => true
  | .decodeDone .. => true
  | .reconstructionDone .. => true
  | .operationResume .. => true
  | .rowParityStart .. => true
  | .rowParityDone .. => true
  | .foldStart .. => true
  | .stagingStart .. => true
  | .stagingReclaim .. => true
  | .journalPageWrite .. => true
  | .windowTurn => true
  | .journalScanDone pages => pages.all JPage.wf
  | .failureGroupRestart _ reads staged => reads.all RowClass.wf && staged.all StagedHeader.wf
  | .rebuildUnitEnd .. => true
  | .reshapeZoneCross .. => true
  | .calibrationSweepDone .. => true
  | .scrubRangeDone .. => true
  | .fullTrainingDone _ _ _ ces => ces.all CeTrain.wf
  | .quickRetrainDone _ _ _ ces => ces.all CeTrain.wf
  | .rawWaitEnd .. => true
  | .configCommitComplete => true
  | .drainingSlotFree => true
  | .powerEntryCommit => true
  | .powerEntryEnd => true
  | .powerExitEnd _ copies => decide (copies.length ≤ 4) && copies.all OaCopy.wf
  | .memoryFillDone ctxBad noticeFails => ctxBad.all (fun r => decide (r < 65536)) && noticeFails.all (fun r => decide (r < 65536))
  | .bringupPhyUp => true
  | .dieDiscoveryDone found => found.all CeFound.wf
  | .optionAreaLoadDone => true
  | .bringupTrainingDone => true
  | .engineRelease => true
  | .readyIndication => true
  | .trap .. => true
  | .aluAdd .. => true
  | .aluSub .. => true
  | .aluAnd .. => true
  | .aluOr .. => true
  | .aluXor .. => true
  | .aluShl .. => true
  | .aluShr .. => true
  | .aluGfmul .. => true
  | .aluCmp .. => true
  | .aluMov .. => true
  | .ldi .. => true
  | .memLoad .. => true
  | .memStore .. => true
  | .br .. => true
  | .call .. => true
  | .ret .. => true
  | .port .. => true
  | .wait .. => true
  | .microwordWaitEnd .. => true
  | .disp .. => true
  | .done .. => true
  | .extest => true
  | .idcode => true
  | .samplePreload pins cells => decide (pins.length = 1664) && decide (cells.length = 1664)
  | .clamp => true
  | .highz => true
  | .extestPulse => true
  | .extestTrain => true
  | .bypass .. => true
  | .mpRequestAccept .. => true
  | .mpWriteBeatAccept .. => true
  | .furlPatrolHoldExpiry .. => true
  | .registerRead addr _ => addrOk addr

end Sys2Proof
end

