-- ==== Sys2Proof/Tests/Slice0.lean ====
section
/-! SUPPORT. Tests: what the decoder and some commands do on small states, expected from the words of spec/; an ill-formed
command for each check of well-formedness; and for each statement with hypotheses a state and operands that meet them,
clause by clause, at the ends of the ranges. -/

namespace Sys2Proof.Tests

set_option Elab.async false

open Sys2Proof Sys2Proof.Machine

/-! ### Small states -/

/-- The block with its memory filled: the control port answers. -/
def up : State := { State.reset with filled := true }

/-- A packet of 64 bytes with the fields given (offset, bytes, value), the rest zero. -/
def pkt (fs : List (Nat × Nat × Nat)) : List Byte :=
  fs.foldl (fun l f => l.take f.1 ++ leBytes f.2.1 f.2.2 ++ l.drop (f.1 + f.2.1)) (zeros 64)

/-- Command 5 of ring 0, fetched, with the opcode and the fields given. -/
def cmd (op : Nat) (fs : List (Nat × Nat × Nat)) : Cmd :=
  { cid := 5, ring := 0, fetchNo := 0, home := 0, pkt := pkt ((0, 1, op) :: fs) }

/-- The state with one command in flight. -/
def one (s : State) (c : Cmd) : State := { s with cmds := [c] }

/-- The state with registers at the values given. -/
def regs (s : State) (l : List (Nat × Nat)) : State := { s with regs := l.foldl (fun t p => tset t p.1 (w32 p.2)) s.regs }

/-! ### The queue, reset and microwords -/

theorem test_w_StepExecutesTheFrontCommand : ({ up with pending := [.trefLost] } : State).pending = .trefLost :: [] := by decide +kernel

theorem test_w_EveryStepAnswersANextState :
    up.pending = [] ∧ up.trefStop = false ∧ ({ up with trefStop := true } : State).pending = [] := by decide +kernel

theorem test_w_IllegalMicrowordsAreTraps :
    (10 ≤ ((0xF8000000 : BitVec 32).extractLsb' 27 4).toNat) ∧ (10 ≤ ((0x50000000 : BitVec 32).extractLsb' 27 4).toNat) ∧
    (0x80000000 : BitVec 32).extractLsb' 27 4 = 0 ∧
    ((0x0D000000 : BitVec 32).extractLsb' 27 4 = 1 ∧ (10 ≤ ((0x0D000000 : BitVec 32).extractLsb' 23 4).toNat)) := by decide +kernel

/-- Engine 3 with two numbers, a call stack and a table of dispatch entries. -/
def wEng (stack : List Nat) : State :=
  { up with engines := [(3, { g := [(1, 0xFFFFFFFF), (2, 32), (3, 0x40), (4, 0xBF)], stack := stack, pc := 0x3FFF, steps := 255 })],
            cfg := { cur := [(3, { disp := [(0, 0x8000), (0x20, 0x8123), (0x40, 0x8001)] })] } }

theorem test_w_AluMicrowords : MicroReady (wEng []) 3 ∧ MicroReady State.reset 49 := by unfold MicroReady; decide +kernel

theorem test_w_MicrowordsThatMoveAndBranch :
    MicroReady (wEng [1]) 3 ∧ MicroReady (wEng (List.range 7)) 3 ∧ (eng (wEng (List.range 7)) 3).stack.length = 7 ∧
    (eng (wEng [1]) 3).stack = 1 :: [] ∧
    bit (dispEntry (wEng []) 3 ((greg (eng (wEng []) 3) 2).toNat % 256)) 15 = true ∧
    bit (dispEntry (wEng []) 3 0x40) 15 = true := by unfold MicroReady; decide +kernel

/-- Engine 3 in a wait. -/
def wWait (w : EngWait) : State := { up with tick := 100, engines := [(3, { mode := 1, wait := some w })] }

theorem test_w_MicrowordWaits :
    (eng (wWait { port := 2, reg := 15 }) 3).wait = some { port := 2, reg := 15 } ∧
    (eng (wWait { port := 63, reg := 0, until_ := some 100 }) 3).wait = some { port := 63, reg := 0, until_ := some 100 } ∧
    (wWait { port := 63, reg := 0 }).tick = 100 := by decide +kernel

theorem test_w_MachineChecksStartRecovery :
    MicroReady (wEng (List.range 8)) 3 ∧ 8 ≤ (eng (wEng (List.range 8)) 3).stack.length ∧ (eng (wEng []) 3).stack = [] ∧
    bit (dispEntry (wEng []) 3 ((greg (eng (wEng []) 3) 4).toNat % 256)) 15 = false ∧
    (greg (eng (wEng []) 3) 4).toNat % 256 < 0xC0 ∧ bit (dispEntry (wEng []) 4 0) 15 = false ∧
    (let s : State := { up with engines := [(3, { mode := 1, steps := 256 })] }
     (eng s 3).mode ≠ 3 ∧ 256 ≤ (eng s 3).steps) ∧
    ((eng (wEng []) 3).work = none ∧ (eng (wEng []) 3).mode ≠ 2 ∧ (eng (wEng []) 3).checks.length < 2 ∧
      bit (dispEntry (wEng []) 3 0) 15 = true) := by unfold MicroReady; decide +kernel

/-! ### Test access port and event controller -/

theorem test_w_TapInstructions :
    (({ State.reset with scanEn := true, porstN := false } : State).scanEn = true) ∧
    (List.replicate 1664 true).length = 1664 ∧ (0x03 : Byte).toNat ∉ [0x00, 0x01, 0x02, 0x04, 0x05, 0x08, 0x09] ∧
    (0xFF : Byte).toNat ∉ [0x00, 0x01, 0x02, 0x04, 0x05, 0x08, 0x09] := by decide +kernel

/-- Sources 16 and 767 pending and offered to target 15, both enabled. -/
def wEvc : State :=
  regs { up with evc := { pend := [(16, ()), (767, ())], offers := [(16, 15), (767, 15)] } }
    [(regEvcSrc 16, 0x8001FFFF), (regEvcSrc 767, 0x8001FFFF)]

theorem test_w_Claim :
    PortFree wEvc ∧ stackOf wEvc false 15 = none ∧ topOffer wEvc false 15 = some 767 ∧ topOffer wEvc true 15 = none ∧
    (767 : Nat) ≠ 1023 ∧
    topOffer ({ up with evc := { fault := [(0, ())], offers := [(1023, 0)] } }) true 0 = some 1023 := by unfold PortFree; decide +kernel

theorem test_w_Complete :
    (let s : State := { up with evc := { normal := [(0, 16)] } }
     tget? s.evc.fast 0 = none ∧ tget? s.evc.normal 0 = some (16 : Source).val ∧ tget? s.evc.normal 0 ≠ some (17 : Source).val ∧
     tget? s.evc.fast 0 ≠ some (16 : Source).val) ∧
    (let s : State := { up with evc := { normal := [(0, 16)], fast := [(0, 1023)] } }
     tget? s.evc.fast 0 = some (1023 : Source).val) := by decide +kernel

theorem test_w_EventRegisters :
    ((767 : Nat) / 32 = (23 : Chan).val ∧ (0x80000000 : Word).toNat.testBit (767 % 32) = true ∧ srcUsable 767 = true ∧
      srcFast up 767 = false) ∧
    (let s : State := { up with tick := 1, evc := { lines := [(16, 0)], holds := [(63, 1)], pend := [(16, ())] } }
     tget? s.evc.lines (16 : Source) = some 0 ∧ 0 + max 1 (bits (srcCfg s 16) 23 16) ≤ s.tick ∧
     tget? s.evc.holds (63 : Fin 64) = some 1 ∧ (isPend s 16 = true ∧ (0x40000000 : Word).getLsbD 30 ≠ srcFast s 16)) ∧
    (let s : State := { up with evc := { lines := [(16, 0)] } }
     s.tick < 0 + max 1 (bits (srcCfg s 16) 23 16)) ∧
    srcUsable 1022 = false ∧ srcUsable 16 = true := by decide +kernel

theorem test_claim_highest :
    (match exec (.evcClaim 15) wEvc with | .next t => decide (t.cpRdata = 767) && !(isPend t 767) && isPend t 16 | _ => false) = true := by
  decide +kernel

/-! ### Rings and packets -/

/-- An ECHO and, behind it on the ring, a command under FENCE. -/
def wFence : State :=
  { up with cmds := [{ cmd 0x7F [] with cid := 4 }, { cmd 0x7F [(1, 1, 4)] with fetchNo := 1 }] }

theorem test_w_CommandsStartInFenceOrder :
    cmd? wFence 4 = some { cmd 0x7F [] with cid := 4 } ∧ startable wFence 4 0x7F ≠ none ∧ startable wFence 5 0x7F = none ∧
    startable (one up (cmd 0x23 [])) 5 0x20 = none := by decide +kernel

/-- Ring r enabled, of 16 slots each, with one packet pending; the engines run. -/
def wRing (r : Nat) : State :=
  let s : State := { up with boot := { released := true }, ctx := [(r, 0)] }
  cset (cset (cset (cset s r 0x18 1 0x44) r 0x19 1 1) r 0x12 2 1) r 0x28 16 (2 ^ 128 - 1)

theorem test_w_PacketsAreFetched :
    fetchOpen (wRing 0) 0 = true ∧ quadRoom (wRing 0) 0 = true ∧ fetchRing (wRing 0) 0 = some 0 ∧ mayFetch (wRing 0) 0 0 = true ∧
    fetchRing (wRing 65535) 0 = some 65535 ∧ mayFetch (wRing 65535) 0 0 = false := by decide +kernel

theorem test_w_PacketsAreChecked :
    flagChain (cmd 0x7F []) = false ∧ fieldAt (cmd 0x7F []).pkt 0 1 ∈ opcodes ∧ fieldAt (cmd 0xFF []).pkt 0 1 ∉ opcodes ∧
    bit (cget (wRing 0) 0 0x28 16) 0x7F = true ∧ bit (cget up 0 0x28 16) 0x7F = false ∧
    fieldCheck up (cmd 0x7F []) = none ∧ fieldCheck up (cmd 0x7F [(1, 1, 2)]) = some 0x01 ∧
    fieldCheck up (cmd 0x38 [(0x2C, 1, 5)]) = some 0x28 ∧
    (fieldAt (cmd 0x7F [(4, 4, 1)]).pkt 4 4 ≠ 0 ∧ fieldAt (cmd 0x7F [(4, 4, 1)]).pkt 4 4 ≠ qscGen up 0) ∧
    fieldAt (cmd 0x7F []).pkt 4 4 = 0 ∧ zoneOpcode 0x7F = false ∧ zoneOpcode 9 = true ∧ oztIdx? up 0 = none ∧
    (lateField up (cmd 0x7F [(4, 4, 1)])).isNone = true ∧ (lateField up (cmd 0x10 [(4, 4, 1)])).isSome = true ∧
    (one up { cmd 9 [] with stage := .fetching }).cmds = [{ cmd 9 [] with stage := .fetching }] := by decide +kernel

/-- Zone 0 in the open zone table, with its write pointer. -/
def wZone (st wp : Nat) : State :=
  { up with ozt := [(0, { state := st, valid := true, wp := wp, appendPt := wp, tv := true, tenant := 3 })] }

theorem test_w_TenantIsChecked :
    (let s := cset (wZone 1 8) 0 0x1C 2 4
     let e := zone s 0
     cget s 0 0x1C 2 % 4096 ≠ 0 ∧ e.state ≠ 0 ∧ ¬(e.tv = true ∧ e.tenant = cget s 0 0x1C 2 % 4096)) ∧
    zoneCheck (wZone 1 8) (cmd 9 []) = none := by decide +kernel

/-- An ECHO whose result is known. -/
def wEnding : State := one (wRing 0) { cmd 0x7F [] with stage := .ending, evt := 16, coalN := 2 }

theorem test_w_CompletionsArePosted :
    (let c : Cmd := { cmd 0x7F [] with stage := .ending, evt := 16, coalN := 2 }
     cmd? wEnding 5 = some c ∧ c.stage = .ending ∧ c.posted = false ∧ wEnding.xfers.any (carries 5) = false ∧
     c.needSeq ≤ wEnding.jrn.durable ∧ (ringRt wEnding 0).muted = false ∧ cget wEnding 0 0x14 2 < cplSize wEnding 0) ∧
    ({ wEnding with xfers := [{ xid := 1, port := 0, purpose := .cmdOut 5, left := 1 }] } : State).xfers.any (carries 5) = true := by decide +kernel

theorem test_w_CompletionsAreCoalesced :
    (let c : Cmd := { cmd 0x7F [(1, 1, 8)] with evt := 767, res := { status := 0x01FF } }
     c.res.status < 0x0200 ∧ bit (fieldAt c.pkt 1 1) 3 = true ∧ 16 ≤ c.evt ∧ c.evt ≤ 767) ∧
    (let c : Cmd := { cmd 0x7F [] with evt := 16, coalN := 2, res := { status := 0x0101 } }
     bit (fieldAt c.pkt 1 1) 3 = false ∧ (ringRt wEnding 0).unsig + 1 < c.coalN ∧
     ({ c with coalN := 1 } : Cmd).coalN ≤ (ringRt wEnding 0).unsig + 1) ∧
    (let s : State := { up with tick := 9, rings := [(65535, { unsig := 1, unsigAt := 4, unsigLim := 5 })] }
     0 < (ringRt s 65535).unsig ∧ 0 < (ringRt s 65535).unsigLim ∧
     (ringRt s 65535).unsigAt + (ringRt s 65535).unsigLim ≤ s.tick ∧ (ringRt s 1).unsigLim = 0) := by decide +kernel

theorem test_w_Doorbells :
    ringEnabled (wRing 1) 1 = true ∧ rdf (wRing 1) regPwrState 1 0 ≤ 1 ∧ rdf (wRing 1) regPwrState 31 28 = 0 ∧
    ringEnabled (wRing 1) 65535 = false ∧ qscRuns (wRing 1) (homeOf (wRing 1) 1) = true ∧
    (let s : State := { wRing 1 with rings := [(1, { latTail := some 15, latHead := some 0 })] }
     (ringRt s 1).latTail = some 15 ∧ 15 < cmdSize s 1 ∧ ¬(16 < cmdSize s 1) ∧ (ringRt s 1).latHead = some 0 ∧
     (0 < cplSize s 1 ∧ (0 + 16 - cget s 1 0x16 2) % 16 ≤ (cget s 1 0x14 2 + 16 - cget s 1 0x16 2) % 16)) := by decide +kernel

theorem test_w_RingContexts :
    PortFree (wRing 1) ∧ domOn (wRing 1) 93 = true ∧ ringEnabled (wRing 1) (0x40 / 64) = true ∧
    ringEnabled (wRing 1) ((2 ^ 22 - 1) / 64) = false ∧ (0x58 % 64 / 4 = 6 ∧ (0x144 : Word).getLsbD 8 = true ∧ badSize ((0x144 : Word).toNat % 256) = false) ∧
    badSize 0x30 = true ∧ badSize 0x01 = true ∧ badSize 0x00 = false ∧ inflight (wRing 1) 1 = 0 ∧
    inflight (cset (wRing 1) 1 0x38 2 1) 1 ≠ 0 ∧
    (∃ c, startable (one (wRing 1) (cmd 0x29 [(0x28, 2, 1), (0x2A, 1, 2)])) 5 0x29 = some c ∧ bits (fieldAt c.pkt 0x28 8) 17 16 = 2) ∧
    (∃ c, startable (one (wRing 1) (cmd 0x29 [(0x28, 2, 1), (0x2A, 1, 3)])) 5 0x29 = some c ∧ bits (fieldAt c.pkt 0x28 8) 17 16 = 3) ∧
    evtOk (dramRead up 0 64) = true ∧ evtOk (pkt [(0x20, 2, 768)]) = false ∧ evtOk (pkt [(0x20, 2, 767)]) = true := by
  refine ⟨by unfold PortFree; decide +kernel, by decide +kernel, by decide +kernel, by decide +kernel, by decide +kernel, by decide +kernel, by decide +kernel, by decide +kernel, by decide +kernel, by decide +kernel,
    ⟨cmd 0x29 [(0x28, 2, 1), (0x2A, 1, 2)], by decide +kernel⟩, ⟨cmd 0x29 [(0x28, 2, 1), (0x2A, 1, 3)], by decide +kernel⟩, by decide +kernel, by decide +kernel, by decide +kernel⟩

theorem test_fetch_takes_a_slot :
    (match exec (.packetFetch 0 .ok [] false) (wRing 0) with
     | .next t => decide (cget t 0 0x10 2 = 1) | _ => false) = true := by
  decide +kernel

theorem test_doorbell_of_a_disabled_ring_is_counted :
    (match exec (.doorbellCmdTail 3 7) up with | .next t => decide (rdf t regGlbDbDiscardCount 15 0 = 1) | _ => false) = true := by decide +kernel

/-! ### Commands that end at once, registers, configuration log -/

/-- The command, alone in flight, starts under its opcode. -/
def starts (s : State) (op : Nat) (fs : List (Nat × Nat × Nat)) : Bool :=
  decide (startable (one s (cmd op fs)) 5 op = some (cmd op fs))

/-- A log entry. -/
def entry : LogEntry := { seq := 0, reg := 7, kind := 8, unit := 0, gen := 0, len := 0, digest := [] }

/-- The state with so many log entries. -/
def logged (s : State) (n : Nat) : State := { s with cfg := { s.cfg with log := List.replicate n entry } }

theorem test_w_CommandsThatEndAtOnce :
    starts up 0x7F [] ∧ starts up 0x38 [(0x2C, 1, 4)] ∧ starts up 0x48 [] ∧ starts (wZone 1 8) 9 [] ∧
    zoneCheck (one (wZone 1 8) (cmd 9 [])) (cmd 9 []) = none ∧
    zoneCheck (cset (one (wZone 1 8) (cmd 9 [])) 0 0x1C 2 4) (cmd 9 []) ≠ none ∧
    PortFree up ∧ (logged up 4095).cfg.log.length < 4096 ∧ 4096 ≤ (logged up 4096).cfg.log.length ∧
    (PortFree up ∧ ∀ d ∈ regDoms regJrnCmd, domOn up d = true) ∧
    (let s : State := { up with groups := [(65535, { await := true })] }
     (group s 65535).await = true ∧ (group s 65535).layout = none ∧ s.jrn.stopped = false ∧ s.jrn.scanned = false ∧
     (group up 65535).await = false) ∧
    (let s : State := { up with groups := [(65535, { await := true })], jrn := { durable := 1 } }
     (∀ e ∈ s.jrn.found, e.fg = 65535 → ofGroup e = false) ∧ tget s.jrn.discards 65535 0 < s.jrn.durable) := by unfold PortFree; decide +kernel

/-- The access code of a register. -/
def accOf (a : Nat) : Option Acc := (regRow? a).map (fun r => r.acc)

theorem test_w_RegistersActByAccessCode :
    accOf regGlbTickHi = some .ro ∧ accOf regGlbTbCount = some .rc ∧ accOf regGlbPaceFloor = some .rw ∧ accOf regMemCfg = some .rwl ∧
    accOf regGlbTbStatus = some .w1c ∧ accOf regJrnCmd = some .wo ∧ accOf 0x1FFFFC = none ∧
    (∀ a ∈ [regGlbTickHi, regGlbTbCount, regGlbPaceFloor, regMemCfg, regGlbTbStatus, regGlbDbDiscardCount],
      a % 4 = 0 ∧ a < 0x200000 ∧ (∀ d ∈ regDoms a, domOn up d = true) ∧ (cmdWrite { up with cpResp := 0 } a 0xFFFFFFFF 0).isNone = true) ∧
    (∀ a ∈ [regGlbPaceFloor, regMemCfg, regGlbTbStatus], (viewReg { up with cpResp := 0 } a).isNone = true) ∧
    cpDead State.reset = true ∧ (7 : BitVec 4) ≠ 15 ∧ ({ up with committed := true } : State).committed = true ∧
    (regJrnCmd ∉ [regGlbTickLo, regJrnSeqLo, regJrnDurableLo, regGlbAgeNowLo, regGlbAdvice0]) := by decide +kernel

theorem test_w_ReadsThatTake :
    domOn up 92 = true ∧ (2 ^ 64 - 1 < 2 ^ 64) ∧
    ({ up with age := { advice := [(2 ^ 19 - 1, 4095, 4095, 7)] } } : State).age.advice = (2 ^ 19 - 1, 4095, 4095, 7) :: [] ∧
    (∀ d ∈ regDoms (regEngCsData 49), domOn up d = true) ∧ accOf regGlbDbDiscardCount = some .rc ∧
    (let s := regs up [(regPwrOn 1, 0)]
     regDoms (regPhyCfg 31) = [63] ∧ domOn s 63 = false ∧ rdf s regPwrState 1 0 ≤ 1 ∧ absentChan s 63 = false ∧ cpDead s = false ∧ s.cpWait = none) ∧
    (∀ w ∈ [true, false],
      let h : CpAcc := { write := w, addr := regPhyCfg 31, value := if w then 0xFFFFFFFF else 0, coin := 0 }
      let s : State := { regs up [(regPwrOn 1, 0)] with cpWait := some h, doms := [(63, { pwrReq := true, pwrAck := false, since := some 0 })] }
      s.cpWait = some h ∧ h.addr = regPhyCfg 31 ∧ domOn (domAck s 63 false true) 63 = true ∧ (domAck s 63 false true).cpWait = some h ∧
        domOn (domAck s 63 true true) 63 = false ∧ absentChan (domAck s 63 true true) 63 = false) ∧
    (let s := regs up [(regPwrOn 1, 0), (regPwrState, 2)]
     domOn s 63 = false ∧ 1 < rdf s regPwrState 1 0) := by decide +kernel

theorem test_w_DiscardEmptiesTheNextSlots :
    (let s : State := { logged up 4095 with cfg := { (logged up 4095).cfg with staged := true, nextGen := 1 } }
     PortFree s ∧ s.cfg.staged = true ∧ s.cfg.commitCid = none ∧ s.cfg.log.length < 4096) ∧
    (let s : State := { logged up 4096 with cfg := { (logged up 4096).cfg with staged := true, nextGen := 1 } }
     s.cfg.staged = true ∧ s.cfg.commitCid = none ∧ 4096 ≤ s.cfg.log.length) ∧
    up.cfg.staged = false := by unfold PortFree; decide +kernel

theorem test_register_takes_the_bits_that_are_not_reserved :
    (match exec (.registerWrite regGlbPaceFloor 0xFFFFFFFF 15 0) up with | .next t => decide (rd t regGlbPaceFloor = 0xFFFF) | _ => false) = true := by
  decide +kernel

/-! ### Channel PHY -/

/-- Channel 31 in a state, on a rung. -/
def wPhy (st rung : Nat) (p : PhySt) : State :=
  regs { up with phys := [(31, p)], tick := 10 ^ 12 } [(regPhyState 31, st + 16 * rung)]

theorem test_w_CommandsStartTraining :
    (let s := wPhy 2 6 {}
     PortFree s ∧ (∀ d ∈ regDoms (regPhyCmd 31), domOn s d = true) ∧ chanState s 31 ≠ 1 ∧ (phy s 31).train = .none ∧
     (phy s 31).unlocked = false ∧ chanState s 31 = 2 ∧ (phy s 31).mixed = false ∧
     topRung (wrf { s with cpResp := 0 } (regPhyState 31) 3 2 0) 31 < chanRung s 31) ∧
    chanState (wPhy 0 0 {}) 31 ≠ 2 ∧ chanState (wPhy 1 6 { train := .full }) 31 = 1 ∧ (7 : Nat) < 8 := by unfold PortFree; decide +kernel

theorem test_w_TriggersOfTraining :
    (let s : State := { wPhy 0 0 { linkAll := [15], trained := [15] } with luns := [(4088, {})] }
     chanState s 31 = 0 ∧ domOn s (32 + 31) = true ∧ (leavingOp s 31).isNone = true ∧ trainLun s 31 15 = some 4088 ∧ (phy s 31).linkAll = (15 : Fin 16).val :: [] ∧ (15 : Fin 16).val ∉ ([] : List Nat)) ∧
    (let s : State := { wPhy 2 6 { trained := [15] } with luns := [(4088, {})] }
     (phy s 31).linkAll = [] ∧ trainLun s 31 15 = some 4088 ∧ trainLun up 31 15 = none ∧ (phy s 31).linkAt + rd s (regPhyLinkIvl 31) / max 1 (phy s 31).trained.length ≤ s.tick ∧
     (phy s 31).trained.getD (phy s 31).linkNext 16 = (15 : Fin 16).val ∧ (phy s 31).lastPass + rd s (regPhyQuickIvl 31) ≤ s.tick) ∧
    (let s := wPhy 2 6 {}
     chanState s 31 = 2 ∧ (phy s 31).mixed = false ∧ topRung s 31 < chanRung s 31 ∧
     (phy s 31).raiseAt + rd s (regPhyRaiseMs 31) * 100000 ≤ s.tick ∧ bit (rd s (regPhyCfg 31)) 16 = false ∧ rdf s (regPhyState 31) 3 2 < 3) ∧
    (let s := wPhy 1 6 { unlocked := true, kept := [(6, [])] }
     (phy s 31).unlocked = true ∧ chanState s 31 = 1 ∧ (phy s 31).kept ≠ [] ∧ chanState s 31 ≠ 3 ∧ trainCes s 31 = [] ∧
     trainCes { s with luns := [(4088, {})] } 31 = [15]) ∧
    (phy (wPhy 1 6 { unlocked := true, pend := some (.full, 0) }) 31).kept = [] ∧
    (phy (wPhy 1 6 { unlocked := true, pend := some (.full, 0) }) 31).pend = some (.full, 0) ∧
    chanState (wPhy 3 6 {}) 31 = 3 ∧ rdf (wPhy 14 6 {}) (regPhyState 31) 3 2 = 3 := by decide +kernel

/-- What a chip enable's training found. -/
def ceGood (ce : Nat) (w : Bool) : CeTrain :=
  { ce := ce, window := w, step := 7, readEye := 255, writeEye := 255, deskew := List.replicate 16 0, dqsDelay := 0, refCode := 0 }

/-- Channel 0 with LUNs behind chip enables 0 and 15, in training. -/
def wTrain (k : Train) (rung : Nat) : State :=
  regs { up with phys := [(0, { train := k, rung := rung, oldRung := 6, trained := [0, 15] })], luns := [(1, {}), (120, {})] }
    [(regPhyState 0, 1 + 16 * rung)]

theorem test_w_TrainingEnds :
    (phy (wTrain .quick 6) 0).train = .quick ∧ (phy (wTrain .full 5) 0).train = .full ∧ (phy (wTrain .full 5) 0).rung < 6 ∧
    canTrain (wTrain .full 6) 0 [0, 15] = true ∧ canTrain { wTrain .full 6 with luns := [(1, {})] } 0 [0, 15] = false ∧
    passedCes (wTrain .full 6) 0 6 (trainGot [0, 15] [ceGood 15 true]) = [15] ∧
    6 ≤ (phy (wTrain .full 6) 0).rung ∧ (phy (wTrain .raise 5) 0).train = .raise ∧ trainCes (wTrain .full 6) 0 = [0, 15] ∧
    cePasses (wTrain .full 6) 0 6 (ceGood 15 true) = true ∧ cePasses (wTrain .full 6) 0 6 (ceGood 15 false) = false ∧
    ([15] : List Nat).length ≤ rdf (regs (wTrain .full 5) [(regPhyCfg 0, 0x1000)]) (regPhyCfg 0) 15 12 ∧
    rdf (regs (wTrain .full 5) [(regPhyCfg 0, 0)]) (regPhyCfg 0) 15 12 < ([15] : List Nat).length := by decide +kernel

/-! ### Resets, bring-up, pins -/

/-- The block with the boot record given, at a tick. -/
def wBoot (t : Nat) (b : BootSt) : State := { up with tick := t, boot := b }

theorem test_w_OptionAreaNeedsBothKeys :
    PortFree up ∧ up.boot.key = none ∧ (0x0A5E0003 : Word).toNat = 0x0A5E0000 + 3 ∧
    (let s := wBoot 999 { key := some 3, armed := true }
     s.boot.key = some 3 ∧ s.boot.armed = true ∧ (0xF5A10003 : Word).toNat = 0xF5A10000 + 3 ∧ s.tick < s.boot.keyAt + 1000 ∧
     (0xF5A10002 : Word).toNat ≠ 0 ∧ (0xF5A10002 : Word).toNat ≠ 0xF5A10000 + 3) ∧
    (let s := wBoot 1000 { key := some 3, armed := true }
     s.boot.armed = true ∧ s.boot.keyAt + 1000 ≤ s.tick) ∧
    (let s := wBoot 1000 { key := some 3 }
     s.boot.key = some 3 ∧ s.boot.armed = false) ∧
    (let s := wBoot 100000000 { unlock := some 3 }
     s.boot.unlock = some 3 ∧ s.boot.openAt + 100000000 ≤ s.tick) ∧
    (wBoot 99999999 { unlock := some 3 }).tick < (wBoot 99999999 { unlock := some 3 }).boot.openAt + 100000000 := by unfold PortFree; decide +kernel

theorem test_w_TimebaseAndPace :
    (let s := wBoot 65536 {}
     s.freqAt + 65536 ≤ s.tick ∧ s.trefStop = false ∧ rd s (regPwrOn 1) ≠ 0 ∧ s.paceAt + 1024 ≤ s.tick ∧ phase s ≤ 1 ∧
     bit (rd s regGlbTbStatus) 1 = false ∧ s.boot.freqOk = false ∧ rdf s regGlbPaceFloor 15 0 ≤ (65535 : BitVec 16).toNat ∧
     (0 : BitVec 16).toNat < rdf s regGlbPaceFloor 15 0) ∧
    rd (regs up [(regPwrOn 1, 0)]) (regPwrOn 1) = 0 ∧
    (let s := regs { up with boot := { freqOk := true } } [(regGlbPace, 0x80003000)]
     s.filled = true ∧ paceValid s = true ∧ s.boot.freqOk = true ∧ bit (rd s regGlbTbStatus) 1 = false ∧ phase s ≤ 1) ∧
    bit (rd (regs up [(regGlbTbStatus, 2)]) regGlbTbStatus) 1 = true := by decide +kernel

/-- The block in a phase of bring-up. -/
def wPhase (n : Nat) : State := regs up [(regBootState, n * 2 ^ 28)]

theorem test_w_BringupRunsInOrder :
    phase (wPhase 2) = 2 ∧ phase (wPhase 3) = 3 ∧ 
    (let s : State := { wPhase 6 with phys := [(31, { unlocked := true })] }
     phase s = 6 ∧ (∀ p ∈ s.phys, p.2.train = .none ∧ p.2.pend = none ∧ (p.2.unlocked = true → goodLuns s p.1 = [] ∨ chanState s p.1 ≠ 1))) ∧
    phase (wPhase 7) = 7 ∧ (wPhase 7).boot.released = false ∧ (wPhase 7).jrn.copies = [] ∧
    phase up ≠ 2 ∧ phase up ≠ 3 ∧ phase up ≠ 6 ∧ phase up ≠ 7 ∧ phase up ≠ 4 ∧ phase up ≠ 15 ∧ phase up ≠ 5 ∧
    (State.reset.filled = false ∧ State.reset.porstN = true ∧ State.reset.srstN = true) ∧ up.filled = true ∧
    (phase (wPhase 4) = 4 ∧ oaOrder [] = [] ∧ PortFree (wPhase 4)) ∧
    phase (wPhase 5) = 5 ∧ (wPhase 5).cfg.log.length < 4096 ∧
    (let s : State := { wPhase 15 with boot := { oaNone := true } }
     phase s = 15 ∧ s.boot.oaNone = true) := by unfold PortFree; decide +kernel

/-- The block with PFAIL_N at a level and the journal's record of it. -/
def wPf (t : Nat) (level : Bool) (j : JrnSt) : State := { up with tick := t, pfailN := level, jrn := j }

theorem test_w_PowerFail :
    up.pfailN = true ∧
    (let s := wPf (100 + max 1 (rdf up regJrnPfail 7 0)) false { pfLow := some 100 }
     s.pfailN = false ∧ s.jrn.pfLow = some 100 ∧ s.jrn.pfActive = false ∧ s.porstN = true ∧ s.srstN = true ∧ rdf s regPwrState 31 30 = 0 ∧
     rdf s regPwrState 1 0 ≤ 1 ∧ s.pwr.step ≠ .patrol ∧ 100 + max 1 (rdf s regJrnPfail 7 0) ≤ s.tick) ∧
    (let s := wPf 100 false { pfLow := some 100 }
     s.tick < 100 + max 1 (rdf s regJrnPfail 7 0)) ∧
    (let s := wPf (10 ^ 9) false { pfLow := some 0, pfActive := true }
     s.jrn.pfActive = true ∧ s.jrn.pfSleep = false ∧ s.jrn.pfFlush = false ∧ 0 + rdf s regJrnPfail 31 8 ≤ s.tick) ∧
    (let s := wPf 1000 true { pfHigh := some 0, pfActive := true, pfDone := true }
     s.pfailN = true ∧ s.jrn.pfHigh = some 0 ∧ 0 + max 1 (rdf s regJrnPfail 7 0) ≤ s.tick ∧ s.jrn.pfDone = true) ∧
    (wPf 1000 true { pfHigh := some 0, pfHold := true }).jrn.pfDone = false := by decide +kernel

theorem test_w_HoldAndAlive :
    ({ up with memHold := true } : State).memHold = true ∧ up.memHold = false ∧ up.pwr.step ≠ .patrol ∧
    ({ up with pwr := { step := .patrol } } : State).pwr.step = .patrol ∧
    (let s : State := { up with memHold := true, tick := 10 ^ 9, pwr := { step := .patrol, heldAt := some 0, visits := [(3, 1)] } }
     s.pwr.step = .patrol ∧ s.memHold = true ∧ s.pwr.heldAt = some 0 ∧ 0 < tget s.pwr.visits (3 : Quad) 0 ∧
     0 + 1000 * rdf s regGlbAgeFurl 15 0 ≤ s.tick) ∧
    (let s : State := { up with aliveOn := true, tick := 1024 }
     s.aliveOn = true ∧ s.trefStop = false ∧ s.blockFault = false ∧ s.tick % 1024 = 0 ∧ s.aliveAt ≠ s.tick) ∧
    ({ up with aliveOn := true, tick := 1025 } : State).tick % 1024 ≠ 0 := by decide +kernel

theorem test_w_TracePorts :
    (let s : State := regs { up with tick := 7, traces := [(4, { wr := 1, rd := 2 ^ 15 - 1, mem := [(0x3FFF, 5)] })] } [(regTrcTimeout 4, 7)]
     domOn s (traceDom 4) = true ∧ ((traceSt s 4).wr + 2 ^ 15 - (traceSt s 4).rd) % 2 ^ 15 ≠ 0 ∧ s.porstN = true ∧ s.srstN = true ∧
     rd s (regTrcTimeout 4) ≠ 0 ∧ (traceSt s 4).lastRead + rd s (regTrcTimeout 4) ≤ s.tick) ∧
    (let f := traceSt up 0
     (f.wr + 2 ^ 15 - f.rd) % 2 ^ 15 = 0) := by decide +kernel

theorem test_trace_port_presents_the_oldest_word :
    (match exec (.tracePortRead 4) { up with traces := [(4, { wr := 1, rd := 2 ^ 15 - 1, mem := [(0x3FFF, 5)] })] } with
     | .next t => decide ((traceSt t 4).out = 5 ∧ (traceSt t 4).rd = 0) | _ => false) = true := by decide +kernel

/-! ### Ports, pool, governor -/

/-- A read burst of class A at an address. -/
def wBurst (wr a : Bool) (d : Option Nat) : Burst :=
  { xid := 1, pos := 0, desc := 0, write := wr, clsA := a, grp := 0, deadline := d, real := d.isSome, addr := 0x1000, len := 32,
    data := zeros 32, seq := 0 }

/-- Port 7 in a state, transfer 1 in progress. -/
def wPort (p : PortSt) : State :=
  { up with tick := 10 ^ 9, ports := [(7, p)], xfers := [{ xid := 1, port := 7, purpose := .cmdOut 5, left := 1 }] }

/-- A burst outstanding under tag 63, accepted by the SoC. -/
def wOut (wr : Bool) (reps : Nat) : OutBurst :=
  { tag := 63, burst := { wBurst wr true none with repeats := reps }, urg := 0, acked := true }

theorem test_w_BurstsAreIssued :
    (let s := wPort { waiting := [wBurst false false none, wBurst true true (some 9)] }
     s.memHold = false ∧ s.porstN = true ∧ s.srstN = true ∧ (port s 7).raised = none ∧ (port s 7).out.length < 63 ∧
     freeTag (port s 7) = some 0 ∧ nextBurst s (port s 7) = some (wBurst true true (some 9), 0, 0)) ∧
    (port (wPort { raised := some 63 }) 7).raised ≠ none ∧
    63 ≤ (port (wPort { out := List.replicate 63 (wOut true 0) }) 7).out.length ∧
    ((port (wPort { raised := some 63 }) 7).raised = some 63 ∧ (port (wPort { raised := some 63 }) 7).gasket = []) ∧
    (let p := port (wPort { out := [wOut true 0] }) 7
     p.gasket = [] ∧ nextWrite p = some (wOut true 0)) := by decide +kernel

theorem test_w_BurstsAreEnded :
    (let p := port (wPort { out := [wOut false 0] }) 7
     p.gasket.find? (fun x => x.tag = 63) = none ∧ tget? p.quar 63 = none ∧
     p.out.find? (fun x => decide (x.tag = 63) && x.acked) = some (wOut false 0) ∧
     beatsOf (wOut false 0).burst.addr (wOut false 0).burst.len ≤ (wOut false 0).answered + 1 ∧
     (wOut false 0).bad = none ∧
     (wOut false 0).burst.write = false ∧ (wOut true 0).burst.write = true ∧ (1 : BitVec 2) ≠ 0 ∧ (wOut false 0).burst.repeats < rdf (wPort {}) regMemCfg 3 0 ∧
     rdf (wPort {}) regMemCfg 3 0 ≤ (wOut false 15).burst.repeats) ∧
    ¬(beatsOf 0x1001 64 ≤ 0 + 1) ∧
    tget? (port (wPort { quar := [(63, 1)] }) 7).quar 63 = some 1 ∧
    (let s := wPort { out := [wOut false 0] }
     (port s 7).out.find? (fun x => x.tag = 63) = some (wOut false 0) ∧ (wOut false 0).since + max 1000 (rd s regMemTimeout) ≤ s.tick) ∧
    (let s : State := { wPort { out := [wOut false 0] } with tick := 999 }
     s.tick < (wOut false 0).since + max 1000 (rd s regMemTimeout)) := by decide +kernel

/-- Quadrant 3's pool in a state; row 9 folds and wants its buffer. -/
def wPool (p : PoolSt) : State :=
  { up with tick := 100, pools := [(3, p)],
            rows := [{ rid := 9, quad := 3, slot := none, zid := 0, row := 0, phase := .folding, acked := 1 }] }

theorem test_w_PoolRequests :
    (pool (wPool { raised := some (.take .reserve) }) 3).raised = some (.take .reserve) ∧
    (pool (wPool { raised := some (.take .reserve) }) 3).retryAt = none ∧
    (let s := wPool { raised := some (.take (.row 9)), reserve := [0x1000] }
     (pool s 3).raised = some (.take (.row 9)) ∧ wantsBuffer s (.row 9) = true ∧ (pool s 3).reserve = 0x1000 :: [] ∧
     drawsReserve (.row 9) = true) ∧
    ((pool (wPool { raised := some (.take (.row 9)) }) 3).reserve = [] ∧ drawsReserve (.staging 1) = false ∧
      BufFor.row 9 ≠ .reserve) ∧
    ((pool (wPool { raised := some (.take (.copy 65535)) }) 3).raised = some (.take (.copy 65535)) ∧
      wantsBuffer (wPool {}) (.copy 65535) = false) ∧
    (pool (wPool { raised := some (.free 0) }) 3).raised = some (.free 0) ∧ (pool (wPool {}) 3).raised = none ∧
    (pool (wPool { retryAt := some 100 }) 3).retryAt = some 100 ∧ (wPool { retryAt := some 101 }).tick < 101 ∧
    (pool (wPool { queue := [.take .reserve] }) 3).queue = .take .reserve :: [] := by decide +kernel

theorem test_w_TemperaturesAreStored :
    (up.porstN = true ∧ up.srstN = true ∧ (zeros 8).length = 8 ∧ ({ up with srstN := false } : State).srstN = false) ∧
    (let s : State := { regs up [(regPhyState 31, 0)] with
       boot := { released := true }, luns := [(4095, {})], tick := 10 ^ 9, gov := { dieAt := [(511, 0)] },
       cfg := { cur := [(49, { costs := [(0, [0, 1])] })] } }
     rd s regGovPoll ≠ 0 ∧ s.boot.released = true ∧ s.blockFault = false ∧ s.trefStop = false ∧
     tget? s.gov.dieAt (4095 / 8) = some 0 ∧ 0 + rd s regGovPoll ≤ s.tick ∧ tempTurn s 4095 = some 4095 ∧
     (leavingOp s (chOf 4095)).isNone = true ∧ domOn s (32 + chOf 4095) = true) ∧
    rd (regs up [(regGovPoll, 0)]) regGovPoll = 0 ∧
    (let s : State := { regs up [(regGovZsensLo 15, 1)] with tick := 2 ^ 40 }
     zStale s 15 = true ∧ (zoneTh s 15).stale = false) := by decide +kernel

theorem test_w_RefillsAndBudgets :
    (let s : State := { up with tick := max 1000 (rdf up regGovCfg 31 16) }
     s.porstN = true ∧ s.srstN = true ∧ s.trefStop = false ∧ s.blockFault = false ∧ s.gov.refill + max 1000 (rdf s regGovCfg 31 16) ≤ s.tick) ∧
    up.tick < up.gov.refill + max 1000 (rdf up regGovCfg 31 16) ∧ ({ up with trefStop := true } : State).trefStop = true ∧
    starts up 0x28 [(0x28, 1, 2)] ∧ budOk 2 (zeros 8) = true ∧ budOk 2 [255, 0, 0, 0, 0, 0, 1, 0] = false ∧ budOk 1 (zeros 64) = true ∧
    (let s : State := { up with gov := { wait := [(5, 2, zeros 8)] } }
     s.gov.wait = [(5, 2, zeros 8)]) ∧ (2 : Nat) ≤ 2 := by decide +kernel


/-- The body of an option-area copy of one item: control-store word 0 of engine 0. -/
def oaBody : List Byte := zeros 4 ++ leBytes 4 4 ++ leBytes 8 32 ++ zeros 20

/-- Its SHA-384. -/
def oaDigest : List Byte :=
  [154, 133, 99, 59, 216, 112, 157, 119, 239, 230, 240, 81, 29, 197, 195, 127, 160, 159, 234, 67, 147, 229, 107, 4,
    88, 103, 53, 8, 65, 159, 195, 186, 159, 247, 25, 100, 212, 83, 195, 244, 172, 95, 50, 108, 217, 34, 236, 221]

/-- The first bytes of a header for it, up to four that make their CRC-32 0, and the copy: the rest of the header is zeros. -/
def oaLead : List Byte := zeros 4 ++ [1, 0] ++ zeros 10 ++ [36, 0, 0, 0] ++ zeros 12 ++ oaDigest ++ [169, 228, 92, 139]
def oaOne : OaCopy := { windowBlock := 0, headerOk := true, header := oaLead ++ zeros 4012, bodyOk := true, body := oaBody }

/-- A run of zero bytes leaves a CRC-32 of 0 (R10). -/
theorem crc_zeros (n : Nat) : (zeros n).foldl (crcByte 32 0x04C11DB7) 0 = 0 := by
  induction n with
  | zero => rfl
  | succ n ih =>
    have h : crcByte 32 0x04C11DB7 0 0 = 0 := by decide +kernel
    simp only [zeros, List.replicate_succ, List.foldl_cons, h] at ih ⊢
    exact ih

theorem crc_step (l : List Byte) (a n c d : Nat) (h : (l.take a).foldl (crcByte 32 0x04C11DB7) 0 = c)
    (e : ((l.drop a).take n).foldl (crcByte 32 0x04C11DB7) c = d) : (l.take (a + n)).foldl (crcByte 32 0x04C11DB7) 0 = d := by
  rw [List.take_add, List.foldl_append, h, e]

theorem oa_lead : (oaLead.take 84).foldl (crcByte 32 0x04C11DB7) 0 = 0 := by
  have h0 : (oaLead.take 0).foldl (crcByte 32 0x04C11DB7) 0 = 0 := rfl
  have h1 := crc_step oaLead 0 10 0 455609720 h0 (by decide +kernel)
  have h2 := crc_step oaLead 10 10 455609720 3115038158 h1 (by decide +kernel)
  have h3 := crc_step oaLead 20 10 3115038158 603762785 h2 (by decide +kernel)
  have h4 := crc_step oaLead 30 10 603762785 3100161268 h3 (by decide +kernel)
  have h5 := crc_step oaLead 40 10 3100161268 1220716289 h4 (by decide +kernel)
  have h6 := crc_step oaLead 50 10 1220716289 3170986148 h5 (by decide +kernel)
  have h7 := crc_step oaLead 60 10 3170986148 1894676129 h6 (by decide +kernel)
  have h8 := crc_step oaLead 70 10 1894676129 2850315403 h7 (by decide +kernel)
  have h9 := crc_step oaLead 80 4 2850315403 0 h8 (by decide +kernel)
  exact h9

theorem oa_header_ok : oaHeaderOk oaOne.header = true := by
  have t : (oaLead ++ zeros 4012).take 0xFFC = oaLead ++ zeros 4008 := by
    have n : oaLead.length = 84 := rfl
    rw [List.take_append, n, List.take_of_length_le (by rw [n]; decide), zeros, List.take_replicate]
    rfl
  have f : fieldAt (oaLead ++ zeros 4012) 0xFFC 4 = 0 := by decide +kernel
  have l : (oaLead ++ zeros 4012).length = 4096 := by decide +kernel
  have c : crc32 (oaLead ++ zeros 4008) = 0 := by
    have h : oaLead.foldl (crcByte 32 0x04C11DB7) 0 = 0 := oa_lead
    rw [crc32, List.foldl_append, h, crc_zeros]
  simp only [oaHeaderOk, oaOne, t, f, l, c]
  decide

theorem test_w_GenerationZeroIsLoaded :
    oaOrder [oaOne] = [(0, oaOne)] ∧ oaBodyOk oaOne.header oaOne.body = true ∧
    oaItemsOk (wPhase 4) oaOne.header oaOne.body = true ∧ phase (wPhase 5) = 5 ∧ (wPhase 5).cfg.log.length < 4096 := by
  refine ⟨?_, by decide +kernel, by decide +kernel, by decide +kernel, by decide +kernel⟩
  have h : oaOne.headerOk = true := rfl
  simp [oaOrder, oa_header_ok, h]
/-! ### Power, configuration -/

/-- Domain 93 in a state. -/
def wDom (m : DomSt) : State := { up with tick := 10000, doms := [(93, m)] }

/-- Its request lines and its acknowledges agree. -/
def stable (s : State) : Bool := decide ((dom s 93).pwrReq = (dom s 93).pwrAck ∧ (dom s 93).retReq = (dom s 93).retAck)

theorem test_w_DomainsAreGatedAndRaised :
    pwrWaking up = false ∧ hasRet 93 = true ∧
    ((dom (wDom { pwrAck := false }) 93).pwrAck ≠ true ∧ (dom (wDom { pwrAck := false }) 93).pwrReq = true) ∧
    ((dom (wDom { retReq := true }) 93).retAck ≠ true ∧ (dom (wDom { retReq := true }) 93).retReq = true) ∧
    stable (wDom {}) = true ∧ stable (wDom { pwrAck := false }) = false ∧
    (stable (wDom { pwrReq := false, pwrAck := false, retReq := true, retAck := true }) = true) ∧
    stable (wDom { goal := 1, retReq := true, retAck := true }) = true ∧ stable (wDom { retReq := true, retAck := true }) = true ∧
    ((dom (wDom { since := some 0 }) 93).since = some 0 ∧ 0 + 10000 ≤ (wDom {}).tick) ∧ (wDom {}).tick < 1 + 10000 ∧
    (dom (wDom {}) 93).since = none ∧
    (let s := regs { up with tick := 1000000 } [(regPwrState, 1)]
     (84 ≤ (91 : Domain).val ∧ (91 : Domain).val < 92) ∧ rdf s regPwrState 1 0 = 1 ∧ domOn s 91 = true ∧ domBusy s 91 = false ∧
     (dom s 91).idleAt + max 1 (rdf s regPwrCtrl 31 16) ≤ s.tick ∧ domStable (dom s 91) = true ∧ (dom s 91).pwrReq = true ∧
     (dom s 91).retReq = false) := by decide +kernel

/-- The block in power state n with the controller's record. -/
def wPwr (n : Nat) (p : PwrSt) : State := regs { up with tick := 10 ^ 12, pwr := p } [(regPwrState, n), (regPwrWakeIvl, 1)]

theorem test_w_PowerStatesAreEntered :
    starts up 0x50 [] ∧ starts up 0x50 [(0x28, 1, 1)] ∧ starts up 0x50 [(0x28, 1, 3)] ∧ rdf up regPwrState 1 0 = 0 ∧ leaseHeld up = none ∧
    (leaseHeld { up with groups := [(0, { lease := .rebuild })] }).isSome = true ∧
    ((wPwr 0 { step := .draining }).pwr.step = .draining ∧ drained (wPwr 0 { step := .draining }) = true ∧
      flushedAll (wPwr 0 { step := .draining }) = true) ∧
    (let s : State := { wPwr 0 { step := .draining } with age := { dirty := [(0, [], 0)] } }
     drained s = true ∧ flushedAll s = false ∧ s.pwr.flushed = false) ∧
    drained (one (wPwr 0 { step := .draining }) (cmd 0x7F [])) = false ∧
    (let s := wPwr 0 { step := .image, target := 3 }
     s.pwr.step = .image ∧ s.xfers = [] ∧ s.cmds = [] ∧ s.pwr.held = false ∧ s.pwr.target = 3) := by decide +kernel

theorem test_w_PowerStatesAreLeft :
    (let s := wPwr 3 {}
     2 ≤ rdf s regPwrState 1 0 ∧ rdf s regPwrState 31 28 = 0 ∧ s.pwr.step = .none ∧ rd s regPwrWakeIvl ≠ 0 ∧ s.trefStop = false ∧
     s.pwr.furlAt + rd s regPwrWakeIvl * 1000000 ≤ s.tick) ∧
    rd (regs (wPwr 3 {}) [(regPwrWakeIvl, 0)]) regPwrWakeIvl = 0 ∧ (wPwr 3 {}).pwr.step ≠ .waking ∧
    (let s := wPwr (3 + 2 ^ 29) { step := .waking }
     s.pwr.step = .waking ∧ (∀ d ∈ wantedDoms s, domOn s d = true) ∧ trainingEnded s = true ∧
     bit (rd s regPwrState) 28 = false ∧ rdf s regPwrState 1 0 = 3 ∧ (some (58 : Fin 59)).isSome = true) ∧
    (let s := wPwr (2 + 2 ^ 29) { step := .waking }
     s.pwr.step = .waking ∧ (∀ d ∈ wantedDoms s, domOn s d = true) ∧ trainingEnded s = true ∧ bit (rd s regPwrState) 28 = false ∧
     ¬rdf s regPwrState 1 0 = 3) ∧
    ∀ c ∈ [({ windowBlock := 0, headerOk := false, header := [], bodyOk := false, body := [] } : OaCopy)], c.headerOk = false := by decide +kernel

/-- The result of the checks of a stage: the reason of a refusal. -/
def stageErr (x : Except (Nat × Nat × Nat) (Tab Slot)) : Bool := match x with | .error _ => true | .ok _ => false

theorem test_w_StagesAndAudits :
    starts up 0x30 [(0x14, 4, 1), (0x28, 4, 1)] ∧ fieldAt (cmd 0x30 [(0x28, 4, 1)]).pkt 0x28 4 ≠ up.cfg.curGen ∧
    up.cfg.staged = false ∧ up.cfg.commitCid = none ∧ up.cfg.draining = false ∧
    stageErr (putItems (readItems up 0 1 0) 0 (copySlots up)) = true ∧ stageErr (putItems [] 0 (copySlots up)) = false ∧
    up.cfg.log.length + measCount [] ≤ 4096 ∧ 4096 < ({ up with cfg := { log := List.replicate 4097 { seq := 0, reg := 6, kind := 10, unit := 0, gen := 1, len := 0, digest := [] } } } : State).cfg.log.length ∧
    starts up 0x32 [(0x14, 4, 60)] ∧ starts up 0x33 [] ∧ up.msrBad = none ∧
    ({ up with msrBad := some 0 } : State).msrBad = some 0 ∧ 58 < 59 := by decide +kernel

/-- A staged generation 1. -/
def wStaged : State := { up with cfg := { staged := true, nextGen := 1, next := (List.range 59).map (fun k => (k, {})) } }

/-- A commit in which every unit has switched, or none. -/
def wCommit (done : List Nat) : State :=
  { up with cfg := { staged := true, nextGen := 1, commitCid := some 5, switched := done.map (fun k => (k, ())),
                     next := [(58, { gen := 1 })] },
            engines := [(0, { mode := 1, g := [(0, 1)] })] }

theorem test_w_CommitsSwitchEveryUnit :
    starts wStaged 0x31 [(0x28, 4, 1)] ∧ wStaged.cfg.staged = true ∧ wStaged.cfg.commitCid = none ∧
    fieldAt (cmd 0x31 [(0x28, 4, 1)]).pkt 0x28 4 = wStaged.cfg.nextGen ∧ fieldAt (cmd 0x31 []).pkt 0x28 4 ≠ wStaged.cfg.nextGen ∧
    wStaged.cfg.log.length < 4096 ∧
    4096 ≤ ({ wStaged with cfg := { wStaged.cfg with log := List.replicate 4096 { seq := 0, reg := 6, kind := 10, unit := 0, gen := 1, len := 0, digest := [] } } } : State).cfg.log.length ∧ up.cfg.staged = false ∧
    ((wCommit []).cfg.commitCid ≠ none ∧ tget? (wCommit []).cfg.switched 58 = none ∧ tget? (wCommit []).cfg.next 58 = some { gen := 1 }) ∧
    ((wCommit (List.range 59)).cfg.commitCid = some 5 ∧ (∀ k ∈ List.range 59, unitSwitched (wCommit (List.range 59)) k = true)) ∧
    (unitSwitched (wCommit []) 0 = false ∧ atSafePoint (wCommit []) 0 = false) ∧ up.cfg.commitCid = none ∧
    (let s : State := { up with cfg := { draining := true, prevGen := 7 } }
     s.cfg.draining = true ∧ workLeft s s.cfg.prevGen = false ∧ workLeft (one s { cmd 0x7F [] with gen := 7 }) 7 = true) := by decide +kernel

/-! ### Zones, rows, flash -/

/-- Three members, two of data, one LUN each on channels 0 to 2. -/
def lay : Layout :=
  { fg := 0, k := 2, m := 1, n := 3, dtRows := 1, c := 1, blockBase := 8, blockCount := 1, s := 1, zidBase := 0, zoneCount := 1,
    dieModel := 0, luns := [1, 129, 257], dt := [[(0, 0), (0, 1), (0, 2)]], staging := [[(1, 20), (129, 20)]], image := [] }

/-- A die model of 200 word lines and 64 LUN-blocks. -/
def die : List Byte := [0, 0, 0, 0, 0, 0, 0, 0, 1, 1, 200, 0, 64, 0, 1]

/-- The block with that layout bound to failure group 0, its channels in service; zone 0 as given. -/
def world (z : ZoneEntry) : State :=
  regs { up with
    layouts := [(0, lay)], groups := [(0, { layout := some 0 })], luns := [(1, {}), (129, {}), (257, {})],
    cfg := { cur := [0, 1, 2].map (fun c => (c, { dies := [(0, die)] })) }, ozt := [(0, z)], jrn := { scanned := true } }
    [(regPhyState 0, 0), (regPhyState 1, 0), (regPhyState 2, 0), (regHopLtSize, 1), (regWpMask 0, 0), (regWpMask 4, 0), (regWpMask 8, 0)]

/-- An open zone with its pointers. -/
def zopen (wp ap : Nat) : ZoneEntry := { state := 1, valid := true, tv := true, wp := wp, appendPt := ap }

theorem test_w_Appends :
    (let s := one (world (zopen 0 0)) (cmd 1 [(0x14, 4, 400)])
     startable s 5 1 = some (cmd 1 [(0x14, 4, 400)]) ∧ boundaryHolds s 5 1 = false ∧ layoutOf? s 0 = some lay ∧ (zone s 0).state = 1 ∧
     oztIdx? s 0 ≠ none ∧ zoneCheck s (cmd 1 [(0x14, 4, 400)]) = none ∧ acceptTest s (cmd 1 [(0x14, 4, 400)]) 0 lay = .take ∧
     (∀ d ∈ s.cmds, d ≠ cmd 1 [(0x14, 4, 400)] → d.zone = none → d.stage = .running) ∧
     (openZone s 0 0 none).isSome = true ∧ (zone s 0).inflight = 0 ∧
     ((zone s 0).gather + 400 + max 1 (rowBlks s lay) - 1) / max 1 (rowBlks s lay) ≤ sliceFree s (zoneQuad s 0)) ∧
    capacity (world (zopen 0 0)) lay = 400 ∧ capacity (world (zopen 0 0)) lay < (zone (world (zopen 0 0)) 0).appendPt + 401 ∧
    (fieldAt (cmd 2 [(0x10, 4, 1)]).pkt 0x10 4 ≠ (zone (world (zopen 0 0)) 0).appendPt) ∧
    (let s := { world { zopen 0 0 with inflight := 15 } with rows := [] }
     acceptTest s (cmd 1 [(0x14, 4, 2)]) 0 lay = .wait ∧ 1 ≤ sliceFree s (zoneQuad s 0)) ∧
    zoneCheck (world { zopen 0 0 with state := 3 }) (cmd 1 []) ≠ none := by decide +kernel

/-- A gathering row of zone 0 with blocks so far. -/
def row1 (n : Nat) : Row := { rid := 9, quad := 0, slot := some 0, zid := 0, row := 0, pieces := [{ cid := 5, cmdBlk := 0, first := 0, count := n }] }

/-- A quadrant's slice with n gathering rows in use beside a partial row of zone 1. -/
def wSlice (n : Nat) : State :=
  { world (zopen 0 0) with
    ozt := [(0, zopen 0 0), (1, { zopen 0 1 with zid := 1, gather := 1, gv := true })],
    rows := { row1 1 with zid := 1 } :: List.replicate n { row1 2 with phase := .filled } }

/-- An append of two rows finds one gathering row free and a victim for a spill. -/
theorem test_w_AppendsWaitForRows :
    let s := wSlice 2046
    let c := cmd 1 [(0x14, 4, 4)]
    acceptTest s c 0 lay = .wait ∧ zoneCheck s c = none ∧ spillsIn s (zoneQuad s 0) = 0 ∧ sliceFree s (zoneQuad s 0) = 1 ∧
    rowsNeeded s c 0 lay = 2 := by decide +kernel

/-- A table whose places 0 to n - 1 all hold one value has none free. -/
theorem full_table {α : Type} (n : Nat) (x : α) : tfree ((List.range n).map (fun i => (i, x))) n = none := by
  have h : ∀ (l : List Nat) (i : Nat), i ∈ l → (tget? (l.map (fun i => (i, x))) i).isSome = true := by
    intro l
    induction l with
    | nil => simp
    | cons a l ih =>
      intro i hi
      by_cases e : a = i
      · simp [tget?, e]
      · simp only [List.map_cons, tget?, e, if_false]
        exact ih i (by simpa [Ne.symm e] using hi)
  simp only [tfree, List.find?_eq_none]
  intro i hi
  simp [Option.isSome_iff_ne_none.mp (h _ i hi)]

/-- With all 65,536 entries of the table of open zones in use none can be taken. -/
theorem test_w_TableFull (e : ZoneEntry) (h : e.zid = 0) :
    oztTake { up with ozt := (List.range 65536).map (fun i => (i, { zopen 0 0 with zid := 1 })) } e = none := by
  have f : oztIdx? { up with ozt := (List.range 65536).map (fun i => (i, { zopen 0 0 with zid := 1 })) } e.zid = none := by
    simp [oztIdx?, List.find?_eq_none, h, zopen]
  simp only [oztTake, f]
  rw [full_table]
  rfl

theorem test_w_GatherRun :
    (let s : State := { world { zopen 0 1 with gather := 1, gv := true } with rows := [row1 1] }
     partial? s 0 = some (row1 1) ∧ row? s 9 = some (row1 1) ∧ oztIdx? s 0 ≠ none ∧ 1 % 2 + 1 = 2 ∧ ¬(1 % 4 + 1 = 4)) := by decide +kernel

theorem test_w_ZonesOpenCloseAndFinish :
    (let s := one (world { zopen 0 0 with state := 0 }) (cmd 5 [])
     zoneCheck s (cmd 5 []) = none ∧ startable s 5 5 = some (cmd 5 []) ∧ boundaryHolds s 5 5 = false ∧ s.jrn.stopped = false ∧
     (openZone s 0 0 (some 0)).isSome = true ∧ (zone s 0).state = 0) ∧
    (let s := one { world { zopen 0 0 with state := 2 } with jrn := { scanned := true, stopped := true } } (cmd 5 [])
     zoneCheck s (cmd 5 []) = none ∧ startable s 5 5 = some (cmd 5 []) ∧ boundaryHolds s 5 5 = false ∧ s.jrn.stopped = true ∧
     (zone s 0).state ≠ 1 ∧ needsZone s 6 0 = false ∧ needsZone s 7 0 = true) ∧
    (let s := one (world (zopen 4 8)) (cmd 6 [])
     zoneCheck s (cmd 6 []) = none ∧ startable s 5 6 = some (cmd 6 []) ∧ boundaryHolds s 5 6 = false) ∧
    (let s := one (world (zopen 4 8)) (cmd 7 [])
     zoneCheck s (cmd 7 []) = none ∧ startable s 5 7 = some (cmd 7 []) ∧ boundaryHolds s 5 7 = false) ∧
    (let s := one (world (zopen 4 8)) (cmd 8 [])
     zoneCheck s (cmd 8 []) = none ∧ startable s 5 8 = some (cmd 8 []) ∧ (zone s 0).wp < 8) ∧
    (let s := world (zopen 8 8)
     8 ≤ (zone s 0).wp ∧ (zone s 0).appendPt ≤ 8 ∧ (zone s 0).state = 1 ∧ (zone s 0).state ≠ 3 ∧ (zone s 0).zid = 0) ∧
    (zone (world { zopen 8 8 with inflight := 1 }) 0).inflight ≠ 0 ∧
    (let s := world (zopen 8 9)
     8 ≤ (zone s 0).wp ∧ 8 < (zone s 0).appendPt) ∧
    (let s : State := { world { zopen 0 2 with gather := 2, staged := 1, gv := true } with rows := [row1 2] }
     (zone s 0).wp < 2 ∧ unstagedBelow s 0 2 = true ∧ unstagedBelow s 0 1 = false ∧ needsExtent s 0 2 = true) := by decide +kernel

theorem test_w_ZonesAreRead :
    (let s := one (world (zopen 400 400)) (cmd 3 [(0x10, 4, 399), (0x14, 4, 1)])
     zoneCheck s (cmd 3 [(0x10, 4, 399), (0x14, 4, 1)]) = none ∧ startable s 5 3 = some (cmd 3 [(0x10, 4, 399), (0x14, 4, 1)]) ∧
     399 + 1 ≤ (zone s 0).wp ∧ (∀ b ∈ List.range' 399 1, aheadOf s 0 b = none)) ∧
    (zone (world (zopen 399 399)) 0).wp < 399 + 1 ∧
    (let s : State := { world (zopen 400 400) with blks := [(1 * 4096 + 8, { erasing := true }), (129 * 4096 + 8, { erasing := true })] }
     aheadOf s 0 0 ≠ none ∧ ((List.range' 0 2).findSome? (aheadOf s 0)).isSome = true) ∧
    (let f : Cmd := { cmd 3 [] with stage := .running, blks := [{ off := 0, stat := .failed {} }] }
     cmd? (one up f) 5 = some f ∧ fieldAt f.pkt 0 1 = 3 ∧ (∀ x ∈ f.blks, x.stat ≠ .pending)) := by decide +kernel

theorem test_w_ZonesAreReset :
    (let s := one (world (zopen 400 400)) (cmd 4 [])
     startable s 5 4 = some (cmd 4 []) ∧ boundaryHolds s 5 4 = false ∧
     (s.cmds.filter (fun d => decide (d.zone = some 0) && decide (d.cid ≠ 5))).length = 0 ∧ membersProtected s 0 = false ∧
     s.jrn.stopped = false ∧ unitBusy s 0 = false ∧ (oztTake s { zone s 0 with zid := 0 }).isSome = true) ∧
    membersProtected (regs (world (zopen 0 0)) [(regWpMask 0, 2)]) 0 = true ∧
    (let s := world (zopen 0 0)
     loc? s 0 2 = some (257, 8) ∧ mstate s 0 2 ≤ 1 ∧ retiredBlock s 257 8 = false ∧ knownErased s 257 8 = false) ∧
    (let s : State := { world (zopen 0 0) with blks := [(257 * 4096 + 8, { retired := true })] }
     loc? s 0 2 = some (257, 8) ∧ mstate s 0 2 ≤ 1 ∧ retiredBlock s 257 8 = true) ∧
    unitBusy (world (zopen 0 0)) 0 = false ∧
    (let s : State := { world { zopen 0 0 with state := 4 } with
       groups := [(0, { layout := some 0, units := [{ zid := 0, rows := [(1, 0)], cur := some 0 }] })] }
     unitBusy s 0 = true) ∧
    (let c : Cmd := { cmd 4 [] with badBlks := [(2, { status := 0x4003 })] }
     cmd? (one (world (zopen 0 0)) c) 5 = some c ∧ (zone (world (zopen 0 0)) 0).zid = 0) := by decide +kernel

theorem test_w_StagingAndFolding :
    (let s : State := { world { zopen 0 1 with gather := 1, gv := true } with rows := [row1 1], cmds := [{ cmd 1 [] with deadline := some 7 }] }
     partial? s 0 = some (row1 1) ∧ piecesDeadline s (cutPieces (row1 1) (zone s 0).staged (zone s 0).gather) = some 7 ∧
     0 < rd s regHopStageLead ∧ 7 ≤ s.tick + rd s regHopStageLead ∧ unstagedIn s (row1 1) = true ∧ (row1 1).staging = none ∧
     (zone s 0).stgExt < 8) ∧
    partial? (world (zopen 0 0)) 0 = none ∧
    (let r : Row := { row1 2 with phase := .filled, acked := 1 }
     let s : State := { world (zopen 0 0) with rows := [r] }
     s.rows.find? (fun r => decide (r.zid = 0) && decide (r.phase = .filled) && decide (0 < r.acked) && r.staging.isNone) = some r) ∧
    (let g : Staging := { sid := 1, rid := 9, zid := 0, row := 0, wseq := 0, fg := 0, set := 0, wl := 0, nwl := 200, first := 0, count := 1,
                          consol := false, spill := false, deadline := 0, real := false, placed := false, began := 0 }
     let s : State := { world (zopen 0 0) with stagings := [g] }
     s.jrn.stopped = false ∧ s.stagings.find? (fun g => decide (g.zid = 0) && !g.placed && decide (g.want = 0)) = some g ∧
     pickSet s 0 0 200 none = some 0 ∧ pickSet s 0 0 201 none = none ∧ pickSet s 0 0 200 (some (0, 0)) = none ∧
     pickSet s 0 0 200 (some (1, 0)) = some 0) ∧
    (let s : State := { world { zopen 0 2 with gather := 2, staged := 1, gv := true, stgExt := 8 } with rows := [row1 2] }
     partial? s 0 = some (row1 2) ∧ unstagedIn s (row1 2) = true ∧ (row1 2).staging = none ∧ 8 ≤ (zone s 0).stgExt) ∧
    (let s : State := { world (zopen 0 0) with groups := [(0, { layout := some 0, setWl := [(0, 200)] })] }
     setList s 0 0 = [0] ∧ (group s 0).setOut = [] ∧ (group s 0).setErase = [] ∧ 0 < tget (group s 0).setWl 0 0 ∧
     (group s 0).newIdx = none ∧ (∀ x ∈ s.extents, x.fg ≠ 0) ∧ (∀ g ∈ s.stagings, g.fg ≠ 0)) := by decide +kernel

theorem test_w_ParityIsTheWeightedSum :
    let cb := cbOf (layDie (world (zopen 0 0)) lay)
    0 < lay.m ∧ 0 < cb ∧ cb ≤ 64 ∧ 4111 < 4112 ∧ (∀ b, b < lay.k * cb → (padBody).length = 4112) ∧ lay.k + lay.m ≤ 3 :=
  ⟨by decide +kernel, by decide +kernel, by decide +kernel, by decide, fun _ _ => by decide +kernel, by decide +kernel⟩

/-- A body of 4,112 equal bytes. -/
def bodyOf (b : Byte) : List Byte := List.replicate 4112 b

/-- A row of two data members and one of parity with the second one lost. -/
def gotOf (a b : Byte) : Tab (List Byte) := [(0, bodyOf a), (2, parityOf 0 [bodyOf a, bodyOf b])]

theorem test_w_AnyKMembers (a b : Byte) :
    ([bodyOf a, bodyOf b] : List (List Byte)).length = 2 ∧ (∀ d ∈ [bodyOf a, bodyOf b], d.length = 4112) ∧ 1 < 2 + 1 ∧
    (∀ p ∈ gotOf a b, p.1 < 2 + 1 ∧ p.2 = (if p.1 < 2 then [bodyOf a, bodyOf b].getD p.1 [] else parityOf (p.1 - 2) [bodyOf a, bodyOf b])) ∧
    ((gotOf a b).map (fun p => p.1)).Nodup ∧ 2 ≤ (gotOf a b).length := by
  have h : ∀ x : Byte, (bodyOf x).length = 4112 := fun x => List.length_replicate
  simp [gotOf, h]

/-- A filled row, streamed to its end. -/
def row2 (p : RowPhase) : Row := { row1 2 with phase := p }

theorem test_w_RowsGoToTheFirstIdleEngine :
    (let s : State := { world (zopen 0 2) with rows := [row2 .ready] }
     (tget s.stes 0 {}).rid = none ∧ (tget s.engines 32 {}).mode ≠ 3 ∧ domOn s (72 + 0) = true ∧ domOn s (88 + 0) = true ∧
     (row2 .ready).quad = 0 ∧ layoutOf? s 0 = some lay ∧ (∀ x ∈ s.rows, x.phase = .ready → x = row2 .ready) ∧
     slotless (row2 .ready) lay = [2] ∧ (takeParitySlots 0 (slotless (row2 .ready) lay) (s, [])).isSome = true) ∧
    (let s : State := { world (zopen 0 2) with rows := [row2 .ready], banks := [(0, { held := (List.range 16).map (fun i => (i, 1)) })] }
     takeParitySlots 0 (slotless (row2 .ready) lay) (s, []) = none) ∧
    (let s : State := { world (zopen 0 2) with rows := [row2 (.streaming 7)], stes := [(7, { rid := some 9 })] }
     (tget s.stes 7 {}).rid = some 9 ∧ row? s 9 = some (row2 (.streaming 7)) ∧ layoutOf? s 0 = some lay ∧ (row2 (.streaming 7)).want = 0 ∧
     (some (0 : Fin 3) = some 0 ∧ 0 < lay.m) ∧ ¬(1 < lay.m) ∧
     (row2 (.streaming 7)).strikes = 0 ∧ s.jrn.full = false ∧ s.jrn.stopped = false) := by decide +kernel
/-- An operation on LUN 1 in a phase. -/
def op1 (t : OpType) (u : OpUse) (p : OpPhase) : Op :=
  { id := 7, kind := .a, type := t, glun := 1, block := 8, wl := 199, deadline := 5, real := true, use := u, phase := p,
    cws := if t = .read then [(0, 3, 4)] else [], gen := 0 }

/-- The block with one operation. -/
def wOp (o : Op) : State := { world (zopen 400 400) with ops := [o], tick := 10 ^ 12 }

/-- A program whose pages stand in its LUN. -/
def loaded1 (p : OpPhase) : Op := { op1 .prog (.stage 3 0 0 0) p with pages := 1 }

/-- What channel 0's bus carries next for that operation. -/
def turn1 (o : Op) (n : BusNeed) : Bool := decide (busTurn (wOp o) 0 = some (o, n))

theorem test_w_TheBusGoesInDeadlineOrder :
    turn1 (op1 .read .items .granted) (.phase .command) = true ∧ turn1 (loaded1 .granted) .confirm = true ∧
    (loaded1 .granted).type = .prog ∧ opPages (wOp (loaded1 .granted)) (loaded1 .granted) ≤ (loaded1 .granted).pages ∧
    (let s := regs (wOp (op1 .read .items .busy)) [(regPhyState 0, 1)]
     chanUp s 0 = false ∧ busTurn s 0 = some (op1 .read .items .busy, .poll)) ∧
    (let s := wOp { op1 .read .items .granted with leaving := true }
     (∃ o ∈ s.ops, chOf o.glun = 0 ∧ o.leaving = true) ∧ ∀ o ∈ s.ops, o.id < 2 ^ 64) := by decide +kernel

theorem test_w_TheBusTakesPhases :
    (let o := { op1 .prog (.member 9 0) .busy with susp := true }
     turn1 o (.phase .suspend) = true ∧ (wOp o).ops.find? (fun x => x.id = o.id) = some o) ∧
    turn1 (op1 .read .items .granted) (.phase .command) = true ∧ turn1 (op1 .read .items .dataOut) (.phase .dataOut) = true ∧
    (op1 .read .items .dataOut).cws = (0, 3, 4) :: [] ∧
    turn1 (op1 .erase (.setErase 0 0 0) .granted) (.phase .erase) = true ∧
    setupBlocked (wOp (op1 .erase (.setErase 0 0 0) .granted)) (op1 .erase (.setErase 0 0 0) .granted) = false ∧
    (let o := op1 .erase (.raw 5) .granted
     let s := regs (wOp o) [(regWpMask 0, 2)]
     busTurn s 0 = some (o, .phase .erase) ∧ setupBlocked s o = true) ∧
    (let o := op1 .erase (.setErase 0 0 0) .granted
     let s := regs (wOp o) [(regWpMask 0, 2)]
     busTurn s 0 = some (o, .phase .erase) ∧ setupBlocked s o = true) ∧
    (let o := op1 .prog (.raw 5) .granted
     let s : State := { wOp o with cmds := [cmd 0x42 []] }
     busTurn s 0 = some (o, .phase .page) ∧ o.pages = 0 ∧ setupBlocked s o = false ∧ cmd? s 5 = some (cmd 0x42 []) ∧
     (openStream s o .ok).2 = true ∧ (pathCheck (openStream s o .ok).1 o .clean).2 = true ∧
     (openStream s o (.error 0)).2 = false) ∧
    turn1 (op1 .prog (.stage 3 0 0 0) .granted) (.phase .page) = true ∧
    turn1 (op1 .rawSeq (.raw 5) .granted) (.phase .raw) = true ∧
    (wOp (op1 .prog (.raw 5) .busy)).tick ≠ 0 ∧ (0 : Byte).toNat / max 1 (dmCwpp (dieOf (wOp (op1 .prog (.raw 5) .granted)) 1)) = 0 := by
  decide +kernel

theorem test_w_OperationsRun :
    (let s := wOp (loaded1 .granted)
     turnOf s 1 = some (loaded1 .granted, .confirm) ∧ s.ops.find? (fun x => x.id = 7) = some (loaded1 .granted)) ∧
    (let o := loaded1 (.loaded 0)
     o.phase = .loaded 0 ∧ 0 + rd (wOp o) (regCsqHoldMax 0) ≤ (wOp o).tick ∧ turnOf (wOp o) 1 = none) ∧
    (wOp (op1 .prog (.member 9 0) (.loaded (10 ^ 12)))).tick < 10 ^ 12 + rd (wOp (op1 .prog (.member 9 0) (.loaded (10 ^ 12)))) (regCsqHoldMax 0) ∧
    (let o := op1 .erase (.setErase 0 0 0) (.stopped 4)
     turnOf (wOp o) 1 = some (o, .resume)) ∧
    (let o := op1 .erase (.setErase 0 0 0) .busy
     let s := wOp o
     turnOf s 1 = some (o, .poll) ∧ o.type ≠ .rawSeq ∧ o.phase = .busy ∧
     rdf s (regPhyState 0) 1 0 ≠ 1 ∧
     o.confirm + o.suspTicks + o.paused + max 1 (rdf s (regCsqCfg 0) 3 0) * dmTime (dieOf s 1) o.type true ≤ s.tick) ∧
    (let o := { op1 .erase (.setErase 0 0 0) .busy with confirm := 10 ^ 12 + 1 }
     (wOp o).tick < o.confirm + o.suspTicks + o.paused + max 1 (rdf (wOp o) (regCsqCfg 0) 3 0) * dmTime (dieOf (wOp o) 1) o.type true ∧
     turnOf (wOp o) 1 = none) ∧
    (let o := op1 .read .items .busy
     turnOf (wOp o) 1 = some (o, .poll) ∧ o.cws ≠ [] ∧ dedupNat (o.cws.map (fun x => x.1 % dmPlanes (dieOf (wOp o) 1))) = [0]) ∧
    (let o := op1 .prog (.raw 5) (.stopping 4)
     turnOf (wOp o) 1 = some (o, .poll)) ∧
    rdf up (regPhyState 0) 1 0 = 1 ∧
    ((wOp (op1 .prog (.raw 5) .granted)).ops = [op1 .prog (.raw 5) .granted] ∧ (op1 .prog (.raw 5) .granted).phase ≠ .busy) := by decide +kernel

/-- A codeword at a stage of its read. -/
def item1 (st : ItemStage) (u : Use) : Item :=
  { id := 4, kind := .a, deadline := 5, real := true, glun := 1, block := 8, wl := 199, page := 0, cw := 3, slc := false, use := [u],
    header := some 0, stage := st, queued := 2 }

/-- A staging SRAM whose slots are all withdrawn holds its data-outs back (R432, R438, R518). -/
theorem test_w_DataOutWaits :
    let o := op1 .read .items .dataOut
    let s := { wOp o with items := [item1 .reading (.blk 5 0)], slots := [(0, { retired := 112 })] }
    o.susp = false ∧ o.cws = (0, 3, 4) :: [] ∧ item? s 4 = some (item1 .reading (.blk 5 0)) ∧
    (item1 .reading (.blk 5 0)).step < 0x10 ∧ (item1 .reading (.blk 5 0)).stage = .reading ∧
    slotsFor s (chOf o.glun) (item1 .reading (.blk 5 0)) ≤ slotsUsed s (chOf o.glun) := by decide +kernel

theorem test_w_CodewordsAreTested :
    (let o := { op1 .read .items .dataOut with leaving := true }
     let s := { wOp o with items := [item1 .reading (.blk 5 0)] }
     s.ops.find? (fun x => x.id = o.id) = some o ∧ chOf o.glun = (0 : Chan).val ∧ o.leaving = true ∧
     (∀ x ∈ s.ops, chOf x.glun = 0 → x.leaving = true → x = o) ∧ o.cws = (0, 3, 4) :: [] ∧ item? s 4 = some (item1 .reading (.blk 5 0)) ∧
     (item1 .reading (.blk 5 0)).strikes < 2 ∧ 2 ≤ ({ item1 .reading (.blk 5 0) with strikes := 2 } : Item).strikes) ∧
    (List.replicate 4648 (0 : Byte)).length = 4648 ∧
    (∀ o ∈ (wOp (op1 .read .items .dataOut)).ops, chOf o.glun = 0 → o.leaving = false) ∧
    (item1 .reading (.raw 5 0 1)).use = [.raw 5 0 1] ∧ (item1 .reading (.raw 5 0 2)).use = [.raw 5 0 2] ∧
    (item1 .reading (.sweep 1)).use = [.sweep 1] ∧ (waitingDec up 0).length < 1024 ∧
    ((item1 .reading (.blk 5 0)).step < 0x10 ∧ (item1 .reading (.blk 5 0)).use ≠ [] ∧
      (∀ u ∈ (item1 .reading (.blk 5 0)).use, u = .blk 5 0)) := by
  refine ⟨by decide +kernel, List.length_replicate, by decide +kernel, rfl, rfl, rfl, by decide +kernel, by decide +kernel⟩

/-- n equal bytes of z zero bits each have n z zero bits. -/
theorem zeroBits_replicate (n : Nat) (b : Byte) (z : Nat) (h : 8 - popcount 8 b.toNat = z) : zeroBits (List.replicate n b) = n * z := by
  have f : ∀ a, (List.replicate n b).foldl (fun a b => a + (8 - popcount 8 b.toNat)) a = a + n * z := by
    induction n with
    | zero => simp
    | succ n ih => intro a; rw [List.replicate_succ, List.foldl_cons, ih, h, Nat.succ_mul]; omega
  simpa [zeroBits] using f 0

/-- At most the threshold's zero bits, and more: a codeword of ones and one of zeros (R246). -/
theorem test_w_ErasedOrNot :
    zeroBits (List.replicate 4648 0xFF) ≤ rdGen up 0 regDecErased % 65536 ∧
    ¬zeroBits (List.replicate 4648 0) ≤ rdGen up 0 regDecErased % 65536 := by
  rw [zeroBits_replicate 4648 0xFF 0 (by decide), zeroBits_replicate 4648 0 8 (by decide)]
  decide +kernel

/-- That codeword waiting for a decoder, alone. -/
def wDec : State := { wOp (op1 .read .items .dataOut) with items := [item1 .staged (.blk 5 0)] }

theorem decQueue_one (s : State) (i : Item) (h : waitingDec s 0 = [i]) (soft : Bool) :
    decQueue s 0 soft = [i].filter (fun i => decide (0x10 ≤ i.step) == soft) := by
  simp only [decQueue, h, List.mergeSort_singleton]
  rfl

theorem test_w_DecodersServe :
    item1 .staged (.blk 5 0) ∈ (decQueue wDec 0 false).filter (fun i => decide (poolOf (chOf i.glun) = 0) || !(idleDec wDec (poolOf (chOf i.glun)) false)) ∧
    domOn wDec (64 + 0) = true ∧
    (decodersOf wDec 0 false).find? (fun d => (tget? (decPool wDec 0).busy d).isNone) = some 0 ∧
    item? wDec 4 = some (item1 .staged (.blk 5 0)) ∧ (∀ x ∈ wDec.items, x.queued < 2 ^ 64) ∧
    classA (item1 .staged (.blk 5 0)) = true ∧ busyA wDec 0 false + 2 < (decodersOf wDec 0 false).length ∧
    (decodersOf { wDec with decs := [(0, { out := (List.range 6).map (fun d => (d, ())) })] } 0 false).length ≤ 2 ∧
    idleDec { wDec with decs := [(0, { out := (List.range 8).map (fun d => (d, ())) })] } 0 false = false ∧
    domOn (regs wDec [(regPwrOn 2, 0)]) (64 + 0) = false := by
  refine ⟨?_, by decide +kernel, by decide +kernel, by decide +kernel, by decide +kernel, by decide +kernel, by decide +kernel,
    by decide +kernel, by decide +kernel, by decide +kernel⟩
  have h : waitingDec wDec 0 = [item1 .staged (.blk 5 0)] := by decide +kernel
  rw [decQueue_one _ _ h]
  decide +kernel

theorem test_w_DecodesEnd :
    (let s : State := { wDec with items := [item1 (.decoding 0 9) (.blk 5 0)], decs := [(0, { busy := [(9, 4)] })] }
     tget? (decPool s 0).busy 9 = some 4 ∧ item? s 4 = some (item1 (.decoding 0 9) (.blk 5 0)) ∧ tget? (decPool s 0).busy 8 = none ∧
     sweepOf (item1 (.decoding 0 9) (.blk 5 0)) = none) ∧ sweepOf (item1 .staged (.sweep 3)) = some 3 ∧
    (item1 .staged (.blk 5 0)).level = none ∧ underErase wDec 1 8 = false ∧ rawFenced wDec 1 = false ∧
    (∀ u ∈ (item1 .staged (.blk 5 0)).use, leaves wDec (item1 .staged (.blk 5 0)) u = false) ∧
    stepAfter (rlOf wDec 0 1) (item1 .staged (.blk 5 0)).step = some 0x10 ∧ (earlyRecon wDec (item1 .staged (.blk 5 0)) 0x10).isNone = true ∧
    ({ item1 .staged (.blk 5 0) with step := 0x11 } : Item).step = 0x11 ∧ (item1 .staged (.blk 5 0)).dstrikes = 0 ∧
    (let s : State := { wDec with groups := [(0, { layout := some 0 })], ozt := [(0, { zopen 400 400 with overlay := 1 })], luns := [(1, { state := 2 })] }
     leaves s { item1 .staged (.blk 5 0) with wl := 0 } (.blk 5 0) = true) ∧
    underErase { wDec with blks := [(1 * 4096 + 8, { erasing := true })] } 1 8 = true := by decide +kernel

/-- A reconstruction of member 1 with its survivors there. -/
def recon1 (u : ReconUse) : Recon :=
  { id := 6, use := u, zid := 0, row := 199, member := 1, cwx := 0, kind := .a, deadline := 5, real := true, asked := [0, 2],
    got := [(0, []), (2, [])], region := true }

theorem test_w_ReconstructionsEnd :
    (∀ u ∈ [ReconUse.spare 0 0 199 [1], .copy 0 0 199 1, .blk 5 0, .scrub 5],
      let s : State := { world (zopen 400 400) with recons := [recon1 u] }
      recon? s 6 = some (recon1 u) ∧ (recon1 u).region = true ∧ lay.k ≤ (recon1 u).got.length ∧
      domOn s (72 + reconQuad s 0 1 * 2) = true ∧ domOn s (88 + reconQuad s 0 1) = true ∧
      loc? (endRecon (dropSurvivors s 6) 6) 0 1 = some (129, 8)) ∧
    layoutOf? (world (zopen 400 400)) 0 = some lay ∧ (recon1 (.blk 5 0)).back = none ∧
    (let c : Cmd := { cmd 3 [] with stage := .running }
     cmd? (endRecon (dropSurvivors (one { world (zopen 400 400) with recons := [recon1 (.blk 5 0)] } c) 6) 6) 5 = some c ∧ piMode c = 0) ∧
    (let c : Cmd := { cmd 3 [] with stage := .running, deadline := some 5 }
     let s := regs { one (world (zopen 400 400)) c with tick := 5 } [(regGovCfg, 1)]
     cmd? s 5 = some c ∧ fieldAt c.pkt 0 1 = 3 ∧ c.deadline = some 5 ∧ bit (rd s regGovCfg) 0 = true ∧ 5 ≤ s.tick ∧ untouched s c = true) ∧
    bit (rd up regGovCfg) 0 = false := by decide +kernel

/-- A body of data d whose guard is g and whose tags are 0. -/
def bodyWith (d : List Byte) (g : Nat) : List Byte := d ++ (leBytes 8 g ++ zeros 8)

theorem guard_of (d : List Byte) (g : Nat) (h : d.length = 4096) : guardOk (bodyWith d g) = decide (g % 256 ^ 8 = crc64 d) := by
  have s : bodyData (bodyWith d g) = d := by
    have t : (d ++ (leBytes 8 g ++ zeros 8)).take 4096 = d := by rw [← h]; exact List.take_left
    simp [bodyData, bodyWith, slice, t, h]
  have f : bodyGuard (bodyWith d g) = g % 256 ^ 8 := by
    rw [bodyGuard, bodyWith, fieldAt_append_right _ _ _ _ (by omega), h, fieldAt_leBytes]
  rw [guardOk, s, f]

theorem xor_byte (n : Nat) (b : Byte) (h : n < 2 ^ 64) : n ^^^ b.toNat < 2 ^ 64 :=
  Nat.xor_lt_two_pow h (by have := b.isLt; omega)

theorem crc64_lt (l : List Byte) : crc64 l < 256 ^ 8 := by
  have step : ∀ (c : Nat) (b : Byte), c < 2 ^ 64 → crc64Byte c b < 2 ^ 64 := by
    intro c b h
    have go : ∀ (k : List Nat) (c : Nat), c < 2 ^ 64 →
        k.foldl (fun c _ => if c % 2 = 1 then (c / 2) ^^^ 0x9A6C9329AC4BC9B5 else c / 2) c < 2 ^ 64 := by
      intro k
      induction k with
      | nil => exact fun c h => h
      | cons a k ih =>
        intro c h
        rw [List.foldl_cons]
        apply ih
        split
        · exact Nat.xor_lt_two_pow (by omega) (by decide)
        · omega
    exact go _ _ (xor_byte c b h)
  have all : ∀ (l : List Byte) (c : Nat), c < 2 ^ 64 → l.foldl crc64Byte c < 2 ^ 64 := by
    intro l
    induction l with
    | nil => exact fun c h => h
    | cons b l ih => exact fun c h => ih _ (step c b h)
  exact Nat.xor_lt_two_pow (all l _ (by decide)) (by decide)

/-- Bodies whose guard passes and fails, and a tag that is not the block's. -/
theorem test_w_OutChecks :
    guardOk (bodyWith (zeros 4096) (crc64 (zeros 4096))) = true ∧ guardOk (bodyWith (zeros 4096) (crc64 (zeros 4096) + 1)) = false ∧
    wantRef (cmd 3 []) 5 = some 5 ∧ bodyRef (bodyWith (zeros 4096) (crc64 (zeros 4096))) ≠ 5 ∧
    outCheck (cmd 3 []) 0 (bodyWith (zeros 4096) (crc64 (zeros 4096))) = none := by
  have l : (zeros 4096).length = 4096 := List.length_replicate
  have c := crc64_lt (zeros 4096)
  have r : bodyRef (bodyWith (zeros 4096) (crc64 (zeros 4096))) = 0 := by
    rw [bodyRef, bodyWith, fieldAt_append_right _ _ _ _ (by omega), l, fieldAt_append_right _ _ _ _ (by simp)]
    rw [leBytes_length]
    decide
  have w : wantRef (cmd 3 []) 5 = some 5 ∧ wantRef (cmd 3 []) 0 = some 0 := by decide +kernel
  have g : guardOk (bodyWith (zeros 4096) (crc64 (zeros 4096))) = true := by rw [guard_of _ _ l, Nat.mod_eq_of_lt c, decide_eq_true rfl]
  refine ⟨g, ?_, w.1, by rw [r]; decide, by simp [outCheck, g, w.2, r]⟩
  rw [guard_of _ _ l, decide_eq_false_iff_not]
  generalize crc64 (zeros 4096) = x at c
  omega

theorem test_w_RawAccesses :
    starts (world (zopen 0 0)) 0x42 [(0x28, 2, 1)] ∧ starts (world (zopen 0 0)) 0x43 [(0x28, 2, 1024)] ∧ inOa 1024 7 = true ∧ inOa 1024 8 = false ∧
    oaOpen up (cmd 0x43 []) 1024 = false ∧ oaOpen { up with boot := { unlock := some 1 } } (cmd 0x43 []) 1024 = true ∧
    rdf (running (one (world (zopen 0 0)) (cmd 0x42 [(0x28, 2, 1)])) 5) (regPhyState (chOf 1)) 1 0 ≠ 3 ∧
    starts (regs (world (zopen 0 0)) [(regPhyState 0, 3)]) 0x43 [(0x28, 2, 1)] ∧
    rdf (regs (world (zopen 0 0)) [(regPhyState 0, 3)]) (regPhyState (chOf 1)) 1 0 = 3 ∧
    rawHeld (world (zopen 0 0)) 1 8 1 = true ∧ rawHeld (world (zopen 0 0)) 1 63 1 = false ∧ protected? (world (zopen 0 0)) 1 = false ∧
    protected? up 1 = true ∧ lunFailed { up with luns := [(1, { state := 2 })] } 1 = true ∧ starts (world (zopen 0 0)) 0x41 [(0x14, 4, 1)] ∧
    (blkSt { up with blks := [(1 * 4096 + 63, { interrupted := true })] } 1 63).interrupted = true ∧
    underErase { up with blks := [(1 * 4096 + 63, { erasing := true })] } 1 63 = true ∧ underErase up 1 63 = false ∧
    (let c : Cmd := { cmd 0x41 [] with stage := .running }
     cmd? (one up c) 5 = some c ∧ c.left = 0 ∧ c.badBlks = []) := by decide +kernel

/-- A raw sequence of one entry and END. -/
def seqOf (kind value : Nat) : List Byte := leBytes 4 value ++ zeros 3 ++ [BitVec.ofNat 8 kind] ++ zeros 8

/-- A sequence on LUN 1 that waits at its entry 0. -/
def wRaw (kind : Nat) : State :=
  { wOp { op1 .rawSeq (.raw 5) .busy with confirm := 0 } with
    cmds := [{ cmd 0x40 [] with acc := [1], bytes := seqOf kind 100, stage := .running }], tick := 100 }

theorem test_w_RawSequences :
    starts (world (zopen 0 0)) 0x40 [(0x14, 4, 2), (0x28, 2, 1)] ∧ rsOk (seqOf 5 100) 2 = true ∧ rsOk (seqOf 7 0) 2 = false ∧
    rsOk (seqOf 3 65536) 2 = true ∧ rsWrites (seqOf 5 100) 2 (dieOf (world (zopen 0 0)) 1) = false ∧
    rsOk (seqOf 3 65537) 2 = false ∧ rsOk (seqOf 5 100) 1 = false ∧ rawHeld (world (zopen 0 0)) 1 0 4096 = true ∧ rawHeld up 1 0 4096 = false ∧
    rdf (world (zopen 0 0)) (regPhyState (chOf 1)) 1 0 ≠ 3 ∧ 1 % 1024 ≠ 0 ∧ 1024 % 1024 = 0 ∧
    (∀ k ∈ [5, 6], let s := wRaw k
     let o := { op1 .rawSeq (.raw 5) .busy with confirm := 0 }
     let c : Cmd := { cmd 0x40 [] with acc := [1], bytes := seqOf k 100, stage := .running }
     s.ops.find? (fun x => x.id = 7) = some o ∧ o.type = .rawSeq ∧ o.phase = .busy ∧ (∀ x ∈ s.ops, x.glun = 1 → x.type = .rawSeq → x = o) ∧
     cmd? s 5 = some c ∧ c.acc.getD 0 0 = 0 + 1 ∧ rsKind c.bytes 0 = k ∧ o.confirm + rsValue c.bytes 0 ≤ s.tick ∧ busOpen s (chOf 1) = true) ∧
    (let s : State := { wRaw 5 with tick := 99 }
     ¬(0 + rsValue (seqOf 5 100) 0 ≤ s.tick)) ∧
    busOpen (regs (wRaw 5) [(regPhyState 0, 3)]) 0 = false := by decide +kernel

/-! ### Layouts, groups, maintenance, journal -/

/-- The image of that layout in SoC memory. -/
def layImage : List Byte :=
  pkt [(0x02, 1, 2), (0x03, 1, 1), (0x04, 2, 3), (0x06, 2, 1), (0x08, 2, 1), (0x0A, 2, 8), (0x0C, 2, 1), (0x0E, 2, 1), (0x14, 4, 1)] ++
    leBytes 2 1 ++ leBytes 2 129 ++ leBytes 2 257 ++ leBytes 4 0 ++ leBytes 4 1 ++ leBytes 4 2 ++ leBytes 4 (1 * 4096 + 20) ++
    leBytes 4 (129 * 4096 + 20)

/-- The block without a bound layout, its image at 0x1000. -/
def unbound : State := dramWrite { world {} with layouts := [], groups := [], ozt := [] } 0x1000 layImage

theorem test_w_LayoutsAreBound :
    starts unbound 0x10 [(0x18, 2, 0x1000)] ∧ readLayout unbound 0x1000 = some { lay with image := layImage } ∧
    readLayout unbound 0x2000 = none ∧ layoutInUse unbound 0 = false ∧ layoutInUse (world {}) 0 = true ∧ (group unbound 0).layout = none ∧
    unbound.jrn.stopped = false ∧ unbound.jrn.scanned = true ∧ (group unbound 0).await = false ∧
    ltUsed unbound + pagesOf layImage.length + fixedPages unbound 0 ≤ 256 * rd unbound regHopLtSize ∧ (group unbound 0).pages = [] ∧
    256 * rd (regs unbound [(regHopLtSize, 0)]) regHopLtSize < ltUsed unbound + pagesOf layImage.length + fixedPages unbound 0 ∧
    ({ unbound with jrn := {} } : State).jrn.scanned = false ∧
    (let s : State := { unbound with groups := [(0, { await := true })] }
     (group s 0).await = true ∧ digestWrong s 0 [] = false) ∧
    (let s : State :=
      { unbound with
        groups := [(0, { await := true })]
        jrn := { scanned := true, found := [{ seq := 0, typ := 8, pfail := false, fg := 0, zid := 0, wseq := 0, row := 0, arg0 := 1, arg1 := 0, arg2 := 0 }] } }
     (group s 0).await = true ∧ digestWrong s 0 [] = true) ∧
    (layoutRules unbound lay = true ∧ lay.dt.length = lay.dtRows ∧ (∀ r ∈ lay.dt, r.length = lay.k + lay.m)) := by decide +kernel

/-- A second layout for the group, on other LUN-blocks. -/
def lay2 : Layout := { lay with blockBase := 24, staging := [[(1, 40), (129, 40)]] }

/-- A reshape of group 0 at its zone. -/
def wReshape (z : ZoneEntry) : State :=
  { world z with layouts := [(0, lay), (65535, lay2)], groups := [(0, { layout := some 0, newIdx := some 65535, lease := .reshape })] }

theorem test_w_ReshapesBegin :
    (let s := dramWrite (world { valid := true }) 0x1000 (layImage.take 0x0A ++ leBytes 2 24 ++ (layImage.drop 0x0C).take 70 ++
        leBytes 4 (1 * 4096 + 40) ++ leBytes 4 (129 * 4096 + 40))
     boundLayout s 0 = some lay ∧ starts s 0x11 [(0x18, 2, 0x1000), (0x30, 2, 65535)] ∧
     (readLayout s 0x1000).map (fun l => { l with image := [] }) = some lay2 ∧ layoutInUse s 65535 = false ∧ reshapeFits s lay lay2 = true ∧
     reshapeFits s lay lay = false ∧ ltRoom s lay2 = true ∧ ltRoom (regs s [(regHopLtSize, 0)]) { lay2 with image := [0] } = false ∧
     (group s 0).lease = .free ∧ s.jrn.stopped = false ∧ (group s 0).await = false ∧ (group s 0).newIdx = none) ∧
    (let s := dramWrite (wReshape {}) 0x1000 layImage
     boundLayout s 0 = some lay ∧
     layFetch s 0x1000 = layImage.length ∧ layFetch up 0x1000 = 64) ∧
    (let s : State := { wReshape {} with groups := [(0, { layout := some 0, newIdx := some 65535 })] }
     (group s 0).lease = .free ∧ (group s 0).newIdx = some 65535 ∧ tget? s.layouts 65535 = some lay2 ∧ (group s 0).layout = some 0 ∧
     (65535 : Nat) ≠ 0 ∧ (group s 0).await = false) ∧
    starts (wReshape {}) 0x13 [] ∧ (reshapeLayouts (wReshape {}) 0) = some (lay, lay2) ∧ (group (wReshape {}) 0).lease = .reshape ∧
    (group (world {}) 0).lease ≠ .reshape := by decide +kernel

theorem test_w_ReshapesCross :
    (let s := wReshape { valid := true, state := 2 }
     hasCrossed s 0 0 = false ∧ copyReady s 0 = true ∧ copyEnded s 0 0 lay2 = true ∧ (group s 0).cpBad = [] ∧
     (∀ i ∈ (group s 0).newIdx, i < 2 ^ 16) ∧ (group s 0).layout = some 0 ∧ (0 : Nat) ≠ 65535 ∧ reshapeLayouts s 0 = some (lay, lay2)) ∧
    hasCrossed (wReshape { valid := true, layout := 65535 }) 0 0 = true ∧
    copyReady (wReshape { valid := true, state := 1, inflight := 1 }) 0 = false ∧
    (zone (wReshape { valid := true, state := 7 }) 0).state = 7 ∧ (zone (wReshape { valid := true, overlay := 1 }) 0).overlay = 1 := by decide +kernel

/-- Zone 0 with a failed member 0, and its entry in the extension table. -/
def wLost : State := setMember (world { state := 2, valid := true, wp := 2 }) 0 0 (memberOf 2 1 8)

theorem test_w_RebuildsRun :
    starts wLost 0x19 [(0x30, 1, 100)] ∧ (group wLost 0).lease = .free ∧ membersIn wLost 0 2 = [(0, 0)] ∧ membersIn (world {}) 0 2 = [] ∧
    (group { wLost with groups := [(0, { layout := some 0, lease := .reshape })] } 0).lease = .reshape ∧ membersIn wLost 0 3 = [] ∧
    (let c : Cmd := { cmd 0x19 [] with stage := .running }
     let s : State := { one (world {}) c with groups := [(0, { layout := some 0, lease := .rebuild, rebCid := some 5 })] }
     (group s 0).rebCid = some 5 ∧ cmd? s 5 = some c ∧ (group s 0).lease = .rebuild) ∧
    starts wLost 0x1A [(0x30, 1, 1)] ∧ bit (fieldAt (cmd 0x1A [(0x30, 1, 1)]).pkt 0x30 8) 0 = true := by decide +kernel

theorem test_w_RebuildUnitsEnd :
    (let u : RebUnit := { zid := 0, rows := [(0, 1)] }
     let s : State := { wLost with groups := [(0, { layout := some 0, lease := .rebuild, units := [u] })] }
     unit? s 0 0 = some u ∧ u.cur = none ∧ u.rows ≠ [] ∧ (∀ p ∈ u.rows, unitBound s 0 ≤ p.2) ∧ unitBound s 0 = 1 ∧
     (s.rows.filter (fun r => decide (r.zid = 0) && r.memb.any (fun p => p.2 = .held))) = []) ∧
    (let s : State := { wLost with rows := [{ row2 .programming with memb := [(0, .held)] }] }
     let l := s.rows.filter (fun r => decide (r.zid = 0) && r.memb.any (fun p => p.2 = .held))
     l = s.rows ∧ l.length = 1) ∧
    unit? wLost 0 0 = none ∧ (4095 < 4096) ∧ (zone (world { overlay := 1 }) 0).overlay = 1 := by decide +kernel

/-- A header that names spares. -/
def wSpare (act : Nat) (sp : List Spare) : State :=
  dramWrite { world { valid := true } with groups := [(0, { layout := some 0, spares := sp })] } 0x2000
    (leBytes 2 0 ++ leBytes 2 1 ++ leBytes 1 act ++ zeros 11 ++ leBytes 4 (257 * 4096 + 63))

theorem test_w_MembersFailAndSpares :
    starts (world {}) 0x18 [(0x28, 1, 1), (0x2A, 2, 4095)] ∧ bits (fieldAt (cmd 0x18 [(0x28, 1, 1), (0x2A, 2, 4095)]).pkt 0x28 8) 27 16 = 4095 ∧
    (world {}).jrn.stopped = false ∧ starts (world {}) 0x18 [(0x28, 1, 1), (0x2A, 2, 21)] ∧
    membersAt (world {}) 0 (fun l => decide (l.1 = 1) && decide (l.2 = 21)) = [] ∧ setList (world {}) 0 0 = [0] ∧
    stgSet (world {}) 0 0 = [(1, 20), (129, 20)] ∧ setList (world {}) 0 65536 = [] ∧ lun? { up with luns := [(1, { state := 2 })] } 1 = some { state := 2 } ∧
    starts (wSpare 0 []) 0x1B [(0x18, 2, 0x2000)] ∧ boundLayout (wSpare 0 []) 0 = some lay ∧ boundLayout up 0 = none ∧
    fieldAt (dramRead (wSpare 0 []) 0x2000 16) 2 2 = 1 ∧ spareAddOk (wSpare 0 []) lay 257 63 = true ∧
    (spareAdd (wSpare 0 []) 0 lay 257 63).isSome = true ∧ (spareAdd (wSpare 0 []) 0 lay 257 8).isNone = true ∧
    (let x : Spare := { glun := 257, block := 63 }
     (group (wSpare 1 [x]) 0).spares[0]? = some x ∧ x.state = 0 ∧ (spareWithdraw (wSpare 1 [x]) 0 257 63).isSome = true ∧
     (spareWithdraw (wSpare 1 [x]) 0 257 62).isNone = true) ∧
    (group (wSpare 0 [{ glun := 257, block := 62, state := 3 }]) 0).spares.findIdx? (fun x => x.state = 3) = some 0 := by decide +kernel

theorem test_w_MaintenanceTakesLeases :
    (let s := one (regs (world { zopen 400 400 with state := 2 }) [(regGlbAgeCtrl, 2 ^ 31)]) (cmd 0x20 [(0x14, 4, 1)])
     startable s 5 0x20 = some (cmd 0x20 [(0x14, 4, 1)]) ∧ boundaryHolds s 5 0x20 = false ∧ zoneCheck s (cmd 0x20 [(0x14, 4, 1)]) = none ∧
     (cmd 0x20 [(0x14, 4, 1)]).cid = 5 ∧ 0 < (zone s 0).wp ∧ leaseGroups s (cmd 0x20 [(0x14, 4, 1)]) = [513, 66049, 131585] ∧
     (∀ b ∈ leaseGroups s (cmd 0x20 [(0x14, 4, 1)]), bgLease s b = none) ∧ ageOn s = true) ∧
    starts up 0x22 [] ∧ ageOn up = false ∧
    (let c : Cmd := { cmd 0x20 [] with stage := .waitLease 0 }
     let s : State := { one (world (zopen 400 400)) c with age := { leases := [(513, (4, 9))] } }
     cmd? s 5 = some c ∧ 0 + fieldAt c.pkt 0x28 8 % 2 ^ 32 ≤ s.tick ∧ leaseGroups s c = [] ++ 513 :: [66049, 131585] ∧ bgLease s 513 = some (4, 9)) ∧
    (let c : Cmd := { cmd 0x22 [] with stage := .running }
     let s : State := { one (regs up [(regGlbAgeCtrl, 2 ^ 31)]) c with age := { leases := [(7, (4, 5))] } }
     s.age.leases.find? (fun p => decide (p.2 = (4, 5))) = some (7, (4, 5)) ∧ cmd? s 5 = some c ∧ ageOn s = true ∧ tget? s.age.dirty 7 = none) ∧
    (∀ p ∈ up.age.leases, p.2 ≠ (4, 5)) ∧ 0 < 1 ∧
    (let c : Cmd := { cmd 0x20 [] with stage := .running, acc := [0, 0, 0, 1] }
     cmd? (one up c) 5 = some c ∧ fieldAt c.pkt 0 1 = 0x20 ∧ c.stage = .running ∧ c.acc.getD 0 0 ≤ c.acc.getD 1 0) := by decide +kernel

theorem test_w_MemoriesAndRecords :
    starts up 0x21 [] ∧ starts up 0x21 [(0x28, 1, 5)] ∧ starts up 0x23 [] ∧ ageOn (regs up [(regGlbAgeCtrl, 2 ^ 31)]) = true ∧
    (let s : State := { up with age := { dirty := [(0, (zeros 256, 0))] } }
     tget? s.age.dirty 0 = some (zeros 256, 0) ∧ (zeros 256).length = 256) ∧
    domOn up (84 + quadOf (0 / 512)) = true ∧ domOn (regs up [(regPwrOn 2, 0)]) (84 + quadOf (0 / 512)) = false ∧
    (let p : Pred := { set := [], temp := 0, tick := 0, gen := 0, stale := false }
     let s : State := { up with age := { pred := [(8 * 2 ^ 18, p)] }, tick := 6000000000 }
     tget? s.age.pred (8 * 2 ^ 18) = some p ∧ 8 * 2 ^ 18 / 8 = 2 ^ 18 ∧ quadOf (2 ^ 18 / 512) = 0 ∧ 0 + 6000000000 ≤ s.tick) := by decide +kernel

/-- A sweep of command 5 whose word lines have been read, and a scrub whose rows have. -/
def wSweep (n : Nat) : Sweep := { id := 5, bg := 7, mask := 1, wls := [], count := n }
def wScrub : Scrub := { cid := 5, zid := 0, finds := [{ row := 0, member := 2, kind := 5, cwx := 0, step := 0, glun := 257, block := 8, detail := 1 }] }

theorem test_w_SweepsAndScrubs :
    (∀ n ∈ [0, 1], let c := cmd 0x22 []
      let s : State := { one (regs up [(regGlbAgeCtrl, 2 ^ 31)]) c with age := { sweeps := [wSweep n] } }
      sweep? s 5 = some (wSweep n) ∧ (wSweep n).wls = [] ∧ (wSweep n).now = none ∧ cmd? s 5 = some c ∧ c.cid = 5 ∧ ageOn s = true ∧
      tget? s.age.dirty 7 = none) ∧
    (let c : Cmd := { cmd 0x20 [] with acc := [0, 0, 0, 1] }
     let s : State := { one up c with age := { scrubs := [wScrub] } }
     cmd? s 5 = some c ∧ scrub? s 5 = some wScrub ∧ wScrub.rows = [] ∧ 0 < c.acc.getD 3 0 ∧ c.acc.getD 0 0 ≤ c.acc.getD 1 0 ∧
     c.acc.getD 2 0 ≤ 1 ∧ ∃ f ∈ wScrub.finds, f.kind = 5 ∨ f.kind = 6) ∧
    (let s : State := { up with age := { scrubs := [{ wScrub with rows := [0] }], sweeps := [{ wSweep 0 with wls := [(0, 0)] }] } }
     (scrub? s 5).map (fun x => x.rows) = some [0] ∧ (sweep? s 5).map (fun x => x.wls) = some [(0, 0)]) := by decide +kernel

theorem test_w_Patrol :
    mneRuns up 3 = false ∧
    (let s : State := { up with age := { patrolAt := [(3, 0)] } }
     tget? s.age.patrolAt 3 = some 0 ∧ s.tick < 0 + patrolEvery s 3) ∧
    domOn (regs up [(regPwrOn 2, 0)]) (84 + 3) = false ∧
    (let s : State := { regs (world {}) [(regGlbAgeCtrl, 2 ^ 31 + 2 ^ 29)] with boot := { released := true } }
     mneRuns s 0 = true ∧ domOn s (84 + 0) = true ∧ patrolDue s 0 = true ∧ s.pwr.step ≠ .patrol ∧ ageOn s = true ∧ bit (rd s regGlbAgeCtrl) 29 = true ∧ rdf s regPwrState 1 0 ≤ 1 ∧
     (∀ p ∈ s.luns, dmBpp (dieOf s p.1) ≤ 4096) ∧ lunFailed s 1 = false ∧ chanUp s 0 = true ∧ bgLease s 512 = none ∧
     (let t := dramWrite s (arAddr s 512) (zeros 4 ++ [1])
      (dramRead t (arAddr s 512) 256).length = 256)) := by decide +kernel

/-- Three live copies of the journal, and a closed page. -/
def wJrn (wl : Nat) : State :=
  { world {} with
    jrn := {
      scanned := true, pages := [{ pseq := 0, closed := true }],
      copies := [0, 1, 2].map (fun c => (c, { live := true, glun := 1 + 128 * c, first := 30, blocks := 4, block := 30, wl := wl })) } }

theorem test_w_JournalPages :
    (let p : PageSt := { pseq := 0, first := 0 }
     let s : State := { world {} with jrn := { pages := [p] }, tick := max 1 (rdf up regJrnCtrl 31 16) }
     (eng s 48).mode ≠ 3 ∧ s.jrn.pages.find? (fun p => !p.closed) = some p ∧ p.first + max 1 (rdf s regJrnCtrl 31 16) ≤ s.tick) ∧
    mayWrite (wJrn 199) 2 = some { pseq := 0, closed := true } ∧ mayWrite (wJrn 200) 2 = none ∧
    pageDurable (wJrn 0).jrn { pseq := 0, closed := true, good := [0, 2] } = true ∧
    pageDurable { copies := [(1, { live := true })] } { pseq := 0, closed := true, good := [1] } = true ∧
    ({ wJrn 200 with jrn := { (wJrn 200).jrn with full := true } } : State).jrn.full = true ∧
    headAtEnd (wJrn 200) = true ∧ headAtEnd (wJrn 199) = false ∧ mayErase (wJrn 200) = true ∧
    (∀ c ∈ liveCopies (wJrn 200).jrn, (blkSt (wJrn 200) (copyAt (wJrn 200) c).glun (copyAt (wJrn 200) c).block).retired = false ∧
      nextBlock (copyAt (wJrn 200) c) = some 31) ∧ (liveCopies (wJrn 200).jrn).Nodup ∧ (wJrn 200).jrn.stopped = false ∧
    (let e : Entry := { seq := 0, typ := 1, fg := 0 }
     let j := (wJrn 200).jrn
     mayErase { wJrn 200 with jrn := { j with live := [(0, 0, [e])], turnNo := 3 } } = false ∧ (0 + windowLen (wJrn 200) ≤ 3 + 1)) := by decide +kernel

theorem test_w_ScanAndRestart :
    (let s : State := { world {} with jrn := {}, boot := { released := true } }
     (eng s 48).mode ≠ 3 ∧ s.jrn.scanned = false ∧ s.jrn.stopped = false ∧ s.boot.released = true ∧ s.jrn.kept = [] ∧ s.jrn.backlog = []) ∧
    (let p : JPage := { pseq := 2 ^ 32 - 1, tailPseq := 2 ^ 32 - 1, copies := 4, entries := [], segs := [] }
     p ∈ [p] ∧ p.copies % 8 ≠ 0) ∧
    (let s : State := { world { valid := true, state := 1 } with groups := [(0, { layout := some 0, await := true })] }
     boundLayout s 0 = some lay ∧ (group s 0).await = true ∧ s.jrn.scanned = true ∧ s.jrn.stopped = false ∧ (zone s 0).valid = true) ∧
    (((List.range (width lay)).filter (fun j => classAt [.good, .good, .good] j = .good)).length = width lay) ∧
    (let n := ((List.range (width lay)).filter (fun j => classAt [.good, .good, .erased] j = .good)).length
     n ≠ width lay ∧ lay.k ≤ n) ∧
    ((List.range (width lay)).filter (fun j => classAt [.good, .erased, .erased] j = .good)).length < lay.k ∧
    2 ∈ suspects lay [.good, .good, .erased] ∧ (eng { up with engines := [(48, { mode := 3 })] } 48).mode = 3 := by decide +kernel

theorem test_w_MemoryStaysCanonical : Memory.wf unbound.dram = true ∧ (∃ t, step up = .next t) := by
  refine ⟨by decide +kernel, ⟨_, rfl⟩⟩

/-- The CRC-32 of a byte of 1 and sixteen zeros. -/
def crcTail : Nat := ([1] ++ zeros 16 : List Byte).foldl (crcByte 32 0x04C11DB7) 0

theorem crcTail_is : crcTail = 399716701 := by decide +kernel

/-- An ageing record in which the last block of the group is programmed. -/
def record : List Byte := zeros 0x3C ++ leBytes 4 399716701 ++ zeros 175 ++ [1] ++ zeros 16

/-- The maintenance engines run with patrol on and one programmed block behind LUN 1. -/
def wPatrol : State :=
  { regs (world {}) [(regGlbAgeCtrl, 2 ^ 31 + 2 ^ 29)] with
    boot := { released := true }, dram := [(131072 + 0x3C, 0x5D), (131072 + 0x3D, 0x31), (131072 + 0x3E, 0xD3), (131072 + 0x3F, 0x17), (131072 + 239, 1)] }

theorem record_split : record.take 0x3C ++ record.drop 0x40 = zeros (0x3C + 175) ++ ([1] ++ zeros 16) := by decide +kernel

theorem record_check : fieldAt record 0x3C 4 = 399716701 := by decide +kernel

theorem crc_split (n : Nat) (l : List Byte) : crc32 (zeros n ++ l) = l.foldl (crcByte 32 0x04C11DB7) 0 := by
  unfold crc32
  rw [List.foldl_append, crc_zeros]

theorem record_crc : crc32 (record.take 0x3C ++ record.drop 0x40) = 399716701 :=
  (congrArg crc32 record_split).trans ((crc_split _ _).trans crcTail_is)

theorem record_good : arGood record = true := by
  have h : fieldAt record 0x3C 4 = crc32 (record.take 0x3C ++ record.drop 0x40) := record_check.trans record_crc.symm
  exact decide_eq_true h

theorem patrol_raw : arRaw wPatrol 512 = record := by decide +kernel

theorem patrol_record : arOf wPatrol 512 = record := by
  have a : ageOn wPatrol = true := by decide +kernel
  rw [arOf, patrol_raw, a, record_good]
  rfl

theorem patrol_sub : subF wPatrol 1 7 0 8 = 2 ^ 56 := by
  have e : fieldAt record (subOff 7 0) 8 = 2 ^ 56 := by decide +kernel
  exact (congrArg (fun r => fieldAt r (subOff 7 0) 8) patrol_record).trans e

theorem patrol_programmed : bgProgrammed wPatrol 512 = true :=
  List.any_eq_true.mpr ⟨7, by decide, decide_eq_true (by rw [patrol_sub]; decide)⟩

theorem patrol_luns : (wPatrol.luns.map (fun p => p.1)).filter (fun g => quadOf g = 0) = [1, 129, 257] := by decide +kernel

theorem patrol_groups : (List.range ((dmBpp (dieOf wPatrol 1) + 7) / 8)).map (fun i => 1 * 512 + i) = [512, 513, 514, 515, 516, 517, 518, 519] := by
  decide +kernel

theorem nextPatrol_first (s : State) (q n g b : Nat) (l gs : List Nat)
    (h : (s.luns.map (fun p => p.1)).filter (fun g => quadOf g = q) = g :: l)
    (hg : (List.range ((dmBpp (dieOf s g) + 7) / 8)).map (fun i => g * 512 + i) = b :: gs) (hn : n ≤ b)
    (hb : bgProgrammed s b = true) : nextPatrol s q n = some b := by
  simp only [nextPatrol, h, List.findSome?_cons, hg, List.find?_cons, hn, hb, decide_true, Bool.and_self]

theorem test_w_PatrolFindsTheGroup : nextPatrol wPatrol 0 0 = some 512 ∧ bgProgrammed wPatrol 512 = true :=
  ⟨nextPatrol_first _ _ _ _ _ _ _ patrol_luns patrol_groups (Nat.zero_le _) patrol_programmed, patrol_programmed⟩


/-- The block with zone 0 EMPTY and the record of the blocks behind LUN 257 that hold one erase of its LUN-block 8. -/
def wErased : State :=
  { regs (world { zopen 0 0 with state := 0 }) [(regGlbAgeCtrl, 2 ^ 31)] with
    dram := [(257 * 131072 + 328, 1), (257 * 131072 + 329, 4), (257 * 131072 + 330, 0xC1), (257 * 131072 + 331, 0x1D), (257 * 131072 + 332, 0xB7)] }

/-- Those bytes of a record leave its CRC-32 at 0. -/
def erasedRecord : List Byte := zeros 72 ++ [1, 4, 0xC1, 0x1D, 0xB7] ++ zeros 179

theorem erased_raw : arRaw wErased (bgOf 257 8) = erasedRecord := by decide +kernel

theorem erased_good : arGood erasedRecord = true := by
  have f : fieldAt erasedRecord 0x3C 4 = 0 := by decide +kernel
  have e : erasedRecord.take 0x3C ++ erasedRecord.drop 0x40 = zeros 68 ++ ([1, 4, 0xC1, 0x1D, 0xB7] ++ zeros 179) := by decide +kernel
  have h : ([1, 4, 0xC1, 0x1D, 0xB7] : List Byte).foldl (crcByte 32 0x04C11DB7) 0 = 0 := by decide +kernel
  have c : crc32 (erasedRecord.take 0x3C ++ erasedRecord.drop 0x40) = 0 := by rw [e, crc_split, List.foldl_append, h, crc_zeros]
  exact decide_eq_true (f.trans c.symm)

/-- A member of an EMPTY zone that is known to be erased. -/
theorem test_w_KnownErased :
    loc? wErased 0 2 = some (257, 8) ∧ mstate wErased 0 2 ≤ 1 ∧ (zone wErased 0).state = 0 ∧ knownErased wErased 257 8 = true := by
  have a : ageOn wErased = true := by decide +kernel
  have o : arOf wErased (bgOf 257 8) = erasedRecord := by rw [arOf, erased_raw, a, erased_good]; rfl
  have f (n k : Nat) : subF wErased 257 8 n k = fieldAt erasedRecord (subOff 8 n) k := by rw [subF, o]
  refine ⟨by decide +kernel, by decide +kernel, by decide +kernel, ?_⟩
  rw [knownErased, retiredBlock, subFlag, f, f, f, a]
  decide +kernel

/-! ### Well-formed and ill-formed commands -/

/-- Commands that are well formed but for one operand each. -/
theorem test_ill_formed :
    ∀ i ∈ [Instr.packetFetch 0 .ok (List.replicate 9 .ok) false, .rcCounterRead 2 0, .rcCounterRead (2 ^ 23) 0, .registerWrite 1 0 15 0, .registerRead (2 ^ 23 + 1) 15,
        .ringContextWrite 0x3FFFFC 0 15, .ringContextWrite 0x800000 0 15, .thermalWord 0 (zeros 7),
        .mpResponseBeat 0 0 0 (zeros 63) 0, .codewordReceived 0 [0] false, .scrubInternal 5 [(0, 0, 0)], .scrubInternal 5 [(7, 0, 0)],
        .scrubInternal 5 [(1, 256, 0)],
        .bootCmdLoadOptionArea (List.replicate 5 { windowBlock := 0, headerOk := false, header := [], bodyOk := false, body := [] }),
        .bootCmdLoadOptionArea [{ windowBlock := 0, headerOk := false, header := [], bodyOk := false, body := [] }],
        .powerExitEnd none [{ windowBlock := 0, headerOk := false, header := [], bodyOk := false, body := [] }],
        .journalScanDone [{ pseq := 0, tailPseq := 0, copies := 0, entries := [], segs := [] }],
        .journalScanDone [{ pseq := 0, tailPseq := 0, copies := 8, entries := [], segs := [] }],
        .journalScanDone [{ pseq := 0, tailPseq := 0, copies := 1, entries := [], segs := [{ segSeq := 0, kind := 2, index := 0, bytes := [] }] }],
        .failureGroupRestart 0 [{ zid := 2 ^ 19, row := 0, members := [], prev := [], parityOk := true }] [],
        .failureGroupRestart 0 [{ zid := 0, row := 0, members := [], prev := [.good], parityOk := true }] [],
        .failureGroupRestart 0 [] [{ set := 0, wl := 0, zid := 0, wseq := 0, row := 0, first := 0, count := 0, seq := 0 }],
        .fullTrainingDone 0 (0, 0) false [{ ceGood 0 true with ce := 16 }],
        .quickRetrainDone 0 (0, 0) false [{ ceGood 0 false with step := 8 }],
        .quickRetrainDone 0 (0, 0) false [{ ceGood 0 true with deskew := [] }],
        .memoryFillDone [65536] [], .memoryFillDone [] [65536],
        .dieDiscoveryDone [{ ch := 32, ce := 0, id := zeros 6, luns := 0 }], .dieDiscoveryDone [{ ch := 0, ce := 16, id := zeros 6, luns := 0 }],
        .samplePreload [] (List.replicate 1664 false), .samplePreload (List.replicate 1664 false) [],
        .journalScanDone [{ pseq := 0, tailPseq := 0, copies := 1, entries := [{ seq := 0, typ := 256, pfail := false, fg := 0, zid := 0, wseq := 0, row := 0, arg0 := 0, arg1 := 0, arg2 := 0 }], segs := [] }],
        .dieDiscoveryDone [{ ch := 0, ce := 0, id := [], luns := 0 }]],
      i.wf = false := by decide +kernel

theorem test_well_formed :
    ∀ i ∈ [Instr.rcCounterRead (2 ^ 23 - 4) 0, .ringContextWrite 0x7FFFFC 0 15, .thermalWord 7 (zeros 8), .mpResponseBeat 0 0 0 (zeros 64) 0,
        .memoryFillDone [65535] [65535], .fullTrainingDone 31 (0, 0) true [ceGood 15 true], .echo 0],
      i.wf = true := by decide +kernel

/-! ### Checks and parity against the spec's figures -/

/-- The check value of R10. -/
theorem test_crc32 : crc32 [0x31, 0x32, 0x33, 0x34, 0x35, 0x36, 0x37, 0x38, 0x39] = 0x89A1897F := by decide +kernel

/-- The check value of R553. -/
theorem test_crc16 : crc16 [0x31, 0x32, 0x33, 0x34, 0x35, 0x36, 0x37, 0x38, 0x39] = 0x29B1 := by decide +kernel

/-- The check values of R507. -/
theorem test_crc4 : crc4 0x00 0 = 0x0 ∧ crc4 0x00 1 = 0x3 ∧ crc4 0xFF 0 = 0xC := by decide +kernel

/-- The keystream of R170 for a register loaded with 1. -/
theorem test_keystream : scramble 1 (zeros 4) = [0x6D, 0xDB, 0x16, 0xC5] := by decide +kernel

/-- The square of g = 0x02 eight times over reduces by the field polynomial (R268). -/
theorem test_gf : gfpow 0x1D 2 8 = 0x1D ∧ gfmul 0x1D 0x80 2 = 0x1D ∧ gfmul 0x1D 0xFF 1 = 0xFF ∧ gfmul 0x1D 0 0xFF = 0 := by decide +kernel

/-! ### Single steps -/

/-- SUB of equal values sets Z (R474). -/
theorem test_sub_sets_z :
    (match exec (.aluSub 3 false 5 1 1) (wEng []) with
     | .next t => decide ((eng t 3).z = true ∧ greg (eng t 3) 5 = 0 ∧ (eng t 3).pc = 0) | _ => false) = true := by decide +kernel

/-- ADD of 0xFFFFFFFF and 0x20 carries (R474). -/
theorem test_add_carries :
    (match exec (.aluAdd 3 true 5 1 2) (wEng []) with
     | .next t => decide ((eng t 3).c = true ∧ greg (eng t 3) 5 = 0x1F ∧ (eng t 3).steps = 0) | _ => false) = true := by decide +kernel

/-- A complete of the normal entry under an occupied fast entry is a stack fault (R465). -/
theorem test_stack_fault :
    (match exec (.evcComplete 2 16) { up with evc := { normal := [(2, 16)], fast := [(2, 20)] } } with
     | .next t => decide (tget? t.evc.normal 2 = none ∧ tget? t.evc.fast 2 = none ∧ tget? t.evc.fault 2 = some ()) | _ => false) = true := by
  decide +kernel

/-- PORST_N clears the tick counter, SRST_N leaves it (R26). -/
theorem test_resets_and_the_tick_counter :
    (match exec .porstNFall { up with tick := 77 } with | .next t => decide (t.tick = 0 ∧ t.porstN = false) | _ => false) = true ∧
    (match exec .srstNFall { up with tick := 77 } with | .next t => decide (t.tick = 77 ∧ t.srstN = false) | _ => false) = true := by
  decide +kernel

/-- A first key of copy 3, and its second key in time (R178). -/
theorem test_option_area_keys :
    (match exec (.oaUnlockFirstKey 0x0A5E0003) up with | .next t => decide (t.boot.key = some 3) | _ => false) = true ∧
    (match exec (.oaUnlockSecondKey 0xF5A10003) (wBoot 999 { key := some 3, armed := true }) with
     | .next t => decide (t.boot.unlock = some 3) | _ => false) = true := by decide +kernel

/-- ZONE_OPEN of an EMPTY zone leaves it OPEN; the command then waits for its journal entry (R101). -/
theorem test_zone_open :
    (match exec (.zoneOpen 5) (one (world { zopen 0 0 with state := 0 }) (cmd 5 [])) with
     | .next t => decide ((zone t 0).state = 1) | _ => false) = true := by decide +kernel

/-- With every unit at a safe point, CONFIG_COMMIT switches them all (R493). -/
theorem test_commit_switches :
    (match exec (.configCommit 5) (one wStaged (cmd 0x31 [(0x28, 4, 1)])) with
     | .next t => (List.range 59).all (unitSwitched t) | _ => false) = true := by decide +kernel

end Sys2Proof.Tests
end

