-- ==== Sys2Proof/Proofs/SocMemory.lean ====
section
/-! SoC memory keeps its canonical form (log entry 2, the model's choice): addresses strictly rising, no zero byte listed.

The model writes SoC memory through `dramWrite` alone, and `memWrite_wf` says that it keeps the form. An operation from which
`dramWrite` is out of reach leaves memory as it is (`f_dram`, a simp lemma); one that may reach it keeps the canonical form
(`f_wf`). Both kinds stand in the order of the model's files, each proved from those of the operations that it calls. -/

namespace Sys2Proof.Machine

/-! ### Folds, branches and options -/

@[simp] theorem dram_ite (c : Prop) [Decidable c] (s t : State) :
    (if c then s else t).dram = if c then s.dram else t.dram := apply_ite State.dram c s t

/-- A fold of an operation that leaves SoC memory leaves it. -/
@[simp] theorem foldl_dram {α : Type} (f : State → α → State) (l : List α) (s : State) (hf : ∀ t x, (f t x).dram = t.dram) :
    (l.foldl f s).dram = s.dram := by
  induction l generalizing s with
  | nil => rfl
  | cons x r ih => rw [List.foldl_cons, ih, hf]

/-- A fold of an operation that keeps the canonical form keeps it. -/
theorem foldl_wf {α : Type} {f : State → α → State} {l : List α} {s : State} (h : Memory.wf s.dram = true)
    (hf : ∀ t x, Memory.wf t.dram = true → Memory.wf (f t x).dram = true) : Memory.wf (l.foldl f s).dram = true := by
  induction l generalizing s with
  | nil => exact h
  | cons x r ih => exact ih (hf s x h)

/-- A fold of an operation that may be refused: what every step keeps holds of what the fold answers. -/
theorem foldl_option {α β : Type} {P : β → Prop} {f : Option β → α → Option β} {l : List α} {acc : Option β} {t : β}
    (h : ∀ u, acc = some u → P u) (hf : ∀ acc a t, (∀ u, acc = some u → P u) → f acc a = some t → P t)
    (e : l.foldl f acc = some t) : P t :=
  List.foldlRecOn (motive := fun acc => ∀ u, acc = some u → P u) l f h (fun acc h a _ u e => hf acc a u h e) t e

/-- An answer, or its substitute where there is none. -/
theorem getD_dram {o : Option State} {d : State} {m : List Host.Cell} (ho : ∀ t, o = some t → t.dram = m) (hd : d.dram = m) :
    (o.getD d).dram = m := by
  cases o with
  | none => exact hd
  | some t => exact ho t rfl

theorem ite_wf {c : Prop} [Decidable c] {s t : State} (hs : Memory.wf s.dram = true) (ht : Memory.wf t.dram = true) :
    Memory.wf (if c then s else t).dram = true := by
  split
  · exact hs
  · exact ht

theorem getD_wf {o : Option State} {d : State} (ho : ∀ t, o = some t → Memory.wf t.dram = true)
    (hd : Memory.wf d.dram = true) : Memory.wf (o.getD d).dram = true := by
  cases o with
  | none => exact hd
  | some t => exact ho t rfl

section
variable (s : State)

/-! ### Ops -/

@[simp] theorem fresh_dram : (fresh s).2.dram = s.dram := by simp [fresh]

@[simp] theorem freeVal_dram : (freeVal s).2.dram = s.dram := by simp [freeVal]

@[simp] theorem modLun_dram (g : Nat) (f : Lun → Lun) : (modLun s g f).dram = s.dram := by
  unfold modLun; split <;> simp

@[simp] theorem cpErr_dram : (cpErr s).dram = s.dram := by simp [cpErr]

@[simp] theorem cpErrRead_dram : (cpErrRead s).dram = s.dram := by simp [cpErrRead]

@[simp] theorem cpWrite_dram (f : State → State) (hf : ∀ t, (f t).dram = t.dram) : (cpWrite s f).dram = s.dram := by
  unfold cpWrite
  split
  · rfl
  · split
    · rfl
    · exact hf _

@[simp] theorem cpRead_dram (f : State → State) (hf : ∀ t, (f t).dram = t.dram) : (cpRead s f).dram = s.dram := by
  unfold cpRead
  split
  · simp
  · split
    · rfl
    · exact hf _

/-! ### Events -/

@[simp] theorem attempt_dram (src : Nat) : (attempt s src).dram = s.dram := by
  grind [attempt, sticky_dram]

@[simp] theorem attemptFault_dram (t : Nat) : (attemptFault s t).dram = s.dram := by simp [attemptFault]

@[simp] theorem settle_dram (all : Bool) (srcs : List Nat) : (settle s all srcs).dram = s.dram := by simp [settle]

@[simp] theorem releaseClass_dram (src : Nat) : (releaseClass s src).dram = s.dram := by simp [releaseClass]

@[simp] theorem filterExpiry_dram (src : Nat) : (filterExpiry s src).dram = s.dram := by
  unfold filterExpiry; split <;> simp

@[simp] theorem claim_dram (fast : Bool) (t : Nat) : (claim s fast t).dram = s.dram := by
  unfold claim; split <;> simp

@[simp] theorem stackFault_dram (t f : Nat) : (stackFault s t f).dram = s.dram := by simp [stackFault]

@[simp] theorem startHold_dram (src : Nat) : (startHold s src).dram = s.dram := by simp [startHold]

@[simp] theorem completeNormal_dram (t src : Nat) : (completeNormal s t src).dram = s.dram := by
  unfold completeNormal; split <;> simp

@[simp] theorem completeFast_dram (t src : Nat) : (completeFast s t src).dram = s.dram := by simp [completeFast]

@[simp] theorem pendSet_dram (fast : Bool) (i ones : Nat) : (pendSet s fast i ones).dram = s.dram := by simp [pendSet]

@[simp] theorem pendClear_dram (fast : Bool) (i ones : Nat) : (pendClear s fast i ones).dram = s.dram := by simp [pendClear]

@[simp] theorem srcWrite_dram (src v : Nat) : (srcWrite s src v).dram = s.dram := by simp [srcWrite]

@[simp] theorem holdoffExpiry_dram (g : Nat) : (holdoffExpiry s g).dram = s.dram := by
  unfold holdoffExpiry; split <;> simp

@[simp] theorem tgtSleep_dram (t : Nat) (level : Bool) : (tgtSleep s t level).dram = s.dram := by simp [tgtSleep]

/-! ### Flags -/

@[simp] theorem trefLost_dram : (trefLost s).dram = s.dram := by simp [trefLost]

/-! ### Ports -/

@[simp] theorem startXfer_dram (a : XferSpec) (spans : List (Nat × Nat × Nat × List Byte)) :
    (startXfer s a spans).dram = s.dram := by simp [startXfer]

@[simp] theorem burstIssue_dram (n : Nat) : (burstIssue s n).dram = s.dram := by
  grind [burstIssue, modPort_dram]

@[simp] theorem modOut_dram (n tag : Nat) (f : OutBurst → OutBurst) : (modOut s n tag f).dram = s.dram := by simp [modOut]

@[simp] theorem requestAccept_dram (n : Nat) : (requestAccept s n).dram = s.dram := by
  grind [requestAccept, modPort_dram, modOut_dram]

@[simp] theorem writeBeat_dram (n : Nat) : (writeBeat s n).dram = s.dram := by
  grind [writeBeat, modOut_dram, modPort_dram, modXfer_dram, bump_dram]

@[simp] theorem endXfer_dram (xid : Nat) (e : XferEnd) : (endXfer s xid e).1.dram = s.dram := by
  unfold endXfer; split <;> simp

@[simp] theorem cancelXfers_dram (gone : Xfer → Bool) : (cancelXfers s gone).dram = s.dram := by simp [cancelXfers]

@[simp] theorem logBeat_dram (n a : Nat) : (logBeat s n a).dram = s.dram := by simp [logBeat]

@[simp] theorem traceBurst_dram (n a : Nat) : (traceBurst s n a).dram = s.dram := by simp [traceBurst]

@[simp] theorem finishBurst_dram (n : Nat) (o : OutBurst) : (finishBurst s n o).1.dram = s.dram := by
  grind [finishBurst, endXfer_dram, traceBurst_dram, modXfer_dram, modPort_dram, sticky_dram]

@[simp] theorem burstTimeout_dram (n tag : Nat) : (burstTimeout s n tag).1.dram = s.dram := by
  grind [burstTimeout, endXfer_dram, logBeat_dram, modPort_dram, traceBurst_dram, sticky_dram]

@[simp] theorem modPool_dram (q : Nat) (f : PoolSt → PoolSt) : (modPool s q f).dram = s.dram := by simp [modPool]

@[simp] theorem poolRaise_dram (q : Nat) : (poolRaise s q).dram = s.dram := by simp [poolRaise]

@[simp] theorem poolAsk_dram (q : Nat) (r : PoolReq) : (poolAsk s q r).dram = s.dram := by simp [poolAsk]

@[simp] theorem poolWait_dram (q : Nat) (r : PoolReq) : (poolWait s q r).dram = s.dram := by simp [poolWait]

@[simp] theorem returnBuf_dram (a : Nat) : (returnBuf s a).dram = s.dram := by simp [returnBuf]

@[simp] theorem askBufs_dram (q n : Nat) (who : BufFor) : (askBufs s q n who).dram = s.dram := by simp [askBufs]

@[simp] theorem dropBufXfers_dram (who : BufFor) : (dropBufXfers s who).dram = s.dram := by simp [dropBufXfers]

/-! ### Checks -/

@[simp] theorem withdraw_dram (code inst line : Nat) : (withdraw s code inst line).dram = s.dram := by
  unfold withdraw; split <;> simp

@[simp] theorem retireLine_dram (code inst line : Nat) : (retireLine s code inst line).dram = s.dram := by simp [retireLine]

@[simp] theorem recovered_dram (code inst rec_ line : Nat) :
    (recovered s code inst rec_ line).dram = s.dram := by simp [recovered]

@[simp] theorem unrecovered_dram (code inst rec_ line : Nat) :
    (unrecovered s code inst rec_ line).dram = s.dram := by simp [unrecovered]

@[simp] theorem recoveredAny_dram (code inst rec_ : Nat) :
    (recoveredAny s code inst rec_).dram = s.dram := by simp [recoveredAny]

@[simp] theorem unrecoveredAny_dram (code inst rec_ : Nat) :
    (unrecoveredAny s code inst rec_).dram = s.dram := by simp [unrecoveredAny]

/-! ### Zones -/

@[simp] theorem markSeg_dram (kind idx : Nat) : (markSeg s kind idx).dram = s.dram := by simp [markSeg]

@[simp] theorem jrnMark_dram : (jrnMark s).dram = s.dram := by simp [jrnMark]

@[simp] theorem closePage_dram : (closePage s).dram = s.dram := by simp [closePage]

theorem placeEntry_dram (e : Entry) {t : State} (ho : placeEntry s e = some t) : t.dram = s.dram := by
  grind [placeEntry, closePage_dram]

@[simp] theorem drainBacklog_dram (n : Nat) : (drainBacklog n s).dram = s.dram := by
  induction n generalizing s with
  | zero => rfl
  | succ n ih =>
    unfold drainBacklog
    split
    · rfl
    · split
      · next hp => rw [ih, ← placeEntry_dram s _ hp]
      · rfl

@[simp] theorem jrnAppend_dram (e : Entry) : (jrnAppend s e).dram = s.dram := by simp [jrnAppend]

@[simp] theorem jrnZone_dram (zid : Nat) : (jrnZone s zid).dram = s.dram := by simp [jrnZone]

@[simp] theorem jrnMember_dram (zid j : Nat) : (jrnMember s zid j).dram = s.dram := by simp [jrnMember]

@[simp] theorem jrnRow_dram (typ zid r arg0 : Nat) : (jrnRow s typ zid r arg0).dram = s.dram := by simp [jrnRow]

@[simp] theorem jrnTable_dram (fg zid arg0 arg1 : Nat) : (jrnTable s fg zid arg0 arg1).dram = s.dram := by simp [jrnTable]

/-! ### Rings -/

@[simp] theorem setCtrl_dram (r b v : Nat) : (setCtrl s r b v).dram = s.dram := by simp [setCtrl]

@[simp] theorem ringEnable_dram (r : Nat) : (ringEnable s r).dram = s.dram := by simp [ringEnable]

@[simp] theorem raiseRing_dram (evt : Nat) : (raiseRing s evt).dram = s.dram := by simp [raiseRing]

@[simp] theorem completionEvent_dram (c : Cmd) : (completionEvent s c).dram = s.dram := by simp [completionEvent]

@[simp] theorem takeSlot_dram (r : Nat) : (takeSlot s r).dram = s.dram := by simp [takeSlot]

@[simp] theorem dropCmd_dram (c : Cmd) : (dropCmd s c).dram = s.dram := by simp [dropCmd]

@[simp] theorem tryComplete_dram (cid : Nat) : (tryComplete s cid).dram = s.dram := by
  unfold tryComplete; split <;> simp

@[simp] theorem completeReady_dram : (completeReady s).dram = s.dram := by simp [completeReady]

@[simp] theorem finish_dram (cid : Nat) (r : Result) : (finish s cid r).dram = s.dram := by simp [finish]

@[simp] theorem finishDurable_dram (cid : Nat) (r : Result) : (finishDurable s cid r).dram = s.dram := by simp [finishDurable]

@[simp] theorem writeOutAt_dram (port : Nat) (c : Cmd) (a : Nat) (bytes : List Byte) (grp : Nat) :
    (writeOutAt s port c a bytes grp).dram = s.dram := by simp [writeOutAt]

@[simp] theorem writeOut_dram (c : Cmd) (a : Nat) (bytes : List Byte) (grp : Nat) :
    (writeOut s c a bytes grp).dram = s.dram := by simp [writeOut]

@[simp] theorem start_dram (cid op : Nat) (f : State → Cmd → State) (hf : ∀ t c, (f t c).dram = t.dram) :
    (start s cid op f).dram = s.dram := by
  unfold start
  split
  · rfl
  · exact hf _ _

@[simp] theorem portFailed_dram (n : Nat) (spans : List (Nat × Nat × Nat)) (st b beat : Nat) :
    (portFailed s n spans st b beat).1.dram = s.dram := by simp [portFailed]

@[simp] theorem portEnd_dram (n : Nat) (spans : List (Nat × Nat × Nat)) (mp : PortEnd) :
    (portEnd s n spans mp).1.dram = s.dram := by
  unfold portEnd; split <;> simp

@[simp] theorem imageEnd_dram (c : Cmd) (len : Nat) (mp : PortEnd) (f : State → State) (hf : ∀ t, (f t).dram = t.dram) :
    (imageEnd s c len mp f).dram = s.dram := by
  have hp := portEnd_dram s (2 * c.home) [(0, cPtr c, len)] mp
  unfold imageEnd
  split <;> simp_all

@[simp] theorem doorbellDiscard_dram : (doorbellDiscard s).dram = s.dram := by simp [doorbellDiscard]

@[simp] theorem coalExpiry_dram (r : Nat) : (coalExpiry s r).dram = s.dram := by simp [coalExpiry]

@[simp] theorem consumeTail_dram (r : Nat) : (consumeTail s r).dram = s.dram := by
  grind [consumeTail, modRing_dram, ringFault_dram, freeVal_dram, cset_dram]

@[simp] theorem consumeHead_dram (r : Nat) : (consumeHead s r).dram = s.dram := by
  unfold consumeHead; split <;> simp

@[simp] theorem doorbellConsume_dram (r : Nat) (kind : Bool) :
    (doorbellConsume s r kind).dram = s.dram := by simp [doorbellConsume]

@[simp] theorem ctxPut_dram (r w v : Nat) : (ctxPut s r w v).dram = s.dram := by simp [ctxPut]

@[simp] theorem ctxWrite_dram (r w v : Nat) : (ctxWrite s r w v).dram = s.dram := by
  unfold ctxWrite
  dsimp only
  split <;> simp only [dram_ite, cpErr_dram, setCtrl_dram, modRing_dram, ctxPut_dram, ringEnable_dram, ringFault_dram, ite_self]

/-! ### Slots -/

@[simp] theorem cfgErr_dram (e : Nat × Nat × Nat) : (cfgErr s e).dram = s.dram := by simp [cfgErr]

@[simp] theorem measExtend_dram (reg kind unit gen len : Nat) (d : List Byte) :
    (measExtend s reg kind unit gen len d).dram = s.dram := by simp [measExtend]

@[simp] theorem measItems_dram (gen : Nat) (items : List (List Byte × List Byte)) :
    (measItems s gen items).dram = s.dram := by simp [measItems]

@[simp] theorem loadRwl_dram (sl : Slot) : (loadRwl s sl).dram = s.dram := by
  unfold loadRwl
  exact foldl_dram _ _ _ fun _ _ => rfl

@[simp] theorem switchUnit_dram (u : Nat) : (switchUnit s u).dram = s.dram := by
  grind [switchUnit, loadRwl_dram]

@[simp] theorem safePoint_dram (u : Nat) : (safePoint s u).dram = s.dram := by simp [safePoint]

/-! ### Flash -/

@[simp] theorem queueOp_dram (o : Op) : (queueOp s o).dram = s.dram := by simp [queueOp]

@[simp] theorem queueProg_dram (o : Op) : (queueProg s o).dram = s.dram := by simp [queueProg]

@[simp] theorem queueRead_dram (i : Item) (lv : List Int) : (queueRead s i lv).dram = s.dram := by simp [queueRead]

@[simp] theorem queueStep_dram (i : Item) : (queueStep s i).dram = s.dram := by simp [queueStep]

@[simp] theorem busPut_dram (g : Nat) (l : List Byte) : (busPut s g l).dram = s.dram := by simp [busPut]

@[simp] theorem modPhy_dram (c : Nat) (f : PhySt → PhySt) : (modPhy s c f).dram = s.dram := by simp [modPhy]

@[simp] theorem releaseOp_dram (o : Op) : (releaseOp s o).dram = s.dram := by simp [releaseOp]

@[simp] theorem dropOp_dram (o : Op) : (dropOp s o).dram = s.dram := by simp [dropOp]

@[simp] theorem resetLun_dram (g : Nat) : (resetLun s g).dram = s.dram := by simp [resetLun]

@[simp] theorem abandon_dram (o : Op) : (abandon s o).dram = s.dram := by simp [abandon]

/-! ### Ageing -/

@[simp] theorem arFetch_dram (bg : Nat) : (arFetch s bg).dram = s.dram := by simp [arFetch]

@[simp] theorem predPut_dram (g b : Nat) (p : Pred) : (predPut s g b p).dram = s.dram := by simp [predPut]

theorem predHit_dram (gen g b : Nat) (wseq : Option Nat) {t : State × List Int} (ho : predHit s gen g b wseq = some t) :
    t.1.dram = s.dram := by
  unfold predHit at ho
  dsimp only at ho
  split at ho <;> split at ho <;> cases ho <;> simp

@[simp] theorem arMod_dram (bg : Nat) (f : List Byte → List Byte) : (arMod s bg f).dram = s.dram := by simp [arMod]

@[simp] theorem subSet_dram (g b i : Nat) : (subSet s g b i).dram = s.dram := by simp [subSet]

@[simp] theorem retireBlock_dram (g b : Nat) : (retireBlock s g b).dram = s.dram := by simp [retireBlock]

@[simp] theorem erasedBad_dram (g b : Nat) : (erasedBad s g b).dram = s.dram := by simp [erasedBad]

@[simp] theorem advise_dram (zid g b cause : Nat) : (advise s zid g b cause).dram = s.dram := by simp [advise]

@[simp] theorem addLoad_dram (g b pts : Nat) (zid : Option Nat) : (addLoad s g b pts zid).dram = s.dram := by
  unfold addLoad
  repeat' split
  all_goals simp

@[simp] theorem estimate_dram (g b wseq : Nat) : (estimate s g b wseq).dram = s.dram := by simp [estimate]

@[simp] theorem predictionRefresh_dram (q bg : Nat) : (predictionRefresh s q bg).dram = s.dram := by simp [predictionRefresh]

/-! ### Jobs -/

@[simp] theorem ageWant_dram (i : Item) : (ageWant s i).dram = s.dram := by simp [ageWant]

@[simp] theorem addNew_dram (i : Item) : (addNew s i).dram = s.dram := by
  unfold addNew
  dsimp only
  split
  · split
    · next hp => simpa using predHit_dram _ _ _ _ _ hp
    · simp
  · simp

@[simp] theorem addItem_dram (i : Item) : (addItem s i).dram = s.dram := by
  unfold addItem; split <;> simp

@[simp] theorem ageFetched_dram (bg : Nat) (good : Bool) : (ageFetched s bg good).dram = s.dram := by
  grind [ageFetched, predPut_dram, ageWant_dram, queueStep_dram, arFetch_dram, modItem_dram, foldl_dram]

@[simp] theorem addRowItem_dram (w : Work) (lt : Layout) (zid r j cwx g b : Nat) (u : Use) :
    (addRowItem s w lt zid r j cwx g b u).dram = s.dram := by simp [addRowItem]

theorem takeSlot?_dram {q p : Nat} {t : Nat × State} (ho : takeSlot? s q p = some t) : t.2.dram = s.dram := by
  unfold takeSlot? at ho
  split at ho
  · obtain ⟨i, -, rfl⟩ := Option.map_eq_some_iff.1 ho
    rfl
  · cases ho

@[simp] theorem dropSlot_dram (q i : Nat) : (dropSlot s q i).dram = s.dram := by simp [dropSlot]

theorem takeRegion_dram {q : Nat} {t : State} (ho : takeRegion s q = some t) : t.dram = s.dram := by
  unfold takeRegion at ho
  split at ho
  · cases ho
    rfl
  · obtain ⟨p, hp, rfl⟩ := Option.map_eq_some_iff.1 ho
    exact takeSlot?_dram s hp

@[simp] theorem trimRegions_dram (q : Nat) : (trimRegions s q).dram = s.dram := by
  unfold trimRegions
  repeat' split
  all_goals simp

@[simp] theorem modRecon_dram (id : Nat) (f : Recon → Recon) : (modRecon s id f).dram = s.dram := by simp [modRecon]

theorem askMore_dram {id : Nat} {t : State} (ho : askMore s id = some t) : t.dram = s.dram := by
  unfold askMore at ho
  split at ho
  · cases ho
    rfl
  · split at ho
    · cases ho
    · dsimp only at ho
      split at ho
      · cases ho
      · cases ho
        exact foldl_dram _ _ _ fun t j => by split <;> simp

theorem startRecon_dram {r : Recon} {t : State} (ho : startRecon s r = some t) : t.dram = s.dram := by
  unfold startRecon at ho
  split at ho
  · cases ho
  · split at ho
    · dsimp only at ho
      split at ho
      · simpa using askMore_dram _ ho
      · split at ho
        · next hr => simpa [takeRegion_dram _ hr] using askMore_dram _ ho
        · cases ho
          rfl
    · cases ho

@[simp] theorem dropSpent_dram : (dropSpent s).dram = s.dram := by simp [dropSpent]

@[simp] theorem dropUses_dram (mine : Use → Bool) : (dropUses s mine).dram = s.dram := by simp [dropUses]

@[simp] theorem dropSurvivors_dram (id : Nat) : (dropSurvivors s id).dram = s.dram := by simp [dropSurvivors]

@[simp] theorem endRecon_dram (id : Nat) : (endRecon s id).dram = s.dram := by
  unfold endRecon; split <;> simp

/-! ### Governor -/

@[simp] theorem charge_dram (z i e : Nat) : (charge s z i e).dram = s.dram := by simp [charge]

@[simp] theorem admitTake_dram (o : Op) (e : Nat) : (admitTake s o e).dram = s.dram := by
  unfold admitTake; split <;> simp

@[simp] theorem countRefusal_dram (a : Adm) : (countRefusal s a).dram = s.dram := by
  unfold countRefusal; split <;> simp

@[simp] theorem traceAround_dram (items : List Item) : (traceAround s items).dram = s.dram := by simp [traceAround]

theorem grantAround_dram {items : List Item} {e1 doneAt : Nat} {back : Option Nat} {t : State}
    (ho : grantAround s items e1 doneAt back = some t) : t.dram = s.dram := by
  unfold grantAround at ho
  dsimp only at ho
  split at ho
  · cases ho
  · next u hu =>
    have hu : u.dram = s.dram := by
      split at hu
      · cases hu
      · refine foldl_option (P := fun t : State => t.dram = s.dram) (fun u e => by cases e; rfl) (fun acc i t ha e => ?_) hu
        split at e
        · refine foldl_option (P := fun t : State => t.dram = s.dram) (fun u e => by cases e; exact ha _ rfl)
            (fun acc x t ha e => ?_) e
          obtain ⟨w, rfl, hw⟩ := Option.bind_eq_some_iff.1 e
          exact (startRecon_dram w hw).trans (ha w rfl)
        · cases e
    split at ho
    · split at ho
      · obtain ⟨v, hv, rfl⟩ := Option.map_eq_some_iff.1 ho
        simp only [bump_dram, traceAround_dram]
        refine foldl_option (P := fun t : State => t.dram = s.dram) (fun w e => by cases e; exact hu)
            (fun acc o t ha e => ?_) hv
        obtain ⟨w, rfl, hw⟩ := Option.bind_eq_some_iff.1 e
        split at hw
        · cases hw
          simpa using ha w rfl
        · cases hw
      · cases ho
    · cases ho

@[simp] theorem dropRead_dram (o : Op) : (dropRead s o).dram = s.dram := by simp [dropRead]

theorem busyRead_dram {u o : Op} {t : State} (ho : busyRead s u o = .around t) : t.dram = s.dram := by
  unfold busyRead at ho
  grind [grantAround_dram, dropRead_dram]

@[simp] theorem capNote_dram (u o : Op) : (capNote s u o).dram = s.dram := by simp [capNote]

@[simp] theorem makeWay_dram (o : Op) : (makeWay s o).dram = s.dram := by simp [makeWay]

@[simp] theorem decideOne_dram (r : Round) (o : Op) : (decideOne r o).s.dram = r.s.dram := by
  unfold decideOne
  dsimp only
  split
  · rfl
  · split
    · dsimp only
      split <;> simp
    · simp

@[simp] theorem decideAll_dram (n : Nat) (r : Round) : (decideAll n r).s.dram = r.s.dram := by
  induction n generalizing r with
  | zero => rfl
  | succ n ih =>
    unfold decideAll
    split
    · rw [ih, decideOne_dram]
    · rfl

@[simp] theorem settleBusy_dram : (settleBusy s).dram = s.dram := by
  grind [settleBusy, capNote_dram, busyRead_dram, foldl_dram]

@[simp] theorem govEvaluate_dram : (govEvaluate s).dram = s.dram := by simp [govEvaluate]

/-! ### Members -/

@[simp] theorem spareErase_dram (fg i : Nat) (a : Spare) (dl : Option Nat) :
    (spareErase s fg i a dl).dram = s.dram := by simp [spareErase]

@[simp] theorem withdrawOps_dram (p : Op → Bool) : (withdrawOps s p).dram = s.dram := by simp [withdrawOps]

@[simp] theorem stagingAgain_dram (sid : Nat) : (stagingAgain s sid).dram = s.dram := by
  unfold stagingAgain; split <;> simp

@[simp] theorem dropStg_dram (g : Staging) : (dropStg s g).dram = s.dram := by simp [dropStg]

@[simp] theorem damageBelow_dram (g b wl : Nat) : (damageBelow s g b wl).dram = s.dram := by simp [damageBelow]

@[simp] theorem dropStaging_dram (g : Nat) (b : Option Nat) : (dropStaging s g b).dram = s.dram := by simp [dropStaging]

@[simp] theorem modJrn_dram (f : JrnSt → JrnSt) : (modJrn s f).dram = s.dram := by simp [modJrn]

@[simp] theorem copyCount_dram : (copyCount s).dram = s.dram := by
  unfold copyCount; split <;> simp

@[simp] theorem jrnCopy_dram (copy created : Nat) : (jrnCopy s copy created).dram = s.dram := by simp [jrnCopy]

@[simp] theorem dropCopy_dram (copy : Nat) : (dropCopy s copy).dram = s.dram := by simp [dropCopy]

@[simp] theorem dropJournal_dram (g : Nat) : (dropJournal s g).dram = s.dram := by simp [dropJournal]

@[simp] theorem addUnit_dram (fg zid j : Nat) (alone : Bool) : (addUnit s fg zid j alone).dram = s.dram := by simp [addUnit]

@[simp] theorem unitFor_dram (fg zid j : Nat) : (unitFor s fg zid j).dram = s.dram := by simp [unitFor]

@[simp] theorem holdRows_dram (zid j : Nat) : (holdRows s zid j).dram = s.dram := by simp [holdRows]

@[simp] theorem forgetUnread_dram (fg zid : Nat) (j : Option Nat) :
    (forgetUnread s fg zid j).dram = s.dram := by simp [forgetUnread]

@[simp] theorem setLunState_dram (g st : Nat) : (setLunState s g st).dram = s.dram := by simp [setLunState]

/-! ### Journal -/

@[simp] theorem placeCheck_dram : (placeCheck s).dram = s.dram := by simp [placeCheck]

@[simp] theorem modCopy_dram (c : Nat) (f : CopySt → CopySt) : (modCopy s c f).dram = s.dram := by simp [modCopy]

@[simp] theorem pageStart_dram (c : Nat) : (pageStart s c).dram = s.dram := by
  unfold pageStart; split <;> simp

@[simp] theorem retirePages_dram : (retirePages s).dram = s.dram := by simp [retirePages]

@[simp] theorem pageGood_dram (c pseq g b : Nat) : (pageGood s c pseq g b).dram = s.dram := by simp [pageGood]

@[simp] theorem pageBad_dram (c g b : Nat) : (pageBad s c g b).dram = s.dram := by simp [pageBad]

@[simp] theorem turnErase_dram (c b : Nat) : (turnErase s c b).dram = s.dram := by simp [turnErase]

@[simp] theorem recreate_dram (c : Nat) : (recreate s c).dram = s.dram := by
  unfold recreate; split <;> simp

@[simp] theorem recreateAll_dram : (recreateAll s).dram = s.dram := by simp [recreateAll]

@[simp] theorem dropRetired_dram : (dropRetired s).dram = s.dram := by simp [dropRetired]

@[simp] theorem windowTurn_dram : (windowTurn s).dram = s.dram := by
  grind [windowTurn, dropCopy_dram, dropRetired_dram, turnErase_dram, modJrn_dram, retirePages_dram, jrnFlag_dram,
    recreateAll_dram, foldl_dram]

@[simp] theorem turnEnd_dram (c g b : Nat) (good : Bool) : (turnEnd s c g b good).dram = s.dram := by simp [turnEnd]

@[simp] theorem segPages_dram (l : List Nat) : (segPages s l).dram = s.dram := by simp [segPages]

@[simp] theorem turnAhead_dram : (turnAhead s).dram = s.dram := by simp [turnAhead]

@[simp] theorem restartCopies_dram : (restartCopies s).dram = s.dram := by simp [restartCopies]

@[simp] theorem applyLunStates_dram (es : List JEntry) : (applyLunStates s es).dram = s.dram := by simp [applyLunStates]

@[simp] theorem scanDone_dram (found : List JPage) : (scanDone s found).dram = s.dram := by
  grind [scanDone, modJrn_dram, jrnFlag_dram, modGroup_dram, applyLunStates_dram, drainBacklog_dram, jrnMark_dram, bump_dram,
    foldl_dram]

/-! ### Hopper -/

@[simp] theorem noteLow_dram (q : Nat) : (noteLow s q).dram = s.dram := by simp [noteLow]

@[simp] theorem zoneStart_dram (cid op : Nat) (f : State → Cmd → State) (hf : ∀ t c, (f t c).dram = t.dram) :
    (zoneStart s cid op f).dram = s.dram := by
  unfold zoneStart
  split
  · rfl
  · refine start_dram _ _ _ _ fun t c => ?_
    split
    · simp
    · exact hf _ _

@[simp] theorem blocksDone_dram (cid n needSeq : Nat) (bad : List (Nat × Result)) :
    (blocksDone s cid n needSeq bad).dram = s.dram := by simp [blocksDone]

@[simp] theorem rangeDone_dram (r : Row) (lo hi needSeq : Nat) :
    (rangeDone s r lo hi needSeq).dram = s.dram := by simp [rangeDone]

@[simp] theorem wantStaging_dram (zid : Nat) (spill : Bool) (dl : Option Nat) : (wantStaging s zid spill dl).dram = s.dram := by
  unfold wantStaging; split <;> simp

@[simp] theorem startSpill_dram (q : Nat) : (startSpill s q).dram = s.dram := by
  unfold startSpill; split <;> simp

@[simp] theorem runSpills_dram (n q : Nat) : (runSpills n s q).dram = s.dram := by
  induction n generalizing s with
  | zero => rfl
  | succ n ih =>
    unfold runSpills
    split
    · rw [ih, startSpill_dram]
    · rfl

@[simp] theorem servePressure_dram (q : Nat) : (servePressure s q).dram = s.dram := by simp [servePressure]

@[simp] theorem dropRow_dram (r : Row) : (dropRow s r).dram = s.dram := by simp [dropRow]

@[simp] theorem dropExtents_dram (zid row : Nat) : (dropExtents s zid row).dram = s.dram := by simp [dropExtents]

@[simp] theorem jrnExtent_dram (a : Extent) (ends : Nat) : (jrnExtent s a ends).dram = s.dram := by simp [jrnExtent]

@[simp] theorem reshapeDurable_dram (g : Staging) : (reshapeDurable s g).dram = s.dram := by simp [reshapeDurable]

@[simp] theorem zoneQuery_dram (cid : Nat) : (zoneQuery s cid).dram = s.dram := by simp [zoneQuery]

@[simp] theorem stageLead_dram (zid : Nat) : (stageLead s zid).dram = s.dram := by
  grind [stageLead, wantStaging_dram]

/-! ### Rows -/

@[simp] theorem streamBlocks_dram (port id : Nat) (ps : List Piece) (bs : List Nat) (dl : Nat) (real : Bool) :
    (streamBlocks s port id ps bs dl real).dram = s.dram := by
  grind [streamBlocks, startXfer_dram, foldl_dram]

@[simp] theorem seqStream_dram (g : Nat) (bs : List Nat) (spans : Nat → List (Nat × Nat × Nat)) (mp : PortEnd) :
    (seqStream s g bs spans mp).1.dram = s.dram := by
  unfold seqStream; split <;> simp

@[simp] theorem streamOk_dram (ps : List Piece) (t : Tab (List Byte)) (zid b off site : Nat) (pi : Bool) (bytes : List Byte) :
    (streamOk s ps t zid b off site pi bytes).1.dram = s.dram := by
  unfold streamOk
  repeat' split
  all_goals simp

@[simp] theorem streamBad_dram (ps : List Piece) (id b off : Nat) (r : Result) : (streamBad s ps id b off r).dram = s.dram := by
  unfold streamBad; split <;> simp

@[simp] theorem stagePrograms_dram (g : Staging) : (stagePrograms s g).dram = s.dram := by simp [stagePrograms]

@[simp] theorem noteBlock_dram (cid off : Nat) (r : Result) : (noteBlock s cid off r).dram = s.dram := by simp [noteBlock]

@[simp] theorem stageStream_dram (o : Op) (sid : Nat) (mp : PortEnd) : (stageStream s o sid mp).1.dram = s.dram := by
  unfold stageStream
  split
  · rfl
  · extract_lets ps bs spans
    have hs := seqStream_dram s o.glun bs spans mp
    dsimp -zeta only
    split <;> extract_lets lost u w
    all_goals
      have hu : u.dram = s.dram := by
        refine (foldl_dram _ _ _ fun t b => ?_).trans hs
        split
        · rfl
        · split
          · dsimp only
            split
            · split <;> simp
            · rfl
          · rfl
      repeat' split
      all_goals simp [w, hu]

@[simp] theorem rowBlock_dram (rid b : Nat) (body : Option (List Byte)) :
    (rowBlock s rid b body).dram = s.dram := by simp [rowBlock]

@[simp] theorem streamFolded_dram (port : Nat) (r : Row) (bs : List Nat) :
    (streamFolded s port r bs).dram = s.dram := by simp [streamFolded]

@[simp] theorem rowInEnd_dram (port id b : Nat) (pi : Bool) (e : XferEnd) (bytes : List Byte) :
    (rowInEnd s port id b pi e bytes).dram = s.dram := by
  unfold rowInEnd
  repeat' split
  all_goals simp

@[simp] theorem rowInAgain_dram (rid b : Nat) : (rowInAgain s rid b).dram = s.dram := by
  unfold rowInAgain
  repeat' split
  all_goals simp

theorem readCopy_dram (w : Work) (zid row b from_ : Nat) (use : Nat → Use) {t : State}
    (ho : readCopy s w zid row b from_ use = some t) :
    t.dram = s.dram := by
  grind [readCopy, addItem_dram]

@[simp] theorem foldStart_dram (zid : Nat) : (foldStart s zid).dram = s.dram := by
  unfold foldStart; split <;> simp

@[simp] theorem toBuffer_dram (w : Work) (g grp : Nat) (who : BufFor) (b a : Nat) (body : List Byte) :
    (toBuffer s w g grp who b a body).dram = s.dram := by simp [toBuffer]

@[simp] theorem foldReady_dram (rid : Nat) : (foldReady s rid).dram = s.dram := by simp [foldReady]

@[simp] theorem foldGot_dram (rid b g : Nat) (body : List Byte) (poison : Bool) :
    (foldGot s rid b g body poison).dram = s.dram := by
  unfold foldGot; split <;> simp

@[simp] theorem stageGot_dram (sid b : Nat) (poison : Bool) : (stageGot s sid b poison).dram = s.dram := by simp [stageGot]

@[simp] theorem restageGot_dram (sid b l : Nat) (body : List Byte) (poison : Bool) :
    (restageGot s sid b l body poison).dram = s.dram := by
  unfold restageGot; split <;> simp

@[simp] theorem stagePlace_dram (g : Staging) : (stagePlace s g).dram = s.dram := by
  grind [stagePlace, stagePrograms_dram, modGroup_dram, hopFlag_dram, modStg_dram]

@[simp] theorem stagingStart_dram (zid : Nat) : (stagingStart s zid).dram = s.dram := by
  unfold stagingStart
  repeat' split
  all_goals simp

@[simp] theorem stageBad_dram (sid set wl : Nat) : (stageBad s sid set wl).dram = s.dram := by
  unfold stageBad; split <;> simp

@[simp] theorem setErases_dram (fg set : Nat) : (setErases s fg set).dram = s.dram := by simp [setErases]

@[simp] theorem setEraseEnd_dram (fg set copy : Nat) (good : Bool) :
    (setEraseEnd s fg set copy good).dram = s.dram := by simp [setEraseEnd]

@[simp] theorem moveExtent_dram (a : Extent) : (moveExtent s a).dram = s.dram := by simp [moveExtent]

@[simp] theorem reclaimList_dram (fg base : Nat) : (reclaimList s fg base).dram = s.dram := by
  grind [reclaimList, moveExtent_dram, setErases_dram, foldl_dram]

@[simp] theorem stagingReclaim_dram (fg : Nat) : (stagingReclaim s fg).dram = s.dram := by simp [stagingReclaim]

theorem takeParitySlots_dram {q : Nat} {l : List Nat} {p t : State × Tab Nat} (ho : takeParitySlots q l p = some t) :
    t.1.dram = p.1.dram := by
  induction l generalizing p with
  | nil => cases ho; rfl
  | cons j l ih =>
    obtain ⟨x, hx, hr⟩ := Option.bind_eq_some_iff.1 ho
    exact (ih hr).trans (takeSlot?_dram _ hx)

@[simp] theorem rowStream_dram (ste : Nat) (r : Row) : (rowStream s ste r).dram = s.dram := by simp [rowStream]

@[simp] theorem rowParityStart_dram (ste : Nat) : (rowParityStart s ste).dram = s.dram := by
  unfold rowParityStart
  dsimp only
  split
  · split
    · rfl
    · split
      · rfl
      · split
        · simp
        · next hp => simpa using takeParitySlots_dram hp
  · rfl

@[simp] theorem queueMember_dram (r : Row) (j : Nat) : (queueMember s r j).dram = s.dram := by
  unfold queueMember; split <;> simp

@[simp] theorem rowsProgram_dram : (rowsProgram s).dram = s.dram := by
  grind [rowsProgram, modRow_dram, queueMember_dram, foldl_dram]

@[simp] theorem releaseParity_dram (r : Row) (j : Nat) : (releaseParity s r j).dram = s.dram := by
  unfold releaseParity; split <;> simp

@[simp] theorem rowRestream_dram (rid : Nat) : (rowRestream s rid).dram = s.dram := by
  unfold rowRestream
  repeat' split
  all_goals simp

/-! ### Domains -/

@[simp] theorem setDom_dram (d st : Nat) : (setDom s d st).dram = s.dram := by simp [setDom]

@[simp] theorem modDom_dram (d : Nat) (f : DomSt → DomSt) : (modDom s d f).dram = s.dram := by simp [modDom]

@[simp] theorem domAdvance_dram (d : Nat) : (domAdvance s d).dram = s.dram := by
  grind [domAdvance, setDom_dram, modDom_dram]

@[simp] theorem raiseDom_dram (d : Nat) : (raiseDom s d).dram = s.dram := by simp [raiseDom]

@[simp] theorem lowerDom_dram (d st : Nat) : (lowerDom s d st).dram = s.dram := by simp [lowerDom]

@[simp] theorem domUse_dram (d : Nat) : (domUse s d).dram = s.dram := by simp [domUse]

@[simp] theorem pumpDomains_dram : (pumpDomains s).dram = s.dram := by simp [pumpDomains]

/-! ### Reads -/

@[simp] theorem errBurst_dram (g : Nat) : (errBurst s g).dram = s.dram := by simp [errBurst]

@[simp] theorem modRd_dram (cid off : Nat) (f : RdBlk → RdBlk) : (modRd s cid off f).dram = s.dram := by simp [modRd]

@[simp] theorem readSettle_dram (cid : Nat) : (readSettle s cid).dram = s.dram := by
  unfold readSettle; split <;> simp

@[simp] theorem blkFail_dram (cid off : Nat) (r : Result) : (blkFail s cid off r).dram = s.dram := by simp [blkFail]

@[simp] theorem progress_dram (c : Cmd) (isDone : Bool) (n : Nat) : (progress s c isDone n).dram = s.dram := by simp [progress]

@[simp] theorem noteProgress_dram (cid total : Nat) (good : Nat → Bool) (units size : Nat) :
    (noteProgress s cid total good units size).dram = s.dram := by
  unfold noteProgress; split <;> simp

@[simp] theorem deliver_dram (cid off g : Nat) (body : List Byte) (isRecon : Bool) :
    (deliver s cid off g body isRecon).dram = s.dram := by
  grind [deliver, modCmd_dram, blkFail_dram, modRd_dram, startXfer_dram]

@[simp] theorem blkLost_dram (cid off : Nat) (fails : List Result) : (blkLost s cid off fails).dram = s.dram := by
  unfold blkLost; split <;> simp

theorem blkRecon_dram (cid off : Nat) {t : State} (ho : blkRecon s cid off = some t) : t.dram = s.dram := by
  grind [blkRecon, startRecon_dram]

@[simp] theorem blkReconOrFail_dram (cid off : Nat) : (blkReconOrFail s cid off).dram = s.dram :=
  getD_dram (fun _ ho => blkRecon_dram s _ _ ho) (blkLost_dram s _ _ _)

@[simp] theorem noteFail_dram (cid off : Nat) (r : Result) : (noteFail s cid off r).dram = s.dram := by simp [noteFail]

@[simp] theorem blkBody_dram (cid off g : Nat) (body : List Byte) (isRecon : Bool) :
    (blkBody s cid off g body isRecon).1.dram = s.dram := by
  unfold blkBody
  repeat' split
  all_goals simp

@[simp] theorem readBlockEnd_dram (port cid off : Nat) (e : XferEnd) : (readBlockEnd s port cid off e).dram = s.dram := by
  grind [readBlockEnd, modRd_dram, cancelXfers_dram, readSettle_dram, blkFail_dram, noteProgress_dram]

@[simp] theorem stagedRead_dram (cid off copy : Nat) : (stagedRead s cid off copy).dram = s.dram := by
  grind [stagedRead, readCopy_dram, blkLost_dram]

@[simp] theorem blkStart_dram (cid off : Nat) : (blkStart s cid off).dram = s.dram := by
  unfold blkStart
  split
  · rfl
  · dsimp only
    split
    · rfl
    · split
      · simp
      · split
        · simp
        · split
          · simp
          · exact getD_dram (fun _ ho => blkRecon_dram s _ _ ho) (addRowItem_dram ..)

@[simp] theorem zoneRead_dram (cid : Nat) : (zoneRead s cid).dram = s.dram := by
  grind [zoneRead, zoneStart_dram, finish_dram, modCmd_dram, readSettle_dram, blkStart_dram, foldl_dram]

@[simp] theorem withdrawCmd_dram (cid : Nat) : (withdraw_ s cid).dram = s.dram := by simp [withdraw_]

@[simp] theorem strictExpiry_dram (cid : Nat) : (strictExpiry s cid).dram = s.dram := by
  unfold strictExpiry; split <;> simp

/-! ### Layouts -/

@[simp] theorem jrnLayout_dram (fg zid idx : Nat) (image : List Byte) :
    (jrnLayout s fg zid idx image).dram = s.dram := by simp [jrnLayout]

/-! ### ZoneReset -/

@[simp] theorem resetErase_dram (c : Cmd) (zid j g b : Nat) : (resetErase s c zid j g b).dram = s.dram := by simp [resetErase]

@[simp] theorem resetFails_dram (c : Cmd) (j : Nat) (place : Nat × Nat) :
    (resetFails s c j place).dram = s.dram := by simp [resetFails]

@[simp] theorem noSpareFor_dram (c : Cmd) (zid j : Nat) (why : Reform) (place : Nat × Nat) :
    (noSpareFor s c zid j why place).dram = s.dram := by
  unfold noSpareFor; split <;> simp

@[simp] theorem dropZoneStagings_dram (zid : Nat) : (dropZoneStagings s zid).dram = s.dram := by simp [dropZoneStagings]

@[simp] theorem stopUnit_dram (zid : Nat) : (stopUnit s zid).dram = s.dram := by simp [stopUnit]

/-! ### Rebuild -/

@[simp] theorem modUnit_dram (fg zid : Nat) (f : RebUnit → RebUnit) : (modUnit s fg zid f).dram = s.dram := by simp [modUnit]

@[simp] theorem wantSpareErase_dram (zid j : Nat) : (wantSpareErase s zid j).dram = s.dram := by
  unfold wantSpareErase
  repeat' split
  all_goals simp

@[simp] theorem rebProgram_dram (fg zid r j : Nat) : (rebProgram s fg zid r j).dram = s.dram := by
  unfold rebProgram; split <;> simp

theorem takeRebSlots_dram {l : List Nat} {t : State × List (Nat × Nat)} (ho : takeRebSlots s l = some t) :
    t.1.dram = s.dram := by
  induction l generalizing s t with
  | nil => cases ho; rfl
  | cons q l ih =>
    obtain ⟨p, hp, hr⟩ := Option.bind_eq_some_iff.1 ho
    obtain ⟨x, hx, rfl⟩ := Option.map_eq_some_iff.1 hr
    exact (ih _ hx).trans (takeSlot?_dram s hp)

@[simp] theorem dropRebSlots_dram (fg zid : Nat) : (dropRebSlots s fg zid).dram = s.dram := by
  unfold dropRebSlots; split <;> simp

@[simp] theorem chunkSent_dram (fg zid q : Nat) : (chunkSent s fg zid q).dram = s.dram := by
  unfold chunkSent; split <;> simp

@[simp] theorem dropRebRecons_dram (fg zid : Nat) : (dropRebRecons s fg zid).dram = s.dram := by simp [dropRebRecons]

@[simp] theorem unitAgain_dram (fg zid : Nat) : (unitAgain s fg zid).dram = s.dram := by simp [unitAgain]

@[simp] theorem passEnd_dram (fg : Nat) : (passEnd s fg).dram = s.dram := by
  grind [passEnd, writeOut_dram, modGroup_dram, finishDurable_dram, maintFlag_dram, raise_dram]

@[simp] theorem settleUnits_dram (fg : Nat) : (settleUnits s fg).dram = s.dram := by simp [settleUnits]

@[simp] theorem unitChunk_dram (fg zid r cwx : Nat) (bodies : Tab (List Byte)) :
    (unitChunk s fg zid r cwx bodies).dram = s.dram := by
  unfold unitChunk; split <;> simp

@[simp] theorem resumeRow_dram (zid j : Nat) : (resumeRow s zid j).1.dram = s.dram := by
  grind [resumeRow, modGroup_dram, freeVal_dram]

@[simp] theorem resumeUnit_dram (fg zid j : Nat) : (resumeUnit s fg zid j).dram = s.dram := by simp [resumeUnit]

@[simp] theorem startPass_dram (fg share : Nat) (cid : Option Nat) : (startPass s fg share cid).dram = s.dram := by
  grind [startPass, modGroup_dram, resumeUnit_dram, passEnd_dram, foldl_dram]

@[simp] theorem autoPass_dram (fg : Nat) : (autoPass s fg).dram = s.dram := by simp [autoPass]

@[simp] theorem fenceRebuild_dram (fg share : Nat) : (fenceRebuild s fg share).dram = s.dram := by
  unfold fenceRebuild; split <;> simp

@[simp] theorem rebuildStart_dram (cid : Nat) : (rebuildStart s cid).dram = s.dram := by simp [rebuildStart]

@[simp] theorem rebuildPause_dram (cid : Nat) (pause : Bool) : (rebuildPause s cid pause).dram = s.dram := by
  unfold rebuildPause; split <;> simp

@[simp] theorem spareLun_dram (g : Nat) : (spareLun s g).dram = s.dram := by simp [spareLun]

/-! ### Reshape -/

@[simp] theorem renumber_dram (fg : Nat) (f : Nat → Nat) : (renumber s fg f).dram = s.dram := by simp [renumber]

@[simp] theorem swapLayouts_dram (fg : Nat) : (swapLayouts s fg).dram = s.dram := by simp [swapLayouts]

@[simp] theorem reshapeLease_dram (fg idx at_ : Nat) : (reshapeLease s fg idx at_).dram = s.dram := by simp [reshapeLease]

@[simp] theorem modCp_dram (fg : Nat) (f : CopyRow → CopyRow) : (modCp s fg f).dram = s.dram := by simp [modCp]

@[simp] theorem copyLost_dram (fg blk : Nat) : (copyLost s fg blk).dram = s.dram := by simp [copyLost]

@[simp] theorem copyRead_dram (fg zid rb blk from_ : Nat) : (copyRead s fg zid rb blk from_).dram = s.dram := by
  unfold copyRead
  split
  · dsimp only
    split
    · simp
    · split
      · exact getD_dram (fun _ ho => readCopy_dram s _ _ _ _ _ _ ho) (copyLost_dram ..)
      · split
        · exact getD_dram (fun _ ho => startRecon_dram s ho) (copyLost_dram ..)
        · simp
  · rfl

@[simp] theorem copyBegin_dram (fg zid : Nat) (new : Layout) : (copyBegin s fg zid new).dram = s.dram := by simp [copyBegin]

@[simp] theorem copyReads_dram (fg : Nat) : (copyReads s fg).dram = s.dram := by
  unfold copyReads; split <;> simp

@[simp] theorem copyAgain_dram (fg blk : Nat) : (copyAgain s fg blk).dram = s.dram := by
  unfold copyAgain; split <;> simp

@[simp] theorem copyGot_dram (fg zid row blk l : Nat) (body : List Byte) (poison : Bool) :
    (copyGot s fg zid row blk l body poison).dram = s.dram := by
  unfold copyGot; split <;> simp

@[simp] theorem copyStored_dram (fg blk : Nat) (good : Bool) : (copyStored s fg blk good).dram = s.dram := by simp [copyStored]

@[simp] theorem copyStream_dram (fg blk : Nat) : (copyStream s fg blk).dram = s.dram := by
  unfold copyStream
  repeat' split
  all_goals simp

@[simp] theorem copyStreams_dram (fg : Nat) : (copyStreams s fg).dram = s.dram := by
  unfold copyStreams; split <;> simp

@[simp] theorem copyToEngine_dram (fg zid : Nat) (cp : CopyRow) (new : Layout) :
    (copyToEngine s fg zid cp new).dram = s.dram := by
  unfold copyToEngine
  dsimp only
  split
  · next hp =>
    split at hp
    · rw [copyStreams_dram, modCp_dram]
      refine foldl_option (P := fun p : State × Tab Nat => p.1.dram = s.dram) (fun u e => by cases e; rfl)
          (fun acc j t ha e => ?_) hp
      obtain ⟨u, hu, ht⟩ := Option.bind_eq_some_iff.1 e
      obtain ⟨x, hx, rfl⟩ := Option.map_eq_some_iff.1 ht
      exact (takeSlot?_dram _ hx).trans (ha u hu)
    · cases hp
  · rfl

@[simp] theorem copyStreamed_dram (fg : Nat) (cp : CopyRow) (new : Layout) : (copyStreamed s fg cp new).dram = s.dram := by
  unfold copyStreamed; split <;> simp

@[simp] theorem copyInEnd_dram (fg blk : Nat) (good : Bool) : (copyInEnd s fg blk good).dram = s.dram := by simp [copyInEnd]

@[simp] theorem dropCp_dram (fg : Nat) : (dropCp s fg).dram = s.dram := by
  unfold dropCp; split <;> simp

@[simp] theorem copyRowDone_dram (fg : Nat) : (copyRowDone s fg).dram = s.dram := by simp [copyRowDone]

@[simp] theorem copyProgram_dram (fg zid : Nat) (cp : CopyRow) (new : Layout) :
    (copyProgram s fg zid cp new).dram = s.dram := by simp [copyProgram]

@[simp] theorem copyStage_dram (fg zid : Nat) (cp : CopyRow) (n : Nat) :
    (copyStage s fg zid cp n).dram = s.dram := by simp [copyStage]

@[simp] theorem copySlot_dram (fg zid : Nat) (cp : CopyRow) (j : Nat) : (copySlot s fg zid cp j).dram = s.dram := by
  unfold copySlot; split <;> simp

@[simp] theorem copyProgrammed_dram (fg zid row j : Nat) (good : Bool) :
    (copyProgrammed s fg zid row j good).dram = s.dram := by
  unfold copyProgrammed; split <;> simp

@[simp] theorem eraseOld_dram (fg zid : Nat) (l : List (Nat × Nat × Nat)) :
    (eraseOld s fg zid l).dram = s.dram := by simp [eraseOld]

@[simp] theorem reshapeEnd_dram (fg : Nat) (new : Layout) : (reshapeEnd s fg new).dram = s.dram := by simp [reshapeEnd]

@[simp] theorem reshapeAbort_dram (cid : Nat) : (reshapeAbort s cid).dram = s.dram := by
  grind [reshapeAbort, finish_dram, start_dram, dropSurvivors_dram, endRecon_dram, dropCp_dram, modGroup_dram, autoPass_dram,
    withdrawOps_dram, eraseOld_dram, dropStg_dram, foldl_dram]

/-! ### Maint -/

@[simp] theorem freeLeases_dram (cid : Nat) : (freeLeases s cid).dram = s.dram := by simp [freeLeases]

theorem takeLeases_dram (bgs : List Nat) (code cid : Nat) {t : State} (ho : takeLeases s bgs code cid = some t) :
    t.dram = s.dram := by
  grind [takeLeases]

@[simp] theorem modSweep_dram (id : Nat) (f : Sweep → Sweep) : (modSweep s id f).dram = s.dram := by simp [modSweep]

@[simp] theorem sweepBegin_dram (id bg : Nat) : (sweepBegin s id bg).dram = s.dram := by simp [sweepBegin]

@[simp] theorem sweepRead_dram (w : Sweep) (b wl : Nat) (a : Nat × Int) :
    (sweepRead s w b wl a).dram = s.dram := by simp [sweepRead]

@[simp] theorem sweepNote_dram (w : Sweep) : (sweepNote s w).dram = s.dram := by
  unfold sweepNote; split <;> simp

@[simp] theorem sweepStep_dram (id : Nat) : (sweepStep s id).dram = s.dram := by
  grind [sweepStep, modSweep_dram, sweepRead_dram, sweepNote_dram]

@[simp] theorem kickSweeps_dram : (kickSweeps s).dram = s.dram := by simp [kickSweeps]

@[simp] theorem sweepGot_dram (id weight : Nat) : (sweepGot s id weight).dram = s.dram := by simp [sweepGot]

@[simp] theorem modScrub_dram (cid : Nat) (f : Scrub → Scrub) : (modScrub s cid f).dram = s.dram := by simp [modScrub]

@[simp] theorem scrubBegin_dram (c : Cmd) : (scrubBegin s c).dram = s.dram := by simp [scrubBegin]

@[simp] theorem scrubRow_dram (a : Scrub) (r : Nat) : (scrubRow s a r).dram = s.dram := by
  unfold scrubRow; split <;> simp

@[simp] theorem scrubTake_dram (cid j cwx : Nat) (body : Option (List Byte)) :
    (scrubTake s cid j cwx body).dram = s.dram := by simp [scrubTake]

@[simp] theorem scrubFind_dram (cid : Nat) (i : Item) (kind detail : Nat) :
    (scrubFind s cid i kind detail).dram = s.dram := by simp [scrubFind]

@[simp] theorem scrubGot_dram (cid : Nat) (i : Item) (body : List Byte) :
    (scrubGot s cid i body).dram = s.dram := by simp [scrubGot]

@[simp] theorem scrubFailed_dram (cid : Nat) (i : Item) (kind detail : Nat) :
    (scrubFailed s cid i kind detail).dram = s.dram := by
  have ha : (if kind = 2 then advise (modScrub (scrubFind s cid i kind detail) cid (fun x => { x with failed := x.failed + 1 }))
      (itemPlace i).1 i.glun i.block 2 else
      modScrub (scrubFind s cid i kind detail) cid (fun x => { x with failed := x.failed + 1 })).dram = s.dram := by simp
  exact getD_dram (fun _ ho => (startRecon_dram _ ho).trans ha) ((scrubTake_dram ..).trans ha)

@[simp] theorem scrubRowEnd_dram (a : Scrub) (r : Nat) : (scrubRowEnd s a r).dram = s.dram := by
  grind [scrubRowEnd, advise_dram, freeVal_dram, modScrub_dram]

@[simp] theorem scrubStep_dram (cid : Nat) : (scrubStep s cid).dram = s.dram := by
  grind [scrubStep, scrubRow_dram, scrubRowEnd_dram]

@[simp] theorem kickScrubs_dram : (kickScrubs s).dram = s.dram := by simp [kickScrubs]

@[simp] theorem askLeases_dram (c : Cmd) : (askLeases s c).dram = s.dram := by
  grind [askLeases, takeLeases_dram, scrubBegin_dram, modCmd_dram, sweepBegin_dram, bump_dram]

@[simp] theorem retryLeases_dram : (retryLeases s).dram = s.dram := by simp [retryLeases]

@[simp] theorem leaseExpiry_dram (cid : Nat) : (leaseExpiry s cid).dram = s.dram := by
  unfold leaseExpiry
  repeat' split
  all_goals simp

@[simp] theorem calibrate_dram (cid : Nat) : (calibrate s cid).dram = s.dram := by simp [calibrate]

@[simp] theorem kickAuto_dram : (kickAuto s).dram = s.dram := by
  grind [kickAuto, fresh_dram, takeLeases_dram, sweepBegin_dram, bump_dram, foldl_dram]

@[simp] theorem scrubRange_dram (cid : Nat) : (scrubRange s cid).dram = s.dram := by simp [scrubRange]

@[simp] theorem scrubDone_dram (cid : Nat) : (scrubDone s cid).dram = s.dram := by
  unfold scrubDone; split <;> simp

@[simp] theorem patrolReads_dram (bg : Nat) : (patrolReads s bg).dram = s.dram := by simp [patrolReads]

@[simp] theorem patrolVisit_dram (q : Nat) : (patrolVisit s q).dram = s.dram := by
  unfold patrolVisit; split <;> simp

@[simp] theorem patrolHold_dram (q : Nat) : (patrolHold s q).dram = s.dram := by
  unfold patrolHold; split <;> simp

/-! ### Raw -/

@[simp] theorem wpSet_dram (cid : Nat) (mp : PortEnd) : (wpSet s cid mp).dram = s.dram := by
  grind [wpSet, wr_dram, start_dram, finish_dram, imageEnd_dram, foldl_dram]

@[simp] theorem wpPin_dram (c : Nat) : (wpPin s c).dram = s.dram := by simp [wpPin]

@[simp] theorem oaFirst_dram (v : Nat) : (oaFirst s v).dram = s.dram := by simp [oaFirst]

@[simp] theorem oaSecond_dram (n v : Nat) : (oaSecond s n v).dram = s.dram := by simp [oaSecond]

@[simp] theorem oaWindow_dram : (oaWindow s).dram = s.dram := by simp [oaWindow]

@[simp] theorem oaRelock_dram : (oaRelock s).dram = s.dram := by simp [oaRelock]

@[simp] theorem oaExpire_dram : (oaExpire s).dram = s.dram := by simp [oaExpire]

@[simp] theorem oaWrite_dram (v : Nat) : (oaWrite s v).dram = s.dram := by
  unfold oaWrite
  repeat' split
  all_goals simp

@[simp] theorem rawRefuse_dram (cid g : Nat) (r : Result) : (rawRefuse s cid g r).dram = s.dram := by simp [rawRefuse]

@[simp] theorem freeSet_dram (n : Nat) : (freeSet n s).1.dram = s.dram := by
  induction n generalizing s with
  | zero => rfl
  | succ n ih => simp [freeSet, ih]

@[simp] theorem rawRead_dram (cid : Nat) : (rawRead s cid).dram = s.dram := by
  grind [rawRead, finish_dram, modCmd_dram, start_dram, rawRefuse_dram, addItem_dram, freeSet_dram, foldl_dram]

@[simp] theorem rawReadSettle_dram (cid : Nat) : (rawReadSettle s cid).dram = s.dram := by
  unfold rawReadSettle
  repeat' split
  all_goals simp

@[simp] theorem rawGot_dram (cid idx g : Nat) (bytes : List Byte) : (rawGot s cid idx g bytes).dram = s.dram := by
  grind [rawGot, rawReadSettle_dram, modCmd_dram, startXfer_dram]

@[simp] theorem rawReadFail_dram (cid idx st site want : Nat) : (rawReadFail s cid idx st site want).dram = s.dram := by
  unfold rawReadFail; split <;> simp

@[simp] theorem rawOp_dram (cid op : Nat) (type : Cmd → OpType) : (rawOp s cid op type).dram = s.dram := by simp [rawOp]

@[simp] theorem rawProgram_dram (cid : Nat) : (rawProgram s cid).dram = s.dram := by simp [rawProgram]

@[simp] theorem rawErase_dram (cid : Nat) : (rawErase s cid).dram = s.dram := by simp [rawErase]

@[simp] theorem rawEnd_dram (cid : Nat) (o : Op) (status : Nat) (timedOut : Bool) :
    (rawEnd s cid o status timedOut).dram = s.dram := by simp [rawEnd]

@[simp] theorem rawSequence_dram (cid : Nat) (mp : PortEnd) : (rawSequence s cid mp).dram = s.dram := by simp [rawSequence]

@[simp] theorem freeBytes_dram (n : Nat) : (freeBytes n s).1.dram = s.dram := by
  induction n generalizing s with
  | zero => rfl
  | succ n ih => simp [freeBytes, ih]

@[simp] theorem rsEnd_dram (o : Op) (c : Cmd) (idx : Nat) (timedOut : Bool) :
    (rsEnd s o c idx timedOut).dram = s.dram := by simp [rsEnd]

@[simp] theorem rsKeep_dram (cid : Nat) (a : RsAt) : (rsKeep s cid a).dram = s.dram := by simp [rsKeep]

@[simp] theorem rsRun_dram (f : Nat) (o : Op) (cid : Nat) : (rsRun f s o cid).dram = s.dram := by
  induction f generalizing s with
  | zero => rfl
  | succ f ih =>
    unfold rsRun
    split
    · rfl
    · dsimp only
      split <;> (try split) <;> simp [ih]

@[simp] theorem rsPhase_dram (o : Op) (cid : Nat) (mp : PortEnd) : (rsPhase s o cid mp).dram = s.dram := by
  grind [rsPhase, dropOp_dram, busPut_dram, rsRun_dram, finish_dram, portEnd_dram, resetLun_dram]

@[simp] theorem rawWaitEnd_dram (g status : Nat) (timedOut : Bool) : (rawWaitEnd s g status timedOut).dram = s.dram := by
  unfold rawWaitEnd
  repeat' split
  all_goals simp

/-! ### Codewords -/

@[simp] theorem dropItem_dram (id : Nat) : (dropItem s id).dram = s.dram := by simp [dropItem]

@[simp] theorem useSteps_dram (uses : List Use) (step : Nat) : (useSteps s uses step).dram = s.dram := by
  unfold useSteps
  refine foldl_dram _ _ _ fun t x => ?_
  split <;> simp

@[simp] theorem ladderEnd_dram (i : Item) (iters : Nat) (failed : Bool) : (ladderEnd s i iters failed).dram = s.dram := by
  grind [ladderEnd, useSteps_dram, addLoad_dram, bump_dram, estimate_dram]

@[simp] theorem resumeLadder_dram (r : Recon) (cid off step : Nat) : (resumeLadder s r cid off step).dram = s.dram := by
  unfold resumeLadder; split <;> simp

@[simp] theorem survivorGot_dram (rid m : Nat) (body : List Byte) :
    (survivorGot s rid m body).dram = s.dram := by simp [survivorGot]

theorem copyRecon_dram (i : Item) (fg zid row blk : Nat) {t : State} (ho : copyRecon s i fg zid row blk = some t) :
    t.dram = s.dram := by
  grind [copyRecon, startRecon_dram]

@[simp] theorem copyFail_dram (i : Item) (fg zid row blk : Nat) : (copyFail s i fg zid row blk).dram = s.dram := by
  unfold copyFail
  split
  · rfl
  · split
    · exact getD_dram (fun _ ho => copyRecon_dram s _ _ _ _ _ ho) (copyLost_dram ..)
    · simp

@[simp] theorem noteUnread_dram (i : Item) : (noteUnread s i).dram = s.dram := by simp [noteUnread]

theorem earlyRecon_dram (i : Item) (step : Nat) {t : State} (ho : earlyRecon s i step = some t) : t.dram = s.dram := by
  grind [earlyRecon, grantAround_dram]

@[simp] theorem nextStep_dram (i : Item) (n : Nat) : (nextStep s i n).dram = s.dram := by
  grind [nextStep, queueStep_dram, trace_dram, earlyRecon_dram]

@[simp] theorem itemStaged_dram (i : Item) (raw : List Byte) : (itemStaged s i raw).dram = s.dram := by simp [itemStaged]

@[simp] theorem endRead_dram (id : Nat) : (endRead s id).dram = s.dram := by
  unfold endRead; split <;> simp

@[simp] theorem refetch_dram (i : Item) : (refetch s i).dram = s.dram := by simp [refetch]

@[simp] theorem hdrLog_dram (i : Item) (site : Nat) : (hdrLog s i site).dram = s.dram := by simp [hdrLog]

@[simp] theorem noteCheck_dram (i : Item) (site : Nat) : (noteCheck s i site).dram = s.dram := by simp [noteCheck]

@[simp] theorem blkGot_dram (i : Item) (cid off : Nat) (staged : Bool) (body : List Byte) (hdr : Nat) :
    (blkGot s i cid off staged body hdr).1.dram = s.dram := by
  grind [blkGot, noteFail_dram, blkFail_dram, blkBody_dram, blkRecon_dram, noteCheck_dram]

@[simp] theorem priorEnd_dram (r : Recon) (cid off : Nat) : (priorEnd s r cid off).dram = s.dram := by
  unfold priorEnd; split <;> simp

@[simp] theorem reconLost_dram (r : Recon) : (reconLost s r).dram = s.dram := by
  unfold reconLost; split <;> simp

@[simp] theorem reconDone_dram (rid : Nat) (detect : Bool) : (reconDone s rid detect).dram = s.dram := by
  unfold reconDone
  repeat' split
  all_goals grind [copyGot_dram, recoveredAny_dram, scrubFind_dram, blkBody_dram, scrubTake_dram, modRecon_dram,
    dropSurvivors_dram, priorEnd_dram, blkFail_dram, endRecon_dram, reconLost_dram, unitChunk_dram]

/-! ### Poll -/

@[simp] theorem chunkChanged_dram (o : Op) (r : Row) (lt : Layout) (j : Nat) (changed : List (Nat × Nat × Result))
    (lost : List Nat) (bad : Option (Nat × Result)) :
    (chunkChanged s o r lt j changed lost bad).dram = s.dram := by
  unfold chunkChanged
  repeat' split
  all_goals simp

@[simp] theorem chunkStream_dram (o : Op) (rid j : Nat) (mp : PortEnd) : (chunkStream s o rid j mp).1.dram = s.dram := by
  grind [chunkStream, modOp_dram, chunkChanged_dram, seqStream_dram]

@[simp] theorem copySend_dram (o : Op) (fg j : Nat) (mp : PortEnd) : (copySend s o fg j mp).1.dram = s.dram := by
  unfold copySend
  repeat' split
  all_goals simp

@[simp] theorem openStream_dram (o : Op) (mp : PortEnd) : (openStream s o mp).1.dram = s.dram := by
  grind [openStream, chunkStream_dram, dropOp_dram, stageStream_dram, finish_dram, portEnd_dram, copySend_dram]

@[simp] theorem setupStop_dram (o : Op) : (setupStop s o).dram = s.dram := by
  unfold setupStop; split <;> simp

@[simp] theorem clearHits_dram : (clearHits s).dram = s.dram := by simp [clearHits]

@[simp] theorem phaseCommand_dram (o : Op) : (phaseCommand s o).dram = s.dram := by simp [phaseCommand]

@[simp] theorem phaseDataOut_dram (o : Op) : (phaseDataOut s o).dram = s.dram := by
  unfold phaseDataOut; split <;> simp

@[simp] theorem sendPage_dram (o : Op) : (sendPage s o).dram = s.dram := by
  unfold sendPage; split <;> simp

@[simp] theorem phaseErase_dram (o : Op) : (phaseErase s o).dram = s.dram := by simp [phaseErase]

@[simp] theorem phaseSuspend_dram (o : Op) : (phaseSuspend s o).dram = s.dram := by simp [phaseSuspend]

@[simp] theorem progConfirm_dram (g : Nat) : (progConfirm s g).dram = s.dram := by
  unfold progConfirm
  repeat' split
  all_goals simp

@[simp] theorem holdMax_dram (g : Nat) : (holdMax s g).dram = s.dram := by
  unfold holdMax; split <;> simp

@[simp] theorem resumeByte_dram (o : Op) : (resumeByte s o).dram = s.dram := by simp [resumeByte]

@[simp] theorem opResume_dram (g : Nat) : (opResume s g).dram = s.dram := by
  unfold opResume; split <;> simp

@[simp] theorem readLoops_dram (g : Nat) : (readLoops s g).dram = s.dram := by simp [readLoops]

@[simp] theorem lateResume_dram (o : Op) : (lateResume s o).dram = s.dram := by simp [lateResume]

/-! ### PowerFail -/

@[simp] theorem stagePartials_dram : (stagePartials s).dram = s.dram := by simp [stagePartials]

@[simp] theorem poolReserve_dram (q : Nat) : (poolReserve s q).dram = s.dram := by simp [poolReserve]

@[simp] theorem poolReserves_dram : (poolReserves s).dram = s.dram := by simp [poolReserves]

@[simp] theorem commitHooks_dram : (commitHooks s).dram = s.dram := by simp [commitHooks]

@[simp] theorem pfAbandon_dram : (pfAbandon s).dram = s.dram := by simp [pfAbandon]

@[simp] theorem pfStage_dram (low : Nat) : (pfStage s low).dram = s.dram := by simp [pfStage]

@[simp] theorem pfailSteps_dram : (pfailSteps s).dram = s.dram := by simp [pfailSteps]

@[simp] theorem jrnProgress_dram (zid row : Nat) : (jrnProgress s zid row).dram = s.dram := by simp [jrnProgress]

@[simp] theorem pfFlushNow_dram : (pfFlushNow s).dram = s.dram := by simp [pfFlushNow]

@[simp] theorem pfClear_dram : (pfClear s).dram = s.dram := by simp [pfClear]

@[simp] theorem pfailProgress_dram : (pfailProgress s).dram = s.dram := by simp [pfailProgress]

@[simp] theorem stageByExpiry_dram : (stageByExpiry s).dram = s.dram := by simp [stageByExpiry]

/-! ### Restart -/

@[simp] theorem addExtent_dram (a : Extent) : (addExtent s a).dram = s.dram := by simp [addExtent]

@[simp] theorem keepUnstarted_dram (zid r : Nat) : (keepUnstarted s zid r).dram = s.dram := by simp [keepUnstarted]

@[simp] theorem refold_dram (zid : Nat) (js : List Nat) : (refold s zid js).dram = s.dram := by simp [refold]

@[simp] theorem chainExtents_dram (fg : Nat) (staged : List StagedHeader) (zid : Nat) :
    (chainExtents s fg staged zid).dram = s.dram := by simp [chainExtents]

@[simp] theorem jrnDiscard_dram (fg : Nat) : (jrnDiscard s fg).dram = s.dram := by simp [jrnDiscard]

@[simp] theorem discardsDone_dram : (discardsDone s).dram = s.dram := by simp [discardsDone]

/-! ### Rungs -/

@[simp] theorem setChanState_dram (c v : Nat) : (setChanState s c v).dram = s.dram := by simp [setChanState]

@[simp] theorem termLun_dram (c g : Nat) : (termLun s c g).dram = s.dram := by
  grind [termLun, modLun_dram, busPut_dram]

@[simp] theorem switchRung_dram (c rung : Nat) : (switchRung s c rung).dram = s.dram := by simp [switchRung]

@[simp] theorem retop_dram (c : Nat) : (retop s c).dram = s.dram := by simp [retop]

/-! ### Pump -/

@[simp] theorem pumpJournal_dram : (pumpJournal s).dram = s.dram := by simp [pumpJournal]

@[simp] theorem drainStage_dram : (drainStage s).dram = s.dram := by simp [drainStage]

@[simp] theorem pumpRungs_dram : (pumpRungs s).dram = s.dram := by simp [pumpRungs]

@[simp] theorem pumpPins_dram : (pumpPins s).dram = s.dram := by simp [pumpPins]

@[simp] theorem pumpDisables_dram : (pumpDisables s).dram = s.dram := by simp [pumpDisables]

@[simp] theorem pumpGovern_dram : (pumpGovern s).dram = s.dram := by simp [pumpGovern]

/-! ### Phy -/

@[simp] theorem retrainResume_dram (o : Op) : (retrainResume s o).dram = s.dram := by simp [retrainResume]

@[simp] theorem settleBus_dram (c : Nat) : (settleBus s c).dram = s.dram := by simp [settleBus]

@[simp] theorem leaveRetrain_dram (c : Nat) : (leaveRetrain s c).dram = s.dram := by simp [leaveRetrain]

@[simp] theorem keepCe_dram (c rung : Nat) (quick : Bool) (r : CeTrain) : (keepCe s c rung quick r).dram = s.dram := by
  unfold keepCe
  exact foldl_dram _ _ _ fun _ _ => rfl

@[simp] theorem logCe_dram (c rung : Nat) (quick : Bool) (r : CeTrain) : (logCe s c rung quick r).dram = s.dram := by
  unfold logCe
  dsimp only
  split
  · rw [wr_dram, freeVal_dram]
  · rw [wr_dram, keepCe_dram]

@[simp] theorem zqDone_dram (c : Nat) (codes : Byte × Byte) (atEnd : Bool) :
    (zqDone s c codes atEnd).dram = s.dram := by simp [zqDone]

@[simp] theorem trainPass_dram (c rung : Nat) (got : List CeTrain) :
    (trainPass s c rung got).dram = s.dram := by simp [trainPass]

@[simp] theorem fenceRaw_dram (c : Nat) : (fenceRaw s c).dram = s.dram := by
  unfold fenceRaw
  refine foldl_dram _ _ _ fun t x => ?_
  split <;> simp

@[simp] theorem linkRead_dram (g : Nat) : (linkRead s g).dram = s.dram := by simp [linkRead]

/-! ### Engine -/

@[simp] theorem blockFaultAt_dram (cause e second : Nat) :
    (blockFaultAt s cause e second).dram = s.dram := by simp [blockFaultAt]

@[simp] theorem slotFreedAgain_dram (c slot : Nat) : (slotFreedAgain s c slot).dram = s.dram := by simp [slotFreedAgain]

@[simp] theorem dataOutAgain_dram (e : Nat) (o : Op) : (dataOutAgain s e o).dram = s.dram := by simp [dataOutAgain]

@[simp] theorem mneOutcome_dram (w : Nat) (r : Result) : (mneOutcome s w r).dram = s.dram := by
  grind [mneOutcome, dropUses_dram, unitAgain_dram, finish_dram, dropCp_dram, freeLeases_dram]

@[simp] theorem logCheck_dram (e cause : Nat) : (logCheck s e cause).dram = s.dram := by simp [logCheck]

@[simp] theorem setFlags_dram (e : Nat) (r : Word) (carry : Option Bool) : (setFlags s e r carry).dram = s.dram := by
  unfold setFlags
  grind [modEng_dram, freeVal_dram]

@[simp] theorem hookBus_dram (c : Nat) (b : List Byte) : (hookBus s c b).dram = s.dram := by simp [hookBus]

@[simp] theorem hookFill_dram (e n : Nat) : (hookFill e n s).dram = s.dram := by
  induction n generalizing s with
  | zero => rfl
  | succ n ih => simp [hookFill, ih]

theorem hookPort_dram {e glun portNo a b : Nat} {t : State} (ho : hookPort s e glun portNo a b = some t) : t.dram = s.dram := by
  unfold hookPort at ho
  split at ho
  · split at ho <;> cases ho
    simp
  · dsimp only at ho
    split at ho <;> cases ho <;> simp
  all_goals cases ho; simp

@[simp] theorem waitEnd_dram (e : Nat) (reply : Word) : (waitEnd s e reply).dram = s.dram := by
  grind [waitEnd, modEng_dram]

/-! ### Trust -/

@[simp] theorem configStage_dram (cid : Nat) (mp : PortEnd) : (configStage s cid mp).dram = s.dram := by
  grind [configStage, measItems_dram, finish_dram, cfgErr_dram, start_dram, cfgFlag_dram, portEnd_dram]

@[simp] theorem configCommit_dram (cid : Nat) : (configCommit s cid).dram = s.dram := by simp [configCommit]

@[simp] theorem commitComplete_dram : (commitComplete s).dram = s.dram := by
  unfold commitComplete; split <;> simp

@[simp] theorem drainFree_dram : (drainFree s).dram = s.dram := by simp [drainFree]

@[simp] theorem configAudit_dram (cid : Nat) : (configAudit s cid).dram = s.dram := by simp [configAudit]

@[simp] theorem msrDetect_dram : (msrDetect s).dram = s.dram := by simp [msrDetect]

@[simp] theorem measureReport_dram (cid : Nat) (detect : Bool) : (measureReport s cid detect).dram = s.dram := by
  grind [measureReport, writeOut_dram, start_dram, msrDetect_dram, finish_dram]

@[simp] theorem cfgDiscard_dram : (cfgDiscard s).dram = s.dram := by simp [cfgDiscard]

@[simp] theorem measExt_dram : (measExt s).dram = s.dram := by simp [measExt]

/-! ### Boot -/

@[simp] theorem setPhase_dram (p : Nat) : (setPhase s p).dram = s.dram := by simp [setPhase]

@[simp] theorem bringupAdvance_dram : (bringupAdvance s).dram = s.dram := by simp [bringupAdvance]

@[simp] theorem resetBase_dram : (resetBase s).dram = s.dram := by simp [resetBase]

@[simp] theorem porstFall_dram : (porstFall s).dram = s.dram := by simp [porstFall]

@[simp] theorem srstFall_dram : (srstFall s).dram = s.dram := by simp [srstFall]

@[simp] theorem freqWindow_dram (disagree : Bool) : (freqWindow s disagree).dram = s.dram := by simp [freqWindow]

@[simp] theorem paceWindow_dram (count : Nat) : (paceWindow s count).dram = s.dram := by simp [paceWindow]

@[simp] theorem phyUp_dram (c : Nat) : (phyUp s c).dram = s.dram := by simp [phyUp]

@[simp] theorem discovered_dram (found : List CeFound) : (discovered s found).dram = s.dram := by
  grind [discovered, setDom_dram, wrf_dram, setPhase_dram, foldl_dram]

@[simp] theorem oaTry_dram (l : List (Nat × OaCopy)) : (oaTry s l).1.dram = s.dram := by
  induction l generalizing s with
  | nil => rfl
  | cons p r ih =>
    unfold oaTry
    dsimp only
    split <;> simp [ih]

@[simp] theorem oaStop_dram : (oaStop s).dram = s.dram := by simp [oaStop]

@[simp] theorem oaSelect_dram (copies : List OaCopy) : (oaSelect s copies).dram = s.dram := by
  grind [oaSelect, bootFlag_dram, wr_dram, oaTry_dram, wrf_dram, setPhase_dram, oaStop_dram, foldl_dram]

@[simp] theorem bootLoadArea_dram (copies : List OaCopy) : (bootLoadArea s copies).dram = s.dram := by simp [bootLoadArea]

@[simp] theorem bootLoadImage_dram : (bootLoadImage s).dram = s.dram := by simp [bootLoadImage]

@[simp] theorem matchCe_dram (f : CeFound) : (matchCe s f).dram = s.dram := by
  grind [matchCe, bootFlag_dram, foldl_dram]

@[simp] theorem releaseEngines_dram : (releaseEngines s).dram = s.dram := by simp [releaseEngines]

@[simp] theorem ready_dram : (ready s).dram = s.dram := by simp [ready]

/-! ### Power -/

@[simp] theorem setPwr_dram (b v : Nat) : (setPwr s b v).dram = s.dram := by simp [setPwr]

@[simp] theorem setPower_dram (t : Nat) : (setPower s t).dram = s.dram := by simp [setPower]

@[simp] theorem startExit_dram (patrol : Bool) : (startExit s patrol).dram = s.dram := by simp [startExit]

@[simp] theorem abortEntry_dram : (abortEntry s).dram = s.dram := by
  grind [abortEntry, finish_dram, pwrFlag_dram, bump_dram, setPwr_dram]

@[simp] theorem powerDoorbell_dram : (powerDoorbell s).dram = s.dram := by simp [powerDoorbell]

@[simp] theorem runTrim_dram (t : Nat) : (runTrim s t).dram = s.dram := by simp [runTrim]

@[simp] theorem powerState_dram (cid : Nat) : (powerState s cid).dram = s.dram := by
  grind [powerState, finish_dram, start_dram, wrf_dram, setPwr_dram, stagePartials_dram, runTrim_dram]

@[simp] theorem imageWrite_dram : (imageWrite s).dram = s.dram := by simp [imageWrite]

@[simp] theorem pwrCommitPoint_dram : (pwrCommitPoint s).dram = s.dram := by
  grind [pwrCommitPoint, imageWrite_dram, finish_dram, setPwr_dram]

@[simp] theorem entryEnd_dram : (entryEnd s).dram = s.dram := by simp [entryEnd]

@[simp] theorem domTimeout_dram (d : Nat) : (domTimeout s d).dram = s.dram := by
  unfold domTimeout; split <;> simp

@[simp] theorem trimIdle_dram (d : Nat) : (trimIdle s d).dram = s.dram := by simp [trimIdle]

@[simp] theorem furlWake_dram : (furlWake s).dram = s.dram := by simp [furlWake]

/-! ### Thermal -/

@[simp] theorem storeReading_dram (i : Nat) (b : Byte) : (storeReading s i b).dram = s.dram := by simp [storeReading]

@[simp] theorem budgetSet_dram (cid : Nat) (mp : PortEnd) : (budgetSet s cid mp).dram = s.dram := by simp [budgetSet]

@[simp] theorem earlier_dram : (earlier s).dram = s.dram := by simp [earlier]

@[simp] theorem refillZone_dram (past : State) (z : Nat) : (refillZone past s z).dram = s.dram := by simp [refillZone]

@[simp] theorem budTake_dram : (budTake s).dram = s.dram := by simp [budTake]

/-! ### Warn -/

@[simp] theorem pfailFall_dram : (pfailFall s).dram = s.dram := by simp [pfailFall]

@[simp] theorem pfailRise_dram : (pfailRise s).dram = s.dram := by simp [pfailRise]

@[simp] theorem patrolStop_dram : (patrolStop s).dram = s.dram := by simp [patrolStop]

@[simp] theorem pfailAsleep_dram : (pfailAsleep s).dram = s.dram := by simp [pfailAsleep]

@[simp] theorem tracePortRead_dram (k : Nat) : (tracePortRead s k).dram = s.dram := by simp [tracePortRead]

@[simp] theorem traceTimeout_dram (k : Nat) : (traceTimeout s k).dram = s.dram := by simp [traceTimeout]

@[simp] theorem traceControl_dram (cid : Nat) : (traceControl s cid).dram = s.dram := by simp [traceControl]

@[simp] theorem echo_dram (cid : Nat) : (echo s cid).dram = s.dram := by simp [echo]

/-! ### Control -/

theorem cpGate_takes_dram {t : State} {ds : List Nat} {be : BitVec 4} (hg : cpGate s ds be = .takes t) : t.dram = s.dram := by
  grind [cpGate]

theorem cpGate_waits_dram {t : State} {ds : List Nat} {be : BitVec 4} (hg : cpGate s ds be = .waits t) : t.dram = s.dram := by
  grind [cpGate, foldl_dram, domUse_dram]

@[simp] theorem cpPut_dram (a : Nat) (be : BitVec 4) (v coin : Nat) (f : State → State) (hf : ∀ t, (f t).dram = t.dram) :
    (cpPut s a be v coin f).dram = s.dram := by
  unfold cpPut
  split
  · rfl
  · rfl
  · next e => rw [hf, cpGate_takes_dram _ e]
  · next e => simpa using cpGate_waits_dram s e

@[simp] theorem cpGet_dram (a : Nat) (be : BitVec 4) (coin : Nat) (f : State → State × Nat) (hf : ∀ t, (f t).1.dram = t.dram) :
    (cpGet s a be coin f).dram = s.dram := by
  unfold cpGet
  split
  · rfl
  · simp
  · next e => simp [hf, cpGate_takes_dram _ e]
  · next e => simpa using cpGate_waits_dram s e

@[simp] theorem tickRead_dram : (tickRead s).1.dram = s.dram := by simp [tickRead]

@[simp] theorem seqRead_dram : (seqRead s).1.dram = s.dram := by simp [seqRead]

@[simp] theorem durableRead_dram : (durableRead s).1.dram = s.dram := by simp [durableRead]

@[simp] theorem ageNowRead_dram : (ageNowRead s).1.dram = s.dram := by simp [ageNowRead]

@[simp] theorem adviceRead_dram : (adviceRead s).1.dram = s.dram := by
  unfold adviceRead; split <;> simp

@[simp] theorem csRead_dram (e : Nat) : (csRead s e).1.dram = s.dram := by simp [csRead]

@[simp] theorem rcRead_dram (a coin mask : Nat) : (rcRead s a coin mask).1.dram = s.dram := by
  grind [rcRead, wr_dram]

@[simp] theorem readReg_dram (a coin : Nat) : (readReg s a coin).1.dram = s.dram := by
  unfold readReg
  repeat' split
  all_goals simp

@[simp] theorem registerRead_dram (a : Nat) (be : BitVec 4) : (registerRead s a be).dram = s.dram := by simp [registerRead]

@[simp] theorem tailDoorbell_dram (r v : Nat) : (tailDoorbell s r v).dram = s.dram := by simp [tailDoorbell]

@[simp] theorem headDoorbell_dram (r v : Nat) : (headDoorbell s r v).dram = s.dram := by simp [headDoorbell]

@[simp] theorem hwSet_dram (a b : Nat) : (hwSet s a b).dram = s.dram := by simp [hwSet]

@[simp] theorem w1cWrite_dram (a v coin mask : Nat) : (w1cWrite s a v coin mask).dram = s.dram := by simp [w1cWrite]

theorem evcWrite_dram (a v coin : Nat) {t : State} (ho : evcWrite s a v coin = some t) : t.dram = s.dram := by
  grind [evcWrite, pendClear_dram, completeFast_dram, pendSet_dram, wr_dram, srcWrite_dram, settle_dram, completeNormal_dram]

@[simp] theorem codeWrite_dram (r : RegRow) (a v coin : Nat) : (codeWrite s r a v coin).dram = s.dram := by
  unfold codeWrite; split <;> simp

/-! ### Fetch -/

@[simp] theorem takePacket_dram (q r : Nat) : (takePacket s q r).1.dram = s.dram := by simp [takePacket]

@[simp] theorem checkRest_dram (c : Cmd) : (checkRest s c).dram = s.dram := by
  unfold checkRest; split <;> simp

@[simp] theorem zoneFetch_dram (c : Cmd) : (zoneFetch s c).dram = s.dram := by simp [zoneFetch]

@[simp] theorem zoneFetched_dram (port zid : Nat) (e : XferEnd) : (zoneFetched s port zid e).dram = s.dram := by
  unfold zoneFetched; split <;> simp

theorem lateField_dram (c : Cmd) {t : State × Nat} (ho : lateField s c = some t) : t.1.dram = s.dram := by
  unfold lateField at ho
  dsimp only at ho
  split at ho
  case h_6 =>
    obtain ⟨o, -, rfl⟩ := Option.map_eq_some_iff.1 ho
    rfl
  case h_7 =>
    split at ho <;> cases ho
    simp
  case h_10 => cases ho
  all_goals
    split at ho <;> cases ho
    rfl

@[simp] theorem checkZone_dram (c : Cmd) : (checkZone s c).dram = s.dram := by
  unfold checkZone
  split
  · split
    · next hp => simpa using lateField_dram s c hp
    · simp
  · split <;> simp

@[simp] theorem packetCheck_dram (c : Cmd) (walk : PortEnd) : (packetCheck s c walk).dram = s.dram := by
  grind [packetCheck, checkZone_dram, finish_dram, portEnd_dram, modCmd_dram]

@[simp] theorem fetchTurn_dram (q r n : Nat) (ends : List PortEnd) : (fetchTurn q r n ends s).dram = s.dram := by
  induction n generalizing s ends with
  | zero => rfl
  | succ n ih =>
    unfold fetchTurn
    split
    · simp [ih]
    · rfl

@[simp] theorem ctxDetected_dram (r : Nat) : (ctxDetected s r).dram = s.dram := by simp [ctxDetected]

@[simp] theorem rcPut_dram (r action : Nat) (img : List Byte) : (rcPut s r action img).dram = s.dram := by
  unfold rcPut
  exact foldl_dram _ _ _ fun _ _ => rfl

@[simp] theorem rcDone_dram (c : Cmd) : (rcDone s c).dram = s.dram := by simp [rcDone]

@[simp] theorem rcWrite_dram (c : Cmd) : (rcWrite s c).dram = s.dram := by simp [rcWrite]

@[simp] theorem rcEnable_dram (c : Cmd) : (rcEnable s c).dram = s.dram := by simp [rcEnable]

@[simp] theorem rcDisable_dram (c : Cmd) : (rcDisable s c).dram = s.dram := by simp [rcDisable]

@[simp] theorem rcUpdate_dram (c : Cmd) : (rcUpdate s c).dram = s.dram := by simp [rcUpdate]

/-! ### Transfers -/

@[simp] theorem completionBad_dram (r : Nat) : (completionBad s r).dram = s.dram := by simp [completionBad]

@[simp] theorem completionEnd_dram (r cid : Nat) (e : XferEnd) : (completionEnd s r cid e).dram = s.dram := by
  unfold completionEnd; split <;> simp

@[simp] theorem outputBad_dram (cid : Nat) (r : Result) : (outputBad s cid r).dram = s.dram := by simp [outputBad]

@[simp] theorem outputEnd_dram (port cid : Nat) (e : XferEnd) : (outputEnd s port cid e).dram = s.dram := by
  unfold outputEnd; split <;> simp

@[simp] theorem rawOutEnd_dram (port cid idx : Nat) (e : XferEnd) : (rawOutEnd s port cid idx e).dram = s.dram := by
  grind [rawOutEnd, tryComplete_dram, modCmd_dram, noteProgress_dram, outputBad_dram]

@[simp] theorem freeRejected_dram (q a : Nat) : (freeRejected s q a).dram = s.dram := by simp [freeRejected]

@[simp] theorem streamAgain_dram (r : PoolReq) : (streamAgain s r).dram = s.dram := by
  unfold streamAgain; split <;> simp

@[simp] theorem poolRetry_dram (q : Nat) : (poolRetry s q).dram = s.dram := by
  unfold poolRetry; split <;> simp

/-! ### GroupRows -/

@[simp] theorem needsDom_dram (d : Nat) (f : State → State) (hf : ∀ t, (f t).dram = t.dram) :
    (needsDom s d f).dram = s.dram := by
  unfold needsDom
  split <;> simp [hf]

/-! ### StripeRows -/

@[simp] theorem commitTicks_dram : (commitTicks s).dram = s.dram := by
  unfold commitTicks; split <;> simp

/-! ### Tap -/

@[simp] theorem tapDriving_dram (code pulse : Nat) (boundary : Bool) :
    (tapDriving s code pulse boundary).dram = s.dram := by simp [tapDriving]

/-! ### Step -/

@[simp] theorem tickOnce_dram : (tickOnce s).dram = s.dram := by simp [tickOnce]

end

section
variable {s : State} (h : Memory.wf s.dram = true)
include h

/-! ### Ops -/

theorem cpWrite_wf {f : State → State} (hf : ∀ t, Memory.wf t.dram = true → Memory.wf (f t).dram = true) :
    Memory.wf (cpWrite s f).dram = true := by
  unfold cpWrite
  split
  · exact h
  · split
    · exact h
    · exact hf _ h

/-! ### Ports -/

theorem responseBeat_wf (n tag stat : Nat) (data : List Byte) (crc : Nat) :
    Memory.wf (responseBeat s n tag stat data crc).1.dram = true := by
  grind [responseBeat, finishBurst_dram, dramWrite_wf, logBeat_dram, modOut_dram, modPort_dram, bump_dram]

/-! ### Zones -/

theorem ltStore_wf (pages : List Nat) (image : List Byte) : Memory.wf (ltStore s pages image).dram = true := by
  unfold ltStore
  refine foldl_wf h fun t x w => ?_
  simp [dramWrite_wf, w]

theorem storeSpare_wf (fg i : Nat) : Memory.wf (storeSpare s fg i).dram = true := by
  grind [storeSpare, dramWrite_wf]

theorem storeLost_wf (fg gone : Nat) : Memory.wf (storeLost s fg gone).dram = true := by
  unfold storeLost
  refine foldl_wf h fun t x w => ?_
  simp [dramWrite_wf, w]

theorem setZone_wf (e : ZoneEntry) : Memory.wf (setZone s e).dram = true := by
  grind [setZone, markSeg_dram, dramWrite_wf]

theorem modZone_wf (zid : Nat) (f : ZoneEntry → ZoneEntry) : Memory.wf (modZone s zid f).dram = true := by
  simp [modZone, setZone_wf, h]

theorem oztTake_wf {e : ZoneEntry} {t : State} (ho : oztTake s e = some t) : Memory.wf t.dram = true := by
  unfold oztTake at ho
  split at ho
  · cases ho
    exact setZone_wf h e
  · obtain ⟨i, -, rfl⟩ := Option.map_eq_some_iff.1 ho
    simpa using h

theorem oztFree_wf (zid : Nat) : Memory.wf (oztFree s zid).dram = true := by
  unfold oztFree; split <;> simp [setZone_wf, h]

theorem setMember_wf (zid j w : Nat) : Memory.wf (setMember s zid j w).dram = true := by
  simp [setMember, dramWrite_wf, h]

theorem setVoidBits_wf (zid v : Nat) : Memory.wf (setVoidBits s zid v).dram = true := by
  simp [setVoidBits, dramWrite_wf, h]

theorem setVoid_wf (zid r : Nat) : Memory.wf (setVoid s zid r).dram = true := by
  simp [setVoid, setVoidBits_wf, h]

/-! ### Rings -/

theorem start_wf {cid op : Nat} {f : State → Cmd → State}
    (hf : ∀ t c, Memory.wf t.dram = true → Memory.wf (f t c).dram = true) : Memory.wf (start s cid op f).dram = true := by
  unfold start
  split
  · exact h
  · exact hf _ _ h

theorem imageEnd_wf {c : Cmd} {len : Nat} {mp : PortEnd} {f : State → State}
    (hf : ∀ t, Memory.wf t.dram = true → Memory.wf (f t).dram = true) : Memory.wf (imageEnd s c len mp f).dram = true := by
  have hp := portEnd_dram s (2 * c.home) [(0, cPtr c, len)] mp
  unfold imageEnd
  split <;> simp_all

/-! ### Ageing -/

theorem arFlush_wf (bg : Nat) : Memory.wf (arFlush s bg).dram = true := by
  unfold arFlush; split <;> simp [dramWrite_wf, h]

theorem ageFlush_wf : Memory.wf (ageFlush s).dram = true := by
  unfold ageFlush
  refine foldl_wf h fun t x w => ?_
  simp [arFlush_wf, w]

theorem ageErase_wf (g b loops : Nat) : Memory.wf (ageErase s g b loops).dram = true := by
  simp [ageErase, arFlush_wf, h]

theorem ageProgram_wf (g b wl : Nat) (slc : Bool) (wseq : Option Nat) :
    Memory.wf (ageProgram s g b wl slc wseq).dram = true := by
  grind [ageProgram, arMod_dram, arFlush_wf]

theorem ageingRead_wf (cid : Nat) (mp : PortEnd) : Memory.wf (ageingRead s cid mp).dram = true := by
  unfold ageingRead
  refine start_wf h fun t c w => ?_
  grind [writeOut_dram, finish_dram, portEnd_dram, arFlush_wf]

/-! ### Members -/

theorem setOverlay_wf (zid v : Nat) : Memory.wf (setOverlay s zid v).dram = true := by
  grind [setOverlay, setZone_wf, jrnZone_dram]

theorem addLost_wf (fg zid first count cause lost : Nat) : Memory.wf (addLost s fg zid first count cause lost).dram = true := by
  simp [addLost, setOverlay_wf, storeLost_wf, h]

theorem loseRow_wf (zid r cause lost : Nat) : Memory.wf (loseRow s zid r cause lost).dram = true := by
  unfold loseRow; split <;> simp [addLost_wf, h]

theorem jrnSpare_wf (fg i : Nat) : Memory.wf (jrnSpare s fg i).dram = true := by
  unfold jrnSpare; split <;> simp [storeSpare_wf, h]

theorem setSpare_wf (fg i : Nat) (f : Spare → Spare) : Memory.wf (setSpare s fg i f).dram = true := by
  simp [setSpare, jrnSpare_wf, h]

theorem chooseSpare_wf (fg zid j : Nat) : Memory.wf (chooseSpare s fg zid j).1.dram = true := by
  grind [chooseSpare, modGroup_dram, setSpare_wf]

theorem pickSpare_wf (fg zid j : Nat) (dl : Option Nat) : Memory.wf (pickSpare s fg zid j dl).1.dram = true := by
  grind [pickSpare, spareErase_dram, chooseSpare_wf]

theorem loseRows_wf (zid cause : Nat) : Memory.wf (loseRows s zid cause).dram = true := by
  grind [loseRows, loseRow_wf, foldl_wf]

theorem dropLost_wf (fg zid : Nat) : Memory.wf (dropLost s fg zid).dram = true := by
  simp [dropLost, storeLost_wf, h]

theorem failMember_wf (zid j : Nat) : Memory.wf (failMember s zid j).dram = true := by
  grind [failMember, setMember_wf, holdRows_dram, setOverlay_wf, unitFor_dram, jrnMember_dram, maintFlag_dram,
    forgetUnread_dram, pickSpare_wf, loseRows_wf]

theorem respare_wf (zid j : Nat) : Memory.wf (respare s zid j).dram = true := by
  grind [respare, modGroup_dram, unitFor_dram, pickSpare_wf, setMember_wf, jrnMember_dram, maintFlag_dram]

theorem failAt_wf (p : Nat × Nat → Bool) : Memory.wf (failAt s p).dram = true := by
  unfold failAt
  refine foldl_wf h fun t x w => ?_
  split <;> simp [failMember_wf, respare_wf, w]

theorem killSpares_wf (g : Nat) : Memory.wf (killSpares s g).dram = true := by
  grind [killSpares, setSpare_wf, foldl_wf]

theorem lunFail_wf (g : Nat) : Memory.wf (lunFail s g).dram = true := by
  unfold lunFail; split <;> simp [failAt_wf, killSpares_wf, h]

/-! ### Hopper -/

theorem newRow_wf (zid row : Nat) : Memory.wf (newRow s zid row).dram = true := by
  simp [newRow, modZone_wf, h]

theorem zoneStart_wf {cid op : Nat} {f : State → Cmd → State}
    (hf : ∀ t c, Memory.wf t.dram = true → Memory.wf (f t c).dram = true) : Memory.wf (zoneStart s cid op f).dram = true := by
  unfold zoneStart
  split
  · exact h
  · refine start_wf h fun t c w => ?_
    split
    · simpa using w
    · exact hf _ _ w

theorem settleAppends_wf (n zid : Nat) : Memory.wf (settleAppends n s zid).dram = true := by
  induction n generalizing s with
  | zero => exact h
  | succ n ih =>
    unfold settleAppends
    split
    · split
      · exact ih (by simpa using modZone_wf h zid _)
      · exact h
    · exact h

theorem gatherRun_wf (c : Cmd) (zid rb off cmdBlk n : Nat) : Memory.wf (gatherRun s c zid rb off cmdBlk n).dram = true := by
  grind [gatherRun, modRow_dram, newRow_wf, modZone_wf]

theorem gatherBlocks_wf (f : Nat) (c : Cmd) (zid rb off cmdBlk n : Nat) :
    Memory.wf (gatherBlocks f s c zid rb off cmdBlk n).dram = true := by
  induction f generalizing s off cmdBlk n with
  | zero => exact h
  | succ f ih =>
    unfold gatherBlocks
    split
    · exact h
    · exact ih (gatherRun_wf h _ _ _ _ _ _) _ _ _

theorem openZone_wf {zid tenant : Nat} {hint : Option Nat} {t : State} (ho : openZone s zid tenant hint = some t) :
    Memory.wf t.dram = true := by
  unfold openZone at ho
  dsimp only at ho
  split at ho
  · cases ho
    split
    · exact setZone_wf h _
    · exact h
  · obtain ⟨u, hu, rfl⟩ := Option.map_eq_some_iff.1 ho
    simpa using oztTake_wf h hu

theorem tryAppend_wf (cid : Nat) : Memory.wf (tryAppend s cid).dram = true := by
  unfold tryAppend
  repeat' split
  all_goals grind [gatherBlocks_wf, startSpill_dram, finish_dram, modCmd_dram, openZone_wf, modZone_wf, hopFlag_dram,
    servePressure_dram]

theorem zoneAppend_wf (cid op : Nat) : Memory.wf (zoneAppend s cid op).dram = true := by
  grind [zoneAppend, modCmd_dram, tryAppend_wf]

theorem retryAppends_wf : Memory.wf (retryAppends s).dram = true := by
  unfold retryAppends
  refine foldl_wf h fun t x w => ?_
  grind [tryAppend_wf]

theorem stagingDurable_wf (g : Staging) : Memory.wf (stagingDurable s g).dram = true := by
  grind [stagingDurable, dropRow_dram, rangeDone_dram, modRow_dram, modZone_wf, jrnExtent_dram, dropExtents_dram, bump_dram,
    dropStg_dram]

theorem moveDurable_wf (g : Staging) (src : Nat × Nat) : Memory.wf (moveDurable s g src).dram = true := by
  grind [moveDurable, setZone_wf, jrnExtent_dram, dropStg_dram]

theorem settleWaiter_wf (c : Cmd) : Memory.wf (settleWaiter s c).dram = true := by
  grind [settleWaiter, wantStaging_dram, setZone_wf, jrnZone_dram, finish_dram, modCmd_dram, finishDurable_dram, oztFree_wf]

theorem settleWaiters_wf (zid : Nat) : Memory.wf (settleWaiters s zid).dram = true := by
  unfold settleWaiters
  refine foldl_wf h fun t x w => ?_
  simp [settleWaiter_wf, w]

theorem settleZones_wf : Memory.wf (settleZones s).dram = true := by
  unfold settleZones
  refine foldl_wf h fun t x w => ?_
  simp [settleWaiters_wf, settleAppends_wf, w]

theorem zoneQuiesce_wf (cid op : Nat) : Memory.wf (zoneQuiesce s cid op).dram = true := by
  unfold zoneQuiesce
  refine zoneStart_wf h fun t c w => ?_
  grind [wantStaging_dram, setZone_wf, jrnZone_dram, finish_dram, modCmd_dram, finishDurable_dram, settleWaiter_wf]

theorem zoneOpen_wf (cid : Nat) : Memory.wf (zoneOpen s cid).dram = true := by
  unfold zoneOpen
  refine zoneStart_wf h fun t c w => ?_
  grind [finishDurable_dram, hopFlag_dram, openZone_wf, finish_dram]

/-! ### Rows -/

theorem loseBlock_wf (zid row b : Nat) : Memory.wf (loseBlock s zid row b).dram = true := by
  simp [loseBlock, addLost_wf, h]

theorem foldRead_wf (rid b from_ : Nat) : Memory.wf (foldRead s rid b from_).dram = true := by
  grind [foldRead, modRow_dram, rowBlock_dram, readCopy_dram, loseBlock_wf]

theorem foldReads_wf (rid : Nat) : Memory.wf (foldReads s rid).dram = true := by
  grind [foldReads, foldRead_wf, modRow_dram, foldl_wf]

theorem foldStored_wf (rid b : Nat) (good : Bool) : Memory.wf (foldStored s rid b good).dram = true := by
  unfold foldStored; split <;> simp [foldRead_wf, h]

theorem restageRead_wf (sid b from_ : Nat) : Memory.wf (restageRead s sid b from_).dram = true := by
  grind [restageRead, readCopy_dram, loseBlock_wf, stageGot_dram]

theorem restageReads_wf (sid : Nat) : Memory.wf (restageReads s sid).dram = true := by
  grind [restageReads, restageRead_wf, foldl_wf]

theorem restageStored_wf (sid b : Nat) (good : Bool) : Memory.wf (restageStored s sid b good).dram = true := by
  unfold restageStored; split <;> simp [restageRead_wf, h]

theorem stageSettle_wf (sid : Nat) : Memory.wf (stageSettle s sid).dram = true := by
  grind [stageSettle, moveDurable_wf, reshapeDurable_dram, stagingDurable_wf]

theorem stageGood_wf (sid set copy wl : Nat) : Memory.wf (stageGood s sid set copy wl).dram = true := by
  simp [stageGood, stageSettle_wf, h]

theorem rowIntent_wf (rid : Nat) : Memory.wf (rowIntent s rid).dram = true := by
  unfold rowIntent
  repeat' split
  all_goals simp [modZone_wf, h]

theorem rowsIntent_wf : Memory.wf (rowsIntent s).dram = true := by
  unfold rowsIntent
  refine foldl_wf h fun t x w => ?_
  simp [rowIntent_wf, w]

theorem rowComplete_wf (r : Row) (lt : Layout) : Memory.wf (rowComplete s r lt).dram = true := by
  grind [rowComplete, setZone_wf, dropRow_dram, jrnZone_dram, rangeDone_dram, jrnRow_dram, servePressure_dram, oztFree_wf,
    dropExtents_dram, modZone_wf]

theorem rowSettle_wf (rid : Nat) : Memory.wf (rowSettle s rid).dram = true := by
  unfold rowSettle
  repeat' split
  all_goals simp [rowComplete_wf, h]

theorem memberGood_wf (rid j : Nat) : Memory.wf (memberGood s rid j).dram = true := by
  grind [memberGood, releaseParity_dram, rowSettle_wf, modRow_dram]

theorem rowVoid_wf (r : Row) (lt : Layout) (fail : Nat → Result) : Memory.wf (rowVoid s r lt fail).dram = true := by
  unfold rowVoid
  extract_lets n base s₁ seq s₂ pad mine s₃ w s₄ rows ops s₅ s₆ last e s₇ e' s₈
  have h₁ : Memory.wf s₁.dram = true := by simpa [s₁] using setVoid_wf h r.zid r.row
  have h₂ : s₂.dram = s₁.dram := foldl_dram _ _ _ fun t p => blocksDone_dram t _ _ _ _
  have h₃ : s₃.dram = s₂.dram := withdrawOps_dram s₂ mine
  have h₄ : s₄.dram = s₃.dram := by
    refine foldl_dram _ _ _ fun t j => ?_
    split
    · split <;> simp
    · rfl
  have h₅ : Memory.wf s₅.dram = true := by simpa [s₅, h₄, h₃, h₂] using h₁
  have h₆ : Memory.wf s₆.dram = true := modZone_wf h₅ _ _
  have h₇ : Memory.wf s₇.dram = true := by
    simp only [s₇]
    split
    · simpa using setZone_wf h₆ _
    · exact h₆
  have h₈ : Memory.wf s₈.dram = true := by
    simp only [s₈]
    split
    · exact oztFree_wf h₇ _
    · exact h₇
  rwa [servePressure_dram]

theorem memberBad_wf (rid j : Nat) (why : Option (Nat → Result)) : Memory.wf (memberBad s rid j why).dram = true := by
  grind [memberBad, releaseParity_dram, modRow_dram, rowVoid_wf, failMember_wf]

theorem slotFail_wf (r : Row) (lt : Layout) (p : Nat) : Memory.wf (slotFail s r lt p).dram = true := by
  simp [slotFail, memberBad_wf, h]

theorem rowParityDone_wf (ste : Nat) (detect : Option Nat) : Memory.wf (rowParityDone s ste detect).dram = true := by
  grind [rowParityDone, rowRestream_dram, modRow_dram, slotFail_wf, rowIntent_wf, recoveredAny_dram, steFlag_dram, bump_dram]

theorem rowChecked_wf (rid : Nat) (result : Result) : Memory.wf (rowChecked s rid result).dram = true := by
  grind [rowChecked, rowRestream_dram, memberBad_wf, freeVal_dram, modRow_dram, steFlag_dram]

theorem slotDetected_wf (o : Op) (rid j : Nat) : Memory.wf (slotDetected s o rid j).dram = true := by
  unfold slotDetected
  repeat' split
  all_goals simp [slotFail_wf, h]

/-! ### Layouts -/

theorem storeLayout_wf (idx : Nat) (lt : Layout) : Memory.wf (storeLayout s idx lt).dram = true := by
  simp [storeLayout, ltStore_wf, h]

theorem bindLayout_wf (idx : Nat) (lt : Layout) : Memory.wf (bindLayout s idx lt).dram = true := by
  simp [bindLayout, storeLayout_wf, h]

theorem layoutBind_wf (c : Cmd) (idx : Nat) (lt : Layout) : Memory.wf (layoutBind s c idx lt).dram = true := by
  unfold layoutBind
  repeat' split
  all_goals simp [bindLayout_wf, h]

theorem layoutTry_wf (c : Cmd) : Memory.wf (layoutTry s c).dram = true := by
  unfold layoutTry
  split
  · exact layoutBind_wf h c _ _
  · rwa [finish_dram]

theorem layoutDefine_wf (cid : Nat) (mp : PortEnd) : Memory.wf (layoutDefine s cid mp).dram = true := 
  start_wf h fun _ c w => imageEnd_wf w fun _ w => layoutTry_wf w c

theorem layoutsAfterScan_wf : Memory.wf (layoutsAfterScan s).dram = true := by
  unfold layoutsAfterScan
  refine foldl_wf h fun t x w => ?_
  simp [layoutTry_wf, w]

/-! ### ZoneReset -/

theorem erasedGood_wf (g b loops : Nat) : Memory.wf (erasedGood s g b loops).1.dram = true := by
  grind [erasedGood, ageErase_wf, ageFlag_dram, subSet_dram, modBlk_dram, retireBlock_dram]

theorem killSpareAt_wf (g b : Nat) : Memory.wf (killSpareAt s g b).dram = true := by
  unfold killSpareAt; split <;> simp [setSpare_wf, h]

theorem placeMember_wf (zid j g b : Nat) : Memory.wf (placeMember s zid j g b).dram = true := by
  grind [placeMember, modGroup_dram, setMember_wf, jrnMember_dram]

theorem reform_wf (c : Cmd) (zid j : Nat) (why : Reform) (place : Nat × Nat) :
    Memory.wf (reform s c zid j why place).dram = true := by
  grind [reform, resetErase_dram, noSpareFor_dram, modCmd_dram, chooseSpare_wf]

theorem resetMember_wf (c : Cmd) (zid : Nat) (empty : Bool) (j : Nat) :
    Memory.wf (resetMember s c zid empty j).dram = true := by
  unfold resetMember
  repeat' split
  all_goals simp [placeMember_wf, reform_wf, h]

theorem resetEnd_wf (cid zid : Nat) : Memory.wf (resetEnd s cid zid).dram = true := by
  grind [resetEnd, setZone_wf, jrnZone_dram, modGroup_dram, finishDurable_dram, oztFree_wf]

theorem resetSettle_wf (cid zid : Nat) : Memory.wf (resetSettle s cid zid).dram = true := by
  grind [resetSettle, resetMember_wf, resetEnd_wf, foldl_wf]

theorem resetGo_wf (c : Cmd) : Memory.wf (resetGo s c).dram = true := by
  grind [resetGo, setZone_wf, dropRow_dram, setVoidBits_wf, forgetUnread_dram, dropZoneStagings_dram, modCmd_dram,
    dropLost_wf, resetSettle_wf, resetMember_wf, jrnZone_dram, modGroup_dram, foldl_wf]

theorem resetBegin_wf (c : Cmd) : Memory.wf (resetBegin s c).dram = true := by
  grind [resetBegin, setZone_wf, finish_dram, modCmd_dram, resetGo_wf, hopFlag_dram, oztTake_wf, stopUnit_dram]

theorem zoneReset_wf (cid : Nat) : Memory.wf (zoneReset s cid).dram = true := by
  unfold zoneReset
  refine zoneStart_wf h fun t c w => ?_
  grind [resetBegin_wf, finish_dram]

theorem retryResets_wf : Memory.wf (retryResets s).dram = true := by
  unfold retryResets
  refine foldl_wf h fun t x w => ?_
  split <;> simp [resetGo_wf, w]

theorem resetErased_wf (cid zid j g b : Nat) (good : Bool) (loops : Nat) :
    Memory.wf (resetErased s cid zid j g b good loops).dram = true := by
  grind [resetErased, placeMember_wf, erasedBad_dram, reform_wf, modCmd_dram, killSpareAt_wf, resetSettle_wf, erasedGood_wf,
    resetFails_dram]

/-! ### Rebuild -/

theorem unitRowLost_wf (fg zid r lost : Nat) : Memory.wf (unitRowLost s fg zid r lost).dram = true := by
  grind [unitRowLost, rebProgram_dram, dropRebRecons_dram, modUnit_dram, loseRow_wf, foldl_wf]

theorem unitRow_wf (fg zid : Nat) (lt : Layout) (r : Nat) (ms : List Nat) :
    Memory.wf (unitRow s fg zid lt r ms).dram = true := by
  unfold unitRow
  extract_lets begun
  have hb (t : State) : (begun t).dram = t.dram := by simp [begun]
  split
  · rwa [foldl_dram _ _ _ fun t j => rebProgram_dram t fg zid r j, hb]
  · split
    · exact h
    · next t sl ht =>
      have ht : Memory.wf t.dram = true := by rwa [takeRebSlots_dram s ht]
      extract_lets u w go
      have hu : Memory.wf u.dram = true := by simpa [u, hb] using ht
      split
      · next v hv =>
        refine foldl_option (P := fun t : State => Memory.wf t.dram = true) (fun _ e => by cases e; exact hu)
            (fun acc i t ha e => ?_) hv
        obtain ⟨x, hx, he⟩ := Option.bind_eq_some_iff.1 e
        rw [startRecon_dram x he]
        exact ha x hx
      · exact unitRowLost_wf hu _ _ _ _

theorem unitStep_wf (fg : Nat) (u : RebUnit) : Memory.wf (unitStep s fg u).dram = true := by
  unfold unitStep
  repeat' split
  all_goals simp [unitRow_wf, h]

theorem kickUnits_wf (fg : Nat) : Memory.wf (kickUnits s fg).dram = true := by
  grind [kickUnits, unitStep_wf, settleUnits_dram, passEnd_dram]

theorem kickRebuilds_wf : Memory.wf (kickRebuilds s).dram = true := by
  unfold kickRebuilds
  refine foldl_wf h fun t x w => ?_
  simp [kickUnits_wf, w]

theorem unitProgrammed_wf (fg zid r j g b : Nat) (good : Bool) :
    Memory.wf (unitProgrammed s fg zid r j g b good).dram = true := by
  grind [unitProgrammed, respare_wf, modGroup_dram, killSpareAt_wf, dropRebRecons_dram, modUnit_dram, dropRebSlots_dram,
    bump_dram]

theorem unitEnd_wf (fg zid : Nat) : Memory.wf (unitEnd s fg zid).dram = true := by
  grind [unitEnd, setMember_wf, trace_dram, setOverlay_wf, modGroup_dram, queueMember_dram, jrnMember_dram, passEnd_dram,
    foldl_wf]

theorem memberFail_wf (cid : Nat) : Memory.wf (memberFail s cid).dram = true := by
  unfold memberFail
  refine start_wf h fun t c w => ?_
  grind [finishDurable_dram, dropStaging_dram, failAt_wf, finish_dram, lunFail_wf]

theorem spareAdd_wf (fg : Nat) (lt : Layout) (g b : Nat) {t : State} (ho : spareAdd s fg lt g b = some t) :
    Memory.wf t.dram = true := by
  grind [spareAdd, jrnSpare_wf, modGroup_dram, setSpare_wf, spareLun_dram]

theorem spareWithdraw_wf {fg g b : Nat} {t : State} (ho : spareWithdraw s fg g b = some t) : Memory.wf t.dram = true := by
  obtain ⟨i, -, rfl⟩ := Option.map_eq_some_iff.1 ho
  exact setSpare_wf h _ _ _

theorem spareOffer_wf (fg : Nat) : Memory.wf (spareOffer s fg).dram = true := by
  unfold spareOffer
  refine foldl_wf h fun t x w => ?_
  grind [unitFor_dram, jrnMember_dram, setMember_wf, pickSpare_wf]

theorem spareApply_wf {c : Cmd} {lt : Layout} {t : State} (ho : spareApply s c lt = some t) : Memory.wf t.dram = true := by
  unfold spareApply at ho
  dsimp only at ho
  split at ho
  · cases ho
  · refine foldl_option (P := fun t : State => Memory.wf t.dram = true) (fun u e => by cases e; exact h)
      (fun acc e t ha ho => ?_) ho
    obtain ⟨u, hu, ht⟩ := Option.bind_eq_some_iff.1 ho
    split at ht
    · exact spareAdd_wf (ha u hu) _ _ _ _ ht
    · exact spareWithdraw_wf (ha u hu) ht

theorem spareAssign_wf (cid : Nat) (mp : PortEnd) : Memory.wf (spareAssign s cid mp).dram = true := by
  refine start_wf h fun t c w => ?_
  dsimp only
  split
  · rwa [finish_dram]
  · refine imageEnd_wf w fun u w => ?_
    split
    · rwa [finish_dram]
    · next ho =>
      have hv := spareApply_wf w ho
      repeat' split
      all_goals simp [spareOffer_wf, w, hv]

theorem spareErasedEnd_wf (fg i : Nat) (good : Bool) (loops : Nat) :
    Memory.wf (spareErasedEnd s fg i good loops).dram = true := by
  grind [spareErasedEnd, respare_wf, erasedBad_dram, modGroup_dram, setSpare_wf, erasedGood_wf, foldl_wf]

/-! ### Reshape -/

theorem reshapeBegin_wf (cid : Nat) (mp : PortEnd) : Memory.wf (reshapeBegin s cid mp).dram = true := by
  refine start_wf h fun t c w => imageEnd_wf w fun u w => ?_
  dsimp only
  repeat' split
  all_goals simp [storeLayout_wf, w]

theorem copyWrite_wf (fg zid : Nat) (new : Layout) : Memory.wf (copyWrite s fg zid new).dram = true := by
  grind [copyWrite, copyToEngine_dram, addLost_wf, copyProgram_dram, jrnRow_dram, modCp_dram, copyStreamed_dram,
    copyStage_dram, foldl_wf]

theorem kickReshape_wf (fg : Nat) : Memory.wf (kickReshape s fg).dram = true := by
  grind [kickReshape, wantStaging_dram, copyBegin_dram, copyWrite_wf, copyRowDone_dram, modGroup_dram, eraseOld_dram]

theorem kickReshapes_wf : Memory.wf (kickReshapes s).dram = true := by
  unfold kickReshapes
  refine foldl_wf h fun t x w => ?_
  simp [kickReshape_wf, w]

theorem crossZone_wf (fg zid : Nat) (old new : Layout) : Memory.wf (crossZone s fg zid old new).dram = true := by
  unfold crossZone
  extract_lets g idx e olds s₁ s₂ _ s₃
  have h₁ : Memory.wf s₁.dram = true := by rwa [jrnLayout_dram]
  have h₂ : Memory.wf s₂.dram = true := by
    simp only [s₂]
    exact foldl_wf h₁ fun t j w => setMember_wf w zid j 0
  clear_value s₂
  have hf : Memory.wf (forgetUnread s₂ fg zid none).dram = true := by rwa [forgetUnread_dram]
  have h₃ : Memory.wf s₃.dram = true := by
    refine setVoidBits_wf ?_ zid 0
    exact hf
  dsimp -zeta only
  extract_lets s₄ s₅ s₆ s₇
  have h₄ : Memory.wf s₄.dram = true := setZone_wf h₃ _
  have h₅ : Memory.wf s₅.dram = true := by
    simp only [s₅]
    split
    · exact setOverlay_wf h₄ _ _
    · exact h₄
  have h₇ : Memory.wf s₇.dram = true := foldl_wf (by simpa [s₆] using h₅) fun t j w => failMember_wf w _ _
  split
  · exact h₇
  · rwa [eraseOld_dram]

theorem reshapeCross_wf (fg : Nat) : Memory.wf (reshapeCross s fg).dram = true := by
  grind [reshapeCross, modGroup_dram, reshapeEnd_dram, crossZone_wf]

/-! ### Maint -/

theorem sweepDone_wf (cid : Nat) : Memory.wf (sweepDone s cid).dram = true := by
  grind [sweepDone, arMod_dram, writeOut_dram, finish_dram, arFlush_wf, freeLeases_dram]

/-! ### Codewords -/

theorem reconFails_wf (r : Recon) : Memory.wf (reconFails s r).dram = true := by
  unfold reconFails; split <;> simp [unitRowLost_wf, h]

theorem survivorOut_wf (rid m : Nat) (why : Option Result) : Memory.wf (survivorOut s rid m why).dram = true := by
  grind [survivorOut, askMore_dram, modRecon_dram, reconFails_wf]

theorem useFail_wf (i : Item) (u : Use) (st site want : Nat) : Memory.wf (useFail s i u st site want).dram = true := by
  unfold useFail
  grind [sweepGot_dram, blkReconOrFail_dram, survivorOut_wf, advise_dram, scrubFind_dram, copyFail_dram, scrubTake_dram,
    freeVal_dram, noteFail_dram, foldRead_wf, restageRead_wf, stagedRead_dram, blkFail_dram, scrubFailed_dram, rawReadFail_dram]

theorem failAll_wf (i : Item) (iters st site want : Nat) (failed : Bool) :
    Memory.wf (failAll s i iters st site want failed).dram = true := by
  grind [failAll, noteUnread_dram, useFail_wf, ladderEnd_dram, foldl_wf]

theorem itemFail_wf (i : Item) (st site want : Nat) : Memory.wf (itemFail s i st site want).dram = true := by
  simp [itemFail, failAll_wf, h]

theorem leave_wf (i : Item) (st site want : Nat) (u : Use) : Memory.wf (leave s i st site want u).dram = true := by
  unfold leave; split <;> simp [useFail_wf, h]

theorem climb_wf (i : Item) (iters st site want : Nat) : Memory.wf (climb s i iters st site want).dram = true := by
  grind [climb, useSteps_dram, leave_wf, failAll_wf, nextStep_dram, ladderEnd_dram, foldl_wf]

theorem itemErased_wf (i : Item) : Memory.wf (itemErased s i).dram = true := by
  simp [itemErased, itemFail_wf, h]

theorem itemTaken_wf (i : Item) (raw clear : List Byte) : Memory.wf (itemTaken s i raw clear).dram = true := by
  unfold itemTaken; split <;> simp [itemErased_wf, h]

theorem itemReceived_wf (i : Item) (raw : List Byte) : Memory.wf (itemReceived s i raw).dram = true := by
  grind [itemReceived, rawGot_dram, itemTaken_wf, modItem_dram, dropItem_dram, foldl_wf]

theorem codewordReceived_wf (c : Nat) (raw : List Byte) (detect : Bool) :
    Memory.wf (codewordReceived s c raw detect).dram = true := by
  grind [codewordReceived, endRead_dram, itemReceived_wf, itemFail_wf, modItem_dram, modOp_dram, releaseOp_dram,
    recoveredAny_dram, unrecoveredAny_dram]

theorem stagingCheck_wf (i : Item) : Memory.wf (stagingCheck s i).dram = true := by
  unfold stagingCheck; split <;> simp [itemFail_wf, h]

theorem decodeStart_wf (p : Nat) (soft detect : Bool) : Memory.wf (decodeStart s p soft detect).dram = true := by
  grind [decodeStart, stagingCheck_wf, modItem_dram]

theorem usePad_wf (i : Item) (u : Use) : Memory.wf (usePad s i u).dram = true := by
  unfold usePad; split <;> simp [survivorOut_wf, useFail_wf, h]

theorem ownGot_wf (i : Item) (body : List Byte) (hdr : Nat) {good : State → State} {bad : State → Option State}
    (hg : Memory.wf (good s).dram = true)
    (hb : ∀ t u : State, Memory.wf t.dram = true → bad t = some u → Memory.wf u.dram = true) :
    Memory.wf (ownGot s i body hdr good bad).1.dram = true := by
  have hn (n : Nat) : Memory.wf (noteCheck s i n).dram = true := by simpa using h
  unfold ownGot
  split
  · exact hg
  · dsimp only
    split
    · next e => exact hb _ _ (hn _) e
    · exact hn _

theorem useGot_wf (i : Item) (u : Use) (body : List Byte) (hdr : Nat) : Memory.wf (useGot s i u body hdr).1.dram = true := by
  unfold useGot
  refine iteInduction (motive := fun p : State × Took => Memory.wf p.1.dram = true) (fun _ => usePad_wf h i u) fun _ => ?_
  cases u with
  | survivor =>
    refine ownGot_wf h i body hdr (by simpa using h) fun t u w e => ?_
    split at e
    · obtain ⟨f, -, rfl⟩ := Option.map_eq_some_iff.1 e
      exact survivorOut_wf w _ _ _
    · cases e
  | copy =>
    refine ownGot_wf h i body hdr (by simpa using h) fun t u w e => ?_
    split at e
    · rwa [copyRecon_dram t _ _ _ _ _ e]
    · cases e
  | scrub =>
    refine ownGot_wf h i body hdr (by simpa using h) fun t u w e => ?_
    obtain ⟨f, -, rfl⟩ := Option.map_eq_some_iff.1 e
    simpa using w
  | fold | restage | patrol => exact ownGot_wf h i body hdr (by simpa using h) fun _ _ _ e => by cases e
  | blk | staged | sweep | raw => simpa using h

omit h in
theorem takeNext_wf {t : Taken} (w : Memory.wf t.s.dram = true) (i : Item) (body : List Byte) (hdr : Nat) (u : Use) :
    Memory.wf (takeNext i body hdr t u).s.dram = true := by
  have hu := useGot_wf w i u body hdr
  unfold takeNext
  split <;> next e => rwa [e] at hu

theorem decoded_wf (i : Item) (out : List Byte) (iters : Nat) : Memory.wf (decoded s i out iters).dram = true := by
  unfold decoded
  extract_lets u t _ v
  have ht : Memory.wf t.s.dram = true :=
    List.foldlRecOn (motive := fun t : Taken => Memory.wf t.s.dram = true) _ _ (by simpa [u] using h)
      fun t w x _ => takeNext_wf w i _ _ x
  have hv : Memory.wf v.dram = true := by
    simp only [v]
    split <;> exact ht
  split
  · split
    · rwa [ladderEnd_dram]
    · exact hv
  · have hf : (if t.hold.isEmpty then (i.id, v) else fresh v).2.dram = v.dram := by split <;> simp
    generalize (if t.hold.isEmpty then (i.id, v) else fresh v) = p at hf ⊢
    exact climb_wf (by rwa [hf]) _ _ _ _ _

theorem releaseHeld_wf : Memory.wf (releaseHeld s).dram = true := by
  grind [releaseHeld, decoded_wf, blkBody_dram, blkFail_dram, foldl_wf]

theorem decodeDone_wf (p d : Nat) (out : List Byte) (iters : Nat) (detect : Bool) :
    Memory.wf (decodeDone s p d out iters detect).dram = true := by
  grind [decodeDone, climb_wf, itemFail_wf, modItem_dram, sweepGot_dram, decoded_wf, recoveredAny_dram, errBurst_dram,
    decFlag_dram, unrecoveredAny_dram, bump_dram, dropItem_dram]

theorem reconAgain_wf (r : Recon) : Memory.wf (reconAgain s r).dram = true := by
  unfold reconAgain
  extract_lets u
  have hu : Memory.wf u.dram = true := by simpa [u] using h
  split
  · exact getD_wf (fun _ ho => by rwa [askMore_dram _ ho]) (reconFails_wf hu r)
  · exact hu

theorem retrainItem_wf (i : Item) : Memory.wf (retrainItem s i).dram = true := by
  grind [retrainItem, useSteps_dram, leave_wf, blkRecon_dram, modItem_dram, dropItem_dram, ladderEnd_dram, foldl_wf]

theorem retrainReads_wf (c : Nat) : Memory.wf (retrainReads s c).dram = true := by
  unfold retrainReads
  refine foldl_wf h fun t x w => ?_
  simp [retrainItem_wf, w]

theorem fenceReads_wf (c : Nat) : Memory.wf (fenceReads s c).dram = true := by
  grind [fenceReads, useFail_wf, failAll_wf, dropItem_dram, foldl_wf]

theorem kickRecons_wf : Memory.wf (kickRecons s).dram = true := by
  refine foldl_wf h fun t r w => ?_
  split
  · next u hu =>
    have hu : Memory.wf u.dram = true := by rwa [takeRegion_dram _ hu]
    exact getD_wf (fun _ ho => by rwa [askMore_dram _ ho, modRecon_dram]) (reconFails_wf (by rwa [modRecon_dram]) r)
  · exact w

/-! ### Poll -/

theorem progBad_wf (o : Op) (site : Option Nat) : Memory.wf (progBad s o site).dram = true := by
  unfold progBad
  repeat' split
  all_goals simp [unitProgrammed_wf, failAt_wf, memberBad_wf, h]

theorem pathBad_wf (o : Op) (cwx site : Nat) : Memory.wf (pathBad s o cwx site).1.dram = true := by
  grind [pathBad, dropOp_dram, modOp_dram, noteBlock_dram, progBad_wf, resetLun_dram]

theorem pathCheck_wf (o : Op) (chk : PathCheck) : Memory.wf (pathCheck s o chk).1.dram = true := by
  unfold pathCheck
  grind [unrecoveredAny_dram, pathBad_wf, slotDetected_wf, recoveredAny_dram, decPiFlag_dram]

theorem phasePage_wf (o : Op) (mp : PortEnd) (chk : PathCheck) : Memory.wf (phasePage s o mp chk).dram = true := by
  unfold phasePage
  split
  · rwa [setupStop_dram]
  · have hp : Memory.wf (if o.pages = 0 then openStream s o mp else (s, true)).1.dram = true := by
      split
      · rwa [openStream_dram]
      · exact h
    split
    · next e => rwa [e] at hp
    · next t e =>
      rw [e] at hp
      have hc := pathCheck_wf hp o chk
      split
      · next e => rwa [e] at hc
      · next e =>
        rw [e] at hc
        refine getD_wf (fun t ho => ?_) hc
        obtain ⟨x, -, rfl⟩ := Option.map_eq_some_iff.1 ho
        rwa [sendPage_dram]

theorem busPhase_wf (c : Nat) (mp : PortEnd) (chk : PathCheck) : Memory.wf (busPhase s c mp chk).dram = true := by
  unfold busPhase
  repeat' split
  all_goals simp [phasePage_wf, h]

theorem progGood_wf (o : Op) : Memory.wf (progGood s o).dram = true := by
  unfold progGood; split <;> simp [stageGood_wf, unitProgrammed_wf, memberGood_wf, h]

theorem progEnd_wf (o : Op) (good : Bool) (status : Nat) : Memory.wf (progEnd s o good status).dram = true := by
  unfold progEnd
  repeat' split
  all_goals simp [progBad_wf, ageProgram_wf, progGood_wf, h]

theorem eraseEnd_wf (o : Op) (good : Bool) (status loops : Nat) : Memory.wf (eraseEnd s o good status loops).dram = true := by
  grind [eraseEnd, dropOp_dram, rawEnd_dram, setEraseEnd_dram, turnEnd_dram, erasedBad_dram, modGroup_dram, resetErased_wf,
    spareErasedEnd_wf, progBad_wf, erasedGood_wf, modBlk_dram, foldl_wf]

theorem opEnded_wf (o : Op) (good : Bool) (status loops : Nat) : Memory.wf (opEnded s o good status loops).dram = true := by
  unfold opEnded; split <;> simp [eraseEnd_wf, progEnd_wf, h]

theorem statusPoll_wf (g : Nat) (r : PollResult) (status loops : Nat) :
    Memory.wf (statusPoll s g r status loops).dram = true := by
  unfold statusPoll
  repeat' split
  all_goals simp [opEnded_wf, h]

theorem opCut_wf (o : Op) : Memory.wf (opCut s o).dram = true := by
  unfold opCut
  split
  · dsimp only
    split
    · rwa [foldl_dram, dropOp_dram]
      intro t id
      refine getD_dram (fun u ho => ?_) rfl
      obtain ⟨i, -, rfl⟩ := Option.map_eq_some_iff.1 ho
      exact queueStep_dram t i
    · refine foldl_wf (by rwa [dropOp_dram]) fun t id w => ?_
      split
      · exact climb_wf (by rwa [dropItem_dram]) _ _ _ _ _
      · exact w
  · dsimp only
    split
    · simpa using h
    · exact eraseEnd_wf (by simpa using h) _ _ _ _
  · split
    · split <;> simpa using h
    · simpa using h
  · split
    · simpa using h
    · exact progEnd_wf (by simpa using h) _ _ _

theorem lunReset_wf (g : Nat) : Memory.wf (lunReset s g).dram = true := by
  grind [lunReset, opCut_wf, resetLun_dram, abandon_dram, foldl_wf]

theorem opTimedOut_wf (o : Op) : Memory.wf (opTimedOut s o).dram = true := by
  simp [opTimedOut, lunReset_wf, h]

theorem lunTimeout_wf (g : Nat) : Memory.wf (lunTimeout s g).dram = true := by
  grind [lunTimeout, opTimedOut_wf]

/-! ### Restart -/

theorem loadZone_wf (fg zid : Nat) : Memory.wf (loadZone s fg zid).dram = true := by
  grind [loadZone, dramWrite_wf]

theorem raiseWp_wf (zid wp : Nat) : Memory.wf (raiseWp s zid wp).dram = true := by
  simp [raiseWp, modZone_wf, h]

theorem applyZone_wf (e : JEntry) : Memory.wf (applyZone s e).dram = true := by
  grind [applyZone, setZone_wf, setVoidBits_wf, dropLost_wf]

theorem applyTable_wf (e : JEntry) : Memory.wf (applyTable s e).dram = true := by
  unfold applyTable; split <;> simp [storeLost_wf, storeSpare_wf, h]

theorem applyCheckpoint_wf (e : JEntry) : Memory.wf (applyCheckpoint s e).dram = true := by
  grind [applyCheckpoint, setMember_wf, modZone_wf, foldl_wf]

theorem applyEntry_wf (prev : Option JEntry) (e : JEntry) : Memory.wf (applyEntry s prev e).dram = true := by
  unfold applyEntry
  grind [applyZone_wf, addExtent_dram, setMember_wf, applyCheckpoint_wf, raiseWp_wf, setVoid_wf, applyTable_wf]

theorem replay_wf (es : List JEntry) : Memory.wf (replay s es).dram = true :=
  List.foldlRecOn (motive := fun p : State × Option JEntry => Memory.wf p.1.dram = true) _ _ h
    fun p w e _ => applyEntry_wf w p.2 e

theorem restartFail_wf (zid j : Nat) : Memory.wf (restartFail s zid j).dram = true := by
  unfold restartFail; split <;> simp [failMember_wf, h]

theorem voidTorn_wf (lt : Layout) (zid r : Nat) (st : List Classify) (sus : List Nat) :
    Memory.wf (voidTorn s lt zid r st sus).dram = true := by
  grind [voidTorn, jrnRow_dram, queueProg_dram, setVoid_wf, bump_dram, foldl_wf]

theorem settleTorn_wf (lt : Layout) (zid r : Nat) (c : RowClass) (prog : Option (Nat × Nat)) :
    Memory.wf (settleTorn s lt zid r c prog).1.dram = true := by
  grind [settleTorn, voidTorn_wf, jrnZone_dram, refold_dram, jrnRow_dram, raiseWp_wf, restartFail_wf, dropExtents_dram,
    modZone_wf, bump_dram, foldl_wf]

theorem settleRows_wf (lt : Layout) (es : List JEntry) (reads : List RowClass) (zid : Nat) (l : List (Nat × Nat)) (may : Bool) :
    Memory.wf (settleRows s lt es reads zid l may).dram = true := by
  induction l generalizing s may with
  | nil => exact h
  | cons x rest ih =>
    unfold settleRows
    dsimp only
    split
    · exact ih (by simpa using h) _
    · split
      · exact ih (by simpa using h) _
      · have ht := settleTorn_wf h lt zid x.1 (readsOf reads zid x.1 (width lt)) (progressOf s es zid x.1)
        split
        · next e => exact ih (by rwa [e] at ht) _
        · next e => rwa [e] at ht

theorem finishReset_wf (lt : Layout) (zid : Nat) : Memory.wf (finishReset s lt zid).dram = true := by
  grind [finishReset, setZone_wf, jrnZone_dram, modBlk_dram, foldl_wf]

theorem restZone_wf (lt : Layout) (zid : Nat) : Memory.wf (restZone s lt zid).dram = true := by
  grind [restZone, setZone_wf, jrnZone_dram]

theorem restartZone_wf (lt : Layout) (es : List JEntry) (reads : List RowClass) (zid : Nat) :
    Memory.wf (restartZone s lt es reads zid).dram = true := by
  grind [restartZone, settleRows_wf, finishReset_wf, restZone_wf]

theorem sweepRow_wf (lt : Layout) (zid r : Nat) (c : RowClass) : Memory.wf (sweepRow s lt zid r c).dram = true := by
  grind [sweepRow, raiseWp_wf, loseRow_wf, jrnRow_dram, bump_dram]

theorem sweepRows_wf (lt : Layout) (es : List JEntry) (reads : List RowClass) (zid seq n r : Nat) :
    Memory.wf (sweepRows s lt es reads zid seq n r).dram = true := by
  induction n generalizing s r with
  | zero => exact h
  | succ n ih =>
    unfold sweepRows
    dsimp only
    split
    · exact h
    · exact ih (sweepRow_wf h _ _ _ _) _

theorem sweepHole_wf (lt : Layout) (fg : Nat) (es : List JEntry) (reads : List RowClass) (staged : List StagedHeader)
    (seq : Nat) :
    Memory.wf (sweepHole s lt fg es reads staged seq).dram = true := by
  grind [sweepHole, sweepRows_wf, addExtent_dram, restZone_wf, foldl_wf]

theorem groupRestart_wf (fg : Nat) (reads : List RowClass) (staged : List StagedHeader) :
    Memory.wf (groupRestart s fg reads staged).dram = true := by
  grind [groupRestart, chainExtents_dram, restartZone_wf, modJrn_dram, sweepHole_wf, modGroup_dram, segPages_dram, replay_wf,
    finishDurable_dram, loadZone_wf, raise_dram, foldl_wf]

/-! ### Pump -/

theorem pumpRows_wf : Memory.wf (pumpRows s).dram = true := by
  simp [pumpRows, rowsIntent_wf, h]

theorem pumpStagings_wf : Memory.wf (pumpStagings s).dram = true := by
  unfold pumpStagings
  refine foldl_wf h fun t x w => ?_
  simp [stageSettle_wf, w]

theorem pumpWork_wf : Memory.wf (pumpWork s).dram = true := by
  have hk : Memory.wf (kickReshapes (kickRebuilds (kickRecons s))).dram = true :=
    kickReshapes_wf (kickRebuilds_wf (kickRecons_wf h))
  have hr : Memory.wf (retryResets (retryLeases (kickAuto (kickReshapes (kickRebuilds (kickRecons s)))))).dram = true :=
    retryResets_wf (by rwa [retryLeases_dram, kickAuto_dram])
  have ha : Memory.wf (retryAppends (settleZones (kickSweeps (kickScrubs (retryResets (retryLeases (kickAuto
      (kickReshapes (kickRebuilds (kickRecons s)))))))))).dram = true :=
    retryAppends_wf (settleZones_wf (by rwa [kickSweeps_dram, kickScrubs_dram]))
  unfold pumpWork
  rw [drainStage_dram, foldl_dram _ _ _ fun t q => servePressure_dram t q]
  exact ha

theorem pump_wf : Memory.wf (pump s).dram = true := by
  have hj : Memory.wf (pumpJournal s).dram = true := by rwa [pumpJournal_dram]
  have hr : Memory.wf (releaseHeld (pumpWork (pumpStagings (pumpRows (pumpJournal s))))).dram = true :=
    releaseHeld_wf (pumpWork_wf (pumpStagings_wf (pumpRows_wf hj)))
  simpa only [pump, pumpGovern_dram, pumpDomains_dram, pumpPins_dram, pumpRungs_dram, clearHits_dram, completeReady_dram,
    pumpDisables_dram, pfailProgress_dram] using hr

/-! ### Phy -/

theorem enterRetrain_wf (c : Nat) : Memory.wf (enterRetrain s c).dram = true := by
  unfold enterRetrain; split <;> simp [retrainReads_wf, h]

theorem startTrain_wf (c : Nat) (t : Train) (rung : Nat) : Memory.wf (startTrain s c t rung).dram = true := by
  simp [startTrain, enterRetrain_wf, h]

theorem quickTrigger_wf (c : Nat) : Memory.wf (quickTrigger s c).dram = true := by
  unfold quickTrigger; split <;> simp [startTrain_wf, h]

theorem tempTrigger_wf (c : Nat) : Memory.wf (tempTrigger s c).dram = true := by
  grind [tempTrigger, quickTrigger_wf]

theorem fence_wf (c : Nat) : Memory.wf (fence s c).dram = true := by
  grind [fence, leaveRetrain_dram, phyFlag_dram, lunReset_wf, setChanState_dram, fenceReads_wf, lunFail_wf, fenceRebuild_dram,
    modPhy_dram, govEvaluate_dram, fenceRaw_dram, foldl_wf]

theorem stepDown_wf (c rung : Nat) (got : List CeTrain) : Memory.wf (stepDown s c rung got).dram = true := by
  unfold stepDown; split <;> simp [fence_wf, startTrain_wf, h]

theorem fullDone_wf (c : Nat) (codes : Byte × Byte) (atEnd : Bool) (ces : List CeTrain) :
    Memory.wf (fullDone s c codes atEnd ces).dram = true := by
  grind [fullDone, lunFail_wf, modPhy_dram, stepDown_wf, phyFlag_dram, logCe_dram, trainPass_dram, startTrain_wf, wrf_dram,
    zqDone_dram, bump_dram, foldl_wf]

theorem quickDone_wf (c : Nat) (codes : Byte × Byte) (atEnd : Bool) (ces : List CeTrain) :
    Memory.wf (quickDone s c codes atEnd ces).dram = true := by
  grind [quickDone, logCe_dram, trainPass_dram, startTrain_wf, zqDone_dram, bump_dram, foldl_wf]

theorem raiseStart_wf (c : Nat) : Memory.wf (raiseStart s c).dram = true := by
  grind [raiseStart, startTrain_wf, modPhy_dram]

theorem phyAct_wf (c act : Nat) : Memory.wf (phyAct s c act).dram = true := by
  unfold phyAct; split <;> simp [startTrain_wf, raiseStart_wf, h]

theorem phyCmd_wf (c act : Nat) : Memory.wf (phyCmd s c act).dram = true := by
  grind [phyCmd, phyAct_wf, wrf_dram, modPhy_dram]

theorem phyAsked_wf (c : Nat) : Memory.wf (phyAsked s c).dram = true := by
  unfold phyAsked
  repeat' split
  all_goals simp [phyAct_wf, h]

theorem linkFail_wf (c : Nat) : Memory.wf (linkFail s c).dram = true := by
  simp [linkFail, quickTrigger_wf, h]

theorem linkCheck_wf (c ce : Nat) (pass : Bool) : Memory.wf (linkCheck s c ce pass).dram = true := by
  grind [linkCheck, linkFail_wf, linkRead_dram, modPhy_dram]

theorem pllUnlock_wf (c : Nat) : Memory.wf (pllUnlock s c).dram = true := by
  grind [pllUnlock, phyFlag_dram, enterRetrain_wf, modPhy_dram]

theorem pllLock_wf (c : Nat) : Memory.wf (pllLock s c).dram = true := by
  grind [pllLock, modPhy_dram, startTrain_wf]

/-! ### Engine -/

theorem haltEngine_wf (e : Nat) : Memory.wf (haltEngine s e).dram = true := by
  unfold haltEngine; split <;> simp [fence_wf, h]

theorem steOutcome_wf (w : Nat) (r : Result) : Memory.wf (steOutcome s w r).dram = true := by
  unfold steOutcome; split <;> simp [rowChecked_wf, reconAgain_wf, h]

theorem itemOutcome_wf (e : Nat) (r : Result) : Memory.wf (itemOutcome s e r).dram = true := by
  unfold itemOutcome
  repeat' split
  all_goals simp [steOutcome_wf, opTimedOut_wf, h]

theorem recover_wf (e : Nat) : Memory.wf (recover s e).dram = true := by
  grind [recover, modEng_dram, haltEngine_wf, logCheck_dram]

theorem machineCheck_wf (e cause : Nat) : Memory.wf (machineCheck s e cause).dram = true := by
  grind [machineCheck, haltEngine_wf, modEng_dram, recover_wf, logCheck_dram, itemOutcome_wf]

theorem parityError_wf (e line : Nat) : Memory.wf (parityError s e line).dram = true := by
  unfold parityError; split <;> simp [haltEngine_wf, machineCheck_wf, itemOutcome_wf, h]

theorem micro_wf (e : Nat) (safe : Bool) {f : State → State}
    (hf : ∀ t, Memory.wf t.dram = true → Memory.wf (f t).dram = true) : Memory.wf (micro s e safe f).dram = true := by
  unfold micro
  extract_lets en s₁ s₂ s₃
  split
  · exact h
  · have h₁ : s₁.dram = s.dram := by
      simp only [s₁]
      split
      · exact safePoint_dram s e
      · rfl
    have h₃ : Memory.wf s₃.dram = true := by simpa [s₃, s₂, h₁] using h
    split
    · exact machineCheck_wf h₃ e 3
    · exact hf _ h₃

theorem alu_wf (e : Nat) (safe : Bool) (dst : Option Nat) (a b : Nat) (fn : Word → Word → Word)
    (carry : Word → Word → Option Bool) :
    Memory.wf (alu s e safe dst a b fn carry).dram = true := by
  simp [alu, micro_wf, h]

theorem shift_wf (e : Nat) (safe : Bool) (dst a b : Nat) (fn : Word → Nat → Word) :
    Memory.wf (shift s e safe dst a b fn).dram = true := by
  grind [shift, alu_wf, freeVal_dram]

theorem localDetect_wf (e line : Nat) : Memory.wf (localDetect s e line).dram = true := by
  simp [localDetect, recover_wf, itemOutcome_wf, h]

theorem dispatch_wf (e i : Nat) {skip : State → State} (hf : Memory.wf (skip s).dram = true) :
    Memory.wf (dispatch s e i skip).dram = true := by
  unfold dispatch
  dsimp only
  split
  · exact h
  · split
    · exact hf
    · exact machineCheck_wf h e 2

theorem takeItem_wf (e : Nat) (next : Option (Byte × Nat)) (perr : Bool) : Memory.wf (takeItem s e next perr).dram = true := by
  unfold takeItem
  repeat' split
  all_goals simp [dispatch_wf, parityError_wf, h]

/-! ### Boot -/

theorem notice_wf (r : Nat) : Memory.wf (notice s r).dram = true := by
  simp [notice, dramWrite_wf, h]

theorem fillDone_wf (ctxBad noticeFails : List Nat) : Memory.wf (fillDone s ctxBad noticeFails).dram = true := by
  grind [fillDone, bringupAdvance_dram, unrecoveredAny_dram, notice_wf, foldl_wf]

theorem trainStart_wf (c : Nat) : Memory.wf (trainStart s c).dram = true := by
  unfold trainStart
  repeat' split
  all_goals simp [startTrain_wf, h]

theorem loadGen0_wf : Memory.wf (loadGen0 s).dram = true := by
  grind [loadGen0, switchUnit_dram, measItems_dram, dramWrite_wf, measExtend_dram, foldl_wf]

theorem loadDone_wf : Memory.wf (loadDone s).dram = true := by
  grind [loadDone, loadGen0_wf, trainStart_wf, poolReserves_dram, setPhase_dram, matchCe_dram, foldl_wf]

/-! ### Power -/

theorem entryCommit_wf : Memory.wf (entryCommit s).dram = true := by
  grind [entryCommit, pwrCommitPoint_dram, closePage_dram, ageFlush_wf]

theorem retrainAll_wf : Memory.wf (retrainAll s).dram = true := by
  unfold retrainAll
  refine foldl_wf h fun t x w => ?_
  split <;> simp [startTrain_wf, w]

theorem domAck_wf (d : Nat) (ret level : Bool) : Memory.wf (domAck s d ret level).dram = true := by
  grind [domAck, retrainAll_wf, modDom_dram, domAdvance_dram]

theorem imageFallback_wf (copies : List OaCopy) : Memory.wf (imageFallback s copies).dram = true := by
  grind [imageFallback, oaTry_dram, matchCe_dram, loadGen0_wf, pwrFlag_dram, setPhase_dram, oaStop_dram, foldl_wf]

theorem exitEnd_wf (bad : Bool) (copies : List OaCopy) : Memory.wf (exitEnd s bad copies).dram = true := by
  unfold exitEnd
  repeat' split
  all_goals simp [imageFallback_wf, h]

/-! ### Thermal -/

theorem tempTriggers_wf : Memory.wf (tempTriggers s).dram = true := by
  unfold tempTriggers
  refine foldl_wf h fun t x w => ?_
  simp [tempTrigger_wf, w]

theorem thermalWord_wf (g : Nat) (l : List Byte) : Memory.wf (thermalWord s g l).dram = true := by
  grind [thermalWord, storeReading_dram, tempTriggers_wf, pump_wf, foldl_wf]

theorem dieTemperature_wf (g v : Nat) : Memory.wf (dieTemperature s g v).dram = true := by
  grind [dieTemperature, busPut_dram, tempTriggers_wf, pump_wf]

theorem thermalStale_wf (z : Nat) : Memory.wf (thermalStale s z).dram = true := by
  unfold thermalStale; split <;> simp [tempTriggers_wf, pump_wf, h]

theorem governorRefill_wf : Memory.wf (governorRefill s).dram = true := by
  unfold governorRefill; split <;> simp [tempTriggers_wf, pump_wf, h]

/-! ### Warn -/

theorem pfailWarning_wf : Memory.wf (pfailWarning s).dram = true := by
  grind [pfailWarning, patrolStop_dram, pfailAsleep_dram, pfailSteps_dram, modJrn_dram, abortEntry_dram, raise_dram, pump_wf,
    jrnFlag_dram]

theorem pfailHigh_wf : Memory.wf (pfailHigh s).dram = true := by
  unfold pfailHigh; split <;> simp [pump_wf, h]

/-! ### Control -/

theorem cpPut_wf (a : Nat) (be : BitVec 4) (v coin : Nat) {f : State → State}
    (hf : ∀ t, Memory.wf t.dram = true → Memory.wf (f t).dram = true) : Memory.wf (cpPut s a be v coin f).dram = true := by
  unfold cpPut
  split
  · exact h
  · exact h
  · next e => exact hf _ (by rwa [cpGate_takes_dram _ e])
  · next e => simpa [cpGate_waits_dram _ e] using h

theorem cmdWrite_wf (a v coin : Nat) {t : State} (ho : cmdWrite s a v coin = some t) : Memory.wf t.dram = true := by
  grind [cmdWrite, oaWrite_dram, evcWrite_dram, headDoorbell_dram, phyCmd_wf, tailDoorbell_dram, bootLoadArea_dram,
    measExt_dram, jrnDiscard_dram, bootLoadImage_dram, cfgDiscard_dram]

theorem writeReg_wf (a v coin : Nat) : Memory.wf (writeReg s a v coin).dram = true := by
  grind [writeReg, codeWrite_dram, ctxWrite_dram, cmdWrite_wf, cpErr_dram]

theorem registerWrite_wf (a v : Nat) (be : BitVec 4) (coin : Nat) : Memory.wf (registerWrite s a v be coin).dram = true :=
  cpPut_wf h _ _ _ _ fun _ w => writeReg_wf w _ _ _

theorem cpResume_wf : Memory.wf (cpResume s).dram = true := by
  unfold cpResume
  repeat' split
  all_goals simp [pump_wf, writeReg_wf, h]

/-! ### Fetch -/

theorem packetFetch_wf (q : Nat) (mp : PortEnd) (ends : List PortEnd) (ctxDetect : Bool) :
    Memory.wf (packetFetch s q mp ends ctxDetect).dram = true := by
  grind [packetFetch, ctxDetected_dram, ringFault_dram, fetchTurn_dram, portEnd_dram, pump_wf]

theorem rcGo_wf {f : State → Cmd → State} (c : Cmd)
    (hf : ∀ t c, Memory.wf t.dram = true → Memory.wf (f t c).dram = true) : Memory.wf (rcGo f s c).dram = true := by
  unfold rcGo
  split
  · simpa using h
  · exact hf _ _ h

theorem rcStart_wf (cid action : Nat) {f : State → Cmd → State}
    (hf : ∀ t c, Memory.wf t.dram = true → Memory.wf (f t c).dram = true) : Memory.wf (rcStart s cid action f).dram = true := by
  unfold rcStart
  split
  · split
    · exact pump_wf (start_wf h hf)
    · exact h
  · exact h

/-! ### Scrub -/

theorem oztLost_wf (zid line : Nat) : Memory.wf (oztLost s zid line).dram = true := by
  grind [oztLost, setZone_wf, dropRow_dram, jrnZone_dram, dropUses_dram, finish_dram, dropZoneStagings_dram, oztFree_wf,
    foldl_wf]

theorem engineLost_wf (e : Nat) : Memory.wf (engineLost s e).dram = true := by
  unfold engineLost; split <;> simp [recover_wf, itemOutcome_wf, h]

theorem millDetected_wf (line : Nat) : Memory.wf (millDetected s line).1.dram = true := by
  grind [millDetected, unrecovered_dram, recovered_dram, modRing_dram, ringFault_dram, freeVal_dram, modPhy_dram,
    engineLost_wf, oztLost_wf]

theorem storeDetected_wf (inst line : Nat) : Memory.wf (storeDetected s inst line).1.dram = true := by
  grind [storeDetected, unrecovered_dram, recovered_dram, haltEngine_wf, cfgFlag_dram]

theorem dataDetected_wf (inst line : Nat) : Memory.wf (dataDetected s inst line).1.dram = true := by
  grind [dataDetected, unrecovered_dram, localDetect_wf]

theorem lineDetected_wf (code inst line : Nat) : Memory.wf (lineDetected s code inst line).1.dram = true := by
  unfold lineDetected; split <;> simp [millDetected_wf, storeDetected_wf, dataDetected_wf, h]

theorem scrubMemory_wf (sel : Nat) (ds : List (Nat × Nat × Nat)) : Memory.wf (scrubMemory s sel ds).1.dram = true :=
  List.foldlRecOn (motive := fun p : State × List Nat => Memory.wf p.1.dram = true) _ _ h
    fun _ w d _ => lineDetected_wf w d.1 d.2.1 d.2.2

theorem scrubAll_wf (ds : List (Nat × Nat × Nat)) (l : List Nat) : Memory.wf (scrubAll ds l s).1.dram = true := by
  induction l generalizing s with
  | nil => exact h
  | cons sel r ih => exact ih (scrubMemory_wf h sel ds)

theorem scrubInternal_wf (cid : Nat) (ds : List (Nat × Nat × Nat)) : Memory.wf (scrubInternal s cid ds).dram = true := by
  unfold scrubInternal
  refine start_wf h fun t c w => ?_
  simp [scrubAll_wf, w]

/-! ### Transfers -/

theorem bufStored_wf (who : BufFor) (b : Nat) (good : Bool) : Memory.wf (bufStored s who b good).dram = true := by
  unfold bufStored; split <;> simp [foldStored_wf, restageStored_wf, h]

theorem transferEnd_wf (e : Option Ended) : Memory.wf (transferEnd s e).dram = true := by
  unfold transferEnd
  repeat' split
  all_goals simp [bufStored_wf, h]

theorem mpResponse_wf (n tag stat : Nat) (data : List Byte) (crc : Nat) :
    Memory.wf (mpResponse s n tag stat data crc).dram = true := by
  grind [mpResponse, responseBeat_wf, pump_wf, transferEnd_wf]

theorem mpTimeout_wf (n tag : Nat) : Memory.wf (mpTimeout s n tag).dram = true := by
  simp [mpTimeout, pump_wf, transferEnd_wf, h]

theorem bufferFor_wf (who : BufFor) (a : Nat) : Memory.wf (bufferFor s who a).dram = true := by
  unfold bufferFor
  grind [restageReads_wf, modCp_dram, modRow_dram, modStg_dram, copyReads_dram, foldReads_wf]

theorem poolGranted_wf (q a : Nat) (who : BufFor) : Memory.wf (poolGranted s q a who).dram = true := by
  unfold poolGranted
  grind [poolAsk_dram, bufferFor_wf, modPool_dram]

theorem poolRefused_wf (q : Nat) (who : BufFor) : Memory.wf (poolRefused s q who).dram = true := by
  unfold poolRefused
  repeat' split
  all_goals simp [bufferFor_wf, h]

theorem poolAnswer_wf (q : Nat) (refused : Bool) (a : Nat) : Memory.wf (poolAnswer s q refused a).dram = true := by
  unfold poolAnswer
  repeat' split
  all_goals simp [poolGranted_wf, poolRefused_wf, pump_wf, h]

/-! ### GroupRows -/

theorem needsDom_wf (d : Nat) {f : State → State} (hf : ∀ t, Memory.wf t.dram = true → Memory.wf (f t).dram = true) :
    Memory.wf (needsDom s d f).dram = true := by
  unfold needsDom
  split
  · exact hf _ (by simpa using h)
  · simpa using h

end

/-! ### Commands and ticks -/

/-- What a command answers is its one next state. -/
theorem next_wf {s t : State} (h : Memory.wf s.dram = true) (ho : ok s = .next t) : Memory.wf t.dram = true := by
  cases ho
  exact h

/-- Every command keeps the canonical form of SoC memory: most leave memory themselves, and what follows of itself from them
keeps the form; the others are taken one by one. -/
theorem exec_wf (i : Instr) {s t : State} (h : Memory.wf s.dram = true) (ho : exec i s = .next t) :
    Memory.wf t.dram = true := by
  cases i with
  | configStage | configCommit | configAudit | measureReport | doorbellCmdTail | doorbellCplHead | doorbellConsume |
  glbTickLoRead | jrnSeqLoRead | jrnDurableLoRead | glbAgeNowLoRead | rcCounterRead | glbAdvice0Read | engCsDataRead |
  ringContextWrite | evcClaim | evcFclaim | evcComplete | evcFcomplete | evcPset | evcFpset | evcPendClear | evcFpendClear |
  evcSrcWrite | glbCfgCmdDiscard | glbMeasExt | bootCmdLoadOptionArea | bootCmdLoadImage | oaKeyWindowExpiry | porstNFall |
  porstNRise | srstNFall | srstNRise | pfailNFall | pfailNRise | trefLost | trefReturn | trefFreqWindow | paceWindowEnd |
  tgtSleepChange | memHoldRise | memHoldFall | mpBurstIssue | domainHandshakeTimeout | tracePortRead | coalTicksExpiry |
  holdoffExpiry | sourceFilterExpiry | traceTimeout | furlWake | predictionRefresh | poolRetry | trimIdleExpiry |
  ixAliveToggle | drainingSlotFree | powerEntryEnd | bringupPhyUp | dieDiscoveryDone | bringupTrainingDone | engineRelease |
  readyIndication | microwordWaitEnd | extest | idcode | samplePreload | clamp | highz | extestPulse | extestTrain | bypass
  | mpRequestAccept | mpWriteBeatAccept | registerRead =>
    exact next_wf (by simpa using h) ho
  | zoneRead | zoneQuery | reshapeAbort | rebuildStart | rebuildPause | rebuildResume | scrubRange | calibrate | budgetSet |
  traceControl | rawSequence | rawRead | rawProgram | rawErase | wpSet | powerState | echo | jrnCmdDiscard |
  oaUnlockFirstKey | oaUnlockSecondKey | oaRelock | oaUnlockExpiry | pfailStageByExpiry | holdMaxExpiry | commitTicksExpiry
  | stageLeadExpiry | strictDeadlineExpiry | leaseWaitExpiry | programConfirm | reconstructionDone | operationResume |
  rowParityStart | foldStart | stagingStart | stagingReclaim | scrubRangeDone | rawWaitEnd | configCommitComplete |
  furlPatrolHoldExpiry =>
    exact next_wf (pump_wf (by simpa using h)) ho
  | zoneAppend | zoneWrite => exact next_wf (pump_wf (zoneAppend_wf h ..)) ho
  | zoneReset => exact next_wf (pump_wf (zoneReset_wf h ..)) ho
  | zoneOpen => exact next_wf (pump_wf (zoneOpen_wf h ..)) ho
  | zoneClose | zoneFinish | zoneFlush => exact next_wf (pump_wf (zoneQuiesce_wf h ..)) ho
  | layoutDefine => exact next_wf (pump_wf (layoutDefine_wf h ..)) ho
  | reshapeBegin => exact next_wf (pump_wf (reshapeBegin_wf h ..)) ho
  | memberFail => exact next_wf (pump_wf (memberFail_wf h ..)) ho
  | spareAssign => exact next_wf (pump_wf (spareAssign_wf h ..)) ho
  | scrubInternal => exact next_wf (pump_wf (scrubInternal_wf h ..)) ho
  | ageingRead => exact next_wf (ageingRead_wf h ..) ho
  | ringConfigureWrite =>
    exact next_wf (rcStart_wf h _ _ fun _ _ w => imageEnd_wf w fun _ w => rcGo_wf w _ fun _ _ w => by rwa [rcWrite_dram]) ho
  | ringConfigureEnable => exact next_wf (rcStart_wf h _ _ fun _ _ w => rcGo_wf w _ fun _ _ w => by rwa [rcEnable_dram]) ho
  | ringConfigureDisable => exact next_wf (rcStart_wf h _ _ fun _ _ w => by rwa [rcDisable_dram]) ho
  | ringConfigureUpdate =>
    exact next_wf (rcStart_wf h _ _ fun _ _ w => imageEnd_wf w
      fun _ w => rcGo_wf w _ fun _ _ w => by rwa [rcUpdate_dram]) ho
  | packetFetch => exact next_wf (packetFetch_wf h ..) ho
  | registerWrite => exact next_wf (pump_wf (registerWrite_wf h ..)) ho
  | phyCmdQuickRetrain | phyCmdFullTraining | phyCmdRaiseAttempt =>
    exact next_wf (pump_wf (cpPut_wf h _ _ _ _ fun _ w => phyCmd_wf w ..)) ho
  | powerFailWarning => exact next_wf (pfailWarning_wf h) ho
  | pfailHighFilterExpiry => exact next_wf (pfailHigh_wf h) ho
  | pllUnlock => exact next_wf (pump_wf (pllUnlock_wf h ..)) ho
  | pllLock => exact next_wf (pump_wf (pllLock_wf h ..)) ho
  | thermalWord => exact next_wf (thermalWord_wf h ..) ho
  | bufferPoolResponse => exact next_wf (poolAnswer_wf h ..) ho
  | mpResponseBeat => exact next_wf (mpResponse_wf h ..) ho
  | mpBurstTimeout => exact next_wf (mpTimeout_wf h ..) ho
  | domainHandshakeAck => exact next_wf (pump_wf (cpResume_wf (domAck_wf h ..))) ho
  | governorRefill => exact next_wf (governorRefill_wf h) ho
  | statusPoll => exact next_wf (pump_wf (statusPoll_wf h ..)) ho
  | lunTimeout => exact next_wf (pump_wf (lunTimeout_wf h ..)) ho
  | linkCheck => exact next_wf (pump_wf (linkCheck_wf h ..)) ho
  | quickRetrainPeriod => exact next_wf (pump_wf (ite_wf (quickTrigger_wf h ..) h)) ho
  | raiseAttempt => exact next_wf (pump_wf (ite_wf (raiseStart_wf h ..) h)) ho
  | dieTemperatureRead => exact next_wf (dieTemperature_wf h ..) ho
  | thermalStale => exact next_wf (thermalStale_wf h ..) ho
  | patrolVisit => exact next_wf (ite_wf (needsDom_wf h _ fun _ w => pump_wf (by rwa [patrolVisit_dram])) h) ho
  | ageingWriteBack => exact next_wf (needsDom_wf h _ fun _ w => arFlush_wf w ..) ho
  | safePointOverrun => exact next_wf (ite_wf (machineCheck_wf h ..) h) ho
  | busPhaseIssue => exact next_wf (pump_wf (busPhase_wf h ..)) ho
  | codewordReceived => exact next_wf (pump_wf (codewordReceived_wf h ..)) ho
  | decodeStart => exact next_wf (pump_wf (decodeStart_wf h ..)) ho
  | decodeDone => exact next_wf (pump_wf (decodeDone_wf h ..)) ho
  | rowParityDone => exact next_wf (pump_wf (rowParityDone_wf h ..)) ho
  | journalPageWrite => exact next_wf (ite_wf (pump_wf (by rwa [pageStart_dram])) h) ho
  | windowTurn => exact next_wf (ite_wf (pump_wf (by rwa [windowTurn_dram])) h) ho
  | journalScanDone => exact next_wf (ite_wf (pump_wf (layoutsAfterScan_wf (by rwa [scanDone_dram]))) h) ho
  | failureGroupRestart => exact next_wf (ite_wf (pump_wf (groupRestart_wf h ..)) h) ho
  | rebuildUnitEnd => exact next_wf (pump_wf (unitEnd_wf h ..)) ho
  | reshapeZoneCross => exact next_wf (pump_wf (reshapeCross_wf h ..)) ho
  | calibrationSweepDone => exact next_wf (pump_wf (sweepDone_wf h ..)) ho
  | fullTrainingDone => exact next_wf (pump_wf (ite_wf (phyAsked_wf (fullDone_wf h ..) ..) h)) ho
  | quickRetrainDone => exact next_wf (pump_wf (ite_wf (phyAsked_wf (quickDone_wf h ..) ..) h)) ho
  | powerEntryCommit => exact next_wf (pump_wf (entryCommit_wf h)) ho
  | powerExitEnd => exact next_wf (exitEnd_wf h ..) ho
  | memoryFillDone => exact next_wf (fillDone_wf h ..) ho
  | optionAreaLoadDone => exact next_wf (loadDone_wf h) ho
  | trap => exact next_wf (micro_wf h _ _ fun _ w => machineCheck_wf w ..) ho
  | aluAdd | aluSub | aluAnd | aluOr | aluXor | aluGfmul | aluCmp | aluMov => exact next_wf (alu_wf h ..) ho
  | aluShl | aluShr => exact next_wf (shift_wf h ..) ho
  | ldi | memStore | wait => exact next_wf (micro_wf h _ _ fun _ w => by rwa [modEng_dram]) ho
  | memLoad => exact next_wf (micro_wf h _ _ fun _ w => ite_wf (localDetect_wf w ..) (by rwa [modEng_dram])) ho
  | br | ret => exact next_wf (micro_wf h _ _ fun _ w => by split <;> simp [machineCheck_wf, w]) ho
  | call => exact next_wf (micro_wf h _ _ fun _ w => ite_wf (machineCheck_wf w ..) (by rwa [modEng_dram])) ho
  | port e =>
    refine next_wf (micro_wf h _ _ fun u w => ?_) ho
    dsimp only
    split
    · exact machineCheck_wf w ..
    · split
      · split
        · next hp => rwa [modEng_dram, hookPort_dram u hp]
        · exact machineCheck_wf w ..
      · rwa [modEng_dram]
  | disp => exact next_wf (micro_wf h _ _ fun _ w => ite_wf (parityError_wf w ..) (dispatch_wf w _ _ (by rwa [modEng_dram]))) ho
  | done => exact next_wf (micro_wf h _ _ fun _ w => takeItem_wf w ..) ho

/-- Settles O59: a command keeps the canonical form of SoC memory (`exec_wf`), and a tick of TREF leaves memory. -/
theorem memoryStaysCanonical : Obligations.MemoryStaysCanonical := by
  unfold Obligations.MemoryStaysCanonical
  intro s t h ho
  unfold step at ho
  split at ho
  · cases ho
    rwa [tickOnce_dram]
  · next rest _ => exact exec_wf (s := { s with pending := rest }) _ h ho

end Sys2Proof.Machine
end

