-- ==== Sys2Proof/Proofs/HeldAccess.lean ====
section
/-! An acknowledge of a domain leaves the access that the control port holds (`domAck_cpWait`), whatever trainings it starts
(R25, R207): none of the operations that it reaches touches `cpWait`. -/

namespace Sys2Proof.Machine

/-! ### Folds and branches -/

@[simp] theorem cpWait_ite (c : Prop) [Decidable c] (s t : State) :
    (if c then s else t).cpWait = if c then s.cpWait else t.cpWait := apply_ite State.cpWait c s t

/-- A fold of an operation that leaves the held access leaves it. -/
@[simp] theorem foldl_cpWait {α : Type} (f : State → α → State) (l : List α) (s : State)
    (hf : ∀ t x, (f t x).cpWait = t.cpWait) : (l.foldl f s).cpWait = s.cpWait := by
  induction l generalizing s with
  | nil => rfl
  | cons x r ih => rw [List.foldl_cons, ih, hf]

/-- An answer, or its substitute where there is none. -/
theorem getD_cpWait {o : Option State} {d : State} {w : Option CpAcc} (ho : ∀ t, o = some t → t.cpWait = w)
    (hd : d.cpWait = w) : (o.getD d).cpWait = w := by
  cases o with
  | none => exact hd
  | some t => exact ho t rfl

section
variable (s : State)

/-! ### Ops -/

@[simp] theorem fresh_cpWait : (fresh s).2.cpWait = s.cpWait := by simp [fresh]

@[simp] theorem freeVal_cpWait : (freeVal s).2.cpWait = s.cpWait := by simp [freeVal]

@[simp] theorem modLun_cpWait (g : Nat) (f : Lun → Lun) : (modLun s g f).cpWait = s.cpWait := by
  unfold modLun; split <;> simp

/-! ### Ports -/

@[simp] theorem startXfer_cpWait (a : XferSpec) (spans : List (Nat × Nat × Nat × List Byte)) :
    (startXfer s a spans).cpWait = s.cpWait := by simp [startXfer]

/-! ### Zones -/

@[simp] theorem storeLost_cpWait (fg gone : Nat) : (storeLost s fg gone).cpWait = s.cpWait := by
  unfold storeLost
  exact foldl_cpWait _ _ _ fun _ _ => rfl

@[simp] theorem markSeg_cpWait (kind idx : Nat) : (markSeg s kind idx).cpWait = s.cpWait := by simp [markSeg]

@[simp] theorem setZone_cpWait (e : ZoneEntry) : (setZone s e).cpWait = s.cpWait := by
  grind [setZone, markSeg_cpWait, dramWrite_cpWait]

@[simp] theorem jrnMark_cpWait : (jrnMark s).cpWait = s.cpWait := by simp [jrnMark]

@[simp] theorem closePage_cpWait : (closePage s).cpWait = s.cpWait := by simp [closePage]

theorem placeEntry_cpWait (e : Entry) {t : State} (ho : placeEntry s e = some t) : t.cpWait = s.cpWait := by
  grind [placeEntry, closePage_cpWait]

@[simp] theorem drainBacklog_cpWait (n : Nat) : (drainBacklog n s).cpWait = s.cpWait := by
  induction n generalizing s with
  | zero => rfl
  | succ n ih =>
    unfold drainBacklog
    split
    · rfl
    · split
      · next hp => rw [ih, ← placeEntry_cpWait s _ hp]
      · rfl

@[simp] theorem jrnAppend_cpWait (e : Entry) : (jrnAppend s e).cpWait = s.cpWait := by simp [jrnAppend]

@[simp] theorem jrnZone_cpWait (zid : Nat) : (jrnZone s zid).cpWait = s.cpWait := by simp [jrnZone]

@[simp] theorem jrnTable_cpWait (fg zid arg0 arg1 : Nat) : (jrnTable s fg zid arg0 arg1).cpWait = s.cpWait := by simp [jrnTable]

/-! ### Rings -/

@[simp] theorem setCtrl_cpWait (r b v : Nat) : (setCtrl s r b v).cpWait = s.cpWait := by simp [setCtrl]

@[simp] theorem takeSlot_cpWait (r : Nat) : (takeSlot s r).cpWait = s.cpWait := by simp [takeSlot]

@[simp] theorem dropCmd_cpWait (c : Cmd) : (dropCmd s c).cpWait = s.cpWait := by simp [dropCmd]

@[simp] theorem tryComplete_cpWait (cid : Nat) : (tryComplete s cid).cpWait = s.cpWait := by
  unfold tryComplete; split <;> simp

@[simp] theorem finish_cpWait (cid : Nat) (r : Result) : (finish s cid r).cpWait = s.cpWait := by simp [finish]

/-! ### Flash -/

@[simp] theorem queueOp_cpWait (o : Op) : (queueOp s o).cpWait = s.cpWait := by simp [queueOp]

@[simp] theorem queueProg_cpWait (o : Op) : (queueProg s o).cpWait = s.cpWait := by simp [queueProg]

@[simp] theorem queueRead_cpWait (i : Item) (lv : List Int) : (queueRead s i lv).cpWait = s.cpWait := by simp [queueRead]

@[simp] theorem queueStep_cpWait (i : Item) : (queueStep s i).cpWait = s.cpWait := by simp [queueStep]

@[simp] theorem busPut_cpWait (g : Nat) (l : List Byte) : (busPut s g l).cpWait = s.cpWait := by simp [busPut]

@[simp] theorem modPhy_cpWait (c : Nat) (f : PhySt → PhySt) : (modPhy s c f).cpWait = s.cpWait := by simp [modPhy]

@[simp] theorem releaseOp_cpWait (o : Op) : (releaseOp s o).cpWait = s.cpWait := by simp [releaseOp]

@[simp] theorem dropOp_cpWait (o : Op) : (dropOp s o).cpWait = s.cpWait := by simp [dropOp]

@[simp] theorem resetLun_cpWait (g : Nat) : (resetLun s g).cpWait = s.cpWait := by simp [resetLun]

@[simp] theorem abandon_cpWait (o : Op) : (abandon s o).cpWait = s.cpWait := by simp [abandon]

/-! ### Ageing -/

@[simp] theorem arFetch_cpWait (bg : Nat) : (arFetch s bg).cpWait = s.cpWait := by simp [arFetch]

@[simp] theorem predPut_cpWait (g b : Nat) (p : Pred) : (predPut s g b p).cpWait = s.cpWait := by simp [predPut]

theorem predHit_cpWait (gen g b : Nat) (wseq : Option Nat) {t : State × List Int} (ho : predHit s gen g b wseq = some t) :
    t.1.cpWait = s.cpWait := by
  unfold predHit at ho
  dsimp only at ho
  split at ho <;> split at ho <;> cases ho <;> simp

@[simp] theorem arMod_cpWait (bg : Nat) (f : List Byte → List Byte) : (arMod s bg f).cpWait = s.cpWait := by simp [arMod]

@[simp] theorem subSet_cpWait (g b i : Nat) : (subSet s g b i).cpWait = s.cpWait := by simp [subSet]

@[simp] theorem advise_cpWait (zid g b cause : Nat) : (advise s zid g b cause).cpWait = s.cpWait := by simp [advise]

@[simp] theorem addLoad_cpWait (g b pts : Nat) (zid : Option Nat) : (addLoad s g b pts zid).cpWait = s.cpWait := by
  unfold addLoad
  repeat' split
  all_goals simp

@[simp] theorem estimate_cpWait (g b wseq : Nat) : (estimate s g b wseq).cpWait = s.cpWait := by simp [estimate]

/-! ### Jobs -/

@[simp] theorem ageWant_cpWait (i : Item) : (ageWant s i).cpWait = s.cpWait := by simp [ageWant]

@[simp] theorem addNew_cpWait (i : Item) : (addNew s i).cpWait = s.cpWait := by
  unfold addNew
  dsimp only
  split
  · split
    · next hp => simpa using predHit_cpWait _ _ _ _ _ hp
    · simp
  · simp

@[simp] theorem addItem_cpWait (i : Item) : (addItem s i).cpWait = s.cpWait := by
  unfold addItem; split <;> simp

@[simp] theorem addRowItem_cpWait (w : Work) (lt : Layout) (zid r j cwx g b : Nat) (u : Use) :
    (addRowItem s w lt zid r j cwx g b u).cpWait = s.cpWait := by simp [addRowItem]

theorem takeSlot?_cpWait {q p : Nat} {t : Nat × State} (ho : takeSlot? s q p = some t) : t.2.cpWait = s.cpWait := by
  unfold takeSlot? at ho
  split at ho
  · obtain ⟨i, -, rfl⟩ := Option.map_eq_some_iff.1 ho
    rfl
  · cases ho

@[simp] theorem dropSlot_cpWait (q i : Nat) : (dropSlot s q i).cpWait = s.cpWait := by simp [dropSlot]

theorem takeRegion_cpWait {q : Nat} {t : State} (ho : takeRegion s q = some t) : t.cpWait = s.cpWait := by
  unfold takeRegion at ho
  split at ho
  · cases ho
    rfl
  · obtain ⟨p, hp, rfl⟩ := Option.map_eq_some_iff.1 ho
    exact takeSlot?_cpWait s hp

@[simp] theorem trimRegions_cpWait (q : Nat) : (trimRegions s q).cpWait = s.cpWait := by
  unfold trimRegions
  repeat' split
  all_goals simp

@[simp] theorem modRecon_cpWait (id : Nat) (f : Recon → Recon) : (modRecon s id f).cpWait = s.cpWait := by simp [modRecon]

theorem askMore_cpWait {id : Nat} {t : State} (ho : askMore s id = some t) : t.cpWait = s.cpWait := by
  unfold askMore at ho
  split at ho
  · cases ho
    rfl
  · split at ho
    · cases ho
    · dsimp only at ho
      split at ho
      · cases ho
      · cases ho
        exact foldl_cpWait _ _ _ fun t j => by split <;> simp

theorem startRecon_cpWait {r : Recon} {t : State} (ho : startRecon s r = some t) : t.cpWait = s.cpWait := by
  unfold startRecon at ho
  split at ho
  · cases ho
  · split at ho
    · dsimp only at ho
      split at ho
      · simpa using askMore_cpWait _ ho
      · split at ho
        · next hr => simpa [takeRegion_cpWait _ hr] using askMore_cpWait _ ho
        · cases ho
          rfl
    · cases ho

@[simp] theorem dropSpent_cpWait : (dropSpent s).cpWait = s.cpWait := by simp [dropSpent]

@[simp] theorem dropUses_cpWait (mine : Use → Bool) : (dropUses s mine).cpWait = s.cpWait := by simp [dropUses]

@[simp] theorem dropSurvivors_cpWait (id : Nat) : (dropSurvivors s id).cpWait = s.cpWait := by simp [dropSurvivors]

@[simp] theorem endRecon_cpWait (id : Nat) : (endRecon s id).cpWait = s.cpWait := by
  unfold endRecon; split <;> simp

/-! ### Members -/

@[simp] theorem setOverlay_cpWait (zid v : Nat) : (setOverlay s zid v).cpWait = s.cpWait := by simp [setOverlay]

@[simp] theorem addLost_cpWait (fg zid first count cause lost : Nat) :
    (addLost s fg zid first count cause lost).cpWait = s.cpWait := by simp [addLost]

@[simp] theorem loseRow_cpWait (zid r cause lost : Nat) : (loseRow s zid r cause lost).cpWait = s.cpWait := by
  unfold loseRow; split <;> simp

/-! ### Rows -/

@[simp] theorem rowBlock_cpWait (rid b : Nat) (body : Option (List Byte)) :
    (rowBlock s rid b body).cpWait = s.cpWait := by simp [rowBlock]

@[simp] theorem loseBlock_cpWait (zid row b : Nat) : (loseBlock s zid row b).cpWait = s.cpWait := by simp [loseBlock]

theorem readCopy_cpWait (w : Work) (zid row b from_ : Nat) (use : Nat → Use) {t : State}
    (ho : readCopy s w zid row b from_ use = some t) :
    t.cpWait = s.cpWait := by
  grind [readCopy, addItem_cpWait]

@[simp] theorem foldRead_cpWait (rid b from_ : Nat) : (foldRead s rid b from_).cpWait = s.cpWait := by
  grind [foldRead, modRow_cpWait, rowBlock_cpWait, readCopy_cpWait, loseBlock_cpWait]

@[simp] theorem stageGot_cpWait (sid b : Nat) (poison : Bool) :
    (stageGot s sid b poison).cpWait = s.cpWait := by simp [stageGot]

@[simp] theorem restageRead_cpWait (sid b from_ : Nat) : (restageRead s sid b from_).cpWait = s.cpWait := by
  grind [restageRead, readCopy_cpWait, loseBlock_cpWait, stageGot_cpWait]

/-! ### Domains -/

@[simp] theorem setDom_cpWait (d st : Nat) : (setDom s d st).cpWait = s.cpWait := by simp [setDom]

@[simp] theorem modDom_cpWait (d : Nat) (f : DomSt → DomSt) : (modDom s d f).cpWait = s.cpWait := by simp [modDom]

@[simp] theorem domAdvance_cpWait (d : Nat) : (domAdvance s d).cpWait = s.cpWait := by
  grind [domAdvance, setDom_cpWait, modDom_cpWait]

/-! ### Reads -/

@[simp] theorem modRd_cpWait (cid off : Nat) (f : RdBlk → RdBlk) : (modRd s cid off f).cpWait = s.cpWait := by simp [modRd]

@[simp] theorem readSettle_cpWait (cid : Nat) : (readSettle s cid).cpWait = s.cpWait := by
  unfold readSettle; split <;> simp

@[simp] theorem blkFail_cpWait (cid off : Nat) (r : Result) : (blkFail s cid off r).cpWait = s.cpWait := by simp [blkFail]

@[simp] theorem blkLost_cpWait (cid off : Nat) (fails : List Result) : (blkLost s cid off fails).cpWait = s.cpWait := by
  unfold blkLost; split <;> simp

theorem blkRecon_cpWait (cid off : Nat) {t : State} (ho : blkRecon s cid off = some t) : t.cpWait = s.cpWait := by
  grind [blkRecon, startRecon_cpWait]

@[simp] theorem blkReconOrFail_cpWait (cid off : Nat) : (blkReconOrFail s cid off).cpWait = s.cpWait :=
  getD_cpWait (fun _ ho => blkRecon_cpWait s _ _ ho) (blkLost_cpWait s _ _ _)

@[simp] theorem noteFail_cpWait (cid off : Nat) (r : Result) : (noteFail s cid off r).cpWait = s.cpWait := by simp [noteFail]

@[simp] theorem stagedRead_cpWait (cid off copy : Nat) : (stagedRead s cid off copy).cpWait = s.cpWait := by
  grind [stagedRead, readCopy_cpWait, blkLost_cpWait]

/-! ### Rebuild -/

@[simp] theorem modUnit_cpWait (fg zid : Nat) (f : RebUnit → RebUnit) :
    (modUnit s fg zid f).cpWait = s.cpWait := by simp [modUnit]

@[simp] theorem rebProgram_cpWait (fg zid r j : Nat) : (rebProgram s fg zid r j).cpWait = s.cpWait := by
  unfold rebProgram; split <;> simp

@[simp] theorem dropRebRecons_cpWait (fg zid : Nat) : (dropRebRecons s fg zid).cpWait = s.cpWait := by simp [dropRebRecons]

@[simp] theorem unitRowLost_cpWait (fg zid r lost : Nat) : (unitRowLost s fg zid r lost).cpWait = s.cpWait := by
  grind [unitRowLost, rebProgram_cpWait, dropRebRecons_cpWait, modUnit_cpWait, loseRow_cpWait, foldl_cpWait]

/-! ### Reshape -/

@[simp] theorem modCp_cpWait (fg : Nat) (f : CopyRow → CopyRow) : (modCp s fg f).cpWait = s.cpWait := by simp [modCp]

@[simp] theorem copyLost_cpWait (fg blk : Nat) : (copyLost s fg blk).cpWait = s.cpWait := by simp [copyLost]

@[simp] theorem copyRead_cpWait (fg zid rb blk from_ : Nat) : (copyRead s fg zid rb blk from_).cpWait = s.cpWait := by
  unfold copyRead
  split
  · dsimp only
    split
    · simp
    · split
      · exact getD_cpWait (fun _ ho => readCopy_cpWait s _ _ _ _ _ _ ho) (copyLost_cpWait ..)
      · split
        · exact getD_cpWait (fun _ ho => startRecon_cpWait s ho) (copyLost_cpWait ..)
        · simp
  · rfl

/-! ### Maint -/

@[simp] theorem modSweep_cpWait (id : Nat) (f : Sweep → Sweep) : (modSweep s id f).cpWait = s.cpWait := by simp [modSweep]

@[simp] theorem sweepGot_cpWait (id weight : Nat) : (sweepGot s id weight).cpWait = s.cpWait := by simp [sweepGot]

@[simp] theorem modScrub_cpWait (cid : Nat) (f : Scrub → Scrub) : (modScrub s cid f).cpWait = s.cpWait := by simp [modScrub]

@[simp] theorem scrubTake_cpWait (cid j cwx : Nat) (body : Option (List Byte)) :
    (scrubTake s cid j cwx body).cpWait = s.cpWait := by simp [scrubTake]

@[simp] theorem scrubFind_cpWait (cid : Nat) (i : Item) (kind detail : Nat) :
    (scrubFind s cid i kind detail).cpWait = s.cpWait := by simp [scrubFind]

@[simp] theorem scrubFailed_cpWait (cid : Nat) (i : Item) (kind detail : Nat) :
    (scrubFailed s cid i kind detail).cpWait = s.cpWait := by
  have ha : (if kind = 2 then advise (modScrub (scrubFind s cid i kind detail) cid (fun x => { x with failed := x.failed + 1 }))
      (itemPlace i).1 i.glun i.block 2 else
      modScrub (scrubFind s cid i kind detail) cid (fun x => { x with failed := x.failed + 1 })).cpWait = s.cpWait := by simp
  exact getD_cpWait (fun _ ho => (startRecon_cpWait _ ho).trans ha) ((scrubTake_cpWait ..).trans ha)

/-! ### Raw -/

@[simp] theorem rawReadSettle_cpWait (cid : Nat) : (rawReadSettle s cid).cpWait = s.cpWait := by
  unfold rawReadSettle
  repeat' split
  all_goals simp

@[simp] theorem rawReadFail_cpWait (cid idx st site want : Nat) : (rawReadFail s cid idx st site want).cpWait = s.cpWait := by
  unfold rawReadFail; split <;> simp

/-! ### Codewords -/

@[simp] theorem dropItem_cpWait (id : Nat) : (dropItem s id).cpWait = s.cpWait := by simp [dropItem]

@[simp] theorem useSteps_cpWait (uses : List Use) (step : Nat) : (useSteps s uses step).cpWait = s.cpWait := by
  unfold useSteps
  refine foldl_cpWait _ _ _ fun t x => ?_
  split <;> simp

@[simp] theorem ladderEnd_cpWait (i : Item) (iters : Nat) (failed : Bool) : (ladderEnd s i iters failed).cpWait = s.cpWait := by
  grind [ladderEnd, useSteps_cpWait, addLoad_cpWait, bump_cpWait, estimate_cpWait]

@[simp] theorem resumeLadder_cpWait (r : Recon) (cid off step : Nat) : (resumeLadder s r cid off step).cpWait = s.cpWait := by
  unfold resumeLadder; split <;> simp

@[simp] theorem reconFails_cpWait (r : Recon) : (reconFails s r).cpWait = s.cpWait := by
  unfold reconFails; split <;> simp

@[simp] theorem survivorOut_cpWait (rid m : Nat) (why : Option Result) : (survivorOut s rid m why).cpWait = s.cpWait := by
  grind [survivorOut, askMore_cpWait, modRecon_cpWait, reconFails_cpWait]

theorem copyRecon_cpWait (i : Item) (fg zid row blk : Nat) {t : State} (ho : copyRecon s i fg zid row blk = some t) :
    t.cpWait = s.cpWait := by
  grind [copyRecon, startRecon_cpWait]

@[simp] theorem copyFail_cpWait (i : Item) (fg zid row blk : Nat) : (copyFail s i fg zid row blk).cpWait = s.cpWait := by
  unfold copyFail
  split
  · rfl
  · split
    · exact getD_cpWait (fun _ ho => copyRecon_cpWait s _ _ _ _ _ ho) (copyLost_cpWait ..)
    · simp

@[simp] theorem useFail_cpWait (i : Item) (u : Use) (st site want : Nat) : (useFail s i u st site want).cpWait = s.cpWait := by
  unfold useFail
  grind [sweepGot_cpWait, blkReconOrFail_cpWait, survivorOut_cpWait, advise_cpWait, scrubFind_cpWait, copyFail_cpWait,
    scrubTake_cpWait, freeVal_cpWait, noteFail_cpWait, foldRead_cpWait, restageRead_cpWait, stagedRead_cpWait, blkFail_cpWait,
    scrubFailed_cpWait, rawReadFail_cpWait]

@[simp] theorem leave_cpWait (i : Item) (st site want : Nat) (u : Use) : (leave s i st site want u).cpWait = s.cpWait := by
  unfold leave; split <;> simp

@[simp] theorem retrainItem_cpWait (i : Item) : (retrainItem s i).cpWait = s.cpWait := by simp [retrainItem]

@[simp] theorem retrainReads_cpWait (c : Nat) : (retrainReads s c).cpWait = s.cpWait := by simp [retrainReads]

/-! ### Poll -/

@[simp] theorem resumeByte_cpWait (o : Op) : (resumeByte s o).cpWait = s.cpWait := by simp [resumeByte]

/-! ### Rungs -/

@[simp] theorem setChanState_cpWait (c v : Nat) : (setChanState s c v).cpWait = s.cpWait := by simp [setChanState]

@[simp] theorem termLun_cpWait (c g : Nat) : (termLun s c g).cpWait = s.cpWait := by
  grind [termLun, modLun_cpWait, busPut_cpWait]

@[simp] theorem switchRung_cpWait (c rung : Nat) : (switchRung s c rung).cpWait = s.cpWait := by simp [switchRung]

/-! ### Phy -/

@[simp] theorem enterRetrain_cpWait (c : Nat) : (enterRetrain s c).cpWait = s.cpWait := by simp [enterRetrain]

@[simp] theorem retrainResume_cpWait (o : Op) : (retrainResume s o).cpWait = s.cpWait := by simp [retrainResume]

@[simp] theorem settleBus_cpWait (c : Nat) : (settleBus s c).cpWait = s.cpWait := by simp [settleBus]

@[simp] theorem startTrain_cpWait (c : Nat) (t : Train) (rung : Nat) :
    (startTrain s c t rung).cpWait = s.cpWait := by simp [startTrain]

/-! ### Power -/

@[simp] theorem retrainAll_cpWait : (retrainAll s).cpWait = s.cpWait := by simp [retrainAll]

@[simp] theorem domAck_cpWait (d : Nat) (ret level : Bool) : (domAck s d ret level).cpWait = s.cpWait := by simp [domAck]

end

end Sys2Proof.Machine
end

