-- ==== Sys2Proof/Proofs/ControlPort.lean ====
section
/-! The control port: which accesses it takes, refuses and holds (R25, R546), what an access code does with one (R11 to R13), and
the reads that act of themselves (R27, R305, R399, R415, R506). -/

namespace Sys2Proof.Machine

/-! ### Accesses that the port takes, refuses or holds -/

section
variable {s : State} {a d : Nat} {be : BitVec 4}

/-- An aligned offset below the OZT window is the address that the port sees. -/
theorem portAddr_eq (h4 : a % 4 = 0) (ha : a < 0x200000) : a % 2 ^ 23 / 4 * 4 = a := by omega

theorem registerWrite_takes (h4 : a % 4 = 0) (ha : a < 0x200000) (h : PortTakes s a) (v coin : Nat) :
    registerWrite s a v 15 coin = writeReg { s with cpResp := 0 } a v coin := by
  unfold registerWrite
  rw [portAddr_eq h4 ha, cpPut_ok s a v coin h]

theorem registerRead_takes (h4 : a % 4 = 0) (ha : a < 0x200000) (h : PortTakes s a) :
    registerRead s a 15 =
      { (readReg { s with cpResp := 0 } a 0).1 with cpRdata := w32 (readReg { s with cpResp := 0 } a 0).2 } := by
  unfold registerRead
  rw [portAddr_eq h4 ha, cpGet_ok s a 0 h]

/-- A dead port refuses, and so does one that is given some byte lanes only. -/
theorem cpGate_dead (h : cpDead s = true ∨ be ≠ 15) (ds : List Nat) : cpGate s ds be = .refuse := by
  unfold cpGate
  rw [if_pos (by simpa using h)]

/-- A port in DROWSE or FURL refuses an access to a domain that is not on. -/
theorem cpGate_asleep (h : PortFree s) (hd : domOn s d = false) (hp : 1 < pwrState s) : cpGate s [d] 15 = .refuse := by
  obtain ⟨hdead, hwait⟩ := h
  unfold cpGate
  rw [if_neg (by simp [hdead]), if_neg (by simp [hwait]), if_pos ⟨hp, by simp [hd]⟩]

/-- A port in RUN or TRIM raises a domain that is not on. -/
theorem cpGate_raises (h : PortFree s) (hd : domOn s d = false) (hc : absentChan s d = false) (hp : pwrState s ≤ 1) :
    cpGate s [d] 15 = .waits (domUse s d) := by
  obtain ⟨hdead, hwait⟩ := h
  unfold cpGate
  rw [if_neg (by simp [hdead]), if_neg (by simp [hwait]), if_neg (by omega)]
  simp [gatedDoms, hd, hc]

/-- A refused write answers an error. -/
theorem registerWrite_refused (h : cpGate s (regDoms (a % 2 ^ 23 / 4 * 4)) be = .refuse) (v : Word) :
    exec (.registerWrite a v be 0) s = .next (pump { s with cpResp := 1 }) := by
  show ok (pump (registerWrite s a v.toNat be 0)) = _
  unfold registerWrite cpPut
  dsimp only
  rw [h]
  rfl

/-- A refused read answers an error, and CP_RDATA is a free value. -/
theorem registerRead_refused (h : cpGate s (regDoms (a % 2 ^ 23 / 4 * 4)) be = .refuse) :
    ∃ t, exec (.registerRead a be) s = .next t ∧ t = { s with cpResp := 1, cpRdata := t.cpRdata, free := t.free } := by
  refine ⟨cpErrRead s, ?_, rfl⟩
  show ok (registerRead s a be) = _
  unfold registerRead cpGet
  dsimp only
  rw [h]
  rfl

/-- A write to a gated domain is held while the domain is raised. -/
theorem registerWrite_held {t : State} (h4 : a % 4 = 0) (ha : a < 0x200000) (h : cpGate s (regDoms a) 15 = .waits t)
    (v : Word) :
    exec (.registerWrite a v 15 0) s =
      .next (pump { t with cpWait := some { write := true, addr := a, value := v.toNat, coin := 0 } }) := by
  show ok (pump (registerWrite s a v.toNat 15 0)) = _
  unfold registerWrite cpPut
  dsimp only
  rw [portAddr_eq h4 ha, h]
  rfl

/-- A read of a gated domain is held while the domain is raised. -/
theorem registerRead_held {t : State} (h4 : a % 4 = 0) (ha : a < 0x200000) (h : cpGate s (regDoms a) 15 = .waits t) :
    exec (.registerRead a 15) s = .next { t with cpWait := some { write := false, addr := a, coin := 0 } } := by
  show ok (registerRead s a 15) = _
  unfold registerRead cpGet
  dsimp only
  rw [portAddr_eq h4 ha, h]
  rfl

/-! ### Domains that an access raises -/

@[simp] theorem dom_modDom_same (s : State) (d : Nat) (f : DomSt → DomSt) : dom (modDom s d f) d = f (dom s d) :=
  tget_tmod_same s.doms d {} f

@[simp] theorem modDom_tick (s : State) (d : Nat) (f : DomSt → DomSt) : (modDom s d f).tick = s.tick := rfl

@[simp] theorem dom_setDom (s : State) (e st : Nat) : dom (setDom s e st) d = dom s d := by
  unfold setDom
  split <;> rfl

/-- The next line movement of a domain that is wanted on keeps the goal, and when it was last used. -/
theorem domAdvance_used (hg : (dom s d).goal = 0) (hi : (dom s d).idleAt = s.tick) :
    (dom (domAdvance s d) d).goal = 0 ∧ (dom (domAdvance s d) d).idleAt = s.tick := by
  unfold domAdvance
  dsimp only
  rw [hg]
  split
  · exact ⟨hg, hi⟩
  · split
    · split
      · simp [hg, hi]
      · split <;> simp [hg, hi]
    · next e => cases e
    · next e _ => exact absurd rfl e

/-- A use of a domain that is off is counted, and the domain is wanted on. -/
theorem domUse_off (hd : domOn s d = false) (h94 : d < 94) :
    (dom (domUse s d) d).goal = 0 ∧ (dom (domUse s d) d).idleAt = s.tick := by
  have hoff : domOn (modDom s d fun m => { m with idleAt := s.tick }) d = false := hd
  unfold domUse raiseDom
  split
  · next hr =>
    obtain ⟨hgoal, -⟩ : (dom s d).goal = 0 ∧ (dom s d).since.isSome = true := by
      simpa [hoff, Nat.not_le.2 h94] using hr
    simp [hgoal]
  · exact domAdvance_used (by simp) (by simp)

/-! ### An access that waited -/

theorem cpResume_waits {h : CpAcc} (hw : s.cpWait = some h) (ha : regDoms h.addr = [d]) (hd : domOn s d = false)
    (hc : absentChan s d = false) : cpResume s = s := by
  unfold cpResume
  rw [hw]
  simp [ha, gatedDoms, hd, hc]

theorem cpResume_write {v coin : Nat} (hw : s.cpWait = some { write := true, addr := a, value := v, coin := coin })
    (ha : regDoms a = [d]) (hd : domOn s d = true) :
    cpResume s = pump (writeReg { s with cpWait := none, cpResp := 0 } a v coin) := by
  unfold cpResume
  rw [hw]
  simp [ha, gatedDoms, hd]

theorem cpResume_read {v coin : Nat} (hw : s.cpWait = some { write := false, addr := a, value := v, coin := coin })
    (ha : regDoms a = [d]) (hd : domOn s d = true) :
    cpResume s = { (readReg { s with cpWait := none, cpResp := 0 } a coin).1 with
      cpRdata := w32 (readReg { s with cpWait := none, cpResp := 0 } a coin).2 } := by
  unfold cpResume
  rw [hw]
  simp [ha, gatedDoms, hd]

end

/-! ### Writes by access code -/

section
variable {s : State} {a v coin : Nat} {r : RegRow}

/-- A register with no effect of its own is written by its access code. -/
theorem writeReg_code (ha : a < 0x200000) (hr : regRow? a = some r) (hc : cmdWrite s a v coin = none) :
    writeReg s a v coin = codeWrite s r a v coin := by
  unfold writeReg
  rw [if_neg (by omega), if_neg (by omega), hr]
  dsimp only
  rw [hc]

theorem codeWrite_readOnly (h : r.acc = .ro ∨ r.acc = .rc) : codeWrite s r a v coin = s := by
  rcases h with h | h <;> simp [codeWrite, h]

theorem codeWrite_stored (h : r.acc = .rw ∨ r.acc = .rwl ∧ s.committed = false) :
    codeWrite s r a v coin = wr s a (v &&& r.mask) := by
  rcases h with h | ⟨h, hc⟩
  · simp [codeWrite, h]
  · simp [codeWrite, h, hc]

theorem codeWrite_locked (h : r.acc = .rwl) (hc : s.committed = true) : codeWrite s r a v coin = cpErr s := by
  simp [codeWrite, h, hc]

/-- Ones clear the bits of a W1C register in which hardware sets nothing. -/
theorem codeWrite_w1c (h : r.acc = .w1c) : codeWrite s r a v 0 = wr s a (rd s a &&& (0xFFFFFFFF ^^^ v)) := by
  simp [codeWrite, h, w1cWrite, bit]

theorem bit_cleared (w : Nat) (v : Word) {b : Nat} (hb : b < 32) :
    bit ((w &&& (0xFFFFFFFF ^^^ v.toNat)) % 2 ^ 32) b = (bit w b && !(v.getLsbD b)) := by
  have hones : (0xFFFFFFFF : Nat).testBit b = true := by
    rw [show (0xFFFFFFFF : Nat) = 2 ^ 32 - 1 from rfl, Nat.testBit_two_pow_sub_one]
    simpa using hb
  rw [bit, Nat.testBit_mod_two_pow, Nat.testBit_and, Nat.testBit_xor, hones]
  simp [bit, hb, BitVec.getLsbD]

/-! ### Reads by access code -/

/-- The registers whose reads act of themselves. -/
def ownReads : List Nat := [regGlbTickLo, regJrnSeqLo, regJrnDurableLo, regGlbAgeNowLo, regGlbAdvice0]

/-- ENG_CS_DATA of some engine stands at the address. -/
def isCsData (a : Nat) : Bool := decide (0x100000 ≤ a) && decide ((a - 0x100000) % 0x4000 = 0x24)

/-- A read of itself belongs to an RO register, or to the RC register GLB_ADVICE0. -/
theorem acc_of_ownRead (h : a ∈ ownReads) (hr : regRow? a = some r) : r.acc = .ro ∨ r.acc = .rc ∧ a = regGlbAdvice0 := by
  simp only [ownReads, List.mem_cons, List.not_mem_nil, or_false] at h
  rcases h with rfl | rfl | rfl | rfl | rfl <;> cases hr
  · exact .inl rfl
  · exact .inl rfl
  · exact .inl rfl
  · exact .inl rfl
  · exact .inr ⟨rfl, rfl⟩

theorem acc_of_isCsData (h : isCsData a = true) (ha : a < 0x200000) (hr : regRow? a = some r) : r.acc = .ro := by
  simp only [isCsData, Bool.and_eq_true, decide_eq_true_eq] at h
  obtain ⟨hlo, ho⟩ := h
  unfold regRow? at hr
  rw [if_neg (by omega), if_neg (by omega), if_pos ha, ho] at hr
  split at hr
  · cases hr; rfl
  · cases hr

/-- A read by the register's access code, of a register whose read does not act of itself. -/
def codeRead (s : State) (r : RegRow) (a coin : Nat) : State × Nat :=
  match r.acc with
  | .wo => (s, 0)
  | .rc =>
    if decide (0x10800 ≤ a) && decide (a < 0x10C00) then
      let t := claim s (decide ((a - 0x10800) % 64 = 12)) ((a - 0x10800) / 64)
      (t, t.cpRdata.toNat)
    else rcRead s a coin r.mask
  | _ => (s, (viewReg s a).getD (rd s a))

theorem readReg_code (ha : a < 0x200000) (hr : regRow? a = some r) (hown : a ∉ ownReads) (hcs : isCsData a = false) :
    readReg s a coin = codeRead s r a coin := by
  simp only [ownReads, List.mem_cons, List.not_mem_nil, or_false, not_or] at hown
  obtain ⟨h1, h2, h3, h4, h5⟩ := hown
  unfold readReg
  rw [if_neg (by omega), if_neg (by omega), hr]
  dsimp only
  rw [if_neg h1, if_neg h2, if_neg h3, if_neg h4, if_neg h5, if_neg (by simpa [isCsData] using hcs)]
  rfl

theorem readReg_none (ha : a < 0x200000) (hr : regRow? a = none) : readReg s a coin = (s, 0) := by
  unfold readReg
  rw [if_neg (by omega), if_neg (by omega), hr]

/-- A WO register, and an address with no register, reads 0. -/
theorem readReg_zero (ha : a < 0x200000) (hr : ∀ r, regRow? a = some r → r.acc = .wo) (hown : a ∉ ownReads)
    (hcs : isCsData a = false) : readReg s a coin = (s, 0) := by
  cases e : regRow? a with
  | none => exact readReg_none ha e
  | some r => rw [readReg_code ha e hown hcs, codeRead, hr r e]

/-- A register that software writes reads as stored, unless it shows state held elsewhere. -/
theorem readReg_stored (ha : a < 0x200000) (hr : regRow? a = some r) (hacc : r.acc = .rw ∨ r.acc = .w1c ∨ r.acc = .rwl)
    (hv : viewReg s a = none) : readReg s a coin = (s, rd s a) := by
  have hown : a ∉ ownReads := fun h => by
    rcases acc_of_ownRead h hr with e | ⟨e, -⟩ <;> simp [e] at hacc
  have hcs : isCsData a = false := Bool.eq_false_iff.2 fun h => by simp [acc_of_isCsData h ha hr] at hacc
  rw [readReg_code ha hr hown hcs]
  rcases hacc with e | e | e <;> simp [codeRead, e, hv]

/-- HOP_SLICE_LOW stands in the four quadrant windows only. -/
theorem quad_of_sliceLow {q : Nat} (ha : a < 0x200000) (hr : regRow? a = some r) (e : a = regHopSliceLow q) : q < 4 := by
  by_contra hq
  have hlow : a = 0x80000 + q * 0x20000 + 0x404 := e
  have ho : (a - 0x100000) % 0x4000 = 0x404 := by omega
  unfold regRow? at hr
  rw [if_neg (by omega), if_neg (by omega), if_pos ha, ho] at hr
  split at hr <;> cases hr

/-- An RC register reads and clears, but for the increment of the same access; those of the advice, of the claims and of the
free slice act otherwise. -/
theorem readReg_counter (ha : a < 0x200000) (hr : regRow? a = some r) (hacc : r.acc = .rc) (hadv : a ≠ regGlbAdvice0)
    (hclaim : a < 0x10800 ∨ 0x10C00 ≤ a) (hlow : ∀ q : Quad, a ≠ regHopSliceLow q) :
    readReg s a coin = (wr s a (coin &&& r.mask), rd s a) := by
  have hown : a ∉ ownReads := fun h => by
    rcases acc_of_ownRead h hr with e | ⟨-, e⟩
    · simp [e] at hacc
    · exact hadv e
  have hcs : isCsData a = false := Bool.eq_false_iff.2 fun h => by simp [acc_of_isCsData h ha hr] at hacc
  have hslice : a ≠ regHopSliceLow ((a - 0x80000) / 0x20000) := fun e => hlow ⟨_, quad_of_sliceLow ha hr e⟩ e
  have hnoClaim : ¬(decide (0x10800 ≤ a) && decide (a < 0x10C00)) = true := by simp; omega
  simp only [readReg_code ha hr hown hcs, codeRead, hacc, if_neg hnoClaim, rcRead, if_neg hslice]

end

/-! ### Parity bits of a microword -/

theorem bitsOf_succ (n : Nat) (p : Nat → Bool) : bitsOf (n + 1) p = 2 ^ n * (p n).toNat + bitsOf n p := by
  unfold bitsOf
  rw [List.range_succ, List.filter_append, List.map_append, List.sum_append]
  cases h : p n <;> simp [h, Nat.add_comm]

theorem bitsOf_lt (n : Nat) (p : Nat → Bool) : bitsOf n p < 2 ^ n := by
  induction n with
  | zero => simp [bitsOf]
  | succ n ih =>
    rw [bitsOf_succ, Nat.pow_succ]
    cases p n <;> simp <;> omega

/-- The bits that a property is gathered in. -/
theorem bitsOf_testBit (n : Nat) (p : Nat → Bool) (i : Nat) : (bitsOf n p).testBit i = (decide (i < n) && p i) := by
  induction n with
  | zero => simp [bitsOf]
  | succ n ih =>
    rw [bitsOf_succ, Nat.testBit_two_pow_mul_add _ (bitsOf_lt n p)]
    split
    · next h => rw [ih]; simp [h, Nat.lt_succ_of_lt h]
    · next h =>
      rcases Nat.eq_or_lt_of_le (Nat.not_lt.1 h) with rfl | h
      · cases p n <;> simp
      · have hp : (p n).toNat < 2 ^ (i - n) := (Bool.toNat_lt _).trans_le (Nat.le_self_pow (by omega) 2)
        simp [Nat.testBit_lt_two_pow hp, show ¬i < n + 1 by omega]

theorem csParity_bit (w : Nat) {i : Nat} (h : i < 4) :
    bit (csParity w % 2 ^ 32) i = (popcount 8 (bits w (8 * i + 7) (8 * i)) % 2 == 0) := by
  rw [bit, Nat.testBit_mod_two_pow, csParity, bitsOf_testBit]
  simp [h, show i < 32 by omega, beq_eq_decide]

/-! ### Reads that act of themselves -/

section
variable {s : State}

/-- A read of a half of a number latches the other half. -/
theorem latches_read {i : Instr} {lo hi v : Nat} {f : State → State × Nat} (hx : exec i s = ok (cpGet s lo 15 0 f))
    (ht : PortTakes s lo) (hf : f { s with cpResp := 0 } = (wr { s with cpResp := 0 } hi (v / 2 ^ 32), low32 v)) :
    Latches i s hi v := by
  refine latches_of s i hi v (hx.trans ?_)
  rw [cpGet_ok s lo 0 ht, hf]
  rfl

/-- A free port takes accesses to a register of a domain that is always on. -/
theorem portTakes_always (h : PortFree s) {a : Nat} (ha : regDoms a = []) : PortTakes s a :=
  ⟨h, fun d hd => by rw [ha] at hd; cases hd⟩

/-- A free port takes accesses to a register of a domain that is on. -/
theorem portTakes_on (h : PortFree s) {a d : Nat} (ha : regDoms a = [d]) (hd : domOn s d = true) : PortTakes s a :=
  ⟨h, fun e he => by rw [ha, List.mem_singleton] at he; rwa [he]⟩

/-- The oldest advice leaves the FIFO, its location in GLB_ADVICE1. -/
theorem adviceRead_oldest (h : PortFree s) {zid g b cause : Nat} {r : List (Nat × Nat × Nat × Nat)}
    (ha : s.age.advice = (zid, g, b, cause) :: r) :
    exec .glbAdvice0Read s = .next (wr { s with
      cpResp := 0, cpRdata := w32 (2 ^ 31 + cause * 2 ^ 28 + zid % 2 ^ 19), age := { s.age with advice := r } }
        regGlbAdvice1 (g * 2 ^ 12 + b)) := by
  show ok (cpGet s regGlbAdvice0 15 0 adviceRead) = _
  rw [cpGet_ok s _ 0 (portTakes_always h rfl), adviceRead]
  dsimp only
  rw [ha]
  rfl

theorem adviceRead_none (h : PortFree s) (ha : s.age.advice = []) :
    exec .glbAdvice0Read s = .next { s with cpResp := 0, cpRdata := 0 } := by
  show ok (cpGet s regGlbAdvice0 15 0 adviceRead) = _
  rw [cpGet_ok s _ 0 (portTakes_always h rfl), adviceRead]
  dsimp only
  rw [ha]
  rfl

end

/-! ### Accesses to a register whose domain is on -/

section
variable {s : State} {a : Nat} {r : RegRow} (h4 : a % 4 = 0) (ha : a < 0x200000) (hp : PortTakes s a)
include h4 ha hp

theorem exec_registerWrite_code {v : Word} (hr : regRow? a = some r) (hc : cmdWrite { s with cpResp := 0 } a v.toNat 0 = none) :
    exec (.registerWrite a v 15 0) s = .next (pump (codeWrite { s with cpResp := 0 } r a v.toNat 0)) := by
  rw [← writeReg_code ha hr hc, ← registerWrite_takes h4 ha hp]
  rfl

theorem exec_registerRead {t : State} {n : Nat} (h : readReg { s with cpResp := 0 } a 0 = (t, n)) :
    exec (.registerRead a 15) s = .next { t with cpRdata := w32 n } := by
  show ok (registerRead s a 15) = _
  rw [registerRead_takes h4 ha hp, h]
  rfl

/-- An RC counter answers its value, and what it counts in the same access stays. -/
theorem exec_rcCounterRead {coin : Word} (hr : regRow? a = some r) (hacc : r.acc = .rc) (hadv : a ≠ regGlbAdvice0)
    (hclaim : a < 0x10800 ∨ 0x10C00 ≤ a) (hlow : ∀ q : Quad, a ≠ regHopSliceLow q) :
    exec (.rcCounterRead a coin) s =
      .next (wr { s with cpResp := 0, cpRdata := w32 (rd s a) } a (coin.toNat &&& r.mask)) := by
  show ok (cpGet s (a % 2 ^ 23 / 4 * 4) 15 coin.toNat fun s => readReg s (a % 2 ^ 23 / 4 * 4) coin.toNat) = _
  rw [portAddr_eq h4 ha, cpGet_ok s a _ hp, readReg_counter ha hr hacc hadv hclaim hlow]
  rfl

end

/-- The timeline, from the two halves of its offset. -/
theorem timeline_eq (s : State) :
    timeline s = (s.tick + (rd s regGlbAgeOffsetHi * 2 ^ 32 + rd s regGlbAgeOffsetLo)) % 2 ^ 64 := by
  unfold timeline rd64
  ring_nf

/-- What a read of ENG_CS_DATA leaves: the address moved on within its low 14 bits, the parity bits of the microword latched. -/
def csReadEnd (s : State) (e w : Nat) : State :=
  wrf (wr s (regEngCsPar e) (csParity w)) (regEngCsAddr e) 13 0 (rd s (regEngCsAddr e) + 1)

theorem exec_engCsDataRead (e : Engine) (hp : PortTakes s (regEngCsData e)) :
    let a := rd s (regEngCsAddr e)
    let w := tget (if bit a 14 then otherSlot s e else tget s.cfg.cur e {}).words (a % 2 ^ 14) 0
    exec (.engCsDataRead e) s = .next (csReadEnd { s with cpResp := 0, cpRdata := w } e w.toNat) := by
  intro a w
  have hw : w32 w.toNat = w := BitVec.ofNat_toNat ..
  calc exec (.engCsDataRead e) s
      = ok { (csRead { s with cpResp := 0 } e).1 with cpRdata := w32 w.toNat } :=
        congrArg ok (cpGet_ok s _ 0 hp fun s => csRead s e)
    _ = .next (csReadEnd { s with cpResp := 0, cpRdata := w32 w.toNat } e w.toNat) := rfl
    _ = _ := by rw [hw]

theorem csReadEnd_addr (s : State) (e w : Nat) :
    rdf (csReadEnd s e w) (regEngCsAddr e) 13 0 = (rd s (regEngCsAddr e) + 1) % 2 ^ 14 :=
  rdf_wrf_same _ _ 13 0 _ (by decide) (by decide)

theorem regEngCsPar_ne_addr (e : Nat) : regEngCsPar e ≠ regEngCsAddr e := by simp [regEngCsPar, regEngCsAddr]

theorem csReadEnd_bank (s : State) (e w : Nat) :
    rdf (csReadEnd s e w) (regEngCsAddr e) 31 14 = rdf s (regEngCsAddr e) 31 14 := by
  unfold csReadEnd
  rw [rdf_wrf_ne _ _ 13 0 _ 31 14 (by decide) (by decide) (by decide), rdf, rd_wr_ne _ (regEngCsPar_ne_addr e).symm, rdf]

theorem csReadEnd_parity (s : State) (e w : Nat) {i : Nat} (h : i < 4) :
    bit (rd (csReadEnd s e w) (regEngCsPar e)) i = (popcount 8 (bits w (8 * i + 7) (8 * i)) % 2 == 0) := by
  unfold csReadEnd
  rw [rd_wrf_ne _ (regEngCsPar_ne_addr e), rd_wr_same]
  exact csParity_bit w h

theorem csReadEnd_onlyRegs (s : State) (e w : Nat) : OnlyRegs s (csReadEnd s e w) [regEngCsAddr e, regEngCsPar e] :=
  onlyRegs_wr (onlyRegs_wr (onlyRegs_refl s) ..) ..

/-! ### The domains of a register -/

/-- A list chosen by a condition has what holds of each choice. -/
theorem forall_mem_ite {c : Prop} [Decidable c] {l m : List Nat} {P : Nat → Prop} (hl : c → ∀ d ∈ l, P d)
    (hm : ¬c → ∀ d ∈ m, P d) : ∀ d ∈ (if c then l else m), P d := by
  by_cases h : c
  · rw [if_pos h]; exact hl h
  · rw [if_neg h]; exact hm h

theorem forall_mem_none {P : Nat → Prop} : ∀ d ∈ ([] : List Nat), P d := List.forall_mem_nil P

theorem forall_mem_one {n : Nat} {P : Nat → Prop} (h : P n) : ∀ d ∈ [n], P d := List.forall_mem_singleton.2 h

/-- The registers below the OZT window belong to none of PD_MILL and PD_AO. -/
theorem regDoms_lt {a : Nat} (ha : a < 0x200000) : ∀ d ∈ regDoms a, d < 93 := by
  unfold regDoms
  dsimp only
  refine forall_mem_ite (fun _ => forall_mem_none) fun _ => ?_
  refine forall_mem_ite (fun _ => forall_mem_ite (fun _ => forall_mem_one (by omega)) fun _ => forall_mem_none) fun _ => ?_
  refine forall_mem_ite (fun _ => forall_mem_none) fun _ => ?_
  refine forall_mem_ite (fun _ => by omega) fun _ => ?_
  refine forall_mem_ite (fun _ => forall_mem_none) fun _ => ?_
  refine forall_mem_ite (fun _ => forall_mem_ite (fun _ => ?quad) fun _ => ?chan) fun _ => ?engine
  case quad =>
    refine forall_mem_ite (fun _ => List.forall_mem_cons.2 ⟨by omega, forall_mem_one (by omega)⟩) fun _ => ?_
    refine forall_mem_ite (fun _ => forall_mem_one (by omega)) fun _ => ?_
    exact forall_mem_ite (fun _ => forall_mem_one (by omega)) fun _ => forall_mem_one (by omega)
  case chan => exact forall_mem_ite (fun _ => forall_mem_one (by omega)) fun _ => forall_mem_one (by omega)
  case engine =>
    repeat refine forall_mem_ite (fun _ => forall_mem_one (by omega)) fun _ => ?_
    exact forall_mem_none

/-! ### The statement -/

/-- Settles O19, part by part: writes and reads by access code (`codeWrite`, `codeRead`) and the refused ones (`cpGate_dead`); the
latched halves and their number; the reads that take; the gated domains, where an acknowledge leaves the access that is held
(`domAck_cpWait`) until `cpResume` lets it act. -/
theorem registersActByAccessCode : Obligations.RegistersActByAccessCode := by
  unfold Obligations.RegistersActByAccessCode
  refine ⟨?_, ⟨?_, ?_⟩, ?_, ?_⟩
  · intro s a v h4 ha
    dsimp only
    refine ⟨fun hp r hr hc => ?_, fun hp hr hown hcs => ?_, fun hp r hr hacc hv => ?_, fun be hbe => ?_⟩
    · have hw := exec_registerWrite_code h4 ha hp hr hc
      refine ⟨fun h => ?_, fun h => ?_, fun h hcom => ?_, fun h => ?_⟩
      · rw [hw, codeWrite_readOnly h]
      · exact ⟨_, by rw [hw, codeWrite_stored (s := { s with cpResp := 0 }) h], onlyRegs_wr (onlyRegs_refl _) ..,
          rd_wr_same ..⟩
      · rw [hw, codeWrite_locked (s := { s with cpResp := 0 }) h hcom]
        rfl
      · refine ⟨_, by rw [hw, codeWrite_w1c h], onlyRegs_wr (onlyRegs_refl _) .., fun b hb => ?_⟩
        rw [rd_wr_same]
        exact bit_cleared _ v hb
    · have hz : isCsData a = false := by simp [isCsData]; omega
      exact exec_registerRead h4 ha hp (readReg_zero ha hr hown hz)
    · exact exec_registerRead h4 ha hp (readReg_stored ha hr hacc hv)
    · have hg := cpGate_dead hbe (regDoms (a % 2 ^ 23 / 4 * 4))
      exact ⟨registerWrite_refused hg v, registerRead_refused hg⟩
  · intro s h
    refine ⟨latches_read rfl (portTakes_always h rfl) rfl, latches_read rfl (portTakes_always h rfl) ?_, fun hd =>
      ⟨latches_read rfl (portTakes_on h rfl hd) rfl, latches_read rfl (portTakes_on h rfl hd) rfl⟩⟩
    rw [← timeline_eq]
    rfl
  · intro v hv
    omega
  · intro s h
    refine ⟨fun zid g b cause r ha => ?_, adviceRead_none h, fun e hp => ?_,
      fun a coin r h4 ha hp hr hacc hadv hclaim hlow => ?_⟩
    · exact ⟨_, adviceRead_oldest h ha, rfl, rfl, rd_wr_same .., onlyRegs_wr (onlyRegs_refl _) ..⟩
    · exact ⟨_, exec_engCsDataRead e hp, rfl, csReadEnd_addr .., csReadEnd_bank .., fun i hi => csReadEnd_parity _ _ _ hi,
        csReadEnd_onlyRegs ..⟩
    · refine ⟨_, exec_rcCounterRead h4 ha hp hr hacc hadv hclaim hlow, rfl, ?_, onlyRegs_wr (onlyRegs_refl _) ..⟩
      refine (rd_wr_same ..).trans (Nat.mod_eq_of_lt ?_)
      exact Nat.lt_of_le_of_lt Nat.and_le_left coin.isLt
  · intro s a v d h4 ha hds hoff hpresent
    have h94 : d < 94 := (regDoms_lt ha d (by simp [hds])).trans (by decide)
    refine ⟨fun h hp => ?_, fun n ret level h hw haddr => ⟨fun hd hc => ?_, fun hd hw' => ⟨fun w e => ?_, fun e => ?_⟩⟩,
      fun h hp => ?_⟩
    · have hg := cpGate_raises h hoff hpresent hp
      rw [← hds] at hg
      exact ⟨registerWrite_held h4 ha hg v, registerRead_held h4 ha hg, domUse_off hoff h94⟩
    · have hk : (domAck s n.val ret level).cpWait = some h := by rw [domAck_cpWait, hw]
      exact congrArg (fun t => ok (pump t)) (cpResume_waits hk (haddr ▸ hds) hd hc)
    · exact congrArg (fun t => ok (pump t)) (cpResume_write (hw'.trans (congrArg some e)) hds hd)
    · exact congrArg (fun t => ok (pump t)) (cpResume_read (hw'.trans (congrArg some e)) hds hd)
    · have hg := cpGate_asleep h hoff hp
      rw [← hds, ← portAddr_eq h4 ha] at hg
      exact ⟨registerWrite_refused hg v, registerRead_refused hg⟩

end Sys2Proof.Machine
end

