-- ==== Sys2Proof/Proofs/Steps.lean ====
section
/-! What a step answers: every command a next state, an empty queue one edge of TREF (R26, R31; the model's choice, log
entry 1). -/

namespace Sys2Proof.Machine

/-- Every arm of `exec` is a total update of the state: none stops the block, and none is refused. -/
theorem exec_eq_ok (i : Instr) (s : State) : ∃ t, exec i s = ok t := by
  cases i <;> exact ⟨_, rfl⟩

section
variable {s : State}

/-- An empty queue lets one edge of TREF pass (log entry 1). -/
theorem step_idle (h : s.pending = []) : step s = .next (tickOnce s) := by
  unfold step
  rw [h]

theorem tickOnce_runs (h : s.trefStop = false) : tickOnce s = { s with tick := (s.tick + 1) % 2 ^ 64 } := if_neg (by simp [h])

theorem tickOnce_stopped (h : s.trefStop = true) : tickOnce s = s := if_pos h

end

/-- Settles O2: a command answers a next state whatever it is (`exec_eq_ok`), and an idle step is `tickOnce`. -/
theorem everyStepAnswersANextState : Obligations.EveryStepAnswersANextState := by
  unfold Obligations.EveryStepAnswersANextState
  refine ⟨fun i s => exec_eq_ok i s, fun s hq => ⟨fun hs => ?runs, fun hs => ?stopped⟩⟩
  case runs => rw [step_idle hq, tickOnce_runs hs]
  case stopped => rw [step_idle hq, tickOnce_stopped hs]

end Sys2Proof.Machine
end

