-- ==== Sys2Proof/Proofs/Timebase.lean ====
section
/-! The timebase (R28 to R33): the loss and the return of TREF, the comparison and pace windows, and step 2 of bring-up, which
waits for both (R585). -/

namespace Sys2Proof.Machine

section
variable {s : State}

/-! ### The phase of bring-up -/

@[simp] theorem phase_setPhase (s : State) (p : Nat) : phase (setPhase s p) = p % 16 :=
  rdf_wrf_same s regBootState 31 28 p (by decide) (by decide)

theorem rd_setPhase_ne (s : State) (p : Nat) {a : Nat} (h : a ≠ regBootState) : rd (setPhase s p) a = rd s a := rd_wr_ne s h

theorem paceValid_setPhase (s : State) (p : Nat) : paceValid (setPhase s p) = paceValid s := by
  unfold paceValid
  rw [rd_setPhase_ne s p (by decide), rd_setPhase_ne s p (by decide)]

/-- A sticky bit of BOOT_STATUS leaves the phase. -/
theorem phase_bootFlag (s : State) (b : Nat) : phase (bootFlag s b) = phase s := by
  unfold phase rdf bootFlag
  rw [rd_sticky_ne s (by decide) (by unfold regBootState regBootStatus; omega)]

/-- The block once the fill has been looked at: phase FILL is left where it has ended. -/
def afterFill (s : State) : State := if phase s = 0 ∧ s.filled then setPhase s 1 else s

theorem afterFill_cases (s : State) : afterFill s = setPhase s 1 ∨ afterFill s = s := ite_eq_or_eq ..

theorem phase_afterFill_le (h : phase s ≤ 1) : phase (afterFill s) ≤ 1 := by
  rcases afterFill_cases s with e | e <;> simp [e, h]

theorem phase_afterFill_filled (h : phase s ≤ 1) (hf : s.filled = true) : phase (afterFill s) = 1 := by
  unfold afterFill
  by_cases h0 : phase s = 0
  · simp [h0, hf]
  · rw [if_neg fun e => h0 e.1]
    omega

/-- TREF_FREQ stops bring-up (R585). -/
theorem bringupAdvance_stops (h : phase s ≤ 1) (hb : bit (rd s regGlbTbStatus) 1 = true) :
    bringupAdvance s = bootFlag (setPhase s 15) 0 := by
  unfold bringupAdvance
  rw [if_pos h, if_pos hb]

/-- Without TREF_FREQ, step 2 ends once the pace is known and a comparison window has ended (R584, R585). -/
theorem bringupAdvance_agrees (h : phase s ≤ 1) (hb : bit (rd s regGlbTbStatus) 1 = false) :
    bringupAdvance s =
      if phase (afterFill s) = 1 ∧ paceValid s = true ∧ s.boot.freqOk = true then setPhase (afterFill s) 2
      else afterFill s := by
  obtain ⟨hpace, hboot⟩ : paceValid (afterFill s) = paceValid s ∧ (afterFill s).boot = s.boot := by
    rcases afterFill_cases s with e | e <;> rw [e]
    · exact ⟨paceValid_setPhase s 1, rfl⟩
    · exact ⟨rfl, rfl⟩
  have hlost : paceValid s = true → bit (rd (afterFill s) regGlbTbStatus) 0 = false := by
    rw [← hpace]
    unfold paceValid
    simp
  unfold bringupAdvance
  rw [if_pos h, if_neg (by simp [hb])]
  change (if (decide (phase (afterFill s) = 1) && paceValid (afterFill s) && (afterFill s).boot.freqOk &&
    !bit (rd (afterFill s) regGlbTbStatus) 0) = true then setPhase (afterFill s) 2 else afterFill s) = _
  rw [hpace, hboot]
  cases hv : paceValid s with
  | false => simp
  | true => simp [hlost hv]

/-- Where the timebase leaves bring-up: stopped by TREF_FREQ, past step 2, or before it. -/
theorem bringupAdvance_timebase (h : phase s ≤ 1) :
    (bit (rd s regGlbTbStatus) 1 = true →
      phase (bringupAdvance s) = 15 ∧ bit (rd (bringupAdvance s) regBootStatus) 0 = true) ∧
    (bit (rd s regGlbTbStatus) 1 = false → s.filled = true → paceValid s = true → s.boot.freqOk = true →
      phase (bringupAdvance s) = 2) ∧
    (bit (rd s regGlbTbStatus) 1 = false → s.boot.freqOk = false → phase (bringupAdvance s) ≤ 1) := by
  refine ⟨fun hb => ?stopped, fun hb hfill hpace hfreq => ?left, fun hb hfreq => ?waits⟩
  case stopped =>
    rw [bringupAdvance_stops h hb]
    exact ⟨by rw [phase_bootFlag, phase_setPhase], sticky_bit _ _ 0 (by decide)⟩
  case left =>
    rw [bringupAdvance_agrees h hb, if_pos ⟨phase_afterFill_filled h hfill, hpace, hfreq⟩, phase_setPhase]
  case waits =>
    rw [bringupAdvance_agrees h hb, if_neg (by simp [hfreq])]
    exact phase_afterFill_le h

/-! ### The loss of TREF -/

/-- The block with TREF_LOST set: neither the counters nor admission go on. -/
def stoppedTref (s : State) : State :=
  { sticky s regGlbTbStatus 0 with trefStop := true, gov := { s.gov with stopped := true } }

theorem stoppedTref_lost (s : State) : bit (rd (stoppedTref s) regGlbTbStatus) 0 = true := sticky_bit s _ 0 (by decide)

theorem stoppedTref_pace (s : State) : rd (stoppedTref s) regGlbPace = rd s regGlbPace :=
  rd_sticky_ne s (by decide) (by decide)

theorem paceValid_lost (h : bit (rd s regGlbTbStatus) 0 = true) : paceValid s = false := by simp [paceValid, h]

/-- GLB_PACE as it reads (R30). -/
theorem viewReg_pace (s : State) : viewReg s regGlbPace = some (b2n (paceValid s) * 2 ^ 31 + rdf s regGlbPace 15 0) := rfl

theorem stoppedTref_view (s : State) : viewReg (stoppedTref s) regGlbPace = some (rdf s regGlbPace 15 0) := by
  rw [viewReg_pace, paceValid_lost (stoppedTref_lost s), rdf, stoppedTref_pace]
  simp [b2n, rdf]

/-! ### The windows -/

/-- The end of a comparison window (R33). -/
theorem freqWindow_due (hd : s.freqAt + 65536 ≤ s.tick) (hs : s.trefStop = false) (hp : rd s (regPwrOn 1) ≠ 0) (d : Bool) :
    freqWindow s d = bringupAdvance (if d then sticky { s with freqAt := s.tick } regGlbTbStatus 1
      else { s with freqAt := s.tick, boot := { s.boot with freqOk := true } }) := by
  unfold freqWindow
  rw [if_pos (by simp [due, somePhyOn, hd, hs, hp])]

theorem freqWindow_physOff (hp : rd s (regPwrOn 1) = 0) (d : Bool) : freqWindow s d = s := by
  unfold freqWindow
  rw [if_neg (by simp [somePhyOn, hp])]

/-- GLB_PACE after a pace window. -/
def paceTaken (s : State) (n : Nat) : State := wr { s with paceAt := s.tick } regGlbPace (2 ^ 31 + n)

theorem paceTaken_floor (s : State) (n : Nat) : rdf (paceTaken s n) regGlbPaceFloor 15 0 = rdf s regGlbPaceFloor 15 0 := by
  unfold rdf paceTaken
  rw [rd_wr_ne _ (by decide)]
  rfl

theorem rd_paceTaken {n : Nat} (hn : n < 2 ^ 16) : rd (paceTaken s n) regGlbPace = 2 ^ 31 + n := by
  unfold paceTaken
  rw [rd_wr_same, Nat.mod_eq_of_lt (by omega)]

theorem paceTaken_count {n : Nat} (hn : n < 2 ^ 16) : rdf (paceTaken s n) regGlbPace 15 0 = n := by
  unfold rdf bits
  rw [rd_paceTaken hn, Nat.shiftRight_zero]
  omega

theorem paceTaken_valid {n : Nat} (hn : n < 2 ^ 16) (hl : bit (rd s regGlbTbStatus) 0 = false) :
    paceValid (paceTaken s n) = true := by
  have hkept : rd (paceTaken s n) regGlbTbStatus = rd s regGlbTbStatus := rd_wr_ne _ (by decide)
  have hbit : bit (2 ^ 31 + n) 31 = true := by
    rw [bit, Nat.testBit_two_pow_add_eq, Nat.testBit_eq_false_of_lt (by omega)]
    rfl
  rw [paceValid, rd_paceTaken hn, hkept, hl, hbit]
  rfl

/-- The end of a pace window (R28, R29). -/
theorem paceWindow_due (hd : s.paceAt + 1024 ≤ s.tick) (hs : s.trefStop = false) (n : Nat) :
    paceWindow s n = bringupAdvance
      (if n < rdf s regGlbPaceFloor 15 0 then raise (paceTaken s n) 1017 else paceTaken s n) := by
  unfold paceWindow
  rw [if_pos (by simp [due, hd, hs])]
  change bringupAdvance (if n < rdf (paceTaken s n) regGlbPaceFloor 15 0 then _ else _) = _
  rw [paceTaken_floor]
  rfl

end

/-- Settles O26: the loss of TREF leaves `stoppedTref`; a window that is due ends as `freqWindow_due` and `paceWindow_due` say,
and what bring-up makes of it is `bringupAdvance_timebase`. -/
theorem timebaseAndPace : Obligations.TimebaseAndPace := by
  unfold Obligations.TimebaseAndPace
  intro s
  refine ⟨?lost, rfl, fun hd hs hp => ?compared, fun hp d => ?physOff, fun n hd hs => ?paced, bringupAdvance_timebase⟩
  case lost =>
    exact ⟨stoppedTref s, rfl, rfl, rfl, stoppedTref_lost s, paceValid_lost (stoppedTref_lost s), stoppedTref_view s, rfl⟩
  case compared =>
    exact ⟨congrArg ok (freqWindow_due hd hs hp true), congrArg ok (freqWindow_due hd hs hp false)⟩
  case physOff => exact congrArg ok (freqWindow_physOff hp d)
  case paced =>
    have hn : n.toNat < 2 ^ 16 := n.isLt
    refine ⟨paceTaken s n.toNat, paceTaken_count hn, paceTaken_valid hn, onlyRegs_wr (onlyRegs_refl _) ..,
      fun h => ?_, fun h => ?_⟩
    · exact congrArg ok ((paceWindow_due hd hs _).trans (by rw [if_pos h]))
    · exact congrArg ok ((paceWindow_due hd hs _).trans (by rw [if_neg (by omega)]))

end Sys2Proof.Machine
end

