-- ==== Sys2Proof/Proofs/Completions.lean ====
section
/-! Completions (R38, R41, R43, R79, R80): the bytes of a completion, the slot that it takes, the write that carries it, and the
event that follows it. -/

namespace Sys2Proof.Machine

/-! ### Spans within one burst -/

theorem slice_self {l : List Byte} {n : Nat} (h : l.length = n) : slice l 0 n = l := by simp [slice, h]

/-- A span that stays below the next 2,048-byte boundary is one burst. -/
theorem cutSpan_whole {a l : Nat} (f : Nat) (hl : l ≠ 0) (h : a % 2048 + l ≤ 2048) : cutSpan (f + 2) a l = [(a, l)] := by
  have hmin : min l (2048 - a % 2048) = l := by omega
  simp [cutSpan, hl, hmin]

section
variable {s : State} {r : Nat} {c : Cmd}

/-! ### What the parts of a completion leave -/

@[simp] theorem takeSlot_ports (s : State) (r : Nat) : (takeSlot s r).ports = s.ports := by
  unfold takeSlot setCtrl
  dsimp only
  split <;> rfl

theorem startXfer_waiting (s : State) (x : XferSpec) (l : List (Nat × Nat × Nat × List Byte)) :
    (port (startXfer s x l) x.port).waiting = (port s x.port).waiting ++ spanBursts x s.nextId s.nextId 0 l :=
  congrArg PortSt.waiting (port_modPort_same ..)

/-! ### The completion slot -/

theorem slotsOf_le {n : Nat} (h : n < 16) : slotsOf n ≤ 2 ^ 16 := by
  unfold slotsOf
  split
  · decide
  · exact Nat.pow_le_pow_right (by decide) (by omega)

theorem cplSize_le (s : State) (r : Nat) : cplSize s r ≤ 2 ^ 16 := by
  refine slotsOf_le ?_
  have hbyte : cget s r 0x18 1 < 2 ^ 8 := bits_lt ..
  omega

theorem ringPhase_setCtrl {v : Nat} (s : State) (r : Nat) (hv : v ≤ 1) : ringPhase (setCtrl s r 2 v) r = v := by
  unfold ringPhase setCtrl
  rw [cget_cset_same _ _ _ _ _ (by decide) (by decide), bit, Nat.testBit_mod_two_pow, putBits_testBit _ _ _ _ _ (by decide)]
  obtain rfl | rfl : v = 0 ∨ v = 1 := by omega
  · rfl
  · rfl

theorem ringPhase_cset (s : State) (r : Nat) {o n : Nat} (v : Nat) (hn : 0 < n) (ho : o + n ≤ 0x19) :
    ringPhase (cset s r o n v) r = ringPhase s r := by
  unfold ringPhase
  rw [cget_cset_ne _ _ _ _ _ _ _ hn (by omega) (by decide) (by omega)]

/-- CPL_TAIL moves on to the next slot of the ring (R41). -/
theorem takeSlot_tail (h : cget s r 0x14 2 < cplSize s r) :
    cget (takeSlot s r) r 0x14 2 = if cget s r 0x14 2 + 1 = cplSize s r then 0 else cget s r 0x14 2 + 1 := by
  have hsize := cplSize_le s r
  unfold takeSlot
  dsimp only
  split
  · unfold setCtrl
    rw [cget_cset_ne _ _ _ _ _ _ _ (by decide) (by decide) (by decide) (by decide),
      cget_cset_same _ _ _ _ _ (by decide) (by decide)]
    rfl
  · rw [cget_cset_same _ _ _ _ _ (by decide) (by decide), Nat.mod_eq_of_lt (by omega)]

/-- The phase inverts where CPL_TAIL wraps (R41). -/
theorem takeSlot_phase (s : State) (r : Nat) :
    ringPhase (takeSlot s r) r = if cget s r 0x14 2 + 1 = cplSize s r then 1 - ringPhase s r else ringPhase s r := by
  unfold takeSlot
  dsimp only
  split
  · exact ringPhase_setCtrl _ _ (Nat.sub_le ..)
  · exact ringPhase_cset _ _ _ (by decide) (by decide)

/-! ### The bytes of a completion -/

/-- A completion whose STATE byte is `z`. -/
def completionWith (s : State) (c : Cmd) (z : Nat) : List Byte :=
  leBytes 2 (cmdId c) ++ (leBytes 2 c.res.status ++ (leBytes 2 (cget s c.ring 0x10 2) ++ (leBytes 1 (ringPhase s c.ring) ++
    (leBytes 1 z ++ (leBytes 4 c.gen ++ (leBytes 4 c.res.ra ++ (leBytes 8 c.res.rb ++ (leBytes 4 c.res.detail ++
      leBytes 4 s.tick))))))))

theorem completionBytes_eq (s : State) (c : Cmd) : ∃ z, completionBytes s c = completionWith s c z := by
  unfold completionBytes completionWith
  simp only [List.append_assoc]
  exact ⟨_, rfl⟩

theorem completionBytes_length (s : State) (c : Cmd) : (completionBytes s c).length = 32 := by
  obtain ⟨z, e⟩ := completionBytes_eq s c
  simp [e, completionWith]

theorem completionBytes_fields (s : State) (c : Cmd) :
    let b := completionBytes s c
    fieldAt b 0x00 2 = cmdId c % 2 ^ 16 ∧ fieldAt b 0x02 2 = c.res.status % 2 ^ 16 ∧
      fieldAt b 0x04 2 = cget s c.ring 0x10 2 ∧ fieldAt b 0x06 1 = ringPhase s c.ring ∧
      fieldAt b 0x08 4 = c.gen % 2 ^ 32 ∧ fieldAt b 0x0C 4 = c.res.ra % 2 ^ 32 ∧ fieldAt b 0x10 8 = c.res.rb % 2 ^ 64 ∧
      fieldAt b 0x18 4 = c.res.detail % 2 ^ 32 ∧ fieldAt b 0x1C 4 = s.tick % 2 ^ 32 := by
  have hhead : cget s c.ring 0x10 2 < 65536 := bits_lt ..
  have hphase : ringPhase s c.ring < 256 := by
    unfold ringPhase b2n
    split <;> decide
  obtain ⟨z, e⟩ := completionBytes_eq s c
  simp (disch := simp) only [e, completionWith, fieldAt_append_right, fieldAt_leBytes, leBytes_length]
  simp [fieldAt_leBytes, fieldAt_leBytes_last, hhead, Nat.mod_eq_of_lt hphase]

/-! ### The write of a completion -/

/-- Where a completion goes: slot CPL_TAIL of the ring's completion ring (R43). -/
def completionAddr (s : State) (c : Cmd) : Nat := cget s c.ring 0x08 8 / 4096 * 4096 + 32 * cget s c.ring 0x14 2

/-- Completion slots are aligned to their 32 bytes. -/
theorem completionAddr_mod (s : State) (c : Cmd) : completionAddr s c % 32 = 0 := by
  unfold completionAddr
  omega

/-- The transfer of a completion: class A, through the even port of the home quadrant (R79, log entry 26). -/
def completionSpec (c : Cmd) : XferSpec :=
  { port := 2 * c.home, write := true, clsA := true, grp := 0, deadline := c.deadline, real := c.deadline.isSome,
    purpose := .completion c.ring c.cid }

/-- The block with a command's completion traced and the command posted. -/
def completionNoted (s : State) (c : Cmd) : State :=
  modCmd (trace s c.home 1 c.ring [c.res.status + (cmdId c % 2 ^ 15) * 2 ^ 16]) c.cid fun c => { c with posted := true }

@[simp] theorem cget_completionNoted (s : State) (c : Cmd) (r o n : Nat) :
    cget (completionNoted s c) r o n = cget s r o n := by simp [cget, completionNoted]

@[simp] theorem cplSize_completionNoted (s : State) (c : Cmd) (r : Nat) :
    cplSize (completionNoted s c) r = cplSize s r := by simp [cplSize]

@[simp] theorem ringPhase_completionNoted (s : State) (c : Cmd) (r : Nat) :
    ringPhase (completionNoted s c) r = ringPhase s r := by simp [ringPhase]

/-- The block with a command posted and its completion slot taken. -/
def completionPosted (s : State) (c : Cmd) : State := takeSlot (completionNoted s c) c.ring

theorem port_completionPosted (s : State) (c : Cmd) (n : Nat) : port (completionPosted s c) n = port s n := by
  simp [completionPosted, completionNoted, port]

theorem completionPosted_tail (h : cget s c.ring 0x14 2 < cplSize s c.ring) :
    cget (completionPosted s c) c.ring 0x14 2 =
      if cget s c.ring 0x14 2 + 1 = cplSize s c.ring then 0 else cget s c.ring 0x14 2 + 1 := by
  simpa [completionPosted] using takeSlot_tail (s := completionNoted s c) (r := c.ring) (by simpa using h)

theorem completionPosted_phase (s : State) (c : Cmd) :
    ringPhase (completionPosted s c) c.ring =
      if cget s c.ring 0x14 2 + 1 = cplSize s c.ring then 1 - ringPhase s c.ring else ringPhase s c.ring := by
  simpa [completionPosted] using takeSlot_phase (completionNoted s c) c.ring

/-- The burst that carries a completion. -/
def completionBurst (s : State) (c : Cmd) : Burst :=
  { xid := (completionPosted s c).nextId, pos := 0, desc := 0, write := true, clsA := true, grp := 0, deadline := c.deadline,
    real := c.deadline.isSome, addr := completionAddr s c, len := 32, data := completionBytes s c,
    seq := (completionPosted s c).nextId }

/-- A completion is one burst: its slot stays below the next 2,048-byte boundary. -/
theorem completion_bursts (s : State) (c : Cmd) :
    spanBursts (completionSpec c) (completionPosted s c).nextId (completionPosted s c).nextId 0
      [(0, completionAddr s c, 32, completionBytes s c)] = [completionBurst s c] := by
  have hmod := completionAddr_mod s c
  have hcut : cutSpan (32 / 2048 + 2) (completionAddr s c) 32 = [(completionAddr s c, 32)] :=
    cutSpan_whole 0 (by decide) (by omega)
  simp [spanBursts, hcut, completionSpec, completionBurst, slice_self (completionBytes_length s c)]

/-- A completion is one beat. -/
theorem completion_oneBeat (s : State) (c : Cmd) : beatsOf (completionAddr s c) 32 = 1 := by
  have hmod := completionAddr_mod s c
  unfold beatsOf
  omega

/-- The block with a command's completion waiting at its port. -/
def completionStarted (s : State) (c : Cmd) : State :=
  startXfer (completionPosted s c) (completionSpec c) [(0, completionAddr s c, 32, completionBytes s c)]

theorem completionStarted_waiting (s : State) (c : Cmd) :
    (port (completionStarted s c) (2 * c.home)).waiting = (port s (2 * c.home)).waiting ++ [completionBurst s c] := by
  refine (startXfer_waiting (completionPosted s c) (completionSpec c) _).trans ?_
  rw [completion_bursts, port_completionPosted]
  rfl

theorem completionStarted_dram (s : State) (c : Cmd) : (completionStarted s c).dram = s.dram := by
  simp [completionStarted, completionPosted, completionNoted]

section
variable (hc : cmd? s c.cid = some c)
include hc

/-- Until its data are answered and its journal entries durable, a command writes nothing (R38, R277). -/
theorem tryComplete_waits (h : s.xfers.any (carries c.cid) = true ∨ s.jrn.durable < c.needSeq) : tryComplete s c.cid = s := by
  unfold tryComplete
  rw [hc]
  refine if_neg fun hgo => ?_
  simp only [Bool.and_eq_true, Bool.not_eq_true', decide_eq_true_eq] at hgo
  obtain ⟨⟨-, hanswered⟩, hdurable⟩ := hgo
  rcases h with h | h
  · simp [hanswered] at h
  · omega

/-- Then its completion is a transfer of its own (R38). -/
theorem tryComplete_writes (hend : c.stage = .ending) (hp : c.posted = false) (hx : s.xfers.any (carries c.cid) = false)
    (hj : c.needSeq ≤ s.jrn.durable) (hm : (ringRt s c.ring).muted = false) :
    tryComplete s c.cid = completionStarted s c := by
  unfold tryComplete
  rw [hc]
  dsimp only
  rw [if_pos (by simp [hend, hp, hx, hj]), if_neg (by simp [hm])]
  rfl

end

/-! ### The event of a completion -/

/-- The ring with no unsignalled completion. -/
def signalled (s : State) (r : Nat) : State := modRing s r fun x => { x with unsig := 0 }

theorem onlyRing_modRing (s : State) (r : Nat) (f : RingRt → RingRt) : OnlyRing s (modRing s r f) r :=
  onlyRing_setRings _ (onlyRing_refl s r)

/-- A failure raises the event at once (R80). -/
theorem completionEvent_failure (h : 0x0200 ≤ c.res.status) : completionEvent s c = raiseRing (signalled s c.ring) c.evt := by
  unfold completionEvent
  exact if_pos (by simpa [isSuccess] using h)

section
variable (hok : c.res.status < 0x0200)
include hok

/-- A success under NO_EVENT raises none (R80). -/
theorem completionEvent_noEvent (h : flagNoEvent c = true) : completionEvent s c = s := by
  unfold completionEvent
  rw [if_neg (by simpa [isSuccess] using hok), if_pos h]

/-- Another success raises the event when enough completions have gone unsignalled (R80). -/
theorem completionEvent_full (h : flagNoEvent c = false) (hn : c.coalN ≤ (ringRt s c.ring).unsig + 1) :
    completionEvent s c = raiseRing (signalled s c.ring) c.evt := by
  unfold completionEvent
  rw [if_neg (by simpa [isSuccess] using hok), if_neg (by simp [h])]
  exact if_pos hn

/-- Until then it is counted (R80). -/
theorem completionEvent_counts (h : flagNoEvent c = false) (hn : (ringRt s c.ring).unsig + 1 < c.coalN) :
    OnlyRing s (completionEvent s c) c.ring ∧
      (ringRt (completionEvent s c) c.ring).unsig = (ringRt s c.ring).unsig + 1 := by
  unfold completionEvent
  rw [if_neg (by simpa [isSuccess] using hok), if_neg (by simp [h])]
  dsimp only
  rw [if_neg (by omega)]
  split
  · next h0 => exact ⟨onlyRing_modRing .., by simp [ringRt_modRing_same, h0]⟩
  · exact ⟨onlyRing_modRing .., by simp [ringRt_modRing_same]⟩

end

theorem raiseRing_assigned {evt : Nat} (s : State) (hlo : 16 ≤ evt) (hhi : evt ≤ 767) : raiseRing s evt = raise s evt := by
  unfold raiseRing
  rw [if_neg (by omega), if_pos ⟨hlo, hhi⟩]

/-- COAL_TICKS after the first unsignalled completion the event is raised (R80). -/
theorem coalExpiry_due (hu : 0 < (ringRt s r).unsig) (hl : 0 < (ringRt s r).unsigLim)
    (ht : (ringRt s r).unsigAt + (ringRt s r).unsigLim ≤ s.tick) :
    coalExpiry s r = raiseRing (signalled s r) (ringRt s r).unsigEvt := by
  unfold coalExpiry
  exact if_pos (by simp [hu, hl, due, ht])

theorem coalExpiry_never (hl : (ringRt s r).unsigLim = 0) : coalExpiry s r = s := by
  unfold coalExpiry
  exact if_neg (by simp [hl])

end

/-- Settles O15: a command that waits for data or journal entries writes nothing (`tryComplete_waits`); the others start one
transfer (`tryComplete_writes`) of one burst (`completionBurst`), whose fields are `completionBytes_fields`; what
`completionEvent` does is said case by case. -/
theorem completionsArePostedAndCoalesced : Obligations.CompletionsArePostedAndCoalesced := by
  unfold Obligations.CompletionsArePostedAndCoalesced
  refine ⟨fun s c hc hend hp => ⟨fun hx hj hm hslot => ?posted, tryComplete_waits hc⟩, fun s c => ?event⟩
  case posted =>
    obtain ⟨hid, hst, hhead, hphase, hgen, hra, hrb, hdet, htick⟩ := completionBytes_fields s c
    rw [tryComplete_writes hc hend hp hx hj hm]
    exact ⟨completionBurst s c, completionStarted_waiting s c, rfl, rfl, rfl, rfl, completion_oneBeat s c,
      completionBytes_length s c, hid, hst, hhead, hphase, hgen, hra, hrb, hdet, htick,
      completionPosted_tail hslot, completionPosted_phase s c, completionStarted_dram s c⟩
  case event =>
    exact ⟨completionEvent_failure, completionEvent_noEvent, completionEvent_full, completionEvent_counts,
      raiseRing_assigned _, fun r => ⟨fun hu hl ht => congrArg ok (coalExpiry_due hu hl ht),
        fun hl => congrArg ok (coalExpiry_never hl)⟩⟩

end Sys2Proof.Machine
end

