-- ==== Sys2Proof/Proofs/Fence.lean ====
section
/-! The start of a packet command (R75): what `startable` asks, and that a command that may not start stays as it is. -/

namespace Sys2Proof.Machine

section
variable {s : State} {cid op : Nat}

/-- The order of FENCE, flag by flag (R75). -/
theorem fenceFree_iff (s : State) (c : Cmd) : fenceFree s c = true ↔
    (flagFence c = true → ∀ d ∈ s.cmds, d.ring = c.ring → c.fetchNo ≤ d.fetchNo) ∧
    (flagFence c = false → ∀ d ∈ s.cmds, d.ring = c.ring → d.fetchNo < c.fetchNo → flagFence d = false) := by
  unfold fenceFree
  cases flagFence c with
  | true => simp [List.isEmpty_iff, List.filter_eq_nil_iff]
  | false => simp

theorem startable_iff {c : Cmd} (hc : cmd? s cid = some c) : startable s cid op = some c ↔
    opc c = op ∧ s.blockFault = false ∧ c.issued = false ∧ c.stage = .ready ∧ fenceFree s c = true := by
  unfold startable
  simp [hc, and_assoc]

/-! ### A command that may not start -/

theorem zoneStart_none (h : startable s cid op = none) (f : State → Cmd → State) : zoneStart s cid op f = s := by
  unfold zoneStart
  split
  · rfl
  · exact start_none h _

theorem zoneAppend_none (h : startable s cid op = none) : zoneAppend s cid op = s := by
  unfold zoneAppend
  simp [h]

theorem rebuildPause_none (h : startable s cid 0x1A = none) (p : Bool) : rebuildPause s cid p = s := by
  unfold rebuildPause
  rw [h]

theorem rcStart_none (h : startable s cid 0x29 = none) (action : Nat) (f : State → Cmd → State) :
    rcStart s cid action f = s := by
  unfold rcStart
  rw [h]

end

/-- Settles O13: `fenceFree_iff` is the order of FENCE; a command that may not start stays as it is since each of its rows is
one of `start`, `zoneStart`, `zoneAppend`, `rebuildPause` and `rcStart`. -/
theorem commandsStartInFenceOrder : Obligations.CommandsStartInFenceOrder := by
  unfold Obligations.CommandsStartInFenceOrder
  intro s c op hc
  refine ⟨?starts, ?pumped, ?plain⟩
  case starts => rw [startable_iff hc, fenceFree_iff]; rfl
  case pumped =>
    have by_start {op : Nat} (f : State → Cmd → State) (h : startable s c.cid op = none) :
        ok (pump (start s c.cid op f)) = .next (pump s) := congrArg (fun t => ok (pump t)) (start_none h f)
    have by_zone {op : Nat} (f : State → Cmd → State) (h : startable s c.cid op = none) :
        ok (pump (zoneStart s c.cid op f)) = .next (pump s) := congrArg (fun t => ok (pump t)) (zoneStart_none h f)
    have by_append {op : Nat} (h : startable s c.cid op = none) :
        ok (pump (zoneAppend s c.cid op)) = .next (pump s) := congrArg (fun t => ok (pump t)) (zoneAppend_none h)
    have by_pause (p : Bool) (h : startable s c.cid 0x1A = none) :
        ok (pump (rebuildPause s c.cid p)) = .next (pump s) := congrArg (fun t => ok (pump t)) (rebuildPause_none h p)
    simp only [List.forall_mem_cons]
    exact ⟨by_append, by_append, by_zone _, by_zone _, by_zone _, by_zone _, by_zone _, by_zone _, by_zone _, by_start _,
      by_start _, by_start _, by_start _, by_start _, by_pause _, by_pause _, by_start _, by_zone _, by_start _, by_start _,
      by_start _, by_start _, by_start _, by_start _, by_start _, by_start _, by_start _, by_start _, List.forall_mem_nil _⟩
  case plain =>
    have by_start {op : Nat} (f : State → Cmd → State) (h : startable s c.cid op = none) :
        ok (start s c.cid op f) = .next s := congrArg ok (start_none h f)
    have by_rc (action : Nat) (f : State → Cmd → State) (h : startable s c.cid 0x29 = none) :
        ok (rcStart s c.cid action f) = .next s := congrArg ok (rcStart_none h action f)
    simp only [List.forall_mem_cons]
    exact ⟨by_start _, by_rc _ _, by_rc _ _, by_rc _ _, by_rc _ _, by_start _, by_start _, by_start _, by_start _,
      List.forall_mem_nil _⟩

end Sys2Proof.Machine
end

