-- ==== Sys2Proof/Proofs/Doorbells.lean ====
section
/-! Doorbells (R44 to R48, R53): what is latched or counted, what the home scheduler takes of it, and what a ring fault leaves. -/

namespace Sys2Proof.Machine

/-- An event leaves every register. -/
@[simp] theorem rd_raise (s : State) (src a : Nat) : rd (raise s src) a = rd s a := by simp [rd]

/-! ### Bits of a ring's context -/

/-- A bit of CTRL is a bit of the context. -/
theorem ctrl_bit (s : State) (r : Nat) {k : Nat} (hk : k < 8) :
    bit (cget s r 0x19 1) k = (tget s.ctx r 0).getLsbD (0xC8 + k) := by
  rw [bit, cget_testBit _ _ _ _ _ (by decide)]
  simp [hk]

/-- A bit of a context after a bit of CTRL has been given a value. -/
theorem ctx_setCtrl (s : State) (r v i : Nat) {k : Nat} (hk : k < 8) :
    (tget (setCtrl s r k v).ctx r 0).getLsbD i = if i = 0xC8 + k then v.testBit 0 else (tget s.ctx r 0).getLsbD i := by
  unfold setCtrl
  rw [ctx_cset _ _ _ _ _ _ (by decide) (by decide), putBits_testBit _ _ _ _ _ (Nat.le_refl k), cget_testBit _ _ _ _ _ (by decide)]
  by_cases hbyte : 8 * 0x19 ≤ i ∧ i < 8 * (0x19 + 1)
  · rw [if_pos hbyte]
    by_cases hi : i = 0xC8 + k
    · rw [if_pos (by omega), if_pos hi, hi]
      simp
    · rw [if_neg (by omega), if_neg hi]
      simp [show i - 8 * 0x19 < 8 * 1 by omega, show 8 * 0x19 + (i - 8 * 0x19) = i by omega]
  · rw [if_neg hbyte, if_neg (by omega)]

section
variable {s : State} {r : Nat}

/-! ### A ring fault (R53) -/

theorem ringFault_ctx (s : State) (r cause : Nat) : (ringFault s r cause).ctx = (cset (setCtrl s r 3 1) r 0x1A 1 cause).ctx := by
  unfold ringFault
  simp

theorem ringFault_faulted (s : State) (r cause : Nat) : ringFaulted (ringFault s r cause) r = true := by
  unfold ringFaulted
  rw [ctrl_bit _ _ (by decide), ringFault_ctx, ctx_cset _ _ _ _ _ _ (by decide) (by decide), if_neg (by decide),
    ctx_setCtrl _ _ _ _ (by decide), if_pos rfl]
  rfl

theorem ringFault_cause (s : State) (r : Nat) {cause : Nat} (h : cause < 256) : cget (ringFault s r cause) r 0x1A 1 = cause := by
  unfold cget
  rw [ringFault_ctx]
  exact (cget_cset_same _ _ _ _ _ (by decide) (by decide)).trans (Nat.mod_eq_of_lt h)

/-- A fault leaves every bit of the ring's context but FAULT and FAULT_CAUSE. -/
theorem ringFault_ctx_bit (s : State) (r cause : Nat) {b : Nat} (hf : b ≠ 0x19 * 8 + 3)
    (hc : ¬(0x1A * 8 ≤ b ∧ b < 0x1B * 8)) :
    (tget (ringFault s r cause).ctx r 0).getLsbD b = (tget s.ctx r 0).getLsbD b := by
  rw [ringFault_ctx, ctx_cset _ _ _ _ _ _ (by decide) (by decide), if_neg (by omega), ctx_setCtrl _ _ _ _ (by decide),
    if_neg (by omega)]

theorem ringFault_named (s : State) (r cause : Nat) :
    rd (ringFault s r cause) regGlbRingFault = (2 ^ 31 + cause * 2 ^ 16 + r) % 2 ^ 32 := by
  unfold ringFault
  rw [rd_raise, rd_bump_ne _ (by decide), rd_wr_same]

theorem ringFault_counted (s : State) (r cause : Nat) :
    rdf (ringFault s r cause) regGlbRingFaultCount 7 0 = min 255 (rdf s regGlbRingFaultCount 7 0 + 1) := by
  have hkept : rd (wr (cset (setCtrl s r 3 1) r 0x1A 1 cause) regGlbRingFault (2 ^ 31 + cause * 2 ^ 16 + r))
      regGlbRingFaultCount = rd s regGlbRingFaultCount := rd_wr_ne _ (by decide)
  unfold ringFault
  rw [rdf, rd_raise, ← rdf, rdf_bump _ _ _ _ _ (by decide) (by decide), rdf, hkept]
  rfl

/-- A faulted ring fetches nothing (R53). -/
theorem mayFetch_faulted (h : ringFaulted s r = true) (q : Nat) : mayFetch s q r = false := by simp [mayFetch, h]

/-! ### Doorbells that are latched or discarded -/

theorem cpWrite_free (h : PortFree s) (f : State → State) : cpWrite s f = f { s with cpResp := 0 } := by
  obtain ⟨hdead, hwait⟩ := h
  simp [cpWrite, hdead, hwait]

/-- Without a transition of the power state, each of its bits reads 0. -/
theorem transition_bit (ht : rdf s regPwrState 31 28 = 0) {i : Nat} (hi : i < 4) : bit (rd s regPwrState) (28 + i) = false := by
  have h := bits_testBit (rd s regPwrState) 31 28 i
  rw [show bits (rd s regPwrState) 31 28 = 0 from ht] at h
  simpa [hi, bit] using h.symm

/-- In RUN and TRIM, outside the transitions, a doorbell does nothing to the power state. -/
theorem powerDoorbell_awake (hp : rdf s regPwrState 1 0 ≤ 1) (ht : rdf s regPwrState 31 28 = 0) : powerDoorbell s = s := by
  have hpatrol : pwrPatrol s = false := transition_bit ht (i := 0) (by decide)
  have hentering : pwrEntering s = false := transition_bit ht (i := 2) (by decide)
  have hcommit : pwrCommit s = false := transition_bit ht (i := 3) (by decide)
  have hawake : ¬2 ≤ pwrState s := by
    unfold pwrState
    omega
  simp [powerDoorbell, hpatrol, hentering, hcommit, hawake]

/-- The ring with a CMD_TAIL latched (R45, R46). -/
def tailLatched (s : State) (r v : Nat) : State :=
  modRing s r fun x => { x with latTail := some v, latTick := if x.latTail.isSome then x.latTick else s.tick }

theorem tailDoorbell_latched (he : ringEnabled s r = true) (hp : rdf s regPwrState 1 0 ≤ 1) (ht : rdf s regPwrState 31 28 = 0)
    (v : Nat) : tailDoorbell s r v = tailLatched s r v := by
  unfold tailDoorbell
  rw [if_pos he]
  exact powerDoorbell_awake (s := tailLatched s r v) hp ht

theorem headDoorbell_latched (he : ringEnabled s r = true) (ht : rdf s regPwrState 31 28 = 0) (v : Nat) :
    headDoorbell s r v = modRing s r fun x => { x with latHead := some v } := by
  have hcommit : ¬pwrCommit (modRing s r fun x => { x with latHead := some v }) = true := by
    simpa [pwrCommit, modRing, rd] using transition_bit ht (i := 3) (by decide)
  unfold headDoorbell
  rw [if_pos he]
  exact if_neg hcommit

theorem doorbellDiscard_counted (s : State) :
    rdf (doorbellDiscard s) regGlbDbDiscardCount 15 0 = min 65535 (rdf s regGlbDbDiscardCount 15 0 + 1) :=
  rdf_bump s _ 15 0 1 (by decide) (by decide)

/-! ### Latched values that the home scheduler takes -/

/-- The ring's context with a latched CMD_TAIL taken. -/
def tailTaken (s : State) (r v : Nat) : State := cset (modRing s r fun x => { x with latTail := none }) r 0x12 2 v

/-- A CMD_TAIL below the ring's size is taken; the deadline bases of the pending slots follow (R46, R47). -/
theorem consumeTail_taken {v : Nat} (hl : (ringRt s r).latTail = some v) (hv : v < cmdSize s r) :
    ∃ (n : Nat) (g : List Nat → List Nat),
      consumeTail s r = modRing { tailTaken s r v with free := n } r fun x => { x with bases := g x.bases } := by
  have hsize : ¬cmdSize (modRing s r fun x => { x with latTail := none }) r ≤ v := by
    simpa [cmdSize, cget] using hv
  unfold consumeTail
  simp only [hl]
  rw [if_neg hsize]
  split
  · exact ⟨s.free, fun b => b ++ _, rfl⟩
  · exact ⟨s.free + 1, fun _ => _, rfl⟩

theorem consumeTail_faults {v : Nat} (hl : (ringRt s r).latTail = some v) (hv : ¬v < cmdSize s r) :
    consumeTail s r = ringFault (modRing s r fun x => { x with latTail := none }) r 1 := by
  unfold consumeTail
  simp only [hl]
  exact if_pos (by simpa [cmdSize, cget] using hv)

theorem headInRange_iff (s : State) (r v : Nat) : headInRange s r v = true ↔ v < cplSize s r ∧
    (v + cplSize s r - cget s r 0x16 2) % cplSize s r ≤ (cget s r 0x14 2 + cplSize s r - cget s r 0x16 2) % cplSize s r := by
  simp [headInRange]

theorem consumeHead_eq {v : Nat} (hl : (ringRt s r).latHead = some v) :
    consumeHead s r =
      if headInRange s r v then cset (modRing s r fun x => { x with latHead := none }) r 0x16 2 v
      else ringFault (modRing s r fun x => { x with latHead := none }) r 1 := by
  unfold consumeHead
  simp only [hl]
  rfl

theorem doorbellConsume_runs (he : ringEnabled s r = true) (hq : qscRuns s (homeOf s r) = true) (kind : Bool) :
    doorbellConsume s r kind = if kind then consumeHead s r else consumeTail s r := by
  simp [doorbellConsume, he, hq]

end

/-- Settles O16: a doorbell leaves `tailLatched`, its CPL_HEAD counterpart, or `doorbellDiscard`; the home scheduler takes what
`consumeTail_taken` and `headInRange_iff` allow, and else the ring faults as the lemmas on `ringFault` say. -/
theorem doorbellsAreLatchedAndConsumed : Obligations.DoorbellsAreLatchedAndConsumed := by
  unfold Obligations.DoorbellsAreLatchedAndConsumed
  refine ⟨fun s r v hfree => ⟨fun he hp ht => ⟨?tail, ?head⟩, fun he => ?discarded⟩, fun s r v he hq => ?consumed⟩
  case tail =>
    refine ⟨tailLatched s r v.toNat, congrArg ok ?_, onlyRing_setRings _ (onlyRing_refl s r), rfl, ringRt_modRing_same ..⟩
    rw [cpWrite_free hfree, tailDoorbell_latched (s := { s with cpResp := 0 }) he hp ht]
    rfl
  case head =>
    refine ⟨modRing s r fun x => { x with latHead := some v.toNat }, congrArg ok ?_,
      onlyRing_setRings _ (onlyRing_refl s r), rfl, ringRt_modRing_same ..⟩
    rw [cpWrite_free hfree, headDoorbell_latched (s := { s with cpResp := 0 }) he ht]
    rfl
  case discarded =>
    have hoff : ringEnabled { s with cpResp := 0 } r = false := he
    have counted : doorbellDiscard { s with cpResp := 0 } =
        { s with regs := (doorbellDiscard { s with cpResp := 0 }).regs, cpResp := 0 } ∧
        rdf (doorbellDiscard { s with cpResp := 0 }) regGlbDbDiscardCount 15 0 =
          min 65535 (rdf s regGlbDbDiscardCount 15 0 + 1) ∧
        ∀ a, a ≠ regGlbDbDiscardCount → rd (doorbellDiscard { s with cpResp := 0 }) a = rd s a :=
      ⟨rfl, doorbellDiscard_counted _, fun a ha => rd_bump_ne _ ha⟩
    simp only [List.forall_mem_cons]
    refine ⟨⟨_, congrArg ok ?_, counted⟩, ⟨_, congrArg ok ?_, counted⟩, List.forall_mem_nil _⟩
    · rw [cpWrite_free hfree, tailDoorbell, if_neg (by simp [hoff])]
    · rw [cpWrite_free hfree, headDoorbell, if_neg (by simp [hoff])]
  case consumed =>
    intro faulted
    have named : (2 ^ 31 + 1 * 2 ^ 16 + r.val) % 2 ^ 32 = 2 ^ 31 + 2 ^ 16 + r.val := by
      have hr := r.isLt
      omega
    have faults (f : RingRt → RingRt) : faulted (modRing s r f) (ringFault (modRing s r f) r 1) :=
      ⟨rfl, ringFault_faulted .., ringFault_cause _ _ (by decide), (ringFault_named ..).trans named, ringFault_counted ..,
        mayFetch_faulted (ringFault_faulted ..), fun b _ hf hc => ringFault_ctx_bit _ _ _ hf hc⟩
    refine ⟨fun hl => ?tail, fun hl => ?head⟩
    case tail =>
      have hexec : exec (.doorbellConsume r false) s = ok (consumeTail s r) := congrArg ok (doorbellConsume_runs he hq false)
      dsimp only
      split
      · next hv =>
        obtain ⟨n, g, e⟩ := consumeTail_taken hl hv
        refine ⟨_, hexec, ?_⟩
        rw [e]
        refine ⟨cget_cset_same _ _ _ _ _ (by decide) (by decide), rfl, ?_, fun o n hn ho h64 => ?_⟩
        · simp [ringRt, modRing, tailTaken]
        · exact cget_cset_ne _ _ _ _ _ _ _ (by decide) (by decide) hn ho
      · next hv => exact ⟨_, hexec.trans (congrArg ok (consumeTail_faults hl hv)), faults _⟩
    case head =>
      have hexec : exec (.doorbellConsume r true) s = ok (consumeHead s r) := congrArg ok (doorbellConsume_runs he hq true)
      rw [hexec, consumeHead_eq hl]
      dsimp only
      split
      · next hv =>
        rw [if_pos ((headInRange_iff ..).2 hv)]
        exact ⟨rfl, cget_cset_same _ _ _ _ _ (by decide) (by decide)⟩
      · next hv =>
        rw [if_neg fun h => hv ((headInRange_iff ..).1 h)]
        exact ⟨_, rfl, faults _⟩

end Sys2Proof.Machine
end

