-- ==== Sys2Proof/Proofs/Packets.lean ====
section
/-! The fields of packets and images, bit by bit (R5), and a packet command that may start. -/

namespace Sys2Proof.Machine

/-! ### Little-endian fields -/

theorem leNat_testBit (l : List Byte) (i : Nat) : (leNat l).testBit i = (l.getD (i / 8) 0).getLsbD (i % 8) := by
  induction l generalizing i with
  | nil => simp [leNat]
  | cons b r ih =>
    rw [leNat, Nat.add_comm, show (256 : Nat) = 2 ^ 8 from rfl, Nat.testBit_two_pow_mul_add _ b.isLt]
    split
    · next h =>
      rw [Nat.div_eq_of_lt h, Nat.mod_eq_of_lt h]
      rfl
    · next h =>
      rw [ih, show i / 8 = (i - 8) / 8 + 1 by omega, show (i - 8) % 8 = i % 8 by omega]
      rfl

/-- A byte of a slice: past the list's end it reads 0. -/
theorem slice_getD (l : List Byte) (o n j : Nat) : (slice l o n).getD j 0 = if j < n then l.getD (o + j) 0 else 0 := by
  simp only [slice, List.getD_eq_getElem?_getD, List.getElem?_append, List.getElem?_take, List.getElem?_drop,
    List.getElem?_replicate, List.length_take, List.length_drop]
  grind

theorem fieldAt_testBit (l : List Byte) (o n i : Nat) :
    (fieldAt l o n).testBit i = (decide (i < 8 * n) && (l.getD (o + i / 8) 0).getLsbD (i % 8)) := by
  rw [fieldAt, leNat_testBit, slice_getD]
  by_cases h : i < 8 * n
  · rw [if_pos (by omega)]
    simp [h]
  · rw [if_neg (by omega)]
    simp [h]

/-- The low bytes of a field. -/
theorem fieldAt_mod (l : List Byte) (o : Nat) {m n : Nat} (h : m ≤ n) : fieldAt l o n % 2 ^ (8 * m) = fieldAt l o m := by
  apply Nat.eq_of_testBit_eq
  intro i
  rw [Nat.testBit_mod_two_pow, fieldAt_testBit, fieldAt_testBit]
  by_cases hi : i < 8 * m
  · simp [hi, show i < 8 * n by omega]
  · simp [hi]

/-! ### A command that may start -/

section
variable {s : State} {cid op : Nat} {c : Cmd}

theorem startable_cmd? (h : startable s cid op = some c) : cmd? s cid = some c := by
  unfold startable at h
  split at h
  · next d hd =>
    split at h
    · rw [hd, h]
    · cases h
  · cases h

theorem cid_of_cmd? (h : cmd? s cid = some c) : c.cid = cid := by
  simpa using List.find?_some h

theorem startable_cid (h : startable s cid op = some c) : c.cid = cid := cid_of_cmd? (startable_cmd? h)

theorem startable_opc (h : startable s cid op = some c) : opc c = op := by
  have hc := startable_cmd? h
  exact ((startable_iff (cid := cid) hc).1 h).1

/-- A command that starts runs in `running`. -/
theorem start_runs (h : startable s cid op = some c) (f : State → Cmd → State) : start s cid op f = f (running s cid) c :=
  start_some h f

/-! ### A zone command that may start -/

/-- Only appends, writes, opens, closes, finishes and resets wait at the boundary of a reshape (R339). -/
theorem boundaryHolds_other (hop : op ∉ [1, 2, 4, 5, 6, 7]) : boundaryHolds s cid op = false := by
  unfold boundaryHolds
  rw [Bool.and_eq_false_imp]
  intro h
  exact absurd (List.contains_iff_mem.1 h) hop

section
variable (h : startable s cid op = some c) (hb : boundaryHolds s cid op = false)
include h hb

/-- A zone command whose checks refuse it ends with their result (R68). -/
theorem zoneStart_refused {r : Result} (hz : zoneCheck (running s cid) c = some r) (f : State → Cmd → State) :
    zoneStart s cid op f = finish (running s cid) cid r := by
  unfold zoneStart
  rw [if_neg (ne_true_of_eq_false hb), start_runs h, hz]

theorem zoneStart_runs (hz : zoneCheck (running s cid) c = none) (f : State → Cmd → State) :
    zoneStart s cid op f = f (running s cid) c := by
  unfold zoneStart
  rw [if_neg (ne_true_of_eq_false hb), start_runs h, hz]

end

@[simp] theorem running_ctx : (running s cid).ctx = s.ctx := rfl
@[simp] theorem running_dram : (running s cid).dram = s.dram := rfl
@[simp] theorem running_regs : (running s cid).regs = s.regs := rfl
@[simp] theorem running_jrn : (running s cid).jrn = s.jrn := rfl
@[simp] theorem zone_running (zid : Nat) : zone (running s cid) zid = zone s zid := rfl

end

end Sys2Proof.Machine
end

