-- ==== Sys2Proof/Proofs/RingContexts.lean ====
section
/-! Ring contexts (R49 to R51, R65): writes through the control port, and the four actions of RING_CONFIGURE. -/

namespace Sys2Proof.Machine

section
variable {s : State} {r : Nat}

/-! ### The fields of a ring that is enabled or disabled -/

theorem ringEnabled_bit (s : State) (r : Nat) : ringEnabled s r = (tget s.ctx r 0).getLsbD 0xC8 := ctrl_bit s r (by decide)

theorem setCtrl_disabled (s : State) (r : Nat) : ringEnabled (setCtrl s r 0 0) r = false := by
  rw [ringEnabled_bit, ctx_setCtrl _ _ _ _ (by decide), if_pos rfl]
  rfl

theorem inflight_setCtrl (s : State) (r b v : Nat) : inflight (setCtrl s r b v) r = inflight s r :=
  cget_cset_ne _ _ _ _ _ _ _ (by decide) (by decide) (by decide) (by decide)

theorem onlyRing_setCtrl {t : State} (b v : Nat) (h : OnlyRing s t r) : OnlyRing s (setCtrl t r b v) r := onlyRing_cset _ _ _ h

/-- A ring that is not enabled fetches nothing. -/
theorem mayFetch_disabled (h : ringEnabled s r = false) (q : Nat) : mayFetch s q r = false := by simp [mayFetch, h]

/-- The context of a ring that is being enabled, before FAULT_CAUSE is cleared (R50). -/
theorem ringEnable_ctx (s : State) (r : Nat) : (ringEnable s r).ctx = (cset (cset (cset (cset (cset (cset (cset s r 0x10 2 0)
    r 0x12 2 0) r 0x14 2 0) r 0x16 2 0) r 0x38 2 0) r 0x19 1 0b101) r 0x1A 1 0).ctx := rfl

/-- A bit of the context of a ring that has been enabled (R50). -/
theorem ctx_ringEnable (s : State) (r i : Nat) : (tget (ringEnable s r).ctx r 0).getLsbD i =
    if 8 * 0x1A ≤ i ∧ i < 8 * 0x1B then false
    else if 8 * 0x19 ≤ i ∧ i < 8 * 0x1A then (0b101 : Nat).testBit (i - 8 * 0x19)
    else if 8 * 0x10 ≤ i ∧ i < 8 * 0x18 ∨ 8 * 0x38 ≤ i ∧ i < 8 * 0x3A then false
    else (tget s.ctx r 0).getLsbD i := by
  rw [ringEnable_ctx]
  simp (disch := decide) only [ctx_cset, Nat.zero_testBit]
  grind

/-- A field of a context by its bits. -/
theorem cget_of_bits {o n v : Nat} (hn : 0 < n) (h : ∀ i < 8 * n, (tget s.ctx r 0).getLsbD (8 * o + i) = v.testBit i) :
    cget s r o n = v % 2 ^ (8 * n) := by
  apply Nat.eq_of_testBit_eq
  intro i
  rw [cget_testBit _ _ _ _ _ hn, Nat.testBit_mod_two_pow]
  by_cases hi : i < 8 * n
  · rw [h i hi]
  · rw [decide_eq_false hi, Bool.false_and, Bool.false_and]

/-- A field that enabling a ring clears. -/
theorem cget_ringEnable_zero (s : State) (r : Nat) {o n : Nat} (hn : 0 < n)
    (h : 0x10 ≤ o ∧ o + n ≤ 0x18 ∨ 0x38 ≤ o ∧ o + n ≤ 0x3A ∨ o = 0x1A ∧ n = 1) :
    cget (ringEnable s r) r o n = 0 := by
  refine (cget_of_bits (v := 0) hn fun i hi => ?_).trans (Nat.zero_mod _)
  rw [ctx_ringEnable, Nat.zero_testBit]
  by_cases hcause : 8 * 0x1A ≤ 8 * o + i ∧ 8 * o + i < 8 * 0x1B
  · rw [if_pos hcause]
  · rw [if_neg hcause, if_neg (by omega), if_pos (by omega)]

theorem cget_ringEnable_size (s : State) (r : Nat) : cget (ringEnable s r) r 0x18 1 = cget s r 0x18 1 := by
  refine (cget_of_bits (v := cget s r 0x18 1) (by decide) fun i hi => ?_).trans (Nat.mod_eq_of_lt (bits_lt ..))
  rw [ctx_ringEnable, if_neg (by omega), if_neg (by omega), if_neg (by omega), cget_testBit _ _ _ _ _ (by decide),
    decide_eq_true hi, Bool.true_and]

theorem ringEnable_enabled (s : State) (r : Nat) : ringEnabled (ringEnable s r) r = true := by
  rw [ringEnabled_bit, ctx_ringEnable]
  rfl

theorem ringEnable_phase (s : State) (r : Nat) : ringPhase (ringEnable s r) r = 1 := by
  unfold ringPhase
  rw [ctrl_bit _ _ (by decide), ctx_ringEnable]
  rfl

theorem ringEnable_notFaulted (s : State) (r : Nat) : ringFaulted (ringEnable s r) r = false := by
  unfold ringFaulted
  rw [ctrl_bit _ _ (by decide), ctx_ringEnable]
  rfl

theorem ringEnable_rt (s : State) (r : Nat) : ringRt (ringEnable s r) r = {} := tget_tset_same ..

/-! ### Writes through the control port -/

/-- A context write that the port takes acts at once. -/
theorem exec_ringContextWrite {addr : Nat} (ha : addr < 2 ^ 22) (h : PortFree s) (hd : domOn s 93 = true) (v : Word) :
    exec (.ringContextWrite addr v 15) s = ok (ctxWrite { s with cpResp := 0 } (addr / 64) (addr % 64 / 4) v.toNat) := by
  have hdom : regDoms (0x400000 + addr % 2 ^ 22) = [93] := by
    unfold regDoms
    simp only [show ¬0x400000 + addr % 2 ^ 22 < 0x30000 by omega, show ¬0x400000 + addr % 2 ^ 22 < 0x40000 by omega,
      show ¬0x400000 + addr % 2 ^ 22 < 0x80000 by omega, show 0x200000 ≤ 0x400000 + addr % 2 ^ 22 by omega, if_true, if_false]
  change ok (cpPut s _ 15 v.toNat 0 _) = _
  rw [cpPut_ok _ _ _ _ (portTakes_on h hdom hd), Nat.mod_eq_of_lt ha]

/-- Word `w` of a context with the writable bits of `v`. -/
def wordPut (s : State) (r w v : Nat) : State :=
  ctxPut s r w ((v &&& ctxMask w) ||| (bits (tget s.ctx r 0).toNat (32 * w + 31) (32 * w) &&& (0xFFFFFFFF ^^^ ctxMask w)))

theorem ctx_wordPut (s : State) (r v b : Nat) {w : Nat} (hw : w < 16) : (tget (wordPut s r w v).ctx r 0).getLsbD b =
    if b / 32 = w ∧ bit (ctxMask w) (b % 32) = true then v.testBit (b % 32) else (tget s.ctx r 0).getLsbD b :=
  ctx_cset_masked s r w _ v b hw _ rfl

theorem onlyRing_wordPut (s : State) (r w v : Nat) : OnlyRing s (wordPut s r w v) r := onlyRing_cset _ _ _ (onlyRing_refl s r)

/-- SIZE is the low byte of the word at 0x18. -/
theorem wordPut_size (s : State) (r v : Nat) : cget (wordPut s r 6 v) r 0x18 1 = v % 256 := by
  refine cget_of_bits (by decide) fun i hi => ?_
  have hmask : ∀ i < 8, bit (ctxMask 6) i = true := by decide
  have hmod : (8 * 0x18 + i) % 32 = i := by omega
  rw [ctx_wordPut _ _ _ _ (by decide), hmod, if_pos ⟨by omega, hmask i hi⟩]

/-- A write to a disabled ring that leaves ENABLE at 0 takes the writable bits (R49). -/
theorem ctxWrite_takes {w v : Nat} (hoff : ringEnabled s r = false) (hv : w ≠ 6 ∨ bit v 8 = false) :
    ctxWrite s r w v = wordPut s r w v := by
  unfold ctxWrite
  rw [if_neg (by simp [hoff])]
  exact if_neg (by rcases hv with h | h <;> simp [h])

/-- A write that sets ENABLE of a disabled ring (R50, R51). -/
theorem ctxWrite_enables {v : Nat} (hoff : ringEnabled s r = false) (hv : bit v 8 = true) (hsize : badSize (v % 256) = false) :
    ctxWrite s r 6 v = ringEnable (wordPut s r 6 v) r := by
  have hgood : badSize (cget (ringEnable (wordPut s r 6 v) r) r 0x18 1) = false := by
    rw [cget_ringEnable_size, wordPut_size, hsize]
  unfold ctxWrite
  rw [if_neg (by simp [hoff])]
  refine (if_pos (by simp [hv])).trans (if_neg ?_)
  exact ne_true_of_eq_false hgood

/-- A write that clears ENABLE (R49). -/
theorem ctxWrite_disables {v : Nat} (hon : ringEnabled s r = true) (hd : (ringRt s r).draining = false) (hv : bit v 8 = false) :
    ctxWrite s r 6 v =
      if inflight s r = 0 then setCtrl s r 0 0 else modRing s r fun x => { x with draining := true } := by
  unfold ctxWrite
  rw [if_pos hon, if_neg (by simp [hd]), if_pos (by simp [hv])]

/-- Any other write to an enabled ring is an error (R49). -/
theorem ctxWrite_refused {w v : Nat} (hon : ringEnabled s r = true)
    (h : (ringRt s r).draining = true ∨ w ≠ 6 ∨ bit v 8 = true) : ctxWrite s r w v = cpErr s := by
  unfold ctxWrite
  rw [if_pos hon]
  rcases h with h | h | h <;> simp [h]

/-! ### The image of a RING_CONFIGURE -/

/-- One word of the image taken into a context. -/
def imageWord (r action : Nat) (img : List Byte) (s : State) (w : Nat) : State :=
  cset s r (4 * w) 4 ((fieldAt img (4 * w) 4 &&& rcMask action w) ||| (cget s r (4 * w) 4 &&& (0xFFFFFFFF ^^^ rcMask action w)))

theorem ctx_imageWord (s : State) (r action b : Nat) (img : List Byte) {w : Nat} (hw : w < 16) :
    (tget (imageWord r action img s w).ctx r 0).getLsbD b =
      if b / 32 = w ∧ bit (rcMask action w) (b % 32) = true then (img.getD (b / 8) 0).getLsbD (b % 8)
      else (tget s.ctx r 0).getLsbD b := by
  have hword : cget s r (4 * w) 4 = bits (tget s.ctx r 0).toNat (32 * w + 31) (32 * w) := by
    unfold cget
    congr 1 <;> omega
  unfold imageWord
  rw [ctx_cset_masked s r w _ _ b hw _ hword]
  refine ite_congr rfl (fun h => ?_) fun _ => rfl
  rw [fieldAt_testBit, show 4 * w + b % 32 / 8 = b / 8 by omega, show b % 32 % 8 = b % 8 by omega]
  simp [show b % 32 < 8 * 4 by omega]

theorem onlyRing_imageWord {t : State} (action : Nat) (img : List Byte) (w : Nat) (h : OnlyRing s t r) :
    OnlyRing s (imageWord r action img t w) r := onlyRing_cset _ _ _ h

theorem ctx_imageWords (s : State) (r action b : Nat) (img : List Byte) (l : List Nat) (hl : ∀ w ∈ l, w < 16) :
    (tget (l.foldl (imageWord r action img) s).ctx r 0).getLsbD b =
      if b / 32 ∈ l ∧ bit (rcMask action (b / 32)) (b % 32) = true then (img.getD (b / 8) 0).getLsbD (b % 8)
      else (tget s.ctx r 0).getLsbD b := by
  induction l generalizing s with
  | nil => simp
  | cons w l ih =>
    rw [List.foldl_cons, ih _ fun x hx => hl x (List.mem_cons_of_mem _ hx), ctx_imageWord _ _ _ _ _ (hl w List.mem_cons_self)]
    by_cases e : b / 32 = w
    · subst e
      grind
    · simp only [List.mem_cons, e, false_or, false_and, if_false]

/-- The fields of a context that an action takes, by first bit and count, and its masks agree. -/
def MaskIs (action : Nat) (fields : List (Nat × Nat)) : Prop :=
  ∀ b < 512, bit (rcMask action (b / 32)) (b % 32) = fields.any fun f => decide (f.1 ≤ b) && decide (b < f.1 + f.2)

theorem rcPut_takes {action : Nat} {fields : List (Nat × Nat)} (h : MaskIs action fields) (s : State) (r : Nat)
    (img : List Byte) : CtxTakes s (rcPut s r action img) r fields img := by
  intro b hb
  have hmem : b / 32 ∈ List.range 16 := List.mem_range.2 (by omega)
  refine (ctx_imageWords s r action b img (List.range 16) fun _ => List.mem_range.1).trans (if_congr ?_ rfl rfl)
  rw [h b hb, and_iff_right hmem]

theorem onlyRing_rcPut (s : State) (r action : Nat) (img : List Byte) : OnlyRing s (rcPut s r action img) r :=
  List.foldlRecOn (motive := fun t => OnlyRing s t r) (List.range 16) (imageWord r action img) (onlyRing_refl s r)
    fun _ h w _ => onlyRing_imageWord action img w h

/-- Action 0 takes all but the fields that only the block writes. -/
theorem mask_write : MaskIs 0 [(12, 52), (76, 52), (0x18 * 8, 8), (0x1B * 8, 3), (0x1C * 8, 12), (0x1E * 8, 16), (0x20 * 8, 10),
    (0x22 * 8, 2), (0x23 * 8, 8), (0x24 * 8, 32), (0x28 * 8, 128)] := by
  unfold MaskIs
  decide +kernel

/-- Action 3 takes LAT_CLASS, TARGET_US, EVT, COAL_COUNT, COAL_TICKS and OPC_MASK. -/
theorem mask_update : MaskIs 3 [(0x1B * 8, 3), (0x1E * 8, 16), (0x20 * 8, 10), (0x23 * 8, 8), (0x24 * 8, 32),
    (0x28 * 8, 128)] := by
  unfold MaskIs
  decide +kernel

end

/-! ### RING_CONFIGURE -/

section
variable {s : State} {cid : Nat} {c : Cmd}

theorem rcRing_eq (c : Cmd) : rcRing c = fieldAt c.pkt 0x28 2 := fieldAt_mod c.pkt 0x28 (m := 2) (by decide)

theorem rcStart_runs (h : startable s cid 0x29 = some c) {action : Nat} (ha : bits (cP0 c) 17 16 = action)
    (f : State → Cmd → State) : rcStart s cid action f = pump (f (running s cid) c) := by
  unfold rcStart
  rw [h]
  exact (if_pos ha).trans (congrArg pump (start_runs h f))

theorem rcGo_refused {o : Nat} (h : rcField s c = some o) (f : State → Cmd → State) :
    rcGo f s c = finish s c.cid (badField o) := by
  unfold rcGo
  rw [h]

theorem rcGo_legal (h : rcField s c = none) (f : State → Cmd → State) : rcGo f s c = f s c := by
  unfold rcGo
  rw [h]

theorem rcField_write (ha : bits (cP0 c) 17 16 = 0) : rcField s c =
    if badSize (fieldAt (dramRead s (cPtr c) 64) 0x18 1) || !(evtOk (dramRead s (cPtr c) 64)) then some 0x18 else none := by
  unfold rcField
  rw [ha]
  rfl

theorem rcField_enable (ha : bits (cP0 c) 17 16 = 1) :
    rcField s c = if badSize (cget s (rcRing c) 0x18 1) then some 0x28 else none := by
  unfold rcField
  rw [ha]
  rfl

theorem rcField_update (ha : bits (cP0 c) 17 16 = 3) :
    rcField s c = if evtOk (dramRead s (cPtr c) 64) then none else some 0x18 := by
  unfold rcField
  rw [ha]
  rfl

/-- The ring with ENABLE cleared by action 2. -/
def ringDisabled (s : State) (r : Nat) : State := modRing (setCtrl s r 0 0) r fun x => { x with draining := false }

theorem onlyRing_ringDisabled (s : State) (r : Nat) : OnlyRing s (ringDisabled s r) r :=
  onlyRing_setRings _ (onlyRing_setCtrl 0 0 (onlyRing_refl s r))

theorem rcDisable_eq (s : State) (c : Cmd) : rcDisable s c =
    if inflight s (rcRing c) = 0 then rcDone (ringDisabled s (rcRing c)) c
    else modCmd (ringDisabled s (rcRing c)) c.cid fun c => { c with stage := .waiting } := by
  have h : inflight (ringDisabled s (rcRing c)) (rcRing c) = inflight s (rcRing c) := inflight_setCtrl ..
  rw [← h]
  rfl

end

/-- Settles O17: the writes of the control port are the four cases of `ctxWrite`; RING_CONFIGURE runs as `rcStart_runs` says, its
refusals are those of `rcField`, and the image's bits enter by `rcPut_takes`. -/
theorem ringContextsAreConfigured : Obligations.RingContextsAreConfigured := by
  unfold Obligations.RingContextsAreConfigured
  refine ⟨fun s addr v ha hfree hd => ?port, fun s cid c hs => ?configure⟩
  case port =>
    intro r w x
    have hexec : exec (.ringContextWrite addr v 15) s = ok (ctxWrite x r w v.toNat) := exec_ringContextWrite ha hfree hd v
    have hw : w < 16 := by omega
    refine ⟨fun hoff hv => ?takes, fun hoff h6 hv hsize => ?enables, fun hon hdr h6 hv => ?disables, fun hon h => ?refused⟩
    case takes =>
      refine ⟨_, hexec.trans (congrArg ok (ctxWrite_takes hoff hv)), onlyRing_wordPut x r w _, fun b _ => ?_⟩
      rw [ctx_wordPut _ _ _ _ hw]
      rfl
    case enables =>
      rw [hexec, h6, ctxWrite_enables (s := x) hoff hv hsize]
      exact ⟨_, rfl, onlyRing_enable (onlyRing_wordPut x r 6 _), ringEnable_rt ..,
        cget_ringEnable_zero _ _ (by decide) (by decide), cget_ringEnable_zero _ _ (by decide) (by decide),
        cget_ringEnable_zero _ _ (by decide) (by decide), cget_ringEnable_zero _ _ (by decide) (by decide),
        cget_ringEnable_zero _ _ (by decide) (by decide),
        ringEnable_enabled .., ringEnable_phase .., ringEnable_notFaulted .., cget_ringEnable_zero _ _ (by decide) (by decide),
        (cget_ringEnable_size ..).trans (wordPut_size ..)⟩
    case disables =>
      rw [hexec, h6, ctxWrite_disables (s := x) hon hdr hv]
      by_cases h0 : inflight x r = 0
      · rw [if_pos h0]
        exact ⟨_, rfl, onlyRing_setCtrl 0 0 (onlyRing_refl x r), fun _ => setCtrl_disabled .., fun h => absurd h0 h⟩
      · rw [if_neg h0]
        exact ⟨_, rfl, onlyRing_modRing .., fun h => absurd h h0, fun _ => ⟨rfl, ringRt_modRing_same ..⟩⟩
    case refused =>
      rw [hexec, ctxWrite_refused (s := x) hon h]
      rfl
  case configure =>
    obtain rfl := startable_cid hs
    intro r act img u done
    have hr : rcRing c = r := rcRing_eq c
    have hdone (t : State) : rcDone t c = finish t c.cid (done t) := by
      unfold rcDone
      rw [hr]
    have write (mp : PortEnd) (ha : act = 0) :
        exec (.ringConfigureWrite c.cid mp) s = ok (pump (imageEnd u c 64 mp fun s => rcGo rcWrite s c)) :=
      congrArg ok (rcStart_runs hs ha _)
    have enable (ha : act = 1) : exec (.ringConfigureEnable c.cid) s = ok (pump (rcGo rcEnable u c)) :=
      congrArg ok (rcStart_runs hs ha _)
    have disable (ha : act = 2) : exec (.ringConfigureDisable c.cid) s = ok (pump (rcDisable u c)) :=
      congrArg ok (rcStart_runs hs ha _)
    have update (mp : PortEnd) (ha : act = 3) :
        exec (.ringConfigureUpdate c.cid mp) s = ok (pump (imageEnd u c 64 mp fun s => rcGo rcUpdate s c)) :=
      congrArg ok (rcStart_runs hs ha _)
    have writeField (ha : act = 0) :
        rcField u c = if badSize (fieldAt img 0x18 1) || !(evtOk img) then some 0x18 else none := rcField_write ha
    have enableField (ha : act = 1) : rcField u c = if badSize (cget s r 0x18 1) then some 0x28 else none :=
      hr ▸ rcField_enable ha
    have updateField (ha : act = 3) : rcField u c = if evtOk img then none else some 0x18 := rcField_update ha
    have gaveUp (f : State → State) : EndsOnPort (fun mp => ok (pump (imageEnd u c 64 mp f))) u c 64 := fun mp h => by
      obtain ⟨v, x, e, hport⟩ := imageEnd_gaveUp u c 64 mp f h
      exact ⟨v, x, congrArg (fun t => ok (pump t)) e, hport⟩
    refine ⟨fun ha => ⟨?writePort, fun h => ?writeField, fun h1 h2 hon => ?writeConflict, fun h1 h2 hoff => ?write⟩,
      fun ha => ⟨fun h => ?enableField, fun h1 hon => ?enableConflict, fun hoff h1 => ?enable⟩, fun ha => ?disable,
      fun ha => ⟨?updatePort, fun h => ?updateField, fun h => ?update⟩⟩
    case writePort => simpa only [write _ ha] using gaveUp _
    case writeField =>
      have hbad : rcField u c = some 0x18 := (writeField ha).trans (if_pos (by simpa using h))
      unfold EndsWith
      rw [write _ ha, imageEnd_ok, rcGo_refused hbad]
      rfl
    case writeConflict =>
      have hgood : rcField u c = none := (writeField ha).trans (if_neg (by simpa using ⟨h1, h2⟩))
      unfold EndsWith
      rw [write _ ha, imageEnd_ok, rcGo_legal hgood, rcWrite, hr, if_pos (show ringEnabled u r = true from hon)]
      rfl
    case write =>
      have hgood : rcField u c = none := (writeField ha).trans (if_neg (by simpa using ⟨h1, h2⟩))
      refine ⟨rcPut u r 0 img, ?_, onlyRing_rcPut .., rcPut_takes mask_write u r img⟩
      unfold EndsWith
      rw [write _ ha, imageEnd_ok, rcGo_legal hgood, rcWrite, hr,
        if_neg (show ¬ringEnabled u r = true from ne_true_of_eq_false hoff), hdone]
      rfl
    case enableField =>
      have hbad : rcField u c = some 0x28 := (enableField ha).trans (if_pos h)
      unfold EndsWith
      rw [enable ha, rcGo_refused hbad]
      rfl
    case enableConflict =>
      have hgood : rcField u c = none := (enableField ha).trans (if_neg (ne_true_of_eq_false h1))
      unfold EndsWith
      rw [enable ha, rcGo_legal hgood, rcEnable, hr, if_pos (show ringEnabled u r = true from hon)]
      rfl
    case enable =>
      have hgood : rcField u c = none := (enableField ha).trans (if_neg (ne_true_of_eq_false h1))
      refine ⟨?_, ringEnable_enabled .., cget_ringEnable_zero _ _ (by decide) (by decide),
        onlyRing_enable (onlyRing_refl u r)⟩
      unfold EndsWith
      rw [enable ha, rcGo_legal hgood, rcEnable, hr,
        if_neg (show ¬ringEnabled u r = true from ne_true_of_eq_false hoff), hdone]
      rfl
    case disable =>
      have hoff : ringEnabled (ringDisabled u r) r = false := setCtrl_disabled u r
      refine ⟨ringDisabled u r, onlyRing_ringDisabled u r, hoff, mayFetch_disabled hoff, fun h0 => ?_, fun h0 => ?_⟩
      · unfold EndsWith
        rw [disable ha, rcDisable_eq, hr, if_pos (show inflight u r = 0 from h0), hdone]
        rfl
      · rw [disable ha, rcDisable_eq, hr, if_neg (show ¬inflight u r = 0 from h0)]
        rfl
    case updatePort => simpa only [update _ ha] using gaveUp _
    case updateField =>
      have hbad : rcField u c = some 0x18 := (updateField ha).trans (if_neg (ne_true_of_eq_false h))
      unfold EndsWith
      rw [update _ ha, imageEnd_ok, rcGo_refused hbad]
      rfl
    case update =>
      have hgood : rcField u c = none := (updateField ha).trans (if_pos h)
      refine ⟨rcPut u r 3 img, ?_, onlyRing_rcPut .., rcPut_takes mask_update u r img⟩
      unfold EndsWith
      rw [update _ ha, imageEnd_ok, rcGo_legal hgood, rcUpdate, hr, hdone]
      rfl

end Sys2Proof.Machine
end

