-- ==== Sys2Proof/Proofs/AtOnce.lean ====
section
/-! The commands that end at once: ECHO, TRACE_CONTROL, WP_SET, ZONE_QUERY, GLB_MEAS_EXT and the journal discard (R64, R173,
R440, R503, R607). -/

namespace Sys2Proof.Machine

/-! ### Bits counted -/

theorem popcount_eq (n w : Nat) : popcount n w = ((List.range n).filter fun i => w.testBit i).length := by
  induction n generalizing w with
  | zero => rfl
  | succ n ih =>
    rw [popcount, ih, List.range_succ_eq_map, List.filter_cons, List.filter_map, Function.comp_def]
    simp only [Nat.testBit_succ, Nat.testBit_zero, decide_eq_true_eq]
    split
    · next h => simp [h, Nat.add_comm]
    · next h => simp [show w % 2 = 0 by omega]

/-- The 1 bits of a list of bytes are the numbers of its bits that are set. -/
theorem oneBits_eq (l : List Byte) :
    oneBits l = ((List.range (8 * l.length)).filter fun n => (l.getD (n / 8) 0).getLsbD (n % 8)).length := by
  induction l using List.reverseRecOn with
  | nil => rfl
  | append_singleton l b ih =>
    have hcount : oneBits (l ++ [b]) = oneBits l + popcount 8 b.toNat := by simp [oneBits]
    have hold : ((List.range (8 * l.length)).filter fun n => ((l ++ [b]).getD (n / 8) 0).getLsbD (n % 8)) =
        (List.range (8 * l.length)).filter fun n => (l.getD (n / 8) 0).getLsbD (n % 8) := by
      refine List.filter_congr fun n hn => ?_
      rw [List.mem_range] at hn
      rw [List.getD_append _ _ _ _ (by omega)]
    have hnew : (((List.range 8).map (8 * l.length + ·)).filter fun n => ((l ++ [b]).getD (n / 8) 0).getLsbD (n % 8)).length =
        ((List.range 8).filter fun i => b.toNat.testBit i).length := by
      rw [List.filter_map, List.length_map]
      congr 1
      refine List.filter_congr fun i hi => ?_
      rw [List.mem_range] at hi
      have hbyte : (l ++ [b]).getD ((8 * l.length + i) / 8) 0 = b := by
        rw [show (8 * l.length + i) / 8 = l.length by omega]
        simp
      rw [Function.comp_apply, hbyte, show (8 * l.length + i) % 8 = i by omega]
      rfl
    rw [hcount, ih, popcount_eq, List.length_append, List.length_singleton, Nat.mul_add, List.range_add, List.filter_append,
      List.length_append, hold, hnew]

/-! ### A row of registers written -/

section
variable {s t : State} {as : List Nat}

theorem onlyRegs_wr_mem (h : OnlyRegs s t as) {a : Nat} (ha : a ∈ as) (v : Nat) : OnlyRegs s (wr t a v) as := by
  obtain ⟨hrest, hother⟩ := onlyRegs_wr h a v
  refine ⟨hrest, fun b hb => hother b ?_⟩
  rw [List.mem_cons, not_or]
  exact ⟨fun e => hb (e ▸ ha), hb⟩

theorem onlyRegs_wrAll (f v : Nat → Nat) (n : Nat) (s : State) :
    OnlyRegs s ((List.range n).foldl (fun s i => wr s (f i) (v i)) s) ((List.range n).map f) :=
  List.foldlRecOn (motive := fun t => OnlyRegs s t ((List.range n).map f)) (List.range n) _ ⟨rfl, fun _ _ => rfl⟩
    fun _ h i hi => onlyRegs_wr_mem h (List.mem_map_of_mem hi) (v i)

/-- Registers written one after the other hold their values, at distinct addresses. -/
theorem rd_wrAll {f : Nat → Nat} (hf : Function.Injective f) (v : Nat → Nat) (s : State) {i n : Nat} (hi : i < n) :
    rd ((List.range n).foldl (fun s i => wr s (f i) (v i)) s) (f i) = v i % 2 ^ 32 := by
  induction n with
  | zero => omega
  | succ n ih =>
    rw [List.range_succ, List.foldl_append, List.foldl_cons, List.foldl_nil]
    by_cases e : i = n
    · rw [e, rd_wr_same]
    · rw [rd_wr_ne _ fun h => e (hf h), ih (by omega)]

end

/-! ### WP_SET -/

theorem regWpMask_injective : Function.Injective regWpMask := fun i j h => by
  unfold regWpMask at h
  omega

/-- The block with an image copied into the WP_MASK registers (R173). -/
def wpMasks (s : State) (img : List Byte) : State :=
  (List.range 128).foldl (fun s i => wr s (regWpMask i) (fieldAt img (4 * i) 4)) s

theorem wpMasks_bit (s : State) (img : List Byte) {n : Nat} (hn : n < 4096) :
    bit (rd (wpMasks s img) (regWpMask (n / 32))) (n % 32) = (img.getD (n / 8) 0).getLsbD (n % 8) := by
  rw [bit, wpMasks, rd_wrAll regWpMask_injective (fun i => fieldAt img (4 * i) 4) s (show n / 32 < 128 by omega),
    Nat.testBit_mod_two_pow, fieldAt_testBit, show 4 * (n / 32) + n % 32 / 8 = n / 8 by omega,
    show n % 32 % 8 = n % 8 by omega]
  simp [show n % 32 < 8 * 4 by omega, Nat.mod_lt]

/-! ### The measurement log -/

/-- An extension of a measurement register while the log has room (R499, R500). -/
theorem measExtend_logged {s : State} (h : s.cfg.log.length < 4096) (reg kind unit gen len : Nat) (d : List Byte) :
    measExtend s reg kind unit gen len d = { s with cfg := { s.cfg with
      meas := tset s.cfg.meas reg (sha384 (meas s reg ++ d)),
      log := s.cfg.log ++ [{ seq := s.cfg.logSeq, reg := reg, kind := kind, unit := unit, gen := gen, len := len, digest := d }],
      logSeq := s.cfg.logSeq + 1 } } := by
  unfold measExtend
  exact if_neg (by simpa using h)

/-- The 48 bytes of GLB_MEAS_DIG0 to 11. -/
def measDigest (s : State) : List Byte := (List.range 12).flatMap fun i => leBytes 4 (rd s (regGlbMeasDig i))

theorem measDigest_length (s : State) : (measDigest s).length = 48 := by simp [measDigest, List.length_flatMap]

/-- A firmware extension of MEAS7 while the log has room (R503, log entry 12). -/
theorem measExt_logged {s : State} (h : s.cfg.log.length < 4096) : ∃ g n, measExt s =
    measExtend { s with free := s.free + 2 } 7 8 0xFF g n (measDigest s) := by
  unfold measExt
  rw [if_pos (by simpa [logRoom] using h)]
  exact ⟨_, _, rfl⟩

theorem measExt_full {s : State} (h : 4096 ≤ s.cfg.log.length) : measExt s = cfgFlag s 1 := by
  unfold measExt
  exact if_neg (by simpa [logRoom] using h)

/-! ### The journal discard (R607) -/

/-- What a discard leaves of the journal's records. -/
def discarded (s : State) (fg seq : Nat) : State :=
  { s with jrn := { s.jrn with
      found := s.jrn.found.filter fun e => !(decide (e.fg = fg) && ofGroup e), discards := tset s.jrn.discards fg seq } }

theorem jrnDiscard_discards {s : State} {fg : Nat} (ha : (group s fg).await = true) (hl : (group s fg).layout = none)
    (hs : s.jrn.stopped = false) :
    jrnDiscard s fg = discarded (jrnAppend s { seq := 0, typ := 0x08, fg := fg, arg2 := 2 ^ 16 }) fg s.jrn.seq := by
  unfold jrnDiscard
  rw [if_pos (by simp [ha, hl]), if_neg (by simp [hs])]
  rfl

theorem jrnDiscard_refused {s : State} {fg : Nat} (h : (group s fg).await = false ∨ (group s fg).layout ≠ none) :
    jrnDiscard s fg = jrnFlag s 7 := by
  unfold jrnDiscard
  exact if_neg (by simpa [← Option.isNone_iff_eq_none, or_iff_not_imp_left] using h)

/-- Until the scan has found the last SEQ, an accepted entry waits (R277). -/
theorem jrnAppend_waits {s : State} (hs : s.jrn.stopped = false) (hc : s.jrn.scanned = false) (e : Entry) :
    jrnAppend s e = { s with jrn := { s.jrn with
      seq := s.jrn.seq + 1, backlog := s.jrn.backlog ++ [{ e with seq := s.jrn.seq, pfail := s.jrn.pfActive }] } } := by
  unfold jrnAppend
  rw [if_neg (by simp [hs])]
  exact if_neg (by simp [hc])

/-- A table mapped under its numbers. -/
theorem tget?_map {α : Type} {f : Nat × α → Nat × α} (hf : ∀ p, (f p).1 = p.1) (m : List (Nat × α)) (k : Nat) :
    tget? (m.map f) k = (tget? m k).map fun v => (f (k, v)).2 := by
  induction m with
  | nil => rfl
  | cons p r ih =>
    rw [List.map_cons, tget?, tget?, hf, ih]
    split
    · next h => simp [← h]
    · rfl

/-- A group whose discard is durable, with none of its records left, awaits restart no more. -/
theorem discardsDone_group {t : State} {fg : Nat} (ha : (group t fg).await = true) (hl : (group t fg).layout = none)
    (hf : ∀ e ∈ t.jrn.found, e.fg = fg → ofGroup e = false) (hd : tget t.jrn.discards fg 0 < t.jrn.durable) :
    (group (discardsDone t) fg).await = false := by
  have hnone : (t.jrn.found.any fun e => decide (e.fg = fg) && ofGroup e) = false := by simpa using hf
  unfold group tget at ha hl
  cases hg : tget? t.groups fg with
  | none => simp [hg] at ha
  | some g =>
    rw [hg, Option.getD_some] at ha hl
    unfold group tget discardsDone
    rw [tget?_map (fun p => by split <;> rfl), hg]
    simp [ha, hl, hnone, hd]

/-- Settles O18, command by command: each starts as `start_runs` or `zoneStart_runs` says and ends with `finish`; what it has done
before is `wpMasks`, `measExt_logged` or `jrnDiscard_discards`. -/
theorem commandsThatEndAtOnce : Obligations.CommandsThatEndAtOnce := by
  unfold Obligations.CommandsThatEndAtOnce
  refine ⟨fun s cid c => ?commands, fun s hfree => ?measured, fun s fg ht => ?journal⟩
  case commands =>
    intro u
    have hlow : cP0 c % 2 ^ 32 = fieldAt c.pkt 0x28 4 := fieldAt_mod c.pkt 0x28 (m := 4) (by decide)
    have runs {op : Nat} (hs : startable s cid op = some c) (f : State → Cmd → State) :
        ok (pump (start s cid op f)) = .next (pump (f u c)) := congrArg (fun t => ok (pump t)) (start_runs hs f)
    refine ⟨fun hs => ?echo, fun hs => ?trace, fun hs => ?masks, fun hs => ?query⟩
    case echo =>
      refine (runs hs _).trans ?_
      rw [hlow]
      rfl
    case trace =>
      intro k
      refine ⟨wr u (regTrcMask k) (cP0 c % 2 ^ 32), runs hs _, ?_, onlyRegs_wr (onlyRegs_refl u) ..⟩
      rw [rd_wr_same, Nat.mod_mod, hlow]
    case masks =>
      obtain rfl := startable_cid hs
      intro img prot
      have hlen : img.length = 512 := by simp [img, dramRead]
      refine ⟨fun mp hmp => ?_, wpMasks u img, ?_, fun n hn => wpMasks_bit u img hn, onlyRegs_wrAll ..⟩
      · obtain ⟨v, r, e, hport⟩ := imageEnd_gaveUp u c 512 mp _ hmp
        exact ⟨v, r, (runs hs _).trans (congrArg (fun t => ok (pump t)) e), hport⟩
      · have hcount : oneBits img = ((List.range 4096).filter prot).length := by rw [oneBits_eq, hlen]
        refine (runs hs _).trans ?_
        rw [← hcount, imageEnd_ok]
        rfl
    case query =>
      intro zid e d
      have hb : boundaryHolds s cid 9 = false := boundaryHolds_other (by decide)
      exact ⟨fun r hz => congrArg (fun t => ok (pump t)) (zoneStart_refused hs hb hz _),
        fun hz => congrArg (fun t => ok (pump t)) (zoneStart_runs hs hb hz _)⟩
  case measured =>
    intro x d
    have hexec : exec .glbMeasExt s = ok (measExt x) := congrArg ok (cpWrite_free hfree _)
    refine ⟨fun h => ?_, fun h => hexec.trans (congrArg ok (measExt_full (s := x) h))⟩
    obtain ⟨g, n, e⟩ := measExt_logged (s := x) h
    rw [e, measExtend_logged (by exact h)] at hexec
    exact ⟨_, _, hexec, rfl, rfl, rfl, rfl, rfl, rfl, measDigest_length s, tget_tset_same ..,
      fun k hk => (tget_tset ..).trans (if_neg hk)⟩
  case journal =>
    intro g x
    have hexec : exec (.jrnCmdDiscard fg) s = ok (pump (jrnDiscard x fg.toNat)) :=
      congrArg (fun t => ok (pump t)) (cpPut_ok s _ _ _ ht _)
    refine ⟨fun ha hl hs => ?_, fun h => hexec.trans (congrArg (fun t => ok (pump t)) (jrnDiscard_refused (s := x) h)),
      fun t => discardsDone_group⟩
    intro u
    rw [hexec, jrnDiscard_discards (s := x) ha hl hs]
    refine ⟨_, rfl, rfl, rfl, fun hc => ?_⟩
    have hu := jrnAppend_waits (s := x) hs hc { seq := 0, typ := 0x08, fg := fg.toNat, arg2 := 2 ^ 16 }
    exact ⟨congrArg (fun t => t.jrn.seq) hu, congrArg (fun t => t.jrn.backlog) hu⟩

end Sys2Proof.Machine
end

