-- ==== Sys2Proof/Proofs/ZoneEntries.lean ====
section
/-! Zone entries (R98 to R101): what a zone reads as after its entry has been written, in the OZT and in the zone table; what
the journal's acceptance of an entry leaves; a zone that enters OPEN. -/

namespace Sys2Proof.Machine

section
variable {s t u : State}

/-! ### The journal's acceptance of an entry changes the journal alone -/

/-- Only the journal differs. -/
def JrnOnly (s t : State) : Prop := ∃ j, t = { s with jrn := j }

theorem JrnOnly.refl (s : State) : JrnOnly s s := ⟨s.jrn, rfl⟩

theorem JrnOnly.trans (h : JrnOnly s t) (g : JrnOnly t u) : JrnOnly s u := by
  obtain ⟨i, rfl⟩ := h
  obtain ⟨j, rfl⟩ := g
  exact ⟨j, rfl⟩

theorem markSeg_jrnOnly (s : State) (kind idx : Nat) : JrnOnly s (markSeg s kind idx) := by
  unfold markSeg
  dsimp only
  split
  · exact .refl s
  · exact ⟨_, rfl⟩

theorem closePage_jrnOnly (s : State) : JrnOnly s (closePage s) := by
  unfold closePage
  dsimp only
  split
  · exact ⟨_, rfl⟩
  · exact .refl s

theorem placeEntry_jrnOnly {e : Entry} (h : placeEntry s e = some t) : JrnOnly s t := by
  have closes (c : Prop) [Decidable c] (v : State) : JrnOnly v (if c then closePage v else v) := by
    split
    · exact closePage_jrnOnly v
    · exact .refl v
  unfold placeEntry at h
  dsimp only at h
  split at h
  · cases h
  · split at h
    · cases h
      exact JrnOnly.trans ⟨_, rfl⟩ (closes ..)
    · split at h
      · cases h
        exact JrnOnly.trans ⟨_, rfl⟩ (closes ..)
      · cases h

theorem drainBacklog_jrnOnly (n : Nat) (s : State) : JrnOnly s (drainBacklog n s) := by
  induction n generalizing s with
  | zero => exact .refl s
  | succ n ih =>
    unfold drainBacklog
    split
    · exact .refl s
    · split
      · next h => exact (placeEntry_jrnOnly h).trans (JrnOnly.trans ⟨_, rfl⟩ (ih _))
      · exact .refl s

theorem jrnAppend_jrnOnly (s : State) (e : Entry) : JrnOnly s (jrnAppend s e) := by
  unfold jrnAppend
  split
  · exact .refl s
  · dsimp only
    split
    · exact JrnOnly.trans ⟨_, rfl⟩ ((drainBacklog_jrnOnly 1 _).trans ⟨_, rfl⟩)
    · exact ⟨_, rfl⟩

theorem jrnZone_jrnOnly (s : State) (zid : Nat) : JrnOnly s (jrnZone s zid) := jrnAppend_jrnOnly ..

theorem JrnOnly.zone_eq (h : JrnOnly s t) (zid : Nat) : zone t zid = zone s zid := by
  obtain ⟨j, rfl⟩ := h
  rfl

theorem JrnOnly.oztIdx?_eq (h : JrnOnly s t) (zid : Nat) : oztIdx? t zid = oztIdx? s zid := by
  obtain ⟨j, rfl⟩ := h
  rfl

/-- Only the zone's entry, where it stands, and the journal differ. -/
def ZoneOnly (s t : State) : Prop := ∃ o d j, t = { s with ozt := o, dram := d, jrn := j }

theorem JrnOnly.zoneOnly (h : JrnOnly s t) : ZoneOnly s t := by
  obtain ⟨j, rfl⟩ := h
  exact ⟨_, _, j, rfl⟩

theorem ZoneOnly.trans (h : ZoneOnly s t) (g : ZoneOnly t u) : ZoneOnly s u := by
  obtain ⟨o, d, j, rfl⟩ := h
  obtain ⟨o', d', j', rfl⟩ := g
  exact ⟨o', d', j', rfl⟩

theorem ZoneOnly.cmds_eq (h : ZoneOnly s t) : t.cmds = s.cmds := by
  obtain ⟨o, d, j, rfl⟩ := h
  rfl

theorem ZoneOnly.rows_eq (h : ZoneOnly s t) : t.rows = s.rows := by
  obtain ⟨o, d, j, rfl⟩ := h
  rfl

/-! ### The open zone table -/

/-- A value put under the number of the first element with a property, or of none, becomes the first one with it. -/
theorem find?_tset {α : Type} (q : α → Bool) (m : List (Nat × α)) {i : Nat} {v : α} (hv : q v = true)
    (h : ∀ p, m.find? (fun p => q p.2) = some p → p.1 = i) : (tset m i v).find? (fun p => q p.2) = some (i, v) := by
  induction m with
  | nil => simp [tset, hv]
  | cons p r ih =>
    obtain ⟨a, x⟩ := p
    unfold tset
    split
    · simp [hv]
    · split
      · simp [hv]
      · next hne =>
        cases hx : q x with
        | true => exact absurd (h (a, x) (by simp [hx])).symm hne
        | false =>
          rw [List.find?_cons_of_neg (by simp [hx])]
          exact ih fun p hp => h p (by rw [List.find?_cons_of_neg (by simp [hx]), hp])

/-- A zone's OZT entry, where it holds one. -/
theorem oztIdx?_some {zid i : Nat} (h : oztIdx? s zid = some i) :
    ∃ e, s.ozt.find? (fun p => p.2.zid = zid) = some (i, e) := by
  obtain ⟨p, hp, rfl⟩ := Option.map_eq_some_iff.1 h
  exact ⟨p.2, hp⟩

theorem oztIdx?_none {zid : Nat} (h : oztIdx? s zid = none) : s.ozt.find? (fun p => p.2.zid = zid) = none :=
  Option.map_eq_none_iff.1 h

/-- A zone's entry carries its number. -/
theorem zone_zid (s : State) (zid : Nat) : (zone s zid).zid = zid := by
  unfold zone
  split
  · next p hp => simpa using List.find?_some hp
  · rfl

/-- The state with an entry put under a number of the OZT. -/
def oztPut (s : State) (i : Nat) (e : ZoneEntry) : State := { s with ozt := tset s.ozt i e }

/-- A zone holds an OZT entry, which it reads. -/
def Holds (s : State) (zid : Nat) (e : ZoneEntry) : Prop := oztIdx? s zid ≠ none ∧ zone s zid = e

theorem Holds.jrnOnly {zid : Nat} {e : ZoneEntry} (h : Holds s zid e) (hj : JrnOnly s t) : Holds t zid e := by
  unfold Holds
  rw [hj.oztIdx?_eq, hj.zone_eq]
  exact h

/-- An entry put under its zone's number of the OZT, or under a new one, is what the zone holds. -/
theorem oztPut_holds {i : Nat} {e : ZoneEntry} (h : ∀ k, oztIdx? s e.zid = some k → k = i) : Holds (oztPut s i e) e.zid e := by
  have hfound : (oztPut s i e).ozt.find? (fun p => p.2.zid = e.zid) = some (i, e) :=
    find?_tset (fun x => decide (x.zid = e.zid)) s.ozt (by simp) fun p hp => h p.1 (by unfold oztIdx?; rw [hp]; rfl)
  refine ⟨?_, ?_⟩
  · unfold oztIdx?
    simp [hfound]
  · unfold zone
    rw [hfound]

/-! ### An entry written where it stands -/

/-- A zone that holds an OZT entry has it written there. -/
theorem setZone_put {e : ZoneEntry} {i : Nat} (h : oztIdx? s e.zid = some i) :
    setZone s e = oztPut (markSeg s 0 (e.zid / 128)) i { e with valid := true } := by
  have hi := ((markSeg_jrnOnly s 0 (e.zid / 128)).oztIdx?_eq e.zid).trans h
  unfold setZone
  simp only [hi]
  rfl

/-- Any other zone has it written in the zone table (R100). -/
theorem setZone_write {e : ZoneEntry} (h : oztIdx? s e.zid = none) :
    setZone s e = dramWrite (markSeg s 0 (e.zid / 128)) (ztAddr s e.zid)
      (packZone { e with valid := true, gv := false, inflight := 0 }) := by
  obtain ⟨j, hj⟩ := markSeg_jrnOnly s 0 (e.zid / 128)
  have hi : oztIdx? (markSeg s 0 (e.zid / 128)) e.zid = none := hj ▸ h
  unfold setZone
  simp only [hi]
  rw [hj]
  rfl

theorem setZone_zoneOnly (s : State) (e : ZoneEntry) : ZoneOnly s (setZone s e) := by
  have hmark := (markSeg_jrnOnly s 0 (e.zid / 128)).zoneOnly
  cases h : oztIdx? s e.zid with
  | some i =>
    rw [setZone_put h]
    exact hmark.trans ⟨_, _, _, rfl⟩
  | none =>
    rw [setZone_write h]
    exact hmark.trans ⟨_, _, _, rfl⟩

/-- A zone that holds an OZT entry holds the one that has been written. -/
theorem setZone_holds {zid : Nat} {e : ZoneEntry} (hz : e.zid = zid) (h : oztIdx? s zid ≠ none) :
    Holds (setZone s e) zid { e with valid := true } := by
  subst hz
  obtain ⟨i, hi⟩ := Option.ne_none_iff_exists'.1 h
  rw [setZone_put hi]
  refine oztPut_holds (e := { e with valid := true }) fun k hk => ?_
  rw [(markSeg_jrnOnly s 0 _).oztIdx?_eq, hi, Option.some.injEq] at hk
  exact hk.symm

/-! ### The zone table's form of an entry (R100) -/

/-- Bytes read back where they have been written. -/
theorem dramRead_dramWrite (s : State) (a : Nat) {l : List Byte} {n : Nat} (hn : n = l.length) (hl : n ≤ 2 ^ 64) :
    dramRead (dramWrite s a l) a n = l := by
  subst hn
  refine List.ext_getElem (by simp [dramRead]) fun i hi hi' => ?_
  rw [← memGet_memWrite_on s.dram a l hl i hi']
  simp [dramRead, dramByte, dramWrite]

theorem packZone_length (e : ZoneEntry) : (packZone e).length = 32 := by simp [packZone]

/-- A zone that holds no OZT entry reads what the zone table keeps of its entry. -/
theorem zone_setZone_unheld {e : ZoneEntry} (h : oztIdx? s e.zid = none) : zone (setZone s e) e.zid =
    { unpackZone (packZone { e with valid := true, gv := false, inflight := 0 }) with zid := e.zid } := by
  obtain ⟨j, hj⟩ := markSeg_jrnOnly s 0 (e.zid / 128)
  have hbytes := dramRead_dramWrite { s with jrn := j } (ztAddr s e.zid)
    (packZone_length { e with valid := true, gv := false, inflight := 0 }).symm (by decide)
  rw [setZone_write h, hj]
  unfold zone
  rw [show (dramWrite { s with jrn := j } (ztAddr s e.zid) _).ozt.find? _ = none from oztIdx?_none h]
  exact congrArg (fun l => { unpackZone l with zid := e.zid }) hbytes

theorem packZone_words (e : ZoneEntry) : fieldAt (packZone e) 0 4 =
      (e.state * 2 ^ 28 + e.overlay * 2 ^ 26 + b2n e.valid * 2 ^ 25 + e.zid) % 2 ^ 32 ∧
    fieldAt (packZone e) 4 4 = (e.hint * 2 ^ 24 + e.wp) % 2 ^ 32 ∧
    fieldAt (packZone e) 8 4 = (e.inflight * 2 ^ 28 + e.appendPt) % 2 ^ 32 ∧
    fieldAt (packZone e) 12 4 = (e.layout * 2 ^ 16 + b2n e.tv * 2 ^ 15 + e.tenant) % 2 ^ 32 := by
  unfold packZone
  simp only [List.append_assoc]
  simp (disch := simp) only [fieldAt_append_right, fieldAt_leBytes, leBytes_length]
  simp [fieldAt_leBytes]

theorem unpackZone_packZone_state {e : ZoneEntry} (hs : e.state < 16) (ho : e.overlay < 4) (hz : e.zid < 2 ^ 19) :
    (unpackZone (packZone e)).state = e.state := by
  have hv : b2n e.valid ≤ 1 := by unfold b2n; split <;> decide
  show bits (fieldAt (packZone e) 0 4) 31 28 = e.state
  rw [(packZone_words e).1, bits, Nat.shiftRight_eq_div_pow]
  omega

theorem unpackZone_packZone_wp {e : ZoneEntry} (hw : e.wp < 2 ^ 24) : (unpackZone (packZone e)).wp = e.wp := by
  show bits (fieldAt (packZone e) 4 4) 23 0 = e.wp
  rw [(packZone_words e).2.1, bits, Nat.shiftRight_eq_div_pow]
  omega

/-- The zone table's fields have their widths. -/
theorem zone_unheld_bounds {zid : Nat} (h : oztIdx? s zid = none) : (zone s zid).overlay < 4 ∧ (zone s zid).wp < 2 ^ 24 := by
  unfold zone
  rw [oztIdx?_none h]
  exact ⟨bits_lt .., bits_lt ..⟩

/-! ### A zone whose state changes -/

/-- A zone of the 19-bit range reads the state that has been written. -/
theorem zone_setZone_state {e : ZoneEntry} (hs : e.state < 16) (ho : e.overlay = (zone s e.zid).overlay ∨ e.overlay < 4)
    (hz : e.zid < 2 ^ 19) : (zone (setZone s e) e.zid).state = e.state := by
  by_cases h : oztIdx? s e.zid = none
  · rw [zone_setZone_unheld h]
    refine unpackZone_packZone_state (e := { e with valid := true, gv := false, inflight := 0 }) hs ?_ hz
    exact ho.elim (fun ho => ho ▸ (zone_unheld_bounds h).1) id
  · rw [(setZone_holds rfl h).2]

theorem zone_setZone_wp {e : ZoneEntry} (hw : e.wp = (zone s e.zid).wp) : (zone (setZone s e) e.zid).wp = e.wp := by
  by_cases h : oztIdx? s e.zid = none
  · rw [zone_setZone_unheld h]
    exact unpackZone_packZone_wp (e := { e with valid := true, gv := false, inflight := 0 }) (hw ▸ (zone_unheld_bounds h).2)
  · rw [(setZone_holds rfl h).2]

/-! ### An OZT entry taken, a zone that enters OPEN (R58, R101) -/

/-- A zone that takes an OZT entry holds it. -/
theorem oztTake_holds {zid : Nat} {e : ZoneEntry} (hz : e.zid = zid) (h : oztTake s e = some t) :
    Holds t zid { e with valid := true } ∧ ZoneOnly s t := by
  subst hz
  unfold oztTake at h
  cases hi : oztIdx? s e.zid with
  | some i =>
    simp only [hi, Option.some.injEq] at h
    subst h
    exact ⟨setZone_holds rfl (by simp [hi]), setZone_zoneOnly s e⟩
  | none =>
    simp only [hi, Option.map_eq_some_iff] at h
    obtain ⟨i, -, rfl⟩ := h
    have hput : Holds (oztPut s i { e with valid := true }) e.zid { e with valid := true } := oztPut_holds (by simp [hi])
    have hmark := markSeg_jrnOnly (oztPut s i { e with valid := true }) 0 (e.zid / 128)
    exact ⟨hput.jrnOnly hmark, ZoneOnly.trans ⟨_, _, _, rfl⟩ hmark.zoneOnly⟩

/-- The entry of a zone that enters OPEN, or stands there (R58, R101). -/
def openedEntry (s : State) (zid tenant : Nat) (hint : Option Nat) : ZoneEntry :=
  let e := zone s zid
  { e with
    state := 1, hint := hint.getD e.hint, tv := if e.state = 0 then true else e.tv,
    tenant := if e.state = 0 then tenant else e.tenant,
    layout := if e.state = 0 then (layoutIdx s zid).getD 0 else e.layout }

/-- A zone that enters OPEN, or stands there in its OZT entry, holds its entry; an OPEN one keeps VALID as it is unless a hint is
given. -/
theorem openZone_holds {zid tenant : Nat} {hint : Option Nat} (h : openZone s zid tenant hint = some t)
    (hheld : (zone s zid).state = 1 → oztIdx? s zid ≠ none) :
    (∃ v, Holds t zid { openedEntry s zid tenant hint with valid := v }) ∧ ZoneOnly s t := by
  have hzid := zone_zid s zid
  unfold openZone at h
  dsimp only at h
  split at h
  · next h1 =>
    have hopen : openedEntry s zid tenant hint = { zone s zid with hint := hint.getD (zone s zid).hint } := by
      simp [openedEntry, h1]
    rw [hopen]
    cases hint with
    | none =>
      cases h
      exact ⟨⟨_, hheld h1, rfl⟩, ⟨_, _, _, rfl⟩⟩
    | some k =>
      cases h
      exact ⟨⟨true, setZone_holds hzid (hheld h1)⟩, setZone_zoneOnly ..⟩
  · obtain ⟨v, hv, rfl⟩ := Option.map_eq_some_iff.1 h
    obtain ⟨hholds, honly⟩ := oztTake_holds rfl hv
    have hj := jrnZone_jrnOnly v zid
    have hentry : { openedEntry s zid tenant hint with zid := zid } = openedEntry s zid tenant hint := by
      simp [openedEntry, hzid]
    exact ⟨⟨true, hentry ▸ hholds.jrnOnly hj⟩, honly.trans hj.zoneOnly⟩

end

end Sys2Proof.Machine
end

