-- ==== Sys2Proof/Proofs/Appends.lean ====
section
/-! Appends (R82, R103, R111, R112, R118): whose turn it is, what the acceptance test answers, the offsets that an accepted append
takes, and the run of blocks that joins a zone's partial row. -/

namespace Sys2Proof.Machine

section
variable {s t u : State} {zid : Nat}

/-! ### A zone that holds an OZT entry -/

/-- A held zone reads its OZT entry whatever else changes. -/
theorem Holds.ozt_eq {e : ZoneEntry} (h : Holds s zid e) (ho : t.ozt = s.ozt) : Holds t zid e := by
  obtain ⟨hidx, hz⟩ := h
  have hidx' : oztIdx? t zid = oztIdx? s zid := by
    unfold oztIdx?
    rw [ho]
  obtain ⟨i, hi⟩ := Option.ne_none_iff_exists'.1 hidx
  obtain ⟨x, hx⟩ := oztIdx?_some hi
  refine ⟨hidx' ▸ hidx, ?_⟩
  rw [← hz]
  unfold zone
  rw [ho, hx]

theorem modZone_holds (h : oztIdx? s zid ≠ none) {f : ZoneEntry → ZoneEntry} (hf : (f (zone s zid)).zid = zid) :
    Holds (modZone s zid f) zid { f (zone s zid) with valid := true } := setZone_holds hf h

/-! ### Rows -/

theorem row?_modRow (s : State) (rid : Nat) {f : Row → Row} (hf : ∀ r, (f r).rid = r.rid) :
    row? (modRow s rid f) rid = (row? s rid).map f :=
  find?_modFirst _ f (fun x h => by simpa [hf x] using h) s.rows

theorem partial?_gathering {r : Row} (h : partial? s zid = some r) : r.phase = .gathering := by
  have h := List.find?_some h
  simp only [Bool.and_eq_true, decide_eq_true_eq] at h
  exact h.2

/-! ### A run of blocks joins a partial row -/

/-- The commands stand, and the zone keeps its OZT entry with the state and both pointers that it had. -/
def Gathers (zid : Nat) (s t : State) : Prop :=
  t.cmds = s.cmds ∧ oztIdx? t zid ≠ none ∧ (zone t zid).state = (zone s zid).state ∧ (zone t zid).wp = (zone s zid).wp ∧
    (zone t zid).appendPt = (zone s zid).appendPt

theorem Gathers.refl (h : oztIdx? s zid ≠ none) : Gathers zid s s := ⟨rfl, h, rfl, rfl, rfl⟩

theorem Gathers.held (h : Gathers zid s t) : oztIdx? t zid ≠ none := h.2.1

theorem Gathers.trans (h : Gathers zid s t) (g : Gathers zid t u) : Gathers zid s u := by
  obtain ⟨hc, -, hs, hw, ha⟩ := h
  obtain ⟨gc, gi, gs, gw, ga⟩ := g
  exact ⟨gc.trans hc, gi, gs.trans hs, gw.trans hw, ga.trans ha⟩

/-- What leaves the OZT and the commands leaves the zone's pointers. -/
theorem gathers_ozt (h : oztIdx? s zid ≠ none) (ho : t.ozt = s.ozt) (hc : t.cmds = s.cmds) : Gathers zid s t := by
  obtain ⟨hi, hz⟩ := Holds.ozt_eq (⟨h, rfl⟩ : Holds s zid _) ho
  exact ⟨hc, hi, by rw [hz], by rw [hz], by rw [hz]⟩

/-- A change of the zone's entry that leaves its number, state and pointers. -/
theorem gathers_modZone (h : oztIdx? s zid ≠ none) {f : ZoneEntry → ZoneEntry}
    (hf : ∀ e, (f e).zid = e.zid ∧ (f e).state = e.state ∧ (f e).wp = e.wp ∧ (f e).appendPt = e.appendPt) :
    Gathers zid s (modZone s zid f) := by
  obtain ⟨hzid, hstate, hwp, hpt⟩ := hf (zone s zid)
  obtain ⟨hi, hz⟩ := modZone_holds h (hzid.trans (zone_zid s zid))
  exact ⟨(setZone_zoneOnly ..).cmds_eq, hi, by rw [hz]; exact hstate, by rw [hz]; exact hwp, by rw [hz]; exact hpt⟩

/-- The rows with a new one for a zone. -/
def rowAdded (s : State) (zid row : Nat) : State :=
  { s with
    nextId := s.nextId + 1
    rows := s.rows ++ [{
      rid := s.nextId, quad := zoneQuad s zid, slot := freeRowSlot { s with nextId := s.nextId + 1 } (zoneQuad s zid),
      zid := zid, row := row }] }

theorem newRow_eq (s : State) (zid row : Nat) : ∃ g, newRow s zid row =
    noteLow (modZone (rowAdded s zid row) zid fun e => { e with gv := true, gslot := g }) (zoneQuad s zid) := ⟨_, rfl⟩

theorem newRow_gathers (h : oztIdx? s zid ≠ none) (row : Nat) : Gathers zid s (newRow s zid row) := by
  obtain ⟨g, e⟩ := newRow_eq s zid row
  rw [e]
  have hadd : Gathers zid s (rowAdded s zid row) := gathers_ozt h rfl rfl
  have hmod : Gathers zid (rowAdded s zid row) (modZone (rowAdded s zid row) zid fun e => { e with gv := true, gslot := g }) :=
    gathers_modZone hadd.held fun _ => ⟨rfl, rfl, rfl, rfl⟩
  exact hadd.trans (hmod.trans (gathers_ozt hmod.held rfl rfl))

/-- A run joins the partial row `r` (R111). -/
def pieceAdded (s : State) (c : Cmd) (r : Row) (rb off blk n : Nat) : State :=
  modRow s r.rid fun r =>
    { r with pieces := r.pieces ++ [{ cid := c.cid, cmdBlk := blk, first := off % rb, count := n }], lastTick := s.tick }

/-- The row is filled, and counts in INFLIGHT_ROWS (R112). -/
def rowFilled (s : State) (zid rid acked : Nat) : State :=
  modZone (modRow s rid fun r => { r with phase := .filled, fillTick := s.tick, gen := genNow s, acked := acked }) zid fun e =>
    { e with gather := 0, staged := 0, stgExt := 0, gv := false, gslot := 0, inflight := e.inflight + 1 }

theorem rowFilled_gathers (h : oztIdx? s zid ≠ none) (rid acked : Nat) : Gathers zid s (rowFilled s zid rid acked) := by
  have hrow : Gathers zid s (modRow s rid fun r =>
    { r with phase := .filled, fillTick := s.tick, gen := genNow s, acked := acked }) := gathers_ozt h rfl rfl
  exact hrow.trans (gathers_modZone hrow.held fun _ => ⟨rfl, rfl, rfl, rfl⟩)

/-- A run joins the zone's partial row, which fills or not (R111, R112). -/
theorem gatherRun_joins {r : Row} (h : partial? s zid = some r) (c : Cmd) (rb off blk n : Nat) :
    gatherRun s c zid rb off blk n =
      if off % rb + n = rb then rowFilled (pieceAdded s c r rb off blk n) zid r.rid (zone s zid).staged
      else modZone (pieceAdded s c r rb off blk n) zid fun e => { e with gather := e.gather + n } := by
  unfold gatherRun
  simp only [h, Option.isSome_some, if_true]
  rfl

theorem gatherRun_gathers (h : oztIdx? s zid ≠ none) (c : Cmd) (rb off blk n : Nat) :
    Gathers zid s (gatherRun s c zid rb off blk n) := by
  have joins {v : State} (hv : oztIdx? v zid ≠ none) {r : Row} (hr : partial? v zid = some r) :
      Gathers zid v (gatherRun v c zid rb off blk n) := by
    have hpiece : Gathers zid v (pieceAdded v c r rb off blk n) := gathers_ozt hv rfl rfl
    rw [gatherRun_joins hr]
    split
    · exact hpiece.trans (rowFilled_gathers hpiece.held ..)
    · exact hpiece.trans (gathers_modZone hpiece.held fun _ => ⟨rfl, rfl, rfl, rfl⟩)
  cases hp : partial? s zid with
  | some r => exact joins h hp
  | none =>
    have hnew := newRow_gathers h (off / rb)
    cases hr : partial? (newRow s zid (off / rb)) zid with
    | some r =>
      have hrun : gatherRun s c zid rb off blk n = gatherRun (newRow s zid (off / rb)) c zid rb off blk n := by
        unfold gatherRun
        simp only [hp, hr, Option.isSome_none, Option.isSome_some, if_true, Bool.false_eq_true, if_false]
      exact hrun ▸ hnew.trans (joins hnew.held hr)
    | none =>
      have hrun : gatherRun s c zid rb off blk n = newRow s zid (off / rb) := by
        unfold gatherRun
        simp only [hp, hr, Option.isSome_none, Bool.false_eq_true, if_false]
      exact hrun ▸ hnew

theorem gatherBlocks_gathers (f : Nat) (h : oztIdx? s zid ≠ none) (c : Cmd) (rb off blk n : Nat) :
    Gathers zid s (gatherBlocks f s c zid rb off blk n) := by
  induction f generalizing s off blk n with
  | zero => exact .refl h
  | succ f ih =>
    unfold gatherBlocks
    split
    · exact .refl h
    · have hrun := gatherRun_gathers h c rb off blk (min n (rb - off % rb))
      exact hrun.trans (ih hrun.held ..)

/-! ### Whose turn it is (R77, R103) -/

theorem mem_modFirst {α : Type} {p : α → Bool} {f : α → α} {l : List α} {x : α} (h : x ∈ modFirst p f l) :
    x ∈ l ∨ ∃ y, x = f y := by
  induction l with
  | nil => exact .inl h
  | cons y r ih =>
    unfold modFirst at h
    split at h
    · rcases List.mem_cons.1 h with h | h
      · exact .inr ⟨y, h⟩
      · exact .inl (List.mem_cons_of_mem _ h)
    · rcases List.mem_cons.1 h with h | h
      · exact .inl (h ▸ List.mem_cons_self)
      · exact (ih h).imp_left (List.mem_cons_of_mem _)

section
variable {cid op : Nat} {c : Cmd}

/-- An append whose zone's other commands run or end has its turn at once. -/
theorem zoneAppend_tried (h : startable s cid op = some c) (hb : boundaryHolds s cid op = false)
    (hothers : ∀ d ∈ s.cmds, d ≠ c → d.zone = c.zone → d.stage = .running ∨ d.stage = .ending) :
    zoneAppend s cid op = tryAppend (running s cid) cid := by
  obtain ⟨-, -, -, hready, -⟩ := (startable_iff (startable_cmd? h)).1 h
  have hfirst : (s.cmds.any fun d => decide (d.zone = c.zone) && decide (d.ring = c.ring) && decide (d.fetchNo < c.fetchNo) &&
      decide (d.stage = .ready) && (decide (opc d = 1) || decide (opc d = 2))) = false := by
    rw [List.any_eq_false]
    intro d hd
    by_cases hdc : d = c
    · simp [hdc]
    · by_cases hz : d.zone = c.zone
      · rcases hothers d hd hdc hz with e | e <;> simp [e]
      · simp [hz]
  have hturn : appendTurn (running s cid) c = true := by
    unfold appendTurn
    rw [Bool.not_eq_true', List.any_eq_false]
    intro d hd
    rcases mem_modFirst hd with hd | ⟨y, rfl⟩
    · by_cases hdc : d = c
      · simp [hdc, hready]
      · by_cases hz : d.zone = c.zone
        · rcases hothers d hd hdc hz with e | e <;> simp [e]
        · simp [hz]
    · simp
  unfold zoneAppend
  simp only [hb, Bool.false_eq_true, if_false, h, hfirst, Bool.not_false, if_true]
  exact if_pos hturn

/-- The command as it runs. -/
theorem cmd?_running (h : startable s cid op = some c) :
    cmd? (running s cid) cid = some { c with issued := true, stage := .running } := by
  have hrun : cmd? (running s cid) cid = (cmd? s cid).map fun c => { c with issued := true, stage := .running } :=
    cmd?_modCmd s cid _ fun _ => rfl
  rw [hrun, startable_cmd? h]
  rfl

end

/-! ### What the acceptance test answers -/

section
variable {c : Cmd} {lt : Layout}

/-- ZONE_WRITE is accepted only at OFFSET equal to APPEND_PT (R82). -/
theorem acceptTest_offset (h2 : opc c = 2) (ho : cOff c ≠ (zone s zid).appendPt) :
    acceptTest s c zid lt = .refuse (zoneConflict s c) none := by
  unfold acceptTest
  exact if_pos ⟨h2, ho⟩

/-- Past the zone's capacity an append is refused. -/
theorem acceptTest_capacity (hcap : capacity s lt < (zone s zid).appendPt + cCount c) :
    ∃ r f, acceptTest s c zid lt = .refuse r f ∧ r.status ∈ [0x2001, 0x2004] := by
  unfold acceptTest
  dsimp only
  split
  · exact ⟨_, _, rfl, by simp [zoneConflict, stConflict]⟩
  split
  · exact ⟨_, _, rfl, by simp [zoneConflict, stConflict]⟩
  split
  · exact ⟨_, _, rfl, by simp [res, stProtected]⟩
  · exact ⟨_, _, rfl, by simp [zoneConflict, stConflict]⟩

/-- With no row in flight and gathering rows enough an append does not wait (R112, R118). -/
theorem acceptTest_room (hi : (zone s zid).inflight = 0)
    (hroom : ((zone s zid).gather + cCount c + max 1 (rowBlks s lt) - 1) / max 1 (rowBlks s lt) ≤
      sliceFree s (zoneQuad s zid)) :
    acceptTest s c zid lt ≠ .wait := by
  have hfree : ¬sliceFree s (zoneQuad s zid) < rowsNeeded s c zid lt := by
    unfold rowsNeeded
    dsimp only
    omega
  unfold acceptTest
  dsimp only
  rw [if_neg hfree, hi, if_neg (show ¬(0 < 0 ∧ _) from fun h => absurd h.1 (by decide))]
  repeat' split
  all_goals exact Accept.noConfusion

end

/-! ### An append that is tried -/

section
variable {cid : Nat} {c : Cmd} {lt : Layout} (hc : cmd? s cid = some c) (hl : layoutOf? s (cZid c) = some lt)
include hc hl

theorem tryAppend_checked {r : Result} (hz : zoneCheck s c = some r) : tryAppend s cid = finish s cid r := by
  unfold tryAppend
  simp only [hc, hl, hz]

variable (hz : zoneCheck s c = none)
include hz

theorem tryAppend_refused {r : Result} (ha : acceptTest s c (cZid c) lt = .refuse r none) :
    tryAppend s cid = finish s cid r := by
  unfold tryAppend
  simp only [hc, hl, hz, ha]

theorem tryAppend_flagged {r : Result} {b : Nat} (ha : acceptTest s c (cZid c) lt = .refuse r (some b)) :
    tryAppend s cid = finish (hopFlag s b) cid r := by
  unfold tryAppend
  simp only [hc, hl, hz, ha]

theorem tryAppend_waits (ha : acceptTest s c (cZid c) lt = .wait) : tryAppend s cid =
    if spillsIn s (zoneQuad s (cZid c)) = 0 ∧ sliceFree s (zoneQuad s (cZid c)) < rowsNeeded s c (cZid c) lt then
      startSpill (modCmd s cid fun c => { c with stage := .waiting }) (zoneQuad s (cZid c))
    else modCmd s cid fun c => { c with stage := .waiting } := by
  unfold tryAppend
  simp only [hc, hl, hz, ha]
  rfl

end

/-- An append's command with its offsets, from APPEND_PT on (R103). -/
def offsetsGiven (s : State) (c : Cmd) (cid : Nat) : State :=
  modCmd s cid fun d =>
    { d with stage := .running, first := (zone s (cZid c)).appendPt, left := cCount d, needSeq := s.jrn.seq }

/-- APPEND_PT moves past them. -/
def offsetsTaken (s : State) (c : Cmd) (cid : Nat) : State :=
  modZone (offsetsGiven s c cid) (cZid c) fun e => { e with appendPt := (zone s (cZid c)).appendPt + cCount c }

/-- The blocks of an append that is taken go into rows. -/
def appendTaken (s : State) (c : Cmd) (cid : Nat) (lt : Layout) : State :=
  gatherBlocks (cCount c + 1) (offsetsTaken s c cid) c (cZid c) (max 1 (rowBlks (offsetsTaken s c cid) lt))
    (zone s (cZid c)).appendPt 0 (cCount c)

theorem tryAppend_takes {cid : Nat} {c : Cmd} {lt : Layout} (hc : cmd? s cid = some c) (hl : layoutOf? s (cZid c) = some lt)
    (hz : zoneCheck s c = none) (ha : acceptTest s c (cZid c) lt = .take)
    (ho : openZone s (cZid c) (ringTenant s c.ring) none = some t) :
    tryAppend s cid = servePressure (appendTaken t c cid lt) (zoneQuad (appendTaken t c cid lt) (cZid c)) := by
  unfold tryAppend
  simp only [hc, hl, hz, ha, ho]
  rfl

/-- The pointers of the zone, and the command, after an append has been taken in an OZT entry. -/
theorem appendTaken_pointers {c d : Cmd} {cid : Nat} (lt : Layout) (h : oztIdx? s (cZid c) ≠ none) (hd : cmd? s cid = some d)
    (hn : cCount d = cCount c) :
    let w := appendTaken s c cid lt
    let e := zone s (cZid c)
    (zone w (cZid c)).state = e.state ∧ (zone w (cZid c)).appendPt = e.appendPt + cCount c ∧ (zone w (cZid c)).wp = e.wp ∧
      ∃ f, cmd? w cid = some f ∧ f.first = e.appendPt ∧ f.left = cCount c ∧ f.stage = .running := by
  have hgiven : oztIdx? (offsetsGiven s c cid) (cZid c) ≠ none := h
  have hcmd : cmd? (offsetsGiven s c cid) cid = (cmd? s cid).map _ := cmd?_modCmd s cid _ fun _ => rfl
  obtain ⟨hi, hz⟩ := modZone_holds hgiven (f := fun e => { e with appendPt := (zone s (cZid c)).appendPt + cCount c })
    (zone_zid _ _)
  have hgather : Gathers (cZid c) (offsetsTaken s c cid) (appendTaken s c cid lt) := gatherBlocks_gathers _ hi ..
  obtain ⟨hcmds, -, hstate, hwp, hpt⟩ := hgather
  have hkept : cmd? (appendTaken s c cid lt) cid = cmd? (offsetsGiven s c cid) cid :=
    congrArg (List.find? _) (hcmds.trans (setZone_zoneOnly ..).cmds_eq)
  have hfirst : (zone (offsetsTaken s c cid) (cZid c)).state = (zone s (cZid c)).state ∧
      (zone (offsetsTaken s c cid) (cZid c)).appendPt = (zone s (cZid c)).appendPt + cCount c ∧
      (zone (offsetsTaken s c cid) (cZid c)).wp = (zone s (cZid c)).wp := by
    unfold offsetsTaken
    rw [hz]
    exact ⟨rfl, rfl, rfl⟩
  obtain ⟨fstate, fpt, fwp⟩ := hfirst
  rw [hcmd, hd] at hkept
  exact ⟨hstate.trans fstate, hpt.trans fpt, hwp.trans fwp, _, hkept, rfl, hn, rfl⟩

/-! ### The row that a run joins -/

/-- What becomes of a partial row that a run joins. -/
def pieceRow (s : State) (c : Cmd) (rb off blk n : Nat) (r : Row) : Row :=
  { r with pieces := r.pieces ++ [{ cid := c.cid, cmdBlk := blk, first := off % rb, count := n }], lastTick := s.tick }

theorem row?_pieceAdded {r : Row} (hr : row? s r.rid = some r) (c : Cmd) (rb off blk n : Nat) :
    row? (pieceAdded s c r rb off blk n) r.rid = some (pieceRow s c rb off blk n r) := by
  have hmod : row? (pieceAdded s c r rb off blk n) r.rid = (row? s r.rid).map (pieceRow s c rb off blk n) :=
    row?_modRow s r.rid fun _ => rfl
  rw [hmod, hr]
  rfl

theorem row?_modZone (s : State) (zid rid : Nat) (f : ZoneEntry → ZoneEntry) : row? (modZone s zid f) rid = row? s rid :=
  congrArg (List.find? _) (setZone_zoneOnly ..).rows_eq

/-- A row that is full, from now on (R111). -/
def filledRow (s : State) (acked : Nat) (r : Row) : Row :=
  { r with phase := .filled, fillTick := s.tick, gen := genNow s, acked := acked }

theorem rowFilled_eq (s : State) (zid rid acked : Nat) :
    rowFilled s zid rid acked = modZone (modRow s rid (filledRow s acked)) zid fun e =>
      { e with gather := 0, staged := 0, stgExt := 0, gv := false, gslot := 0, inflight := e.inflight + 1 } := rfl

theorem row?_rowFilled {rid : Nat} {r : Row} (hr : row? s rid = some r) (zid acked : Nat) :
    row? (rowFilled s zid rid acked) rid = some (filledRow s acked r) := by
  have hmod := row?_modRow s rid (f := filledRow s acked) fun _ => rfl
  rw [rowFilled_eq, row?_modZone, hmod, hr]
  rfl

/-- A filled row leaves the zone without a partial one, and counts in INFLIGHT_ROWS (R112). -/
theorem rowFilled_zone (h : oztIdx? s zid ≠ none) (rid acked : Nat) :
    let z := zone (rowFilled s zid rid acked) zid
    z.gather = 0 ∧ z.inflight = (zone s zid).inflight + 1 ∧ z.gv = false := by
  have hrow : oztIdx? (modRow s rid (filledRow s acked)) zid ≠ none := h
  have hz := (modZone_holds hrow (f := fun e =>
    { e with gather := 0, staged := 0, stgExt := 0, gv := false, gslot := 0, inflight := e.inflight + 1 }) (zone_zid _ _)).2
  rw [rowFilled_eq, hz]
  exact ⟨rfl, rfl, rfl⟩

/-- A run that does not fill the row raises GATHER. -/
theorem gatherRaised_zone (h : oztIdx? s zid ≠ none) (n : Nat) :
    let z := zone (modZone s zid fun e => { e with gather := e.gather + n }) zid
    z.gather = (zone s zid).gather + n ∧ z.inflight = (zone s zid).inflight ∧ z.gv = (zone s zid).gv := by
  have hz := (modZone_holds h (f := fun e => { e with gather := e.gather + n }) (zone_zid _ _)).2
  rw [hz]
  exact ⟨rfl, rfl, rfl⟩

end

/-- Settles O37: an append is tried at once (`zoneAppend_tried`) and fares as the acceptance test answers; what it takes is
`appendTaken_pointers`, and a run that joins the partial row `gatherRun_joins`. -/
theorem appendsTakeOffsetsInOrder : Obligations.AppendsTakeOffsetsInOrder := by
  unfold Obligations.AppendsTakeOffsetsInOrder
  refine ⟨fun s cid op i c lt hop hs hb hothers => ?accept, fun s c r rb off blk n hp hr hi => ?joins⟩
  case accept =>
    intro u d zid e n hl hheld
    have hd : cmd? u cid = some d := cmd?_running hs
    have hexec : exec i s = ok (pump (tryAppend u cid)) := by
      rw [← zoneAppend_tried hs hb hothers]
      rcases hop with ⟨rfl, rfl⟩ | ⟨rfl, rfl⟩ <;> rfl
    have tried {t : State} (h : tryAppend u cid = t) : exec i s = .next (pump t) :=
      hexec.trans (congrArg (fun t => ok (pump t)) h)
    refine ⟨fun r hz => tried (tryAppend_checked hd hl hz), fun hz => ⟨fun r ha => tried (tryAppend_refused hd hl hz ha),
      fun r b ha => tried (tryAppend_flagged hd hl hz ha), fun v ha ho => ?takes, fun ha => ?waits, fun h2 hoff => ?offset,
      fun hcap => acceptTest_capacity (s := u) hcap, fun hi hroom => acceptTest_room (s := u) hi hroom⟩⟩
    case takes =>
      obtain ⟨⟨b, hidx, hentry⟩, honly⟩ := openZone_holds ho hheld
      have hcmd : cmd? v cid = some d := by
        unfold cmd?
        rw [honly.cmds_eq]
        exact hd
      obtain ⟨hstate, hpt, hwp, hf⟩ := appendTaken_pointers (c := d) lt hidx hcmd rfl
      refine ⟨appendTaken v d cid lt, tried (tryAppend_takes hd hl hz ha ho), ?_, ?_, ?_, ?_⟩
      · exact hstate.trans (by rw [show zone v (cZid d) = _ from hentry]; rfl)
      · exact hpt.trans (by rw [show zone v (cZid d) = _ from hentry]; rfl)
      · exact hwp.trans (by rw [show zone v (cZid d) = _ from hentry]; rfl)
      · rw [show zone v (cZid d) = _ from hentry] at hf
        exact hf
    case waits =>
      intro x q needs
      have hwaits := tryAppend_waits hd hl hz ha
      exact ⟨fun h1 h2 => tried (hwaits.trans (if_pos ⟨h1, h2⟩)),
        fun h => tried (hwaits.trans (if_neg fun g => h.elim (fun h => h g.1) fun h => absurd g.2 (Nat.not_lt.2 h)))⟩
    case offset =>
      have hopc : opc d = 2 := (startable_opc hs).trans h2
      refine (acceptTest_offset (s := u) (c := d) (zid := zid) (lt := lt) hopc hoff).trans ?_
      unfold zoneConflict
      rw [if_pos hopc]
      rfl
  case joins =>
    intro e t z
    obtain ⟨-, -, hstate, hwp, hpt⟩ := gatherRun_gathers hi c rb off blk n
    refine ⟨hpt, hwp, hstate, ?_⟩
    have hpiece := row?_pieceAdded hr c rb off blk n
    have hheld : oztIdx? (pieceAdded s c r rb off blk n) r.zid ≠ none := hi
    have hkept : zone (pieceAdded s c r rb off blk n) r.zid = e := rfl
    have ht : t = _ := gatherRun_joins hp c rb off blk n
    by_cases hfull : off % rb + n = rb
    · rw [if_pos hfull] at ht
      have hz := rowFilled_zone hheld r.rid e.staged
      rw [hkept, ← ht] at hz
      have hrow := row?_rowFilled hpiece r.zid e.staged
      rw [← ht] at hrow
      exact ⟨_, hrow, rfl, rfl, fun _ => ⟨rfl, rfl, rfl, hz⟩, fun h => absurd hfull h⟩
    · rw [if_neg hfull] at ht
      have hz := gatherRaised_zone hheld n
      rw [hkept, ← ht] at hz
      have hrow : row? t r.rid = some (pieceRow s c rb off blk n r) := by rw [ht, row?_modZone, hpiece]
      have hphase : r.phase = .gathering := partial?_gathering hp
      exact ⟨_, hrow, rfl, rfl, fun h => absurd h hfull, fun _ => ⟨hphase, hz⟩⟩

end Sys2Proof.Machine
end

-- ==== Sys2Proof/Proofs/Quiesce.lean ====
-- ZONE_OPEN, ZONE_FLUSH, ZONE_CLOSE and ZONE_FINISH (R58, R84, R101, R116): what a staging that is asked for leaves alone, and
-- how a command that waits for its appends is settled.
section
namespace Sys2Proof.Machine

variable {s : State}

/-! ### Asking for a staging -/

theorem askBufs_cmds (s : State) (q n : Nat) (who : BufFor) : (askBufs s q n who).cmds = s.cmds := by
  have asked (l : List Nat) (t : State) : (l.foldl (fun t _ => poolAsk t q (.take who)) t).cmds = t.cmds := by
    induction l generalizing t with
    | nil => rfl
    | cons _ l ih => exact ih _
  exact asked ..

/-- A staging that is asked for touches no command. -/
theorem wantStaging_cmds (s : State) (zid : Nat) (spill : Bool) (dl : Option Nat) :
    (wantStaging s zid spill dl).cmds = s.cmds := by
  unfold wantStaging
  split
  · rfl
  · dsimp only
    split
    · exact askBufs_cmds ..
    · rfl

/-! ### A zone whose state changes, under its number -/

section
variable {zid : Nat}

theorem zone_stateSet (hz : zid < 2 ^ 19) {e : ZoneEntry} (he : e.zid = zid) (ho : e.overlay = (zone s zid).overlay)
    (hs : e.state < 16) : (zone (setZone s e) zid).state = e.state := by
  subst he
  exact zone_setZone_state hs (.inl ho) hz

theorem zone_wpKept {e : ZoneEntry} (he : e.zid = zid) (hw : e.wp = (zone s zid).wp) :
    (zone (setZone s e) zid).wp = e.wp := by
  subst he
  exact zone_setZone_wp hw

end

/-! ### A command that waits for its appends (R84, R101) -/

section
variable {c : Cmd}

/-- With the journal stopped, what needs an entry is refused (R283, R287). -/
theorem settleWaiter_stopped (hs : s.jrn.stopped = true)
    (h : (needsZone s (opc c) (cZid c) || (decide ((zone s (cZid c)).wp < c.mark) && needsExtent s (cZid c) c.mark)) = true) :
    settleWaiter s c = finish s c.cid (res stConflict) := by
  unfold settleWaiter
  simp only [hs, h, Bool.and_self, if_true]

variable (hs : s.jrn.stopped = false)
include hs

/-- Blocks that a staging left over are staged again (R116). -/
theorem settleWaiter_restages (h : (zone s (cZid c)).wp < c.mark) : settleWaiter s c =
    if unstagedBelow s (cZid c) c.mark then wantStaging s (cZid c) false c.deadline else s := by
  unfold settleWaiter
  simp only [hs, h, Bool.false_and, Bool.false_eq_true, if_false, if_true]

variable (hm : c.mark ≤ (zone s (cZid c)).wp)
include hm

theorem settleWaiter_flush (h : opc c = 8) :
    settleWaiter s c = finish s c.cid { status := stOk, ra := (zone s (cZid c)).wp } := by
  unfold settleWaiter
  simp only [hs, Nat.not_lt.2 hm, h, Bool.false_and, Bool.false_eq_true, if_false, if_true]

/-- Appends accepted meanwhile are waited for too. -/
theorem settleWaiter_waitsOn (h : opc c = 6 ∨ opc c = 7) (ha : c.mark < (zone s (cZid c)).appendPt) : settleWaiter s c =
    wantStaging (modCmd s c.cid fun d => { d with mark := (zone s (cZid c)).appendPt }) (cZid c) false c.deadline := by
  have h8 : opc c ≠ 8 := fun h8 => by rw [h8] at h; exact absurd h (by decide)
  unfold settleWaiter
  simp only [hs, Nat.not_lt.2 hm, h8, ha, Bool.false_and, Bool.false_eq_true, if_false, if_true]

variable (ha : (zone s (cZid c)).appendPt ≤ c.mark)
include ha

theorem settleWaiter_close (h : opc c = 6) (h1 : (zone s (cZid c)).state = 1) : settleWaiter s c =
    finishDurable (oztFree (jrnZone (setZone s { zone s (cZid c) with state := 2 }) (cZid c)) (cZid c)) c.cid
      { status := stOk, ra := (zone s (cZid c)).wp } := by
  have h8 : ¬(6 : Nat) = 8 := by decide
  unfold settleWaiter
  simp only [hs, Nat.not_lt.2 hm, Nat.not_lt.2 ha, h8, h, h1, Bool.false_and, Bool.false_eq_true, if_false, if_true]

theorem settleWaiter_finish (h : opc c = 7) (h3 : (zone s (cZid c)).state ≠ 3) :
    let v := jrnZone (setZone s { zone s (cZid c) with state := 3 }) (cZid c)
    settleWaiter s c = finishDurable (if (zone v (cZid c)).inflight = 0 then oztFree v (cZid c) else v) c.cid
      { status := stOk, ra := (zone s (cZid c)).wp } := by
  have h8 : opc c ≠ 8 := fun h8 => absurd (h.symm.trans h8) (by decide)
  have h6 : opc c ≠ 6 := fun h6 => absurd (h.symm.trans h6) (by decide)
  unfold settleWaiter
  simp only [hs, Nat.not_lt.2 hm, Nat.not_lt.2 ha, h8, h6, h3, Bool.false_and, Bool.false_eq_true, if_false]

end

/-! ### ZONE_OPEN -/

section
variable {cid : Nat} {c : Cmd}

/-- The tenant that a ZONE_OPEN binds an EMPTY zone to (R58). -/
def openOwner (s : State) (c : Cmd) : Nat := if ringTenant s c.ring = 0 then bits (cP0 c) 27 16 else ringTenant s c.ring

variable (h : startable s cid 5 = some c) (hb : boundaryHolds s cid 5 = false) (hz : zoneCheck (running s cid) c = none)
include h hb hz

theorem zoneOpen_stopped (hs : s.jrn.stopped = true) (h1 : (zone s (cZid c)).state ≠ 1) :
    zoneOpen s cid = finish (running s cid) cid (res stConflict) := by
  unfold zoneOpen
  rw [zoneStart_runs h hb hz]
  simp [hs, h1]

variable (hs : s.jrn.stopped = false ∨ (zone s (cZid c)).state = 1)
include hs

theorem zoneOpen_full
    (ho : openZone (running s cid) (cZid c) (openOwner (running s cid) c) (some (bits (cP0 c) 7 0)) = none) :
    zoneOpen s cid = finish (hopFlag (running s cid) 0) cid { status := stNoSlot, detail := 1 } := by
  unfold openOwner at ho
  unfold zoneOpen
  rw [zoneStart_runs h hb hz]
  rcases hs with hs | hs <;> simp [hs, ho]

theorem zoneOpen_opens {v : State}
    (ho : openZone (running s cid) (cZid c) (openOwner (running s cid) c) (some (bits (cP0 c) 7 0)) = some v) :
    zoneOpen s cid = finishDurable v cid { status := stOk, ra := (oztIdx? v (cZid c)).getD 0 } := by
  unfold openOwner at ho
  unfold zoneOpen
  rw [zoneStart_runs h hb hz]
  rcases hs with hs | hs <;> simp [hs, ho]

end

/-! ### ZONE_FLUSH, ZONE_CLOSE and ZONE_FINISH -/

section
variable {cid op : Nat} {c : Cmd} (h : startable s cid op = some c) (hb : boundaryHolds s cid op = false)
  (hz : zoneCheck (running s cid) c = none)
include h hb hz

theorem zoneQuiesce_stopped (hs : (s.jrn.stopped &&
      (needsZone (running s cid) op (cZid c) || needsExtent (running s cid) (cZid c) (zone s (cZid c)).appendPt)) = true) :
    zoneQuiesce s cid op = finish (running s cid) cid (res stConflict) := by
  unfold zoneQuiesce
  rw [zoneStart_runs h hb hz]
  exact if_pos hs

variable (hs : (s.jrn.stopped &&
  (needsZone (running s cid) op (cZid c) || needsExtent (running s cid) (cZid c) (zone s (cZid c)).appendPt)) = false)
include hs

/-- An EMPTY zone is finished at once, under its ring's tenant. -/
def finishedEmpty (s : State) (c : Cmd) : ZoneEntry :=
  { zone s (cZid c) with
    state := 3, zid := cZid c, tv := true, tenant := ringTenant s c.ring, layout := (layoutIdx s (cZid c)).getD 0 }

theorem zoneQuiesce_empty (h7 : op = 7 ∧ (zone s (cZid c)).state = 0) :
    zoneQuiesce s cid op = finishDurable (jrnZone (setZone (running s cid) (finishedEmpty (running s cid) c)) (cZid c)) cid
      { status := stOk, ra := (zone s (cZid c)).wp } := by
  unfold zoneQuiesce
  rw [zoneStart_runs h hb hz]
  exact (if_neg (ne_true_of_eq_false hs)).trans (if_pos h7)

/-- The others mark the append point, ask for a staging and are settled. -/
theorem zoneQuiesce_settles (h7 : ¬(op = 7 ∧ (zone s (cZid c)).state = 0)) :
    zoneQuiesce s cid op =
      settleWaiter
        (wantStaging (modCmd (running s cid) cid fun c' => { c' with mark := (zone s (cZid c)).appendPt }) (cZid c) false
          c.deadline)
        { c with issued := true, stage := .running, mark := (zone s (cZid c)).appendPt } := by
  have hcmd : cmd? (wantStaging (modCmd (running s cid) cid fun c' => { c' with mark := (zone s (cZid c)).appendPt })
      (cZid c) false c.deadline) cid =
        some { c with issued := true, stage := .running, mark := (zone s (cZid c)).appendPt } := by
    unfold cmd?
    rw [wantStaging_cmds]
    have hmod := cmd?_modCmd (running s cid) cid (fun c' => { c' with mark := (zone s (cZid c)).appendPt }) fun _ => rfl
    rw [cmd?_running h] at hmod
    exact hmod
  unfold zoneQuiesce
  rw [zoneStart_runs h hb hz]
  refine (if_neg (ne_true_of_eq_false hs)).trans ((if_neg h7).trans ?_)
  dsimp only [zone_running]
  rw [hcmd]

end

/-- Settles O38: an opened zone is what `openZone_holds` says, and how the commands that wait are settled is said once per case of
`settleWaiter`. -/
theorem zonesOpenCloseAndFinish : Obligations.ZonesOpenCloseAndFinish := by
  unfold Obligations.ZonesOpenCloseAndFinish
  intro s cid c u zid e ten owner d hz hheld
  have hzid : zid < 2 ^ 19 := Nat.mod_lt _ (by decide)
  have hez : e.zid = zid := zone_zid s zid
  refine ⟨fun h hb hs h1 => congrArg (fun t => ok (pump t)) (zoneOpen_stopped h hb hz hs h1),
    fun h hb hs => ⟨fun ho => congrArg (fun t => ok (pump t)) (zoneOpen_full h hb hz hs ho), fun v ho => ?opens⟩,
    fun p hp h hb => ?quiesce, fun t m => ?settled⟩
  case opens =>
    obtain ⟨⟨b, -, hentry⟩, -⟩ := openZone_holds ho hheld
    refine ⟨congrArg (fun t => ok (pump t)) (zoneOpen_opens h hb hz hs ho), ?_⟩
    rw [hentry]
    exact ⟨rfl, rfl, rfl, fun h0 => ⟨if_pos h0, if_pos h0⟩, fun h0 => if_neg h0⟩
  case quiesce =>
    have hexec : exec p.2 s = ok (pump (zoneQuiesce s cid p.1)) := by
      simp only [List.mem_cons, List.not_mem_nil, or_false] at hp
      rcases hp with rfl | rfl | rfl <;> rfl
    have ends {t : State} (h : zoneQuiesce s cid p.1 = t) : exec p.2 s = .next (pump t) :=
      hexec.trans (congrArg (fun t => ok (pump t)) h)
    refine ⟨fun hs => ends (zoneQuiesce_stopped h hb hz hs), fun hs h7 => ?_,
      fun hs h7 => ends (zoneQuiesce_settles h hb hz hs h7)⟩
    exact ⟨_, ends (zoneQuiesce_empty h hb hz hs h7), zone_stateSet hzid rfl rfl (show 3 < 16 by decide), zone_wpKept rfl rfl⟩
  case settled =>
    intro z
    have hstate (n : Nat) (hn : n < 16) : (zone (setZone t { z with state := n }) zid).state = n :=
      zone_stateSet hzid (e := { z with state := n }) (zone_zid t zid) rfl hn
    refine ⟨fun hs h => settleWaiter_stopped (c := d m) hs h, fun hs => ⟨fun h => settleWaiter_restages (c := d m) hs h,
      fun hm h => settleWaiter_flush (c := d m) hs hm h, fun hm h ha => settleWaiter_waitsOn (c := d m) hs hm h ha,
      fun ha hm h h1 => ⟨_, settleWaiter_close (c := d m) hs hm ha h h1, rfl, hstate 2 (by decide)⟩,
      fun ha hm h h3 => ⟨_, ?_, rfl, hstate 3 (by decide)⟩⟩⟩
    refine (settleWaiter_finish (c := d m) hs hm ha h h3).trans ?_
    exact apply_ite (fun v => finishDurable v c.cid { ra := z.wp }) _ _ _

end Sys2Proof.Machine
end

-- ==== Sys2Proof/Proofs/ZoneResets.lean ====
-- The end of a reset, of a zone number that does not fit ZONE's 19 bits: the entry in the zone table has its state beside the
-- number (R99), and a larger number reaches it.
section
namespace Sys2Proof.Machine

variable {s : State}

/-- In the zone table, bit 28 of a zone's number stands where the state does. -/
theorem zone_setZone_wide {e : ZoneEntry} (hz : e.zid = 2 ^ 28) (hs : e.state = 0) (ho : e.overlay = 0)
    (h : oztIdx? s e.zid = none) : (zone (setZone s e) e.zid).state = 1 := by
  rw [zone_setZone_unheld h]
  show bits (fieldAt (packZone _) 0 4) 31 28 = 1
  rw [(packZone_words _).1, hz, hs, ho]
  simp [b2n, bits]

/-- The command of a reset whose erases have ended well. -/
def erasedCmd : Cmd := { cid := 0, ring := 0, fetchNo := 0, home := 0, pkt := [] }

/-- The block out of reset, but for that command. -/
def erasedState : State := { State.reset with cmds := [erasedCmd] }

/-- Refutes O39: its last clause, on the end of a reset, is stated for every zone number and not only for those of the hardware,
below 2 ^ 19, where `zone_setZone_state` gives the state. Zone 2 ^ 28 has no OZT entry, and its entry in the zone table reads
state 1 after a reset that ended well. -/
theorem not_zonesAreReadAndReset : ¬ Obligations.ZonesAreReadAndReset := by
  unfold Obligations.ZonesAreReadAndReset
  rintro ⟨-, -, -, hend⟩
  obtain ⟨v, hstate, -, -, -, rfl, -⟩ := (hend erasedState 0 (2 ^ 28) erasedCmd rfl).1 rfl rfl
  have hwide : (zone (setZone erasedState { zone erasedState (2 ^ 28) with
      state := 0, tv := false, tenant := 0, wp := 0, appendPt := 0, overlay := 0 }) (2 ^ 28)).state = 1 :=
    zone_setZone_wide rfl rfl rfl rfl
  exact absurd (hstate.symm.trans hwide) (by decide)

end Sys2Proof.Machine
end

