-- ==== Sys2Proof/Proofs/OptionArea.lean ====
section
/-! The key of the option area (R178, R179): a first key arms its copy, a second write opens it or sets OA_KEY, and what relocks it. -/

namespace Sys2Proof.Machine

section
variable {s : State} {n v : Nat}

/-! ### The two keys (R178) -/

/-- The low two bits of a first key name its copy. -/
theorem oaFirst_arms (hn : n < 4) :
    oaFirst s (0x0A5E0000 + n) = { s with boot := { s.boot with key := some n, keyAt := s.tick, armed := true } } := by
  have hcopy : (0x0A5E0000 + n) % 4 = n := by omega
  unfold oaFirst
  rw [if_pos (by omega), hcopy]

/-- The area after a second write that does not open it. -/
def oaShut (s : State) : State := { s with boot := { s.boot with key := none, armed := false } }

theorem oaSecond_opens (ha : s.boot.armed = true) (ht : s.tick < s.boot.keyAt + 1000) :
    oaSecond s n (0xF5A10000 + n) =
      { oaShut s with boot := { (oaShut s).boot with unlock := some n, openAt := s.tick } } :=
  if_pos (by simp [ha, ht])

/-- A second write without an open window, with another value, or late sets OA_KEY. -/
theorem oaSecond_refused (h : s.boot.armed = false ∨ v ≠ 0xF5A10000 + n ∨ s.boot.keyAt + 1000 ≤ s.tick) :
    oaSecond s n v = wpFlag (oaShut s) 1 := by
  refine if_neg fun hgood => ?_
  obtain ⟨⟨harmed, hkey⟩, htime⟩ : (s.boot.armed = true ∧ v = 0xF5A10000 + n) ∧ s.tick < s.boot.keyAt + 1000 := by
    simpa using hgood
  rcases h with h | h | h
  · exact absurd harmed (ne_true_of_eq_false h)
  · exact h hkey
  · omega

/-! ### A write to WP_OA_UNLOCK (R178, R179) -/

theorem oaWrite_first (hk : s.boot.key = none) (hv : v ≠ 0) : oaWrite s v = oaFirst s v := by
  unfold oaWrite
  rw [if_neg hv, hk]

/-- A write that follows a first key is a second one, unless it is a first key after the window. -/
theorem oaWrite_second (hk : s.boot.key = some n) (hv : v ≠ 0) (h : s.boot.armed = true ∨ v / 4 ≠ 0x0A5E0000 / 4) :
    oaWrite s v = oaSecond s n v := by
  unfold oaWrite
  rw [if_neg hv, hk]
  exact if_neg (by rcases h with h | h <;> simp [h])

/-- A write of 0 relocks; in the place of a second key it is a wrong one. -/
theorem oaWrite_zero : oaWrite s 0 = oaRelock (if s.boot.key.isSome then wpFlag s 1 else s) := rfl

/-- A relock in which no first key waits for its second. -/
theorem oaRelock_noKey (hk : s.boot.key = none) :
    oaRelock s = { s with boot := { s.boot with armed := false, unlock := none } } :=
  congrArg (fun k => { s with boot := { s.boot with key := k, armed := false, unlock := none } }) hk.symm

/-! ### What time ends -/

theorem oaWindow_ends (ha : s.boot.armed = true) (ht : s.boot.keyAt + 1000 ≤ s.tick) :
    oaWindow s = { s with boot := { s.boot with armed := false } } :=
  if_pos (by simp [ha, due, ht])

theorem oaExpire_relocks (hu : s.boot.unlock = some n) (ht : s.boot.openAt + 100000000 ≤ s.tick) :
    oaExpire s = { s with boot := { s.boot with unlock := none } } :=
  if_pos (by simp [hu, due, ht])

theorem oaExpire_early (ht : s.tick < s.boot.openAt + 100000000) : oaExpire s = s :=
  if_neg (by simp [due, Nat.not_le.2 ht])

/-- A free control port takes every write to WP_OA_UNLOCK. -/
theorem pump_oaWrite (h : PortFree s) (v : Nat) :
    ok (pump (cpWrite s fun s => oaWrite s v)) = .next (pump (oaWrite { s with cpResp := 0 } v)) := by
  rw [cpWrite_free h]
  rfl

end

/-- Settles O24: each write is `oaFirst`, `oaSecond` or a relock (`oaWrite_first`, `oaWrite_second`, `oaWrite_zero`), and the two
expiries act once their ticks have passed. -/
theorem optionAreaNeedsBothKeys : Obligations.OptionAreaNeedsBothKeys := by
  unfold Obligations.OptionAreaNeedsBothKeys
  intro s v n hport hn x shut
  have write (i : Instr) (v : Nat) (hi : exec i s = ok (pump (cpWrite s fun s => oaWrite s v))) {t : State}
      (ht : oaWrite x v = t) : exec i s = .next (pump t) := by
    rw [hi, pump_oaWrite hport, ht]
  refine ⟨fun hk hv => ?first, fun hk ha hv ht => ?opens, fun hk ha h0 h => ?wrong, fun hk => ?relock, fun hk => ?relockKey,
    fun ha ht => ?window, fun hk ha hv => ?closed, fun hu ht => ?expires, fun ht => ?early⟩
  case first => exact write _ _ rfl (by rw [hv, oaWrite_first (s := x) hk (by omega), oaFirst_arms hn])
  case opens =>
    exact write _ _ rfl (by rw [hv, oaWrite_second (s := x) hk (by omega) (.inl ha), oaSecond_opens (s := x) ha ht]; rfl)
  case wrong =>
    exact write _ _ rfl (by rw [oaWrite_second (s := x) hk h0 (.inl ha), oaSecond_refused (s := x) (.inr h)]; rfl)
  case relock =>
    refine write _ _ rfl (oaWrite_zero.trans ?_)
    rw [if_neg (by simp [x, hk]), oaRelock_noKey (s := x) hk]
  case relockKey =>
    refine write _ _ rfl (oaWrite_zero.trans ?_)
    rw [if_pos (by simp [x, hk])]
    rfl
  case window => exact congrArg Host.Outcome.next (oaWindow_ends ha ht)
  case closed =>
    have hsecond : v.toNat / 4 ≠ 0x0A5E0000 / 4 := by omega
    exact write _ _ rfl (by rw [oaWrite_second (s := x) hk (by omega) (.inr hsecond), oaSecond_refused (s := x) (.inl ha)]; rfl)
  case expires => exact congrArg (fun t => ok (pump t)) (oaExpire_relocks hu ht)
  case early => exact congrArg (fun t => ok (pump t)) (oaExpire_early ht)

end Sys2Proof.Machine
end

