-- ==== Sys2Proof/Proofs/Operations.lean ====
section
/-! Operations by number: what a change of one, the bytes on its bus and its end leave, and what a raw command that is refused
sets (R189). -/

namespace Sys2Proof.Machine

/-! ### The one element of a list with a property -/

theorem find?_of_unique {α : Type} {p : α → Bool} {l : List α} {a : α} (ha : a ∈ l) (hp : p a = true)
    (hu : ∀ x ∈ l, p x = true → x = a) : l.find? p = some a := by
  cases h : l.find? p with
  | none => exact absurd hp (List.find?_eq_none.1 h a ha)
  | some b => rw [hu b (List.mem_of_find?_eq_some h) (List.find?_some h)]

/-- An element without the property stays where the first one with it is changed. -/
theorem mem_modFirst_of_not {α : Type} {p : α → Bool} (f : α → α) {l : List α} {x : α} (hx : x ∈ l) (hp : ¬p x = true) :
    x ∈ modFirst p f l := by
  induction l with
  | nil => cases hx
  | cons y r ih =>
    unfold modFirst
    rcases List.mem_cons.1 hx with rfl | hr
    · rw [if_neg hp]
      exact List.mem_cons_self
    · split
      · exact List.mem_cons_of_mem _ hr
      · exact List.mem_cons_of_mem _ (ih hr)

section
variable {s : State}

/-! ### One operation changed -/

/-- The operation that a number names. -/
def op? (s : State) (id : Nat) : Option Op := s.ops.find? (fun x => x.id = id)

theorem id_of_op? {id : Nat} {o : Op} (h : op? s id = some o) : o.id = id := by simpa using List.find?_some h

theorem op?_modOp {id : Nat} {o : Op} (h : op? s id = some o) {f : Op → Op} (hf : ∀ x, (f x).id = x.id) :
    op? (modOp s id f) id = some (f o) := by
  have hmod : op? (modOp s id f) id = (op? s id).map f := find?_modFirst _ f (fun x hx => by simpa [hf x] using hx) s.ops
  rw [hmod, h]
  rfl

/-- The other operations stay. -/
theorem mem_modOp {id : Nat} {x : Op} (hx : x ∈ s.ops) (hid : x.id ≠ id) (f : Op → Op) : x ∈ (modOp s id f).ops :=
  mem_modFirst_of_not f hx (by simpa using hid)

/-! ### Operations queued -/

@[simp] theorem queueOp_ops (s : State) (o : Op) :
    (queueOp s o).ops = s.ops ++ [{ o with id := s.nextId, gen := genNow s }] := rfl

theorem queueOp_frame (s : State) (o : Op) :
    queueOp s o = { s with ops := (queueOp s o).ops, nextId := (queueOp s o).nextId } := rfl

/-! ### The bus -/

/-- The bytes that a channel's bus last carried, and for which chip enable. -/
theorem busPut_bus (s : State) (g : Nat) (l : List Byte) :
    (tget (busPut s g l).buses (chOf g) {}).bytes = l ∧ (tget (busPut s g l).buses (chOf g) {}).ce = some (ceOf g) := by
  simp [busPut]

/-- A byte of a die model, as a field of one byte. -/
theorem dmByte_eq (d : List Byte) (o : Nat) : dmByte d o = BitVec.ofNat 8 (fieldAt d o 1) := by
  unfold dmByte fieldAt slice
  cases d.drop o with
  | nil => rfl
  | cons b r => simp [leNat]

/-! ### Raw commands that are refused (R189) -/

theorem regCsqStatus_ne_wp (c : Nat) : regWpStatus ≠ regCsqStatus c ∧ regWpStatus ≠ regCsqStatus c + 4 := by
  unfold regWpStatus regCsqStatus chanBase
  omega

/-- A refusal sets RAW_REFUSED and changes registers only. -/
theorem csqFlag_refused (u : State) (g : Nat) :
    csqFlag u (chOf g) 3 = { u with regs := (csqFlag u (chOf g) 3).regs } ∧
      bit (rd (csqFlag u (chOf g) 3) (regCsqStatus (chOf g))) 3 = true :=
  ⟨rfl, sticky_bit u _ 3 (by decide)⟩

/-- A refusal by protection sets WP_HIT and RAW_REFUSED, and changes registers only. -/
theorem wpFlag_refused (u : State) (g : Nat) :
    csqFlag (wpFlag u 0) (chOf g) 3 = { u with regs := (csqFlag (wpFlag u 0) (chOf g) 3).regs } ∧
      bit (rd (csqFlag (wpFlag u 0) (chOf g) 3) (regCsqStatus (chOf g))) 3 = true ∧
      bit (rd (csqFlag (wpFlag u 0) (chOf g) 3) regWpStatus) 0 = true := by
  obtain ⟨hstatus, hcount⟩ := regCsqStatus_ne_wp (chOf g)
  refine ⟨rfl, sticky_bit _ _ 3 (by decide), ?_⟩
  unfold csqFlag
  rw [rd_sticky_ne _ hstatus (by simpa using hcount)]
  exact sticky_bit u _ 0 (by decide)

end

end Sys2Proof.Machine
end

