-- ==== Sys2Proof/Proofs/RawSequences.lean ====
section
/-! RAW_SEQUENCE (R184 to R187, R189): what refuses it, the operation it is queued as, and the end of a wait. -/

namespace Sys2Proof.Machine

/-- The entries that R185 asks for. -/
theorem rsOk_iff (b : List Byte) (n : Nat) :
    rsOk b n = true ↔ (∃ e, e < n ∧ rsKind b e = 0) ∧ (∀ i, i < n → rsKind b i ≤ 6) ∧ (rsRuns b n).sum ≤ 524288 ∧
      ∀ x ∈ rsRuns b n, x ≤ 65536 := by
  simp [rsOk, and_assoc]

/-! ### A sequence that starts -/

section
variable {s : State} {cid : Nat} {c : Cmd}

/-- The operation of a sequence that waits for its admission. -/
def seqOp (s : State) (cid : Nat) (c : Cmd) : Op :=
  { id := 0, kind := .x, type := .rawSeq, glun := rawGlun c, block := 0, wl := 0, deadline := (rawWork s c).deadline,
    real := (rawWork s c).real, share := (rawWork s c).share, use := .raw cid }

/-- A sequence with its entries kept, at the first of them; its last status byte is a free value until it polls. -/
def seqQueued (s : State) (cid : Nat) (c : Cmd) (b : List Byte) : State :=
  queueOp (modCmd (freeVal s).2 cid fun c => { c with bytes := b, acc := [0, 0, 0], first := (freeVal s).1 % 256 }) (seqOp s cid c)

theorem rawSequence_gaveUp (h : startable s cid 0x40 = some c) {mp : PortEnd} (hmp : mp ≠ .ok) :
    ∃ v r, rawSequence s cid mp = finish v c.cid r ∧
      PortGaveUp [(0, cPtr c, 8 * cCount c)] mp (running s cid) v (2 * c.home) r := by
  unfold rawSequence
  rw [start_runs h]
  exact imageEnd_gaveUp (running s cid) c (8 * cCount c) mp _ hmp

/-- The order in which a sequence whose image has come is checked (R189). -/
theorem rawSequence_fetched (h : startable s cid 0x40 = some c) :
    let u := running s cid
    let g := rawGlun c
    let b := dramRead u (cPtr c) (8 * cCount c)
    rawSequence s cid .ok =
      if (!rsOk b (cCount c)) = true then finish u cid (badField 0x18)
      else if rawFenced u g = true then finish u cid (fencedResult g 0)
      else if g % 1024 = 0 then rawRefuse u cid g (res stProtected)
      else if rawHeld u g 0 4096 = true then rawRefuse u cid g (res stConflict)
      else if (protected? u g && rsWrites b (cCount c) (dieOf u g)) = true then rawRefuse (wpFlag u 0) cid g (res stProtected)
      else seqQueued u cid c b := by
  unfold rawSequence
  rw [start_runs h]
  rfl

end

/-! ### The end of a wait (R187) -/

section
variable {s : State} {g : Nat} {o : Op} {cid i : Nat} {c : Cmd}

/-- The sequence goes on behind its wait, as an operation that is to be admitted again (R351). -/
def seqGoesOn (s : State) (o : Op) : State :=
  modOp (releaseOp s o) o.id fun o => { o with phase := .waiting, pages := 1, peak := 0 }

theorem op?_seqGoesOn (h : op? s o.id = some o) :
    op? (seqGoesOn s o) o.id = some { o with phase := .waiting, pages := 1, peak := 0 } :=
  op?_modOp (s := releaseOp s o) h fun _ => rfl

/-- A sequence that has timed out ends after RESET_LUN, with the timeout mark. -/
theorem rsEnd_timedOut (s : State) (o : Op) (c : Cmd) (i : Nat) :
    rsEnd s o c i true =
      finish (resetLun (dropOp s o) o.glun) c.cid { status := 0, ra := o.glun, rb := i * 2 ^ 16 + 2 ^ 8 + c.first } := by
  simp only [rsEnd, b2n, if_true, Nat.one_mul]
  rfl

/-- A LUN on which no sequence waits. -/
theorem rawWaitEnd_none (h : ∀ o ∈ s.ops, o.glun = g → o.type ≠ .rawSeq ∨ o.phase ≠ .busy) (status : Nat) (late : Bool) :
    rawWaitEnd s g status late = s := by
  have hnone : s.ops.find? (fun o => decide (o.glun = g) && decide (o.type = .rawSeq) && decide (o.phase = .busy)) = none := by
    refine List.find?_eq_none.2 fun x hx hwaits => ?_
    obtain ⟨⟨hg, ht⟩, hp⟩ : (x.glun = g ∧ x.type = .rawSeq) ∧ x.phase = .busy := by simpa using hwaits
    rcases h x hx hg with e | e
    · exact e ht
    · exact e hp
  unfold rawWaitEnd
  rw [hnone]

/-- A sequence that stands in the wait of its entry `i`. -/
structure SeqWaits (s : State) (g : Nat) (o : Op) (cid : Nat) (c : Cmd) (i : Nat) : Prop where
  found : s.ops.find? (fun o => decide (o.glun = g) && decide (o.type = .rawSeq) && decide (o.phase = .busy)) = some o
  use : o.use = .raw cid
  cmd : cmd? s cid = some c
  entry : c.acc.getD 0 0 = i + 1

/-- The poll of a WAIT_RDY: STATUS and the last row address, and the status byte that it brings. -/
def seqPolled (s : State) (g cid : Nat) (c : Cmd) (status : Nat) : State :=
  modCmd (busPut s g (BitVec.ofNat 8 (fieldAt (dieOf s g) 0x21 1) :: (c.acc.drop 3).map (BitVec.ofNat 8))) cid
    fun _ => { c with first := status }

/-- The ticks of the entry have passed since the wait began. -/
def seqDue (s : State) (o : Op) (c : Cmd) (i : Nat) : Bool := due s o.confirm (rsValue c.bytes i)

/-- What the end of the wait of an entry does. -/
theorem rawWaitEnd_waits (h : SeqWaits s g o cid c i) (status : Nat) (hs : status < 256) (late : Bool) :
    rawWaitEnd s g status late =
      if rsKind c.bytes i = 5 then
        if ((late && !seqDue s o c i) || !busOpen s (chOf g)) = true then s
        else if late = true then rsEnd (seqPolled s g cid c status) o { c with first := status } i true
        else seqGoesOn (seqPolled s g cid c status) o
      else if seqDue s o c i = true then seqGoesOn s o
      else s := by
  obtain ⟨hfound, huse, hcmd, hentry⟩ := h
  have hi : (rsAt c).next - 1 = i := by
    unfold rsAt
    dsimp only
    omega
  unfold rawWaitEnd
  rw [hfound]
  dsimp only
  rw [huse]
  dsimp only
  rw [hcmd]
  dsimp only
  rw [hi, Nat.mod_eq_of_lt hs, dmByte_eq]
  rfl

end

/-- Settles O49: the checks of a sequence in their order (`rawSequence_fetched`), its entries (`rsOk_iff`), and the end of the wait
at which it stands (`rawWaitEnd_waits`). -/
theorem rawSequencesRunAndWait : Obligations.RawSequencesRunAndWait := by
  unfold Obligations.RawSequencesRunAndWait
  refine ⟨fun s cid c h => ?starts, rsOk_iff, fun s g status late => ⟨fun hnone => ?idle, ?waits⟩⟩
  case starts =>
    intro u g n b refused
    have ends {t : State} (ht : rawSequence s cid .ok = t) : exec (.rawSequence cid .ok) s = .next (pump t) :=
      congrArg (fun t => ok (pump t)) ht
    have checks : rawSequence s cid .ok = _ := rawSequence_fetched h
    have hfenced : rawFenced u g = decide (rdf u (regPhyState (chOf g)) 1 0 = 3) := rfl
    have good (hb : rsOk b n = true) := checks.trans (if_neg (show ¬(!rsOk b n) = true by simp [hb]))
    have served hb (hf : rdf u (regPhyState (chOf g)) 1 0 ≠ 3) :=
      (good hb).trans (if_neg (show ¬rawFenced u g = true by simpa [hfenced] using hf))
    have outside hb hf (hg : g % 1024 ≠ 0) := (served hb hf).trans (if_neg hg)
    have unheld hb hf hg (hh : rawHeld u g 0 4096 = false) := (outside hb hf hg).trans (if_neg (ne_true_of_eq_false hh))
    refine ⟨fun mp hmp => ?gaveUp, fun hb => ?entries, fun hb hf => ?fenced, fun hb hf => ⟨fun hg => ?area, fun hg =>
      ⟨fun hh => ?held, fun hh => ⟨fun hp hw => ?protection, fun hp => ?queued⟩⟩⟩⟩
    case gaveUp =>
      obtain ⟨v, r, hv, hport⟩ := rawSequence_gaveUp h hmp
      exact ⟨v, r, congrArg (fun t => ok (pump t)) hv, hport⟩
    case entries => exact ends (checks.trans (if_pos (congrArg not hb)))
    case fenced => exact ends ((good hb).trans (if_pos (hfenced.trans (decide_eq_true hf))))
    case area =>
      obtain ⟨hregs, hbit⟩ := csqFlag_refused u g
      exact ⟨_, ends ((served hb hf).trans (if_pos hg)), hregs, hbit, fun e => absurd e (by decide)⟩
    case held =>
      obtain ⟨hregs, hbit⟩ := csqFlag_refused u g
      exact ⟨_, ends ((outside hb hf hg).trans (if_pos hh)), hregs, hbit, fun e => absurd e (by decide)⟩
    case protection =>
      obtain ⟨hregs, hbit, hwp⟩ := wpFlag_refused u g
      have hmet : (protected? u g && rsWrites b n (dieOf u g)) = true := by rw [hp, hw]; rfl
      exact ⟨_, ends ((unheld hb hf hg hh).trans (if_pos hmet)), hregs, hbit, fun _ => hwp⟩
    case queued =>
      have hopen : ¬(protected? u g && rsWrites b n (dieOf u g)) = true := by
        rcases hp with hp | hp <;> simp [hp]
      exact ⟨_, _, ends ((unheld hb hf hg hh).trans (if_neg hopen)), queueOp_ops .., rfl, rfl, rfl, rfl, rfl, rfl⟩
  case idle => exact congrArg (fun t => ok (pump t)) (rawWaitEnd_none hnone _ _)
  case waits =>
    intro o cid c i hop hglun htype hphase huse hone hcmd hcid hentry due goesOn
    have hfound : s.ops.find? (fun o => decide (o.glun = g.val) && decide (o.type = .rawSeq) && decide (o.phase = .busy)) = some o := by
      refine find?_of_unique (List.mem_of_find?_eq_some hop) (by simp [hglun, htype, hphase]) fun x hx hp => ?_
      obtain ⟨⟨hg, ht⟩, -⟩ : (x.glun = g.val ∧ x.type = .rawSeq) ∧ x.phase = .busy := by simpa using hp
      exact hone x hx hg ht
    have hend := rawWaitEnd_waits ⟨hfound, huse, hcmd, hentry⟩ status.toNat status.isLt late
    have ends {t : State} (ht : rawWaitEnd s g.val status.toNat late = t) : exec (.rawWaitEnd g status late) s = .next (pump t) :=
      congrArg (fun t => ok (pump t)) ht
    have hdue : seqDue s o c i = decide due := rfl
    have on {v : State} (hv : op? v o.id = some o) (ht : rawWaitEnd s g.val status.toNat late = seqGoesOn v o) : goesOn v :=
      ⟨_, ends ht, rfl, op?_seqGoesOn hv⟩
    refine ⟨fun h5 => ?ready, fun h6 => ⟨fun ht => ?passed, fun ht => ?lasts⟩⟩
    case ready =>
      rw [if_pos h5, hdue] at hend
      refine ⟨fun hstays => ends (hend.trans (if_pos ?_)), fun hbus hl => ?_, fun hbus hl ht => ?_⟩
      · rcases hstays with hbus | ⟨hl, ht⟩
        · simp [hbus]
        · simp [hl, ht]
      · rw [if_neg (by simp [hbus, hl])] at hend
        exact on hop (hend.trans (if_neg (ne_true_of_eq_false hl)))
      · rw [if_neg (by simp [hbus, ht])] at hend
        refine ends (hend.trans ((if_pos hl).trans ?_))
        rw [rsEnd_timedOut, hglun, ← hcid]
        rfl
    all_goals rw [if_neg (by rw [h6]; decide), hdue] at hend
    case passed => exact on hop (hend.trans (if_pos (decide_eq_true ht)))
    case lasts => exact ends (hend.trans (if_neg (by simpa using ht)))

end Sys2Proof.Machine
end

