-- ==== Sys2Proof/Proofs/BusTurns.lean ====
section
/-! Whose turn it is on a channel's bus (R154, R155): the order of the operations that need it, and what lets each need arise. -/

namespace Sys2Proof.Machine

/-! ### The least element -/

section
variable {α : Type} {key : α → Nat} {l : List α} {a x : α}

theorem minBy_mem (h : minBy key l = some a) : a ∈ l := by
  induction l generalizing a with
  | nil => cases h
  | cons y r ih =>
    unfold minBy at h
    split at h
    · cases h
      exact List.mem_cons_self
    · next z hz =>
      split at h <;> cases h
      · exact List.mem_cons_of_mem _ (ih hz)
      · exact List.mem_cons_self

theorem minBy_none (h : minBy key l = none) : l = [] := by
  cases l with
  | nil => rfl
  | cons y r =>
    unfold minBy at h
    split at h
    · cases h
    · split at h <;> cases h

theorem minBy_le (h : minBy key l = some a) (hx : x ∈ l) : key a ≤ key x := by
  induction l generalizing a with
  | nil => cases hx
  | cons y r ih =>
    unfold minBy at h
    split at h
    · next hr =>
      cases h
      rw [minBy_none hr, List.mem_singleton] at hx
      rw [hx]
    · next z hz =>
      have htail := ih hz
      rcases List.mem_cons.1 hx with rfl | hx <;> split at h <;> cases h
      · omega
      · exact Nat.le_refl _
      · exact htail hx
      · exact Nat.le_trans (by omega) (htail hx)

end

section
variable {s : State} {c d e g : Nat} {o x : Op} {n : BusNeed}

/-! ### The order (R154) -/

/-- The place of an operation in the order of a bus: its deadline, its kind and its number. -/
def turnKey (d : Nat) (o : Op) : Nat := (d * 16 + kindRank o.kind) * 2 ^ 64 + o.id

theorem kindRank_le (k : Kind) : kindRank k ≤ 8 := by cases k <;> decide

/-- The deadline comes first in the order. -/
theorem deadline_le_of_turnKey_le (h : turnKey d o ≤ turnKey e x) (hx : x.id < 2 ^ 64) : d ≤ e := by
  have hrank := kindRank_le x.kind
  unfold turnKey at h
  omega

/-- The operations of a channel that need its bus for something that it can serve. -/
def busWants (s : State) (c : Nat) : List (Nat × Op × BusNeed) :=
  (s.ops.filter (fun o => chOf o.glun = c)).filterMap fun o =>
    ((busNeed s o).filter fun p => servedIn (chanUp s c) p.2).map fun p => (p.1, o, p.2)

theorem mem_busWants {p : Nat × Op × BusNeed} :
    p ∈ busWants s c ↔ p.2.1 ∈ s.ops ∧ chOf p.2.1.glun = c ∧ busNeed s p.2.1 = some (p.1, p.2.2) ∧
      servedIn (chanUp s c) p.2.2 = true := by
  obtain ⟨d, o, n⟩ := p
  unfold busWants
  simp only [List.mem_filterMap, List.mem_filter, decide_eq_true_eq, Option.map_eq_some_iff, Option.filter_eq_some_iff]
  constructor
  · rintro ⟨_, ⟨ho, hc⟩, ⟨_, _⟩, ⟨hn, hs⟩, he⟩
    cases he
    exact ⟨ho, hc, hn, hs⟩
  · rintro ⟨ho, hc, hn, hs⟩
    exact ⟨o, ⟨ho, hc⟩, (d, n), ⟨hn, hs⟩, rfl⟩

/-- An open bus serves the first of those that need it. -/
theorem busTurn_open (h : busOpen s c = true) :
    busTurn s c = (minBy (fun p => turnKey p.1 p.2.1) (busWants s c)).map fun p => p.2 := by
  unfold busTurn
  rw [if_neg (by simp [h])]
  rfl

theorem busTurn_closed (h : busOpen s c = false) : busTurn s c = none := if_pos (by simp [h])

/-- What a turn of the bus says of its operation and of the others. -/
theorem busTurn_inv (h : busTurn s c = some (o, n)) :
    busOpen s c = true ∧ o ∈ s.ops ∧ chOf o.glun = c ∧ ∃ d, busNeed s o = some (d, n) ∧ servedIn (chanUp s c) n = true ∧
      ∀ x ∈ s.ops, chOf x.glun = c → ∀ e m, busNeed s x = some (e, m) → servedIn (chanUp s c) m = true →
        turnKey d o ≤ turnKey e x := by
  cases hopen : busOpen s c with
  | false => rw [busTurn_closed hopen] at h; cases h
  | true =>
    rw [busTurn_open hopen] at h
    obtain ⟨p, hmin, hp⟩ := Option.map_eq_some_iff.1 h
    obtain ⟨ho, hc, hn, hs⟩ := mem_busWants.1 (minBy_mem hmin)
    rw [hp] at ho hc hn hs
    refine ⟨rfl, ho, hc, p.1, hn, hs, fun x hx hxc e m hm hms => ?_⟩
    have hle := minBy_le hmin (mem_busWants.2 ⟨hx, hxc, hm, hms⟩ : (e, x, m) ∈ busWants s c)
    rwa [hp] at hle

theorem busTurn_none (h : ∀ o ∈ s.ops, chOf o.glun = c → busNeed s o = none) : busTurn s c = none := by
  cases hturn : busTurn s c with
  | none => rfl
  | some p =>
    obtain ⟨-, ho, hc, d, hn, -⟩ := busTurn_inv hturn
    rw [h _ ho hc] at hn
    cases hn

/-- A bus that carries a data-out serves nothing else. -/
theorem busOpen_leaving (h : busOpen s c = true) : ∀ x ∈ s.ops, chOf x.glun = c → x.leaving = false := by
  intro x hx hc
  unfold busOpen leavingOp at h
  have hnone := List.find?_eq_none.1 (Option.isNone_iff_eq_none.1 (Bool.and_eq_true_iff.1 h).1) x hx
  simpa [hc] using hnone

/-- A channel that is out of service serves polls alone (R218). -/
theorem servedIn_down (h : servedIn false n = true) : n = .poll := by
  cases n with
  | poll => rfl
  | phase p => cases h
  | confirm => cases h
  | resume => cases h

theorem turnOf_inv (h : turnOf s g = some (o, n)) : busTurn s (chOf g) = some (o, n) ∧ o.glun = g := by
  obtain ⟨hturn, hg⟩ := Option.filter_eq_some_iff.1 h
  exact ⟨hturn, by simpa using hg⟩

/-! ### What an operation needs the bus for -/

theorem busNeed_cases (h : busNeed s o = some (d, n)) :
    (∃ p, n = .phase p ∧ readyPhase s o = some (d, p)) ∨
    (n = .confirm ∧ mayConfirm s o = true) ∨ (n = .resume ∧ mayResume s o = true) ∨ (n = .poll ∧ mayPoll s o = true) := by
  unfold busNeed at h
  split at h
  · next p hp =>
    cases h
    exact .inl ⟨_, rfl, hp⟩
  · split at h
    · next hm => cases h; exact .inr (.inl ⟨rfl, hm⟩)
    · split at h
      · next hm => cases h; exact .inr (.inr (.inl ⟨rfl, hm⟩))
      · split at h
        · next hm => cases h; exact .inr (.inr (.inr ⟨rfl, hm⟩))
        · cases h

theorem mayConfirm_of_busNeed (h : busNeed s o = some (d, .confirm)) : mayConfirm s o = true := by
  rcases busNeed_cases h with ⟨_, ⟨⟩, _⟩ | ⟨-, hm⟩ | ⟨⟨⟩, -⟩ | ⟨⟨⟩, -⟩
  exact hm

theorem mayResume_of_busNeed (h : busNeed s o = some (d, .resume)) : mayResume s o = true := by
  rcases busNeed_cases h with ⟨_, ⟨⟩, _⟩ | ⟨⟨⟩, -⟩ | ⟨-, hm⟩ | ⟨⟨⟩, -⟩
  exact hm

theorem mayPoll_of_busNeed (h : busNeed s o = some (d, .poll)) : mayPoll s o = true := by
  rcases busNeed_cases h with ⟨_, ⟨⟩, _⟩ | ⟨⟨⟩, -⟩ | ⟨⟨⟩, -⟩ | ⟨-, hm⟩
  exact hm

theorem mayConfirm_iff : mayConfirm s o = true ↔
    (o.type = .prog ∨ o.type = .slc) ∧ o.phase = .granted ∧ opPages s o ≤ o.pages ∧
      ∀ rid j, o.use = .member rid j → memberMayStart s rid j = true := by
  unfold mayConfirm
  cases huse : o.use <;> simp [and_assoc]

theorem mayResume_inv (h : mayResume s o = true) :
    ∃ at_, o.phase = .stopped at_ ∧ ∀ x ∈ s.ops, x.glun = o.glun → x.type = .read →
      x.phase = .waiting ∨ (x.phase = .granted ∧ readsPast s o x = false) := by
  unfold mayResume at h
  obtain ⟨hphase, hreads⟩ := Bool.and_eq_true_iff.1 h
  have hstopped : ∃ at_, o.phase = .stopped at_ := by
    split at hphase
    · next n hn => exact ⟨n, hn⟩
    · cases hphase
  obtain ⟨at_, hat⟩ := hstopped
  rw [Bool.not_eq_true'] at hreads
  refine ⟨at_, hat, fun x hx hg ht => ?_⟩
  have hread := List.any_eq_false.1 hreads x hx
  by_cases hw : x.phase = .waiting
  · exact .inl hw
  · exact .inr (by simpa [hg, ht, hw] using hread)

/-- An operation in the array is polled once its first or next poll is due; a suspend is polled at once (R141, R158). -/
theorem mayPoll_inv (h : mayPoll s o = true) :
    (∃ at_, o.phase = .stopping at_ ∧ (o.polls = 0 ∨ o.lastPoll + fieldAt (dieOf s o.glun) 0x2E 2 ≤ s.tick)) ∨
    (o.phase = .busy ∧ (if o.polls = 0 then o.confirm + fieldAt (dieOf s o.glun) 0x2D 1 * dmTime (dieOf s o.glun) o.type false / 16
      else o.lastPoll + fieldAt (dieOf s o.glun) 0x2E 2) ≤ s.tick) := by
  unfold mayPoll at h
  obtain ⟨-, hphase⟩ := Bool.and_eq_true_iff.1 h
  split at hphase
  · next hbusy =>
    refine .inr ⟨hbusy, ?_⟩
    unfold pollDue due at hphase
    split at hphase
    · next h0 => rw [if_pos h0]; exact of_decide_eq_true hphase
    · next h0 => rw [if_neg h0]; exact of_decide_eq_true hphase
  · next at_ hat => exact .inl ⟨at_, hat, by simpa [due] using hphase⟩
  · cases hphase

/-- A data-out waits for room in staging SRAM (R432). -/
theorem readyPhase_noRoom (hread : o.type = .read) (hphase : o.phase = .dataOut) (hsusp : o.susp = false)
    (hroom : stagingRoom s o = false) : readyPhase s o = none := by
  unfold readyPhase
  simp [hread, hphase, hsusp, hroom]

/-- A codeword of a hard step whose data-out is still to come takes one slot (R244). -/
theorem stagingRoom_full {p : Nat × Nat × Nat} {rest : List (Nat × Nat × Nat)} {i : Item} (hcws : o.cws = p :: rest)
    (hitem : item? s p.2.2 = some i) (hstep : i.step < 0x10) (hstage : i.stage = .reading)
    (hfull : slotsFor s (chOf o.glun) i ≤ slotsUsed s (chOf o.glun)) : stagingRoom s o = false := by
  unfold stagingRoom
  simp [hcws, hitem, slotsHeld, slotsWanted, hstep, hstage]
  omega

end

end Sys2Proof.Machine
end

