-- ==== Sys2Proof/Proofs/BusPhases.lean ====
section
/-! What each phase puts on a channel's bus and leaves of its operation (R144 to R151, R158, R174), and the statement on the bus. -/

namespace Sys2Proof.Machine

section
variable {s t v : State} {o o' : Op} {l : List Byte}

/-! ### What a change of a LUN's record leaves -/

theorem modLun_frame (s : State) (g : Nat) (f : Lun → Lun) : modLun s g f = { s with luns := (modLun s g f).luns } := by
  unfold modLun
  split <;> rfl

/-- The die of a LUN stays the same with its model. -/
theorem dieOf_modLun (s : State) (g : Nat) {f : Lun → Lun} (hf : ∀ l, (f l).model = l.model) (k : Nat) :
    dieOf (modLun s g f) k = dieOf s k := by
  unfold modLun
  cases hg : tget? s.luns g with
  | none => rfl
  | some l =>
    by_cases hk : k = g
    · subst hk
      simp only [dieOf, lun?, tget?_tset_same, hg]
      exact congrArg (dieAt s (chOf k)) (hf l)
    · simp only [dieOf, lun?, tget?_tset_ne _ _ hk]
      rfl

/-! ### A phase that an operation has sent -/

/-- The bus of an operation's channel has carried bytes for its LUN's chip enable, and the operation stands as given. -/
structure Sent (s v : State) (o o' : Op) (l : List Byte) : Prop where
  op : op? v o.id = some o'
  others : ∀ x ∈ s.ops, x.id ≠ o.id → x ∈ v.ops
  dram : v.dram = s.dram
  cmds : v.cmds = s.cmds
  bytes : (tget v.buses (chOf o.glun) {}).bytes = l
  ce : (tget v.buses (chOf o.glun) {}).ce = some (ceOf o.glun)

theorem sent_modOp (h : op? s o.id = some o) {f : Op → Op} (hv : v = modOp t o.id f) (ho : f o = o') (hf : ∀ x, (f x).id = x.id)
    (hops : t.ops = s.ops) (hdram : t.dram = s.dram) (hcmds : t.cmds = s.cmds) (hbus : t.buses = (busPut s o.glun l).buses) :
    Sent s v o o' l := by
  subst hv ho
  have ht : op? t o.id = some o := by
    unfold op?
    rw [hops]
    exact h
  obtain ⟨hbytes, hce⟩ := busPut_bus s o.glun l
  exact ⟨op?_modOp ht hf, fun x hx hid => mem_modOp (hops ▸ hx) hid f, hdram, hcmds, hbus ▸ hbytes, hbus ▸ hce⟩

section
variable (h : op? s o.id = some o)
include h

/-- The suspend byte goes out, and the operation is stopping. -/
theorem phaseSuspend_ordered : Sent s (modOp (busPut s o.glun (lunBytes s o.glun (if o.type = .erase then 0x27 else 0x25) o.block o.wl)) o.id
      fun x => { x with susp := false, phase := .stopping s.tick, suspends := x.suspends + 1, polls := 0 }) o
    { o with susp := false, phase := .stopping s.tick, suspends := o.suspends + 1, polls := 0 }
    (lunBytes s o.glun (if o.type = .erase then 0x27 else 0x25) o.block o.wl) :=
  sent_modOp h rfl rfl (fun _ => rfl) rfl rfl rfl rfl

theorem phaseSuspend_sent : Sent s (phaseSuspend s o) o
    { o with susp := false, phase := .stopping s.tick, suspends := o.suspends + 1, polls := 0 }
    (lunBytes s o.glun (if o.type = .erase then 0x27 else 0x25) o.block o.wl) := by
  obtain ⟨hop, hothers, hdram, hcmds, hbytes, hce⟩ := phaseSuspend_ordered h
  exact ⟨hop, hothers, hdram, hcmds, hbytes, hce⟩

/-- The bytes of a read's command phase: the feature writes are left out where the LUN's shadow holds the set already (R146). -/
def commandBytes (s : State) (o : Op) : List Byte :=
  (if (lun? s o.glun).bind (fun l => l.shadow) = some o.levels then [] else featBytes (dieOf s o.glun) o.glun o.levels) ++
    readBytes (dieOf s o.glun) o

theorem phaseCommand_sent : Sent s (phaseCommand s o) o { o with phase := .busy, confirm := s.tick, polls := 0 } (commandBytes s o) := by
  have hfed : (if decide ((lun? s o.glun).bind (fun l => l.shadow) = some o.levels) = true then [] else
      featBytes (dieOf s o.glun) o.glun o.levels) ++ readBytes (dieOf s o.glun) o = commandBytes s o := by
    simp [commandBytes]
  unfold phaseCommand
  dsimp only
  rw [hfed, modLun_frame]
  exact sent_modOp h rfl rfl (fun _ => rfl) rfl rfl rfl rfl

theorem phaseDataOut_sent {page cw id : Nat} {rest : List (Nat × Nat × Nat)} (hcws : o.cws = (page, cw, id) :: rest) :
    Sent s (phaseDataOut s o) o { o with leaving := true, vccq := costF (costOf s o.glun) 4 4 2 }
      (columnBytes (dieOf s o.glun) o page cw) := by
  unfold phaseDataOut
  rw [hcws]
  exact sent_modOp h rfl (by rw [← hcws]) (fun _ => rfl) rfl rfl rfl rfl

theorem phaseErase_sent (hb : setupBlocked s o = false) :
    Sent s (phaseErase s o) o { o with phase := .busy, confirm := s.tick, polls := 0 } (eraseBytes (dieOf s o.glun) o) := by
  unfold phaseErase
  rw [if_neg (ne_true_of_eq_false hb)]
  dsimp only
  rw [modLun_frame]
  exact sent_modOp h rfl rfl (fun _ => rfl) rfl rfl rfl rfl

/-- Any operation but a raw one waits while protection holds (R174). -/
theorem setupStop_waits (hraw : ∀ cid, o.use ≠ .raw cid) :
    op? (setupStop s o) o.id = some { o with phase := .waiting, peak := 0, vccq := 0, hit := true } ∧
      (setupStop s o).buses = s.buses ∧ (setupStop s o).dram = s.dram ∧ (setupStop s o).cmds = s.cmds := by
  have hstop : setupStop s o =
      modOp (releaseOp (wpFlag s 0) o) o.id fun o => { o with phase := .waiting, peak := 0, vccq := 0, hit := true } := by
    unfold setupStop
    split
    · next cid huse => exact absurd huse (hraw cid)
    · rfl
  rw [hstop]
  exact ⟨op?_modOp (s := releaseOp (wpFlag s 0) o) h fun _ => rfl, rfl, rfl, rfl⟩

end

theorem setupStop_raw {cid : Nat} (huse : o.use = .raw cid) :
    setupStop s o = rawRefuse (dropOp (wpFlag s 0) o) cid o.glun { status := 0x2004 } := by
  unfold setupStop
  rw [huse]
  rfl

theorem phaseErase_blocked (hb : setupBlocked s o = true) : phaseErase s o = setupStop s o := if_pos hb

/-! ### A plane-page (R147 to R150, R264) -/

theorem chunkSent_frame (s : State) (fg zid q : Nat) :
    chunkSent s fg zid q = { s with banks := (chunkSent s fg zid q).banks, groups := (chunkSent s fg zid q).groups } := by
  unfold chunkSent
  split <;> rfl

theorem phasePage_blocked (mp : PortEnd) (chk : PathCheck) (h0 : o.pages = 0) (hb : setupBlocked s o = true) :
    phasePage s o mp chk = setupStop s o := if_pos (by simp [h0, hb])

/-- A program's data comes to staging SRAM before its first plane-page. -/
def pageOpened (s : State) (o : Op) (mp : PortEnd) : State × Bool := if o.pages = 0 then openStream s o mp else (s, true)

section
variable {mp : PortEnd} {chk : PathCheck} (hb : o.pages = 0 → setupBlocked s o = false)
include hb

theorem phasePage_kept (hop : (pageOpened s o mp).2 = false) : phasePage s o mp chk = (pageOpened s o mp).1 := by
  rcases hp : pageOpened s o mp with ⟨u, b⟩
  rw [hp] at hop
  cases hop
  unfold phasePage
  rw [if_neg (by simpa using hb), show (if o.pages = 0 then openStream s o mp else (s, true)) = (u, false) from hp]

variable (hop : (pageOpened s o mp).2 = true)
include hop

theorem phasePage_checked : phasePage s o mp chk =
    if (pathCheck (pageOpened s o mp).1 o chk).2 = true then
      (((pathCheck (pageOpened s o mp).1 o chk).1.ops.find? fun x => x.id = o.id).map
        (sendPage (pathCheck (pageOpened s o mp).1 o chk).1)).getD (pathCheck (pageOpened s o mp).1 o chk).1
    else (pathCheck (pageOpened s o mp).1 o chk).1 := by
  rcases hp : pageOpened s o mp with ⟨u, b⟩
  rw [hp] at hop
  cases hop
  unfold phasePage
  rw [if_neg (by simpa using hb), show (if o.pages = 0 then openStream s o mp else (s, true)) = (u, true) from hp]
  dsimp only
  rcases hw : pathCheck u o chk with ⟨w, b⟩
  cases b <;> simp

end

/-- A program whose page is on its bus. -/
def pageSent (s : State) (o : Op) : State :=
  modOp (modLun (busPut s o.glun (pageBytes s o o.pages)) o.glun fun l => { l with ran := o.id }) o.id fun x => { x with
    pages := x.pages + 1, phase := if x.phase = .waiting ∧ opPages s o ≤ o.pages + 1 then .loaded s.tick else x.phase }

theorem pageSent_sent (h : op? s o.id = some o) : Sent s (pageSent s o) o
    { o with pages := o.pages + 1, phase := if o.phase = .waiting ∧ opPages s o ≤ o.pages + 1 then .loaded s.tick else o.phase }
    (pageBytes s o o.pages) := by
  unfold pageSent
  rw [modLun_frame]
  exact sent_modOp h rfl rfl (fun _ => rfl) rfl rfl rfl rfl

/-- Beside its page, the last one of a rebuilt chunk frees the chunk's slot (R275). -/
theorem sendPage_cases (s : State) (o : Op) :
    sendPage s o = pageSent s o ∨ ∃ fg zid, sendPage s o = chunkSent (pageSent s o) fg zid (quadOf o.glun) := by
  have hpages : opPages (modLun (busPut s o.glun (pageBytes s o o.pages)) o.glun fun l => { l with ran := o.id }) o = opPages s o := by
    unfold opPages
    rw [dieOf_modLun _ _ (f := fun l => { l with ran := o.id }) fun _ => rfl]
    rfl
  have htick : (modLun (busPut s o.glun (pageBytes s o o.pages)) o.glun fun l => { l with ran := o.id }).tick = s.tick := by
    rw [modLun_frame]
    rfl
  unfold sendPage
  dsimp only
  rw [hpages, htick]
  simp only [decide_eq_true_eq]
  split
  · split
    · exact .inr ⟨_, _, rfl⟩
    · exact .inl rfl
  · exact .inl rfl

theorem sendPage_sent (h : op? s o.id = some o) :
    op? (sendPage s o) o.id = some { o with
      pages := o.pages + 1, phase := if o.phase = .waiting ∧ opPages s o ≤ o.pages + 1 then .loaded s.tick else o.phase } ∧
    (tget (sendPage s o).buses (chOf o.glun) {}).bytes = pageBytes s o o.pages ∧
    (tget (sendPage s o).buses (chOf o.glun) {}).ce = some (ceOf o.glun) := by
  obtain ⟨hop, -, -, -, hbytes, hce⟩ := pageSent_sent h
  rcases sendPage_cases s o with e | ⟨fg, zid, e⟩
  · rw [e]
    exact ⟨hop, hbytes, hce⟩
  · rw [e, chunkSent_frame]
    exact ⟨hop, hbytes, hce⟩

/-- A raw program takes its data through the port of its LUN's quadrant before its first page (R183). -/
theorem openStream_raw {cid : Nat} {d : Cmd} (huse : o.use = .raw cid) (hcmd : cmd? s cid = some d) (mp : PortEnd) :
    let spans := spanCut 0 (cmdSpans d) 0 (rawBytes d * dmCwpp (dieOf s o.glun) * opPages s o)
    (mp = .ok → openStream s o mp = (s, true)) ∧
    (mp ≠ .ok → ∃ v r, PortGaveUp spans mp s v (dataPort o.glun) r ∧ openStream s o mp = (finish (dropOp v o) cid r, false)) := by
  intro spans
  refine ⟨fun hok => ?_, fun hgave => ?_⟩
  · unfold openStream
    rw [huse]
    dsimp only
    rw [hcmd, hok]
    rfl
  · obtain ⟨v, r, hend, hport⟩ := portEnd_gaveUp s (dataPort o.glun) spans mp hgave
    refine ⟨v, r, hport, ?_⟩
    unfold openStream
    rw [huse]
    dsimp only
    rw [hcmd]
    dsimp only
    rw [hend]

/-- The checks of a page's way that are met for the first time are corrected, and the page goes (R264). -/
theorem pathCheck_first (x : State) (o : Op) {cwx : Byte} (h : cwx.toNat / max 1 (dmCwpp (dieOf x o.glun)) = o.pages) :
    pathCheck x o (.staging cwx false) = (recoveredAny x 1 (chOf o.glun) 0, true) ∧
      pathCheck x o (.encoder cwx false) = (decPiFlag x 4, true) := by
  unfold pathCheck
  simp [h]

end

/-! ### The statement -/

section
variable {s : State} {c : Chan} {o : Op} {p : Phase} {mp : PortEnd} {chk : PathCheck}

theorem busPhase_idle (h : ∀ o p, busTurn s c ≠ some (o, .phase p)) : busPhase s c mp chk = s := by
  unfold busPhase
  split
  · next o p hturn => exact absurd hturn (h o p)
  · rfl

/-- BUS_PHASE_ISSUE puts on the bus what the turn is for. -/
theorem busPhase_turn (h : busTurn s c = some (o, .phase p)) :
    (p = .suspend → busPhase s c mp chk = phaseSuspend s o) ∧ (p = .command → busPhase s c mp chk = phaseCommand s o) ∧
    (p = .dataOut → busPhase s c mp chk = phaseDataOut s o) ∧ (p = .page → busPhase s c mp chk = phasePage s o mp chk) ∧
    (p = .erase → busPhase s c mp chk = phaseErase s o) ∧
    (p = .raw → ∀ cid, o.use = .raw cid → busPhase s c mp chk = rsPhase s o cid mp) := by
  unfold busPhase
  rw [h]
  refine ⟨by rintro rfl; rfl, by rintro rfl; rfl, by rintro rfl; rfl, by rintro rfl; rfl, by rintro rfl; rfl, ?_⟩
  rintro rfl cid huse
  dsimp only
  rw [huse]

end

/-- Settles O43: the order of a bus (`busTurn_inv`), and what each phase that it serves sends and leaves (`busPhase_turn`). -/
theorem theBusTakesPhasesInDeadlineOrder : Obligations.TheBusTakesPhasesInDeadlineOrder := by
  unfold Obligations.TheBusTakesPhasesInDeadlineOrder
  refine ⟨fun s c => ⟨fun o n hturn => ?turn, fun hnone => ?none, fun o hneed => ?confirm,
    fun o i x rest ht hp hs hcws hitem hstep hstage hfull => ?room⟩, fun s c mp chk => ⟨fun hidle => ?idle, fun o p hturn hop => ?phases,
    fun x o cwx => ⟨rfl, fun h => pathCheck_first x o h⟩⟩⟩
  case turn =>
    obtain ⟨hopen, ho, hc, d, hn, hserved, hleast⟩ := busTurn_inv hturn
    refine ⟨ho, hc, busOpen_leaving hopen, fun hdown => servedIn_down (hdown ▸ hserved), d, hn, fun hids x hx hxc e m hm hms => ?_⟩
    exact deadline_le_of_turnKey_le (hleast x hx hxc e m hm hms) (hids x hx)
  case none =>
    rcases hnone with ⟨o, ho, hc, hleaving⟩ | hneeds
    · cases hopen : busOpen s c with
      | false => exact busTurn_closed hopen
      | true => rw [busOpen_leaving hopen o ho hc] at hleaving; cases hleaving
    · exact busTurn_none hneeds
  case confirm => exact mayConfirm_iff.1 (mayConfirm_of_busNeed hneed)
  case room => exact readyPhase_noRoom ht hp hs (stagingRoom_full hcws hitem hstep hstage hfull)
  case idle => exact congrArg (fun t => ok (pump t)) (busPhase_idle hidle)
  case phases =>
    intro die sends
    obtain ⟨-, -, hc, -⟩ := busTurn_inv hturn
    obtain ⟨hsuspend, hcommand, hdataOut, hpage, herase, hraw⟩ := busPhase_turn (mp := mp) (chk := chk) hturn
    have out {t : State} (ht : busPhase s c mp chk = t) : exec (.busPhaseIssue c ⟨mp, chk⟩) s = .next (pump t) :=
      congrArg (fun t => ok (pump t)) ht
    have sent {v : State} {o' : Op} {l : List Byte} (hv : busPhase s c mp chk = v) (h : Sent s v o o' l) : sends l o' := by
      obtain ⟨h1, h2, h3, h4, h5, h6⟩ := h
      rw [hc] at h5 h6
      exact ⟨v, out hv, h1, h2, h3, h4, h5, h6⟩
    refine ⟨fun hp => sent (hsuspend hp) (phaseSuspend_sent hop), fun hp => sent (hcommand hp) (phaseCommand_sent hop),
      fun hp page cw id rest hcws => sent (hdataOut hp) (phaseDataOut_sent hop hcws),
      fun hp hb => sent (herase hp) (phaseErase_sent hop hb), fun hp hb => ?page, fun hp h0 hb cid d huse hcmd => ?rawData,
      fun hp cid huse => out (hraw hp cid huse), fun hp hb => ?blocked⟩
    case page =>
      intro op way
      refine ⟨fun hopened => out ((hpage hp).trans (phasePage_kept hb hopened)), fun hopened hway => ?_,
        fun hopened hway o1 ho1 hg => ?_⟩
      all_goals have hchecked := (hpage hp).trans (phasePage_checked hb hopened)
      · exact out (hchecked.trans (if_neg (ne_true_of_eq_false hway)))
      · have hid : o1.id = o.id := id_of_op? ho1
        have ho1' : op? way.1 o1.id = some o1 := hid ▸ ho1
        obtain ⟨h1, h2, h3⟩ := sendPage_sent ho1'
        rw [hg, hc] at h2 h3
        have hsent : ((way.1.ops.find? fun x => x.id = o.id).map (sendPage way.1)).getD way.1 = sendPage way.1 o1 := by rw [ho1]; rfl
        refine ⟨sendPage way.1 o1, out (hchecked.trans ((if_pos hway).trans hsent)), hid ▸ h1, h2, ?_⟩
        rw [hg]
        exact h3
    case rawData =>
      intro n
      obtain ⟨hok, hgave⟩ := openStream_raw huse hcmd mp
      refine ⟨hok, fun hmp => ?_⟩
      obtain ⟨v, r, hport, hopened⟩ := hgave hmp
      have hpo : pageOpened s o mp = (finish (dropOp v o) cid r, false) := (if_pos h0).trans hopened
      refine ⟨v, r, hport, out ((hpage hp).trans ((phasePage_kept (fun _ => hb) (by rw [hpo])).trans ?_))⟩
      rw [hpo]
    case blocked =>
      have hstop : busPhase s c mp chk = setupStop s o := by
        rcases hp with ⟨hp, h0⟩ | hp
        · exact (hpage hp).trans (phasePage_blocked mp chk h0 hb)
        · exact (herase hp).trans (phaseErase_blocked hb)
      refine ⟨fun huse => ?_, fun cid huse => ⟨dropOp (wpFlag s 0) o, out (hstop.trans (setupStop_raw huse)), rfl, rfl, rfl⟩⟩
      obtain ⟨h1, h2, h3, h4⟩ := setupStop_waits hop huse
      exact ⟨_, out hstop, h1, h2, h3, h4⟩

end Sys2Proof.Machine
end

