-- ==== Sys2Proof/Proofs/LunOperations.lean ====
section
/-! Operations in their LUN: confirm, hold, resume, polls and timeouts (R141, R142, R148, R149, R162, R188). -/

namespace Sys2Proof.Machine

section
variable {s : State} {g : Nat} {o : Op}

/-! ### Confirm (R148) -/

/-- The confirm byte has gone out, and the LUN is busy. -/
def confirmed (s : State) (g : Nat) (o : Op) : State :=
  modOp (modLun (busPut s g [dmByte (dieOf s g) 0x1C]) g fun l => { l with ran := o.id }) o.id fun x =>
    { x with phase := .busy, confirm := s.tick, polls := 0 }

theorem confirmed_sent (h : op? s o.id = some o) (hg : o.glun = g) : Sent s (confirmed s g o) o
    { o with phase := .busy, confirm := s.tick, polls := 0 } [dmByte (dieOf s g) 0x1C] := by
  subst hg
  unfold confirmed
  rw [modLun_frame]
  exact sent_modOp h rfl rfl (fun _ => rfl) rfl rfl rfl rfl

/-- The member of a row whose program is confirmed is in program. -/
def memberStarted (s : State) (rid j : Nat) : State := modRow s rid fun r => { r with memb := tset r.memb j .program }

theorem confirmed_tick (s : State) (g : Nat) (o : Op) :
    (modLun (busPut s g [dmByte (dieOf s g) 0x1C]) g fun l => { l with ran := o.id }).tick = s.tick := by
  rw [modLun_frame]
  rfl

theorem progConfirm_member (h : turnOf s g = some (o, .confirm)) {rid j : Nat} (huse : o.use = .member rid j) :
    progConfirm s g = memberStarted (confirmed s g o) rid j := by
  unfold progConfirm
  rw [h]
  dsimp only
  rw [huse, confirmed_tick]
  rfl

theorem progConfirm_other (h : turnOf s g = some (o, .confirm)) (huse : ∀ rid j, o.use ≠ .member rid j) :
    progConfirm s g = confirmed s g o := by
  unfold progConfirm
  rw [h]
  dsimp only
  split
  · next rid j e => exact absurd e (huse rid j)
  · rw [confirmed_tick]
    rfl

theorem progConfirm_idle (h : ∀ x, turnOf s g ≠ some (x, .confirm)) : progConfirm s g = s := by
  unfold progConfirm
  split
  · next o e => exact absurd e (h o)
  · rfl

theorem row?_memberStarted {rid j : Nat} {r : Row} (h : row? s rid = some r) :
    ∃ x, row? (memberStarted s rid j) rid = some x ∧ tget x.memb j .idle = .program := by
  refine ⟨{ r with memb := tset r.memb j .program }, ?_, by simp⟩
  unfold memberStarted
  rw [row?_modRow, h]
  · rfl
  · exact fun _ => rfl

/-! ### Hold (R149) -/

section
variable {at_ : Nat} (hone : ∀ x ∈ s.ops, x.glun = g → (∃ n, x.phase = .loaded n) → x = o) (hp : o.phase = .loaded at_)
include hone hp

/-- A transfer whose hold has lasted is abandoned, with HOLD_ABANDON. -/
theorem holdMax_abandons (hmem : o ∈ s.ops) (hg : o.glun = g) (hdue : at_ + rd s (regCsqHoldMax (chOf g)) ≤ s.tick) :
    holdMax s g = csqFlag (abandon s o) (chOf g) 2 := by
  unfold holdMax
  rw [find?_of_unique (a := o) hmem (by simp [hg, hp, due, hdue]) fun x hx hheld => ?_]
  obtain ⟨hxg, hloaded⟩ := Bool.and_eq_true_iff.1 hheld
  refine hone x hx (of_decide_eq_true hxg) ?_
  split at hloaded
  · next n hn => exact ⟨n, hn⟩
  · cases hloaded

theorem holdMax_holds (hearly : s.tick < at_ + rd s (regCsqHoldMax (chOf g))) : holdMax s g = s := by
  unfold holdMax
  rw [List.find?_eq_none.2 fun x hx hheld => ?_]
  obtain ⟨hxg, hloaded⟩ := Bool.and_eq_true_iff.1 hheld
  split at hloaded
  · next n hn =>
    have hx := hone x hx (of_decide_eq_true hxg) ⟨n, hn⟩
    rw [hx, hp] at hn
    cases hn
    have hdue := of_decide_eq_true hloaded
    omega
  · cases hloaded

end

theorem lun?_modLun (s : State) (g : Nat) (f : Lun → Lun) : lun? (modLun s g f) g = (lun? s g).map f := by
  unfold modLun lun?
  cases h : tget? s.luns g with
  | none => exact h
  | some l => exact tget?_tset_same ..

/-- An abandoned transfer is to be made again, and RESET_LUN has gone to its LUN (R149). -/
theorem abandon_sent (h : op? s o.id = some o) (hp : o.phase ≠ .granted) :
    Sent s (abandon s o) o { o with pages := 0, phase := .waiting } (lunBytes s o.glun 0x22 0 0) := by
  unfold abandon resetLun
  rw [modLun_frame]
  exact sent_modOp (t := { busPut s o.glun (lunBytes s o.glun 0x22 0 0) with luns := _ })
    (f := fun x => if x.phase = .granted then { x with pages := 0 } else { x with pages := 0, phase := .waiting })
    h rfl (if_neg hp) (fun x => by split <;> rfl) rfl rfl rfl rfl

/-- RESET_LUN makes the read-level shadow invalid (R146). -/
theorem lun?_abandon {l : Lun} (h : lun? s o.glun = some l) : lun? (abandon s o) o.glun = some { l with shadow := none } := by
  unfold abandon resetLun
  rw [lun?_modLun]
  exact congrArg (Option.map _) h

/-! ### Resume (R162) -/

theorem opResume_idle (h : ∀ x, turnOf s g ≠ some (x, .resume)) : opResume s g = s := by
  unfold opResume
  split
  · next o e => exact absurd e (h o)
  · rfl

/-- The resume byte goes out, and the time of the suspension is counted. -/
theorem opResume_sent {at_ : Nat} (h : op? s o.id = some o) (hg : o.glun = g) (hturn : turnOf s g = some (o, .resume))
    (hp : o.phase = .stopped at_) :
    Sent s (opResume s g) o { o with phase := .busy, resumeAt := s.tick, suspTicks := o.suspTicks + (s.tick - at_) }
      (lunBytes s g (if o.type = .erase then 0x28 else 0x26) o.block o.wl) := by
  subst hg
  unfold opResume
  rw [hturn]
  exact sent_modOp h rfl (by rw [hp]) (fun _ => rfl) rfl rfl rfl rfl

/-! ### Polls (R141, R151, R158) -/

/-- A poll has gone to a LUN. -/
def polled (s : State) (g : Nat) (o : Op) : State :=
  modOp (busPut s g (dmByte (dieOf s g) 0x21 :: pollAddr s o)) o.id fun x => { x with polls := x.polls + 1, lastPoll := s.tick }

theorem op?_polled (h : op? s o.id = some o) :
    op? (polled s g o) o.id = some { o with polls := o.polls + 1, lastPoll := s.tick } :=
  op?_modOp (s := busPut s g _) h fun _ => rfl

theorem statusPoll_idle (h : ∀ x, turnOf s g ≠ some (x, .poll)) (r : PollResult) (status loops : Nat) :
    statusPoll s g r status loops = s := by
  unfold statusPoll
  split
  · next o e => exact absurd e (h o)
  · rfl

section
variable (h : turnOf s g = some (o, .poll)) (status loops : Nat)
include h

theorem statusPoll_busy : statusPoll s g .busy status loops = polled s g o := by
  unfold statusPoll
  rw [h]
  rfl

theorem statusPoll_good : statusPoll s g .good status loops = opEnded (polled s g o) o true status loops := by
  unfold statusPoll
  rw [h]
  rfl

theorem statusPoll_failed :
    statusPoll s g .failed status loops = opEnded (polled s g o) o (decide (o.type = .read)) status loops := by
  unfold statusPoll
  rw [h]
  rfl

/-- A suspend that took effect stops its operation. -/
theorem statusPoll_suspended {at_ : Nat} (hp : o.phase = .stopping at_) :
    statusPoll s g .suspended status loops = modOp (polled s g o) o.id fun x => { x with phase := .stopped at_ } := by
  unfold statusPoll
  rw [h]
  dsimp only
  rw [hp]
  rfl

end

/-- The page that a single-plane read's poll names (R141). -/
theorem pollAddr_onePlane {q : Nat} (hg : o.glun = g) (h : dedupNat (o.cws.map fun x => x.1 % dmPlanes (dieOf s g)) = [q]) :
    pollAddr s o = rowCycles (dieOf s g) (rowAddr (dieOf s g) g o.block o.wl q o.bitpage) := by
  subst hg
  unfold pollAddr
  dsimp only
  rw [h]

/-! ### The end of an operation (R151, R188) -/

/-- A read with codewords left stays. -/
theorem endRead_stays (h : op? s o.id = some o) (hcws : o.cws ≠ []) : endRead s o.id = s := by
  unfold endRead
  rw [show s.ops.find? (fun x => x.id = o.id) = some o from h]
  exact if_neg (by simp [hcws])

/-- A read that is done reads out. -/
theorem op?_opEnded_read {p : Op} (h : op? s o.id = some p) (ht : o.type = .read) (hcws : p.cws ≠ []) (good : Bool)
    (status loops : Nat) : op? (opEnded s o good status loops) o.id = some { p with phase := .dataOut, peak := 0 } := by
  have hout : op? (modOp (releaseOp s o) o.id fun x => { x with phase := .dataOut, peak := 0 }) o.id =
      some { p with phase := .dataOut, peak := 0 } := op?_modOp (s := releaseOp s o) h fun _ => rfl
  have hid : p.id = o.id := id_of_op? h
  unfold opEnded
  rw [ht]
  dsimp only
  rw [← hid] at hout ⊢
  rw [endRead_stays (o := { p with phase := .dataOut, peak := 0 }) hout hcws]
  exact hout

theorem opEnded_read (ht : o.type = .read) (good : Bool) (status loops : Nat) :
    opEnded s o good status loops = opEnded s o true status loops := by
  unfold opEnded
  rw [ht]

theorem opEnded_program (ht : o.type = .prog ∨ o.type = .slc) (good : Bool) (status loops : Nat) :
    opEnded s o good status loops = progEnd (dropOp s o) o good status := by
  unfold opEnded
  rcases ht with ht | ht <;> rw [ht]

theorem opEnded_erase (ht : o.type = .erase) (good : Bool) (status loops : Nat) :
    opEnded s o good status loops =
      eraseEnd (dropOp (modBlk (if good = true then readLoops s o.glun else s) o.glun o.block fun b => { b with interrupted := false }) o)
        o good status loops := by
  unfold opEnded
  rw [ht]

/-- The status of a raw program is not interpreted (R188). -/
theorem progEnd_raw {cid : Nat} (huse : o.use = .raw cid) (good : Bool) (status : Nat) :
    progEnd s o good status = finish s cid { status := 0, ra := o.glun, rb := status } := by
  unfold progEnd
  rw [huse]
  rfl

/-! ### Timeouts (R142) -/

/-- An operation that its LUN works on, or stops. -/
def inArray (x : Op) : Prop := x.phase = .busy ∨ ∃ n, x.phase = .stopping n

theorem inArray_of_match {x : Op} (h : (match x.phase with | .busy | .stopping _ => true | _ => false) = true) : inArray x := by
  split at h
  · next e => exact .inl e
  · next n e => exact .inr ⟨n, e⟩
  · cases h

theorem lunTimeout_none (h : ∀ x ∈ s.ops, x.glun = g → x.type ≠ .rawSeq → ¬inArray x) : lunTimeout s g = s := by
  unfold lunTimeout
  rw [List.find?_eq_none.2 fun x hx hbusy => ?_]
  obtain ⟨⟨hg, ht⟩, hphase⟩ := (Bool.and_eq_true_iff.1 hbusy).imp_left Bool.and_eq_true_iff.1
  exact h x hx (of_decide_eq_true hg) (of_decide_eq_true ht) (inArray_of_match hphase)

/-- The tick from which on an operation has been busy too long, suspensions and RETRAIN left out. -/
def busyLimit (s : State) (g : Nat) (o : Op) : Nat :=
  o.confirm + o.suspTicks + o.paused + max 1 (rdf s (regCsqCfg (chOf g)) 3 0) * dmTime (dieOf s g) o.type true

theorem lunTimeout_busy (hmem : o ∈ s.ops) (hg : o.glun = g) (ht : o.type ≠ .rawSeq) (hp : o.phase = .busy)
    (hone : ∀ x ∈ s.ops, x.glun = g → x.type ≠ .rawSeq → inArray x → x = o) :
    lunTimeout s g = if busyLimit s g o ≤ s.tick ∧ rdf s (regPhyState (chOf g)) 1 0 ≠ 1 then opTimedOut s o else s := by
  unfold lunTimeout
  rw [find?_of_unique (a := o) hmem (by simp [hg, ht, hp]) fun x hx hbusy => ?_]
  · dsimp only
    rw [hp]
    exact if_congr (by simp [due, busyLimit]) rfl rfl
  · obtain ⟨⟨hxg, hxt⟩, hphase⟩ := (Bool.and_eq_true_iff.1 hbusy).imp_left Bool.and_eq_true_iff.1
    exact hone x hx (of_decide_eq_true hxg) (of_decide_eq_true hxt) (inArray_of_match hphase)

/-- OP of CSQ_TIMEOUT_LUN for an operation. -/
def timeoutCode (o : Op) : Nat := match o.use with | .raw _ => 3 | _ => timeoutOp o.type

theorem timeoutCode_eq (h : o.type ≠ .rawSeq) :
    timeoutCode o = match o.use, o.type with | .raw _, _ => 3 | _, .read => 0 | _, .erase => 2 | _, _ => 1 := by
  unfold timeoutCode
  cases ht : o.type with
  | rawSeq => exact absurd ht h
  | read | prog | slc | erase => cases o.use <;> rfl

/-- A timeout as recorded: LUN_TIMEOUT, and CSQ_TIMEOUT_LUN. -/
def timeoutNoted (s : State) (o : Op) : State :=
  wr (csqFlag s (chOf o.glun) 0) (regCsqTimeoutLun (chOf o.glun)) (2 ^ 31 + timeoutCode o * 2 ^ 8 + o.glun % 128)

/-- The LUN as a timeout leaves it: SUSPECT where it was GOOD or SPARE. -/
def timeoutSuspect (s : State) (g : Nat) : State :=
  if ((lun? s g).map fun l => l.state).getD 2 = 0 ∨ ((lun? s g).map fun l => l.state).getD 2 = 3 then setLunState s g 1 else s

theorem timeoutSuspect_cases {l : Lun} (h : lun? s g = some l) :
    (l.state = 0 ∨ l.state = 3 → timeoutSuspect s g = setLunState s g 1) ∧ (l.state = 1 ∨ l.state = 2 → timeoutSuspect s g = s) := by
  unfold timeoutSuspect
  rw [h]
  exact ⟨fun hs => if_pos hs, fun hs => if_neg (by rcases hs with hs | hs <;> simp [hs])⟩

theorem opTimedOut_eq (s : State) (o : Op) : opTimedOut s o = lunReset (timeoutSuspect (timeoutNoted s o) o.glun) o.glun := rfl

theorem timeoutNoted_bit (s : State) (o : Op) : bit (rd (timeoutNoted s o) (regCsqStatus (chOf o.glun))) 0 = true := by
  unfold timeoutNoted
  rw [rd_wr_ne _ (by unfold regCsqStatus regCsqTimeoutLun; omega)]
  exact sticky_bit s _ 0 (by decide)

theorem timeoutNoted_code (s : State) (o : Op) :
    rd (timeoutNoted s o) (regCsqTimeoutLun (chOf o.glun)) = (2 ^ 31 + timeoutCode o * 2 ^ 8 + o.glun % 128) % 2 ^ 32 := rd_wr_same ..

end

/-- Settles O44: each row of a LUN by what it sends and leaves (`confirmed_sent`, `abandon_sent`, `opResume_sent`, `polled`), the end of
an operation by its type (`opEnded`), and a timeout (`opTimedOut_eq`). -/
theorem operationsRunInTheirLun : Obligations.OperationsRunInTheirLun := by
  unfold Obligations.OperationsRunInTheirLun
  refine ⟨fun s g o hop => ?lun, fun s g o status loops hop => ?outcome⟩
  case lun =>
    intro c becomes
    have hmem : o ∈ s.ops := List.mem_of_find?_eq_some hop
    have sent {i : Instr} {v : State} {o' : Op} {l : List Byte} (hi : exec i s = .next (pump v)) (hg : o.glun = g) (h : Sent s v o o' l) :
        becomes i l o' := by
      obtain ⟨h1, h2, h3, h4, h5, -⟩ := h
      rw [hg] at h5
      exact ⟨v, hi, h1, h2, h3, h4, h5⟩
    refine ⟨fun hturn => ?confirm, fun hidle => congrArg (fun t => ok (pump t)) (progConfirm_idle hidle), fun at_ hg hp hone => ?hold,
      fun hturn => ?resume, fun hidle => congrArg (fun t => ok (pump t)) (opResume_idle hidle)⟩
    case confirm =>
      obtain ⟨-, hg⟩ := turnOf_inv hturn
      have hsent := confirmed_sent hop hg
      have member {rid j : Nat} (huse : o.use = .member rid j) :
          exec (.programConfirm g) s = .next (pump (memberStarted (confirmed s g o) rid j)) :=
        congrArg (fun t => ok (pump t)) (progConfirm_member hturn huse)
      refine ⟨?_, fun rid j r huse hrow => ?_⟩
      · by_cases hmember : ∃ rid j, o.use = .member rid j
        · obtain ⟨rid, j, huse⟩ := hmember
          obtain ⟨h1, h2, h3, h4, h5, h6⟩ := hsent
          exact sent (member huse) hg ⟨h1, h2, h3, h4, h5, h6⟩
        · have hother : ∀ rid j, o.use ≠ .member rid j := fun rid j huse => hmember ⟨rid, j, huse⟩
          exact sent (congrArg (fun t => ok (pump t)) (progConfirm_other hturn hother)) hg hsent
      · have hrow' : row? (confirmed s g o) rid = some r := by
          unfold confirmed
          rw [modLun_frame]
          exact hrow
        obtain ⟨x, hx, hprogram⟩ := row?_memberStarted (j := j) hrow'
        exact ⟨_, x, member huse, hx, hprogram⟩
    case hold =>
      refine ⟨fun hdue => ?_, fun hearly => congrArg (fun t => ok (pump t)) (holdMax_holds hone hp hearly)⟩
      obtain ⟨h1, -, h3, h4, h5, -⟩ := abandon_sent hop (by rw [hp]; exact nofun)
      rw [hg] at h5
      refine ⟨csqFlag (abandon s o) c 2, congrArg (fun t => ok (pump t)) (holdMax_abandons hone hp hmem hg hdue), sticky_bit _ _ 2 (by decide),
        h1, fun l hl => ?_, h3, h4, h5⟩
      rw [← hg] at hl ⊢
      exact lun?_abandon hl
    case resume =>
      obtain ⟨hbus, hg⟩ := turnOf_inv hturn
      obtain ⟨-, -, -, d, hneed, -⟩ := busTurn_inv hbus
      obtain ⟨at_, hp, hreads⟩ := mayResume_inv (mayResume_of_busNeed hneed)
      rw [hg] at hreads
      exact ⟨at_, hp, sent rfl hg (opResume_sent hop hg hturn hp), hreads⟩
  case outcome =>
    intro c die inArr dueAt
    have hmem : o ∈ s.ops := List.mem_of_find?_eq_some hop
    refine ⟨fun hidle r => congrArg (fun t => ok (pump t)) (statusPoll_idle hidle ..), fun hturn => ?poll, fun cid huse _ u good =>
      progEnd_raw huse good _, fun hg ht hone hp => ?timeout, fun hnone => congrArg (fun t => ok (pump t)) (lunTimeout_none hnone)⟩
    case poll =>
      obtain ⟨hbus, hg⟩ := turnOf_inv hturn
      obtain ⟨-, -, -, d, hneed, -⟩ := busTurn_inv hbus
      have hdue := mayPoll_inv (mayPoll_of_busNeed hneed)
      rw [hg] at hdue
      have answer {r : PollResult} {v : State} (hv : statusPoll s g r status.toNat loops.toNat = v) :
          exec (.statusPoll g r status loops) s = .next (pump v) := congrArg (fun t => ok (pump t)) hv
      have hu := op?_polled (g := g) hop
      refine ⟨hg, hdue, polled s g o, hu, rfl, (busPut_bus s g _).1, fun q hq => pollAddr_onePlane hg hq, ?_⟩
      intro p
      refine ⟨answer (statusPoll_busy hturn ..), fun ht hcws => ?read, fun ht => ?program, fun ht => ?erase, fun at_ hp => ?suspended⟩
      case read =>
        refine ⟨_, answer (statusPoll_good hturn ..), answer ?_, op?_opEnded_read hu ht hcws ..⟩
        rw [statusPoll_failed hturn, opEnded_read ht]
      case program =>
        refine ⟨answer ?_, answer ?_⟩
        · rw [statusPoll_good hturn, opEnded_program ht]
        · rw [statusPoll_failed hturn, opEnded_program ht, decide_eq_false (by rcases ht with ht | ht <;> rw [ht] <;> decide)]
      case erase =>
        intro whole get
        refine ⟨answer ?_, answer ?_⟩
        · rw [statusPoll_good hturn, opEnded_erase ht, hg]
          rfl
        · rw [statusPoll_failed hturn, opEnded_erase ht, hg, decide_eq_false (by rw [ht]; decide)]
          rfl
      case suspended =>
        exact ⟨_, answer (statusPoll_suspended hturn _ _ hp), op?_modOp hu fun _ => rfl⟩
    case timeout =>
      intro lim
      have hend : lunTimeout s g = if lim ≤ s.tick ∧ rdf s (regPhyState c) 1 0 ≠ 1 then opTimedOut s o else s :=
        lunTimeout_busy hmem hg ht hp hone
      have hbit := timeoutNoted_bit s o
      have hcode := timeoutNoted_code s o
      rw [hg] at hbit hcode
      refine ⟨fun hstays => ?_, fun hlate hup => ⟨timeoutSuspect (timeoutNoted s o) g, timeoutNoted s o, ?_, hbit, rfl,
        hcode.trans (congrArg (fun k => (2 ^ 31 + k * 2 ^ 8 + g.val % 128) % 2 ^ 32) (timeoutCode_eq ht)), fun l hl => ?_⟩⟩
      · refine congrArg (fun t => ok (pump t)) (hend.trans (if_neg ?_))
        rintro ⟨hlate, hup⟩
        rcases hstays with hearly | hdown
        · omega
        · exact hup hdown
      · refine congrArg (fun t => ok (pump t)) (hend.trans ((if_pos ⟨hlate, hup⟩).trans ?_))
        rw [opTimedOut_eq, hg]
      · exact timeoutSuspect_cases (s := timeoutNoted s o) hl

end Sys2Proof.Machine
end

