-- ==== Sys2Proof/Proofs/RetrainTriggers.lean ====
section
/-! What starts a quick retrain or a raise attempt, and what the PLL's losing and regaining its lock does (R208, R210, R215, R216). -/

namespace Sys2Proof.Machine

section
variable {s : State} {c : Nat}

/-! ### Reads of a channel's registers -/

/-- A register of a state with the same registers. -/
theorem rd_of_regs {s t : State} (h : t.regs = s.regs) (a : Nat) : rd t a = rd s a := by
  unfold rd
  rw [h]

theorem chanState_of_regs {s t : State} (h : t.regs = s.regs) (c : Nat) : chanState t c = chanState s c := by
  unfold chanState rdf
  rw [rd_of_regs h]

theorem chanRung_of_regs {s t : State} (h : t.regs = s.regs) (c : Nat) : chanRung t c = chanRung s c := by
  unfold chanRung rdf
  rw [rd_of_regs h]

/-- A flag of PHY_STATUS leaves PHY_STATE. -/
theorem rd_phyFlag_state (s : State) (c b : Nat) : rd (phyFlag s c b) (regPhyState c) = rd s (regPhyState c) := by
  unfold phyFlag regPhyState regPhyStatus
  exact rd_sticky_ne s (by omega) (by omega)

theorem chanState_phyFlag (s : State) (c b : Nat) : chanState (phyFlag s c b) c = chanState s c :=
  congrArg (bits · 1 0) (rd_phyFlag_state s c b)

theorem chanRung_phyFlag (s : State) (c b : Nat) : chanRung (phyFlag s c b) c = chanRung s c :=
  congrArg (bits · 6 4) (rd_phyFlag_state s c b)

theorem phyFlag_bit (s : State) (c : Nat) {b : Nat} (hb : b < 32) : bit (rd (phyFlag s c b) (regPhyStatus c)) b = true :=
  sticky_bit s _ b hb

/-! ### A PHY's record -/

theorem phy_modPhy_same (s : State) (c : Nat) (f : PhySt → PhySt) : phy (modPhy s c f) c = f (phy s c) := by
  simp [phy, modPhy]

/-- A change of a PHY's record is what it makes of the record as it stands. -/
theorem modPhy_congr {f g : PhySt → PhySt} (h : f (phy s c) = g (phy s c)) : modPhy s c f = modPhy s c g :=
  congrArg (fun p => { s with phys := tset s.phys c p }) h

/-! ### Quick retrains -/

/-- A channel is in service where it is UP or DERATED. -/
theorem chanUp_of_state (h : chanState s c = 0 ∨ chanState s c = 2) : chanUp s c = true := by
  simpa [chanUp, chanState] using h

theorem quickTrigger_up (h : chanState s c = 0 ∨ chanState s c = 2) :
    quickTrigger s c = startTrain s c .quick (chanRung s c) := if_pos h

theorem quickTrigger_down (h : ¬(chanState s c = 0 ∨ chanState s c = 2)) : quickTrigger s c = s := if_neg h

/-- A failed link check starts a quick retrain on the rung. -/
theorem linkFail_up (h : chanState s c = 0 ∨ chanState s c = 2) :
    linkFail s c = startTrain (phyFlag s c 0) c .quick (chanRung s c) := by
  unfold linkFail
  rw [quickTrigger_up (by rwa [chanState_phyFlag]), chanRung_phyFlag]

/-! ### Link checks (R208) -/

section
variable {ce g : Nat}

theorem linkRead_regs (s : State) (g : Nat) : (linkRead s g).regs = s.regs := by
  unfold linkRead fresh
  dsimp only
  rw [modLun_frame]
  rfl

theorem linkCheck_noLun (h : trainLun s c ce = none) (pass : Bool) : linkCheck s c ce pass = s := by
  unfold linkCheck
  rw [h]

variable (hlun : trainLun s c ce = some g) (hup : chanState s c = 0 ∨ chanState s c = 2)
  (hon : domOn s (32 + c) = true) (hbus : (leavingOp s c).isNone = true)
include hlun hup hon hbus

/-- A chip enable that an error burst asks to check is checked, and asked for no more. -/
theorem linkCheck_asked {rest : List Nat} (hall : (phy s c).linkAll = ce :: rest) (hnew : ce ∉ rest) (pass : Bool) :
    let u := linkRead (modPhy s c fun p => { p with linkAll := rest }) g
    linkCheck s c ce pass = if pass then u else linkFail u c := by
  have hasked : (phy s c).linkAll.contains ce = true := by simp [hall]
  have hrest : (phy s c).linkAll.filter (fun e => e ≠ ce) = rest := by
    rw [hall, List.filter_cons_of_neg (by simp), List.filter_eq_self.2 fun e he => by simpa using ne_of_mem_of_not_mem he hnew]
  have hmod : modPhy s c (fun p => { p with linkAll := p.linkAll.filter fun e => e ≠ ce }) =
      modPhy s c fun p => { p with linkAll := rest } := modPhy_congr (by rw [hrest])
  unfold linkCheck
  rw [hlun]
  dsimp only
  rw [chanUp_of_state hup, hon, hbus, hasked, ← hmod]
  simp

/-- The next chip enable in turn is checked once its share of the period has passed. -/
theorem linkCheck_turn (hall : (phy s c).linkAll = []) (hce : (phy s c).trained.getD (phy s c).linkNext 16 = ce)
    (hdue : (phy s c).linkAt + rd s (regPhyLinkIvl c) / max 1 (phy s c).trained.length ≤ s.tick) :
    let n := max 1 (phy s c).trained.length
    linkCheck s c ce true = linkRead (modPhy s c fun p => { p with linkAt := s.tick, linkNext := ((phy s c).linkNext + 1) % n }) g := by
  intro n
  have hturn : due s (phy s c).linkAt (rd s (regPhyLinkIvl c) / n) = true := decide_eq_true hdue
  have hmod : modPhy s c (fun p => { p with linkAt := s.tick, linkNext := (p.linkNext + 1) % n }) =
      modPhy s c fun p => { p with linkAt := s.tick, linkNext := ((phy s c).linkNext + 1) % n } := modPhy_congr rfl
  unfold linkCheck
  rw [hlun]
  dsimp only
  rw [chanUp_of_state hup, hon, hbus, hturn, hce, hall, ← hmod]
  simp [n]

end

/-! ### The PLL (R216) -/

theorem pllUnlock_fenced (h : chanState s c = 3) :
    pllUnlock s c = modPhy (phyFlag s c 7) c fun p => { p with unlocked := true } := by
  unfold pllUnlock
  exact if_pos ((chanState_phyFlag s c 7).trans h)

theorem pllUnlock_retrains (h : chanState s c ≠ 3) :
    pllUnlock s c = modPhy (enterRetrain (phyFlag s c 7) c) c fun p => { p with
      unlocked := true, train := .none, pend := if p.train = .none then p.pend else some (p.train, p.rung) } := by
  unfold pllUnlock
  exact if_neg (by rwa [chanState_phyFlag])

/-- The channel with its PLL locked again. -/
def relocked (s : State) (c : Nat) : State := modPhy s c fun p => { p with unlocked := false, pend := none }

section
variable (hlost : (phy s c).unlocked = true)
include hlost

/-- The training after a lock: the one that waited, on a channel that has never passed one, else a quick retrain. -/
theorem pllLock_retrains (hstate : chanState s c = 1) (hces : trainCes s c ≠ []) :
    pllLock s c = match (phy s c).pend, decide ((phy s c).kept = []) with
      | some (t, r), true => startTrain (relocked s c) c t r
      | _, _ => startTrain (relocked s c) c .quick (chanRung s c) := by
  have hgo : (decide (chanState s c = 1) && !(trainCes s c).isEmpty) = true := by simpa [hstate] using hces
  unfold pllLock
  rw [if_pos hlost]
  exact if_pos hgo

theorem pllLock_quick (hstate : chanState s c = 1) (hces : trainCes s c ≠ [])
    (h : (phy s c).kept ≠ [] ∨ (phy s c).pend = none) :
    pllLock s c = startTrain (relocked s c) c .quick (chanRung s c) := by
  rw [pllLock_retrains hlost hstate hces]
  rcases h with hkept | hpend
  · rw [decide_eq_false hkept]
    cases (phy s c).pend <;> rfl
  · rw [hpend]

theorem pllLock_waited (hstate : chanState s c = 1) (hces : trainCes s c ≠ []) {k : Train} {n : Nat}
    (hkept : (phy s c).kept = []) (hpend : (phy s c).pend = some (k, n)) :
    pllLock s c = startTrain (relocked s c) c k n := by
  rw [pllLock_retrains hlost hstate hces, decide_eq_true hkept, hpend]

theorem pllLock_rests (h : chanState s c ≠ 1 ∨ trainCes s c = []) : pllLock s c = relocked s c := by
  have hstay : ¬(decide (chanState s c = 1) && !(trainCes s c).isEmpty) = true := by
    rcases h with h | h <;> simp [h]
  unfold pllLock
  rw [if_pos hlost]
  exact if_neg hstay

end

/-! ### Raise attempts (R215) -/

theorem raiseStart_below (hstate : chanState s c = 2) (hmixed : (phy s c).mixed = false) (htop : topRung s c < chanRung s c) :
    raiseStart s c = startTrain (modPhy s c fun p => { p with oldRung := chanRung s c }) c .raise (chanRung s c - 1) :=
  if_pos (by simp [hstate, hmixed, htop])

end

/-- Settles O22: a link check by whether it was asked for or in turn (`linkCheck_asked`, `linkCheck_turn`), a loss of lock by whether
the channel is FENCED, a lock by what waited for it, and the timers by whether they are due. -/
theorem triggersOfTraining : Obligations.TriggersOfTraining := by
  unfold Obligations.TriggersOfTraining
  intro s c up ready
  have pumped {i : Instr} {u v : State} (hi : exec i s = .next (pump u)) (h : u = v) : exec i s = .next (pump v) := h ▸ hi
  refine ⟨fun ce rest g hready hlun hall hnew => ?asked, fun hready hall hdue ce g hce hlun => ?turn,
    fun ce pass hlun => pumped rfl (linkCheck_noLun hlun pass), fun hdue => ⟨fun hup => ?period, fun hdown => ?periodDown⟩,
    fun hstate => ?unlock, fun hstate => ?unlockFenced, fun hlost => ?locks,
    fun hstate hmixed htop hdue hraise hfails => ?raise, fun h => ?noRaise⟩
  case asked =>
    obtain ⟨hup, hon, hbus⟩ := hready
    intro u
    have hregs : u.regs = s.regs := linkRead_regs _ g
    have hcheck := linkCheck_asked hlun hup hon hbus hall hnew
    have hfail : linkFail u c = startTrain (phyFlag u c 0) c .quick (chanRung s c) := by
      rw [linkFail_up (by rwa [chanState_of_regs hregs]), chanRung_of_regs hregs]
    exact ⟨pumped rfl (hcheck true), phyFlag u c 0, pumped rfl ((hcheck false).trans hfail), rfl, phyFlag_bit u c (by decide)⟩
  case turn =>
    obtain ⟨hup, hon, hbus⟩ := hready
    exact pumped rfl (linkCheck_turn hlun hup hon hbus hall hce hdue)
  case period => exact pumped rfl ((if_pos (decide_eq_true hdue)).trans (quickTrigger_up hup))
  case periodDown => exact pumped rfl ((if_pos (decide_eq_true hdue)).trans (quickTrigger_down hdown))
  case unlock =>
    refine ⟨phyFlag s c 7, _, pumped rfl (pllUnlock_retrains hstate), rfl, phyFlag_bit s c (by decide), fun a hstatus hcount => ?_, rfl⟩
    exact rd_sticky_ne s hstatus hcount
  case unlockFenced =>
    refine ⟨_, pumped rfl (pllUnlock_fenced hstate), (chanState_phyFlag s c 7).trans hstate, chanRung_phyFlag s c 7, ?_⟩
    rw [phy_modPhy_same]
  case locks =>
    exact ⟨fun hstate hces => ⟨fun h => pumped rfl (pllLock_quick hlost hstate hces h),
      fun k n hkept hpend => pumped rfl (pllLock_waited hlost hstate hces hkept hpend)⟩, fun h => pumped rfl (pllLock_rests hlost h)⟩
  case raise => exact pumped rfl ((if_pos (by simp [due, hdue, hraise, hfails])).trans (raiseStart_below hstate hmixed htop))
  case noRaise => exact pumped rfl (if_neg (by rcases h with h | h <;> simp [h]))

end Sys2Proof.Machine
end

