-- ==== Sys2Proof/Proofs/GovernorFrame.lean ====
section
/-! What an evaluation of the governor (R360) can change: operations, codeword reads and reconstructions with what they take, the
governor's own record, and the registers and FIFOs that count and trace it. Everything else stays (`govEvaluate_frame`). -/

namespace Sys2Proof.Machine

/-- All that an evaluation of the governor may change is taken from the second state. -/
def GovFrame (s t : State) : Prop :=
  t = { s with
    nextId := t.nextId, regs := t.regs, traces := t.traces, ports := t.ports, xfers := t.xfers, ops := t.ops, items := t.items,
    recons := t.recons, banks := t.banks, luns := t.luns, buses := t.buses, age := t.age, gov := t.gov }

namespace GovFrame

theorem refl (s : State) : GovFrame s s := rfl

theorem trans {s t u : State} (h : GovFrame s t) (g : GovFrame t u) : GovFrame s u := by
  unfold GovFrame at g
  rw [g, h]
  rfl

/-- `trans` with the later change first, from which the state between is known. -/
theorem after {s t u : State} (g : GovFrame t u) (h : GovFrame s t) : GovFrame s u := h.trans g

theorem ite {s t u : State} {p : Prop} [Decidable p] (ht : GovFrame s t) (hu : GovFrame s u) : GovFrame s (if p then t else u) := by
  split
  · exact ht
  · exact hu

/-- A fold of an operation that keeps within the frame keeps within it. -/
theorem foldl {α : Type} {f : State → α → State} (hf : ∀ t x, GovFrame t (f t x)) (l : List α) (s : State) :
    GovFrame s (l.foldl f s) := by
  induction l generalizing s with
  | nil => exact refl s
  | cons x r ih => exact (hf s x).trans (ih (f s x))

end GovFrame

section
variable (s : State)

/-! ### Codeword reads -/

theorem queueRead_govFrame (i : Item) (lv : List Int) : GovFrame s (queueRead s i lv) := by
  unfold queueRead
  exact .ite rfl rfl

theorem queueStep_govFrame (i : Item) : GovFrame s (queueStep s i) := .foldl (fun t lv => queueRead_govFrame t i lv) _ s

theorem predPut_govFrame (g b : Nat) (p : Pred) : GovFrame s (predPut s g b p) := .ite rfl rfl

theorem predHit_govFrame {gen g b : Nat} {wseq : Option Nat} {p : State × List Int} (h : predHit s gen g b wseq = some p) :
    GovFrame s p.1 := by
  unfold predHit at h
  dsimp only at h
  split at h <;> split at h <;> cases h
  · exact .refl s
  · exact predPut_govFrame s ..
  · exact predPut_govFrame s ..

theorem ageWant_govFrame (i : Item) : GovFrame s (ageWant s i) := .ite rfl rfl

theorem addNew_govFrame (i : Item) : GovFrame s (addNew s i) := by
  unfold addNew
  dsimp only
  split
  · split
    · next t base hhit =>
      have hqueued : GovFrame t { t with items := t.items ++ [{ i with id := (fresh s).1, base := base }] } := rfl
      exact ((show GovFrame s (fresh s).2 from rfl).trans (predHit_govFrame _ hhit)).trans (hqueued.trans (queueStep_govFrame ..))
    · exact (ageWant_govFrame ..).after rfl
  · exact (queueStep_govFrame ..).after rfl

theorem addItem_govFrame (i : Item) : GovFrame s (addItem s i) := by
  unfold addItem
  split
  · rfl
  · exact addNew_govFrame s i

/-! ### Reconstructions -/

theorem takeSlot?_govFrame {q p : Nat} {t : Nat × State} (h : takeSlot? s q p = some t) : GovFrame s t.2 := by
  unfold takeSlot? at h
  split at h
  · obtain ⟨i, -, rfl⟩ := Option.map_eq_some_iff.1 h
    rfl
  · cases h

theorem takeRegion_govFrame {q : Nat} {t : State} (h : takeRegion s q = some t) : GovFrame s t := by
  unfold takeRegion at h
  split at h
  · cases h
    rfl
  · obtain ⟨p, hp, rfl⟩ := Option.map_eq_some_iff.1 h
    exact takeSlot?_govFrame s hp

theorem askMore_govFrame {id : Nat} {t : State} (h : askMore s id = some t) : GovFrame s t := by
  unfold askMore at h
  split at h
  · cases h
    rfl
  · split at h
    · cases h
    · dsimp only at h
      split at h <;> cases h
      refine .trans (t := modRecon s id _) rfl (.foldl (fun t j => ?_) _ _)
      split
      · exact addItem_govFrame t _
      · rfl

theorem startRecon_govFrame {r : Recon} {t : State} (h : startRecon s r = some t) : GovFrame s t := by
  unfold startRecon at h
  split at h
  · cases h
  · split at h
    · dsimp only at h
      split at h
      · exact (askMore_govFrame _ h).after rfl
      · split at h
        · next u hregion =>
          have hbegun : GovFrame s u := (takeRegion_govFrame _ hregion).after rfl
          exact ((askMore_govFrame _ h).after rfl).after hbegun
        · cases h
          rfl
    · cases h

/-! ### Admission -/

theorem trace_govFrame (k src arg : Nat) (l : List Nat) : GovFrame s (trace s k src arg l) := by
  unfold GovFrame
  rw [trace_frame]

theorem charge_govFrame (z i e : Nat) : GovFrame s (charge s z i e) := rfl

theorem admitTake_govFrame (o : Op) (e : Nat) : GovFrame s (admitTake s o e) := by
  unfold admitTake
  dsimp only
  split
  · exact (trace_govFrame ..).after rfl
  · exact (charge_govFrame ..).after ((trace_govFrame ..).after rfl)
  · exact (trace_govFrame ..).after rfl

theorem countRefusal_govFrame (a : Adm) : GovFrame s (countRefusal s a) := by cases a <;> rfl

theorem traceAround_govFrame (items : List Item) : GovFrame s (traceAround s items) :=
  .foldl (fun t _ => trace_govFrame t ..) _ s

/-- A fold of an operation that keeps within the frame, or is refused. -/
theorem GovFrame.foldl_some {α : Type} {f : Option State → α → Option State} {l : List α} {u t : State} (hu : GovFrame s u)
    (hf : ∀ acc x t, (∀ v, acc = some v → GovFrame s v) → f acc x = some t → GovFrame s t)
    (h : l.foldl f (some u) = some t) : GovFrame s t :=
  foldl_option (fun _ hv => Option.some.inj hv ▸ hu) hf h

theorem grantAround_govFrame {items : List Item} {e1 doneAt : Nat} {back : Option Nat} {t : State}
    (h : grantAround s items e1 doneAt back = some t) : GovFrame s t := by
  unfold grantAround at h
  dsimp only at h
  split at h
  · cases h
  · next u hu =>
    have hbegun : GovFrame s u := by
      split at hu
      · cases hu
      · refine .foldl_some s (.refl s) (fun acc i t hacc e => ?_) hu
        split at e
        · refine .foldl_some s (hacc _ rfl) (fun acc x t hacc e => ?_) e
          obtain ⟨w, rfl, hw⟩ := Option.bind_eq_some_iff.1 e
          exact (hacc w rfl).trans (startRecon_govFrame w hw)
        · cases e
    split at h
    · split at h
      · obtain ⟨v, hv, rfl⟩ := Option.map_eq_some_iff.1 h
        have hadmitted : GovFrame s v := by
          refine .foldl_some s hbegun (fun acc o t hacc e => ?_) hv
          obtain ⟨w, rfl, hw⟩ := Option.bind_eq_some_iff.1 e
          split at hw <;> cases hw
          exact ((hacc w rfl).trans (admitTake_govFrame w o _)).trans (charge_govFrame ..)
        exact (hadmitted.trans (traceAround_govFrame v items)).trans rfl
      · cases h
    · cases h

/-! ### An evaluation -/

theorem busyRead_govFrame {u o : Op} {t : State} (h : busyRead s u o = .around t) : GovFrame s t := by
  have hdropped : ∀ {v : State}, GovFrame (dropRead s o) v → GovFrame s v := fun h => h.after rfl
  unfold busyRead at h
  grind [grantAround_govFrame]

theorem capNote_govFrame (u o : Op) : GovFrame s (capNote s u o) := .ite rfl rfl

theorem abandon_govFrame (o : Op) : GovFrame s (abandon s o) := by
  unfold abandon resetLun GovFrame
  rw [modLun_frame]
  rfl

theorem makeWay_govFrame (o : Op) : GovFrame s (makeWay s o) :=
  .ite (.foldl (fun t x => abandon_govFrame t x) _ s) rfl

theorem decideOne_govFrame (r : Round) (o : Op) : GovFrame r.s (decideOne r o).s := by
  unfold decideOne
  dsimp only
  split
  · rfl
  · split
    · have htaken (e : Nat) : GovFrame r.s (admitTake (makeWay r.s o) o e) := (makeWay_govFrame r.s o).trans (admitTake_govFrame _ o e)
      dsimp only
      split
      · exact ((htaken _).trans (trace_govFrame ..)).trans rfl
      · exact htaken _
    · exact (makeWay_govFrame r.s o).trans (countRefusal_govFrame ..)

theorem decideAll_govFrame (n : Nat) (r : Round) : GovFrame r.s (decideAll n r).s := by
  induction n generalizing r with
  | zero => rfl
  | succ n ih =>
    unfold decideAll
    split
    · exact (decideOne_govFrame r _).trans (ih _)
    · rfl

theorem settleBusy_govFrame : GovFrame s (settleBusy s) := by
  refine .foldl (fun t id => ?_) _ s
  split
  · split
    · split
      · next haround => exact busyRead_govFrame t haround
      · exact capNote_govFrame t ..
    · rfl
  · rfl

theorem govEvaluate_govFrame : GovFrame s (govEvaluate s) := by
  unfold govEvaluate
  exact .ite rfl ((settleBusy_govFrame s).trans (decideAll_govFrame _ { s := settleBusy s }))

/-- The PHYs' records stay. -/
theorem govEvaluate_phys : (govEvaluate s).phys = s.phys := by rw [govEvaluate_govFrame s]

end

end Sys2Proof.Machine
end

