-- ==== Sys2Proof/Proofs/TrainingPasses.lean ====
section
/-! The zone temperature that a training's pass keeps (R210): that of the state in which PHY_STATE already shows the pass, which the
statement on the ends of trainings takes from the state before it. -/

namespace Sys2Proof.Machine

section
variable (s : State) (c : Nat)

theorem setChanState_phys (v : Nat) : (setChanState s c v).phys = s.phys := by
  unfold setChanState
  split
  · rfl
  · simp [wrf]

theorem phy_govEvaluate : phy (govEvaluate s) c = phy s c := by
  unfold phy
  rw [govEvaluate_phys]

/-- The block once PHY_STATE shows the chip enables that passed and the effective top rung. -/
def passShown (rung : Nat) (got : List CeTrain) : State :=
  wrf (wrf s (regPhyState c) 31 16 ((passedCes s c rung got).map fun e => 2 ^ e).sum) (regPhyState c) 10 8 (topRung s c)

/-- The temperature of a pass is read once PHY_STATE has been written. -/
theorem trainPass_passTemp (rung : Nat) (got : List CeTrain) :
    (phy (trainPass s c rung got) c).passTemp = chTemp (passShown s c rung got) c := by
  unfold trainPass
  dsimp only
  rw [phy_govEvaluate, phy, setChanState_phys]
  simp [leaveRetrain, modPhy, passShown]

end

/-- The number of which GOV_CHMAP's word would be PHY_STATE of channel 0: no channel has it, and no row takes a reading of a LUN so far
up, but a state may hold one. -/
def strayChan : Nat := (regPhyState 0 - regGovChmap 0) / 4

/-- The block with one die reading, of 100 °C, of a LUN of that number. -/
def strayReading : State := { State.reset with gov := { State.reset.gov with dies := [(128 * strayChan, (100, 0))] } }

/-- Chip enable 0, with a passing window. -/
def ce0Passed : CeTrain :=
  { ce := 0, window := true, step := 0, readEye := 0, writeEye := 0, deskew := [], dqsDelay := 0, refCode := 0 }

/-- CE_OK moves the stray reading from channel 0's zone to another. -/
theorem strayReading_temps : chTemp strayReading 0 = 100 ∧ chTemp (passShown strayReading 0 6 [ce0Passed]) 0 = 95 := by
  decide +kernel

/-- Refutes O23 by its clause on the temperature of a pass (`passTemp`), at `strayReading`. The zone of a die reading is looked up in
GOV_CHMAP by the reading's number; one that is no GLUN reaches beyond the 32 words of that table, here to PHY_STATE of the channel in
training. The pass keeps the temperature found after it has written CE_OK, 95 °C by the zone's curve, where the statement asks for that
of the state before, 100 °C. A state whose readings are all of GLUNs has no such reading: the statement lacks that hypothesis. -/
theorem not_trainingEnds : ¬ Obligations.TrainingEnds := by
  unfold Obligations.TrainingEnds
  rintro ⟨-, hpass⟩
  obtain ⟨-, u, hu, -, -, -, -, -, -, -, htemp, -⟩ := hpass strayReading 0 6 [ce0Passed]
  obtain ⟨hbefore, hshown⟩ := strayReading_temps
  have hkept : (phy (trainPass strayReading 0 6 [ce0Passed]) 0).passTemp = (phy u 0).passTemp := by
    have htrained : trainPass strayReading 0 6 [ce0Passed] = govEvaluate u := hu
    rw [htrained, phy_govEvaluate]
  have hsame : (95 : Int) = 100 :=
    calc 95 = (phy (trainPass strayReading 0 6 [ce0Passed]) 0).passTemp := by rw [trainPass_passTemp, hshown]
      _ = (phy u 0).passTemp := hkept
      _ = chTemp strayReading 0 := htemp
      _ = 100 := hbefore
  exact absurd hsame (by decide)

end Sys2Proof.Machine
end

