-- ==== Sys2Proof/Proofs/CodewordReads.lean ====
section
/-! A codeword from the end of its data-out to the end of its decode (R239 to R245, R250): its tests, its place before the decoders,
the decoder that takes it, and the steps of its ladder. -/

namespace Sys2Proof.Machine

section
variable {s : State} {i : Item}

/-! ### One codeword job changed -/

theorem item?_modItem {id : Nat} (h : item? s id = some i) {f : Item → Item} (hf : ∀ x, (f x).id = x.id) :
    item? (modItem s id f) id = some (f i) := by
  have hmod : item? (modItem s id f) id = (item? s id).map f := find?_modFirst _ f (fun x hx => by simpa [hf x] using hx) s.items
  rw [hmod, h]
  rfl

theorem mem_modItem {id : Nat} {x : Item} (hx : x ∈ s.items) (hid : x.id ≠ id) (f : Item → Item) : x ∈ (modItem s id f).items :=
  mem_modFirst_of_not f hx (by simpa using hid)

/-! ### The end of a data-out (R239, R245) -/

/-- The block once a read's data-out has left the bus. -/
def busLeft (s : State) (o : Op) : State :=
  modOp (releaseOp s { o with peak := 0 }) o.id (fun o => { o with leaving := false, vccq := 0 })

theorem op?_busLeft {o : Op} (h : op? s o.id = some o) : op? (busLeft s o) o.id = some { o with leaving := false, vccq := 0 } :=
  op?_modOp (s := releaseOp s { o with peak := 0 }) h fun _ => rfl

/-- The block once the first codeword of that read has left it, `rest` being its others. -/
def codewordLeft (s : State) (o : Op) (rest : List (Nat × Nat × Nat)) : State :=
  modOp (busLeft s o) o.id (fun o => { o with cws := rest })

theorem op?_codewordLeft {o : Op} (h : op? s o.id = some o) (rest : List (Nat × Nat × Nat)) :
    op? (codewordLeft s o rest) o.id = some { o with leaving := false, vccq := 0, cws := rest } :=
  op?_modOp (op?_busLeft h) fun _ => rfl

/-- The codeword, read by the operation that its LUN ran last. -/
def readNow (s : State) (i : Item) : Item := { i with readBy := ((lun? s i.glun).map (fun l => l.ran)).getD 0 }

theorem codewordReceived_idle {c : Nat} (h : ∀ o ∈ s.ops, chOf o.glun = c → o.leaving = false) (raw : List Byte) (detect : Bool) :
    codewordReceived s c raw detect = s := by
  have hnone : leavingOp s c = none := List.find?_eq_none.2 fun o ho => by simpa using h o ho
  unfold codewordReceived
  rw [hnone]

section
variable {o : Op} {c page cw id : Nat} {rest : List (Nat × Nat × Nat)} (hop : leavingOp s c = some o)
  (hcws : o.cws = (page, cw, id) :: rest) (hitem : item? s id = some i)
include hop hcws hitem

theorem codewordReceived_repeated (hs : i.strikes < 2) (raw : List Byte) : codewordReceived s c raw true =
    modItem (recoveredAny (busLeft s o) 1 c 0) id (fun i => { i with strikes := i.strikes + 1 }) := by
  have hitem' : item? (busLeft s o) id = some i := hitem
  unfold codewordReceived
  simp only [hop, hcws]
  split
  · next hnone => cases hnone.symm.trans hitem'
  · next x hx =>
    cases hx.symm.trans hitem'
    exact if_pos (by simp [hs])

theorem codewordReceived_taken (raw : List Byte) {detect : Bool} (h : detect = false ∨ 2 ≤ i.strikes) :
    codewordReceived s c raw detect = endRead
      (if detect then itemFail (unrecoveredAny (codewordLeft s o rest) 1 c 0) (readNow s i) stInternal 0x40 0
        else itemReceived (modItem (codewordLeft s o rest) id (fun _ => readNow s i)) (readNow s i) (slice raw 0 4648)) o.id := by
  have hitem' : item? (busLeft s o) id = some i := hitem
  unfold codewordReceived
  simp only [hop, hcws]
  split
  · next hnone => cases hnone.symm.trans hitem'
  · next x hx =>
    cases hx.symm.trans hitem'
    refine if_neg ?_
    rcases h with rfl | h
    · simp
    · simp [Nat.not_lt.2 h]

end

/-! ### The tests of a codeword (R239, R240) -/

theorem filter_takesRaw_nil (h : ∀ u ∈ i.use, ∀ cid idx md, u = .raw cid idx md → md = 0) : i.use.filter takesRaw = [] := by
  refine List.filter_eq_nil_iff.2 fun u hu => ?_
  cases u with
  | raw cid idx md => simp [takesRaw, h _ hu cid idx md rfl]
  | _ => simp [takesRaw]

theorem sweepOf_none (h : ∀ u ∈ i.use, ∀ n, u ≠ .sweep n) : sweepOf i = none := by
  refine List.findSome?_eq_none_iff.2 fun u hu => ?_
  cases u with
  | sweep n => exact absurd rfl (h _ hu n)
  | _ => rfl

theorem itemReceived_taken (hraw : i.use.filter takesRaw = []) (huse : i.use ≠ []) (raw : List Byte) :
    itemReceived s i raw =
      itemTaken (modItem s i.id (fun _ => i)) i raw (scramble (seedOf i.glun i.block i.wl i.page i.cw) raw) := by
  have hstay : i.use.filter (fun u => !(takesRaw u)) = i.use :=
    List.filter_eq_self.2 fun u hu => by simpa using List.filter_eq_nil_iff.1 hraw u hu
  unfold itemReceived
  simp only [hraw, hstay, List.foldl_nil]
  exact if_neg (by simpa using huse)

theorem itemReceived_raw {cid idx m : Nat} (huse : i.use = [.raw cid idx m]) (hm : m ≠ 0) (raw : List Byte) :
    itemReceived s i raw = dropItem (rawGot s cid idx i.glun
      (if m = 2 then raw else scramble (seedOf i.glun i.block i.wl i.page i.cw) raw)) i.id := by
  simp [itemReceived, huse, takesRaw, hm]

theorem erasedTest_hard (hstep : i.step < 0x10) : erasedTest i = (sweepOf i).isNone := by simp [erasedTest, hstep]

theorem itemTaken_erased (hstep : i.step < 0x10) (hs : sweepOf i = none) {raw : List Byte}
    (h : zeroBits raw ≤ rdGen s i.gen regDecErased % 65536) (clear : List Byte) : itemTaken s i raw clear = itemErased s i :=
  if_pos (by simp [erasedTest_hard hstep, hs, h])

theorem itemTaken_staged (hstep : i.step < 0x10) {raw : List Byte}
    (h : (sweepOf i).isSome = true ∨ ¬zeroBits raw ≤ rdGen s i.gen regDecErased % 65536) (clear : List Byte) :
    itemTaken s i raw clear = itemStaged s i clear := by
  unfold itemTaken
  rw [if_neg, if_pos hstep]
  rw [erasedTest_hard hstep]
  rcases h with h | h
  · simp [Option.isNone_eq_false_iff.2 h]
  · simp [Nat.not_le.1 h]

/-- A codeword waits for a decoder where the queues of its quadrant have room. -/
theorem itemStaged_waits (h : (waitingDec s (quadOf i.glun)).length < 1024) (raw : List Byte) :
    itemStaged s i raw = modItem { s with nextId := s.nextId + 1 } i.id (fun i => { i with stage := .staged, raw := raw, queued := s.nextId }) := by
  unfold itemStaged
  dsimp only [fresh]
  exact congrArg (modItem · i.id _) (if_neg (Nat.not_le.2 h))

end

/-! ### The decoder that takes a codeword (R21, R242) -/

section
variable {s : State} {p : Nat} {soft : Bool} {i : Item}

/-- The codewords that a free decoder of a pool may take. -/
def decFor (s : State) (p : Nat) (soft : Bool) : List Item :=
  (decQueue s (p / 2) soft).filter (fun i => decide (poolOf (chOf i.glun) = p) || !(idleDec s (poolOf (chOf i.glun)) soft))

/-- The order among codewords of one class: deadline, own pool, age. -/
def DecBefore (p : Nat) (x y : Item) : Prop :=
  x.deadline < y.deadline ∨ (x.deadline = y.deadline ∧
    (decide (poolOf (chOf x.glun) = p) = true ∧ decide (poolOf (chOf y.glun) = p) = false ∨
      decide (poolOf (chOf x.glun) = p) = decide (poolOf (chOf y.glun) = p) ∧ x.queued < y.queued))

theorem decKey_lt {x y : Item} (h : DecBefore p x y) (hx : x.queued < 2 ^ 64) : decKey p x < decKey p y := by
  unfold decKey
  rcases h with h | ⟨hd, ⟨hx', hy'⟩ | ⟨hp, hq⟩⟩
  · split <;> split <;> omega
  · rw [if_pos (by simpa using hx'), if_neg (by simpa using hy')]
    omega
  · have hhome : (if poolOf (chOf x.glun) = p then 0 else 1) = (if poolOf (chOf y.glun) = p then 0 else 1) := by
      simp only [decide_eq_decide] at hp
      simp [hp]
    rw [hd, hhome]
    omega

theorem minBy_isSome {α : Type} (key : α → Nat) {l : List α} {a : α} (ha : a ∈ l) : ∃ b, minBy key l = some b :=
  Option.ne_none_iff_exists'.1 fun hnone => List.ne_nil_of_mem ha (minBy_none hnone)

theorem minBy_eq_of_lt {α : Type} {key : α → Nat} {l : List α} {a : α} (ha : a ∈ l) (h : ∀ x ∈ l, x = a ∨ key a < key x) :
    minBy key l = some a := by
  obtain ⟨b, hb⟩ := minBy_isSome key ha
  have hle : key b ≤ key a := minBy_le hb ha
  rcases h b (minBy_mem hb) with rfl | hlt
  · exact hb
  · omega

/-- The first of its class in that order. -/
theorem minBy_decKey {l : List Item} (hi : i ∈ l) (hq : i.queued < 2 ^ 64) (h : ∀ x ∈ l, x = i ∨ DecBefore p i x) :
    minBy (decKey p) l = some i :=
  minBy_eq_of_lt hi fun x hx => (h x hx).imp id fun hb => decKey_lt hb hq

/-! Codewords of both classes wait, or of one class only. -/

theorem nextDecode_both {a b : Item} (ha : minBy (decKey p) ((decFor s p soft).filter classA) = some a)
    (hb : minBy (decKey p) ((decFor s p soft).filter (fun i => !(classA i))) = some b) (n : Nat) :
    nextDecode s p soft n = if busyA s p soft + (if soft then 1 else 2) < n then some a else some b := by
  unfold decFor at ha hb
  unfold nextDecode
  simp only [ha, hb]

theorem nextDecode_noA (ha : (decFor s p soft).filter classA = []) (n : Nat) :
    nextDecode s p soft n = minBy (decKey p) ((decFor s p soft).filter (fun i => !(classA i))) := by
  unfold decFor at ha ⊢
  unfold nextDecode
  simp only [ha, minBy]

theorem nextDecode_noB (hb : (decFor s p soft).filter (fun i => !(classA i)) = []) (n : Nat) :
    nextDecode s p soft n = minBy (decKey p) ((decFor s p soft).filter classA) := by
  unfold decFor at hb ⊢
  unfold nextDecode
  simp only [hb, minBy]
  cases minBy (decKey p) _ <;> rfl

theorem nextDecode_none (h : decFor s p soft = []) (n : Nat) : nextDecode s p soft n = none := by
  rw [nextDecode_noA (by rw [h]; rfl), h]
  rfl

section
variable (hi : i ∈ decFor s p soft) (hq : i.queued < 2 ^ 64)
  (hfirst : ∀ x ∈ decFor s p soft, classA x = classA i → x = i ∨ DecBefore p i x)
include hi hq hfirst

theorem minBy_ownClass (f : Item → Bool) (hf : ∀ x, f x = true ↔ classA x = classA i) :
    minBy (decKey p) ((decFor s p soft).filter f) = some i :=
  minBy_decKey (List.mem_filter.2 ⟨hi, (hf i).2 rfl⟩) hq fun x hx =>
    hfirst x (List.mem_of_mem_filter hx) ((hf x).1 (List.mem_filter.1 hx).2)

theorem nextDecode_oneClass (hone : ∀ x ∈ decFor s p soft, classA x = classA i) (n : Nat) : nextDecode s p soft n = some i := by
  cases hA : classA i with
  | true =>
    rw [nextDecode_noB (List.filter_eq_nil_iff.2 fun x hx => by simp [hone x hx, hA])]
    exact minBy_ownClass hi hq hfirst classA (by simp [hA])
  | false =>
    rw [nextDecode_noA (List.filter_eq_nil_iff.2 fun x hx => by simp [hone x hx, hA])]
    exact minBy_ownClass hi hq hfirst _ (by simp [hA])

theorem nextDecode_classA (hA : classA i = true) (hB : ∃ x ∈ decFor s p soft, classA x ≠ classA i) {n : Nat}
    (hroom : busyA s p soft + (if soft then 1 else 2) < n) : nextDecode s p soft n = some i := by
  obtain ⟨x, hx, hne⟩ := hB
  obtain ⟨b, hb⟩ := minBy_isSome (decKey p) (l := (decFor s p soft).filter (fun i => !(classA i)))
    (List.mem_filter.2 ⟨hx, by simpa [hA] using hne⟩)
  rw [nextDecode_both (minBy_ownClass hi hq hfirst classA (by simp [hA])) hb, if_pos hroom]

theorem nextDecode_classB (hB : classA i = false) (hA : ∃ x ∈ decFor s p soft, classA x ≠ classA i) {n : Nat}
    (hkept : n ≤ busyA s p soft + (if soft then 1 else 2)) : nextDecode s p soft n = some i := by
  obtain ⟨x, hx, hne⟩ := hA
  obtain ⟨a, ha⟩ := minBy_isSome (decKey p) (l := (decFor s p soft).filter classA) (List.mem_filter.2 ⟨hx, by simpa [hB] using hne⟩)
  rw [nextDecode_both ha (minBy_ownClass hi hq hfirst _ (by simp [hB])), if_neg (Nat.not_lt.2 hkept)]

end

theorem decodeStart_off (h : domOn s (64 + p) = false) (detect : Bool) : decodeStart s p soft detect = s := by
  simp [decodeStart, h]

theorem decodeStart_busy (h : ∀ d ∈ decodersOf s p soft, (tget? (decPool s p).busy d).isSome = true) (detect : Bool) :
    decodeStart s p soft detect = s := by
  have hfree : (if domOn s (64 + p) then decodersOf s p soft else []).find? (fun d => (tget? (decPool s p).busy d).isNone) = none := by
    refine List.find?_eq_none.2 fun d hd => ?_
    split at hd
    · simp [Option.isSome_iff_ne_none.1 (h d hd)]
    · cases hd
  unfold decodeStart
  simp only [hfree]

theorem decodeStart_empty (h : decFor s p soft = []) (detect : Bool) : decodeStart s p soft detect = s := by
  unfold decodeStart
  dsimp only
  split
  · next hnext => cases (nextDecode_none h _).symm.trans hnext
  · rfl

/-- The block once a decoder of a pool has taken a codeword. -/
def decTaken (s : State) (p d : Nat) (i : Item) : State :=
  { modItem s i.id (fun i => { i with stage := .decoding p d }) with
    decs := tmod s.decs p {} (fun x => { x with busy := tset x.busy d i.id }) }

theorem decodeStart_takes {d : Nat} (hon : domOn s (64 + p) = true)
    (hd : (decodersOf s p soft).find? (fun d => (tget? (decPool s p).busy d).isNone) = some d)
    (hi : nextDecode s p soft (decodersOf s p soft).length = some i) (detect : Bool) :
    decodeStart s p soft detect = if detect then stagingCheck s i else decTaken s p d i := by
  unfold decodeStart
  simp only [hon, if_true, hd, hi]
  rfl

theorem busy_decTaken (d : Nat) : tget? (decPool (decTaken s p d i) p).busy d = some i.id := by
  simp [decPool, decTaken]

end

/-! ### The end of a decode (R241, R245) -/

section
variable {s : State} {p d : Nat} {i : Item}

/-- The block once a decoder of a pool is free again. -/
def decFreed (s : State) (p d : Nat) : State := { s with decs := tmod s.decs p {} (fun x => { x with busy := terase x.busy d }) }

theorem decPool_decFreed : decPool (decFreed s p d) p = { decPool s p with busy := terase (decPool s p).busy d } := by
  simp [decPool, decFreed]

theorem codeOf_decFreed (unit gen : Nat) : codeOf (decFreed s p d) unit gen = codeOf s unit gen := rfl

theorem decodeDone_idle (h : tget? (decPool s p).busy d = none) (out : List Byte) (iters : Nat) (detect : Bool) :
    decodeDone s p d out iters detect = s := by
  unfold decodeDone
  rw [h]
  rfl

/-- The block once a failed decode of a codeword has been counted with its pool. -/
def decFailed (s : State) (p : Nat) (i : Item) : State :=
  bump s (regDecPoolCnt p) (if decide (0x10 ≤ i.step) then 15 else 31) (if decide (0x10 ≤ i.step) then 0 else 16) 1

section
variable (hbusy : tget? (decPool s p).busy d = some i.id) (hitem : item? s i.id = some i)
include hbusy hitem

theorem decodeDone_checked (out : List Byte) (iters : Nat) : decodeDone s p d out iters true =
    if i.dstrikes = 0 then modItem (recoveredAny (decFlag (decFreed s p d) p 0) 5 (p * 10 + d) 0) i.id
      (fun i => { i with stage := .staged, dstrikes := 1 })
    else itemFail (unrecoveredAny (decFreed s p d) 5 (p * 10 + d) 0) i stInternal 0x42 0 := by
  unfold decodeDone
  simp only [hbusy, Option.bind_some, hitem]
  rfl

theorem decodeDone_sweep {id : Nat} (hs : sweepOf i = some id) (out : List Byte) (iters : Nat) : decodeDone s p d out iters false =
    sweepGot (dropItem (decFreed s p d) i.id) id (unsat (codeOf s (50 + p) i.gen) i.raw) := by
  unfold decodeDone
  simp only [hbusy, Option.bind_some, hitem, hs]
  rfl

section
variable (hs : sweepOf i = none) {out : List Byte} (hout : out.length = 4648)
include hs hout

theorem decodeDone_decoded (hn : unsat (codeOf s (50 + p) i.gen) out = 0) (iters : Nat) : decodeDone s p d out iters false =
    decoded (decFreed s p d) i out (min iters (iterLimit s i.gen (decide (0x10 ≤ i.step)))) := by
  unfold decodeDone
  simp only [hbusy, Option.bind_some, hitem, hs, slice_self hout]
  rw [← decFreed, codeOf_decFreed, if_neg Bool.false_ne_true, if_pos hn]
  rfl

theorem decodeDone_climbs (hn : unsat (codeOf s (50 + p) i.gen) out ≠ 0) (iters : Nat) : decodeDone s p d out iters false =
    climb (dropItem (if i.step = 0 then errBurst (decFailed (decFreed s p d) p i) i.glun else decFailed (decFreed s p d) p i) i.id)
      { i with fails := if decide (0x10 ≤ i.step) then i.fails else i.fails ++ [(i.step, unsat (codeOf s (50 + p) i.gen) out)] }
      (min iters (iterLimit s i.gen (decide (0x10 ≤ i.step)))) stUncorrectable 0 0 := by
  unfold decodeDone
  simp only [hbusy, Option.bind_some, hitem, hs, slice_self hout]
  rw [← decFreed, codeOf_decFreed, if_neg Bool.false_ne_true, if_neg hn]
  rfl

end

end

/-- The half of the pool's counters that counts the decoder's kind is one more, up to its end (R241). -/
theorem decFailed_count :
    (if decide (0x10 ≤ i.step) then rdf (decFailed s p i) (regDecPoolCnt p) 15 0 else rdf (decFailed s p i) (regDecPoolCnt p) 31 16) =
      min 65535 ((if decide (0x10 ≤ i.step) then rdf s (regDecPoolCnt p) 15 0 else rdf s (regDecPoolCnt p) 31 16) + 1) := by
  unfold decFailed
  split <;> exact rdf_bump s _ _ _ 1 (by decide) (by decide)

end

/-! ### The ladder (R166, R250, R252, R258) -/

section
variable {s : State} {i : Item}

theorem climb_underErase (h : underErase s i.glun i.block = true) (iters st site want : Nat) :
    climb s i iters st site want = failAll s i iters stErasing 0 0 false := if_pos h

section
variable (herase : underErase s i.glun i.block = false) (hfenced : rawFenced s i.glun = false) (hlevel : i.level = none)
include herase hfenced hlevel

/-- Nobody who wants the codeword leaves it: it goes on at the next step, or its ladder has failed. -/
theorem climb_stays (huse : i.use ≠ []) (hstay : ∀ u ∈ i.use, leaves s i u = false) (iters st site want : Nat) :
    climb s i iters st site want =
      (stepAfter (rlOf s i.gen i.glun) i.step).elim (failAll s i iters st site want true) (nextStep s i) := by
  have hout : i.use.filter (leaves s i) = [] := List.filter_eq_nil_iff.2 fun u hu => by simp [hstay u hu]
  have hall : i.use.filter (fun u => !(leaves s i u)) = i.use := List.filter_eq_self.2 fun u hu => by simp [hstay u hu]
  have hsome : i.use.isEmpty = false := by simpa using huse
  have hsteps : useSteps s [] i.step = s := rfl
  unfold climb
  rw [if_neg (by simp [herase]), if_neg (by simp [hfenced]), if_neg (by simp [hlevel])]
  simp only [hout, hall, hsome, hsteps, Bool.false_eq_true, if_false, List.foldl_nil]
  cases stepAfter (rlOf s i.gen i.glun) i.step <;> rfl

theorem climb_leaves {cid off : Nat} (huse : i.use = [.blk cid off]) (hleaves : leaves s i (.blk cid off) = true)
    (iters st site want : Nat) : climb s i iters st site want = blkReconOrFail (ladderEnd s i iters false) cid off := by
  simp [climb, herase, hfenced, hlevel, huse, hleaves, leave]

end

theorem nextStep_reads {n : Nat} (h : earlyRecon s i n = none) : nextStep s i n =
    queueStep { trace s (quadOf i.glun) 4 (chOf i.glun) [n, i.glun + 2 ^ 12 * i.wl] with
        items := s.items ++ [{ i with step := n, reads := 0, raws := (if n = 0x11 then i.raws else []), llr := [], stage := .reading, raw := [] }] }
      { i with step := n, reads := 0, raws := (if n = 0x11 then i.raws else []), llr := [], stage := .reading, raw := [] } := by
  unfold nextStep
  simp only [h, trace_items]

theorem stepAfter_hard {rl : List Byte} {step : Nat} (h : step < rlSteps rl) (hhard : step < 0x10) : stepAfter rl step = some (step + 1) := by
  simp [stepAfter, h, hhard]

theorem stepAfter_lastHard {rl : List Byte} {step : Nat} (hhard : step < 0x10) (h : rlSteps rl ≤ step) : stepAfter rl step = some 0x10 := by
  simp [stepAfter, hhard, Nat.not_lt.2 h]

theorem stepAfter_soft (rl : List Byte) : stepAfter rl 0x10 = some 0x11 := rfl

theorem stepAfter_last (rl : List Byte) : stepAfter rl 0x11 = none := rfl

end

/-- Settles O46: an ended data-out by what its codeword's detections were (`codewordReceived_repeated`, `codewordReceived_taken`) and the
tests of a received codeword; a free decoder takes the codeword of `nextDecode`, which `nextDecode_oneClass`, `nextDecode_classA` and
`nextDecode_classB` name; an ended decode by its checks (`decodeDone_decoded`, `decodeDone_climbs`), and a climb by who leaves it. -/
theorem codewordsAreTestedAndDecoded : Obligations.CodewordsAreTestedAndDecoded := by
  unfold Obligations.CodewordsAreTestedAndDecoded
  refine ⟨fun s c raw => ⟨?idle, ?received, ?tested, ?waits⟩, fun s p soft => ?start, fun s p d out iters => ⟨?free, ?ends, ?ladder⟩⟩
  case idle => exact fun h det => congrArg (fun t => ok (pump t)) (codewordReceived_idle h raw det)
  case received =>
    intro o page cw id rest i hop hc hleaving hone hcws hitem hraw
    have hbus : leavingOp s c = some o := find?_of_unique (List.mem_of_find?_eq_some hop) (by simp [hc, hleaving])
      fun x hx hp => by
        obtain ⟨hxc, hxl⟩ : chOf x.glun = c.val ∧ x.leaving = true := by simpa using hp
        exact hone x hx hxc hxl
    refine ⟨busLeft s o, rfl, op?_busLeft hop, fun hs => ?_, codewordLeft s o rest, rfl,
      op?_codewordLeft hop rest, fun hs => ?_, ?_⟩
    · exact congrArg (fun t => ok (pump t)) (codewordReceived_repeated hbus hcws hitem hs raw)
    · exact congrArg (fun t => ok (pump t)) (codewordReceived_taken hbus hcws hitem raw (.inr hs))
    · have hleft := codewordReceived_taken hbus hcws hitem raw (.inl rfl)
      rw [slice_self hraw] at hleft
      exact congrArg (fun t => ok (pump t)) hleft
  case tested =>
    intro i hraw clear x erased
    refine ⟨fun hstep huse hmode hsweep => ?_, fun n hstep huse => ?_, fun cid idx huse => ?_, fun cid idx huse => ?_⟩
    · have hs := sweepOf_none hsweep
      rw [itemReceived_taken (filter_takesRaw_nil hmode) huse]
      exact ⟨fun h => itemTaken_erased (s := x) hstep hs h _, fun h => itemTaken_staged (s := x) hstep (.inr h) _⟩
    · rw [itemReceived_taken (by simp [huse, takesRaw]) (by simp [huse])]
      exact itemTaken_staged hstep (.inl (by simp [sweepOf, huse])) _
    · exact itemReceived_raw huse (by decide) raw
    · exact itemReceived_raw huse (by decide) raw
  case waits =>
    intro i hitem hroom
    have hfresh : item? { s with nextId := s.nextId + 1 } i.id = some i := hitem
    rw [itemStaged_waits hroom]
    exact ⟨_, rfl, item?_modItem hfresh fun _ => rfl, rfl⟩
  case start =>
    intro ds home l before
    refine ⟨fun h det => ?_, fun d i hon hd hi hitem hq hfirst => ?_⟩
    · refine congrArg (fun t => ok (pump t)) ?_
      rcases h with h | h | h
      · exact decodeStart_off h det
      · exact decodeStart_busy h det
      · exact decodeStart_empty h det
    · intro takes keep
      have hqi : i.queued < 2 ^ 64 := hq i (List.mem_of_find?_eq_some hitem)
      have htakes (hnext : nextDecode s p soft ds.length = some i) : takes :=
        ⟨congrArg (fun t => ok (pump t)) (decodeStart_takes hon hd hnext true), decTaken s p d i,
          congrArg (fun t => ok (pump t)) (decodeStart_takes hon hd hnext false), item?_modItem hitem fun _ => rfl, busy_decTaken d,
          fun x hx hid => mem_modItem hx hid _, rfl⟩
      exact ⟨fun hone => htakes (nextDecode_oneClass hi hqi hfirst hone _), fun hboth =>
        ⟨fun hA hroom => htakes (nextDecode_classA hi hqi hfirst hA hboth hroom),
          fun hB hkept => htakes (nextDecode_classB hi hqi hfirst hB hboth hkept)⟩⟩
  case free => exact fun h det => congrArg (fun t => ok (pump t)) (decodeDone_idle h out iters det)
  case ends =>
    intro i hbusy hitem hout soft n it
    refine ⟨decFreed s p d, rfl, ?_, fun e he => ?_, fun id hs => ?_, fun hs hn => ?_, fun hs hn => ?_, fun h0 => ?_, fun h1 => ?_⟩
    · rw [decPool_decFreed]
      exact tget?_terase_same ..
    · rw [decPool_decFreed]
      exact tget?_terase_ne _ he
    · exact congrArg (fun t => ok (pump t)) (decodeDone_sweep hbusy hitem hs out iters)
    · exact congrArg (fun t => ok (pump t)) (decodeDone_decoded hbusy hitem hs hout hn iters)
    · exact ⟨decFailed (decFreed s p d) p i, _, rfl, rfl,
        congrArg (fun t => ok (pump t)) (decodeDone_climbs hbusy hitem hs hout hn iters), fun a ha => rd_bump_ne _ ha, decFailed_count⟩
    · exact congrArg (fun t => ok (pump t)) ((decodeDone_checked hbusy hitem out iters).trans (if_pos h0))
    · exact congrArg (fun t => ok (pump t)) ((decodeDone_checked hbusy hitem out iters).trans (if_neg h1))
  case ladder =>
    intro i climbs
    refine ⟨fun herase => climb_underErase herase .., fun herase hfenced hlevel => ⟨fun huse hstay => ?_,
      fun cid off huse hleaves => climb_leaves herase hfenced hlevel huse hleaves ..⟩,
      fun rl => ⟨stepAfter_hard, stepAfter_lastHard, fun h => h ▸ stepAfter_soft rl⟩⟩
    have hclimb := climb_stays herase hfenced hlevel huse hstay iters 0x4001 0 0
    refine ⟨fun n hn hearly => ?_, fun hlast => ?_⟩
    · rw [hn] at hclimb
      exact hclimb.trans (nextStep_reads hearly)
    · rw [hlast, stepAfter_last] at hclimb
      exact hclimb

end Sys2Proof.Machine
end

