-- ==== Sys2Proof/Proofs/Reconstructions.lean ====
section
/-! The end of a reconstruction by what it was made for (R256, R261, R483), the checks of a reconstructed block (R236), and a read that
its strict deadline ends (R368). -/

namespace Sys2Proof.Machine

/-! ### The checks of a body for a block (R236) -/

section
variable {c : Cmd} {off : Nat} {body : List Byte}

theorem outCheck_guard (h : guardOk body = false) : outCheck c off body = some (stGuard, 0, crc64 (bodyData body)) := if_pos (by simp [h])

theorem outCheck_tag {w : Nat} (hguard : guardOk body = true) (hw : wantRef c off = some w) (h : bodyRef body ≠ w) :
    outCheck c off body = some (stReftag, 1, w) := by
  simp [outCheck, hguard, hw, h]

end

section
variable {s : State} {c : Cmd} {cid off : Nat} {body : List Byte} (hcmd : cmd? s cid = some c)
include hcmd

theorem blkBody_failed {f : Nat × Nat × Nat} (h : outCheck c off body = some f) (g : Nat) (isRecon : Bool) :
    blkBody s cid off g body isRecon = (s, .failed f.1 f.2.1 f.2.2) := by
  simp only [blkBody, hcmd, h]

theorem blkBody_delivered (h : outCheck c off body = none) (hpi : piMode c = 0) (g : Nat) (isRecon : Bool) :
    blkBody s cid off g body isRecon = (deliver s cid off g body isRecon, .done) := by
  simp [blkBody, hcmd, h, tagAwaited, hpi]

end

/-! ### The end of a reconstruction -/

/-- A reconstruction can end: its survivors are there, its region is held, its quadrant's stripe engine and accumulator bank are on. -/
structure ReconReady (s : State) (r : Recon) (lt : Layout) : Prop where
  enough : lt.k ≤ r.got.length
  region : r.region = true
  engine : domOn s (72 + reconQuad s r.zid r.member * 2) = true
  bank   : domOn s (88 + reconQuad s r.zid r.member) = true

/-- The block once a reconstruction has ended. -/
def reconEnded (s : State) (rid : Nat) : State := endRecon (dropSurvivors s rid) rid

section
variable {s : State} {rid : Nat} {r : Recon} {lt : Layout} (hr : recon? s rid = some r) (hlt : layoutOf? s r.zid = some lt)
include hr hlt

theorem reconDone_waits (h : ¬ReconReady s r lt) (detect : Bool) : reconDone s rid detect = s := by
  unfold reconDone
  simp only [hr, hlt]
  refine if_neg fun hall => h ?_
  obtain ⟨⟨⟨henough, hregion⟩, hengine⟩, hbank⟩ : ((lt.k ≤ r.got.length ∧ r.region = true) ∧ _) ∧ _ := by
    simpa only [Bool.and_eq_true, decide_eq_true_eq] using hall
  exact ⟨henough, hregion, hengine, hbank⟩

section
variable (hready : ReconReady s r lt)
include hready

theorem reconDone_detected : reconDone s rid true =
    if r.strikes = 0 then modRecon (recoveredAny s 2 (reconQuad s r.zid r.member) 1) rid (fun r => { r with strikes := 1 })
    else reconLost s r := by
  simp [reconDone, hr, hlt, hready.enough, hready.region, hready.engine, hready.bank]

theorem reconDone_spare {fg zid row : Nat} {ms : List Nat} (huse : r.use = .spare fg zid row ms) : reconDone s rid false =
    unitChunk (reconEnded s rid) fg zid row r.cwx (ms.map (fun j => (j, solveRow lt.k lt.m r.got j))) := by
  simp [reconDone, hr, hlt, hready.enough, hready.region, hready.engine, hready.bank, huse, reconEnded]

theorem reconDone_scrub {cid : Nat} (huse : r.use = .scrub cid)
    (hgood : lt.k ≤ r.member ∨ guardOk (solveRow lt.k lt.m r.got r.member) = true) :
    reconDone s rid false = scrubTake (reconEnded s rid) cid r.member r.cwx none := by
  rcases hgood with hgood | hgood <;> simp [reconDone, hr, hlt, hready.enough, hready.region, hready.engine, hready.bank, huse, hgood, reconEnded]

section
variable {g b : Nat} (hloc : loc? (reconEnded s rid) r.zid r.member = some (g, b))
include hloc

theorem reconDone_copy {fg zid row blk : Nat} (huse : r.use = .copy fg zid row blk) : reconDone s rid false =
    copyGot (reconEnded s rid) fg zid row blk g (solveRow lt.k lt.m r.got r.member) (isPoison (solveRow lt.k lt.m r.got r.member)) := by
  unfold reconEnded at hloc ⊢
  simp [reconDone, hr, hlt, hready.enough, hready.region, hready.engine, hready.bank, huse, hloc]

section
variable {cid off : Nat} {c : Cmd} (huse : r.use = .blk cid off) (hback : r.back = none) (hcmd : cmd? (reconEnded s rid) cid = some c)
include huse hback hcmd

theorem reconDone_blkFailed {f : Nat × Nat × Nat} (h : outCheck c off (solveRow lt.k lt.m r.got r.member) = some f) :
    reconDone s rid false = blkFail (reconEnded s rid) cid off (readFail f.1 off g b r.row (0x38 + f.2.1) f.2.2) := by
  have hbody := blkBody_failed hcmd h g true
  unfold reconEnded at hloc hbody ⊢
  simp [reconDone, hr, hlt, hready.enough, hready.region, hready.engine, hready.bank, huse, hloc, priorEnd, hback, hbody]

theorem reconDone_delivered (h : outCheck c off (solveRow lt.k lt.m r.got r.member) = none) (hpi : piMode c = 0) :
    reconDone s rid false = deliver (reconEnded s rid) cid off g (solveRow lt.k lt.m r.got r.member) true := by
  have hbody := blkBody_delivered hcmd h hpi g true
  unfold reconEnded at hloc hbody ⊢
  simp [reconDone, hr, hlt, hready.enough, hready.region, hready.engine, hready.bank, huse, hloc, priorEnd, hback, hbody]

end

end

end

end

/-! ### Strict deadlines (R368) -/

section
variable {s : State} {c : Cmd} {d : Nat} (hcmd : cmd? s c.cid = some c) (hd : c.deadline = some d)
include hcmd hd

theorem strictExpiry_ends (hopc : opc c = 3 ∨ opc c = 0x41) (hrun : c.stage = .running) (hstrict : bit (rd s regGovCfg) 0 = true)
    (hlate : d ≤ s.tick) (hnone : untouched s c = true) :
    strictExpiry s c.cid = finish (govFlag (withdraw_ s c.cid) 1) c.cid (res stBudget) := by
  simp [strictExpiry, hcmd, hd, hopc, hrun, hstrict, hlate, hnone]

theorem strictExpiry_goesOn (h : bit (rd s regGovCfg) 0 = false ∨ s.tick < d ∨ untouched s c = false) : strictExpiry s c.cid = s := by
  rcases h with h | h | h
  · simp [strictExpiry, hcmd, h]
  · simp [strictExpiry, hcmd, hd, Nat.not_le.2 h]
  · simp [strictExpiry, hcmd, h]

end

/-- Settles O47: a reconstruction that is ready (`ReconReady`) gives its codeword as its use says, a block after the checks of R236
(`blkBody_failed`, `blkBody_delivered`), and one that is not leaves the state; a strict deadline ends a read that nothing has touched. -/
theorem reconstructionsAndStrictReads : Obligations.ReconstructionsAndStrictReads := by
  unfold Obligations.ReconstructionsAndStrictReads
  refine ⟨fun s rid r lt hr hlt => ?done, fun c off body => ⟨outCheck_guard, fun w => outCheck_tag⟩,
    fun s c d hcmd hopc hrun hd => ⟨fun hstrict hlate hnone => ?ends, fun h => ?goesOn⟩⟩
  case done =>
    intro u q lit
    refine ⟨fun h det => ?waits, fun hregion hk hlit => ?ready⟩
    case waits =>
      refine congrArg (fun t => ok (pump t)) (reconDone_waits hr hlt (fun ready => ?_) det)
      rcases h with h | h | h
      · exact Bool.false_ne_true (h.symm.trans ready.region)
      · exact Nat.not_le.2 h ready.enough
      · exact h ⟨ready.engine, ready.bank⟩
    case ready =>
      have ready : ReconReady s r lt := ⟨hk, hregion, hlit.1, hlit.2⟩
      refine ⟨fun h0 => ?_, fun h1 => ?_, fun fg zid row ms huse => ?_, fun g b hloc => ⟨fun fg zid row blk huse => ?_, fun cid huse hgood => ?_,
        fun cid off huse hback c hcmd => ⟨fun f hf => ?_, fun hnone hpi => ?_⟩⟩⟩
      · exact congrArg (fun t => ok (pump t)) ((reconDone_detected hr hlt ready).trans (if_pos h0))
      · exact congrArg (fun t => ok (pump t)) ((reconDone_detected hr hlt ready).trans (if_neg h1))
      · exact congrArg (fun t => ok (pump t)) (reconDone_spare hr hlt ready huse)
      · exact congrArg (fun t => ok (pump t)) (reconDone_copy hr hlt ready hloc huse)
      · exact congrArg (fun t => ok (pump t)) (reconDone_scrub hr hlt ready huse hgood)
      · exact congrArg (fun t => ok (pump t)) (reconDone_blkFailed hr hlt ready hloc huse hback hcmd hf)
      · exact congrArg (fun t => ok (pump t)) (reconDone_delivered hr hlt ready hloc huse hback hcmd hnone hpi)
  case ends => exact congrArg (fun t => ok (pump t)) (strictExpiry_ends hcmd hd hopc hrun hstrict hlate hnone)
  case goesOn => exact congrArg (fun t => ok (pump t)) (strictExpiry_goesOn hcmd hd h)

end Sys2Proof.Machine
end

