-- ==== Sys2Proof/Proofs/GaloisField.lean ====
section
/-! The field of R268: what the model multiplies bytes by is a quotient ring of polynomials over two elements, in which every byte but 0
is a power of g. -/

namespace Sys2Proof.Machine

open Polynomial

/-! ### The field of R268 as a quotient ring -/

/-- The polynomial of R268 over the field of two elements: 0x11D. -/
noncomputable abbrev gfPoly : (ZMod 2)[X] := X ^ 8 + X ^ 4 + X ^ 3 + X ^ 2 + 1

/-- The ring that R268 computes in. -/
abbrev Gf := AdjoinRoot gfPoly

/-- The element that 0x02 stands for. -/
noncomputable def gfRoot : Gf := AdjoinRoot.root gfPoly

/-- Bit `i` of a number as a coefficient. -/
noncomputable def gfBit (a i : Nat) : Gf := if a.testBit i then 1 else 0

/-- The element that the low eight bits of a number stand for. -/
noncomputable def toGf (a : Nat) : Gf := ∑ i ∈ Finset.range 8, gfBit a i * gfRoot ^ i

theorem gfPoly_degree : gfPoly.degree = 8 := by unfold gfPoly; compute_degree!

theorem gf_zero_ne_one : (0 : Gf) ≠ 1 := by
  have : Nontrivial Gf := AdjoinRoot.nontrivial gfPoly (by rw [gfPoly_degree]; decide)
  exact zero_ne_one

theorem gf_add_self (x : Gf) : x + x = 0 := by
  have h : ((2 : ZMod 2)) = 0 := rfl
  have h2 : (2 : Gf) = 0 := by
    rw [← map_ofNat (AdjoinRoot.of gfPoly) 2, h, map_zero]
  rw [← two_mul, h2, zero_mul]

theorem gfRoot_pow_eight : gfRoot ^ 8 = gfRoot ^ 4 + gfRoot ^ 3 + gfRoot ^ 2 + 1 := by
  have h : gfRoot ^ 8 + gfRoot ^ 4 + gfRoot ^ 3 + gfRoot ^ 2 + 1 = 0 := by
    have h := AdjoinRoot.eval₂_root gfPoly
    simpa only [gfPoly, gfRoot, eval₂_add, eval₂_pow, eval₂_X, eval₂_one] using h
  linear_combination h - gf_add_self (gfRoot ^ 4 + gfRoot ^ 3 + gfRoot ^ 2 + 1)

theorem gfBit_xor (a b i : Nat) : gfBit (a ^^^ b) i = gfBit a i + gfBit b i := by
  have h := gf_add_self 1
  cases ha : a.testBit i <;> cases hb : b.testBit i <;> simp [gfBit, ha, hb, h]

@[simp] theorem toGf_xor (a b : Nat) : toGf (a ^^^ b) = toGf a + toGf b := by
  simp only [toGf, gfBit_xor, add_mul, Finset.sum_add_distrib]

@[simp] theorem toGf_zero : toGf 0 = 0 := by simp [toGf, gfBit]

@[simp] theorem toGf_one : toGf 1 = 1 := by simp [toGf, gfBit, Nat.testBit_one_eq_true_iff_self_eq_zero]

@[simp] theorem toGf_two : toGf 2 = gfRoot := by
  simp [toGf, gfBit, show ∀ i, Nat.testBit 2 i = decide (i = 1) from fun i => Nat.testBit_two_pow (n := 1) ▸ by simp [eq_comm]]

theorem toGf_mod (a : Nat) : toGf (a % 256) = toGf a :=
  Finset.sum_congr rfl fun i hi => by
    have hi : i < 8 := by simpa using hi
    have h := Nat.testBit_mod_two_pow a 8 i
    simp [gfBit, show a % 256 = a % 2 ^ 8 from rfl, h, hi]

/-! ### Multiplication -/

theorem gfx_lt : ∀ a < 256, gfx 0x1D a < 256 := by decide +kernel

theorem testBit_gfx : ∀ a < 256, ∀ i < 8, (gfx 0x1D a).testBit i =
    ((decide (0 < i) && a.testBit (i - 1)) ^^ (a.testBit 7 && Nat.testBit 0x1D i)) := by decide +kernel

theorem toGf_gfx {a : Nat} (h : a < 256) : toGf (gfx 0x1D a) = gfRoot * toGf a := by
  have hbit (i : Nat) (hi : i < 8) : gfBit (gfx 0x1D a) i =
      (if 0 < i then gfBit a (i - 1) else 0) + (if Nat.testBit 0x1D i then gfBit a 7 else 0) := by
    have h1 := gf_add_self 1
    unfold gfBit
    rw [testBit_gfx a h i hi]
    cases a.testBit (i - 1) <;> cases a.testBit 7 <;> cases Nat.testBit 0x1D i <;> by_cases 0 < i <;> simp_all
  have hsum : toGf (gfx 0x1D a) = ∑ i ∈ Finset.range 8,
      ((if 0 < i then gfBit a (i - 1) else 0) + (if Nat.testBit 0x1D i then gfBit a 7 else 0)) * gfRoot ^ i :=
    Finset.sum_congr rfl fun i hi => by rw [hbit i (by simpa using hi)]
  rw [hsum]
  simp [Finset.sum_range_succ, toGf, show Nat.testBit 29 0 = true from rfl, show Nat.testBit 29 1 = false from rfl,
    show Nat.testBit 29 2 = true from rfl, show Nat.testBit 29 3 = true from rfl, show Nat.testBit 29 4 = true from rfl,
    show Nat.testBit 29 5 = false from rfl, show Nat.testBit 29 6 = false from rfl, show Nat.testBit 29 7 = false from rfl]
  linear_combination - gfBit a 7 * gfRoot_pow_eight

/-- The first `n` turns of the loop of `gfmul`. -/
def gfmulLoop (a b n : Nat) : Nat × Nat :=
  (List.range n).foldl (fun acc i => (if bit b i then acc.1 ^^^ acc.2 else acc.1, gfx 0x1D acc.2)) (0, a % 256)

theorem gfmul_eq_loop (a b : Nat) : gfmul 0x1D a b = (gfmulLoop a b 8).1 := rfl

theorem gfmulLoop_succ (a b n : Nat) : gfmulLoop a b (n + 1) =
    (if bit b n then (gfmulLoop a b n).1 ^^^ (gfmulLoop a b n).2 else (gfmulLoop a b n).1, gfx 0x1D (gfmulLoop a b n).2) := by
  simp [gfmulLoop, List.range_succ]

theorem gfmulLoop_spec (a b n : Nat) : (gfmulLoop a b n).1 < 256 ∧ (gfmulLoop a b n).2 < 256 ∧
    toGf (gfmulLoop a b n).1 = toGf a * ∑ i ∈ Finset.range n, gfBit b i * gfRoot ^ i ∧
    toGf (gfmulLoop a b n).2 = toGf a * gfRoot ^ n := by
  induction n with
  | zero => exact ⟨Nat.two_pow_pos 8, Nat.mod_lt _ (by decide), by simp [gfmulLoop], by simp [gfmulLoop, toGf_mod]⟩
  | succ n ih =>
    obtain ⟨hacc, hsh, hsum, hpow⟩ := ih
    rw [gfmulLoop_succ]
    refine ⟨?_, gfx_lt _ hsh, ?_, ?_⟩
    · split
      · exact Nat.xor_lt_two_pow (n := 8) hacc hsh
      · exact hacc
    · rw [Finset.sum_range_succ, mul_add, ← hsum]
      cases hb : b.testBit n
      · simp [bit, gfBit, hb]
      · simp [bit, gfBit, hb, hpow]
    · rw [toGf_gfx hsh, hpow]
      ring

theorem gmul_lt (a b : Nat) : gmul a b < 256 := (gfmulLoop_spec a b 8).1

@[simp] theorem toGf_gmul (a b : Nat) : toGf (gmul a b) = toGf a * toGf b := (gfmulLoop_spec a b 8).2.2.1

theorem toGf_gfpow (a n : Nat) : toGf (gfpow 0x1D a n) = toGf a ^ n := by
  induction n with
  | zero => rw [gfpow, toGf_one, pow_zero]
  | succ n ih => rw [gfpow, pow_succ', ← ih]; exact toGf_gmul a _

@[simp] theorem toGf_coef (r j : Nat) : toGf (coef r j) = gfRoot ^ (r * j) := by
  rw [coef, gpow, toGf_gfpow, toGf_two]

theorem gfpow_lt (a n : Nat) : gfpow 0x1D a n < 256 := by
  cases n with
  | zero => exact Nat.one_lt_two_pow (n := 8) (by decide)
  | succ n => exact gmul_lt a _

/-! ### Powers of g: every byte but 0 is one of them -/

/-- The powers of `g` below its order, by repeated doubling. -/
def gfPowers : List Nat := List.iterate (gfx 0x1D) 1 255

theorem iterate_gfx (n : Nat) : (gfx 0x1D)^[n] 1 < 256 ∧ toGf ((gfx 0x1D)^[n] 1) = gfRoot ^ n := by
  induction n with
  | zero => exact ⟨by decide, by simp⟩
  | succ n ih =>
    rw [Function.iterate_succ_apply', pow_succ', ← ih.2]
    exact ⟨gfx_lt _ ih.1, toGf_gfx ih.1⟩

theorem gfPowers_nodup : gfPowers.Nodup := by decide +kernel

theorem mem_gfPowers : ∀ a < 256, a ≠ 0 → gfPowers.contains a = true := by decide +kernel

theorem gfRoot_pow_255 : gfRoot ^ 255 = 1 := by
  have h : (gfx 0x1D)^[255] 1 = 1 := by decide +kernel
  rw [← (iterate_gfx 255).2, h, toGf_one]

theorem toGf_pow_255 {a : Nat} (h : a < 256) (h0 : a ≠ 0) : toGf a ^ 255 = 1 := by
  have hmem : a ∈ gfPowers := by simpa using mem_gfPowers a h h0
  obtain ⟨n, -, rfl⟩ := List.mem_iterate.1 hmem
  rw [(iterate_gfx n).2, pow_right_comm, gfRoot_pow_255, one_pow]

theorem toGf_isUnit {a : Nat} (h : a < 256) (h0 : a ≠ 0) : IsUnit (toGf a) :=
  IsUnit.of_pow_eq_one (toGf_pow_255 h h0) (by decide)

theorem toGf_ginv_mul {a : Nat} (h : a < 256) (h0 : a ≠ 0) : toGf (ginv a) * toGf a = 1 := by
  rw [ginv, toGf_gfpow, ← pow_succ, toGf_pow_255 h h0]

theorem toGf_eq_zero {a : Nat} (h : a < 256) (ha : toGf a = 0) : a = 0 := by
  by_contra h0
  have := toGf_ginv_mul h h0
  rw [ha, mul_zero] at this
  exact gf_zero_ne_one this

theorem toGf_inj {a b : Nat} (ha : a < 256) (hb : b < 256) (h : toGf a = toGf b) : a = b :=
  Nat.xor_eq_zero_iff.1 (toGf_eq_zero (Nat.xor_lt_two_pow (n := 8) ha hb) (by rw [toGf_xor, h, gf_add_self]))

theorem gfRoot_isUnit : IsUnit gfRoot := IsUnit.of_pow_eq_one gfRoot_pow_255 (by decide)

/-- Two powers of `g` below its order differ by a unit. -/
theorem gfRoot_pow_add_isUnit {i j : Nat} (hi : i < 255) (hj : j < 255) (h : i ≠ j) : IsUnit (gfRoot ^ i + gfRoot ^ j) := by
  have hne : (gfx 0x1D)^[i] 1 ≠ (gfx 0x1D)^[j] 1 := fun e => h (by
    have hlen : gfPowers.length = 255 := List.length_iterate ..
    have hget (n : Nat) (hn : n < gfPowers.length) : gfPowers[n] = (gfx 0x1D)^[n] 1 := List.getElem_iterate ..
    refine (gfPowers_nodup.getElem_inj_iff (hi := hlen ▸ hi) (hj := hlen ▸ hj)).1 ?_
    rw [hget, hget, e])
  rw [← (iterate_gfx i).2, ← (iterate_gfx j).2, ← toGf_xor]
  exact toGf_isUnit (Nat.xor_lt_two_pow (n := 8) (iterate_gfx i).1 (iterate_gfx j).1) (fun e => hne (Nat.xor_eq_zero_iff.1 e))

end Sys2Proof.Machine
end

