-- ==== Sys2Proof/Proofs/ParityBodies.lean ====
section
/-! A body as its bytes in the field of R268, and a parity body as the weighted sum of the data (R269). -/

namespace Sys2Proof.Machine

/-! ### Bodies byte by byte -/

theorem xorBytes_getD (a b : List Byte) (t : Nat) : (xorBytes a b).getD t 0 = a.getD t 0 ^^^ b.getD t 0 := by
  induction a generalizing b t with
  | nil => simp [xorBytes]
  | cons x a ih =>
    cases b with
    | nil => simp [xorBytes]
    | cons y b =>
      cases t with
      | zero => simp [xorBytes]
      | succ t => simpa [xorBytes] using ih b t

theorem xorBytes_length (a b : List Byte) : (xorBytes a b).length = max a.length b.length := by
  induction a generalizing b with
  | nil => simp [xorBytes]
  | cons x a ih =>
    cases b with
    | nil => simp [xorBytes]
    | cons y b => simp [xorBytes, ih b, Nat.add_max_add_right]

@[simp] theorem scale_length (c : Nat) (b : List Byte) : (scale c b).length = b.length := by simp [scale]

theorem scale_getD (c : Nat) (b : List Byte) (t : Nat) : ((scale c b).getD t 0).toNat = gmul c (b.getD t 0).toNat := by
  have h0 : gmul c 0 = 0 := toGf_eq_zero (gmul_lt c 0) (by simp)
  rcases lt_or_ge t b.length with h | h
  · simp [scale, h, Nat.mod_eq_of_lt (gmul_lt _ _)]
  · simp [scale, h, h0]

theorem toGf_byte_inj {x y : Byte} (h : toGf x.toNat = toGf y.toNat) : x = y := BitVec.eq_of_toNat_eq (toGf_inj x.isLt y.isLt h)

/-- Byte `t` of a body as an element of the field; beyond the end it is 0. -/
noncomputable def gfAt (b : List Byte) (t : Nat) : Gf := toGf (b.getD t 0).toNat

@[simp] theorem gfAt_xorBytes (a b : List Byte) (t : Nat) : gfAt (xorBytes a b) t = gfAt a t + gfAt b t := by
  rw [gfAt, xorBytes_getD, BitVec.toNat_xor, toGf_xor]; rfl

@[simp] theorem gfAt_scale (c : Nat) (b : List Byte) (t : Nat) : gfAt (scale c b) t = toGf c * gfAt b t := by
  rw [gfAt, scale_getD, toGf_gmul]; rfl

/-- Bodies of one length are equal where the field elements of their bytes are. -/
theorem body_ext {a b : List Byte} (hlen : a.length = b.length) (h : ∀ t, gfAt a t = gfAt b t) : a = b := by
  refine List.ext_getElem hlen fun t ha hb => ?_
  have := toGf_byte_inj (h t)
  rwa [List.getD_eq_getElem _ _ ha, List.getD_eq_getElem _ _ hb] at this

/-! ### A parity body (R269) -/

theorem zeros_getD (n t : Nat) : (zeros n).getD t 0 = 0 := by
  rcases lt_or_ge t n with h | h <;> simp [zeros, h]

theorem gfAt_zeros (n t : Nat) : gfAt (zeros n) t = 0 := by
  rw [gfAt, zeros_getD]
  exact toGf_zero

theorem parityFold_getD (r t n : Nat) (ds : List (List Byte)) (a : List Byte) :
    (((ds.zipIdx n).foldl (fun a p => xorBytes a (scale (coef r p.2) p.1)) a).getD t 0).toNat =
      (ds.zipIdx n).foldl (fun a p => a ^^^ gmul (coef r p.2) (p.1.getD t 0).toNat) (a.getD t 0).toNat := by
  induction ds generalizing n a with
  | nil => rfl
  | cons d ds ih => simp only [List.zipIdx_cons, List.foldl_cons, ih, xorBytes_getD, BitVec.toNat_xor, scale_getD]

theorem parityOf_getD (r t : Nat) (ds : List (List Byte)) : ((parityOf r ds).getD t 0).toNat =
    ds.zipIdx.foldl (fun a p => a ^^^ gmul (coef r p.2) (p.1.getD t 0).toNat) 0 := by
  rw [parityOf, parityFold_getD, zeros_getD]
  rfl

theorem parityFold_length (r n : Nat) (ds : List (List Byte)) (hds : ∀ d ∈ ds, d.length = 4112) (a : List Byte) (ha : a.length = 4112) :
    ((ds.zipIdx n).foldl (fun a p => xorBytes a (scale (coef r p.2) p.1)) a).length = 4112 := by
  induction ds generalizing n a with
  | nil => exact ha
  | cons d ds ih =>
    obtain ⟨hd, hds⟩ := List.forall_mem_cons.1 hds
    exact ih _ hds _ (by rw [xorBytes_length, scale_length, ha, hd, max_self])

theorem parityOf_length (r : Nat) (ds : List (List Byte)) (hds : ∀ d ∈ ds, d.length = 4112) : (parityOf r ds).length = 4112 :=
  parityFold_length r 0 ds hds _ List.length_replicate

theorem gfAt_parityFold (r t n : Nat) (ds : List (List Byte)) (a : List Byte) :
    gfAt ((ds.zipIdx n).foldl (fun a p => xorBytes a (scale (coef r p.2) p.1)) a) t =
      gfAt a t + ∑ j ∈ Finset.range ds.length, gfRoot ^ (r * (n + j)) * gfAt (ds.getD j []) t := by
  induction ds generalizing n a with
  | nil => simp
  | cons d ds ih =>
    rw [List.zipIdx_cons, List.foldl_cons, ih, List.length_cons, Finset.sum_range_succ', gfAt_xorBytes, gfAt_scale, toGf_coef, add_assoc,
      add_comm (gfRoot ^ (r * n) * gfAt d t)]
    simp [Nat.add_right_comm, Nat.add_assoc]

/-- In the field a parity body is the sum of the data bodies with the powers of `g`. -/
theorem gfAt_parityOf (r t : Nat) (ds : List (List Byte)) :
    gfAt (parityOf r ds) t = ∑ j ∈ Finset.range ds.length, gfRoot ^ (r * j) * gfAt (ds.getD j []) t := by
  rw [parityOf, gfAt_parityFold, gfAt_zeros, zero_add]
  simp only [zero_add]

end Sys2Proof.Machine
end

