-- ==== Sys2Proof/Proofs/Elimination.lean ====
section
/-! Elimination over the field of R268 finds the one solution of independent equations (R321). -/

namespace Sys2Proof.Machine

/-! ### Elimination over the field (R321) -/

/-- The coefficient of unknown `x` in an equation, in the field. -/
noncomputable def coAt (e : Eqn) (x : Nat) : Gf := toGf (e.1.getD x 0)

/-- The left side of an equation in `n` unknowns at the values `v`. -/
noncomputable def lhs (n : Nat) (e : Eqn) (v : Nat → Gf) : Gf := ∑ x ∈ Finset.range n, coAt e x * v x

/-- An equation in `n` unknowns over bytes that the bodies `D` solve. -/
structure Solves (n : Nat) (D : Nat → List Byte) (e : Eqn) : Prop where
  len : e.1.length = n
  byte : ∀ x, e.1.getD x 0 < 256
  body : e.2.length = 4112
  eqn : ∀ t, lhs n e (fun x => gfAt (D x) t) = gfAt e.2 t

/-- Only the zero values make every left side zero. -/
def Independent (n : Nat) (es : List Eqn) : Prop :=
  ∀ v : Nat → Gf, (∀ e ∈ es, lhs n e v = 0) → ∀ x < n, v x = 0

/-- Each of the first `i` unknowns has one row: 1 there, 0 at the others of the first `i`, and every other row is 0 there. -/
def Reduced (i : Nat) (es : List Eqn) : Prop :=
  ∀ x < i, ∃ q ∈ es, coAt q x = 1 ∧ (∀ y < i, y ≠ x → coAt q y = 0) ∧ ∀ e ∈ es, e.1 = q.1 ∨ coAt e x = 0

/-- The row that `gauss` makes of an equation to eliminate unknown `i`. -/
def pivotRow (i : Nat) (e : Eqn) : Eqn := (e.1.map (gmul (ginv (e.1.getD i 0))), scale (ginv (e.1.getD i 0)) e.2)

theorem getD_map_gmul (c x : Nat) (l : List Nat) : (l.map (gmul c)).getD x 0 = gmul c (l.getD x 0) := by
  have h0 : gmul c 0 = 0 := toGf_eq_zero (gmul_lt c 0) (by simp)
  rcases lt_or_ge x l.length with h | h <;> simp [h, h0]

theorem coAt_eq_zero {e : Eqn} {x : Nat} (h : e.1.getD x 0 < 256) : coAt e x = 0 ↔ e.1.getD x 0 = 0 :=
  ⟨toGf_eq_zero h, fun h => by rw [coAt, h, toGf_zero]⟩

theorem coAt_pivotRow (i x : Nat) (e : Eqn) : coAt (pivotRow i e) x = toGf (ginv (e.1.getD i 0)) * coAt e x := by
  rw [coAt, pivotRow, getD_map_gmul, toGf_gmul, coAt]

theorem lhs_pivotRow (n i : Nat) (e : Eqn) (v : Nat → Gf) :
    lhs n (pivotRow i e) v = toGf (ginv (e.1.getD i 0)) * lhs n e v := by
  simp only [lhs, coAt_pivotRow, Finset.mul_sum, mul_assoc]

section
variable {n i : Nat} {D : Nat → List Byte} {e p : Eqn}

theorem coAt_pivotRow_self (he : Solves n D e) (h : e.1.getD i 0 ≠ 0) : coAt (pivotRow i e) i = 1 := by
  rw [coAt_pivotRow]
  exact toGf_ginv_mul (he.byte i) h

theorem solves_pivotRow (he : Solves n D e) : Solves n D (pivotRow i e) where
  len := by rw [pivotRow, List.length_map, he.len]
  byte x := by
    rw [pivotRow, getD_map_gmul]
    exact gmul_lt _ _
  body := by rw [pivotRow, scale_length, he.body]
  eqn t := by rw [lhs_pivotRow, he.eqn, pivotRow, gfAt_scale]

theorem elim_of_zero (h : e.1.getD i 0 = 0) : elim i p e = e := if_pos h

theorem elim_of_ne (h : e.1.getD i 0 ≠ 0) : elim i p e =
    ((List.range e.1.length).map (fun x => e.1.getD x 0 ^^^ gmul (e.1.getD i 0) (p.1.getD x 0)),
      xorBytes e.2 (scale (e.1.getD i 0) p.2)) := if_neg h

theorem coAt_elim (he : Solves n D e) {x : Nat} (hx : x < n) : coAt (elim i p e) x = coAt e x + coAt e i * coAt p x := by
  by_cases h : e.1.getD i 0 = 0
  · rw [elim_of_zero h, coAt, coAt, h, toGf_zero, zero_mul, add_zero]
  · have hx' : x < e.1.length := he.len ▸ hx
    rw [elim_of_ne h, coAt, List.getD_eq_getElem _ _ (by simpa using hx')]
    simp only [List.getElem_map, List.getElem_range, toGf_xor, toGf_gmul, coAt]

theorem lhs_elim (he : Solves n D e) (v : Nat → Gf) : lhs n (elim i p e) v = lhs n e v + coAt e i * lhs n p v := by
  simp only [lhs, Finset.mul_sum, ← Finset.sum_add_distrib]
  refine Finset.sum_congr rfl fun x hx => ?_
  rw [coAt_elim he (Finset.mem_range.1 hx)]
  ring

theorem solves_elim (he : Solves n D e) (hp : Solves n D p) : Solves n D (elim i p e) where
  len := by
    by_cases h : e.1.getD i 0 = 0
    · rw [elim_of_zero h, he.len]
    · rw [elim_of_ne h, List.length_map, List.length_range, he.len]
  byte x := by
    have hxor : e.1.getD x 0 ^^^ gmul (e.1.getD i 0) (p.1.getD x 0) < 256 := Nat.xor_lt_two_pow (n := 8) (he.byte x) (gmul_lt _ _)
    by_cases h : e.1.getD i 0 = 0
    · simpa only [elim_of_zero h] using he.byte x
    · rw [elim_of_ne h]
      rcases lt_or_ge x e.1.length with hx | hx
      · rw [List.getD_eq_getElem _ _ (by simpa using hx)]
        simpa using hxor
      · simp [hx]
  body := by
    by_cases h : e.1.getD i 0 = 0
    · rw [elim_of_zero h, he.body]
    · rw [elim_of_ne h, xorBytes_length, scale_length, he.body, hp.body, max_self]
  eqn t := by
    rw [lhs_elim he, he.eqn, hp.eqn]
    by_cases h : e.1.getD i 0 = 0
    · rw [elim_of_zero h, coAt, h, toGf_zero, zero_mul, add_zero]
    · rw [elim_of_ne h, gfAt_xorBytes, gfAt_scale, coAt]

/-- The equations after unknown `i` is eliminated by `e`. -/
def eliminate (i : Nat) (e : Eqn) (es : List Eqn) : List Eqn :=
  pivotRow i e :: (es.filter (fun x => x ≠ e)).map (elim i (pivotRow i e))

theorem mem_eliminate {es : List Eqn} {q : Eqn} : q ∈ eliminate i e es ↔
    q = pivotRow i e ∨ ∃ f ∈ es, f ≠ e ∧ elim i (pivotRow i e) f = q := by
  simp [eliminate, and_assoc]

variable {es : List Eqn} (hes : ∀ e ∈ es, Solves n D e) (he : e ∈ es)
include hes he

theorem solves_eliminate : ∀ q ∈ eliminate i e es, Solves n D q := by
  intro q hq
  rcases mem_eliminate.1 hq with rfl | ⟨f, hf, -, rfl⟩
  · exact solves_pivotRow (hes e he)
  · exact solves_elim (hes f hf) (solves_pivotRow (hes e he))

variable (hi : e.1.getD i 0 ≠ 0)
include hi

theorem independent_eliminate (hind : Independent n es) : Independent n (eliminate i e es) := by
  intro v hv
  have hunit := toGf_ginv_mul ((hes e he).byte i) hi
  have hpiv : lhs n (pivotRow i e) v = 0 := hv _ (mem_eliminate.2 (.inl rfl))
  have hev : lhs n e v = 0 := by
    rw [lhs_pivotRow] at hpiv
    linear_combination toGf (e.1.getD i 0) * hpiv - hunit * lhs n e v
  refine hind v fun f hf => ?_
  by_cases hfe : f = e
  · rw [hfe, hev]
  · have h := hv _ (mem_eliminate.2 (.inr ⟨f, hf, hfe, rfl⟩))
    rwa [lhs_elim (hes f hf), hpiv, mul_zero, add_zero] at h

/-- Elimination by a row that is 0 at the unknowns before `i` reduces one unknown more. -/
theorem reduced_eliminate (hin : i < n) (hlow : ∀ x < i, e.1.getD x 0 = 0) (hred : Reduced i es) : Reduced (i + 1) (eliminate i e es) := by
  have hone := coAt_pivotRow_self (hes e he) hi
  have hzero (x : Nat) (hx : x < i) : coAt (pivotRow i e) x = 0 := by rw [coAt_pivotRow, coAt, hlow x hx, toGf_zero, mul_zero]
  have hcol (f : Eqn) (hf : f ∈ es) : coAt (elim i (pivotRow i e) f) i = 0 := by
    rw [coAt_elim (hes f hf) hin, hone, mul_one, gf_add_self]
  have hkeep (f : Eqn) (hf : f ∈ es) (x : Nat) (hx : x < i) : coAt (elim i (pivotRow i e) f) x = coAt f x := by
    rw [coAt_elim (hes f hf) (hx.trans hin), hzero x hx, mul_zero, add_zero]
  intro x hx
  rcases Nat.lt_succ_iff_lt_or_eq.1 hx with hx | rfl
  case inr =>
    refine ⟨pivotRow x e, mem_eliminate.2 (.inl rfl), hone, fun y hy hyx => hzero y (by omega), fun q hq => ?_⟩
    rcases mem_eliminate.1 hq with rfl | ⟨f, hf, -, rfl⟩
    · exact .inl rfl
    · exact .inr (hcol f hf)
  case inl =>
    obtain ⟨q, hq, hq1, hq0, hrest⟩ := hred x hx
    have hqe : q ≠ e := fun h => gf_zero_ne_one (by rw [← hq1, h, coAt, hlow x hx, toGf_zero])
    refine ⟨elim i (pivotRow i e) q, mem_eliminate.2 (.inr ⟨q, hq, hqe, rfl⟩), (hkeep q hq x hx).trans hq1, fun y hy hyx => ?_, fun f hf => ?_⟩
    · rcases Nat.lt_succ_iff_lt_or_eq.1 hy with hy | rfl
      · exact (hkeep q hq y hy).trans (hq0 y hy hyx)
      · exact hcol q hq
    · rcases mem_eliminate.1 hf with rfl | ⟨g, hg, -, rfl⟩
      · exact .inr (hzero x hx)
      · rcases hrest g hg with h | h
        · exact .inl (by simp only [elim, h]; split <;> simp [h])
        · exact .inr ((hkeep g hg x hx).trans h)

end

/-- What rows `q` of the first `i` unknowns give these where unknown `i` is 1 and the later ones are 0. -/
noncomputable def freeSolution (i : Nat) (q : Nat → Eqn) (x : Nat) : Gf := if x < i then coAt (q x) i else if x = i then 1 else 0

theorem lhs_freeSolution {n i : Nat} (hin : i < n) (q : Nat → Eqn) (e : Eqn) :
    lhs n e (freeSolution i q) = ∑ x ∈ Finset.range i, coAt e x * coAt (q x) i + coAt e i := by
  rw [lhs, ← Finset.sum_range_add_sum_Ico _ hin.le, Finset.sum_eq_sum_Ico_succ_bot hin, Finset.sum_eq_zero (s := Finset.Ico (i + 1) n), add_zero]
  · congr 1
    · exact Finset.sum_congr rfl fun x hx => by simp [freeSolution, Finset.mem_range.1 hx]
    · simp [freeSolution]
  · intro x hx
    have hx := Finset.mem_Ico.1 hx
    simp [freeSolution, show ¬x < i by omega, show x ≠ i by omega]

/-- Where the equations are independent, `gauss` finds a row to eliminate the next unknown by: without one, the rows of the first `i`
unknowns would leave a solution of the homogeneous equations that is 1 at `i`. -/
theorem exists_pivot {n i : Nat} {D : Nat → List Byte} {es : List Eqn} (hes : ∀ e ∈ es, Solves n D e) (hin : i < n)
    (hind : Independent n es) (hred : Reduced i es) :
    ∃ e ∈ es, e.1.getD i 0 ≠ 0 ∧ ∀ x < i, e.1.getD x 0 = 0 := by
  by_contra hno
  choose! q hq hq1 hq0 hrest using hred
  have hsolves : ∀ e ∈ es, lhs n e (freeSolution i q) = 0 := by
    intro e he
    rw [lhs_freeSolution hin]
    by_cases hrow : ∃ x < i, e.1 = (q x).1
    · obtain ⟨x, hx, hex⟩ := hrow
      have hco (y : Nat) : coAt e y = coAt (q x) y := by rw [coAt, hex, coAt]
      rw [Finset.sum_eq_single_of_mem x (Finset.mem_range.2 hx), hco, hco, hq1 x hx, one_mul, gf_add_self]
      intro y hy hyx
      rw [hco, hq0 x hx y (Finset.mem_range.1 hy) hyx, zero_mul]
    · have hlow (x : Nat) (hx : x < i) : coAt e x = 0 := (hrest x hx e he).resolve_left fun h => hrow ⟨x, hx, h⟩
      have hi0 : e.1.getD i 0 = 0 := by
        by_contra hi
        exact hno ⟨e, he, hi, fun x hx => (coAt_eq_zero ((hes e he).byte x)).1 (hlow x hx)⟩
      rw [Finset.sum_eq_zero fun x hx => by rw [hlow x (Finset.mem_range.1 hx), zero_mul], zero_add, coAt, hi0, toGf_zero]
  have hzero := hind _ hsolves i hin
  simp only [freeSolution, lt_irrefl, if_false, if_true] at hzero
  exact gf_zero_ne_one hzero.symm

/-- Elimination of the unknowns from `i` on reduces all `n`, and the bodies still solve every row. -/
theorem gauss_reduces {n : Nat} {D : Nat → List Byte} (m i : Nat) (hn : i + m = n) (es : List Eqn) (hes : ∀ e ∈ es, Solves n D e)
    (hind : Independent n es) (hred : Reduced i es) :
    (∀ e ∈ gauss m i es, Solves n D e) ∧ Reduced n (gauss m i es) := by
  induction m generalizing i es with
  | zero =>
    obtain rfl : i = n := hn
    exact ⟨hes, hred⟩
  | succ m ih =>
    unfold gauss
    split
    case h_1 hnone =>
      obtain ⟨e, he, hi, hlow⟩ := exists_pivot hes (by omega) hind hred
      have hno := List.find?_eq_none.1 hnone e he
      exact absurd (And.intro hi hlow) (by simpa using hno)
    case h_2 e hsome =>
      have he := List.mem_of_find?_eq_some hsome
      obtain ⟨hi, hlow⟩ : e.1.getD i 0 ≠ 0 ∧ ∀ x < i, e.1.getD x 0 = 0 := by simpa using List.find?_some hsome
      exact ih (i + 1) (by omega) (eliminate i e es) (solves_eliminate hes he) (independent_eliminate hes he hi hind)
        (reduced_eliminate hes he hi (by omega) hlow hred)

/-- The row that `solveRow` looks for. -/
def unitCoefs (n i : Nat) : List Nat := (List.range n).map (fun x => if x = i then 1 else 0)

theorem unitCoefs_getD (n i x : Nat) : (unitCoefs n i).getD x 0 = if x = i ∧ x < n then 1 else 0 := by
  rcases lt_or_ge x n with h | h
  · simp [unitCoefs, h]
  · simp [unitCoefs, Nat.not_lt.2 h]

/-- The right side of a solved row is the unknown. -/
theorem body_of_unitCoefs {n i : Nat} {D : Nat → List Byte} {e : Eqn} (he : Solves n D e) (hi : i < n) (hD : (D i).length = 4112)
    (hunit : e.1 = unitCoefs n i) : e.2 = D i := by
  refine body_ext (he.body.trans hD.symm) fun t => ?_
  rw [← he.eqn t, lhs, Finset.sum_eq_single_of_mem i (Finset.mem_range.2 hi)]
  · rw [coAt, hunit, unitCoefs_getD, if_pos ⟨rfl, hi⟩, toGf_one, one_mul]
  · intro x hx hxi
    rw [coAt, hunit, unitCoefs_getD, if_neg (fun h => hxi h.1), toGf_zero, zero_mul]

theorem eq_unitCoefs {n i : Nat} {D : Nat → List Byte} {e : Eqn} (he : Solves n D e) (h1 : coAt e i = 1)
    (h0 : ∀ y < n, y ≠ i → coAt e y = 0) : e.1 = unitCoefs n i := by
  refine List.ext_getElem (by simp [he.len, unitCoefs]) fun x hx hx' => ?_
  rw [← List.getD_eq_getElem _ 0 hx, ← List.getD_eq_getElem _ 0 hx', unitCoefs_getD]
  have hxn : x < n := he.len ▸ hx
  by_cases hxi : x = i
  · rw [if_pos ⟨hxi, hxn⟩]
    exact toGf_inj (he.byte x) (by decide) (by rw [toGf_one, hxi]; exact h1)
  · rw [if_neg (fun h => hxi h.1)]
    exact (coAt_eq_zero (he.byte x)).1 (h0 x hxn hxi)

/-- Independent equations that the bodies `D` solve give each of them. -/
theorem gauss_finds {n i : Nat} {D : Nat → List Byte} {es : List Eqn} (hes : ∀ e ∈ es, Solves n D e) (hind : Independent n es) (hi : i < n)
    (hD : (D i).length = 4112) : (((gauss n 0 es).find? (fun e => e.1 = unitCoefs n i)).map (fun e => e.2)).getD [] = D i := by
  obtain ⟨hsol, hred⟩ := gauss_reduces n 0 (by omega) es hes hind (fun x hx => absurd hx (by omega))
  obtain ⟨q, hq, hq1, hq0, -⟩ := hred i hi
  have hqu := eq_unitCoefs (hsol q hq) hq1 hq0
  cases hfind : (gauss n 0 es).find? (fun e => e.1 = unitCoefs n i) with
  | none => exact absurd hqu (by simpa using List.find?_eq_none.1 hfind q hq)
  | some e =>
    exact body_of_unitCoefs (hsol e (List.mem_of_find?_eq_some hfind)) hi hD (by simpa using List.find?_some hfind)

end Sys2Proof.Machine
end

