-- ==== Sys2Proof/Proofs/LostMembers.lean ====
section
/-! Any k members of a row give the others (R271): the equations of the parity members at hand are independent, and the lost data solve
them. -/

namespace Sys2Proof.Machine

/-! ### Up to three rows of powers of g are independent (R271) -/

theorem eq_zero_of_unit_mul {u x : Gf} (hu : IsUnit u) (h : u * x = 0) : x = 0 := (hu.mul_right_eq_zero).1 h

/-- Cramer's rule for two homogeneous equations, in characteristic 2. -/
theorem pair_zero {a b c d x y : Gf} (hu : IsUnit (a * d + b * c)) (h1 : a * x + b * y = 0) (h2 : c * x + d * y = 0) : x = 0 ∧ y = 0 :=
  ⟨eq_zero_of_unit_mul hu (by linear_combination d * h1 + b * h2 - gf_add_self (b * d * y)),
    eq_zero_of_unit_mul hu (by linear_combination a * h2 + c * h1 - gf_add_self (a * c * x))⟩

theorem triple_zero {a b c x y z : Gf} (hab : IsUnit (a + b)) (hac : IsUnit (a + c)) (hbc : IsUnit (b + c)) (h0 : x + y + z = 0)
    (h1 : a * x + b * y + c * z = 0) (h2 : a ^ 2 * x + b ^ 2 * y + c ^ 2 * z = 0) : x = 0 ∧ y = 0 ∧ z = 0 := by
  have hyz := pair_zero (a := a + b) (b := a + c) (c := b * (a + b)) (d := c * (a + c)) (x := y) (y := z)
    (by
      have e : (a + b) * (c * (a + c)) + (a + c) * (b * (a + b)) = (a + b) * ((a + c) * (b + c)) := by ring
      rw [e]
      exact hab.mul (hac.mul hbc))
    (by linear_combination a * h0 + h1 - gf_add_self (a * x))
    (by linear_combination a * h1 + h2 - gf_add_self (a ^ 2 * x))
  obtain ⟨rfl, rfl⟩ := hyz
  exact ⟨by simpa using h0, rfl, rfl⟩

/-- The determinant of two rows of P, Q and R over two members. -/
theorem pairRows_isUnit {r q a b : Nat} (hrq : [r, q].Sublist (List.range 3)) (ha : a < 32) (hb : b < 32) (hab : a ≠ b) :
    IsUnit (gfRoot ^ (r * a) * gfRoot ^ (q * b) + gfRoot ^ (r * b) * gfRoot ^ (q * a)) := by
  have hcases : r = 0 ∧ q = 1 ∨ r = 0 ∧ q = 2 ∨ r = 1 ∧ q = 2 := by
    have hmem := List.mem_sublists.2 hrq
    rw [show (List.range 3).sublists = [[], [0], [1], [0, 1], [2], [0, 2], [1, 2], [0, 1, 2]] from rfl] at hmem
    simpa using hmem
  rcases hcases with ⟨rfl, rfl⟩ | ⟨rfl, rfl⟩ | ⟨rfl, rfl⟩
  · simpa [add_comm] using gfRoot_pow_add_isUnit (i := a) (j := b) (by omega) (by omega) hab
  · simpa [add_comm] using gfRoot_pow_add_isUnit (i := 2 * a) (j := 2 * b) (by omega) (by omega) (by omega)
  · have e : gfRoot ^ (1 * a) * gfRoot ^ (2 * b) + gfRoot ^ (1 * b) * gfRoot ^ (2 * a) =
        gfRoot ^ (a + b) * (gfRoot ^ a + gfRoot ^ b) := by ring
    rw [e]
    exact (gfRoot_isUnit.pow _).mul (gfRoot_pow_add_isUnit (by omega) (by omega) hab)

/-- The rows of P, Q and R that are at hand, over as many distinct members, have no common zero but zero. -/
theorem powers_independent {rows lost : List Nat} (hrows : rows.Sublist (List.range 3)) (hlost : lost.Nodup)
    (h32 : ∀ j ∈ lost, j < 32) (hlen : rows.length = lost.length) {v : Nat → Gf}
    (h : ∀ r ∈ rows, ∑ x ∈ Finset.range lost.length, gfRoot ^ (r * lost.getD x 0) * v x = 0) : ∀ x < lost.length, v x = 0 := by
  match lost, hlen with
  | [], _ => simp
  | [a], hlen =>
    obtain ⟨r, rfl⟩ := List.length_eq_one_iff.1 hlen
    have hr := h r (by simp)
    rw [List.length_singleton, Finset.sum_range_one] at hr
    intro x hx
    obtain rfl : x = 0 := by simpa using hx
    exact eq_zero_of_unit_mul (gfRoot_isUnit.pow _) hr
  | [a, b], hlen =>
    obtain ⟨r, q, rfl⟩ := List.length_eq_two.1 hlen
    have hr := h r (by simp)
    have hq := h q (by simp)
    simp only [List.length_cons, List.length_nil, Nat.reduceAdd, Finset.sum_range_succ, Finset.sum_range_zero, zero_add,
      List.getD_cons_zero, List.getD_cons_succ] at hr hq
    obtain ⟨h0, h1⟩ := pair_zero (pairRows_isUnit hrows (h32 a (by simp)) (h32 b (by simp)) (by simpa using hlost)) hr hq
    intro x hx
    match x, hx with
    | 0, _ => exact h0
    | 1, _ => exact h1
  | [a, b, c], hlen =>
    obtain ⟨⟨hab, hac⟩, hbc⟩ : (a ≠ b ∧ a ≠ c) ∧ b ≠ c := by simpa using hlost
    have hunit {i j : Nat} (hi : i ∈ [a, b, c]) (hj : j ∈ [a, b, c]) (hij : i ≠ j) : IsUnit (gfRoot ^ i + gfRoot ^ j) :=
      gfRoot_pow_add_isUnit ((h32 i hi).trans (by decide)) ((h32 j hj).trans (by decide)) hij
    obtain rfl : rows = [0, 1, 2] := hrows.eq_of_length hlen
    have hP := h 0 (by simp)
    have hQ := h 1 (by simp)
    have hR := h 2 (by simp)
    simp only [List.length_cons, List.length_nil, Nat.reduceAdd, Finset.sum_range_succ, Finset.sum_range_zero, zero_add,
      List.getD_cons_zero, List.getD_cons_succ, zero_mul, one_mul, pow_zero, mul_comm 2, pow_mul] at hP hQ hR
    obtain ⟨h0, h1, h2⟩ := triple_zero (hunit (by simp) (by simp) hab) (hunit (by simp) (by simp) hac) (hunit (by simp) (by simp) hbc) hP hQ hR
    intro x hx
    match x, hx with
    | 0, _ => exact h0
    | 1, _ => exact h1
    | 2, _ => exact h2
  | a :: b :: c :: d :: l, hlen =>
    have hle := hrows.length_le
    simp only [hlen, List.length_cons, List.length_range] at hle
    omega

/-! ### The equations of a row (R321) -/

theorem coAt_coefs (r : Nat) {l : List Nat} (b : List Byte) {x : Nat} (hx : x < l.length) :
    coAt (l.map (coef r), b) x = gfRoot ^ (r * l.getD x 0) := by
  rw [coAt, List.getD_eq_getElem _ _ (by simpa using hx), List.getD_eq_getElem _ _ hx, List.getElem_map, toGf_coef]

/-- The data members that are not at hand. -/
def lostOf (k : Nat) (got : Tab (List Byte)) : List Nat := (List.range k).filter (fun j => (tget? got j).isNone)

/-- The parity members at hand. -/
def parityAt (k m : Nat) (got : Tab (List Byte)) : List Nat := (List.range m).filter (fun r => (tget? got (k + r)).isSome)

/-- A parity body with the data at hand taken out. -/
def rowRest (k : Nat) (got : Tab (List Byte)) (r : Nat) : List Byte :=
  (List.range k).foldl (fun a j => match tget? got j with
    | some b => xorBytes a (scale (coef r j) b)
    | none => a) (tget got (k + r) [])

/-- The equations that `solveRow` hands to `gauss`: one parity member for each lost one. -/
def rowEqns (k m : Nat) (got : Tab (List Byte)) : List Eqn :=
  ((parityAt k m got).take (lostOf k got).length).map (fun r => ((lostOf k got).map (coef r), rowRest k got r))

/-- What `solveRow` takes for lost member number `i`. -/
def solved (k m : Nat) (got : Tab (List Byte)) (i : Nat) : List Byte :=
  (((gauss (lostOf k got).length 0 (rowEqns k m got)).find? (fun e => e.1 = unitCoefs (lostOf k got).length i)).map (fun e => e.2)).getD []

/-- The data of a row as `solveRow` puts it together. -/
def dataOf (k m : Nat) (got : Tab (List Byte)) : List (List Byte) :=
  (List.range k).map (fun j => match tget? got j with
    | some b => b
    | none => solved k m got ((lostOf k got).idxOf j))

theorem solveRow_eq (k m : Nat) (got : Tab (List Byte)) (want : Nat) : solveRow k m got want =
    if want < k then (dataOf k m got).getD want [] else parityOf (want - k) (dataOf k m got) := rfl

/-! ### Tables that hold members of one row -/

theorem tget?_isSome {α : Type} {t : Tab α} {j : Nat} : (tget? t j).isSome = true ↔ j ∈ t.map (fun p => p.1) := by
  induction t with
  | nil => simp [tget?]
  | cons p t ih =>
    obtain ⟨a, x⟩ := p
    by_cases h : a = j
    · simp [tget?, h]
    · simpa [tget?, h, Ne.symm h] using ih

theorem mem_of_tget? {α : Type} {t : Tab α} {j : Nat} {b : α} (h : tget? t j = some b) : (j, b) ∈ t := by
  induction t with
  | nil => simp [tget?] at h
  | cons p t ih =>
    obtain ⟨a, x⟩ := p
    by_cases ha : a = j
    · simp_all [tget?]
    · exact List.mem_cons_of_mem _ (ih (by simpa [tget?, ha] using h))

section
variable {k m : Nat} {got : Tab (List Byte)}

theorem mem_lostOf {j : Nat} : j ∈ lostOf k got ↔ j < k ∧ tget? got j = none := by simp [lostOf]

theorem mem_parityAt {r : Nat} : r ∈ parityAt k m got ↔ r < m ∧ (tget? got (k + r)).isSome = true := by simp [parityAt]

/-- With `k` members at hand the parity members among them are at least as many as the lost data. -/
theorem lostOf_length_le (hkeys : ∀ p ∈ got, p.1 < k + m) (hnodup : (got.map (fun p => p.1)).Nodup) (hk : k ≤ got.length) :
    (lostOf k got).length ≤ (parityAt k m got).length := by
  have hall : got.length ≤ ((List.range (k + m)).filter (fun j => (tget? got j).isSome)).length := by
    rw [← List.length_map (f := fun p => p.1) (as := got)]
    refine (hnodup.subperm fun j hj => ?_).length_le
    obtain ⟨p, hp, rfl⟩ := List.mem_map.1 hj
    simp [hkeys p hp, tget?_isSome.2 hj]
  rw [List.range_add, List.filter_append, List.length_append, List.filter_map, List.length_map] at hall
  have hsplit := List.length_eq_length_filter_add (l := List.range k) (fun j => (tget? got j).isNone)
  rw [List.length_range] at hsplit
  simp only [Option.not_isNone] at hsplit
  change k = (lostOf k got).length + _ at hsplit
  change _ ≤ _ + (parityAt k m got).length at hall
  omega

end

/-- The table holds members of the row that `data` and its parity make. -/
def HoldsRow (k : Nat) (data : List (List Byte)) (got : Tab (List Byte)) : Prop :=
  ∀ p ∈ got, p.2 = if p.1 < k then data.getD p.1 [] else parityOf (p.1 - k) data

section
variable {k m : Nat} {data : List (List Byte)} {got : Tab (List Byte)} (hlen : data.length = k) (hdata : ∀ d ∈ data, d.length = 4112)
  (hgot : HoldsRow k data got)

include hgot in
theorem data_of_tget? {j : Nat} {b : List Byte} (hj : j < k) (h : tget? got j = some b) : b = data.getD j [] := by
  simpa [hj] using hgot _ (mem_of_tget? h)

include hgot in
theorem parity_of_tget? {r : Nat} {b : List Byte} (h : tget? got (k + r) = some b) : b = parityOf r data := by
  simpa using hgot _ (mem_of_tget? h)

include hlen hdata in
theorem data_length {j : Nat} (hj : j < k) : (data.getD j []).length = 4112 := by
  rw [List.getD_eq_getElem _ _ (hlen ▸ hj)]
  exact hdata _ (List.getElem_mem _)

include hlen hdata hgot in
theorem rowRest_length {r n : Nat} (hn : n ≤ k) {a : List Byte} (ha : a.length = 4112) :
    ((List.range n).foldl (fun a j => match tget? got j with
      | some b => xorBytes a (scale (coef r j) b)
      | none => a) a).length = 4112 := by
  induction n with
  | zero => exact ha
  | succ n ih =>
    rw [List.range_succ, List.foldl_append, List.foldl_cons, List.foldl_nil]
    cases hb : tget? got n with
    | none => exact ih (by omega)
    | some b =>
      rw [xorBytes_length, scale_length, data_of_tget? hgot hn hb, data_length hlen hdata hn, ih (by omega), max_self]

include hgot in
theorem gfAt_rowRest {r n : Nat} (hn : n ≤ k) (a : List Byte) (t : Nat) :
    gfAt ((List.range n).foldl (fun a j => match tget? got j with
      | some b => xorBytes a (scale (coef r j) b)
      | none => a) a) t =
      gfAt a t + ∑ j ∈ Finset.range n, if (tget? got j).isSome then gfRoot ^ (r * j) * gfAt (data.getD j []) t else 0 := by
  induction n with
  | zero => simp
  | succ n ih =>
    rw [List.range_succ, List.foldl_append, List.foldl_cons, List.foldl_nil, Finset.sum_range_succ, ← add_assoc, ← ih (by omega)]
    cases hb : tget? got n with
    | none => simp
    | some b => rw [gfAt_xorBytes, gfAt_scale, toGf_coef, data_of_tget? hgot hn hb, Option.isSome_some, if_pos rfl]

theorem sum_range_getD (F : Nat → Gf) (l : List Nat) : ∑ x ∈ Finset.range l.length, F (l.getD x 0) = (l.map F).sum := by
  induction l with
  | nil => simp
  | cons a l ih => rw [List.length_cons, Finset.sum_range_succ', List.map_cons, List.sum_cons, add_comm, ← ih]; rfl

theorem sum_filter_range (F : Nat → Gf) (p : Nat → Bool) (n : Nat) :
    (((List.range n).filter p).map F).sum = ∑ j ∈ Finset.range n, if p j then F j else 0 := by
  induction n with
  | zero => simp
  | succ n ih =>
    rw [List.range_succ, List.filter_append, List.map_append, List.sum_append, ih, Finset.sum_range_succ]
    cases h : p n <;> simp [h]

/-- What data member `j` adds to byte `t` of parity `r`. -/
noncomputable def parityTerm (data : List (List Byte)) (r t j : Nat) : Gf := gfRoot ^ (r * j) * gfAt (data.getD j []) t

/-- The body that number `x` of the lost members has in the row. -/
def lostBody (k : Nat) (data : List (List Byte)) (got : Tab (List Byte)) (x : Nat) : List Byte := data.getD ((lostOf k got).getD x 0) []

include hlen hdata hgot in
/-- The lost bodies solve the equation of each parity member at hand (R269). -/
theorem solves_rowEqn {r : Nat} (hr : (tget? got (k + r)).isSome = true) :
    Solves (lostOf k got).length (lostBody k data got) ((lostOf k got).map (coef r), rowRest k got r) := by
  obtain ⟨b, hb⟩ := Option.isSome_iff_exists.1 hr
  have hpar : tget got (k + r) [] = parityOf r data := by rw [tget, hb, Option.getD_some, parity_of_tget? hgot hb]
  refine ⟨List.length_map .., fun x => ?_, ?_, fun t => ?_⟩
  · rcases lt_or_ge x (lostOf k got).length with hx | hx
    · rw [List.getD_eq_getElem _ _ (by simpa using hx), List.getElem_map]
      exact gfpow_lt _ _
    · simp [hx]
  · rw [rowRest, hpar]
    exact rowRest_length hlen hdata hgot le_rfl (parityOf_length r data hdata)
  · calc lhs (lostOf k got).length ((lostOf k got).map (coef r), rowRest k got r) (fun x => gfAt (lostBody k data got x) t)
      _ = ∑ x ∈ Finset.range (lostOf k got).length, parityTerm data r t ((lostOf k got).getD x 0) :=
        Finset.sum_congr rfl fun x hx => by rw [coAt_coefs r _ (Finset.mem_range.1 hx)]; rfl
      _ = ∑ j ∈ Finset.range k, if (tget? got j).isNone then parityTerm data r t j else 0 := by rw [sum_range_getD, lostOf, sum_filter_range]
      _ = ∑ j ∈ Finset.range k, (parityTerm data r t j + if (tget? got j).isSome then parityTerm data r t j else 0) :=
        Finset.sum_congr rfl fun j _ => by cases tget? got j <;> simp [gf_add_self]
      _ = gfAt (rowRest k got r) t := by
        rw [rowRest, hpar, gfAt_rowRest hgot le_rfl, gfAt_parityOf, hlen, Finset.sum_add_distrib]
        rfl

variable (hk : k ≤ 32) (hm : m ≤ 3) (hkeys : ∀ p ∈ got, p.1 < k + m) (hnodup : (got.map (fun p => p.1)).Nodup) (hmany : k ≤ got.length)

include hk hm hkeys hnodup hmany in
theorem rowEqns_independent : Independent (lostOf k got).length (rowEqns k m got) := by
  intro v hv
  refine powers_independent (rows := (parityAt k m got).take (lostOf k got).length) (lost := lostOf k got) ?_ (List.nodup_range.filter _) ?_ ?_ ?_
  · exact (List.take_sublist ..).trans (List.filter_sublist.trans (List.range_sublist.2 hm))
  · exact fun j hj => lt_of_lt_of_le (mem_lostOf.1 hj).1 hk
  · rw [List.length_take, min_eq_left (lostOf_length_le hkeys hnodup hmany)]
  · intro r hr
    rw [← hv _ (List.mem_map_of_mem hr)]
    refine Finset.sum_congr rfl fun x hx => ?_
    rw [coAt_coefs r _ (Finset.mem_range.1 hx)]

include hlen hdata hgot hk hm hkeys hnodup hmany in
theorem solved_eq {i : Nat} (hi : i < (lostOf k got).length) : solved k m got i = lostBody k data got i := by
  refine gauss_finds (fun e he => ?_) (rowEqns_independent hk hm hkeys hnodup hmany) hi ?_
  · obtain ⟨r, hr, rfl⟩ := List.mem_map.1 he
    exact solves_rowEqn hlen hdata hgot (mem_parityAt.1 (List.mem_of_mem_take hr)).2
  · rw [lostBody, List.getD_eq_getElem _ _ hi]
    exact data_length hlen hdata (mem_lostOf.1 (List.getElem_mem hi)).1

include hlen hdata hgot hk hm hkeys hnodup hmany in
/-- The data put together from `k` members is the row's data. -/
theorem dataOf_eq : dataOf k m got = data := by
  refine List.ext_getElem (by simp [dataOf, hlen]) fun j hj hj' => ?_
  have hjk : j < k := hlen ▸ hj'
  rw [← List.getD_eq_getElem _ [] hj']
  simp only [dataOf, List.getElem_map, List.getElem_range]
  cases hb : tget? got j with
  | some b => exact data_of_tget? hgot hjk hb
  | none =>
    have hmem : j ∈ lostOf k got := mem_lostOf.2 ⟨hjk, hb⟩
    have hi := List.idxOf_lt_length_of_mem hmem
    simp only [solved_eq hlen hdata hgot hk hm hkeys hnodup hmany hi]
    rw [lostBody, List.getD_eq_getElem _ 0 hi, List.getElem_idxOf]

end

/-- Settles O45: the lost data solve the equations of the parity members at hand (`solves_rowEqn`), these are independent
(`powers_independent`), so elimination gives the data (`gauss_finds`), and a parity member is its sum. -/
theorem anyKMembersGiveTheOthers : Obligations.AnyKMembersGiveTheOthers := by
  unfold Obligations.AnyKMembersGiveTheOthers
  intro k m want data got hk hm hlen hdata hwant member hgot hnodup hmany
  have hrow : HoldsRow k data got := fun p hp => (hgot p hp).2
  rw [solveRow_eq, dataOf_eq hlen hdata hrow hk hm (fun p hp => (hgot p hp).1) hnodup hmany]

end Sys2Proof.Machine
end

