-- ==== Sys2Proof/Proofs/ParitySlots.lean ====
section
/-! What the parity slots of a row hold after its stream (R269, R273). -/

namespace Sys2Proof.Machine

/-! ### The bytes of a slot (R273) -/

/-- In a row of parts of one size, byte `t` of part `i` stands at `size * i + t`. -/
theorem flatMap_getD {part : List Byte → List Byte} {size : Nat} (hpart : ∀ b, (part b).length = size) (bodies : List (List Byte)) (i : Nat)
    {t : Nat} (ht : t < size) (hi : i < bodies.length) : (bodies.flatMap part).getD (size * i + t) 0 = (part (bodies.getD i [])).getD t 0 := by
  induction bodies generalizing i with
  | nil => simp at hi
  | cons b bodies ih =>
    cases i with
    | zero => simp [List.getElem?_append_left (hpart b ▸ ht : t < (part b).length)]
    | succ i =>
      have h := ih i (by simpa using hi)
      have hle : (part b).length ≤ size * (i + 1) + t := by rw [hpart, Nat.mul_succ]; omega
      have hsub : size * (i + 1) + t - (part b).length = size * i + t := by rw [hpart, Nat.mul_succ]; omega
      rw [List.flatMap_cons, List.getD_append_right _ _ _ _ hle, hsub, h, List.getD_cons_succ]

theorem slice_length (l : List Byte) (o n : Nat) : (slice l o n).length = n := by
  simp only [slice, List.length_append, List.length_replicate, List.length_take]
  omega

theorem slice_getD_of_lt {l : List Byte} {o n t : Nat} (ht : t < n) : (slice l o n).getD t 0 = l.getD (o + t) 0 := by
  rw [slice_getD, if_pos ht]

/-- One area of a slot: the parts of the bodies, filled up with zeros. -/
def slotArea (size : Nat) (part : List Byte → List Byte) (bodies : List (List Byte)) : List Byte :=
  (bodies.flatMap part).take (64 * size) ++ zeros (64 * size - ((bodies.flatMap part).take (64 * size)).length)

theorem slotImage_eq (bodies : List (List Byte)) : slotImage bodies =
    slotArea 4096 (fun b => slice b 0 4096) bodies ++ slotArea 16 (fun b => slice b 4096 16) bodies := rfl

theorem slotArea_length (size : Nat) (part : List Byte → List Byte) (bodies : List (List Byte)) :
    (slotArea size part bodies).length = 64 * size := by
  simp only [slotArea, zeros, List.length_append, List.length_replicate, List.length_take]
  omega

theorem slotArea_getD {part : List Byte → List Byte} {size : Nat} (hpart : ∀ b, (part b).length = size) {bodies : List (List Byte)} {i t : Nat}
    (h64 : bodies.length ≤ 64) (ht : t < size) (hi : i < bodies.length) :
    (slotArea size part bodies).getD (size * i + t) 0 = (part (bodies.getD i [])).getD t 0 := by
  have hlen : (bodies.flatMap part).length = size * bodies.length := by simp [List.length_flatMap, hpart, Nat.mul_comm]
  have hle : (bodies.flatMap part).length ≤ 64 * size := by rw [hlen, Nat.mul_comm]; exact Nat.mul_le_mul_right _ h64
  have hlt : size * i + t < (bodies.flatMap part).length :=
    calc size * i + t < size * i + size := by omega
      _ = size * (i + 1) := by ring
      _ ≤ (bodies.flatMap part).length := hlen ▸ Nat.mul_le_mul_left _ hi
  rw [slotArea, List.take_of_length_le hle, List.getD_append _ _ _ _ hlt, flatMap_getD hpart _ _ ht hi]

/-- A slot holds the bodies that it was filled with. -/
theorem slotBody_getD {bodies : List (List Byte)} {i t : Nat} (h64 : bodies.length ≤ 64) (hi : i < bodies.length) (ht : t < 4112) :
    (slotBody (slotImage bodies) i).getD t 0 = (bodies.getD i []).getD t 0 := by
  rw [slotBody, slotImage_eq]
  rcases lt_or_ge t 4096 with hmain | htag
  · rw [List.getD_append _ _ _ _ (by rwa [slice_length]), slice_getD_of_lt hmain, List.getD_append _ _ _ _ (by rw [slotArea_length]; omega),
      slotArea_getD (fun b => slice_length b 0 4096) h64 hmain hi, slice_getD_of_lt hmain, Nat.zero_add]
  · obtain ⟨u, rfl⟩ := Nat.exists_eq_add_of_le htag
    have hu : u < 16 := by omega
    rw [List.getD_append_right _ _ _ _ (by rw [slice_length]; omega), slice_length, Nat.add_sub_cancel_left, slice_getD_of_lt hu, Nat.add_assoc,
      List.getD_append_right _ _ _ _ (by rw [slotArea_length]; omega), slotArea_length, Nat.add_sub_cancel_left,
      slotArea_getD (fun b => slice_length b 4096 16) h64 hu hi, slice_getD_of_lt hu]

/-! ### The parity slots of a row (R269) -/

/-- A table of consecutive numbers from `k` on. -/
theorem tget?_mapRange {α : Type} (k m : Nat) (F : Nat → α) (j : Nat) :
    tget? ((List.range m).map (fun p => (k + p, F p))) j = if k ≤ j ∧ j < k + m then some (F (j - k)) else none := by
  split
  case isTrue h =>
    have hmem : j ∈ ((List.range m).map (fun p => (k + p, F p))).map (fun p => p.1) := by
      simp only [List.map_map, List.mem_map, List.mem_range, Function.comp_apply]
      exact ⟨j - k, by omega, by omega⟩
    obtain ⟨b, hb⟩ := Option.isSome_iff_exists.1 (tget?_isSome.2 hmem)
    obtain ⟨p, -, hp⟩ := List.mem_map.1 (mem_of_tget? hb)
    obtain ⟨rfl, rfl⟩ := Prod.mk.inj hp
    rw [hb, Nat.add_sub_cancel_left]
  case isFalse h =>
    refine Option.not_isSome_iff_eq_none.1 fun hsome => h ?_
    have hmem := tget?_isSome.1 hsome
    simp only [List.map_map, List.mem_map, List.mem_range, Function.comp_apply] at hmem
    obtain ⟨p, hp, rfl⟩ := hmem
    omega

theorem foldl_zipIdx_mapRange {α β : Type} (f : Nat → α) (g : β → α × Nat → β) (b : β) (n : Nat) :
    ((List.range n).map f).zipIdx.foldl g b = (List.range n).foldl (fun a j => g a (f j, j)) b := by
  induction n with
  | zero => rfl
  | succ n ih => simp [List.range_succ, List.zipIdx_append, ih]

/-- The body of a data block of a row as its stripe engine has streamed it. -/
def streamedBody (r : Row) (b : Nat) : List Byte := if r.poison.contains b then poisonBody else tget r.stream b padBody

/-- The parity bodies of a row's word line in codeword order. -/
def parityBodies (r : Row) (k cb p : Nat) : List (List Byte) :=
  (List.range cb).map (fun i => parityOf p ((List.range k).map (fun j => streamedBody r (j * cb + i))))

theorem parityBodies_length (r : Row) (k cb p : Nat) : (parityBodies r k cb p).length = cb := by simp [parityBodies]

theorem parityBodies_getD (r : Row) (k p : Nat) {cb i : Nat} (hi : i < cb) : (parityBodies r k cb p).getD i [] =
    parityOf p ((List.range k).map (fun j => streamedBody r (j * cb + i))) := by
  rw [List.getD_eq_getElem _ _ (by rwa [parityBodies_length])]
  simp [parityBodies]

theorem tget?_rowParity (s : State) (r : Row) (lt : Layout) (j : Nat) : tget? (rowParity s r lt) j =
    if lt.k ≤ j ∧ j < lt.k + lt.m then some (slotImage (parityBodies r lt.k (cbOf (layDie s lt)) (j - lt.k))) else none :=
  tget?_mapRange lt.k lt.m (fun p => slotImage (parityBodies r lt.k (cbOf (layDie s lt)) p)) j

/-- Settles O41: a slot holds the parity bodies (`slotBody_getD`), each the sum of the data with the powers of g (`parityOf_getD`). -/
theorem parityIsTheWeightedSum : Obligations.ParityIsTheWeightedSum := by
  unfold Obligations.ParityIsTheWeightedSum
  intro s r lt cb body
  refine ⟨fun p i t hp hi hcb ht _ => ?_, fun j hj => ?_⟩
  · have hlen := parityBodies_length r lt.k cb p
    have hslot : tget (rowParity s r lt) (lt.k + p) [] = slotImage (parityBodies r lt.k cb p) := by
      rw [tget, tget?_rowParity, if_pos ⟨Nat.le_add_right .., Nat.add_lt_add_left hp _⟩, Nat.add_sub_cancel_left]
      rfl
    rw [hslot, slotBody_getD (hlen.trans_le hcb) (hi.trans_eq hlen.symm) ht, parityBodies_getD r lt.k p hi, parityOf_getD, foldl_zipIdx_mapRange]
    rfl
  · rw [tget?_rowParity, if_neg (by omega)]

end Sys2Proof.Machine
end

