-- ==== Sys2Proof/Proofs/StripeEngines.lean ====
section
/-! Filled rows go to the stripe engines (R272, R274), and what follows the end of a row's stream (R276, R277). -/

namespace Sys2Proof.Machine

/-! ### The number of the next journal entry -/

section
variable {s t : State}

@[simp] theorem markSeg_seq (s : State) (kind idx : Nat) : (markSeg s kind idx).jrn.seq = s.jrn.seq := by
  unfold markSeg
  dsimp only
  split <;> rfl

@[simp] theorem setZone_seq (s : State) (e : ZoneEntry) : (setZone s e).jrn.seq = s.jrn.seq := by
  unfold setZone
  dsimp only
  split <;> exact markSeg_seq ..

@[simp] theorem closePage_seq (s : State) : (closePage s).jrn.seq = s.jrn.seq := by
  unfold closePage
  dsimp only
  split <;> rfl

theorem placeEntry_seq {e : Entry} (h : placeEntry s e = some t) : t.jrn.seq = s.jrn.seq := by
  have closes (c : Prop) [Decidable c] (v : State) : (if c then closePage v else v).jrn.seq = v.jrn.seq := by
    split
    · exact closePage_seq v
    · rfl
  unfold placeEntry at h
  dsimp only at h
  split at h
  · cases h
  · split at h
    · cases h
      exact closes ..
    · split at h
      · cases h
        exact closes ..
      · cases h

@[simp] theorem drainBacklog_seq (n : Nat) (s : State) : (drainBacklog n s).jrn.seq = s.jrn.seq := by
  induction n generalizing s with
  | zero => rfl
  | succ n ih =>
    unfold drainBacklog
    split
    · rfl
    · split
      · next h =>
        have hp := placeEntry_seq h
        exact (ih _).trans hp
      · rfl

/-- A running journal counts every entry that it accepts. -/
theorem jrnAppend_seq (h : s.jrn.stopped = false) (e : Entry) : (jrnAppend s e).jrn.seq = s.jrn.seq + 1 := by
  unfold jrnAppend
  rw [if_neg (by simp [h])]
  dsimp only
  split
  · exact drainBacklog_seq ..
  · rfl

theorem markSeg_stopped (s : State) (kind idx : Nat) : (markSeg s kind idx).jrn.stopped = s.jrn.stopped := by
  unfold markSeg
  dsimp only
  split <;> rfl

@[simp] theorem setZone_stopped (s : State) (e : ZoneEntry) : (setZone s e).jrn.stopped = s.jrn.stopped := by
  unfold setZone
  dsimp only
  split <;> exact markSeg_stopped ..

theorem row?_jrnAppend (s : State) (e : Entry) (rid : Nat) : row? (jrnAppend s e) rid = row? s rid := by
  obtain ⟨j, hj⟩ := jrnAppend_jrnOnly s e
  rw [hj]
  rfl

end

/-! ### The least of the oldest -/

theorem leastOf_minBy_eq {α : Type} {key tie : α → Nat} {l : List α} {a : α} (ha : a ∈ l)
    (h : ∀ x ∈ l, x = a ∨ key a < key x ∨ (key a = key x ∧ tie a < tie x)) : minBy tie (leastOf key l) = some a := by
  obtain ⟨b, hb⟩ := minBy_isSome key ha
  have hle : key b ≤ key a := minBy_le hb ha
  have hkey : key a = key b := by
    rcases h b (minBy_mem hb) with rfl | hlt | ⟨he, -⟩
    · rfl
    · omega
    · exact he
  have hleast : leastOf key l = l.filter (fun x => decide (key x = key b)) := by unfold leastOf; rw [hb]
  rw [hleast]
  refine minBy_eq_of_lt (List.mem_filter.2 ⟨ha, by simpa using hkey⟩) fun x hx => ?_
  obtain ⟨hx, hxk⟩ := List.mem_filter.1 hx
  have hxk : key x = key b := by simpa using hxk
  rcases h x hx with rfl | hlt | ⟨-, ht⟩
  · exact .inl rfl
  · omega
  · exact .inr ht

/-! ### A row goes to a stripe engine (R272, R274) -/

section
variable {s : State} {e : Fin 8}

/-- The engine holds no row and is not halted. -/
def engIdle (s : State) (n : Nat) : Prop := (tget s.stes n {}).rid = none ∧ (tget s.engines (32 + n) {}).mode ≠ 3

/-- The engine and its accumulator bank are on. -/
def engLit (s : State) (e : Nat) : Prop := domOn s (72 + e) = true ∧ domOn s (88 + e / 2) = true

/-- A row of a quadrant that a stripe engine may take. -/
def WantsEngine (q : Nat) (r : Row) : Prop :=
  r.quad = q ∧ (r.phase = .ready ∨ r.phase = .again ∨ (r.phase = .filled ∧ r.acked = 0 ∧ r.staging = none))

/-- The engine takes the next row: it is idle and on, and it is the even one or the even one is not idle. -/
def engTakes (s : State) (e : Nat) : Bool :=
  let idle (e : Nat) : Bool := ((tget s.stes e {}).rid).isNone && decide ((tget s.engines (32 + e) {}).mode ≠ 3)
  idle e && (decide (e % 2 = 0) || !(idle (e - 1))) && domOn s (72 + e) && domOn s (88 + e / 2)

theorem engTakes_iff {e : Nat} : engTakes s e = true ↔ engIdle s e ∧ (e % 2 = 1 → ¬engIdle s (e - 1)) ∧ engLit s e := by
  have hodd : e % 2 = 0 ∨ e % 2 = 1 := by omega
  simp only [engTakes, engIdle, engLit, Bool.and_eq_true, Bool.or_eq_true, Bool.not_eq_true', Option.isNone_iff_eq_none, decide_eq_true_eq,
    and_assoc, ← Bool.not_eq_true]
  rcases hodd with h | h <;> simp [h]

/-- The rows of a quadrant that wait for an engine. -/
def waitingRows (s : State) (q : Nat) : List Row := s.rows.filter (fun r => decide (r.quad = q) && rowReady r)

theorem mem_waitingRows {q : Nat} {r : Row} : r ∈ waitingRows s q ↔ r ∈ s.rows ∧ WantsEngine q r := by
  simp [waitingRows, rowReady, WantsEngine, or_assoc, and_assoc]

/-- The row that an engine of the quadrant takes: the one filled first. -/
def nextRow (s : State) (q : Nat) : Option Row := minBy (fun r => r.rid) (leastOf (fun r => r.fillTick) (waitingRows s q))

theorem nextRow_none {q : Nat} (h : ∀ r ∈ s.rows, ¬WantsEngine q r) : nextRow s q = none := by
  have hnil : waitingRows s q = [] := List.eq_nil_iff_forall_not_mem.2 fun r hr => h r (mem_waitingRows.1 hr).1 (mem_waitingRows.1 hr).2
  simp [nextRow, hnil, leastOf, minBy]

theorem nextRow_some {q : Nat} {r : Row} (hr : r ∈ s.rows) (hready : WantsEngine q r) (hfirst : ∀ x ∈ s.rows, WantsEngine q x →
    x = r ∨ r.fillTick < x.fillTick ∨ (r.fillTick = x.fillTick ∧ r.rid < x.rid)) : nextRow s q = some r :=
  leastOf_minBy_eq (mem_waitingRows.2 ⟨hr, hready⟩) fun x hx => hfirst x (mem_waitingRows.1 hx).1 (mem_waitingRows.1 hx).2

theorem rowParityStart_passes {e : Nat} (h : engTakes s e = false) : rowParityStart s e = s := if_neg (by rw [Bool.not_eq_true]; exact h)

theorem rowParityStart_noRow {e : Nat} (h : nextRow s (e / 2) = none) : rowParityStart s e = s := by
  unfold nextRow waitingRows at h
  unfold rowParityStart
  dsimp only
  rw [h]
  exact ite_self s

/-- The engine holds the row, which holds its parity slots. -/
def rowTaken (s : State) (e : Nat) (r : Row) (sl : Tab Nat) : State :=
  { modRow s r.rid (fun r => { r with slots := sl }) with stes := tset s.stes e { rid := some r.rid } }

section
variable {e : Nat} {r : Row} {lt : Layout} (ht : engTakes s e = true) (hr : nextRow s (e / 2) = some r) (hlt : layoutOf? s r.zid = some lt)
include ht hr hlt

theorem rowParityStart_waits (h : takeParitySlots (e / 2) (slotless r lt) (s, r.slots) = none) : rowParityStart s e = steFlag s (e / 2) 0 := by
  refine (if_pos ht).trans ?_
  unfold nextRow waitingRows at hr
  simp only [hr, hlt, h]

theorem rowParityStart_streams {u : State} {sl : Tab Nat} (h : takeParitySlots (e / 2) (slotless r lt) (s, r.slots) = some (u, sl)) :
    rowParityStart s e = rowStream (rowTaken u e r sl) e r := by
  refine (if_pos ht).trans ?_
  unfold nextRow waitingRows at hr
  simp only [hr, hlt, h]
  rfl

end

theorem mem_slotless {r : Row} {lt : Layout} {j : Nat} : j ∈ slotless r lt ↔
    lt.k ≤ j ∧ j < lt.k + lt.m ∧ tget? r.slots j = none ∧ tget r.memb j .idle ∉ [.good, .pad, .failed] := by
  unfold slotless
  rw [List.mem_filter, List.mem_range'_1, and_assoc, Bool.and_eq_true, Option.isNone_iff_eq_none]
  cases tget r.memb j MembStat.idle <;> simp

/-- Slots taken for parity members stand in the row's table, and so do those that it held. -/
theorem takeParitySlots_isSome {q : Nat} {l : List Nat} {s u : State} {t sl : Tab Nat} (h : takeParitySlots q l (s, t) = some (u, sl)) :
    ∀ j, j ∈ l ∨ (tget? t j).isSome = true → (tget? sl j).isSome = true := by
  induction l generalizing s t with
  | nil =>
    obtain ⟨-, rfl⟩ := Prod.mk.inj (Option.some.inj h)
    exact fun j hj => hj.resolve_left (List.not_mem_nil)
  | cons i l ih =>
    obtain ⟨x, -, hx⟩ := Option.bind_eq_some_iff.1 h
    refine fun j hj => ih hx j ?_
    rw [tget?_tset]
    rcases hj with hj | hj
    · rcases List.mem_cons.1 hj with rfl | hj
      · exact .inr (by simp)
      · exact .inl hj
    · by_cases hji : j = i <;> simp [hji, hj]

theorem takeSlot?_stes {q p : Nat} {x : Nat × State} (h : takeSlot? s q p = some x) : x.2.stes = s.stes := by
  unfold takeSlot? at h
  split at h
  · obtain ⟨i, -, rfl⟩ := Option.map_eq_some_iff.1 h
    rfl
  · cases h

theorem takeParitySlots_stes {q : Nat} {l : List Nat} {s u : State} {t sl : Tab Nat} (h : takeParitySlots q l (s, t) = some (u, sl)) :
    u.stes = s.stes := by
  induction l generalizing s t with
  | nil =>
    obtain ⟨rfl, -⟩ := Prod.mk.inj (Option.some.inj h)
    rfl
  | cons i l ih =>
    obtain ⟨x, hx, h⟩ := Option.bind_eq_some_iff.1 h
    exact (ih h).trans (takeSlot?_stes hx)

end

/-! ### A row's stream ends (R276, R277) -/

section
variable {s : State} {e : Nat} {r : Row} {lt : Layout}

/-- The engine is free again and has counted the row. -/
def engineFreed (s : State) (e : Nat) : State :=
  bump { s with stes := tset s.stes e {} } (regSteRows (e / 2)) (16 * (e % 2) + 15) (16 * (e % 2)) 1

/-- The row with its parity, ready for its INTENT or for its programs. -/
def summedRow (s : State) (e : Nat) (r : Row) (lt : Layout) : State :=
  modRow (engineFreed s e) r.rid (fun x => { x with
    phase := if 0 < r.intent then .programming else .parity, parity := rowParity (engineFreed s e) r lt, stream := [] })

/-- What follows once the parity stands. -/
def afterParity (r : Row) (v : State) : State := if 0 < r.intent then v else rowIntent v r.rid

theorem engineFreed_frame (s : State) (e : Nat) :
    engineFreed s e = { s with regs := (engineFreed s e).regs, stes := (engineFreed s e).stes } ∧
      (∀ a, a ≠ regSteRows (e / 2) → rd (engineFreed s e) a = rd s a) ∧ (tget (engineFreed s e).stes e {}).rid = none :=
  ⟨rfl, fun _ ha => rd_bump_ne _ ha, by simp [engineFreed]⟩

variable (hrid : (tget s.stes e {}).rid = some r.rid) (hrow : row? s r.rid = some r) (hlt : layoutOf? s r.zid = some lt)
include hrid hrow hlt

theorem rowParityDone_early (h : r.phase ≠ .streaming e ∨ r.want ≠ 0) (det : Option Nat) : rowParityDone s e det = s := by
  rcases h with h | h <;> simp [rowParityDone, hrid, hrow, hlt, h]

variable (hphase : r.phase = .streaming e) (hwant : r.want = 0)
include hphase hwant

theorem rowParityDone_good {det : Option Nat} (h : det.filter (fun p => decide (p < lt.m)) = none) :
    rowParityDone s e det = afterParity r (summedRow s e r lt) := by
  simp [rowParityDone, hrid, hrow, hlt, hphase, hwant, h, afterParity, summedRow, engineFreed]

theorem rowParityDone_first {det : Option Nat} {p : Nat} (h : det.filter (fun p => decide (p < lt.m)) = some p) (hs : r.strikes = 0) :
    rowParityDone s e det = rowRestream (modRow (recoveredAny (steFlag s (e / 2) 1) 2 (e / 2) 1) r.rid
      (fun r => { r with strikes := 1 })) r.rid := by
  simp [rowParityDone, hrid, hrow, hlt, hphase, hwant, h, hs]

theorem rowParityDone_second {det : Option Nat} {p : Nat} (h : det.filter (fun p => decide (p < lt.m)) = some p) (hs : r.strikes ≠ 0) :
    rowParityDone s e det = afterParity r (memberBad (unrecoveredAny (steFlag (summedRow s e r lt) r.quad 2) 2 r.quad 1) r.rid (lt.k + p)
      (some (siteFail 0x41))) := by
  simp [rowParityDone, hrid, hrow, hlt, hphase, hwant, h, hs, afterParity, summedRow, engineFreed, slotFail]

end

/-! ### INTENT (R277) -/

/-- A zone remembers the number of the entry that names it next. -/
def jseqNoted (s : State) (zid : Nat) : State := modZone s zid (fun e => { e with jseq := s.jrn.seq % 2 ^ 32 })

/-- The INTENT of a row is entered into the journal. -/
def intentEntered (s : State) (r : Row) : State :=
  jrnRow (jseqNoted s r.zid) 0x01 r.zid r.row ((zone (jseqNoted s r.zid) r.zid).layout * 2 ^ 16 + r.acked)

theorem intentEntered_seq {s : State} (h : s.jrn.stopped = false) (r : Row) : (intentEntered s r).jrn.seq = s.jrn.seq + 1 := by
  have hrun : (jseqNoted s r.zid).jrn.stopped = false := (setZone_stopped s _).trans h
  have hseq : (jseqNoted s r.zid).jrn.seq = s.jrn.seq := setZone_seq s _
  exact (jrnAppend_seq hrun _).trans (congrArg (· + 1) hseq)

theorem row?_intentEntered (s : State) (r : Row) (rid : Nat) : row? (intentEntered s r) rid = row? s rid :=
  (row?_jrnAppend ..).trans (row?_modZone ..)

/-- A row with its INTENT waits for the entry, and the entry takes the next number. -/
theorem rowIntent_written {s : State} {rid : Nat} {r : Row} (hr : row? s rid = some r) (hfull : s.jrn.full = false)
    (hrun : s.jrn.stopped = false) : (rowIntent s rid).jrn.seq = s.jrn.seq + 1 ∧
      row? (rowIntent s rid) rid = some { r with phase := .intent, intent := max r.intent (s.jrn.seq + 1) } := by
  have hseq := intentEntered_seq hrun r
  have heq : rowIntent s rid = modRow (intentEntered s r) rid (fun x => { x with
      phase := .intent, intent := max x.intent (intentEntered s r).jrn.seq }) := by
    simp [rowIntent, hr, hfull, hrun, intentEntered, jseqNoted]
  have hmod := row?_modRow (intentEntered s r) rid (f := fun x => { x with
    phase := .intent, intent := max x.intent (intentEntered s r).jrn.seq }) fun _ => rfl
  rw [row?_intentEntered, hr, hseq] at hmod
  rw [heq]
  exact ⟨hseq, hseq ▸ hmod⟩

/-- A detection's slot counts where the layout has that parity member. -/
theorem detect_filter_none {det : Option (Fin 3)} {m : Nat} (h : ∀ p : Fin 3, ¬(det = some p ∧ p.val < m)) :
    (det.map (fun p => p.val)).filter (fun p => decide (p < m)) = none := by
  cases det with
  | none => rfl
  | some p => simpa using h p

theorem detect_filter_some {det : Option (Fin 3)} {m : Nat} {p : Fin 3} (h : det = some p ∧ p.val < m) :
    (det.map (fun p => p.val)).filter (fun p => decide (p < m)) = some p.val := by
  obtain ⟨rfl, hp⟩ := h
  simp [hp]

/-- Settles O42: the engine's turn is `engTakes`, its row `nextRow`, the slots those of `takeParitySlots`; the end of the stream
goes by its check (`rowParityDone_good`, `_first`, `_second`), and INTENT is written by `rowIntent_written`. -/
theorem rowsGoToTheFirstIdleEngine : Obligations.RowsGoToTheFirstIdleEngine := by
  unfold Obligations.RowsGoToTheFirstIdleEngine
  intro s e q idle lit ready
  refine ⟨fun h => ?passes, fun hidle hodd hlit r lt hr hready hlt hfirst => ?takes, fun r lt det hrid hrow hlt => ?done,
    fun rid r hr hfull hrun => ?intent⟩
  case passes =>
    refine congrArg (fun t => ok (pump t)) ?_
    by_cases ht : engTakes s e = true
    · have ⟨hidle, hodd, hlit⟩ := engTakes_iff.1 ht
      have hnone : ∀ r ∈ s.rows, ¬WantsEngine (e.val / 2) r := by
        rcases h with h | ⟨h1, h⟩ | h | h
        · exact absurd hidle h
        · exact absurd h (hodd h1)
        · exact absurd hlit h
        · exact h
      exact rowParityStart_noRow (nextRow_none hnone)
    · exact rowParityStart_passes (by simpa using ht)
  case takes =>
    have ht := engTakes_iff.2 ⟨hidle, hodd, hlit⟩
    have hnext := nextRow_some hr hready hfirst
    refine ⟨fun j => mem_slotless, fun hnone => congrArg (fun t => ok (pump t)) (rowParityStart_waits ht hnext hlt hnone),
      fun u sl hsome => ⟨fun j hj => takeParitySlots_isSome hsome j (.inl hj), congrArg (fun t => ok (pump t)) ?_⟩⟩
    rw [rowParityStart_streams ht hnext hlt hsome, rowTaken, takeParitySlots_stes hsome]
  case done =>
    have hsum : ∃ u, u = { s with regs := u.regs, stes := u.stes } ∧ (∀ a, a ≠ regSteRows q → rd u a = rd s a) ∧
        (tget u.stes e {}).rid = none ∧ summedRow s e r lt = modRow u r.rid (fun x => { x with
          phase := if 0 < r.intent then .programming else .parity, parity := rowParity u r lt, stream := [] }) := by
      obtain ⟨hframe, hregs, hfree⟩ := engineFreed_frame s e
      exact ⟨_, hframe, hregs, hfree, rfl⟩
    refine ⟨fun h => ?_, fun hphase hwant => ⟨fun hno => ⟨_, hsum, ?_⟩, fun p hp hs => ?_, fun p hp hs => ⟨_, hsum, ?_⟩⟩⟩
    · exact congrArg (fun t => ok (pump t)) (rowParityDone_early hrid hrow hlt h _)
    · exact congrArg (fun t => ok (pump t)) (rowParityDone_good hrid hrow hlt hphase hwant (detect_filter_none hno))
    · exact congrArg (fun t => ok (pump t)) (rowParityDone_first hrid hrow hlt hphase hwant (detect_filter_some hp) hs)
    · exact congrArg (fun t => ok (pump t)) (rowParityDone_second hrid hrow hlt hphase hwant (detect_filter_some hp) hs)
  case intent =>
    obtain ⟨hseq, hrow⟩ := rowIntent_written hr hfull hrun
    exact ⟨_, rfl, hseq, _, hrow, rfl, rfl⟩

end Sys2Proof.Machine
end

