-- ==== Sys2Proof/Proofs/JournalWindows.lean ====
section
/-! Journal pages close and are written in turn (R282, R284, R288), and the window turns (R285). -/

namespace Sys2Proof.Machine

section
variable {s : State}

/-! ### Engine commands of the journal engine (R484) -/

theorem jreRuns_iff : jreRuns s = true ↔ (eng s 48).mode ≠ 3 := decide_eq_true_iff

/-- What a halted journal engine does not do. -/
theorem execJre_halted (h : (eng s 48).mode = 3) (t : State) : (if jreRuns s then t else s) = s := if_neg (by simp [jreRuns, h])

theorem execJre_runs (h : (eng s 48).mode ≠ 3) (t : State) : (if jreRuns s then t else s) = t := if_pos (jreRuns_iff.2 h)

/-! ### A page closes (R282, R288) -/

theorem dedupNat_length_le (l : List Nat) : (dedupNat l).length ≤ l.length := by
  induction l with
  | nil => simp [dedupNat]
  | cons x l ih =>
    rw [dedupNat, List.length_cons, List.length_cons]
    exact Nat.succ_le_succ ((List.length_filter_le ..).trans ih)

/-- A page has room for 11 segment images (R280). -/
theorem pickSegs_length_le (s : State) : (pickSegs s).1.length ≤ 11 := by
  unfold pickSegs
  dsimp only
  rw [List.length_append]
  have hd := List.length_take_le 11 (dedupNat (s.jrn.dirty ++ turnSegs s))
  refine (Nat.add_le_add_left (dedupNat_length_le _) _).trans ?_
  rw [List.length_map, List.length_range]
  omega

/-- A page as a close leaves it. -/
def closedPage (s : State) (p : PageSt) : PageSt := if p.closed then p else sealPage s (pickSegs s).1 p

theorem closePage_pages (h : s.jrn.pages.any (fun p => !p.closed) = true) : (closePage s).jrn.pages = s.jrn.pages.map (closedPage s) := by
  unfold closePage
  exact congrArg (fun t : State => t.jrn.pages) (if_pos h)

theorem closedPage_closed (s : State) (p : PageSt) : (closedPage s p).closed = true := by
  unfold closedPage
  split
  · assumption
  · rfl

theorem closedPage_entries (s : State) (p : PageSt) : (closedPage s p).entries = p.entries := by
  unfold closedPage
  split <;> rfl

theorem commitTicks_due {p : PageSt} (hrun : (eng s 48).mode ≠ 3) (hopen : s.jrn.pages.find? (fun p => !p.closed) = some p)
    (h : p.first + max 1 (rdf s regJrnCtrl 31 16) ≤ s.tick) : commitTicks s = closePage s := by
  simp [commitTicks, hopen, jreRuns_iff.2 hrun, due, h]

theorem commitTicks_early {p : PageSt} (hopen : s.jrn.pages.find? (fun p => !p.closed) = some p)
    (h : s.tick < p.first + max 1 (rdf s regJrnCtrl 31 16)) : commitTicks s = s := by
  simp [commitTicks, hopen, due, Nat.not_le.2 h]

theorem commitTicks_none (h : (eng s 48).mode = 3 ∨ s.jrn.pages.find? (fun p => !p.closed) = none) : commitTicks s = s := by
  rcases h with h | h
  · unfold commitTicks
    split <;> simp [jreRuns, h]
  · simp [commitTicks, h]

theorem pageDurable_iff (j : JrnSt) (p : PageSt) : pageDurable j p = true ↔ p.closed = true ∧
    (2 ≤ (p.good.filter (fun c => (liveCopies j).contains c)).length ∨
      ((liveCopies j).length = 1 ∧ (p.good.filter (fun c => (liveCopies j).contains c)).length = 1)) := by
  simp [pageDurable]

/-! ### Copies -/

theorem copyAt_modCopy_same (s : State) (c : Nat) (f : CopySt → CopySt) : copyAt (modCopy s c f) c = f (copyAt s c) := tget_tmod_same ..

theorem copyAt_modCopy_ne (s : State) {c d : Nat} (f : CopySt → CopySt) (h : d ≠ c) : copyAt (modCopy s c f) d = copyAt s d :=
  tget_tmod_ne _ _ _ _ h

theorem copyAt_of_jrn {s t : State} (h : t.jrn = s.jrn) (c : Nat) : copyAt t c = copyAt s c := by
  unfold copyAt
  rw [h]

/-! ### A copy writes its next page (R277, R284) -/

/-- What lets a copy write a page. -/
theorem mayWrite_some {c : Nat} {p : PageSt} (h : mayWrite s c = some p) :
    p ∈ s.jrn.pages ∧ p.closed = true ∧ p.pseq = (copyAt s c).next ∧ (copyAt s c).busy = none ∧ (copyAt s c).wl < windowWls s ∧
      ((liveCopies s.jrn).filter (fun d => (copyAt s d).busy.isSome)).length < max 1 ((liveCopies s.jrn).length - 1) ∧
      ((liveCopies s.jrn).length ≠ 1 → ∃ d ∈ liveCopies s.jrn, d ≠ c ∧ (copyAt s d).busy = none ∧ p.pseq ≤ (copyAt s d).next) := by
  unfold mayWrite at h
  dsimp only at h
  split at h
  case isFalse => cases h
  case isTrue hmay =>
    have hp := List.find?_some h
    simp only [Bool.and_eq_true, decide_eq_true_eq] at hp
    obtain ⟨⟨hclosed, hpseq⟩, -⟩ := hp
    simp only [Bool.and_eq_true, Bool.or_eq_true, decide_eq_true_eq, Option.isNone_iff_eq_none, List.any_eq_true] at hmay
    obtain ⟨⟨⟨⟨⟨⟨-, -⟩, hbusy⟩, -⟩, hwl⟩, hfew⟩, hother⟩ := hmay
    refine ⟨List.mem_of_find?_eq_some h, hclosed, hpseq, hbusy, hwl, hfew, fun hmany => ?_⟩
    obtain ⟨d, hd, ⟨hdc, hdbusy⟩, hnext⟩ := hother.resolve_left hmany
    exact ⟨d, hd, hdc, hdbusy, hpseq ▸ hnext⟩

/-- A queued program stands among the operations as it was given, but for its number and generation. -/
theorem mem_queueProg (s : State) (o : Op) : ∃ x ∈ (queueProg s o).ops, ∃ id gen, x = { o with id := id, gen := gen } := by
  unfold queueProg
  dsimp only
  exact ⟨_, by rw [queueOp_ops]; exact List.mem_append_right _ (List.mem_singleton_self _), _, _, rfl⟩

@[simp] theorem queueProg_jrn (s : State) (o : Op) : (queueProg s o).jrn = s.jrn := by
  unfold queueProg
  dsimp only
  split <;> rfl

/-- The program of a page on a copy. -/
def pageOp (s : State) (c : Nat) (p : PageSt) : Op :=
  { id := 0, kind := .j, type := .slc, glun := (copyAt s c).glun, block := (copyAt s c).block, wl := (copyAt s c).wl, slc := true,
    deadline := (pageDeadline s p).1, real := (pageDeadline s p).2, use := .page c p.pseq }

theorem pageStart_none {c : Nat} (h : mayWrite s c = none) : pageStart s c = s := by simp [pageStart, h]

/-- A copy is busy with a page, which its trace packet names. -/
def pageBegun (s : State) (c : Nat) (p : PageSt) : State :=
  modCopy (trace s 4 8 c [p.pseq]) c (fun x => { x with busy := some p.pseq })

theorem pageStart_some {c : Nat} {p : PageSt} (h : mayWrite s c = some p) :
    pageStart s c = queueProg (pageBegun s c p) (pageOp s c p) := by
  simp only [pageStart, h]
  rfl

/-- A copy that starts a page is busy with it, and its program is queued at the copy's next word line. -/
theorem pageStart_writes {c : Nat} {p : PageSt} (h : mayWrite s c = some p) :
    (copyAt (pageStart s c) c).busy = some p.pseq ∧ (pageStart s c).jrn.pages = s.jrn.pages ∧
      (∀ d, d ≠ c → copyAt (pageStart s c) d = copyAt s d) ∧ (pageStart s c).dram = s.dram ∧
      ∃ o ∈ (pageStart s c).ops, o.use = .page c p.pseq ∧ o.type = .slc ∧ o.glun = (copyAt s c).glun ∧ o.block = (copyAt s c).block ∧
        o.wl = (copyAt s c).wl ∧ o.kind = .j := by
  have hstart := pageStart_some h
  have hjrn : (pageStart s c).jrn = (pageBegun s c p).jrn := hstart ▸ queueProg_jrn ..
  have hcopy (d : Nat) : copyAt (pageStart s c) d = copyAt (pageBegun s c p) d := copyAt_of_jrn hjrn d
  have htrace (d : Nat) : copyAt (trace s 4 8 c [p.pseq]) d = copyAt s d := copyAt_of_jrn (trace_jrn ..) d
  refine ⟨?_, ?_, fun d hd => ?_, ?_, ?_⟩
  · rw [hcopy, pageBegun, copyAt_modCopy_same]
  · have hpages : (pageBegun s c p).jrn.pages = (trace s 4 8 c [p.pseq]).jrn.pages := rfl
    rw [hjrn, hpages, trace_jrn]
  · rw [hcopy, pageBegun, copyAt_modCopy_ne _ _ hd, htrace]
  · rw [hstart, queueProg_dram]
    exact trace_dram ..
  · obtain ⟨o, ho, id, gen, rfl⟩ := mem_queueProg (pageBegun s c p) (pageOp s c p)
    exact ⟨_, hstart ▸ ho, rfl, rfl, rfl, rfl, rfl, rfl⟩

/-! ### The window turns (R285) -/

theorem windowTurn_waits (h : s.jrn.stopped = true ∨ headAtEnd s = false) : windowTurn s = s := by
  rcases h with h | h <;> simp [windowTurn, h]

theorem windowTurn_full (herase : mayErase s = false) (hfull : s.jrn.full = true) : windowTurn s = s := by
  simp [windowTurn, herase, hfull]

/-- The window is full: WINDOW_FULL is set. -/
def windowFilled (s : State) : State := jrnFlag (modJrn s (fun j => { j with full := true })) 3

theorem windowTurn_filled (hrun : s.jrn.stopped = false) (hend : headAtEnd s = true) (herase : mayErase s = false)
    (hfull : s.jrn.full = false) : windowTurn s = windowFilled s := by
  simp [windowTurn, hrun, hend, herase, hfull, windowFilled]

theorem windowFilled_jrn (s : State) : (windowFilled s).jrn = { s.jrn with full := true } := jrnFlag_jrn ..

theorem windowFilled_flag (s : State) : bit (rd (windowFilled s) regJrnStatus) 3 = true := by
  have h : windowFilled s = raise (sticky (modJrn s (fun j => { j with full := true })) regJrnStatus 3) 1012 := rfl
  rw [h, rd_raise]
  exact sticky_bit _ _ 3 (by decide)

/-- While the window is full no row gets its INTENT. -/
theorem rowIntent_full (h : s.jrn.full = true) (rid : Nat) : rowIntent s rid = s := by
  unfold rowIntent
  split
  · rfl
  · simp [h]

/-- The window after a turn, its copies still at their old blocks. -/
def windowMoved (s : State) : State :=
  let len := windowLen s
  let s := dropRetired (retirePages s)
  let s := modJrn s (fun j => { j with
    full := false, turnNo := j.turnNo + 1, live := j.live.filter (fun p => decide (j.turnNo + 1 < p.1 + len)) })
  modJrn s (fun j => { j with
    tail := ((j.live.map (fun p => p.2.1)).min?).getD (((j.pages.map (fun p => p.pseq)).min?).getD j.pseq) })

/-- A live copy goes to its next block, or is dropped where it has none. -/
def turnCopy (s : State) (c : Nat) : State :=
  match nextBlock (copyAt s c) with
  | some b => turnErase s c b
  | none => dropCopy s c

theorem windowTurn_turns (hrun : s.jrn.stopped = false) (hend : headAtEnd s = true) (herase : mayErase s = true) :
    windowTurn s = recreateAll ((liveCopies (windowMoved s).jrn).foldl turnCopy (windowMoved s)) := by
  have hgo : (!s.jrn.stopped && headAtEnd s) = true := by simp [hrun, hend]
  unfold windowTurn
  rw [if_pos hgo, if_pos herase]
  rfl

/-- With no live copy on a retired block the turn keeps every copy. -/
theorem windowMoved_copies (h : ∀ c ∈ liveCopies s.jrn, (blkSt s (copyAt s c).glun (copyAt s c).block).retired = false) :
    (windowMoved s).jrn.copies = s.jrn.copies ∧ (windowMoved s).jrn.full = false ∧ (windowMoved s).jrn.turnNo = s.jrn.turnNo + 1 := by
  have hnone : dropRetired (retirePages s) = retirePages s := by
    have hnil : (liveCopies (retirePages s).jrn).filter (fun c => (blkSt (retirePages s) (copyAt (retirePages s) c).glun
        (copyAt (retirePages s) c).block).retired) = [] :=
      List.filter_eq_nil_iff.2 fun c hc => by
        have := h c hc
        exact Bool.not_eq_true _ ▸ this
    unfold dropRetired
    rw [hnil]
    rfl
  have hmoved : windowMoved s = modJrn (modJrn (retirePages s) (fun j => { j with
      full := false, turnNo := j.turnNo + 1, live := j.live.filter (fun p => decide (j.turnNo + 1 < p.1 + windowLen s)) })) (fun j => { j with
      tail := ((j.live.map (fun p => p.2.1)).min?).getD (((j.pages.map (fun p => p.pseq)).min?).getD j.pseq) }) := by
    rw [← hnone]
    rfl
  rw [hmoved]
  exact ⟨rfl, rfl, rfl⟩

/-- A copy has turned to a block, whose erase is queued. -/
def Turned (u : State) (c glun b : Nat) : Prop :=
  (copyAt u c).block = b ∧ (copyAt u c).wl = 0 ∧ (copyAt u c).turn = true ∧
    ∃ o ∈ u.ops, o.use = .turnErase c ∧ o.type = .erase ∧ o.glun = glun ∧ o.block = b

theorem turned_turnErase (s : State) (c b : Nat) : Turned (turnErase s c b) c (copyAt s c).glun b := by
  have hcopy : copyAt (turnErase s c b) c = { copyAt s c with block := b, wl := 0, turn := true } := copyAt_modCopy_same ..
  unfold Turned
  rw [hcopy]
  have hop : ∃ o ∈ (turnErase s c b).ops, o.use = .turnErase c ∧ o.type = .erase ∧ o.glun = (copyAt s c).glun ∧ o.block = b := by
    unfold turnErase
    dsimp only
    rw [queueOp_ops]
    exact ⟨_, List.mem_append_right _ (List.mem_singleton_self _), rfl, rfl, rfl, rfl⟩
  exact ⟨rfl, rfl, rfl, hop⟩

theorem copyAt_turnErase_ne (s : State) {c d : Nat} (b : Nat) (h : d ≠ c) : copyAt (turnErase s c b) d = copyAt s d :=
  copyAt_modCopy_ne s _ h

theorem mem_ops_turnErase {o : Op} (h : o ∈ s.ops) (c b : Nat) : o ∈ (turnErase s c b).ops := by
  unfold turnErase
  dsimp only
  rw [queueOp_ops]
  exact List.mem_append_left _ h

theorem Turned.turnErase_ne {c d g b : Nat} (h : Turned s c g b) (hne : c ≠ d) (b' : Nat) : Turned (turnErase s d b') c g b := by
  obtain ⟨hblock, hwl, hturn, o, ho, hop⟩ := h
  unfold Turned
  rw [copyAt_turnErase_ne s b' hne]
  exact ⟨hblock, hwl, hturn, o, mem_ops_turnErase ho d b', hop⟩

/-- Every copy of a list that has a next block turns to it. -/
theorem foldl_turnCopy {l : List Nat} (hnodup : l.Nodup) (hnext : ∀ c ∈ l, nextBlock (copyAt s c) ≠ none) :
    (l.foldl turnCopy s).jrn.full = s.jrn.full ∧ (l.foldl turnCopy s).jrn.turnNo = s.jrn.turnNo ∧
      (∀ c g b, c ∉ l → Turned s c g b → Turned (l.foldl turnCopy s) c g b) ∧
      ∀ c ∈ l, ∀ b, nextBlock (copyAt s c) = some b → Turned (l.foldl turnCopy s) c (copyAt s c).glun b := by
  induction l generalizing s with
  | nil => exact ⟨rfl, rfl, fun _ _ _ _ h => h, fun _ h => absurd h List.not_mem_nil⟩
  | cons c l ih =>
    obtain ⟨hcl, hnodup⟩ := List.nodup_cons.1 hnodup
    obtain ⟨b, hb⟩ := Option.ne_none_iff_exists'.1 (hnext c List.mem_cons_self)
    have hturn : turnCopy s c = turnErase s c b := by unfold turnCopy; rw [hb]
    have hother (d : Nat) (hd : d ∈ l) : copyAt (turnErase s c b) d = copyAt s d := copyAt_turnErase_ne s b fun e => hcl (e ▸ hd)
    obtain ⟨hfull, hno, hkeep, hnew⟩ := ih (s := turnErase s c b) hnodup fun d hd => by
      rw [hother d hd]
      exact hnext d (List.mem_cons_of_mem _ hd)
    rw [List.foldl_cons, hturn]
    refine ⟨hfull, hno, fun d g b' hd h => ?_, fun d hd b' hb' => ?_⟩
    · rw [List.mem_cons, not_or] at hd
      exact hkeep d g b' hd.2 (h.turnErase_ne hd.1 b)
    · rcases List.mem_cons.1 hd with rfl | hd
      · obtain rfl : b' = b := Option.some.inj (hb'.symm.trans hb)
        exact hkeep d _ _ hcl (turned_turnErase s d b')
      · have h := hnew d hd b'
        rw [hother d hd] at h
        exact h hb'

/-! ### What a turn needs (R285) -/

/-- Every entry that the turn erases is settled, and the zone that it names has later images of both its segments. -/
theorem mayErase_settled (h : mayErase s = true) {p : Nat × Nat × List Entry} (hp : p ∈ s.jrn.live)
    (hgone : p.1 + windowLen s ≤ s.jrn.turnNo + 1) {e : Entry} (he : e ∈ p.2.2) :
    (e.typ = 1 → ∃ x : Entry, (x.typ = 2 ∨ x.typ = 3 ∨ x.typ = 0x0A) ∧ x.zid = e.zid ∧ x.row = e.row ∧ x.wseq = e.wseq ∧ e.seq < x.seq) ∧
      ((1 ≤ e.typ ∧ e.typ ≤ 7) ∨ e.typ = 0x0A → e.seq < tget s.jrn.images (e.zid / 128) 0 ∧
        e.seq < tget s.jrn.images (65536 + e.zid / 16) 0) := by
  have hmem : e ∈ (turnPages s).flatMap (fun p => p.2.2) :=
    List.mem_flatMap.2 ⟨p, List.mem_filter.2 ⟨hp, by simpa using hgone⟩, he⟩
  unfold mayErase at h
  have h := List.all_eq_true.1 h e hmem
  simp only [settled, namesZone, imaged, zoneSegs, Bool.and_eq_true, Bool.or_eq_true, Bool.not_eq_true', Bool.or_eq_false_iff,
    Bool.and_eq_false_iff, decide_eq_true_eq, decide_eq_false_iff_not, List.any_eq_true, List.all_cons, List.all_nil, List.contains_iff_mem,
    List.mem_cons, List.not_mem_nil, or_false, and_true] at h
  obtain ⟨hsettled, himaged⟩ := h
  refine ⟨fun htyp => ?_, fun hnames => ?_⟩
  · obtain ⟨x, -, ⟨⟨⟨htyp, hzid⟩, hrow⟩, hwseq⟩, hseq⟩ := hsettled.resolve_left fun h => h htyp
    exact ⟨x, htyp, hzid, hrow, hwseq, hseq⟩
  · exact himaged.resolve_left fun h => by omega

end

/-- Settles O57: pages close by `commitTicks`, a copy writes what `mayWrite` allows it (`pageStart_writes`), the window turns copy by
copy (`foldl_turnCopy`), and only where `mayErase_settled` holds. -/
theorem journalPagesAndWindows : Obligations.JournalPagesAndWindows := by
  unfold Obligations.JournalPagesAndWindows
  refine ⟨⟨fun s => ⟨fun p hrun hopen => ⟨fun hdue => ?closes, fun hearly => ?early⟩, fun h => ?noPage⟩,
    fun s c => ⟨fun h => ?halted, fun hrun h => ?noWrite, fun p hrun h => ?writes⟩, pageDurable_iff⟩,
    fun s => ⟨fun h => ?turnHalted, fun hrun h => ?waits, fun hrun hgo hend herase => ⟨fun hfull => ?full, fun hfull => ?fills⟩,
      fun hrun hgo hend herase hcopies hnodup => ?turns⟩,
    fun s h p hp hgone e he => mayErase_settled h hp hgone he⟩
  case closes =>
    have hany : s.jrn.pages.any (fun p => !p.closed) = true :=
      List.any_eq_true.2 ⟨p, List.mem_of_find?_eq_some hopen, List.find?_some (p := fun p : PageSt => !p.closed) hopen⟩
    refine ⟨congrArg (fun t => ok (pump t)) (commitTicks_due hrun hopen hdue), ?_, fun q hq => ?_, pickSegs_length_le s⟩
    · rw [closePage_pages hany, List.map_map]
      exact List.map_congr_left fun p _ => closedPage_entries s p
    · rw [closePage_pages hany] at hq
      obtain ⟨p, -, rfl⟩ := List.mem_map.1 hq
      exact closedPage_closed s p
  case early => exact congrArg (fun t => ok (pump t)) (commitTicks_early hopen hearly)
  case noPage => exact congrArg (fun t => ok (pump t)) (commitTicks_none h)
  case halted => exact congrArg ok (execJre_halted h _)
  case noWrite => exact congrArg ok ((execJre_runs hrun _).trans (congrArg pump (pageStart_none h)))
  case writes => exact ⟨⟨_, congrArg ok (execJre_runs hrun _), by
    obtain ⟨hbusy, hpages, hother, hdram, hop⟩ := pageStart_writes h
    exact ⟨hbusy, hpages, hother, hdram, hop⟩⟩, mayWrite_some h⟩
  case turnHalted => exact congrArg ok (execJre_halted h _)
  case waits => exact congrArg ok ((execJre_runs hrun _).trans (congrArg pump (windowTurn_waits h)))
  case full => exact congrArg ok ((execJre_runs hrun _).trans (congrArg pump (windowTurn_full herase hfull)))
  case fills =>
    exact ⟨_, congrArg ok ((execJre_runs hrun _).trans (congrArg pump (windowTurn_filled hgo hend herase hfull))), windowFilled_jrn s,
      windowFilled_flag s, fun rid => rowIntent_full (by rw [windowFilled_jrn]) rid⟩
  case turns =>
    obtain ⟨hsame, hfull, hno⟩ := windowMoved_copies fun c hc => (hcopies c hc).1
    have hlive : liveCopies (windowMoved s).jrn = liveCopies s.jrn := by unfold liveCopies; rw [hsame]
    have hcopy (c : Nat) : copyAt (windowMoved s) c = copyAt s c := by unfold copyAt; rw [hsame]
    obtain ⟨hfull', hno', -, hturned⟩ := foldl_turnCopy (s := windowMoved s) hnodup fun c hc => by
      rw [hcopy]
      exact (hcopies c hc).2
    refine ⟨_, congrArg ok ((execJre_runs hrun _).trans (congrArg pump (windowTurn_turns hgo hend herase))), ?_, ?_, fun c hc b hb => ?_⟩
    · rw [hlive, hfull', hfull]
    · rw [hlive, hno', hno]
    · have h := hturned c hc b
      rw [hcopy] at h
      rw [hlive]
      exact h hb

end Sys2Proof.Machine
end

