-- ==== Sys2Proof/Proofs/PinEvents.lean ====
section
/-! What the pins do (R291, R293, R411, R431, R445, R555, R569, R574, R576): the power-fail warning and its filter, the stagings that it
abandons, MEM_HOLD and a furled patrol, IX_ALIVE, the trace ports. -/

namespace Sys2Proof.Machine

/-! ### A bit within a field that is 0 -/

theorem bit_of_bits_zero {w hi lo i : Nat} (h : bits w hi lo = 0) (hlo : lo ≤ i) (hhi : i ≤ hi) : bit w i = false := by
  have ht := bits_testBit w hi lo (i - lo)
  rw [h, Nat.zero_testBit, Nat.add_sub_cancel' hlo] at ht
  simpa [bit, show i - lo < hi + 1 - lo by omega] using ht

/-! ### The power-fail warning (R291, R293) -/

section
variable {s : State} {t : Nat}

theorem outOfReset_iff : outOfReset s = true ↔ s.porstN = true ∧ s.srstN = true := by simp [outOfReset]

theorem due_iff {since n : Nat} : due s since n = true ↔ since + n ≤ s.tick := decide_eq_true_iff

/-- A handling has begun: PFAIL_ACTIVE and JRN_STATUS.PFAIL are set. -/
def pfailBegun (s : State) : State := jrnFlag (modJrn s (fun j => { j with pfActive := true, pfSleep := false })) 0

theorem pfailBegun_eq (s : State) :
    pfailBegun s = { s with regs := (pfailBegun s).regs, jrn := { s.jrn with pfActive := true, pfSleep := false } } := rfl

theorem pfailBegun_flag (s : State) : bit (rd (pfailBegun s) regJrnStatus) 0 = true := sticky_bit _ _ 0 (by decide)

theorem pfailBegun_rd {a : Nat} (h : a ≠ regJrnStatus) (h0 : a ≠ regJrnCount0) : rd (pfailBegun s) a = rd s a := rd_sticky_ne _ h h0

section
variable (hlow : s.jrn.pfLow = some t)
include hlow

/-- A pulse of PFAIL_N that is shorter than the filter has no effect. -/
theorem pfailWarning_early (h : s.tick < t + max 1 (rdf s regJrnPfail 7 0)) : pfailWarning s = s := by
  have hdue : due s t (pfFilter s) = false := decide_eq_false (Nat.not_le.2 h)
  simp [pfailWarning, hlow, hdue]

theorem pfailWarning_begins (hpin : s.pfailN = false) (hidle : s.jrn.pfActive = false) (hreset : outOfReset s = true)
    (hentry : rdf s regPwrState 31 30 = 0) (hstate : rdf s regPwrState 1 0 ≤ 1) (hstep : s.pwr.step ≠ .patrol)
    (h : t + max 1 (rdf s regJrnPfail 7 0) ≤ s.tick) : pfailWarning s = pump (pfailSteps (raise (pfailBegun s) 1021)) := by
  have hdue : due s t (pfFilter s) = true := due_iff.2 h
  have hentering : pwrEntering s = false := bit_of_bits_zero hentry (by decide) (by decide)
  have hcommit : pwrCommit s = false := bit_of_bits_zero hentry (by decide) (by decide)
  have hawake : ¬2 ≤ pwrState s := Nat.not_le.2 (Nat.lt_succ_of_le hstate)
  simp [pfailWarning, hlow, hdue, hpin, hidle, hreset, hentering, hcommit, hawake, hstep, pfailBegun]

end

/-- While a handling runs, no scheduler fetches. -/
theorem fetchOpen_pfail (hactive : s.jrn.pfActive = true) (hawake : s.jrn.pfSleep = false) (q : Nat) : fetchOpen s q = false := by
  simp [fetchOpen, hactive, hawake]

section
variable (hpin : s.pfailN = true) (hhigh : s.jrn.pfHigh = some t)
include hpin hhigh

theorem pfRestored_iff : pfRestored s = true ↔ t + max 1 (rdf s regJrnPfail 7 0) ≤ s.tick := by
  have heq : pfRestored s = due s t (pfFilter s) := by simp [pfRestored, hpin, hhigh]
  rw [heq]
  exact due_iff

theorem pfailHigh_early (h : s.tick < t + max 1 (rdf s regJrnPfail 7 0)) : pfailHigh s = s := by
  have hno : pfRestored s = false := Bool.eq_false_iff.2 fun hr => absurd ((pfRestored_iff hpin hhigh).1 hr) (Nat.not_le.2 h)
  simp [pfailHigh, hno]

/-- PFAIL_N has been high long enough: a handling at its last step ends, and so does the hold after a reset. -/
theorem pfailHigh_due (hreset : outOfReset s = true) (h : t + max 1 (rdf s regJrnPfail 7 0) ≤ s.tick) : pfailHigh s =
    pump (if s.jrn.pfDone then pfClear { s with jrn := { s.jrn with pfHold := false } } else { s with jrn := { s.jrn with pfHold := false } }) :=
  if_pos (by rw [(pfRestored_iff hpin hhigh).2 h, hreset]; rfl)

end

end

/-! ### Stagings are abandoned (R291) -/

/-- The rows, the journal, the commands and the stagings stand as they were. -/
def KeepsRows (s t : State) : Prop := t.rows = s.rows ∧ t.jrn = s.jrn ∧ t.cmds = s.cmds ∧ t.stagings = s.stagings

theorem KeepsRows.refl (s : State) : KeepsRows s s := ⟨rfl, rfl, rfl, rfl⟩

theorem KeepsRows.trans {s t u : State} (h : KeepsRows s t) (g : KeepsRows t u) : KeepsRows s u := by
  obtain ⟨hr, hj, hc, hs⟩ := h
  obtain ⟨gr, gj, gc, gs⟩ := g
  exact ⟨gr.trans hr, gj.trans hj, gc.trans hc, gs.trans hs⟩

theorem KeepsRows.foldl {α : Type} {f : State → α → State} (hf : ∀ s a, KeepsRows s (f s a)) (l : List α) (s : State) :
    KeepsRows s (l.foldl f s) := by
  induction l generalizing s with
  | nil => exact .refl s
  | cons a l ih => exact (hf s a).trans (ih (f s a))

theorem resetLun_keepsRows (s : State) (g : Nat) : KeepsRows s (resetLun s g) := by
  unfold resetLun
  rw [modLun_frame]
  exact ⟨rfl, rfl, rfl, rfl⟩

theorem withdrawOps_keepsRows (s : State) (p : Op → Bool) : KeepsRows s (withdrawOps s p) := by
  refine .foldl (fun t o => ?_) _ s
  have hdrop : KeepsRows t (dropOp t o) := ⟨rfl, rfl, rfl, rfl⟩
  dsimp only
  split
  · exact hdrop.trans (resetLun_keepsRows ..)
  · exact hdrop

theorem dropUses_keepsRows (s : State) (mine : Use → Bool) : KeepsRows s (dropUses s mine) := by
  refine KeepsRows.trans ?_ (.foldl (f := dropOp) (fun _ _ => ⟨rfl, rfl, rfl, rfl⟩) _ _)
  exact ⟨rfl, rfl, rfl, rfl⟩

theorem returnBuf_keepsRows (s : State) (a : Nat) : KeepsRows s (returnBuf s a) := by
  unfold returnBuf
  dsimp only
  split <;> exact ⟨rfl, rfl, rfl, rfl⟩

/-- The state without a staging, as a staging that leaves finds it. -/
def withoutStg (s : State) (sid : Nat) : State := { s with stagings := s.stagings.filter (fun y => y.sid ≠ sid) }

theorem dropStg_keepsRows (s : State) (g : Staging) : KeepsRows (withoutStg s g.sid) (dropStg s g) := by
  refine KeepsRows.trans ?_ (.foldl returnBuf_keepsRows _ _)
  exact ⟨rfl, rfl, rfl, rfl⟩

/-- Is a codeword read for a staging? -/
def ofRestage (sid : Nat) (u : Use) : Bool := match u with | .restage i _ _ => decide (i = sid) | _ => false

/-- A staging is abandoned: its programs and its reads are withdrawn, and it leaves. -/
def abandonStg (s : State) (g : Staging) : State :=
  dropStg (dropUses (withdrawOps s (ofStaging g.sid)) (ofRestage g.sid)) g

theorem abandonStg_keepsRows (s : State) (g : Staging) : KeepsRows (withoutStg s g.sid) (abandonStg s g) := by
  obtain ⟨hr, hj, hc, hs⟩ := dropStg_keepsRows (dropUses (withdrawOps s (ofStaging g.sid)) (ofRestage g.sid)) g
  obtain ⟨gr, gj, gc, gs⟩ := (withdrawOps_keepsRows s (ofStaging g.sid)).trans
    (dropUses_keepsRows _ (ofRestage g.sid))
  exact ⟨hr.trans gr, hj.trans gj, hc.trans gc, hs.trans (congrArg (List.filter (fun y : Staging => y.sid ≠ g.sid)) gs)⟩

/-- Stagings abandoned one after the other leave the ones with other numbers. -/
theorem foldl_abandonStg (l : List Staging) (s : State) :
    KeepsRows { s with stagings := s.stagings.filter (fun g => !(l.any (fun h => decide (h.sid = g.sid)))) } (l.foldl abandonStg s) := by
  induction l generalizing s with
  | nil => exact ⟨rfl, rfl, rfl, by simp⟩
  | cons g l ih =>
    obtain ⟨hr, hj, hc, hs⟩ := ih (abandonStg s g)
    obtain ⟨gr, gj, gc, gs⟩ := abandonStg_keepsRows s g
    refine ⟨hr.trans gr, hj.trans gj, hc.trans gc, hs.trans ?_⟩
    dsimp only
    rw [gs]
    unfold withoutStg
    rw [List.filter_filter]
    refine List.filter_congr fun x _ => ?_
    by_cases hx : x.sid = g.sid <;> simp [hx, eq_comm]

/-- The stagings that the handling waits for, abandoned. -/
def stgsAbandoned (s : State) : State := (s.stagings.filter pfWaits).foldl abandonStg s

/-- Rows no longer wait for a staging of a list. -/
def rowFreed (gone : List Staging) (r : Row) : Row :=
  if (r.staging.map (fun i => gone.any (fun g => g.sid = i))).getD false then { r with staging := none } else r

theorem stageByExpiry_due {s : State} {t : Nat} (hactive : s.jrn.pfActive = true) (hawake : s.jrn.pfSleep = false)
    (hflush : s.jrn.pfFlush = false) (hlow : s.jrn.pfLow = some t) (h : t + rdf s regJrnPfail 31 8 ≤ s.tick) :
    stageByExpiry s = { stgsAbandoned s with rows := (stgsAbandoned s).rows.map (rowFreed (s.stagings.filter pfWaits)) } :=
  if_pos (by simp [pfRuns, hactive, hawake, hflush, hlow, due, h])

/-- A row that still has a staging has one that the handling does not wait for. -/
theorem rowFreed_staging {gone : List Staging} {r : Row} {sid : Nat} (h : (rowFreed gone r).staging = some sid) :
    ∀ g ∈ gone, g.sid ≠ sid := by
  unfold rowFreed at h
  split at h
  case isTrue => cases h
  case isFalse hno =>
    rw [h] at hno
    simpa using hno

/-! ### A furled patrol under MEM_HOLD (R411) -/

/-- An item that the patrol alone wants, in a quadrant. -/
def patrolOnly (q : Nat) (i : Item) : Bool := decide (quadOf i.glun = q) && i.use.all (fun u => match u with | .patrol _ => true | _ => false)

theorem patrolHold_due {s : State} {q t : Nat} (hstep : s.pwr.step = .patrol) (hhold : s.memHold = true) (hheld : s.pwr.heldAt = some t)
    (hvisits : 0 < tget s.pwr.visits q 0) (h : t + 1000 * rdf s regGlbAgeFurl 15 0 ≤ s.tick) :
    ∃ ops, patrolHold s q = ageFlag { s with
      items := s.items.filter (fun i => !(patrolOnly q i)), ops := ops, pwr := { s.pwr with visits := tset s.pwr.visits q 0 } } 6 := by
  unfold patrolHold
  rw [hheld]
  dsimp only
  rw [if_pos (by simp [hstep, hhold, due, h, hvisits])]
  exact ⟨_, rfl⟩

theorem ageFlag_six_bit (s : State) : bit (rd (ageFlag s 6) regGlbAgeStatus) 6 = true := sticky_bit _ _ 6 (by decide)

/-! ### Trace ports (R444, R445, R576) -/

section
variable {s : State} {k : Nat}

theorem tracePortRead_word (hdom : domOn s (traceDom k) = true) (hfill : traceLevel (traceSt s k) ≠ 0) (hreset : outOfReset s = true) :
    tracePortRead s k = { s with traces := tset s.traces k { traceSt s k with
      out := w32 (tget (traceSt s k).mem ((traceSt s k).rd % 2 ^ 14) 0), rd := ((traceSt s k).rd + 1) % 2 ^ 15, lastRead := s.tick } } :=
  if_neg (by simp [hdom, hfill, hreset])

theorem tracePortRead_zero (h : domOn s (traceDom k) = false ∨ traceLevel (traceSt s k) = 0 ∨ outOfReset s = false) :
    tracePortRead s k = { s with traces := tset s.traces k { traceSt s k with out := 0 } } :=
  if_pos (by rcases h with h | h | h <;> simp [h])

/-- The FIFO has timed out: its timer starts again, TIMEOUT is set. -/
def traceTimedOut (s : State) (k : Nat) : State :=
  sticky { s with traces := tset s.traces k { traceSt s k with lastRead := s.tick } } (regTrcStatus k) 1

theorem traceTimeout_due (hn : rd s (regTrcTimeout k) ≠ 0) (hfill : traceLevel (traceSt s k) ≠ 0) (hdom : domOn s (traceDom k) = true)
    (h : (traceSt s k).lastRead + rd s (regTrcTimeout k) ≤ s.tick) : traceTimeout s k = raise (traceTimedOut s k) (1001 + k) :=
  if_pos (by simp [hn, hfill, hdom, due, h])

theorem traceTimeout_none (h : rd s (regTrcTimeout k) = 0 ∨ traceLevel (traceSt s k) = 0) : traceTimeout s k = s :=
  if_neg (by rcases h with h | h <;> simp [h])

end

/-- Settles O28: the pins by their filters (`pfailWarning_begins`, `pfailHigh_due`), STAGE_BY by `stageByExpiry_due`, MEM_HOLD by
`patrolHold_due` for the furled patrol, the trace ports by their read and their timeout. -/
theorem pinsActOnTheBlock : Obligations.PinsActOnTheBlock := by
  unfold Obligations.PinsActOnTheBlock
  refine ⟨fun s t => ⟨fun hpin => ?falls, fun hpin hlow hidle hporst hsrst hentry hstate hstep => ⟨fun hearly => ?short, fun hdue => ?warns⟩,
      fun hactive hawake hflush hlow hdue => ?stageBy, fun hpin => ?rises,
      fun hpin hhigh hporst hsrst => ⟨fun hearly => ?shortHigh, fun hdue => ⟨fun hdone => ?ends, fun hdone => ?unholds⟩⟩,
      fun hactive hawake q => fetchOpen_pfail hactive hawake q⟩,
    fun s => ⟨fun hhold n => ?noRequest, fun hhold hstep => ?holds, fun hhold hstep => ?holdsPatrol, fun hhold => ?released,
      fun q t hstep hhold hheld hvisits hdue => ?patrol⟩,
    fun s k => ⟨fun hon htref hfault htick hat => ?toggles, fun h => ?still, fun hdom hfill hporst hsrst => ?reads, fun h => ?readsZero,
      fun hn hfill hdom hdue => ?timesOut, fun h => ?noTimeout⟩⟩
  case falls => exact congrArg ok (if_pos hpin)
  case short => exact congrArg ok (pfailWarning_early hlow hearly)
  case warns =>
    exact ⟨pfailBegun s, congrArg ok (pfailWarning_begins hlow hpin hidle (outOfReset_iff.2 ⟨hporst, hsrst⟩) hentry hstate hstep hdue),
      pfailBegun_eq s, pfailBegun_flag s, fun a h h0 => pfailBegun_rd h h0⟩
  case stageBy =>
    obtain ⟨hrows, hjrn, hcmds, hstgs⟩ := foldl_abandonStg (s.stagings.filter pfWaits) s
    refine ⟨_, congrArg (fun t => ok (pump t)) (stageByExpiry_due hactive hawake hflush hlow hdue), hstgs.trans ?_, fun r hr sid hsid g hg hgs => ?_,
      hjrn, hcmds⟩
    · simp only [List.any_filter, pfWaits, Bool.and_comm, Bool.and_left_comm]
    · obtain ⟨r, -, rfl⟩ := List.mem_map.1 hr
      have hno : ¬pfWaits g = true := fun hw => rowFreed_staging hsid g (List.mem_filter.2 ⟨hg, hw⟩) hgs
      simpa [pfWaits, ← Option.isSome_iff_ne_none, or_iff_not_imp_left] using hno
  case rises => exact congrArg ok (if_neg (by simp [hpin]))
  case shortHigh => exact congrArg ok (pfailHigh_early hpin hhigh hearly)
  case ends =>
    have h := pfailHigh_due hpin hhigh (outOfReset_iff.2 ⟨hporst, hsrst⟩) hdue
    rw [if_pos hdone] at h
    exact ⟨_, congrArg ok h, rfl, rfl, rfl, rfl, rfl⟩
  case unholds =>
    have h := pfailHigh_due hpin hhigh (outOfReset_iff.2 ⟨hporst, hsrst⟩) hdue
    rw [if_neg (by simp [hdone])] at h
    exact congrArg ok h
  case noRequest => exact congrArg ok (if_pos (by simp [hhold]))
  case holds => exact congrArg ok (by simp [hhold, hstep])
  case holdsPatrol => exact congrArg ok (by simp [hhold, hstep])
  case released => exact congrArg ok (if_pos hhold)
  case patrol =>
    obtain ⟨ops, h⟩ := patrolHold_due hstep hhold hheld hvisits hdue
    refine ⟨_, congrArg (fun t => ok (pump t)) h, ageFlag_six_bit _, ?_, fun k hk => ?_, ?_, ?_, ?_⟩
    · rw [ageFlag_pwr]
      exact tget_tset_same ..
    · rw [ageFlag_pwr]
      exact (tget_tset ..).trans (if_neg fun e => hk (Fin.ext e))
    · rw [ageFlag_items]
      rfl
    · rw [ageFlag_cmds]
    · rw [ageFlag_dram]
  case toggles => exact congrArg ok (if_pos (by simp [hon, htref, hfault, htick, hat]))
  case still => exact congrArg ok (if_neg (by rcases h with h | h | h | h <;> simp [h]))
  case reads => exact congrArg ok (tracePortRead_word hdom hfill (outOfReset_iff.2 ⟨hporst, hsrst⟩))
  case readsZero =>
    refine congrArg ok (tracePortRead_zero ?_)
    rcases h with h | h | h | h
    · exact .inl h
    · exact .inr (.inl h)
    · exact .inr (.inr (by simp [outOfReset, h]))
    · exact .inr (.inr (by simp [outOfReset, h]))
  case timesOut =>
    exact ⟨traceTimedOut s k, congrArg ok (traceTimeout_due hn hfill hdom hdue), sticky_bit _ _ 1 (by decide), rfl⟩
  case noTimeout => exact congrArg ok (traceTimeout_none h)

end Sys2Proof.Machine
end

