-- ==== Sys2Proof/Proofs/ReshapeRefusals.lean ====
section
/-! What refuses a RESHAPE_BEGIN first (R68, R337, R338): an index that a group names is an illegal field, and the fields are checked
before the lease. -/

namespace Sys2Proof.Machine

section
variable {s : State} {cid : Nat} {c : Cmd}

/-- An index that a group names is illegal for a group without a second layout (R338). -/
theorem reshapeBad_of_inUse (hused : layoutInUse s (cP1 c % 65536) = true) (hnew : (group s (cP0 c % 65536)).newIdx = none) :
    reshapeBad s c = true := by
  have hagain (lt : Layout) : reshapeAgain s (cP0 c % 65536) (cP1 c % 65536) lt = false := by simp [reshapeAgain, hnew]
  have hback (old lt : Layout) : reshapeBack s (cP0 c % 65536) (cP1 c % 65536) old lt = false := by simp [reshapeBack, hnew]
  unfold reshapeBad
  dsimp only
  split
  · simp [hagain, hback, hused]
  · rfl

/-- A refused image or index ends RESHAPE_BEGIN whatever lease its group is under (R68: check 3 comes before check 7). -/
theorem reshapeBegin_bad (h : startable s cid 0x11 = some c) (hbad : reshapeBad (running s cid) c = true) :
    reshapeBegin s cid .ok = finish (running s cid) cid (badField 0x18) := by
  unfold reshapeBegin
  rw [start_runs h, imageEnd_ok]
  dsimp only
  split
  · rw [if_pos hbad]
  · rfl

end

/-- RESHAPE_BEGIN of group 0 under index 0, its image at address 0. -/
def beginCmd : Cmd := { cid := 0, ring := 0, fetchNo := 0, home := 0, pkt := [0x11] }

/-- The image of a layout of group 0 that covers no zone (R90 to R92): K 2, M 1, N 3, one row of the declustering table, C 1, S 1; the
first LUN of each of channels 0 to 2; slot 0 at each position; LUN-block 0 of the first two LUNs as the staging set. -/
def beginImage : List Byte :=
  (leBytes 2 0 ++ leBytes 1 2 ++ leBytes 1 1 ++ leBytes 2 3 ++ leBytes 2 1 ++ leBytes 2 1 ++ zeros 4 ++ leBytes 2 1 ++ zeros 48) ++
  (leBytes 2 0 ++ leBytes 2 128 ++ leBytes 2 256) ++ (leBytes 4 0 ++ leBytes 4 1 ++ leBytes 4 2) ++
  (leBytes 4 0 ++ leBytes 4 (128 * 2 ^ 12))

/-- That layout is bound to group 0 under index 0, a rebuild holds the group, and the command names index 0 again. -/
def beginHeld : State :=
  { State.reset with
    dram := memWrite [] 0 beginImage, cmds := [beginCmd]
    layouts := [(0, parseLayout beginImage)], groups := [(0, { layout := some 0, lease := .rebuild })]
    luns := [(0, {}), (128, {}), (256, {})], cfg := { cur := [(0, { dies := [(0, zeros 12 ++ [1])] })] } }

theorem beginHeld_readLayout : readLayout (running beginHeld 0) 0 = some (parseLayout beginImage) := by decide +kernel

theorem beginHeld_badField_status :
    (pump (finish (running beginHeld 0) 0 (badField 0x18))).cmds.map (fun c => c.res.status) = [stBadField] := by decide +kernel

theorem beginHeld_leaseBusy_status :
    (pump (finish (running beginHeld 0) 0 (leaseBusy beginHeld 0))).cmds.map (fun c => c.res.status) = [stMaintBusy] := by decide +kernel

/-- Refutes O51 by its clause on a held group, at `beginHeld`: it asks for MAINT_BUSY whatever index PARAM1 names, where an index in use
is BAD_FIELD, held or not (`reshapeBegin_bad`), since R68 checks a command's fields before its lease. The statement asks for a free
index only in its clauses on a free lease. -/
theorem not_reshapesMoveTheZones : ¬ Obligations.ReshapesMoveTheZones := by
  unfold Obligations.ReshapesMoveTheZones
  rintro ⟨hcmds, -⟩
  have hstart : startable beginHeld 0 0x11 = some beginCmd := rfl
  obtain ⟨-, -, hread⟩ := (hcmds beginHeld 0 beginCmd (parseLayout beginImage) rfl).1 hstart
  have hbusy : exec (.reshapeBegin 0 .ok) beginHeld = .next (pump (finish (running beginHeld 0) 0 (leaseBusy beginHeld 0))) :=
    ((hread _ beginHeld_readLayout).2 rfl rfl rfl).1 (by decide)
  have hbad : exec (.reshapeBegin 0 .ok) beginHeld = .next (pump (finish (running beginHeld 0) 0 (badField 0x18))) :=
    congrArg (fun t => ok (pump t)) (reshapeBegin_bad hstart (reshapeBad_of_inUse rfl rfl))
  have hsame : [stMaintBusy] = [stBadField] :=
    calc [stMaintBusy] = (pump (finish (running beginHeld 0) 0 (leaseBusy beginHeld 0))).cmds.map (fun c => c.res.status) :=
          beginHeld_leaseBusy_status.symm
      _ = (pump (finish (running beginHeld 0) 0 (badField 0x18))).cmds.map (fun c => c.res.status) := by
          rw [Host.Outcome.next.inj (hbusy.symm.trans hbad)]
      _ = [stBadField] := beginHeld_badField_status
  exact absurd hsame (by decide)

end Sys2Proof.Machine
end

