-- ==== Sys2Proof/Proofs/ClearedOverlays.lean ====
section
/-! The overlay of a zone that is no longer DEGRADED (R327), of a zone number that does not fit ZONE's 19 bits: the entry in the zone table
has its overlay beside the number (R100), and a larger number reaches it. -/

namespace Sys2Proof.Machine

section
variable {s : State}

/-- A DEGRADED zone whose overlay is cleared reads its entry as written without it. -/
theorem zone_setOverlay_clear {zid : Nat} (h : (zone s zid).overlay = 1) :
    zone (setOverlay s zid 0) zid = zone (setZone s { zone s zid with overlay := 0 }) zid := by
  unfold setOverlay
  dsimp only
  rw [if_neg (by simp [h]), (jrnZone_jrnOnly _ zid).zone_eq]

/-- In the zone table, bit 26 of a zone's number stands where the overlay does. -/
theorem zone_setZone_wideOverlay {e : ZoneEntry} (hz : e.zid = 2 ^ 26) (ho : e.overlay = 0) (h : oztIdx? s (2 ^ 26) = none) :
    (zone (setZone s e) (2 ^ 26)).overlay = 1 := by
  rw [← hz] at h ⊢
  rw [zone_setZone_unheld h]
  show bits (fieldAt (packZone _) 0 4) 27 26 = 1
  rw [(packZone_words _).1, hz, ho, bits, Nat.shiftRight_eq_div_pow]
  simp only [b2n, if_true]
  omega

end

/-- The block out of reset, with a DEGRADED entry where the zone table has that of zone 2 ^ 26. -/
def degradedWide : State := dramWrite State.reset (ztAddr State.reset (2 ^ 26)) (leBytes 4 (2 ^ 26))

/-- Refutes O52 by its last clause, on the overlay that a unit's end clears, which is stated for every zone number and not only for those
of the hardware, below 2 ^ 19: zone 2 ^ 26 has no OZT entry, and its entry in the zone table reads DEGRADED after its overlay has been
cleared. -/
theorem not_rebuildsRunUnderTheLease : ¬ Obligations.RebuildsRunUnderTheLease := by
  unfold Obligations.RebuildsRunUnderTheLease
  rintro ⟨-, -, -, hclears⟩
  have hdegraded : (zone degradedWide (2 ^ 26)).overlay = 1 := by decide +kernel
  have hkept : (zone (setOverlay degradedWide (2 ^ 26) 0) (2 ^ 26)).overlay = 1 := by
    rw [zone_setOverlay_clear hdegraded]
    exact zone_setZone_wideOverlay (zone_zid ..) rfl rfl
  exact absurd ((hclears degradedWide (2 ^ 26) hdegraded).symm.trans hkept) (by decide)

end Sys2Proof.Machine
end

