-- ==== Sys2Proof/Proofs/Refills.lean ====
section
/-! Budgets and the refill (R356, R358, R376 to R378): what the image of a BUDGET_SET changes and when its command ends, and what a
refill gives each zone. -/

namespace Sys2Proof.Machine

/-! ### A table written twice -/

/-- Of two values put under one number the later one stands. -/
theorem tset_tset {α : Type} (m : List (Nat × α)) (k : Nat) (v w : α) : tset (tset m k v) k w = tset m k w := by
  induction m with
  | nil => simp [tset]
  | cons p r ih =>
    rw [tset, tset.eq_2 k w]
    split
    · simp [tset]
    · split
      · simp [tset]
      · next hlt hne => simp [tset, hlt, hne, ih]

/-! ### The images of BUDGET_SET (R376) -/

section
variable (g : GovSt) (img : List Byte)

/-- Entry `i` of an image of sluice limits, taken over where it is VALID. -/
def takeLimit (g : GovSt) (i : Nat) : GovSt :=
  if bit (budEntry img i) 31 then { g with limit := tset g.limit i (bits (budEntry img i) 15 0) } else g

/-- Entry `i` of an image of zone budgets, taken over where it is VALID. -/
def takeZone (g : GovSt) (i : Nat) : GovSt :=
  if bit (budEntry img i) 31 then
    { g with zones := tmod g.zones i {} (fun z => { z with burst := bits (budEntry img i) 27 24, budget := bits (budEntry img i) 23 0 }) }
  else g

/-- The limit of a sluice after the first `n` entries. -/
theorem takeLimits_limit (n i : Nat) : tget? ((List.range n).foldl (takeLimit img) g).limit i =
    if i < n ∧ bit (budEntry img i) 31 = true then some (bits (budEntry img i) 15 0) else tget? g.limit i := by
  induction n with
  | zero => simp
  | succ n ih =>
    rw [List.range_succ, List.foldl_append, List.foldl_cons, List.foldl_nil, takeLimit]
    by_cases hi : i = n
    · subst hi
      split <;> simp [*]
    · have hlt : i < n + 1 ↔ i < n := by omega
      split <;> simp [tget?_tset_ne _ _ hi, ih, hlt]

/-- A zone after the first `n` entries. -/
theorem takeZones_zone (n i : Nat) : tget ((List.range n).foldl (takeZone img) g).zones i {} =
    if i < n ∧ bit (budEntry img i) 31 = true then
      { tget g.zones i {} with burst := bits (budEntry img i) 27 24, budget := bits (budEntry img i) 23 0 }
    else tget g.zones i {} := by
  induction n with
  | zero => simp
  | succ n ih =>
    rw [List.range_succ, List.foldl_append, List.foldl_cons, List.foldl_nil, takeZone]
    by_cases hi : i = n
    · subst hi
      split <;> simp [*]
    · have hlt : i < n + 1 ↔ i < n := by omega
      split <;> simp [tget_tmod_ne _ _ _ _ hi, ih, hlt]

theorem budApply_limit {i : Nat} (hi : i < 16) : tget? (budApply g 0 img).limit i =
    if bit (budEntry img i) 31 = true then some (bits (budEntry img i) 15 0) else tget? g.limit i :=
  (takeLimits_limit g img 16 i).trans (by simp only [hi, true_and])

theorem budApply_zone {i : Nat} (hi : i < 16) : tget (budApply g 1 img).zones i {} =
    if bit (budEntry img i) 31 = true then
      { tget g.zones i {} with burst := budEntry img i / 2 ^ 24 % 16, budget := budEntry img i % 2 ^ 24 }
    else tget g.zones i {} :=
  (takeZones_zone g img 16 i).trans (by simp [hi, bits, Nat.shiftRight_eq_div_pow])

/-- Only what BUDGET_SET can set differs. -/
def BudgetsOnly (g h : GovSt) : Prop :=
  h = { g with limit := h.limit, zones := h.zones, resPct := h.resPct, raPct := h.raPct, maint := h.maint, raw := h.raw, worth := h.worth }

theorem BudgetsOnly.trans {g h k : GovSt} (hg : BudgetsOnly g h) (hh : BudgetsOnly h k) : BudgetsOnly g k := by
  unfold BudgetsOnly at hh
  rw [hh, hg]
  rfl

theorem takeLimit_budgetsOnly (i : Nat) : BudgetsOnly g (takeLimit img g i) := by
  unfold takeLimit
  split <;> rfl

theorem takeZone_budgetsOnly (i : Nat) : BudgetsOnly g (takeZone img g i) := by
  unfold takeZone
  split <;> rfl

theorem budApply_budgetsOnly (sel : Nat) : BudgetsOnly g (budApply g sel img) := by
  match sel with
  | 0 => exact List.foldlRecOn (motive := BudgetsOnly g) _ _ rfl fun h hh i _ => hh.trans (takeLimit_budgetsOnly h img i)
  | 1 => exact List.foldlRecOn (motive := BudgetsOnly g) _ _ rfl fun h hh i _ => hh.trans (takeZone_budgetsOnly h img i)
  | _ + 2 => rfl

end

/-! ### The commands that wait end at a refill (R378), within the same tick -/

section
variable (s : State)

theorem dropCmd_tick (c : Cmd) : (dropCmd s c).tick = s.tick := by
  unfold dropCmd
  dsimp only
  split <;> rfl

theorem takeSlot_tick (r : Nat) : (takeSlot s r).tick = s.tick := by
  unfold takeSlot
  dsimp only
  split <;> rfl

theorem tryComplete_tick (cid : Nat) : (tryComplete s cid).tick = s.tick := by
  unfold tryComplete
  split
  · rfl
  · split
    · split
      · exact dropCmd_tick ..
      · exact (takeSlot_tick ..).trans (trace_tick ..)
    · rfl

theorem finish_tick (cid : Nat) (r : Result) : (finish s cid r).tick = s.tick := tryComplete_tick ..

theorem budTake_tick : (budTake s).tick = s.tick := by
  unfold budTake
  refine List.foldlRecOn (motive := fun t : State => t.tick = s.tick) _ _ rfl fun t ht p _ => ?_
  exact (finish_tick ..).trans ht

/-- The one image that waits takes effect, and its command completes with the table select. -/
theorem budTake_one {cid sel : Nat} {img : List Byte} (h : s.gov.wait = [(cid, sel, img)]) :
    budTake s = finish { s with gov := { budApply s.gov sel img with wait := [] } } cid { ra := sel } := by
  unfold budTake
  rw [h]
  rfl

end

/-! ### Flags of GOV_STATUS -/

section
variable (s : State) (p : Prop) [Decidable p] (b : Nat)

/-- A flag of GOV_STATUS set on a condition. -/
def govFlagIf : State := if p then govFlag s b else s

theorem govFlagIf_frame : govFlagIf s p b = { s with regs := (govFlagIf s p b).regs, evc := (govFlagIf s p b).evc } := by
  unfold govFlagIf
  split
  · exact govFlag_frame s b
  · rfl

theorem govFlag_bit (hb : b < 32) : bit (rd (govFlag s b) regGovStatus) b = true := by
  unfold govFlag
  dsimp only
  split <;> simp [sticky_bit, hb]

/-- A flag set stays set when another one is. -/
theorem govFlag_keeps_bit {i : Nat} (hi : i < 32) (h : bit (rd s regGovStatus) i = true) :
    bit (rd (govFlag s b) regGovStatus) i = true := by
  have hsticky : bit (rd (sticky s regGovStatus b) regGovStatus) i = true := by
    unfold sticky wrf
    rw [rd_bump_ne _ (by omega), rd_wr_same, bit, Nat.testBit_mod_two_pow, putBits_testBit _ _ _ _ _ (Nat.le_refl b)]
    split
    · next hib => simp [hi, show i - b = 0 by omega]
    · simpa [hi, bit] using h
  unfold govFlag
  dsimp only
  split <;> simp [hsticky]

theorem govFlagIf_bit (hb : b < 32) (hp : p) : bit (rd (govFlagIf s p b) regGovStatus) b = true := by
  unfold govFlagIf
  rw [if_pos hp]
  exact govFlag_bit s b hb

theorem govFlagIf_keeps_bit {i : Nat} (hi : i < 32) (h : bit (rd s regGovStatus) i = true) :
    bit (rd (govFlagIf s p b) regGovStatus) i = true := by
  unfold govFlagIf
  split
  · exact govFlag_keeps_bit s b hi h
  · exact h

theorem govFlagIf_gov : (govFlagIf s p b).gov = s.gov := by rw [govFlagIf_frame]

end

/-! ### One zone at a refill (R358) -/

section
variable (past s : State) (z : Nat)

/-- The factor that a zone takes: down to its temperature's at once, up to it by RISE_PCT. -/
def factorNext : Nat :=
  if zTarget s z (zoneTemp past z) < (zoneTh s z).f then zTarget s z (zoneTemp past z)
  else min (zTarget s z (zoneTemp past z)) ((zoneTh s z).f + max 1 (rdf s regGovCfg 15 8))

/-- The zone's limit by that factor. -/
def limitNext : Nat := (zoneTh s z).budget * 1000 * factorNext past s z / 100

/-- What drains of a share by that limit; 4 is read-around. -/
def allowNext (i : Nat) : Nat :=
  if i = 4 then limitNext past s z * s.gov.raPct / 100
  else (limitNext past s z - limitNext past s z * s.gov.resPct / 100) * sharePct s i / 100

/-- The zone with the factor of its temperature, its bucket and its shares not yet refilled. -/
def zoneHeated : ZoneTh :=
  { zoneTh s z with
    f := factorNext past s z, crit := decide (zCurve s z 2 ≤ zoneTemp past z), stale := zStale past z, temp := zoneTemp past z,
    fresh := true }

/-- A zone after a refill. -/
def zoneNext : ZoneTh :=
  { zoneHeated past s z with
    tokens := narrow 48 (min ((zoneTh s z).tokens + limitNext past s z) (limitNext past s z * (zoneTh s z).burst / 4 : Nat)),
    spent := (List.range 5).map (fun i => max 0 ((zoneTh s z).spent.getD i 0 - allowNext past s z i)) }

/-- The zone's record replaced. -/
def zonePut (t : ZoneTh) : State := { s with gov := { s.gov with zones := tset s.gov.zones z t } }

theorem zoneTh_zonePut_same (t : ZoneTh) : zoneTh (zonePut s z t) z = t := tget_tset_same ..

theorem zoneTh_zonePut_ne (t : ZoneTh) {y : Nat} (h : y ≠ z) : zoneTh (zonePut s z t) y = zoneTh s y := by
  unfold zoneTh zonePut
  rw [tget_tset, if_neg h]

theorem zonePut_zonePut (t u : ZoneTh) : zonePut (zonePut s z t) z u = zonePut s z u := by
  unfold zonePut
  rw [tset_tset]

/-- The limit and the allowances count the factor just taken. -/
theorem zLimit_heated : zLimit (zonePut s z (zoneHeated past s z)) z = limitNext past s z := by
  unfold zLimit
  rw [zoneTh_zonePut_same]
  rfl

theorem zCap_heated : zCap (zonePut s z (zoneHeated past s z)) z = limitNext past s z * (zoneTh s z).burst / 4 := by
  unfold zCap
  rw [zLimit_heated, zoneTh_zonePut_same]
  rfl

theorem allow_heated (i : Nat) : allow (zonePut s z (zoneHeated past s z)) z i = allowNext past s z i := by
  unfold allow zRes
  rw [zLimit_heated]
  rfl

/-- The zone's record and the flags are all that a refill of the zone writes. -/
theorem refillZone_eq : refillZone past s z =
    let old := zoneTh s z
    let new := zoneNext past s z
    govFlagIf (govFlagIf (govFlagIf (zonePut s z new) (new.f < 100 ∧ old.f = 100) 0) ((new.crit && !old.crit) = true) 3)
      ((new.stale && !old.stale) = true) 2 := by
  have hrefilled : refillZone past s z =
      let old := zoneTh s z
      let heated := zoneHeated past s z
      let t := zonePut s z heated
      let new := { zoneTh t z with
        tokens := narrow 48 (min ((zoneTh t z).tokens + zLimit t z) (zCap t z))
        spent := (List.range 5).map (fun i => max 0 ((zoneTh t z).spent.getD i 0 - allow t z i)) }
      govFlagIf (govFlagIf (govFlagIf (zonePut t z new) (heated.f < 100 ∧ old.f = 100) 0) ((heated.crit && !old.crit) = true) 3)
        ((heated.stale && !old.stale) = true) 2 := rfl
  simp only [hrefilled, zonePut_zonePut, zoneTh_zonePut_same, zLimit_heated, zCap_heated, allow_heated]
  rfl

theorem refillZone_frame : refillZone past s z =
    { s with gov := (refillZone past s z).gov, regs := (refillZone past s z).regs, evc := (refillZone past s z).evc } := by
  rw [refillZone_eq]
  dsimp only
  rw [govFlagIf_frame, govFlagIf_frame (govFlagIf ..), govFlagIf_frame (zonePut ..)]
  rfl

theorem refillZone_tick : (refillZone past s z).tick = s.tick := by rw [refillZone_frame]

/-- The flags leave the governor's record. -/
theorem refillZone_gov : (refillZone past s z).gov = (zonePut s z (zoneNext past s z)).gov := by
  rw [refillZone_eq]
  dsimp only
  rw [govFlagIf_gov, govFlagIf_gov, govFlagIf_gov]

theorem zoneTh_refillZone_same : zoneTh (refillZone past s z) z = zoneNext past s z := by
  rw [zoneTh, refillZone_gov]
  exact zoneTh_zonePut_same ..

theorem zoneTh_refillZone_ne {y : Nat} (h : y ≠ z) : zoneTh (refillZone past s z) y = zoneTh s y := by
  rw [zoneTh, refillZone_gov]
  exact zoneTh_zonePut_ne _ _ _ h

/-- A zone whose factor falls below 100 sets THROTTLE. -/
theorem refillZone_throttles (hf : factorNext past s z < 100) (hold : (zoneTh s z).f = 100) :
    bit (rd (refillZone past s z) regGovStatus) 0 = true := by
  rw [refillZone_eq]
  exact govFlagIf_keeps_bit _ _ _ (by decide) (govFlagIf_keeps_bit _ _ _ (by decide) (govFlagIf_bit _ _ _ (by decide) ⟨hf, hold⟩))

/-- A zone that enters crit sets CRIT. -/
theorem refillZone_enters_crit (ht : zCurve s z 2 ≤ zoneTemp past z) (hold : (zoneTh s z).crit = false) :
    bit (rd (refillZone past s z) regGovStatus) 3 = true := by
  rw [refillZone_eq]
  exact govFlagIf_keeps_bit _ _ _ (by decide) (govFlagIf_bit _ _ _ (by decide) (by simp [zoneNext, zoneHeated, ht, hold]))

theorem zoneNext_spent {i : Nat} (h : i < 5) :
    (zoneNext past s z).spent.getD i 0 = max 0 ((zoneTh s z).spent.getD i 0 - allowNext past s z i) := by
  simp [zoneNext, h]

end

/-! ### The end of a period -/

section
variable {s : State}

theorem governorRefill_runs (hp : s.porstN = true) (hs : s.srstN = true) (ht : s.trefStop = false) (hb : s.blockFault = false)
    (hdue : s.gov.refill + max 1000 (rdf s regGovCfg 31 16) ≤ s.tick) :
    let u := (List.range 16).foldl (refillZone (earlier s)) (budTake s)
    governorRefill s = pump (tempTriggers { u with gov := { u.gov with refill := s.tick, stopped := false } }) := by
  intro u
  have hu : u.tick = s.tick :=
    List.foldlRecOn (motive := fun t : State => t.tick = s.tick) _ _ (budTake_tick s) fun t ht _ _ => (refillZone_tick ..).trans ht
  unfold governorRefill
  rw [if_pos (by simp [hp, hs, ht, hb, due, hdue]), ← hu]

theorem governorRefill_stays
    (h : s.trefStop = true ∨ s.blockFault = true ∨ s.tick < s.gov.refill + max 1000 (rdf s regGovCfg 31 16)) :
    governorRefill s = s := by
  unfold governorRefill
  rw [if_neg]
  simp only [due, Bool.and_eq_true, Bool.not_eq_true', decide_eq_true_eq]
  rintro ⟨⟨⟨-, ht⟩, hb⟩, hdue⟩
  rcases h with h | h | h
  · simp [h] at ht
  · simp [h] at hb
  · omega

end

/-! ### BUDGET_SET (R376, R377) -/

section
variable {s : State} {cid : Nat} {c : Cmd} (h : startable s cid 0x28 = some c)
include h

theorem budgetSet_gaveUp {mp : PortEnd} (hmp : mp ≠ .ok) :
    ∃ v r, budgetSet s cid mp = finish v c.cid r ∧
      PortGaveUp [(0, cPtr c, budLen (cP0 c % 16))] mp (running s cid) v (2 * c.home) r := by
  unfold budgetSet
  rw [start_runs h]
  exact imageEnd_gaveUp (running s cid) c _ mp _ hmp

theorem budgetSet_fetched :
    let sel := cP0 c % 16
    let img := dramRead s (cPtr c) (budLen sel)
    budgetSet s cid .ok =
      if budOk sel img = true then { running s cid with gov := { s.gov with wait := s.gov.wait ++ [(cid, sel, img)] } }
      else finish (running s cid) cid (badField 0x18) := by
  unfold budgetSet
  rw [start_runs h]
  rfl

end

/-- Settles O32. A period's end refills the zones one after another (`governorRefill_runs`), each by `refillZone_eq`: its record becomes
`zoneNext`, and but for the flags of GOV_STATUS with their event nothing else differs. The images that wait are those that
`budgetSet_fetched` let through; `budApply_limit`, `budApply_zone` and `budApply_budgetsOnly` say what each changes. -/
theorem refillsTakeTemperatureAndBudgets : Obligations.RefillsTakeTemperatureAndBudgets := by
  unfold Obligations.RefillsTakeTemperatureAndBudgets
  refine ⟨⟨fun s => ⟨fun hp hs ht hb hdue => ?refill, fun h => ?otherwise⟩, fun past s z _ => ?zone⟩,
    fun s cid c h => ?command, fun s cid sel img h => ?taken, fun g img => ?image⟩
  case refill => exact ⟨_, rfl, congrArg ok (governorRefill_runs hp hs ht hb hdue)⟩
  case otherwise => exact congrArg ok (governorRefill_stays h)
  case zone =>
    intro old t start stop floor target f limit res pct u
    have hnew : zoneTh u z = zoneNext past s z := zoneTh_refillZone_same past s z
    rw [hnew]
    refine ⟨rfl, rfl, rfl, rfl, rfl, fun i hi => ?share, zoneNext_spent past s z (by decide), rfl, rfl,
      refillZone_throttles past s z, refillZone_enters_crit past s z, fun y hy => zoneTh_refillZone_ne past s z hy,
      refillZone_frame past s z⟩
    have hallow : allowNext past s z i = (limit - res) * pct i / 100 := by
      rw [allowNext, if_neg (by omega)]
      rfl
    rw [zoneNext_spent past s z (by omega), hallow]
  case command =>
    intro u sel img
    obtain rfl := startable_cid h
    refine ⟨fun mp hmp => ?port, fun hgood => ?waits, fun hbad => ?refused⟩
    case port =>
      obtain ⟨v, r, e, hport⟩ := budgetSet_gaveUp h hmp
      exact ⟨v, r, congrArg (fun t => ok (pump t)) e, hport⟩
    case waits => exact congrArg (fun t => ok (pump t)) ((budgetSet_fetched h).trans (if_pos hgood))
    case refused => exact congrArg (fun t => ok (pump t)) ((budgetSet_fetched h).trans (if_neg (ne_true_of_eq_false hbad)))
  case taken => exact budTake_one s h
  case image =>
    intro v w
    refine ⟨fun i hi => ?limits, fun i hi => ?zones, rfl, fun sel _ => ?rest⟩
    case limits =>
      exact ⟨fun hv => (budApply_limit g img hi).trans (if_pos hv),
        fun hv => (budApply_limit g img hi).trans (if_neg (ne_true_of_eq_false hv))⟩
    case zones =>
      exact ⟨fun hv => (budApply_zone g img hi).trans (if_pos hv),
        fun hv => (budApply_zone g img hi).trans (if_neg (ne_true_of_eq_false hv))⟩
    case rest =>
      rw [budApply_budgetsOnly g img sel]
      exact ⟨rfl, rfl, rfl⟩

end Sys2Proof.Machine
end

