-- ==== Sys2Proof/Proofs/AgeingRecords.lean ====
section
/-! Ageing records as bytes (R386): fields written into a list of bytes and read back, a record under its CHECK, and a record that is
changed and then written to the store at once (R385). -/

namespace Sys2Proof.Machine

/-! ### Slices and fields -/

theorem slice_append_right (a b : List Byte) (o n : Nat) (h : a.length ≤ o) : slice (a ++ b) o n = slice b (o - a.length) n := by
  simp only [slice, List.drop_append, List.drop_eq_nil_of_le h, List.nil_append]

theorem slice_append_left {a : List Byte} (b : List Byte) {n : Nat} (h : a.length = n) : slice (a ++ b) 0 n = a := by simp [slice, h]

theorem slice_congr {l l' : List Byte} {o n : Nat} (h : ∀ j, j < n → l.getD (o + j) 0 = l'.getD (o + j) 0) :
    slice l o n = slice l' o n := by
  refine List.ext_getElem (by simp [slice_length]) fun j hj hj' => ?_
  rw [slice_length] at hj
  rw [← List.getD_eq_getElem _ 0, ← List.getD_eq_getElem _ 0, slice_getD_of_lt hj, slice_getD_of_lt hj, h j hj]

/-- A part of a row of parts of one size. -/
theorem slice_flatMap {α : Type} {part : α → List Byte} {size : Nat} (hpart : ∀ x, (part x).length = size) {l : List α} {i : Nat} {x : α}
    (h : l[i]? = some x) : slice (l.flatMap part) (size * i) size = part x := by
  induction l generalizing i with
  | nil => cases h
  | cons y l ih =>
    rw [List.flatMap_cons]
    cases i with
    | zero =>
      cases h
      exact slice_append_left _ (hpart _)
    | succ i =>
      have hle : (part y).length ≤ size * (i + 1) := by rw [hpart, Nat.mul_succ]; omega
      rw [slice_append_right _ _ _ _ hle, hpart, Nat.mul_succ, Nat.add_sub_cancel]
      exact ih h

theorem fieldAt_one (l : List Byte) (o : Nat) : fieldAt l o 1 = (l.getD o 0).toNat := by
  cases h : l.drop o with
  | nil => simp [fieldAt, slice, h, leNat, List.getD, List.drop_eq_nil_iff.1 h]
  | cons b r =>
    have hb : l[o]? = some b := by rw [← List.head?_drop, h]; rfl
    simp [fieldAt, slice, h, leNat, List.getD, hb]

/-! ### Bytes replaced -/

section
variable (l b : List Byte) (o : Nat)

theorem putBytes_length (h : o + b.length ≤ l.length) : (putBytes l o b).length = l.length := by
  simp only [putBytes, List.length_append, slice_length, List.length_drop]
  omega

theorem putBytes_getD (j : Nat) :
    (putBytes l o b).getD j 0 = if o ≤ j ∧ j < o + b.length then b.getD (j - o) 0 else l.getD j 0 := by
  unfold putBytes
  by_cases hlow : j < o
  · rw [List.append_assoc, List.getD_append _ _ _ _ (by rwa [slice_length]), slice_getD_of_lt hlow, if_neg (by omega), Nat.zero_add]
  · rw [List.append_assoc, List.getD_append_right _ _ _ _ (by rw [slice_length]; omega), slice_length]
    by_cases hin : j < o + b.length
    · rw [if_pos ⟨by omega, hin⟩, List.getD_append _ _ _ _ (by omega)]
    · rw [if_neg (by omega), List.getD_append_right _ _ _ _ (by omega)]
      simp only [List.getD_eq_getElem?_getD, List.getElem?_drop]
      congr 2
      omega

/-- A field beside the replaced bytes. -/
theorem fieldAt_putBytes_ne {o' n : Nat} (h : o' + n ≤ o ∨ o + b.length ≤ o') : fieldAt (putBytes l o b) o' n = fieldAt l o' n := by
  refine congrArg leNat (slice_congr fun j hj => ?_)
  rw [putBytes_getD, if_neg (by omega)]

theorem fieldAt_putBytes_same (n v : Nat) : fieldAt (putBytes l o (leBytes n v)) o n = v % 256 ^ n := by
  rw [putBytes, List.append_assoc, fieldAt_append_right _ _ _ _ (by rw [slice_length]), slice_length, Nat.sub_self, fieldAt_leBytes]

/-- One of the replaced bytes. -/
theorem fieldAt_putBytes_byte {i : Nat} (h : i < b.length) : fieldAt (putBytes l o b) (o + i) 1 = (b.getD i 0).toNat := by
  rw [fieldAt_one, putBytes_getD, if_pos (by omega), Nat.add_sub_cancel_left]

end

/-! ### Records under their CHECK (R386) -/

theorem crcByte_lt (poly c : Nat) (b : Byte) (hp : poly < 2 ^ 32) (hc : c < 2 ^ 32) : crcByte 32 poly c b < 2 ^ 32 := by
  refine List.foldlRecOn (motive := (· < 2 ^ 32)) _ _ hc fun c _ i _ => ?_
  have hmod : c * 2 % 2 ^ 32 < 2 ^ 32 := Nat.mod_lt _ (by decide)
  dsimp only
  split
  · exact Nat.xor_lt_two_pow hmod hp
  · exact hmod

theorem crc32_lt (l : List Byte) : crc32 l < 2 ^ 32 :=
  List.foldlRecOn (motive := (· < 2 ^ 32)) _ _ (by decide) fun c hc b _ => crcByte_lt _ c b (by decide) hc

section
variable {r : List Byte} (hr : r.length = 256)
include hr

theorem arSeal_length : (arSeal r).length = 256 := by
  rw [arSeal, putBytes_length _ _ _ (by rw [hr, leBytes_length]; decide), hr]

/-- A sealed record passes its CHECK: the bytes that it covers stay. -/
theorem arGood_arSeal : arGood (arSeal r) = true := by
  have hlead : slice r 0 0x3C = r.take 0x3C := by simp [slice, hr]
  have hparts : arSeal r = r.take 0x3C ++ (leBytes 4 (crc32 (r.take 0x3C ++ r.drop 0x40)) ++ r.drop 0x40) := by
    rw [arSeal, putBytes, hlead, leBytes_length, List.append_assoc]
  have htake : (arSeal r).take 0x3C = r.take 0x3C := by rw [hparts, List.take_left' (by simp [hr])]
  have hdrop : (arSeal r).drop 0x40 = r.drop 0x40 := by
    rw [hparts, ← List.append_assoc, List.drop_left' (by simp [hr])]
  unfold arGood
  rw [htake, hdrop, arSeal, fieldAt_putBytes_same]
  exact decide_eq_true (Nat.mod_eq_of_lt (crc32_lt _))

end

theorem fieldAt_arSeal (r : List Byte) {o n : Nat} (h : o + n ≤ 0x3C) : fieldAt (arSeal r) o n = fieldAt r o n :=
  fieldAt_putBytes_ne _ _ _ (.inl h)

/-! ### Records as used (R387) -/

section
variable {s t : State} (bg : Nat)

/-- The length of a changed record is the only one that the state leaves open. -/
theorem arOf_length (h : ∀ p, tget? s.age.dirty bg = some p → p.1.length = 256) : (arOf s bg).length = 256 := by
  have hraw : (arRaw s bg).length = 256 := by
    unfold arRaw
    split
    · next p hp => exact h p hp
    · simp [dramRead]
  unfold arOf
  split
  · exact hraw
  · exact List.length_replicate

/-- What the store and its registers give stays where they stay. -/
theorem arRaw_congr (hd : t.dram = s.dram) (hdirty : t.age.dirty = s.age.dirty) (ha : arAddr t bg = arAddr s bg) :
    arRaw t bg = arRaw s bg := by
  simp only [arRaw, hdirty, ha, dramRead, dramByte, hd]

theorem arOf_congr (hd : t.dram = s.dram) (hdirty : t.age.dirty = s.age.dirty) (ha : arAddr t bg = arAddr s bg) (hon : ageOn t = ageOn s) :
    arOf t bg = arOf s bg := by
  unfold arOf
  rw [hon, arRaw_congr bg hd hdirty ha]

end

/-! ### A record changed (R385) -/

section
variable (s : State) (bg : Nat)

theorem arFetch_frame : arFetch s bg = { s with regs := (arFetch s bg).regs, evc := (arFetch s bg).evc } := by
  unfold arFetch
  split
  · exact ageFlag_frame s 5
  · rfl

/-- A failed CHECK is noted in the status register and its counter. -/
theorem rd_arFetch {a : Nat} (h : a ≠ regGlbAgeStatus) (hcount : a ≠ regGlbAgeCount1) : rd (arFetch s bg) a = rd s a := by
  unfold arFetch
  split
  · exact rd_sticky_ne s h hcount
  · rfl

theorem arAddr_arFetch : arAddr (arFetch s bg) bg = arAddr s bg := by
  simp only [arAddr, rd64]
  rw [rd_arFetch s bg (by decide) (by decide), rd_arFetch s bg (by decide) (by decide)]

theorem ageOn_arFetch : ageOn (arFetch s bg) = ageOn s := by
  simp only [ageOn]
  rw [rd_arFetch s bg (by decide) (by decide)]

theorem arOf_arFetch : arOf (arFetch s bg) bg = arOf s bg := by
  refine arOf_congr bg ?_ ?_ (arAddr_arFetch s bg) (ageOn_arFetch s bg) <;> rw [arFetch_frame]

/-- The record that a change leaves: the changed bytes under the group's number and LUN model, sealed. -/
def changedRecord (f : List Byte → List Byte) : List Byte :=
  let r := f (arOf s bg)
  arSeal (putBytes r 0 (leBytes 4 bg ++ leBytes 1 (modelOf s (bg / 512)) ++ leBytes 1 (fieldAt r 5 1 ||| 1)))

variable {s} (hon : ageOn s = true) (f : List Byte → List Byte)
include hon

theorem arMod_dirty : ∃ at_, tget? (arMod s bg f).age.dirty bg = some (changedRecord s bg f, at_) := by
  unfold arMod changedRecord
  rw [if_pos hon, arOf_arFetch]
  exact ⟨_, tget?_tset_same ..⟩

theorem arAddr_arMod : arAddr (arMod s bg f) bg = arAddr s bg := by
  unfold arMod
  rw [if_pos hon]
  exact arAddr_arFetch s bg

end

section
variable (s : State) (bg : Nat) (f : List Byte → List Byte)

@[simp] theorem arMod_cmds : (arMod s bg f).cmds = s.cmds := by
  unfold arMod
  split
  · show (arFetch s bg).cmds = s.cmds
    rw [arFetch_frame]
  · rfl

@[simp] theorem arFlush_cmds : (arFlush s bg).cmds = s.cmds := by
  unfold arFlush
  split <;> rfl

/-- A record that is written has no change left. -/
theorem arFlush_dirty : tget? (arFlush s bg).age.dirty bg = none := by
  unfold arFlush
  split
  · exact tget?_terase_same ..
  · assumption

/-- A record written at once stands in the store. -/
theorem dramRead_arFlush_arMod (hon : ageOn s = true) (hlen : (changedRecord s bg f).length = 256) :
    dramRead (arFlush (arMod s bg f) bg) (arAddr s bg) 256 = changedRecord s bg f := by
  obtain ⟨at_, hd⟩ := arMod_dirty bg hon f
  unfold arFlush
  rw [hd, arAddr_arMod bg hon f]
  exact dramRead_dramWrite (arMod s bg f) (arAddr s bg) hlen.symm (by decide)

/-- A field between the stamp and the CHECK is as the change has left it. -/
theorem fieldAt_changedRecord {o n : Nat} (hlow : 6 ≤ o) (hhigh : o + n ≤ 0x3C) : fieldAt (changedRecord s bg f) o n = fieldAt (f (arOf s bg)) o n := by
  rw [changedRecord, fieldAt_arSeal _ hhigh, fieldAt_putBytes_ne _ _ _ (.inr (by simpa using hlow))]

variable {s bg f} (hlen : (f (arOf s bg)).length = 256)
include hlen

/-- The number, the model and a mark of use, bytes 0 to 5 of a record. -/
theorem stamped_length (l : List Byte) (hl : l.length = 6) : (putBytes (f (arOf s bg)) 0 l).length = 256 := by
  rw [putBytes_length _ _ _ (by omega), hlen]

theorem changedRecord_length : (changedRecord s bg f).length = 256 := arSeal_length (stamped_length hlen _ (by simp))

theorem changedRecord_good : arGood (changedRecord s bg f) = true := arGood_arSeal (stamped_length hlen _ (by simp))

end

end Sys2Proof.Machine
end

