-- ==== Sys2Proof/Proofs/MaintenanceLeases.lean ====
section
/-! Block-group leases of SCRUB_RANGE and CALIBRATE (R401, R405): a command takes all that it needs or waits, and what then begins. -/

namespace Sys2Proof.Machine

/-! ### All or none -/

/-- One value put under each of a list of numbers. -/
theorem tget?_foldl_tset {α : Type} (v : α) (l : List Nat) (m : Tab α) (k : Nat) :
    tget? (l.foldl (fun t b => tset t b v) m) k = if k ∈ l then some v else tget? m k := by
  induction l generalizing m with
  | nil => simp
  | cons b l ih =>
    rw [List.foldl_cons, ih, tget?_tset]
    by_cases hb : k = b <;> simp [hb]

/-- The state with a lease on each of a list of groups. -/
def leased (s : State) (bgs : List Nat) (code cid : Nat) : State :=
  { s with age := { s.age with leases := bgs.foldl (fun t b => tset t b (code, cid)) s.age.leases } }

section
variable {s : State} {bgs : List Nat} (code cid : Nat)

theorem takeLeases_free (h : ∀ b ∈ bgs, bgLease s b = none) : takeLeases s bgs code cid = some (leased s bgs code cid) :=
  if_neg (by simpa using h)

theorem takeLeases_held (h : ∃ b ∈ bgs, bgLease s b ≠ none) : takeLeases s bgs code cid = none := by
  obtain ⟨b, hb, hheld⟩ := h
  exact if_pos (List.any_eq_true.2 ⟨b, hb, Option.isSome_iff_ne_none.2 hheld⟩)

theorem bgLease_leased (b : Nat) : bgLease (leased s bgs code cid) b = if b ∈ bgs then some (code, cid) else bgLease s b :=
  tget?_foldl_tset ..

end

/-! ### What a sweep samples (R401) -/

theorem mem_dedupNat (l : List Nat) (x : Nat) : x ∈ dedupNat l ↔ x ∈ l := by
  induction l with
  | nil => rfl
  | cons y l ih => by_cases hy : x = y <;> simp [dedupNat, ih, hy]

/-- Word line 0 and the last word line of each sampled LUN-block. -/
theorem mem_sweepWls (bs : List Nat) (last : Nat → Nat) (p : Nat × Nat) :
    p ∈ bs.flatMap (fun b => (dedupNat [0, last b]).map (fun wl => (b, wl))) ↔ p.1 ∈ bs ∧ (p.2 = 0 ∨ p.2 = last p.1) := by
  simp only [List.mem_flatMap, List.mem_map, mem_dedupNat, List.mem_cons, List.not_mem_nil, or_false]
  constructor
  · rintro ⟨b, hb, wl, hwl, rfl⟩
    exact ⟨hb, hwl⟩
  · exact fun ⟨hb, hwl⟩ => ⟨p.1, hb, p.2, hwl, rfl⟩

/-- The state with a sweep counted by the maintenance engine of a quadrant. -/
abbrev sweepCounted (s : State) (q : Nat) : State := bump s (regQdMneWork q) 15 0 1

section
variable (s : State) (q : Nat)

/-- The registers of the ageing store lie below the quadrants' windows. -/
theorem rd_sweepCounted_global {a : Nat} (ha : a < 0x80000) : rd (sweepCounted s q) a = rd s a :=
  rd_bump_ne s (by simp only [regQdMneWork, quadBase]; omega)

/-- PHY_STATE lies in a channel's window, above the registers of its quadrant. -/
theorem rd_sweepCounted_phyState (c : Nat) : rd (sweepCounted s q) (regPhyState c) = rd s (regPhyState c) :=
  rd_bump_ne s (by simp only [regQdMneWork, quadBase, regPhyState, chanBase]; omega)

theorem arOf_sweepCounted (bg : Nat) : arOf (sweepCounted s q) bg = arOf s bg := by
  refine arOf_congr bg rfl rfl ?_ ?_
  · simp only [arAddr, rd64]
    rw [rd_sweepCounted_global s q (by decide), rd_sweepCounted_global s q (by decide)]
  · simp only [ageOn]
    rw [rd_sweepCounted_global s q (by decide)]

theorem subF_sweepCounted (g b o n : Nat) : subF (sweepCounted s q) g b o n = subF s g b o n := by
  simp only [subF, arOf_sweepCounted]

theorem sampleOk_sweepCounted (g b : Nat) : sampleOk (sweepCounted s q) g b = sampleOk s g b := by
  have hchan : chanUp (sweepCounted s q) (chOf g) = chanUp s (chOf g) := by
    unfold chanUp rdf
    rw [rd_sweepCounted_phyState]
  simp only [sampleOk, retiredBlock, subFlag, subF_sweepCounted, hchan]
  rfl

theorem sampled_sweepCounted (bg : Nat) : sampled (sweepCounted s q) bg = sampled s bg := by
  have hctrl : rdf (sweepCounted s q) regGlbAgeCtrl 15 8 = rdf s regGlbAgeCtrl 15 8 := by
    simp only [rdf]
    rw [rd_sweepCounted_global s q (by decide)]
  have hok : sampleOk (sweepCounted s q) (bg / 512) = sampleOk s (bg / 512) := funext (sampleOk_sweepCounted s q _)
  simp only [sampled, hctrl, hok, subF_sweepCounted]

end

/-! ### A command that asks for its leases -/

section
variable {t : State} {c : Cmd}

theorem leaseGroups_calibrate (t : State) (h : opc c = 0x22) : leaseGroups t c = [cP0 c % 2 ^ 32] := if_pos h

/-- The command begins its work with its leases. -/
def leasesTaken (t : State) (c : Cmd) : State := leased t (leaseGroups t c) (leaseCode c) c.cid

/-- The sweep that CALIBRATE begins (R401). -/
def newSweep (t : State) (c : Cmd) : Sweep :=
  let bg := cP0 c % 2 ^ 32
  let bs := sampled t bg
  let wls := bs.flatMap (fun b => (dedupNat [0, subF t (bg / 512) b 0x0E 2]).map (fun wl => (b, wl)))
  { id := c.cid, bg := bg, mask := (bs.map (fun b => 2 ^ (b % 8))).sum, wls := wls, count := wls.length }

section
variable (hfree : ∀ b ∈ leaseGroups t c, bgLease t b = none)
include hfree

theorem askLeases_sweeps (h : opc c = 0x22) : askLeases t c = modCmd
    { sweepCounted (leasesTaken t c) (quadOf (cP0 c % 2 ^ 32 / 512)) with age := { (leasesTaken t c).age with
        sweeps := t.age.sweeps ++ [newSweep t c] } } c.cid (fun c => { c with stage := .running }) := by
  have hhead (u : State) : (leaseGroups u c).headD 0 = cP0 c % 2 ^ 32 := by rw [leaseGroups_calibrate u h, List.headD_cons]
  unfold askLeases
  rw [takeLeases_free _ _ hfree]
  dsimp only
  rw [if_pos h, hhead, sweepBegin]
  simp only [sampled_sweepCounted, subF_sweepCounted]
  rfl

theorem askLeases_scrubs (h : opc c ≠ 0x22) : askLeases t c = modCmd
    { leasesTaken t c with age := { (leasesTaken t c).age with
        scrubs := t.age.scrubs ++ [{ cid := c.cid, zid := cZid c, rows := scrubbed t c }] } }
    c.cid (fun c => { c with stage := .running }) := by
  unfold askLeases
  rw [takeLeases_free _ _ hfree]
  dsimp only
  rw [if_neg h]
  rfl

/-- The command runs. -/
theorem askLeases_runs (hc : cmd? t c.cid = some c) : cmd? (askLeases t c) c.cid = some { c with stage := .running } := by
  have hrun {u : State} (hu : u.cmds = t.cmds) :
      cmd? (modCmd u c.cid (fun c => { c with stage := .running })) c.cid = some { c with stage := .running } := by
    have hsame : cmd? u c.cid = some c := by rw [cmd?, hu]; exact hc
    rw [cmd?_modCmd u c.cid (fun c => { c with stage := .running }) fun _ => rfl, hsame, Option.map_some]
  by_cases h : opc c = 0x22
  · rw [askLeases_sweeps hfree h]
    exact hrun rfl
  · rw [askLeases_scrubs hfree h]
    exact hrun rfl

/-- Its groups stand under its leases, the others as before. -/
theorem bgLease_askLeases (b : Nat) :
    bgLease (askLeases t c) b = if b ∈ leaseGroups t c then some (leaseCode c, c.cid) else bgLease t b := by
  by_cases h : opc c = 0x22
  · rw [askLeases_sweeps hfree h]
    exact bgLease_leased (leaseCode c) c.cid b
  · rw [askLeases_scrubs hfree h]
    exact bgLease_leased (leaseCode c) c.cid b

end

/-- A command that waits for its leases, from a tick on where it has not waited before. -/
def waitsFrom (tick : Nat) (c : Cmd) : Cmd := match c.stage with
  | .waitLease _ => c
  | _ => { c with stage := .waitLease tick }

theorem waitsFrom_cid (tick : Nat) (c : Cmd) : (waitsFrom tick c).cid = c.cid := by
  unfold waitsFrom
  split <;> rfl

theorem waitsFrom_new (tick : Nat) (h : ∀ since, c.stage ≠ .waitLease since) : waitsFrom tick c = { c with stage := .waitLease tick } := by
  unfold waitsFrom
  split
  · next since hs => exact absurd hs (h since)
  · rfl

/-- A command that finds a group held waits from now on. -/
theorem askLeases_waits (hheld : ∃ b ∈ leaseGroups t c, bgLease t b ≠ none) :
    askLeases t c = modCmd t c.cid (waitsFrom t.tick) := by
  unfold askLeases
  rw [takeLeases_held _ _ hheld]
  rfl

/-! ### The wait ends (R401, R405) -/

variable {s : State} {cid since : Nat} (hc : cmd? s cid = some c) (hwait : c.stage = .waitLease since)
include hc hwait

theorem leaseExpiry_early (h : s.tick < since + leaseWait c) : leaseExpiry s cid = s := by
  unfold leaseExpiry
  rw [hc]
  dsimp only
  rw [hwait]
  exact if_neg (by simpa [due] using h)

theorem leaseExpiry_busy (h : since + leaseWait c ≤ s.tick) {b code holder : Nat}
    (hfirst : (leaseGroups s c).find? (fun b => (bgLease s b).isSome) = some b) (hb : bgLease s b = some (code, holder)) :
    leaseExpiry s cid = finish s cid { status := stMaintBusy, state := 0x50 + code, ra := b } := by
  unfold leaseExpiry
  rw [hc]
  dsimp only
  rw [hwait]
  dsimp only
  rw [if_pos (by simpa [due] using h), hfirst]
  dsimp only
  rw [hb]
  rfl

end

/-! ### A scrub starts (R405) -/

/-- Two changes that agree on the element found agree. -/
theorem modFirst_congr {α : Type} {p : α → Bool} {f g : α → α} {l : List α} (h : ∀ x, l.find? p = some x → f x = g x) :
    modFirst p f l = modFirst p g l := by
  induction l with
  | nil => rfl
  | cons x l ih =>
    by_cases hp : p x = true
    · simp only [modFirst, if_pos hp, h x (List.find?_cons_of_pos hp)]
    · simp only [modFirst, if_neg hp, ih fun y hy => h y ((List.find?_cons_of_neg hp).trans hy)]

section
variable {s : State} {cid : Nat} {c : Cmd}

theorem modCmd_congr {f g : Cmd → Cmd} (h : ∀ d, cmd? s cid = some d → f d = g d) : modCmd s cid f = modCmd s cid g :=
  congrArg (fun l => { s with cmds := l }) (modFirst_congr h)

/-- A scrub that starts notes its rows with its command. -/
def scrubNotes (s : State) (cid : Nat) (c : Cmd) : State :=
  modCmd (running s cid) cid (fun d => { d with
    acc := [(scrubRows s c).1, (scrubRows s c).2.1, b2n (scrubRows s c).2.2, (scrubbed s c).length] })

theorem scrubRange_starts (h : startable s cid 0x20 = some c) (hz : zoneCheck (running s cid) c = none) : scrubRange s cid =
    if (zone s (cZid c)).wp ≤ cOff c then finish (running s cid) cid (res stBeyond) else askLeases (scrubNotes s cid c) c := by
  have hnotes : modCmd (running s cid) cid (fun d => { d with
      acc := [(scrubRows s c).1, (scrubRows s c).2.1, b2n (scrubRows s c).2.2, (scrubbed s d).length] }) = scrubNotes s cid c := by
    refine modCmd_congr fun d hd => ?_
    cases (cmd?_running h).symm.trans hd
    rfl
  rw [← hnotes]
  exact zoneStart_runs h (boundaryHolds_other (by decide)) hz (fun s c =>
    if (zone s (cZid c)).wp ≤ cOff c then finish s cid (res stBeyond)
    else
      let r := scrubRows s c
      askLeases (modCmd s cid (fun c => { c with acc := [r.1, r.2.1, b2n r.2.2, (scrubbed s c).length] })) c)

end

end Sys2Proof.Machine
end

