-- ==== Sys2Proof/Proofs/MaintenanceReports.lean ====
section
/-! How calibration sweeps and scrubs end (R402, R404, R407): the shift taken for each level, the record, the summaries, and the
leases given back. -/

namespace Sys2Proof.Machine

/-! ### Reads given up -/

/-- All that giving up codeword reads may change is taken from the second state. -/
def ReadsGiven (s t : State) : Prop :=
  t = { s with ops := t.ops, items := t.items, decs := t.decs, recons := t.recons, banks := t.banks, gov := t.gov }

theorem ReadsGiven.trans {s t u : State} (h : ReadsGiven s t) (g : ReadsGiven t u) : ReadsGiven s u := by
  unfold ReadsGiven at g
  rw [g, h]
  rfl

theorem dropUses_readsGiven (s : State) (mine : Use → Bool) : ReadsGiven s (dropUses s mine) := by
  unfold dropUses dropSpent
  exact List.foldlRecOn (motive := ReadsGiven s) _ _ rfl fun t ht o _ => ht.trans rfl

theorem endRecon_readsGiven (s : State) (id : Nat) : ReadsGiven s (endRecon s id) := by
  unfold endRecon trimRegions
  split
  · dsimp only
    split
    · split <;> rfl
    · rfl
  · rfl

/-- The state without the leases of a holder and the work that it has under way. -/
def unleased (s : State) (cid : Nat) : State :=
  { s with age := { s.age with
    leases := s.age.leases.filter (fun p => p.2.2 ≠ cid), scrubs := s.age.scrubs.filter (fun x => x.cid ≠ cid),
    sweeps := s.age.sweeps.filter (fun x => x.id ≠ cid) } }

section
variable (s : State) (cid : Nat)

theorem freeLeases_readsGiven : ReadsGiven (unleased s cid) (freeLeases s cid) := by
  unfold freeLeases
  refine List.foldlRecOn (motive := ReadsGiven (unleased s cid)) _ _ (dropUses_readsGiven (unleased s cid) _) fun t ht i _ => ?_
  exact (ht.trans (dropUses_readsGiven t _)).trans (endRecon_readsGiven _ i)

@[simp] theorem freeLeases_cmds : (freeLeases s cid).cmds = s.cmds := by rw [freeLeases_readsGiven s cid]; rfl
@[simp] theorem freeLeases_regs : (freeLeases s cid).regs = s.regs := by rw [freeLeases_readsGiven s cid]; rfl
@[simp] theorem freeLeases_age : (freeLeases s cid).age = (unleased s cid).age := by rw [freeLeases_readsGiven s cid]

theorem freeLeases_leases : ∀ p ∈ (freeLeases s cid).age.leases, p.2.2 ≠ cid := by
  rw [freeLeases_age]
  exact fun p hp => by simpa using List.of_mem_filter hp

theorem freeLeases_scrubs : ∀ x ∈ (freeLeases s cid).age.scrubs, x.cid ≠ cid := by
  rw [freeLeases_age]
  exact fun p hp => by simpa using List.of_mem_filter hp

theorem freeLeases_sweeps : ∀ x ∈ (freeLeases s cid).age.sweeps, x.id ≠ cid := by
  rw [freeLeases_age]
  exact fun p hp => by simpa using List.of_mem_filter hp

end

/-! ### The shift of a level (R402) -/

/-- On equal weights the smaller shift goes before the larger, and the negative one before the positive. -/
def Nearer (d e : Int) : Prop := d.natAbs < e.natAbs ∨ (d.natAbs = e.natAbs ∧ d ≤ e)

theorem Nearer.trans {d e f : Int} (h : Nearer d e) (g : Nearer e f) : Nearer d f := by
  unfold Nearer at *
  omega

/-- The shift of the two that is taken, with its weight: the earlier one on equal weights. -/
def lighter (sum : Int → Nat) (acc : Int × Nat) (d : Int) : Int × Nat := if sum d < acc.2 then (d, sum d) else acc

/-- Of shifts that come in the order of nearness the lightest is taken, the nearest one on equal weights. -/
theorem foldl_lighter (sum : Int → Nat) (d : Int) (l : List Int) (hp : (d :: l).Pairwise Nearer) :
    let b := (l.foldl (lighter sum) (d, sum d)).1
    b ∈ d :: l ∧ ∀ e ∈ d :: l, sum b < sum e ∨ (sum b = sum e ∧ Nearer b e) := by
  induction l generalizing d with
  | nil =>
    refine ⟨List.mem_cons_self, fun e he => ?_⟩
    rw [List.mem_singleton.1 he]
    exact .inr ⟨rfl, .inr ⟨rfl, Int.le_refl d⟩⟩
  | cons a l ih =>
    intro b
    obtain ⟨hd, hal⟩ := List.pairwise_cons.1 hp
    obtain ⟨ha, hl⟩ := List.pairwise_cons.1 hal
    by_cases hlt : sum a < sum d
    · have hb : b = (l.foldl (lighter sum) (a, sum a)).1 := by simp only [b, List.foldl_cons, lighter, if_pos hlt]
      obtain ⟨hmem, hleast⟩ := ih a hal
      rw [← hb] at hmem hleast
      refine ⟨List.mem_cons_of_mem _ hmem, fun e he => ?_⟩
      rcases List.mem_cons.1 he with rfl | he
      · rcases hleast a List.mem_cons_self with h | ⟨h, -⟩
        · exact .inl (h.trans hlt)
        · exact .inl (h ▸ hlt)
      · exact hleast e he
    · have hb : b = (l.foldl (lighter sum) (d, sum d)).1 := by simp only [b, List.foldl_cons, lighter, if_neg hlt]
      obtain ⟨hmem, hleast⟩ := ih d (List.pairwise_cons.2 ⟨fun e he => hd e (List.mem_cons_of_mem _ he), hl⟩)
      rw [← hb] at hmem hleast
      refine ⟨?_, fun e he => ?_⟩
      · rcases List.mem_cons.1 hmem with h | h
        · exact h ▸ List.mem_cons_self
        · exact List.mem_cons_of_mem _ (List.mem_cons_of_mem _ h)
      · have hdleast := hleast d List.mem_cons_self
        rcases List.mem_cons.1 he with rfl | he
        · exact hdleast
        · rcases List.mem_cons.1 he with rfl | he
          · rcases hdleast with h | ⟨h, hnear⟩
            · exact .inl (by omega)
            · rcases Nat.lt_or_ge (sum b) (sum e) with h' | h'
              · exact .inl h'
              · exact .inr ⟨by omega, hnear.trans (hd e List.mem_cons_self)⟩
          · exact hleast e (List.mem_cons_of_mem _ he)

/-- No shift and the four of CAL_STEP. -/
def shifts (st : Nat) : List Int := [0, -(st : Int), st, -(2 * st : Int), 2 * st]

theorem shifts_nearer (st : Nat) : (shifts st).Pairwise Nearer := by
  simp only [shifts, List.pairwise_cons, List.mem_cons, List.not_mem_nil, or_false, forall_eq_or_imp, forall_eq, Nearer]
  simp
  omega

theorem sweepBest_lightest (ws : List (Nat × Int × Nat)) (st i : Nat) :
    sweepBest ws st i ∈ shifts st ∧ ∀ e ∈ shifts st, sweepSum ws i (sweepBest ws st i) < sweepSum ws i e ∨
      (sweepSum ws i (sweepBest ws st i) = sweepSum ws i e ∧ Nearer (sweepBest ws st i) e) := by
  by_cases hswept : ws.any (fun w => w.1 = i) = true
  · have hbest : sweepBest ws st i =
        ([-(st : Int), st, -(2 * st : Int), 2 * st].foldl (lighter (sweepSum ws i)) (0, sweepSum ws i 0)).1 := if_pos hswept
    rw [hbest]
    exact foldl_lighter (sweepSum ws i) 0 _ (shifts_nearer st)
  · have hbest : sweepBest ws st i = 0 := if_neg hswept
    have hsum (d : Int) : sweepSum ws i d = 0 := by
      have hnone (w : Nat × Int × Nat) (hw : w ∈ ws) : w.1 ≠ i := fun h => hswept (List.any_eq_true.2 ⟨w, hw, decide_eq_true h⟩)
      rw [sweepSum, List.filter_eq_nil_iff.2 fun w hw => by simp [hnone w hw]]
      rfl
    rw [hbest]
    refine ⟨List.mem_cons_self, fun e he => .inr ⟨by rw [hsum, hsum], ?_⟩⟩
    unfold Nearer
    omega

/-! ### A sweep ends (R402, R404) -/

/-- CORR with the shifts of the 16 levels added, saturating. -/
def sweepCorr (s : State) (x : Sweep) : List Byte :=
  (List.range 16).map (fun i => BitVec.ofNat 8
    (ofSbyte (sat8 (sbyte ((slice (arOf s x.bg) 0x10 16).getD i 0).toNat + sweepBest x.sums (sweepShift s) i))))

/-- A record calibrated: CORR, LOAD, the tick and the count of calibrations. -/
def calibrated (corr : List Byte) (now : Nat) (r : List Byte) : List Byte :=
  putBytes (putBytes (putBytes (putBytes r 0x10 corr) 0x20 (leBytes 4 0)) 0x08 (leBytes 8 now)) 0x06
    (leBytes 2 (satAdd 65535 (fieldAt r 0x06 2) 1))

/-- The state with a sweep's record written; one that sampled nothing leaves it. -/
def sweepSettled (s : State) (x : Sweep) : State :=
  if decide (x.count = 0) then s else arFlush (arMod s x.bg (calibrated (sweepCorr s x) (timeline s))) x.bg

/-- The summary of a sweep. -/
def sweepSummary (s : State) (x : Sweep) : List Byte :=
  calSummary x.bg x.mask x.count (sweepShift s) x.base0 (slice (arOf s x.bg) 0x10 16) (sweepCorr s x)
    ((List.range 16).map (fun i =>
      min 65535 (sweepSum x.sums i 0 - sweepSum x.sums i (sweepBest x.sums (sweepShift s) i))))

theorem sweepSettled_cmds (s : State) (x : Sweep) : (sweepSettled s x).cmds = s.cmds := by
  unfold sweepSettled
  split
  · rfl
  · rw [arFlush_cmds, arMod_cmds]

theorem sweepSummary_length (s : State) (x : Sweep) : (sweepSummary s x).length = 80 := by
  simp [sweepSummary, calSummary, sweepCorr, slice_length, zeros, Function.comp_def]

theorem sweepSummary_group (s : State) (x : Sweep) : (sweepSummary s x).take 4 = leBytes 4 x.bg := by
  simp only [sweepSummary, calSummary, List.append_assoc]
  exact List.take_left' (leBytes_length ..)

section
variable {s : State} {cid : Nat} {x : Sweep}

theorem sweepDone_goesOn (h : ∀ x, sweep? s cid = some x → x.wls ≠ [] ∨ x.now ≠ none) : sweepDone s cid = s := by
  have hnone : (sweep? s cid).filter sweepOver = none := by
    refine Option.filter_eq_none_iff.2 fun x hx => ?_
    rcases h x hx with h | h <;> simp [sweepOver, h, Option.isNone_iff_eq_none]
  unfold sweepDone
  rw [hnone]

theorem sweepDone_ends {c : Cmd} (hx : sweep? s cid = some x) (hwls : x.wls = []) (hnow : x.now = none) (hc : cmd? s cid = some c) :
    sweepDone s cid = finish (writeOut (freeLeases (sweepSettled s x) cid) c (cPtr c) (sweepSummary s x) 3) cid
      { status := stOk, ra := x.bg, rb := 80 } := by
  have hover : (sweep? s cid).filter sweepOver = some x := by rw [hx]; simp [sweepOver, hwls, hnow]
  have hcmd : cmd? (freeLeases (sweepSettled s x) cid) cid = some c := by
    rw [cmd?, freeLeases_cmds, sweepSettled_cmds]
    exact hc
  unfold sweepDone
  rw [hover]
  show (match cmd? (freeLeases (sweepSettled s x) cid) cid with
    | some c => finish (writeOut (freeLeases (sweepSettled s x) cid) c (cPtr c) (sweepSummary s x) 3) cid
        { status := stOk, ra := x.bg, rb := 80 }
    | none => freeLeases (sweepSettled s x) cid) = _
  rw [hcmd]

end

/-! ### The record after a sweep -/

theorem sweepCorr_length (s : State) (x : Sweep) : (sweepCorr s x).length = 16 := by rw [sweepCorr, List.length_map, List.length_range]

/-- A level's byte of CORR with its shift added. -/
theorem sweepCorr_getD (s : State) (x : Sweep) {i : Nat} (hi : i < 16) : ((sweepCorr s x).getD i 0).toNat =
    ofSbyte (sat8 (sbyte (fieldAt (arOf s x.bg) (0x10 + i) 1) + sweepBest x.sums (sweepShift s) i)) % 256 := by
  have hbyte : (sweepCorr s x).getD i 0 = BitVec.ofNat 8
      (ofSbyte (sat8 (sbyte ((slice (arOf s x.bg) 0x10 16).getD i 0).toNat + sweepBest x.sums (sweepShift s) i))) := by
    simp [sweepCorr, List.getD, hi]
  rw [hbyte, slice_getD_of_lt hi, fieldAt_one, BitVec.toNat_ofNat]

section
variable {corr r : List Byte} (now : Nat) (hc : corr.length = 16)
include hc

theorem calibrated_length (hr : r.length = 256) : (calibrated corr now r).length = 256 := by
  have put {l : List Byte} (hl : l.length = 256) (o : Nat) (b : List Byte) (h : o + b.length ≤ 256) : (putBytes l o b).length = 256 := by
    rw [putBytes_length _ _ _ (by omega), hl]
  exact put (put (put (put hr _ _ (by omega)) _ _ (by simp)) _ _ (by simp)) _ _ (by simp)

theorem calibrated_corr {i : Nat} (hi : i < 16) : fieldAt (calibrated corr now r) (0x10 + i) 1 = (corr.getD i 0).toNat := by
  rw [calibrated, fieldAt_putBytes_ne _ _ _ (.inr (by rw [leBytes_length]; omega)),
    fieldAt_putBytes_ne _ _ _ (.inr (by rw [leBytes_length]; omega)), fieldAt_putBytes_ne _ _ _ (.inl (by omega)),
    fieldAt_putBytes_byte _ _ _ (by omega)]

end

section
variable (corr r : List Byte) (now : Nat)

theorem calibrated_load : fieldAt (calibrated corr now r) 0x20 4 = 0 := by
  rw [calibrated, fieldAt_putBytes_ne _ _ _ (.inr (by simp)), fieldAt_putBytes_ne _ _ _ (.inr (by simp)), fieldAt_putBytes_same]
  rfl

theorem calibrated_tick : fieldAt (calibrated corr now r) 0x08 8 = now % 2 ^ 64 := by
  rw [calibrated, fieldAt_putBytes_ne _ _ _ (.inr (by simp)), fieldAt_putBytes_same]
  rfl

theorem calibrated_count : fieldAt (calibrated corr now r) 0x06 2 = min 65535 (fieldAt r 0x06 2 + 1) := by
  rw [calibrated, fieldAt_putBytes_same, satAdd, Nat.mod_eq_of_lt (by omega)]

end

section
variable {s : State} {x : Sweep} (hon : ageOn s = true) (hcount : x.count ≠ 0)
include hcount

theorem sweepSettled_dirty : tget? (sweepSettled s x).age.dirty x.bg = none := by
  rw [sweepSettled, if_neg (by simpa using hcount)]
  exact arFlush_dirty ..

include hon

/-- The record of a swept group stands in the store as it was calibrated. -/
theorem sweepSettled_record (hlen : ∀ p, tget? s.age.dirty x.bg = some p → p.1.length = 256) :
    dramRead (sweepSettled s x) (arAddr s x.bg) 256 = changedRecord s x.bg (calibrated (sweepCorr s x) (timeline s)) := by
  rw [sweepSettled, if_neg (by simpa using hcount)]
  exact dramRead_arFlush_arMod s x.bg _ hon (changedRecord_length (calibrated_length _ (sweepCorr_length s x) (arOf_length x.bg hlen)))

end

/-! ### A scrub ends (R407) -/

theorem findingBytes_length (f : Finding) : (findingBytes f).length = 16 := by simp [findingBytes]

/-- The first 32 bytes of a scrub's summary. -/
def scrubHead (x : Scrub) (first last flags : Nat) : List Byte :=
  leBytes 4 x.zid ++ leBytes 2 first ++ leBytes 2 last ++ leBytes 4 x.codewords ++ leBytes 4 x.heavy ++
    leBytes 4 x.failed ++ leBytes 2 x.mismatch ++ leBytes 2 x.unrecov ++ leBytes 2 (x.finds.take 256).length ++ leBytes 1 flags ++ zeros 5

/-- A scrub's summary with its first 256 findings. -/
def scrubReport (x : Scrub) (first last flags : Nat) : List Byte :=
  scrubHead x first last flags ++ (x.finds.take 256).flatMap findingBytes

section
variable (x : Scrub) (first last flags : Nat)

theorem scrubHead_length : (scrubHead x first last flags).length = 32 := by simp [scrubHead, zeros]

theorem scrubReport_length : (scrubReport x first last flags).length = 32 + 16 * min 256 x.finds.length := by
  have hsum : ((x.finds.take 256).map (fun f => (findingBytes f).length)).sum = 16 * min 256 x.finds.length := by
    simp [findingBytes_length, Nat.mul_comm]
  rw [scrubReport, List.length_append, scrubHead_length, List.length_flatMap, hsum]

theorem scrubReport_fields : let r := scrubReport x first last flags
    fieldAt r 0 4 = x.zid % 2 ^ 32 ∧ fieldAt r 4 2 = first % 65536 ∧ fieldAt r 6 2 = last % 65536 ∧
    fieldAt r 8 4 = x.codewords % 2 ^ 32 ∧ fieldAt r 0x0C 4 = x.heavy % 2 ^ 32 ∧ fieldAt r 0x10 4 = x.failed % 2 ^ 32 ∧
    fieldAt r 0x14 2 = x.mismatch % 65536 ∧ fieldAt r 0x16 2 = x.unrecov % 65536 ∧
    fieldAt r 0x18 2 = min 256 x.finds.length % 65536 ∧ fieldAt r 0x1A 1 = flags % 256 := by
  unfold scrubReport scrubHead
  simp only [List.append_assoc]
  simp (disch := simp) only [fieldAt_append_right, fieldAt_leBytes, leBytes_length]
  simp [fieldAt_leBytes]

theorem scrubReport_finding {i : Nat} {f : Finding} (hi : i < 256) (hf : x.finds[i]? = some f) :
    slice (scrubReport x first last flags) (32 + 16 * i) 16 = findingBytes f := by
  rw [scrubReport, slice_append_right _ _ _ _ (by rw [scrubHead_length]; omega), scrubHead_length, Nat.add_sub_cancel_left]
  exact slice_flatMap findingBytes_length (by rw [List.getElem?_take_of_lt hi, hf])

end

/-- LAST_ROW of a scrub: a free value where it has no row. -/
def scrubLast (s : State) (c : Cmd) : Nat :=
  if c.acc.getD 1 0 < c.acc.getD 0 0 ∨ c.acc.getD 3 0 = 0 then (freeVal s).1 % 65536 else c.acc.getD 1 0

/-- The flags of a scrub's summary: 0 more findings than fit, 1 the range ended early. -/
def scrubFlags (x : Scrub) (c : Cmd) : Nat := 2 * c.acc.getD 2 0 + b2n (decide (256 < x.finds.length))

/-- The state with SCRUB_FIND set where a scrub has a finding about a whole row. -/
def scrubNoted (s : State) (x : Scrub) : State :=
  if x.finds.any (fun f => decide (f.kind = 5) || decide (f.kind = 6)) then ageFlag (freeVal s).2 7 else (freeVal s).2

theorem scrubFlags_more (x : Scrub) (c : Cmd) : bit (scrubFlags x c % 256) 0 = decide (256 < x.finds.length) := by
  unfold bit scrubFlags b2n
  rw [Nat.testBit_zero]
  split <;> simp [*]

theorem scrubFlags_early (x : Scrub) {c : Cmd} (h : c.acc.getD 2 0 ≤ 1) : bit (scrubFlags x c % 256) 1 = decide (c.acc.getD 2 0 = 1) := by
  unfold bit scrubFlags b2n
  rw [Nat.testBit_succ, Nat.testBit_zero]
  generalize c.acc.getD 2 0 = n at *
  refine decide_eq_decide.2 ?_
  split <;> omega

theorem ageFlag_scrubFind (s : State) : bit (rd (ageFlag s 7) regGlbAgeStatus) 7 = true := by
  have hraised : (ageFlag s 7).regs = (sticky s regGlbAgeStatus 7).regs := by
    show (raise (sticky s regGlbAgeStatus 7) 1006).regs = _
    rw [raise_frame]
  unfold rd
  rw [hraised]
  exact sticky_bit s regGlbAgeStatus 7 (by decide)

theorem scrubNoted_find (s : State) {x : Scrub} (h : ∃ f ∈ x.finds, f.kind = 5 ∨ f.kind = 6) :
    bit (rd (scrubNoted s x) regGlbAgeStatus) 7 = true := by
  obtain ⟨f, hf, hkind⟩ := h
  rw [scrubNoted, if_pos (List.any_eq_true.2 ⟨f, hf, by simpa using hkind⟩)]
  exact ageFlag_scrubFind _

theorem scrubNoted_dram (s : State) (x : Scrub) : (scrubNoted s x).dram = s.dram := by
  unfold scrubNoted
  split
  · rw [ageFlag_dram, freeVal_dram]
  · exact freeVal_dram s

section
variable {s : State} {cid : Nat}

theorem scrubDone_goesOn (h : ∀ x, scrub? s cid = some x → x.rows ≠ []) : scrubDone s cid = s := by
  have hnone : (scrub? s cid).filter (fun x => x.rows.isEmpty) = none :=
    Option.filter_eq_none_iff.2 fun x hx => by simp [h x hx]
  unfold scrubDone
  rw [hnone]
  split
  · next h => cases h
  · rfl

theorem scrubDone_ends {x : Scrub} {c : Cmd} (hc : cmd? s cid = some c) (hx : scrub? s cid = some x) (hrows : x.rows = []) :
    scrubDone s cid = finish (writeOut (freeLeases (scrubNoted s x) cid) c (cPtr c)
      (scrubReport x (c.acc.getD 0 0) (scrubLast s c) (scrubFlags x c)) 3) cid
      { status := stOk, ra := c.acc.getD 3 0, rb := 32 + 16 * (x.finds.take 256).length } := by
  have hover : (scrub? s cid).filter (fun x => x.rows.isEmpty) = some x := by rw [hx]; simp [hrows]
  unfold scrubDone
  rw [hc, hover]
  rfl

end

/-- Settles O54: a command that asks for its leases gets them all (`takeLeases_free`) or waits (`askLeases_waits`), until
`leaseExpiry_busy`; the shift of a level is `sweepBest_lightest`, the record that of `sweepSettled_record`, and sweep and scrub end as
`sweepDone_ends` and `scrubDone_ends` say. -/
theorem maintenanceTakesLeasesAndReports : Obligations.MaintenanceTakesLeasesAndReports := by
  unfold Obligations.MaintenanceTakesLeasesAndReports
  refine ⟨fun s cid c hcid => ⟨fun hs => ?scrub, fun hs => ?calibrate, fun t hc => ?ask, fun hc since hwait => ?expiry⟩,
    fun s cid x c hx hwls hnow hc _ hon hlen => ?swept, fun s cid h => congrArg (fun t => ok (pump t)) (sweepDone_goesOn h),
    fun ws st i _ => sweepBest_lightest ws st i, fun s cid h => congrArg (fun t => ok (pump t)) (scrubDone_goesOn h),
    fun s cid x c hc _ hx hrows => ?scrubbed⟩
  case scrub =>
    refine ⟨fun r hz => ?_, fun hz => ⟨fun hb => ?_, fun hb => ?_⟩⟩
    · exact congrArg (fun t => ok (pump t)) (zoneStart_refused hs (boundaryHolds_other (by decide)) hz _)
    · exact congrArg (fun t => ok (pump t)) ((scrubRange_starts hs hz).trans (if_pos hb))
    · exact congrArg (fun t => ok (pump t)) ((scrubRange_starts hs hz).trans (if_neg (Nat.not_le.2 hb)))
  case calibrate =>
    have hrun := start_runs hs (fun s c => if ageOn s then askLeases s c else finish s cid (res stConflict))
    exact ⟨fun hon => congrArg (fun t => ok (pump t)) (hrun.trans (if_pos hon)),
      fun hoff => congrArg (fun t => ok (pump t)) (hrun.trans (if_neg (ne_true_of_eq_false hoff)))⟩
  case ask =>
    subst hcid
    refine ⟨fun hheld hnew => ⟨_, askLeases_waits hheld, ?_, rfl⟩, fun hfree =>
      ⟨_, rfl, askLeases_runs hfree hc, bgLease_askLeases hfree, fun hop => ?_, fun hop => ?_⟩⟩
    · rw [cmd?_modCmd _ _ _ (waitsFrom_cid t.tick), hc, Option.map_some, waitsFrom_new t.tick hnew]
    · rw [askLeases_scrubs hfree hop]
      rfl
    · rw [askLeases_sweeps hfree hop]
      exact ⟨newSweep t c, rfl, rfl, rfl, rfl, rfl, mem_sweepWls _ _⟩
  case expiry =>
    refine ⟨fun h => ?_, fun h pre b rest code holder hgroups hpre hb => ?_⟩
    · exact congrArg (fun t => ok (pump t)) (leaseExpiry_early hc hwait h)
    · have hfirst : (leaseGroups s c).find? (fun b => (bgLease s b).isSome) = some b := by
        rw [hgroups, List.find?_append, List.find?_eq_none.2 fun x hx => by simp [hpre x hx]]
        simp [hb]
      exact congrArg (fun t => ok (pump t)) (leaseExpiry_busy hc hwait h hfirst hb)
  case swept =>
    intro best a
    refine ⟨freeLeases (sweepSettled s x) cid, _, congrArg (fun t => ok (pump t)) (sweepDone_ends hx hwls hnow hc),
      ⟨_, rfl, sweepSummary_length s x, sweepSummary_group s x⟩, freeLeases_leases _ _, freeLeases_sweeps _ _, fun hcount => ?_,
      fun hcount => ?_⟩
    · have hkept : sweepSettled s x = s := if_pos (decide_eq_true hcount)
      rw [freeLeases_dram, freeLeases_age, hkept]
      exact ⟨rfl, rfl⟩
    · have hrecord : dramRead (freeLeases (sweepSettled s x) cid) a 256 =
          changedRecord s x.bg (calibrated (sweepCorr s x) (timeline s)) := by
        rw [← sweepSettled_record hon hcount hlen]
        simp only [dramRead, dramByte, freeLeases_dram]
        rfl
      have hcorr := sweepCorr_length s x
      rw [freeLeases_age, hrecord]
      refine ⟨sweepSettled_dirty hcount, fun i hi => ?_, ?_, ?_, ?_, changedRecord_good (calibrated_length _ hcorr (arOf_length x.bg hlen))⟩
      · rw [fieldAt_changedRecord s x.bg _ (by omega) (by omega), calibrated_corr _ hcorr hi]
        exact sweepCorr_getD s x hi
      · rw [fieldAt_changedRecord s x.bg _ (by decide) (by decide), calibrated_load]
      · rw [fieldAt_changedRecord s x.bg _ (by decide) (by decide), calibrated_tick]
        exact Nat.mod_mod ..
      · rw [fieldAt_changedRecord s x.bg _ (by decide) (by decide), calibrated_count]
  case scrubbed =>
    intro n w
    obtain ⟨hzid, hfirst, hlast, hcw, hheavy, hfailed, hmis, hunrec, hw, hflags⟩ :=
      scrubReport_fields x (c.acc.getD 0 0) (scrubLast s c) (scrubFlags x c)
    refine ⟨freeLeases (scrubNoted s x) cid, scrubReport x (c.acc.getD 0 0) (scrubLast s c) (scrubFlags x c), ?_, scrubReport_length ..,
      hzid, hfirst, fun hn hle => ?_, hcw, hheavy, hfailed, hmis, hunrec, ?_, ?_, fun he => ?_,
      fun i f hi hf => scrubReport_finding _ _ _ _ hi hf, freeLeases_leases _ _, freeLeases_scrubs _ _, ?_, fun hfind => ?_⟩
    · have hends := scrubDone_ends hc hx hrows
      rw [List.length_take] at hends
      exact congrArg (fun t => ok (pump t)) hends
    · rw [hlast, scrubLast, if_neg (by omega)]
    · rw [hw, Nat.mod_eq_of_lt (by omega)]
    · rw [hflags, scrubFlags_more]
    · rw [hflags, scrubFlags_early x he]
    · rw [freeLeases_dram, scrubNoted_dram]
    · rw [← scrubNoted_find s hfind]
      simp only [rd, freeLeases_regs]

end Sys2Proof.Machine
end

