-- ==== Sys2Proof/Proofs/PoolAnswers.lean ====
section
/-! The pool manager's answers (R433 to R437, R559): a grant, a refusal and its wait, a rejected free, and the retry after a wait. -/

namespace Sys2Proof.Machine

/-! ### A quadrant's pool state -/

section
variable (s : State) (q : Nat) (f : PoolSt → PoolSt)

@[simp] theorem pool_modPool_same : pool (modPool s q f) q = f (pool s q) := tget_tmod_same ..

/-- Two changes of one quadrant's pool are one. -/
theorem modPool_modPool (g : PoolSt → PoolSt) : modPool (modPool s q f) q g = modPool s q (fun p => g (f p)) := by
  simp only [modPool, tmod, tget_tset_same, tset_tset]

/-- Whether someone wants a buffer does not depend on the pools. -/
@[simp] theorem wantsBuffer_modPool (who : BufFor) : wantsBuffer (modPool s q f) who = wantsBuffer s who := by
  cases who <;> rfl

/-- The quadrant's interface is free again. -/
def poolFreed : State := modPool s q (fun p => { p with raised := none })

theorem pool_poolFreed : pool (poolFreed s q) q = { pool s q with raised := none } := pool_modPool_same ..

@[simp] theorem wantsBuffer_poolFreed (who : BufFor) : wantsBuffer (poolFreed s q) who = wantsBuffer s who :=
  wantsBuffer_modPool ..

end

/-! ### One request raised at a time (R559) -/

section
variable {s : State} {q : Nat}

/-- A free interface takes the oldest request of the queue. -/
theorem poolRaise_next {r : PoolReq} {rest : List PoolReq} (hfree : (pool s q).raised = none) (hqueue : (pool s q).queue = r :: rest) :
    pool (poolRaise s q) q = { pool s q with raised := some r, queue := rest } := by
  simp [poolRaise, hfree, hqueue]

/-- While a request is raised no other one is. -/
theorem poolRaise_busy (h : (pool s q).raised ≠ none) : pool (poolRaise s q) q = pool s q := by
  obtain ⟨r, hr⟩ := Option.ne_none_iff_exists'.mp h
  simp [poolRaise, hr]

end

/-! ### The wait of a refused request (R436) -/

/-- `u` is `s` with a take of the quadrant among its refused requests; the wait begins with the first of them. -/
def TakeWaits (s u : State) (q : Nat) (who : BufFor) : Prop :=
  (pool u q).refused = (pool s q).refused ++ [.take who] ∧ u = { s with regs := u.regs, pools := u.pools } ∧
  ((pool s q).retryAt = none →
    (pool u q).retryAt = some (s.tick + min 6400 (100 * 2 ^ (pool s q).backoff)) ∧ (pool u q).backoff = (pool s q).backoff + 1)

section
variable (s : State) (q : Nat) (r : PoolReq)

/-- A request that waits joins the refused ones. -/
theorem poolWait_refused : (pool (poolWait s q r) q).refused = (pool s q).refused ++ [r] := by
  rw [poolWait, pool_modPool_same]
  split <;> rfl

/-- Where no wait runs, one begins, as long as the quadrant's place in the sequence says, and the place moves on. -/
theorem poolWait_begins (h : (pool s q).retryAt = none) :
    (pool (poolWait s q r) q).retryAt = some (s.tick + backoffTicks (pool s q).backoff) ∧
      (pool (poolWait s q r) q).backoff = (pool s q).backoff + 1 := by
  simp [poolWait, h]

/-- The answered take waits, whatever registers the answer wrote before (`v`). -/
theorem takeWaits_poolWait {v : State} (who : BufFor) (hpool : pool v q = { pool s q with raised := none })
    (hframe : v = { s with regs := v.regs, pools := v.pools }) : TakeWaits s (poolWait v q (.take who)) q who := by
  refine ⟨?_, ?_, fun hnone => ?_⟩
  · rw [poolWait_refused, hpool]
  · exact congrArg (fun w : State => { w with pools := (poolWait v q (.take who)).pools }) hframe
  · have hbegins := poolWait_begins v q (.take who) (by rw [hpool]; exact hnone)
    rw [hpool, congrArg State.tick hframe] at hbegins
    exact hbegins

end

/-! ### The answer to a take (R434 to R436) -/

section
variable {s : State} {q : Nat} {who : BufFor} (a : Nat)

theorem poolAnswer_take (refused : Bool) (h : (pool s q).raised = some (.take who)) :
    poolAnswer s q refused a =
      pump (poolRaise (if refused then poolRefused (poolFreed s q) q who else poolGranted (poolFreed s q) q a who) q) := by
  rw [poolAnswer, h]
  rfl

/-- A granted buffer joins the reserve that asked for it. -/
theorem poolGranted_reserve : poolGranted (poolFreed s q) q a .reserve =
    modPool s q (fun p => { p with raised := none, backoff := 0, reserve := p.reserve ++ [a], filled := p.filled + 1 }) := by
  simp only [poolGranted, poolFreed, modPool_modPool]

/-- A granted buffer goes to the flow that asked, and back to the pool where the flow wants it no more. -/
theorem poolGranted_flow (hwho : who ≠ .reserve) : poolGranted (poolFreed s q) q a who =
    if wantsBuffer s who then
      bufferFor (modPool s q (fun p => { p with raised := none, backoff := 0, pooled := p.pooled ++ [a] })) who a
    else poolAsk (modPool s q (fun p => { p with raised := none, backoff := 0 })) q (.free a) := by
  cases who with
  | reserve => exact absurd rfl hwho
  | _ => simp only [poolGranted, poolFreed, modPool_modPool, wantsBuffer_modPool]

/-- A refused fold or copy draws on the reserve (R435). -/
theorem poolRefused_draws {b : Nat} {rest : List Nat} (hw : wantsBuffer s who = true) (hreserve : (pool s q).reserve = b :: rest)
    (hdraws : drawsReserve who = true) : poolRefused (poolFreed s q) q who =
      bufferFor (modPool s q (fun p => { p with raised := none, reserve := rest, held := p.held ++ [b] })) who b := by
  cases who with
  | reserve | staging => cases hdraws
  | row | copy => simp [poolRefused, hw, hreserve, hdraws, poolFreed, modPool_modPool]

/-- Any other refused flow waits, and so does a fold or a copy that finds the reserve empty. -/
theorem poolRefused_waits (hwho : who ≠ .reserve) (hw : wantsBuffer s who = true)
    (h : (pool s q).reserve = [] ∨ drawsReserve who = false) :
    poolRefused (poolFreed s q) q who = poolWait (poolFreed s q) q (.take who) := by
  cases who with
  | reserve => exact absurd rfl hwho
  | _ =>
    cases hreserve : (pool s q).reserve with
    | nil => simp [poolRefused, hw, pool_poolFreed, hreserve]
    | cons b rest =>
      have hdraws := h.resolve_left (hreserve ▸ List.cons_ne_nil b rest)
      simp [poolRefused, hw, pool_poolFreed, hreserve, hdraws]

/-- A refusal to a flow that wants no more is of no effect. -/
theorem poolRefused_unwanted (hwho : who ≠ .reserve) (hw : wantsBuffer s who = false) :
    poolRefused (poolFreed s q) q who = poolFreed s q := by
  cases who with
  | reserve => exact absurd rfl hwho
  | _ => simp [poolRefused, hw]

/-- A reserve that cannot be filled sets POOL_SHORT and waits. -/
theorem poolRefused_reserve :
    poolRefused (poolFreed s q) q .reserve = poolWait (sticky (poolFreed s q) regDmaStatus 2) q (.take .reserve) := rfl

end

/-! ### The answer to a free (R437) -/

section
variable {s : State} {q b : Nat} (a : Nat)

theorem poolAnswer_free (refused : Bool) (h : (pool s q).raised = some (.free b)) :
    poolAnswer s q refused a =
      pump (poolRaise (if refused then freeRejected (poolFreed s q) q b else poolFreed s q) q) := by
  rw [poolAnswer, h]
  rfl

variable (s q b)

/-- A rejected free in DMA_STATUS and the free log. -/
def freeLogged : State :=
  wr (wr (wr (sticky s regDmaStatus 0) regDmaFreeLog0 b) regDmaFreeLog1 (b / 2 ^ 32)) regDmaFreeLog2 (2 ^ 31 + q * 64)

theorem freeRejected_eq : freeRejected s q b = raise (freeLogged s q b) 1000 := rfl

theorem freeLogged_status : bit (rd (freeLogged s q b) regDmaStatus) 0 = true := by
  rw [freeLogged, rd_wr_ne _ (by decide), rd_wr_ne _ (by decide), rd_wr_ne _ (by decide)]
  exact sticky_bit s _ 0 (by decide)

theorem freeLogged_log0 : rd (freeLogged s q b) regDmaFreeLog0 = b % 2 ^ 32 := by
  rw [freeLogged, rd_wr_ne _ (by decide), rd_wr_ne _ (by decide), rd_wr_same]

theorem freeLogged_log1 : rd (freeLogged s q b) regDmaFreeLog1 = b / 2 ^ 32 % 2 ^ 32 := by
  rw [freeLogged, rd_wr_ne _ (by decide), rd_wr_same]

end

/-! ### An answer to nothing, and the retry after a wait -/

section
variable {s : State} {q t : Nat}

theorem poolAnswer_unasked (refused : Bool) (a : Nat) (h : (pool s q).raised = none) : poolAnswer s q refused a = s := by
  rw [poolAnswer, h]

theorem poolRetry_due (h : (pool s q).retryAt = some t) (ht : t ≤ s.tick) :
    poolRetry s q = (pool s q).refused.foldl streamAgain (poolRaise (modPool s q (fun p =>
      { p with retryAt := none, queue := (pool s q).refused.filter isRequest ++ p.queue, refused := [] })) q) := by
  rw [poolRetry, h]
  exact if_pos ht

theorem poolRetry_early (h : (pool s q).retryAt = some t) (ht : s.tick < t) : poolRetry s q = s := by
  rw [poolRetry, h]
  exact if_neg (Nat.not_le.mpr ht)

end

/-- Settles O30. An answer frees the interface (`poolFreed`) and is then a grant, a refusal or the answer to a free; `TakeWaits` says how a
refused take waits, in the one sequence of waits of its quadrant (the model's choice, log entry 42); a draw on the reserve is R435.
Whether a flow wants a buffer, and so which case applies, is the same before and after the interface is freed (`wantsBuffer_poolFreed`). -/
theorem poolRequestsWaitAndRetry : Obligations.PoolRequestsWaitAndRetry := by
  unfold Obligations.PoolRequestsWaitAndRetry
  intro s q a p taken free waits
  have answers {refused : Bool} {u : State} (h : poolAnswer s q refused a.toNat = pump (poolRaise u q)) :
      exec (.bufferPoolResponse q refused a) s = .next (pump (poolRaise u q)) := congrArg ok h
  refine ⟨fun h => ⟨answers ?granted, ?short⟩, fun who hwho h => ⟨fun hw => ⟨answers ?wanted, fun b rest hr hd => answers ?draws, ?waits⟩,
    fun hw => ⟨answers ?unwanted, answers ?forgotten⟩⟩, fun b h => ⟨answers ?freed, ?rejected⟩, ?unasked,
    fun t h => ⟨fun ht => congrArg ok (poolRetry_due h ht), fun ht => congrArg ok (poolRetry_early h ht)⟩, ?next, poolRaise_busy⟩
  case granted => rw [poolAnswer_take _ _ h, if_neg (by decide), poolGranted_reserve]
  case short =>
    have hpool : pool (sticky (poolFreed s q) regDmaStatus 2) q = { p with raised := none } := pool_poolFreed s q
    exact ⟨poolWait (sticky (poolFreed s q) regDmaStatus 2) q (.take .reserve),
      answers (by rw [poolAnswer_take _ _ h, if_pos rfl, poolRefused_reserve]), sticky_bit (poolFreed s q) regDmaStatus 2 (by decide),
      takeWaits_poolWait s q _ hpool rfl⟩
  case wanted => rw [poolAnswer_take _ _ h, if_neg (by decide), poolGranted_flow _ hwho, if_pos hw]
  case draws => rw [poolAnswer_take _ _ h, if_pos rfl, poolRefused_draws hw hr hd]
  case waits =>
    exact fun hnone => ⟨poolWait (poolFreed s q) q (.take who),
      answers (by rw [poolAnswer_take _ _ h, if_pos rfl, poolRefused_waits hwho hw hnone]),
      takeWaits_poolWait s q _ (pool_poolFreed s q) rfl⟩
  case unwanted =>
    rw [poolAnswer_take _ _ h, if_neg (by decide), poolGranted_flow _ hwho, if_neg (ne_true_of_eq_false hw)]
    simp only [taken, List.append_nil]
  case forgotten => rw [poolAnswer_take _ _ h, if_pos rfl, poolRefused_unwanted hwho hw]; rfl
  case freed => rw [poolAnswer_free _ _ h, if_neg (by decide)]; rfl
  case rejected =>
    exact ⟨freeLogged (poolFreed s q) q b, answers (by rw [poolAnswer_free _ _ h, if_pos rfl, freeRejected_eq]),
      freeLogged_status .., freeLogged_log0 .., freeLogged_log1 ..⟩
  case unasked => exact fun h => congrArg ok (poolAnswer_unasked true _ h)
  case next =>
    intro r rest hfree hqueue
    rw [poolRaise_next hfree hqueue]
    exact ⟨rfl, rfl⟩

end Sys2Proof.Machine
end

