-- ==== Sys2Proof/Proofs/Microwords.lean ====
section
/-! Microwords as they are written and read (R474): each field of a written microword reads back, so that a microword decodes to the
operation that it was written for, and a word with an undefined code is a TRAP. -/

namespace Sys2Proof.Machine

/-! ### The fields of a written microword -/

section
variable {op rest : Nat} (safe : Bool) (hop : op < 16) (hr : rest < 2 ^ 27)
include hop hr

theorem microword_toNat : (microword safe op rest).toNat = 2 ^ 27 * ((if safe then 16 else 0) + op) + rest := by
  unfold microword
  rw [BitVec.toNat_ofNat]
  cases safe <;> simp <;> omega

theorem microword_safe : (microword safe op rest).getLsbD 31 = safe := by
  rw [BitVec.getLsbD, microword_toNat safe hop hr, Nat.testBit, Nat.shiftRight_eq_div_pow]
  cases safe <;> simp <;> omega

theorem microword_op (h : 0 < 16) : (uwField (microword safe op rest) 27 16 h).val = op := by
  simp only [uwField, microword_toNat safe hop hr]
  cases safe <;> simp <;> omega

/-- The flag above the operands: the upper half of LDI, a store, a return. -/
theorem microword_top : (microword safe op rest).getLsbD 26 = decide (2 ^ 26 ≤ rest) := by
  rw [BitVec.getLsbD, microword_toNat safe hop hr, Nat.testBit_two_pow_mul_add _ hr, if_pos (by decide), Nat.testBit,
    Nat.shiftRight_eq_div_pow, Nat.one_and_eq_mod_two, Bool.eq_iff_iff]
  simp only [bne_iff_ne, decide_eq_true_eq]
  omega

/-- A number below OP is read from the operands. -/
theorem uwField_microword {lo n : Nat} (h : 0 < n) (hn : 2 ^ 27 % (2 ^ lo * n) = 0) :
    uwField (microword safe op rest) lo n h = ⟨rest / 2 ^ lo % n, Nat.mod_lt _ h⟩ := by
  obtain ⟨q, hq⟩ := Nat.dvd_of_mod_eq_zero hn
  apply Fin.ext
  show (microword safe op rest).toNat / 2 ^ lo % n = rest / 2 ^ lo % n
  rw [microword_toNat safe hop hr, hq, Nat.mul_assoc, Nat.mul_assoc, Nat.mul_add_div (Nat.two_pow_pos lo), Nat.mul_add_mod]

/-- The low bits are read from the operands. -/
theorem extractLsb'_microword {k : Nat} (hk : k ≤ 27) : (microword safe op rest).extractLsb' 0 k = BitVec.ofNat k rest := by
  obtain ⟨q, hq⟩ := Nat.pow_dvd_pow 2 hk
  apply BitVec.eq_of_toNat_eq
  rw [BitVec.extractLsb'_toNat, microword_toNat safe hop hr, Nat.shiftRight_zero, hq, Nat.mul_assoc, Nat.mul_add_mod,
    BitVec.toNat_ofNat]

end

/-! ### Reading back, by OP -/

section
variable (e : Sys2Proof.Engine) (safe : Bool)

theorem decodeMicroword_alu (fn d a b : Fin 16) :
    decodeMicroword e (microword safe 1 (aluBits fn d a b)) = decodeAlu e safe fn d a b := by
  unfold aluBits
  simp (disch := omega) only [decodeMicroword, microword_op, microword_safe, uwField_microword]
  congr 1 <;> apply Fin.ext <;> dsimp only <;> omega

theorem decodeMicroword_ldi (h : Bool) (d : Fin 16) (imm : BitVec 16) :
    decodeMicroword e (microword safe 2 ((if h then 2 ^ 26 else 0) + d.val * 2 ^ 19 + imm.toNat)) = .ldi e safe h d imm := by
  have hr : (if h then 2 ^ 26 else 0) + d.val * 2 ^ 19 + imm.toNat < 2 ^ 27 := by split <;> omega
  simp (disch := omega) only [decodeMicroword, microword_op, microword_safe, microword_top, uwField_microword, extractLsb'_microword]
  cases h <;> simp [Fin.ext_iff, BitVec.toNat_eq] <;> omega

theorem decodeMicroword_load (r b : Fin 16) (o : BitVec 14) :
    decodeMicroword e (microword safe 3 (r.val * 2 ^ 19 + b.val * 2 ^ 15 + o.toNat)) = .memLoad e safe r b o false := by
  simp (disch := omega) only [decodeMicroword, microword_op, microword_safe, microword_top, uwField_microword, extractLsb'_microword]
  rw [if_neg (by simp; omega)]
  simp [Fin.ext_iff, BitVec.toNat_eq]; omega

theorem decodeMicroword_store (r b : Fin 16) (o : BitVec 14) :
    decodeMicroword e (microword safe 3 (2 ^ 26 + r.val * 2 ^ 19 + b.val * 2 ^ 15 + o.toNat)) = .memStore e safe r b o := by
  simp (disch := omega) only [decodeMicroword, microword_op, microword_safe, microword_top, uwField_microword, extractLsb'_microword]
  rw [if_pos (by simp; omega)]
  simp [Fin.ext_iff, BitVec.toNat_eq]; omega

theorem decodeMicroword_br (c : Fin 16) (t : BitVec 14) :
    decodeMicroword e (microword safe 4 (c.val * 2 ^ 23 + t.toNat)) = .br e safe c t := by
  simp (disch := omega) only [decodeMicroword, microword_op, microword_safe, uwField_microword, extractLsb'_microword]
  simp [Fin.ext_iff, BitVec.toNat_eq]; omega

theorem decodeMicroword_call (t : BitVec 14) : decodeMicroword e (microword safe 5 t.toNat) = .call e safe t := by
  simp (disch := omega) only [decodeMicroword, microword_op, microword_safe, microword_top, extractLsb'_microword]
  rw [if_neg (by simp; omega), BitVec.ofNat_toNat, BitVec.setWidth_eq]

theorem decodeMicroword_ret (t : BitVec 14) : decodeMicroword e (microword safe 5 (2 ^ 26 + t.toNat)) = .ret e safe t := by
  simp (disch := omega) only [decodeMicroword, microword_op, microword_safe, microword_top, extractLsb'_microword]
  rw [if_pos (by simp)]
  simp [BitVec.toNat_eq]; omega

theorem decodeMicroword_port (p : Fin 64) (a b : Fin 16) (c : BitVec 13) :
    decodeMicroword e (microword safe 6 (p.val * 2 ^ 21 + a.val * 2 ^ 17 + b.val * 2 ^ 13 + c.toNat)) = .port e safe p a b c := by
  simp (disch := omega) only [decodeMicroword, microword_op, microword_safe, uwField_microword, extractLsb'_microword]
  simp [Fin.ext_iff, BitVec.toNat_eq]; omega

theorem decodeMicroword_wait (p : Fin 64) (t : Fin 16) :
    decodeMicroword e (microword safe 7 (p.val * 2 ^ 21 + t.val * 2 ^ 17)) = .wait e safe p t := by
  simp (disch := omega) only [decodeMicroword, microword_op, microword_safe, uwField_microword]
  simp [Fin.ext_iff]; omega

theorem decodeMicroword_disp (r : Fin 16) : decodeMicroword e (microword safe 8 (r.val * 2 ^ 19)) = .disp e safe r false := by
  simp (disch := omega) only [decodeMicroword, microword_op, microword_safe, uwField_microword]
  simp [Fin.ext_iff]

end

/-- Settles O4, by OP: the word of an operation is `microword` of its operands, whose fields read back (`uwField_microword`,
`extractLsb'_microword`). -/
theorem microwordReadsBackAsWritten : Obligations.MicrowordReadsBackAsWritten := by
  unfold Obligations.MicrowordReadsBackAsWritten
  refine fun e safe => ⟨?_, fun d a b => ?_, fun h d imm => ?_, fun r b o => ?_, fun c t => ?_, fun p a b c => ?_, fun p t => ?_⟩
  · simp (disch := omega) only [List.forall_mem_cons, encodeMicroword, Option.map_some, decodeMicroword, microword_op, microword_safe]
    simp
  · have alu (fn : Fin 16) := congrArg some (decodeMicroword_alu e safe fn d a b)
    simp only [List.forall_mem_cons]
    exact ⟨alu 0, alu 1, alu 2, alu 3, alu 4, alu 5, alu 6, alu 7, alu 8, alu 9, nofun⟩
  · exact congrArg some (decodeMicroword_ldi e safe h d imm)
  · simp only [List.forall_mem_cons]
    exact ⟨congrArg some (decodeMicroword_load e safe r b o), congrArg some (decodeMicroword_store e safe r b o), nofun⟩
  · simp only [List.forall_mem_cons]
    exact ⟨congrArg some (decodeMicroword_br e safe c t), congrArg some (decodeMicroword_call e safe t),
      congrArg some (decodeMicroword_ret e safe t), nofun⟩
  · exact congrArg some (decodeMicroword_port e safe p a b c)
  · simp only [List.forall_mem_cons]
    exact ⟨congrArg some (decodeMicroword_wait e safe p t), congrArg some (decodeMicroword_disp e safe t), nofun⟩

/-! ### Undefined codes (R474, R480) -/

theorem uwField_op (w : BitVec 32) (h : 0 < 16) : (uwField w 27 16 h).val = (w.extractLsb' 27 4).toNat := by
  rw [BitVec.extractLsb'_toNat, Nat.shiftRight_eq_div_pow]; rfl

theorem decodeMicroword_undefined (e : Sys2Proof.Engine) (w : BitVec 32)
    (h : 10 ≤ (w.extractLsb' 27 4).toNat ∨ (w.extractLsb' 27 4).toNat = 0) : decodeMicroword e w = .trap e (w.getLsbD 31) := by
  unfold decodeMicroword
  simp only [uwField_op]
  obtain h | h := h
  · obtain ⟨m, hm⟩ := Nat.exists_eq_add_of_le' h
    rw [hm]; rfl
  · rw [h]; rfl

theorem decodeAlu_undefined (e : Sys2Proof.Engine) (safe : Bool) (fn d a b : Fin 16) (h : 10 ≤ fn.val) :
    decodeAlu e safe fn d a b = .trap e safe := by
  obtain ⟨m, hm⟩ := Nat.exists_eq_add_of_le' h
  rw [decodeAlu, hm]; rfl

theorem decodeMicroword_aluOp (e : Sys2Proof.Engine) (w : BitVec 32) (h : w.extractLsb' 27 4 = 1) :
    ∃ fn d a b : Fin 16, fn.val = (w.extractLsb' 23 4).toNat ∧ decodeMicroword e w = decodeAlu e (w.getLsbD 31) fn d a b := by
  refine ⟨uwField w 23 16 (by decide), uwField w 19 16 (by decide), uwField w 15 16 (by decide), uwField w 11 16 (by decide), ?_, ?_⟩
  · rw [BitVec.extractLsb'_toNat, Nat.shiftRight_eq_div_pow]; rfl
  · unfold decodeMicroword
    simp only [uwField_op, h]
    rfl

/-- Settles O5: a word whose OP has no meaning is a TRAP (`decodeMicroword_undefined`), as is one of the ALU whose FN has none
(`decodeAlu_undefined`); the words written out are evaluated. -/
theorem illegalMicrowordsAreTraps : Obligations.IllegalMicrowordsAreTraps := by
  unfold Obligations.IllegalMicrowordsAreTraps
  refine ⟨fun e w h => ?_, fun e => ⟨rfl, rfl, rfl, rfl, rfl, rfl, rfl, rfl, rfl, rfl⟩⟩
  obtain hop | hop | ⟨hop, hfn⟩ := h
  · exact decodeMicroword_undefined e w (.inl hop)
  · exact decodeMicroword_undefined e w (.inr (by rw [hop]; rfl))
  · obtain ⟨fn, d, a, b, hv, hd⟩ := decodeMicroword_aluOp e w hop
    rw [hd, decodeAlu_undefined _ _ _ _ _ _ (hv ▸ hfn)]

end Sys2Proof.Machine
end

