-- ==== Sys2Proof/Proofs/MicrowordEffects.lean ====
section
/-! What a microword does to its engine (R474 to R479): the ALU with its flags, LDI, MEM, the jumps, ports and waits, and the end of an
item. -/

namespace Sys2Proof.Machine

/-! ### Results and flags of the ALU (R268, R474) -/

/-- The byte of a word in a lane. -/
theorem bits_lane (w : Word) (i : Nat) : bits w.toNat (8 * i + 7) (8 * i) = (w.extractLsb' (8 * i) 8).toNat := by
  rw [BitVec.extractLsb'_toNat, bits, show 8 * i + 7 + 1 - 8 * i = 8 by omega]

theorem sum_map_range_four (g : Nat → Nat) : ((List.range 4).map g).sum = g 0 + g 1 + g 2 + g 3 := by
  simp [List.range_succ, Nat.add_assoc]

/-- Four bytes as one word, lane by lane. -/
theorem extractLsb'_fourBytes {f : Nat → Nat} (hf : ∀ i, f i < 256) {i : Nat} (hi : i < 4) :
    ((w32 (((List.range 4).map (fun i => f i * 2 ^ (8 * i))).sum)).extractLsb' (8 * i) 8).toNat = f i := by
  have h0 := hf 0
  have h1 := hf 1
  have h2 := hf 2
  have h3 := hf 3
  rw [sum_map_range_four, BitVec.extractLsb'_toNat, w32, BitVec.toNat_ofNat, Nat.shiftRight_eq_div_pow]
  obtain rfl | rfl | rfl | rfl : i = 0 ∨ i = 1 ∨ i = 2 ∨ i = 3 := by omega
  · omega
  · omega
  · omega
  · omega

/-- GFMUL multiplies lane by lane (R268). -/
theorem gfmulWord_lane (a b : Word) {i : Nat} (hi : i < 4) : ((gfmulWord a b).extractLsb' (8 * i) 8).toNat =
    gfmul 0x1D (a.extractLsb' (8 * i) 8).toNat (b.extractLsb' (8 * i) 8).toNat := by
  rw [← bits_lane a, ← bits_lane b]
  exact extractLsb'_fourBytes (f := fun i => gmul (bits a.toNat (8 * i + 7) (8 * i)) (bits b.toNat (8 * i + 7) (8 * i)))
    (fun i => gmul_lt _ _) hi

section
variable {s : State} {e : Nat} {safe : Bool}

theorem greg_counted (i : Nat) : greg (eng (counted s e safe) e) i = greg (eng s e) i := by rw [counted_eng]; rfl

/-- The flags take a result: C is the carry where one is given, and whatever it is, nothing else differs but the count of free values. -/
theorem setFlags_eq (s : State) (e : Nat) (r : Word) (carry : Option Bool) : ∃ c n, (∀ b, carry = some b → c = b) ∧
    setFlags s e r carry = modEng { s with free := n } e (fun en => { en with z := decide (r = 0), n := r.getLsbD 31, c := c }) := by
  cases carry with
  | none => exact ⟨_, s.free + 1, nofun, rfl⟩
  | some b => exact ⟨b, s.free, fun _ h => Option.some.inj h, rfl⟩

theorem aluEffect_alu (dst : Option Nat) (a b : Nat) (fn : Word → Word → Word) (carry : Word → Word → Option Bool)
    (h : MicroReady s e) : AluEffect (ok (alu s e safe dst a b fn carry)) s e safe dst (fn (greg (eng s e) a) (greg (eng s e) b))
      (carry (greg (eng s e) a) (greg (eng s e) b)) := by
  unfold alu
  rw [micro_of_ready safe _ h]
  dsimp only
  rw [greg_counted, greg_counted]
  obtain ⟨c, n, hc, hf⟩ := setFlags_eq (counted s e safe) e (fn (greg (eng s e) a) (greg (eng s e) b))
    (carry (greg (eng s e) a) (greg (eng s e) b))
  rw [hf]
  refine ⟨c, hc, _, rfl, ?_, onlyEngine_modEng _ (onlyEngine_modEng _ (onlyEngine_free (onlyEngine_counted s e safe)))⟩
  have hen : eng { counted s e safe with free := n } e = stepped (eng s e) safe := counted_eng s e safe
  rw [eng_modEng_same, eng_modEng_same, hen]
  cases dst <;> rfl

/-- A shift by less than 32; by 32 or more its result is a free value (log entry 10). -/
theorem aluEffect_shift (dst a b : Nat) (fn : Word → Nat → Word) (h : MicroReady s e) :
    ∃ r, ((greg (eng s e) b).toNat < 32 → r = fn (greg (eng s e) a) (greg (eng s e) b).toNat) ∧
      AluEffect (ok (shift s e safe dst a b fn)) s e safe (some dst) r none := by
  unfold shift
  by_cases hn : (greg (eng s e) b).toNat < 32
  · rw [if_pos hn]
    exact ⟨_, fun _ => rfl, aluEffect_alu _ _ _ _ _ h⟩
  · rw [if_neg hn]
    obtain ⟨c, hc, t, ht, hen, honly⟩ := aluEffect_alu (s := (freeVal s).2) (safe := safe) (some dst) a b
      (fun _ _ => w32 (freeVal s).1) noCarry h
    exact ⟨w32 (freeVal s).1, fun g => absurd g hn, c, hc, t, ht, hen, onlyEngine_of_free honly⟩

end

/-! ### LDI -/

/-- The first bit of the half that an LDI loads. -/
def ldiFrom (high : Bool) : Nat := if high then 16 else 0

theorem ldiWord_testBit (old : Word) (high : Bool) (imm : BitVec 16) {i : Nat} (hi : i < 32) :
    (ldiWord old high imm.toNat).toNat.testBit i =
      if ldiFrom high ≤ i ∧ i ≤ ldiFrom high + 15 then imm.toNat.testBit (i - ldiFrom high) else old.toNat.testBit i := by
  have hw : ldiWord old high imm.toNat = w32 (putBits old.toNat (ldiFrom high + 15) (ldiFrom high) imm.toNat) := by cases high <;> rfl
  rw [hw, w32, BitVec.toNat_ofNat, Nat.testBit_mod_two_pow, putBits_testBit _ _ _ _ _ (Nat.le_add_right _ _)]
  simp only [hi, decide_true, Bool.true_and]

theorem ldiWord_loaded (old : Word) (high : Bool) (imm : BitVec 16) :
    (ldiWord old high imm.toNat).extractLsb' (ldiFrom high) 16 = imm := by
  apply BitVec.eq_of_getLsbD_eq
  intro i hi
  rw [BitVec.getLsbD_extractLsb', BitVec.getLsbD, ldiWord_testBit _ _ _ (by unfold ldiFrom; split <;> omega), if_pos (by omega),
    Nat.add_sub_cancel_left]
  simp [hi]; rfl

theorem ldiWord_kept (old : Word) (high : Bool) (imm : BitVec 16) :
    (ldiWord old high imm.toNat).extractLsb' (ldiFrom !high) 16 = old.extractLsb' (ldiFrom !high) 16 := by
  apply BitVec.eq_of_getLsbD_eq
  intro i hi
  rw [BitVec.getLsbD_extractLsb', BitVec.getLsbD_extractLsb', BitVec.getLsbD, ldiWord_testBit _ _ _ (by unfold ldiFrom; split <;> omega),
    if_neg (by cases high <;> simp [ldiFrom] <;> omega)]
  rfl

/-! ### The ALU and LDI -/

/-- Settles O6: an ALU microword by `aluEffect_alu`, a shift by `aluEffect_shift`, GFMUL lane by lane (`gfmulWord_lane`), and LDI by the
half that it loads (`ldiWord_loaded`) and the one that it leaves (`ldiWord_kept`). -/
theorem aluMicrowordsComputeTheirResults : Obligations.AluMicrowordsComputeTheirResults := by
  unfold Obligations.AluMicrowordsComputeTheirResults
  refine ⟨fun s e safe d a b h => ?_, fun s e safe d a b h => ?_, fun s e safe high d imm h => ?_⟩
  · exact ⟨aluEffect_alu _ _ _ _ _ h, aluEffect_alu _ _ _ _ _ h, aluEffect_alu _ _ _ _ _ h, aluEffect_alu _ _ _ _ _ h,
      aluEffect_alu _ _ _ _ _ h, aluEffect_shift _ _ _ _ h, aluEffect_shift _ _ _ _ h, aluEffect_alu _ _ _ _ _ h,
      aluEffect_alu _ _ _ _ _ h⟩
  · exact ⟨_, fun i hi => gfmulWord_lane _ _ hi, aluEffect_alu _ _ _ _ _ h⟩
  · refine ⟨ldiWord (greg (eng s e) d) high imm.toNat, ldiWord_loaded _ _ _, ?_, engineBecomes_micro h⟩
    cases high
    · exact ldiWord_kept _ _ _
    · exact ldiWord_kept _ _ _

/-! ### Microwords that move, jump, wait or end (R474 to R479) -/

section
variable {s : State} {e : Nat} {safe : Bool} (h : MicroReady s e)
include h

/-- A ready microword whose meaning, from the state with its step counted, changes only its engine. -/
theorem engineBecomes_of_counted {f : State → State} {g : EngineSt → EngineSt}
    (hf : f (counted s e safe) = modEng (counted s e safe) e g) :
    EngineBecomes (ok (micro s e safe f)) s e (g (stepped (eng s e) safe)) := by
  rw [micro_of_ready _ _ h, hf]
  exact ⟨_, rfl, by rw [eng_modEng_same, counted_eng], onlyEngine_modEng _ (onlyEngine_counted _ _ _)⟩

theorem microReady_hook : (eng s e).hook = none := by
  obtain ⟨-, -, -, hh, -⟩ := h
  exact hh

theorem counted_hook : (eng (counted s e safe) e).hook = none := by
  rw [counted_eng]; exact microReady_hook h

end

/-- The conditions of a BR that are legal. -/
theorem brCond_legal {en : EngineSt} {c : Nat} {take : Bool}
    (h : (c, take) ∈ [(0, true), (1, en.z), (2, !en.z), (3, en.c), (4, !en.c), (5, en.n)]) : brCond en c = some take := by
  simp only [List.mem_cons, List.not_mem_nil, or_false, Prod.mk.injEq] at h
  obtain ⟨rfl, rfl⟩ | ⟨rfl, rfl⟩ | ⟨rfl, rfl⟩ | ⟨rfl, rfl⟩ | ⟨rfl, rfl⟩ | ⟨rfl, rfl⟩ := h <;> rfl

/-- A jump through a valid entry that is no hook's. -/
theorem dispatch_valid {t : State} {e i : Nat} (skip : State → State) (hv : bit (dispEntry t e i) 15 = true) (hi : i < 0xC0) :
    dispatch t e i skip = modEng t e (fun en => { en with pc := dispEntry t e i % 2 ^ 14 }) := by
  unfold dispatch
  simp [hv, show ¬ 0xC0 ≤ i by omega]

section
variable {s : State} {e : Sys2Proof.Engine} (safe : Bool) (h : MicroReady s e)
include h

theorem memLoad_becomes (r b : Fin 16) (o : BitVec 14) : EngineBecomes (exec (.memLoad e safe r b o false) s) s e
    { stepped (eng s e) safe with
      g := wput (eng s e).g r (tget (eng s e).locals (localIdx (eng s e) b o.toNat) 0), pc := nextPc (eng s e) } :=
  engineBecomes_of_counted h (g := fun en => pcNext (setG en r (tget en.locals (localIdx (eng s e) b o.toNat) 0)))
    (by simp only [counted_eng, Bool.false_eq_true, if_false]; rfl)

theorem br_becomes (c : Fin 16) (t : BitVec 14) {take : Bool} (hc : brCond (eng s e) c = some take) :
    EngineBecomes (exec (.br e safe c t) s) s e { stepped (eng s e) safe with pc := if take then t.toNat else nextPc (eng s e) } := by
  have hc' : brCond (eng (counted s e safe) e) c = some take := by rw [counted_eng]; exact hc
  cases take
  · exact engineBecomes_of_counted h (g := pcNext) (by simp only [hc'])
  · exact engineBecomes_of_counted h (g := fun en => { en with pc := t.toNat }) (by simp only [hc'])

theorem call_becomes (t : BitVec 14) (hs : (eng s e).stack.length < 8) : EngineBecomes (exec (.call e safe t) s) s e
    { stepped (eng s e) safe with stack := nextPc (eng s e) :: (eng s e).stack, pc := t.toNat } := by
  have hs' : ¬ 8 ≤ (eng (counted s e safe) e).stack.length := by rw [counted_eng]; exact Nat.not_le.mpr hs
  exact engineBecomes_of_counted h (g := fun en => { en with stack := (en.pc + 1) % 2 ^ 14 :: en.stack, pc := t.toNat })
    (by simp only [hs', if_false])

theorem ret_becomes (t : BitVec 14) {a : Nat} {rest : List Nat} (hs : (eng s e).stack = a :: rest) :
    EngineBecomes (exec (.ret e safe t) s) s e { stepped (eng s e) safe with stack := rest, pc := a } := by
  have hs' : (eng (counted s e safe) e).stack = a :: rest := by rw [counted_eng]; exact hs
  exact engineBecomes_of_counted h (g := fun en => { en with stack := rest, pc := a }) (by simp only [hs'])

theorem disp_becomes (r : Fin 16) (hv : bit (dispEntry s e ((greg (eng s e) r).toNat % 256)) 15 = true)
    (hi : (greg (eng s e) r).toNat % 256 < 0xC0) : EngineBecomes (exec (.disp e safe r false) s) s e
      { stepped (eng s e) safe with pc := dispEntry s e ((greg (eng s e) r).toNat % 256) % 2 ^ 14 } :=
  engineBecomes_of_counted h (g := fun en => { en with pc := dispEntry s e ((greg (eng s e) r).toNat % 256) % 2 ^ 14 })
    (by simp only [greg_counted, Bool.false_eq_true, if_false]; exact dispatch_valid _ hv hi)

theorem port_becomes (p : Fin 64) (a b : Fin 16) (c : BitVec 13) (hp : Config.enginePort (engKind e) p = true) :
    EngineBecomes (exec (.port e safe p a b c) s) s e
      { stepped (eng s e) safe with
        req := tset (eng s e).req p (a.val, greg (eng s e) a, greg (eng s e) b, c.toNat), pc := nextPc (eng s e) } :=
  engineBecomes_of_counted h
    (g := fun en => pcNext { en with req := tset en.req p (a.val, greg (eng s e) a, greg (eng s e) b, c.toNat) })
    (by simp [counted_hook h, hp, greg_counted])

theorem port_refused (p : Fin 64) (a b : Fin 16) (c : BitVec 13) (hp : ¬ Config.enginePort (engKind e) p = true) :
    exec (.port e safe p a b c) s = .next (machineCheck (counted s e safe) e 4) := by
  refine congrArg ok ((micro_of_ready safe _ h).trans ?_)
  simp [counted_hook h, hp]

theorem waitTicks_becomes (t : Fin 16) : EngineBecomes (exec (.wait e safe 63 t) s) s e
    { stepped (eng s e) true with wait := some { port := 63, reg := 0, until_ := some (s.tick + (greg (eng s e) t).toNat) } } := by
  show EngineBecomes (execWait e safe 63 t s) s e _
  rw [execWait, Bool.or_true]
  exact engineBecomes_of_counted h
    (g := fun en => { en with wait := some { port := 63, reg := 0, until_ := some (s.tick + (greg (eng s e) t).toNat) } })
    (by rw [counted_eng]; rfl)

theorem waitPort_becomes (p : Fin 64) (t : Fin 16) (hp : p ≠ 63) : EngineBecomes (exec (.wait e safe p t) s) s e
    { stepped (eng s e) true with wait := some { port := p.val, reg := ((tget? (eng s e).req p).map (fun r => r.1)).getD 0 } } := by
  have hp' : p.val ≠ 63 := fun hv => hp (Fin.ext hv)
  show EngineBecomes (execWait e safe p t s) s e _
  rw [execWait, Bool.or_true]
  exact engineBecomes_of_counted h
    (g := fun en => { en with wait := some { port := p.val, reg := ((tget? (eng s e).req p).map (fun r => r.1)).getD 0 } })
    (by rw [counted_eng]; simp only [hp', if_false]; rfl)

theorem doneIdle_becomes : EngineBecomes (exec (.done e safe none false) s) s e
    { stepped (eng s e) true with work := none, opcode := 0, stack := [], mode := 0 } := by
  show EngineBecomes (execDone e safe none false s) s e _
  rw [execDone, Bool.or_true, micro_of_ready _ _ h]
  unfold takeItem
  dsimp only
  rw [if_neg (by decide)]
  refine ⟨_, rfl, ?_, onlyEngine_modEng _ (onlyEngine_modEng _ (onlyEngine_counted _ _ _))⟩
  rw [eng_modEng_same, eng_modEng_same, counted_eng]
  simp [stepped, microReady_hook h]

theorem doneNext_becomes (op : Byte) (w : Nat) (hv : bit (dispEntry s e op.toNat) 15 = true) (hop : op.toNat < 0xC0) :
    EngineBecomes (exec (.done e safe (some (op, w)) false) s) s e
      { stepped (eng s e) true with
        work := some w, opcode := op.toNat, stack := [], mode := 1, pc := dispEntry s e op.toNat % 2 ^ 14 } := by
  show EngineBecomes (execDone e safe (some (op, w)) false s) s e _
  rw [execDone, Bool.or_true, micro_of_ready _ _ h]
  unfold takeItem
  dsimp only
  rw [if_neg (by decide), dispatch_valid (t := modEng (modEng (counted s e true) e _) e _) _ hv hop]
  refine ⟨_, rfl, ?_, onlyEngine_modEng _ (onlyEngine_modEng _ (onlyEngine_modEng _ (onlyEngine_counted _ _ _)))⟩
  rw [eng_modEng_same, eng_modEng_same, eng_modEng_same, counted_eng]
  simp [stepped, microReady_hook h]
  rfl

end

/-- An engine changed by MICROWORD_WAIT_END, where its wait ends. -/
theorem waitEnd_becomes {s : State} {e : Sys2Proof.Engine} {reply : Word} (f : EngineSt → EngineSt)
    (hf : waitEnd s e reply = modEng s e f) : EngineBecomes (exec (.microwordWaitEnd e reply) s) s e (f (eng s e)) :=
  ⟨_, congrArg ok hf, eng_modEng_same s e f, onlyEngine_modEng f (onlyEngine_refl s e)⟩

/-- Settles O7, microword by microword, each from the state with its step counted (`engineBecomes_of_counted`). -/
theorem microwordsThatMoveAndBranch : Obligations.MicrowordsThatMoveAndBranch := by
  unfold Obligations.MicrowordsThatMoveAndBranch
  refine ⟨fun s e safe r b o h => ?_, fun s e safe t h => ?_, fun s e safe h => ?_, fun s e reply w hw => ?_⟩
  · exact ⟨memLoad_becomes safe h r b o, engineBecomes_micro h⟩
  · exact ⟨fun c take hc => br_becomes safe h c t (brCond_legal hc), fun hs => call_becomes safe h t hs,
      fun a rest hs => ret_becomes safe h t hs, fun r hv hi => disp_becomes safe h r hv hi⟩
  · refine ⟨fun p a b c => ?_, waitTicks_becomes safe h, fun p t hp => waitPort_becomes safe h p t hp, doneIdle_becomes safe h,
      fun op w hv hop => doneNext_becomes safe h op w hv hop⟩
    split
    · next hp => exact port_becomes safe h p a b c hp
    · next hp => exact ⟨_, port_refused safe h p a b c hp, counted_eng s e safe, onlyEngine_counted s e safe⟩
  · refine ⟨fun hu => ?_, fun t hu hle => ?_, fun t hu hlt => ?_⟩
    · exact waitEnd_becomes (fun en => pcNext (setG { en with wait := none, req := terase en.req w.port } w.reg reply))
        (by simp only [waitEnd, hw, hu])
    · exact waitEnd_becomes (fun en => pcNext { en with wait := none }) (by simp only [waitEnd, hw, hu, hle, if_true])
    · exact congrArg ok (by simp only [waitEnd, hw, hu, Nat.not_le.mpr hlt, if_false])

end Sys2Proof.Machine
end

