-- ==== Sys2Proof/Proofs/EventRegisters.lean ====
section
/-! What the registers and timers of the event controller do (R452, R454 to R456, R470, R573): a bank of pending bits, the configuration of
a source, filters, hold-offs and TGT_SLEEP. Each leaves its own change and what settling the controller adds (`EvcKept`). -/

namespace Sys2Proof.Machine

/-! ### What settling keeps -/

section
variable (s : State) (all : Bool) (l : List Nat)

@[simp] theorem settle_pend : (settle s all l).evc.pend = s.evc.pend := by obtain ⟨h, -⟩ := settle_evcKept s all l; rw [h]

@[simp] theorem settle_lines : (settle s all l).evc.lines = s.evc.lines := by obtain ⟨h, -⟩ := settle_evcKept s all l; rw [h]

@[simp] theorem settle_holds : (settle s all l).evc.holds = s.evc.holds := by obtain ⟨h, -⟩ := settle_evcKept s all l; rw [h]

@[simp] theorem settle_sleep : (settle s all l).evc.sleep = s.evc.sleep := by obtain ⟨h, -⟩ := settle_evcKept s all l; rw [h]

@[simp] theorem settle_oldCls : (settle s all l).evc.oldCls = s.evc.oldCls := by obtain ⟨h, -⟩ := settle_evcKept s all l; rw [h]

@[simp] theorem settle_cpResp : (settle s all l).cpResp = s.cpResp := by obtain ⟨h, -⟩ := settle_evcKept s all l; rw [h]

end

/-- The controller changed, then settled: nothing outside it differs. -/
theorem onlyEvents_settle {s u : State} (hu : u = { s with evc := u.evc, cpResp := u.cpResp, cpRdata := u.cpRdata }) (all : Bool)
    (l : List Nat) : OnlyEvents s (settle u all l) := by
  have hr : u.regs = s.regs := by rw [hu]
  refine EvcKept.onlyEvents_step ?_ (fun a _ => by simp only [rd, hr]) (settle_evcKept u all l)
  rw [hr]; exact hu

/-! ### A bank of pending bits (R454) -/

section
variable (s : State) (fast : Bool) (i ones : Nat)

theorem mem_bankSources {src : Nat} : src ∈ bankSources s fast i ones ↔
    src / 32 = i ∧ ones.testBit (src % 32) = true ∧ srcUsable src = true ∧ srcFast s src = fast := by
  simp only [bankSources, List.mem_filter, List.mem_map, List.mem_range, Bool.and_eq_true, bit, beq_iff_eq, and_assoc]
  refine and_congr_left fun _ => ⟨?_, fun h => ⟨src % 32, by omega, by omega⟩⟩
  rintro ⟨j, hj, rfl⟩
  omega

theorem pendSet_isPend (src : Nat) :
    isPend (pendSet s fast i ones) src = true ↔ isPend s src = true ∨ src ∈ bankSources s fast i ones := by
  simp only [isPend, pendSet, settle_pend, foldl_tset_isSome]

theorem pendSet_onlyEvents : OnlyEvents s (pendSet s fast i ones) := by
  unfold pendSet
  exact onlyEvents_settle rfl _ _

theorem pendClear_eq : ∃ oc, pendClear s fast i ones = settle { s with evc := { s.evc with
    pend := (bankSources s fast i ones).foldl terase s.evc.pend, oldCls := oc } } false [] := by
  obtain ⟨oc, h⟩ := foldl_releaseClass_frame (bankSources s fast i ones)
    { s with evc := { s.evc with pend := (bankSources s fast i ones).foldl terase s.evc.pend } }
  exact ⟨oc, by simp only [pendClear, h]⟩

end

/-! ### The configuration of a source (R455, R470) -/

section
variable {s : State} {src v : Nat} (hu : srcUsable src = true)
include hu

/-- A write to EVC_SRC: a busy source keeps its class. -/
theorem srcWrite_eq : ∃ oc, srcWrite s src v =
      settle { wr s (regEvcSrc src) (v &&& 0xC0FFFFFF) with evc := { s.evc with oldCls := oc } } false [src] ∧
    (isPend s src = true ∨ inService s src = true → bit v 30 ≠ srcFast s src → tget? oc src = some (srcFast s src)) := by
  by_cases hb : (isPend s src || inService s src) && (bit v 30 != srcFast s src)
  · exact ⟨tset s.evc.oldCls src (srcFast s src), by simp only [srcWrite, hu, hb, if_true]; rfl, fun _ _ => tget?_tset_same _ _ _⟩
  · exact ⟨terase s.evc.oldCls src, by simp only [srcWrite, hu, hb, if_true]; rfl, fun h1 h2 => absurd (by simp [h1, h2]) hb⟩

theorem srcWrite_leaves (hs : src < 1024) (hv : v < 2 ^ 32) :
    let u := srcWrite s src v
    OnlyEvents s u ∧ u.cpResp = s.cpResp ∧ u.evc.pend = s.evc.pend ∧ rd u (regEvcSrc src) = v &&& 0xC0FFFFFF ∧
    (isPend s src = true ∨ inService s src = true → bit v 30 ≠ srcFast s src → srcFast u src = srcFast s src) := by
  obtain ⟨oc, he, hoc⟩ := srcWrite_eq (s := s) (v := v) hu
  have hlo : regEvcSrc src ≠ 0x10000 ∧ regEvcSrc src ≠ 0x10004 := by unfold regEvcSrc; omega
  obtain ⟨-, hk⟩ := settle_evcKept { wr s (regEvcSrc src) (v &&& 0xC0FFFFFF) with evc := { s.evc with oldCls := oc } } false [src]
  dsimp only
  rw [he]
  refine ⟨EvcKept.onlyEvents_step rfl (fun a ha => ?_) (settle_evcKept _ _ _), settle_cpResp _ _ _, settle_pend _ _ _, ?_,
    fun h1 h2 => ?_⟩
  · exact rd_wr_ne s (by unfold regEvcSrc; omega)
  · rw [hk _ hlo.1 hlo.2]
    refine (rd_wr_same s (regEvcSrc src) _).trans (Nat.mod_eq_of_lt (Nat.lt_of_le_of_lt Nat.and_le_left hv))
  · simp only [srcFast, settle_oldCls, hoc h1 h2]

end

/-! ### Timers and TGT_SLEEP (R452, R456, R573) -/

section
variable {s : State}

theorem filterExpiry_due {src t0 : Nat} (hl : tget? s.evc.lines src = some t0)
    (ht : t0 + max 1 (bits (srcCfg s src) 23 16) ≤ s.tick) : filterExpiry s src =
      settle { s with evc := { s.evc with lines := terase s.evc.lines src, pend := tset s.evc.pend src () } } false [src] := by
  simp only [filterExpiry, hl, due, ht, decide_true, if_true]

theorem filterExpiry_early {src t0 : Nat} (hl : tget? s.evc.lines src = some t0)
    (ht : s.tick < t0 + max 1 (bits (srcCfg s src) 23 16)) : filterExpiry s src = s := by
  simp only [filterExpiry, hl, due, Nat.not_le.mpr ht, decide_false, Bool.false_eq_true, if_false]

theorem holdoffExpiry_due {g t : Nat} (hh : tget? s.evc.holds g = some t) (ht : t ≤ s.tick) : holdoffExpiry s g =
    settle { s with evc := { s.evc with holds := terase s.evc.holds g } } false ((List.range 16).map (fun i => 16 * g + i)) := by
  simp only [holdoffExpiry, hh, ht, if_true]

end

/-- The frame and the response of an access that runs with the response cleared. -/
theorem onlyEvents_answered {s u : State} (h : OnlyEvents { s with cpResp := 0 } u) : OnlyEvents s u := by
  obtain ⟨hu, hr⟩ := h
  exact ⟨hu, hr⟩

/-- Settles O12: a bank acts on the sources of `bankSources` (`mem_bankSources`), EVC_SRC as `srcWrite_leaves` says, the timers only once
they have run their ticks; what settling the controller adds touches neither pending bits nor configurations (`settle_evcKept`). -/
theorem eventRegistersActOnTheirBank : Obligations.EventRegistersActOnTheirBank := by
  unfold Obligations.EventRegistersActOnTheirBank
  refine ⟨fun s n ones fast hp => ⟨?set, ?clear⟩, fun s src g t level v => ⟨fun t0 hl ht => ?filtered, fun t0 hl ht => ?early,
    fun t1 hh ht => ?holdoff, ?sleep, fun hp hu => ?configured, fun hp hu => ?reserved⟩⟩
  case set =>
    refine ⟨pendSet { s with cpResp := 0 } fast n ones.toNat, ?_, onlyEvents_answered (pendSet_onlyEvents _ _ _ _), settle_cpResp _ _ _,
      fun src => (pendSet_isPend _ _ _ _ src).trans (or_congr_right (mem_bankSources _ _ _ _))⟩
    cases fast <;> exact congrArg ok (cpWrite_free hp _)
  case clear =>
    obtain ⟨oc, he⟩ := pendClear_eq { s with cpResp := 0 } fast n ones.toNat
    refine ⟨pendClear { s with cpResp := 0 } fast n ones.toNat, bankSources { s with cpResp := 0 } fast n ones.toNat, ?_, ?_, ?_,
      fun src => mem_bankSources _ _ _ _, ?_⟩
    · cases fast <;> exact congrArg ok (cpWrite_free hp _)
    · rw [he]; exact onlyEvents_settle rfl _ _
    · rw [he]; exact settle_cpResp _ _ _
    · rw [he]; exact settle_pend _ _ _
  case filtered =>
    exact ⟨_, congrArg ok (filterExpiry_due hl ht), onlyEvents_settle rfl _ _, by simp [isPend], settle_lines _ _ _⟩
  case early => exact congrArg ok (filterExpiry_early hl ht)
  case holdoff =>
    exact ⟨_, congrArg ok (holdoffExpiry_due hh ht), onlyEvents_settle rfl _ _, settle_holds _ _ _, settle_pend _ _ _⟩
  case sleep => exact ⟨_, rfl, onlyEvents_settle rfl _ _, settle_pend _ _ _, settle_sleep _ _ _⟩
  case configured =>
    obtain ⟨honly, hresp, hpend, hcfg, hcls⟩ := srcWrite_leaves (s := { s with cpResp := 0 }) hu src.isLt v.isLt
    exact ⟨_, congrArg ok (cpWrite_free hp _), onlyEvents_answered honly, hresp, hpend, hcfg, hcls⟩
  case reserved =>
    refine congrArg ok ((cpWrite_free hp _).trans ?_)
    simp only [srcWrite, hu, Bool.false_eq_true, if_false]

end Sys2Proof.Machine
end

