-- ==== Sys2Proof/Proofs/TestAccess.lean ====
section
/-! The test access port (R577, R579): what each instruction selects, and that only the five that drive the flash pins depend on SCAN_EN and
the resets. -/

namespace Sys2Proof.Machine

theorem scanMayDrive_iff {s : State} : scanMayDrive s = true ↔ s.scanEn = true ∧ (s.porstN = false ∨ s.srstN = false) := by
  simp [scanMayDrive]

/-! ### The instructions that drive the flash pins (R579) -/

section
variable (s : State) (code pulse : Nat) (boundary : Bool)

theorem tapDriving_tap : tapDriving s code pulse boundary = { s with tap := (tapDriving s code pulse boundary).tap } := by
  unfold tapDriving; split <;> rfl

@[simp] theorem tapDriving_ir : (tapDriving s code pulse boundary).tap.ir = code := by unfold tapDriving; split <;> rfl

@[simp] theorem tapDriving_preload : (tapDriving s code pulse boundary).tap.preload = s.tap.preload := by
  unfold tapDriving; split <;> rfl

@[simp] theorem scanMayDrive_tapDriving : scanMayDrive (tapDriving s code pulse boundary) = scanMayDrive s := by
  rw [tapDriving_tap]; rfl

theorem tapDriving_drives (h : scanMayDrive s = true) :
    (tapDriving s code pulse boundary).tap.dr = (if boundary then s.tap.preload else [false]) ∧
    (tapDriving s code pulse boundary).tap.pulse = pulse := by
  simp [tapDriving, h]

theorem tapDriving_idle (h : scanMayDrive s = false) : (tapDriving s code pulse boundary).tap.dr = [false] := by simp [tapDriving, h]

theorem actsAsBypass_tapDriving (hc : code ∈ drivingCodes) : actsAsBypass (tapDriving s code pulse boundary) = !(scanMayDrive s) := by
  simp [actsAsBypass, hc]

theorem padCells_tapDriving : padCells (tapDriving s code pulse boundary) =
    if [0x00, 0x04, 0x08, 0x09].contains code && scanMayDrive s then some s.tap.preload else none := by
  simp [padCells]

theorem padsFloat_tapDriving : padsFloat (tapDriving s code pulse boundary) = (decide (code = 0x05) && scanMayDrive s) := by
  simp [padsFloat]

end

/-- The bypass register is selected where the boundary register is not. -/
theorem tapDriving_bypass (s : State) (code pulse : Nat) : (tapDriving s code pulse false).tap.dr = [false] := by
  unfold tapDriving; split <;> rfl

/-- EXTEST and its two forms select the boundary register (R578, R579). -/
theorem tapDriving_boundary (s : State) {code : Nat} (pulse : Nat) (hc : code ∈ [0x00, 0x08, 0x09]) :
    let t := tapDriving s code pulse true
    (scanMayDrive s = true →
      t.tap.dr = s.tap.preload ∧ t.tap.pulse = pulse ∧ actsAsBypass t = false ∧ padCells t = some s.tap.preload) ∧
    (scanMayDrive s = false → t.tap.dr = [false] ∧ actsAsBypass t = true ∧ padCells t = none) := by
  have hd : code ∈ drivingCodes := by simp only [drivingCodes, List.mem_cons] at hc ⊢; tauto
  have hp : code ∈ [0x00, 0x04, 0x08, 0x09] := by simp only [List.mem_cons] at hc ⊢; tauto
  refine ⟨fun h => ⟨(tapDriving_drives s code pulse true h).1, (tapDriving_drives s code pulse true h).2, ?_, ?_⟩,
    fun h => ⟨tapDriving_idle s code pulse true h, ?_, ?_⟩⟩
  · rw [actsAsBypass_tapDriving _ _ _ _ hd, h]; rfl
  · rw [padCells_tapDriving, h, Bool.and_true, if_pos (List.contains_iff_mem.mpr hp)]
  · rw [actsAsBypass_tapDriving _ _ _ _ hd, h]; rfl
  · rw [padCells_tapDriving, h, Bool.and_false, if_neg (by decide)]

/-- CLAMP holds the cells on the pins and HIGHZ floats them, both with the bypass register (R579). -/
theorem tapDriving_held (s : State) {code : Nat} (hc : code = 0x04 ∨ code = 0x05) :
    let t := tapDriving s code 0 false
    (scanMayDrive s = true →
      actsAsBypass t = false ∧ (padsFloat t = true ↔ code = 0x05) ∧ (padCells t = some s.tap.preload ↔ code = 0x04)) ∧
    (scanMayDrive s = false → actsAsBypass t = true ∧ padsFloat t = false ∧ padCells t = none) := by
  have hd : code ∈ drivingCodes := by obtain rfl | rfl := hc <;> decide
  refine ⟨fun h => ?_, fun h => ?_⟩
  · rw [actsAsBypass_tapDriving _ _ _ _ hd, padsFloat_tapDriving, padCells_tapDriving, h]
    obtain rfl | rfl := hc <;> simp
  · rw [actsAsBypass_tapDriving _ _ _ _ hd, padsFloat_tapDriving, padCells_tapDriving, h]
    simp

/-! ### The other instructions (R577) -/

theorem idcode_bits : (List.range 32).map (bit idcodeWord) =
    (List.range 32).map (fun i => (1 * 2 ^ 28 + 0x1D32 * 2 ^ 12 + Config.jtagMfg.toNat * 2 ^ 1 + 1).testBit i) := by
  simp only [idcodeWord, Nat.pow_one]
  rfl

/-- A code that no instruction has is BYPASS's own. -/
theorem bypass_unlisted {code : Byte} (h : code.toNat ∉ [0x00, 0x01, 0x02, 0x04, 0x05, 0x08, 0x09]) :
    drivingCodes.contains code.toNat = false ∧ [0x01, 0x02].contains code.toNat = false := by
  simp only [drivingCodes, List.contains_eq_mem, decide_eq_false_iff_not, List.mem_cons, List.not_mem_nil, or_false] at h ⊢
  tauto

/-- Settles O9: the three that select the boundary register by `tapDriving_boundary`, CLAMP and HIGHZ by `tapDriving_held`, the others by
what they leave in the port. -/
theorem tapInstructions : Obligations.TapInstructions := by
  unfold Obligations.TapInstructions
  intro s
  have hidle : ¬(s.scanEn = true ∧ (s.porstN = false ∨ s.srstN = false)) → scanMayDrive s = false := fun h =>
    Bool.eq_false_iff.mpr fun hd => h (scanMayDrive_iff.mp hd)
  refine ⟨⟨_, rfl, rfl, rfl, idcode_bits⟩, fun pins cells hp hc => ?_, fun p hp => ?_, fun p hp => ?_, fun code hcode => ?_⟩
  · exact ⟨_, rfl, rfl, rfl, List.take_of_length_le (Nat.le_of_eq hp), List.take_of_length_le (Nat.le_of_eq hc)⟩
  · have selects (code pulse : Nat) (hc : code ∈ [0x00, 0x08, 0x09]) := tapDriving_boundary s pulse hc
    simp only [List.mem_cons, List.not_mem_nil, or_false] at hp
    obtain rfl | rfl | rfl := hp <;>
      exact ⟨_, rfl, tapDriving_tap _ _ _ _, tapDriving_ir _ _ _ _, tapDriving_preload _ _ _ _,
        fun h => (selects _ _ (by decide)).1 (scanMayDrive_iff.mpr h), fun h => (selects _ _ (by decide)).2 (hidle h)⟩
  · simp only [List.mem_cons, List.not_mem_nil, or_false] at hp
    obtain rfl | rfl := hp
    · exact ⟨_, rfl, tapDriving_tap _ _ _ _, tapDriving_ir _ _ _ _, tapDriving_bypass _ _ _, tapDriving_preload _ _ _ _,
        fun h => (tapDriving_held s (.inl rfl)).1 (scanMayDrive_iff.mpr h), fun h => (tapDriving_held s (.inl rfl)).2 (hidle h)⟩
    · exact ⟨_, rfl, tapDriving_tap _ _ _ _, tapDriving_ir _ _ _ _, tapDriving_bypass _ _ _, tapDriving_preload _ _ _ _,
        fun h => (tapDriving_held s (.inr rfl)).1 (scanMayDrive_iff.mpr h), fun h => (tapDriving_held s (.inr rfl)).2 (hidle h)⟩
  · obtain ⟨hd, hl⟩ := bypass_unlisted hcode
    refine ⟨_, rfl, rfl, ?_, rfl, ?_⟩
    · simp only [hd, hl, Bool.or_self, Bool.false_eq_true, if_false]
    · simp only [actsAsBypass, hd, hl, Bool.or_self, Bool.false_eq_true, if_false, Bool.not_false]

end Sys2Proof.Machine
end

