-- ==== Sys2Proof/Proofs/Resets.lean ====
section
/-! The reset state, and what the two resets leave (R580, R583, R597): the registers that SRST_N keeps, the rest at reset values, and
requests raised handed to the gasket (R557). -/

namespace Sys2Proof.Machine

theorem rd_reset (a : Nat) : rd State.reset a = regReset a := by simp only [rd, State.reset, tget?_nil]

/-- Settles O3: every table of the reset state is empty. -/
theorem resetState : Obligations.ResetState := by
  unfold Obligations.ResetState
  refine ⟨rd_reset, rfl, rfl, rfl, reset_wf, rfl, rfl, rfl, rfl, rfl, rfl, rfl, rfl, fun r _ => ?_, fun _ => rfl, fun fast t => ?_,
    rfl, rfl, rfl, fun k => ?_, fun _ _ => rfl⟩
  · rw [ringEnabled, bit, cget_testBit _ _ _ _ _ Nat.one_pos]
    simp [State.reset, tget]
  · cases fast <;> rfl
  · show traceLevel {} = 0
    decide

/-! ### What a reset hands to the gasket -/

theorem resetBase_ports {s : State} {p : Nat × PortSt} (hp : p ∈ (resetBase s).ports) :
    ∃ q ∈ s.ports, p.2.gasket = q.2.gasket ++ q.2.out ∧ p.2.out = [] ∧ p.2.waiting = [] := by
  obtain ⟨q, hq, rfl⟩ := List.mem_map.mp hp
  exact ⟨q, hq, rfl, rfl, rfl⟩

/-! ### The registers that SRST_N keeps (R597) -/

/-- A table kept to some of its numbers. -/
theorem tget?_filter {α : Type} (m : List (Nat × α)) (keep : Nat → Bool) (k : Nat) :
    tget? (m.filter (fun p => keep p.1)) k = if keep k then tget? m k else none := by
  induction m with
  | nil => simp
  | cons p r ih =>
    obtain ⟨a, x⟩ := p
    by_cases h : a = k
    · subst h
      cases ha : keep a <;> simp [ha, tget?, ih]
    · cases ha : keep a <;> simp [ha, tget?, ih, h]

theorem srstFall_rd (s : State) (a : Nat) : rd (srstFall s) a =
    if a = regBootState then 2 ^ 27 else if keptRegs.contains a then rd s a else regReset a := by
  simp only [rd, srstFall, tget?_tset, tget?_filter s.regs keptRegs.contains]
  by_cases h : a = regBootState
  · simp [h]; rfl
  · cases hk : keptRegs.contains a <;> simp [h]

/-- Settles O25: what both falls leave is what `resetBase` keeps; SRST_N keeps registers as `srstFall_rd` says. -/
theorem resetsLeaveWhatTheTableSays : Obligations.ResetsLeaveWhatTheTableSays := by
  unfold Obligations.ResetsLeaveWhatTheTableSays
  intro s
  have hports (p : Nat × PortSt) (hp : p ∈ (resetBase s).ports) := resetBase_ports hp
  refine ⟨⟨porstFall s, rfl, ?porst, rfl, rfl, rfl, rfl, rfl, rfl, rfl⟩, ⟨srstFall s, rfl, ?srst, rfl, rfl, rfl, rfl,
    fun a ha => ?kept, fun a ha => ?cleared, ?phase, fun p hp => ?retired, rfl⟩, rfl, rfl⟩
  case porst =>
    exact ⟨rfl, rfl, rfl, rfl, rfl, rfl, rfl, rfl, rfl, rfl, rfl, rfl, rfl, rfl, rfl, rfl, rfl, rfl, rfl, rfl, rfl, hports⟩
  case srst =>
    exact ⟨rfl, rfl, rfl, rfl, rfl, rfl, rfl, rfl, rfl, rfl, rfl, rfl, rfl, rfl, rfl, rfl, rfl, rfl, rfl, rfl, rfl, hports⟩
  case kept =>
    have hk : keptRegs.contains a = true := List.contains_iff_mem.mpr ha
    rw [srstFall_rd, if_neg, if_pos hk]
    rintro rfl
    exact absurd ha (by decide)
  case cleared =>
    have hk : ¬ keptRegs.contains a = true := fun hc => ha (by
      have := List.contains_iff_mem.mp hc
      simp only [keptRegs, List.mem_cons, List.not_mem_nil, or_false] at this ⊢
      tauto)
    have hb : a ≠ regBootState := fun hb => ha (by rw [hb]; simp)
    rw [srstFall_rd, if_neg hb, if_neg hk, rd_reset]
  case phase =>
    rw [phase, rdf, srstFall_rd, if_pos rfl]
    decide
  case retired =>
    obtain ⟨q, hq, rfl⟩ := List.mem_map.mp hp
    exact ⟨q, hq, rfl⟩

end Sys2Proof.Machine
end

