-- ==== Sys2Proof/Proofs/FrontCommand.lean ====
section
/-! A step takes the command at the front of the queue. -/

namespace Sys2Proof.Machine

/-- Settles O1: `step` splits on the queue, which is given. -/
theorem stepExecutesTheFrontCommand : Obligations.StepExecutesTheFrontCommand := by
  unfold Obligations.StepExecutesTheFrontCommand
  intro s c rest h
  rw [step, h]

end Sys2Proof.Machine
end

