-- ==== Sys2Proof/Proofs/ConfigSlots.lean ====
section
/-! Commits, discards and the draining slots (R477, R492, R493, R495, R500): a unit switches once, at a safe point; a commit is complete
once every unit has switched; a discard empties the next slots. -/

namespace Sys2Proof.Machine

/-! ### The discard of a staged generation (R492, R500) -/

section
variable {s : State}

theorem cfgDiscard_logged (hs : s.cfg.staged = true) (hc : s.cfg.commitCid = none) (hl : s.cfg.log.length < 4096) :
    cfgDiscard s = measExtend { s with cfg := { s.cfg with next := [], staged := false, nextGen := 0 } } 6 9 0xFF s.cfg.nextGen 4
      (sha384 (leBytes 4 s.cfg.nextGen)) := by
  unfold cfgDiscard
  rw [if_pos (by simp [hs, hc]), if_pos (by simpa [logRoom] using hl)]

theorem cfgDiscard_full (hs : s.cfg.staged = true) (hc : s.cfg.commitCid = none) (hl : 4096 ≤ s.cfg.log.length) :
    cfgDiscard s = cfgFlag s 1 := by
  unfold cfgDiscard
  rw [if_pos (by simp [hs, hc]), if_neg (by simpa [logRoom] using hl)]

theorem cfgDiscard_ignored (h : s.cfg.staged = false ∨ s.cfg.commitCid ≠ none) : cfgDiscard s = s := by
  unfold cfgDiscard
  exact if_neg (by
    rw [Bool.and_eq_true, Option.isNone_iff_eq_none]
    rintro ⟨hs, hc⟩
    exact h.elim (fun hn => by simp [hs] at hn) fun hn => hn hc)

end

/-- Settles O20: a discard is logged, or only sets LOG_FULL, or does nothing (`cfgDiscard_logged`, `cfgDiscard_full`,
`cfgDiscard_ignored`). -/
theorem discardEmptiesTheNextSlots : Obligations.DiscardEmptiesTheNextSlots := by
  unfold Obligations.DiscardEmptiesTheNextSlots
  intro s hp x
  have hexec : exec .glbCfgCmdDiscard s = .next (cfgDiscard x) := congrArg ok (cpWrite_free hp _)
  refine ⟨fun hs hc hl => ?_, fun hs hc hl => ?_, fun h => ?_⟩
  · rw [cfgDiscard_logged (s := x) hs hc hl, measExtend_logged (by exact hl)] at hexec
    exact ⟨_, _, hexec, rfl, rfl, rfl, rfl, rfl, rfl, rfl, tget_tset_same .., fun k hk => (tget_tset ..).trans (if_neg hk)⟩
  · rw [hexec, cfgDiscard_full (s := x) hs hc hl]
  · rw [hexec, cfgDiscard_ignored (s := x) h]

/-! ### A unit switches (R477, R493) -/

theorem loadRwl_cfg (s : State) (sl : Slot) : (loadRwl s sl).cfg = s.cfg := by
  unfold loadRwl
  generalize sl.rwl = l
  induction l generalizing s with
  | nil => rfl
  | cons p l ih => exact ih (wr s p.1 p.2.toNat)

theorem safePoint_switched {s : State} {u : Nat} (h : unitSwitched s u = true) : safePoint s u = s := by
  have hn : (tget? s.cfg.switched u).isNone = false := by
    rw [← Option.not_isSome, ← unitSwitched, h]; rfl
  unfold safePoint
  rw [hn, Bool.and_false, if_neg (by decide)]

theorem foldl_safePoint_switched {s : State} {l : List Nat} (h : ∀ u ∈ l, unitSwitched s u = true) : l.foldl safePoint s = s := by
  induction l with
  | nil => rfl
  | cons u l ih =>
    rw [List.foldl_cons, safePoint_switched (h u (by simp)), ih fun v hv => h v (by simp [hv])]

/-- A unit with a next slot that reaches a safe point in a commit. -/
theorem safePoint_switches {w : State} {k : Nat} {sl : Slot} (hc : w.cfg.commitCid ≠ none) (hs : tget? w.cfg.switched k = none)
    (hn : tget? w.cfg.next k = some sl) : (safePoint w k).cfg = { w.cfg with
      cur := tset w.cfg.cur k { sl with rwl := [] }, prev := tset w.cfg.prev k (curSlot w k), next := terase w.cfg.next k,
      switched := tset w.cfg.switched k () } := by
  have hsome : w.cfg.commitCid.isSome = true := Option.isSome_iff_ne_none.mpr hc
  unfold safePoint
  rw [hsome, hs, if_pos (by rfl)]
  unfold switchUnit
  by_cases hk : k < 50
  · simp only [hk, if_true, hn, loadRwl_cfg]
    rfl
  · simp only [hk, if_false, hn, loadRwl_cfg]

/-! ### CONFIG_COMMIT (R493) -/

theorem logRoom_one {s : State} : logRoom s 1 = true ↔ s.cfg.log.length < 4096 := by
  rw [logRoom, decide_eq_true_eq]; omega

section
variable {s : State} {cid : Nat} {c : Cmd} (hst : startable s cid 0x31 = some c)
include hst

theorem configCommit_conflict (h : s.cfg.staged = false ∨ s.cfg.commitCid ≠ none) :
    configCommit s cid = finish (running s cid) cid (res stConflict) := by
  refine (start_runs hst _).trans (if_pos ?_)
  show (!s.cfg.staged || s.cfg.commitCid.isSome) = true
  rw [Bool.or_eq_true, Bool.not_eq_true', Option.isSome_iff_ne_none]
  exact h

section
variable (hs : s.cfg.staged = true) (hc : s.cfg.commitCid = none)
include hs hc

/-- A commit of a staged generation: its GENERATION is checked, then the room in the log. -/
theorem configCommit_staged : configCommit s cid =
    let u := running s cid
    let w := { u with cfg := { s.cfg with commitCid := some cid, switched := [], prevGen := s.cfg.curGen } }
    if fieldAt c.pkt 0x28 4 ≠ s.cfg.nextGen then finish u cid (badField 0x28)
    else if !(logRoom s 1) then finish (cfgFlag u 1) cid (res stNoBuffer)
    else ((List.range 59).filter (atSafePoint w)).foldl safePoint w := by
  refine (start_runs hst _).trans ((if_neg ?_).trans ?_)
  · show ¬(!s.cfg.staged || s.cfg.commitCid.isSome) = true
    simp [hs, hc]
  · rw [show cP0 c % 2 ^ 32 = fieldAt c.pkt 0x28 4 from fieldAt_mod c.pkt 0x28 (m := 4) (by decide)]
    rfl

end
end

/-! ### A commit is complete (R493) -/

section
variable {s : State}

theorem commitComplete_waits {cid k : Nat} (hc : s.cfg.commitCid = some cid) (hk : k < 59) (hsw : unitSwitched s k = false)
    (hsafe : atSafePoint s k = false) : commitComplete s = s := by
  unfold commitComplete
  rw [hc]
  refine if_neg fun hall => ?_
  have := List.all_eq_true.mp hall k (List.mem_range.mpr hk)
  rw [hsw, hsafe] at this
  exact absurd this (by decide)

/-- The state in which a commit's completion is written: the new generation is current, the former one draining. -/
def committedState (s : State) : State :=
  let m := measExtend s 6 10 0xFF s.cfg.nextGen 4 (sha384 (leBytes 4 s.cfg.nextGen))
  trace { m with
    committed := true, pwr := { m.pwr with imgDirty := true },
    cfg := { m.cfg with
      curGen := s.cfg.nextGen, nextGen := 0, staged := false, draining := true, commitCid := none, switched := [], next := [] } }
    4 10 0 [s.cfg.nextGen]

theorem commitComplete_switched {cid : Nat} (hc : s.cfg.commitCid = some cid) (hall : ∀ k, k < 59 → unitSwitched s k = true) :
    commitComplete s = finish (raise (commitHooks (committedState s)) 944) cid { ra := s.cfg.nextGen, rb := 59 } := by
  have hfold : (List.range 59).foldl safePoint s = s := foldl_safePoint_switched fun u hu => hall u (List.mem_range.mp hu)
  unfold commitComplete
  rw [hc]
  dsimp only
  rw [if_pos (List.all_eq_true.mpr fun u hu => by rw [hall u (List.mem_range.mp hu)]; rfl), hfold]
  rfl

theorem committedState_cfg (hl : s.cfg.log.length < 4096) : ∃ e : LogEntry, (committedState s).cfg = { s.cfg with
      curGen := s.cfg.nextGen, nextGen := 0, staged := false, draining := true, commitCid := none, switched := [], next := [],
      meas := tset s.cfg.meas 6 (sha384 (meas s 6 ++ e.digest)), log := s.cfg.log ++ [e], logSeq := s.cfg.logSeq + 1 } ∧
    e.reg = 6 ∧ e.kind = 10 ∧ e.gen = s.cfg.nextGen := by
  unfold committedState
  generalize sha384 (leBytes 4 s.cfg.nextGen) = d
  rw [measExtend_logged hl, trace_cfg]
  exact ⟨LogEntry.mk s.cfg.logSeq 6 10 0xFF s.cfg.nextGen 4 d, rfl, rfl, rfl, rfl⟩

/-! ### The draining slots (R495) -/

theorem drainFree_frees (hd : s.cfg.draining = true) (hw : workLeft s s.cfg.prevGen = false) : drainFree s =
    raise { s with cfg := { s.cfg with draining := false, prevGen := 0, prev := [] } } 944 :=
  if_pos (by rw [hd, hw]; rfl)

theorem drainFree_waits (h : s.cfg.draining = false ∨ workLeft s s.cfg.prevGen = true) : drainFree s = s :=
  if_neg (by rcases h with h | h <;> simp [h])

end

/-- Settles O36: CONFIG_COMMIT by `configCommit_conflict` and `configCommit_staged`, the switch of a unit by `safePoint_switches`, the end
of a commit by `commitComplete_switched` and the state that it leaves (`committedState_cfg`). -/
theorem commitsSwitchEveryUnit : Obligations.CommitsSwitchEveryUnit := by
  unfold Obligations.CommitsSwitchEveryUnit
  refine ⟨fun s cid c hst => ?commit, fun w k sl hc hs hn => ?switch, fun s cid hc => ?complete, fun s => ?drain⟩
  case commit =>
    intro u o
    refine ⟨fun h => congrArg ok (configCommit_conflict hst h), fun hs hc => ?_⟩
    have runs {t : State} (ht : _ = t) : o = .next t := congrArg ok ((configCommit_staged hst hs hc).trans ht)
    refine ⟨fun hg => runs (if_pos hg), fun hg hl => ?_, fun hg hl => ?_⟩
    · refine runs ((if_neg (not_not.mpr hg)).trans (if_neg ?_))
      rw [logRoom_one.mpr hl]; decide
    · refine runs ((if_neg (not_not.mpr hg)).trans (if_pos ?_))
      rw [Bool.not_eq_true', ← Bool.not_eq_true, logRoom_one]
      exact Nat.not_lt.mpr hl
  case switch =>
    intro t
    have hcfg := safePoint_switches hc hs hn
    have hsw : unitSwitched t k = true := by
      show (tget? (safePoint w k).cfg.switched k).isSome = true
      rw [hcfg, tget?_tset_same]; rfl
    refine ⟨?_, ?_, ?_, hsw, safePoint_switched hsw, fun j hj => ⟨?_, ?_⟩⟩
    · show tget? (safePoint w k).cfg.cur k = _
      rw [hcfg]; exact tget?_tset_same ..
    · show tget? (safePoint w k).cfg.prev k = _
      rw [hcfg]; exact tget?_tset_same ..
    · show tget? (safePoint w k).cfg.next k = _
      rw [hcfg]; exact tget?_terase_same ..
    · show tget? (safePoint w k).cfg.cur j = _
      rw [hcfg]; exact tget?_tset_ne _ _ hj
    · show tget? (safePoint w k).cfg.prev j = _
      rw [hcfg]; exact tget?_tset_ne _ _ hj
  case complete =>
    refine ⟨fun hall hl => ?_, fun k hk hsw hsafe => congrArg (fun t => ok (pump t)) (commitComplete_waits hc hk hsw hsafe)⟩
    obtain ⟨e, hcfg, hreg, hkind, hgen⟩ := committedState_cfg hl
    refine ⟨committedState s, e, congrArg (fun t => ok (pump t)) (commitComplete_switched hc hall), trace_committed _ _ _ _ _, ?_, ?_, ?_,
      ?_, ?_, ?_, ?_, ?_, ?_, ?_, hreg, hkind, hgen, ?_⟩
    case refine_11 =>
      unfold meas
      rw [hcfg]; exact tget_tset_same ..
    all_goals rw [hcfg]
  case drain =>
    exact ⟨fun hc => congrArg (fun t => ok (pump t)) (by rw [commitComplete, hc]),
      fun hd hw => congrArg ok (drainFree_frees hd hw), fun h => congrArg ok (drainFree_waits h)⟩

end Sys2Proof.Machine
end

