-- ==== Sys2Proof/Proofs/ConfigStages.lean ====
section
/-! CONFIG_STAGE, CONFIG_AUDIT and MEASURE_REPORT (R488 to R491, R498 to R501, R504, R514): what refuses a stage and in what order, what it
logs, the entries of an audit, and the report of the measurements. -/

namespace Sys2Proof.Machine

/-! ### Items measured (R500, R501) -/

/-- The log has grown by `n` entries; of the rest only the measurement registers and the next sequence number may differ. -/
def LogGrown (s t : State) (n : Nat) : Prop := ∃ l m q, l.length = n ∧
  t = { s with cfg := { s.cfg with meas := m, log := s.cfg.log ++ l, logSeq := q } }

theorem LogGrown.refl (s : State) : LogGrown s s 0 := ⟨[], s.cfg.meas, s.cfg.logSeq, rfl, by rw [List.append_nil]⟩

theorem LogGrown.trans {s t u : State} {n m : Nat} (h : LogGrown s t n) (g : LogGrown t u m) : LogGrown s u (n + m) := by
  obtain ⟨l, _, _, rfl, rfl⟩ := h
  obtain ⟨k, _, _, rfl, rfl⟩ := g
  exact ⟨l ++ k, _, _, List.length_append, by rw [← List.append_assoc]⟩

theorem LogGrown.length {s t : State} {n : Nat} (h : LogGrown s t n) : t.cfg.log.length = s.cfg.log.length + n := by
  obtain ⟨l, _, _, rfl, rfl⟩ := h
  exact List.length_append

theorem measExtend_grown {s : State} (h : s.cfg.log.length < 4096) (reg kind unit gen len : Nat) (d : List Byte) :
    LogGrown s (measExtend s reg kind unit gen len d) 1 := by
  rw [measExtend_logged h]
  exact ⟨[_], _, _, rfl, rfl⟩

/-- Operations that each add their number of entries, while the log has room for all. -/
theorem foldl_grown {α : Type} {f : State → α → State} {k : α → Nat}
    (hf : ∀ (s : State) (a : α), s.cfg.log.length + k a ≤ 4096 → LogGrown s (f s a) (k a)) (l : List α) (s : State)
    (h : s.cfg.log.length + (l.map k).sum ≤ 4096) : LogGrown s (l.foldl f s) (l.map k).sum := by
  induction l generalizing s with
  | nil => exact LogGrown.refl s
  | cons a l ih =>
    rw [List.map_cons, List.sum_cons] at h ⊢
    have ha := hf s a (by omega)
    exact ha.trans (ih (f s a) (by rw [ha.length]; omega))

theorem measItems_grown {s : State} (gen : Nat) {items : List (List Byte × List Byte)}
    (h : s.cfg.log.length + measCount items ≤ 4096) : LogGrown s (measItems s gen items) (measCount items) := by
  refine foldl_grown (fun s p hp => ?_) items s h
  have one := foldl_grown (k := fun _ => 1)
    (fun s m hm => measExtend_grown (s := s) (by omega) m.1 (itKind p.1) (itUnit p.1) gen m.2.length (sha384 m.2)) (itemMeas p.1 p.2) s (by simpa using hp)
  simpa using one

/-! ### CONFIG_STAGE (R488 to R491) -/

theorem stageGeneration (c : Cmd) : cP0 c % 2 ^ 32 = fieldAt c.pkt 0x28 4 := fieldAt_mod c.pkt 0x28 (m := 4) (by decide)

theorem stageGeneration_new {s : State} {c : Cmd} (hz : fieldAt c.pkt 0x28 4 ≠ 0) (hcur : fieldAt c.pkt 0x28 4 ≠ s.cfg.curGen)
    (cid : Nat) : ¬(cP0 c % 2 ^ 32 = 0 ∨ cP0 c % 2 ^ 32 = (running s cid).cfg.curGen) := by
  rw [stageGeneration]
  exact not_or.mpr ⟨hz, hcur⟩

section
variable {s : State} {cid : Nat} {c : Cmd} {mp : PortEnd} (hst : startable s cid 0x30 = some c)
include hst

theorem configStage_badGeneration (h : fieldAt c.pkt 0x28 4 = 0 ∨ fieldAt c.pkt 0x28 4 = s.cfg.curGen) :
    configStage s cid mp = finish (running s cid) cid (badField 0x28) := by
  refine (start_runs hst _).trans (if_pos ?_)
  rw [stageGeneration]
  exact h

section
variable (hz : fieldAt c.pkt 0x28 4 ≠ 0) (hcur : fieldAt c.pkt 0x28 4 ≠ s.cfg.curGen)
include hz hcur

theorem configStage_portFailed (hmp : mp ≠ .ok) : ∃ v r, configStage s cid mp = finish v cid r ∧
    PortGaveUp (stageSpans c (readItems (running s cid) (cPtr c) (cCount c) 0)) mp (running s cid) v 0 r := by
  obtain ⟨v, r, e, hport⟩ := portEnd_gaveUp (running s cid) 0 (stageSpans c (readItems (running s cid) (cPtr c) (cCount c) 0)) mp hmp
  refine ⟨v, r, (start_runs hst _).trans ((if_neg (stageGeneration_new hz hcur cid)).trans ?_), hport⟩
  rw [e]

theorem configStage_badItem {e : Nat × Nat × Nat}
    (he : putItems (readItems (running s cid) (cPtr c) (cCount c) 0) 0 (copySlots (running s cid)) = .error e) :
    configStage s cid .ok = finish (cfgErr (running s cid) e) cid (badField 0x18) := by
  refine (start_runs hst _).trans ((if_neg (stageGeneration_new hz hcur cid)).trans ?_)
  simp only [portEnd, he]

section
variable {t : Tab Slot} (ht : putItems (readItems (running s cid) (cPtr c) (cCount c) 0) 0 (copySlots (running s cid)) = .ok t)
include ht

theorem configStage_conflict (h : s.cfg.staged = true ∨ s.cfg.commitCid ≠ none ∨ s.cfg.draining = true) :
    configStage s cid .ok = finish (running s cid) cid (res stConflict) := by
  refine (start_runs hst _).trans ((if_neg (stageGeneration_new hz hcur cid)).trans ?_)
  simp only [portEnd, ht]
  refine if_pos ?_
  show (s.cfg.staged || s.cfg.commitCid.isSome || s.cfg.draining) = true
  rw [Bool.or_eq_true, Bool.or_eq_true, Option.isSome_iff_ne_none, or_assoc]
  exact h

section
variable (hs : s.cfg.staged = false) (hc : s.cfg.commitCid = none) (hd : s.cfg.draining = false)
include hs hc hd

theorem configStage_full (hl : 4096 < s.cfg.log.length + measCount (readItems (running s cid) (cPtr c) (cCount c) 0)) :
    configStage s cid .ok = finish (cfgFlag (running s cid) 1) cid (res stNoBuffer) := by
  have hfree : ¬(s.cfg.staged || s.cfg.commitCid.isSome || s.cfg.draining) = true := by simp [hs, hc, hd]
  refine (start_runs hst _).trans ((if_neg (stageGeneration_new hz hcur cid)).trans ?_)
  simp only [portEnd, ht]
  exact (if_neg hfree).trans (if_neg fun hr => Nat.not_le.mpr hl (of_decide_eq_true hr))

/-- A stage that passes: its items are measured, and the copies with its items are the next slots. -/
theorem configStage_passes (hl : s.cfg.log.length + measCount (readItems (running s cid) (cPtr c) (cCount c) 0) ≤ 4096) :
    let m := measItems (running s cid) (fieldAt c.pkt 0x28 4) (readItems (running s cid) (cPtr c) (cCount c) 0)
    configStage s cid .ok =
      finish { m with cfg := { m.cfg with next := t, nextGen := fieldAt c.pkt 0x28 4, staged := true } } cid { ra := 59 } := by
  have hfree : ¬(s.cfg.staged || s.cfg.commitCid.isSome || s.cfg.draining) = true := by simp [hs, hc, hd]
  refine (start_runs hst _).trans ((if_neg (stageGeneration_new hz hcur cid)).trans ?_)
  simp only [portEnd, ht]
  refine (if_neg hfree).trans ((if_pos (decide_eq_true hl)).trans ?_)
  rw [stageGeneration]
  rfl

end
end
end
end

/-- What a refused item leaves: GLB_CFG_ERR with its reason, and STAGE_REFUSED (R490, R505). -/
theorem cfgErr_leaves (s : State) (e : Nat × Nat × Nat) :
    OnlyRegs s (cfgErr s e) [regGlbCfgErr, regGlbCfgStatus, regGlbCfgCount0] ∧ bit (rd (cfgErr s e) regGlbCfgStatus) 0 = true ∧
    rd (cfgErr s e) regGlbCfgErr = (2 ^ 31 + e.1 * 2 ^ 24 + e.2.1 * 2 ^ 16 + e.2.2) % 2 ^ 32 := by
  refine ⟨?_, sticky_bit _ _ _ (by decide), ?_⟩
  · exact onlyRegs_wr_mem (onlyRegs_wr_mem (onlyRegs_wr_mem ⟨rfl, fun _ _ => rfl⟩ (by simp) _) (by simp) _) (by decide) _
  · rw [cfgErr, cfgFlag, rd_sticky_ne _ (by decide) (by decide), rd_wr_same]

/-! ### CONFIG_AUDIT (R498) -/

/-- The mismatches of audit entries, recorded one after another. -/
def auditFlags (s : State) (es : List (List Byte × Bool)) : State := es.foldl (fun s e => if e.2 then cfgFlag s 3 else s) s

theorem auditFlags_regs (es : List (List Byte × Bool)) (s : State) : ∃ r, auditFlags s es = { s with regs := r } := by
  induction es generalizing s with
  | nil => exact ⟨s.regs, rfl⟩
  | cons e es ih =>
    obtain ⟨r, hr⟩ := ih (if e.2 then cfgFlag s 3 else s)
    exact ⟨r, hr.trans (by split <;> rfl)⟩

theorem auditFlags_mismatch {es : List (List Byte × Bool)} {s : State}
    (h : bit (rd s regGlbCfgStatus) 3 = true ∨ ∃ e ∈ es, e.2 = true) : bit (rd (auditFlags s es) regGlbCfgStatus) 3 = true := by
  induction es generalizing s with
  | nil => exact h.elim id fun ⟨_, he, _⟩ => absurd he List.not_mem_nil
  | cons e es ih =>
    refine ih (s := if e.2 then cfgFlag s 3 else s) ?_
    cases he : e.2
    · simpa [he] using h
    · exact .inl (sticky_bit _ _ _ (by decide))

theorem configAudit_runs {s : State} {cid : Nat} {c : Cmd} (hst : startable s cid 0x32 = some c) :
    let n := min (fieldAt c.pkt 0x14 4) 59
    let es := (List.range n).map (auditEntry (running s cid))
    configAudit s cid = finish (writeOut (auditFlags (running s cid) es) c (fieldAt c.pkt 0x18 8) (es.flatMap (fun e => e.1)) 3) cid
      { ra := n } :=
  start_runs hst _

/-- The flags of an audit entry: MISMATCH, draining or switched, a next slot. -/
theorem auditFlagByte_bits (bad old nxt : Bool) :
    let v := (4 * b2n bad + 2 * b2n old + b2n nxt) % 256
    bit v 2 = bad ∧ bit v 1 = old ∧ bit v 0 = nxt := by
  cases bad <;> cases old <;> cases nxt <;> decide

/-- An audit entry as its fields: unit, flags, generations, live digest, digest of the next slot. -/
def auditBytesWith (unit flags gen nextGen prevGen : Nat) (rest : List Byte) : List Byte :=
  leBytes 2 unit ++ (leBytes 1 flags ++ (leBytes 1 0 ++ (leBytes 4 gen ++ (leBytes 4 nextGen ++ (leBytes 4 prevGen ++ rest)))))

theorem auditBytesWith_fields (unit flags gen nextGen prevGen : Nat) (rest : List Byte) :
    let e := auditBytesWith unit flags gen nextGen prevGen rest
    fieldAt e 0 2 = unit % 2 ^ 16 ∧ fieldAt e 2 1 = flags % 256 ∧ fieldAt e 4 4 = gen % 2 ^ 32 ∧ fieldAt e 8 4 = nextGen % 2 ^ 32 ∧
    fieldAt e 0x0C 4 = prevGen % 2 ^ 32 ∧ e.drop 0x10 = rest := by
  refine ⟨fieldAt_leBytes .., ?_, ?_, ?_, ?_, rfl⟩
  all_goals simp (disch := simp) only [auditBytesWith, fieldAt_append_right, leBytes_length]
  all_goals simp [fieldAt_leBytes]

/-- Is the unit's former slot draining, or switched out in a commit in progress? -/
def auditSwitched (s : State) (u : Nat) : Bool := s.cfg.commitCid.isSome && unitSwitched s u

theorem auditEntry_eq (s : State) (u : Nat) : ∃ rest, (auditEntry s u).1 = auditBytesWith u
    (4 * b2n (decide (storedDigest u (curSlot s u) ≠ auditDigest u (curSlot s u))) + 2 * b2n (s.cfg.draining || auditSwitched s u) +
      b2n (tget? s.cfg.next u).isSome)
    (if auditSwitched s u then s.cfg.nextGen else s.cfg.curGen) (if (tget? s.cfg.next u).isSome then s.cfg.nextGen else 0)
    (if s.cfg.draining || auditSwitched s u then s.cfg.prevGen else 0) (auditDigest u (curSlot s u) ++ rest) := by
  unfold auditEntry auditBytesWith
  simp only [List.append_assoc]
  exact ⟨_, rfl⟩

theorem auditEntry_fields (s : State) {k : Nat} (hk : k < 59) :
    let e := (auditEntry s k).1
    let sl := curSlot s k
    fieldAt e 0 2 = k ∧ bit (fieldAt e 2 1) 2 = decide (storedDigest k sl ≠ auditDigest k sl) ∧
    bit (fieldAt e 2 1) 0 = (tget? s.cfg.next k).isSome ∧ (s.cfg.commitCid = none → bit (fieldAt e 2 1) 1 = s.cfg.draining ∧
      fieldAt e 4 4 = s.cfg.curGen % 2 ^ 32 ∧ fieldAt e 0x0C 4 = (if s.cfg.draining then s.cfg.prevGen % 2 ^ 32 else 0)) ∧
    fieldAt e 8 4 = (if (tget? s.cfg.next k).isSome then s.cfg.nextGen % 2 ^ 32 else 0) ∧
    ∃ rest, e.drop 0x10 = auditDigest k sl ++ rest := by
  intro e sl
  obtain ⟨rest, he⟩ := auditEntry_eq s k
  obtain ⟨hunit, hflags, hgen, hnext, hprev, hrest⟩ := auditBytesWith_fields k
    (4 * b2n (decide (storedDigest k sl ≠ auditDigest k sl)) + 2 * b2n (s.cfg.draining || auditSwitched s k) +
      b2n (tget? s.cfg.next k).isSome)
    (if auditSwitched s k then s.cfg.nextGen else s.cfg.curGen) (if (tget? s.cfg.next k).isSome then s.cfg.nextGen else 0)
    (if s.cfg.draining || auditSwitched s k then s.cfg.prevGen else 0) (auditDigest k sl ++ rest)
  rw [← he] at hunit hflags hgen hnext hprev hrest
  obtain ⟨hbad, hold, hnxt⟩ := auditFlagByte_bits (decide (storedDigest k sl ≠ auditDigest k sl))
    (s.cfg.draining || auditSwitched s k) (tget? s.cfg.next k).isSome
  rw [← hflags] at hbad hold hnxt
  refine ⟨hunit.trans (Nat.mod_eq_of_lt (by omega)), hbad, hnxt, fun hc => ?_, hnext.trans (by split <;> rfl), rest, hrest⟩
  have hsw : auditSwitched s k = false := by rw [auditSwitched, hc]; rfl
  rw [hsw, Bool.or_false] at hold hprev
  rw [hsw] at hgen
  exact ⟨hold, hgen, hprev.trans (by split <;> rfl)⟩

/-! ### MEASURE_REPORT (R504, R514) -/

section
variable {s : State} {cid : Nat} {c : Cmd} (hst : startable s cid 0x33 = some c)
include hst

theorem measureReport_writes (h : s.msrBad = none) : measureReport s cid false =
    finish (writeOut (running s cid) c (fieldAt c.pkt 0x18 8) (leBytes 4 s.cfg.log.length ++ zeros 12 ++ (List.range 8).flatMap (meas s) ++
      (s.cfg.log.take (min (fieldAt c.pkt 0x14 4) s.cfg.log.length)).flatMap logBytes) 3) cid
      { ra := min (fieldAt c.pkt 0x14 4) s.cfg.log.length } := by
  have hbad : (running s cid).msrBad = none := h
  refine (start_runs hst _).trans ?_
  simp only [Bool.false_eq_true, if_false, hbad]
  rfl

theorem measureReport_lost {l : Nat} (h : s.msrBad = some l) : measureReport s cid false =
    finish (running s cid) cid { status := 0x5004, ra := 40 + c.home, rb := l, detail := 0x43 } := by
  have hbad : (running s cid).msrBad = some l := h
  refine (start_runs hst _).trans ?_
  simp only [Bool.false_eq_true, if_false, hbad]
  rfl

theorem measureReport_detects : ∃ l, l < 131072 ∧ (msrDetect (running s cid)).msrBad = some l ∧ measureReport s cid true =
    finish (msrDetect (running s cid)) cid { status := 0x5004, ra := 40 + c.home, rb := l, detail := 0x43 } := by
  have hbad : (msrDetect (running s cid)).msrBad = some ((freeVal (running s cid)).1 % 131072) := rfl
  refine ⟨_, Nat.mod_lt _ (by decide), hbad, (start_runs hst _).trans ?_⟩
  simp only [if_true, hbad]
  rfl

end

/-- A detection that nothing recovers leaves the configuration. -/
theorem unrecovered_cfg (s : State) (code inst kind line : Nat) : (unrecovered s code inst kind line).cfg = s.cfg := by
  unfold unrecovered
  dsimp only
  split <;> simp

/-- Settles O35. CONFIG_STAGE is refused in the order of `configStage_badGeneration` to `configStage_full` and else passes
(`configStage_passes`), its items logged (`measItems_grown`); an audit's entries are read by `auditEntry_fields`, its mismatches recorded
by `auditFlags`; a report is written, or ends with the line that was lost. -/
theorem stagesAndAuditsOfTheConfiguration : Obligations.StagesAndAuditsOfTheConfiguration := by
  unfold Obligations.StagesAndAuditsOfTheConfiguration
  refine ⟨fun s cid c hst => ?stage, fun s cid c => ?reports⟩
  case stage =>
    intro u gen items o
    have ends {mp : PortEnd} {t : State} (h : configStage s cid mp = t) : o mp = .next t := congrArg ok h
    refine ⟨fun h mp => ends (configStage_badGeneration hst h), fun hz hcur => ⟨fun e he => ?badItem, fun t ht =>
      ⟨fun h => ends (configStage_conflict hst hz hcur ht h), fun hs hc hd => ⟨fun hl => ?passes,
        fun hl => ends (configStage_full hst hz hcur ht hs hc hd hl)⟩⟩, fun mp hmp => ?portFailed⟩⟩
    case badItem =>
      obtain ⟨honly, hbit, herr⟩ := cfgErr_leaves u e
      exact ⟨cfgErr u e, ends (configStage_badItem hst hz hcur he), honly, hbit, herr⟩
    case passes =>
      obtain ⟨l, m, q, hlen, hm⟩ := measItems_grown (s := running s cid) (fieldAt c.pkt 0x28 4)
        (items := readItems (running s cid) (cPtr c) (cCount c) 0) hl
      have hpass := ends (configStage_passes hst hz hcur ht hs hc hd hl)
      dsimp only at hpass
      rw [hm] at hpass
      exact ⟨_, hpass, rfl, rfl, rfl, rfl, rfl, rfl, rfl, List.length_append.trans (congrArg _ hlen), List.take_left⟩
    case portFailed =>
      obtain ⟨v, r, hend, hport⟩ := configStage_portFailed (mp := mp) hst hz hcur hmp
      exact ⟨v, r, ends hend, hport⟩
  case reports =>
    intro u d
    refine ⟨fun hst => ?audit, fun k hk => auditEntry_fields s hk, fun hst => ⟨fun h => congrArg ok (measureReport_writes hst h),
      fun l h => congrArg ok (measureReport_lost hst h), ?detects⟩⟩
    case audit =>
      intro n
      obtain ⟨r, hr⟩ := auditFlags_regs ((List.range n).map (auditEntry u)) u
      refine ⟨_, congrArg ok (configAudit_runs hst), by rw [hr], fun ⟨k, hk, hne⟩ => auditFlags_mismatch (.inr ?_)⟩
      exact ⟨auditEntry u k, List.mem_map.mpr ⟨k, List.mem_range.mpr hk, rfl⟩, decide_eq_true hne⟩
    case detects =>
      obtain ⟨l, hl, hbad, hend⟩ := measureReport_detects hst
      exact ⟨_, l, congrArg ok hend, hl, hbad, unrecovered_cfg _ _ _ _ _⟩

end Sys2Proof.Machine
end

