-- ==== Sys2Proof/Proofs/Marks.lean ====
section
/-! A mark that what follows of itself never loses: a state in which something has happened is not taken back to one in which nothing has.
For each operation below the pump: it keeps the marks, or it sets one. -/

namespace Sys2Proof.Machine

/-- An item that no longer waits for its prediction, or that reads codeword 0 of RAW_READ 0 on LUN 0. -/
def strays (i : Item) : Bool := decide (i.stage ≠ .predicting) || (i.use.contains (.raw 0 0 0) && decide (i.glun = 0))

/-- A register was written, a slot bank or a group exists, or, where `deep` asks for it, an item strays. Registers, banks and groups are
never emptied; an item may leave, and so what drops items keeps `Marked false` only. -/
def Marked (deep : Bool) (s : State) : Prop :=
  s.regs ≠ [] ∨ s.banks ≠ [] ∨ s.groups ≠ [] ∨ (deep = true ∧ ∃ i ∈ s.items, strays i = true)

variable {deep : Bool} {s : State}

/-- The marks that outlive the items. -/
theorem Marked.worn (h : Marked false s) : Marked deep s := by
  rcases h with h | h | h | ⟨hb, -⟩
  · exact .inl h
  · exact .inr (.inl h)
  · exact .inr (.inr (.inl h))
  · cases hb

theorem tset_ne_nil {α : Type} (m : List (Nat × α)) (k : Nat) (v : α) : tset m k v ≠ [] := by
  cases m with
  | nil => exact List.cons_ne_nil _ _
  | cons x r =>
    unfold tset
    split
    · exact List.cons_ne_nil _ _
    · split <;> exact List.cons_ne_nil _ _

theorem Marked.ite {t : State} {c : Prop} [Decidable c] (hs : Marked deep s) (ht : Marked deep t) : Marked deep (if c then s else t) := by
  split
  · exact hs
  · exact ht

theorem Marked.foldl {α : Type} {f : State → α → State} {l : List α} (h : Marked deep s)
    (hf : ∀ t x, Marked deep t → Marked deep (f t x)) : Marked deep (l.foldl f s) := by
  induction l generalizing s with
  | nil => exact h
  | cons x r ih => exact ih (hf s x h)

theorem Marked.getD {o : Option State} (ho : ∀ t, o = some t → Marked deep t) (h : Marked deep s) : Marked deep (o.getD s) := by
  cases o with
  | none => exact h
  | some t => exact ho t rfl

theorem Marked.wr {a v : Nat} : Marked deep (wr s a v) := .inl (tset_ne_nil _ _ _)

theorem Marked.wrf {a hi lo v : Nat} : Marked deep (wrf s a hi lo v) := .wr

theorem Marked.bump {a hi lo v : Nat} : Marked deep (bump s a hi lo v) := .wr

theorem Marked.sticky {a k : Nat} : Marked deep (sticky s a k) := .wr

theorem Marked.modGroup {fg : Nat} {f : Group → Group} : Marked deep (modGroup s fg f) := .inr (.inr (.inl (tset_ne_nil _ _ _)))

theorem Marked.dropSlot {q i : Nat} : Marked deep (dropSlot s q i) := .inr (.inl (tset_ne_nil _ _ _))

theorem Marked.fresh (h : Marked deep s) : Marked deep (fresh s).2 := h

theorem Marked.freeVal (h : Marked deep s) : Marked deep (freeVal s).2 := h

theorem Marked.banks {m : Tab BankSt} {k : Nat} {v : BankSt} : Marked deep { s with banks := tset m k v } := .inr (.inl (tset_ne_nil _ _ _))

theorem Marked.mono (h : Marked deep s) {t : State} (hr : t.regs = s.regs) (hb : t.banks = s.banks) (hg : t.groups = s.groups)
    (hi : ∀ {i}, i ∈ s.items → i ∈ t.items) : Marked deep t := by
  rcases h with h | h | h | ⟨hd, i, hm, hs⟩
  · exact .inl (hr ▸ h)
  · exact .inr (.inl (hb ▸ h))
  · exact .inr (.inr (.inl (hg ▸ h)))
  · exact .inr (.inr (.inr ⟨hd, i, hi hm, hs⟩))

/-- Marks are about registers, banks, groups and items only. -/
theorem Marked.same (h : Marked deep s) {t : State}
    (he : (t.regs, t.banks, t.groups, t.items) = (s.regs, s.banks, s.groups, s.items)) : Marked deep t := by
  obtain ⟨hr, hb, hg, hi⟩ : t.regs = s.regs ∧ t.banks = s.banks ∧ t.groups = s.groups ∧ t.items = s.items := by simpa using he
  exact h.mono hr hb hg fun hm => hi ▸ hm

/-- Items may be added. -/
theorem Marked.append (h : Marked deep s) {t : State} {l : List Item} (he : (t.regs, t.banks, t.groups) = (s.regs, s.banks, s.groups))
    (hi : t.items = s.items ++ l) : Marked deep t := by
  obtain ⟨hr, hb, hg⟩ : t.regs = s.regs ∧ t.banks = s.banks ∧ t.groups = s.groups := by simpa using he
  exact h.mono hr hb hg fun hm => hi ▸ List.mem_append_left l hm

/-- Items may go, the other marks stay. -/
theorem Marked.bare (h : Marked false s) {l : List Item} {o : List Op} {d : Tab PoolDec} :
    Marked false { s with items := l, ops := o, decs := d } := by
  rcases h with h | h | h | ⟨hb, -⟩
  · exact .inl h
  · exact .inr (.inl h)
  · exact .inr (.inr (.inl h))
  · cases hb

theorem strays_joinItem (y i : Item) (h : strays y = true) : strays (joinItem y i) = true := by
  simp only [strays, joinItem, Bool.or_eq_true, Bool.and_eq_true, List.contains_iff_mem, List.mem_append] at h ⊢
  exact h.imp id fun ⟨hu, hg⟩ => ⟨.inl hu, hg⟩

/-- An element stays, as it was or changed. -/
theorem mem_or_mem_modFirst {α : Type} {p : α → Bool} (f : α → α) {l : List α} {x : α} (hx : x ∈ l) :
    x ∈ modFirst p f l ∨ f x ∈ modFirst p f l := by
  induction l with
  | nil => cases hx
  | cons y r ih =>
    unfold modFirst
    split <;> rcases List.mem_cons.1 hx with rfl | hr
    · exact .inr List.mem_cons_self
    · exact .inl (List.mem_cons_of_mem _ hr)
    · exact .inl List.mem_cons_self
    · exact (ih hr).imp (List.mem_cons_of_mem _) (List.mem_cons_of_mem _)

theorem Marked.lastItem {t : State} {l : List Item} {i : Item} (hs : strays i = true) (hi : t.items = l ++ [i]) : Marked true t :=
  .inr (.inr (.inr ⟨rfl, i, hi ▸ List.mem_append_right l (List.mem_singleton_self i), hs⟩))

theorem Marked.modItem (h : Marked deep s) {id : Nat} {f : Item → Item} (hf : ∀ y, strays y = true → strays (f y) = true) :
    Marked deep (modItem s id f) := by
  rcases h with h | h | h | ⟨hd, i, hm, hs⟩
  · exact .inl h
  · exact .inr (.inl h)
  · exact .inr (.inr (.inl h))
  · refine .inr (.inr (.inr ⟨hd, ?_⟩))
    rcases mem_or_mem_modFirst f hm with hi | hi
    · exact ⟨i, hi, hs⟩
    · exact ⟨f i, hi, hf i hs⟩

/-- What runs for each group needs only the marks that outlive items: with a group there is one. -/
theorem Marked.foldGroups (h : Marked deep s) {f : State → Nat → State} (hf : ∀ t fg, Marked false t → Marked false (f t fg)) :
    Marked deep ((s.groups.map (fun p => p.1)).foldl f s) := by
  by_cases hg : s.groups = []
  · rw [hg]
    exact h
  · exact .worn (.foldl (.inr (.inr (.inl hg))) hf)

/-- What a fold of steps that may fail ends in has what each step keeps. -/
theorem foldl_bind_keeps {σ α : Type} {P : σ → Prop} {f : σ → α → Option σ} (hf : ∀ t x u, P t → f t x = some u → P u)
    {l : List α} {t u : σ} (ht : P t) (hu : l.foldl (fun acc x => acc.bind (f · x)) (some t) = some u) : P u := by
  induction l generalizing t with
  | nil =>
    cases hu
    exact ht
  | cons x r ih =>
    rw [List.foldl_cons, Option.bind_some] at hu
    cases hx : f t x with
    | none =>
      have hnone : r.foldl (fun acc x => acc.bind (f · x)) none = none := List.foldl_fixed' (fun _ => rfl) r
      rw [hx, hnone] at hu
      cases hu
    | some v => exact ih (hf t x v ht hx) (hx ▸ hu)

/-! ### Accessors -/

theorem Marked.dramWrite (h : Marked deep s) {a : Nat} {l : List Byte} : Marked deep (dramWrite s a l) := .same h rfl

theorem Marked.modLun (h : Marked deep s) {g : Nat} {f : Lun → Lun} : Marked deep (modLun s g f) := by
  unfold Machine.modLun
  split
  · exact .same h rfl
  · exact h

theorem Marked.modCmd (h : Marked deep s) {cid : Nat} {f : Cmd → Cmd} : Marked deep (modCmd s cid f) := .same h rfl

theorem Marked.modOp (h : Marked deep s) {id : Nat} {f : Op → Op} : Marked deep (modOp s id f) := .same h rfl

theorem Marked.modRow (h : Marked deep s) {rid : Nat} {f : Row → Row} : Marked deep (modRow s rid f) := .same h rfl

theorem Marked.modStg (h : Marked deep s) {sid : Nat} {f : Staging → Staging} : Marked deep (modStg s sid f) := .same h rfl

/-! ### Events -/

theorem Marked.raise (h : Marked deep s) {src : Nat} : Marked deep (raise s src) := .ite (.same h (by rfl)) h

/-! ### Flags: every one writes a register -/

theorem Marked.csqFlag {c k : Nat} : Marked deep (csqFlag s c k) := .wr

theorem Marked.hopFlag {b : Nat} : Marked deep (hopFlag s b) := .sticky

theorem Marked.maintFlag {b : Nat} : Marked deep (maintFlag s b) := .ite (.raise .sticky) .sticky

theorem Marked.ageFlag {b : Nat} : Marked deep (ageFlag s b) :=
  .ite (.raise .sticky) (.ite (.raise .sticky) (.ite (.raise .sticky) .sticky))

/-! ### Ports and the pools of buffers -/

theorem Marked.modPort (h : Marked deep s) {n : Nat} {f : PortSt → PortSt} : Marked deep (modPort s n f) := .same h rfl

theorem Marked.startXfer (h : Marked deep s) {x : XferSpec} {spans : List (Nat × Nat × Nat × List Byte)} :
    Marked deep (startXfer s x spans) := .modPort (.same h (by rfl))

theorem Marked.cancelXfers (h : Marked deep s) {gone : Xfer → Bool} : Marked deep (cancelXfers s gone) := .same h rfl

theorem Marked.trace (h : Marked deep s) {k src arg : Nat} {payload : List Nat} : Marked deep (trace s k src arg payload) :=
  .ite (.ite .bump (.same h (by rfl))) h

theorem Marked.modPool (h : Marked deep s) {q : Nat} {f : PoolSt → PoolSt} : Marked deep (modPool s q f) := .same h rfl

theorem Marked.poolRaise (h : Marked deep s) {q : Nat} : Marked deep (poolRaise s q) := .modPool h

theorem Marked.poolAsk (h : Marked deep s) {q : Nat} {r : PoolReq} : Marked deep (poolAsk s q r) := .poolRaise (.modPool h)

theorem Marked.returnBuf (h : Marked deep s) {a : Nat} : Marked deep (returnBuf s a) := .ite (.modPool h) (.poolAsk (.modPool h))

theorem Marked.askBufs (h : Marked deep s) {q n : Nat} {who : BufFor} : Marked deep (askBufs s q n who) :=
  .foldl h fun _ _ ht => .poolAsk ht

theorem Marked.dropBufXfers (h : Marked deep s) {who : BufFor} : Marked deep (dropBufXfers s who) := .cancelXfers h

/-! ### Zone entries and journal entries -/

theorem Marked.markSeg (h : Marked deep s) {kind idx : Nat} : Marked deep (markSeg s kind idx) := .ite h (.same h (by rfl))

theorem Marked.setZone (h : Marked deep s) {e : ZoneEntry} : Marked deep (setZone s e) := by
  unfold Machine.setZone
  dsimp only
  split
  · exact .same (.markSeg h) rfl
  · exact .dramWrite (.markSeg h)

theorem Marked.modZone (h : Marked deep s) {zid : Nat} {f : ZoneEntry → ZoneEntry} : Marked deep (modZone s zid f) := .setZone h

theorem Marked.oztTake (h : Marked deep s) {e : ZoneEntry} {t : State} (ho : oztTake s e = some t) : Marked deep t := by
  unfold Machine.oztTake at ho
  split at ho
  · cases ho
    exact .setZone h
  · obtain ⟨i, -, rfl⟩ := Option.map_eq_some_iff.1 ho
    exact .markSeg (.same h (by rfl))

theorem Marked.oztFree (h : Marked deep s) {zid : Nat} : Marked deep (oztFree s zid) := by
  unfold Machine.oztFree
  split
  · exact .setZone (.same h (by rfl))
  · exact h

theorem Marked.setMember (h : Marked deep s) {zid j w : Nat} : Marked deep (setMember s zid j w) := .markSeg (.dramWrite h)

theorem Marked.setVoidBits (h : Marked deep s) {zid v : Nat} : Marked deep (setVoidBits s zid v) := .markSeg (.dramWrite h)

theorem Marked.jrnMark (h : Marked deep s) : Marked deep (jrnMark s) := .same h rfl

theorem Marked.closePage (h : Marked deep s) : Marked deep (closePage s) := by
  unfold Machine.closePage
  split
  · exact .ite (.jrnMark (.same h (by rfl))) h

theorem Marked.placeEntry (h : Marked deep s) {e : Entry} {t : State} (ho : placeEntry s e = some t) : Marked deep t := by
  unfold Machine.placeEntry at ho
  dsimp only at ho
  split at ho
  · cases ho
  · split at ho
    · cases ho
      exact .ite (.closePage h) h
    · split at ho <;> cases ho
      exact .ite (.closePage h) h

theorem Marked.drainBacklog (h : Marked deep s) {n : Nat} : Marked deep (drainBacklog n s) := by
  induction n generalizing s with
  | zero => exact h
  | succ n ih =>
    unfold Machine.drainBacklog
    split
    · exact h
    · split
      · next t hp => exact ih (.same (Marked.placeEntry h hp) (by rfl))
      · exact h

theorem Marked.jrnAppend (h : Marked deep s) {e : Entry} : Marked deep (jrnAppend s e) :=
  .ite h (.ite (.jrnMark (.drainBacklog (.same h (by rfl)))) (.same h (by rfl)))

theorem Marked.jrnZone (h : Marked deep s) {zid : Nat} : Marked deep (jrnZone s zid) := .jrnAppend h

theorem Marked.jrnMember (h : Marked deep s) {zid j : Nat} : Marked deep (jrnMember s zid j) := .jrnAppend h

theorem Marked.jrnRow (h : Marked deep s) {typ zid r arg0 : Nat} : Marked deep (jrnRow s typ zid r arg0) := .jrnAppend h

/-! ### Rings and completions -/

theorem Marked.cset (h : Marked deep s) {r o n v : Nat} : Marked deep (cset s r o n v) := .same h rfl

theorem Marked.setCtrl (h : Marked deep s) {r b v : Nat} : Marked deep (setCtrl s r b v) := .cset h

theorem Marked.modRing (h : Marked deep s) {r : Nat} {f : RingRt → RingRt} : Marked deep (modRing s r f) := .same h rfl

theorem Marked.takeSlot (h : Marked deep s) {r : Nat} : Marked deep (takeSlot s r) := .ite (.setCtrl (.cset h)) (.cset h)

theorem Marked.dropCmd (h : Marked deep s) {c : Cmd} : Marked deep (dropCmd s c) :=
  .ite (.modRing (.setCtrl (.cset (.same h (by rfl))))) (.cset (.same h (by rfl)))

theorem Marked.tryComplete (h : Marked deep s) {cid : Nat} : Marked deep (tryComplete s cid) := by
  unfold Machine.tryComplete
  split
  · exact h
  · exact .ite (.ite (.dropCmd h) (.startXfer (.takeSlot (.modCmd (.trace h))))) h

theorem Marked.completeReady (h : Marked deep s) : Marked deep (completeReady s) := .foldl h fun _ _ ht => .tryComplete ht

theorem Marked.finish (h : Marked deep s) {cid : Nat} {r : Result} : Marked deep (finish s cid r) := .tryComplete (.modCmd h)

theorem Marked.finishDurable (h : Marked deep s) {cid : Nat} {r : Result} : Marked deep (finishDurable s cid r) := .finish (.modCmd h)

theorem Marked.writeOutAt (h : Marked deep s) {port : Nat} {c : Cmd} {a : Nat} {bytes : List Byte} {grp : Nat} :
    Marked deep (writeOutAt s port c a bytes grp) := .ite h (.startXfer h)

theorem Marked.writeOut (h : Marked deep s) {c : Cmd} {a : Nat} {bytes : List Byte} {grp : Nat} :
    Marked deep (writeOut s c a bytes grp) := .writeOutAt h

/-! ### Operations that wait -/

theorem Marked.queueOp (h : Marked deep s) {o : Op} : Marked deep (queueOp s o) := .same h rfl

theorem Marked.queueProg (h : Marked deep s) {o : Op} : Marked deep (queueProg s o) := .queueOp (.ite (.queueOp h) h)

theorem Marked.queueRead (h : Marked deep s) {i : Item} {lv : List Int} : Marked deep (queueRead s i lv) :=
  .ite (.same h (by rfl)) (.queueOp h)

theorem Marked.queueStep (h : Marked deep s) {i : Item} : Marked deep (queueStep s i) := .foldl h fun _ _ ht => .queueRead ht

theorem Marked.busPut (h : Marked deep s) {g : Nat} {l : List Byte} : Marked deep (busPut s g l) := .same h rfl

theorem Marked.releaseOp (h : Marked deep s) {o : Op} : Marked deep (releaseOp s o) := .same h rfl

theorem Marked.dropOp (h : Marked deep s) {o : Op} : Marked deep (dropOp s o) := .releaseOp (.same h (by rfl))

theorem Marked.resetLun (h : Marked deep s) {g : Nat} : Marked deep (resetLun s g) := .modLun (.busPut h)

theorem Marked.abandon (h : Marked deep s) {o : Op} : Marked deep (abandon s o) := .resetLun (.modOp h)

/-! ### Ageing records -/

theorem Marked.arFetch (h : Marked deep s) {bg : Nat} : Marked deep (arFetch s bg) := .ite .ageFlag h

theorem Marked.predPut (h : Marked deep s) {g b : Nat} {p : Pred} : Marked deep (predPut s g b p) := .ite (.same h (by rfl)) h

theorem Marked.predHit (h : Marked deep s) {gen g b : Nat} {wseq : Option Nat} {p : State × List Int}
    (ho : predHit s gen g b wseq = some p) : Marked deep p.1 := by
  unfold Machine.predHit at ho
  dsimp only at ho
  split at ho <;> split at ho <;> cases ho
  · exact h
  · exact .predPut h
  · exact .predPut h

theorem Marked.arMod (h : Marked deep s) {bg : Nat} {f : List Byte → List Byte} : Marked deep (arMod s bg f) :=
  .ite (.same (.arFetch h) (by rfl)) h

theorem Marked.advise (h : Marked deep s) {zid g b cause : Nat} : Marked deep (advise s zid g b cause) :=
  .ite h (.ite .ageFlag .ageFlag)

theorem Marked.addLoad (h : Marked deep s) {g b pts : Nat} {zid : Option Nat} : Marked deep (addLoad s g b pts zid) := by
  unfold Machine.addLoad
  split
  · exact h
  · extract_lets bg s1 s2 cal age s3 rel
    have h2 : Marked deep s2 := .arMod .bump
    have h3 : Marked deep s3 := .ite (.same h2 (by rfl)) h2
    clear_value s3
    split
    · exact .ite (.advise h3) h3
    · exact h3

theorem Marked.estimate (h : Marked deep s) {g b wseq : Nat} : Marked deep (estimate s g b wseq) := .ite (.arMod h) h

/-! ### Codeword reads and reconstructions -/

theorem Marked.ageWant (h : Marked deep s) {i : Item} : Marked deep (ageWant s i) := .ite h (.startXfer h)

theorem Marked.addNew (h : Marked deep s) {i : Item} : Marked deep (addNew s i) := by
  unfold Machine.addNew
  dsimp only
  split
  · split
    · next t base hp =>
      have ht : Marked deep t := .predHit (p := (t, base)) (.fresh h) hp
      exact .queueStep (.append ht (by rfl) (by rfl))
    · exact .ageWant (.append h (by rfl) (by rfl))
  · exact .queueStep (.append h (by rfl) (by rfl))

theorem Marked.addItem (h : Marked deep s) {i : Item} : Marked deep (addItem s i) := by
  unfold Machine.addItem
  split
  · exact .modItem h fun y => strays_joinItem y i
  · exact .addNew h

theorem Marked.addRowItem (h : Marked deep s) {w : Work} {lt : Layout} {zid r j cwx g b : Nat} {u : Use} :
    Marked deep (addRowItem s w lt zid r j cwx g b u) := .addItem h

theorem Marked.takeSlot? {q p : Nat} {t : Nat × State} (ho : takeSlot? s q p = some t) : Marked deep t.2 := by
  unfold Machine.takeSlot? at ho
  split at ho
  · obtain ⟨i, -, rfl⟩ := Option.map_eq_some_iff.1 ho
    exact .banks
  · cases ho

/-- A region that is had marks the state, since its slot is held in a bank. -/
theorem Marked.takeRegion {q : Nat} {t : State} (ho : takeRegion s q = some t) : Marked deep t := by
  unfold Machine.takeRegion at ho
  split at ho
  · next hslots =>
    cases ho
    refine .inr (.inl fun hnone => ?_)
    simp [held, bank, hnone, tget] at hslots
  · obtain ⟨p, hp, rfl⟩ := Option.map_eq_some_iff.1 ho
    exact .takeSlot? hp

theorem Marked.trimRegions (h : Marked deep s) {q : Nat} : Marked deep (trimRegions s q) := by
  refine .ite ?_ h
  split
  · exact .dropSlot
  · exact h

theorem Marked.modRecon (h : Marked deep s) {id : Nat} {f : Recon → Recon} : Marked deep (modRecon s id f) := .same h rfl

theorem Marked.askMore (h : Marked deep s) {id : Nat} {t : State} (ho : askMore s id = some t) : Marked deep t := by
  unfold Machine.askMore at ho
  split at ho
  · cases ho
    exact h
  · split at ho
    · cases ho
    · dsimp only at ho
      split at ho <;> cases ho
      refine .foldl (.modRecon h) fun t j ht => ?_
      split
      · exact .addRowItem ht
      · exact ht

theorem Marked.startRecon (h : Marked deep s) {r : Recon} {t : State} (ho : startRecon s r = some t) : Marked deep t := by
  unfold Machine.startRecon at ho
  split at ho
  · cases ho
  · split at ho
    · dsimp only at ho
      split at ho
      · exact .askMore (.modRecon (.same h (by rfl))) ho
      · split at ho
        · next hregion => exact .askMore (.modRecon (.takeRegion hregion)) ho
        · cases ho
          exact .same h rfl
    · cases ho

theorem Marked.dropSpent (h : Marked deep s) : Marked deep (dropSpent s) := .foldl h fun _ _ ht => .dropOp ht

/-- Uses that are given up may take items with them, and so only the other marks stay. -/
theorem Marked.dropUses (h : Marked false s) {mine : Use → Bool} : Marked false (dropUses s mine) := .dropSpent (.bare h)

theorem Marked.dropSurvivors (h : Marked false s) {id : Nat} : Marked false (dropSurvivors s id) := .dropUses h

theorem Marked.endRecon (h : Marked deep s) {id : Nat} : Marked deep (endRecon s id) := by
  unfold Machine.endRecon
  split
  · exact .trimRegions (.same h (by rfl))
  · exact h

/-! ### The governor -/

theorem Marked.charge (h : Marked deep s) {z i e : Nat} : Marked deep (charge s z i e) := .same h rfl

theorem Marked.admitTake (h : Marked deep s) {o : Op} {e : Nat} : Marked deep (admitTake s o e) := by
  unfold Machine.admitTake
  split
  · exact .trace (.modOp (.same h (by rfl)))
  · exact .charge (.trace (.modOp (.same h (by rfl))))
  · exact .trace (.modOp (.same h (by rfl)))

theorem Marked.countRefusal (h : Marked deep s) {a : Adm} : Marked deep (countRefusal s a) := by
  unfold Machine.countRefusal
  split
  · exact .bump
  · exact .bump
  · exact h

/-- A reconstruction that is granted is counted. -/
theorem Marked.grantAround {items : List Item} {e1 doneAt : Nat} {back : Option Nat} {t : State}
    (ho : grantAround s items e1 doneAt back = some t) : Marked deep t := by
  unfold Machine.grantAround at ho
  dsimp only at ho
  split at ho
  · cases ho
  · split at ho
    · split at ho
      · obtain ⟨v, -, rfl⟩ := Option.map_eq_some_iff.1 ho
        exact .bump
      · cases ho
    · cases ho

/-- A read that goes around a busy operation does so by a reconstruction that is granted. -/
theorem Marked.busyRead {u o : Op} {t : State} (ho : busyRead s u o = .around t) : Marked deep t := by
  unfold Machine.busyRead at ho
  extract_lets early at ho
  clear_value early
  split at ho
  · cases ho
  · split at ho
    · cases ho
    · split at ho
      · cases ho
      · split at ho
        · next hgrant =>
          cases ho
          split at hgrant
          · exact .grantAround hgrant
          · cases hgrant
        · split at ho
          · split at ho <;> cases ho
          · cases ho

theorem Marked.capNote (h : Marked deep s) {u o : Op} : Marked deep (capNote s u o) := .ite .csqFlag h

theorem Marked.makeWay (h : Marked deep s) {o : Op} : Marked deep (makeWay s o) := .ite (.foldl h (fun _ _ ht => .abandon ht)) h

theorem Marked.decideOne {r : Round} (h : Marked deep r.s) {o : Op} : Marked deep (decideOne r o).s := by
  unfold Machine.decideOne
  dsimp only
  split
  · exact h
  · split
    · dsimp only
      split
      · exact .bump
      · exact .admitTake (.makeWay h)
    · exact .countRefusal (.makeWay h)

theorem Marked.decideAll {n : Nat} {r : Round} (h : Marked deep r.s) : Marked deep (decideAll n r).s := by
  induction n generalizing r with
  | zero => exact h
  | succ n ih =>
    unfold Machine.decideAll
    split
    · exact ih (.decideOne h)
    · exact h

theorem Marked.settleBusy (h : Marked deep s) : Marked deep (settleBusy s) := by
  refine .foldl h fun t id ht => ?_
  split
  · split
    · split
      · next haround => exact .busyRead haround
      · exact .capNote ht
    · exact ht
  · exact ht

theorem Marked.govEvaluate (h : Marked deep s) : Marked deep (govEvaluate s) := by
  unfold Machine.govEvaluate
  exact .ite h (.decideAll (r := { s := Machine.settleBusy s }) (.settleBusy h))

/-! ### Members and stagings -/

theorem Marked.addLost {fg zid first count cause lost : Nat} : Marked deep (addLost s fg zid first count cause lost) := by
  unfold Machine.addLost
  exact .maintFlag

theorem Marked.loseRow (h : Marked deep s) {zid r cause lost : Nat} : Marked deep (loseRow s zid r cause lost) := by
  unfold Machine.loseRow
  split
  · exact .addLost
  · exact h

theorem Marked.chooseSpare (h : Marked deep s) {fg zid j : Nat} : Marked deep (chooseSpare s fg zid j).1 := by
  unfold Machine.chooseSpare
  dsimp only
  split
  · exact .modGroup
  · exact h

theorem Marked.spareErase (h : Marked deep s) {fg i : Nat} {x : Spare} {dl : Option Nat} : Marked deep (spareErase s fg i x dl) :=
  .queueOp h

theorem Marked.dropStg (h : Marked deep s) {g : Staging} : Marked deep (dropStg s g) :=
  .foldl (.dropBufXfers (.same h (by rfl))) fun _ _ ht => .returnBuf ht

theorem Marked.modJrn (h : Marked deep s) {f : JrnSt → JrnSt} : Marked deep (modJrn s f) := .same h rfl

theorem Marked.forgetUnread {fg zid : Nat} {j : Option Nat} : Marked deep (forgetUnread s fg zid j) := .modGroup

/-! ### Journal pages -/

theorem Marked.retirePages (h : Marked deep s) : Marked deep (retirePages s) := .modJrn h

theorem Marked.segPages (h : Marked deep s) {l : List Nat} : Marked deep (segPages s l) := .modJrn h

theorem Marked.turnAhead (h : Marked deep s) : Marked deep (turnAhead s) := .ite (.segPages h) h

/-! ### Appends and gathering rows -/

theorem Marked.noteLow {q : Nat} : Marked deep (noteLow s q) := .wr

theorem Marked.newRow {zid row : Nat} : Marked deep (newRow s zid row) := .noteLow

theorem Marked.settleAppends (h : Marked deep s) {n zid : Nat} : Marked deep (settleAppends n s zid) := by
  induction n generalizing s with
  | zero => exact h
  | succ n ih =>
    unfold Machine.settleAppends
    split
    · exact .ite (ih (.finish (.modZone h))) h
    · exact h

theorem Marked.blocksDone (h : Marked deep s) {cid n needSeq : Nat} {bad : List (Nat × Result)} :
    Marked deep (blocksDone s cid n needSeq bad) := .modCmd h

theorem Marked.rangeDone (h : Marked deep s) {r : Row} {lo hi needSeq : Nat} : Marked deep (rangeDone s r lo hi needSeq) :=
  .foldl h fun _ _ ht => .blocksDone ht

theorem Marked.wantStaging (h : Marked deep s) {zid : Nat} {spill : Bool} {dl : Option Nat} : Marked deep (wantStaging s zid spill dl) := by
  unfold Machine.wantStaging
  split
  · exact h
  · exact .ite (.askBufs (.modRow (.same h (by rfl)))) h

theorem Marked.startSpill (h : Marked deep s) {q : Nat} : Marked deep (startSpill s q) := by
  unfold Machine.startSpill
  split
  · exact .wantStaging h
  · exact h

theorem Marked.runSpills (h : Marked deep s) {n q : Nat} : Marked deep (runSpills n s q) := by
  induction n generalizing s with
  | zero => exact h
  | succ n ih => exact .ite (ih (.startSpill h)) h

theorem Marked.servePressure (h : Marked deep s) {q : Nat} : Marked deep (servePressure s q) := .runSpills h

theorem Marked.gatherRun (h : Marked deep s) {c : Cmd} {zid rb off cmdBlk n : Nat} : Marked deep (gatherRun s c zid rb off cmdBlk n) := by
  unfold Machine.gatherRun
  dsimp only
  split
  · exact .ite h .newRow
  · exact .ite (.modZone (.modRow (.modRow (.ite h .newRow)))) (.modZone (.modRow (.ite h .newRow)))

theorem Marked.gatherBlocks (h : Marked deep s) {f : Nat} {c : Cmd} {zid rb off cmdBlk n : Nat} :
    Marked deep (gatherBlocks f s c zid rb off cmdBlk n) := by
  induction f generalizing s off cmdBlk n with
  | zero => exact h
  | succ f ih => exact .ite h (ih (.gatherRun h))

theorem Marked.openZone (h : Marked deep s) {zid tenant : Nat} {hint : Option Nat} {t : State}
    (ho : openZone s zid tenant hint = some t) : Marked deep t := by
  unfold Machine.openZone at ho
  dsimp only at ho
  split at ho
  · split at ho <;> cases ho
    · exact .setZone h
    · exact h
  · obtain ⟨u, hu, rfl⟩ := Option.map_eq_some_iff.1 ho
    exact .jrnZone (.oztTake h hu)

theorem Marked.tryAppend (h : Marked deep s) {cid : Nat} : Marked deep (tryAppend s cid) := by
  unfold Machine.tryAppend
  dsimp only
  split
  · exact h
  · split
    · exact .finish h
    · split
      · exact .finish h
      · refine .finish ?_
        split
        · exact .hopFlag
        · exact h
      · exact .ite (.startSpill (.modCmd h)) (.modCmd h)
      · split
        · exact .finish .hopFlag
        · next ho => exact .servePressure (.gatherBlocks (.modZone (.modCmd (.openZone h ho))))

theorem Marked.retryAppends (h : Marked deep s) : Marked deep (retryAppends s) := by
  refine .foldl h fun _ _ ht => ?_
  split
  · exact .ite (.tryAppend ht) ht
  · exact ht

theorem Marked.dropRow (h : Marked deep s) {r : Row} : Marked deep (dropRow s r) := by
  unfold Machine.dropRow
  extract_lets s1 s2 s3
  have h1 : Marked deep s1 := .cancelXfers (.same h (by rfl))
  have h3 : Marked deep s3 := .foldl (.same h1 (by rfl)) fun _ _ _ => .dropSlot
  exact .foldl h3 fun _ _ ht => .returnBuf ht

theorem Marked.dropExtents (h : Marked deep s) {zid row : Nat} : Marked deep (dropExtents s zid row) := .same h rfl

theorem Marked.jrnExtent (h : Marked deep s) {x : Extent} {ends : Nat} : Marked deep (jrnExtent s x ends) := .jrnAppend h

theorem Marked.stagingDurable (h : Marked deep s) {g : Staging} : Marked deep (stagingDurable s g) := by
  unfold Machine.stagingDurable
  extract_lets rb old seq x s1 s2 upto open_ s3 s4 was
  have h2 : Marked deep s2 := .ite (.dropExtents (.dropStg h)) (.dropStg h)
  have h3 : Marked deep s3 := .ite (.modZone h2) h2
  have h4 : Marked deep s4 := .jrnExtent (.same h3 (by rfl))
  split
  · exact h4
  · extract_lets s5 s6 s7
    have h5 : Marked deep s5 := .rangeDone h4
    have h6 : Marked deep s6 := .ite .bump h5
    exact .ite (.ite (.modZone (.dropRow h6)) (.modRow h6)) (.modRow h6)

theorem Marked.moveDurable (h : Marked deep s) {g : Staging} {src : Nat × Nat} : Marked deep (moveDurable s g src) := by
  unfold Machine.moveDurable
  dsimp only
  split
  · exact .dropStg h
  · exact .jrnExtent (.ite (.setZone (.same (.dropStg h) (by rfl))) (.same (.dropStg h) (by rfl)))

theorem Marked.reshapeDurable {g : Staging} : Marked deep (reshapeDurable s g) := .modGroup

theorem Marked.settleWaiter (h : Marked deep s) {c : Cmd} : Marked deep (settleWaiter s c) := by
  unfold Machine.settleWaiter
  refine .ite (.finish h) (.ite (.ite (.wantStaging h) h) (.ite (.finish h) (.ite (.wantStaging (.modCmd h)) (.ite ?closes ?fills))))
  case closes => exact .finishDurable (.ite (.oztFree (.jrnZone (.setZone h))) h)
  case fills =>
    extract_lets s1 s2
    have h1 : Marked deep s1 := .ite h (.jrnZone (.setZone h))
    exact .finishDurable (.ite (.oztFree h1) h1)

theorem Marked.settleWaiters (h : Marked deep s) {zid : Nat} : Marked deep (settleWaiters s zid) := .foldl h fun _ _ ht => .settleWaiter ht

theorem Marked.settleZones (h : Marked deep s) : Marked deep (settleZones s) := .foldl h fun _ _ ht => .settleWaiters (.settleAppends ht)

end Sys2Proof.Machine
end

