-- ==== Sys2Proof/Proofs/PumpMarks.lean ====
section
/-! The marks through the parts of the pump: rows, reads, resets, rebuild and reshape, maintenance work and ladders. -/

namespace Sys2Proof.Machine

variable {deep : Bool} {s : State}

/-! ### Rows and stagings -/

theorem Marked.rowBlock (h : Marked deep s) {rid b : Nat} {body : Option (List Byte)} : Marked deep (rowBlock s rid b body) := .modRow h

theorem Marked.loseBlock {zid row b : Nat} : Marked deep (loseBlock s zid row b) := .addLost

theorem Marked.readCopy (h : Marked deep s) {w : Work} {zid row b from_ : Nat} {use : Nat → Use} {t : State}
    (ho : readCopy s w zid row b from_ use = some t) : Marked deep t := by
  unfold Machine.readCopy at ho
  split at ho
  · cases ho
  · split at ho <;> cases ho
    exact .addItem h

theorem Marked.foldRead (h : Marked deep s) {rid b from_ : Nat} : Marked deep (foldRead s rid b from_) := by
  unfold Machine.foldRead
  split
  · exact h
  · split
    · next ho => exact .readCopy h ho
    · exact .modRow (.rowBlock .loseBlock)

theorem Marked.stageGot (h : Marked deep s) {sid b : Nat} {poison : Bool} : Marked deep (stageGot s sid b poison) := .modStg h

theorem Marked.restageRead (h : Marked deep s) {sid b from_ : Nat} : Marked deep (restageRead s sid b from_) := by
  unfold Machine.restageRead
  split
  · exact h
  · split
    · next ho => exact .readCopy h ho
    · exact .stageGot .loseBlock

theorem Marked.stageSettle (h : Marked deep s) {sid : Nat} : Marked deep (stageSettle s sid) := by
  unfold Machine.stageSettle
  split
  · exact h
  · refine .ite ?_ h
    split
    · exact .moveDurable h
    · exact .ite .reshapeDurable (.stagingDurable h)

theorem Marked.queueMember (h : Marked deep s) {r : Row} {j : Nat} : Marked deep (queueMember s r j) := by
  unfold Machine.queueMember
  split
  · exact .ite (.queueProg (.modRow h)) (.modRow h)
  · exact .modRow h

theorem Marked.rowIntent (h : Marked deep s) {rid : Nat} : Marked deep (rowIntent s rid) := by
  unfold Machine.rowIntent
  split
  · exact h
  · exact .ite h (.modRow (.jrnRow (.modZone h)))

theorem Marked.rowsProgram (h : Marked deep s) : Marked deep (rowsProgram s) := by
  refine .foldl h fun _ _ ht => .foldl (.modRow ht) fun _ _ ht => ?_
  split
  · exact .queueMember ht
  · exact ht

theorem Marked.rowsIntent (h : Marked deep s) : Marked deep (rowsIntent s) := .foldl h fun _ _ ht => .rowIntent ht

/-! ### Power domains -/

theorem Marked.setDom {d st : Nat} : Marked deep (setDom s d st) := .wrf

theorem Marked.modDom (h : Marked deep s) {d : Nat} {f : DomSt → DomSt} : Marked deep (modDom s d f) := .same h rfl

theorem Marked.domAdvance (h : Marked deep s) {d : Nat} : Marked deep (domAdvance s d) := by
  unfold Machine.domAdvance
  refine .ite h ?_
  split
  · exact .ite (.modDom h) (.ite (.modDom h) .setDom)
  · exact .ite (.modDom h) (.ite (.modDom h) .setDom)
  · exact .ite (.modDom h) .setDom

theorem Marked.raiseDom (h : Marked deep s) {d : Nat} : Marked deep (raiseDom s d) := .ite h (.domAdvance (.modDom h))

theorem Marked.domUse (h : Marked deep s) {d : Nat} : Marked deep (domUse s d) := .raiseDom (.modDom h)

theorem Marked.pumpDomains (h : Marked deep s) : Marked deep (pumpDomains s) := .ite h (.foldl h (fun _ _ ht => .domUse ht))

/-! ### Zone reads -/

theorem Marked.modRd (h : Marked deep s) {cid off : Nat} {f : RdBlk → RdBlk} : Marked deep (modRd s cid off f) := .modCmd h

theorem Marked.readSettle (h : Marked deep s) {cid : Nat} : Marked deep (readSettle s cid) := by
  unfold Machine.readSettle
  split
  · exact h
  · exact .ite (.finish h) h

theorem Marked.blkFail (h : Marked deep s) {cid off : Nat} {r : Result} : Marked deep (blkFail s cid off r) := .readSettle (.modRd h)

theorem Marked.deliver (h : Marked deep s) {cid off g : Nat} {body : List Byte} {isRecon : Bool} :
    Marked deep (deliver s cid off g body isRecon) := by
  unfold Machine.deliver
  dsimp only
  split
  · exact h
  · split
    · exact .blkFail h
    · exact .ite (.startXfer (.startXfer (.modRd (.modCmd h)))) (.startXfer (.modRd (.modCmd h)))

theorem Marked.blkLost (h : Marked deep s) {cid off : Nat} {fails : List Result} : Marked deep (blkLost s cid off fails) := by
  unfold Machine.blkLost
  split
  · exact .blkFail h
  · exact h

theorem Marked.blkRecon (h : Marked deep s) {cid off : Nat} {t : State} (ho : blkRecon s cid off = some t) : Marked deep t := by
  unfold Machine.blkRecon at ho
  split at ho
  · cases ho
    exact h
  · exact .startRecon h ho

theorem Marked.blkReconOrFail (h : Marked deep s) {cid off : Nat} : Marked deep (blkReconOrFail s cid off) :=
  .getD (fun _ => .blkRecon h) (.blkLost h)

theorem Marked.noteFail (h : Marked deep s) {cid off : Nat} {r : Result} : Marked deep (noteFail s cid off r) := .ite (.modRd h) h

theorem Marked.blkBody (h : Marked deep s) {cid off g : Nat} {body : List Byte} {isRecon : Bool} :
    Marked deep (blkBody s cid off g body isRecon).1 := by
  unfold Machine.blkBody
  split
  · exact h
  · split
    · exact h
    · split
      · exact .ite (.modRd h) h
      · exact .deliver (.ite (.modCmd h) h)

theorem Marked.stagedRead (h : Marked deep s) {cid off copy : Nat} : Marked deep (stagedRead s cid off copy) := by
  unfold Machine.stagedRead
  dsimp only
  split
  · exact h
  · split
    · next ho => exact .readCopy h ho
    · exact .blkLost h

/-! ### Zone resets -/

theorem Marked.resetErase (h : Marked deep s) {c : Cmd} {zid j g b : Nat} : Marked deep (resetErase s c zid j g b) := .queueOp (.modCmd h)

theorem Marked.placeMember (h : Marked deep s) {zid j g b : Nat} : Marked deep (placeMember s zid j g b) := by
  unfold Machine.placeMember
  refine .ite h ?_
  dsimp only
  split
  · exact .modGroup
  · exact .jrnMember (.setMember h)

theorem Marked.resetFails (h : Marked deep s) {c : Cmd} {j : Nat} {place : Nat × Nat} : Marked deep (resetFails s c j place) := .modCmd h

theorem Marked.noSpareFor (h : Marked deep s) {c : Cmd} {zid j : Nat} {why : Reform} {place : Nat × Nat} :
    Marked deep (noSpareFor s c zid j why place) := by
  unfold Machine.noSpareFor
  split
  · exact .ageFlag
  · exact .ite (.resetFails h) (.resetErase .ageFlag)
  · exact .resetFails h

theorem Marked.reform (h : Marked deep s) {c : Cmd} {zid j : Nat} {why : Reform} {place : Nat × Nat} :
    Marked deep (reform s c zid j why place) := by
  have hs := h.chooseSpare (fg := fgOf s zid) (zid := zid) (j := j)
  unfold Machine.reform
  split
  · next he =>
    rw [he] at hs
    exact .resetErase (.modCmd hs)
  · next he =>
    rw [he] at hs
    exact .noSpareFor hs

theorem Marked.resetMember (h : Marked deep s) {c : Cmd} {zid : Nat} {empty : Bool} {j : Nat} :
    Marked deep (resetMember s c zid empty j) := by
  unfold Machine.resetMember
  split
  · exact .reform h
  · exact h
  · exact .ite (.placeMember h) (.ite (.reform h) (.resetErase h))

theorem Marked.resetEnd (h : Marked deep s) {cid zid : Nat} : Marked deep (resetEnd s cid zid) := by
  unfold Machine.resetEnd
  dsimp only
  split
  · exact h
  · split
    · exact .finishDurable (.oztFree (.jrnZone .modGroup))
    · exact .finishDurable (.oztFree (.jrnZone .modGroup))

theorem Marked.resetSettle (h : Marked deep s) {cid zid : Nat} : Marked deep (resetSettle s cid zid) := by
  unfold Machine.resetSettle
  split
  · exact h
  · extract_lets lost s1
    have h1 : Marked deep s1 := .foldl h fun _ _ ht => .resetMember ht
    exact .ite h (.ite (.resetEnd h) (.ite (.resetEnd h1) h1))

theorem Marked.resetGo {c : Cmd} : Marked deep (resetGo s c) :=
  .resetSettle (.foldl (.modCmd (.jrnZone (.setZone (.setVoidBits .forgetUnread)))) (fun _ _ ht => .resetMember ht))

theorem Marked.retryResets (h : Marked deep s) : Marked deep (retryResets s) := .foldl h fun _ _ ht => .ite ht .resetGo

/-! ### Rebuild -/

theorem Marked.modUnit {fg zid : Nat} {f : RebUnit → RebUnit} : Marked deep (modUnit s fg zid f) := .modGroup

theorem Marked.wantSpareErase (h : Marked deep s) {zid j : Nat} : Marked deep (wantSpareErase s zid j) := by
  unfold Machine.wantSpareErase
  split
  · split
    · exact .ite h (.spareErase h)
    · exact h
  · exact h

theorem Marked.rebProgram (h : Marked deep s) {fg zid r j : Nat} : Marked deep (rebProgram s fg zid r j) := by
  unfold Machine.rebProgram
  split
  · exact .queueProg h
  · exact h

theorem Marked.dropRebRecons (h : Marked false s) {fg zid : Nat} : Marked false (dropRebRecons s fg zid) :=
  .foldl h fun _ _ ht => .endRecon (.dropSurvivors ht)

theorem Marked.unitRowLost (h : Marked false s) {fg zid r lost : Nat} : Marked false (unitRowLost s fg zid r lost) := by
  unfold Machine.unitRowLost
  dsimp only
  split
  · exact .foldl .modUnit fun _ _ ht => .rebProgram ht
  · exact .ite (.dropRebRecons h) (.loseRow (.dropRebRecons h))

theorem Marked.unitRow (h : Marked false s) {fg zid : Nat} {lt : Layout} {r : Nat} {ms : List Nat} :
    Marked false (unitRow s fg zid lt r ms) := by
  unfold Machine.unitRow
  extract_lets begun
  refine .ite (.foldl .modUnit fun _ _ ht => .rebProgram ht) ?_
  split
  · exact h
  · next t sl hslots =>
    extract_lets u w go
    have hu : Marked false u := .modUnit
    split
    · next v hv => exact foldl_bind_keeps (fun _ _ _ ht => .startRecon ht) hu hv
    · exact .unitRowLost hu

theorem Marked.unitStep (h : Marked false s) {fg : Nat} {u : RebUnit} : Marked false (unitStep s fg u) := by
  unfold Machine.unitStep
  split
  · split
    · exact h
    · exact .ite h (.ite (.unitRow h) (.foldl h (fun _ _ ht => .wantSpareErase ht)))

theorem Marked.passEnd {fg : Nat} : Marked deep (passEnd s fg) := by
  unfold Machine.passEnd
  dsimp only
  split
  · exact .finishDurable (.writeOut (.raise .modGroup))
  · exact .raise .modGroup

theorem Marked.settleUnits (h : Marked false s) {fg : Nat} : Marked false (settleUnits s fg) :=
  .foldl h fun _ _ _ => .ite .modGroup .modUnit

theorem Marked.kickUnits (h : Marked false s) {fg : Nat} : Marked false (kickUnits s fg) := by
  unfold Machine.kickUnits
  extract_lets s1 g open_
  have h1 : Marked false s1 := .settleUnits h
  refine .ite .passEnd (.ite h1 ?_)
  split
  · exact .unitStep h1
  · exact h1

/-- Without a group nothing is rebuilt. -/
theorem Marked.kickRebuilds (h : Marked deep s) : Marked deep (kickRebuilds s) := h.foldGroups fun _ _ ht => .kickUnits ht

/-! ### Reshape -/

theorem Marked.modCp {fg : Nat} {f : CopyRow → CopyRow} : Marked deep (modCp s fg f) := .modGroup

theorem Marked.copyLost {fg blk : Nat} : Marked deep (copyLost s fg blk) := .modCp

theorem Marked.copyRead (h : Marked deep s) {fg zid rb blk from_ : Nat} : Marked deep (copyRead s fg zid rb blk from_) := by
  unfold Machine.copyRead
  split
  · refine .ite .copyLost (.ite ?staged (.ite ?lost (.addRowItem h)))
    case staged => exact .getD (fun _ => .readCopy h) .copyLost
    case lost => exact .getD (fun _ => .startRecon h) .copyLost
  · exact h

theorem Marked.copyBegin {fg zid : Nat} {new : Layout} : Marked deep (copyBegin s fg zid new) := .askBufs .modGroup

theorem Marked.copyStream (h : Marked deep s) {fg blk : Nat} : Marked deep (copyStream s fg blk) := by
  unfold Machine.copyStream
  split
  · split
    · exact .startXfer h
    · exact h
  · exact h

theorem Marked.copyStreams (h : Marked deep s) {fg : Nat} : Marked deep (copyStreams s fg) := by
  unfold Machine.copyStreams
  split
  · exact .foldl .modCp fun _ _ ht => .copyStream ht
  · exact h

theorem Marked.copyToEngine (h : Marked deep s) {fg zid : Nat} {cp : CopyRow} {new : Layout} :
    Marked deep (copyToEngine s fg zid cp new) := by
  unfold Machine.copyToEngine
  extract_lets q idle slots
  have hslots (t : State × Tab Nat) (ht : slots = some t) : Marked deep t.1 := by
    refine foldl_bind_keeps (P := fun u : State × Tab Nat => Marked deep u.1) (fun u p w _ hw => ?_) h ht
    obtain ⟨x, hx, rfl⟩ := Option.map_eq_some_iff.1 hw
    exact .takeSlot? hx
  split
  · next e t sl _ ht =>
    have ht : Marked deep t := by
      split at ht
      · exact hslots _ ht
      · cases ht
    exact .copyStreams .modCp
  · exact h

theorem Marked.copyStreamed (h : Marked deep s) {fg : Nat} {cp : CopyRow} {new : Layout} : Marked deep (copyStreamed s fg cp new) := by
  unfold Machine.copyStreamed
  split
  · exact .modCp
  · exact h

theorem Marked.dropCp {fg : Nat} (h : Marked false s) : Marked false (dropCp s fg) := by
  unfold Machine.dropCp
  split
  · exact h
  · extract_lets s1 s2 s3 s4 s5
    have h3 : Marked false s3 := .cancelXfers (.dropBufXfers (.dropUses .modGroup))
    have h5 : Marked false s5 := .foldl (.same h3 (by rfl)) fun _ _ _ => .dropSlot
    exact .foldl h5 fun _ _ ht => .returnBuf ht

theorem Marked.copyRowDone {fg : Nat} : Marked false (copyRowDone s fg) := .dropCp .modGroup

theorem Marked.copyProgram {fg zid : Nat} {cp : CopyRow} {new : Layout} :
    Marked false (copyProgram s fg zid cp new) :=
  .ite .copyRowDone (.foldl .modCp (fun _ _ ht => .queueProg ht))

theorem Marked.copyStage {fg zid : Nat} {cp : CopyRow} {n : Nat} : Marked deep (copyStage s fg zid cp n) :=
  .modCp

theorem Marked.copyWrite (h : Marked false s) {fg zid : Nat} {new : Layout} : Marked false (copyWrite s fg zid new) := by
  unfold Machine.copyWrite
  split
  · exact h
  · split
    refine .ite h (.ite (.ite ?engine ?logged) ?staged)
    case engine => exact .ite (.copyStreamed h) (.copyToEngine h)
    case logged => exact .ite (.ite h .modCp) (.ite .copyProgram h)
    case staged => exact .copyStage

theorem Marked.eraseOld (h : Marked deep s) {fg zid : Nat} {l : List (Nat × Nat × Nat)} : Marked deep (eraseOld s fg zid l) :=
  .foldl h fun _ _ ht => .queueOp ht

theorem Marked.kickReshape (h : Marked false s) {fg : Nat} : Marked false (kickReshape s fg) := by
  unfold Machine.kickReshape
  dsimp only
  split
  · refine .ite h (.ite ?copying (.ite (.wantStaging h) (.ite (.ite (.eraseOld .modGroup) (.copyWrite .copyBegin)) h)))
    split
    · exact .ite .copyRowDone (.copyWrite h)
    · exact .copyWrite h
  · exact h

/-- Without a group nothing is copied. -/
theorem Marked.kickReshapes (h : Marked deep s) : Marked deep (kickReshapes s) := h.foldGroups fun _ _ ht => .kickReshape ht

/-! ### Sweeps and scrubs -/

theorem Marked.takeLeases (h : Marked deep s) {bgs : List Nat} {code cid : Nat} {t : State}
    (ho : takeLeases s bgs code cid = some t) : Marked deep t := by
  unfold Machine.takeLeases at ho
  split at ho <;> cases ho
  exact h

theorem Marked.modSweep (h : Marked deep s) {id : Nat} {f : Sweep → Sweep} : Marked deep (modSweep s id f) := .same h rfl

theorem Marked.sweepBegin (h : Marked deep s) {id bg : Nat} : Marked deep (sweepBegin s id bg) := .same h rfl

theorem Marked.sweepRead (h : Marked deep s) {w : Sweep} {b wl : Nat} {x : Nat × Int} : Marked deep (sweepRead s w b wl x) :=
  .foldl (.modSweep h) fun _ _ ht => .addItem ht

theorem Marked.sweepNote (h : Marked deep s) {w : Sweep} : Marked deep (sweepNote s w) := by
  unfold Machine.sweepNote
  split
  · exact .modSweep h
  · exact h

theorem Marked.sweepStep (h : Marked deep s) {id : Nat} : Marked deep (sweepStep s id) := by
  unfold Machine.sweepStep
  dsimp only
  split
  · exact h
  · refine .ite (.modSweep (.sweepNote h)) ?_
    split
    · exact .sweepRead (.sweepNote h)
    · split
      · exact .sweepRead (.modSweep (.sweepNote h))
      · exact .sweepNote h
    · exact .modSweep (.sweepNote h)

theorem Marked.kickSweeps (h : Marked deep s) : Marked deep (kickSweeps s) := .foldl h fun _ _ ht => .sweepStep ht

theorem Marked.sweepGot (h : Marked deep s) {id weight : Nat} : Marked deep (sweepGot s id weight) := .modSweep h

theorem Marked.modScrub (h : Marked deep s) {cid : Nat} {f : Scrub → Scrub} : Marked deep (modScrub s cid f) := .same h rfl

theorem Marked.scrubBegin (h : Marked deep s) {c : Cmd} : Marked deep (scrubBegin s c) := .same h rfl

theorem Marked.scrubRow (h : Marked deep s) {x : Scrub} {r : Nat} : Marked deep (scrubRow s x r) := by
  unfold Machine.scrubRow
  split
  · exact .modScrub h
  · exact .foldl (.modScrub h) fun _ _ ht => .foldl ht (fun _ _ ht => .addRowItem ht)

theorem Marked.scrubTake (h : Marked deep s) {cid j cwx : Nat} {body : Option (List Byte)} : Marked deep (scrubTake s cid j cwx body) :=
  .modScrub h

theorem Marked.scrubFind (h : Marked deep s) {cid : Nat} {i : Item} {kind detail : Nat} : Marked deep (scrubFind s cid i kind detail) :=
  .modScrub h

theorem Marked.scrubFailed (h : Marked deep s) {cid : Nat} {i : Item} {kind detail : Nat} :
    Marked deep (scrubFailed s cid i kind detail) := by
  unfold Machine.scrubFailed
  extract_lets p s1 s2 d
  have h1 : Marked deep s1 := .modScrub (.scrubFind h)
  have h2 : Marked deep s2 := .ite (.advise h1) h1
  exact .getD (fun _ => .startRecon h2) (.scrubTake h2)

theorem Marked.scrubRowEnd (h : Marked deep s) {x : Scrub} {r : Nat} : Marked deep (scrubRowEnd s x r) := by
  unfold Machine.scrubRowEnd
  extract_lets next whole
  have hnext {t : State} (ht : Marked deep t) : Marked deep (next t) := .modScrub ht
  have hwhole {kind detail : Nat} : Marked deep (whole s kind detail) := .modScrub (.freeVal h)
  split
  · exact hnext h
  · refine .ite (hnext (.modScrub hwhole)) (.ite ?_ (hnext h))
    split
    · refine hnext ?_
      split
      · exact .advise (.modScrub hwhole)
      · exact .modScrub hwhole
    · exact hnext h

theorem Marked.scrubStep (h : Marked deep s) {cid : Nat} : Marked deep (scrubStep s cid) := by
  unfold Machine.scrubStep
  extract_lets s1
  have h1 : Marked deep s1 := by
    simp only [s1]
    split
    · split
      · exact .ite (.scrubRowEnd h) h
      · exact h
    · exact h
  split
  · split
    · exact .ite h1 (.scrubRow h1)
    · exact h1
  · exact h1

theorem Marked.kickScrubs (h : Marked deep s) : Marked deep (kickScrubs s) := .foldl h fun _ _ ht => .scrubStep ht

theorem Marked.askLeases (h : Marked deep s) {c : Cmd} : Marked deep (askLeases s c) := by
  unfold Machine.askLeases
  split
  · next ho => exact .modCmd (.ite (.sweepBegin .bump) (.scrubBegin (.takeLeases h ho)))
  · exact .modCmd h

theorem Marked.retryLeases (h : Marked deep s) : Marked deep (retryLeases s) := .foldl h fun _ _ ht => .askLeases ht

theorem Marked.kickAuto (h : Marked deep s) : Marked deep (kickAuto s) := by
  refine .foldl h fun t bg ht => ?_
  dsimp only
  split
  · exact .sweepBegin .bump
  · exact .same ht rfl

/-! ### Write-protect pins and raw reads -/

theorem Marked.wpPin (h : Marked deep s) {c : Nat} : Marked deep (wpPin s c) := .ite (.same h (by rfl)) h

theorem Marked.rawReadSettle (h : Marked deep s) {cid : Nat} : Marked deep (rawReadSettle s cid) := by
  unfold Machine.rawReadSettle
  split
  · refine .ite ?_ h
    split
    · exact .finish h
    · exact .finish h
  · exact h

theorem Marked.rawReadFail (h : Marked deep s) {cid idx st site want : Nat} : Marked deep (rawReadFail s cid idx st site want) := by
  unfold Machine.rawReadFail
  split
  · exact h
  · exact .rawReadSettle (.modCmd h)

/-! ### Ladders and decoded codewords -/

theorem Marked.useSteps (h : Marked deep s) {uses : List Use} {step : Nat} : Marked deep (useSteps s uses step) := by
  refine .foldl h fun _ _ ht => ?_
  split
  · exact .modCmd ht
  · exact .modCmd ht
  · exact ht

/-- The end of a ladder is counted. -/
theorem Marked.ladderEnd {i : Item} {iters : Nat} {failed : Bool} : Marked deep (ladderEnd s i iters failed) := by
  unfold Machine.ladderEnd
  extract_lets p n s1
  have h1 : Marked deep s1 := .bump
  refine .ite h1 (.useSteps (.addLoad (.ite ?_ h1)))
  split
  · exact .estimate h1
  · exact h1

theorem Marked.resumeLadder (h : Marked deep s) {r : Recon} {cid off step : Nat} : Marked deep (resumeLadder s r cid off step) := by
  unfold Machine.resumeLadder
  split
  · exact .ite (.blkReconOrFail h) (.addNew h)
  · exact h

theorem Marked.reconFails (h : Marked false s) {r : Recon} : Marked false (reconFails s r) := by
  unfold Machine.reconFails
  split
  · exact .ite (.resumeLadder (.endRecon (.dropSurvivors h))) (.blkLost (.endRecon (.dropSurvivors h)))
  · exact .unitRowLost (.endRecon (.dropSurvivors h))
  · exact .copyLost
  · exact .scrubTake (.endRecon (.dropSurvivors h))

theorem Marked.survivorOut (h : Marked false s) {rid m : Nat} {why : Option Result} : Marked false (survivorOut s rid m why) := by
  unfold Machine.survivorOut
  dsimp only
  split
  · exact h
  · refine .ite ?_ h
    split
    · next ho => exact .askMore (.modRecon h) ho
    · exact .reconFails (.modRecon h)
    · exact .modRecon h

theorem Marked.copyRecon (h : Marked deep s) {i : Item} {fg zid row blk : Nat} {t : State}
    (ho : copyRecon s i fg zid row blk = some t) : Marked deep t := .startRecon h ho

theorem Marked.copyFail (h : Marked deep s) {i : Item} {fg zid row blk : Nat} : Marked deep (copyFail s i fg zid row blk) := by
  unfold Machine.copyFail
  split
  · exact h
  · exact .ite (.getD (fun _ => .copyRecon h) .copyLost) (.copyRead h)

theorem Marked.useFail (h : Marked false s) {i : Item} {u : Use} {st site want : Nat} : Marked false (useFail s i u st site want) := by
  unfold Machine.useFail
  split
  · exact .ite (.blkFail h) (.blkReconOrFail (.noteFail h))
  · exact .ite (.blkFail h) (.stagedRead (.noteFail h))
  · exact .survivorOut h
  · exact .foldRead h
  · exact .restageRead h
  · exact .copyFail h
  · refine .ite ?_ h
    split
    · exact .advise h
    · exact h
  · exact .ite (.scrubTake h) (.ite (.scrubTake (.scrubFind h)) (.ite (.scrubFailed h) (.scrubFailed h)))
  · exact .sweepGot (.same h (by rfl))
  · exact .rawReadFail h

theorem Marked.failAll {i : Item} {iters st site want : Nat} {failed : Bool} : Marked false (failAll s i iters st site want failed) :=
  .foldl .ladderEnd fun _ _ ht => .useFail ht

theorem Marked.earlyRecon {i : Item} {step : Nat} {t : State} (ho : earlyRecon s i step = some t) : Marked deep t := by
  unfold Machine.earlyRecon at ho
  dsimp only at ho
  split at ho
  · exact .grantAround ho
  · cases ho

theorem Marked.leave (h : Marked false s) {i : Item} {st site want : Nat} {u : Use} : Marked false (leave s i st site want u) := by
  unfold Machine.leave
  split
  · exact .blkReconOrFail h
  · exact .useFail h

/-- A codeword goes on around its read, which is counted, or as an item that reads. -/
theorem Marked.nextStep {i : Item} {n : Nat} : Marked true (nextStep s i n) := by
  unfold Machine.nextStep
  split
  · next hearly => exact .earlyRecon hearly
  · exact .queueStep (.lastItem rfl rfl)

/-- A ladder that goes on leaves a register written or an item that reads. -/
theorem Marked.climb {i : Item} {iters st site want : Nat} : Marked true (climb s i iters st site want) := by
  unfold Machine.climb
  refine .ite (.worn .failAll) (.ite (.worn .failAll) (.ite (.worn .failAll) ?_))
  extract_lets out stay s1
  split
  · next hall =>
    refine .worn (.foldl ?_ fun _ _ ht => .leave ht)
    rw [if_pos hall]
    exact .ladderEnd
  · split
    · exact .worn .failAll
    · exact .nextStep

/-- A codeword that is decoded ends its ladder, holds, or goes on. -/
theorem Marked.decoded {i : Item} {out : List Byte} {iters : Nat} : Marked true (decoded s i out iters) := by
  unfold Machine.decoded
  extract_lets s1 t s2 s3
  split
  · split
    · exact .ladderEnd
    · next hhold =>
      have hheld : s3 = _ := if_neg hhold
      rw [hheld]
      exact .lastItem rfl rfl
  · exact .climb

theorem Marked.releaseHeld (h : Marked true s) : Marked true (releaseHeld s) := by
  refine .foldl (.foldl h fun t i ht => ?_) fun t c ht => .foldl ht fun t b ht => ?_
  · split
    · exact .ite ht .decoded
    · exact ht
  · have hb := ht.blkBody (cid := c.cid) (off := b.off) (g := (blkPlace t (cZid c) b.off).2.2.2.1) (body := b.body) (isRecon := true)
    split
    · next he =>
      rw [he] at hb
      exact .blkFail hb
    · next he =>
      rw [he] at hb
      exact hb

/-- A reconstruction that has no region stays as it is; one that gets it holds a slot, whatever becomes of it. -/
theorem Marked.kickRecons (h : Marked deep s) : Marked deep (kickRecons s) := by
  refine .foldl h fun t r ht => ?_
  split
  · next hregion =>
    have hr {deep : Bool} {f : Recon → Recon} : Marked deep (Machine.modRecon _ r.id f) := .modRecon (.takeRegion hregion)
    exact .getD (fun _ => .askMore hr) (.worn (.reconFails hr))
  · exact ht

/-! ### Bus hits -/

theorem Marked.clearHits (h : Marked deep s) : Marked deep (clearHits s) := .same h rfl

/-! ### Power fail -/

theorem Marked.stagePartials (h : Marked deep s) : Marked deep (stagePartials s) := .foldl h fun _ _ ht => .wantStaging ht

theorem Marked.pfStage (h : Marked deep s) {low : Nat} : Marked deep (pfStage s low) := .foldl h fun _ _ ht => .ite (.wantStaging ht) ht

theorem Marked.jrnProgress (h : Marked deep s) {zid row : Nat} : Marked deep (jrnProgress s zid row) := .jrnAppend h

theorem Marked.pfFlushNow (h : Marked deep s) : Marked deep (pfFlushNow s) :=
  .modJrn (.closePage (.foldl h (fun _ _ ht => .jrnProgress ht)))

theorem Marked.pfClear (h : Marked deep s) : Marked deep (pfClear s) := .modJrn h

theorem Marked.pfailProgress (h : Marked deep s) : Marked deep (pfailProgress s) := by
  unfold Machine.pfailProgress
  extract_lets s1 s2 s3 still s4
  have h1 : Marked deep s1 := .ite (.pfStage h) h
  have h2 : Marked deep s2 := .ite (.pfFlushNow h1) h1
  have h3 : Marked deep s3 := .ite (.closePage h2) h2
  have h4 : Marked deep s4 := .ite (.raise (.modJrn h3)) h3
  exact .ite (.pfClear h4) h4

/-! ### Discards of a restart -/

theorem Marked.discardsDone (h : Marked deep s) : Marked deep (discardsDone s) :=
  h.imp id (Or.imp id (Or.imp (fun hg hn => hg (List.map_eq_nil_iff.1 hn)) id))

/-! ### Rungs -/

theorem Marked.setChanState (h : Marked deep s) {c v : Nat} : Marked deep (setChanState s c v) := .ite h (.trace (.raise .wrf))

theorem Marked.retop (h : Marked deep s) {c : Nat} : Marked deep (retop s c) := by
  unfold Machine.retop
  extract_lets top s1 rung
  have h1 : Marked deep s1 := .ite h .wrf
  exact .ite h (.ite (.ite h1 (.setChanState h1)) h1)

/-! ### The pump -/

theorem Marked.pumpJournal (h : Marked deep s) : Marked deep (pumpJournal s) := by
  unfold Machine.pumpJournal
  extract_lets s1 s2
  have h1 : Marked deep s1 := .ite (.drainBacklog h) h
  have h2 : Marked deep s2 := .ite (.turnAhead h1) h1
  exact .discardsDone (.retirePages (.jrnMark h2))

theorem Marked.pumpRows (h : Marked deep s) : Marked deep (pumpRows s) := .rowsProgram (.rowsIntent h)

theorem Marked.pumpStagings (h : Marked deep s) : Marked deep (pumpStagings s) := .foldl h fun _ _ ht => .stageSettle ht

theorem Marked.drainStage (h : Marked deep s) : Marked deep (drainStage s) := .ite (.stagePartials h) h

theorem Marked.pumpWork (h : Marked deep s) : Marked deep (pumpWork s) := by
  unfold Machine.pumpWork
  extract_lets s1 s2 s3
  have h1 : Marked deep s1 := .kickReshapes (.kickRebuilds (.kickRecons h))
  have h2 : Marked deep s2 := .kickSweeps (.kickScrubs (.retryResets (.retryLeases (.kickAuto h1))))
  have h3 : Marked deep s3 := .retryAppends (.settleZones h2)
  exact .drainStage (.foldl h3 fun _ _ ht => .servePressure ht)

theorem Marked.pumpRungs (h : Marked deep s) : Marked deep (pumpRungs s) := .foldl h fun _ _ ht => .retop ht

theorem Marked.pumpPins (h : Marked deep s) : Marked deep (pumpPins s) := .ite (.foldl h (fun _ _ ht => .wpPin ht)) h

theorem Marked.pumpDisables (h : Marked deep s) : Marked deep (pumpDisables s) := .foldl h fun _ _ ht => .ite (.finish ht) ht

theorem Marked.pumpGovern (h : Marked deep s) : Marked deep (pumpGovern s) := .govEvaluate h

/-- The pump keeps the marks. -/
theorem Marked.pump (h : Marked true s) : Marked true (pump s) :=
  .pumpGovern (.pumpDomains (.pumpPins (.pumpRungs (.clearHits (.completeReady (.pumpDisables (.pfailProgress (.releaseHeld
    (.pumpWork (.pumpStagings (.pumpRows (.pumpJournal h))))))))))))

end Sys2Proof.Machine
end

