-- ==== Sys2Proof/Proofs/RawReads.lean ====
section
/-! RAW_READ where two items bear one number (R177, R182). `addItem` finds the item of the same place (`sameRead`), but changes it by
`modItem`, which takes the first item of that number. A state may hold two items of one number, of which the first is of another place; the
codeword's use then goes to that one, and no item of the state reads what RAW_READ asked for. -/

namespace Sys2Proof.Machine
namespace SharedNumber

/-- RAW_READ 0 of one codeword at the start of block 0 of LUN 0. -/
def cmd : Cmd := { cid := 0, ring := 0, fetchNo := 0, home := 0, pkt := 0x41 :: zeros 0x13 ++ [1] }

/-- Item 0: codeword 0 of block 0 of a LUN, waiting for its prediction. -/
def item (g : Nat) : Item :=
  { id := 0, kind := .x, deadline := 0, real := false, glun := g, block := 0, wl := 0, page := 0, cw := 0, slc := false, use := [],
    level := some 0, stage := .predicting }

/-- The item of LUN 0 stands behind one of LUN 1 with the same number. -/
def state : State := { State.reset with cmds := [cmd], items := [item 1, item 0] }

/-- Nothing has happened: no register written, no bank, no group, no item that strays. -/
def bare (s : State) : Bool := s.regs.isEmpty && s.banks.isEmpty && s.groups.isEmpty && s.items.all (fun i => !strays i)

theorem not_marked_of_bare {s : State} (h : bare s = true) : ¬ Marked true s := by
  simp only [bare, Bool.and_eq_true, List.isEmpty_iff, List.all_eq_true, Bool.not_eq_true'] at h
  obtain ⟨⟨⟨hr, hb⟩, hg⟩, hi⟩ := h
  rintro (h | h | h | ⟨-, i, hm, hs⟩)
  · exact h hr
  · exact h hb
  · exact h hg
  · rw [hi i hm] at hs
    cases hs

theorem startable_state : startable state 0 0x41 = some cmd := by decide +kernel

theorem channel_in_service : rdf (running state 0) (regPhyState (chOf 0)) 1 0 ≠ 3 := by decide +kernel

theorem not_underErase : underErase (running state 0) 0 0 = false := by decide +kernel

/-- The RAW_READ runs, and leaves the state bare: its use went to the item of LUN 1. -/
theorem bare_of_rawRead : (match exec (.rawRead 0) state with | .next t => bare t | _ => false) = true := by decide +kernel

/-- A state with the item that the statement asks for is marked. -/
theorem marked_of_reads {s : State} {i : Item} (hi : i ∈ s.items) (hu : .raw 0 0 0 ∈ i.use) (hg : i.glun = 0) : Marked true s := by
  refine .inr (.inr (.inr ⟨rfl, i, hi, ?_⟩))
  simp [strays, hu, hg]

/-- No state that has the item leads there. -/
theorem no_reading_item {v : State} (hv : exec (.rawRead 0) state = .next (pump v)) {i : Item} (hi : i ∈ v.items)
    (hu : .raw 0 0 0 ∈ i.use) : i.glun ≠ 0 := by
  intro hg
  have hb := bare_of_rawRead
  rw [hv] at hb
  exact not_marked_of_bare hb (.pump (marked_of_reads hi hu hg))

end SharedNumber

/-- Refutes O48: in `SharedNumber.state` item 0 of LUN 1 stands before item 0 of LUN 0, which is of the place that RAW_READ 0 reads. The use
of its codeword goes to the first item of that number, and no item of LUN 0 serves it: the outcome is bare
(`SharedNumber.bare_of_rawRead`), and the pump never takes a state with such an item to a bare one (`Marked.pump`). -/
theorem not_rawAccessesAreRefusedOrQueued : ¬ Obligations.RawAccessesAreRefusedOrQueued := by
  unfold Obligations.RawAccessesAreRefusedOrQueued
  intro h
  obtain ⟨-, -, -, hread, -⟩ := h SharedNumber.state 0 SharedNumber.cmd
  obtain ⟨-, hqueued⟩ := hread SharedNumber.startable_state SharedNumber.channel_in_service
  obtain ⟨v, hv, -, -, hitems⟩ := hqueued SharedNumber.not_underErase
  obtain ⟨i, hi, hu, hg, -⟩ := hitems 0 (by decide)
  exact SharedNumber.no_reading_item hv hi hu hg

end Sys2Proof.Machine
end
